-- ==== Sys2Proof/Word.lean ====
section
/-! DEFINITION. The word types and their plainest arithmetic. -/

namespace Sys2Proof

/-- A 64-bit register word (R152, spec/09_core.md). -/
abbrev Word := BitVec 64

/-- A byte of memory. -/
abbrev Byte := BitVec 8

/-- A 32-bit lane word (R153). -/
abbrev Half := BitVec 32

/-- A queue entry of 2,048 bits (R153). -/
abbrev QEntry := BitVec 2048

/-- The sign extension of the low w bits of x to 64 bits. -/
def Word.sext (w : Nat) (x : Word) : Word := (x.truncate w).signExtend 64

/-- The zero extension of the low w bits of x to 64 bits. -/
def Word.zext (w : Nat) (x : Word) : Word := (x.truncate w).zeroExtend 64

end Sys2Proof
end

