-- ==== Sys2Proof/Config.lean ====
section
/-! DEFINITION. What an implementation fixes and what the specification leaves open.

Every constant here is opaque: no proof can see its value, so a statement holds whatever it is. The
entries of the assumption log named beside each say which rule leaves it open. -/

namespace Sys2Proof.Config

/-- Which of the two bracketing values a special function returns when its exact result is not
representable: the family (0 reciprocal, 1 reciprocal square root, 2 exponential, 3 logarithm), the
lane's bits (R234, spec/12_numbers.md; log 10). -/
opaque bracketUp : Nat → Nat → Bool

/-- The digest SHAKE256 with 32 bytes of output (R57, R59; log 8). -/
opaque shake256 : List (BitVec 8) → List (BitVec 8)

/-- The two key digests in the mask ROM (R57; log 8). -/
opaque romDigest : Bool → List (BitVec 8)

/-- XMSS verification of R57: public key, message, signature (log 8). -/
opaque xmssVerify : List (BitVec 8) → List (BitVec 8) → List (BitVec 8) → Bool

/-- The signature that the identity key makes of a message at an XMSS index (R58; log 8). -/
opaque xmssSign : Nat → List (BitVec 8) → List (BitVec 8)

/-- The KMAC256 tag of R60 under the map key of the West (false) or East (true) rim die's key engine (log 8). -/
opaque kmac256 : Bool → List (BitVec 8) → List (BitVec 8)

/-- What the payload of a BOOTSRV record names: the boot server and the file (R60; log 8). -/
opaque bootServer : List (BitVec 8) → Nat × List (BitVec 8)

/-- The rate caps that the payload of a GUARDS record sets: host writes, then Ethernet egress, in bytes per second (R60, R61; log 8). -/
opaque guardCaps : List (BitVec 8) → Nat × Nat

/-- The limit in °C that the payload of a THERMAL record sets (R60; log 8). -/
opaque thermalLimit : List (BitVec 8) → Nat

/-- The chip number that the payload of a CHIP record sets (R60; log 8). -/
opaque chipNumber : List (BitVec 8) → Nat

/-- The spare sites, then the retired sites, that the payload of a SPAREMAP record names (R60; log 8). -/
opaque spareSites : List (BitVec 8) → List Nat × List Nat

/-- The payload of a SPAREMAP record that names these sites (R60; log 8). -/
opaque sparePayload : List Nat → List Nat → List (BitVec 8)

/-- The bytes of a configuration record that its authenticator covers: type, length, version and payload (R60; log 8). -/
opaque recordBytes : Nat → Nat → List (BitVec 8) → List (BitVec 8)

/-- The hash that chooses among the ports of a mask for a chip and a 64 KiB frame number (R39; log 7). -/
opaque linkPort : Nat → Nat → Nat → Nat

/-- The set of the control TLB that a page's number falls into, below 64 (R131; log 11). -/
opaque tlbSet : Nat → Nat

/-- The 64-bit item that the debug window shows of some numbers for an item whose bits R197 does not lay out: the space, the item's k,
the numbers (R197; log 17). -/
opaque dbgItem : Nat → Nat → List Nat → BitVec 64

end Sys2Proof.Config
end

