-- ==== Sys2Proof/Machine/Table.lean ====
section
/-! DEFINITION. Finite tables as plain data: lists of a key and a value, the keys rising.

Memory is such a list of bytes in which no entry equals what an unlisted address reads as, so equal
memories are equal lists. -/

namespace Sys2Proof.Machine

/-- A finite table: keys strictly rising. -/
abbrev Tab (α : Type) := List (Nat × α)

/-- The value at a key, if the table lists it. -/
def Tab.find? {α : Type} : Tab α → Nat → Option α
  | [], _ => none
  | (k, v) :: rest, n => if n = k then some v else if n < k then none else Tab.find? rest n

/-- The table with the value v at key n. -/
def Tab.put {α : Type} : Tab α → Nat → α → Tab α
  | [], n, v => [(n, v)]
  | (k, w) :: rest, n, v =>
    if n < k then (n, v) :: (k, w) :: rest
    else if n = k then (n, v) :: rest
    else (k, w) :: Tab.put rest n v

/-- The table without key n. -/
def Tab.drop {α : Type} : Tab α → Nat → Tab α
  | [], _ => []
  | (k, w) :: rest, n =>
    if n < k then (k, w) :: rest
    else if n = k then rest
    else (k, w) :: Tab.drop rest n

/-- The keys rise strictly from a bound that the first key must exceed. -/
def Tab.above {α : Type} : Option Nat → Tab α → Bool
  | _, [] => true
  | none, (k, _) :: rest => Tab.above (some k) rest
  | some b, (k, _) :: rest => decide (b < k) && Tab.above (some k) rest

/-- The canonical form of a table: keys strictly rising. -/
def Tab.wf {α : Type} (t : Tab α) : Bool := Tab.above none t

/-- The table with f applied at key n, if it is listed. -/
def Tab.modify {α : Type} (t : Tab α) (n : Nat) (f : α → α) : Tab α :=
  match t.find? n with
  | none => t
  | some v => t.put n (f v)

/-- A table whose unlisted keys read as d: the value at n. -/
def Tab.getD {α : Type} (t : Tab α) (n : Nat) (d : α) : α := (t.find? n).getD d

/-- A table whose unlisted keys read as d, with v at n: no entry equals d. -/
def Tab.setD {α : Type} [DecidableEq α] (t : Tab α) (n : Nat) (d v : α) : Tab α :=
  if v = d then t.drop n else t.put n v

/-- The memory of the package and of what it reaches: bytes by key, as Host.Cell (Machine/Ops.lean lays out
the keys). -/
abbrev Memory := Tab (BitVec 8)

/-- What a byte that nothing has written reads as. The specification gives memory no reset contents
(R117 to R119): DESIGN CHOICE, log 9. -/
def Memory.unwritten : BitVec 8 := 0

/-- The byte at a key. -/
def Memory.read (m : Memory) (a : Nat) : BitVec 8 := m.getD a Memory.unwritten

/-- The memory with byte b at key a. -/
def Memory.write (m : Memory) (a : Nat) (b : BitVec 8) : Memory := m.setD a Memory.unwritten b

/-- The canonical form of a memory: keys strictly rising, and no entry that an unlisted key would read as. -/
def Memory.wf (m : Memory) : Bool := Tab.wf m && m.all (fun c => c.2 != Memory.unwritten)

/-- n bytes from key a, the lowest first. -/
def Memory.readBytes (m : Memory) (a : Nat) : Nat → List (BitVec 8)
  | 0 => []
  | n + 1 => m.read a :: Memory.readBytes m (a + 1) n

/-- The memory with the bytes bs from key a on, the first at the lowest key. -/
def Memory.writeBytes (m : Memory) (a : Nat) : List (BitVec 8) → Memory
  | [] => m
  | b :: rest => Memory.writeBytes (m.write a b) (a + 1) rest

/-- A little-endian number from bytes (R215, R286). -/
def leNat : List (BitVec 8) → Nat
  | [] => 0
  | b :: rest => b.toNat + 256 * leNat rest

/-- n little-endian bytes of a number. -/
def leBytes : Nat → Nat → List (BitVec 8)
  | 0, _ => []
  | n + 1, v => BitVec.ofNat 8 v :: leBytes n (v / 256)

end Sys2Proof.Machine
end

