-- ==== Sys2Proof/Syntax.lean ====
section
/-! DEFINITION. The instructions: one constructor per row of spec/opcode_table.json.

212 rows are 32-bit words of the four streams (R255 to R269, spec/13_assembly.md and
spec/14_opcode_map.md): their operands are the fields of the word's format, register numbers as Fin,
immediates as bit vectors. 123 rows are steps of the other agents of the package: they carry what the
outside world brings. -/

namespace Sys2Proof

/-- The four instruction streams of a context (R151, spec/09_core.md). -/
inductive Strm where
  | c | t | m | v
deriving DecidableEq, Repr

namespace Op

/-! ### The operand records of the instruction formats (R256 to R261) -/

/-- CR words of the ALU family (R256, R265): `w` selects the 32-bit form. -/
structure Alu where
  g : Fin 8
  rd : Fin 32
  ra : Fin 32
  rb : Fin 32
  w : Bool
deriving DecidableEq, Repr

/-- CLZ and POPC (R265), whose rb is reserved. -/
structure AluUn where
  g : Fin 8
  rd : Fin 32
  ra : Fin 32
  w : Bool
deriving DecidableEq, Repr

/-- CI words with a signed 13-bit immediate (R256, R279). -/
structure Imm where
  g : Fin 8
  rd : Fin 32
  ra : Fin 32
  imm : BitVec 13
deriving DecidableEq, Repr

/-- SHIFTI words (R264, R280). -/
structure ShiftImm where
  g : Fin 8
  rd : Fin 32
  ra : Fin 32
  amount : Fin 64
deriving DecidableEq, Repr

/-- CU words with a signed 18-bit immediate (R256, R281). -/
structure Upper where
  g : Fin 8
  rd : Fin 32
  imm : BitVec 18
deriving DecidableEq, Repr

/-- CMP words (R264, R282). -/
structure Cmp where
  g : Fin 8
  pd : Fin 8
  ra : Fin 32
  rb : Fin 32
deriving DecidableEq, Repr

/-- CMPI words (R264, R283). -/
structure CmpImm where
  g : Fin 8
  pd : Fin 8
  ra : Fin 32
  imm : BitVec 13
deriving DecidableEq, Repr

/-- PRED words of three predicates (R284). -/
structure Pred where
  g : Fin 8
  pd : Fin 8
  pa : Fin 8
  pb : Fin 8
deriving DecidableEq, Repr

/-- CR words that read one x register: PFROM and the starts (R284, R295). -/
structure OneSrc where
  g : Fin 8
  ra : Fin 32
deriving DecidableEq, Repr

/-- PTO (R284). -/
structure OneDst where
  g : Fin 8
  rd : Fin 32
deriving DecidableEq, Repr

/-- SEL (R285). -/
structure Sel where
  g : Fin 8
  rd : Fin 32
  ra : Fin 32
  rb : Fin 32
  ps : Fin 8
deriving DecidableEq, Repr

/-- CM words: loads and stores (R256, R286). `rd` is the data register of a store. -/
structure Mem where
  g : Fin 8
  rd : Fin 32
  ra : Fin 32
  tok : Fin 8
  off : BitVec 10
deriving DecidableEq, Repr

/-- WAIT (R264, R289): a mask of wait tokens. -/
structure Wait where
  g : Fin 8
  mask : BitVec 8
deriving DecidableEq, Repr

/-- PBR (R256, R290). -/
structure Pbr where
  g : Fin 8
  bt : Fin 8
  disp : BitVec 20
deriving DecidableEq, Repr

/-- PBRX (R264, R290). -/
structure Pbrx where
  g : Fin 8
  bt : Fin 8
  ra : Fin 32
deriving DecidableEq, Repr

/-- BR and CALL (R256, R291). -/
structure Branch where
  g : Fin 8
  bt : Fin 8
  hint : Fin 4
deriving DecidableEq, Repr

/-- LOOPC (R292). -/
structure Loopc where
  g : Fin 8
  bt : Fin 8
  hint : Fin 4
  rc : Fin 32
deriving DecidableEq, Repr

/-- SDRAIN (R297): bit 0 T, bit 1 M, bit 2 V. -/
structure Drain where
  g : Fin 8
  mask : BitVec 3
deriving DecidableEq, Repr

/-- QBIND (R298): stream codes 0 C, 1 T, 2 V, 3 none. -/
structure Bind where
  g : Fin 8
  prod : Fin 4
  q : Fin 16
  cons : Fin 4
deriving DecidableEq, Repr

/-- QGET and QGETP (R299). -/
structure QGet where
  g : Fin 8
  rd : Fin 32
  q : Fin 16
  k : Fin 4
  tok : Fin 8
deriving DecidableEq, Repr

/-- QPUT (R299). -/
structure QPut where
  g : Fin 8
  k : Fin 4
  tok : Fin 8
  q : Fin 16
  rb : Fin 32
deriving DecidableEq, Repr

/-- TPOST and TAWAIT (R300): 1 T, 2 M, 3 V. -/
structure Token where
  g : Fin 8
  eng : Fin 4
deriving DecidableEq, Repr

/-- Token-guarded words with one source and no result (R301, R314). -/
structure TokSrc where
  g : Fin 8
  tok : Fin 8
  ra : Fin 32
deriving DecidableEq, Repr

/-- JOIN and TLRW (R303, R320). -/
structure TokSrc2 where
  g : Fin 8
  tok : Fin 8
  ra : Fin 32
  rb : Fin 32
deriving DecidableEq, Repr

/-- CR words without operands: END, CPOINT, ERET. -/
structure Bare where
  g : Fin 8
deriving DecidableEq, Repr

/-- EWAIT (R304). -/
structure TwoSrc where
  g : Fin 8
  ra : Fin 32
  rb : Fin 32
deriving DecidableEq, Repr

/-- Token-guarded words with a result and one source (R301, R306, R314). -/
structure TokRes where
  g : Fin 8
  rd : Fin 32
  ra : Fin 32
  tok : Fin 8
deriving DecidableEq, Repr

/-- CANCEL (R308). -/
structure Cancel where
  g : Fin 8
  tok : Fin 8
  ra : Fin 32
  level : Fin 8
deriving DecidableEq, Repr

/-- PWAIT, PTEST and PCANCEL (R309). -/
structure PawnRes where
  g : Fin 8
  rd : Fin 32
  h : Fin 16
  tok : Fin 8
deriving DecidableEq, Repr

/-- PDETACH and PPRIO (R309). -/
structure PawnArg where
  g : Fin 8
  tok : Fin 8
  h : Fin 16
  rb : Fin 32
deriving DecidableEq, Repr

/-- PSTAT and TIME (R309, R321). -/
structure ResTok where
  g : Fin 8
  rd : Fin 32
  tok : Fin 8
deriving DecidableEq, Repr

/-- ALLRED, BCAST, ALLGATH and REDSCAT (R311). -/
structure Coll where
  g : Fin 8
  detach : Bool
  h : Fin 16
  ra : Fin 32
  rb : Fin 32
deriving DecidableEq, Repr

/-- BARRIER (R311). -/
structure Barrier where
  g : Fin 8
  detach : Bool
  h : Fin 16
  ra : Fin 32
deriving DecidableEq, Repr

/-- The C stream's FENCE (R256, R315). -/
structure CFence where
  g : Fin 8
  before : BitVec 6
  after : BitVec 6
  scope : Fin 8
deriving DecidableEq, Repr

/-- CRR (R266, R316). -/
structure Crr where
  g : Fin 8
  rd : Fin 32
  tok : Fin 8
  reg : Fin 4096
deriving DecidableEq, Repr

/-- CRW (R266, R316). -/
structure Crw where
  g : Fin 8
  ra : Fin 32
  reg : Fin 4096
deriving DecidableEq, Repr

/-- TRAP and BKPT with their code (R319). -/
structure Code where
  g : Fin 8
  code : BitVec 15
deriving DecidableEq, Repr

/-- TQ words: LDQ and STQ (R258). -/
structure Tq where
  sync : Fin 8
  q : Fin 16
  ra : Fin 16
  ly : Fin 64
  step : BitVec 9
deriving DecidableEq, Repr

/-- PREF (R258, R327). -/
structure Pref where
  sync : Fin 8
  ra : Fin 16
  ly : Fin 64
  step : BitVec 9
deriving DecidableEq, Repr

/-- TC words: COPY, GATH and SCAT (R258, R328). -/
structure Tc where
  sync : Fin 8
  h : Fin 16
  dst : Fin 16
  src : Fin 16
  ly : Fin 64
  pri : Fin 8
  detach : Bool
  raw : Bool
deriving DecidableEq, Repr

/-- TR words: RLD and RST (R258, R330). -/
structure Tr where
  sync : Fin 8
  h : Fin 16
  dst : Fin 16
  src : Fin 16
  size : Fin 4
deriving DecidableEq, Repr

/-- SACC words (R258, R331). -/
structure Sacc where
  sync : Fin 8
  qi : Fin 16
  qv : Fin 16
  ra : Fin 16
deriving DecidableEq, Repr

/-- SCAS (R258, R332). -/
structure Scas where
  sync : Fin 8
  qv : Fin 16
  qd : Fin 16
  ra : Fin 16
  wide : Bool
deriving DecidableEq, Repr

/-- ADDA (R258, R333). -/
structure Adda where
  sync : Fin 8
  dst : Fin 16
  src : Fin 16
  imm : BitVec 15
deriving DecidableEq, Repr

/-- ADDAR (R258, R333). -/
structure Addar where
  sync : Fin 8
  dst : Fin 16
  src : Fin 16
deriving DecidableEq, Repr

/-- LOOP of the T and V streams (R257): `stm1` is stages - 1, `cnt` the count register. -/
structure Loop where
  sync : Fin 8
  id : Fin 4
  stm1 : Fin 8
  cnt : Fin 16
  len : Fin 1024
deriving DecidableEq, Repr

/-- SEND and RECV (R258, R334). -/
structure Chan where
  sync : Fin 8
  ch : Fin 64
  ra : Fin 16
deriving DecidableEq, Repr

/-- SYNC (R257): `postC` posts a token to C. -/
structure Sync where
  sync : Fin 8
  postC : Bool
deriving DecidableEq, Repr

/-- FENCE of an engine stream (R257). -/
structure EFence where
  sync : Fin 8
  before : BitVec 6
  after : BitVec 6
  scope : Fin 8
deriving DecidableEq, Repr

/-- END of an engine stream (R257). -/
structure EBare where
  sync : Fin 8
deriving DecidableEq, Repr

/-- WAITH (R257). -/
structure Waith where
  sync : Fin 8
  h : Fin 16
deriving DecidableEq, Repr

/-- NSET of a nest level (R259, R340). -/
structure NsetLevel where
  sync : Fin 8
  level : Fin 8
  field : Fin 4
  v : BitVec 17
deriving DecidableEq, Repr

/-- NSET that inserts into a base register (R340). -/
structure NsetIns where
  sync : Fin 8
  mb : Fin 4
  v : BitVec 17
deriving DecidableEq, Repr

/-- NSET of AFMT or BFMT (R340). -/
structure NsetFmt where
  sync : Fin 8
  isB : Bool
  v : Fin 16
deriving DecidableEq, Repr

/-- MGO (R259, R341). -/
structure Mgo where
  sync : Fin 8
  h : Fin 16
  mba : Fin 4
  mbb : Fin 4
  t : Fin 4
  acc : Bool
  pri : Fin 8
  detach : Bool
  depm1 : Fin 8
  mc : Bool
deriving DecidableEq, Repr

/-- MZERO (R259, R346). -/
structure Mzero where
  sync : Fin 8
  t : Fin 4
deriving DecidableEq, Repr

/-- ACC2S and S2ACC (R259, R347). -/
structure Mc where
  sync : Fin 8
  h : Fin 16
  mb : Fin 4
  t : Fin 4
  ly : Fin 64
  pri : Fin 8
  detach : Bool
deriving DecidableEq, Repr

/-- ACCMUL (R259, R347). -/
structure Accmul where
  sync : Fin 8
  h : Fin 16
  mb : Fin 4
  t : Fin 4
  ly : Fin 64
  pri : Fin 8
  detach : Bool
  axis : Bool
deriving DecidableEq, Repr

/-- LOOP of the M stream (R257): the count is mb[n] [31:0]. -/
structure MLoop where
  sync : Fin 8
  id : Fin 4
  stm1 : Fin 8
  mb : Fin 4
  len : Fin 1024
deriving DecidableEq, Repr

/-- VV words of two queue operands (R260). -/
structure Vv where
  sync : Fin 8
  qd : Fin 16
  qa : Fin 16
  qb : Fin 16
  m : Fin 8
  pka : Bool
  pkb : Bool
deriving DecidableEq, Repr

/-- VV words of one queue operand (R260). -/
structure Vu where
  sync : Fin 8
  qd : Fin 16
  qa : Fin 16
  m : Fin 8
  pka : Bool
deriving DecidableEq, Repr

/-- VCMP words (R260, R363). -/
structure Vc where
  sync : Fin 8
  md : Fin 8
  qa : Fin 16
  qb : Fin 16
  m : Fin 8
  pka : Bool
  pkb : Bool
  uns : Bool
  int : Bool
deriving DecidableEq, Repr

/-- VS words (R260, R360). -/
structure Vs where
  sync : Fin 8
  qd : Fin 16
  qa : Fin 16
  sr : Fin 16
  m : Fin 8
  pka : Bool
deriving DecidableEq, Repr

/-- VIADDI and VROT (R260, R362, R373). -/
structure Vi where
  sync : Fin 8
  qd : Fin 16
  qa : Fin 16
  m : Fin 8
  pka : Bool
  imm : BitVec 11
deriving DecidableEq, Repr

/-- VBCASTI (R260, R365). -/
structure Vbi where
  sync : Fin 8
  qd : Fin 16
  m : Fin 8
  imm : BitVec 11
deriving DecidableEq, Repr

/-- VCVT (R260, R369). -/
structure Vcvt where
  sync : Fin 8
  qd : Fin 16
  qa : Fin 16
  m : Fin 8
  pka : Bool
  fmt : Fin 16
  rm : Fin 8
  sat : Bool
deriving DecidableEq, Repr

/-- VBCAST (R260, R373). -/
structure Vb where
  sync : Fin 8
  qd : Fin 16
  sr : Fin 16
  m : Fin 8
deriving DecidableEq, Repr

/-- VPOP (R366). -/
structure Vp where
  sync : Fin 8
  qa : Fin 16
deriving DecidableEq, Repr

/-- VSETSH and VSETL (R260, R352). -/
structure Vset where
  sync : Fin 8
  sr : Fin 16
deriving DecidableEq, Repr

/-- MAND, MOR and MXOR (R260, R367). -/
structure Vm where
  sync : Fin 8
  md : Fin 8
  ma : Fin 8
  mb : Fin 8
deriving DecidableEq, Repr

/-- MNOT (R260, R367). -/
structure Vn where
  sync : Fin 8
  md : Fin 8
  ma : Fin 8
deriving DecidableEq, Repr

/-- VSMOV from a lane to an s register (R260, R374). -/
structure Vl2s where
  sync : Fin 8
  sr : Fin 16
  q : Fin 16
  lane : Fin 256
  pk : Bool
deriving DecidableEq, Repr

/-- VSMOV from an s register to a lane (R260, R374). -/
structure Vs2l where
  sync : Fin 8
  sr : Fin 16
  q : Fin 16
  lane : Fin 256
deriving DecidableEq, Repr

/-- SPLD and SPST (R261, R378). -/
structure Spls where
  sync : Fin 8
  q : Fin 16
  part : Fin 4
  sr : Fin 16
deriving DecidableEq, Repr

/-- SPUP (R261, R382). -/
structure Spup where
  sync : Fin 8
  qr : Fin 16
  addInto : Bool
deriving DecidableEq, Repr

/-- SPDN (R261, R383). -/
structure Spdn where
  sync : Fin 8
  qr : Fin 16
deriving DecidableEq, Repr

/-- SPCVT (R261, R378). -/
structure Spcvt where
  sync : Fin 8
  qd : Fin 16
  qa : Fin 16
  toF : Bool
deriving DecidableEq, Repr

end Op

/-! ### What the events carry

A row of the table without an encoding is a step of another agent. Its constructor carries what the
outside world brings to that step (a temperature, a packet, a value written), or which part of the
machine takes it. -/

/-- A repair that R18 (01_package.md) lists, as a request names it (R21). -/
inductive Repair where
  /-- A core site (R19). -/
  | coreSite (site : Nat)
  /-- An HBM channel: stack, channel, and the frames it covers with their new places (R18). -/
  | hbmChannel (stack chan src dst bytes : Nat)
  /-- A deep-SRAM bank and the bank that takes its contents (R18, R112). -/
  | deepBank (site bank newSite newBank : Nat)
  /-- A link lane (R18, R22). -/
  | linkLane (port : Nat)
deriving DecidableEq, Repr

/-- A configuration record of R60 (03_host_trust.md). `auth` is the authenticator's bytes;
`tagged` says that it is a device tag and not a signature. -/
structure CfgRecord where
  kind : Nat
  version : Nat
  payload : List (BitVec 8)
  tagged : Bool
  auth : List (BitVec 8)
deriving DecidableEq, Repr

/-- What a service core writes to host memory (R61, R62): bytes of its own, or so many bytes from a physical address of the package. -/
inductive SvcSource where
  | own (data : List (BitVec 8))
  | memory (pa bytes : Nat)
deriving DecidableEq, Repr

/-- A write that a service core makes to host memory, at a host address (R61). -/
structure SvcWrite where
  addr : Nat
  src : SvcSource
deriving DecidableEq, Repr

/-- What the partition manager asks for when it creates a partition (R52, R54, R79, R92, R136, R176). -/
structure PartSpec where
  clusters : List Nat
  single : Bool
  map : List (BitVec 128)
  window : Nat
  grant : Nat
  spillCap : Nat
  overflowCap : Nat
  replicaCap : Nat
  ptroot : BitVec 64
  tvec : BitVec 64
  flog : BitVec 64
  floge : BitVec 64
deriving DecidableEq, Repr

/-- What the loader on the service cores chooses for a job (R96, R97, 06_racks.md): for each rack in symbol order the virtual addresses of
its live descriptor and slot region, and the page-table entries it writes for them (physical address, entry). -/
structure LoadPlan where
  racks : List (BitVec 64 × BitVec 64)
  ptes : List (Nat × BitVec 64)
deriving DecidableEq, Repr

/-- The class of a mesh packet, which fixes its channel (R26, 02_fabric.md). -/
inductive PktClass where
  | request0 | request1 | response0 | response1
deriving DecidableEq, Repr

/-- An end point of the networks between columns (R23, R24, R36): a core, a column's deep slice, one of the 12 ports of the West or East
rim die, a port of an HBM stack's controller. -/
inductive NetEnd where
  | core (site : Nat)
  | deep (site : Nat)
  | rim (east : Bool) (y : Nat)
  | hbm (stack port : Nat)
deriving DecidableEq, Repr

/-- Whose response buffers a request reserves (R29): the 32 of its context's remote loads, the 64 that copies, gathers, scatters and
scatter-accumulates share, or none that R29 counts. -/
inductive NetBuf where
  | own | remote | shared
deriving DecidableEq, Repr

/-- What a request asks of its home (R25): a read or a write of some bytes. -/
inductive PktCmd where
  | read (bytes : Nat)
  | write (bytes : Nat)
deriving DecidableEq, Repr

/-- A request offered to the networks: what its header holds (R25), the access path it belongs to (R31, R141), the buffers it reserves
(R29), and whom its home asks with Request 1 before it answers: the holders of replicas, or the rim-die port it forwards to (R26). -/
structure PktSpec where
  cmd : PktCmd
  src : NetEnd
  dst : NetEnd
  addr : Nat
  tag : Nat
  inc : BitVec 16
  cx : Bool
  path : Fin 6
  buf : NetBuf
  asks : List NetEnd
deriving DecidableEq, Repr

/-- Why a peer has refused a request of this chip (R43, R53, R124, R191): its map, its incarnation, or a word in error. -/
inductive PeerRefusal where
  | prot | reset | memErr
deriving DecidableEq, Repr

/-- An acknowledgement of a link (R40): the highest number it covers, and those that the target has refused, with why (R43, R53, R124). -/
structure LinkAck where
  seq : BitVec 32
  refused : List (BitVec 32 × PeerRefusal)
deriving DecidableEq, Repr

/-- What a peer asks of this chip (R43, R124, R150). -/
inductive PeerOp where
  | read (addr bytes : Nat)
  | write (addr : Nat) (data : List (BitVec 8))
  /-- fn of R258 (0 ADD, 1 MIN, 2 MAX, 3 SWAP), format code of R125, operand. -/
  | sacc (addr fn fmt : Nat) (v : BitVec 64)
  | scas (addr : Nat) (wide : Bool) (cmp new : BitVec 64)
  /-- An invalidation of the copies that this chip's dies hold of a frame of the peer (R136, R137). -/
  | inval (frame : Nat)
deriving DecidableEq, Repr

/-- A request that a link port delivers to this chip: source (chip and port), sequence number (R40),
expected incarnation (R43), and the die that reads if the page is replicated (R136). -/
structure PeerReq where
  chip : Nat
  port : Nat
  seq : BitVec 32
  inc : BitVec 16
  die : Option (Fin 8)
  op : PeerOp
deriving DecidableEq, Repr

/-- A register of the management space that the partition manager stages for a time epoch (R214). -/
inductive TimeReg where
  | tofs | tscale | tmode
deriving DecidableEq, Repr

/-- What a partition swap does (R186): out, in, or an exchange. -/
inductive SwapKind where
  | swapOut (part : Nat)
  | swapIn (part : Nat)
  | exchange (partOut partIn : Nat)
deriving DecidableEq, Repr

/-- What the retirement list of R192 is told of a word a scrubber visits (R190). -/
inductive ScrubResult where
  | clean | corrected | uncorrectable
deriving DecidableEq, Repr

/-- The instructions and events of the machine, one constructor per row of spec/opcode_table.json. -/
inductive Instr where
  | add (o : Op.Alu)
  | sub (o : Op.Alu)
  | and (o : Op.Alu)
  | or (o : Op.Alu)
  | xor (o : Op.Alu)
  | shl (o : Op.Alu)
  | shr (o : Op.Alu)
  | sra (o : Op.Alu)
  | mul (o : Op.Alu)
  | mulh (o : Op.Alu)
  | mulhu (o : Op.Alu)
  | div (o : Op.Alu)
  | divu (o : Op.Alu)
  | rem (o : Op.Alu)
  | remu (o : Op.Alu)
  | min (o : Op.Alu)
  | max (o : Op.Alu)
  | clz (o : Op.AluUn)
  | popc (o : Op.AluUn)
  | addi (o : Op.Imm)
  | andi (o : Op.Imm)
  | ori (o : Op.Imm)
  | xori (o : Op.Imm)
  | shli (o : Op.ShiftImm)
  | shri (o : Op.ShiftImm)
  | srai (o : Op.ShiftImm)
  | lui (o : Op.Upper)
  | addpc (o : Op.Upper)
  | cmpEq (o : Op.Cmp)
  | cmpNe (o : Op.Cmp)
  | cmpLt (o : Op.Cmp)
  | cmpLtu (o : Op.Cmp)
  | cmpGe (o : Op.Cmp)
  | cmpGeu (o : Op.Cmp)
  | cmpiEq (o : Op.CmpImm)
  | cmpiNe (o : Op.CmpImm)
  | cmpiLt (o : Op.CmpImm)
  | cmpiLtu (o : Op.CmpImm)
  | pand (o : Op.Pred)
  | por (o : Op.Pred)
  | pxor (o : Op.Pred)
  | pandn (o : Op.Pred)
  | pfrom (o : Op.OneSrc)
  | pto (o : Op.OneDst)
  | sel (o : Op.Sel)
  | ldb (o : Op.Mem)
  | ldh (o : Op.Mem)
  | ldw (o : Op.Mem)
  | ldd (o : Op.Mem)
  | ldbu (o : Op.Mem)
  | ldhu (o : Op.Mem)
  | ldwu (o : Op.Mem)
  | stb (o : Op.Mem)
  | sth (o : Op.Mem)
  | stw (o : Op.Mem)
  | std (o : Op.Mem)
  | wait (o : Op.Wait)
  | pbr (o : Op.Pbr)
  | pbrx (o : Op.Pbrx)
  | br (o : Op.Branch)
  | call (o : Op.Branch)
  | loopc (o : Op.Loopc)
  | tstart (o : Op.OneSrc)
  | mstart (o : Op.OneSrc)
  | vstart (o : Op.OneSrc)
  | sdrain (o : Op.Drain)
  | qbind (o : Op.Bind)
  | qget (o : Op.QGet)
  | qgetp (o : Op.QGet)
  | qput (o : Op.QPut)
  | tpost (o : Op.Token)
  | tawait (o : Op.Token)
  | spawn (o : Op.TokSrc)
  | join (o : Op.TokSrc2)
  | cEnd (o : Op.Bare)
  | ewait (o : Op.TwoSrc)
  | epost (o : Op.TokSrc)
  | etest (o : Op.TokRes)
  | launch (o : Op.TokSrc)
  | budget (o : Op.TokRes)
  | cancel (o : Op.Cancel)
  | cpoint (o : Op.Bare)
  | pwait (o : Op.PawnRes)
  | ptest (o : Op.PawnRes)
  | pcancel (o : Op.PawnRes)
  | pdetach (o : Op.PawnArg)
  | pprio (o : Op.PawnArg)
  | pstat (o : Op.ResTok)
  | allred (o : Op.Coll)
  | bcast (o : Op.Coll)
  | allgath (o : Op.Coll)
  | redscat (o : Op.Coll)
  | barrier (o : Op.Barrier)
  | rkopenw (o : Op.TokRes)
  | rkcommit (o : Op.TokSrc)
  | rkopenr (o : Op.TokRes)
  | rkclose (o : Op.TokSrc)
  | fence (o : Op.CFence)
  | crr (o : Op.Crr)
  | crw (o : Op.Crw)
  | trap (o : Op.Code)
  | eret (o : Op.Bare)
  | bkpt (o : Op.Code)
  | tlrw (o : Op.TokSrc2)
  | time (o : Op.ResTok)
  | seta (o : Op.TokRes)
  | setn (o : Op.TokRes)
  | sets (o : Op.TokRes)
  | setnt (o : Op.TokRes)
  | geta (o : Op.TokRes)
  | ldq (o : Op.Tq)
  | stq (o : Op.Tq)
  | pref (o : Op.Pref)
  | copy (o : Op.Tc)
  | gath (o : Op.Tc)
  | scat (o : Op.Tc)
  | rld (o : Op.Tr)
  | rst (o : Op.Tr)
  | saccAdd (o : Op.Sacc)
  | saccMin (o : Op.Sacc)
  | saccMax (o : Op.Sacc)
  | saccSwap (o : Op.Sacc)
  | scas (o : Op.Scas)
  | adda (o : Op.Adda)
  | addar (o : Op.Addar)
  | tLoop (o : Op.Loop)
  | send (o : Op.Chan)
  | recv (o : Op.Chan)
  | tSync (o : Op.Sync)
  | tFence (o : Op.EFence)
  | tEnd (o : Op.EBare)
  | tWaith (o : Op.Waith)
  | nsetLevel (o : Op.NsetLevel)
  | nsetIns (o : Op.NsetIns)
  | nsetFmt (o : Op.NsetFmt)
  | mgo (o : Op.Mgo)
  | mzero (o : Op.Mzero)
  | acc2s (o : Op.Mc)
  | s2acc (o : Op.Mc)
  | accmul (o : Op.Accmul)
  | mLoop (o : Op.MLoop)
  | mSync (o : Op.Sync)
  | mEnd (o : Op.EBare)
  | mFence (o : Op.EFence)
  | mWaith (o : Op.Waith)
  | vadd (o : Op.Vv)
  | vsub (o : Op.Vv)
  | vmul (o : Op.Vv)
  | vfma (o : Op.Vv)
  | vmin (o : Op.Vv)
  | vmax (o : Op.Vv)
  | vabs (o : Op.Vu)
  | vneg (o : Op.Vu)
  | vrcp (o : Op.Vu)
  | vrsq (o : Op.Vu)
  | vexp2 (o : Op.Vu)
  | vlog2 (o : Op.Vu)
  | viadd (o : Op.Vv)
  | visub (o : Op.Vv)
  | vimul (o : Op.Vv)
  | vand (o : Op.Vv)
  | vor (o : Op.Vv)
  | vxor (o : Op.Vv)
  | vshl (o : Op.Vv)
  | vshr (o : Op.Vv)
  | vsra (o : Op.Vv)
  | vimin (o : Op.Vv)
  | vimax (o : Op.Vv)
  | vcmpEq (o : Op.Vc)
  | vcmpNe (o : Op.Vc)
  | vcmpLt (o : Op.Vc)
  | vcmpLe (o : Op.Vc)
  | vcmpGt (o : Op.Vc)
  | vcmpGe (o : Op.Vc)
  | vsel (o : Op.Vv)
  | vadds (o : Op.Vs)
  | vsubs (o : Op.Vs)
  | vmuls (o : Op.Vs)
  | vfmas (o : Op.Vs)
  | vmins (o : Op.Vs)
  | vmaxs (o : Op.Vs)
  | viaddi (o : Op.Vi)
  | vbcasti (o : Op.Vbi)
  | vcvt (o : Op.Vcvt)
  | vpack (o : Op.Vv)
  | vunpk (o : Op.Vv)
  | vrsum (o : Op.Vu)
  | vrmax (o : Op.Vu)
  | vrmin (o : Op.Vu)
  | vperm (o : Op.Vv)
  | vbcast (o : Op.Vb)
  | vrot (o : Op.Vi)
  | vmov (o : Op.Vu)
  | vpop (o : Op.Vp)
  | vdup (o : Op.Vu)
  | vsetsh (o : Op.Vset)
  | vsetl (o : Op.Vset)
  | mand (o : Op.Vm)
  | mor (o : Op.Vm)
  | mxor (o : Op.Vm)
  | mnot (o : Op.Vn)
  | vsmovToS (o : Op.Vl2s)
  | vsmovToLane (o : Op.Vs2l)
  | spld (o : Op.Spls)
  | spst (o : Op.Spls)
  | spup (o : Op.Spup)
  | spdn (o : Op.Spdn)
  | spcvt (o : Op.Spcvt)
  | vLoop (o : Op.Loop)
  | vSync (o : Op.Sync)
  | vEnd (o : Op.EBare)
  | vFence (o : Op.EFence)
  | powerUpBoot (selfTest : BitVec 4) (westOk : Bool)
  | bootLinkTimeout
  | tftpBlockReceive (block : Nat) (data : List (BitVec 8))
  | tftpBlockRetry
  | bootRetry
  | droopTrigger (die cycles : Nat)
  | columnSample (site : Nat) (temp : BitVec 10)
  | hbmStackSample (stack : Nat) (temp : BitVec 10)
  | hotStackReport (stack : Nat)
  | drawceilWrite (v : BitVec 32)
  | drawgGrantWrite (part : Nat) (grant : Nat)
  | ringMeasureStart (die : Nat) (v : BitVec 32)
  | ringMeasureDone (die : Nat) (count : BitVec 16)
  | mgmtRegisterWrite (off : Nat) (v : BitVec 32)
  | myincChipWrite (v : BitVec 32)
  | sealOpen (part : Nat)
  | sealClose (part : Nat)
  | repairRequest (r : Repair)
  | coreSiteRepair (site : Nat)
  | coreSiteRetire (site : Nat)
  | hbmRowRepair (base : Nat)
  | hbmRowRepairDone (base : Nat)
  | hbmChannelRetire (stack chan : Nat)
  | deepRowSpare (site row : Nat)
  | deepBankRetire (site bank : Nat)
  | linkLaneSpare (port lane : Nat)
  | linkPortRetrain (port : Nat)
  | linkPortOut (port : Nat)
  | meshLinkReroute (x y : Nat) (dir : Fin 4)
  | serviceCoreTakeover (core : Nat)
  | firmwareSwitch
  | thermalTrip (temp : BitVec 10) (isStack : Bool)
  | powerTrip (watts : Nat)
  | serviceCoreHostWrite (windows : List (Nat × Nat)) (w : SvcWrite)
  | ethernetFrameSend (port bytes : Nat)
  | packetInject (p : PktSpec)
  | flitSetup
  | flitBypass
  | latchedHop (flit : Nat)
  | bridgeRetryExhausted (x y : Nat) (dir : Fin 4)
  | linkFlitReplay (port : Nat)
  | linkTransactionSend (chip : Nat) (frame : Nat) (tag : Nat)
  | linkAckSend (chip port : Nat)
  | linkAckReceive (port chip : Nat) (ack : LinkAck)
  | linkResend (port : Nat) (seq : BitVec 32)
  | linkRetryExhausted (port : Nat) (seq : BitVec 32)
  | peerRequestReceive (r : PeerReq)
  | incarnationAnnounce
  | announcementReceive (chip : Nat) (inc : BitVec 16)
  | collectiveExchangeStep (coll : Nat) (data : List (BitVec 8))
  | vfFunctionLevelReset (part : Nat)
  | partitionCreate (part : Nat) (p : PartSpec)
  | partitionDestroy (part : Nat)
  | partitionMapChange (part : Nat) (map : List (BitVec 128))
  | submitWrite (part bytes : Nat) (v : BitVec 64)
  | submissionCopy (part : Nat)
  | attestationRequest (nonce : List (BitVec 8)) (target : Option Nat)
  | keyCounterConfirm
  | jobLoad (part : Nat) (plan : LoadPlan)
  | importRegister (part : Nat) (name : List (BitVec 8)) (kind : Nat) (value : Option (BitVec 64))
  | activityRelease (part job act : Nat)
  | selectorSizeRead (part job act : Nat)
  | deadlineMiss (part job act : Nat)
  | counterDecrement (part : Nat) (addr : BitVec 64) (faulted cancelled : Bool)
  | turnRetire (site : Nat) (cx : Bool)
  | cancelLinearise (part : Nat) (addr : BitVec 64) (level : Nat)
  | cancelBroadcast (part : Nat)
  | turnDispatch (part cluster : Nat)
  | spillRefill (part cluster : Nat)
  | turnDisplace (part cluster : Nat)
  | contextActivate (site : Nat)
  | urgentSwitchEvaluate (site : Nat)
  | urgentSwitch (site : Nat)
  | stealRequest (site : Nat) (cx : Bool)
  | stealCrossDie (site : Nat) (cx : Bool)
  | budgetTrap (site : Nat) (cx : Bool)
  | eventTableApply (part : Nat)
  | overflowWalk (part : Nat)
  | rackOpApply (part : Nat)
  | waitTokenSettle (site : Nat) (cx : Bool) (tok : Fin 8)
  | pageWalkComplete (site : Nat)
  | prefetchReady (site : Nat) (cx : Bool) (b : Fin 8)
  | invctlWrite (part : Nat) (v : BitVec 64)
  | ptrootWrite (part : Nat) (v : BitVec 64)
  | shootdownAck (part site : Nat)
  | replicaRead (part die : Nat) (frame : Nat)
  | replicaWrite (part : Nat)
  | holderAck (part die : Nat)
  | fenceRetire (site : Nat) (cx : Bool) (st : Strm)
  | resultLand (site : Nat) (cx : Bool)
  | pawnStep (site : Nat) (slot : Fin 64)
  | pawnEnd (site : Nat) (slot : Fin 64)
  | mgoStep (site : Nat) (slot : Fin 64)
  | drawSlotGrant (part : Nat)
  | tWordCommit (site : Nat) (cx : Bool)
  | lateFault (site : Nat) (cx : Bool)
  | vectorResultPush (site : Nat) (cx : Bool)
  | trapEntry (site : Nat) (cx : Bool)
  | deadlockDetect (site : Nat) (cx : Bool)
  | handlerDeadlock (site : Nat) (cx : Bool)
  | partitionSwap (k : SwapKind)
  | remapResponseLand (site : Nat)
  | timeRegisterStage (part : Nat) (r : TimeReg) (v : BitVec 64)
  | timeEpoch (part : Nat)
  | scrubVisit (pa : Nat) (r : ScrubResult)
  | dbgHalt (site : Nat) (cx : Bool)
  | debugHaltLand (site : Nat) (cx : Bool)
  | dbgResume (site : Nat) (cx : Bool)
  | dbgStep (site : Nat) (cx : Bool) (st : Strm)
  | dbgRead (site : Nat) (cx : Bool) (space : Fin 16)
  | dbgWrite (site : Nat) (cx : Bool) (space : Fin 16)
  | dbgDrop (site : Nat) (cx : Bool)
  | dbgBadcmd (site : Nat)
  | breakpointFire (site : Nat) (cx : Bool) (st : Strm)
  | traceDrain (site : Nat)
  | powerFail
  | peerUpWaitTimeout (site : Nat) (cx : Bool)
  | dhcpv6ReplyReceive (tftp : Bool) (server : Nat) (file : List (BitVec 8))
  | submissionWindowWrite (part off : Nat) (data : List (BitVec 8))
  | sitesJoinPartition (part : Nat) (clusters : List Nat)
  | clusterPowerGate (cluster : Nat)
  | clusterUngate (cluster : Nat)
  | bankGoesDrowsy (site bank : Nat)
deriving DecidableEq, Repr

end Sys2Proof
end

