-- ==== Sys2Proof/Machine/State.lean ====
section
/-! DEFINITION. The state of the machine: everything the specification gives it, as plain data.

Its parts, from the inside out: what one context holds (R152, spec/09_core.md), what one core holds,
what a partition holds (R52, spec/03_host_trust.md), the package around them. One context, its core and
its partition are in focus: their records stand unpacked in State, and the others stand in tables by
site and by number. -/

namespace Sys2Proof.Machine

/-! ### Causes -/

/-- The cause codes of R174 (spec/10_faults.md). -/
inductive Cause where
  | illegal | priv | qunder | qover | deadlock | overlap | budget | page | prot | format | align
  | peerreset | peerlost | memerr | cancelled | bkpt | swtrap | rackport | spbank | chan | phase
deriving DecidableEq, Repr

/-- Why the machine stops. Both reasons are safe: a claim about what the machine does next holds of no
state that has stopped. -/
inductive Fault where
  /-- The package has tripped, or has lost its power: all package clocks are stopped until its power comes up again (R58, R61). Raised
  by step while State.power is not on and no outside event is due; safe. -/
  | clocksStopped
deriving DecidableEq, Repr

/-- Why the model gives no meaning. -/
inductive Refusal where
  /-- The instruction has no meaning in this model yet; raised by its arm of exec; safe. -/
  | notModelled (mnemonic : String)
deriving DecidableEq, Repr

/-! ### One context -/

/-- A branch register: its value, the cycle its prefetched target is ready, and whether PBR or CALL wrote
it (R274). -/
structure BReg where
  val : Word
  ready : Option Nat
  byPbr : Bool
deriving DecidableEq, Repr

/-- Where a fixed-latency result lands (R157, R271). -/
inductive Dest where
  | x (r : Fin 32)
  | p (r : Fin 8)
  | preds
  | b (r : Fin 8) (byPbr : Bool) (start : Nat)
  | a (r : Fin 16)
  | s (r : Fin 16)
  | m (r : Fin 8)
  | mb (r : Fin 4)
  | nest (level : Fin 6) (field : Fin 4)
  | mfmt (isB : Bool)
  | vshape (lanesOnly : Bool)
  | ctl (reg : Nat)
deriving DecidableEq, Repr

/-- A fixed-latency result in flight (R157): it lands in cycle `due`; among equals the later issued
stands. -/
structure Landing where
  due : Nat
  serial : Nat
  st : Strm
  dst : Dest
  val : BitVec 256
deriving DecidableEq, Repr

/-- A landing-buffer entry (R159): the cycles that remain, and the result; `valid` is false of one that a debugger has dropped or has not made
valid (R197, R200), and `divide` says that the divider is held until it lands (R270). -/
structure LandSave where
  remain : Nat
  dst : Dest
  val : BitVec 256
  valid : Bool := true
  divide : Bool := false
deriving DecidableEq, Repr

/-- A leaf held by a TLB or returned by a walk (R122). -/
structure Leaf where
  rd : Bool
  wr : Bool
  code : Bool
  tgt : Fin 4
  chip : Nat
  fmt : Nat
  geom : Nat
  repl : Bool
  glob : Bool
  frame : Nat
  size : Nat
deriving DecidableEq, Repr

/-- Where an access lands: its key, and the leaf that placed it (none in the scratchpad window). -/
structure Place where
  key : Nat
  leaf : Option Leaf
  inc : BitVec 16 := 0
deriving DecidableEq, Repr

/-- A translated access: whether it writes, its address, and where it lands. -/
structure Trans where
  writes : Bool
  va : Nat
  place : Place
deriving DecidableEq, Repr

/-- The operation a pending wait token stands for (R158, R270). -/
inductive TokOp where
  | load (bytes : Nat) (signed : Bool) (rd : Fin 32) (addr : Word)
  | store (bytes : Nat) (addr val : Word)
  | qget (q : Fin 16) (k : Fin 4) (rd : Fin 32) (pop : Bool)
  | qput (q : Fin 16) (k : Fin 4) (val : Word)
  | rack (fn : Nat) (rack port : Nat) (rd : Fin 32)
  | crr (reg : Nat) (rd : Fin 32)
  | time (rd : Fin 32)
  | tlrw (ly addr : Word)
  /-- A TLRW whose image has come: the record is still to be written (R320). -/
  | record (ly w0 w1 w2 w3 : Word)
  | spawn (record : Word)
  | launch (record : Word)
  | join (addr : Word) (count : BitVec 40)
  | epost (name : Nat)
  | etest (name : Nat) (rd : Fin 32)
  | sete (fn : Nat) (name : Nat) (v : BitVec 32) (rd : Fin 32)
  | budget (rd : Fin 32) (limit : BitVec 32)
  | cancel (addr : Word) (level : Nat)
  | pwait (h : BitVec 16) (anon : Bool) (rd : Fin 32)
  | ptest (h : BitVec 16) (anon : Bool) (rd : Fin 32)
  | pcancel (h : BitVec 16) (anon : Bool) (rd : Fin 32)
  | pdetach (h : BitVec 16) (anon : Bool) (event : Option Nat)
  | pprio (h : BitVec 16) (anon : Bool) (pri : Nat)
  | pstat (rd : Fin 32)
deriving DecidableEq, Repr

/-- A pending wait token (R158): its operation, the word that named it and how many words its stream had issued
before it (R210), when it may settle, and whether
the operation has taken effect elsewhere with these values (`done`). `fault` is a fault found elsewhere; `tr` is where its access lands, once it
is translated (R132, R134). -/
structure TokPend where
  op : TokOp
  pc : Word
  pos : Nat
  serial : Nat
  due : Nat
  owned : List (Fin 32)
  done : Option (Word × Word)
  fault : Option (Cause × Word)
  tr : Option Place := none
deriving DecidableEq, Repr

/-- What is before a word (R145): bounds of the creation numbers of the C, T and M streams' words that are. -/
structure Know where
  c : Nat
  t : Nat
  m : Nat
deriving DecidableEq, Repr

/-- A token in a channel (R155): the cycle of its post, and what is before it (R145). -/
structure Tok where
  made : Nat
  know : Know
deriving DecidableEq, Repr

/-- A queue entry (R153): its place in push order, what is before its push (R145), the cycle of its push,
its bits once it has landed, and whether an uncorrectable error stands in its words (R191). -/
structure QEnt where
  serial : Nat
  know : Know
  pushed : Nat
  data : Option QEntry
  bad : Bool := false
deriving DecidableEq, Repr

/-- A vector queue (R153, R154): producer and consumer codes of QBIND (0 C, 1 T, 2 V, 3 none), the codes before it and the first cycle of the
new ones (R298), entries from the head, the pops of the last popping cycle, and the record cursor of R379. -/
structure Queue where
  prod : Fin 4
  cons : Fin 4
  was : Fin 4 × Fin 4
  since : Nat
  ents : List QEnt
  popCycle : Nat
  popCount : Nat
  cursor : Fin 8
deriving DecidableEq, Repr

/-- An active hardware loop (R161, R163): counts, body and kernel iteration. -/
structure LoopSt where
  id : Fin 4
  count : Nat
  stages : Nat
  body : Word
  len : Nat
  iter : Nat
deriving DecidableEq, Repr

/-- What a stream waits on at issue (R183, R197 space 14). -/
inductive WaitOn where
  | queue (q : Fin 16) | channel | tokens | cend | chanSlot | pawnEntry | overflow | drawSlot | spill | rangeSlot
  | fetch | translation | fence | token (k : Fin 8) | owned (r : Fin 32) | landing | divide | branch | window | nestCopy | tile
  | remoteSlot | cell | shootdown | release | drain | ready
  | waith (h : BitVec 16)
deriving DecidableEq, Repr

/-- A fence in progress (R146): from and to masks, scope, the chips whose acknowledgements it waits for (R46), and the creation number it was
met at: what was issued before has a lower one. -/
structure FenceSt where
  before : BitVec 6
  after : BitVec 6
  scope : Nat
  chips : Word
  serial : Nat
  sync : Fin 8
deriving DecidableEq, Repr

/-- One stream of a context (R151, R163). `awaited` is the channel whose token the word at issue has popped (R156); `bound` says that it
stands at a kernel-iteration boundary (R162); `bpSkip` that the word it stands at meets no breakpoint (R203). `know` is what of the other streams is before this stream's word (R145). -/
structure StreamSt where
  run : Bool
  pc : Word
  loops : List LoopSt
  awaited : Option (Fin 12)
  wait : Option WaitOn
  holdReq : Bool
  held : Bool
  readyAt : Nat
  fence : Option FenceSt
  issued : Nat
  bound : Bool
  bpSkip : Bool
  know : Know
deriving DecidableEq, Repr

/-- A layout record (R129). -/
structure LyRec where
  rows : BitVec 32
  cols : BitVec 32
  rstride : Word
  swz : BitVec 8
  efmt : BitVec 4
  lfmt : BitVec 4
  scale : Word
deriving DecidableEq, Repr

/-- What an issued and uncommitted T word does when it commits (R322). `lines` are the 64-byte lines it touches, translated at
issue. -/
inductive TOp where
  | ldq (q : Fin 16) (base : Word) (ly : LyRec) (lines : List (Nat × Place))
  | stq (entry : QEntry) (base : Word) (ly : LyRec) (lines : List (Nat × Place))
  | sacc (fn : Nat) (idx val : QEntry) (base : Word) (lines : List (Nat × Place))
  | scas (entry : QEntry) (addr : Word) (wide : Bool) (qd : Fin 16) (lines : List (Nat × Place))
  | push (q : Fin 16) (entry : QEntry) (logged : Nat)
  | sync (postC : Bool)
  | plain
deriving DecidableEq, Repr

/-- What withdraws an uncommitted T word (R323). -/
structure TUndo where
  pops : List (Fin 16 × QEnt)
  regs : List (Fin 16 × Word)
  awaitOf : Option (Fin 12)
  loops : List LoopSt
deriving DecidableEq, Repr

/-- An issued and uncommitted T word. `fault` is a fault that a link or a bridge has brought one of its accesses, with that access's place among them
(R35, R42, R43); `done` says that its writes or its atomic have been made at their homes, with the value that a SCAS found there (R31, R322). -/
structure TEntry where
  serial : Nat
  pc : Word
  pos : Nat
  op : TOp
  due : Nat
  sync : Fin 8
  undo : TUndo
  fault : Option (Nat × Cause)
  done : Option Nat
deriving DecidableEq, Repr

/-- A range-checker operation (R160): bytes of the own share, whether it writes, its word and stream. -/
structure RangeOp where
  serial : Nat
  lo : Nat
  hi : Nat
  writes : Bool
  pc : Word
  st : Strm
  pawn : Option Nat
deriving DecidableEq, Repr

/-- A V word in flight (R272, R354, R381): what it pushes, its flags and its posts, the cells of the sum-product scratch it writes;
`last` says that it retires only after every earlier one (R375). -/
structure VPend where
  serial : Nat
  due : Nat
  pushes : List (Fin 16 × Nat × QEntry)
  flags : BitVec 8
  sync : Fin 8
  cells : List (Nat × Half)
  postC : Bool
  last : Bool
deriving DecidableEq, Repr

/-- One level of a nest table (R337). -/
structure NestLevel where
  trip : BitVec 17
  as_ : BitVec 17
  bs : BitVec 17
  cs : BitVec 17
deriving DecidableEq, Repr

/-- An M word that has issued and not retired (R346, R349): the tile it zeroes, if any, when it may retire, and what it posts. -/
structure MRet where
  tile : Option (Fin 4)
  due : Nat
  sync : Fin 8
  postC : Bool
deriving DecidableEq, Repr

/-- The anonymous aggregate of a stream (R167). -/
structure Aggregate where
  ended : Bool
  cancelled : Bool
  faulted : Bool
  serial : Nat
  frec : Word
  faddr : Word
  slot : Nat
deriving DecidableEq, Repr

/-- A pending trap (R178, R179): what it will write. `rank` orders the kinds of R179. -/
structure PendTrap where
  rank : Nat
  order : Nat
  cause : Cause
  st : Strm
  pawn : Option Nat
  tok : Option (Fin 8)
  async_ : Bool
  st2 : Strm
  faddr : Word
  fpc : Word
  fpc2 : Word
  frec : Word
deriving DecidableEq, Repr

/-- The turn a context holds (R76, R85, R318). -/
structure Turn where
  id : BitVec 48
  record : Word
  launch : Word
  join : Word
  flags : BitVec 32
  deadline : Word
  stamp : Nat
  arrival : Nat
  heat : Nat
  pin : Option Nat
  bg : Bool
  bgDue : Bool
  started : Bool
  cancelled : Bool
  job : Nat
  act : Nat
deriving DecidableEq, Repr

/-- An access that waits for a chip to be up (R138): its stream and address, the chip, and the cycle in which its wait ends; none when it has
ended. -/
structure UpWait where
  st : Strm
  va : Nat
  chip : Nat
  due : Option Nat
deriving DecidableEq, Repr

/-- A replay-log entry that waits for those of earlier words (R210). -/
structure LogEnt where
  serial : Nat
  kind : Nat
  st : Strm
  pos : Nat
  value : Nat
deriving DecidableEq, Repr

/-- How a turn leaves its context. -/
structure RetireSt where
  faulted : Bool
  cancelled : Bool
deriving DecidableEq, Repr

/-- A step that a debugger has asked for (R202): its stream, what the stream had issued, whether a handler ran, and the creation number
at its start. -/
structure StepSt where
  st : Strm
  issued : Nat
  tip : Bool
  serial : Nat
deriving DecidableEq, Repr

/-- One resident context of a core. A stop in a handler saves the handler's own results in flight in `hbuf` (R159), apart from those of the
interrupted program in `lbuf`; `resume` and `hresume` say that the buffers are yet to be reloaded. Its cycles are excused up to `excuseTo`, and those in
which nothing issues while a stream or a pawn's step waits on an access that `slow` lists: its creation number, and from which cycle to which one a
cause of R88 delays it;
`issuedThen` is what its streams had issued at the last cycle's end. A FENCE of the C stream that a trap interrupts is kept in `fenceKept` with its
address (R147); `tipSerial` is the creation number at the handler's entry. `hwas` lists what engine words have replaced in handle registers, the
latest first: register, stream, creation number and former handle (R310); `tcommitAt` is the cycle after the last commit of a T word (R322, R398), `rldHeld` the request slot with its buffers that an
RLD or RST at issue has reserved (R397), `replayBack` are the entries of the replay
ring that withdrawn words have given back (R211, R323); and `ttr` holds the lines that the T word at issue has translated, while it waits for others. -/
structure Context where
  turn : Option Turn
  x : Vector Word 32
  p : Vector Bool 8
  b : Vector BReg 8
  tok : Vector (Option TokPend) 8
  a : Vector Word 16
  mb : Vector Word 4
  s : Vector Half 16
  m : Vector (BitVec 256) 8
  h : Vector (BitVec 16) 16
  vshape : BitVec 32
  mfmt : BitVec 8
  fflags : BitVec 8
  strict : Bool
  q : Vector Queue 16
  chans : Vector (List Tok) 12
  landing : List Landing
  lbuf : List LandSave
  hbuf : List LandSave
  divBusy : Nat
  cs : StreamSt
  ts : StreamSt
  ms : StreamSt
  vs : StreamSt
  twin : List TEntry
  rldSlots : Vector (Option Nat) 8
  rldBufs : Nat
  rldHeld : Option (Fin 8 × Nat)
  ranges : List RangeOp
  vpend : List VPend
  nest : Vector NestLevel 6
  captured : Nat
  acc : Tab (List Half)
  rowInt : Tab Bool
  zeroing : List MRet
  aggC : Aggregate
  aggT : Aggregate
  aggM : Aggregate
  pl : Bool
  ppl : Bool
  tip : Bool
  held : Bool
  cause : BitVec 24
  epc : Word
  faddr : Word
  fpc : Word
  fpc2 : Word
  frec : Word
  sscr : Word
  limit : BitVec 32
  net : BitVec 32
  deadline : Word
  occupancy : BitVec 32
  excused : BitVec 32
  dbgctl : BitVec 4
  trctl : BitVec 20
  trbase : Word
  bdring : Word
  rplog : Word
  bpa : Vector Word 4
  bpi : Vector Word 4
  boardSeq : BitVec 32
  boardSkip : Nat
  boardBusy : Nat
  replayAt : Nat
  replayBack : List Nat
  replayOff : Bool
  replayFull : Bool
  logHeld : List LogEnt
  pend : List PendTrap
  resume : Bool
  hresume : Bool
  dead : Nat
  haltReq : Bool
  halted : Bool
  waitMask : BitVec 8
  stepOf : Option StepSt
  retire : Option RetireSt
  idle : Nat
  asked : Nat
  askedX : Nat
  excuseTo : Nat
  slow : List (Nat × Nat × Nat)
  issuedThen : Nat
  upWait : List UpWait
  fenceKept : Option (Word × FenceSt)
  tipSerial : Nat
  hwas : List (Fin 16 × Strm × Nat × BitVec 16)
  tcommitAt : Nat
  ttr : List Trans
deriving DecidableEq, Repr

/-! ### One core -/

/-- An exact value: NaN, an infinity, or (-1)^neg * m * 2^e. -/
inductive Val where
  | nan
  | inf (neg : Bool)
  | fin (neg : Bool) (m : Nat) (e : Int)
deriving DecidableEq, Repr

/-- The engine that runs a pawn (R164, R168). -/
inductive Engine where
  | transfer | matrix | collective
deriving DecidableEq, Repr

/-- A pawn's state (R165). -/
inductive PawnState where
  | pending | running | done | faulted | cancelled
deriving DecidableEq, Repr

/-- How a copy pawn reads its walks: record, base, element width and geometry of the base's place. -/
structure CopySide where
  base : Word
  ly : LyRec
  bits : Nat
  geom : Nat
  fmt : Nat
deriving DecidableEq, Repr

/-- What a pawn does, with what its creating word read at issue. -/
inductive PawnJob where
  /-- Rows of a walk to rows of a walk (R328, R329); rows, row length in bytes, raw, strict. -/
  | copy (src dst : CopySide) (rows rowLen : Nat) (raw strict : Bool)
  | gath (dst : CopySide) (rowLen : Nat) (raw strict : Bool) (idx : List Word)
  | scat (src : CopySide) (rowLen : Nat) (raw strict : Bool) (idx : List Word)
  | rld (src dst : Word) (n bufs : Nat)
  | rst (src dst : Word) (n : Nat)
  | send (chan : Nat) (launch : Word) (src : Word) (slot n : Nat)
  | mgo (nest : List NestLevel) (a0 b0 : Word) (t : Nat) (acc : Bool) (afmt bfmt : Nat) (mc : Bool)
      (strict : Bool)
  | acc2s (base : Word) (t : Nat) (ly : LyRec)
  | s2acc (base : Word) (t : Nat) (ly : LyRec)
  | accmul (base : Word) (t : Nat) (ly : LyRec) (perCol : Bool)
  | coll (fn : Nat) (desc params buf : Word) (number : Nat)
deriving DecidableEq, Repr

/-- One pawn table entry (R164, R165). `fin` is the end it has reached and that is not yet counted (R155); `net` a fault that a link or a
bridge has brought one of its accesses, with its place among them (R35, R42, R43); `tr` is where the accesses land of the steps that it has
started, once they are translated (R132, R134); `lead` the cycles from the start of its first step to the step's end, and `begun` says that this
has started; `panels` holds the bytes that one bank read has given the panels of an MGO's step (R37, R345). -/
structure Pawn where
  live : Bool
  gen : BitVec 10
  state : PawnState
  owner : Option (BitVec 48)
  cx : Bool
  st : Strm
  eng : Engine
  pri : Nat
  handle : Option (Fin 16)
  adopted : Bool
  launch : Word
  event : Option Nat
  frec : Word
  faddr : Word
  pc : Word
  endsAt : Nat
  serial : Nat
  job : PawnJob
  pos : Nat
  idx : List Nat
  rows : BitVec 512
  covered : BitVec 512
  due : Nat
  suspended : Bool
  cancelReq : Bool
  draw : Bool
  vec : List Val
  sync : Fin 8
  fin : Option PawnState
  net : Option (Nat × Cause)
  lead : Nat
  retry : Bool
  tr : List Trans
  begun : Bool
  panels : List (List (BitVec 8))
deriving DecidableEq, Repr

/-- A TLB entry (R131, R138): context, first 64 KiB page number of the page, leaf, incarnation. The most
recently used entry stands first. -/
structure TlbEnt where
  cx : Bool
  vpage : Nat
  leaf : Leaf
  inc : BitVec 16
deriving DecidableEq, Repr

/-- A walk in flight (R132): who waits for it and when it ends. -/
structure Walk where
  serial : Nat
  cx : Bool
  tlb : Strm
  vpage : Nat
  due : Nat
  prefetch : Bool
deriving DecidableEq, Repr

/-- A trace record waiting in the core's buffer (R204, R207). -/
structure TraceRec where
  cx : Bool
  bytes : List (BitVec 8)
deriving DecidableEq, Repr

/-- A remote load that was in flight when its partition was swapped out (R188): partition, pawn entry, source key, size, the site of the core in
whose scratchpad it lands and where there, when its response comes. -/
structure LateRead where
  part : Nat
  slot : Fin 64
  key : Nat
  bytes : Nat
  site : Nat
  off : Nat
  due : Nat
deriving DecidableEq, Repr

/-- What the two contexts of a core share (R172). -/
structure Core where
  part : Option Nat
  enabled : Bool
  active : Bool
  pawns : Vector Pawn 64
  ly : Vector LyRec 64
  ctlTlb : List TlbEnt
  tTlb : List TlbEnt
  mTlb : List TlbEnt
  vTlb : List TlbEnt
  walks : List Walk
  wfault : List (Bool × Strm × Nat × Cause)
  board : Tab (BitVec 32)
  trace : List TraceRec
  lost : Nat
  gatedAt : Option Nat
  gapOwed : Option Nat
  drainAt : Nat
  sp : Tab Half
  remap : List (Nat × Nat)
  lateReads : List LateRead
  mstep : Option (Fin 64)
  xferCycle : Nat
  mcCycle : Nat
  urgent : Option Nat
  evalAt : Nat
  stopping : Bool
deriving DecidableEq, Repr

/-- A core with both its contexts, when it is not in focus. -/
structure CoreBox where
  core : Core
  a : Context
  b : Context
deriving DecidableEq, Repr

/-! ### One partition -/

/-- A ready turn in a heap, a queue or a wait list (R79, R82). -/
structure HeapEnt where
  turn : Turn
  saved : Option Context
deriving DecidableEq, Repr

/-- The scheduler of one cluster (R79, R83). -/
structure Sched where
  heap : List HeapEnt
  spill : List HeapEnt
  bgq : List HeapEnt
  since : Nat
  refillAt : Nat
  lastCycle : Nat
deriving DecidableEq, Repr

/-- One live event (R91, R92, R305). -/
structure EvEnt where
  job : Nat
  counting : Bool
  state : BitVec 32
  waiters : List (HeapEnt × Nat)
  overflow : List (HeapEnt × Nat)
  notify : Bool
  vec : Fin 16
  walkAt : Option Nat
deriving DecidableEq, Repr

/-- An operation on its way to the event table (R91). -/
inductive EvKind where
  | post
  | test
  | sete (fn : Nat) (v : BitVec 32)
  /-- The names of a job are freed, after the posts that came before (R66). -/
  | free (job : Nat)
deriving DecidableEq, Repr

/-- An operation on the event table, with the wait token that awaits it: of which turn, and its number. -/
structure EvOp where
  due : Nat
  name : Nat
  kind : EvKind
  tok : Option (BitVec 48 × Fin 8)
deriving DecidableEq, Repr

/-- Who holds a rack port (R99): a turn, or the phase selector. -/
inductive Holder where
  | turn (id : BitVec 48)
  | selector
deriving DecidableEq, Repr

/-- One rack (R96 to R99). `ports` are the reader ports; slotCycle none is never committed. -/
structure Rack where
  job : Nat
  slots : Nat
  base : Word
  stride : Nat
  scope : Nat
  home : Nat
  desc : Word
  slotSeq : List Nat
  slotCycle : List (Option Nat)
  freshest : Option Nat
  seq : Nat
  ports : List (Option (Holder × Nat))
  writer : Option (Holder × Nat)
deriving DecidableEq, Repr

/-- A rack operation on the signal network (R101): who issued it and when it applies. `fn` is that of R314. -/
structure RackOp where
  apply : Nat
  serial : Nat
  fn : Nat
  rack : Nat
  port : Nat
  holder : Holder
  cluster : Nat
  tok : Option (BitVec 48 × Fin 8)
  sel : Option (Nat × Nat)
deriving DecidableEq, Repr

/-- A channel of a live launch (R113, R114): slots in ring order; each turn of the receiver holds at most one. -/
structure Chan where
  launch : Word
  num : Nat
  slots : Nat
  size : Nat
  sender : Nat
  receiver : Nat
  base : Nat
  next : Nat
  filling : List Nat
  filled : List Nat
  held : List (Nat × BitVec 48)
deriving DecidableEq, Repr

/-- The kind of a live level (R63). -/
inductive LevelKind where
  | launch | graph | phase | job
deriving DecidableEq, Repr

/-- A live level (R63, R94): its counter, its parent's counter, and what it belongs to. For a launch,
`node` is its graph node; `draw` its declaration D and `drawHeld` the slots it holds (R75). `cancelled` says that a cancel has been linearised
at it or above it, which the CANCELLED bit alone, copied up from a child, does not (R64, R78). -/
structure Level where
  kind : LevelKind
  counter : Word
  parent : Word
  job : Nat
  act : Nat
  node : Option Nat
  draw : Nat
  drawHeld : Nat
  cancelled : Bool
deriving DecidableEq, Repr

/-- One activity of a loaded job (R67, R68). -/
structure Activity where
  addr : Word
  period : Word
  rel : Word
  phase : Word
  event : Option Nat
  heat : Nat
  trapmiss : Bool
  limit : Nat
  made : Nat
  nextDt : Word
  live : Bool
  deadline : Word
  missed : Bool
  ended : Bool
  sizeAt : Option Nat
  selOpen : Bool
  selAddr : Word
deriving DecidableEq, Repr

/-- A loaded job (R65, R66). `range` is its load range: where it starts, and its length. -/
structure Job where
  live : Bool
  counter : Word
  msix : Option (Fin 16)
  strict : Bool
  acts : List Activity
  events : List Nat
  racks : List Nat
  lys : List Nat
  range : Nat × Nat
deriving DecidableEq, Repr

/-- A write to a replicated frame that waits at its home for its holders (R137). `site` is the writer's; 288 stands for this package's hardware and
289 + c for chip c; `serial` is the creation number of the token, T word or pawn that makes it. -/
structure ReplWrite where
  frame : Nat
  key : Nat
  data : List (BitVec 8)
  site : Nat
  cx : Bool
  path : Nat
  waiting : List Nat
  sent : Bool
  serial : Option Nat
deriving DecidableEq, Repr

/-- A shootdown or a map change in progress (R134, R53): the sites that have not acknowledged, and those that have dropped their entries,
with the accesses in flight that these entries have translated: token, T word, pawn or write by creation number, and a pawn's position. -/
structure Shoot where
  vpage : Nat
  kind : Nat
  waiting : List Nat
  dropped : List (Nat × List (Nat × Nat))
  newMap : Option (List (BitVec 128))
deriving DecidableEq, Repr

/-- One partition. -/
structure Part where
  live : Bool
  clusters : List Nat
  single : Bool
  map : List (BitVec 128)
  mapWritten : List (BitVec 128)
  window : Nat
  subq : List Nat
  copied : List (Nat × List (BitVec 8))
  ovf : Bool
  badaddr : Bool
  swapped : Bool
  accepted : BitVec 32
  sealOpen : Bool
  grant : Nat
  held : Nat
  mgoWait : List (Nat × Bool × BitVec 48)
  freed : List (Nat × Word)
  ptroot : Word
  invaddr : Word
  invctl : BitVec 3
  busy : Bool
  shoot : Option Shoot
  tvec : Word
  flog : Word
  floge : Word
  logSeq : BitVec 32
  tofs : Word
  tscale : Word
  tmode : Bool
  staged : List (TimeReg × Word)
  created : Word
  swappedTotal : Word
  swapSince : Option Word
  cores : Tab Nat
  nextCore : Nat
  events : Tab EvEnt
  evops : List EvOp
  placing : List (Nat × HeapEnt)
  overflowCap : Nat
  racks : Tab Rack
  rackops : List RackOp
  scheds : Tab Sched
  spillCap : Nat
  lastPlace : Option Nat
  jobs : List Job
  levels : List Level
  chans : List Chan
  casts : List (Nat × Word)
  imports : List (List (BitVec 8) × Nat × Word)
  turnSeq : BitVec 48
  holders : Tab (List Nat)
  replWrites : List ReplWrite
  replicaCap : Nat
  collSeq : Tab Nat
  images : Tab CoreBox
  measure : List (BitVec 8)
deriving DecidableEq, Repr

/-! ### The package -/

/-- Power of the package (R61, R58). -/
inductive Power where
  | on | tripped | failed
deriving DecidableEq, Repr

/-- An HBM stack's monitor (R16, R17). -/
structure Stack where
  temp : BitVec 10
  ref2x : Bool
  hot : Bool
  hotseen : Bool
  run : Nat
  reports : Nat
deriving DecidableEq, Repr

/-- A column's monitor and site flags (R15, R17). -/
structure Column where
  temp : BitVec 10
  allow : BitVec 8
  spare : Bool
  retired : Bool
deriving DecidableEq, Repr

/-- A die's monitors (R13, R14, R17), and the cycles that its MCLK has stood still in all, those to come of its present stretch among them. -/
structure Die where
  droop : BitVec 24
  stretchTo : Nat
  lost : Nat
  ringCount : BitVec 16
  ringSel : BitVec 2
  ringBusy : Bool
deriving DecidableEq, Repr

/-- A peer-table entry (R44). -/
structure Peer where
  inc : BitVec 16
  valid : Bool
  up : Bool
  lost : Bool
  ports : BitVec 18
deriving DecidableEq, Repr

/-- A transaction in a retry store (R40); `resp` names the request that a response answers, by its source's port and number. For an access of
this chip, `lat` is the cycles from its sending to its answer, and `ansAt` the cycle of the answer once it is sent (R47). -/
structure LinkTxn where
  chip : Nat
  seq : BitVec 32
  frame : Nat
  tag : Nat
  sentDt : Nat
  resends : Nat
  resp : Option (Nat × BitVec 32)
  lat : Option Nat
  ansAt : Option Nat
deriving DecidableEq, Repr

/-- What waits for the cores of a partition to stop (R19, R186, R214). -/
inductive Pause where
  | swap (k : SwapKind)
  | epoch
  | repair (site : Nat)
deriving DecidableEq, Repr

/-- A link port (R22, R38 to R40): its lanes, the cycle to which it is held, and to which a replay holds it, the next sequence number, the retry store, what waits at it for
room, and the tags of what it has given up. -/
structure LinkPort where
  failed : Nat
  spareUsed : Bool
  half : Bool
  inService : Bool
  heldTo : Nat
  replayTo : Nat
  nextSeq : BitVec 32
  store : List LinkTxn
  waiting : List LinkTxn
  lostTags : List Nat
deriving DecidableEq, Repr

/-- What a destination tracks per source (R41): the highest contiguous number accepted, later numbers
accepted, acknowledgements owed and since when, responses kept. -/
structure LinkSrc where
  chip : Nat
  port : Nat
  high : BitVec 32
  above : List (BitVec 32)
  owed : Nat
  owedSince : Nat
  responses : List (BitVec 32 × Option Cause × List (BitVec 8))
deriving DecidableEq, Repr

/-- A flit in the mesh (R25 to R33): its packet and its place in it (0 the head), where it is latched and by which input port it came
(0 west, 1 north, 2 east, 3 south, 4 core, 5 deep; 6 while it stands in the interface of its source), its channel (0 to 5), whether it stands
in that channel's own reserved flit and not in the shared pool, the first FCLK cycle in which it may drive a set-up, how many outputs it has crossed, and the outputs its set-up has won. -/
structure Flit where
  id : Nat
  packet : Nat
  idx : Nat
  last : Bool
  x : Nat
  y : Nat
  chan : Nat
  own : Bool
  port : Nat
  since : Nat
  crossed : Nat
  won : List (Nat × Nat × Nat)
deriving DecidableEq, Repr

/-- An output that a packet's head has crossed, and the channel it was on (R25, R27): the packet's other flits follow. -/
structure Hop where
  out : Nat × Nat × Nat
  chan : Nat
deriving DecidableEq, Repr

/-- A packet on the mesh or the memory plane: its class, the request it belongs to, its end points, its data flits, the outputs its head
has crossed, and the request packet whose exchange it is part of. -/
structure MeshPkt where
  id : Nat
  cls : PktClass
  spec : PktSpec
  src : NetEnd
  dst : NetEnd
  data : Nat
  route : List Hop
  root : Nat
deriving DecidableEq, Repr

/-- A request that has reached its home (R26, R31), in arrival order: whether the home has asked with Request 1, and the answers to come. -/
structure Serve where
  root : Nat
  spec : PktSpec
  asked : Bool
  waiting : Nat
deriving DecidableEq, Repr

/-- A packet that a bridge link keeps until the far side acknowledges it (R35, R40): the link, its number, the FCLK cycle of its last
sending, its resends, and when the far side had all of it. -/
structure BridgeTxn where
  link : Nat × Nat × Nat
  seq : Nat
  packet : Nat
  sentAt : Nat
  resends : Nat
  far : Option Nat
deriving DecidableEq, Repr

/-- A beat on the memory plane (R36): its packet, whether it is the packet's last, its memory router, its channel (false request, true
response), and the MCLK cycle from which it may move. -/
structure Beat where
  packet : Nat
  last : Bool
  x : Nat
  y : Nat
  resp : Bool
  ready : Nat
deriving DecidableEq, Repr

/-- The mesh and the memory plane (R23 to R36): the FCLK cycle, the MCLK cycle in which the next one begins, and whether this one's set-ups
are still to be driven; packets and their flits and beats; requests that wait for buffers; the round-robin pointers; response buffers
reserved; writes not yet acknowledged by source, context, path and line; what homes serve; what has been delivered, and when; how requests
have ended, and which have been served by their homes; links out of service; what bridges keep. -/
structure Mesh where
  fclk : Nat
  nextAt : Nat
  setupOwed : Bool
  nextId : Nat
  flits : List Flit
  beats : List Beat
  waiting : List PktSpec
  pointers : Tab Nat
  reserved : Tab Nat
  packets : List MeshPkt
  writes : List (NetEnd × Bool × Fin 6 × Nat)
  serving : List Serve
  delivered : List (Nat × Nat)
  ended : List (PktSpec × Option Cause)
  homes : List Nat
  failedLinks : List (Nat × Nat × Nat)
  bridges : List BridgeTxn
  bridgeSeq : Tab Nat
deriving DecidableEq, Repr

/-- The network boot of the ROM (R56). -/
inductive BootStep where
  | idle | link | server | fetch | verify | running | failed (step cause : Nat) | bootfail
deriving DecidableEq, Repr

/-- Boot state (R56, R57). -/
structure Boot where
  step : BootStep
  core : Nat
  passed : BitVec 4
  port : Nat
  linkTries : Nat
  server : Option (Nat × List (BitVec 8))
  nextBlock : Nat
  retries : Nat
  restarts : Nat
  image : List (BitVec 8)
  entry : BitVec 32
deriving DecidableEq, Repr

/-- The module's replay-protected counter store and flash (R43, R57, R58, R60). -/
structure Store where
  incarnation : BitVec 16
  minVersion : BitVec 32
  xmssIndex : Nat
  spareMap : Nat
  flash : List CfgRecord
deriving DecidableEq, Repr

/-- The guards the ROM sets and locks (R61). -/
structure Guards where
  locked : Bool
  windows : List (Nat × Nat)
  writeCap : Nat
  egressCap : Nat
  burst : Nat
  writeUsed : Nat
  egressUsed : List Nat
  writeDrops : Nat
  frameDrops : Nat
  since : Nat
deriving DecidableEq, Repr

/-- An entry of a retirement list (R192): V, UC and LINE. -/
structure RetEnt where
  v : Bool
  uc : Bool
  line : Nat
deriving DecidableEq, Repr

/-- A memory controller's errors and retirement list (R192): 32 entries by number. -/
structure MemCtl where
  ce : BitVec 16
  ue : BitVec 8
  list : Tab RetEnt
deriving DecidableEq, Repr

/-- A debug window of a site (R196). -/
structure DbgWin where
  idx : BitVec 32
  lo : BitVec 32
  hi : BitVec 32
  code : Fin 8
deriving DecidableEq, Repr

/-- A copy by a service core out of the package's memory into host memory (R62): where it writes next, what it reads next, what is left. -/
structure SvcCopy where
  addr : Nat
  pa : Nat
  left : Nat
deriving DecidableEq, Repr

/-- What the outside has been told: interrupts, boot reports, signatures, dropped frames. -/
inductive Notice where
  | vfVector (part : Nat) (vec : Nat)
  | pf0Vector (vec : Nat)
  | hotInterrupt (stack : Nat)
  | hotReport (stack : Nat)
  | bootReport (step cause : Nat)
  | bootFail
  | report (bytes : List (BitVec 8))
  | keySpent
  | mapResume (part : Nat)
  | announce (to_ chip : Nat) (inc : BitVec 16)
  | ack (chip port : Nat) (seq : BitVec 32)
  | response (chip port : Nat) (seq : BitVec 32) (data : List (BitVec 8))
  | refused (chip port : Nat) (seq : BitVec 32) (cause : Cause)
  | invalidate (chip die frame : Nat)
  | serviceFault (pa : Nat) (cause : Cause)
  | collRefused (chip number : Nat)
  | peerLost (site chip : Nat)
deriving DecidableEq, Repr

/-- A collective in progress on this chip (R48, R49, R313): its descriptor and number, what its members asked for, the member chips and
logical cores, the contributions read so far by logical core, the value here, the exchange steps made, and what ended it. -/
structure Coll where
  id : Nat
  part : Nat
  desc : List (BitVec 8)
  number : Nat
  fn : Nat
  count : Nat
  root : Nat
  chips : List Nat
  cores : List Nat
  arrived : Tab (List (BitVec 8))
  value : List (BitVec 8)
  exchange : Nat
  ready : Bool
  fault : Option Cause
deriving DecidableEq, Repr

/-- An access of a core that has left its column (R23, R29, R40): site, context, the creation number of its token, T word or pawn, its place
among the accesses of that one, the tag of its request, whether its answer is still to come, and the answer on its way: the cycle in which
it is there, and its fault. `key` is where it lands, `path` its path, and `got` the bytes that its home has served, which a read holds from its
arrival there (R31); `done` says that its home has served it. -/
structure NetAcc where
  site : Nat
  cx : Bool
  serial : Nat
  pos : Nat
  tag : Nat
  live : Bool
  answer : Option (Nat × Option Cause)
  key : Nat
  bytes : Nat
  writes : Bool
  path : Nat
  got : List (BitVec 8)
  done : Bool
deriving DecidableEq, Repr

/-- A request of a peer under way here (R41): the tag of its packet and its creation number, and its answer once its home has served it. -/
structure PeerJob where
  tag : Nat
  serial : Nat
  req : PeerReq
  ans : Option (Option Cause × List (BitVec 8))
deriving DecidableEq, Repr

/-- One slot of a cycle's issue order: site, context, stream. -/
structure Slot where
  site : Nat
  cx : Bool
  st : Strm
deriving DecidableEq, Repr

/-- The machine. Beside what the rules name it holds fields of the model's own: the outside events to come and the slots of the cycle (logs 2, 18),
the creation counter, and the schedules of extra cycles, host completion errors and residue mismatches that an access or a step meets next
(logs 4, 22); `peerCycles` is the load-to-use time of a peer's HBM, at most 1,365 cycles (R47, log 4), and `peerRefuses` lists the frames of which
a peer or a pooled device refuses what this chip's hardware and instruction fetch ask of it: chip, frame, cause (R43, R53, log 22); `raises` lists the minimum versions that firmware will ask for (R57, log 22); `shadows` says whose image stands in a site's shadow store (R187); `mcReads` lists the
multicast reads of the last cycles (R37), `net` the accesses that have left their columns, `flips` the words
with a single-bit error (R189), `taken` the memory that a repair has used up (R18). The core, context and partition in focus are unpacked in
`core`, `ctx`, `octx` and `part`; `cores` and `parts` hold the others. -/
structure State where
  cycle : Nat
  dtBase : Nat
  agenda : List Instr
  todo : List Slot
  serial : Nat
  delays : List Nat
  peerCycles : Nat
  peerRefuses : List (Nat × Nat × Cause)
  hostErrors : List Bool
  raises : List (BitVec 32)
  mismatches : List Bool
  mcReads : List (Nat × Nat × List (BitVec 8))
  net : List NetAcc
  shadows : Tab Nat
  netNext : Nat
  power : Power
  mem : Memory
  badWords : List Nat
  flips : List Nat
  drowsy : List (Nat × Nat)
  site : Nat
  cx : Bool
  ctx : Context
  octx : Context
  core : Core
  cores : Tab CoreBox
  pid : Nat
  part : Part
  parts : Tab Part
  walkCaches : List (List (Nat × Nat × Nat))
  hbm : Vector Stack 12
  columns : Vector Column 288
  dies : Vector Die 18
  drawceil : BitVec 9
  ceilErr : Bool
  tlimit : BitVec 8
  peers : Vector Peer 64
  myInc : BitVec 16
  chip : BitVec 6
  clock : Bool
  radius : Vector (BitVec 4) 3
  smask : Vector Word 3
  ports : Vector LinkPort 18
  sources : List LinkSrc
  peerJobs : List PeerJob
  announced : Bool
  mesh : Mesh
  boot : Boot
  store : Store
  guards : Guards
  svcCopies : List SvcCopy
  measure : List (BitVec 8)
  imageVersion : BitVec 32
  signing : Option (List (BitVec 8))
  eastKey : Bool
  memctl : Vector MemCtl 30
  mtrbase : Word
  dbg : Vector DbgWin 288
  pauses : List (Nat × Pause)
  repairs : List Repair
  repairing : List Repair
  stagedRows : List Nat
  corrections : List (Nat × Nat)
  retiredChans : List (Nat × Nat)
  retiredBanks : List (Nat × Nat)
  taken : List (Nat × Nat)
  sparedRows : List (Nat × Nat)
  serviceCores : BitVec 4
  imageB : Bool
  colls : List Coll
  notices : List Notice
  gated : List Nat
deriving DecidableEq, Repr

/-! ### Reset -/

/-- The stream of a context that has no turn. -/
def StreamSt.idle : StreamSt :=
  { run := false, pc := 0, loops := [], awaited := none, wait := none, holdReq := false, held := false,
    readyAt := 0, fence := none, issued := 0, bound := true, bpSkip := false, know := { c := 0, t := 0, m := 0 } }

/-- An unbound, empty queue (R152). -/
def Queue.empty : Queue :=
  { prod := 3, cons := 3, was := (3, 3), since := 0, ents := [], popCycle := 0, popCount := 0, cursor := 0 }

/-- An aggregate that has been cleared (R167). -/
def Aggregate.clear : Aggregate :=
  { ended := false, cancelled := false, faulted := false, serial := 0, frec := 0, faddr := 0, slot := 0 }

/-- A context as dispatch sets it (R152, R337, R351), before the turn record's own values. The registers
R4 gives no reset value (EPC, FADDR, FPC, FPC2, FREC, SSCR and the budget and deadline of no turn) are 0:
DESIGN CHOICE, log 5. -/
def Context.reset : Context :=
  { turn := none
    x := Vector.replicate 32 0
    p := Vector.replicate 8 false
    b := Vector.replicate 8 { val := 0, ready := none, byPbr := false }
    tok := Vector.replicate 8 none
    a := Vector.replicate 16 0
    mb := Vector.replicate 4 0
    s := Vector.replicate 16 0
    m := Vector.replicate 8 0
    h := Vector.replicate 16 0
    vshape := 0x401#32
    mfmt := 0
    fflags := 0
    strict := false
    q := Vector.replicate 16 Queue.empty
    chans := Vector.replicate 12 []
    landing := []
    lbuf := []
    hbuf := []
    divBusy := 0
    cs := StreamSt.idle
    ts := StreamSt.idle
    ms := StreamSt.idle
    vs := StreamSt.idle
    twin := []
    rldSlots := Vector.replicate 8 (some 0)
    rldHeld := none
    rldBufs := 32
    ranges := []
    vpend := []
    nest := Vector.replicate 6 { trip := 0, as_ := 0, bs := 0, cs := 0 }
    captured := 0
    acc := []
    rowInt := []
    zeroing := []
    aggC := Aggregate.clear
    aggT := Aggregate.clear
    aggM := Aggregate.clear
    pl := false
    ppl := false
    tip := false
    held := false
    cause := 0
    epc := 0
    faddr := 0
    fpc := 0
    fpc2 := 0
    frec := 0
    sscr := 0
    limit := 0
    net := 0
    deadline := 0
    occupancy := 0
    excused := 0
    dbgctl := 0
    trctl := 0
    trbase := 0
    bdring := 0
    rplog := 0
    bpa := Vector.replicate 4 0
    bpi := Vector.replicate 4 0
    boardSeq := 0
    boardSkip := 0
    boardBusy := 0
    replayAt := 0
    replayBack := []
    replayOff := false
    replayFull := false
    logHeld := []
    pend := []
    resume := false
    hresume := false
    dead := 0
    haltReq := false
    halted := false
    waitMask := 0
    stepOf := none
    retire := none
    idle := 0
    asked := 0
    askedX := 768
    excuseTo := 0
    slow := []
    issuedThen := 0
    upWait := []
    fenceKept := none
    tipSerial := 0
    hwas := []
    tcommitAt := 0, ttr := [] }

/-- A free pawn table entry at reset: generation 0 (R164). -/
def Pawn.free : Pawn :=
  { live := false, gen := 0, state := .pending, owner := none, cx := false, st := .c, eng := .transfer,
    pri := 0, handle := none, adopted := false, launch := 0, event := none, frec := 0, faddr := 0, pc := 0,
    endsAt := 0, serial := 0, job := .rld 0 0 0 0, pos := 0, idx := [], rows := 0, covered := 0, due := 0,
    suspended := false, cancelReq := false, draw := false, vec := [], sync := 0, fin := none, net := none, lead := 0, retry := false, tr := [],
    begun := false, panels := [] }

/-- A layout record at reset: every byte zero (R129). -/
def LyRec.zero : LyRec :=
  { rows := 0, cols := 0, rstride := 0, swz := 0, efmt := 0, lfmt := 0, scale := 0 }

/-- A core at reset: in no partition, its tables empty. -/
def Core.reset : Core :=
  { part := none, enabled := true, active := false, pawns := Vector.replicate 64 Pawn.free,
    ly := Vector.replicate 64 LyRec.zero, ctlTlb := [], tTlb := [], mTlb := [], vTlb := [], walks := [],
    wfault := [], board := [], trace := [], lost := 0, gatedAt := none, gapOwed := none, drainAt := 0, sp := [],
    remap := [], lateReads := [], mstep := none, xferCycle := 0, mcCycle := 0, urgent := none, evalAt := 0,
    stopping := false }

/-- A partition number that no partition has. -/
def Part.none : Part :=
  { live := false, clusters := [], single := false, map := [], mapWritten := [], window := 0, subq := [],
    copied := [], ovf := false, badaddr := false, swapped := false, accepted := 0, sealOpen := false,
    grant := 0, held := 0, mgoWait := [], freed := [], ptroot := 0, invaddr := 0, invctl := 0, busy := false,
    shoot := Option.none, tvec := 0, flog := 0, floge := 0, logSeq := 0, tofs := 0, tscale := 0x100000000#64,
    tmode := false, staged := [], created := 0, swappedTotal := 0, swapSince := Option.none, cores := [],
    nextCore := 0, events := [], evops := [], placing := [], overflowCap := 0, racks := [], rackops := [], scheds := [],
    spillCap := 0, lastPlace := Option.none, jobs := [], levels := [], chans := [], casts := [],
    imports := [], turnSeq := 0, holders := [], replWrites := [], replicaCap := 0, collSeq := [], images := [],
    measure := List.replicate 32 0 }

/-- A column at reset (R17). Site 35 of each die is the spare its configuration record names: DESIGN
CHOICE, log 6 (R10 says there is exactly one). The temperature has no reset value: DESIGN CHOICE 0, log 5. -/
def Column.reset (site : Nat) : Column :=
  { temp := 0, allow := 0, spare := site % 36 == 35, retired := false }

/-- The machine right after power-up and reset: no partition, no turn, nothing in memory. Values of
registers whose reset the rules give stand here; those they do not give are named in logs 1, 5, 6, 7, 8 and 9. -/
def State.reset : State :=
  { cycle := 0, dtBase := 0, agenda := [], todo := [], serial := 0, delays := [], peerCycles := 1365, peerRefuses := [], hostErrors := [], raises := [], mismatches := [], mcReads := [], shadows := []
    net := [], netNext := 1, power := .on,
    mem := [], badWords := [], flips := [], drowsy := [], site := 0, cx := false, ctx := Context.reset,
    octx := Context.reset, core := Core.reset, cores := [], pid := 0, part := Part.none, parts := [],
    walkCaches := List.replicate 8 []
    hbm := Vector.replicate 12 { temp := 0, ref2x := false, hot := false, hotseen := false, run := 0, reports := 0 }
    columns := Vector.ofFn (fun i => Column.reset i.val)
    dies := Vector.replicate 18 { droop := 0, stretchTo := 0, lost := 0, ringCount := 0, ringSel := 0, ringBusy := false }
    drawceil := 0x118#9, ceilErr := false, tlimit := 0x64#8
    peers := Vector.replicate 64 { inc := 0, valid := false, up := false, lost := false, ports := 0 }
    myInc := 0, chip := 0, clock := false
    radius := #v[1#4, 2#4, 0xF#4]
    smask := Vector.replicate 3 0
    ports := Vector.replicate 18 { failed := 0, spareUsed := false, half := false, inService := true, heldTo := 0, replayTo := 0,
                                   nextSeq := 0, store := [], waiting := [], lostTags := [] }
    sources := [], peerJobs := [], announced := false
    mesh := { fclk := 0, nextAt := 0, setupOwed := false, nextId := 0, flits := [], beats := [], waiting := [], pointers := [],
              reserved := [], packets := [], writes := [], serving := [], delivered := [], ended := [], homes := [], failedLinks := [], bridges := [],
              bridgeSeq := [] }
    boot := { step := .idle, core := 0, passed := 0, port := 0, linkTries := 0, server := none, nextBlock := 1,
              retries := 0, restarts := 0, image := [], entry := 0 }
    store := { incarnation := 0, minVersion := 0, xmssIndex := 0, spareMap := 0, flash := [] }
    guards := { locked := false, windows := [], writeCap := 2000000000, egressCap := 125000000, burst := 65536,
                writeUsed := 0, egressUsed := [0, 0], writeDrops := 0, frameDrops := 0, since := 0 }
    svcCopies := []
    measure := List.replicate 32 0, imageVersion := 0, signing := none, eastKey := false
    memctl := Vector.replicate 30 { ce := 0, ue := 0, list := [] }
    mtrbase := 0
    dbg := Vector.replicate 288 { idx := 0, lo := 0, hi := 0, code := 0 }
    pauses := [], repairs := [], repairing := [], stagedRows := [], corrections := [], retiredChans := [], retiredBanks := []
    taken := [], sparedRows := []
    serviceCores := 0xF#4, imageB := false, colls := [], notices := [], gated := [] }

end Sys2Proof.Machine
end

