-- ==== Sys2Proof/Machine/Flags.lean ====
section
/-! DEFINITION. Number formats, rounding, conversion and the flags (spec/12_numbers.md, R215 to R238).

Every result is computed exactly first: a finite value is a sign, a natural number and a power of two, and
one rounding ends the computation. The flags of an operation come out beside its result. -/

namespace Sys2Proof.Machine

/-! ### Flags (R229) -/

/-- Invalid. -/
def flNV : BitVec 8 := 0x01
/-- Exact infinite result of a finite input. -/
def flDZ : BitVec 8 := 0x02
/-- Overflow. -/
def flOF : BitVec 8 := 0x04
/-- Underflow. -/
def flUF : BitVec 8 := 0x08
/-- Inexact. -/
def flNX : BitVec 8 := 0x10
/-- PS32 input out of its codes. -/
def flPIN : BitVec 8 := 0x20
/-- PS32 overflow. -/
def flPOF : BitVec 8 := 0x40
/-- PS32 underflow. -/
def flPUF : BitVec 8 := 0x80

/-- The flag f if c holds. -/
def flIf (c : Bool) (f : BitVec 8) : BitVec 8 := if c then f else 0

/-! ### Exact values -/

/-- The exact value of an integer. -/
def Val.ofInt (i : Int) : Val := .fin (decide (i < 0)) i.natAbs 0

/-- Is the value NaN. -/
def Val.isNan : Val → Bool
  | .nan => true
  | _ => false

/-- Is the value a zero. -/
def Val.isZero : Val → Bool
  | .fin _ 0 _ => true
  | _ => false

/-- The value with the sign turned. -/
def Val.negate : Val → Val
  | .nan => .nan
  | .inf n => .inf (!n)
  | .fin n m e => .fin (!n) m e

/-- The magnitude. -/
def Val.abs : Val → Val
  | .nan => .nan
  | .inf _ => .inf false
  | .fin _ m e => .fin false m e

/-- m * 2^(e - f) for f ≤ e. -/
def scaleTo (m : Nat) (e f : Int) : Nat := m * 2 ^ (e - f).toNat

/-- a * 2^ea < b * 2^eb. -/
def magLt (a : Nat) (ea : Int) (b : Nat) (eb : Int) : Bool :=
  decide (scaleTo a ea (min ea eb) < scaleTo b eb (min ea eb))

/-- The signed integer of a finite value at the exponent f, at most its own. -/
def signedAt (neg : Bool) (m : Nat) (e f : Int) : Int :=
  if neg then -(scaleTo m e f : Int) else (scaleTo m e f : Int)

/-- The exact product; infinity times zero is NaN. -/
def Val.mul : Val → Val → Val
  | .nan, _ => .nan
  | _, .nan => .nan
  | .inf a, .inf b => .inf (a != b)
  | .inf a, .fin b m _ => if m = 0 then .nan else .inf (a != b)
  | .fin b m _, .inf a => if m = 0 then .nan else .inf (a != b)
  | .fin a m e, .fin b n f => .fin (a != b) (m * n) (e + f)

/-- The exact sum. A zero sum of operands of opposite sign has the sign `zneg` (R224: +0, and -0 under
RDN); two zeros of one sign keep it. Infinities of opposite sign give NaN. -/
def Val.add (zneg : Bool) : Val → Val → Val
  | .nan, _ => .nan
  | _, .nan => .nan
  | .inf a, .inf b => if a = b then .inf a else .nan
  | .inf a, .fin _ _ _ => .inf a
  | .fin _ _ _, .inf b => .inf b
  | .fin a m e, .fin b n f =>
    let g := min e f
    let s := signedAt a m e g + signedAt b n f g
    if s = 0 then .fin (if m = 0 ∧ n = 0 ∧ a = b then a else zneg) 0 0
    else .fin (decide (s < 0)) s.natAbs g

/-- The order of two values that are not NaN: a < b, with -0 and +0 equal. -/
def Val.lt : Val → Val → Bool
  | .nan, _ => false
  | _, .nan => false
  | .inf a, .inf b => a && !b
  | .inf a, .fin _ _ _ => a
  | .fin _ _ _, .inf b => !b
  | .fin a m e, .fin b n f =>
    let g := min e f
    decide (signedAt a m e g < signedAt b n f g)

/-- Equality of values that are not NaN, with -0 and +0 equal. -/
def Val.eqv (a b : Val) : Bool := !a.isNan && !b.isNan && !a.lt b && !b.lt a

/-- The sign bit of a value. -/
def Val.sign : Val → Bool
  | .nan => false
  | .inf n => n
  | .fin n _ _ => n

/-! ### Floating-point formats (R216, R217) -/

/-- A floating-point format: significand bits, exponent bits, bias, whether it has infinities and whether
it has NaN at all. -/
structure FpFmt where
  p : Nat
  ebits : Nat
  bias : Nat
  hasInf : Bool
  hasNan : Bool
  largestM : Nat
  largestE : Int
deriving DecidableEq, Repr

def fp32 : FpFmt := ⟨24, 8, 127, true, true, 2 ^ 24 - 1, 104⟩
def bf16 : FpFmt := ⟨8, 8, 127, true, true, 2 ^ 8 - 1, 120⟩
def fp16 : FpFmt := ⟨11, 5, 15, true, true, 2 ^ 11 - 1, 5⟩
def e4m3 : FpFmt := ⟨4, 4, 7, false, true, 14, 5⟩
def e5m2 : FpFmt := ⟨3, 5, 15, true, true, 7, 13⟩
def e2m1 : FpFmt := ⟨2, 2, 1, false, false, 3, 1⟩

/-- The width of a format in bits. -/
def FpFmt.width (f : FpFmt) : Nat := f.p + f.ebits

/-- The exponent of the smallest normal number. -/
def FpFmt.emin (f : FpFmt) : Int := 1 - (f.bias : Int)

/-- The exact value of a pattern (R216). -/
def FpFmt.decode (f : FpFmt) (w : Nat) : Val :=
  let frac := w % 2 ^ (f.p - 1)
  let ex := w / 2 ^ (f.p - 1) % 2 ^ f.ebits
  let neg := w / 2 ^ (f.p - 1 + f.ebits) % 2 == 1
  let top := ex == 2 ^ f.ebits - 1
  if top && f.hasInf then (if frac = 0 then .inf neg else .nan)
  else if top && f.hasNan && frac == 2 ^ (f.p - 1) - 1 then .nan
  else if ex = 0 then .fin neg frac (f.emin - (f.p : Int) + 1)
  else .fin neg (2 ^ (f.p - 1) + frac) ((ex : Int) - f.bias - f.p + 1)

/-- The canonical NaN (R217); E2M1 has none and gives +0 (R224). -/
def FpFmt.nanBits (f : FpFmt) : Nat :=
  if !f.hasNan then 0
  else if f.hasInf then (2 ^ f.ebits - 1) * 2 ^ (f.p - 1) + 2 ^ (f.p - 2)
  else 2 ^ (f.p - 1 + f.ebits) - 1

/-- The infinity of a sign. -/
def FpFmt.infBits (f : FpFmt) (neg : Bool) : Nat :=
  neg.toNat * 2 ^ (f.p - 1 + f.ebits) + (2 ^ f.ebits - 1) * 2 ^ (f.p - 1)

/-- The pattern of the finite value k * 2^q of a sign, which the format has. -/
def FpFmt.finBits (f : FpFmt) (neg : Bool) (k : Nat) (q : Int) : Nat :=
  let s := neg.toNat * 2 ^ (f.p - 1 + f.ebits)
  let (k, q) := if k ≥ 2 ^ f.p then (k / 2, q + 1) else (k, q)
  if k < 2 ^ (f.p - 1) then s + k
  else s + (q + f.p - 1 + f.bias).toNat * 2 ^ (f.p - 1) + (k - 2 ^ (f.p - 1))

/-- The largest finite value of a sign. -/
def FpFmt.largestBits (f : FpFmt) (neg : Bool) : Nat := f.finBits neg f.largestM f.largestE

/-! ### Rounding (R223, R224) -/

/-- The rounding modes of R223. -/
inductive RMode where
  | rne | rtz | rdn | rup
deriving DecidableEq, Repr

/-- The mode of a code; 4 to 7 are reserved and never reach here. -/
def RMode.ofCode (n : Nat) : RMode :=
  match n with
  | 1 => .rtz
  | 2 => .rdn
  | 3 => .rup
  | _ => .rne

/-- A zero sum is negative under RDN (R224). -/
def RMode.zneg : RMode → Bool
  | .rdn => true
  | _ => false

/-- The quotient of m by 2^sh, rounded in the mode for a value of that sign, and whether it is inexact. -/
def roundShift (mode : RMode) (neg : Bool) (m sh : Nat) : Nat × Bool :=
  let k := m / 2 ^ sh
  let r := m % 2 ^ sh
  let up := match mode with
    | .rne => decide (2 * r > 2 ^ sh) || (decide (2 * r = 2 ^ sh) && k % 2 == 1)
    | .rtz => false
    | .rdn => neg && decide (r ≠ 0)
    | .rup => !neg && decide (r ≠ 0)
  (if up then k + 1 else k, decide (r ≠ 0))

/-- m * 2^e at the spacing 2^q, rounded. -/
def roundAt (mode : RMode) (neg : Bool) (m : Nat) (e q : Int) : Nat × Bool :=
  if q ≤ e then (scaleTo m e q, false) else roundShift mode neg m (q - e).toNat

/-- What an overflow returns (R224). -/
def FpFmt.overflow (f : FpFmt) (mode : RMode) (sat neg : Bool) : Nat :=
  if sat || !f.hasInf then f.largestBits neg
  else match mode with
    | .rne => f.infBits neg
    | .rtz => f.largestBits neg
    | .rup => if neg then f.largestBits neg else f.infBits neg
    | .rdn => if neg then f.infBits neg else f.largestBits neg

/-- round_to of R224: the pattern and the flags. -/
def roundTo (f : FpFmt) (mode : RMode) (sat : Bool) : Val → Nat × BitVec 8
  | .nan => (f.nanBits, flNV)
  | .inf neg =>
    if f.hasInf && !sat then (f.infBits neg, 0)
    else if !f.hasInf && f.hasNan && !sat then (f.nanBits, 0)
    else (f.largestBits neg, flOF)
  | .fin neg m e =>
    if m = 0 then (f.finBits neg 0 (f.emin - (f.p : Int) + 1), 0)
    else
      let ex := max ((Nat.log2 m : Int) + e) f.emin
      let q := ex - (f.p : Int) + 1
      let (k, inexact) := roundAt mode neg m e q
      if magLt f.largestM f.largestE k q then (f.overflow mode sat neg, flOF ||| flNX)
      else
        let tiny := inexact && magLt k q 1 f.emin
        (f.finBits neg k q, flIf inexact flNX ||| flIf tiny flUF)

/-- round_rne of R231: into FP32, to nearest, without saturation. -/
def roundFp32 (v : Val) : Nat := (roundTo fp32 .rne false v).1

/-! ### Integers (R220, R226) -/

/-- An exact value rounded into an integer range (R226). -/
def roundInt (mode : RMode) (lo hi : Int) : Val → Int × BitVec 8
  | .nan => (0, flNV)
  | .inf neg => (if neg then lo else hi, flNV)
  | .fin neg m e =>
    let (k, inexact) := roundAt mode neg m e 0
    let i : Int := if neg then -(k : Int) else k
    if i < lo then (lo, flNV ||| flNX)
    else if hi < i then (hi, flNV ||| flNX)
    else (i, flIf inexact flNX)

/-! ### PS32 (R221, R222) -/

/-- The value of a PS32 pattern and its input flag. -/
def ps32Val (w : Nat) : Val × BitVec 8 :=
  let ex : Nat := w / 2 ^ 21 % 2 ^ 11
  let f : Nat := w % 2 ^ 21
  if ex = 0 then (.fin false 0 0, flIf (decide (f ≠ 0)) flPIN)
  else if ex = 2047 then (.fin false (2 ^ 22 - 1) (-6), flPIN)
  else (.fin false (2 ^ 21 + f) (16 - (ex : Int) - 21), 0)

/-- The PS32 pattern of an exact value (R222), with conversions of signs, NaN and infinities. -/
def roundPs (mode : RMode) : Val → Nat × BitVec 8
  | .nan => (0, flNV)
  | .inf neg => if neg then (0, flNV) else (0x003FFFFF, flPOF ||| flNX)
  | .fin neg m e =>
    if m = 0 then (0, 0)
    else if neg then (0, flNV)
    else
      let q := (Nat.log2 m : Int) + e - 21
      let (k, inexact) := roundAt mode false m e q
      let (k, q) := if k ≥ 2 ^ 22 then (k / 2, q + 1) else (k, q)
      if magLt (2 ^ 22 - 1) (-6) k q then (0x003FFFFF, flPOF ||| flNX)
      else if magLt k q 1 (-2030) then (0, flPUF ||| flNX)
      else ((16 - (q + 21)).toNat * 2 ^ 21 + (k - 2 ^ 21), flIf inexact flNX)

/-! ### The element formats of R125 -/

/-- The format codes of R125. -/
def fmtRaw : Nat := 0
def fmtFp32 : Nat := 1
def fmtBf16 : Nat := 2
def fmtFp16 : Nat := 3
def fmtE4m3 : Nat := 4
def fmtE5m2 : Nat := 5
def fmtMxfp8 : Nat := 6
def fmtMxfp4 : Nat := 7
def fmtInt8 : Nat := 8
def fmtUint8 : Nat := 9
def fmtInt4x : Nat := 10
def fmtInt32 : Nat := 11
def fmtPs32 : Nat := 12
def fmtInt16 : Nat := 13

/-- Is a format one of blocks (R126). -/
def isBlockFmt (c : Nat) : Bool := c == 6 || c == 7 || c == 10

/-- The width of an element in bits; RAW has none of its own and gives 8. -/
def fmtBits (c : Nat) : Nat :=
  match c with
  | 1 => 32
  | 11 => 32
  | 12 => 32
  | 2 => 16
  | 3 => 16
  | 13 => 16
  | 7 => 4
  | 10 => 4
  | _ => 8

/-- The floating-point format of a code. -/
def fpOf (c : Nat) : Option FpFmt :=
  match c with
  | 1 => some fp32
  | 2 => some bf16
  | 3 => some fp16
  | 4 => some e4m3
  | 5 => some e5m2
  | _ => none

/-- A pattern of n bits as a signed number. -/
def signedOf (n v : Nat) : Int :=
  let w : Nat := v % 2 ^ n
  if w ≥ 2 ^ (n - 1) then (w : Int) - 2 ^ n else (w : Int)

/-- The bits of an integer in n bits. -/
def patternOf (n : Nat) (i : Int) : Nat := (i % (2 ^ n : Int)).toNat

/-- The exact value of an element of a format without blocks, and the flags of reading it. A RAW element
is read as the format the caller names and never reaches here. -/
def elemVal (c w : Nat) : Val × BitVec 8 :=
  match fpOf c with
  | some f => (f.decode (w % 2 ^ f.width), 0)
  | none =>
    match c with
    | 8 => (.ofInt (signedOf 8 w), 0)
    | 9 => (.ofInt ((w % 256 : Nat) : Int), 0)
    | 11 => (.ofInt (signedOf 32 w), 0)
    | 12 => ps32Val w
    | 13 => (.ofInt (signedOf 16 w), 0)
    | _ => (.ofInt ((w % 256 : Nat) : Int), 0)

/-- The range of an integer format (R220). -/
def intRange (c : Nat) : Int × Int :=
  match c with
  | 8 => (-128, 127)
  | 9 => (0, 255)
  | 13 => (-32768, 32767)
  | _ => (-2147483648, 2147483647)

/-- An exact value rounded into a format without blocks (R225): pattern and flags. -/
def encodeElem (c : Nat) (mode : RMode) (sat : Bool) (v : Val) : Nat × BitVec 8 :=
  match fpOf c with
  | some f => roundTo f mode sat v
  | none =>
    if c = fmtPs32 then roundPs mode v
    else
      let (lo, hi) := intRange c
      let (i, fl) := roundInt mode lo hi v
      (patternOf (fmtBits c) i, fl)

/-- The conversion of R225 between formats without blocks. A NaN input of a floating-point format sets NV
by the rounding of its result. -/
def convertElem (a b : Nat) (mode : RMode) (sat : Bool) (w : Nat) : Nat × BitVec 8 :=
  let (v, fl) := elemVal a w
  let (r, fl') := encodeElem b mode sat v
  (r, fl ||| fl')

/-! ### Blocks (R218, R219, R227) -/

/-- The value times 2^(x - 127). -/
def Val.scaled (v : Val) (x : Nat) : Val :=
  match v with
  | .fin n m e => .fin n m (e + x - 127)
  | v => v

/-- The INT4X elements of the nibbles from slot i on (R219), unscaled, with their flags. -/
def int4xElems : Nat → List Nat → List (Val × BitVec 8)
  | _, [] => []
  | _, [n] => if n = 8 then [(.fin false 0 0, flNV)] else [(.ofInt (signedOf 4 n), 0)]
  | i, [n, n1] =>
    if n = 8 then (.fin false 0 0, flNV) :: int4xElems (i + 1) [n1]
    else (.ofInt (signedOf 4 n), 0) :: int4xElems (i + 1) [n1]
  | i, n :: n1 :: n2 :: rest =>
    if n = 8 then
      (e4m3.decode (16 * n1 + n2), 0) :: (.fin false 0 0, 0) :: (.fin false 0 0, 0) :: int4xElems (i + 3) rest
    else (.ofInt (signedOf 4 n), 0) :: int4xElems (i + 1) (n1 :: n2 :: rest)

/-- The 32 exact values of a block: format code, scale byte, element patterns (R218, R219). -/
def blockVals (c scale : Nat) (els : List Nat) : List (Val × BitVec 8) :=
  if scale = 255 then els.map (fun _ => (.nan, flNV))
  else
    let raw := if c = fmtInt4x then int4xElems 0 els
      else if c = fmtMxfp4 then els.map (fun w => (e2m1.decode w, 0))
      else els.map (fun w => (e4m3.decode w, 0))
    raw.map (fun (v, fl) => (v.scaled scale, fl))

/-- The exponent floor(log2) of a nonzero magnitude. -/
def magLog2 (m : Nat) (e : Int) : Int := (Nat.log2 m : Int) + e

/-- The largest floor(log2) of the finite nonzero values, if any. -/
def maxLog2 : List Val → Option Int
  | [] => none
  | .fin _ m e :: rest =>
    if m = 0 then maxLog2 rest
    else match maxLog2 rest with
      | none => some (magLog2 m e)
      | some k => some (max k (magLog2 m e))
  | _ :: rest => maxLog2 rest

/-- A group of values encoded as a block (R227): scale byte, element patterns, flags. -/
def encodeBlock (c : Nat) (mode : RMode) (sat : Bool) (vs : List Val) : Nat × List Nat × BitVec 8 :=
  if vs.any (fun v => match v with | .fin _ _ _ => false | _ => true) then (255, vs.map (fun _ => 0), flNV)
  else
    let emaxEl : Int := if c = fmtMxfp8 then 8 else 2
    let x : Nat := match maxLog2 vs with
      | none => 127
      | some l => (min (max (l - emaxEl + 127) 0) 254).toNat
    let enc := vs.map (fun v =>
      let u := match v with
        | .fin n m e => Val.fin n m (e - x + 127)
        | v => v
      if c = fmtInt4x then
        let (i, fl) := roundInt mode (-7) 7 u
        (patternOf 4 i, fl)
      else roundTo (if c = fmtMxfp8 then e4m3 else e2m1) mode sat u)
    (x, enc.map (fun p => p.1), enc.foldl (fun fl p => fl ||| p.2) 0)

/-! ### Special functions (R234, R235) -/

/-- The integer square root by trying bits downward from bit i. -/
def isqrtFrom (n : Nat) : Nat → Nat → Nat
  | 0, r => if (r + 1) * (r + 1) ≤ n then r + 1 else r
  | i + 1, r =>
    let c := r + 2 ^ (i + 1)
    isqrtFrom n i (if c * c ≤ n then c else r)

/-- floor(sqrt n). -/
def isqrt (n : Nat) : Nat := isqrtFrom n (Nat.log2 n / 2 + 1) 0

/-- A result between k * 2^q and (k + 1) * 2^q on the FP32 grid: the one the implementation takes, with the
flags of an inexact result. `fam` and `w` name the input, on which alone the choice depends (R234; log 10).
A result beyond the largest finite value is infinite. -/
def bracket (fam w : Nat) (neg : Bool) (k : Nat) (q : Int) : Nat × BitVec 8 :=
  let k' := if Config.bracketUp fam w then k + 1 else k
  if magLt fp32.largestM fp32.largestE k' q then (fp32.infBits neg, flOF)
  else (fp32.finBits neg k' q, flNX ||| flIf (magLt k' q 1 fp32.emin) flUF)

/-- The result num / 2^n, or a value between num / 2^n and (num + 1) / 2^n when `exact` is false, put on
the FP32 grid. -/
def onGrid (fam w : Nat) (neg : Bool) (num : Nat) (n : Nat) (exact : Bool) : Nat × BitVec 8 :=
  let ex := max ((Nat.log2 num : Int) - n) fp32.emin
  let q := ex - 23
  let sh := (q + n).toNat
  let k := num / 2 ^ sh
  if exact && num % 2 ^ sh == 0 then
    if magLt fp32.largestM fp32.largestE k q then (fp32.infBits neg, flOF) else (fp32.finBits neg k q, 0)
  else if magLt fp32.largestM fp32.largestE k q then (fp32.infBits neg, flOF)
  else bracket fam w neg k q

/-- The reciprocal. -/
def rcp32 (w : Nat) : Nat × BitVec 8 :=
  match fp32.decode w with
  | .nan => (fp32.nanBits, flNV)
  | .inf neg => (fp32.finBits neg 0 0, 0)
  | .fin neg m e =>
    if m = 0 then (fp32.infBits neg, flDZ)
    else
      let p := (400 - e).toNat
      onGrid 0 w neg (2 ^ p / m) 400 (2 ^ p % m == 0)

/-- The reciprocal square root. -/
def rsq32 (w : Nat) : Nat × BitVec 8 :=
  match fp32.decode w with
  | .nan => (fp32.nanBits, flNV)
  | .inf neg => if neg then (fp32.nanBits, flNV) else (0, 0)
  | .fin neg m e =>
    if m = 0 then (fp32.infBits neg, flDZ)
    else if neg then (fp32.nanBits, flNV)
    else
      let p := (800 - e).toNat
      let k := isqrt (2 ^ p / m)
      onGrid 1 w false k 400 (k * k * m == 2 ^ p)

/-- 2^(j) for the fraction bits of f: the product of 2^(2^-i) over the bits set, in n-bit fixed point.
`r` is 2^(2^-i) as reached so far. -/
def exp2Frac (n : Nat) : Nat → Nat → Nat → Nat → Nat
  | 0, _, _, acc => acc
  | i + 1, f, r, acc =>
    let r' := isqrt (r * 2 ^ n)
    let acc' := if f / 2 ^ i % 2 = 1 then acc * r' / 2 ^ n else acc
    exp2Frac n i f r' acc'

/-- The exponential. The fraction of the argument is taken to all its bits, in 320-bit fixed point. -/
def exp232 (w : Nat) : Nat × BitVec 8 :=
  match fp32.decode w with
  | .nan => (fp32.nanBits, flNV)
  | .inf neg => if neg then (0, 0) else (fp32.infBits false, 0)
  | .fin neg m e =>
    if m = 0 then (0x3F800000, 0)
    else if !neg && !(magLt m e 128 0) then (fp32.infBits false, flOF)
    else if neg && magLt 200 0 m e then ((if Config.bracketUp 2 w then 1 else 0), flNX ||| flUF)
    else
      -- the argument as floor + f / 2^fb
      let fb := (-e).toNat
      let num : Int := if neg then -(m : Int) else m
      let num := if e ≥ 0 then num * 2 ^ e.toNat else num
      let fl := num / (2 ^ fb : Int)
      let f := (num % (2 ^ fb : Int)).toNat
      if f = 0 then onGrid 2 w false (2 ^ (fl + 400).toNat) 400 true
      else
        let y := exp2Frac 320 fb f (2 ^ 321) (2 ^ 320)
        onGrid 2 w false (y * 2 ^ (fl + 400).toNat) 720 false

/-- The fraction bits of log2 of z / 2^n, by repeated squaring: i bits, after those in acc. -/
def log2Frac (n : Nat) : Nat → Nat → Nat → Nat
  | 0, _, acc => acc
  | i + 1, z, acc =>
    let z2 := z * z / 2 ^ n
    if z2 ≥ 2 ^ (n + 1) then log2Frac n i (z2 / 2) (2 * acc + 1) else log2Frac n i z2 (2 * acc)

/-- The logarithm. The fraction is found to 120 bits from 400-bit fixed point. -/
def log232 (w : Nat) : Nat × BitVec 8 :=
  match fp32.decode w with
  | .nan => (fp32.nanBits, flNV)
  | .inf neg => if neg then (fp32.nanBits, flNV) else (fp32.infBits false, 0)
  | .fin neg m e =>
    if m = 0 then (fp32.infBits true, flDZ)
    else if neg then (fp32.nanBits, flNV)
    else
      let l := Nat.log2 m
      let i : Int := l + e
      if m = 2 ^ l then roundTo fp32 .rne false (.ofInt i)
      else
        let g := log2Frac 400 120 (m * 2 ^ (400 - l)) 0
        let y : Int := i * 2 ^ 120 + g
        if y ≥ 0 then onGrid 3 w false y.natAbs 120 false
        else onGrid 3 w true (y.natAbs - 1) 120 false

end Sys2Proof.Machine
end

