-- ==== Sys2Proof/Machine/Ops.lean ====
section
/-! DEFINITION. The named operations over the state: registers, streams, results in flight, memory,
taking a trap and returning from one. Every meaning is written over these. -/

namespace Sys2Proof.Machine

/-! ### Parts of the state -/

/-- The state with its focused context changed. -/
def State.onCtx (s : State) (f : Context → Context) : State := { s with ctx := f s.ctx }

/-- The state with its focused core changed. -/
def State.onCore (s : State) (f : Core → Core) : State := { s with core := f s.core }

/-- The state with its focused partition changed. -/
def State.onPart (s : State) (f : Part → Part) : State := { s with part := f s.part }

/-- The state with a notice given to the outside world. -/
def State.notify (s : State) (n : Notice) : State := { s with notices := s.notices ++ [n] }

/-- The next creation number, and the state that has used it. -/
def State.bump (s : State) : State := { s with serial := s.serial + 1 }

/-- A core that no table entry names stands at reset; a spare site is disabled (R10). -/
def State.freshBox (s : State) (site : Nat) : CoreBox :=
  { core := { Core.reset with enabled := !((s.columns.toList.getD site (Column.reset site)).spare) },
    a := Context.reset, b := Context.reset }

/-- The focused core as a table entry. -/
def State.hereBox (s : State) : CoreBox :=
  if s.cx then { core := s.core, a := s.octx, b := s.ctx } else { core := s.core, a := s.ctx, b := s.octx }

/-- The core of a site with its contexts. -/
def State.boxAt (s : State) (site : Nat) : CoreBox :=
  if site = s.site then s.hereBox else (s.cores.find? site).getD (s.freshBox site)

/-- The state with the core of a site replaced. -/
def State.putBox (s : State) (site : Nat) (b : CoreBox) : State :=
  if site = s.site then
    { s with core := b.core, ctx := if s.cx then b.b else b.a, octx := if s.cx then b.a else b.b }
  else { s with cores := s.cores.put site b }

/-- The context letter turned in the focused core. -/
def State.focusCx (s : State) (cx : Bool) : State :=
  if s.cx = cx then s else { s with cx := cx, ctx := s.octx, octx := s.ctx }

/-- The core that a site has in the focused partition: the live one, or its image (R187). -/
def State.coreOf (s : State) (site : Nat) : CoreBox :=
  if (s.boxAt site).core.part = some s.pid then s.boxAt site else (s.part.images.find? site).getD (s.freshBox site)

/-- The state with the core that a site has in the focused partition replaced. -/
def State.putCoreOf (s : State) (site : Nat) (b : CoreBox) : State :=
  if (s.boxAt site).core.part = some s.pid then s.putBox site b
  else { s with part := { s.part with images := s.part.images.modify site (fun _ => b) } }

/-- The partition number turned. -/
def State.focusPart (s : State) (pid : Nat) : State :=
  if s.pid = pid then s
  else { s with pid := pid, part := (s.parts.find? pid).getD Part.none,
                parts := (s.parts.drop pid).put s.pid s.part }

/-- The site turned, with context cx of its core in focus and the partition the core belongs to. -/
def State.focus (s : State) (site : Nat) (cx : Bool) : State :=
  let s :=
    if s.site = site then s
    else
      let b := (s.cores.find? site).getD (s.freshBox site)
      { s with site := site, core := b.core, ctx := if s.cx then b.b else b.a,
               octx := if s.cx then b.a else b.b, cores := (s.cores.drop site).put s.site s.hereBox }
  let s := s.focusCx cx
  match s.core.part with
  | some p => s.focusPart p
  | none => s

/-- Every live partition's number. -/
def State.livePids (s : State) : List Nat :=
  (Tab.put (s.parts.map (fun e => (e.1, e.2.live))) s.pid s.part.live).filterMap (fun e => if e.2 then some e.1 else none)

/-! ### Sites, clusters and dies (R7, R8) -/

/-- The compute die of a site. -/
def dieOf (site : Nat) : Nat := site / 36

/-- The cluster of a site, counted 9 to a die, row by row (R8 gives the blocks; the numbering is DEDUCED,
log 13). -/
def clusterOf (site : Nat) : Nat := dieOf site * 9 + site % 36 / 6 / 2 * 3 + site % 6 / 2

/-- The position of a site in its cluster: 2 * (y mod 2) + (x mod 2) (R118). -/
def positionOf (site : Nat) : Nat := 2 * (site % 36 / 6 % 2) + site % 6 % 2

/-- The site at a position of a cluster. -/
def siteAt (cluster pos : Nat) : Nat :=
  cluster / 9 * 36 + (cluster % 9 / 3 * 2 + pos / 2) * 6 + (cluster % 3 * 2 + pos % 2)

/-- The sites of a cluster, rising. -/
def sitesOf (cluster : Nat) : List Nat :=
  [siteAt cluster 0, siteAt cluster 1, siteAt cluster 2, siteAt cluster 3]

/-- The mesh column of a site (R8). -/
def meshX (site : Nat) : Nat := 6 * (dieOf site % 4) + site % 6

/-- The mesh row of a site (R8). -/
def meshY (site : Nat) : Nat := 6 * (dieOf site / 4) + site % 36 / 6

/-! ### Time (R2, R212) -/

/-- Device time: nanoseconds of MCLK cycles at 1.75 GHz (R2). -/
def State.dt (s : State) : Nat := s.dtBase + s.cycle * 4 / 7

/-- Device time as a register word. -/
def State.dtW (s : State) : Word := BitVec.ofNat 64 s.dt

/-- The resident time of the focused partition (R212). -/
def State.resident (s : State) : Word :=
  let now := match s.part.swapSince with
    | some t => t
    | none => s.dtW
  now - s.part.created - s.part.swappedTotal

/-- Guest time (R213). -/
def State.guest (s : State) : Word :=
  let source := if s.part.tmode then s.resident else s.dtW
  s.part.tofs + BitVec.ofNat 64 (source.toNat * s.part.tscale.toNat / 2 ^ 32)

/-- The cycles for which a die's MCLK still stands still (R14). -/
def State.stretchLeft (s : State) (die : Nat) : Nat :=
  match s.dies.toList[die]? with
  | some d => d.stretchTo - s.cycle
  | none => 0

/-- The MCLK cycles that a die has counted (R14, R101). -/
def State.dieClock (s : State) (die : Nat) : Nat :=
  match s.dies.toList[die]? with
  | some d => s.cycle - (d.lost - s.stretchLeft die)
  | none => s.cycle

/-- The extra cycles the next access meets, from the schedule of delays, and the schedule after it: latencies
are unloaded figures (R117), and contention adds to them (log 4). -/
def State.takeDelay (s : State) : Nat × State :=
  match s.delays with
  | [] => (0, s)
  | d :: rest => (d, { s with delays := rest })

/-! ### Registers -/

/-- x[r]; x0 reads 0 (R152). -/
def Context.getX (c : Context) (r : Fin 32) : Word := if r = 0 then 0 else c.x[r]

/-- The context with x[r] written; a write to x0 is discarded. -/
def Context.setX (c : Context) (r : Fin 32) (v : Word) : Context :=
  if r = 0 then c else { c with x := c.x.set r v }

/-- p[r]; p0 reads 1. -/
def Context.getP (c : Context) (r : Fin 8) : Bool := if r = 0 then true else c.p[r]

/-- The context with p[r] written; a write to p0 is discarded. -/
def Context.setP (c : Context) (r : Fin 8) (v : Bool) : Context :=
  if r = 0 then c else { c with p := c.p.set r v }

/-- a[r]; a0 reads 0. -/
def Context.getA (c : Context) (r : Fin 16) : Word := if r = 0 then 0 else c.a[r]

/-- The context with a[r] written; a write to a0 is discarded. -/
def Context.setA (c : Context) (r : Fin 16) (v : Word) : Context :=
  if r = 0 then c else { c with a := c.a.set r v }

/-- m[r]; m0 reads all ones. -/
def Context.getM (c : Context) (r : Fin 8) : BitVec 256 := if r = 0 then BitVec.allOnes 256 else c.m[r]

/-- The context with m[r] written; a write to m0 is discarded. -/
def Context.setM (c : Context) (r : Fin 8) (v : BitVec 256) : Context :=
  if r = 0 then c else { c with m := c.m.set r v }

/-- h[r]; h0 is the anonymous handle and reads 0. -/
def Context.getH (c : Context) (r : Fin 16) : BitVec 16 := if r = 0 then 0 else c.h[r]

/-- The context with h[r] written; a field of h0 keeps no handle (R164). -/
def Context.setH (c : Context) (r : Fin 16) (v : BitVec 16) : Context :=
  if r = 0 then c else { c with h := c.h.set r v }

/-- x[rd] and x[rd + 1] written: a pair destination. With rd = 0 both are discarded (R294). -/
def Context.setPair (c : Context) (rd : Fin 32) (v w : Word) : Context :=
  if rd = 0 then c else (c.setX rd v).setX (rd + 1) w

/-! ### Streams -/

/-- A stream of the context. -/
def Context.strm (c : Context) : Strm → StreamSt
  | .c => c.cs
  | .t => c.ts
  | .m => c.ms
  | .v => c.vs

/-- The context with a stream changed. -/
def Context.onStrm (c : Context) (st : Strm) (f : StreamSt → StreamSt) : Context :=
  match st with
  | .c => { c with cs := f c.cs }
  | .t => { c with ts := f c.ts }
  | .m => { c with ms := f c.ms }
  | .v => { c with vs := f c.vs }

/-- The code of a stream in CAUSE and in the trace (R175, R204): 0 C, 1 T, 2 M, 3 V. -/
def strmCode : Strm → Nat
  | .c => 0
  | .t => 1
  | .m => 2
  | .v => 3

/-- Is stage i of a loop active in its kernel iteration (R161). -/
def LoopSt.active (l : LoopSt) (i : Nat) : Bool := decide (i ≤ l.iter) && decide (l.iter - i < l.count)

/-- Where a stream stands that has reached a word: past inactive stages, at the next kernel iteration, or out of a
loop that has made its last one (R161). The flag says that a kernel-iteration boundary was met (R162); the list
holds the loops that ended. -/
def walkLoops : Nat → Word → List LoopSt → Bool → List LoopSt → Word × List LoopSt × Bool × List LoopSt
  | 0, pc, ls, b, out => (pc, ls, b, out)
  | _, pc, [], _, out => (pc, [], true, out)
  | fuel + 1, pc, l :: rest, b, out =>
    let i := (pc - l.body).toNat / 4
    let size := l.len / l.stages
    if l.len ≤ i then
      if l.count + l.stages - 1 ≤ l.iter + 1 then walkLoops fuel pc rest true (out ++ [l])
      else walkLoops fuel l.body ({ l with iter := l.iter + 1 } :: rest) true out
    else if l.active (i / size) then (pc, l :: rest, b, out)
    else walkLoops fuel (l.body + BitVec.ofNat 64 (4 * ((i / size + 1) * size))) (l :: rest) b out

/-- The stream moved to a word, its await spent and its waits over. -/
def StreamSt.goto (r : StreamSt) (pc : Word) (ls : List LoopSt) (fresh : Bool) : StreamSt :=
  let w := walkLoops 100 pc ls fresh []
  { r with pc := w.1, loops := w.2.1, bound := w.2.2.1, bpSkip := false, awaited := none, wait := none, fence := none,
           issued := r.issued + 1 }

/-- The loops that end when the stream moves to a word. -/
def loopsEnded (pc : Word) (ls : List LoopSt) : List LoopSt := (walkLoops 100 pc ls false []).2.2.2

/-- The stream waits at issue for `why`. -/
def StreamSt.waitFor (r : StreamSt) (why : WaitOn) : StreamSt := { r with wait := some why }

/-- The state in which a stream waits at issue for `why`; nothing else changes. -/
def State.waitIn (s : State) (st : Strm) (why : WaitOn) : State :=
  s.onCtx (fun c => c.onStrm st (fun r => r.waitFor why))

/-! ### Fixed-latency results (R157, R159, R271) -/

/-- The results of the C stream in flight. -/
def Context.inFlight (c : Context) : List Landing := c.landing.filter (fun l => decide (l.st = .c))

/-- A result that will land `lat` cycles from now. -/
def State.land (s : State) (st : Strm) (lat : Nat) (dst : Dest) (v : BitVec 256) : State :=
  (s.onCtx (fun c =>
    { c with landing := c.landing ++ [{ due := s.cycle + lat, serial := s.serial, st := st, dst := dst, val := v }] })).bump

/-- A branch register's result that lands after a stop: its prefetch starts again at the first resumed issue (R274). -/
def Dest.restart (now : Nat) : Dest → Dest
  | .b r true _ => .b r true now
  | d => d

/-- Saved results put in flight again in cycle now, and the prefetches started again (R159, R274); the divider is held until a saved divide has
landed (R270). -/
def Context.reload (c : Context) (now : Nat) (es : List LandSave) : Context :=
  { c with
    divBusy := ((es.filter (fun e => e.valid)).filter (fun e => e.divide)).foldl (fun n e => max n (now + e.remain)) c.divBusy
    landing := c.landing ++
      (es.filter (fun e => e.valid)).map (fun e => { due := now + e.remain, serial := 0, st := .c, dst := Dest.restart now e.dst, val := e.val })
    b := c.b.map (fun r => if r.byPbr && r.ready.isNone then { r with ready := some (now + 6) } else r) }

/-- The fixed-latency results of the C stream in flight, as a stop saves them in cycle now (R159). -/
def Context.savedC (c : Context) (now : Nat) : List LandSave :=
  c.inFlight.map (fun l => { remain := l.due - now, dst := l.dst, val := l.val, divide := decide (l.due = c.divBusy) })

/-- The fixed-latency results of the C stream saved, and every prefetch discarded (R159, R274). -/
def Context.stopC (c : Context) (now : Nat) : Context :=
  { c with
    lbuf := c.lbuf ++ c.savedC now
    divBusy := 0
    landing := c.landing.filter (fun l => !decide (l.st = .c))
    b := c.b.map (fun r => { r with ready := none })
    resume := true }

/-- The C stream stopped by a swap, a time epoch or a debug halt, in a handler or out of one (R159). -/
def Context.pauseC (c : Context) (now : Nat) : Context :=
  let c := { c with cs := { c.cs with wait := none } }
  if c.tip then
    { c with
      hbuf := c.hbuf ++ c.savedC now
      divBusy := 0
      landing := c.landing.filter (fun l => !decide (l.st = .c))
      b := c.b.map (fun r => { r with ready := none })
      hresume := true }
  else c.stopC now

/-! ### Physical storage: the keys of memory

A byte's key says which store holds it: below 2^52 the physical address of this package (R119); from 2^56
the scratchpads, 2^22 to a site; from 2^57 the other packages of the domain, 2^52 to a chip; from 2^59 the
host, 2^53 to a partition; from 2^60 the pooled devices, 2^52 to an entry. -/

/-- The key of byte b of a site's scratchpad. -/
def spKey (site b : Nat) : Nat := 2 ^ 56 + site * 2 ^ 22 + b

/-- The places in a core's image of its parts (R187), in the order of the rule's table (DEDUCED, log 16): bytes 0 on the scratchpad, then the
accumulator banks of both contexts, their queues, the layout cache, the pawn table, the sum-product scratch, the registers of both. The keys of
a site's scratchpad space from 3 MiB on name the words of these stores, which may be in error (R189). -/
def accOff (cx : Bool) : Nat := 0x300000 + cx.toNat * 0x40000

/-- The queues of a context in the image. -/
def queueOff (cx : Bool) : Nat := 0x380000 + cx.toNat * 0x4000

/-- The layout cache in the image. -/
def layoutOff : Nat := 0x388000

/-- The pawn table in the image. -/
def pawnOff : Nat := 0x388800

/-- The sum-product scratch in the image. -/
def scratchOff : Nat := 0x389800

/-- The registers of a context in the image. -/
def regsOff (cx : Bool) : Nat := 0x395800 + cx.toNat * 0x800

/-- The key of an address on a peer chip. -/
def peerKey (chip a : Nat) : Nat := 2 ^ 57 + chip * 2 ^ 52 + a

/-- The key of a bus address reached from a partition's VF. -/
def hostKey (pid a : Nat) : Nat := 2 ^ 59 + pid * 2 ^ 53 + a

/-- The key of an address of a pooled device. -/
def poolKey (chip a : Nat) : Nat := 2 ^ 60 + chip * 2 ^ 52 + a

/-- Does a local physical address name storage (R119). -/
def localExists (pa : Nat) : Bool :=
  decide (pa < 12 * 2 ^ 36) || (decide (2 ^ 40 ≤ pa) && decide (pa < 2 ^ 40 + 288 * 2 ^ 24))

/-- Does a local physical address name storage now: what took the contents of a retired channel or bank answers to their addresses, and to its
own no more (R18). -/
def State.names (s : State) (pa : Nat) : Bool := localExists pa && !s.taken.any (fun r => decide (r.1 ≤ pa) && decide (pa < r.1 + r.2))

/-- The site whose deep slice holds a physical address. -/
def deepSite (pa : Nat) : Option Nat :=
  if 2 ^ 40 ≤ pa ∧ pa < 2 ^ 40 + 288 * 2 ^ 24 then some ((pa - 2 ^ 40) / 2 ^ 24) else none

/-- Is a key in an HBM row under repair. Its staging copy answers to the row's own keys, so that every access finds the bytes and the order of
accesses that it would have found without the repair (R20). -/
def State.staged (s : State) (key : Nat) : Bool := s.stagedRows.any (fun r => decide (r ≤ key) && decide (key < r + 65536))

/-- n bytes of local physical memory. -/
def State.readPa (s : State) (pa n : Nat) : Nat := leNat (s.mem.readBytes pa n)

/-- n bytes of a store by key, as a little-endian number. -/
def State.readKey (s : State) (k n : Nat) : Nat := leNat (s.mem.readBytes k n)

/-- Does a 64-bit word keep its errors when n bytes are written from a key: one that is written whole has its check bits rewritten (R191). -/
def kept (k n w : Nat) : Bool := !(decide (k ≤ w) && decide (w + 8 ≤ k + n))

/-- Bytes written at a key. -/
def State.writeList (s : State) (k : Nat) (bs : List (BitVec 8)) : State :=
  { s with mem := s.mem.writeBytes k bs, badWords := s.badWords.filter (kept k bs.length), flips := s.flips.filter (kept k bs.length) }

/-- n little-endian bytes written at a key. -/
def State.writeKey (s : State) (k n v : Nat) : State := s.writeList k (leBytes n v)

/-- Whole 64-bit words of a store written: those that were in error are so no longer (R191). -/
def State.rewrite (s : State) (k n : Nat) : State := { s with badWords := s.badWords.filter (kept k n), flips := s.flips.filter (kept k n) }

/-- Does an access to n bytes from a key meet a word in uncorrectable error (R191). -/
def State.readBad (s : State) (k n : Nat) : Bool :=
  s.badWords.any (fun w => decide (w < k + n) && decide (k < w + 8))

/-- Does a write of n bytes from a key cover a bad word only in part (R191). -/
def State.writeBad (s : State) (k n : Nat) : Bool :=
  s.badWords.any (fun w => decide (w < k + n) && decide (k < w + 8) && !(decide (k ≤ w) && decide (w + 8 ≤ k + n)))

/-! ### The partition map (R53) -/

/-- What an access does, for permissions: an atomic needs WR, and neither its home nor a matrix operand is in a host's or a pooled device's memory
(R122, R124, R342). -/
inductive Acc where
  | read | write | fetch | atomic | operand
deriving DecidableEq, Repr

/-- Does one entry of a partition map grant an access to n bytes from pa. -/
def mapEntryAllows (e : BitVec 128) (k : Acc) (pa n : Nat) : Bool :=
  let w := e.toNat
  let base := w / 2 ^ 16 % 2 ^ 36 * 65536
  let count := w / 2 ^ 64 % 2 ^ 36 * 65536
  let bit := match k with
    | .read => 1
    | .write => 2
    | .fetch => 3
    | .atomic => 2
    | .operand => 1
  decide (w % 2 = 1) && decide (w / 2 ^ bit % 2 = 1) && decide (base ≤ pa) && decide (pa + n ≤ base + count)

/-- The first physical bank of the context's sum-product scratch, and how many banks it configures (R377). -/
def State.spBanks (s : State) : Nat × Nat := if s.part.single then (0, 8) else (if s.cx then 4 else 0, 4)

/-- The key of a sum-product cell: part (0 value, 1 derivative, 2 weight), physical bank, entry (R377). -/
def cellKey (part bank entry : Nat) : Nat := part * 4096 + bank * 512 + entry

/-- Is a cell in a bank of the context in focus. -/
def State.ownBank (s : State) (key : Nat) : Bool :=
  let b := key % 4096 / 512
  decide (s.spBanks.1 ≤ b) && decide (b < s.spBanks.1 + s.spBanks.2)

/-- Is a physical address in the deep slice of a disabled site, which no map grants, also not one in force when a repair disables it (R17, R119). -/
def State.sliceOff (s : State) (pa : Nat) : Bool :=
  match deepSite pa with
  | some d => (match s.columns.toList[d]? with
    | some c => c.spare
    | none => false)
  | none => false

/-- Does the map in force of the focused partition grant an access. -/
def State.mapAllows (s : State) (k : Acc) (pa n : Nat) : Bool := s.part.map.any (fun e => mapEntryAllows e k pa n) && !s.sliceOff pa

/-! ### Translation (R118, R120 to R124) -/

/-- The first and last addresses of the scratchpad window (R118). -/
def inWindow (va : Nat) : Bool := decide (0x000FFFFFFF000000 ≤ va) && decide (va ≤ 0x000FFFFFFFFFFFFF)

/-- The size of a context's scratchpad share (R118). -/
def State.shareSize (s : State) : Nat := if s.part.single then 0x300000 else 0x180000

/-- Where context cx's share starts in a scratchpad. -/
def shareBase (cx : Bool) : Nat := if cx then 0x180000 else 0

/-- The key of a scratchpad-window address of n bytes, as the focused context's own letter sees it, or PROT. -/
def State.windowKey (s : State) (va n : Nat) : Except Cause Nat :=
  let site := siteAt (clusterOf s.site) (va / 2 ^ 22 % 4)
  let off := va % 2 ^ 22
  let box := s.boxAt site
  if off + n > s.shareSize then .error .prot
  else if !box.core.enabled || box.core.part != s.core.part then .error .prot
  else .ok (spKey site (shareBase s.cx + off))

/-- Is a window address at the core's own position. -/
def State.ownWindow (s : State) (va : Nat) : Bool := decide (va / 2 ^ 22 % 4 = positionOf s.site)

/-- What a table entry is (R120). -/
inductive Pte where
  | pointer (table : Nat)
  | leaf (l : Leaf)
deriving DecidableEq, Repr

/-- The page size a leaf of a level maps. -/
def levelPage (level : Nat) : Nat := if level = 2 then 2 ^ 30 else if level = 3 then 2 ^ 21 else 2 ^ 16

/-- A table entry read at a level, or PAGE (R121 to R123). -/
def State.readPte (s : State) (level w : Nat) : Except Cause Pte :=
  if w % 2 = 0 then .error .page
  else if w / 2 % 8 = 0 then
    if level = 4 then .error .page
    else if w / 16 % 16 ≠ 0 ∨ w / 2 ^ 52 ≠ 0 then .error .page
    else if level < 3 ∧ w / 256 % 16 ≠ 0 then .error .page
    else .ok (.pointer (w / 256 % 2 ^ 44 * 256))
  else
    let tgt := w / 16 % 4
    let chip := w / 64 % 64
    let fmt := w / 2 ^ 12 % 16
    let geom := w / 2 ^ 16 % 8
    let repl := w / 2 ^ 19 % 2 = 1
    let frame := w / 2 ^ 24 % 2 ^ 36
    if level = 1 then .error .page
    else if w / 2 ^ 21 % 8 ≠ 0 ∨ w / 2 ^ 60 ≠ 0 then .error .page
    else if frame * 65536 % levelPage level ≠ 0 then .error .page
    else if (tgt = 0 ∨ tgt = 2) ∧ chip ≠ 0 then .error .page
    else if (tgt = 1 ∨ tgt = 3) ∧ chip = s.chip.toNat then .error .page
    else if 14 ≤ fmt ∨ 3 ≤ geom then .error .page
    else if isBlockFmt fmt ≠ (geom != 0) then .error .page
    else if repl ∧ 2 ≤ tgt then .error .page
    else .ok (.leaf
      { rd := w / 2 % 2 == 1, wr := w / 4 % 2 == 1, code := w / 8 % 2 == 1, tgt := Fin.ofNat 4 tgt, chip := chip,
        fmt := fmt, geom := geom, repl := w / 2 ^ 19 % 2 == 1, glob := w / 2 ^ 20 % 2 == 1,
        frame := frame, size := levelPage level })

/-- The index of an address at a level (R120). -/
def levelIndex (level va : Nat) : Nat :=
  match level with
  | 1 => va / 2 ^ 39 % 8192
  | 2 => va / 2 ^ 30 % 512
  | 3 => va / 2 ^ 21 % 512
  | _ => va / 2 ^ 16 % 32

/-- The walk from a level down (R120, R123): the leaf, and the pointers followed. -/
def State.walkFrom (s : State) : Nat → Nat → Nat → Nat → Except Cause Leaf
  | 0, _, _, _ => .error .page
  | fuel + 1, level, table, va =>
    let pa := table + 8 * levelIndex level va
    if !s.mapAllows .read pa 8 || !s.names pa then .error .prot
    else if s.readBad pa 8 then .error .memerr
    else
      match s.readPte level (s.readPa pa 8) with
      | .error c => .error c
      | .ok (.leaf l) => .ok l
      | .ok (.pointer t) => s.walkFrom fuel (level + 1) t va

/-- The walk of a virtual address in the focused partition's tables, as memory now stands. -/
def State.walk (s : State) (va : Nat) : Except Cause Leaf :=
  s.walkFrom 4 1 (s.part.ptroot.toNat / 65536 % 2 ^ 36 * 65536) va

/-- The target's checks and key of an access of n bytes through a leaf (R53, R119, R122, R124). -/
def State.placeBy (s : State) (l : Leaf) (k : Acc) (va n : Nat) : Except Cause Place :=
  let ok := match k with
    | .read => l.rd
    | .write => l.wr
    | .fetch => l.code
    | .atomic => l.wr && decide (l.tgt.val < 2)
    | .operand => l.rd && decide (l.tgt.val < 2)
  let pa := l.frame * 65536 + va % l.size
  if !ok then .error .prot
  else
    match l.tgt.val with
    | 0 =>
      if !s.mapAllows k pa n || !s.names pa then .error .prot
      else .ok { key := pa, leaf := some l }
    | 1 => .ok { key := peerKey l.chip pa, leaf := some l }
    | 2 => if !s.mapAllows k pa n then .error .prot else .ok { key := hostKey s.pid pa, leaf := some l }
    | _ => .ok { key := poolKey l.chip pa, leaf := some l }

/-- The peer-table entry of a chip. -/
def State.peerOf (s : State) (c : Nat) : Peer := s.peers.toList.getD c { inc := 0, valid := false, up := false, lost := false, ports := 0 }

/-- Is a port of a peer's mask in service. -/
def State.served (s : State) (p : Peer) : Bool := (List.finRange 18).any (fun i => p.ports.getLsbD i.val && s.ports[i].inService)

/-- Is a chip up (R44): its announcement has come, and a port of its mask is in service. -/
def State.peerUp (s : State) (c : Nat) : Bool := (s.peerOf c).up && s.served (s.peerOf c)

/-- What stops an access of the hardware's own agents through a leaf before it reaches a link (R138). They do not wait for a chip that is not
up (DEDUCED, log 7); the incarnation they carry is the peer table's own. -/
def State.peerStops (s : State) (l : Leaf) : Bool :=
  decide (l.tgt.val % 2 = 1) && (!(s.peerOf l.chip).valid || (s.peerOf l.chip).lost || !s.peerUp l.chip)

/-- What a peer or a pooled device answers this chip's own hardware and its instruction fetch, whose accesses make no transaction of the model's
links: a refusal that the list of them names (R43, R53; log 22). -/
def State.peerAnswer (s : State) (l : Leaf) (va : Nat) : Option Cause :=
  if l.tgt.val % 2 = 0 then none
  else (s.peerRefuses.find? (fun r => decide (r.1 = l.chip) && decide (r.2.1 = (l.frame * 65536 + va % l.size) / 65536))).map (fun r => r.2.2)

/-- What stops such an access: before it reaches a link (R138), at its target, or, at the host, the completion that the outside world gives next
(R124). -/
def State.agentStops (s : State) (l : Leaf) (va : Nat) : Option Cause :=
  if s.peerStops l then some .peerlost
  else if l.tgt.val = 2 ∧ s.hostErrors.head? = some true then some .memerr
  else s.peerAnswer l va

/-- The entry, among the holder lists that a partition keeps, of a peer's frame of which dies of this chip hold copies (R136). -/
def peerFrame (chip frame : Nat) : Nat := 2 ^ 40 + chip * 2 ^ 36 + frame

/-- The frame of a replicated page that an access touches, here or at a peer. -/
def Place.replFrame (p : Place) : Option Nat :=
  match p.leaf with
  | some l =>
    if !l.repl then none
    else if l.tgt.val = 0 then some (p.key % 2 ^ 52 / 65536)
    else if l.tgt.val = 1 then some (peerFrame l.chip (p.key % 2 ^ 52 / 65536)) else none
  | none => none

/-- Bytes overlaid by the pieces of a pending write. -/
def overlay (key : Nat) (bs : List (BitVec 8)) (wkey : Nat) (ws : List (BitVec 8)) : List (BitVec 8) :=
  bs.mapIdx (fun i b => if wkey ≤ key + i ∧ key + i < wkey + ws.length then ws.getD (key + i - wkey) b else b)

/-- n bytes from a key with some of the writes over them that wait at the homes of replicated frames, in arrival order (R137). -/
def State.bytesWith (s : State) (key n : Nat) (sel : ReplWrite → Bool) : List (BitVec 8) :=
  (s.part.replWrites.filter sel).foldl (fun bs w => overlay key bs w.key w.data) (s.mem.readBytes key n)

/-- The bytes that an atomic finds at its home: those of every write and atomic that has come before it (R137, R150). -/
def State.homeBytes (s : State) (key n : Nat) : List (BitVec 8) := s.bytesWith key n (fun _ => true)

/-- The bytes that this package's own hardware reads: a path like any other, which sees its own writes at once (R137, R143). -/
def State.hwBytes (s : State) (key n : Nat) : List (BitVec 8) := s.bytesWith key n (fun w => w.site == 288)

/-- A write that reaches its home: performed at once, or, on a replicated frame that has holders or a write waiting, queued until the holders have
acknowledged (R137). -/
def State.frameWrite (s : State) (frame : Option Nat) (key : Nat) (bs : List (BitVec 8)) (site : Nat) (cx : Bool) (path : Nat)
    (serial : Option Nat) : State :=
  match frame with
  | none => s.writeList key bs
  | some f =>
    if (s.part.holders.getD f []).isEmpty && !s.part.replWrites.any (fun w => w.frame == f) then s.writeList key bs
    else
      s.onPart (fun q =>
        { q with replWrites := q.replWrites ++
            [{ frame := f, key := key, data := bs, site := site, cx := cx, path := path, waiting := [], sent := false, serial := serial }] })

/-- A write of this package's own hardware: counters, records, rings. -/
def State.hwWrite (s : State) (p : Place) (bs : List (BitVec 8)) (serial : Option Nat) : State := s.frameWrite p.replFrame p.key bs 288 false 4 serial

/-- Has the token, T word or pawn of a creation number a write that its home has not performed. -/
def State.writing (s : State) (serial : Nat) : Bool := s.part.replWrites.any (fun w => w.serial == some serial)

/-- A write that its home performs: it is visible, and the frame's holder list is clear (R137). -/
def State.performRepl (s : State) (w : ReplWrite) : State :=
  (s.onPart (fun p => { p with replWrites := p.replWrites.erase w, holders := p.holders.drop w.frame })).writeList
    w.key w.data

/-- The number, among the holders of a frame, of a compute die of another chip: those of this chip are 0 to 17 (R136). -/
def holderOf (chip die : Nat) : Nat := 18 + chip * 8 + die

/-- The state in which holders on other chips are told to drop their copies of a frame (R137). -/
def State.invalidate (s : State) (frame : Nat) (hs : List Nat) : State :=
  (hs.filter (fun h => decide (18 ≤ h))).foldl (fun s h => s.notify (.invalidate ((h - 18) / 8) ((h - 18) % 8) frame)) s

/-- Where an access of n bytes within one page lands, walking the tables as they stand: what the hardware's own
agents (schedulers, event tables, loader) use. -/
def State.placeNow (s : State) (k : Acc) (va n : Nat) : Except Cause Place :=
  if 2 ^ 52 ≤ va then .error .prot
  else if inWindow va then
    match s.windowKey va n with
    | .error c => .error c
    | .ok key => .ok { key := key, leaf := none }
  else
    match s.walk va with
    | .error c => .error c
    | .ok l => match s.agentStops l va with
      | some c => .error c
      | none => s.placeBy l k va n

/-- n bytes at a virtual address, as the hardware's own agents read them. -/
def State.readVa (s : State) (va n : Nat) : Except Cause Nat :=
  match s.placeNow .read va n with
  | .error c => .error c
  | .ok p => if s.readBad p.key n then .error .memerr else .ok (leNat (s.hwBytes p.key n))

/-- n bytes written at a virtual address, as the hardware's own agents write them, for a token, T word or pawn or for none. -/
def State.writeVaFor (s : State) (serial : Option Nat) (va n v : Nat) : Except Cause State :=
  match s.placeNow .write va n with
  | .error c => .error c
  | .ok p => if s.writeBad p.key n then .error .memerr else .ok (s.hwWrite p (leBytes n v) serial)

/-- n bytes written at a virtual address, as the hardware's own agents write them. -/
def State.writeVa (s : State) (va n v : Nat) : Except Cause State := s.writeVaFor none va n v

/-- As writeVa, in pieces of 8 bytes: a list of 64-bit words from a virtual address on. -/
def State.writeWords (s : State) (va : Nat) : List Nat → Except Cause State
  | [] => .ok s
  | w :: rest =>
    match s.writeVa va 8 w with
    | .error c => .error c
    | .ok s => s.writeWords (va + 8) rest

/-- The latency of R117 from a site to the store a key names. A peer's HBM answers in peerCycles, and within the 1,365
cycles that R47 bounds; its deep SRAM 70 ns sooner (R47); pools and the host,
for which the text gives no figure, take a peer's (DESIGN CHOICE, log 4). Which column is nearest to a staged HBM row (R20) is not given either:
it is served as from a deep slice of the requester's die, in 60 cycles from every site (DESIGN CHOICE, log 4). -/
def State.latencyTo (s : State) (site key : Nat) : Nat :=
  if s.staged key then 60
  else if 2 ^ 57 ≤ key then
    let peer := if key < 2 ^ 59 ∨ 2 ^ 60 ≤ key then min 1365 s.peerCycles else 1365
    if key < 2 ^ 59 ∧ (deepSite (key % 2 ^ 52)).isSome then peer - 122 else peer
  else if 2 ^ 56 ≤ key then if (key - 2 ^ 56) / 2 ^ 22 = site then 6 else 14
  else
    match deepSite key with
    | none => 490
    | some d =>
      let base := if d = site then 24 else if dieOf d = dieOf site then 60 else 110
      if s.drowsy.contains (d, key % 2 ^ 24 / 2 ^ 18) then base + 24 else base

/-- Is an access to a key one whose delays are excused (R16, R20, R88): its bank is drowsy, its row is staged, or its stack refreshes
doubly or is throttled. -/
def State.slowKey (s : State) (key : Nat) : Bool :=
  if s.staged key then true
  else if 2 ^ 56 ≤ key then false
  else
    match deepSite key with
    | some d => s.drowsy.contains (d, key % 2 ^ 24 / 2 ^ 18)
    | none => match s.hbm.toList[key / 2 ^ 36]? with
      | some k => k.ref2x || k.hot
      | none => false

/-- An access of a context, by its creation number, whose delay R88 excuses from one cycle to another. -/
def Context.slowUntil (c : Context) (serial from_ to_ : Nat) : Context := { c with slow := (serial, from_, to_) :: c.slow }

/-- The state in which an access to a key will take so many cycles: the waits for it are excused meanwhile if its delay is one that R88
names. -/
def State.noteSlow (s : State) (serial key lat : Nat) : State :=
  if s.slowKey key then s.onCtx (fun c => c.slowUntil serial s.cycle (s.cycle + lat)) else s

/-! ### Errors in memory (R189 to R192) -/

/-- A vector with f applied at index i, if it has one. -/
def atIndex {α : Type} {n : Nat} (v : Vector α n) (i : Nat) (f : α → α) : Vector α n := v.mapIdx (fun j x => if j = i then f x else x)

/-- The memory controller of a physical address: deep dies 8 to 15, HBM stacks from 18 on. -/
def unitOf (pa : Nat) : Option Nat :=
  if pa < 12 * 2 ^ 36 then some (18 + pa / 2 ^ 36) else (deepSite pa).map (fun d => 8 + dieOf d)

/-- Is an entry of a retirement list valid. -/
def MemCtl.valid (m : MemCtl) (i : Nat) : Bool := match m.list.find? i with | some e => e.v | none => false

/-- A line listed at the lowest free entry; a listed line keeps its entry, and a full list takes no more (R192). -/
def MemCtl.listLine (m : MemCtl) (uc : Bool) (line : Nat) : MemCtl :=
  match List.find? (fun (e : Nat × RetEnt) => e.2.v && e.2.line == line) m.list with
  | some e => { m with list := m.list.put e.1 { e.2 with uc := e.2.uc || uc } }
  | none =>
    match (List.range 32).find? (fun i => !m.valid i) with
    | some i => { m with list := m.list.put i { v := true, uc := uc, line := line } }
    | none => m

/-- A count that saturates at all ones. -/
def satInc {w : Nat} (v : BitVec w) : BitVec w := if v = BitVec.allOnes w then v else v + 1

/-- Nanoseconds of 24 hours. -/
def dayNs : Nat := 86400000000000

/-- A corrected error of a line: counted, and listed once it is the fifth within 24 hours. -/
def State.noteCorrected (s : State) (line : Nat) : State :=
  let old := s.corrections.filter (fun e => decide (s.dt < e.2 + dayNs))
  let all := old ++ [(line, s.dt)]
  let listed := decide (4 < (all.filter (fun e => e.1 == line)).length)
  match unitOf line with
  | none => s
  | some u =>
    { s with
      corrections := all
      memctl := atIndex s.memctl u (fun m => let m := { m with ce := satInc m.ce }; if listed then m.listLine false line else m) }

/-- An access that meets words in uncorrectable error: each is counted, and its line is listed (R192). -/
def State.meetBad (s : State) (key n : Nat) : State :=
  (s.badWords.filter (fun w => decide (w < key + n) && decide (key < w + 8))).foldl (fun s w =>
    match unitOf w with
    | none => s
    | some u => { s with memctl := atIndex s.memctl u (fun m => ({ m with ue := satInc m.ue }).listLine true (w / 64 * 64)) }) s

/-- An access that reads n bytes from a key corrects the single-bit errors it meets: they are counted, and the array is whole again (R189). -/
def State.correct (s : State) (key n : Nat) : State :=
  let hit := s.flips.filter (fun w => decide (w < key + n) && decide (key < w + 8))
  if hit.isEmpty then s
  else hit.foldl (fun s w => s.noteCorrected (w / 64 * 64)) { s with flips := s.flips.filter (fun w => !hit.contains w) }

/-- The errors corrected that this package's own hardware meets when it reads n bytes at a virtual address (R189), and those it cannot correct
counted (R192). -/
def State.seeVa (s : State) (va n : Nat) : State :=
  match s.placeNow .read va n with
  | .ok p => (s.correct p.key n).meetBad p.key n
  | .error _ => s

/-! ### Accesses on their way outside the column (R23, R29, R40) -/

/-- Is an answer to an access still to come. -/
def State.netOpen (s : State) (serial : Nat) : Bool := s.net.any (fun a => a.live && decide (a.serial = serial))

/-- Does a request of an access wait to enter the networks or a link (R29, R40). -/
def State.netStalled (s : State) (serial : Nat) : Bool :=
  s.net.any (fun a => a.live && decide (a.serial = serial) &&
    (s.mesh.waiting.any (fun p => decide (p.tag = a.tag)) || s.ports.toList.any (fun p => p.waiting.any (fun t => decide (t.tag = a.tag)))))

/-! ### Cause codes (R174) -/

/-- The code of a cause. -/
def Cause.code : Cause → Nat
  | .illegal => 1
  | .priv => 2
  | .qunder => 3
  | .qover => 4
  | .deadlock => 5
  | .overlap => 6
  | .budget => 7
  | .page => 8
  | .prot => 9
  | .format => 10
  | .align => 11
  | .peerreset => 12
  | .peerlost => 13
  | .memerr => 14
  | .cancelled => 15
  | .bkpt => 16
  | .swtrap => 17
  | .rackport => 18
  | .spbank => 19
  | .chan => 20
  | .phase => 21

/-- The cause of a code. -/
def causeOfCode (n : Nat) : Option Cause :=
  [Cause.illegal, .priv, .qunder, .qover, .deadlock, .overlap, .budget, .page, .prot, .format, .align, .peerreset, .peerlost,
    .memerr, .cancelled, .bkpt, .swtrap, .rackport, .spbank, .chan, .phase].find? (fun c => c.code == n)

/-! ### The fault log and traces (R182, R204 to R207) -/

/-- The logical core number of a site in the focused partition (R399). -/
def State.logicalOf (s : State) (site : Nat) : Option Nat :=
  (s.part.cores.find? site)

/-- The stage mask of a loop (R161). -/
def LoopSt.mask (l : LoopSt) : Nat := (List.range l.stages).foldl (fun m i => if l.active i then m + 2 ^ i else m) 0

/-- A trace record of the focused context waiting in the core's buffer, with the loop that it names (R204, R207). -/
def State.traceAt (s : State) (type : Nat) (st : Strm) (lp : Option LoopSt) (payload : Nat) : State :=
  if s.ctx.trctl.toNat / 2 ^ (type - 1) % 2 = 0 then s
  else if s.core.trace.length ≥ 256 then s.onCore (fun c => { c with lost := c.lost + 1 })
  else
    let r := s.ctx.strm st
    let b1 := strmCode st + 4 * (match lp with | some l => l.id.val | none => 0) + 16 * s.cx.toNat + 32 * lp.isSome.toNat
    let mask := match lp with
      | some l => l.mask
      | none => 0
    let bytes := leBytes 1 type ++ leBytes 1 b1 ++ leBytes 2 ((s.logicalOf s.site).getD 0xFFFF) ++
      leBytes 4 (match lp with | some l => l.iter | none => 0) ++
      leBytes 8 (r.pc.toNat % 2 ^ 52 + mask * 2 ^ 52) ++ leBytes 8 s.guest.toNat ++ leBytes 8 payload
    s.onCore (fun c => { c with trace := c.trace ++ [{ cx := s.cx, bytes := bytes }] })

/-- A trace record of the focused context, which names the innermost loop that its stream is in. -/
def State.trace (s : State) (type : Nat) (st : Strm) (payload : Nat) : State := s.traceAt type st (s.ctx.strm st).loops.head? payload

/-- Is a physical address memory of a partition whose seal is closed (R61, R62). -/
def State.sealedPa (s : State) (pa : Nat) : Bool :=
  let own := fun (p : Part) => p.live && p.map.any (fun e =>
    mapEntryAllows e .read pa 1 || mapEntryAllows e .write pa 1 || mapEntryAllows e .fetch pa 1)
  let closed := fun (p : Part) => own p && !p.sealOpen
  closed s.part || (s.parts.drop s.pid).any (fun (e : Nat × Part) => closed e.2)

/-- A record of the partition manager written to the ring of MTRBASE, with device time (R204, R206): bytes 1 to 15 but the core are zero. Which
events the manager records the text does not say: the swaps that it makes of a core (DESIGN CHOICE, log 16); and none before it has given a ring. A ring in sealed memory faults on the service core with PROT (R61, R62). -/
def State.managerTrace (s : State) (type core payload : Nat) : State :=
  let base := s.mtrbase.toNat / 64 % 2 ^ 46 * 64
  let size := s.mtrbase.toNat % 16
  let head := s.mtrbase.toNat / 2 ^ 52 % (64 * 2 ^ size)
  let pa := base + 32 * head
  if base = 0 ∨ s.names pa = false then s
  else if s.sealedPa pa then s.notify (.serviceFault pa .prot)
  else
    { s.writeKey pa 32 (type + core % 65536 * 2 ^ 16 + s.dt % 2 ^ 64 * 2 ^ 128 + payload % 2 ^ 64 * 2 ^ 192) with
      mtrbase := BitVec.ofNat 64 (s.mtrbase.toNat % 2 ^ 52 + (head + 1) % (64 * 2 ^ size) * 2 ^ 52) }

/-- A fault-log report (R182): cause, kind, logical core, the record or line, the fault record. The entry is written whole before
HEAD advances; a write that faults is dropped and counted, and its sequence number is consumed. The event of
FLOGE is posted by an operation on its way to the event table. -/
def State.logFault (s : State) (cause kind core record frec : Nat) : State :=
  let seq := s.part.logSeq + 1
  let size := min (s.part.flog.toNat % 16) 10
  let head := s.part.floge.toNat / 2 ^ 32 % 2 ^ 16
  let base := s.part.flog.toNat / 64 % 2 ^ 46 * 64
  let entry := [seq.toNat + cause * 2 ^ 32 + kind * 2 ^ 40 + core % 65536 * 2 ^ 48, record, frec, s.dt]
  let s := s.onPart (fun p => { p with logSeq := seq })
  match s.writeWords (base + 32 * head) entry with
  | .error _ =>
    s.onPart (fun p => { p with floge :=
      if p.floge.toNat / 2 ^ 48 = 0xFFFF then p.floge else p.floge + BitVec.ofNat 64 (2 ^ 48) })
  | .ok s =>
    let next := (head + 1) % (64 * 2 ^ size)
    s.onPart (fun p =>
      { p with
        floge := BitVec.ofNat 64 (p.floge.toNat % 2 ^ 32 + next * 2 ^ 32 + p.floge.toNat / 2 ^ 48 * 2 ^ 48)
        evops := if p.floge.toNat / 2 ^ 16 % 2 = 1
          then p.evops ++ [{ due := s.cycle + 1, name := p.floge.toNat % 65536, kind := .post, tok := none }] else p.evops })

/-! ### Taking a trap (R178) and returning from one (R180) -/

/-- CAUSE as a pending trap writes it (R175). -/
def PendTrap.causeBits (t : PendTrap) : BitVec 24 :=
  BitVec.ofNat 24 (t.cause.code + strmCode t.st * 2 ^ 8 + t.pawn.isSome.toNat * 2 ^ 10 + t.pawn.getD 0 * 2 ^ 11 +
    (t.tok.getD 0).val * 2 ^ 17 + t.tok.isSome.toNat * 2 ^ 20 + strmCode t.st2 * 2 ^ 21 + t.async_.toNat * 2 ^ 23)

/-- The engine streams asked to hold: each stops at its next boundary, or at a word that waits (R178, R184). -/
def Context.holdEngines (c : Context) : Context :=
  { c with ts := { c.ts with holdReq := true }, ms := { c.ms with holdReq := true }, vs := { c.vs with holdReq := true } }

/-- The engine streams released; a held word issues again from its start, in the next cycle at the soonest (R180, R398). A stream whose own fault
is still pending stays at its word. -/
def Context.releaseEngines (c : Context) (now : Nat) : Context :=
  let free := fun (st : Strm) (r : StreamSt) =>
    { r with holdReq := false, readyAt := max r.readyAt (now + 1), held := c.pend.any (fun t => t.rank == 2 && t.st == st), wait := none }
  { c with ts := free .t c.ts, ms := free .m c.ms, vs := free .v c.vs }

/-- The turn of the focused context is to retire (R77); TURN_RETIRE then does it. -/
def State.retireTurn (s : State) (faulted cancelled : Bool) : State :=
  s.onCtx (fun c => { c with retire := some { faulted := faulted, cancelled := cancelled } })

/-- The bits of a word that EPC holds: [51:2] (R176). -/
def pcBits (v : Word) : Word := v &&& 0x000FFFFFFFFFFFFC#64

/-- The bits of a word that FADDR, FPC and FPC2 hold: [51:0] (R176). -/
def vaBits (v : Word) : Word := v &&& 0x000FFFFFFFFFFFFF#64

/-- Entry of the trap t at a C boundary whose first unissued word, or faulting word, is at epc (R178). While TIP
is set, and when the partition has no handler, the turn retires FAULTED and the fault log receives a report
of kind 5 with both causes (R181). Results in flight are saved as of cycle now, in which the first unissued word would issue (R159). -/
def State.enterTrapAt (s : State) (now : Nat) (t : PendTrap) (epc : Word) : State :=
  let entry := s.part.tvec.toNat / 64 % 2 ^ 46 * 64
  if s.ctx.tip || entry = 0 then
    let first := if s.ctx.tip then s.ctx.cause.toNat % 256 else t.cause.code
    let second := if s.ctx.tip then t.cause.code else 0
    let record := match s.ctx.turn with | some u => u.record.toNat | none => 0
    (s.logFault t.cause.code 5 ((s.logicalOf s.site).getD 0xFFFF) record (first + 256 * second)).retireTurn true false
  else
    let s := s.onCtx (fun c =>
      { (c.stopC now).holdEngines with
        ppl := c.pl, pl := true, tip := true, held := true
        cause := t.causeBits, epc := pcBits epc, faddr := vaBits t.faddr, fpc := vaBits t.fpc, fpc2 := vaBits t.fpc2, frec := t.frec
        dead := 0
        waitMask := 0
        fenceKept := c.cs.fence.map (fun f => (epc, f))
        tipSerial := s.serial
        cs := { c.cs with pc := BitVec.ofNat 64 entry, wait := none, awaited := none, fence := none,
                          readyAt := s.cycle + 20 } })
    let s := s.onCore (fun k => { k with wfault := k.wfault.filter (fun f => f.1 != s.cx) })
    s.trace 3 .c t.causeBits.toNat

/-- The cycle in which the first unissued word of a C stream would issue: this one, while the stream's slot of it is still to come (R159). -/
def State.cNowAt (s : State) (site : Nat) (cx : Bool) : Nat :=
  if s.todo.any (fun t => t.site == site && t.cx == cx && t.st == .c) then s.cycle else s.cycle + 1

/-- As cNowAt, for the C stream in focus. -/
def State.cNow (s : State) : Nat := s.cNowAt s.site s.cx

/-- A trap entered in this cycle. -/
def State.enterTrap (s : State) (t : PendTrap) (epc : Word) : State := s.enterTrapAt s.cycle t epc

/-- A trap of the C stream's word at issue, precisely at the word (R177). -/
def State.trapWord (s : State) (cause : Cause) (faddr : Word) : State :=
  s.enterTrap
    { rank := 0, order := 0, cause := cause, st := .c, pawn := none, tok := none, async_ := false, st2 := .c,
      faddr := faddr, fpc := s.ctx.cs.pc, fpc2 := 0, frec := 0 } s.ctx.cs.pc

/-- A fault of an engine word: the stream halts at its word, and a trap is pending (R139, R177, R178). -/
def State.faultEngine (s : State) (st : Strm) (cause : Cause) (faddr : Word) (frec : Word) (pawn : Option Nat) (fpc2 : Word)
    (st2 : Strm) : State :=
  (s.onCtx (fun c =>
    { c.onStrm st (fun r => { r with held := true, wait := none }) with
      pend := c.pend ++ [{ rank := 2, order := strmCode st, cause := cause, st := st, pawn := pawn, tok := none,
                           async_ := true, st2 := st2, faddr := faddr, fpc := (c.strm st).pc, fpc2 := fpc2,
                           frec := frec }] })).bump

/-- The plain fault of an engine word, with an address and nothing else. -/
def State.faultAt (s : State) (st : Strm) (cause : Cause) (faddr : Word) : State :=
  s.faultEngine st cause faddr 0 none 0 .c

/-- The order of R179: by kind, then within the kind. -/
def PendTrap.before (a b : PendTrap) : Bool :=
  decide (a.rank < b.rank) || (decide (a.rank = b.rank) && decide (a.order ≤ b.order))

/-- The pending trap that R179 takes first. -/
def firstTrap : List PendTrap → Option PendTrap
  | [] => none
  | t :: rest =>
    match firstTrap rest with
    | none => some t
    | some u => if t.before u then some t else some u

/-- The pawns of a context that stand suspended by a PAGE fault whose trap has been taken: they resume (R140, R180). -/
def Core.resumePawns (k : Core) (cx : Bool) (pend : List PendTrap) : Core :=
  { k with pawns := k.pawns.mapIdx (fun i p =>
      if p.cx == cx && p.suspended && !pend.any (fun t => t.pawn == some i) && !k.lateReads.any (fun r => r.slot.val == i) then
        { p with suspended := false }
      else p) }

/-- The return from a trap (R180), at supervisor level with TIP set. The conditions of BUDGET and of R86 are evaluated again (R90, R180). -/
def State.leaveTrap (s : State) : State :=
  ((s.onCore (fun k =>
    { k.resumePawns s.cx s.ctx.pend with wfault := k.wfault.filter (fun f => f.1 != s.cx), evalAt := s.cycle })).onCtx (fun c =>
    { c.releaseEngines s.cycle with
      pend := c.pend.filter (fun t => t.rank != 4)
      pl := c.ppl, tip := false, held := false, resume := true, fenceKept := none
      cs := { c.cs with pc := c.epc, wait := none, awaited := none, readyAt := s.cycle + 20, issued := c.cs.issued + 1
                        fence := match c.fenceKept with
                          | some (pc, f) => if pc = c.epc then some f else none
                          | none => none } })).trace 4 .c s.ctx.epc.toNat

/-! ### Loop exits and issue (R161, R205, R209) -/

/-- A conflict-board snapshot of 1,344 bytes as words (R209). -/
def State.snapshot (s : State) (st : Strm) (l : LoopSt) : List Nat :=
  let b4 := strmCode st + 4 * l.id.val + 16 * s.cx.toNat
  [(s.ctx.boardSeq + 1).toNat + b4 * 2 ^ 32 + min s.ctx.boardSkip 255 * 2 ^ 40 + (s.logicalOf s.site).getD 0xFFFF * 2 ^ 48,
    (l.count + l.stages - 1) % 2 ^ 32, (l.body - 4).toNat, s.guest.toNat, 0, 0, 0, 0] ++
  (List.range 160).map (fun i => (s.core.board.getD (2 * i) 0).toNat + (s.core.board.getD (2 * i + 1) 0).toNat * 2 ^ 32)

/-- The cycles that the writing of a snapshot takes: at the 64 bytes per cycle of R207 (DESIGN CHOICE, log 16). -/
def snapshotCycles : Nat := 21

/-- Does a ring's entry lie in deep SRAM (R209). -/
def State.inDeep (s : State) (va : Nat) : Bool :=
  match s.placeNow .write va 64 with
  | .ok p => (deepSite p.key).isSome
  | .error _ => false

/-- The exit of a hardware loop: a board snapshot while BOARD is set, and the trace record of type 5, which names the loop (R205, R209). A snapshot
that would start while the previous one is being written, or would lie outside deep SRAM (DESIGN CHOICE, log 16), or whose write faults, is
skipped and counted. -/
def State.loopExit (s : State) (st : Strm) (l : LoopSt) : State :=
  if s.ctx.trctl.toNat / 2 ^ 18 % 2 = 0 then s.traceAt 5 st (some l) 0
  else
    let skip := fun (s : State) => (s.onCtx (fun c => { c with boardSkip := c.boardSkip + 1 })).traceAt 5 st (some l) 0
    let size := min (s.ctx.bdring.toNat % 16) 8
    let head := s.ctx.bdring.toNat / 2 ^ 52 % (16 * 2 ^ size)
    let base := s.ctx.bdring.toNat / 64 % 2 ^ 46 * 64
    if s.cycle < s.ctx.boardBusy ∨ s.inDeep (base + 1344 * head) = false then skip s
    else
    match s.writeWords (base + 1344 * head) (s.snapshot st l) with
    | .error _ => skip s
    | .ok s =>
      let seq := s.ctx.boardSeq + 1
      let next := (head + 1) % (16 * 2 ^ size)
      (s.onCtx (fun c =>
        { c with boardSeq := seq, boardSkip := 0, boardBusy := s.cycle + snapshotCycles
                 bdring := BitVec.ofNat 64 (c.bdring.toNat % 2 ^ 52 + next * 2 ^ 52) })).traceAt 5 st (some l) seq.toNat

/-- The turn of the context has issued a word (R85). -/
def Context.markStarted (c : Context) : Context :=
  match c.turn with
  | some t => if t.started then c else { c with turn := some { t with started := true } }
  | none => c

/-- The board counter of a requester and a bank raised by some cycles. -/
def Core.countBoard (c : Core) (requester key n : Nat) : Core :=
  let i := 32 * requester + key % 2 ^ 22 / 64 % 32
  { c with board := c.board.setD i 0 (c.board.getD i 0 + BitVec.ofNat 32 n) }

/-- An access to the scratchpad bank of a key by a requester of the conflict board: the extra cycles it meets, counted on
the board of the core (R208). An access to a cluster peer's scratchpad counts on the peer's board, under M-A, M-B or Remote (R37; whose board is
DEDUCED, log 16). -/
def State.contend (s : State) (requester key : Nat) : Nat × State :=
  let d := s.takeDelay
  if d.1 = 0 ∨ key < 2 ^ 56 ∨ 2 ^ 57 ≤ key then d
  else
    let site := (key - 2 ^ 56) / 2 ^ 22
    if site = s.site then (d.1, d.2.onCore (fun c => c.countBoard requester key d.1))
    else
      let b := d.2.boxAt site
      (d.1, d.2.putBox site { b with core := b.core.countBoard (if requester = 2 ∨ requester = 3 then requester else 8) key d.1 })

/-- A line read and a line written by a copy (R208). -/
def State.contendCopy (s : State) (src dst : Nat) : Nat × State :=
  let d := s.contend 0 src
  let e := d.2.contend 1 dst
  (d.1 + e.1, e.2)

/-- The accesses of one word to several lines: they go on together, and the slowest sets the word's time. -/
def State.contendAll (s : State) (requester : Nat) : List Nat → Nat × State
  | [] => s.takeDelay
  | [k] => s.contend requester k
  | k :: rest =>
    let d := s.contend requester k
    let e := d.2.contendAll requester rest
    (max d.1 e.1, e.2)

end Sys2Proof.Machine
end

