-- ==== Sys2Proof/Machine/Xlate.lean ====
section
/-! DEFINITION. Translation as a core does it: TLBs, walks in flight, walk caches, remote targets and
replicated frames (R131 to R138, spec/07_memory.md). -/

namespace Sys2Proof.Machine

/-! ### Translation caches (R131, R132) -/

/-- The TLB that serves a stream: the control TLB for C, the stream TLB of its engine for the others. -/
def Core.tlb (c : Core) : Strm → List TlbEnt
  | .c => c.ctlTlb
  | .t => c.tTlb
  | .m => c.mTlb
  | .v => c.vTlb

/-- The core with a TLB replaced. -/
def Core.setTlb (c : Core) (st : Strm) (l : List TlbEnt) : Core :=
  match st with
  | .c => { c with ctlTlb := l }
  | .t => { c with tTlb := l }
  | .m => { c with mTlb := l }
  | .v => { c with vTlb := l }

/-- Does an entry translate an address of context cx. -/
def TlbEnt.covers (e : TlbEnt) (cx : Bool) (va : Nat) : Bool :=
  e.cx == cx && decide (e.vpage * 65536 ≤ va) && decide (va < e.vpage * 65536 + e.leaf.size)

/-- The entry of a TLB that translates an address. -/
def hitTlb (l : List TlbEnt) (cx : Bool) (va : Nat) : Option TlbEnt := l.find? (fun e => e.covers cx va)

/-- The TLB with the entry of an address most recently used. -/
def touchTlb (l : List TlbEnt) (cx : Bool) (va : Nat) : List TlbEnt :=
  match hitTlb l cx va with
  | none => l
  | some e => e :: l.erase e

/-- The list without the last entry that satisfies p. -/
def dropLast {α : Type} (p : α → Bool) : List α → List α
  | [] => []
  | x :: rest => if p x && !rest.any p then rest else x :: dropLast p rest

/-- A TLB with a new entry, the least recently used entry of a full stream TLB (32 entries) or of a full control
TLB set (6 ways) replaced (R131). -/
def insertTlb (st : Strm) (l : List TlbEnt) (e : TlbEnt) : List TlbEnt :=
  let l := l.filter (fun x => !x.covers e.cx (e.vpage * 65536))
  match st with
  | .c =>
    let same := fun (x : TlbEnt) => Config.tlbSet x.vpage % 64 == Config.tlbSet e.vpage % 64
    e :: (if (l.filter same).length ≥ 6 then dropLast same l else l)
  | _ => e :: l.take 31

/-- How many outstanding misses a TLB may have (R132). -/
def missLimit : Strm → Nat
  | .c => 4
  | _ => 2

/-- The number of a page-table position that a walk cache tags a pointer with: its level and index bits. -/
def walkTag (level va : Nat) : Nat :=
  level * 2 ^ 52 + va / (if level = 1 then 2 ^ 39 else if level = 2 then 2 ^ 30 else 2 ^ 21)

/-- The walk cache of the focused core's die. -/
def State.walkCache (s : State) : List (Nat × Nat × Nat) := s.walkCaches.getD (dieOf s.site) []

/-- The pointer that the die's walk cache holds for a level of a walk (R132). -/
def State.cachedPtr (s : State) (level va : Nat) : Option Nat :=
  (s.walkCache.find? (fun e => decide (e.1 = s.pid) && decide (e.2.1 = walkTag level va))).map (fun e => e.2.2)

/-- Where a walk starts: the deepest level whose table is cached, or the root. -/
def State.walkStart (s : State) (va : Nat) : Nat × Nat :=
  match s.cachedPtr 3 va with
  | some t => (4, t)
  | none =>
    match s.cachedPtr 2 va with
    | some t => (3, t)
    | none =>
      match s.cachedPtr 1 va with
      | some t => (2, t)
      | none => (1, s.part.ptroot.toNat / 65536 % 2 ^ 36 * 65536)

/-- The pointers a walk follows from a level, as tags and tables. -/
def State.walkPtrs (s : State) : Nat → Nat → Nat → Nat → List (Nat × Nat)
  | 0, _, _, _ => []
  | fuel + 1, level, table, va =>
    match s.readPte level (s.readPa (table + 8 * levelIndex level va) 8) with
    | .ok (.pointer t) => (walkTag level va, t) :: s.walkPtrs fuel (level + 1) t va
    | _ => []

/-- The table entries that a walk reads from a level on (R120, R123). -/
def State.walkReads (s : State) : Nat → Nat → Nat → Nat → List Nat
  | 0, _, _, _ => []
  | fuel + 1, level, table, va =>
    let pa := table + 8 * levelIndex level va
    if !s.mapAllows .read pa 8 || !s.names pa then []
    else if s.readBad pa 8 then [pa]
    else
      match s.readPte level (s.readPa pa 8) with
      | .ok (.pointer t) => pa :: s.walkReads fuel (level + 1) t va
      | _ => [pa]

/-- The state with the errors met that reads of some 8-byte words find: corrected and counted, or counted and listed (R189, R192). -/
def State.seeWords (s : State) (keys : List Nat) : State := keys.foldl (fun s k => (s.correct k 8).meetBad k 8) s

/-- The cycles a walk takes: one table read, and one more for each missed level, at the tables' latency (R132). -/
def State.walkCycles (s : State) (va : Nat) : Nat :=
  let st := s.walkStart va
  (s.walkPtrs 4 st.1 st.2 va).foldl (fun n p => n + s.latencyTo s.site p.2) (s.latencyTo s.site st.2)

/-- The pointers a walk finds in the die's walk cache, as tags and tables (R132). -/
def State.cachedPtrs (s : State) (va : Nat) : List (Nat × Nat) :=
  ([1, 2, 3] : List Nat).filterMap (fun level => (s.cachedPtr level va).map (fun t => (walkTag level va, t)))

/-- The state with the die's walk cache holding these pointers as most recently used (1,024 at most). -/
def State.cachePtrs (s : State) (ps : List (Nat × Nat)) : State :=
  let c := ps.foldl (fun l p => (s.pid, p) :: l.filter (fun e => !(e.1 == s.pid && e.2.1 == p.1))) s.walkCache
  { s with walkCaches := s.walkCaches.set (dieOf s.site) (c.take 1024) }

/-- The state in which a walk of an address for a stream's TLB is under way, if the walker and the TLB take one more
(R132): walks to one page from different TLBs merge. -/
def State.startWalk (s : State) (st : Strm) (va : Nat) (prefetch : Bool) : State :=
  let page := va / 65536
  if s.core.walks.any (fun w => w.cx == s.cx && w.tlb == st && w.vpage == page) then s
  else
    let mine := s.core.walks.filter (fun w => w.tlb == st)
    let others := s.core.walks.filter (fun w => w.cx == s.cx && w.vpage == page)
    if mine.length ≥ missLimit st then s
    else
      match others.head? with
      | some w => s.onCore (fun c => { c with walks := c.walks ++ [{ w with tlb := st, prefetch := prefetch }] })
      | none =>
        if (s.core.walks.map (fun w => (w.cx, w.vpage))).eraseDups.length ≥ 8 then s
        else
          let d := s.takeDelay
          let s := d.2.cachePtrs (d.2.cachedPtrs va)
          (s.onCore (fun c =>
            { c with walks := c.walks ++ [{ serial := s.serial, cx := s.cx, tlb := st, vpage := page,
                                            due := s.cycle + s.walkCycles va + d.1, prefetch := prefetch }] })).bump

/-- The end of a walk (R123, R131, R132): the leaf enters the TLB; a fault is kept for the access that waits, and
nothing is cached. -/
def State.endWalk (s : State) (w : Walk) : State :=
  let s := s.focus s.site w.cx
  let s := s.onCore (fun c => { c with walks := c.walks.filter (fun x => x != w) })
  let va := w.vpage * 65536
  let st := s.walkStart va
  let s := s.seeWords (s.walkReads 4 st.1 st.2 va)
  match s.walkFrom 4 st.1 st.2 va with
  | .error c => if w.prefetch then s else s.onCore (fun k => { k with wfault := k.wfault ++ [(w.cx, w.tlb, w.vpage, c)] })
  | .ok l =>
    let s := s.cachePtrs (s.walkPtrs 4 st.1 st.2 va)
    let inc := if l.tgt.val % 2 = 1 then (s.peers.toList.getD l.chip ⟨0, false, false, false, 0⟩).inc else 0
    s.onCore (fun c =>
      c.setTlb w.tlb (insertTlb w.tlb (c.tlb w.tlb) { cx := w.cx, vpage := va / l.size * l.size / 65536, leaf := l, inc := inc }))

/-! ### One access of a context -/

/-- What an access meets: a place, a wait, or a fault. -/
inductive XRes where
  | ok (p : Place)
  | wait
  | fault (c : Cause)
deriving DecidableEq, Repr

/-- Is a waiting access this one. -/
def UpWait.is (u : UpWait) (st : Strm) (va chip : Nat) : Bool := decide (u.st = st) && decide (u.va = va) && decide (u.chip = chip)

/-- The context in which an access waits for a chip no more. -/
def Context.upDone (c : Context) (st : Strm) (va chip : Nat) : Context := { c with upWait := c.upWait.filter (fun u => !u.is st va chip) }

/-- May a request to a chip leave this one (R138, R42)? VALID 0 or LOST 1 is PEERLOST at issue; at UP 0 it waits, at most 16 µs. -/
def State.chipGate (s : State) (st : Strm) (va chip : Nat) : XRes × State :=
  let p := s.peerOf chip
  if !p.valid || p.lost then (.fault .peerlost, s)
  else if !s.peerUp chip then
    match s.ctx.upWait.find? (fun u => u.is st va chip) with
    | none => (.wait, s.onCtx (fun c => { c with upWait := c.upWait ++ [{ st := st, va := va, chip := chip, due := some (s.cycle + 28000) }] }))
    | some u => if u.due.isNone then (.fault .peerlost, s.onCtx (fun c => c.upDone st va chip)) else (.wait, s)
  else (.ok { key := 0, leaf := none }, s.onCtx (fun c => c.upDone st va chip))

/-- Is a stream's access through a peer or pool leaf held back before it reaches a link (R138). A chip that is not up makes it wait, at most 16 µs
(28,000 cycles); PEER_UP_WAIT_TIMEOUT marks the end of that wait. The incarnation that the translation recorded goes with the request: it is the
target that refuses another (R43). -/
def State.peerGate (s : State) (st : Strm) (va : Nat) (l : Leaf) : XRes × State :=
  if l.tgt.val % 2 = 0 then (.ok { key := 0, leaf := none }, s) else s.chipGate st va l.chip

/-- An access of n bytes within one page by a stream of the focused context: through the scratchpad window, the
stream's TLB, or a walk (R118 to R124, R131, R138). -/
def State.xlate (s : State) (st : Strm) (k : Acc) (va n : Nat) : XRes × State :=
  if 2 ^ 52 ≤ va then (.fault .prot, s)
  else if inWindow va then
    match s.windowKey va n with
    | .error c => (.fault c, s)
    | .ok key => if k = .fetch then (.fault .prot, s) else (.ok { key := key, leaf := none }, s)
  else
    match hitTlb (s.core.tlb st) s.cx va with
    | some e =>
      let s := s.onCore (fun c => c.setTlb st (touchTlb (c.tlb st) s.cx va))
      match s.placeBy e.leaf k va n with
      | .error c => (.fault c, s)
      | .ok p =>
        match s.peerGate st va e.leaf with
        | (.ok _, s) => (.ok { p with inc := e.inc }, s)
        | (r, s) => (r, s)
    | none =>
      match s.core.wfault.find? (fun f => f.1 == s.cx && f.2.1 == st && f.2.2.1 == va / 65536) with
      | some f => (.fault f.2.2.2, s.onCore (fun c => { c with wfault := c.wfault.erase f }))
      | none => (.wait, s.startWalk st va false)

/-- May a walk of a page start now for a stream's TLB (R132). -/
def State.mayWalk (s : State) (st : Strm) (va : Nat) : Bool :=
  let page := va / 65536
  !s.core.walks.any (fun w => w.cx == s.cx && w.tlb == st && w.vpage == page) &&
  decide ((s.core.walks.filter (fun w => w.tlb == st)).length < missLimit st) &&
  (s.core.walks.any (fun w => w.cx == s.cx && w.vpage == page) ||
    decide ((s.core.walks.map (fun w => (w.cx, w.vpage))).eraseDups.length < 8))

/-- Would a translation asked for now get on: an answer, or a walk or a wait that starts. -/
def State.xlateGoes (s : State) (st : Strm) (va : Nat) : Bool :=
  decide (2 ^ 52 ≤ va) || inWindow va ||
  (match hitTlb (s.core.tlb st) s.cx va with
   | some e =>
     let p := s.peerOf e.leaf.chip
     decide (e.leaf.tgt.val % 2 = 0) || !p.valid || p.lost || s.peerUp e.leaf.chip ||
     (match s.ctx.upWait.find? (fun u => u.is st va e.leaf.chip) with
      | none => true
      | some u => u.due.isNone)
   | none => s.core.wfault.any (fun f => f.1 == s.cx && f.2.1 == st && decide (f.2.2.1 = va / 65536)) || s.mayWalk st va)

/-- The state with the walk of a page started ahead of its use, when the stream's TLB misses it (R131). -/
def State.prefetchPage (s : State) (st : Strm) (va : Nat) : State :=
  if 2 ^ 52 ≤ va || inWindow va || (hitTlb (s.core.tlb st) s.cx va).isSome then s else s.startWalk st va true

/-- The state with the walk started of the next page that an instruction will touch, given the addresses it touches in the order of its walk:
the first later one outside the page of the first (R131). The page is that of the translation present, or 64 KiB. -/
def State.prefetchNext (s : State) (st : Strm) (vas : List Nat) : State :=
  match vas with
  | [] => s
  | va :: rest =>
    let size := match hitTlb (s.core.tlb st) s.cx va with
      | some e => e.leaf.size
      | none => 65536
    match rest.find? (fun a => decide (a / size ≠ va / size)) with
    | some a => s.prefetchPage st a
    | none => s

/-- The first step from `i` on of a loop of n at which what runs from lo to hi beyond a base that moves by stride is not wholly in a page. -/
def leavesAt (page size base stride lo hi : Int) (i n : Nat) : Option Nat :=
  let b := base + i * stride
  let j : Nat :=
    if b + lo < page ∨ page + size ≤ b + hi then 0
    else if 0 < stride then ((page + size - hi - b + stride - 1) / stride).toNat
    else if stride < 0 then ((b + lo - page) / (-stride) + 1).toNat
    else n
  if i + j < n then some (i + j) else none

/-- The least and the greatest distance from its first address that loops of so many steps and strides reach, the outermost first. -/
def loopSpan (loops : List (Nat × Int)) : Int × Int :=
  loops.foldl (fun r l => (r.1 + min 0 (((l.1 : Int) - 1) * l.2), r.2 + max 0 (((l.1 : Int) - 1) * l.2))) (0, 0)

/-- The first address outside a page that loops meet from their start. -/
def firstOut (page size : Int) : List (Nat × Int) → Int → Option Int
  | [], base => if page ≤ base ∧ base < page + size then none else some base
  | (n, stride) :: inner, base =>
    let r := loopSpan inner
    match leavesAt page size base stride r.1 r.2 0 n with
    | some i => firstOut page size inner (base + i * stride)
    | none => none

/-- The first address outside a page that loops meet after the step at which they stand: trips, stride and index of each, the outermost first. -/
def nextOut (page size : Int) : List (Nat × Int × Nat) → Int → Option Int
  | [], _ => none
  | (n, stride, i) :: inner, base =>
    match nextOut page size inner (base + i * stride) with
    | some a => some a
    | none =>
      let loops := inner.map (fun l => (l.1, l.2.1))
      let r := loopSpan loops
      match leavesAt page size base stride r.1 r.2 (i + 1) n with
      | some j => firstOut page size loops (base + j * stride)
      | none => none

/-- The state with the walk started of the next page that a step engine will touch, from an address in the page that it stands in (R131). -/
def State.prefetchLoops (s : State) (st : Strm) (va : Nat) (loops : List (Nat × Int × Nat)) (base : Int) : State :=
  let size := match hitTlb (s.core.tlb st) s.cx va with
    | some e => e.leaf.size
    | none => 65536
  match nextOut ((va / size * size : Nat) : Int) size loops base with
  | some a => if 0 ≤ a then s.prefetchPage st a.toNat else s
  | none => s

/-- The place of a translated access. -/
def placeOf (tr : List Trans) (writes : Bool) (va : Nat) : Option Place :=
  (tr.find? (fun t => t.writes == writes && decide (t.va = va))).map (fun t => t.place)

/-- Does an access write. -/
def Acc.writes : Acc → Bool
  | .write => true
  | .atomic => true
  | _ => false

/-- Accesses translated one after another, each once: the translations so far, and the first wait or fault with its address. What is translated is
kept while the others are walked for, so that more pages than a TLB holds can be had together (R122, R322). -/
def State.xlateMore (s : State) (st : Strm) : List (Acc × Nat × Nat) → List Trans → (Option (Option (Cause × Nat)) × List Trans) × State
  | [], tr => ((none, tr), s)
  | (k, va, n) :: rest, tr =>
    if (placeOf tr k.writes va).isSome then s.xlateMore st rest tr
    else
      match s.xlate st k va n with
      | (.wait, s) => ((some none, tr), s)
      | (.fault c, s) => ((some (some (c, va)), tr), s)
      | (.ok p, s) => s.xlateMore st rest (tr ++ [{ writes := k.writes, va := va, place := p }])

/-- Where an access would land, if its translation is present; nothing changes. -/
def State.peek (s : State) (st : Strm) (k : Acc) (va n : Nat) : Option Nat :=
  if 2 ^ 52 ≤ va then none
  else if inWindow va then (match s.windowKey va n with | .ok key => some key | .error _ => none)
  else
    match hitTlb (s.core.tlb st) s.cx va with
    | some e => (match s.placeBy e.leaf k va n with | .ok p => some p.key | .error _ => none)
    | none => none

/-! ### Replicated frames (R136, R137) and the bytes of an access -/

/-- The access paths of R141: 0 C, 1 T, 2 M, 3 S. -/
def strmPath : Strm → Nat
  | .c => 0
  | .t => 1
  | .m => 2
  | .v => 1

/-- The home of a frame of this chip's deep SRAM or HBM: the deep slice, or a port of the stack's controller (which one is a DESIGN CHOICE, log 19). -/
def homeEnd (key : Nat) : NetEnd :=
  match deepSite key with
  | some d => .deep d
  | none => .hbm (key / 2 ^ 36) (key / 64 % 4)

/-- Where an access travels between the columns of this chip: the memory plane for HBM, by a port of its stack's controller; the mesh for the deep slices of other columns, for other clusters' scratchpads, and for the rim: the West die toward the host and
the links 0 to 8, the East die toward the others, in the row of the issuing column (DESIGN CHOICE, log 19). The own slice, the crossbar and a
staged row take no packet. -/
def State.netEnd (s : State) (key : Nat) (port : Nat) : Option NetEnd :=
  if s.staged key then none
  else if 2 ^ 57 ≤ key then some (.rim (decide (9 ≤ port)) (meshY s.site))
  else if 2 ^ 56 ≤ key then
    let to_ := (key - 2 ^ 56) / 2 ^ 22
    if clusterOf to_ = clusterOf s.site then none else some (.core to_)
  else
    if deepSite key = some s.site then none else some (homeEnd key)

/-- The chip and the frame that an access goes to over a link: of a peer, or of a pooled device. -/
def linkOf (key : Nat) : Option (Nat × Nat) :=
  if 2 ^ 60 ≤ key then some ((key - 2 ^ 60) / 2 ^ 52, key % 2 ^ 52 / 65536)
  else if 2 ^ 57 ≤ key ∧ key < 2 ^ 59 then some ((key - 2 ^ 57) / 2 ^ 52, key % 2 ^ 52 / 65536)
  else none

/-- Does an access of the focused core go outside its column. A read that the die's own copy of a replicated frame serves does not (R136). -/
def State.goesOut (s : State) (p : Place) (writes : Bool) : Bool :=
  (s.netEnd p.key 0).isSome &&
  (writes || (match p.replFrame with
    | some f => !(s.part.holders.getD f []).contains (dieOf s.site)
    | none => true))

/-- Is the access of a token, T word or pawn answered, in its place among those of that one: it has left the column, and its answer has come. -/
def State.netDone (s : State) (serial pos : Nat) : Bool :=
  let mine := s.net.filter (fun a => decide (a.serial = serial) && decide (a.pos = pos))
  !mine.isEmpty && mine.all (fun a => !a.live)

/-- Has the home of a write made it (R31). -/
def State.netMade (s : State) (serial pos : Nat) : Bool := s.net.any (fun a => a.done && decide (a.serial = serial) && decide (a.pos = pos))

/-- The bytes that a path of the focused context reads at a place: the home's, or a copy's, which equal the home's until a
write is performed, with the path's own pending writes over them (R137). -/
def State.readPlace (s : State) (path : Nat) (p : Place) (n : Nat) : List (BitVec 8) :=
  s.bytesWith p.key n (fun w => w.site == s.site && w.cx == s.cx && w.path == path)

/-- The bytes that an access of the focused context's token, T word or pawn reads at a place: those that its home has served it first, if it went
outside its column (R31), else those that stand there now. -/
def State.readFor (s : State) (path serial : Nat) (p : Place) (n : Nat) : List (BitVec 8) :=
  match s.net.find? (fun a => decide (a.serial = serial) && decide (a.site = s.site) && decide (a.key ≤ p.key) && !a.got.isEmpty &&
      decide (p.key + n ≤ a.key + a.got.length)) with
  | some a => (a.got.drop (p.key - a.key)).take n
  | none => s.readPlace path p n

/-- The home serves a read of a replicated frame to a die, and grants it a copy if its list (8) and the die's
replica area have room and no write waits (R136, R137). Of a peer's frame, whose list stands at the peer, the die is granted a copy whenever
its own area has room (DESIGN CHOICE, log 11). -/
def State.replRead (s : State) (die frame : Nat) : State :=
  let hs := s.part.holders.getD frame []
  if hs.contains die || decide (8 ≤ hs.length) || s.part.replWrites.any (fun w => w.frame == frame) ||
      (decide (die < 18) && decide (s.part.replicaCap ≤ (s.part.holders.filter (fun e => e.2.contains die)).length)) then s
  else s.onPart (fun p => { p with holders := p.holders.put frame (hs ++ [die]) })

/-- The effect of a read of n bytes: errors that it can correct are counted (R189), the deep-SRAM bank it finds drowsy is awake (R117), and its
frame may gain a holder. -/
def State.noteRead (s : State) (p : Place) (n : Nat) : State :=
  let s := s.correct p.key n
  let s := if s.drowsy.isEmpty then s
    else { s with drowsy := s.drowsy.filter (fun d => !(decide (deepSite p.key = some d.1) && decide (p.key % 2 ^ 24 / 2 ^ 18 = d.2))) }
  match p.replFrame with
  | some f => s.replRead (dieOf s.site) f
  | none => s

/-- A write by a path of the focused context, for a token, T word or pawn of its own: performed at once, or queued at the home of a replicated frame
(R137). -/
def State.writePlace (s : State) (path serial : Nat) (p : Place) (bs : List (BitVec 8)) : State :=
  s.frameWrite p.replFrame p.key bs s.site s.cx path (some serial)

/-- Has the focused context writes that their homes have not performed. -/
def State.homeWaits (s : State) : Bool := s.part.replWrites.any (fun w => w.site == s.site && w.cx == s.cx)

/-! ### Issue (R159, R161, R274) -/

/-- A landing buffer reloaded: every prefetch that starts again walks its target's page, as one that PBR starts does (R159, R274). -/
def State.reloadC (s : State) (es : List LandSave) : State :=
  let held := (List.finRange 8).filterMap (fun r => if s.ctx.b[r].byPbr && s.ctx.b[r].ready.isNone then some s.ctx.b[r].val else none)
  let saved := (es.filter (fun e => e.valid)).filterMap (fun e => match e.dst with
    | .b _ true _ => some (e.val.setWidth 64)
    | _ => none)
  (held ++ saved).foldl (fun s t => s.prefetchPage .c t.toNat) (s.onCtx (fun c => c.reload s.cycle es))

/-- The landing buffer reloaded at the first issue after a stop: the program's, or within a handler the handler's own (R159). -/
def State.resumeC (s : State) : State :=
  if s.ctx.tip then
    if s.ctx.hresume then (s.reloadC s.ctx.hbuf).onCtx (fun c => { c with hresume := false, hbuf := [] }) else s
  else if s.ctx.resume then (s.reloadC s.ctx.lbuf).onCtx (fun c => { c with resume := false, lbuf := [] })
  else s

/-- Does the landing buffer that the next issue reloads hold a divide: the divider is not free until it has landed (R159, R270). -/
def Context.divideSaved (c : Context) : Bool :=
  (if c.tip then (if c.hresume then c.hbuf else []) else if c.resume then c.lbuf else []).any (fun e => e.valid && e.divide)

/-- The C stream waits at its word for results that a landing buffer may hold: the buffer is reloaded now, since the first resumed word cannot issue
before it is (DESIGN CHOICE, log 15). -/
def State.waitLanding (s : State) (why : WaitOn) : State := s.resumeC.waitIn .c why

/-- The state in which a stream of the focused context has issued its word and stands at pc, inside the loops ls. -/
def State.issuedAt (s : State) (st : Strm) (pc : Word) (ls : List LoopSt) (fresh : Bool) : State :=
  let s := if st = .c then s.resumeC else s
  let s := (loopsEnded pc ls).foldl (fun s l => s.loopExit st l) s
  s.onCtx (fun c => (c.onStrm st (fun r => r.goto pc ls fresh)).markStarted)

/-- The loops that a stream is inside: the C stream has no hardware loops (R161, R292). -/
def Context.loopsOf (c : Context) : Strm → List LoopSt
  | .c => []
  | .t => c.ts.loops
  | .m => c.ms.loops
  | .v => c.vs.loops

/-- The state in which a stream of the focused context has issued its word and stands at the next one. -/
def State.issuedIn (s : State) (st : Strm) : State :=
  s.issuedAt st ((s.ctx.strm st).pc + 4) (s.ctx.loopsOf st) false

/-- As issuedIn, with the C stream at a word of its choice: a branch. -/
def State.issuedTo (s : State) (pc : Word) : State := s.issuedAt .c pc [] true

end Sys2Proof.Machine
end

