-- ==== Sys2Proof/Machine/Levels.lean ====
section
/-! DEFINITION. The levels of work of a partition and what drives them: completion counters, events, the ready
heaps, launches, graphs and phases (R63 to R95, spec/04_jobs.md and spec/05_scheduler.md). -/

namespace Sys2Proof.Machine

/-! ### Completion counters (R64) -/

/-- The count of a counter word. -/
def ctrCount (w : Nat) : Nat := w % 2 ^ 40

/-- A bit of a counter word: 40 CANCELLED, 41 FAULTED, 42 MISSED, 43 DONE, 44 UNDER, 47 EVV. -/
def ctrBit (w b : Nat) : Bool := w / 2 ^ b % 2 == 1

/-- A counter word with a bit set. -/
def ctrSet (w b : Nat) (on : Bool) : Nat := if on && !ctrBit w b then w + 2 ^ b else w

/-- A counter word created with a count: bits [46:40] clear, EVV and EVENT kept. -/
def ctrCreate (w n : Nat) : Nat := n % 2 ^ 40 + w / 2 ^ 47 * 2 ^ 47

/-- The counter word at an address, as an atomic at its home finds it, or the atomic's fault: it needs WR alone (R122), a host's or a pooled
device's memory has none (R124), and a word in error gives MEMERR (R191). -/
def State.ctrAt (s : State) (a : Word) : Except Cause Nat :=
  match s.placeNow .atomic a.toNat 8 with
  | .error c => .error c
  | .ok p => if s.readBad p.key 8 then .error .memerr else .ok (leNat (s.homeBytes p.key 8))

/-- The counter word that an atomic of this package's own hardware finds; none when the atomic faults, and it is then dropped (DESIGN CHOICE,
log 15). -/
def State.ctr (s : State) (a : Word) : Option Nat := (s.ctrAt a).toOption

/-- The state with a counter word written by an atomic, which corrects the single-bit errors it meets (R189). -/
def State.putCtr (s : State) (a : Word) (w : Nat) : State :=
  match s.placeNow .atomic a.toNat 8 with
  | .error _ => s
  | .ok p => if s.readBad p.key 8 then s.meetBad p.key 8 else (s.correct p.key 8).hwWrite p (leBytes 8 w) none

/-- The state with a 64-bit word of a record written by this package's own hardware; a write that faults is dropped. -/
def State.putWord (s : State) (a : Word) (w : Nat) : State :=
  match s.writeVa a.toNat 8 w with
  | .ok s => s
  | .error _ => s

/-- A bit set in a counter by an atomic. -/
def State.setCtrBit (s : State) (a : Word) (b : Nat) : State :=
  match s.ctr a with
  | some w => s.putCtr a (ctrSet w b true)
  | none => s

/-- Is a bit of a counter set. -/
def State.ctrHas (s : State) (a : Word) (b : Nat) : Bool :=
  match s.ctr a with
  | some w => ctrBit w b
  | none => false

/-- A creation atomic on a parent's counter (R93): COUNT grows by n, or, after a cancel, nothing changes and the creation is stillborn; an atomic
that faults creates nothing, and the word that makes it faults with its cause (R124, R191). That a parent counter which cannot be reached makes the
word fault, and not go on uncounted, is DEDUCED (log 15). -/
def State.createUnder (s : State) (a : Word) (n : Nat) : Except Cause (Bool × State) :=
  match s.ctrAt a with
  | .ok w => .ok (if ctrBit w 40 then (false, s) else (true, s.putCtr a (w + n)))
  | .error c => .error c

/-- Pawns adopted by a launch: its counter rises by their number, cancelled or not (R77, R95, R169). -/
def State.adoptUnder (s : State) (a : Word) (n : Nat) : State :=
  match s.ctr a with
  | some w => s.putCtr a (w + n)
  | none => s

/-- A post on its way to the event table (R91). -/
def State.postEvent (s : State) (name : Nat) : State :=
  s.onPart (fun p => { p with evops := p.evops ++ [{ due := s.cycle + 1, name := name, kind := .post, tok := none }] })

/-- The event that a counter word names, posted if EVV is set. -/
def State.postOf (s : State) (w : Nat) : State := if ctrBit w 47 then s.postEvent (w / 2 ^ 48) else s

/-! ### Dispatch keys and the ready heaps (R79, R80, R82) -/

/-- The dispatch key of R82: is turn a dispatched before turn b. -/
def Turn.before (a b : Turn) : Bool :=
  let pa := a.flags.toNat % 8
  let pb := b.flags.toNat % 8
  if a.deadline ≠ b.deadline then decide (a.deadline.toNat < b.deadline.toNat)
  else if pa ≠ pb then decide (pa > pb)
  else if a.stamp ≠ b.stamp then decide (a.stamp < b.stamp)
  else decide (a.arrival < b.arrival)

/-- A heap as a list in key order, with one more entry. -/
def heapInsert (e : HeapEnt) : List HeapEnt → List HeapEnt
  | [] => [e]
  | x :: rest => if e.turn.before x.turn then e :: x :: rest else x :: heapInsert e rest

/-- A scheduler that has dispatched nothing. -/
def Sched.empty : Sched := { heap := [], spill := [], bgq := [], since := 0, refillAt := 0, lastCycle := 0 }

/-- The scheduler of a cluster. -/
def State.sched (s : State) (cl : Nat) : Sched := s.part.scheds.getD cl Sched.empty

/-- The state with a scheduler changed. -/
def State.onSched (s : State) (cl : Nat) (f : Sched → Sched) : State :=
  s.onPart (fun p => { p with scheds := p.scheds.put cl (f (s.sched cl)) })

/-- Has a cluster's spill area room for one entry more (R79). -/
def State.spillRoom (s : State) (cl : Nat) : Bool :=
  decide ((s.sched cl).spill.length + (s.sched cl).bgq.length < s.part.spillCap)

/-- Would a new turn need an entry of the spill area: a background turn, one that finds the heap on die full, one whose key is later than a
spilled one's (R79). -/
def State.needsSpill (s : State) (cl : Nat) (t : Option Turn) : Bool :=
  decide (64 ≤ (s.sched cl).heap.length) || (match t with
    | some t => t.bg || (s.sched cl).spill.any (fun e => e.turn.before { t with stamp := s.dt, arrival := s.serial })
    | none => false)

/-- A non-background turn in the heap on die or in the spill heap, so that no spilled key is earlier than a key on die (R79). -/
def Sched.enter (k : Sched) (e : HeapEnt) : Sched :=
  if k.spill.any (fun x => x.turn.before e.turn) then { k with spill := heapInsert e k.spill }
  else if k.heap.length < 64 then { k with heap := heapInsert e k.heap }
  else
    match k.heap.getLast? with
    | some latest =>
      if latest.turn.before e.turn then { k with spill := heapInsert e k.spill }
      else { k with heap := heapInsert e (k.heap.take 63), spill := heapInsert latest k.spill }
    | none => { k with heap := [e] }

/-- A turn enters a cluster's heap, spill heap or background queue and is ready (R79, R80); with the spill area full it
waits at the scheduler. -/
def State.enterHeap (s : State) (cl : Nat) (e : HeapEnt) : State :=
  let e := { e with turn := { e.turn with stamp := s.dt, arrival := s.serial } }
  if s.needsSpill cl (some e.turn) && !s.spillRoom cl then s.bump.onPart (fun p => { p with placing := p.placing ++ [(cl, e)] })
  else if e.turn.bg then s.bump.onSched cl (fun k => { k with bgq := k.bgq ++ [e] })
  else s.bump.onSched cl (fun k => k.enter e)

/-- A turn returned to its heap with its key unchanged (R85). -/
def State.returnHeap (s : State) (cl : Nat) (e : HeapEnt) : State :=
  if e.turn.bg then s.onSched cl (fun k => { k with bgq := e :: k.bgq })
  else s.onSched cl (fun k => k.enter e)

/-! ### Levels (R63) -/

/-- The live level with a counter. -/
def State.level? (s : State) (a : Word) : Option Level := s.part.levels.find? (fun l => l.counter == a)

/-- Has a cancel been linearised at the live level of a counter, or above it. -/
def State.levelCancelled (s : State) (a : Word) : Bool :=
  match s.level? a with
  | some l => l.cancelled
  | none => false

/-- The state with a live level changed. -/
def State.onLevel (s : State) (a : Word) (f : Level → Level) : State :=
  s.onPart (fun p => { p with levels := p.levels.map (fun l => if l.counter = a then f l else l) })

/-- The state without a level. -/
def State.dropLevel (s : State) (a : Word) : State :=
  s.onPart (fun p => { p with levels := p.levels.filter (fun l => !(l.counter == a)) })

/-- The levels at or beneath a counter, in order of creation: parents before children. -/
def levelsUnder (ls : List Level) (a : Word) : List Level :=
  (ls.foldl (fun (acc : List Level × List Word) l =>
    if l.counter = a ∨ acc.2.contains l.parent then (acc.1 ++ [l], l.counter :: acc.2) else acc) ([], [])).1

/-- An activity of a job. -/
def State.act? (s : State) (job act : Nat) : Option Activity :=
  match s.part.jobs[job]? with
  | some j => j.acts[act]?
  | none => none

/-- The state with a job changed. -/
def State.onJob (s : State) (job : Nat) (f : Job → Job) : State :=
  s.onPart (fun p => { p with jobs := p.jobs.mapIdx (fun i j => if i = job then f j else j) })

/-- The state with an activity changed. -/
def State.onAct (s : State) (job act : Nat) (f : Activity → Activity) : State :=
  s.onJob job (fun j => { j with acts := j.acts.mapIdx (fun i a => if i = act then f a else a) })

/-! ### Turn creation (R76, R80) -/

/-- A turn from its record: its key fields, its parent launch, or the fault of the read. The flag says that a reserved
bit is set (R76). -/
def State.readTurn (s : State) (rec launch : Word) (job act : Nat) (pin : Option Nat) : Except Cause (Turn × Bool) :=
  match s.readVa (rec.toNat + 16) 8, s.readVa (rec.toNat + 24) 8, s.readVa (rec.toNat + 32) 8 with
  | .ok join, .ok dl, .ok bf =>
    let flags := bf / 2 ^ 32
    let bg := flags / 128 % 2 == 1
    let own := match s.act? job act with
      | some a => a.deadline
      | none => 0
    let heat := match flags / 8 % 8, s.act? job act with
      | 0, some a => a.heat
      | h, _ => h
    .ok ({ id := s.part.turnSeq, record := rec, launch := launch, join := BitVec.ofNat 64 join,
           flags := BitVec.ofNat 32 flags
           deadline := if bg then BitVec.allOnes 64 else if dl = 0 then own else BitVec.ofNat 64 dl
           stamp := 0, arrival := 0, heat := heat, pin := pin, bg := bg, bgDue := false, started := false,
           cancelled := false, job := job, act := act }, decide (flags / 256 ≠ 0))
  | .error c, _, _ => .error c
  | _, .error c, _ => .error c
  | _, _, .error c => .error c

/-- The site of a logical core of the focused partition (R399). -/
def State.siteOf (s : State) (logical : Nat) : Option Nat :=
  (List.find? (fun e : Nat × Nat => e.2 == logical) s.part.cores).map (fun e => e.1)

/-- The cluster after the last placement, round-robin over the partition's clusters (R80). -/
def nextCluster (cls : List Nat) (last : Option Nat) : Nat :=
  match last with
  | none => cls.headD 0
  | some l => (cls.find? (fun c => decide (l < c))).getD (cls.headD 0)

/-! ### The chain of a counter -/

/-- What remains to be done in one step of the counters and schedulers. -/
inductive Work where
  /-- n children of a counter end, with these status bits (R64). -/
  | decr (addr : Word) (n : Nat) (faulted cancelled : Bool)
  /-- A graph node's launch starts (R73, R75). -/
  | node (rec graph : Word) (index job act : Nat)
  /-- A turn of a launch is placed (R75, R80). -/
  | place (rec launch : Word) (pin : Option Nat) (job act : Nat)
  /-- A level without children left has its DONE (R64). -/
  | ended (counter : Word) (faulted cancelled : Bool)
  /-- A turn that was counted ends without running (R76, R78, R93). -/
  | gone (turn : Turn) (faulted cancelled : Bool)
deriving DecidableEq, Repr

/-- A counter brought to zero at once with FAULTED (R71, R75): DONE, its event, and what its end brings about. A counter that was created
before keeps its other status bits. -/
def State.failCtr (s : State) (a : Word) (fresh : Bool) : State × List Work :=
  match s.ctr a with
  | none => (s, [.ended a true false])
  | some w =>
    let w := if fresh then ctrCreate w 0 else w - ctrCount w
    ((s.putCtr a (ctrSet (ctrSet w 41 true) 43 true)).postOf w, [.ended a true (ctrBit w 40)])

/-- A phase fault (R71): the counter ends at once, and the fault log receives kind 1. -/
def State.phaseFault (s : State) (job act : Nat) (c : Cause) : State × List Work :=
  match s.act? job act with
  | none => (s, [])
  | some a =>
    let s := s.onAct job act (fun a => { a with sizeAt := none })
    (s.logFault c.code 1 0xFFFF a.phase.toNat 0).failCtr a.phase false

/-- The successors of a graph node, from its table entry. -/
def nodeSuccs (w8 w16 : Nat) : List Nat :=
  let all := [w8 / 2 ^ 16 % 2 ^ 16, w8 / 2 ^ 32 % 2 ^ 16, w8 / 2 ^ 48, w16 % 2 ^ 16, w16 / 2 ^ 16 % 2 ^ 16,
    w16 / 2 ^ 32 % 2 ^ 16, w16 / 2 ^ 48]
  all.take (min 7 (w8 / 256 % 256))

/-- A graph's node table: launch record, in-degree, successor count and successors of each node. -/
def State.readNodes (s : State) (table : Nat) : Nat → Nat → Except Cause (List (Word × Nat × Nat × List Nat))
  | 0, _ => .ok []
  | n + 1, i =>
    match s.readVa (table + 32 * i) 8, s.readVa (table + 32 * i + 8) 8, s.readVa (table + 32 * i + 16) 8 with
    | .ok r, .ok a, .ok b =>
      match s.readNodes table n (i + 1) with
      | .ok rest => .ok ((BitVec.ofNat 64 r, a % 256, a / 256 % 256, nodeSuccs a b) :: rest)
      | .error c => .error c
    | .error c, _, _ => .error c
    | _, .error c, _ => .error c
    | _, _, .error c => .error c

/-- The checks of R73 on a node table of n nodes: an in-degree is the number of nodes that name the node. -/
def nodesOk (ns : List (Word × Nat × Nat × List Nat)) : Bool :=
  (ns.mapIdx (fun i e =>
    decide (e.2.2.1 ≤ 7) && e.2.2.2.all (fun j => decide (i < j) && decide (j < ns.length)) &&
    decide (e.2.1 = (ns.filter (fun f => f.2.2.2.contains i)).length))).all id

/-- A graph starts (R73): checks, counter, wait counts, and the nodes that wait for none in index order. What a header or node outside the layout of
R72 does is the model's choice (DESIGN CHOICE, log 15): a node count outside 1 to 256, a nonzero byte of 10 to 15, or more than 7 successors
faults the phase with PHASE; nonzero bytes 24 to 63 of the header and successor entries past the count are not looked at. A header or node
table that cannot be read faults it with the read's own cause (DESIGN CHOICE, log 15). -/
def State.startGraph (s : State) (g : Word) (job act : Nat) : State × List Work :=
  match s.act? job act with
  | none => (s, [])
  | some a =>
    match s.readVa (g.toNat + 8) 8, s.readVa (g.toNat + 16) 8 with
    | .ok h, .ok table =>
      let n := h % 65536
      if n = 0 ∨ 256 < n ∨ h / 65536 ≠ 0 then s.phaseFault job act .phase
      else
        match s.readNodes table n 0 with
        | .error c => s.phaseFault job act c
        | .ok ns =>
          if !nodesOk ns then s.phaseFault job act .phase
          else
            let s := match s.ctr g with
              | some w => s.putCtr g (ctrCreate w n)
              | none => s
            let s := s.onPart (fun p => { p with levels := p.levels ++
              [{ kind := .graph, counter := g, parent := a.phase, job := job, act := act, node := none, draw := 0,
                 drawHeld := 0, cancelled := false }] })
            let s := (ns.mapIdx (fun i e => (i, e))).foldl (fun s (e : Nat × Word × Nat × Nat × List Nat) =>
              s.putWord (BitVec.ofNat 64 (table + 32 * e.1 + 24)) e.2.2.1) s
            (s, (ns.mapIdx (fun i e => (i, e))).filterMap (fun e =>
              if e.2.2.1 = 0 then some (.node e.2.1 g e.1 job act) else none))
    | .error c, _ => s.phaseFault job act c
    | _, .error c => s.phaseFault job act c

/-- n 16-bit numbers of memory. -/
def State.readHalves (s : State) (a : Nat) : Nat → Except Cause (List Nat)
  | 0 => .ok []
  | n + 1 =>
    match s.readVa a 2 with
    | .error c => .error c
    | .ok v =>
      match s.readHalves (a + 2) n with
      | .error c => .error c
      | .ok rest => .ok (v :: rest)

/-- n 64-bit words of memory. -/
def State.readDwords (s : State) (a : Nat) : Nat → Except Cause (List Nat)
  | 0 => .ok []
  | n + 1 =>
    match s.readVa a 8 with
    | .error c => .error c
    | .ok v =>
      match s.readDwords (a + 8) n with
      | .error c => .error c
      | .ok rest => .ok (v :: rest)

/-- The channels a channel table declares (R74, R113): the slots of one receiver from the top of context A's
share downward, in ascending channel number. -/
def layChans (launch : Word) (share : Nat) (es : List Nat) : List Chan :=
  (es.foldl (fun (acc : List Chan) e =>
    let num := e % 256
    let rcv := e / 2 ^ 32 % 65536
    let size := e / 2 ^ 48 * 64
    let slots := e / 256 % 256
    acc ++ [{ launch := launch, num := num, slots := slots, size := size, sender := e / 65536 % 65536, receiver := rcv,
              base := share - ((es.filter (fun f => decide (f / 2 ^ 32 % 65536 = rcv) && decide (f % 256 ≤ num))).map
                (fun f => f / 2 ^ 48 * 64 * (f / 256 % 256))).sum
              next := 0, filling := [], filled := [], held := [] }]) [])

/-- The channel checks of R75, beside the ranges of R74: for an entry outside those, which the text leaves without a consequence, the launch is
refused with CHAN too (DESIGN CHOICE, log 15). -/
def State.chansOk (s : State) (es : List Nat) (pins : List Nat) : Bool :=
  let nums := es.map (fun e => e % 256)
  decide (nums.eraseDups.length = nums.length) &&
  es.all (fun e =>
    let snd := e / 65536 % 65536
    let rcv := e / 2 ^ 32 % 65536
    decide (snd ≠ rcv) && (s.siteOf snd).isSome && (s.siteOf rcv).isSome && pins.contains snd && pins.contains rcv &&
    decide (e % 256 < 64) && decide (1 ≤ e / 256 % 256) && decide (e / 256 % 256 ≤ 16) &&
    decide (1 ≤ e / 2 ^ 48) && decide (e / 2 ^ 48 ≤ 1024) &&
    decide (((es.filter (fun f => decide (f / 2 ^ 32 % 65536 = rcv))).map
      (fun f => f / 2 ^ 48 * 64 * (f / 256 % 256))).sum ≤ 524288))

/-- A launch that is refused at placement (R75). -/
def State.refuseLaunch (s : State) (rec : Word) (c : Cause) : State × List Work :=
  (s.logFault c.code 8 0xFFFF rec.toNat 0).failCtr rec true

/-- A launch starts (R75): its record, channels and placement table are checked, its counter is created, its turns
are to be placed. One of these that cannot be read refuses the launch with the read's cause and an entry of kind 8 (DESIGN CHOICE, log 15); a launch
record of a graph node, or turn records of a table, at an address that is not 64-byte aligned are read as they stand (R74 gives no consequence:
DESIGN CHOICE, log 15). -/
def State.startLaunch (s : State) (rec parent : Word) (node : Option Nat) (job act : Nat) : State × List Work :=
  let s := s.onPart (fun p => { p with levels := p.levels ++
    [{ kind := .launch, counter := rec, parent := parent, job := job, act := act, node := node, draw := 1, drawHeld := 0, cancelled := false }] })
  match s.readDwords rec.toNat 8 with
  | .error c => s.refuseLaunch rec c
  | .ok ws =>
    let w2 := ws.getD 2 0
    let n := w2 % 65536
    let nch := w2 / 65536 % 256
    if n = 0 ∨ 4096 < n ∨ 64 < nch ∨ w2 / 2 ^ 32 ≠ 0 ∨ ws.getD 5 0 ≠ 0 ∨ ws.getD 6 0 ≠ 0 ∨ ws.getD 7 0 ≠ 0 then
      s.refuseLaunch rec .illegal
    else
      let place := ws.getD 4 0
      match s.readDwords (ws.getD 3 0) nch, (if place = 0 then .ok (List.replicate n 0xFFFF) else s.readHalves place n) with
      | .error c, _ => s.refuseLaunch rec c
      | _, .error c => s.refuseLaunch rec c
      | .ok chans, .ok pins =>
        if !s.chansOk chans pins then s.refuseLaunch rec .chan
        else if pins.any (fun p => p != 0xFFFF &&
            (match s.siteOf p with | some site => !(s.boxAt site).core.enabled | none => true)) then
          s.refuseLaunch rec .prot
        else
          let s := match s.ctr rec with
            | some w => s.putCtr rec (ctrCreate w n)
            | none => s
          let d := w2 / 2 ^ 24 % 256
          let s := s.onLevel rec (fun l => { l with draw := if d = 0 then 1 else d })
          let s := s.onPart (fun p => { p with chans := p.chans ++ layChans rec s.shareSize chans })
          (s, (pins.mapIdx (fun i p =>
            Work.place (BitVec.ofNat 64 (ws.getD 1 0 + 64 * i)) rec (if p = 0xFFFF then none else some p) job act)))

/-- A turn of a launch is placed in a cluster's heap (R76, R80). A record that cannot be read is counted off with FAULTED and logged with kind 3 and
the read's cause; a write of its bytes 40 to 47 that faults is passed over (DESIGN CHOICE, log 15). Only an unpinned turn moves the cluster from which
the round robin of R80 goes on: whether a pinned one does the text does not say (DESIGN CHOICE, log 15). -/
def State.placeTurn (s : State) (rec launch : Word) (pin : Option Nat) (job act : Nat) : State × List Work :=
  match s.readTurn rec launch job act pin with
  | .error c => (s.logFault c.code 3 0xFFFF rec.toNat 0, [.decr launch 1 true false])
  | .ok (t, bad) =>
    let s := s.onPart (fun p => { p with turnSeq := p.turnSeq + 1 })
    let s := (s.seeVa rec.toNat 64).putWord (rec + 40) launch.toNat
    if bad then (s.logFault Cause.illegal.code 3 0xFFFF rec.toNat 0, [.gone t true false])
    else
      match pin with
      | some p =>
        let site := (s.siteOf p).getD 0
        (s.enterHeap (clusterOf site) { turn := { t with pin := some site }, saved := none }, [])
      | none =>
        let cl := nextCluster s.part.clusters s.part.lastPlace
        ((s.enterHeap cl { turn := t, saved := none }).onPart (fun p => { p with lastPlace := some cl }), [])

/-- What a LAUNCH leaves that is stillborn (R93): the join counters that its turn records name count its turns CANCELLED. Records that cannot be read
name none (DESIGN CHOICE, log 15). -/
def State.stillTurns (s : State) (rec : Word) : List Work :=
  match s.readDwords rec.toNat 3 with
  | .error _ => []
  | .ok ws => (List.range (min 4096 (ws.getD 2 0 % 65536))).filterMap (fun i =>
      match s.readVa (ws.getD 1 0 + 64 * i + 16) 8 with
      | .ok j => if j = 0 then none else some (.decr (BitVec.ofNat 64 j) 1 false true)
      | .error _ => none)

/-- The end of an activity (R68): the job counter falls by one. -/
def State.actDone (s : State) (job act : Nat) : State × List Work :=
  match s.part.jobs[job]?, s.act? job act with
  | some j, some a =>
    if a.ended || a.live then (s, [])
    else if a.limit ≠ 0 && decide (a.limit ≤ a.made) || s.ctrHas j.counter 40 then
      (s.onAct job act (fun a => { a with ended := true }), [.decr j.counter 1 false false])
    else (s, [])
  | _, _ => (s, [])

/-- The end of a job (R66): its racks and record numbers are freed, its event names once the posts on their way have been applied, and its vector
fires. -/
def State.jobDone (s : State) (job : Nat) : State :=
  match s.part.jobs[job]? with
  | none => s
  | some j =>
    let s := s.onPart (fun p =>
      { p with racks := p.racks.filter (fun e => !(e.2.job == job))
               evops := p.evops ++ [{ due := s.cycle + 1, name := 0, kind := .free job, tok := none }] })
    let s := s.onJob job (fun j => { j with live := false, racks := [], events := [], lys := [] })
    match j.msix with
    | some v => s.notify (.vfVector s.pid v.val)
    | none => s

/-- What the end of a level brings about (R64, R68, R73): the parent's decrement, with the status bits copied, or the
activity's or the job's own end. -/
def State.levelEnded (s : State) (a : Word) (faulted cancelled : Bool) : State × List Work :=
  match s.level? a with
  | none => (s, [])
  | some l =>
    let s := s.dropLevel a
    match l.kind with
    | .launch =>
      let s := s.onPart (fun p => { p with chans := p.chans.filter (fun c => !(c.launch == a)) })
      match l.node with
      | none => (s, [.decr l.parent 1 faulted cancelled])
      | some i =>
        if s.levelCancelled l.parent then (s, [.decr l.parent 1 faulted cancelled])
        else
          match s.readVa (l.parent.toNat + 16) 8 with
          | .error _ => (s, [.decr l.parent 1 faulted cancelled])
          | .ok table =>
            match s.readNodes table 1 i with
            | .ok [(_, _, _, succs)] =>
              let r := succs.foldl (fun (acc : State × List Work) j =>
                let at_ := BitVec.ofNat 64 (table + 32 * j + 24)
                match acc.1.readVa at_.toNat 8, acc.1.readVa (table + 32 * j) 8 with
                | .ok w, .ok rec =>
                  (acc.1.putWord at_ (w - 1),
                    if w = 1 then acc.2 ++ [.node (BitVec.ofNat 64 rec) l.parent j l.job l.act] else acc.2)
                | _, _ => acc) (s, [])
              (r.1, r.2 ++ [.decr l.parent 1 faulted cancelled])
            | _ => (s, [.decr l.parent 1 faulted cancelled])
    | .graph => (s, [.decr l.parent 1 faulted cancelled])
    | .phase =>
      let s := if faulted then s.setCtrBit l.parent 41 else s
      let s := s.onAct l.job l.act (fun x => { x with live := false, selOpen := false, sizeAt := none })
      s.actDone l.job l.act
    | .job => (s.jobDone l.job, [])

/-- One decrement (R64): dropped at zero with UNDER set; at zero it sets DONE, posts the event and ends the level. -/
def State.decrement (s : State) (a : Word) (n : Nat) (faulted cancelled : Bool) : State × List Work :=
  match s.ctr a with
  | none => (s, [])
  | some w =>
    if ctrCount w < n then (s.putCtr a (ctrSet w 44 true), [])
    else
      let w := ctrSet (ctrSet (w - n) 41 faulted) 40 cancelled
      if ctrCount w = 0 then
        let w := ctrSet w 43 true
        ((s.putCtr a w).postOf w, [.ended a (ctrBit w 41) (ctrBit w 40)])
      else (s.putCtr a w, [])

/-- One piece of work, and what it leaves to do. -/
def State.doWork (s : State) : Work → State × List Work
  | .decr a n f c => s.decrement a n f c
  | .node rec g i job act =>
    if s.levelCancelled g then (s, [.decr g 1 false true]) else s.startLaunch rec g (some i) job act
  | .place rec launch pin job act =>
    if s.ctrHas launch 40 then
      match s.readTurn rec launch job act pin with
      | .ok (t, _) => (s, [.gone t false true])
      | .error _ => (s, [.decr launch 1 false true])
    else s.placeTurn rec launch pin job act
  | .ended a f c => s.levelEnded a f c
  | .gone t f c =>
    (s, (if t.join = 0 then [] else [.decr t.join 1 f c]) ++ [.decr t.launch 1 f c])

/-- A chain of work carried out: the newest work first, at most fuel pieces. -/
def State.doWorks (s : State) : Nat → List Work → State
  | 0, _ => s
  | _, [] => s
  | fuel + 1, w :: rest =>
    let r := s.doWork w
    r.1.doWorks fuel (r.2 ++ rest)

/-- Work carried out with the fuel that covers every chain of one step: at most 256 nodes of 4,096 turns each, and their
ends. -/
def State.run (s : State) (ws : List Work) : State := s.doWorks 4000000 ws

/-- As run, of a state and the work it leaves. -/
def State.runAll (r : State × List Work) : State := r.1.run r.2

/-! ### Releases of an activity (R68 to R71) -/

/-- A miss counted (R67 to R69): the activity's miss counter rises, saturating. -/
def State.countMiss (s : State) (a : Activity) : State :=
  match s.ctr (a.addr + 32) with
  | some w => s.putCtr (a.addr + 32) (min (w + 1) (2 ^ 64 - 1))
  | none => s

/-- The phase descriptor's checks (R71): the variant count, and the bytes that must be zero. -/
def descOk (ws : List Nat) : Bool :=
  let w2 := ws.getD 2 0
  let v := w2 / 2 ^ 32 % 256
  decide (1 ≤ v) && decide (v ≤ 8) && decide (w2 / 2 ^ 40 = 0) && decide (ws.getD 3 0 = 0) &&
  decide (w2 / 2 ^ 17 % 128 = 0) &&
  (List.range v).all (fun i => decide (ws.getD (5 + 2 * i) 0 / 2 ^ 32 = 0))

/-- The issue of the selector's read of the size word, at the scheduler of the lowest cluster (R71). A descriptor that cannot be read faults the
phase with the read's own cause (DESIGN CHOICE, log 15); one that is not 64-byte aligned is read as it stands, as R70 gives no consequence (DESIGN
CHOICE, log 15). -/
def State.beginSelect (s : State) (job act : Nat) : State × List Work :=
  match s.act? job act with
  | none => (s, [])
  | some a =>
    match s.readDwords a.phase.toNat 20 with
    | .error c => s.phaseFault job act c
    | .ok ws =>
      let w2 := ws.getD 2 0
      if !descOk ws then s.phaseFault job act .phase
      else if w2 / 65536 % 2 = 0 then (s.onAct job act (fun a => { a with sizeAt := some (s.cycle + 24) }), [])
      else
        let rack := w2 % 65536
        match s.part.racks.find? rack with
        | none => s.phaseFault job act .prot
        | some r =>
          let cl := s.part.clusters.headD 0
          let lat := if cl / 9 = r.home / 9 then 6 else 20
          let op : RackOp := { apply := s.cycle + lat + s.stretchLeft (r.home / 9), serial := s.serial, fn := 2, rack := rack, port := w2 / 2 ^ 24 % 256,
                               holder := .selector, cluster := cl, tok := none, sel := some (job, act) }
          ((s.onPart (fun p => { p with rackops := p.rackops ++ [op] })).bump, [])

/-- A release of an activity falls due at DT `at` (R68): a phase with its deadline, or a skipped release. -/
def State.release (s : State) (job act at_ : Nat) : State × List Work :=
  match s.part.jobs[job]?, s.act? job act with
  | some j, some a =>
    if !j.live || a.ended || (a.limit ≠ 0 && decide (a.limit ≤ a.made)) || s.ctrHas j.counter 40 then (s, [])
    else
      let s := s.onAct job act (fun a => { a with made := a.made + 1, nextDt := a.nextDt + a.period })
      if a.live then ((s.countMiss a).setCtrBit a.phase 42, [])
      else
        let s := match s.ctr a.phase with
          | some w => s.putCtr a.phase (ctrCreate w 1)
          | none => s
        let s := s.onAct job act (fun a =>
          { a with live := true, missed := false, deadline := BitVec.ofNat 64 at_ + a.rel, selOpen := false })
        let s := s.onPart (fun p => { p with levels := p.levels ++
          [{ kind := .phase, counter := a.phase, parent := j.counter, job := job, act := act, node := none, draw := 0,
             drawHeld := 0, cancelled := false }] })
        s.beginSelect job act
  | _, _ => (s, [])

/-- The size word has arrived: the first variant whose bound fits starts, or the phase faults (R71). A phase cancelled
meanwhile starts nothing (R78). -/
def State.select (s : State) (job act size : Nat) : State × List Work :=
  match s.act? job act with
  | none => (s, [])
  | some a =>
    let s := s.onAct job act (fun a => { a with sizeAt := none, selOpen := false })
    if s.ctrHas a.phase 40 then (s, [.decr a.phase 1 false true])
    else
      match s.readDwords a.phase.toNat 20 with
      | .error c => s.phaseFault job act c
      | .ok ws =>
        let v := ws.getD 2 0 / 2 ^ 32 % 256
        match (List.range v).find? (fun i => decide (size ≤ ws.getD (4 + 2 * i) 0 % 2 ^ 32)) with
        | none => s.phaseFault job act .phase
        | some i =>
          s.startGraph (BitVec.ofNat 64 (ws.getD (4 + 2 * i) 0 / 2 ^ 32 + ws.getD (5 + 2 * i) 0 % 2 ^ 32 * 2 ^ 32)) job act

/-! ### The event table (R91, R92, R306) -/

/-- The event word of R305. -/
def EvEnt.word (e : EvEnt) : Nat :=
  e.state.toNat + min (e.waiters.length + e.overflow.length) 0xFFFF * 2 ^ 32 + e.counting.toNat * 2 ^ 48 +
    e.vec.val * 2 ^ 49 + e.notify.toNat * 2 ^ 53

/-- The oldest waiter of an event, and the event without it: the overflow list moves up. -/
def EvEnt.pop (e : EvEnt) : Option ((HeapEnt × Nat) × EvEnt) :=
  match e.waiters, e.overflow with
  | w :: rest, o :: more => some (w, { e with waiters := rest ++ [o], overflow := more })
  | w :: rest, [] => some (w, { e with waiters := rest })
  | [], o :: more => some (o, { e with overflow := more })
  | [], [] => none

/-- n waiters taken, oldest first. -/
def EvEnt.popN (e : EvEnt) : Nat → List (HeapEnt × Nat) × EvEnt
  | 0 => ([], e)
  | n + 1 =>
    match e.pop with
    | none => ([], e)
    | some (w, e) => let r := e.popN n; (w :: r.1, r.2)

/-- Released continuations enter their heaps (R80, R91). -/
def State.releaseTurns (s : State) (ws : List (HeapEnt × Nat)) : State := ws.foldl (fun s w => s.enterHeap w.2 w.1) s

/-- The state with an event's entry. -/
def State.putEvent (s : State) (name : Nat) (e : EvEnt) : State := s.onPart (fun p => { p with events := p.events.put name e })

/-- A post applied to an event (R91, R92). -/
def State.applyPost (s : State) (name : Nat) (e : EvEnt) : State :=
  if e.counting then
    match e.pop with
    | some (w, e) => (s.putEvent name e).releaseTurns [w]
    | none => s.putEvent name { e with state := if e.state = BitVec.allOnes 32 then e.state else e.state + 1 }
  else if e.state ≠ 0 then s
  else
    (s.putEvent name { e with state := 1, waiters := [], walkAt := if e.overflow.isEmpty then none else some (s.cycle + 8) }).releaseTurns
      e.waiters

/-- The releases of the activities that an event releases, for one post (R68). -/
def State.postReleases (s : State) (name : Nat) : State :=
  let acts := (s.part.jobs.mapIdx (fun j job => (job.acts.mapIdx (fun i a => (j, i, a))))).flatten
  (acts.filter (fun x => x.2.2.event == some name)).foldl (fun s x => State.runAll (s.release x.1 x.2.1 s.dt)) s

/-- A counted post at the table (R68, R91, R306): the event, the activities it releases, and its notification. -/
def State.countedPost (s : State) (name : Nat) (e : EvEnt) : State :=
  let s := (s.applyPost name e).postReleases name
  if e.notify then s.notify (.vfVector s.pid e.vec.val) else s

/-- A member of SETE applied (R306). -/
def State.applySete (s : State) (fn : Nat) (name : Nat) (e : EvEnt) (v : BitVec 32) : State :=
  match fn with
  | 0 => s.putEvent name { e with state := 0 }
  | 1 =>
    if e.counting then
      let k := min v.toNat (e.waiters.length + e.overflow.length)
      let r := e.popN k
      (s.putEvent name { r.2 with state := BitVec.ofNat 32 (v.toNat - k) }).releaseTurns r.1
    else if v = 0 then s.putEvent name { e with state := 0 }
    else
      let s := s.applyPost name e
      if e.notify then s.notify (.vfVector s.pid e.vec.val) else s
  | 2 =>
    if e.waiters.isEmpty && e.overflow.isEmpty then s.putEvent name { e with counting := v.toNat % 2 == 1, state := 0 } else s
  | 3 => s.putEvent name { e with notify := v.toNat / 16 % 2 == 1, vec := Fin.ofNat 16 (v.toNat % 16) }
  | _ => s.putEvent name { e with state := 0 }

/-- Is the overflow area full for one waiter more: chains of blocks of 7 (R92). -/
def State.overflowFull (s : State) (e : EvEnt) : Bool :=
  decide (4 ≤ e.waiters.length) && decide (e.overflow.length % 7 = 0) &&
  decide (s.part.overflowCap ≤ (s.part.events.map (fun x => (x.2.overflow.length + 6) / 7)).sum)

/-- A continuation registered as a waiter, or released at once (R91, R92). -/
def State.applyEwait (s : State) (name : Nat) (e : EvEnt) (h : HeapEnt) (cl : Nat) : State :=
  if e.state ≠ 0 then
    (s.putEvent name (if e.counting then { e with state := e.state - 1 } else e)).releaseTurns [(h, cl)]
  else if e.waiters.length < 4 then s.putEvent name { e with waiters := e.waiters ++ [(h, cl)] }
  else s.putEvent name { e with overflow := e.overflow ++ [(h, cl)] }

/-- Does a context hold the turn of a number. -/
def Context.holds (c : Context) (id : BitVec 48) : Bool :=
  match c.turn with
  | some t => t.id == id
  | none => false

/-- A pending token of a context changed. -/
def Context.onTok (c : Context) (k : Fin 8) (f : TokPend → TokPend) : Context :=
  match c.tok[k] with
  | some p => { c with tok := c.tok.set k (some (f p)) }
  | none => c

/-- The pending token of a turn changed: in the context of the partition's cores or images that holds it, or in its saved context in a heap
(R19). -/
def State.onTok (s : State) (t : BitVec 48 × Fin 8) (f : TokPend → TokPend) : State :=
  let g := fun (c : Context) => if c.holds t.1 then c.onTok t.2 f else c
  match List.find? (fun (e : Nat × Nat) => (s.coreOf e.1).a.holds t.1 || (s.coreOf e.1).b.holds t.1) s.part.cores with
  | some e => let b := s.coreOf e.1; s.putCoreOf e.1 { b with a := g b.a, b := g b.b }
  | none =>
    let h := fun (l : List HeapEnt) => l.map (fun e => if e.turn.id = t.1 then { e with saved := e.saved.map (fun c => c.onTok t.2 f) } else e)
    s.onPart (fun p => { p with scheds := p.scheds.map (fun e => (e.1, { e.2 with heap := h e.2.heap, spill := h e.2.spill, bgq := h e.2.bgq })) })

/-- The values a pending token will deliver, known now. -/
def State.answerTok (s : State) (t : Option (BitVec 48 × Fin 8)) (v w : Word) : State :=
  match t with
  | some t => s.onTok t (fun p => { p with done := some (v, w) })
  | none => s

/-- The fault a pending token will settle with. -/
def State.faultTok (s : State) (t : Option (BitVec 48 × Fin 8)) (c : Cause) (va : Word) : State :=
  match t with
  | some t => s.onTok t (fun p => { p with done := some (0, 0), fault := some (c, va) })
  | none => s

/-- The names of a job are live no more (R66). -/
def State.freeNames (s : State) (job : Nat) : State := s.onPart (fun p => { p with events := p.events.filter (fun e => !(e.2.job == job)) })

/-- An operation applied at the event table (R91): a name that is not live faults with PROT. -/
def State.applyEvOp (s : State) (o : EvOp) : State :=
  match o.kind, s.part.events.find? o.name with
  | .free job, _ => s.freeNames job
  | _, none => s.faultTok o.tok .prot 0
  | k, some e =>
    match k with
    | .free job => s.freeNames job
    | .post => (s.countedPost o.name e).answerTok o.tok 0 0
    | .test => s.answerTok o.tok (BitVec.ofNat 64 e.word) 0
    | .sete fn v => (s.applySete fn o.name e v).answerTok o.tok (BitVec.ofNat 64 e.word) 0

/-! ### Cancellation (R78, R93, R94) -/

/-- Is a launch at or beneath a counter. -/
def State.isUnder (s : State) (top a : Word) : Bool := (levelsUnder s.part.levels top).any (fun l => l.counter == a)

/-- The nodes of a graph that have not started are counted off its counter (R78). -/
def State.countOff (s : State) (g : Word) : State × List Work :=
  match s.readVa (g.toNat + 8) 8, s.readVa (g.toNat + 16) 8 with
  | .ok h, .ok table =>
    let n := ((List.range (h % 65536)).filter (fun i =>
      match s.readVa (table + 32 * i + 24) 8 with
      | .ok w => decide (w ≠ 0)
      | .error _ => false)).length
    (s, if n = 0 then [] else [.decr g n false true])
  | _, _ => (s, [])

/-- A cancel linearised at a level's counter, and its walk down the live levels beneath it (R78, R93, R94). A level that
is no live level of that kind is untouched. -/
def State.cancelLevel (s : State) (a : Word) (kind : LevelKind) : State :=
  match s.level? a with
  | none => s
  | some l =>
    if l.kind ≠ kind ∨ l.cancelled then s
    else
      let under := levelsUnder s.part.levels a
      let graphs := under.filter (fun l => l.kind == .graph && !l.cancelled)
      let s := under.foldl (fun s l => (s.setCtrBit l.counter 40).onLevel l.counter (fun l => { l with cancelled := true })) s
      let s := graphs.foldl (fun s l => State.runAll (s.countOff l.counter)) s
      let s := s.onPart (fun p => { p with casts := p.casts ++ [(s.cycle, a)] })
      if kind = .job then
        -- a cancelled job makes no further releases: activities without a live phase end at once
        (((s.part.jobs[l.job]?).map (fun j => j.acts.length)).getD 0 |> List.range).foldl
          (fun s i => State.runAll (s.actDone l.job i)) s
      else s

end Sys2Proof.Machine
end

