-- ==== Sys2Proof/Machine/Couple.lean ====
section
/-! DEFINITION. The couplings between the streams of a context: token channels, vector queues, the range checker and
what a FENCE waits for (R153 to R156, R160, R146, R273). -/

namespace Sys2Proof.Machine

/-! ### Token channels (R155) -/

/-- The channel from one stream to another, by the codes 0 C, 1 T, 2 M, 3 V. -/
def chanIx (src dst : Nat) : Fin 12 := Fin.ofNat 12 (src * 3 + (if dst < src then dst else dst - 1))

/-- May a token of a channel be popped now: it was pushed in an earlier cycle. -/
def Context.tokenReady (c : Context) (i : Fin 12) (now : Nat) : Bool :=
  match c.chans[i] with
  | t :: _ => decide (t.made < now)
  | [] => false

/-- Has a channel room for a token. -/
def Context.tokenRoom (c : Context) (i : Fin 12) : Bool := decide (c.chans[i].length < 16)

/-- The oldest token of a channel popped. -/
def Context.popToken (c : Context) (i : Fin 12) : Context := { c with chans := c.chans.set i (c.chans[i].drop 1) }

/-- A popped token returned to its channel (R323). -/
def Context.unpopToken (c : Context) (i : Fin 12) : Context := { c with chans := c.chans.set i ({ made := 0, know := c.ts.know } :: c.chans[i]) }

/-- What is before a word of either kind: of two bounds the later (R145). -/
def Know.join (a b : Know) : Know := { c := max a.c b.c, t := max a.t b.t, m := max a.m b.m }

/-- Nothing is before a word but what its own stream has done. -/
def Know.none : Know := { c := 0, t := 0, m := 0 }

/-- What is before what follows a stream's word of a creation number: the word too (R145). -/
def Context.knowAt (c : Context) (st : Strm) (serial : Nat) : Know :=
  match st with
  | .c => { c.cs.know with c := serial }
  | .t => { c.ts.know with t := serial }
  | .m => { c.ms.know with m := serial }
  | .v => c.vs.know

/-- A token pushed into a channel in cycle now, and what is before it. -/
def Context.pushToken (c : Context) (i : Fin 12) (now : Nat) (know : Know) : Context :=
  { c with chans := c.chans.set i (c.chans[i] ++ [{ made := now, know := know }]) }

/-- The context in which what is before a stream's words has grown (R145). -/
def Context.learn (c : Context) (st : Strm) (know : Know) : Context :=
  c.onStrm st (fun r => { r with know := r.know.join know })

/-- The left and right partners of an engine stream (R155). -/
def leftOf : Strm → Nat
  | .t => 2
  | .m => 1
  | .v => 1
  | .c => 0

/-- The right partner. -/
def rightOf : Strm → Nat
  | .t => 3
  | .m => 3
  | .v => 2
  | .c => 0

/-- The channel that a sync code awaits. -/
def awaitOf (st : Strm) (sync : Fin 8) : Option (Fin 12) :=
  match sync.val with
  | 1 => some (chanIx (leftOf st) (strmCode st))
  | 5 => some (chanIx (leftOf st) (strmCode st))
  | 2 => some (chanIx (rightOf st) (strmCode st))
  | 6 => some (chanIx (rightOf st) (strmCode st))
  | 7 => some (chanIx 0 (strmCode st))
  | _ => none

/-- The channel that a sync code posts to. -/
def postOf (st : Strm) (sync : Fin 8) : Option (Fin 12) :=
  match sync.val with
  | 3 => some (chanIx (strmCode st) (leftOf st))
  | 6 => some (chanIx (strmCode st) (leftOf st))
  | 4 => some (chanIx (strmCode st) (rightOf st))
  | 5 => some (chanIx (strmCode st) (rightOf st))
  | _ => none

/-- Has the channel that a sync code posts to room. -/
def Context.postRoom (c : Context) (st : Strm) (sync : Fin 8) : Bool :=
  match postOf st sync with
  | some i => c.tokenRoom i
  | none => true

/-- The post of a sync code made, after the words of its stream below a creation number. -/
def Context.post (c : Context) (st : Strm) (sync : Fin 8) (now serial : Nat) : Context :=
  match postOf st sync with
  | some i => c.pushToken i now (c.knowAt st serial)
  | none => c

/-- A word's await: none when it must wait, else the context with the token popped once (R156). -/
def Context.await (c : Context) (st : Strm) (sync : Fin 8) (now : Nat) : Option Context :=
  match awaitOf st sync with
  | none => some c
  | some i =>
    if (c.strm st).awaited.isSome then some c
    else if c.tokenReady i now then 
      some (((c.popToken i).onStrm st (fun r => { r with awaited := some i })).learn st ((c.chans[i].headD { made := 0, know := Know.none }).know))
    else none

/-! ### Vector queues (R153, R154, R273) -/

/-- Why a queue does not serve a word. -/
inductive QFail where
  | wait
  | fault (c : Cause)
deriving DecidableEq, Repr

/-- The code of a stream that uses queues: 0 C, 1 T, 2 V; 3 for M, which uses none. -/
def queueCode : Strm → Fin 4
  | .c => 0
  | .t => 1
  | .v => 2
  | .m => 3

/-- The producer and the consumer of a queue for a word that issues in a cycle: a QBIND holds from the cycle after it (R298). -/
def Queue.binding (r : Queue) (now : Nat) : Fin 4 × Fin 4 := if now < r.since then r.was else (r.prod, r.cons)

/-- The first n entries of a queue as a consuming stream sees them in cycle now, or why it must wait or trap. -/
def Context.headQ (c : Context) (now : Nat) (st : Strm) (q : Fin 16) (n : Nat) : Except QFail (List QEnt) :=
  let r := c.q[q]
  let (prod, cons) := r.binding now
  if cons ≠ queueCode st ∨ cons = 3 then .error (.fault .illegal)
  else
    let seen := if prod = cons then r.ents else r.ents.filter (fun e => decide (e.pushed < now))
    if seen.length < n then .error (if prod = cons then .fault .qunder else .wait)
    else if (seen.take n).any (fun e => e.data.isNone) then .error .wait
    else if (seen.take n).any (fun e => e.bad) then .error (.fault .memerr)
    else .ok (seen.take n)

/-- n entries popped from a queue. -/
def Context.popQ (c : Context) (now : Nat) (st : Strm) (q : Fin 16) (n : Nat) : Except QFail (List QEnt × Context) :=
  match c.headQ now st q n with
  | .error e => .error e
  | .ok es =>
    let r := c.q[q]
    let k := { r with ents := r.ents.drop n, popCycle := now,
                      popCount := (if r.popCycle = now then r.popCount else 0) + n }
    .ok (es, ({ c with q := c.q.set q k }).learn st (es.foldl (fun (m : Know) (e : QEnt) => m.join e.know) Know.none))

/-- Room for a push into a queue by a producing stream in cycle now, or why it must wait or trap. -/
def Context.roomQ (c : Context) (now : Nat) (st : Strm) (q : Fin 16) : Except QFail Unit :=
  let r := c.q[q]
  let (prod, cons) := r.binding now
  if prod ≠ queueCode st ∨ prod = 3 then .error (.fault .illegal)
  else
    let held := r.ents.length + (if prod ≠ cons ∧ r.popCycle = now then r.popCount else 0)
    if 4 ≤ held then .error (if prod = cons then .fault .qover else .wait) else .ok ()

/-- A place in a queue taken by a push that issues now and lands later (R273); what its stream has made below the number `before` is before it. -/
def Context.reserveQ (c : Context) (now : Nat) (q : Fin 16) (serial before : Nat) : Context :=
  let r := c.q[q]
  let know := if (r.binding now).1 = 0 then c.knowAt .c before else if (r.binding now).1 = 1 then c.knowAt .t before else c.knowAt .v before
  { c with q := c.q.set q { r with ents := r.ents ++ [{ serial := serial, know := know, pushed := now, data := none }] } }

/-- The entry of a push that has landed. -/
def Context.landQ (c : Context) (q : Fin 16) (serial : Nat) (v : QEntry) : Context :=
  let es := c.q[q].ents.map (fun e => if e.serial = serial then { e with data := some (e.data.getD v) } else e)
  { c with q := c.q.set q { c.q[q] with ents := es } }

/-- The place of a withdrawn push given up (R323). -/
def Context.unpushQ (c : Context) (q : Fin 16) (serial : Nat) : Context :=
  { c with q := c.q.set q { c.q[q] with ents := c.q[q].ents.filter (fun e => !(e.serial == serial)) } }

/-- A popped entry returned to the head of its queue (R323). -/
def Context.unpopQ (c : Context) (q : Fin 16) (e : QEnt) : Context :=
  { c with q := c.q.set q { c.q[q] with ents := e :: c.q[q].ents } }

/-- No entry: what a list that holds one never gives. -/
def QEnt.absent : QEnt := { serial := 0, know := Know.none, pushed := 0, data := none }

/-- The bits of an entry that has landed. -/
def QEnt.bits (e : QEnt) : QEntry := e.data.getD 0

/-- Lane i of w bits of an entry (R153). -/
def laneOf (e : QEntry) (w i : Nat) : Nat := e.toNat / 2 ^ (w * i) % 2 ^ w

/-- An entry from its lanes of w bits, lane 0 first. -/
def entryOf (w : Nat) (ls : List Nat) : QEntry :=
  BitVec.ofNat 2048 (ls.foldr (fun v acc => v % 2 ^ w + 2 ^ w * acc) 0)

/-- A wait at issue for a queue, or the trap its check raises, at an engine word. -/
def State.queueFail (s : State) (st : Strm) (q : Fin 16) : QFail → State
  | .wait => s.waitIn st (.queue q)
  | .fault c => s.faultAt st c 0

/-! ### The range checker (R160) -/

/-- From the lowest to the highest byte that m rows of len bytes, the first at base and stride bytes from one to the next, touch between lo and
hi: the lowest address and the one after the highest. -/
def rowsWithin (base stride : Int) (m len lo hi : Nat) : Option (Nat × Nat) :=
  if m = 0 ∨ len = 0 then none
  else
    let b := if stride < 0 then base + ((m : Int) - 1) * stride else base
    let t := (stride.natAbs : Int)
    let r0 := if t = 0 then 0 else max 0 (((lo : Int) - len - b) / t + 1)
    let r1 := if t = 0 then 0 else min ((m : Int) - 1) (((hi : Int) - 1 - b) / t)
    if r0 ≤ r1 ∧ (lo : Int) < b + r0 * t + len ∧ b + r1 * t < hi then
      some (max lo (b + r0 * t).toNat, min hi (b + r1 * t + len).toNat)
    else none

/-- The least range that holds two. -/
def hull : Option (Nat × Nat) → Option (Nat × Nat) → Option (Nat × Nat)
  | none, r => r
  | r, none => r
  | some a, some b => some (min a.1 b.1, max a.2 b.2)

/-- The window address of the first byte of the focused core's own position (R118). -/
def State.ownBase (s : State) : Nat := 0x000FFFFFFF000000 + positionOf s.site * 2 ^ 22

/-- The bytes of the focused context's own share, counted from its first, that some rows of bytes touch: of n rows the last is last bytes long
(R160). -/
def State.ownRows (s : State) (base stride : Int) (n len last : Nat) : Option (Nat × Nat) :=
  let lo := s.ownBase
  (hull (rowsWithin base stride (n - 1) len lo (lo + 2 ^ 22))
    (rowsWithin (base + ((n : Int) - 1) * stride) 0 (min n 1) last lo (lo + 2 ^ 22))).map (fun r => (r.1 - lo, r.2 - lo))

/-- The bytes of the focused context's own share that a range of addresses touches. -/
def State.ownRange (s : State) (lo hi : Nat) : Option (Nat × Nat) := s.ownRows lo 0 1 (hi - lo) (hi - lo)

/-- The tracked operation that a new range conflicts with: overlapping, one writes, and neither before the other.
Words of one stream are ordered; a pawn in flight is before nothing (R145). -/
def Context.conflict (c : Context) (st : Strm) (pawn : Bool) (lo hi : Nat) (writes : Bool) : Option RangeOp :=
  c.ranges.find? (fun r =>
    decide (r.lo < hi) && decide (lo < r.hi) && (r.writes || writes) && !(r.pawn.isNone && !pawn && r.st == st))

/-- Is the range checker full for one operation more. -/
def Context.rangesFull (c : Context) : Bool := decide (32 ≤ (c.ranges.map (fun r => r.serial)).eraseDups.length)

/-- Ranges of an operation entered: own ranges only, as (low, high, writes). -/
def State.checkRanges (s : State) (st : Strm) (pawn : Bool) : List (Nat × Nat × Bool) → Except (Option RangeOp) Unit
  | [] => .ok ()
  | (lo, hi, w) :: rest =>
    if s.ctx.rangesFull then .error none
    else
      match s.ctx.conflict st pawn lo hi w with
      | some r => .error (some r)
      | none => s.checkRanges st pawn rest

/-- The tracked ranges of an operation in flight. -/
def State.addRanges (s : State) (st : Strm) (serial : Nat) (pawn : Option Nat) (rs : List (Nat × Nat × Bool)) : State :=
  let mk := fun (pc : Word) (r : Nat × Nat × Bool) =>
    ({ serial := serial, lo := r.1, hi := r.2.1, writes := r.2.2, pc := pc, st := st, pawn := pawn } : RangeOp)
  s.onCtx (fun c => { c with ranges := c.ranges ++ rs.map (mk (c.strm st).pc) })

/-- The state without the ranges of an operation. -/
def State.dropRanges (s : State) (serial : Nat) : State :=
  s.onCtx (fun c => { c with ranges := c.ranges.filter (fun r => !(r.serial == serial)) })

/-- OVERLAP at an engine word (R160): the trap state names both words. -/
def State.overlapAt (s : State) (st : Strm) (r : RangeOp) (va frec : Word) : State :=
  s.faultEngine st .overlap va frec none r.pc r.st

/-! ### Fences (R146, R147) -/

/-- The path mask bits of a token's operation: loads and stores C, counter atomics S, rack operations K; a TLRW reads its image on C and writes its
record on L (R141, R320). -/
def TokOp.paths : TokOp → List Nat
  | .load .. => [0]
  | .store .. => [0]
  | .join .. => [3]
  | .spawn .. => [3]
  | .launch .. => [3]
  | .cancel .. => [3]
  | .rack .. => [4]
  | .tlrw .. => [0, 5]
  | .record .. => [5]
  | _ => []

/-- The path mask bit of an uncommitted T word's accesses. -/
def TOp.path : TOp → Option Nat
  | .ldq .. => some 1
  | .stq .. => some 1
  | .sacc .. => some 3
  | .scas .. => some 3
  | _ => none

/-- The chips within a scope (R44, R46): scope 4 is this package; this chip is always within. -/
def State.scopeChips (s : State) (scope : Nat) : Word :=
  let own := BitVec.ofNat 64 (2 ^ s.chip.toNat)
  if scope < 5 then own else own ||| s.smask.toList.getD (scope - 5) 0

/-- The chips whose acknowledgements a FENCE of a scope waits for: those of its mask as it issues, at scopes 5 to 7; at the others its accesses
are to be performed wherever they go (R46). -/
def State.fenceChips (s : State) (scope : Nat) : Word := if scope < 5 then BitVec.allOnes 64 else s.scopeChips scope

/-- Does a fence for some chips wait for an access to a key: a write wherever it goes, since it is performed at no scope before its home has performed
it (R143); a read from this package, or from a chip of them (R46). -/
def keyAwaited (chips : Word) (writes : Bool) (key : Nat) : Bool :=
  writes ||
  (if 2 ^ 57 ≤ key ∧ key < 2 ^ 59 then chips.getLsbD ((key - 2 ^ 57) / 2 ^ 52)
   else if 2 ^ 60 ≤ key then chips.getLsbD ((key - 2 ^ 60) / 2 ^ 52)
   else true)

/-- Does an operation write memory or a record. -/
def TokOp.writes : TokOp → Bool
  | .load .. => false
  | .tlrw .. => false
  | _ => true

/-- Does a fence for some chips wait for a pending token's access: one whose place is not known yet counts. -/
def TokPend.awaited (t : TokPend) (chips : Word) : Bool :=
  match t.tr with
  | some p => keyAwaited chips t.op.writes p.key
  | none => true

/-- The 64-byte lines that an uncommitted T word touches, with their places. -/
def TOp.lines : TOp → List (Nat × Place)
  | .ldq _ _ _ ls => ls
  | .stq _ _ _ ls => ls
  | .sacc _ _ _ _ ls => ls
  | .scas _ _ _ _ ls => ls
  | _ => []

/-- Does an uncommitted T word write memory. -/
def TOp.writesMem : TOp → Bool
  | .ldq .. => false
  | _ => true

/-- Has the T stream an access that is not performed (R105). -/
def Context.twinOpen (c : Context) : Bool := c.twin.any (fun e => e.op.path.isSome)

/-- Is an access of a masked path that is before a word of a stream (R145) not yet performed at some chips (R46, R143). The C stream's accesses are
pending as wait tokens, the T stream's in its window, until they are performed. A faulted access counts as performed (R146). -/
def State.pendingOn (s : State) (st : Strm) (mask : Nat) (serial : Nat) (chips : Word) : Bool :=
  let on := fun (n : Nat) => mask / 2 ^ n % 2 == 1
  let know := s.ctx.knowAt st serial
  s.ctx.tok.toList.any (fun t => match t with
    | some t => t.op.paths.any on && t.fault.isNone && decide (t.serial < know.c) && t.awaited chips
    | none => false) ||
  s.ctx.twin.any (fun e =>
    e.op.path.toList.any on && decide (e.serial < know.t) &&
    (e.op.lines.isEmpty || e.op.lines.any (fun l => keyAwaited chips e.op.writesMem l.2.key)))

end Sys2Proof.Machine
end

