-- ==== Sys2Proof/Machine/Operands.lean ====
section
/-! DEFINITION. Operand forms: the walk of a layout record, the format each page gives its elements, and the elements of
such a walk read and written (R124 to R129, R324 to R326, spec/17_transfer.md). -/

namespace Sys2Proof.Machine

/-! ### Layout records (R129) -/

/-- The record that a 32-byte image holds, as four little-endian words. -/
def LyRec.ofWords (w0 w1 w2 w3 : Nat) : LyRec :=
  { rows := BitVec.ofNat 32 w0, cols := BitVec.ofNat 32 (w0 / 2 ^ 32), rstride := BitVec.ofNat 64 w1,
    swz := BitVec.ofNat 8 w2, efmt := BitVec.ofNat 4 (w2 / 256), lfmt := BitVec.ofNat 4 (w2 / 4096),
    scale := BitVec.ofNat 64 w3 }

/-- Does a 32-byte image keep the rules of R129. -/
def lyImageOk (w1 w2 w3 : Nat) : Bool :=
  let swz := w2 % 256
  decide (swz ≤ 2) && decide (w2 / 65536 = 0) && decide (w3 % 64 = 0) &&
  decide (w1 % (if swz = 1 then 512 else if swz = 2 then 2048 else 64) = 0) &&
  decide (w2 / 256 % 16 < 14) && decide (w2 / 4096 % 16 < 14)

/-- Is a lane format one that queue entries can hold: not RAW, not of blocks (R326). -/
def laneFmtOk (f : Nat) : Bool := f != 0 && !isBlockFmt f && decide (f < 14)

/-! ### The format of a place (R124, R324) -/

/-- The format and block geometry of a scratchpad or RAW place: those of EFMT (R324). -/
def LyRec.ownFmt (ly : LyRec) : Nat × Nat :=
  let f := ly.efmt.toNat
  (f, if isBlockFmt f then (if ly.scale = 0 then 1 else 2) else 0)

/-- The effective format and geometry of an element that a leaf places. -/
def LyRec.fmtAt (ly : LyRec) (leaf : Option Leaf) : Nat × Nat :=
  match leaf with
  | none => ly.ownFmt
  | some l => if l.fmt = 0 then ly.ownFmt else (l.fmt, l.geom)

/-- Does the expected format conflict with a page's (R128). -/
def fmtConflict (efmt : Nat) (leaf : Option Leaf) : Bool :=
  match leaf with
  | none => false
  | some l => efmt != 0 && l.fmt != 0 && l.fmt != efmt

/-! ### The walk (R325) -/

/-- A walk: base, record, the effective format and geometry of the base's place, and the element width in bits. -/
structure Walking where
  base : Nat
  ly : LyRec
  fmt : Nat
  geom : Nat
  bits : Nat
deriving DecidableEq, Repr

/-- The width of an element: the format's, or, for RAW, the width the instruction gives. -/
def elemWidth (fmt raw : Nat) : Nat := if fmt = 0 then raw else fmtBits fmt

/-- The walk of a record from a base whose place has this leaf; `raw` is the width of RAW elements. -/
def LyRec.walkAt (ly : LyRec) (base : Nat) (leaf : Option Leaf) (raw : Nat) : Walking :=
  let f := ly.fmtAt leaf
  { base := base, ly := ly, fmt := f.1, geom := f.2, bits := elemWidth f.1 raw }

/-- The bytes of a geometry-1 block: 33 or 17 (R126). -/
def Walking.blockBytes (w : Walking) : Nat := 4 * w.bits + 1

/-- The row length in bytes. -/
def Walking.rowLen (w : Walking) : Nat :=
  let cols := w.ly.cols.toNat
  if w.geom = 1 then cols / 32 * w.blockBytes else cols * w.bits / 8

/-- The chunk index k of row r after the swizzle. -/
def swizzle (swz : BitVec 8) (k r : Nat) : Nat :=
  match swz.toNat with
  | 1 => k / 8 * 8 + (BitVec.ofNat 3 k ^^^ BitVec.ofNat 3 r).toNat
  | 2 => k / 32 * 32 + (BitVec.ofNat 5 k ^^^ BitVec.ofNat 5 r).toNat
  | _ => k

/-- The address of offset o of row r of a record's walk. -/
def LyRec.rowByte (ly : LyRec) (base r o : Nat) : Nat :=
  (base + r * ly.rstride.toNat + 64 * swizzle ly.swz (o / 64) r + o % 64) % 2 ^ 64

/-- The address of offset o of row r. -/
def Walking.rowByte (w : Walking) (r o : Nat) : Nat := w.ly.rowByte w.base r o

/-- The row offset of the first byte of element c, and the bit in it where the element starts. -/
def Walking.elemOff (w : Walking) (c : Nat) : Nat × Nat :=
  if w.geom = 1 then (c / 32 * w.blockBytes + 1 + c % 32 * w.bits / 8, c % 32 * w.bits % 8)
  else (c * w.bits / 8, c * w.bits % 8)

/-- The addresses of the bytes of element (r, c), lowest first. -/
def Walking.elemBytes (w : Walking) (r c : Nat) : List Nat :=
  (List.range ((w.bits + 7) / 8)).map (fun i => w.rowByte r ((w.elemOff c).1 + i))

/-- The address of the scale byte of block k of row r, for a block format. -/
def Walking.scaleByte (w : Walking) (r k : Nat) : Nat :=
  if w.geom = 1 then w.rowByte r (k * w.blockBytes)
  else (w.ly.scale.toNat + r * (w.ly.cols.toNat / 32) + k) % 2 ^ 64

/-- The addresses of all bytes of block k of row r, the scale byte first. -/
def Walking.blockAddrs (w : Walking) (r k : Nat) : List Nat :=
  w.scaleByte r k :: (List.range (4 * w.bits)).map (fun i =>
    w.rowByte r ((if w.geom = 1 then k * w.blockBytes + 1 else k * 4 * w.bits) + i))

/-- Row and column of element i in walk order. -/
def Walking.rc (w : Walking) (i : Nat) : Nat × Nat := (i / w.ly.cols.toNat, i % w.ly.cols.toNat)

/-- The number of elements a word of L lanes covers. -/
def Walking.covered (w : Walking) (lanes : Nat) : Nat := min lanes (w.ly.rows.toNat * w.ly.cols.toNat)

/-- The addresses that elements 0 to n - 1 of a walk touch, in walk order; a block format touches whole blocks. -/
def Walking.addrs (w : Walking) (n : Nat) : List Nat :=
  if w.geom = 0 then (List.range n).flatMap (fun i => w.elemBytes (w.rc i).1 (w.rc i).2)
  else ((List.range n).map (fun i => ((w.rc i).1, (w.rc i).2 / 32))).eraseDups.flatMap (fun b => w.blockAddrs b.1 b.2)

/-- The 64-byte lines of a list of addresses, each once, in order. -/
def linesOf (as : List Nat) : List Nat := (as.map (fun a => a / 64 * 64)).eraseDups

/-- The pieces of an access to whole lines. -/
def linePieces (ls : List Nat) : List (Nat × Nat) := ls.map (fun l => (l, 64))

/-- The place of an address whose line is resolved. -/
def placeIn (lines : List (Nat × Place)) (a : Nat) : Option Place :=
  (lines.find? (fun l => decide (l.1 = a / 64 * 64))).map (fun l => { l.2 with key := l.2.key + a % 64 })

/-- The leaf of an address whose line is resolved. -/
def leafIn (lines : List (Nat × Place)) (a : Nat) : Option Leaf :=
  match placeIn lines a with
  | some p => p.leaf
  | none => none

/-! ### Format checks of a walk (R126, R128, R325) -/

/-- Does a block of n bytes that a leaf's page holds start where the page's packing puts blocks of that size. -/
def packingOk (leaf : Option Leaf) (a size : Nat) : Bool :=
  match leaf with
  | none => true
  | some l => decide (a % l.size % size = 0) && decide (a % l.size + size ≤ l.size)

/-- The FORMAT checks of one element of a walk, at the place its line has. -/
def Walking.elemOk (w : Walking) (lines : List (Nat × Place)) (strict : Bool) (raw : Nat) (r c : Nat) : Bool :=
  let a := (w.elemBytes r c).headD 0
  let leaf := leafIn lines a
  let f := w.ly.fmtAt leaf
  let start := w.rowByte r (c / 32 * (if w.geom = 1 then w.blockBytes else 4 * w.bits))
  decide (elemWidth f.1 raw = w.bits) && decide (f.2 = w.geom) && !(strict && fmtConflict w.ly.efmt.toNat leaf) &&
  (decide (w.geom = 0) || packingOk leaf start (if w.geom = 1 then w.blockBytes else 4 * w.bits))

/-- The FORMAT checks of elements 0 to n - 1: a block walk needs COLS a multiple of 32, geometry 2 a scale region. -/
def Walking.formatOk (w : Walking) (lines : List (Nat × Place)) (strict : Bool) (raw n : Nat) : Bool :=
  (decide (w.geom = 0) || decide (w.ly.cols.toNat % 32 = 0)) && (decide (w.geom ≠ 2) || decide (w.ly.scale ≠ 0)) &&
  (List.range n).all (fun i => w.elemOk lines strict raw (w.rc i).1 (w.rc i).2)

/-! ### Bytes and elements -/

/-- Who accesses memory: a path of the focused context (R141), and the creation number of its T word or pawn. -/
structure Via where
  path : Nat
  serial : Nat
deriving DecidableEq, Repr

/-- The byte that an access of the focused context reads at a resolved address. -/
def State.byteIn (s : State) (via : Via) (lines : List (Nat × Place)) (a : Nat) : Nat :=
  match placeIn lines a with
  | some p => ((s.readFor via.path via.serial p 1).headD 0).toNat
  | none => 0

/-- A number from the bytes at resolved addresses, lowest first. -/
def State.numIn (s : State) (via : Via) (lines : List (Nat × Place)) : List Nat → Nat
  | [] => 0
  | a :: rest => s.byteIn via lines a + 256 * s.numIn via lines rest

/-- The pattern of element (r, c). -/
def State.elemIn (s : State) (via : Via) (w : Walking) (lines : List (Nat × Place)) (r c : Nat) : Nat :=
  s.numIn via lines (w.elemBytes r c) / 2 ^ (w.elemOff c).2 % 2 ^ w.bits

/-- The 32 exact values of block k of row r. -/
def State.blockIn (s : State) (via : Via) (w : Walking) (lines : List (Nat × Place)) (fmt r k : Nat) : List (Val × BitVec 8) :=
  blockVals fmt (s.byteIn via lines (w.scaleByte r k)) ((List.range 32).map (fun i => s.elemIn via w lines r (32 * k + i)))

/-- The exact value of element (r, c) by the format of its place, with the flags of reading it. -/
def State.valueIn (s : State) (via : Via) (w : Walking) (lines : List (Nat × Place)) (r c : Nat) : Val × BitVec 8 :=
  let f := (w.ly.fmtAt (leafIn lines ((w.elemBytes r c).headD 0))).1
  if w.geom = 0 then elemVal f (s.elemIn via w lines r c)
  else (s.blockIn via w lines f r (c / 32)).getD (c % 32) (.fin false 0 0, 0)

/-- Does a read of resolved lines meet a word in uncorrectable error: the first such line. -/
def State.badLine (s : State) (lines : List (Nat × Place)) : Option Nat :=
  (lines.find? (fun l => s.readBad l.2.key 64)).map (fun l => l.1)

/-- Bytes written at resolved addresses by an access of the focused context. -/
def State.writeIn (s : State) (via : Via) (lines : List (Nat × Place)) (bs : List (Nat × Nat)) : State :=
  bs.foldl (fun s b =>
    match placeIn lines b.1 with
    | some p => s.writePlace via.path via.serial p [BitVec.ofNat 8 b.2]
    | none => s) s

/-- The bytes that put a pattern into element (r, c) of a format without blocks. -/
def Walking.elemWrites (w : Walking) (r c v : Nat) : List (Nat × Nat) :=
  (w.elemBytes r c).mapIdx (fun i a => (a, v / 256 ^ i % 256))

/-- The bytes of block k of row r: scale byte, and the elements packed (R215). -/
def Walking.blockWrites (w : Walking) (r k scale : Nat) (els : List Nat) : List (Nat × Nat) :=
  let packed := els.foldr (fun v acc => v % 2 ^ w.bits + 2 ^ w.bits * acc) 0
  (w.blockAddrs r k).mapIdx (fun i a => (a, if i = 0 then scale else packed / 256 ^ (i - 1) % 256))

/-! ### Queue loads and stores (R127, R326) -/

/-- The lanes of a queue load: n covered elements of L lanes converted into the lane format, the others 0 (R225); the bytes
of a RAW page with EFMT 0 as they stand. -/
def State.loadLanes (s : State) (via : Via) (w : Walking) (lines : List (Nat × Place)) (lanes : Nat) : List Nat × BitVec 8 :=
  let lf := w.ly.lfmt.toNat
  let n := w.covered lanes
  let blocks := if w.geom = 0 then [] else
    ((List.range n).map (fun i => ((w.rc i).1, (w.rc i).2 / 32))).eraseDups.map (fun b =>
      (b, s.blockIn via w lines (w.ly.fmtAt (leafIn lines ((w.elemBytes b.1 (32 * b.2)).headD 0))).1 b.1 b.2))
  (List.range lanes).foldl (fun acc i =>
    if n ≤ i then (acc.1 ++ [0], acc.2)
    else
      let rc := w.rc i
      let f := (w.ly.fmtAt (leafIn lines ((w.elemBytes rc.1 rc.2).headD 0))).1
      if w.geom = 0 then
        let v := s.elemIn via w lines rc.1 rc.2
        if f = 0 then (acc.1 ++ [v], acc.2)
        else
          let r := convertElem f lf .rne true v
          (acc.1 ++ [r.1], acc.2 ||| r.2)
      else
        let v := (((blocks.find? (fun b => b.1 == (rc.1, rc.2 / 32))).map (fun b => b.2)).getD []).getD (rc.2 % 32) (.fin false 0 0, 0)
        let r := encodeElem lf .rne true v.1
        (acc.1 ++ [r.1], acc.2 ||| v.2 ||| r.2)) ([], 0)

/-- The bytes of a queue store of lanes of the lane format: converted into the page's format; a block format encodes every
block the covered elements touch, uncovered elements as zeros (R227, R326). -/
def storeLanes (w : Walking) (lines : List (Nat × Place)) (lanes : List Nat) : List (Nat × Nat) × BitVec 8 :=
  let lf := w.ly.lfmt.toNat
  let n := w.covered lanes.length
  if w.geom = 0 then
    (List.range n).foldl (fun acc i =>
      let rc := w.rc i
      let f := (w.ly.fmtAt (leafIn lines ((w.elemBytes rc.1 rc.2).headD 0))).1
      let v := lanes.getD i 0
      if f = 0 then (acc.1 ++ w.elemWrites rc.1 rc.2 v, acc.2)
      else
        let r := convertElem lf f .rne true v
        (acc.1 ++ w.elemWrites rc.1 rc.2 r.1, acc.2 ||| r.2)) ([], 0)
  else
    (((List.range n).map (fun i => ((w.rc i).1, (w.rc i).2 / 32))).eraseDups).foldl (fun acc b =>
      let f := (w.ly.fmtAt (leafIn lines ((w.elemBytes b.1 (32 * b.2)).headD 0))).1
      let vs := (List.range 32).map (fun j =>
        let i := b.1 * w.ly.cols.toNat + 32 * b.2 + j
        if i < n then elemVal lf (lanes.getD i 0) else (.fin false 0 0, 0))
      let e := encodeBlock f .rne true (vs.map (fun v => v.1))
      (acc.1 ++ w.blockWrites b.1 b.2 e.1 e.2.1, acc.2 ||| e.2.2 ||| vs.foldl (fun fl v => fl ||| v.2) 0)) ([], 0)

/-! ### The range of a walk (R160) -/

/-- The lowest and highest byte offsets that rows of a walk cover, swizzled rows counting whole groups of 8 or 32 chunks. -/
def LyRec.rowSpan (ly : LyRec) (rowLen : Nat) : Nat :=
  match ly.swz.toNat with
  | 1 => (rowLen + 511) / 512 * 512
  | 2 => (rowLen + 2047) / 2048 * 2048
  | _ => rowLen

/-- The range of addresses that rows 0 to n - 1 of a walk from a base cover: the lowest one and the one after the highest. -/
def LyRec.range (ly : LyRec) (base n rowLen : Nat) : Nat × Nat :=
  (rowsWithin base ly.rstride.toInt n (ly.rowSpan rowLen) 0 (2 ^ 64)).getD (base, base)

/-- The range of the context's own share that rows 0 to n - 1 of a walk from a base touch, of which the last is touched up to last bytes: a
swizzled row counts whole (R160). -/
def State.ownWalk (s : State) (ly : LyRec) (base n rowLen last : Nat) : Option (Nat × Nat) :=
  s.ownRows base ly.rstride.toInt n (ly.rowSpan rowLen) (if ly.swz = 0 then last else ly.rowSpan rowLen)

/-- The bytes of its row that the first m elements of a row of a walk reach: whole blocks of a block format. -/
def Walking.lenTo (w : Walking) (m : Nat) : Nat :=
  if w.geom = 1 then (m + 31) / 32 * w.blockBytes
  else if w.geom = 2 then (m + 31) / 32 * (4 * w.bits)
  else (m * w.bits + 7) / 8

end Sys2Proof.Machine
end

