-- ==== Sys2Proof/Machine/Pawns.lean ====
section
/-! DEFINITION. The pawn table of a core: creation, handles, ends, aggregates and waits (R164 to R170, spec/09_core.md). -/

namespace Sys2Proof.Machine

/-! ### Entries -/

/-- The pawn of an entry. -/
def State.pawn (s : State) (k : Fin 64) : Pawn := s.core.pawns[k]

/-- The state with an entry of the focused core's pawn table changed. -/
def State.onPawn (s : State) (k : Fin 64) (f : Pawn → Pawn) : State :=
  s.onCore (fun c => { c with pawns := c.pawns.set k (f c.pawns[k]) })

/-- The entries of the table, rising. -/
def pawnSlots : List (Fin 64) := List.finRange 64

/-- Has a pawn ended. -/
def PawnState.ended : PawnState → Bool
  | .done => true
  | .faulted => true
  | .cancelled => true
  | _ => false

/-- The code of a state (R165). -/
def PawnState.code : PawnState → Nat
  | .pending => 0
  | .running => 1
  | .done => 2
  | .faulted => 3
  | .cancelled => 4

/-- The number of the turn in focus. -/
def State.turnId (s : State) : BitVec 48 :=
  match s.ctx.turn with
  | some t => t.id
  | none => 0

/-- Is a pawn owned by the turn in focus: created by it and not adopted. -/
def State.owns (s : State) (p : Pawn) : Bool :=
  p.live && !p.adopted && p.owner == some s.turnId && s.ctx.turn.isSome

/-- Was a pawn created by the turn in focus, adopted or not. -/
def State.created (s : State) (p : Pawn) : Bool := p.live && p.owner == some s.turnId && s.ctx.turn.isSome

/-- The entry that a handle names for the turn in focus; none is GONE (R165). -/
def State.byHandle (s : State) (h : BitVec 16) : Option (Fin 64) :=
  let k : Fin 64 := Fin.ofNat 64 h.toNat
  let p := s.pawn k
  if h ≠ 0 ∧ s.owns p = true ∧ p.gen.toNat = h.toNat / 64 then some k else none

/-- The lowest-numbered free entry (R164). -/
def State.freePawn (s : State) : Option (Fin 64) := pawnSlots.find? (fun k => !(s.pawn k).live)

/-- The anonymous pawns of a stream of the turn in focus that have not ended. -/
def State.anonOpen (s : State) (st : Strm) : List (Fin 64) :=
  pawnSlots.filter (fun k =>
    let p := s.pawn k
    s.owns p && p.st == st && p.handle.isNone && !p.state.ended)

/-- The anonymous aggregate of a stream. -/
def Context.agg (c : Context) : Strm → Aggregate
  | .c => c.aggC
  | .t => c.aggT
  | .m => c.aggM
  | .v => Aggregate.clear

/-- The context with an aggregate changed. -/
def Context.onAgg (c : Context) (st : Strm) (f : Aggregate → Aggregate) : Context :=
  match st with
  | .c => { c with aggC := f c.aggC }
  | .t => { c with aggT := f c.aggT }
  | .m => { c with aggM := f c.aggM }
  | .v => c

/-- The state an aggregate reports (R167). -/
def Aggregate.state (a : Aggregate) : PawnState := if a.faulted then .faulted else if a.cancelled then .cancelled else .done

/-- An aggregate with an anonymous pawn that has ended in it: the earliest-issued faulted one gives the record. -/
def Aggregate.add (a : Aggregate) (p : Pawn) (k : Fin 64) : Aggregate :=
  let a := { a with ended := true, cancelled := a.cancelled || p.state == .cancelled }
  if p.state = .faulted ∧ (a.faulted = false ∨ p.serial < a.serial) then
    { a with faulted := true, serial := p.serial, frec := p.frec, faddr := p.faddr, slot := k.val }
  else a

/-- The entry freed; its generation stands (R164, R166). -/
def State.freeEntry (s : State) (k : Fin 64) : State := s.onPawn k (fun p => { Pawn.free with gen := p.gen })

/-- The handle value of an entry's pawn (R164). -/
def State.handleOf (s : State) (k : Fin 64) : BitVec 16 := BitVec.ofNat 16 (k.val + (s.pawn k).gen.toNat * 64)

/-- Does a pending token or a waiting stream of the turn still wait on the pawn of a handle (R310). -/
def State.waitedOn (s : State) (h : BitVec 16) (tok : Option (Fin 8)) (st : Option Strm) : Bool :=
  (List.finRange 8).any (fun i => some i != tok &&
    match s.ctx.tok[i] with
    | some t =>
      match t.op with
      | .pwait h' false _ => h' == h
      | .ptest h' false _ => h' == h
      | .pcancel h' false _ => h' == h
      | _ => false
    | none => false) ||
  (decide (st ≠ some .t) && decide (s.ctx.ts.wait = some (.waith h))) ||
  (decide (st ≠ some .m) && decide (s.ctx.ms.wait = some (.waith h)))

/-- An ended anonymous pawn enters the aggregate of its stream, and its entry is freed: not before the waits on it have completed (R310). -/
def State.aggregate (s : State) (k : Fin 64) (p : Pawn) : State :=
  let s := s.onCtx (fun c => c.onAgg p.st (fun a => a.add p k))
  if s.waitedOn (s.handleOf k) none none then s.onPawn k (fun p => { p with handle := none }) else s.freeEntry k

/-- A kept pawn joins the anonymous pawns of its stream: an ended one enters the aggregate and frees its entry (R164, R166). -/
def State.anonymise (s : State) (k : Fin 64) : State :=
  let p := s.pawn k
  if p.state.ended then s.aggregate k p
  else s.onPawn k (fun p => { p with handle := none })

/-- The code of an engine in a trace record (R205): 0 transfer, 1 matrix, 2 collective (DEDUCED, log 15). -/
def Engine.code : Engine → Nat
  | .transfer => 0
  | .matrix => 1
  | .collective => 2

/-- What a pawn-creating word asks for; `due` is when its first step may start, `lead` how long that takes. -/
structure NewPawn where
  st : Strm
  eng : Engine
  pri : Nat
  h : Fin 16
  detach : Bool
  job : PawnJob
  sync : Fin 8
  due : Nat
  lead : Nat
  rows : BitVec 512
  draw : Bool
  idx : List Nat
  tr : List Trans
deriving DecidableEq, Repr

/-- Is an engine word of a creation number before the C stream's next word (R145). -/
def Context.knows (c : Context) (st : Strm) (serial : Nat) : Bool :=
  match st with
  | .t => decide (serial < c.cs.know.t)
  | .m => decide (serial < c.cs.know.m)
  | _ => true

/-- h[r] as a PAWN word of the C stream reads it: a handle that an engine word has written counts only if that word is before the PAWN word, which
else acts on the register's former handle (R310). -/
def Context.cHandle (c : Context) (r : Fin 16) : BitVec 16 :=
  ((c.hwas.filter (fun e => e.1 == r)).foldl (fun (acc : BitVec 16 × Bool) e =>
    if acc.2 || c.knows e.2.1 e.2.2.1 then (acc.1, true) else (e.2.2.2, false)) (c.getH r, false)).1

/-- The handle register of a pawn-creating word written, with the former handle of one that an engine word writes (R164, R310). -/
def Context.writeH (c : Context) (st : Strm) (serial : Nat) (r : Fin 16) (h : BitVec 16) : Context :=
  let others := c.hwas.filter (fun e => e.1 != r)
  let was := if st = .c then others
    else (r, st, serial, c.getH r) :: ((c.hwas.filter (fun e => e.1 == r)).takeWhile (fun e => !c.knows e.2.1 e.2.2.1) ++ others)
  { c.setH r h with hwas := if r = 0 then c.hwas else was }

/-- The launch of the turn in focus. -/
def State.launchOf (s : State) : Word :=
  match s.ctx.turn with
  | some t => t.launch
  | none => 0

/-- A pawn created in entry k (R164): the generation advances, the handle register is written, a detach adopts at once. -/
def State.createPawn (s : State) (k : Fin 64) (n : NewPawn) : State :=
  let gen : BitVec 10 := if (s.pawn k).gen = 1023 then 1 else (s.pawn k).gen + 1
  let old := if n.h = 0 then none else s.byHandle (s.ctx.getH n.h)
  let s := match old with
    | some j => s.anonymise j
    | none => s
  let s := if n.detach then s.adoptUnder s.launchOf 1 else s
  let p : Pawn :=
    { Pawn.free with
      live := true, gen := gen, state := .pending, owner := some s.turnId, cx := s.cx, st := n.st, eng := n.eng, pri := n.pri
      handle := if n.h = 0 then none else some n.h, adopted := n.detach, launch := s.launchOf, pc := (s.ctx.strm n.st).pc
      serial := s.serial, job := n.job, due := n.due, lead := n.lead, rows := n.rows, draw := n.draw, sync := n.sync, idx := n.idx, tr := n.tr }
  (((s.onPawn k (fun _ => p)).onCtx (fun c => c.writeH n.st s.serial n.h (BitVec.ofNat 16 (k.val + gen.toNat * 64)))).bump).trace 6 n.st
    (k.val + gen.toNat * 64 + n.eng.code * 2 ^ 16)

/-! ### Progress and ends -/

/-- The fault record of R165: cause, progress saturating, page bits. -/
def faultRecord (c : Cause) (progress va : Nat) : Word :=
  BitVec.ofNat 64 (c.code + min progress (2 ^ 32 - 1) * 2 ^ 8 + va / 2 ^ 16 % 2 ^ 24 * 2 ^ 40)

/-- The progress of a pawn (R163): rows of a scatter whose lines are all done, bytes that a collective has combined into its buffer, else
what its steps count. -/
def Pawn.progress (p : Pawn) : Nat :=
  match p.job with
  | .scat _ rowLen _ _ _ => if rowLen = 0 then p.pos else p.pos / rowLen
  | .coll .. => p.pos - p.idx.headD 0
  | _ => p.pos

/-- The record of a pawn that has not faulted (R165): cause 0 and its progress. -/
def Pawn.progressRecord (p : Pawn) : Word := BitVec.ofNat 64 (min p.progress (2 ^ 32 - 1) * 2 ^ 8)

/-- A pawn has made its last step. -/
def Pawn.finish (p : Pawn) : Pawn := { p with fin := some .done, state := .running, frec := p.progressRecord, tr := [] }

/-- A pawn is stopped by a fault that ends it (R140): its record and address. -/
def Pawn.fail (p : Pawn) (c : Cause) (va : Nat) : Pawn :=
  { p with fin := some .faulted, frec := faultRecord c p.progress va, faddr := BitVec.ofNat 64 (va % 2 ^ 52), tr := [] }

/-- A pawn is stopped by a cancel at a step boundary (R170). -/
def Pawn.stopCancelled (p : Pawn) : Pawn :=
  { p with fin := some .cancelled, frec := faultRecord .cancelled p.progress 0, tr := [] }

/-- Is a pawn not yet ended nor finished. -/
def Pawn.open (p : Pawn) : Bool := p.live && !p.state.ended && p.fin.isNone

/-- A pawn of the same stream, engine and priority that was issued earlier and has not ended (R168). -/
def State.earlierOpen (s : State) (p : Pawn) : Bool :=
  pawnSlots.any (fun k =>
    let r := s.pawn k
    r.live && !r.state.ended && r.cx == p.cx && r.st == p.st && r.eng == p.eng && r.pri == p.pri && decide (r.serial < p.serial))

/-- Is a SEND on the same channel, by a turn of either context, earlier issued and not ended: a channel fills in the order of its SENDs
(R115). -/
def State.earlierSend (s : State) (p : Pawn) : Bool :=
  match p.job with
  | .send chan launch _ _ _ => pawnSlots.any (fun k =>
      let r := s.pawn k
      r.live && !r.state.ended && decide (r.serial < p.serial) && (match r.job with
        | .send c l _ _ _ => c == chan && l == launch
        | _ => false))
  | _ => false

/-- Does the post of a pawn's word still concern the context: its turn is there. -/
def State.postLives (s : State) (p : Pawn) : Bool := p.owner == some s.turnId && s.ctx.turn.isSome

/-- A channel of a launch. -/
def State.onChan (s : State) (launch : Word) (num : Nat) (f : Chan → Chan) : State :=
  s.onPart (fun p => { p with chans := p.chans.map (fun c => if c.launch = launch ∧ c.num = num then f c else c) })

/-- The lowest-numbered free request slot of a context: one that returned in cycle n is free from cycle n + 1 (R397). -/
def Context.freeSlot (c : Context) (now : Nat) : Option (Fin 8) :=
  [(0 : Fin 8), 1, 2, 3, 4, 5, 6, 7].find? (fun j => match c.rldSlots[j] with
    | some t => decide (t ≤ now)
    | none => false)

/-- A request slot taken with its buffers (R30, R397). -/
def Context.takeSlot (c : Context) (j : Fin 8) (bufs : Nat) : Context :=
  { c with rldSlots := c.rldSlots.set j none, rldBufs := c.rldBufs - bufs }

/-- The slot and the buffers that a remote word at issue has reserved, given up: they are free from a cycle on. -/
def Context.dropSlot (c : Context) (from_ : Nat) : Context :=
  match c.rldHeld with
  | none => c
  | some (j, bufs) => { c with rldSlots := c.rldSlots.set j (some from_), rldBufs := c.rldBufs + bufs, rldHeld := none }

/-- The request slot that a pawn holds and its buffers, returned in cycle `now` (R30, R397). -/
def Context.slotBack (c : Context) (p : Pawn) (bufs now : Nat) : Context :=
  { c with rldSlots := c.rldSlots.set (Fin.ofNat 8 (p.idx.headD 0)) (some (now + 1)), rldBufs := c.rldBufs + bufs }

/-- The request slot and buffers of a remote load returned to its context (R30); a load whose own are returned already asks for none. -/
def Context.giveSlot (c : Context) (p : Pawn) (now : Nat) : Context :=
  match p.job with
  | .rld _ _ _ bufs => if bufs = 0 then c else c.slotBack p bufs now
  | _ => c

/-- A pawn whose request slot and buffers are returned. -/
def Pawn.slotGiven (p : Pawn) : Pawn :=
  match p.job with
  | .rld src dst n _ => { p with job := .rld src dst n 0 }
  | _ => p

/-- What the end of a pawn gives back: request slots, its captured nest and draw slot, its tracked ranges, the slot of a
SEND (R30, R114, R334, R341). -/
def State.giveBack (s : State) (p : Pawn) : State :=
  let s := s.dropRanges p.serial
  let s := if p.draw then
      (s.onLevel p.launch (fun l => { l with drawHeld := l.drawHeld - 1 })).onPart (fun q =>
        { q with held := q.held - 1, freed := (s.cycle, p.launch) :: q.freed.filter (fun f => decide (f.1 = s.cycle)) })
    else s
  match p.job with
  | .rld .. => s.onCtx (fun c => c.giveSlot p s.cycle)
  | .rst _ _ _ => s.onCtx (fun c => c.slotBack p 1 s.cycle)
  | .mgo .. => s.onCtx (fun c => { c with captured := c.captured - 1 })
  | .send chan launch _ slot _ =>
    s.onChan launch chan (fun c =>
      { c with filling := c.filling.erase slot,
               filled := if p.fin = some .done then c.filled ++ [slot] else c.filled })
  | _ => s

/-- The end of an adopted pawn (R169): its fault is logged, its event posted, the launch counter falls, its entry is
freed. -/
def State.endAdopted (s : State) (k : Fin 64) (p : Pawn) (faulted : Bool) : State :=
  let s := if faulted then
      s.logFault (p.frec.toNat % 256) 4 ((s.logicalOf s.site).getD 0xFFFF) p.launch.toNat p.frec.toNat
    else s
  let s := match p.event with
    | some e => s.postEvent e
    | none => s
  (s.freeEntry k).run [.decr p.launch 1 faulted (p.fin == some .cancelled && s.ctrHas p.launch 40)]

/-- The end of a pawn is counted (R155, R165 to R169): its post enters its channel, what it held returns, and its handle
reports the end. -/
def State.endPawn (s : State) (k : Fin 64) : State :=
  let p := s.pawn k
  match p.fin with
  | none => s
  | some fin =>
    let s := s.focus s.site p.cx
    let s := if s.postLives p then s.onCtx (fun c => c.post p.st p.sync s.cycle (p.serial + 1)) else s
    let s := (s.giveBack p).trace 7 p.st p.frec.toNat
    let q := { p with state := fin, fin := none, endsAt := s.cycle, suspended := false }
    let s := s.onPawn k (fun _ => q)
    if p.adopted then s.endAdopted k { q with fin := some fin } (fin == .faulted)
    else if p.handle.isNone then s.aggregate k q
    else s

/-- May the end of a pawn be counted now: a pawn that is DONE has all its answers and completes in issue order (R168), one that is cancelled or faulted has ended
at once (R170); the homes have performed what it wrote (R148, R149, R329), and its post has room (R155). -/
def State.endReady (s : State) (k : Fin 64) : Bool :=
  let p := s.pawn k
  let c := if s.cx == p.cx then s.ctx else s.octx
  p.live && p.fin.isSome && !s.writing p.serial && !(p.fin == some .done && (s.netOpen p.serial || s.earlierOpen p || s.earlierSend p)) &&
  (!(match c.turn with | some t => p.owner == some t.id | none => false) || c.postRoom p.st p.sync)

/-! ### Waits, tests and operations on handles (R166 to R170, R309) -/

/-- The entry freed by a completed wait, unless another wait on the handle is pending: that one frees it (R166, R310). -/
def State.freeAfter (s : State) (h : BitVec 16) (tok : Option (Fin 8)) (st : Option Strm) (k : Fin 64) : State :=
  if s.waitedOn h tok st then s.onPawn k (fun p => { p with handle := none }) else s.freeEntry k

/-- The ranges of a pawn that makes no more accesses are free (R160), and so are the request slot and buffers of a remote load (R30). -/
def State.clearRanges (s : State) (k : Fin 64) : State :=
  let p := s.pawn k
  let f := fun (c : Context) => { c.giveSlot p s.cycle with ranges := c.ranges.filter (fun r => !(r.serial == p.serial)) }
  if p.fin.isNone then s
  else
    let s := s.onPawn k (fun p => p.slotGiven)
    if s.cx = p.cx then s.onCtx f else { s with octx := f s.octx }

/-- A pawn asked to stop: a pending one ends at once, a running one at its next step boundary (R170). -/
def State.cancelPawn (s : State) (k : Fin 64) : State :=
  (s.onPawn k (fun p =>
    if !p.open then p
    else if p.state = .pending then { p with fin := some .cancelled, frec := faultRecord .cancelled 0 0 }
    else { p with cancelReq := true })).clearRanges k

/-! ### Faults that links and bridges bring (R35, R42, R43) -/

/-- The address of an operation whose access a link or a bridge has failed. -/
def TokOp.netAddr : TokOp → Word
  | .load _ _ _ a => a
  | .store _ a _ => a
  | .tlrw _ a => a
  | .spawn a => a
  | .launch a => a
  | .join a _ => a
  | .cancel a _ => a
  | _ => 0

/-- Of two faults of one word or pawn, that of the earlier access. -/
def earlierFault (old : Option (Nat × Cause)) (pos : Nat) (cause : Cause) : Option (Nat × Cause) :=
  match old with
  | some f => if f.1 ≤ pos then some f else some (pos, cause)
  | none => some (pos, cause)

/-- An access of a context's token or T word of a creation number fails, in its place among those of that one. -/
def Context.failAccess (c : Context) (serial pos : Nat) (cause : Cause) : Context :=
  { c with
    tok := c.tok.map (fun t => t.map (fun t => if t.serial = serial then { t with fault := some (cause, t.op.netAddr) } else t))
    twin := c.twin.map (fun e => if e.serial = serial then { e with fault := earlierFault e.fault pos cause } else e) }

/-- An access of a pawn of a creation number fails: the step that makes it ends faulted. -/
def Core.failAccess (k : Core) (serial pos : Nat) (cause : Cause) : Core :=
  { k with pawns := k.pawns.map (fun p => if p.live && decide (p.serial = serial) then { p with net := earlierFault p.net pos cause } else p) }

/-- The answer to an access at the host is the next completion that the outside world gives: an error is MEMERR (R124). -/
def State.hostAnswer (s : State) (key : Nat) (cause : Option Cause) : Option Cause × State :=
  if cause.isSome ∨ key < 2 ^ 59 ∨ 2 ^ 60 ≤ key then (cause, s)
  else (if s.hostErrors.head? = some true then some .memerr else none, { s with hostErrors := s.hostErrors.drop 1 })

/-- A request of this chip's own has come to an end, answered or failed: its access no longer waits for it, and is faulted precisely where it
failed. -/
def State.endAccess (s : State) (tag : Nat) (cause : Option Cause) : State :=
  match s.net.find? (fun a => a.live && decide (a.tag = tag)) with
  | none => s
  | some a =>
    let (cause, s) := s.hostAnswer a.key cause
    let s := { s with net := s.net.map (fun b => if b.tag = tag then { b with live := false, answer := none } else b) }
    match cause with
    | none => s
    | some c =>
      let b := s.boxAt a.site
      let hit := fun (x : Context) => x.failAccess a.serial a.pos c
      s.putBox a.site { core := b.core.failAccess a.serial a.pos c, a := hit b.a, b := hit b.b }

/-- The answer to a request of this chip's own will be there in a cycle. -/
def State.answerAccess (s : State) (tag at_ : Nat) (cause : Option Cause) : State :=
  { s with net := s.net.map (fun b => if b.live && decide (b.tag = tag) then { b with answer := some (at_, cause) } else b) }

/-- The tag of a request whose answer is there. -/
def State.netAnswered (s : State) : Option (Nat × Option Cause) :=
  s.net.findSome? (fun a => match a.live, a.answer with
    | true, some (t, c) => if t ≤ s.cycle then some (a.tag, c) else none
    | _, _ => none)

/-- A detach (R169): the pawn is adopted; one that has already ended is counted and freed at once. -/
def State.detachPawn (s : State) (k : Fin 64) (event : Option Nat) : State :=
  let p := s.pawn k
  if p.state.ended then
    let s := if p.state = .faulted then
        (s.setCtrBit p.launch 41).logFault (p.frec.toNat % 256) 4 ((s.logicalOf s.site).getD 0xFFFF) p.launch.toNat p.frec.toNat
      else s
    let s := match event with
      | some e => s.postEvent e
      | none => s
    s.freeEntry k
  else
    let s := s.adoptUnder p.launch 1
    s.onPawn k (fun p => { p with adopted := true, suspended := false, event := event })

/-! ### Copies: the steps of the transfer engine (R328 to R330, R334) -/

/-- Do the blocks that start in bytes off to off + n of a row keep the page's packing, and does the page keep the walk's
element width and geometry (R325). -/
def CopySide.ok (d : CopySide) (leaf : Option Leaf) (r off n : Nat) : Bool :=
  let f := d.ly.fmtAt leaf
  let size := if d.geom = 1 then 4 * d.bits + 1 else 4 * d.bits
  decide (elemWidth f.1 8 = d.bits) && decide (f.2 = d.geom) &&
  (decide (d.geom = 0) ||
    (List.range n).all (fun i => decide ((off + i) % size ≠ 0) || packingOk leaf (d.ly.rowByte d.base.toNat r (off + i)) size))

/-- Do source and destination page formats conflict for a strict copy that counts elements (R328); 0 is RAW. -/
def strictClash (strict : Bool) (a b : Nat) : Bool := strict && a != 0 && b != 0 && a != b

/-- The format of the page that a leaf maps; the scratchpad window has none. -/
def pageFmt (leaf : Option Leaf) : Nat :=
  match leaf with
  | some l => l.fmt
  | none => 0

/-- The index of the next row that a list of addresses does not skip. -/
def nextRow (idx : List Word) (j : Nat) : Nat :=
  j + ((idx.drop j).takeWhile (fun w => w == 0)).length

/-- Is a pawn of the transfer engine one of the remote words, each of which has a request slot of its own (R330). -/
def PawnJob.remote : PawnJob → Bool
  | .rld .. => true
  | .rst .. => true
  | _ => false

/-- A line that a step moves: where it comes from and goes, its bytes, and its row and offset in the walk of a copy. -/
structure CopyLine where
  src : Nat
  dst : Nat
  n : Nat
  row : Nat
  off : Nat
deriving DecidableEq, Repr

/-- The lines that a pawn's next step moves, in order (R329, R330); a SEND's go to a channel slot, by offset. -/
def Pawn.moves (p : Pawn) : List CopyLine :=
  match p.job with
  | .copy src dst rows rowLen _ _ =>
    if rows * rowLen ≤ p.pos then []
    else
      let r := p.pos / rowLen
      let off := p.pos % rowLen
      [{ src := src.ly.rowByte src.base.toNat r off, dst := dst.ly.rowByte dst.base.toNat r off, n := min 64 (rowLen - off), row := r, off := off }]
  | .gath dst rowLen _ _ idx =>
    let j := nextRow idx p.pos
    if idx.length ≤ j then []
    else (List.range ((rowLen + 63) / 64)).map (fun i =>
      { src := (idx.getD j 0).toNat + 64 * i, dst := dst.ly.rowByte dst.base.toNat j (64 * i), n := min 64 (rowLen - 64 * i), row := j, off := 64 * i })
  | .scat src rowLen _ _ idx =>
    let j := nextRow idx (p.pos / rowLen)
    if rowLen = 0 ∨ idx.length ≤ j then []
    else
      let off := if p.pos / rowLen = j then p.pos % rowLen else 0
      [{ src := src.ly.rowByte src.base.toNat j off, dst := (idx.getD j 0).toNat + off, n := min 64 (rowLen - off), row := j, off := off }]
  | .rld src dst n _ => if n ≤ p.pos then [] else [{ src := src.toNat, dst := dst.toNat, n := n, row := 0, off := 0 }]
  | .rst src dst n => if n ≤ p.pos then [] else [{ src := src.toNat, dst := dst.toNat, n := n, row := 0, off := 0 }]
  | .send _ _ src _ n => if n ≤ p.pos then [] else [{ src := src.toNat + p.pos, dst := p.pos, n := 64, row := 0, off := p.pos }]
  | _ => []

/-- The position after a pawn's next step. -/
def Pawn.nextPos (p : Pawn) : Nat :=
  match p.job with
  | .copy _ _ rows rowLen _ _ => if rows * rowLen ≤ p.pos then p.pos else p.pos + min 64 (rowLen - p.pos % rowLen)
  | .gath _ _ _ _ idx => let j := nextRow idx p.pos; if idx.length ≤ j then j else j + 1
  | .scat _ rowLen _ _ idx =>
    let j := nextRow idx (p.pos / rowLen)
    if rowLen = 0 then p.pos
    else if idx.length ≤ j then j * rowLen
    else
      let off := if p.pos / rowLen = j then p.pos % rowLen else 0
      j * rowLen + off + min 64 (rowLen - off)
  | .rld _ _ n _ => n
  | .rst _ _ n => n
  | .send _ _ _ _ n => if n ≤ p.pos then p.pos else p.pos + 64
  | _ => p.pos

/-- Is a position of a copy's pawn the end of its work. -/
def PawnJob.overAt (j : PawnJob) (pos : Nat) : Bool :=
  match j with
  | .copy _ _ rows rowLen _ _ => decide (rows * rowLen ≤ pos)
  | .gath _ _ _ _ idx => decide (idx.length ≤ nextRow idx pos)
  | .scat _ rowLen _ _ idx => decide (rowLen = 0) || (decide (pos % rowLen = 0) && decide (idx.length ≤ nextRow idx (pos / rowLen)))
  | .rld _ _ n _ => decide (n ≤ pos)
  | .rst _ _ n => decide (n ≤ pos)
  | .send _ _ _ _ n => decide (n ≤ pos)
  | _ => true

/-- What the next step of a copy pawn reads and writes by address: kind, address, bytes (R329); the reads and the writes of its lines alternate. -/
def Pawn.stepLines (p : Pawn) : List (Acc × Nat × Nat) :=
  match p.job with
  | .send .. => p.moves.map (fun l => (.read, l.src, l.n))
  | _ => p.moves.flatMap (fun l => [(.read, l.src, l.n), (.write, l.dst, l.n)])

/-- The address of the access of a step in a place among the step's: where a link or a bridge has failed it. -/
def Pawn.netAddr (p : Pawn) (pos : Nat) : Nat := ((p.stepLines[pos % 2 ^ 20]?).map (fun l => l.2.1)).getD 0

/-- The scratchpad place that the next step of a SEND fills (R114). -/
def State.sendPlace (s : State) (p : Pawn) : Option Place :=
  match p.job with
  | .send chan launch _ slot _ => (s.part.chans.find? (fun c => c.launch == launch && c.num == chan)).map (fun c =>
      { key := spKey ((s.siteOf c.receiver).getD 0) (c.base + slot * c.size + p.pos), leaf := none })
  | _ => none

/-- Where the line of a step is written, once it is translated. -/
def State.linePlace (s : State) (p : Pawn) (l : CopyLine) : Option Place :=
  match p.job with
  | .send .. => s.sendPlace p
  | _ => placeOf p.tr true l.dst

/-- The FORMAT fault of a line of a copy, if it has one: the address concerned (R325, R328, R329). -/
def PawnJob.lineFault (j : PawnJob) (l : CopyLine) (a b : Option Leaf) : Option Nat :=
  match j with
  | .copy src dst _ _ raw strict =>
    if raw then none
    else if strictClash strict src.fmt dst.fmt then some src.base.toNat
    else if !src.ok a l.row l.off l.n then some l.src
    else if !dst.ok b l.row l.off l.n then some l.dst
    else none
  | .gath dst _ raw strict _ =>
    if raw then none
    else if strictClash strict (pageFmt a) dst.fmt then some l.src
    else if !dst.ok b l.row l.off l.n then some l.dst
    else none
  | .scat src _ raw strict _ =>
    if raw then none
    else if strictClash strict src.fmt (pageFmt b) then some l.dst
    else if !src.ok a l.row l.off l.n then some l.src
    else none
  | _ => none

/-- How a step of a pawn ends. -/
inductive StepEnd where
  /-- So many units of position made, and whether the pawn has made its last step. -/
  | made (n : Nat) (last : Bool)
  | wait
  | fault (c : Cause) (va : Nat)
deriving DecidableEq, Repr

/-- The bytes of a line of a step written: they are those that its read has brought. -/
def State.writeLine (s : State) (p : Pawn) (l : CopyLine) (a b : Place) : State :=
  s.writePlace 1 p.serial b (s.readFor 1 p.serial a l.n)

/-- One line of a step moved by the T path, i-th of the step: bytes unchanged, errors precise (R127, R191). A line whose write its home has made
already is not written again (R31). -/
def State.moveLine (s : State) (p : Pawn) (i : Nat) (l : CopyLine) : StepEnd × State :=
  match placeOf p.tr false l.src, s.linePlace p l with
  | some a, some b =>
    if s.readBad a.key l.n then (.fault .memerr l.src, s.meetBad a.key l.n)
    else if s.writeBad b.key l.n then (.fault .memerr l.dst, s.meetBad b.key l.n)
    else
      let s := s.noteRead a l.n
      (.made l.n false, if s.netMade p.serial (p.pos * 2 ^ 20 + 2 * i + 1) then s else s.writeLine p l a b)
  | _, _ => (.wait, s)

/-- The lines of a step moved one after another, from the i-th on. -/
def State.moveLines (s : State) (p : Pawn) : Nat → List CopyLine → StepEnd × State
  | _, [] => (.made (p.nextPos - p.pos) (p.job.overAt p.nextPos), s)
  | i, l :: rest =>
    match s.moveLine p i l with
    | (.made _ _, s) => s.moveLines p (i + 1) rest
    | r => r

/-- The translated step of a copy pawn made (R329, R330, R334): a 64-byte line, a row of a gather, all of a remote word. Its formats are checked
first. A remote word has one step, so it moves all its bytes or none (R330). -/
def State.copyStep (s : State) (p : Pawn) : StepEnd × State :=
  match p.moves.findSome? (fun l =>
    p.job.lineFault l ((placeOf p.tr false l.src).bind (fun q => q.leaf)) ((placeOf p.tr true l.dst).bind (fun q => q.leaf))) with
  | some va => (.fault .format va, s)
  | none => s.moveLines p 0 p.moves

/-- Has a copy pawn's next step started: its accesses are translated. -/
def Pawn.stepStarted (p : Pawn) : Bool :=
  !p.stepLines.isEmpty && p.stepLines.all (fun l => (placeOf p.tr l.1.writes l.2.1).isSome)

/-- Are all the answers there of the step that a copy pawn has started: those of its accesses that go outside the column. -/
def State.stepAnswered (s : State) (p : Pawn) : Bool :=
  (List.range p.moves.length).all (fun i =>
    match p.moves[i]? with
    | none => true
    | some l =>
      let back := fun (q : Option Place) (writes : Bool) (pos : Nat) => match q with
        | some q => !s.goesOut q writes || s.netDone p.serial pos
        | none => true
      back (placeOf p.tr false l.src) false (p.pos * 2 ^ 20 + 2 * i) && back (s.linePlace p l) true (p.pos * 2 ^ 20 + 2 * i + 1))

/-- Has a copy pawn sent a write of its next step or of a later one: those steps are made, whatever stops it then (R170, R329). -/
def State.aheadWrites (s : State) (p : Pawn) : Bool :=
  p.eng == .transfer &&
  s.net.any (fun a => decide (a.serial = p.serial) && decide (a.pos % 2 = 1) && decide (p.pos ≤ a.pos / 2 ^ 20))

/-- Is a pawn in the middle of a step, short of its next boundary (R170): a copy's is translated or one of its writes has gone out, an accumulator
copy's first row is under way. An MGO's stands in the engine. -/
def State.midStep (s : State) (p : Pawn) : Bool :=
  p.begun && (match p.eng with
    | .transfer => p.stepStarted || s.aheadWrites p
    | .matrix => decide (p.pos = 0)
    | .collective => false)

/-- The loops that a copy's side still runs through, for the pages to come: rows, and lines of a row (R131). -/
def CopySide.loops (d : CopySide) (rows rowLen row off : Nat) : List (Nat × Int × Nat) :=
  [(rows, d.ly.rstride.toInt, row), ((rowLen + 63) / 64, 64, off / 64)]

/-- The state with the walks started of the next pages that a copy pawn will touch, on either side (R131). -/
def State.prefetchCopy (s : State) (p : Pawn) : State :=
  match p.moves with
  | [] => s
  | l :: _ =>
    let named := fun (s : State) (va : Nat) (idx : List Word) (rowLen : Nat) =>
      (s.prefetchLoops .t va [((rowLen + 63) / 64, 64, l.off / 64)] (idx.getD l.row 0).toNat).prefetchNext .t
        (va :: ((idx.drop (l.row + 1)).filter (fun w => w != 0)).map (fun w => w.toNat))
    match p.job with
    | .copy src dst rows rowLen _ _ =>
      (s.prefetchLoops .t l.src (src.loops rows rowLen l.row l.off) src.base.toNat).prefetchLoops .t l.dst (dst.loops rows rowLen l.row l.off) dst.base.toNat
    | .gath dst rowLen _ _ idx =>
      (named s l.src idx rowLen).prefetchLoops .t l.dst (dst.loops idx.length rowLen l.row l.off) dst.base.toNat
    | .scat src rowLen _ _ idx =>
      (named s l.dst idx rowLen).prefetchLoops .t l.src (src.loops idx.length rowLen l.row l.off) src.base.toNat
    | .send _ _ src _ n => s.prefetchLoops .t l.src [(n / 64, 64, p.pos / 64)] src.toNat
    | _ => s

/-- What a step leaves in its pawn's entry (R140, R163, R170): position and next start, a suspension by PAGE with its pending
trap for an owned pawn, or the end. -/
def State.afterStep (s : State) (k : Fin 64) (e : StepEnd) (cycles : Nat) : State :=
  let p := s.pawn k
  match e with
  | .wait => s.onPawn k (fun p => { p with due := s.cycle + 1, state := .running })
  | .made n last =>
    let spent := p.stepLines.map (fun l => (l.2.1, l.1.writes))
    let s := { s with net := s.net.filter (fun a => a.live || !(decide (a.serial = p.serial) && decide (a.pos / 2 ^ 20 ≤ p.pos))) }
    s.onPawn k (fun p =>
      let p := { p with pos := p.pos + n, state := .running, due := s.cycle + cycles
                        tr := p.tr.filter (fun t => !spent.contains (t.va, t.writes)) }
      if last then p.finish else if p.cancelReq && !s.aheadWrites p then p.stopCancelled else p)
  | .fault c va =>
    if c = .page ∧ p.adopted = false then
      let s := s.onPawn k (fun p => { p with suspended := true, state := .running, faddr := BitVec.ofNat 64 (va % 2 ^ 52), tr := [] })
      (s.onCtx (fun x =>
        { x with pend := x.pend ++
            [{ rank := 3, order := k.val, cause := .page, st := p.st, pawn := some k.val, tok := none, async_ := true, st2 := .c,
               faddr := BitVec.ofNat 64 (va % 2 ^ 52), fpc := p.pc, fpc2 := 0, frec := faultRecord .page p.progress va }] })).bump
    else s.onPawn k (fun p => p.fail c va)

end Sys2Proof.Machine
end

