-- ==== Sys2Proof/Machine/Turns.lean ====
section
/-! DEFINITION. Turns in and out of contexts: retirement, dispatch, activation, urgent switches, stealing, rack operations and
the broadcast of a cancel (R77 to R110, R185). -/

namespace Sys2Proof.Machine

/-- A context of a core box. -/
def CoreBox.ctx (b : CoreBox) (cx : Bool) : Context := if cx then b.b else b.a

/-! ### Racks (R99 to R104, R110) -/

/-- Is a rack's home cluster within the rack's scope of a cluster (R109): scope 2 cluster, 3 die, 4 package. -/
def Rack.reaches (r : Rack) (cl : Nat) : Bool :=
  match r.scope with
  | 2 => cl == r.home
  | 3 => cl / 9 == r.home / 9
  | _ => true

/-- The cycles from the issue of a rack operation at a cluster to its apply cycle (R101). -/
def Rack.latency (r : Rack) (cl : Nat) : Nat := if cl / 9 = r.home / 9 then 6 else 20

/-- The cycle in which an operation that is sent now from a cluster applies at a rack's controller, whose MCLK may stand still (R101). -/
def State.rackAt (s : State) (r : Rack) (cl : Nat) : Nat := s.cycle + r.latency cl + s.stretchLeft (r.home / 9)

/-- Is a slot pinned by a reader port. -/
def Rack.pinned (r : Rack) (i : Nat) : Bool := r.ports.any (fun p => match p with | some (_, j) => j == i | none => false)

/-- Is slot i committed earlier than slot j: never committed counts older than any commit; ties: the lower index. -/
def Rack.older (r : Rack) (i j : Nat) : Bool :=
  match (r.slotCycle.getD i none), (r.slotCycle.getD j none) with
  | none, none => decide (i < j)
  | none, some _ => true
  | some _, none => false
  | some a, some b => decide (a < b) || (decide (a = b) && decide (i < j))

/-- The slot that a writer open receives (R103): the oldest of those neither pinned nor freshest. -/
def Rack.writerSlot (r : Rack) : Option Nat :=
  (List.range r.slots).foldl (fun best i =>
    if r.pinned i ∨ r.freshest = some i then best
    else match best with
      | none => some i
      | some j => if r.older i j then some i else best) none

/-- The address of a slot. -/
def Rack.slotAddr (r : Rack) (i : Nat) : Word := r.base + BitVec.ofNat 64 (i * r.stride)

/-- A writer open (R103): the rack after it and the slot address, or a misuse (R109). -/
def Rack.openWrite (r : Rack) (h : Holder) : Option (Rack × Word) :=
  match r.writer, r.writerSlot with
  | none, some w => some ({ r with writer := some (h, w) }, r.slotAddr w)
  | _, _ => none

/-- A commit (R103) at a cycle of the controller's MCLK. -/
def Rack.commit (r : Rack) (h : Holder) (now : Nat) : Option Rack :=
  match r.writer with
  | some (k, w) =>
    if k ≠ h then none
    else
      let seq := if r.seq + 1 = 2 ^ 32 then 1 else r.seq + 1
      some { r with seq := seq, slotSeq := r.slotSeq.set w seq, slotCycle := r.slotCycle.set w (some now), freshest := some w,
                    writer := none }
  | none => none

/-- A reader open (R103): the rack after it, the slot address, and the word of sequence and age. -/
def Rack.openRead (r : Rack) (h : Holder) (port now : Nat) : Option (Rack × Word × Word) :=
  match r.ports[port]? with
  | some none =>
    match r.freshest with
    | none => some (r, 0, 0)
    | some f =>
      let age := min (now - ((r.slotCycle.getD f none).getD now)) (2 ^ 32 - 1)
      some ({ r with ports := r.ports.set port (some (h, f)) }, r.slotAddr f,
        BitVec.ofNat 64 (r.slotSeq.getD f 0 * 2 ^ 32 + age))
  | _ => none

/-- A close of a port, 63 the writer's (R103, R104). -/
def Rack.close (r : Rack) (h : Holder) (port : Nat) : Option Rack :=
  if port = 63 then
    match r.writer with
    | some (k, _) => if k = h then some { r with writer := none } else none
    | none => none
  else
    match r.ports[port]? with
    | some (some (k, _)) => if k = h then some { r with ports := r.ports.set port none } else none
    | _ => none

/-- Every port a holder holds, freed (R110). -/
def Rack.releaseAll (r : Rack) (h : Holder) : Rack :=
  { r with
    ports := r.ports.map (fun p => match p with | some (k, i) => if k = h then none else some (k, i) | none => none)
    writer := match r.writer with
      | some (k, w) => if k = h then none else some (k, w)
      | none => none }

/-- The place of an operation in the order of one apply cycle (R102). `fn` is that of R314; 5 is a release at
retirement, at the close step. -/
def RackOp.rank (o : RackOp) : Nat :=
  match o.fn with
  | 1 => 0
  | 3 => 1
  | 5 => 1
  | 2 => 2 + o.port
  | _ => 100

/-- Is operation a applied before operation b (R102). Of two operations of one kind and port that apply in one cycle the first sent goes first: the
text gives no order (DESIGN CHOICE, log 15). -/
def RackOp.before (a b : RackOp) : Bool :=
  decide (a.apply < b.apply) || (decide (a.apply = b.apply) &&
    (decide (a.rank < b.rank) || (decide (a.rank = b.rank) && decide (a.serial < b.serial))))

/-- The operation that applies first. -/
def firstRackOp : List RackOp → Option RackOp
  | [] => none
  | o :: rest =>
    match firstRackOp rest with
    | none => some o
    | some r => if o.before r then some o else some r

/-- The misuse of a rack operation reported (R109): the token settles faulted, or the selector's phase faults. -/
def State.rackFault (s : State) (o : RackOp) (c : Cause) : State :=
  match o.sel with
  | some (job, act) => if o.fn = 2 then State.runAll (s.phaseFault job act c) else s
  | none => s.faultTok o.tok c 0

/-- The state with a rack's entry. -/
def State.putRack (s : State) (n : Nat) (r : Rack) : State := s.onPart (fun p => { p with racks := p.racks.put n r })

/-- A rack operation applied at its controller (R101 to R104, R109, R71). -/
def State.applyRackOp (s : State) (o : RackOp) : State :=
  match s.part.racks.find? o.rack with
  | none => s.rackFault o .prot
  | some r =>
    if !r.reaches o.cluster && o.fn != 5 then s.rackFault o .rackport
    else
      match o.fn with
      | 0 =>
        match r.openWrite o.holder with
        | none => s.rackFault o .rackport
        | some (r, a) => (s.putRack o.rack r).answerTok o.tok a 0
      | 1 =>
        match r.commit o.holder (s.dieClock (r.home / 9)) with
        | none => s.rackFault o .rackport
        | some r =>
          let s := (s.putRack o.rack r).answerTok o.tok (BitVec.ofNat 64 r.seq) 0
          let s := match s.writeVa (r.desc.toNat + 32) 8 r.seq with
            | .ok s => s
            | .error _ => s
          match s.writeVa (r.desc.toNat + 40) 8 s.dt with
          | .ok s => s
          | .error _ => s
      | 2 =>
        match r.openRead o.holder o.port (s.dieClock (r.home / 9)) with
        | none => s.rackFault o .rackport
        | some (r, a, w) =>
          let s := (s.putRack o.rack r).answerTok o.tok a w
          match o.sel with
          | none => s
          | some (job, act) =>
            -- the selector's open has answered: its size word is read next, or is 0 (R71)
            s.onAct job act (fun x => { x with sizeAt := some s.cycle, selOpen := w != 0, selAddr := a })
      | 3 =>
        match r.close o.holder o.port with
        | none => s.rackFault o .rackport
        | some r => (s.putRack o.rack r).answerTok o.tok 0 0
      | _ => s.putRack o.rack (r.releaseAll o.holder)

/-- The opens of a turn that are on their way to a rack. -/
def State.opensOf (s : State) (n : Nat) (id : BitVec 48) : List RackOp :=
  s.part.rackops.filter (fun o => o.rack == n && o.holder == .turn id && (o.fn == 0 || o.fn == 2))

/-- The release of every port that a retiring turn holds, on its way to the controllers (R110): it applies after the opens of the turn that are on
their way. -/
def State.releasePorts (s : State) (cl : Nat) (id : BitVec 48) : State :=
  let held := fun (r : Rack) => r.ports.any (fun p => match p with | some (k, _) => k == .turn id | none => false) ||
    (match r.writer with | some (k, _) => k == .turn id | none => false)
  (s.part.racks.filter (fun e => held e.2 || !(s.opensOf e.1 id).isEmpty)).foldl (fun s e =>
    let o : RackOp := { apply := (s.opensOf e.1 id).foldl (fun n o => max n (o.apply + 1)) (s.rackAt e.2 cl), serial := s.serial, fn := 5, rack := e.1, port := 0,
                        holder := .turn id, cluster := cl, tok := none, sel := none }
    (s.onPart (fun p => { p with rackops := p.rackops ++ [o] })).bump) s

/-- What a turn holds is given back as it ends: its rack ports, on their way to the controllers from a cluster, and its channel slots (R110, R114). -/
def State.leaveHolds (s : State) (cl : Nat) (id : BitVec 48) : State :=
  (s.releasePorts cl id).onPart (fun p => { p with chans := p.chans.map (fun c => { c with held := c.held.filter (fun h => h.2 != id) }) })

/-! ### The replay log (R210) -/

/-- An entry appended to the replay log (R210), unless the ring is full or the write faults: the flag says that it stands there. HEAD holds no
4,096, so that a full ring of that size is told by `replayFull`. -/
def State.appendLog (s : State) (e : LogEnt) : Bool × State :=
  let n := 256 * 2 ^ min (s.ctx.rplog.toNat % 16) 4
  let head := s.ctx.rplog.toNat / 2 ^ 52
  let base := s.ctx.rplog.toNat / 64 % 2 ^ 46 * 64
  if s.ctx.replayFull ∨ n ≤ head then (false, s)
  else
    match s.writeWords (base + 16 * head) [e.kind + strmCode e.st * 2 ^ 8 + e.pos % 2 ^ 32 * 2 ^ 32, e.value] with
    | .error _ => (false, s)
    | .ok s => (true, s.onCtx (fun c =>
      { c with replayFull := decide (n ≤ head + 1), rplog := BitVec.ofNat 64 (c.rplog.toNat % 2 ^ 52 + (head + 1) % 2 ^ 12 * 2 ^ 52) }))

/-- The kind 8 entry that a loss leaves owed, written once it can be (R210). -/
def State.payLoss (s : State) : State :=
  if s.ctx.replayOff then
    let r := s.appendLog { serial := 0, kind := 8, st := .c, pos := s.ctx.cs.issued, value := 0 }
    if r.1 then r.2.onCtx (fun c => { c with replayOff := false }) else r.2
  else s

/-- One entry appended, after the loss that is owed; one that cannot be is lost. -/
def State.logOne (s : State) (e : LogEnt) : State :=
  let s := s.payLoss
  if s.ctx.replayOff then s
  else
    let r := s.appendLog e
    if r.1 then r.2 else r.2.onCtx (fun c => { c with replayOff := true })

/-- Is a token's operation one that takes a non-deterministic input (R210). -/
def TokOp.takesInput : TokOp → Bool
  | .rack fn .. => fn == 0 || fn == 2
  | .etest .. => true
  | .time .. => true
  | _ => false

/-- Is an input-taking word that was issued before a creation number still to receive its input. -/
def Context.inputBefore (c : Context) (serial : Nat) : Bool :=
  c.tok.toList.any (fun t => match t with | some t => t.op.takesInput && decide (t.serial < serial) | none => false) ||
  c.twin.any (fun e => (match e.op with | .scas .. => true | _ => false) && decide (e.serial < serial))

/-- An entry in its place among those that wait, in the order in which their words issued. -/
def logInsert (e : LogEnt) : List LogEnt → List LogEnt
  | [] => [e]
  | x :: rest => if e.serial < x.serial then e :: x :: rest else x :: logInsert e rest

/-- The entries that wait for no earlier word are appended (R210, R211: the harness reads them in the order of issue). -/
def State.flushLog (s : State) : State :=
  let go := s.ctx.logHeld.takeWhile (fun e => !s.ctx.inputBefore e.serial)
  if go.isEmpty then s else go.foldl (fun s e => s.logOne e) (s.onCtx (fun c => { c with logHeld := c.logHeld.drop go.length }))

/-- A replay-log entry of the context (R210): creation number of its word, kind, stream, words issued before the word, value. -/
def State.replayLog (s : State) (serial kind : Nat) (st : Strm) (pos v : Nat) : State :=
  if s.ctx.trctl.toNat / 2 ^ 19 % 2 = 0 then s
  else
    (s.onCtx (fun c => { c with logHeld := logInsert { serial := serial, kind := kind, st := st, pos := pos, value := v } c.logHeld })).flushLog

/-- The log of a turn that ends: every entry that waits is appended, and a loss is noted if it can be. -/
def State.replayEnd (s : State) : State :=
  if s.ctx.logHeld.isEmpty && !s.ctx.replayOff then s
  else (s.ctx.logHeld.foldl (fun s e => s.logOne e) (s.onCtx (fun c => { c with logHeld := [] }))).payLoss

/-! ### Retirement (R77, R167, R169) -/

/-- A context without a turn, as a retirement leaves it: its debug and trace registers stand (R198, R206), and what its adopted
pawns still hold. -/
def Context.emptied (c : Context) (keep : List RangeOp) : Context :=
  let c := c.dropSlot 0
  { Context.reset with
    dbgctl := c.dbgctl, trctl := c.trctl, trbase := c.trbase, bdring := c.bdring, rplog := c.rplog, bpa := c.bpa, bpi := c.bpi
    boardSeq := c.boardSeq, boardSkip := c.boardSkip, boardBusy := c.boardBusy, rldSlots := c.rldSlots, rldBufs := c.rldBufs, captured := c.captured
    acc := c.acc, rowInt := c.rowInt, ranges := keep, haltReq := c.haltReq, halted := c.halted
    replayOff := c.replayOff, replayFull := c.replayFull }

/-- The retirement of the turn in focus (R77): its open pawns are adopted, then the join counter and the launch counter
fall, with FAULTED after a fault, an unobserved faulted pawn included (R167). -/
def State.retire (s : State) (faulted cancelled : Bool) : State :=
  match s.ctx.turn with
  | none => s
  | some t =>
    let own := pawnSlots.filter (fun k => s.owns (s.pawn k))
    let unended := own.filter (fun k => !(s.pawn k).state.ended)
    let unseen := own.any (fun k => (s.pawn k).state == .faulted) || s.ctx.aggC.faulted || s.ctx.aggT.faulted || s.ctx.aggM.faulted
    let s := s.trace 2 .c (s.ctx.occupancy.toNat + s.ctx.excused.toNat * 2 ^ 32)
    let made := pawnSlots.filter (fun k => s.created (s.pawn k) && !(s.pawn k).state.ended)
    let s := s.replayEnd
    let s := unended.foldl (fun s k => s.onPawn k (fun p => { p with adopted := true, suspended := false })) s
    let s := if cancelled then made.foldl (fun s k => s.cancelPawn k) s else s
    let s := s.adoptUnder t.launch unended.length
    let s := (own.filter (fun k => (s.pawn k).state.ended)).foldl (fun s k => s.freeEntry k) s
    let s := s.leaveHolds (clusterOf s.site) t.id
    let keep := s.ctx.ranges.filter (fun r => r.pawn.isSome)
    let s := s.onCtx (fun c => c.emptied keep)
    let s := if t.join = 0 then s else s.run [.decr t.join 1 faulted cancelled]
    let s := if unseen then s.setCtrBit t.launch 41 else s
    s.run [.decr t.launch 1 faulted cancelled]

/-! ### Dispatch (R81 to R85) -/

/-- The heat allowance of a site's column. -/
def State.tallow (s : State) (site : Nat) : Nat := ((s.columns.toList.getD site (Column.reset site)).allow).toNat

/-- Is a context empty and able to take a turn of the focused partition. -/
def State.emptyAt (s : State) (site : Nat) (cx : Bool) : Bool :=
  let b := s.boxAt site
  b.core.enabled && b.core.part == some s.pid && !b.core.stopping && !s.part.swapped && !s.gated.contains (clusterOf site) &&
  (b.ctx cx).turn.isNone && !(b.ctx cx).halted &&
  !(cx && s.part.single)

/-- Is a turn's launch one that declares the logical core of a site as a receiver (R113). -/
def State.receives (s : State) (t : Turn) (site : Nat) : Bool :=
  s.part.chans.any (fun c => c.launch == t.launch && s.siteOf c.receiver == some site)

/-- May a turn run in a context (R81, R113). -/
def State.eligible (s : State) (t : Turn) (site : Nat) (cx : Bool) : Bool :=
  (match t.pin with | none => true | some p => p == site && !(cx && s.receives t site)) && decide (8 * t.heat ≤ s.tallow site)

/-- The contexts of a cluster: A before B, lower sites first. -/
def contextsOf (cl : Nat) : List (Nat × Bool) := (sitesOf cl).flatMap (fun site => [(site, false), (site, true)])

/-- Does context a come before context b for a turn that both could take (R84). -/
def State.betterCtx (s : State) (a b : Nat × Bool) : Bool :=
  let lone := fun (x : Nat × Bool) => ((s.boxAt x.1).ctx (!x.2)).turn.isNone
  if lone a ≠ lone b then lone a
  else if s.tallow a.1 ≠ s.tallow b.1 then decide (s.tallow a.1 > s.tallow b.1)
  else if a.1 ≠ b.1 then decide (a.1 < b.1)
  else !a.2 && b.2

/-- The context that R84 chooses among several. -/
def State.bestCtx (s : State) : List (Nat × Bool) → Option (Nat × Bool)
  | [] => none
  | a :: rest =>
    match s.bestCtx rest with
    | none => some a
    | some b => if s.betterCtx a b then some a else some b

/-- The empty contexts of a cluster that could take a turn. -/
def State.takers (s : State) (cl : Nat) (t : Turn) : List (Nat × Bool) :=
  (contextsOf cl).filter (fun c => s.emptyAt c.1 c.2 && s.eligible t c.1 c.2)

/-- The first turn of a list that an empty context of the cluster could take. -/
def State.firstTaken (s : State) (cl : Nat) (l : List HeapEnt) : Option HeapEnt :=
  l.find? (fun e => !(s.takers cl e.turn).isEmpty)

/-- The turn a cluster dispatches next (R82, R83), with the flag that R83 made it due. With fewer than 48 turns on die a spilled turn waits for its
refill (R79); with more, the refill would not come while those are not eligible, and the turn they must not hold back is taken from the spill heap
(R82). -/
def State.nextTurn (s : State) (cl : Nat) : Option (HeapEnt × Bool) :=
  let k := s.sched cl
  let bg := s.firstTaken cl k.bgq
  match (if 63 ≤ k.since then bg else none) with
  | some e => some (e, true)
  | none =>
    match s.firstTaken cl k.heap with
    | some e => some (e, false)
    | none =>
      match s.firstTaken cl k.spill with
      | some e => if k.heap.length < 48 then none else some (e, false)
      | none => bg.map (fun e => (e, false))

/-- Removes a turn from a list of waiting turns. -/
def dropTurn (id : BitVec 48) (l : List HeapEnt) : List HeapEnt := l.filter (fun e => !(e.turn.id == id))

/-- A context as dispatch sets it (R152, R76, R89) for a turn whose record holds these words. -/
def Context.dispatched (c : Context) (t : Turn) (ws : List Nat) (strict : Bool) (now : Nat) : Context :=
  let arg := fun i => BitVec.ofNat 64 (ws.getD (6 + i / 2) 0 / 2 ^ (32 * (i % 2)) % 2 ^ 32)
  let c := { c.emptied (c.ranges) with acc := [], rowInt := [], idle := 0 }
  let c := ((((c.setX 1 (arg 0)).setX 2 (arg 1)).setX 3 (arg 2)).setX 4 (arg 3)).setX 31 (BitVec.ofNat 64 (ws.getD 1 0))
  { c with
    turn := some { t with join := BitVec.ofNat 64 (ws.getD 2 0) }
    strict := strict, vshape := if strict then 0x20401 else 0x401
    limit := BitVec.ofNat 32 (ws.getD 4 0), deadline := t.deadline
    cs := { StreamSt.idle with run := true, pc := BitVec.ofNat 64 (ws.getD 0 0), readyAt := now + 64 } }

/-- Does the focused context run under the replay harness (R198, R211). -/
def Context.replaying (c : Context) : Bool := c.dbgctl.getLsbD 3

/-- An entry of the replay ring: its two words (R210, R211). -/
def State.replayEntryAt (s : State) (i : Nat) : Option (Nat × Nat) :=
  let a := s.ctx.rplog.toNat / 64 % 2 ^ 46 * 64 + 16 * i
  match s.readVa a 8, s.readVa (a + 8) 8 with
  | .ok w, .ok v => some (w, v)
  | _, _ => none

/-- The entry of the replay ring that the context reads next. -/
def State.replayEntry (s : State) : Option (Nat × Nat) := s.replayEntryAt s.ctx.replayAt

/-- Does an entry of the replay ring match an input in kind, stream and position (R211). -/
def State.replayMatches (s : State) (kind : Nat) (st : Strm) (pos i : Nat) : Bool :=
  match s.replayEntryAt i with
  | some (w, _) => decide (w % 256 = kind) && decide (w / 256 % 4 = strmCode st) && decide (w / 2 ^ 32 = pos % 2 ^ 32)
  | none => false

/-- The entry of the next input: one that a withdrawn word has given back, else the next of the ring; none where it does not match (R211). -/
def State.replayIndex (s : State) (kind : Nat) (st : Strm) (pos : Nat) : Option Nat :=
  (s.ctx.replayBack.find? (s.replayMatches kind st pos)).orElse (fun _ =>
    if s.replayMatches kind st pos s.ctx.replayAt then some s.ctx.replayAt else none)

/-- The logged value of the next input, if its entry matches in kind, stream and position (R211). -/
def State.replayTake (s : State) (kind : Nat) (st : Strm) (pos : Nat) : Option (Word × State) :=
  match s.replayIndex kind st pos with
  | some i =>
    (s.replayEntryAt i).map (fun e => (BitVec.ofNat 64 e.2, s.onCtx (fun c =>
      if c.replayBack.contains i then { c with replayBack := c.replayBack.erase i } else { c with replayAt := c.replayAt + 1 })))
  | none => none

/-- A halt of the focused context is requested: it lands at the points of R199. The C stream stops at once, its results in flight saved as of the
cycle in which its first unissued word would issue (R159). -/
def State.requestHaltAt (s : State) (now : Nat) : State :=
  let live := s.core.active == s.cx && s.ctx.turn.isSome
  s.onCtx (fun c => { (if live then c.pauseC now else c).holdEngines with haltReq := true })

/-- A halt requested by what is no word of the C stream at issue. -/
def State.requestHalt (s : State) : State := s.requestHaltAt s.cNow

/-- The debug window of a site. -/
def State.dbgAt (s : State) (site : Nat) : DbgWin := s.dbg.toList.getD site { idx := 0, lo := 0, hi := 0, code := 0 }

/-- The state with the debug window of a site changed. -/
def State.onDbg (s : State) (site : Nat) (f : DbgWin → DbgWin) : State :=
  if h : site < 288 then { s with dbg := s.dbg.set site (f s.dbg[site]) h } else s

/-- A divergence from the log at a word of a stream: the context halts with DIVERGE (R211). -/
def State.diverge (s : State) (st : Strm) : State :=
  (s.requestHaltAt (if st = .c then s.cycle else s.cNow)).onDbg s.site (fun d => { d with code := 6 })

/-- A turn starts under replay: its entries are read from the turn start entry on. -/
def State.replayStart (s : State) : State :=
  match (s.onCtx (fun c => { c with replayAt := 0, replayBack := [] })).replayTake 7 .c 0 with
  | some (_, s) => s
  | none => s.diverge .c

/-- The engine streams of a context that resumes: released, but for those that stand at a fault or wait for a handler's return. -/
def Context.resumeEngines (c : Context) : Context :=
  let f := fun (st : Strm) (r : StreamSt) =>
    if c.held || c.halted || c.haltReq || c.pend.any (fun t => t.rank == 2 && t.st == st) then r else { r with holdReq := false, held := false, wait := none }
  { c with ts := f .t c.ts, ms := f .m c.ms, vs := f .v c.vs }

/-- A turn has been loaded into the focused context: alone on its core it is active; as the resident turn it has R86 evaluated. -/
def State.placedIn (s : State) (cx : Bool) : State :=
  if s.octx.turn.isNone then s.onCore (fun k => { k with active := cx }) else s.onCore (fun k => { k with evalAt := s.cycle })

/-- A saved context in place of another: the debug and trace registers stay the place's own, which a dispatch does not write (R198, R206). -/
def Context.inPlaceOf (c h : Context) : Context :=
  { c with
    dbgctl := h.dbgctl, trctl := h.trctl, trbase := h.trbase, bdring := h.bdring, bpa := h.bpa, bpi := h.bpi
    boardSeq := h.boardSeq, boardSkip := h.boardSkip, boardBusy := h.boardBusy, haltReq := h.haltReq, halted := h.halted }

/-- The banks of the focused context as a dispatch makes them: every cell of the sum-product scratch is zero (R377), and the accumulator is written
whole, so that no word of it is in error (R191, R337). -/
def State.freshBanks (s : State) : State :=
  let keep := s.core.sp.filter (fun en => !s.ownBank en.1)
  (s.onCore (fun k => { k with sp := keep })).rewrite (spKey s.site (accOff s.cx)) 0x40000

/-- A turn loaded into a context of a core (R84, R85, R94): one whose launch counter shows CANCELLED retires without running, one
whose record cannot be read retires FAULTED. -/
def State.loadTurn (s : State) (site : Nat) (cx : Bool) (e : HeapEnt) : State :=
  let s := s.focus site cx
  let t := e.turn
  let stretch := match s.dies.toList[dieOf site]? with
    | some d => d.stretchTo
    | none => 0
  if s.ctrHas t.launch 40 then (s.leaveHolds (clusterOf site) t.id).run [.gone t false true]
  else
    match e.saved with
    | some c =>
      let s := (s.onCtx (fun h => ({ c.resumeEngines with turn := some t, excuseTo := max c.excuseTo stretch } : Context).inPlaceOf h)).freshBanks
      (s.placedIn cx).trace 1 .c (t.id.toNat % 2 ^ 32)
    | none =>
      match s.readDwords t.record.toNat 8 with
      | .error c => (s.logFault c.code 3 ((s.logicalOf site).getD 0xFFFF) t.record.toNat 0).run [.gone t true false]
      | .ok ws =>
        let strict := match s.part.jobs[t.job]? with
          | some j => j.strict
          | none => false
        let s := s.onCtx (fun c => { c.dispatched t ws strict s.cycle with excuseTo := stretch })
        let s := s.placedIn cx
        let s := s.freshBanks
        let s := (s.trace 1 .c (t.id.toNat % 2 ^ 32)).replayLog s.serial 7 .c 0 t.record.toNat
        if s.ctx.replaying then s.replayStart else s

/-- One dispatch of a cluster (R82 to R84). -/
def State.dispatch (s : State) (cl : Nat) : State :=
  match s.nextTurn cl with
  | none => s
  | some (e, due) =>
    match s.bestCtx (s.takers cl e.turn) with
    | none => s
    | some (site, cx) =>
      let bgTurn := e.turn.bg
      let s := s.onSched cl (fun k =>
        { k with heap := dropTurn e.turn.id k.heap, spill := dropTurn e.turn.id k.spill, bgq := dropTurn e.turn.id k.bgq, lastCycle := s.cycle + 1
                 since := if bgTurn then 0 else k.since + 1 })
      s.loadTurn site cx { e with turn := { e.turn with bgDue := due } }

/-- The unstarted turns of a cluster that a ready turn may displace (R85). -/
def State.displaceable (s : State) (cl : Nat) (t : Turn) : List (Nat × Bool × Turn) :=
  (contextsOf cl).filterMap (fun c =>
    let b := s.boxAt c.1
    match (b.ctx c.2).turn with
    | none => none
    | some u =>
      if b.core.part == some s.pid && !u.started && b.core.active != c.2 && s.eligible t c.1 c.2 &&
          (if u.bg then !u.bgDue else t.before u) then some (c.1, c.2, u)
      else none)

/-- Does turn a come before turn b, whatever their kinds: a background turn counts as later than every other (R85), and background turns are
ordered by the order in which they became ready alone (R79, R83). -/
def Turn.ahead (a b : Turn) : Bool :=
  if a.bg ≠ b.bg then b.bg
  else if a.bg then (if a.stamp ≠ b.stamp then decide (a.stamp < b.stamp) else decide (a.arrival < b.arrival))
  else a.before b

/-- Is resident turn a displaced before resident turn b: the later key first; among equals the context R84 chooses. -/
def State.displaceFirst (s : State) (a b : Nat × Bool × Turn) : Bool :=
  if b.2.2.ahead a.2.2 then true
  else if a.2.2.ahead b.2.2 then false
  else s.betterCtx (a.1, a.2.1) (b.1, b.2.1)

/-- The resident turn to displace. -/
def State.pickDisplaced (s : State) : List (Nat × Bool × Turn) → Option (Nat × Bool × Turn)
  | [] => none
  | a :: rest =>
    match s.pickDisplaced rest with
    | none => some a
    | some b => if s.displaceFirst a b then some a else some b

/-- The first ready turn of a cluster that no empty context can take and that may displace an unstarted one (R85), in either part of the heap, as in
a dispatch (R82). -/
def State.displacer (s : State) (cl : Nat) : Option (HeapEnt × Nat × Bool × Turn) :=
  let k := s.sched cl
  (k.heap ++ (if k.heap.length < 48 then [] else k.spill)).findSome? (fun e =>
    if (s.takers cl e.turn).isEmpty then (s.pickDisplaced (s.displaceable cl e.turn)).map (fun d => (e, d)) else none)

/-- An unstarted resident turn gives way to an earlier one (R85). -/
def State.displace (s : State) (cl : Nat) : State :=
  match s.displacer cl with
  | none => s
  | some (e, site, cx, u) =>
    let s := s.onSched cl (fun k => { k with heap := dropTurn e.turn.id k.heap, spill := dropTurn e.turn.id k.spill, lastCycle := s.cycle + 1, since := k.since + 1 })
    let s := (s.focus site cx).onCtx (fun c => c.emptied c.ranges)
    (s.returnHeap cl { turn := u, saved := none }).loadTurn site cx e

/-! ### Activation and the urgent switch (R85, R86, R185) -/

/-- The active context's letter becomes the other one; the context issues after this many cycles. -/
def State.activate (s : State) (cx : Bool) (cycles : Nat) : State :=
  let s := (s.focusCx cx).onCore (fun c => { c with active := cx, urgent := none })
  s.onCtx (fun c => { c.resumeEngines with cs := { c.cs with readyAt := max c.cs.readyAt (s.cycle + cycles) } })

/-- The engine streams of the focused context asked to stop. -/
def State.askHold (s : State) : State := s.onCtx Context.holdEngines

/-- Has an engine stream reached a point where it may stop (R162, R184): idle, held, at a boundary, or at a waiting word. -/
def StreamSt.stopped (r : StreamSt) : Bool := !r.run || r.held || r.bound || r.wait.isSome

/-- Has every result that engine words have issued landed (R159). -/
def Context.engineLanded (c : Context) (now : Nat) : Bool :=
  c.landing.all (fun l => decide (l.st = .c)) && c.vpend.all (fun v => decide (v.due ≤ now))

/-- Have all engine streams of a context reached their stop points, and has every result that they issued before landed (R159). -/
def Context.enginesStopped (c : Context) (now : Nat) : Bool :=
  c.ts.stopped && c.ms.stopped && c.vs.stopped && c.engineLanded now

/-- Is the resident turn's deadline earlier than R86's threshold for the active turn. -/
def urgentWanted (active resident : Context) : Bool :=
  let left := if active.limit = 0 ∨ active.limit.toNat ≤ active.net.toNat then 0 else active.limit.toNat - active.net.toNat
  active.turn.isSome && resident.turn.isSome && !active.tip && active.pend.isEmpty && !resident.halted &&
  decide (resident.deadline.toNat + (left * 4 + 6) / 7 < active.deadline.toNat)

/-- The urgent switch of the focused core, when its streams have stopped (R185); its C stream stopped at the decision. -/
def State.urgentSwitch (s : State) : State :=
  let s := s.focusCx s.core.active
  let s := s.trace 0xE .c 0
  (s.activate (!s.cx) 64).trace 0xE .c 2

/-! ### Stealing (R87) -/

/-- The earliest turn of a cluster that a thief context could take, background queue included. -/
def State.stealable (s : State) (cl site : Nat) (cx cross : Bool) : Option HeapEnt :=
  let k := s.sched cl
  (k.heap ++ k.spill ++ k.bgq).find? (fun e =>
    e.turn.pin.isNone && s.eligible e.turn site cx && (!cross || e.turn.flags.toNat / 64 % 2 == 1))

/-- The earliest key among the answers of other schedulers. -/
def earliest : List (Nat × HeapEnt) → Option (Nat × HeapEnt)
  | [] => none
  | a :: rest =>
    match earliest rest with
    | none => some a
    | some b => if b.2.turn.ahead a.2.turn then some b else some a

/-- The mesh distance between two clusters. -/
def meshDistance (a b : Nat) : Nat :=
  let xa := meshX (siteAt a 0)
  let xb := meshX (siteAt b 0)
  let ya := meshY (siteAt a 0)
  let yb := meshY (siteAt b 0)
  (if xa ≤ xb then xb - xa else xa - xb) + (if ya ≤ yb then yb - ya else ya - yb)

/-- Clusters in order of rising mesh distance from one. -/
def byDistance (cl : Nat) (cls : List Nat) : List Nat :=
  cls.foldl (fun acc c => acc.takeWhile (fun d => decide (meshDistance cl d ≤ meshDistance cl c)) ++ [c] ++
    acc.dropWhile (fun d => decide (meshDistance cl d ≤ meshDistance cl c))) []

/-- A steal by an empty context from some schedulers, asked in their order (R87): the earliest key of all answers, the first asked among
equals. The idle count returns to 0 when a turn is taken; the dispatch takes 200 or 600 cycles more, the bound that R87 gives (DEDUCED, log 4). -/
def State.steal (s : State) (site : Nat) (cx : Bool) (cls : List Nat) (cross : Bool) : State :=
  let answers := cls.filterMap (fun cl => (s.stealable cl site cx cross).map (fun e => (cl, e)))
  match earliest answers with
  | none => (s.focus site cx).onCtx (fun c => if cross then { c with askedX := c.idle } else { c with asked := c.idle })
  | some (cl, e) =>
    let s := s.onSched cl (fun k =>
      { k with heap := dropTurn e.turn.id k.heap, spill := dropTurn e.turn.id k.spill, bgq := dropTurn e.turn.id k.bgq })
    let s := s.loadTurn site cx e
    s.onCtx (fun c => { c with cs := { c.cs with readyAt := c.cs.readyAt + (if cross then 600 else 200) } })

/-! ### The broadcast of a cancel (R94, R95) -/

/-- Is a turn one of a cancelled level's: its launch lies at or beneath the counter, or its launch counter shows the
cancel. -/
def State.hitBy (s : State) (top : Word) (t : Turn) : Bool := s.isUnder top t.launch

/-- Queued turns of a cancelled level are taken out of a cluster's scheduler, with what they hold (R94, R110). -/
def State.sweepSched (s : State) (top : Word) (cl : Nat) : State × List Work :=
  let k := s.sched cl
  let hit := (k.heap ++ k.spill ++ k.bgq).filter (fun e => s.hitBy top e.turn)
  if hit.isEmpty then (s, [])
  else
    let keep := fun (l : List HeapEnt) => l.filter (fun e => !s.hitBy top e.turn)
    (hit.foldl (fun s e => s.leaveHolds cl e.turn.id)
        (s.onSched cl (fun k => { k with heap := keep k.heap, spill := keep k.spill, bgq := keep k.bgq })),
      hit.map (fun e => .gone e.turn false true))

/-- Waiters of a cancelled level are taken out of the wait lists (R94); an overflow list that is being walked stays as it is (R92). -/
def State.sweepEvents (s : State) (top : Word) : State × List Work :=
  let hit := s.part.events.flatMap (fun e => (e.2.waiters ++ e.2.overflow).filter (fun w => s.hitBy top w.1.turn))
  let keep := fun (l : List (HeapEnt × Nat)) => l.filter (fun w => !s.hitBy top w.1.turn)
  let evs := s.part.events.map (fun (e : Nat × EvEnt) =>
    let all := keep (e.2.waiters ++ e.2.overflow)
    (e.1, if e.2.walkAt.isSome then { e.2 with waiters := keep e.2.waiters, overflow := keep e.2.overflow }
      else { e.2 with waiters := all.take 4, overflow := all.drop 4 }))
  (s.onPart (fun p => { p with events := evs }), hit.map (fun w => .gone w.1.turn false true))

/-- Is a pawn one of a cancelled level's. -/
def State.pawnHit (s : State) (top : Word) (p : Pawn) : Bool := p.open && s.isUnder top p.launch

/-- The cores of a cancel's reach: running turns are told, their pawns are asked to stop at their next step boundary (R94, R95). -/
def State.sweepCore (s : State) (top : Word) (site : Nat) : State :=
  let tell := fun (c : Context) =>
    match c.turn with
    | some t => if s.hitBy top t then { c with turn := some { t with cancelled := true } } else c
    | none => c
  let b := s.coreOf site
  let stop := fun (p : Pawn) =>
    if !s.pawnHit top p then p
    else if p.state = .pending then { p with fin := some .cancelled, frec := faultRecord .cancelled 0 0 }
    else { p with cancelReq := true }
  let gone := fun (serial : Nat) => b.core.pawns.toList.any (fun p => s.pawnHit top p && decide (p.serial = serial) && (stop p).fin.isSome)
  let free := fun (c : Context) => { tell c with ranges := c.ranges.filter (fun r => !gone r.serial) }
  s.putCoreOf site { core := { b.core with pawns := b.core.pawns.map stop }, a := free b.a, b := free b.b }

/-- The broadcast of one cancel reaches every scheduler, the event table and every core of the partition (R94). -/
def State.sweep (s : State) (top : Word) : State :=
  let s := s.part.clusters.foldl (fun s cl => State.runAll (s.sweepSched top cl)) s
  let s := State.runAll (s.sweepEvents top)
  s.part.cores.foldl (fun s e => s.sweepCore top e.1) s

end Sys2Proof.Machine
end

