-- ==== Sys2Proof/Machine/Tokens.lean ====
section
/-! DEFINITION. Issue and settling of C-stream words: fixed-latency results, wait tokens, and the operation that each
token stands for (R157, R158, R270, R287, R294 to R321). -/

namespace Sys2Proof.Machine

/-! ### Issue of a C word (R157, R158, R275) -/

/-- Is an x register owned by a pending wait token. -/
def Context.ownedX (c : Context) (r : Fin 32) : Bool :=
  c.tok.toList.any (fun t => match t with | some t => t.owned.contains r | none => false)

/-- Are eight fixed-latency results of the C stream in flight. -/
def Context.landingFull (c : Context) : Bool :=
  decide (8 ≤ c.inFlight.length + ((if c.tip then (if c.hresume then c.hbuf else []) else if c.resume then c.lbuf else []).filter (fun e => e.valid)).length)

/-- A guarded C word: with its guard off it only issues (R275). -/
def State.guarded (s : State) (g : Fin 8) (f : State → State) : State := if s.ctx.getP g then f s else s.issuedIn .c

/-- A C word whose fixed-latency result goes to a place that no token owns. -/
def State.cLand (s : State) (lat : Nat) (dst : Dest) (v : BitVec 256) : State :=
  if s.ctx.landingFull then s.waitLanding .landing else (s.land .c lat dst v).issuedIn .c

/-- A C word whose fixed-latency result goes to x[rd] (R157, R158). -/
def State.cResult (s : State) (rd : Fin 32) (lat : Nat) (v : Word) : State :=
  if s.ctx.ownedX rd then s.waitIn .c (.owned rd) else s.cLand lat (.x rd) (v.setWidth 256)

/-- A wait token taken by an operation (R158). -/
def State.takeTok (s : State) (tok : Fin 8) (owned : List (Fin 32)) (lat : Nat) (op : TokOp) : State :=
  (s.onCtx (fun c =>
    { c with tok := c.tok.set tok (some
        { op := op, pc := c.cs.pc, pos := c.cs.issued, serial := s.serial, due := s.cycle + lat, owned := owned.filter (fun r => r != 0),
          done := none, fault := none }) })).bump

/-- The hazards of a token-guarded word: the token is pending, or a destination is owned (R158). -/
def Context.tokHazard (c : Context) (tok : Fin 8) (owned : List (Fin 32)) : Option WaitOn :=
  if c.tok[tok].isSome then some (.token tok) else (owned.find? (fun r => r != 0 && c.ownedX r)).map WaitOn.owned

/-- A token-guarded C word (R158): it waits on its hazards, else its token is pending from issue. -/
def State.cToken (s : State) (tok : Fin 8) (owned : List (Fin 32)) (lat : Nat) (op : TokOp) : State :=
  match s.ctx.tokHazard tok owned with
  | some w => s.waitIn .c w
  | none => (s.takeTok tok owned lat op).issuedIn .c

/-- The turn in focus observes a cancel at a cancellation point: once its word is complete it retires CANCELLED (R95). -/
def State.observe (s : State) : State :=
  match s.ctx.turn with
  | some t => if t.cancelled then s.retireTurn false true else s
  | none => s

/-- The settle latency of scheduler and pawn state by a record's address (R270): 12 on the same die, 40 otherwise. -/
def State.recordLat (s : State) (va : Nat) : Nat :=
  match s.peek .c .read va 8 with
  | some key => if s.latencyTo s.site key ≤ 60 then 12 else 40
  | none => 40

/-- The settle latency of an operation at the event table, held in the partition's lowest cluster. -/
def State.tableLat (s : State) : Nat := if s.part.clusters.headD 0 / 9 = dieOf s.site then 12 else 40

/-! ### Settling (R158, R177, R179) -/

/-- A token settles and writes its destinations. -/
def State.settle (s : State) (k : Fin 8) (ws : List (Fin 32 × Word)) : State :=
  s.onCtx (fun c => ws.foldl (fun c w => c.setX w.1 w.2) { c with tok := c.tok.set k none })

/-- A token settles faulted: no destination is written, and a trap is pending. A word of a handler that faults so is a double trap (R181). -/
def State.settleFault (s : State) (k : Fin 8) (t : TokPend) (c : Cause) (va : Word) : State :=
  let trap : PendTrap :=
    { rank := 1, order := t.serial, cause := c, st := .c, pawn := none, tok := some k, async_ := true, st2 := .c,
      faddr := va &&& 0xFFFFFFFFFFFFF#64, fpc := t.pc, fpc2 := 0, frec := 0 }
  let s := s.onCtx (fun x => { x with tok := x.tok.set k none })
  if s.ctx.tip ∧ s.ctx.tipSerial ≤ t.serial then s.enterTrapAt s.cNow trap s.ctx.cs.pc
  else s.onCtx (fun x => { x with pend := x.pend ++ [trap] })

/-- A token asked again later. -/
def State.later (s : State) (k : Fin 8) (cycles : Nat) : State :=
  s.onCtx (fun c => match c.tok[k] with
    | some t => { c with tok := c.tok.set k (some { t with due := s.cycle + cycles }) }
    | none => c)

/-- A token whose operation has been made and that settles later with these values. -/
def State.doneLater (s : State) (k : Fin 8) (cycles : Nat) (v w : Word) : State :=
  s.onCtx (fun c => match c.tok[k] with
    | some t => { c with tok := c.tok.set k (some { t with due := s.cycle + cycles, done := some (v, w) }) }
    | none => c)

/-! ### Loads, stores and layout records (R142, R286 to R288, R320) -/

/-- The bytes an operation touches on each of its paths (R141, R142): path, address, size and whether it writes. A TLRW reads its image on the C
path and writes its record on the L path; the operations on levels update counters on the S path, a creation that of the turn's launch. -/
def TokOp.touches (launch : Word) : TokOp → List (Nat × Nat × Nat × Bool)
  | .load n _ _ a => [(0, a.toNat, n, false)]
  | .store n a _ => [(0, a.toNat, n, true)]
  | .tlrw ly a => [(0, a.toNat, 32, false), (5, 32 * ly.toNat, 32, true)]
  | .record ly _ _ _ _ => [(5, 32 * ly.toNat, 32, true)]
  | .spawn _ => [(3, launch.toNat, 8, true)]
  | .launch _ => [(3, launch.toNat, 8, true)]
  | .join a _ => [(3, a.toNat, 8, true)]
  | .cancel a _ => [(3, a.toNat, 8, true)]
  | _ => []

/-- Do two accesses touch the same bytes, whatever virtual pages name them: pages are multiples of 64 KiB. -/
def sameBytes (a b : Nat × Nat × Bool) : Bool :=
  (a.2.2 || b.2.2) && decide (a.1 % 65536 < b.1 % 65536 + b.2.1) && decide (b.1 % 65536 < a.1 % 65536 + a.2.1)

/-- Does an earlier pending access of the same path touch the bytes of a token's operation (R142). -/
def Context.memBlocked (c : Context) (t : TokPend) : Bool :=
  let launch := match c.turn with | some u => u.launch | none => 0
  (t.op.touches launch).any (fun b => c.tok.toList.any (fun u => match u with
    | some u => decide (u.serial < t.serial) && (u.op.touches launch).any (fun d => d.1 == b.1 && sameBytes d.2 b.2)
    | none => false))

/-- A loaded value extended to 64 bits (R286). -/
def extendLoad (n : Nat) (signed : Bool) (v : Nat) : Word :=
  if signed then BitVec.ofInt 64 (signedOf (8 * n) v) else BitVec.ofNat 64 v

/-- The write of a token's store or JOIN made at its home: once, unless a word in error forbids it (R31, R137, R191, R303). -/
def State.makeTok (s : State) (k : Fin 8) (t : TokPend) : State :=
  let made := fun (s : State) => s.onCtx (fun c => { c with tok := c.tok.set k (some { t with done := some (0, 0) }) })
  match t.done, t.tr, t.op with
  | none, some p, .store n _ v => if s.writeBad p.key n then s else made (s.writePlace 0 t.serial p (leBytes n v.toNat))
  | none, some p, .join _ n =>
    if s.readBad p.key 8 then s
    else
      let s := s.correct p.key 8
      let w := ctrSet (ctrCreate (leNat (s.homeBytes p.key 8)) n.toNat) 43 (decide (n = 0))
      let s := made (s.writePlace 3 t.serial p (leBytes 8 w))
      if n = 0 then s.postOf w else s
  | _, _, _ => s

/-- A token whose write is made: it settles once its home has performed it (R137, R287). -/
def State.settleWritten (s : State) (k : Fin 8) (t : TokPend) : State := if s.writing t.serial then s.later k 1 else s.settle k []

/-- A load's token falls due (R286 to R288). -/
def State.settleLoad (s : State) (k : Fin 8) (t : TokPend) (n : Nat) (signed : Bool) (rd : Fin 32) (a : Word) : State :=
  match t.tr with
  | none => s.later k 1
  | some p =>
    if s.readBad p.key n then (s.meetBad p.key n).settleFault k t .memerr a
    else (s.noteRead p n).settle k [(rd, extendLoad n signed (leNat (s.readFor 0 t.serial p n)))]

/-- A store's token falls due: the write is made at its home, and the token settles once it is performed (R287). -/
def State.settleStore (s : State) (k : Fin 8) (t : TokPend) (n : Nat) (a : Word) : State :=
  match t.done, t.tr with
  | some _, _ => s.settleWritten k t
  | none, none => s.later k 1
  | none, some p =>
    if s.writeBad p.key n then (s.meetBad p.key n).settleFault k t .memerr a
    else (s.makeTok k t).settleWritten k t

/-- The image of a TLRW has come (R129, R130, R320): its record is written 4 cycles later, and its path C access is performed. -/
def State.settleTlrw (s : State) (k : Fin 8) (t : TokPend) (ly a : Word) : State :=
  match t.tr with
  | none => s.later k 1
  | some p =>
    if s.readBad p.key 32 then (s.meetBad p.key 32).settleFault k t .memerr a
    else
      let bs := s.readFor 0 t.serial p 32
      let w := fun i => BitVec.ofNat 64 (leNat ((bs.drop (8 * i)).take 8))
      (s.noteRead p 32).onCtx (fun c =>
        { c with tok := c.tok.set k (some { t with op := .record ly (w 0) (w 1) (w 2) (w 3), due := s.cycle + 4, tr := none }) })

/-- The record of a TLRW is written whole (R320). -/
def State.settleRecord (s : State) (k : Fin 8) (t : TokPend) (ly w0 w1 w2 w3 : Word) : State :=
  if 64 ≤ ly.toNat ∨ lyImageOk w1.toNat w2.toNat w3.toNat = false then s.settleFault k t .illegal 0
  else ((s.rewrite (spKey s.site (layoutOff + 32 * ly.toNat)) 32).onCore (fun c =>
    { c with ly := c.ly.set (Fin.ofNat 64 ly.toNat) (LyRec.ofWords w0.toNat w1.toNat w2.toNat w3.toNat) })).settle k []

/-! ### The translation of a token's access (R132, R134, R138) -/

/-- The access that a token's operation makes by the control TLB: kind, address, bytes. -/
def TokOp.access : TokOp → Option (Acc × Word × Nat)
  | .load n _ _ a => some (.read, a, n)
  | .store n a _ => some (.write, a, n)
  | .tlrw _ a => some (.read, a, 32)
  | .join a _ => some (.atomic, a, 8)
  | _ => none

/-- Is a pending token's access to be translated now: it is not, and its translation gets on. -/
def State.tokXlates (s : State) (k : Fin 8) : Bool :=
  match s.ctx.tok[k] with
  | none => false
  | some t => t.tr.isNone && t.done.isNone && t.fault.isNone &&
    (match t.op.access with
     | some (_, a, _) => s.xlateGoes .c a.toNat
     | none => false)

/-- The access of a pending token translated, once: at issue, or when the walk of its page has ended or its chip has come up. A fault is kept for its
settling; the access then takes the latency of what it reaches from here on, and the waits for it are excused if that is delayed (R16, R88). -/
def State.xlateTok (s : State) (k : Fin 8) : State :=
  match s.ctx.tok[k] with
  | none => s
  | some t =>
    match t.op.access with
    | none => s
    | some (acc, a, n) =>
      match s.xlate .c acc a.toNat n with
      | (.wait, s) => s
      | (.fault c, s) => s.onCtx (fun x => { x with tok := x.tok.set k (some { t with fault := some (c, a) }) })
      | (.ok p, s) =>
        let due := max t.due (s.cycle + (match t.op with | .join .. => 0 | _ => s.latencyTo s.site p.key + 2))
        (s.onCtx (fun x => { x with tok := x.tok.set k (some { t with tr := some p, due := due }) })).noteSlow t.serial p.key (due - s.cycle)

/-! ### Queues (R154, R299) -/

/-- Is an earlier operation of the C stream on the same queue still unserved. -/
def Context.queueBlocked (c : Context) (t : TokPend) (q : Fin 16) : Bool :=
  c.tok.toList.any (fun u => match u with
    | some u => decide (u.serial < t.serial) && u.done.isNone &&
      (match u.op, t.op with
       | .qget q' _ _ _, .qget .. => q' == q
       | .qput q' _ _, .qput .. => q' == q
       | _, _ => false)
    | none => false)

/-- Word k of an entry. -/
def wordOf (e : QEntry) (k : Nat) : Word := BitVec.ofNat 64 (laneOf e 64 k)

/-- An entry whose word k is v and whose other bits are zero. -/
def entryWord (k : Nat) (v : Word) : QEntry := BitVec.ofNat 2048 (v.toNat * 2 ^ (64 * k))

/-- The queue operation of a token served, if its queue can serve it now: an entry read, popped or pushed; the token settles 2 cycles later
(R154, R270). -/
def State.serveQueue (s : State) (k : Fin 8) (t : TokPend) : Option State :=
  match t.op with
  | .qget q w _ pop =>
    if s.ctx.queueBlocked t q then none
    else
      match s.ctx.popQ s.cycle .c q 1 with
      | .error _ => none
      | .ok (es, c) => some ((if pop then s.onCtx (fun _ => c) else s).doneLater k 2 (wordOf ((es.headD QEnt.absent).bits) w.val) 0)
  | .qput q w v =>
    if s.ctx.queueBlocked t q then none
    else
      match s.ctx.roomQ s.cycle .c q with
      | .error _ => none
      | .ok _ =>
        some (((s.onCtx (fun c => (c.reserveQ s.cycle q s.serial t.serial).landQ q s.serial (entryWord w.val v))).bump).doneLater k 2 0 0)
  | _ => none

/-- Is the entry that a QGET or QGETP would read in error (R191). -/
def State.queueBad (s : State) (t : TokPend) : Bool :=
  match t.op with
  | .qget q _ _ _ => !s.ctx.queueBlocked t q && (match s.ctx.headQ s.cycle .c q 1 with
    | .error (.fault .memerr) => true
    | _ => false)
  | _ => false

/-- A QGET, QGETP or QPUT falls due: it settles when the queue has served it. -/
def State.settleQueue (s : State) (k : Fin 8) (t : TokPend) (ws : Word → List (Fin 32 × Word)) : State :=
  match t.done with
  | some (v, _) => s.settle k (ws v)
  | none => if s.queueBad t then s.settleFault k t .memerr 0 else (s.serveQueue k t).getD (s.later k 1)

/-! ### Turns and launches (R93, R302, R303) -/

/-- Does a turn of the focused partition wait at its scheduler for an entry (R79). -/
def State.waitsPlace (s : State) (p : Turn → Bool) : Bool := s.part.placing.any (fun e => p e.2.turn)

/-- A SPAWN or a LAUNCH whose creation is made: it settles once its turns are in their heaps and its write is performed (R302). -/
def State.settleCreated (s : State) (k : Fin 8) (t : TokPend) (p : Turn → Bool) : State :=
  if s.waitsPlace p || s.writing t.serial then s.later k 1 else s.settle k []

/-- The job and the activity of the turn in focus. -/
def State.jobOf (s : State) : Nat × Nat :=
  match s.ctx.turn with
  | some u => (u.job, u.act)
  | none => (0, 0)

/-- A SPAWN applied (R302, R93): the creation atomic, bytes 40 to 47 of the record, and the heap; or a stillborn. A creation atomic that faults
faults the token (R124, R191); a write of those bytes that faults undoes the creation and faults it too (DESIGN CHOICE, log 15). -/
def State.spawnNow (s : State) (k : Fin 8) (t : TokPend) (rec : Word) : State :=
  match t.done with
  | some (id, _) => s.settleCreated k t (fun u => u.id == id.setWidth 48)
  | none =>
    let launch := s.launchOf
    let act := s.jobOf
    let s := s.seeVa rec.toNat 64
    match s.readTurn rec launch act.1 act.2 none with
    | .error c => s.settleFault k t c rec
    | .ok (u, bad) =>
      match s.createUnder launch 1 with
      | .error c => s.settleFault k t c launch
      | .ok (false, s) => (if u.join = 0 then s else s.run [.decr u.join 1 false true]).settle k []
      | .ok (true, s) =>
        match s.writeVaFor (some t.serial) (rec.toNat + 40) 8 launch.toNat with
        | .error c => (s.run [.decr launch 1 false false]).settleFault k t c rec
        | .ok s =>
          let s := s.onPart (fun p => { p with turnSeq := p.turnSeq + 1 })
          let s := if bad then (s.logFault Cause.illegal.code 3 ((s.logicalOf s.site).getD 0xFFFF) rec.toNat 0).run [.gone u true false]
            else s.enterHeap (clusterOf s.site) { turn := u, saved := none }
          (s.doneLater k 0 (u.id.setWidth 64) 0).settleCreated k t (fun v => v.id == u.id)

/-- A LAUNCH applied (R75, R302): the creation atomic on the issuing turn's launch, then the launch start; or a stillborn, whose turn records' join
counters count it (R93). -/
def State.launchNow (s : State) (k : Fin 8) (t : TokPend) (rec : Word) : State :=
  match t.done with
  | some _ => s.settleCreated k t (fun u => u.launch == rec)
  | none =>
    let parent := s.launchOf
    let act := s.jobOf
    let s := s.seeVa rec.toNat 64
    match s.readVa rec.toNat 8 with
    | .error c => s.settleFault k t c rec
    | .ok _ =>
      match s.createUnder parent 1 with
      | .error c => s.settleFault k t c parent
      | .ok (false, s) => (s.run (s.stillTurns rec)).settle k []
      | .ok (true, s) =>
        ((State.runAll (s.startLaunch rec parent none act.1 act.2)).doneLater k 0 rec 0).settleCreated k t (fun u => u.launch == rec)

/-- A JOIN applied (R303): COUNT is set and bits [46:40] cleared; a count of 0 is DONE and posts at once. A host's or a pooled device's memory has no
atomics, and faults (R124). -/
def State.joinNow (s : State) (k : Fin 8) (t : TokPend) (a : Word) : State :=
  match t.done, t.tr with
  | some _, _ => s.settleWritten k t
  | none, none => s.later k 1
  | none, some p =>
    if s.readBad p.key 8 then (s.meetBad p.key 8).settleFault k t .memerr a
    else (s.makeTok k t).settleWritten k t

/-- A BUDGET applied (R307). -/
def State.budgetNow (s : State) (k : Fin 8) (rd : Fin 32) (n : BitVec 32) : State :=
  let lim := if n ≠ 0 ∧ (s.ctx.limit = 0 ∨ n.toNat < s.ctx.limit.toNat) then n else s.ctx.limit
  (s.onCtx (fun c => { c with limit := lim })).settle k [(rd, s.ctx.net ++ lim)]

/-- The kind of level that a CANCEL names (R63). -/
def levelKindOf (n : Nat) : LevelKind :=
  match n with
  | 1 => .launch
  | 2 => .graph
  | 3 => .phase
  | _ => .job

/-- A CANCEL applied (R308): only a live level of that kind in the issuing turn's job is cancelled. -/
def State.cancelNow (s : State) (a : Word) (n : Nat) : State :=
  match s.ctx.turn, s.level? a with
  | some t, some l => if l.job = t.job then s.cancelLevel a (levelKindOf n) else s
  | _, _ => s

/-! ### Pawns (R309, R310) -/

/-- The answer for an entry: state code and fault record. -/
def Pawn.report (p : Pawn) : Word × Word :=
  (BitVec.ofNat 64 p.state.code, if p.state.ended then p.frec else 0)

/-- The pair destination of a pawn word. -/
def pairOf (rd : Fin 32) (v w : Word) : List (Fin 32 × Word) := if rd = 0 then [] else [(rd, v), (rd + 1, w)]

/-- The aggregate of the C stream reported, and cleared by a wait or a test (R167). -/
def State.reportAgg (s : State) (k : Fin 8) (rd : Fin 32) (clear : Bool) : State :=
  let a := s.ctx.aggC
  (if clear then s.onCtx (fun c => { c with aggC := Aggregate.clear }) else s).settle k
    (pairOf rd (BitVec.ofNat 64 a.state.code) (if a.faulted then a.frec else 0))

/-- A PCANCEL falls due: it settles when the pawn has ended, and returns its final state. It is no wait: the entry stays, and so does the
aggregate (R166, R167, R309); an entry that other waits have done with goes. -/
def State.settlePcancel (s : State) (k : Fin 8) (h : BitVec 16) (anon : Bool) (rd : Fin 32) : State :=
  if anon then (if (s.anonOpen .c).isEmpty then s.reportAgg k rd false else s.later k 1)
  else
    match s.byHandle h with
    | none => s.settle k (pairOf rd 7 0)
    | some j =>
      let p := s.pawn j
      if !p.state.ended then s.later k 1
      else (if p.handle.isNone then s.freeAfter h (some k) none j else s).settle k (pairOf rd p.report.1 p.report.2)

/-- A PWAIT falls due: it settles 3 cycles after the pawn has ended; GONE settles at once. -/
def State.settlePwait (s : State) (k : Fin 8) (h : BitVec 16) (anon : Bool) (rd : Fin 32) : State :=
  if anon then (if (s.anonOpen .c).isEmpty then s.reportAgg k rd true else s.later k 1)
  else
    match s.byHandle h with
    | none => s.settle k (pairOf rd 7 0)
    | some j =>
      let p := s.pawn j
      if !p.state.ended then s.later k 1
      else if s.cycle < p.endsAt + 3 then s.later k (p.endsAt + 3 - s.cycle)
      else (s.freeAfter h (some k) none j).settle k (pairOf rd p.report.1 p.report.2)

/-- A PTEST falls due. -/
def State.settlePtest (s : State) (k : Fin 8) (h : BitVec 16) (anon : Bool) (rd : Fin 32) : State :=
  if anon then (if (s.anonOpen .c).isEmpty then s.reportAgg k rd true else s.settle k (pairOf rd 1 0))
  else
    match s.byHandle h with
    | none => s.settle k (pairOf rd 7 0)
    | some j =>
      let p := s.pawn j
      (if p.state.ended then s.freeAfter h (some k) none j else s).settle k (pairOf rd p.report.1 p.report.2)

/-- The pawns a pawn word acts on: the handle's, or the anonymous ones of the C stream. -/
def State.targets (s : State) (h : BitVec 16) (anon : Bool) : List (Fin 64) :=
  if anon then pawnSlots.filter (fun k =>
    let p := s.pawn k
    s.owns p && p.st == .c && p.handle.isNone)
  else (s.byHandle h).toList

/-- A bit for each entry that the turn owns and that is not freed (R309). -/
def State.pawnMask (s : State) : Word :=
  pawnSlots.foldl (fun m k => if s.owns (s.pawn k) then m ||| (1#64 <<< k.val) else m) 0

/-! ### Control registers read (R317, R318) -/

/-- The value a CRR reads. -/
def State.crrValue (s : State) (reg : Nat) : Word :=
  let c := s.ctx
  match reg with
  | 0x000 => BitVec.ofNat 64 (c.pl.toNat + 2 * c.ppl.toNat + 4 * c.tip.toNat + 8 * c.held.toNat + 16 * s.cx.toNat)
  | 0x001 => c.cause.setWidth 64
  | 0x002 => c.epc
  | 0x003 => s.part.tvec
  | 0x004 => c.net ++ c.limit
  | 0x005 => c.deadline
  | 0x006 => (s.turnId).setWidth 64
  | 0x007 => BitVec.ofNat 64 s.pid
  | 0x008 => BitVec.ofNat 64 ((s.logicalOf s.site).getD 0 + 512 * s.site)
  | 0x009 => BitVec.ofNat 64 (s.tallow s.site)
  | 0x00A => BitVec.ofNat 64 (s.part.grant + 65536 * s.part.held)
  | 0x010 => s.guest
  | 0x011 => s.part.tofs
  | 0x012 => s.part.tscale
  | 0x013 => BitVec.ofNat 64 s.part.tmode.toNat
  | 0x014 => BitVec.ofNat 64 c.strict.toNat
  | 0x015 => s.part.ptroot
  | 0x016 => s.part.invaddr
  | 0x017 => BitVec.ofNat 64 (s.part.invctl.toNat + s.part.busy.toNat * 2 ^ 63)
  | 0x018 => s.part.flog
  | 0x019 => s.part.floge
  | 0x01A => c.faddr
  | 0x01B => c.fpc
  | 0x01C => c.fpc2
  | 0x01D => c.frec
  | 0x01E => c.sscr
  | 0x020 => c.dbgctl.setWidth 64
  | 0x021 => c.trctl.setWidth 64
  | 0x022 => c.trbase
  | 0x023 => c.bdring
  | 0x024 => c.rplog
  | 0x026 => c.fflags.setWidth 64
  | 0x028 => c.bpa[0]
  | 0x029 => c.bpa[1]
  | 0x02A => c.bpa[2]
  | 0x02B => c.bpa[3]
  | 0x02C => c.bpi[0]
  | 0x02D => c.bpi[1]
  | 0x02E => c.bpi[2]
  | 0x02F => c.bpi[3]
  | _ => 0

/-! ### The settling of any token -/

/-- Must an operation have ended before its turn retires: it acts beyond its own registers (R149). -/
def TokOp.mustFinish : TokOp → Bool
  | .qget .. => false
  | .qput .. => false
  | .crr .. => false
  | .time .. => false
  | .budget .. => false
  | .pwait .. => false
  | .ptest .. => false
  | .pcancel .. => false
  | .pprio .. => false
  | .pstat .. => false
  | _ => true

/-- Has the turn in focus operations outstanding that must end before it retires. -/
def Context.busyTokens (c : Context) : Bool :=
  c.tok.toList.any (fun t => match t with | some t => t.op.mustFinish | none => false)

/-- An operation that another agent answers: the token settles when the answer is there. -/
def State.settleAnswer (s : State) (k : Fin 8) (t : TokPend) (ws : Word → Word → List (Fin 32 × Word)) : State :=
  match t.fault, t.done with
  | some (c, va), _ => s.settleFault k t c va
  | none, some (v, w) => s.settle k (ws v w)
  | none, none => s.later k 1

/-- WAIT_TOKEN_SETTLE: the operation of a token of the focused context falls due, once the answers that it awaits are there. -/
def State.settleTok (s : State) (k : Fin 8) : State :=
  match s.ctx.tok[k] with
  | none => s
  | some t =>
    if s.cycle < t.due || (t.fault.isNone && s.netOpen t.serial) then s
    else
      match t.fault with
      | some (c, va) => if t.op.takesInput then (s.settleFault k t c va).flushLog else s.settleFault k t c va
      | none =>
        if s.ctx.memBlocked t then s.later k 1
        else
          match t.op with
          | .load n sg rd a => s.settleLoad k t n sg rd a
          | .store n a _ => s.settleStore k t n a
          | .qget _ _ rd _ => s.settleQueue k t (fun v => [(rd, v)])
          | .qput _ _ _ => s.settleQueue k t (fun _ => [])
          | .rack fn rack _ rd =>
            match t.done with
            | none => s.later k 1
            | some (v, w) =>
              let s := if fn = 1 then s.trace 8 .c (rack + v.toNat % 2 ^ 32 * 2 ^ 32)
                else if fn = 0 then (s.trace 8 .c rack).replayLog t.serial 1 .c t.pos v.toNat
                else if fn = 2 then
                  ((s.trace 8 .c (rack + w.toNat / 2 ^ 32 * 2 ^ 32)).replayLog t.serial 1 .c t.pos v.toNat).replayLog t.serial 2 .c t.pos w.toNat
                else s
              let s := s.settle k (if fn = 0 then [(rd, v)] else if fn = 2 then pairOf rd v w else [])
              if t.op.takesInput then s.flushLog else s
          | .crr reg rd => s.settle k [(rd, s.crrValue reg)]
          | .time rd => ((s.replayLog t.serial 5 .c t.pos (match t.done with | some (v, _) => v.toNat | none => s.guest.toNat)).settle k
            [(rd, match t.done with | some (v, _) => v | none => s.guest)]).flushLog
          | .tlrw ly a => s.settleTlrw k t ly a
          | .record ly w0 w1 w2 w3 => s.settleRecord k t ly w0 w1 w2 w3
          | .spawn rec => s.spawnNow k t rec
          | .launch rec => s.launchNow k t rec
          | .join a _ => s.joinNow k t a
          | .epost _ => s.settleAnswer k t (fun _ _ => [])
          | .etest _ rd =>
            ((match t.done with | some (v, _) => s.replayLog t.serial 3 .c t.pos v.toNat | none => s).settleAnswer k t
              (fun v _ => [(rd, v)])).flushLog
          | .sete _ _ _ rd => s.settleAnswer k t (fun v _ => [(rd, v)])
          | .budget rd n => s.budgetNow k rd n
          | .cancel a n => (s.cancelNow a n).settle k []
          | .pwait h anon rd => s.settlePwait k h anon rd
          | .ptest h anon rd => s.settlePtest k h anon rd
          | .pcancel h anon rd => s.settlePcancel k h anon rd
          | .pdetach h anon ev => ((s.targets h anon).foldl (fun s j => s.detachPawn j ev) s).settle k []
          | .pprio h anon pri => ((s.targets h anon).foldl (fun s j => s.onPawn j (fun p => { p with pri := pri })) s).settle k []
          | .pstat rd => s.settle k [(rd, s.pawnMask)]

end Sys2Proof.Machine
end

