-- ==== Sys2Proof/Machine/Alu.lean ====
section
/-! DEFINITION. The integer words of the C stream: ALU members, immediates, constants and SEL (R276 to R281, R285,
spec/15_control_arith.md). -/

namespace Sys2Proof.Machine

/-! ### Members (R276 to R278) -/

/-- The 32-bit form of a member: the low halves, and the result sign-extended (R277). -/
def wForm (f : Half → Half → Half) (a b : Word) : Word := (f (a.truncate 32) (b.truncate 32)).signExtend 64

/-- A member of the ALU family, in the width that `w` selects: its two forms of one computation. -/
def aluForm (w : Bool) (f64 : Word → Word → Word) (f32 : Half → Half → Half) (a b : Word) : Word :=
  if w then wForm f32 a b else f64 a b

/-- High half of the signed product of w-bit numbers. -/
def mulhOf {w : Nat} (a b : BitVec w) : BitVec w := BitVec.ofInt w (a.toInt * b.toInt / 2 ^ w)

/-- High half of the unsigned product. -/
def mulhuOf {w : Nat} (a b : BitVec w) : BitVec w := BitVec.ofNat w (a.toNat * b.toNat / 2 ^ w)

/-- The signed quotient, truncated toward zero; a divisor of 0 gives all ones, and the most negative number by -1
gives itself (R278). -/
def divOf {w : Nat} (a b : BitVec w) : BitVec w :=
  if b = 0 then BitVec.allOnes w else BitVec.ofInt w (Int.tdiv a.toInt b.toInt)

/-- The unsigned quotient; a divisor of 0 gives all ones (R278). -/
def divuOf {w : Nat} (a b : BitVec w) : BitVec w :=
  if b = 0 then BitVec.allOnes w else BitVec.ofNat w (a.toNat / b.toNat)

/-- The signed remainder, with the sign of a; a divisor of 0 gives a (R278). -/
def remOf {w : Nat} (a b : BitVec w) : BitVec w :=
  if b = 0 then a else BitVec.ofInt w (Int.tmod a.toInt b.toInt)

/-- The unsigned remainder; a divisor of 0 gives a (R278). -/
def remuOf {w : Nat} (a b : BitVec w) : BitVec w :=
  if b = 0 then a else BitVec.ofNat w (a.toNat % b.toNat)

/-- The signed minimum. -/
def minOf {w : Nat} (a b : BitVec w) : BitVec w := if a.toInt ≤ b.toInt then a else b

/-- The signed maximum. -/
def maxOf {w : Nat} (a b : BitVec w) : BitVec w := if a.toInt ≤ b.toInt then b else a

/-- The number of zero bits above the highest one bit among the low n bits. -/
def clzOf : Nat → Nat → Nat
  | 0, _ => 0
  | n + 1, a => if a / 2 ^ n % 2 = 1 then 0 else 1 + clzOf n a

/-- The number of one bits among the low n bits. -/
def popcOf : Nat → Nat → Nat
  | 0, _ => 0
  | n + 1, a => a % 2 + popcOf n (a / 2)

/-! ### Forms -/

/-- An ALU word of two sources (R275, R276). -/
def State.alu (s : State) (o : Op.Alu) (lat : Nat) (f64 : Word → Word → Word) (f32 : Half → Half → Half) : State :=
  s.guarded o.g (fun s => s.cResult o.rd lat (aluForm o.w f64 f32 (s.ctx.getX o.ra) (s.ctx.getX o.rb)))

/-- A divide member: the divider takes one word until its result has landed, one that a landing buffer holds included (R159, R270). -/
def State.divide (s : State) (o : Op.Alu) (f64 : Word → Word → Word) (f32 : Half → Half → Half) : State :=
  s.guarded o.g (fun s =>
    if s.cycle < s.ctx.divBusy ∨ s.ctx.divideSaved = true then s.waitLanding .divide
    else if s.ctx.ownedX o.rd then s.waitIn .c (.owned o.rd)
    else if s.ctx.landingFull then s.waitLanding .landing
    else (s.cResult o.rd 20 (aluForm o.w f64 f32 (s.ctx.getX o.ra) (s.ctx.getX o.rb))).onCtx
      (fun c => { c with divBusy := s.cycle + 20 }))

/-- CLZ and POPC. -/
def State.aluUn (s : State) (o : Op.AluUn) (f : Nat → Nat → Nat) : State :=
  s.guarded o.g (fun s => s.cResult o.rd 1
    (aluForm o.w (fun a _ => BitVec.ofNat 64 (f 64 a.toNat)) (fun a _ => BitVec.ofNat 32 (f 32 a.toNat))
      (s.ctx.getX o.ra) 0))

/-- An immediate word (R279). -/
def State.immWord (s : State) (o : Op.Imm) (f : Word → Word → Word) : State :=
  s.guarded o.g (fun s => s.cResult o.rd 1 (f (s.ctx.getX o.ra) (o.imm.signExtend 64)))

/-- A shift by an immediate (R280). -/
def State.shiftWord (s : State) (o : Op.ShiftImm) (f : Word → Nat → Word) : State :=
  s.guarded o.g (fun s => s.cResult o.rd 1 (f (s.ctx.getX o.ra) o.amount.val))

/-! ### Meanings -/

/-- ADD (R276). -/
def execAdd (o : Op.Alu) (s : State) : Host.Outcome State Fault Refusal := .next (s.alu o 1 (· + ·) (· + ·))

/-- SUB (R276). -/
def execSub (o : Op.Alu) (s : State) : Host.Outcome State Fault Refusal := .next (s.alu o 1 (· - ·) (· - ·))

/-- AND (R276). -/
def execAnd (o : Op.Alu) (s : State) : Host.Outcome State Fault Refusal := .next (s.alu o 1 (· &&& ·) (· &&& ·))

/-- OR (R276). -/
def execOr (o : Op.Alu) (s : State) : Host.Outcome State Fault Refusal := .next (s.alu o 1 (· ||| ·) (· ||| ·))

/-- XOR (R276). -/
def execXor (o : Op.Alu) (s : State) : Host.Outcome State Fault Refusal := .next (s.alu o 1 (· ^^^ ·) (· ^^^ ·))

/-- SHL (R276, R277). -/
def execShl (o : Op.Alu) (s : State) : Host.Outcome State Fault Refusal :=
  .next (s.alu o 1 (fun a b => a <<< (b.toNat % 64)) (fun a b => a <<< (b.toNat % 32)))

/-- SHR (R276, R277). -/
def execShr (o : Op.Alu) (s : State) : Host.Outcome State Fault Refusal :=
  .next (s.alu o 1 (fun a b => a >>> (b.toNat % 64)) (fun a b => a >>> (b.toNat % 32)))

/-- SRA (R276, R277). -/
def execSra (o : Op.Alu) (s : State) : Host.Outcome State Fault Refusal :=
  .next (s.alu o 1 (fun a b => a.sshiftRight (b.toNat % 64)) (fun a b => a.sshiftRight (b.toNat % 32)))

/-- MUL (R276, R277). -/
def execMul (o : Op.Alu) (s : State) : Host.Outcome State Fault Refusal := .next (s.alu o 4 (· * ·) (· * ·))

/-- MULH (R276, R277). -/
def execMulh (o : Op.Alu) (s : State) : Host.Outcome State Fault Refusal := .next (s.alu o 4 mulhOf mulhOf)

/-- MULHU (R276, R277). -/
def execMulhu (o : Op.Alu) (s : State) : Host.Outcome State Fault Refusal := .next (s.alu o 4 mulhuOf mulhuOf)

/-- DIV (R276 to R278). -/
def execDiv (o : Op.Alu) (s : State) : Host.Outcome State Fault Refusal := .next (s.divide o divOf divOf)

/-- DIVU (R276 to R278). -/
def execDivu (o : Op.Alu) (s : State) : Host.Outcome State Fault Refusal := .next (s.divide o divuOf divuOf)

/-- REM (R276 to R278). -/
def execRem (o : Op.Alu) (s : State) : Host.Outcome State Fault Refusal := .next (s.divide o remOf remOf)

/-- REMU (R276 to R278). -/
def execRemu (o : Op.Alu) (s : State) : Host.Outcome State Fault Refusal := .next (s.divide o remuOf remuOf)

/-- MIN (R276, R277). -/
def execMin (o : Op.Alu) (s : State) : Host.Outcome State Fault Refusal := .next (s.alu o 1 minOf minOf)

/-- MAX (R276, R277). -/
def execMax (o : Op.Alu) (s : State) : Host.Outcome State Fault Refusal := .next (s.alu o 1 maxOf maxOf)

/-- CLZ (R276, R277). -/
def execClz (o : Op.AluUn) (s : State) : Host.Outcome State Fault Refusal := .next (s.aluUn o clzOf)

/-- POPC (R276, R277). -/
def execPopc (o : Op.AluUn) (s : State) : Host.Outcome State Fault Refusal := .next (s.aluUn o popcOf)

/-- ADDI (R279). -/
def execAddi (o : Op.Imm) (s : State) : Host.Outcome State Fault Refusal := .next (s.immWord o (· + ·))

/-- ANDI (R279). -/
def execAndi (o : Op.Imm) (s : State) : Host.Outcome State Fault Refusal := .next (s.immWord o (· &&& ·))

/-- ORI (R279). -/
def execOri (o : Op.Imm) (s : State) : Host.Outcome State Fault Refusal := .next (s.immWord o (· ||| ·))

/-- XORI (R279). -/
def execXori (o : Op.Imm) (s : State) : Host.Outcome State Fault Refusal := .next (s.immWord o (· ^^^ ·))

/-- SHLI (R280). -/
def execShli (o : Op.ShiftImm) (s : State) : Host.Outcome State Fault Refusal :=
  .next (s.shiftWord o (fun a n => a <<< n))

/-- SHRI (R280). -/
def execShri (o : Op.ShiftImm) (s : State) : Host.Outcome State Fault Refusal :=
  .next (s.shiftWord o (fun a n => a >>> n))

/-- SRAI (R280). -/
def execSrai (o : Op.ShiftImm) (s : State) : Host.Outcome State Fault Refusal :=
  .next (s.shiftWord o (fun a n => a.sshiftRight n))

/-- LUI (R281). -/
def execLui (o : Op.Upper) (s : State) : Host.Outcome State Fault Refusal :=
  .next (s.guarded o.g (fun s => s.cResult o.rd 1 (o.imm.signExtend 64 <<< 14)))

/-- ADDPC (R281): relative to the address of the word. -/
def execAddpc (o : Op.Upper) (s : State) : Host.Outcome State Fault Refusal :=
  .next (s.guarded o.g (fun s => s.cResult o.rd 1 (s.ctx.cs.pc + (o.imm.signExtend 64 <<< 2))))

/-- SEL (R285): it always writes. -/
def execSel (o : Op.Sel) (s : State) : Host.Outcome State Fault Refusal :=
  .next (s.guarded o.g (fun s => s.cResult o.rd 1 (if s.ctx.getP o.ps then s.ctx.getX o.ra else s.ctx.getX o.rb)))

end Sys2Proof.Machine
end

