-- ==== Sys2Proof/Machine/PawnWords.lean ====
section
/-! DEFINITION. The C-stream words over pawns, collectives and racks (R309 to R314, spec/16_control_system.md). -/

namespace Sys2Proof.Machine

/-! ### Pawns (R309, R310) -/

/-- The registers of a pair destination: with rd = 0 both results are discarded, and neither register is a destination (R158, R294). -/
def pairRegs (rd : Fin 32) : List (Fin 32) := if rd = 0 then [] else [rd, rd + 1]

/-- A pawn word with a pair result: an odd destination traps (R294). The handle is read at issue. -/
def State.pawnPair (s : State) (o : Op.PawnRes) (lat : Nat) (op : BitVec 16 → Bool → TokOp) : State :=
  if o.rd.val % 2 = 1 then s.trapWord .illegal 0
  else s.cToken o.tok (pairRegs o.rd) lat (op (s.ctx.cHandle o.h) (o.h == 0))

/-- PWAIT (R309): it settles 3 cycles after the pawn has ended, and a handle that is GONE at once. -/
def execPwait (o : Op.PawnRes) (s : State) : Host.Outcome State Fault Refusal :=
  .next (s.guarded o.g (fun s => s.pawnPair o 1 (fun h anon => .pwait h anon o.rd)))

/-- PTEST (R309): 12 cycles. -/
def execPtest (o : Op.PawnRes) (s : State) : Host.Outcome State Fault Refusal :=
  .next (s.guarded o.g (fun s => s.pawnPair o 12 (fun h anon => .ptest h anon o.rd)))

/-- The pawns of a word asked to stop (R170). -/
def State.cancelTargets (s : State) (h : BitVec 16) (anon : Bool) : State :=
  (s.targets h anon).foldl (fun s k => s.cancelPawn k) s

/-- PCANCEL (R309, R170): the pawns are told, and the token settles when they have ended. -/
def execPcancel (o : Op.PawnRes) (s : State) : Host.Outcome State Fault Refusal :=
  .next (s.guarded o.g (fun s =>
    let h := s.ctx.cHandle o.h
    let go := decide (o.rd.val % 2 = 0) && (s.ctx.tokHazard o.tok (pairRegs o.rd)).isNone
    (if go then s.cancelTargets h (o.h == 0) else s).pawnPair o 12 (fun h anon => .pcancel h anon o.rd)))

/-- PDETACH (R309): event name in bits [15:0], valid in bit 16. -/
def execPdetach (o : Op.PawnArg) (s : State) : Host.Outcome State Fault Refusal :=
  .next (s.guarded o.g (fun s =>
    let v := (s.ctx.getX o.rb).toNat
    s.cToken o.tok [] 12 (.pdetach (s.ctx.cHandle o.h) (o.h == 0) (if v / 65536 % 2 = 1 then some (v % 65536) else none))))

/-- PPRIO (R309). -/
def execPprio (o : Op.PawnArg) (s : State) : Host.Outcome State Fault Refusal :=
  .next (s.guarded o.g (fun s =>
    s.cToken o.tok [] 12 (.pprio (s.ctx.cHandle o.h) (o.h == 0) ((s.ctx.getX o.rb).toNat % 8))))

/-- PSTAT (R309). -/
def execPstat (o : Op.ResTok) (s : State) : Host.Outcome State Fault Refusal :=
  .next (s.guarded o.g (fun s => s.cToken o.tok [o.rd] 12 (.pstat o.rd)))

/-! ### Collectives (R311 to R313, R48) -/

/-- The member and descriptor contents that number a collective (R313): the logical core and the 64 bytes. -/
def State.collKey (s : State) (desc : Word) : Nat :=
  let bytes := match s.readDwords desc.toNat 8 with
    | .ok ws => ws.foldr (fun w acc => w + 2 ^ 64 * acc) 0
    | .error _ => 0
  (s.logicalOf s.site).getD 0xFFFF * 2 ^ 512 + bytes

/-- The set bits of a number, below n. -/
def bitsOf (n v : Nat) : List Nat := (List.range n).filter (fun i => decide (v / 2 ^ i % 2 = 1))

/-- The member number of a logical core of a chip (R311): ascending chips, then ascending cores. -/
def memberIx (chips cores : List Nat) (chip core : Nat) : Nat := chips.idxOf chip * cores.length + cores.idxOf core

/-- The range of the own share that the buffer of a collective takes: COUNT bytes, or that for each member; a broadcast's root only reads
it (R160, R312). -/
def State.collRanges (s : State) (fn : Nat) (desc params buf : Word) : List (Nat × Nat × Bool) :=
  let (members, isRoot) := match s.readDwords desc.toNat 6 with
    | .ok ws =>
      let chips := bitsOf 64 (ws.getD 0 0)
      let cores := bitsOf 280 ((ws.drop 1).foldr (fun w acc => w + 2 ^ 64 * acc) 0)
      (chips.length * cores.length,
        decide (memberIx chips cores s.chip.toNat ((s.logicalOf s.site).getD 0xFFFF) = params.toNat / 2 ^ 40 % 65536))
    | .error _ => (1, false)
  let n := params.toNat % 2 ^ 32 * (if fn = 2 ∨ fn = 3 then members else 1)
  if n = 0 then [] else ((s.ownRange buf.toNat (buf.toNat + n)).toList).map (fun r => (r.1, r.2, !(fn == 1 && isRoot)))

/-- OVERLAP at a word of the C stream that creates a pawn (R160). -/
def State.overlapC (s : State) (r : RangeOp) (va : Word) : State :=
  s.enterTrap
    { rank := 0, order := 0, cause := .overlap, st := .c, pawn := none, tok := none, async_ := false, st2 := r.st
      faddr := va &&& 0xFFFFFFFFFFFFF#64, fpc := s.ctx.cs.pc, fpc2 := r.pc, frec := 0 } s.ctx.cs.pc

/-- A collective word (R311): one pawn on the T path. -/
def State.collWord (s : State) (g : Fin 8) (detach : Bool) (h : Fin 16) (ra : Fin 32) (buf : Word) (fn : Nat) : State :=
  s.guarded g (fun s =>
    if ra.val % 2 = 1 then s.trapWord .illegal 0
    else
      let desc := s.ctx.getX ra
      let params := s.ctx.getX (ra + 1)
      if desc.toNat % 64 ≠ 0 then s.trapWord .align desc
      else if buf.toNat % 64 ≠ 0 then s.trapWord .align buf
      else
        match s.freePawn with
        | none => s.waitIn .c .pawnEntry
        | some k =>
          let rs := s.collRanges fn desc params buf
          match s.checkRanges .c true rs with
          | .error none => s.waitIn .c .rangeSlot
          | .error (some r) => s.overlapC r buf
          | .ok _ =>
          let s := s.addRanges .c s.serial (some k.val) rs
          let key := s.collKey desc
          let n := s.part.collSeq.getD key 0
          let s := s.onPart (fun p => { p with collSeq := p.collSeq.put key (n + 1) })
          let p : NewPawn :=
            { st := .c, eng := .collective, pri := params.toNat / 2 ^ 56 % 8, h := h, detach := detach
              job := .coll fn desc params buf n, sync := 0, due := s.cycle + 1, lead := 0, rows := 0, draw := false, idx := [], tr := [] }
          ((s.createPawn k p).issuedIn .c).observe)

/-- ALLRED (R311, R312). -/
def execAllred (o : Op.Coll) (s : State) : Host.Outcome State Fault Refusal :=
  .next (s.collWord o.g o.detach o.h o.ra (s.ctx.getX o.rb) 0)

/-- BCAST (R311, R312). -/
def execBcast (o : Op.Coll) (s : State) : Host.Outcome State Fault Refusal :=
  .next (s.collWord o.g o.detach o.h o.ra (s.ctx.getX o.rb) 1)

/-- ALLGATH (R311, R312). -/
def execAllgath (o : Op.Coll) (s : State) : Host.Outcome State Fault Refusal :=
  .next (s.collWord o.g o.detach o.h o.ra (s.ctx.getX o.rb) 2)

/-- REDSCAT (R311, R312). -/
def execRedscat (o : Op.Coll) (s : State) : Host.Outcome State Fault Refusal :=
  .next (s.collWord o.g o.detach o.h o.ra (s.ctx.getX o.rb) 3)

/-- BARRIER (R311, R312). -/
def execBarrier (o : Op.Barrier) (s : State) : Host.Outcome State Fault Refusal :=
  .next (s.collWord o.g o.detach o.h o.ra 0 4)

/-! ### Racks (R314, R101, R105) -/

/-- The rack number and port of a RACK word's source. -/
def rackOf (v : Word) : Nat × Nat := (v.toNat % 1024, v.toNat / 2 ^ 16 % 64)

/-- The cycles to a rack's controller; those of another die for a number that names no rack. -/
def State.rackLat (s : State) (n : Nat) : Nat :=
  match s.part.racks.find? n with
  | some r => r.latency (clusterOf s.site)
  | none => 20

/-- The cycles for which the controller of a rack still stands still (R101). -/
def State.rackStill (s : State) (n : Nat) : Nat :=
  match s.part.racks.find? n with
  | some r => s.stretchLeft (r.home / 9)
  | none => 0

/-- A rack operation issued (R101): its token is taken, and it travels to the controller. -/
def State.rackWord (s : State) (tok : Fin 8) (owned : List (Fin 32)) (rd : Fin 32) (fn : Nat) (v : Word) : State :=
  match s.ctx.tokHazard tok owned with
  | some w => s.waitIn .c w
  | none =>
    let n := (rackOf v).1
    let lat := s.rackLat n
    let o : RackOp := { apply := s.cycle + lat + s.rackStill n, serial := s.serial, fn := fn, rack := n, port := (rackOf v).2
                        holder := .turn s.turnId, cluster := clusterOf s.site, tok := some (s.turnId, tok), sel := none }
    ((s.takeTok tok owned (2 * lat + s.rackStill n) (.rack fn n (rackOf v).2 rd)).onPart (fun p => { p with rackops := p.rackops ++ [o] })).issuedIn .c

/-- Has a pawn that the turn created, detached or not, not ended (R105). -/
def State.pawnsOpen (s : State) : Bool :=
  pawnSlots.any (fun k => let p := s.pawn k; s.created p && !p.state.ended)

/-- Has a read of the context not returned its data (R105). -/
def Context.readsPending (c : Context) : Bool :=
  c.tok.toList.any (fun t => match t with
    | some t => (match t.op with | .load .. => true | .tlrw .. => true | _ => false)
    | none => false) ||
  c.twin.any (fun e => match e.op with | .ldq .. => true | .scas .. => true | _ => false)

/-- RKOPENW (R314, R103): under replay the logged address is delivered (R211). -/
def execRkopenw (o : Op.TokRes) (s : State) : Host.Outcome State Fault Refusal :=
  .next (s.guarded o.g (fun s =>
    if s.ctx.replaying then
      match s.ctx.tokHazard o.tok [o.rd] with
      | some w => s.waitIn .c w
      | none =>
        match s.replayTake 1 .c s.ctx.cs.issued with
        | none => s.diverge .c
        | some (v, s) =>
          let lat := 2 * s.rackLat (rackOf (s.ctx.getX o.ra)).1
          ((s.takeTok o.tok [o.rd] lat (.rack 0 (rackOf (s.ctx.getX o.ra)).1 0 o.rd)).doneLater o.tok lat v 0).issuedIn .c
    else s.rackWord o.tok [o.rd] o.rd 0 (s.ctx.getX o.ra)))

/-- A rack operation without a result under replay: none reaches a controller (R211). -/
def State.replayRack (s : State) (tok : Fin 8) (fn : Nat) (v : Word) : State :=
  let lat := 2 * s.rackLat (rackOf v).1
  ((s.takeTok tok [] lat (.rack fn (rackOf v).1 (rackOf v).2 0)).doneLater tok lat 0 0).issuedIn .c

/-- RKCOMMIT (R314, R103): a release at the rack's scope (R105). -/
def execRkcommit (o : Op.TokSrc) (s : State) : Host.Outcome State Fault Refusal :=
  .next (s.guarded o.g (fun s =>
    if s.ctx.tok[o.tok].isSome then s.waitIn .c (.token o.tok)
    else if s.pendingOn .c 0x0F s.serial (BitVec.allOnes 64) || s.ctx.twinOpen || s.pawnsOpen then s.waitIn .c .release
    else if s.ctx.replaying then s.replayRack o.tok 1 (s.ctx.getX o.ra)
    else s.rackWord o.tok [] 0 1 (s.ctx.getX o.ra)))

/-- RKOPENR (R314, R103): a pair destination; under replay the two logged words are delivered (R211). -/
def execRkopenr (o : Op.TokRes) (s : State) : Host.Outcome State Fault Refusal :=
  .next (s.guarded o.g (fun s =>
    if o.rd.val % 2 = 1 then s.trapWord .illegal 0
    else if s.ctx.replaying then
      match s.ctx.tokHazard o.tok (pairRegs o.rd) with
      | some w => s.waitIn .c w
      | none =>
        match s.replayTake 1 .c s.ctx.cs.issued with
        | none => s.diverge .c
        | some (v, t) =>
          match t.replayTake 2 .c t.ctx.cs.issued with
          | none => s.diverge .c
          | some (w, s) =>
            let lat := 2 * s.rackLat (rackOf (s.ctx.getX o.ra)).1
            ((s.takeTok o.tok (pairRegs o.rd) lat (.rack 2 (rackOf (s.ctx.getX o.ra)).1 0 o.rd)).doneLater o.tok lat v w).issuedIn .c
    else s.rackWord o.tok (pairRegs o.rd) o.rd 2 (s.ctx.getX o.ra)))

/-- RKCLOSE (R314, R103, R104): of a reader port it is a release of reads (R105). -/
def execRkclose (o : Op.TokSrc) (s : State) : Host.Outcome State Fault Refusal :=
  .next (s.guarded o.g (fun s =>
    let v := s.ctx.getX o.ra
    if s.ctx.tok[o.tok].isSome then s.waitIn .c (.token o.tok)
    else if (rackOf v).2 ≠ 63 ∧ (s.ctx.readsPending || s.pawnsOpen) then s.waitIn .c .release
    else if s.ctx.replaying then s.replayRack o.tok 3 v
    else s.rackWord o.tok [] 0 3 v))

end Sys2Proof.Machine
end

