-- ==== Sys2Proof/WellFormed.lean ====
section
/-! DEFINITION. The conditions on an instruction's operands that its constructor does not already say.

For a word, they are the values that R262 and R264 to R269 (spec/14_opcode_map.md), R147, R340, R341 and
R261 call reserved; a word that breaks one traps with ILLEGAL. For an event, they are the ranges of the
numbers that name a part of the package (R7 to R9, R52). -/

namespace Sys2Proof

/-- The control-register numbers that R266 lists. -/
def listedRegister (r : Fin 4096) : Bool :=
  r.val ≤ 0x00A || (0x010 ≤ r.val && r.val ≤ 0x017) || (0x018 ≤ r.val && r.val ≤ 0x01E) ||
    (0x020 ≤ r.val && r.val ≤ 0x024) || r.val == 0x026 || (0x028 ≤ r.val && r.val ≤ 0x02F)

/-- An end point that the package has (R7, R24, R36). -/
def NetEnd.ok : NetEnd → Bool
  | .core site => decide (site < 288)
  | .deep site => decide (site < 288)
  | .rim _ y => decide (y < 12)
  | .hbm stack port => decide (stack < 12) && decide (port < 4)

/-- The bytes that a request reads or writes. -/
def PktCmd.bytes : PktCmd → Nat
  | .read n => n
  | .write n => n

/-- A request that the networks carry: from a core or a rim-die port, of 1 to 512 bytes, so that no packet has more than 4 data flits (R25,
R26). -/
def PktSpec.ok (p : PktSpec) : Bool :=
  p.src.ok && p.dst.ok && p.asks.all NetEnd.ok && decide (1 ≤ p.cmd.bytes) && decide (p.cmd.bytes ≤ 512) &&
    (match p.src with | .core _ => true | .rim _ _ => true | _ => false)

/-- The operands of the instruction are values its row allows. -/
def Instr.wellFormed : Instr → Bool
  | .add _ => true
  | .sub _ => true
  | .and _ => true
  | .or _ => true
  | .xor _ => true
  | .shl _ => true
  | .shr _ => true
  | .sra _ => true
  | .mul _ => true
  | .mulh _ => true
  | .mulhu _ => true
  | .div _ => true
  | .divu _ => true
  | .rem _ => true
  | .remu _ => true
  | .min _ => true
  | .max _ => true
  | .clz _ => true
  | .popc _ => true
  | .addi _ => true
  | .andi _ => true
  | .ori _ => true
  | .xori _ => true
  | .shli _ => true
  | .shri _ => true
  | .srai _ => true
  | .lui _ => true
  | .addpc _ => true
  | .cmpEq _ => true
  | .cmpNe _ => true
  | .cmpLt _ => true
  | .cmpLtu _ => true
  | .cmpGe _ => true
  | .cmpGeu _ => true
  | .cmpiEq _ => true
  | .cmpiNe _ => true
  | .cmpiLt _ => true
  | .cmpiLtu _ => true
  | .pand _ => true
  | .por _ => true
  | .pxor _ => true
  | .pandn _ => true
  | .pfrom _ => true
  | .pto _ => true
  | .sel _ => true
  | .ldb _ => true
  | .ldh _ => true
  | .ldw _ => true
  | .ldd _ => true
  | .ldbu _ => true
  | .ldhu _ => true
  | .ldwu _ => true
  | .stb _ => true
  | .sth _ => true
  | .stw _ => true
  | .std _ => true
  | .wait o => o.mask != 0#8
  | .pbr _ => true
  | .pbrx _ => true
  | .br o => o.hint != 3
  | .call o => o.hint != 3
  | .loopc o => o.hint != 3
  | .tstart _ => true
  | .mstart _ => true
  | .vstart _ => true
  | .sdrain _ => true
  | .qbind _ => true
  | .qget _ => true
  | .qgetp _ => true
  | .qput _ => true
  | .tpost _ => true
  | .tawait _ => true
  | .spawn _ => true
  | .join _ => true
  | .cEnd _ => true
  | .ewait _ => true
  | .epost _ => true
  | .etest _ => true
  | .launch _ => true
  | .budget _ => true
  | .cancel _ => true
  | .cpoint _ => true
  | .pwait _ => true
  | .ptest _ => true
  | .pcancel _ => true
  | .pdetach _ => true
  | .pprio _ => true
  | .pstat _ => true
  | .allred _ => true
  | .bcast _ => true
  | .allgath _ => true
  | .redscat _ => true
  | .barrier _ => true
  | .rkopenw _ => true
  | .rkcommit _ => true
  | .rkopenr _ => true
  | .rkclose _ => true
  | .fence o => o.before != 0#6 && o.after != 0#6
  | .crr o => listedRegister o.reg
  | .crw o => listedRegister o.reg
  | .trap _ => true
  | .eret _ => true
  | .bkpt _ => true
  | .tlrw _ => true
  | .time _ => true
  | .seta _ => true
  | .setn _ => true
  | .sets _ => true
  | .setnt _ => true
  | .geta _ => true
  | .ldq _ => true
  | .stq _ => true
  | .pref _ => true
  | .copy _ => true
  | .gath _ => true
  | .scat _ => true
  | .rld _ => true
  | .rst _ => true
  | .saccAdd _ => true
  | .saccMin _ => true
  | .saccMax _ => true
  | .saccSwap _ => true
  | .scas _ => true
  | .adda _ => true
  | .addar _ => true
  | .tLoop _ => true
  | .send _ => true
  | .recv _ => true
  | .tSync _ => true
  | .tFence o => o.before != 0#6 && o.after != 0#6
  | .tEnd _ => true
  | .tWaith _ => true
  | .nsetLevel o => decide (o.level.val < 6)
  | .nsetIns _ => true
  | .nsetFmt o => decide (o.v.val < 14)
  | .mgo o => decide (o.depm1.val < 6)
  | .mzero _ => true
  | .acc2s _ => true
  | .s2acc _ => true
  | .accmul _ => true
  | .mLoop _ => true
  | .mSync _ => true
  | .mEnd _ => true
  | .mFence o => o.before != 0#6 && o.after != 0#6
  | .mWaith _ => true
  | .vadd _ => true
  | .vsub _ => true
  | .vmul _ => true
  | .vfma _ => true
  | .vmin _ => true
  | .vmax _ => true
  | .vabs _ => true
  | .vneg _ => true
  | .vrcp _ => true
  | .vrsq _ => true
  | .vexp2 _ => true
  | .vlog2 _ => true
  | .viadd _ => true
  | .visub _ => true
  | .vimul _ => true
  | .vand _ => true
  | .vor _ => true
  | .vxor _ => true
  | .vshl _ => true
  | .vshr _ => true
  | .vsra _ => true
  | .vimin _ => true
  | .vimax _ => true
  | .vcmpEq o => (!o.uns || o.int)
  | .vcmpNe o => (!o.uns || o.int)
  | .vcmpLt o => (!o.uns || o.int)
  | .vcmpLe o => (!o.uns || o.int)
  | .vcmpGt o => (!o.uns || o.int)
  | .vcmpGe o => (!o.uns || o.int)
  | .vsel _ => true
  | .vadds _ => true
  | .vsubs _ => true
  | .vmuls _ => true
  | .vfmas _ => true
  | .vmins _ => true
  | .vmaxs _ => true
  | .viaddi _ => true
  | .vbcasti _ => true
  | .vcvt o => o.fmt != 0 && decide (o.fmt.val < 14) && decide (o.rm.val < 4)
  | .vpack _ => true
  | .vunpk _ => true
  | .vrsum _ => true
  | .vrmax _ => true
  | .vrmin _ => true
  | .vperm _ => true
  | .vbcast _ => true
  | .vrot _ => true
  | .vmov _ => true
  | .vpop _ => true
  | .vdup _ => true
  | .vsetsh _ => true
  | .vsetl _ => true
  | .mand _ => true
  | .mor _ => true
  | .mxor _ => true
  | .mnot _ => true
  | .vsmovToS _ => true
  | .vsmovToLane _ => true
  | .spld o => o.part != 3
  | .spst o => o.part != 3
  | .spup _ => true
  | .spdn _ => true
  | .spcvt _ => true
  | .vLoop _ => true
  | .vSync _ => true
  | .vEnd _ => true
  | .vFence o => o.before != 0#6 && o.after != 0#6
  | .powerUpBoot _ _ => true
  | .bootLinkTimeout => true
  | .tftpBlockReceive _ data => decide (data.length ≤ 512)
  | .tftpBlockRetry => true
  | .bootRetry => true
  | .droopTrigger die _ => decide (die < 18)
  | .columnSample site _ => decide (site < 288)
  | .hbmStackSample stack _ => decide (stack < 12)
  | .hotStackReport stack => decide (stack < 12)
  | .drawceilWrite _ => true
  | .drawgGrantWrite part _ => decide (part < 16)
  | .ringMeasureStart die _ => decide (die < 18)
  | .ringMeasureDone die _ => decide (die < 18)
  | .mgmtRegisterWrite _ _ => true
  | .myincChipWrite _ => true
  | .sealOpen part => decide (part < 16)
  | .sealClose part => decide (part < 16)
  | .repairRequest _ => true
  | .coreSiteRepair site => decide (site < 288)
  | .coreSiteRetire site => decide (site < 288)
  | .hbmRowRepair _ => true
  | .hbmRowRepairDone _ => true
  | .hbmChannelRetire stack chan => decide (stack < 12) && decide (chan < 32)
  | .deepRowSpare site row => decide (site < 288) && decide (row < 65536)
  | .deepBankRetire site bank => decide (site < 288) && decide (bank < 64)
  | .linkLaneSpare port lane => decide (port < 18) && decide (lane < 9)
  | .linkPortRetrain port => decide (port < 18)
  | .linkPortOut port => decide (port < 18)
  | .meshLinkReroute x y _ => decide (x < 24) && decide (y < 12)
  | .serviceCoreTakeover core => decide (core < 4)
  | .firmwareSwitch => true
  | .thermalTrip _ _ => true
  | .powerTrip _ => true
  | .serviceCoreHostWrite _ _ => true
  | .ethernetFrameSend port _ => decide (port < 18)
  | .packetInject p => p.ok
  | .flitSetup => true
  | .flitBypass => true
  | .latchedHop _ => true
  | .bridgeRetryExhausted x y _ => decide (x < 24) && decide (y < 12)
  | .linkFlitReplay port => decide (port < 18)
  | .linkTransactionSend chip _ _ => decide (chip < 64)
  | .linkAckSend chip port => decide (chip < 64) && decide (port < 18)
  | .linkAckReceive port chip _ => decide (port < 18) && decide (chip < 64)
  | .linkResend port _ => decide (port < 18)
  | .linkRetryExhausted port _ => decide (port < 18)
  | .peerRequestReceive _ => true
  | .incarnationAnnounce => true
  | .announcementReceive chip _ => decide (chip < 64)
  | .collectiveExchangeStep _ _ => true
  | .vfFunctionLevelReset part => decide (part < 16)
  | .partitionCreate part _ => decide (part < 16)
  | .partitionDestroy part => decide (part < 16)
  | .partitionMapChange part _ => decide (part < 16)
  | .submitWrite part bytes _ => decide (part < 16) && decide (bytes ≤ 8)
  | .submissionCopy part => decide (part < 16)
  | .attestationRequest nonce _ => decide (nonce.length = 32)
  | .keyCounterConfirm => true
  | .jobLoad part _ => decide (part < 16)
  | .importRegister part _ _ _ => decide (part < 16)
  | .activityRelease part _ _ => decide (part < 16)
  | .selectorSizeRead part _ _ => decide (part < 16)
  | .deadlineMiss part _ _ => decide (part < 16)
  | .counterDecrement part _ _ _ => decide (part < 16)
  | .turnRetire site _ => decide (site < 288)
  | .cancelLinearise part _ _ => decide (part < 16)
  | .cancelBroadcast part => decide (part < 16)
  | .turnDispatch part cluster => decide (part < 16) && decide (cluster < 72)
  | .spillRefill part cluster => decide (part < 16) && decide (cluster < 72)
  | .turnDisplace part cluster => decide (part < 16) && decide (cluster < 72)
  | .contextActivate site => decide (site < 288)
  | .urgentSwitchEvaluate site => decide (site < 288)
  | .urgentSwitch site => decide (site < 288)
  | .stealRequest site _ => decide (site < 288)
  | .stealCrossDie site _ => decide (site < 288)
  | .budgetTrap site _ => decide (site < 288)
  | .eventTableApply part => decide (part < 16)
  | .overflowWalk part => decide (part < 16)
  | .rackOpApply part => decide (part < 16)
  | .waitTokenSettle site _ _ => decide (site < 288)
  | .pageWalkComplete site => decide (site < 288)
  | .prefetchReady site _ _ => decide (site < 288)
  | .invctlWrite part _ => decide (part < 16)
  | .ptrootWrite part _ => decide (part < 16)
  | .shootdownAck part site => decide (part < 16) && decide (site < 288)
  | .replicaRead part die _ => decide (part < 16) && decide (die < 18)
  | .replicaWrite part => decide (part < 16)
  | .holderAck part die => decide (part < 16) && decide (die < 18)
  | .fenceRetire site _ _ => decide (site < 288)
  | .resultLand site _ => decide (site < 288)
  | .pawnStep site _ => decide (site < 288)
  | .pawnEnd site _ => decide (site < 288)
  | .mgoStep site _ => decide (site < 288)
  | .drawSlotGrant part => decide (part < 16)
  | .tWordCommit site _ => decide (site < 288)
  | .lateFault site _ => decide (site < 288)
  | .vectorResultPush site _ => decide (site < 288)
  | .trapEntry site _ => decide (site < 288)
  | .deadlockDetect site _ => decide (site < 288)
  | .handlerDeadlock site _ => decide (site < 288)
  | .partitionSwap _ => true
  | .remapResponseLand site => decide (site < 288)
  | .timeRegisterStage part _ _ => decide (part < 16)
  | .timeEpoch part => decide (part < 16)
  | .scrubVisit _ _ => true
  | .dbgHalt site _ => decide (site < 288)
  | .debugHaltLand site _ => decide (site < 288)
  | .dbgResume site _ => decide (site < 288)
  | .dbgStep site _ _ => decide (site < 288)
  | .dbgRead site _ _ => decide (site < 288)
  | .dbgWrite site _ _ => decide (site < 288)
  | .dbgDrop site _ => decide (site < 288)
  | .dbgBadcmd site => decide (site < 288)
  | .breakpointFire site _ _ => decide (site < 288)
  | .traceDrain site => decide (site < 288)
  | .powerFail => true
  | .peerUpWaitTimeout site _ => decide (site < 288)
  | .dhcpv6ReplyReceive _ _ _ => true
  | .submissionWindowWrite part _ _ => decide (part < 16)
  | .sitesJoinPartition part _ => decide (part < 16)
  | .clusterPowerGate cluster => decide (cluster < 72)
  | .clusterUngate cluster => decide (cluster < 72)
  | .bankGoesDrowsy site bank => decide (site < 288) && decide (bank < 64)

end Sys2Proof
end

