-- ==== Sys2Proof/Decode.lean ====
section
/-! DEFINITION. Decoding a word of a code section (R255 to R269), and encoding one.

Every 32-bit word either decodes to one instruction of its stream or is rejected by name (R262). The same
word means different instructions in different streams (R246), so the decoder takes the stream.
The numbers are natural numbers, cut by division and remainder; bits [hi:lo] of w are bits w hi lo. -/

namespace Sys2Proof

/-- Why a word does not decode (R262): each is an ILLEGAL trap of the step. -/
inductive DecodeError where
  /-- The bytes end inside the word. -/
  | short
  /-- The major opcode is not listed for the stream. -/
  | unlistedMajor
  /-- The fn, sub-op or condition value is not listed for the family. -/
  | unlistedFn
  /-- A field marked reserved is not zero. -/
  | reservedField
  /-- An operand has a value that its row reserves. -/
  | reservedValue
deriving DecidableEq, Repr

/-- Bits [hi:lo] of w. -/
def bits (w hi lo : Nat) : Nat := w / 2 ^ lo % 2 ^ (hi + 1 - lo)

/-! ### The operand fields, format by format (R256 to R261) -/

/-- The operands of an Alu word. -/
def Op.Alu.ofWord (w : Nat) : Op.Alu :=
  { g := Fin.ofNat 8 (w / 2 ^ 23)
    rd := Fin.ofNat 32 (w / 2 ^ 18)
    ra := Fin.ofNat 32 (w / 2 ^ 13)
    rb := Fin.ofNat 32 (w / 2 ^ 8)
    w := w / 2 ^ 7 % 2 == 1 }

/-- The operand bits of an Alu word, in their places. -/
def Op.Alu.toBits (o : Op.Alu) : Nat :=
  o.g.val * 2 ^ 23 + o.rd.val * 2 ^ 18 + o.ra.val * 2 ^ 13 + o.rb.val * 2 ^ 8 + o.w.toNat * 2 ^ 7

/-- The operands of an AluUn word. -/
def Op.AluUn.ofWord (w : Nat) : Op.AluUn :=
  { g := Fin.ofNat 8 (w / 2 ^ 23)
    rd := Fin.ofNat 32 (w / 2 ^ 18)
    ra := Fin.ofNat 32 (w / 2 ^ 13)
    w := w / 2 ^ 7 % 2 == 1 }

/-- The operand bits of an AluUn word, in their places. -/
def Op.AluUn.toBits (o : Op.AluUn) : Nat :=
  o.g.val * 2 ^ 23 + o.rd.val * 2 ^ 18 + o.ra.val * 2 ^ 13 + o.w.toNat * 2 ^ 7

/-- The operands of a Imm word. -/
def Op.Imm.ofWord (w : Nat) : Op.Imm :=
  { g := Fin.ofNat 8 (w / 2 ^ 23)
    rd := Fin.ofNat 32 (w / 2 ^ 18)
    ra := Fin.ofNat 32 (w / 2 ^ 13)
    imm := BitVec.ofNat 13 (w / 2 ^ 0) }

/-- The operand bits of a Imm word, in their places. -/
def Op.Imm.toBits (o : Op.Imm) : Nat :=
  o.g.val * 2 ^ 23 + o.rd.val * 2 ^ 18 + o.ra.val * 2 ^ 13 + o.imm.toNat * 2 ^ 0

/-- The operands of a ShiftImm word. -/
def Op.ShiftImm.ofWord (w : Nat) : Op.ShiftImm :=
  { g := Fin.ofNat 8 (w / 2 ^ 23)
    rd := Fin.ofNat 32 (w / 2 ^ 18)
    ra := Fin.ofNat 32 (w / 2 ^ 13)
    amount := Fin.ofNat 64 (w / 2 ^ 0) }

/-- The operand bits of a ShiftImm word, in their places. -/
def Op.ShiftImm.toBits (o : Op.ShiftImm) : Nat :=
  o.g.val * 2 ^ 23 + o.rd.val * 2 ^ 18 + o.ra.val * 2 ^ 13 + o.amount.val * 2 ^ 0

/-- The operands of a Upper word. -/
def Op.Upper.ofWord (w : Nat) : Op.Upper :=
  { g := Fin.ofNat 8 (w / 2 ^ 23)
    rd := Fin.ofNat 32 (w / 2 ^ 18)
    imm := BitVec.ofNat 18 (w / 2 ^ 0) }

/-- The operand bits of a Upper word, in their places. -/
def Op.Upper.toBits (o : Op.Upper) : Nat :=
  o.g.val * 2 ^ 23 + o.rd.val * 2 ^ 18 + o.imm.toNat * 2 ^ 0

/-- The operands of a Cmp word. -/
def Op.Cmp.ofWord (w : Nat) : Op.Cmp :=
  { g := Fin.ofNat 8 (w / 2 ^ 23)
    pd := Fin.ofNat 8 (w / 2 ^ 18)
    ra := Fin.ofNat 32 (w / 2 ^ 13)
    rb := Fin.ofNat 32 (w / 2 ^ 8) }

/-- The operand bits of a Cmp word, in their places. -/
def Op.Cmp.toBits (o : Op.Cmp) : Nat :=
  o.g.val * 2 ^ 23 + o.pd.val * 2 ^ 18 + o.ra.val * 2 ^ 13 + o.rb.val * 2 ^ 8

/-- The operands of a CmpImm word. -/
def Op.CmpImm.ofWord (w : Nat) : Op.CmpImm :=
  { g := Fin.ofNat 8 (w / 2 ^ 23)
    pd := Fin.ofNat 8 (w / 2 ^ 18)
    ra := Fin.ofNat 32 (w / 2 ^ 13)
    imm := BitVec.ofNat 13 (w / 2 ^ 0) }

/-- The operand bits of a CmpImm word, in their places. -/
def Op.CmpImm.toBits (o : Op.CmpImm) : Nat :=
  o.g.val * 2 ^ 23 + o.pd.val * 2 ^ 18 + o.ra.val * 2 ^ 13 + o.imm.toNat * 2 ^ 0

/-- The operands of a Pred word. -/
def Op.Pred.ofWord (w : Nat) : Op.Pred :=
  { g := Fin.ofNat 8 (w / 2 ^ 23)
    pd := Fin.ofNat 8 (w / 2 ^ 18)
    pa := Fin.ofNat 8 (w / 2 ^ 13)
    pb := Fin.ofNat 8 (w / 2 ^ 8) }

/-- The operand bits of a Pred word, in their places. -/
def Op.Pred.toBits (o : Op.Pred) : Nat :=
  o.g.val * 2 ^ 23 + o.pd.val * 2 ^ 18 + o.pa.val * 2 ^ 13 + o.pb.val * 2 ^ 8

/-- The operands of a OneSrc word. -/
def Op.OneSrc.ofWord (w : Nat) : Op.OneSrc :=
  { g := Fin.ofNat 8 (w / 2 ^ 23)
    ra := Fin.ofNat 32 (w / 2 ^ 13) }

/-- The operand bits of a OneSrc word, in their places. -/
def Op.OneSrc.toBits (o : Op.OneSrc) : Nat :=
  o.g.val * 2 ^ 23 + o.ra.val * 2 ^ 13

/-- The operands of a OneDst word. -/
def Op.OneDst.ofWord (w : Nat) : Op.OneDst :=
  { g := Fin.ofNat 8 (w / 2 ^ 23)
    rd := Fin.ofNat 32 (w / 2 ^ 18) }

/-- The operand bits of a OneDst word, in their places. -/
def Op.OneDst.toBits (o : Op.OneDst) : Nat :=
  o.g.val * 2 ^ 23 + o.rd.val * 2 ^ 18

/-- The operands of a Sel word. -/
def Op.Sel.ofWord (w : Nat) : Op.Sel :=
  { g := Fin.ofNat 8 (w / 2 ^ 23)
    rd := Fin.ofNat 32 (w / 2 ^ 18)
    ra := Fin.ofNat 32 (w / 2 ^ 13)
    rb := Fin.ofNat 32 (w / 2 ^ 8)
    ps := Fin.ofNat 8 (w / 2 ^ 0) }

/-- The operand bits of a Sel word, in their places. -/
def Op.Sel.toBits (o : Op.Sel) : Nat :=
  o.g.val * 2 ^ 23 + o.rd.val * 2 ^ 18 + o.ra.val * 2 ^ 13 + o.rb.val * 2 ^ 8 + o.ps.val * 2 ^ 0

/-- The operands of a Mem word. -/
def Op.Mem.ofWord (w : Nat) : Op.Mem :=
  { g := Fin.ofNat 8 (w / 2 ^ 23)
    rd := Fin.ofNat 32 (w / 2 ^ 18)
    ra := Fin.ofNat 32 (w / 2 ^ 13)
    tok := Fin.ofNat 8 (w / 2 ^ 10)
    off := BitVec.ofNat 10 (w / 2 ^ 0) }

/-- The operand bits of a Mem word, in their places. -/
def Op.Mem.toBits (o : Op.Mem) : Nat :=
  o.g.val * 2 ^ 23 + o.rd.val * 2 ^ 18 + o.ra.val * 2 ^ 13 + o.tok.val * 2 ^ 10 + o.off.toNat * 2 ^ 0

/-- The operands of a Wait word. -/
def Op.Wait.ofWord (w : Nat) : Op.Wait :=
  { g := Fin.ofNat 8 (w / 2 ^ 23)
    mask := BitVec.ofNat 8 (w / 2 ^ 0) }

/-- The operand bits of a Wait word, in their places. -/
def Op.Wait.toBits (o : Op.Wait) : Nat :=
  o.g.val * 2 ^ 23 + o.mask.toNat * 2 ^ 0

/-- The operands of a Pbr word. -/
def Op.Pbr.ofWord (w : Nat) : Op.Pbr :=
  { g := Fin.ofNat 8 (w / 2 ^ 23)
    bt := Fin.ofNat 8 (w / 2 ^ 20)
    disp := BitVec.ofNat 20 (w / 2 ^ 0) }

/-- The operand bits of a Pbr word, in their places. -/
def Op.Pbr.toBits (o : Op.Pbr) : Nat :=
  o.g.val * 2 ^ 23 + o.bt.val * 2 ^ 20 + o.disp.toNat * 2 ^ 0

/-- The operands of a Pbrx word. -/
def Op.Pbrx.ofWord (w : Nat) : Op.Pbrx :=
  { g := Fin.ofNat 8 (w / 2 ^ 23)
    bt := Fin.ofNat 8 (w / 2 ^ 18)
    ra := Fin.ofNat 32 (w / 2 ^ 13) }

/-- The operand bits of a Pbrx word, in their places. -/
def Op.Pbrx.toBits (o : Op.Pbrx) : Nat :=
  o.g.val * 2 ^ 23 + o.bt.val * 2 ^ 18 + o.ra.val * 2 ^ 13

/-- The operands of a Branch word. -/
def Op.Branch.ofWord (w : Nat) : Op.Branch :=
  { g := Fin.ofNat 8 (w / 2 ^ 23)
    bt := Fin.ofNat 8 (w / 2 ^ 20)
    hint := Fin.ofNat 4 (w / 2 ^ 18) }

/-- The operand bits of a Branch word, in their places. -/
def Op.Branch.toBits (o : Op.Branch) : Nat :=
  o.g.val * 2 ^ 23 + o.bt.val * 2 ^ 20 + o.hint.val * 2 ^ 18

/-- The operands of a Loopc word. -/
def Op.Loopc.ofWord (w : Nat) : Op.Loopc :=
  { g := Fin.ofNat 8 (w / 2 ^ 23)
    bt := Fin.ofNat 8 (w / 2 ^ 20)
    hint := Fin.ofNat 4 (w / 2 ^ 18)
    rc := Fin.ofNat 32 (w / 2 ^ 13) }

/-- The operand bits of a Loopc word, in their places. -/
def Op.Loopc.toBits (o : Op.Loopc) : Nat :=
  o.g.val * 2 ^ 23 + o.bt.val * 2 ^ 20 + o.hint.val * 2 ^ 18 + o.rc.val * 2 ^ 13

/-- The operands of a Drain word. -/
def Op.Drain.ofWord (w : Nat) : Op.Drain :=
  { g := Fin.ofNat 8 (w / 2 ^ 23)
    mask := BitVec.ofNat 3 (w / 2 ^ 18) }

/-- The operand bits of a Drain word, in their places. -/
def Op.Drain.toBits (o : Op.Drain) : Nat :=
  o.g.val * 2 ^ 23 + o.mask.toNat * 2 ^ 18

/-- The operands of a Bind word. -/
def Op.Bind.ofWord (w : Nat) : Op.Bind :=
  { g := Fin.ofNat 8 (w / 2 ^ 23)
    prod := Fin.ofNat 4 (w / 2 ^ 18)
    q := Fin.ofNat 16 (w / 2 ^ 13)
    cons := Fin.ofNat 4 (w / 2 ^ 8) }

/-- The operand bits of a Bind word, in their places. -/
def Op.Bind.toBits (o : Op.Bind) : Nat :=
  o.g.val * 2 ^ 23 + o.prod.val * 2 ^ 18 + o.q.val * 2 ^ 13 + o.cons.val * 2 ^ 8

/-- The operands of a QGet word. -/
def Op.QGet.ofWord (w : Nat) : Op.QGet :=
  { g := Fin.ofNat 8 (w / 2 ^ 23)
    rd := Fin.ofNat 32 (w / 2 ^ 18)
    q := Fin.ofNat 16 (w / 2 ^ 13)
    k := Fin.ofNat 4 (w / 2 ^ 11)
    tok := Fin.ofNat 8 (w / 2 ^ 8) }

/-- The operand bits of a QGet word, in their places. -/
def Op.QGet.toBits (o : Op.QGet) : Nat :=
  o.g.val * 2 ^ 23 + o.rd.val * 2 ^ 18 + o.q.val * 2 ^ 13 + o.k.val * 2 ^ 11 + o.tok.val * 2 ^ 8

/-- The operands of a QPut word. -/
def Op.QPut.ofWord (w : Nat) : Op.QPut :=
  { g := Fin.ofNat 8 (w / 2 ^ 23)
    k := Fin.ofNat 4 (w / 2 ^ 21)
    tok := Fin.ofNat 8 (w / 2 ^ 18)
    q := Fin.ofNat 16 (w / 2 ^ 13)
    rb := Fin.ofNat 32 (w / 2 ^ 8) }

/-- The operand bits of a QPut word, in their places. -/
def Op.QPut.toBits (o : Op.QPut) : Nat :=
  o.g.val * 2 ^ 23 + o.k.val * 2 ^ 21 + o.tok.val * 2 ^ 18 + o.q.val * 2 ^ 13 + o.rb.val * 2 ^ 8

/-- The operands of a Token word. -/
def Op.Token.ofWord (w : Nat) : Op.Token :=
  { g := Fin.ofNat 8 (w / 2 ^ 23)
    eng := Fin.ofNat 4 (w / 2 ^ 18) }

/-- The operand bits of a Token word, in their places. -/
def Op.Token.toBits (o : Op.Token) : Nat :=
  o.g.val * 2 ^ 23 + o.eng.val * 2 ^ 18

/-- The operands of a TokSrc word. -/
def Op.TokSrc.ofWord (w : Nat) : Op.TokSrc :=
  { g := Fin.ofNat 8 (w / 2 ^ 23)
    tok := Fin.ofNat 8 (w / 2 ^ 18)
    ra := Fin.ofNat 32 (w / 2 ^ 13) }

/-- The operand bits of a TokSrc word, in their places. -/
def Op.TokSrc.toBits (o : Op.TokSrc) : Nat :=
  o.g.val * 2 ^ 23 + o.tok.val * 2 ^ 18 + o.ra.val * 2 ^ 13

/-- The operands of a TokSrc2 word. -/
def Op.TokSrc2.ofWord (w : Nat) : Op.TokSrc2 :=
  { g := Fin.ofNat 8 (w / 2 ^ 23)
    tok := Fin.ofNat 8 (w / 2 ^ 18)
    ra := Fin.ofNat 32 (w / 2 ^ 13)
    rb := Fin.ofNat 32 (w / 2 ^ 8) }

/-- The operand bits of a TokSrc2 word, in their places. -/
def Op.TokSrc2.toBits (o : Op.TokSrc2) : Nat :=
  o.g.val * 2 ^ 23 + o.tok.val * 2 ^ 18 + o.ra.val * 2 ^ 13 + o.rb.val * 2 ^ 8

/-- The operands of a Bare word. -/
def Op.Bare.ofWord (w : Nat) : Op.Bare :=
  { g := Fin.ofNat 8 (w / 2 ^ 23) }

/-- The operand bits of a Bare word, in their places. -/
def Op.Bare.toBits (o : Op.Bare) : Nat :=
  o.g.val * 2 ^ 23

/-- The operands of a TwoSrc word. -/
def Op.TwoSrc.ofWord (w : Nat) : Op.TwoSrc :=
  { g := Fin.ofNat 8 (w / 2 ^ 23)
    ra := Fin.ofNat 32 (w / 2 ^ 13)
    rb := Fin.ofNat 32 (w / 2 ^ 8) }

/-- The operand bits of a TwoSrc word, in their places. -/
def Op.TwoSrc.toBits (o : Op.TwoSrc) : Nat :=
  o.g.val * 2 ^ 23 + o.ra.val * 2 ^ 13 + o.rb.val * 2 ^ 8

/-- The operands of a TokRes word. -/
def Op.TokRes.ofWord (w : Nat) : Op.TokRes :=
  { g := Fin.ofNat 8 (w / 2 ^ 23)
    rd := Fin.ofNat 32 (w / 2 ^ 18)
    ra := Fin.ofNat 32 (w / 2 ^ 13)
    tok := Fin.ofNat 8 (w / 2 ^ 8) }

/-- The operand bits of a TokRes word, in their places. -/
def Op.TokRes.toBits (o : Op.TokRes) : Nat :=
  o.g.val * 2 ^ 23 + o.rd.val * 2 ^ 18 + o.ra.val * 2 ^ 13 + o.tok.val * 2 ^ 8

/-- The operands of a Cancel word. -/
def Op.Cancel.ofWord (w : Nat) : Op.Cancel :=
  { g := Fin.ofNat 8 (w / 2 ^ 23)
    tok := Fin.ofNat 8 (w / 2 ^ 18)
    ra := Fin.ofNat 32 (w / 2 ^ 13)
    level := Fin.ofNat 8 (w / 2 ^ 8) }

/-- The operand bits of a Cancel word, in their places. -/
def Op.Cancel.toBits (o : Op.Cancel) : Nat :=
  o.g.val * 2 ^ 23 + o.tok.val * 2 ^ 18 + o.ra.val * 2 ^ 13 + o.level.val * 2 ^ 8

/-- The operands of a PawnRes word. -/
def Op.PawnRes.ofWord (w : Nat) : Op.PawnRes :=
  { g := Fin.ofNat 8 (w / 2 ^ 23)
    rd := Fin.ofNat 32 (w / 2 ^ 18)
    h := Fin.ofNat 16 (w / 2 ^ 13)
    tok := Fin.ofNat 8 (w / 2 ^ 8) }

/-- The operand bits of a PawnRes word, in their places. -/
def Op.PawnRes.toBits (o : Op.PawnRes) : Nat :=
  o.g.val * 2 ^ 23 + o.rd.val * 2 ^ 18 + o.h.val * 2 ^ 13 + o.tok.val * 2 ^ 8

/-- The operands of a PawnArg word. -/
def Op.PawnArg.ofWord (w : Nat) : Op.PawnArg :=
  { g := Fin.ofNat 8 (w / 2 ^ 23)
    tok := Fin.ofNat 8 (w / 2 ^ 18)
    h := Fin.ofNat 16 (w / 2 ^ 13)
    rb := Fin.ofNat 32 (w / 2 ^ 8) }

/-- The operand bits of a PawnArg word, in their places. -/
def Op.PawnArg.toBits (o : Op.PawnArg) : Nat :=
  o.g.val * 2 ^ 23 + o.tok.val * 2 ^ 18 + o.h.val * 2 ^ 13 + o.rb.val * 2 ^ 8

/-- The operands of a ResTok word. -/
def Op.ResTok.ofWord (w : Nat) : Op.ResTok :=
  { g := Fin.ofNat 8 (w / 2 ^ 23)
    rd := Fin.ofNat 32 (w / 2 ^ 18)
    tok := Fin.ofNat 8 (w / 2 ^ 8) }

/-- The operand bits of a ResTok word, in their places. -/
def Op.ResTok.toBits (o : Op.ResTok) : Nat :=
  o.g.val * 2 ^ 23 + o.rd.val * 2 ^ 18 + o.tok.val * 2 ^ 8

/-- The operands of a Coll word. -/
def Op.Coll.ofWord (w : Nat) : Op.Coll :=
  { g := Fin.ofNat 8 (w / 2 ^ 23)
    detach := w / 2 ^ 22 % 2 == 1
    h := Fin.ofNat 16 (w / 2 ^ 18)
    ra := Fin.ofNat 32 (w / 2 ^ 13)
    rb := Fin.ofNat 32 (w / 2 ^ 8) }

/-- The operand bits of a Coll word, in their places. -/
def Op.Coll.toBits (o : Op.Coll) : Nat :=
  o.g.val * 2 ^ 23 + o.detach.toNat * 2 ^ 22 + o.h.val * 2 ^ 18 + o.ra.val * 2 ^ 13 + o.rb.val * 2 ^ 8

/-- The operands of a Barrier word. -/
def Op.Barrier.ofWord (w : Nat) : Op.Barrier :=
  { g := Fin.ofNat 8 (w / 2 ^ 23)
    detach := w / 2 ^ 22 % 2 == 1
    h := Fin.ofNat 16 (w / 2 ^ 18)
    ra := Fin.ofNat 32 (w / 2 ^ 13) }

/-- The operand bits of a Barrier word, in their places. -/
def Op.Barrier.toBits (o : Op.Barrier) : Nat :=
  o.g.val * 2 ^ 23 + o.detach.toNat * 2 ^ 22 + o.h.val * 2 ^ 18 + o.ra.val * 2 ^ 13

/-- The operands of a CFence word. -/
def Op.CFence.ofWord (w : Nat) : Op.CFence :=
  { g := Fin.ofNat 8 (w / 2 ^ 23)
    before := BitVec.ofNat 6 (w / 2 ^ 17)
    after := BitVec.ofNat 6 (w / 2 ^ 11)
    scope := Fin.ofNat 8 (w / 2 ^ 8) }

/-- The operand bits of a CFence word, in their places. -/
def Op.CFence.toBits (o : Op.CFence) : Nat :=
  o.g.val * 2 ^ 23 + o.before.toNat * 2 ^ 17 + o.after.toNat * 2 ^ 11 + o.scope.val * 2 ^ 8

/-- The operands of a Crr word. -/
def Op.Crr.ofWord (w : Nat) : Op.Crr :=
  { g := Fin.ofNat 8 (w / 2 ^ 23)
    rd := Fin.ofNat 32 (w / 2 ^ 18)
    tok := Fin.ofNat 8 (w / 2 ^ 13)
    reg := Fin.ofNat 4096 (w / 2 ^ 0) }

/-- The operand bits of a Crr word, in their places. -/
def Op.Crr.toBits (o : Op.Crr) : Nat :=
  o.g.val * 2 ^ 23 + o.rd.val * 2 ^ 18 + o.tok.val * 2 ^ 13 + o.reg.val * 2 ^ 0

/-- The operands of a Crw word. -/
def Op.Crw.ofWord (w : Nat) : Op.Crw :=
  { g := Fin.ofNat 8 (w / 2 ^ 23)
    ra := Fin.ofNat 32 (w / 2 ^ 13)
    reg := Fin.ofNat 4096 (w / 2 ^ 0) }

/-- The operand bits of a Crw word, in their places. -/
def Op.Crw.toBits (o : Op.Crw) : Nat :=
  o.g.val * 2 ^ 23 + o.ra.val * 2 ^ 13 + o.reg.val * 2 ^ 0

/-- The operands of a Code word. -/
def Op.Code.ofWord (w : Nat) : Op.Code :=
  { g := Fin.ofNat 8 (w / 2 ^ 23)
    code := BitVec.ofNat 15 (w / 2 ^ 8) }

/-- The operand bits of a Code word, in their places. -/
def Op.Code.toBits (o : Op.Code) : Nat :=
  o.g.val * 2 ^ 23 + o.code.toNat * 2 ^ 8

/-- The operands of a Tq word. -/
def Op.Tq.ofWord (w : Nat) : Op.Tq :=
  { sync := Fin.ofNat 8 (w / 2 ^ 23)
    q := Fin.ofNat 16 (w / 2 ^ 19)
    ra := Fin.ofNat 16 (w / 2 ^ 15)
    ly := Fin.ofNat 64 (w / 2 ^ 9)
    step := BitVec.ofNat 9 (w / 2 ^ 0) }

/-- The operand bits of a Tq word, in their places. -/
def Op.Tq.toBits (o : Op.Tq) : Nat :=
  o.sync.val * 2 ^ 23 + o.q.val * 2 ^ 19 + o.ra.val * 2 ^ 15 + o.ly.val * 2 ^ 9 + o.step.toNat * 2 ^ 0

/-- The operands of a Pref word. -/
def Op.Pref.ofWord (w : Nat) : Op.Pref :=
  { sync := Fin.ofNat 8 (w / 2 ^ 23)
    ra := Fin.ofNat 16 (w / 2 ^ 15)
    ly := Fin.ofNat 64 (w / 2 ^ 9)
    step := BitVec.ofNat 9 (w / 2 ^ 0) }

/-- The operand bits of a Pref word, in their places. -/
def Op.Pref.toBits (o : Op.Pref) : Nat :=
  o.sync.val * 2 ^ 23 + o.ra.val * 2 ^ 15 + o.ly.val * 2 ^ 9 + o.step.toNat * 2 ^ 0

/-- The operands of a Tc word. -/
def Op.Tc.ofWord (w : Nat) : Op.Tc :=
  { sync := Fin.ofNat 8 (w / 2 ^ 23)
    h := Fin.ofNat 16 (w / 2 ^ 19)
    dst := Fin.ofNat 16 (w / 2 ^ 15)
    src := Fin.ofNat 16 (w / 2 ^ 11)
    ly := Fin.ofNat 64 (w / 2 ^ 5)
    pri := Fin.ofNat 8 (w / 2 ^ 2)
    detach := w / 2 ^ 1 % 2 == 1
    raw := w / 2 ^ 0 % 2 == 1 }

/-- The operand bits of a Tc word, in their places. -/
def Op.Tc.toBits (o : Op.Tc) : Nat :=
  o.sync.val * 2 ^ 23 + o.h.val * 2 ^ 19 + o.dst.val * 2 ^ 15 + o.src.val * 2 ^ 11 + o.ly.val * 2 ^ 5 + o.pri.val * 2 ^ 2 + o.detach.toNat * 2 ^ 1 + o.raw.toNat * 2 ^ 0

/-- The operands of a Tr word. -/
def Op.Tr.ofWord (w : Nat) : Op.Tr :=
  { sync := Fin.ofNat 8 (w / 2 ^ 23)
    h := Fin.ofNat 16 (w / 2 ^ 19)
    dst := Fin.ofNat 16 (w / 2 ^ 15)
    src := Fin.ofNat 16 (w / 2 ^ 11)
    size := Fin.ofNat 4 (w / 2 ^ 9) }

/-- The operand bits of a Tr word, in their places. -/
def Op.Tr.toBits (o : Op.Tr) : Nat :=
  o.sync.val * 2 ^ 23 + o.h.val * 2 ^ 19 + o.dst.val * 2 ^ 15 + o.src.val * 2 ^ 11 + o.size.val * 2 ^ 9

/-- The operands of a Sacc word. -/
def Op.Sacc.ofWord (w : Nat) : Op.Sacc :=
  { sync := Fin.ofNat 8 (w / 2 ^ 23)
    qi := Fin.ofNat 16 (w / 2 ^ 17)
    qv := Fin.ofNat 16 (w / 2 ^ 13)
    ra := Fin.ofNat 16 (w / 2 ^ 9) }

/-- The operand bits of a Sacc word, in their places. -/
def Op.Sacc.toBits (o : Op.Sacc) : Nat :=
  o.sync.val * 2 ^ 23 + o.qi.val * 2 ^ 17 + o.qv.val * 2 ^ 13 + o.ra.val * 2 ^ 9

/-- The operands of a Scas word. -/
def Op.Scas.ofWord (w : Nat) : Op.Scas :=
  { sync := Fin.ofNat 8 (w / 2 ^ 23)
    qv := Fin.ofNat 16 (w / 2 ^ 19)
    qd := Fin.ofNat 16 (w / 2 ^ 15)
    ra := Fin.ofNat 16 (w / 2 ^ 11)
    wide := w / 2 ^ 10 % 2 == 1 }

/-- The operand bits of a Scas word, in their places. -/
def Op.Scas.toBits (o : Op.Scas) : Nat :=
  o.sync.val * 2 ^ 23 + o.qv.val * 2 ^ 19 + o.qd.val * 2 ^ 15 + o.ra.val * 2 ^ 11 + o.wide.toNat * 2 ^ 10

/-- The operands of a Adda word. -/
def Op.Adda.ofWord (w : Nat) : Op.Adda :=
  { sync := Fin.ofNat 8 (w / 2 ^ 23)
    dst := Fin.ofNat 16 (w / 2 ^ 19)
    src := Fin.ofNat 16 (w / 2 ^ 15)
    imm := BitVec.ofNat 15 (w / 2 ^ 0) }

/-- The operand bits of a Adda word, in their places. -/
def Op.Adda.toBits (o : Op.Adda) : Nat :=
  o.sync.val * 2 ^ 23 + o.dst.val * 2 ^ 19 + o.src.val * 2 ^ 15 + o.imm.toNat * 2 ^ 0

/-- The operands of a Addar word. -/
def Op.Addar.ofWord (w : Nat) : Op.Addar :=
  { sync := Fin.ofNat 8 (w / 2 ^ 23)
    dst := Fin.ofNat 16 (w / 2 ^ 19)
    src := Fin.ofNat 16 (w / 2 ^ 15) }

/-- The operand bits of a Addar word, in their places. -/
def Op.Addar.toBits (o : Op.Addar) : Nat :=
  o.sync.val * 2 ^ 23 + o.dst.val * 2 ^ 19 + o.src.val * 2 ^ 15

/-- The operands of a Loop word. -/
def Op.Loop.ofWord (w : Nat) : Op.Loop :=
  { sync := Fin.ofNat 8 (w / 2 ^ 23)
    id := Fin.ofNat 4 (w / 2 ^ 21)
    stm1 := Fin.ofNat 8 (w / 2 ^ 18)
    cnt := Fin.ofNat 16 (w / 2 ^ 14)
    len := Fin.ofNat 1024 (w / 2 ^ 4) }

/-- The operand bits of a Loop word, in their places. -/
def Op.Loop.toBits (o : Op.Loop) : Nat :=
  o.sync.val * 2 ^ 23 + o.id.val * 2 ^ 21 + o.stm1.val * 2 ^ 18 + o.cnt.val * 2 ^ 14 + o.len.val * 2 ^ 4

/-- The operands of a Chan word. -/
def Op.Chan.ofWord (w : Nat) : Op.Chan :=
  { sync := Fin.ofNat 8 (w / 2 ^ 23)
    ch := Fin.ofNat 64 (w / 2 ^ 17)
    ra := Fin.ofNat 16 (w / 2 ^ 13) }

/-- The operand bits of a Chan word, in their places. -/
def Op.Chan.toBits (o : Op.Chan) : Nat :=
  o.sync.val * 2 ^ 23 + o.ch.val * 2 ^ 17 + o.ra.val * 2 ^ 13

/-- The operands of a Sync word. -/
def Op.Sync.ofWord (w : Nat) : Op.Sync :=
  { sync := Fin.ofNat 8 (w / 2 ^ 23)
    postC := w / 2 ^ 22 % 2 == 1 }

/-- The operand bits of a Sync word, in their places. -/
def Op.Sync.toBits (o : Op.Sync) : Nat :=
  o.sync.val * 2 ^ 23 + o.postC.toNat * 2 ^ 22

/-- The operands of a EFence word. -/
def Op.EFence.ofWord (w : Nat) : Op.EFence :=
  { sync := Fin.ofNat 8 (w / 2 ^ 23)
    before := BitVec.ofNat 6 (w / 2 ^ 17)
    after := BitVec.ofNat 6 (w / 2 ^ 11)
    scope := Fin.ofNat 8 (w / 2 ^ 8) }

/-- The operand bits of a EFence word, in their places. -/
def Op.EFence.toBits (o : Op.EFence) : Nat :=
  o.sync.val * 2 ^ 23 + o.before.toNat * 2 ^ 17 + o.after.toNat * 2 ^ 11 + o.scope.val * 2 ^ 8

/-- The operands of a EBare word. -/
def Op.EBare.ofWord (w : Nat) : Op.EBare :=
  { sync := Fin.ofNat 8 (w / 2 ^ 23) }

/-- The operand bits of a EBare word, in their places. -/
def Op.EBare.toBits (o : Op.EBare) : Nat :=
  o.sync.val * 2 ^ 23

/-- The operands of a Waith word. -/
def Op.Waith.ofWord (w : Nat) : Op.Waith :=
  { sync := Fin.ofNat 8 (w / 2 ^ 23)
    h := Fin.ofNat 16 (w / 2 ^ 19) }

/-- The operand bits of a Waith word, in their places. -/
def Op.Waith.toBits (o : Op.Waith) : Nat :=
  o.sync.val * 2 ^ 23 + o.h.val * 2 ^ 19

/-- The operands of a NsetLevel word. -/
def Op.NsetLevel.ofWord (w : Nat) : Op.NsetLevel :=
  { sync := Fin.ofNat 8 (w / 2 ^ 23)
    level := Fin.ofNat 8 (w / 2 ^ 20)
    field := Fin.ofNat 4 (w / 2 ^ 18)
    v := BitVec.ofNat 17 (w / 2 ^ 0) }

/-- The operand bits of a NsetLevel word, in their places. -/
def Op.NsetLevel.toBits (o : Op.NsetLevel) : Nat :=
  o.sync.val * 2 ^ 23 + o.level.val * 2 ^ 20 + o.field.val * 2 ^ 18 + o.v.toNat * 2 ^ 0

/-- The operands of a NsetIns word. -/
def Op.NsetIns.ofWord (w : Nat) : Op.NsetIns :=
  { sync := Fin.ofNat 8 (w / 2 ^ 23)
    mb := Fin.ofNat 4 (w / 2 ^ 18)
    v := BitVec.ofNat 17 (w / 2 ^ 0) }

/-- The operand bits of a NsetIns word, in their places. -/
def Op.NsetIns.toBits (o : Op.NsetIns) : Nat :=
  o.sync.val * 2 ^ 23 + o.mb.val * 2 ^ 18 + o.v.toNat * 2 ^ 0

/-- The operands of a NsetFmt word. -/
def Op.NsetFmt.ofWord (w : Nat) : Op.NsetFmt :=
  { sync := Fin.ofNat 8 (w / 2 ^ 23)
    isB := w / 2 ^ 18 % 2 == 1
    v := Fin.ofNat 16 (w / 2 ^ 0) }

/-- The operand bits of a NsetFmt word, in their places. -/
def Op.NsetFmt.toBits (o : Op.NsetFmt) : Nat :=
  o.sync.val * 2 ^ 23 + o.isB.toNat * 2 ^ 18 + o.v.val * 2 ^ 0

/-- The operands of a Mgo word. -/
def Op.Mgo.ofWord (w : Nat) : Op.Mgo :=
  { sync := Fin.ofNat 8 (w / 2 ^ 23)
    h := Fin.ofNat 16 (w / 2 ^ 19)
    mba := Fin.ofNat 4 (w / 2 ^ 17)
    mbb := Fin.ofNat 4 (w / 2 ^ 15)
    t := Fin.ofNat 4 (w / 2 ^ 13)
    acc := w / 2 ^ 12 % 2 == 1
    pri := Fin.ofNat 8 (w / 2 ^ 9)
    detach := w / 2 ^ 8 % 2 == 1
    depm1 := Fin.ofNat 8 (w / 2 ^ 5)
    mc := w / 2 ^ 4 % 2 == 1 }

/-- The operand bits of a Mgo word, in their places. -/
def Op.Mgo.toBits (o : Op.Mgo) : Nat :=
  o.sync.val * 2 ^ 23 + o.h.val * 2 ^ 19 + o.mba.val * 2 ^ 17 + o.mbb.val * 2 ^ 15 + o.t.val * 2 ^ 13 + o.acc.toNat * 2 ^ 12 + o.pri.val * 2 ^ 9 + o.detach.toNat * 2 ^ 8 + o.depm1.val * 2 ^ 5 + o.mc.toNat * 2 ^ 4

/-- The operands of a Mzero word. -/
def Op.Mzero.ofWord (w : Nat) : Op.Mzero :=
  { sync := Fin.ofNat 8 (w / 2 ^ 23)
    t := Fin.ofNat 4 (w / 2 ^ 21) }

/-- The operand bits of a Mzero word, in their places. -/
def Op.Mzero.toBits (o : Op.Mzero) : Nat :=
  o.sync.val * 2 ^ 23 + o.t.val * 2 ^ 21

/-- The operands of a Mc word. -/
def Op.Mc.ofWord (w : Nat) : Op.Mc :=
  { sync := Fin.ofNat 8 (w / 2 ^ 23)
    h := Fin.ofNat 16 (w / 2 ^ 19)
    mb := Fin.ofNat 4 (w / 2 ^ 17)
    t := Fin.ofNat 4 (w / 2 ^ 15)
    ly := Fin.ofNat 64 (w / 2 ^ 9)
    pri := Fin.ofNat 8 (w / 2 ^ 6)
    detach := w / 2 ^ 5 % 2 == 1 }

/-- The operand bits of a Mc word, in their places. -/
def Op.Mc.toBits (o : Op.Mc) : Nat :=
  o.sync.val * 2 ^ 23 + o.h.val * 2 ^ 19 + o.mb.val * 2 ^ 17 + o.t.val * 2 ^ 15 + o.ly.val * 2 ^ 9 + o.pri.val * 2 ^ 6 + o.detach.toNat * 2 ^ 5

/-- The operands of a Accmul word. -/
def Op.Accmul.ofWord (w : Nat) : Op.Accmul :=
  { sync := Fin.ofNat 8 (w / 2 ^ 23)
    h := Fin.ofNat 16 (w / 2 ^ 19)
    mb := Fin.ofNat 4 (w / 2 ^ 17)
    t := Fin.ofNat 4 (w / 2 ^ 15)
    ly := Fin.ofNat 64 (w / 2 ^ 9)
    pri := Fin.ofNat 8 (w / 2 ^ 6)
    detach := w / 2 ^ 5 % 2 == 1
    axis := w / 2 ^ 4 % 2 == 1 }

/-- The operand bits of a Accmul word, in their places. -/
def Op.Accmul.toBits (o : Op.Accmul) : Nat :=
  o.sync.val * 2 ^ 23 + o.h.val * 2 ^ 19 + o.mb.val * 2 ^ 17 + o.t.val * 2 ^ 15 + o.ly.val * 2 ^ 9 + o.pri.val * 2 ^ 6 + o.detach.toNat * 2 ^ 5 + o.axis.toNat * 2 ^ 4

/-- The operands of a MLoop word. -/
def Op.MLoop.ofWord (w : Nat) : Op.MLoop :=
  { sync := Fin.ofNat 8 (w / 2 ^ 23)
    id := Fin.ofNat 4 (w / 2 ^ 21)
    stm1 := Fin.ofNat 8 (w / 2 ^ 18)
    mb := Fin.ofNat 4 (w / 2 ^ 14)
    len := Fin.ofNat 1024 (w / 2 ^ 4) }

/-- The operand bits of a MLoop word, in their places. -/
def Op.MLoop.toBits (o : Op.MLoop) : Nat :=
  o.sync.val * 2 ^ 23 + o.id.val * 2 ^ 21 + o.stm1.val * 2 ^ 18 + o.mb.val * 2 ^ 14 + o.len.val * 2 ^ 4

/-- The operands of a Vv word. -/
def Op.Vv.ofWord (w : Nat) : Op.Vv :=
  { sync := Fin.ofNat 8 (w / 2 ^ 23)
    qd := Fin.ofNat 16 (w / 2 ^ 19)
    qa := Fin.ofNat 16 (w / 2 ^ 15)
    qb := Fin.ofNat 16 (w / 2 ^ 11)
    m := Fin.ofNat 8 (w / 2 ^ 8)
    pka := w / 2 ^ 7 % 2 == 1
    pkb := w / 2 ^ 6 % 2 == 1 }

/-- The operand bits of a Vv word, in their places. -/
def Op.Vv.toBits (o : Op.Vv) : Nat :=
  o.sync.val * 2 ^ 23 + o.qd.val * 2 ^ 19 + o.qa.val * 2 ^ 15 + o.qb.val * 2 ^ 11 + o.m.val * 2 ^ 8 + o.pka.toNat * 2 ^ 7 + o.pkb.toNat * 2 ^ 6

/-- The operands of a Vu word. -/
def Op.Vu.ofWord (w : Nat) : Op.Vu :=
  { sync := Fin.ofNat 8 (w / 2 ^ 23)
    qd := Fin.ofNat 16 (w / 2 ^ 19)
    qa := Fin.ofNat 16 (w / 2 ^ 15)
    m := Fin.ofNat 8 (w / 2 ^ 8)
    pka := w / 2 ^ 7 % 2 == 1 }

/-- The operand bits of a Vu word, in their places. -/
def Op.Vu.toBits (o : Op.Vu) : Nat :=
  o.sync.val * 2 ^ 23 + o.qd.val * 2 ^ 19 + o.qa.val * 2 ^ 15 + o.m.val * 2 ^ 8 + o.pka.toNat * 2 ^ 7

/-- The operands of a Vc word. -/
def Op.Vc.ofWord (w : Nat) : Op.Vc :=
  { sync := Fin.ofNat 8 (w / 2 ^ 23)
    md := Fin.ofNat 8 (w / 2 ^ 20)
    qa := Fin.ofNat 16 (w / 2 ^ 15)
    qb := Fin.ofNat 16 (w / 2 ^ 11)
    m := Fin.ofNat 8 (w / 2 ^ 8)
    pka := w / 2 ^ 7 % 2 == 1
    pkb := w / 2 ^ 6 % 2 == 1
    uns := w / 2 ^ 4 % 2 == 1
    int := w / 2 ^ 3 % 2 == 1 }

/-- The operand bits of a Vc word, in their places. -/
def Op.Vc.toBits (o : Op.Vc) : Nat :=
  o.sync.val * 2 ^ 23 + o.md.val * 2 ^ 20 + o.qa.val * 2 ^ 15 + o.qb.val * 2 ^ 11 + o.m.val * 2 ^ 8 + o.pka.toNat * 2 ^ 7 + o.pkb.toNat * 2 ^ 6 + o.uns.toNat * 2 ^ 4 + o.int.toNat * 2 ^ 3

/-- The operands of a Vs word. -/
def Op.Vs.ofWord (w : Nat) : Op.Vs :=
  { sync := Fin.ofNat 8 (w / 2 ^ 23)
    qd := Fin.ofNat 16 (w / 2 ^ 19)
    qa := Fin.ofNat 16 (w / 2 ^ 15)
    sr := Fin.ofNat 16 (w / 2 ^ 11)
    m := Fin.ofNat 8 (w / 2 ^ 8)
    pka := w / 2 ^ 7 % 2 == 1 }

/-- The operand bits of a Vs word, in their places. -/
def Op.Vs.toBits (o : Op.Vs) : Nat :=
  o.sync.val * 2 ^ 23 + o.qd.val * 2 ^ 19 + o.qa.val * 2 ^ 15 + o.sr.val * 2 ^ 11 + o.m.val * 2 ^ 8 + o.pka.toNat * 2 ^ 7

/-- The operands of a Vi word. -/
def Op.Vi.ofWord (w : Nat) : Op.Vi :=
  { sync := Fin.ofNat 8 (w / 2 ^ 23)
    qd := Fin.ofNat 16 (w / 2 ^ 19)
    qa := Fin.ofNat 16 (w / 2 ^ 15)
    m := Fin.ofNat 8 (w / 2 ^ 12)
    pka := w / 2 ^ 11 % 2 == 1
    imm := BitVec.ofNat 11 (w / 2 ^ 0) }

/-- The operand bits of a Vi word, in their places. -/
def Op.Vi.toBits (o : Op.Vi) : Nat :=
  o.sync.val * 2 ^ 23 + o.qd.val * 2 ^ 19 + o.qa.val * 2 ^ 15 + o.m.val * 2 ^ 12 + o.pka.toNat * 2 ^ 11 + o.imm.toNat * 2 ^ 0

/-- The operands of a Vbi word. -/
def Op.Vbi.ofWord (w : Nat) : Op.Vbi :=
  { sync := Fin.ofNat 8 (w / 2 ^ 23)
    qd := Fin.ofNat 16 (w / 2 ^ 19)
    m := Fin.ofNat 8 (w / 2 ^ 12)
    imm := BitVec.ofNat 11 (w / 2 ^ 0) }

/-- The operand bits of a Vbi word, in their places. -/
def Op.Vbi.toBits (o : Op.Vbi) : Nat :=
  o.sync.val * 2 ^ 23 + o.qd.val * 2 ^ 19 + o.m.val * 2 ^ 12 + o.imm.toNat * 2 ^ 0

/-- The operands of a Vcvt word. -/
def Op.Vcvt.ofWord (w : Nat) : Op.Vcvt :=
  { sync := Fin.ofNat 8 (w / 2 ^ 23)
    qd := Fin.ofNat 16 (w / 2 ^ 19)
    qa := Fin.ofNat 16 (w / 2 ^ 15)
    m := Fin.ofNat 8 (w / 2 ^ 12)
    pka := w / 2 ^ 11 % 2 == 1
    fmt := Fin.ofNat 16 (w / 2 ^ 7)
    rm := Fin.ofNat 8 (w / 2 ^ 4)
    sat := w / 2 ^ 3 % 2 == 1 }

/-- The operand bits of a Vcvt word, in their places. -/
def Op.Vcvt.toBits (o : Op.Vcvt) : Nat :=
  o.sync.val * 2 ^ 23 + o.qd.val * 2 ^ 19 + o.qa.val * 2 ^ 15 + o.m.val * 2 ^ 12 + o.pka.toNat * 2 ^ 11 + o.fmt.val * 2 ^ 7 + o.rm.val * 2 ^ 4 + o.sat.toNat * 2 ^ 3

/-- The operands of a Vb word. -/
def Op.Vb.ofWord (w : Nat) : Op.Vb :=
  { sync := Fin.ofNat 8 (w / 2 ^ 23)
    qd := Fin.ofNat 16 (w / 2 ^ 19)
    sr := Fin.ofNat 16 (w / 2 ^ 11)
    m := Fin.ofNat 8 (w / 2 ^ 8) }

/-- The operand bits of a Vb word, in their places. -/
def Op.Vb.toBits (o : Op.Vb) : Nat :=
  o.sync.val * 2 ^ 23 + o.qd.val * 2 ^ 19 + o.sr.val * 2 ^ 11 + o.m.val * 2 ^ 8

/-- The operands of a Vp word. -/
def Op.Vp.ofWord (w : Nat) : Op.Vp :=
  { sync := Fin.ofNat 8 (w / 2 ^ 23)
    qa := Fin.ofNat 16 (w / 2 ^ 15) }

/-- The operand bits of a Vp word, in their places. -/
def Op.Vp.toBits (o : Op.Vp) : Nat :=
  o.sync.val * 2 ^ 23 + o.qa.val * 2 ^ 15

/-- The operands of a Vset word. -/
def Op.Vset.ofWord (w : Nat) : Op.Vset :=
  { sync := Fin.ofNat 8 (w / 2 ^ 23)
    sr := Fin.ofNat 16 (w / 2 ^ 18) }

/-- The operand bits of a Vset word, in their places. -/
def Op.Vset.toBits (o : Op.Vset) : Nat :=
  o.sync.val * 2 ^ 23 + o.sr.val * 2 ^ 18

/-- The operands of a Vm word. -/
def Op.Vm.ofWord (w : Nat) : Op.Vm :=
  { sync := Fin.ofNat 8 (w / 2 ^ 23)
    md := Fin.ofNat 8 (w / 2 ^ 20)
    ma := Fin.ofNat 8 (w / 2 ^ 17)
    mb := Fin.ofNat 8 (w / 2 ^ 14) }

/-- The operand bits of a Vm word, in their places. -/
def Op.Vm.toBits (o : Op.Vm) : Nat :=
  o.sync.val * 2 ^ 23 + o.md.val * 2 ^ 20 + o.ma.val * 2 ^ 17 + o.mb.val * 2 ^ 14

/-- The operands of a Vn word. -/
def Op.Vn.ofWord (w : Nat) : Op.Vn :=
  { sync := Fin.ofNat 8 (w / 2 ^ 23)
    md := Fin.ofNat 8 (w / 2 ^ 20)
    ma := Fin.ofNat 8 (w / 2 ^ 17) }

/-- The operand bits of a Vn word, in their places. -/
def Op.Vn.toBits (o : Op.Vn) : Nat :=
  o.sync.val * 2 ^ 23 + o.md.val * 2 ^ 20 + o.ma.val * 2 ^ 17

/-- The operands of a Vl2s word. -/
def Op.Vl2s.ofWord (w : Nat) : Op.Vl2s :=
  { sync := Fin.ofNat 8 (w / 2 ^ 23)
    sr := Fin.ofNat 16 (w / 2 ^ 18)
    q := Fin.ofNat 16 (w / 2 ^ 14)
    lane := Fin.ofNat 256 (w / 2 ^ 6)
    pk := w / 2 ^ 5 % 2 == 1 }

/-- The operand bits of a Vl2s word, in their places. -/
def Op.Vl2s.toBits (o : Op.Vl2s) : Nat :=
  o.sync.val * 2 ^ 23 + o.sr.val * 2 ^ 18 + o.q.val * 2 ^ 14 + o.lane.val * 2 ^ 6 + o.pk.toNat * 2 ^ 5

/-- The operands of a Vs2l word. -/
def Op.Vs2l.ofWord (w : Nat) : Op.Vs2l :=
  { sync := Fin.ofNat 8 (w / 2 ^ 23)
    sr := Fin.ofNat 16 (w / 2 ^ 18)
    q := Fin.ofNat 16 (w / 2 ^ 14)
    lane := Fin.ofNat 256 (w / 2 ^ 6) }

/-- The operand bits of a Vs2l word, in their places. -/
def Op.Vs2l.toBits (o : Op.Vs2l) : Nat :=
  o.sync.val * 2 ^ 23 + o.sr.val * 2 ^ 18 + o.q.val * 2 ^ 14 + o.lane.val * 2 ^ 6

/-- The operands of a Spls word. -/
def Op.Spls.ofWord (w : Nat) : Op.Spls :=
  { sync := Fin.ofNat 8 (w / 2 ^ 23)
    q := Fin.ofNat 16 (w / 2 ^ 16)
    part := Fin.ofNat 4 (w / 2 ^ 14)
    sr := Fin.ofNat 16 (w / 2 ^ 10) }

/-- The operand bits of a Spls word, in their places. -/
def Op.Spls.toBits (o : Op.Spls) : Nat :=
  o.sync.val * 2 ^ 23 + o.q.val * 2 ^ 16 + o.part.val * 2 ^ 14 + o.sr.val * 2 ^ 10

/-- The operands of a Spup word. -/
def Op.Spup.ofWord (w : Nat) : Op.Spup :=
  { sync := Fin.ofNat 8 (w / 2 ^ 23)
    qr := Fin.ofNat 16 (w / 2 ^ 16)
    addInto := w / 2 ^ 0 % 2 == 1 }

/-- The operand bits of a Spup word, in their places. -/
def Op.Spup.toBits (o : Op.Spup) : Nat :=
  o.sync.val * 2 ^ 23 + o.qr.val * 2 ^ 16 + o.addInto.toNat * 2 ^ 0

/-- The operands of a Spdn word. -/
def Op.Spdn.ofWord (w : Nat) : Op.Spdn :=
  { sync := Fin.ofNat 8 (w / 2 ^ 23)
    qr := Fin.ofNat 16 (w / 2 ^ 16) }

/-- The operand bits of a Spdn word, in their places. -/
def Op.Spdn.toBits (o : Op.Spdn) : Nat :=
  o.sync.val * 2 ^ 23 + o.qr.val * 2 ^ 16

/-- The operands of a Spcvt word. -/
def Op.Spcvt.ofWord (w : Nat) : Op.Spcvt :=
  { sync := Fin.ofNat 8 (w / 2 ^ 23)
    qd := Fin.ofNat 16 (w / 2 ^ 16)
    qa := Fin.ofNat 16 (w / 2 ^ 12)
    toF := w / 2 ^ 11 % 2 == 1 }

/-- The operand bits of a Spcvt word, in their places. -/
def Op.Spcvt.toBits (o : Op.Spcvt) : Nat :=
  o.sync.val * 2 ^ 23 + o.qd.val * 2 ^ 16 + o.qa.val * 2 ^ 12 + o.toF.toNat * 2 ^ 11

/-- A word whose fields are all read decodes if its operands have values that its row allows. -/
def checked (i : Instr) : Except DecodeError Instr :=
  if i.wellFormed then .ok i else .error .reservedValue

/-! ### The opcode maps (R264 to R269) -/

/-- Major 0x1 of the C stream: selector bits [6:0]. -/
def decCAlu (w : Nat) : Except DecodeError Instr :=
  match bits w 6 0 with
  | 0 => checked (.add (.ofWord w))
  | 1 => checked (.sub (.ofWord w))
  | 2 => checked (.and (.ofWord w))
  | 3 => checked (.or (.ofWord w))
  | 4 => checked (.xor (.ofWord w))
  | 5 => checked (.shl (.ofWord w))
  | 6 => checked (.shr (.ofWord w))
  | 7 => checked (.sra (.ofWord w))
  | 8 => checked (.mul (.ofWord w))
  | 9 => checked (.mulh (.ofWord w))
  | 10 => checked (.mulhu (.ofWord w))
  | 11 => checked (.div (.ofWord w))
  | 12 => checked (.divu (.ofWord w))
  | 13 => checked (.rem (.ofWord w))
  | 14 => checked (.remu (.ofWord w))
  | 15 => checked (.min (.ofWord w))
  | 16 => checked (.max (.ofWord w))
  | 17 => if bits w 12 8 = 0 then checked (.clz (.ofWord w)) else .error .reservedField
  | 18 => if bits w 12 8 = 0 then checked (.popc (.ofWord w)) else .error .reservedField
  | _ => .error .unlistedFn

/-- Major 0x6 of the C stream: selector bits [12:11]. -/
def decCShifti (w : Nat) : Except DecodeError Instr :=
  match bits w 12 11 with
  | 0 => if bits w 10 6 = 0 then checked (.shli (.ofWord w)) else .error .reservedField
  | 1 => if bits w 10 6 = 0 then checked (.shri (.ofWord w)) else .error .reservedField
  | 2 => if bits w 10 6 = 0 then checked (.srai (.ofWord w)) else .error .reservedField
  | _ => .error .unlistedFn

/-- Major 0x9 of the C stream: selector bits [7:0]. -/
def decCCmp (w : Nat) : Except DecodeError Instr :=
  match bits w 7 0 with
  | 0 => if bits w 22 21 = 0 then checked (.cmpEq (.ofWord w)) else .error .reservedField
  | 1 => if bits w 22 21 = 0 then checked (.cmpNe (.ofWord w)) else .error .reservedField
  | 2 => if bits w 22 21 = 0 then checked (.cmpLt (.ofWord w)) else .error .reservedField
  | 3 => if bits w 22 21 = 0 then checked (.cmpLtu (.ofWord w)) else .error .reservedField
  | 4 => if bits w 22 21 = 0 then checked (.cmpGe (.ofWord w)) else .error .reservedField
  | 5 => if bits w 22 21 = 0 then checked (.cmpGeu (.ofWord w)) else .error .reservedField
  | _ => .error .unlistedFn

/-- Major 0xa of the C stream: selector bits [22:21]. -/
def decCCmpi (w : Nat) : Except DecodeError Instr :=
  match bits w 22 21 with
  | 0 => checked (.cmpiEq (.ofWord w))
  | 1 => checked (.cmpiNe (.ofWord w))
  | 2 => checked (.cmpiLt (.ofWord w))
  | 3 => checked (.cmpiLtu (.ofWord w))
  | _ => .error .unlistedFn

/-- Major 0xb of the C stream: selector bits [7:0]. -/
def decCPred (w : Nat) : Except DecodeError Instr :=
  match bits w 7 0 with
  | 0 => if bits w 22 21 = 0 ∧ bits w 17 16 = 0 ∧ bits w 12 11 = 0 then checked (.pand (.ofWord w)) else .error .reservedField
  | 1 => if bits w 22 21 = 0 ∧ bits w 17 16 = 0 ∧ bits w 12 11 = 0 then checked (.por (.ofWord w)) else .error .reservedField
  | 2 => if bits w 22 21 = 0 ∧ bits w 17 16 = 0 ∧ bits w 12 11 = 0 then checked (.pxor (.ofWord w)) else .error .reservedField
  | 3 => if bits w 22 21 = 0 ∧ bits w 17 16 = 0 ∧ bits w 12 11 = 0 then checked (.pandn (.ofWord w)) else .error .reservedField
  | 4 => if bits w 22 18 = 0 ∧ bits w 12 8 = 0 then checked (.pfrom (.ofWord w)) else .error .reservedField
  | 5 => if bits w 17 8 = 0 then checked (.pto (.ofWord w)) else .error .reservedField
  | _ => .error .unlistedFn

/-- Major 0x28 of the C stream: selector bits [7:0]. -/
def decCStrm (w : Nat) : Except DecodeError Instr :=
  match bits w 7 0 with
  | 0 => if bits w 22 18 = 0 ∧ bits w 12 8 = 0 then checked (.tstart (.ofWord w)) else .error .reservedField
  | 1 => if bits w 22 18 = 0 ∧ bits w 12 8 = 0 then checked (.mstart (.ofWord w)) else .error .reservedField
  | 2 => if bits w 22 18 = 0 ∧ bits w 12 8 = 0 then checked (.vstart (.ofWord w)) else .error .reservedField
  | 3 => if bits w 22 21 = 0 ∧ bits w 17 8 = 0 then checked (.sdrain (.ofWord w)) else .error .reservedField
  | 4 => if bits w 22 20 = 0 ∧ bits w 17 17 = 0 ∧ bits w 12 10 = 0 then checked (.qbind (.ofWord w)) else .error .reservedField
  | 5 => if bits w 17 17 = 0 then checked (.qget (.ofWord w)) else .error .reservedField
  | 6 => if bits w 17 17 = 0 then checked (.qgetp (.ofWord w)) else .error .reservedField
  | 7 => if bits w 17 17 = 0 then checked (.qput (.ofWord w)) else .error .reservedField
  | _ => .error .unlistedFn

/-- Major 0x29 of the C stream: selector bits [7:0]. -/
def decCToken (w : Nat) : Except DecodeError Instr :=
  match bits w 7 0 with
  | 0 => if bits w 22 20 = 0 ∧ bits w 17 8 = 0 then checked (.tpost (.ofWord w)) else .error .reservedField
  | 1 => if bits w 22 20 = 0 ∧ bits w 17 8 = 0 then checked (.tawait (.ofWord w)) else .error .reservedField
  | _ => .error .unlistedFn

/-- Major 0x2a of the C stream: selector bits [7:0]. -/
def decCTurn (w : Nat) : Except DecodeError Instr :=
  match bits w 7 0 with
  | 0 => if bits w 22 21 = 0 ∧ bits w 12 8 = 0 then checked (.spawn (.ofWord w)) else .error .reservedField
  | 1 => if bits w 22 21 = 0 then checked (.join (.ofWord w)) else .error .reservedField
  | 2 => if bits w 22 8 = 0 then checked (.cEnd (.ofWord w)) else .error .reservedField
  | 3 => if bits w 22 18 = 0 then checked (.ewait (.ofWord w)) else .error .reservedField
  | 4 => if bits w 22 21 = 0 ∧ bits w 12 8 = 0 then checked (.epost (.ofWord w)) else .error .reservedField
  | 5 => if bits w 12 11 = 0 then checked (.etest (.ofWord w)) else .error .reservedField
  | 6 => if bits w 22 21 = 0 ∧ bits w 12 8 = 0 then checked (.launch (.ofWord w)) else .error .reservedField
  | 7 => if bits w 12 11 = 0 then checked (.budget (.ofWord w)) else .error .reservedField
  | _ => .error .unlistedFn

/-- Major 0x2b of the C stream: selector bits [7:0]. -/
def decCCancel (w : Nat) : Except DecodeError Instr :=
  match bits w 7 0 with
  | 0 => if bits w 22 21 = 0 ∧ bits w 12 11 = 0 then checked (.cancel (.ofWord w)) else .error .reservedField
  | 1 => if bits w 22 8 = 0 then checked (.cpoint (.ofWord w)) else .error .reservedField
  | _ => .error .unlistedFn

/-- Major 0x2c of the C stream: selector bits [7:0]. -/
def decCPawn (w : Nat) : Except DecodeError Instr :=
  match bits w 7 0 with
  | 0 => if bits w 17 17 = 0 ∧ bits w 12 11 = 0 then checked (.pwait (.ofWord w)) else .error .reservedField
  | 1 => if bits w 17 17 = 0 ∧ bits w 12 11 = 0 then checked (.ptest (.ofWord w)) else .error .reservedField
  | 2 => if bits w 17 17 = 0 ∧ bits w 12 11 = 0 then checked (.pcancel (.ofWord w)) else .error .reservedField
  | 3 => if bits w 22 21 = 0 ∧ bits w 17 17 = 0 then checked (.pdetach (.ofWord w)) else .error .reservedField
  | 4 => if bits w 22 21 = 0 ∧ bits w 17 17 = 0 then checked (.pprio (.ofWord w)) else .error .reservedField
  | 5 => if bits w 17 11 = 0 then checked (.pstat (.ofWord w)) else .error .reservedField
  | _ => .error .unlistedFn

/-- Major 0x2d of the C stream: selector bits [7:0]. -/
def decCColl (w : Nat) : Except DecodeError Instr :=
  match bits w 7 0 with
  | 0 => checked (.allred (.ofWord w))
  | 1 => checked (.bcast (.ofWord w))
  | 2 => checked (.allgath (.ofWord w))
  | 3 => checked (.redscat (.ofWord w))
  | 4 => if bits w 12 8 = 0 then checked (.barrier (.ofWord w)) else .error .reservedField
  | _ => .error .unlistedFn

/-- Major 0x2e of the C stream: selector bits [7:0]. -/
def decCRack (w : Nat) : Except DecodeError Instr :=
  match bits w 7 0 with
  | 0 => if bits w 12 11 = 0 then checked (.rkopenw (.ofWord w)) else .error .reservedField
  | 1 => if bits w 22 21 = 0 ∧ bits w 12 8 = 0 then checked (.rkcommit (.ofWord w)) else .error .reservedField
  | 2 => if bits w 12 11 = 0 then checked (.rkopenr (.ofWord w)) else .error .reservedField
  | 3 => if bits w 22 21 = 0 ∧ bits w 12 8 = 0 then checked (.rkclose (.ofWord w)) else .error .reservedField
  | _ => .error .unlistedFn

/-- Major 0x31 of the C stream: selector bits [12:12]. -/
def decCControl (w : Nat) : Except DecodeError Instr :=
  match bits w 12 12 with
  | 0 => if bits w 17 16 = 0 then checked (.crr (.ofWord w)) else .error .reservedField
  | 1 => if bits w 22 18 = 0 then checked (.crw (.ofWord w)) else .error .reservedField
  | _ => .error .unlistedFn

/-- Major 0x32 of the C stream: selector bits [7:0]. -/
def decCSys (w : Nat) : Except DecodeError Instr :=
  match bits w 7 0 with
  | 0 => checked (.trap (.ofWord w))
  | 1 => if bits w 22 8 = 0 then checked (.eret (.ofWord w)) else .error .reservedField
  | 2 => checked (.bkpt (.ofWord w))
  | 3 => if bits w 22 21 = 0 then checked (.tlrw (.ofWord w)) else .error .reservedField
  | 4 => if bits w 17 11 = 0 then checked (.time (.ofWord w)) else .error .reservedField
  | _ => .error .unlistedFn

/-- Major 0x33 of the C stream: selector bits [7:0]. -/
def decCSete (w : Nat) : Except DecodeError Instr :=
  match bits w 7 0 with
  | 0 => if bits w 12 11 = 0 then checked (.seta (.ofWord w)) else .error .reservedField
  | 1 => if bits w 12 11 = 0 then checked (.setn (.ofWord w)) else .error .reservedField
  | 2 => if bits w 12 11 = 0 then checked (.sets (.ofWord w)) else .error .reservedField
  | 3 => if bits w 12 11 = 0 then checked (.setnt (.ofWord w)) else .error .reservedField
  | 4 => if bits w 12 11 = 0 then checked (.geta (.ofWord w)) else .error .reservedField
  | _ => .error .unlistedFn

/-- The C stream's word (majors: R264, spec/14_opcode_map.md). -/
def decodeC (w : Nat) : Except DecodeError Instr :=
  match bits w 31 26 with
  | 1 => decCAlu w
  | 2 => checked (.addi (.ofWord w))
  | 3 => checked (.andi (.ofWord w))
  | 4 => checked (.ori (.ofWord w))
  | 5 => checked (.xori (.ofWord w))
  | 6 => decCShifti w
  | 7 => checked (.lui (.ofWord w))
  | 8 => checked (.addpc (.ofWord w))
  | 9 => decCCmp w
  | 10 => decCCmpi w
  | 11 => decCPred w
  | 12 => if bits w 7 3 = 0 then checked (.sel (.ofWord w)) else .error .reservedField
  | 16 => checked (.ldb (.ofWord w))
  | 17 => checked (.ldh (.ofWord w))
  | 18 => checked (.ldw (.ofWord w))
  | 19 => checked (.ldd (.ofWord w))
  | 20 => checked (.ldbu (.ofWord w))
  | 21 => checked (.ldhu (.ofWord w))
  | 22 => checked (.ldwu (.ofWord w))
  | 24 => checked (.stb (.ofWord w))
  | 25 => checked (.sth (.ofWord w))
  | 26 => checked (.stw (.ofWord w))
  | 27 => checked (.std (.ofWord w))
  | 28 => if bits w 22 8 = 0 then checked (.wait (.ofWord w)) else .error .reservedField
  | 32 => checked (.pbr (.ofWord w))
  | 33 => if bits w 22 21 = 0 ∧ bits w 12 0 = 0 then checked (.pbrx (.ofWord w)) else .error .reservedField
  | 34 => if bits w 17 0 = 0 then checked (.br (.ofWord w)) else .error .reservedField
  | 35 => if bits w 17 0 = 0 then checked (.call (.ofWord w)) else .error .reservedField
  | 36 => if bits w 12 0 = 0 then checked (.loopc (.ofWord w)) else .error .reservedField
  | 40 => decCStrm w
  | 41 => decCToken w
  | 42 => decCTurn w
  | 43 => decCCancel w
  | 44 => decCPawn w
  | 45 => decCColl w
  | 46 => decCRack w
  | 48 => if bits w 7 0 = 0 then checked (.fence (.ofWord w)) else .error .reservedField
  | 49 => decCControl w
  | 50 => decCSys w
  | 51 => decCSete w
  | _ => .error .unlistedMajor

/-- Major 0x9 of the T stream: selector bits [22:21]. -/
def decTSacc (w : Nat) : Except DecodeError Instr :=
  match bits w 22 21 with
  | 0 => if bits w 8 0 = 0 then checked (.saccAdd (.ofWord w)) else .error .reservedField
  | 1 => if bits w 8 0 = 0 then checked (.saccMin (.ofWord w)) else .error .reservedField
  | 2 => if bits w 8 0 = 0 then checked (.saccMax (.ofWord w)) else .error .reservedField
  | 3 => if bits w 8 0 = 0 then checked (.saccSwap (.ofWord w)) else .error .reservedField
  | _ => .error .unlistedFn

/-- The T stream's word (majors: R267, spec/14_opcode_map.md). -/
def decodeT (w : Nat) : Except DecodeError Instr :=
  match bits w 31 26 with
  | 1 => checked (.ldq (.ofWord w))
  | 2 => checked (.stq (.ofWord w))
  | 3 => if bits w 22 19 = 0 then checked (.pref (.ofWord w)) else .error .reservedField
  | 4 => checked (.copy (.ofWord w))
  | 5 => checked (.gath (.ofWord w))
  | 6 => checked (.scat (.ofWord w))
  | 7 => if bits w 8 0 = 0 then checked (.rld (.ofWord w)) else .error .reservedField
  | 8 => if bits w 8 0 = 0 then checked (.rst (.ofWord w)) else .error .reservedField
  | 9 => decTSacc w
  | 10 => if bits w 9 0 = 0 then checked (.scas (.ofWord w)) else .error .reservedField
  | 11 => checked (.adda (.ofWord w))
  | 12 => if bits w 14 0 = 0 then checked (.addar (.ofWord w)) else .error .reservedField
  | 13 => if bits w 3 0 = 0 then checked (.tLoop (.ofWord w)) else .error .reservedField
  | 14 => if bits w 12 0 = 0 then checked (.send (.ofWord w)) else .error .reservedField
  | 15 => if bits w 12 0 = 0 then checked (.recv (.ofWord w)) else .error .reservedField
  | 16 => if bits w 21 0 = 0 then checked (.tSync (.ofWord w)) else .error .reservedField
  | 17 => if bits w 7 0 = 0 then checked (.tFence (.ofWord w)) else .error .reservedField
  | 18 => if bits w 22 0 = 0 then checked (.tEnd (.ofWord w)) else .error .reservedField
  | 19 => if bits w 18 0 = 0 then checked (.tWaith (.ofWord w)) else .error .reservedField
  | _ => .error .unlistedMajor

/-- Major 0x1 of the M stream: selector bits [22:20]. -/
def decMNset (w : Nat) : Except DecodeError Instr :=
  match bits w 22 20 with
  | 6 => if bits w 17 17 = 0 then checked (.nsetIns (.ofWord w)) else .error .reservedField
  | 7 => if bits w 19 19 = 0 ∧ bits w 17 4 = 0 then checked (.nsetFmt (.ofWord w)) else .error .reservedField
  | _ => if bits w 17 17 = 0 then checked (.nsetLevel (.ofWord w)) else .error .reservedField

/-- The M stream's word (majors: R268, spec/14_opcode_map.md). -/
def decodeM (w : Nat) : Except DecodeError Instr :=
  match bits w 31 26 with
  | 1 => decMNset w
  | 2 => if bits w 3 0 = 0 then checked (.mgo (.ofWord w)) else .error .reservedField
  | 3 => if bits w 20 0 = 0 then checked (.mzero (.ofWord w)) else .error .reservedField
  | 4 => if bits w 4 0 = 0 then checked (.acc2s (.ofWord w)) else .error .reservedField
  | 5 => if bits w 4 0 = 0 then checked (.s2acc (.ofWord w)) else .error .reservedField
  | 6 => if bits w 3 0 = 0 then checked (.accmul (.ofWord w)) else .error .reservedField
  | 7 => if bits w 17 16 = 0 ∧ bits w 3 0 = 0 then checked (.mLoop (.ofWord w)) else .error .reservedField
  | 8 => if bits w 21 0 = 0 then checked (.mSync (.ofWord w)) else .error .reservedField
  | 9 => if bits w 22 0 = 0 then checked (.mEnd (.ofWord w)) else .error .reservedField
  | 10 => if bits w 7 0 = 0 then checked (.mFence (.ofWord w)) else .error .reservedField
  | 11 => if bits w 18 0 = 0 then checked (.mWaith (.ofWord w)) else .error .reservedField
  | _ => .error .unlistedMajor

/-- Major 0x1 of the V stream: selector bits [5:0]. -/
def decVVfp (w : Nat) : Except DecodeError Instr :=
  match bits w 5 0 with
  | 0 => checked (.vadd (.ofWord w))
  | 1 => checked (.vsub (.ofWord w))
  | 2 => checked (.vmul (.ofWord w))
  | 3 => checked (.vfma (.ofWord w))
  | 4 => checked (.vmin (.ofWord w))
  | 5 => checked (.vmax (.ofWord w))
  | 6 => if bits w 14 11 = 0 ∧ bits w 6 6 = 0 then checked (.vabs (.ofWord w)) else .error .reservedField
  | 7 => if bits w 14 11 = 0 ∧ bits w 6 6 = 0 then checked (.vneg (.ofWord w)) else .error .reservedField
  | _ => .error .unlistedFn

/-- Major 0x2 of the V stream: selector bits [5:0]. -/
def decVVfx (w : Nat) : Except DecodeError Instr :=
  match bits w 5 0 with
  | 0 => if bits w 14 11 = 0 ∧ bits w 6 6 = 0 then checked (.vrcp (.ofWord w)) else .error .reservedField
  | 1 => if bits w 14 11 = 0 ∧ bits w 6 6 = 0 then checked (.vrsq (.ofWord w)) else .error .reservedField
  | 2 => if bits w 14 11 = 0 ∧ bits w 6 6 = 0 then checked (.vexp2 (.ofWord w)) else .error .reservedField
  | 3 => if bits w 14 11 = 0 ∧ bits w 6 6 = 0 then checked (.vlog2 (.ofWord w)) else .error .reservedField
  | _ => .error .unlistedFn

/-- Major 0x3 of the V stream: selector bits [5:0]. -/
def decVVint (w : Nat) : Except DecodeError Instr :=
  match bits w 5 0 with
  | 0 => checked (.viadd (.ofWord w))
  | 1 => checked (.visub (.ofWord w))
  | 2 => checked (.vimul (.ofWord w))
  | 3 => checked (.vand (.ofWord w))
  | 4 => checked (.vor (.ofWord w))
  | 5 => checked (.vxor (.ofWord w))
  | 6 => checked (.vshl (.ofWord w))
  | 7 => checked (.vshr (.ofWord w))
  | 8 => checked (.vsra (.ofWord w))
  | 9 => checked (.vimin (.ofWord w))
  | 10 => checked (.vimax (.ofWord w))
  | _ => .error .unlistedFn

/-- Major 0x4 of the V stream: selector bits [2:0]. -/
def decVVcmp (w : Nat) : Except DecodeError Instr :=
  match bits w 2 0 with
  | 0 => if bits w 19 19 = 0 ∧ bits w 5 5 = 0 then checked (.vcmpEq (.ofWord w)) else .error .reservedField
  | 1 => if bits w 19 19 = 0 ∧ bits w 5 5 = 0 then checked (.vcmpNe (.ofWord w)) else .error .reservedField
  | 2 => if bits w 19 19 = 0 ∧ bits w 5 5 = 0 then checked (.vcmpLt (.ofWord w)) else .error .reservedField
  | 3 => if bits w 19 19 = 0 ∧ bits w 5 5 = 0 then checked (.vcmpLe (.ofWord w)) else .error .reservedField
  | 4 => if bits w 19 19 = 0 ∧ bits w 5 5 = 0 then checked (.vcmpGt (.ofWord w)) else .error .reservedField
  | 5 => if bits w 19 19 = 0 ∧ bits w 5 5 = 0 then checked (.vcmpGe (.ofWord w)) else .error .reservedField
  | _ => .error .unlistedFn

/-- Major 0x6 of the V stream: selector bits [6:0]. -/
def decVVfs (w : Nat) : Except DecodeError Instr :=
  match bits w 6 0 with
  | 0 => checked (.vadds (.ofWord w))
  | 1 => checked (.vsubs (.ofWord w))
  | 2 => checked (.vmuls (.ofWord w))
  | 3 => checked (.vfmas (.ofWord w))
  | 4 => checked (.vmins (.ofWord w))
  | 5 => checked (.vmaxs (.ofWord w))
  | _ => .error .unlistedFn

/-- Major 0xa of the V stream: selector bits [5:0]. -/
def decVVpack (w : Nat) : Except DecodeError Instr :=
  match bits w 5 0 with
  | 0 => checked (.vpack (.ofWord w))
  | 1 => checked (.vunpk (.ofWord w))
  | _ => .error .unlistedFn

/-- Major 0xb of the V stream: selector bits [5:0]. -/
def decVVred (w : Nat) : Except DecodeError Instr :=
  match bits w 5 0 with
  | 0 => if bits w 14 11 = 0 ∧ bits w 6 6 = 0 then checked (.vrsum (.ofWord w)) else .error .reservedField
  | 1 => if bits w 14 11 = 0 ∧ bits w 6 6 = 0 then checked (.vrmax (.ofWord w)) else .error .reservedField
  | 2 => if bits w 14 11 = 0 ∧ bits w 6 6 = 0 then checked (.vrmin (.ofWord w)) else .error .reservedField
  | _ => .error .unlistedFn

/-- Major 0xf of the V stream: selector bits [5:0]. -/
def decVVq (w : Nat) : Except DecodeError Instr :=
  match bits w 5 0 with
  | 0 => if bits w 14 11 = 0 ∧ bits w 6 6 = 0 then checked (.vmov (.ofWord w)) else .error .reservedField
  | 1 => if bits w 22 19 = 0 ∧ bits w 14 6 = 0 then checked (.vpop (.ofWord w)) else .error .reservedField
  | 2 => if bits w 14 11 = 0 ∧ bits w 6 6 = 0 then checked (.vdup (.ofWord w)) else .error .reservedField
  | _ => .error .unlistedFn

/-- Major 0x10 of the V stream: selector bits [22:22]. -/
def decVVshape (w : Nat) : Except DecodeError Instr :=
  match bits w 22 22 with
  | 0 => if bits w 17 0 = 0 then checked (.vsetsh (.ofWord w)) else .error .reservedField
  | 1 => if bits w 17 0 = 0 then checked (.vsetl (.ofWord w)) else .error .reservedField
  | _ => .error .unlistedFn

/-- Major 0x11 of the V stream: selector bits [1:0]. -/
def decVVmask (w : Nat) : Except DecodeError Instr :=
  match bits w 1 0 with
  | 0 => if bits w 13 2 = 0 then checked (.mand (.ofWord w)) else .error .reservedField
  | 1 => if bits w 13 2 = 0 then checked (.mor (.ofWord w)) else .error .reservedField
  | 2 => if bits w 13 2 = 0 then checked (.mxor (.ofWord w)) else .error .reservedField
  | 3 => if bits w 16 2 = 0 then checked (.mnot (.ofWord w)) else .error .reservedField
  | _ => .error .unlistedFn

/-- Major 0x12 of the V stream: selector bits [22:22]. -/
def decVVsmov (w : Nat) : Except DecodeError Instr :=
  match bits w 22 22 with
  | 0 => if bits w 4 0 = 0 then checked (.vsmovToS (.ofWord w)) else .error .reservedField
  | 1 => if bits w 5 0 = 0 then checked (.vsmovToLane (.ofWord w)) else .error .reservedField
  | _ => .error .unlistedFn

/-- Major 0x18 of the V stream: selector bits [22:20]. -/
def decVSp (w : Nat) : Except DecodeError Instr :=
  match bits w 22 20 with
  | 0 => if bits w 9 0 = 0 then checked (.spld (.ofWord w)) else .error .reservedField
  | 1 => if bits w 9 0 = 0 then checked (.spst (.ofWord w)) else .error .reservedField
  | 2 => if bits w 15 1 = 0 then checked (.spup (.ofWord w)) else .error .reservedField
  | 3 => if bits w 15 0 = 0 then checked (.spdn (.ofWord w)) else .error .reservedField
  | 4 => if bits w 10 0 = 0 then checked (.spcvt (.ofWord w)) else .error .reservedField
  | _ => .error .unlistedFn

/-- The V stream's word (majors: R269, spec/14_opcode_map.md). -/
def decodeV (w : Nat) : Except DecodeError Instr :=
  match bits w 31 26 with
  | 1 => decVVfp w
  | 2 => decVVfx w
  | 3 => decVVint w
  | 4 => decVVcmp w
  | 5 => if bits w 5 0 = 0 then checked (.vsel (.ofWord w)) else .error .reservedField
  | 6 => decVVfs w
  | 7 => checked (.viaddi (.ofWord w))
  | 8 => if bits w 18 15 = 0 ∧ bits w 11 11 = 0 then checked (.vbcasti (.ofWord w)) else .error .reservedField
  | 9 => if bits w 2 0 = 0 then checked (.vcvt (.ofWord w)) else .error .reservedField
  | 10 => decVVpack w
  | 11 => decVVred w
  | 12 => if bits w 5 0 = 0 then checked (.vperm (.ofWord w)) else .error .reservedField
  | 13 => if bits w 18 15 = 0 ∧ bits w 7 0 = 0 then checked (.vbcast (.ofWord w)) else .error .reservedField
  | 14 => checked (.vrot (.ofWord w))
  | 15 => decVVq w
  | 16 => decVVshape w
  | 17 => decVVmask w
  | 18 => decVVsmov w
  | 24 => decVSp w
  | 28 => if bits w 3 0 = 0 then checked (.vLoop (.ofWord w)) else .error .reservedField
  | 29 => if bits w 21 0 = 0 then checked (.vSync (.ofWord w)) else .error .reservedField
  | 30 => if bits w 22 0 = 0 then checked (.vEnd (.ofWord w)) else .error .reservedField
  | 31 => if bits w 7 0 = 0 then checked (.vFence (.ofWord w)) else .error .reservedField
  | _ => .error .unlistedMajor

/-- The instruction a stream reads from a word. -/
def decode (st : Strm) (w : Nat) : Except DecodeError Instr :=
  match st with
  | .c => decodeC w
  | .t => decodeT w
  | .m => decodeM w
  | .v => decodeV w

/-- A word from four bytes, the lowest address first: little-endian (R286, R120). -/
def wordOfBytes (b0 b1 b2 b3 : BitVec 8) : Nat :=
  b0.toNat + b1.toNat * 2 ^ 8 + b2.toNat * 2 ^ 16 + b3.toNat * 2 ^ 24

/-- The four bytes of a word, the lowest address first. -/
def bytesOfWord (w : Nat) : List (BitVec 8) :=
  [BitVec.ofNat 8 w, BitVec.ofNat 8 (w / 2 ^ 8), BitVec.ofNat 8 (w / 2 ^ 16), BitVec.ofNat 8 (w / 2 ^ 24)]

/-- The instruction at the head of a byte list, with the bytes after it. -/
def decodeBytes (st : Strm) : List (BitVec 8) → Except DecodeError (Instr × List (BitVec 8))
  | b0 :: b1 :: b2 :: b3 :: rest =>
    match decode st (wordOfBytes b0 b1 b2 b3) with
    | .ok i => .ok (i, rest)
    | .error e => .error e
  | _ => .error .short

/-! ### Encoding -/

/-- The word of an instruction: the fixed bits of its row and its operands in their fields. An event has
no word. -/
def encode : Instr → Option Nat
  | .add o => some (0x04000000 + o.toBits)
  | .sub o => some (0x04000001 + o.toBits)
  | .and o => some (0x04000002 + o.toBits)
  | .or o => some (0x04000003 + o.toBits)
  | .xor o => some (0x04000004 + o.toBits)
  | .shl o => some (0x04000005 + o.toBits)
  | .shr o => some (0x04000006 + o.toBits)
  | .sra o => some (0x04000007 + o.toBits)
  | .mul o => some (0x04000008 + o.toBits)
  | .mulh o => some (0x04000009 + o.toBits)
  | .mulhu o => some (0x0400000A + o.toBits)
  | .div o => some (0x0400000B + o.toBits)
  | .divu o => some (0x0400000C + o.toBits)
  | .rem o => some (0x0400000D + o.toBits)
  | .remu o => some (0x0400000E + o.toBits)
  | .min o => some (0x0400000F + o.toBits)
  | .max o => some (0x04000010 + o.toBits)
  | .clz o => some (0x04000011 + o.toBits)
  | .popc o => some (0x04000012 + o.toBits)
  | .addi o => some (0x08000000 + o.toBits)
  | .andi o => some (0x0C000000 + o.toBits)
  | .ori o => some (0x10000000 + o.toBits)
  | .xori o => some (0x14000000 + o.toBits)
  | .shli o => some (0x18000000 + o.toBits)
  | .shri o => some (0x18000800 + o.toBits)
  | .srai o => some (0x18001000 + o.toBits)
  | .lui o => some (0x1C000000 + o.toBits)
  | .addpc o => some (0x20000000 + o.toBits)
  | .cmpEq o => some (0x24000000 + o.toBits)
  | .cmpNe o => some (0x24000001 + o.toBits)
  | .cmpLt o => some (0x24000002 + o.toBits)
  | .cmpLtu o => some (0x24000003 + o.toBits)
  | .cmpGe o => some (0x24000004 + o.toBits)
  | .cmpGeu o => some (0x24000005 + o.toBits)
  | .cmpiEq o => some (0x28000000 + o.toBits)
  | .cmpiNe o => some (0x28200000 + o.toBits)
  | .cmpiLt o => some (0x28400000 + o.toBits)
  | .cmpiLtu o => some (0x28600000 + o.toBits)
  | .pand o => some (0x2C000000 + o.toBits)
  | .por o => some (0x2C000001 + o.toBits)
  | .pxor o => some (0x2C000002 + o.toBits)
  | .pandn o => some (0x2C000003 + o.toBits)
  | .pfrom o => some (0x2C000004 + o.toBits)
  | .pto o => some (0x2C000005 + o.toBits)
  | .sel o => some (0x30000000 + o.toBits)
  | .ldb o => some (0x40000000 + o.toBits)
  | .ldh o => some (0x44000000 + o.toBits)
  | .ldw o => some (0x48000000 + o.toBits)
  | .ldd o => some (0x4C000000 + o.toBits)
  | .ldbu o => some (0x50000000 + o.toBits)
  | .ldhu o => some (0x54000000 + o.toBits)
  | .ldwu o => some (0x58000000 + o.toBits)
  | .stb o => some (0x60000000 + o.toBits)
  | .sth o => some (0x64000000 + o.toBits)
  | .stw o => some (0x68000000 + o.toBits)
  | .std o => some (0x6C000000 + o.toBits)
  | .wait o => some (0x70000000 + o.toBits)
  | .pbr o => some (0x80000000 + o.toBits)
  | .pbrx o => some (0x84000000 + o.toBits)
  | .br o => some (0x88000000 + o.toBits)
  | .call o => some (0x8C000000 + o.toBits)
  | .loopc o => some (0x90000000 + o.toBits)
  | .tstart o => some (0xA0000000 + o.toBits)
  | .mstart o => some (0xA0000001 + o.toBits)
  | .vstart o => some (0xA0000002 + o.toBits)
  | .sdrain o => some (0xA0000003 + o.toBits)
  | .qbind o => some (0xA0000004 + o.toBits)
  | .qget o => some (0xA0000005 + o.toBits)
  | .qgetp o => some (0xA0000006 + o.toBits)
  | .qput o => some (0xA0000007 + o.toBits)
  | .tpost o => some (0xA4000000 + o.toBits)
  | .tawait o => some (0xA4000001 + o.toBits)
  | .spawn o => some (0xA8000000 + o.toBits)
  | .join o => some (0xA8000001 + o.toBits)
  | .cEnd o => some (0xA8000002 + o.toBits)
  | .ewait o => some (0xA8000003 + o.toBits)
  | .epost o => some (0xA8000004 + o.toBits)
  | .etest o => some (0xA8000005 + o.toBits)
  | .launch o => some (0xA8000006 + o.toBits)
  | .budget o => some (0xA8000007 + o.toBits)
  | .cancel o => some (0xAC000000 + o.toBits)
  | .cpoint o => some (0xAC000001 + o.toBits)
  | .pwait o => some (0xB0000000 + o.toBits)
  | .ptest o => some (0xB0000001 + o.toBits)
  | .pcancel o => some (0xB0000002 + o.toBits)
  | .pdetach o => some (0xB0000003 + o.toBits)
  | .pprio o => some (0xB0000004 + o.toBits)
  | .pstat o => some (0xB0000005 + o.toBits)
  | .allred o => some (0xB4000000 + o.toBits)
  | .bcast o => some (0xB4000001 + o.toBits)
  | .allgath o => some (0xB4000002 + o.toBits)
  | .redscat o => some (0xB4000003 + o.toBits)
  | .barrier o => some (0xB4000004 + o.toBits)
  | .rkopenw o => some (0xB8000000 + o.toBits)
  | .rkcommit o => some (0xB8000001 + o.toBits)
  | .rkopenr o => some (0xB8000002 + o.toBits)
  | .rkclose o => some (0xB8000003 + o.toBits)
  | .fence o => some (0xC0000000 + o.toBits)
  | .crr o => some (0xC4000000 + o.toBits)
  | .crw o => some (0xC4001000 + o.toBits)
  | .trap o => some (0xC8000000 + o.toBits)
  | .eret o => some (0xC8000001 + o.toBits)
  | .bkpt o => some (0xC8000002 + o.toBits)
  | .tlrw o => some (0xC8000003 + o.toBits)
  | .time o => some (0xC8000004 + o.toBits)
  | .seta o => some (0xCC000000 + o.toBits)
  | .setn o => some (0xCC000001 + o.toBits)
  | .sets o => some (0xCC000002 + o.toBits)
  | .setnt o => some (0xCC000003 + o.toBits)
  | .geta o => some (0xCC000004 + o.toBits)
  | .ldq o => some (0x04000000 + o.toBits)
  | .stq o => some (0x08000000 + o.toBits)
  | .pref o => some (0x0C000000 + o.toBits)
  | .copy o => some (0x10000000 + o.toBits)
  | .gath o => some (0x14000000 + o.toBits)
  | .scat o => some (0x18000000 + o.toBits)
  | .rld o => some (0x1C000000 + o.toBits)
  | .rst o => some (0x20000000 + o.toBits)
  | .saccAdd o => some (0x24000000 + o.toBits)
  | .saccMin o => some (0x24200000 + o.toBits)
  | .saccMax o => some (0x24400000 + o.toBits)
  | .saccSwap o => some (0x24600000 + o.toBits)
  | .scas o => some (0x28000000 + o.toBits)
  | .adda o => some (0x2C000000 + o.toBits)
  | .addar o => some (0x30000000 + o.toBits)
  | .tLoop o => some (0x34000000 + o.toBits)
  | .send o => some (0x38000000 + o.toBits)
  | .recv o => some (0x3C000000 + o.toBits)
  | .tSync o => some (0x40000000 + o.toBits)
  | .tFence o => some (0x44000000 + o.toBits)
  | .tEnd o => some (0x48000000 + o.toBits)
  | .tWaith o => some (0x4C000000 + o.toBits)
  | .nsetLevel o => some (0x04000000 + o.toBits)
  | .nsetIns o => some (0x04600000 + o.toBits)
  | .nsetFmt o => some (0x04700000 + o.toBits)
  | .mgo o => some (0x08000000 + o.toBits)
  | .mzero o => some (0x0C000000 + o.toBits)
  | .acc2s o => some (0x10000000 + o.toBits)
  | .s2acc o => some (0x14000000 + o.toBits)
  | .accmul o => some (0x18000000 + o.toBits)
  | .mLoop o => some (0x1C000000 + o.toBits)
  | .mSync o => some (0x20000000 + o.toBits)
  | .mEnd o => some (0x24000000 + o.toBits)
  | .mFence o => some (0x28000000 + o.toBits)
  | .mWaith o => some (0x2C000000 + o.toBits)
  | .vadd o => some (0x04000000 + o.toBits)
  | .vsub o => some (0x04000001 + o.toBits)
  | .vmul o => some (0x04000002 + o.toBits)
  | .vfma o => some (0x04000003 + o.toBits)
  | .vmin o => some (0x04000004 + o.toBits)
  | .vmax o => some (0x04000005 + o.toBits)
  | .vabs o => some (0x04000006 + o.toBits)
  | .vneg o => some (0x04000007 + o.toBits)
  | .vrcp o => some (0x08000000 + o.toBits)
  | .vrsq o => some (0x08000001 + o.toBits)
  | .vexp2 o => some (0x08000002 + o.toBits)
  | .vlog2 o => some (0x08000003 + o.toBits)
  | .viadd o => some (0x0C000000 + o.toBits)
  | .visub o => some (0x0C000001 + o.toBits)
  | .vimul o => some (0x0C000002 + o.toBits)
  | .vand o => some (0x0C000003 + o.toBits)
  | .vor o => some (0x0C000004 + o.toBits)
  | .vxor o => some (0x0C000005 + o.toBits)
  | .vshl o => some (0x0C000006 + o.toBits)
  | .vshr o => some (0x0C000007 + o.toBits)
  | .vsra o => some (0x0C000008 + o.toBits)
  | .vimin o => some (0x0C000009 + o.toBits)
  | .vimax o => some (0x0C00000A + o.toBits)
  | .vcmpEq o => some (0x10000000 + o.toBits)
  | .vcmpNe o => some (0x10000001 + o.toBits)
  | .vcmpLt o => some (0x10000002 + o.toBits)
  | .vcmpLe o => some (0x10000003 + o.toBits)
  | .vcmpGt o => some (0x10000004 + o.toBits)
  | .vcmpGe o => some (0x10000005 + o.toBits)
  | .vsel o => some (0x14000000 + o.toBits)
  | .vadds o => some (0x18000000 + o.toBits)
  | .vsubs o => some (0x18000001 + o.toBits)
  | .vmuls o => some (0x18000002 + o.toBits)
  | .vfmas o => some (0x18000003 + o.toBits)
  | .vmins o => some (0x18000004 + o.toBits)
  | .vmaxs o => some (0x18000005 + o.toBits)
  | .viaddi o => some (0x1C000000 + o.toBits)
  | .vbcasti o => some (0x20000000 + o.toBits)
  | .vcvt o => some (0x24000000 + o.toBits)
  | .vpack o => some (0x28000000 + o.toBits)
  | .vunpk o => some (0x28000001 + o.toBits)
  | .vrsum o => some (0x2C000000 + o.toBits)
  | .vrmax o => some (0x2C000001 + o.toBits)
  | .vrmin o => some (0x2C000002 + o.toBits)
  | .vperm o => some (0x30000000 + o.toBits)
  | .vbcast o => some (0x34000000 + o.toBits)
  | .vrot o => some (0x38000000 + o.toBits)
  | .vmov o => some (0x3C000000 + o.toBits)
  | .vpop o => some (0x3C000001 + o.toBits)
  | .vdup o => some (0x3C000002 + o.toBits)
  | .vsetsh o => some (0x40000000 + o.toBits)
  | .vsetl o => some (0x40400000 + o.toBits)
  | .mand o => some (0x44000000 + o.toBits)
  | .mor o => some (0x44000001 + o.toBits)
  | .mxor o => some (0x44000002 + o.toBits)
  | .mnot o => some (0x44000003 + o.toBits)
  | .vsmovToS o => some (0x48000000 + o.toBits)
  | .vsmovToLane o => some (0x48400000 + o.toBits)
  | .spld o => some (0x60000000 + o.toBits)
  | .spst o => some (0x60100000 + o.toBits)
  | .spup o => some (0x60200000 + o.toBits)
  | .spdn o => some (0x60300000 + o.toBits)
  | .spcvt o => some (0x60400000 + o.toBits)
  | .vLoop o => some (0x70000000 + o.toBits)
  | .vSync o => some (0x74000000 + o.toBits)
  | .vEnd o => some (0x78000000 + o.toBits)
  | .vFence o => some (0x7C000000 + o.toBits)
  | .powerUpBoot _ _ => none
  | .bootLinkTimeout => none
  | .tftpBlockReceive _ _ => none
  | .tftpBlockRetry => none
  | .bootRetry => none
  | .droopTrigger _ _ => none
  | .columnSample _ _ => none
  | .hbmStackSample _ _ => none
  | .hotStackReport _ => none
  | .drawceilWrite _ => none
  | .drawgGrantWrite _ _ => none
  | .ringMeasureStart _ _ => none
  | .ringMeasureDone _ _ => none
  | .mgmtRegisterWrite _ _ => none
  | .myincChipWrite _ => none
  | .sealOpen _ => none
  | .sealClose _ => none
  | .repairRequest _ => none
  | .coreSiteRepair _ => none
  | .coreSiteRetire _ => none
  | .hbmRowRepair _ => none
  | .hbmRowRepairDone _ => none
  | .hbmChannelRetire _ _ => none
  | .deepRowSpare _ _ => none
  | .deepBankRetire _ _ => none
  | .linkLaneSpare _ _ => none
  | .linkPortRetrain _ => none
  | .linkPortOut _ => none
  | .meshLinkReroute _ _ _ => none
  | .serviceCoreTakeover _ => none
  | .firmwareSwitch => none
  | .thermalTrip _ _ => none
  | .powerTrip _ => none
  | .serviceCoreHostWrite _ _ => none
  | .ethernetFrameSend _ _ => none
  | .packetInject _ => none
  | .flitSetup => none
  | .flitBypass => none
  | .latchedHop _ => none
  | .bridgeRetryExhausted _ _ _ => none
  | .linkFlitReplay _ => none
  | .linkTransactionSend _ _ _ => none
  | .linkAckSend _ _ => none
  | .linkAckReceive _ _ _ => none
  | .linkResend _ _ => none
  | .linkRetryExhausted _ _ => none
  | .peerRequestReceive _ => none
  | .incarnationAnnounce => none
  | .announcementReceive _ _ => none
  | .collectiveExchangeStep _ _ => none
  | .vfFunctionLevelReset _ => none
  | .partitionCreate _ _ => none
  | .partitionDestroy _ => none
  | .partitionMapChange _ _ => none
  | .submitWrite _ _ _ => none
  | .submissionCopy _ => none
  | .attestationRequest _ _ => none
  | .keyCounterConfirm => none
  | .jobLoad _ _ => none
  | .importRegister _ _ _ _ => none
  | .activityRelease _ _ _ => none
  | .selectorSizeRead _ _ _ => none
  | .deadlineMiss _ _ _ => none
  | .counterDecrement _ _ _ _ => none
  | .turnRetire _ _ => none
  | .cancelLinearise _ _ _ => none
  | .cancelBroadcast _ => none
  | .turnDispatch _ _ => none
  | .spillRefill _ _ => none
  | .turnDisplace _ _ => none
  | .contextActivate _ => none
  | .urgentSwitchEvaluate _ => none
  | .urgentSwitch _ => none
  | .stealRequest _ _ => none
  | .stealCrossDie _ _ => none
  | .budgetTrap _ _ => none
  | .eventTableApply _ => none
  | .overflowWalk _ => none
  | .rackOpApply _ => none
  | .waitTokenSettle _ _ _ => none
  | .pageWalkComplete _ => none
  | .prefetchReady _ _ _ => none
  | .invctlWrite _ _ => none
  | .ptrootWrite _ _ => none
  | .shootdownAck _ _ => none
  | .replicaRead _ _ _ => none
  | .replicaWrite _ => none
  | .holderAck _ _ => none
  | .fenceRetire _ _ _ => none
  | .resultLand _ _ => none
  | .pawnStep _ _ => none
  | .pawnEnd _ _ => none
  | .mgoStep _ _ => none
  | .drawSlotGrant _ => none
  | .tWordCommit _ _ => none
  | .lateFault _ _ => none
  | .vectorResultPush _ _ => none
  | .trapEntry _ _ => none
  | .deadlockDetect _ _ => none
  | .handlerDeadlock _ _ => none
  | .partitionSwap _ => none
  | .remapResponseLand _ => none
  | .timeRegisterStage _ _ _ => none
  | .timeEpoch _ => none
  | .scrubVisit _ _ => none
  | .dbgHalt _ _ => none
  | .debugHaltLand _ _ => none
  | .dbgResume _ _ => none
  | .dbgStep _ _ _ => none
  | .dbgRead _ _ _ => none
  | .dbgWrite _ _ _ => none
  | .dbgDrop _ _ => none
  | .dbgBadcmd _ => none
  | .breakpointFire _ _ _ => none
  | .traceDrain _ => none
  | .powerFail => none
  | .peerUpWaitTimeout _ _ => none
  | .dhcpv6ReplyReceive _ _ _ => none
  | .submissionWindowWrite _ _ _ => none
  | .sitesJoinPartition _ _ => none
  | .clusterPowerGate _ => none
  | .clusterUngate _ => none
  | .bankGoesDrowsy _ _ => none

/-- The stream whose words a constructor belongs to; none for an event. -/
def Instr.stream : Instr → Option Strm
  | .add _ => some .c
  | .sub _ => some .c
  | .and _ => some .c
  | .or _ => some .c
  | .xor _ => some .c
  | .shl _ => some .c
  | .shr _ => some .c
  | .sra _ => some .c
  | .mul _ => some .c
  | .mulh _ => some .c
  | .mulhu _ => some .c
  | .div _ => some .c
  | .divu _ => some .c
  | .rem _ => some .c
  | .remu _ => some .c
  | .min _ => some .c
  | .max _ => some .c
  | .clz _ => some .c
  | .popc _ => some .c
  | .addi _ => some .c
  | .andi _ => some .c
  | .ori _ => some .c
  | .xori _ => some .c
  | .shli _ => some .c
  | .shri _ => some .c
  | .srai _ => some .c
  | .lui _ => some .c
  | .addpc _ => some .c
  | .cmpEq _ => some .c
  | .cmpNe _ => some .c
  | .cmpLt _ => some .c
  | .cmpLtu _ => some .c
  | .cmpGe _ => some .c
  | .cmpGeu _ => some .c
  | .cmpiEq _ => some .c
  | .cmpiNe _ => some .c
  | .cmpiLt _ => some .c
  | .cmpiLtu _ => some .c
  | .pand _ => some .c
  | .por _ => some .c
  | .pxor _ => some .c
  | .pandn _ => some .c
  | .pfrom _ => some .c
  | .pto _ => some .c
  | .sel _ => some .c
  | .ldb _ => some .c
  | .ldh _ => some .c
  | .ldw _ => some .c
  | .ldd _ => some .c
  | .ldbu _ => some .c
  | .ldhu _ => some .c
  | .ldwu _ => some .c
  | .stb _ => some .c
  | .sth _ => some .c
  | .stw _ => some .c
  | .std _ => some .c
  | .wait _ => some .c
  | .pbr _ => some .c
  | .pbrx _ => some .c
  | .br _ => some .c
  | .call _ => some .c
  | .loopc _ => some .c
  | .tstart _ => some .c
  | .mstart _ => some .c
  | .vstart _ => some .c
  | .sdrain _ => some .c
  | .qbind _ => some .c
  | .qget _ => some .c
  | .qgetp _ => some .c
  | .qput _ => some .c
  | .tpost _ => some .c
  | .tawait _ => some .c
  | .spawn _ => some .c
  | .join _ => some .c
  | .cEnd _ => some .c
  | .ewait _ => some .c
  | .epost _ => some .c
  | .etest _ => some .c
  | .launch _ => some .c
  | .budget _ => some .c
  | .cancel _ => some .c
  | .cpoint _ => some .c
  | .pwait _ => some .c
  | .ptest _ => some .c
  | .pcancel _ => some .c
  | .pdetach _ => some .c
  | .pprio _ => some .c
  | .pstat _ => some .c
  | .allred _ => some .c
  | .bcast _ => some .c
  | .allgath _ => some .c
  | .redscat _ => some .c
  | .barrier _ => some .c
  | .rkopenw _ => some .c
  | .rkcommit _ => some .c
  | .rkopenr _ => some .c
  | .rkclose _ => some .c
  | .fence _ => some .c
  | .crr _ => some .c
  | .crw _ => some .c
  | .trap _ => some .c
  | .eret _ => some .c
  | .bkpt _ => some .c
  | .tlrw _ => some .c
  | .time _ => some .c
  | .seta _ => some .c
  | .setn _ => some .c
  | .sets _ => some .c
  | .setnt _ => some .c
  | .geta _ => some .c
  | .ldq _ => some .t
  | .stq _ => some .t
  | .pref _ => some .t
  | .copy _ => some .t
  | .gath _ => some .t
  | .scat _ => some .t
  | .rld _ => some .t
  | .rst _ => some .t
  | .saccAdd _ => some .t
  | .saccMin _ => some .t
  | .saccMax _ => some .t
  | .saccSwap _ => some .t
  | .scas _ => some .t
  | .adda _ => some .t
  | .addar _ => some .t
  | .tLoop _ => some .t
  | .send _ => some .t
  | .recv _ => some .t
  | .tSync _ => some .t
  | .tFence _ => some .t
  | .tEnd _ => some .t
  | .tWaith _ => some .t
  | .nsetLevel _ => some .m
  | .nsetIns _ => some .m
  | .nsetFmt _ => some .m
  | .mgo _ => some .m
  | .mzero _ => some .m
  | .acc2s _ => some .m
  | .s2acc _ => some .m
  | .accmul _ => some .m
  | .mLoop _ => some .m
  | .mSync _ => some .m
  | .mEnd _ => some .m
  | .mFence _ => some .m
  | .mWaith _ => some .m
  | .vadd _ => some .v
  | .vsub _ => some .v
  | .vmul _ => some .v
  | .vfma _ => some .v
  | .vmin _ => some .v
  | .vmax _ => some .v
  | .vabs _ => some .v
  | .vneg _ => some .v
  | .vrcp _ => some .v
  | .vrsq _ => some .v
  | .vexp2 _ => some .v
  | .vlog2 _ => some .v
  | .viadd _ => some .v
  | .visub _ => some .v
  | .vimul _ => some .v
  | .vand _ => some .v
  | .vor _ => some .v
  | .vxor _ => some .v
  | .vshl _ => some .v
  | .vshr _ => some .v
  | .vsra _ => some .v
  | .vimin _ => some .v
  | .vimax _ => some .v
  | .vcmpEq _ => some .v
  | .vcmpNe _ => some .v
  | .vcmpLt _ => some .v
  | .vcmpLe _ => some .v
  | .vcmpGt _ => some .v
  | .vcmpGe _ => some .v
  | .vsel _ => some .v
  | .vadds _ => some .v
  | .vsubs _ => some .v
  | .vmuls _ => some .v
  | .vfmas _ => some .v
  | .vmins _ => some .v
  | .vmaxs _ => some .v
  | .viaddi _ => some .v
  | .vbcasti _ => some .v
  | .vcvt _ => some .v
  | .vpack _ => some .v
  | .vunpk _ => some .v
  | .vrsum _ => some .v
  | .vrmax _ => some .v
  | .vrmin _ => some .v
  | .vperm _ => some .v
  | .vbcast _ => some .v
  | .vrot _ => some .v
  | .vmov _ => some .v
  | .vpop _ => some .v
  | .vdup _ => some .v
  | .vsetsh _ => some .v
  | .vsetl _ => some .v
  | .mand _ => some .v
  | .mor _ => some .v
  | .mxor _ => some .v
  | .mnot _ => some .v
  | .vsmovToS _ => some .v
  | .vsmovToLane _ => some .v
  | .spld _ => some .v
  | .spst _ => some .v
  | .spup _ => some .v
  | .spdn _ => some .v
  | .spcvt _ => some .v
  | .vLoop _ => some .v
  | .vSync _ => some .v
  | .vEnd _ => some .v
  | .vFence _ => some .v
  | .powerUpBoot _ _ => none
  | .bootLinkTimeout => none
  | .tftpBlockReceive _ _ => none
  | .tftpBlockRetry => none
  | .bootRetry => none
  | .droopTrigger _ _ => none
  | .columnSample _ _ => none
  | .hbmStackSample _ _ => none
  | .hotStackReport _ => none
  | .drawceilWrite _ => none
  | .drawgGrantWrite _ _ => none
  | .ringMeasureStart _ _ => none
  | .ringMeasureDone _ _ => none
  | .mgmtRegisterWrite _ _ => none
  | .myincChipWrite _ => none
  | .sealOpen _ => none
  | .sealClose _ => none
  | .repairRequest _ => none
  | .coreSiteRepair _ => none
  | .coreSiteRetire _ => none
  | .hbmRowRepair _ => none
  | .hbmRowRepairDone _ => none
  | .hbmChannelRetire _ _ => none
  | .deepRowSpare _ _ => none
  | .deepBankRetire _ _ => none
  | .linkLaneSpare _ _ => none
  | .linkPortRetrain _ => none
  | .linkPortOut _ => none
  | .meshLinkReroute _ _ _ => none
  | .serviceCoreTakeover _ => none
  | .firmwareSwitch => none
  | .thermalTrip _ _ => none
  | .powerTrip _ => none
  | .serviceCoreHostWrite _ _ => none
  | .ethernetFrameSend _ _ => none
  | .packetInject _ => none
  | .flitSetup => none
  | .flitBypass => none
  | .latchedHop _ => none
  | .bridgeRetryExhausted _ _ _ => none
  | .linkFlitReplay _ => none
  | .linkTransactionSend _ _ _ => none
  | .linkAckSend _ _ => none
  | .linkAckReceive _ _ _ => none
  | .linkResend _ _ => none
  | .linkRetryExhausted _ _ => none
  | .peerRequestReceive _ => none
  | .incarnationAnnounce => none
  | .announcementReceive _ _ => none
  | .collectiveExchangeStep _ _ => none
  | .vfFunctionLevelReset _ => none
  | .partitionCreate _ _ => none
  | .partitionDestroy _ => none
  | .partitionMapChange _ _ => none
  | .submitWrite _ _ _ => none
  | .submissionCopy _ => none
  | .attestationRequest _ _ => none
  | .keyCounterConfirm => none
  | .jobLoad _ _ => none
  | .importRegister _ _ _ _ => none
  | .activityRelease _ _ _ => none
  | .selectorSizeRead _ _ _ => none
  | .deadlineMiss _ _ _ => none
  | .counterDecrement _ _ _ _ => none
  | .turnRetire _ _ => none
  | .cancelLinearise _ _ _ => none
  | .cancelBroadcast _ => none
  | .turnDispatch _ _ => none
  | .spillRefill _ _ => none
  | .turnDisplace _ _ => none
  | .contextActivate _ => none
  | .urgentSwitchEvaluate _ => none
  | .urgentSwitch _ => none
  | .stealRequest _ _ => none
  | .stealCrossDie _ _ => none
  | .budgetTrap _ _ => none
  | .eventTableApply _ => none
  | .overflowWalk _ => none
  | .rackOpApply _ => none
  | .waitTokenSettle _ _ _ => none
  | .pageWalkComplete _ => none
  | .prefetchReady _ _ _ => none
  | .invctlWrite _ _ => none
  | .ptrootWrite _ _ => none
  | .shootdownAck _ _ => none
  | .replicaRead _ _ _ => none
  | .replicaWrite _ => none
  | .holderAck _ _ => none
  | .fenceRetire _ _ _ => none
  | .resultLand _ _ => none
  | .pawnStep _ _ => none
  | .pawnEnd _ _ => none
  | .mgoStep _ _ => none
  | .drawSlotGrant _ => none
  | .tWordCommit _ _ => none
  | .lateFault _ _ => none
  | .vectorResultPush _ _ => none
  | .trapEntry _ _ => none
  | .deadlockDetect _ _ => none
  | .handlerDeadlock _ _ => none
  | .partitionSwap _ => none
  | .remapResponseLand _ => none
  | .timeRegisterStage _ _ _ => none
  | .timeEpoch _ => none
  | .scrubVisit _ _ => none
  | .dbgHalt _ _ => none
  | .debugHaltLand _ _ => none
  | .dbgResume _ _ => none
  | .dbgStep _ _ _ => none
  | .dbgRead _ _ _ => none
  | .dbgWrite _ _ _ => none
  | .dbgDrop _ _ => none
  | .dbgBadcmd _ => none
  | .breakpointFire _ _ _ => none
  | .traceDrain _ => none
  | .powerFail => none
  | .peerUpWaitTimeout _ _ => none
  | .dhcpv6ReplyReceive _ _ _ => none
  | .submissionWindowWrite _ _ _ => none
  | .sitesJoinPartition _ _ => none
  | .clusterPowerGate _ => none
  | .clusterUngate _ => none
  | .bankGoesDrowsy _ _ => none

/-! ### The opcode table's words -/

/-- The stream whose opcode map a word of the table is first found in: C, then T, then M, then V. The
table gives a word without its stream, and the four maps share their numbers (R246). DESIGN CHOICE,
log 14. -/
def tableStream (w : Nat) : Option Strm :=
  match decodeC w with
  | .ok _ => some .c
  | .error _ =>
    match decodeT w with
    | .ok _ => some .t
    | .error _ =>
      match decodeM w with
      | .ok _ => some .m
      | .error _ =>
        match decodeV w with
        | .ok _ => some .v
        | .error _ => none

/-- The instruction the decoder reads from a word of spec/opcode_table.json: its four bytes laid out
little-endian, decoded by the stream `tableStream` names. -/
def decodeTableWord (nbits w : Nat) : Option Instr :=
  let w := w % 2 ^ nbits % 2 ^ 32
  match tableStream w with
  | none => none
  | some st =>
    match decodeBytes st (bytesOfWord w) with
    | .ok (i, _) => some i
    | .error _ => none

end Sys2Proof
end

