-- ==== Sys2Proof/Machine/Mesh.lean ====
section
/-! DEFINITION. The mesh: packets, channels, routing, bypass, exchanges at homes, and bridges (spec/02_fabric.md, R23 to R35).

Outputs of a router are 0 north, 1 east, 2 south, 3 west, 4 core, 5 deep; input ports are 0 west, 1 north, 2 east, 3 south, 4 core, 5 deep,
in the order of R33's pointer. The west output of X = 0 and the east output of X = 23 lead to the rim dies. -/

namespace Sys2Proof.Machine

/-! ### End points, links and routes (R24, R27, R28) -/

/-- The router of an end point: of the mesh, or for an HBM stack's port of the memory plane (R36). -/
def endAt : NetEnd → Nat × Nat
  | .core site => (meshX site, meshY site)
  | .deep site => (meshX site, meshY site)
  | .rim east y => (if east then 23 else 0, y)
  | .hbm stack port => (4 * (stack % 6) + port, if stack < 6 then 0 else 11)

/-- The output by which a packet leaves the router of an end point. -/
def endExit : NetEnd → Nat
  | .core _ => 4
  | .deep _ => 5
  | .rim east _ => if east then 1 else 3
  | .hbm _ _ => 6

/-- The input port by which a packet enters the router of an end point. -/
def endEntry : NetEnd → Nat
  | .core _ => 4
  | .deep _ => 5
  | .rim east _ => if east then 2 else 0
  | .hbm _ _ => 6

/-- The neighbour of a router in a direction, within 24 by 12. -/
def neighbour (x y : Nat) (d : Nat) : Option (Nat × Nat) :=
  match d with
  | 0 => if y = 0 then none else some (x, y - 1)
  | 1 => if 23 ≤ x then none else some (x + 1, y)
  | 2 => if 11 ≤ y then none else some (x, y + 1)
  | 3 => if x = 0 then none else some (x - 1, y)
  | _ => none

/-- The port by which a flit that travelled in a direction enters. -/
def entryPort (d : Nat) : Nat :=
  match d with
  | 0 => 3
  | 1 => 0
  | 2 => 1
  | _ => 2

/-- Does a link cross a compute-die edge (R35). -/
def isBridge (x y d : Nat) : Bool :=
  match d with
  | 0 => y == 6
  | 1 => x % 6 == 5 && decide (x < 23)
  | 2 => y == 5
  | 3 => x % 6 == 0 && decide (0 < x)
  | _ => false

/-- Is a link failed or retired. -/
def Mesh.failed (m : Mesh) (x y d : Nat) : Bool := m.failedLinks.contains (x, y, d)

/-- The packet of a number. -/
def Mesh.pkt? (m : Mesh) (id : Nat) : Option MeshPkt := m.packets.find? (fun p => decide (p.id = id))

/-- The free flits of a router port's shared pool of four (R27). -/
def Mesh.poolFree (m : Mesh) (x y port : Nat) : Nat :=
  4 - (m.flits.filter (fun f => decide (f.x = x) && decide (f.y = y) && decide (f.port = port) && !f.own)).length

/-- Is the reserved flit of a channel free at a router port (R27). -/
def Mesh.ownFree (m : Mesh) (x y port chan : Nat) : Bool :=
  !m.flits.any (fun f => decide (f.x = x) && decide (f.y = y) && decide (f.port = port) && decide (f.chan = chan) && f.own)

/-- The productive direction in X, and in Y. -/
def towardX (x dx : Nat) : Option Nat := if x < dx then some 1 else if dx < x then some 3 else none

/-- The productive direction in Y. -/
def towardY (y dy : Nat) : Option Nat := if y < dy then some 2 else if dy < y then some 0 else none

/-- The free pool of the router that a direction leads to; a failed link counts as none. -/
def Mesh.roomToward (m : Mesh) (x y d : Nat) : Option Nat :=
  if m.failed x y d then none
  else (neighbour x y d).map (fun n => m.poolFree n.1 n.2 (entryPort d))

/-- The adaptive choice at a router (R28): the productive direction with more free flits downstream; X on a tie. -/
def Mesh.adaptive (m : Mesh) (x y : Nat) (to_ : Nat × Nat) : Option Nat :=
  let room := fun (d : Option Nat) => match d with
    | some d => (m.roomToward x y d).map (fun r => (d, r))
    | none => none
  match room (towardX x to_.1), room (towardY y to_.2) with
  | some (a, ra), some (b, rb) => some (if ra < rb then b else a)
  | some (a, _), none => some a
  | none, some (b, _) => some b
  | none, none => none

/-- The things reached step by step from some: the rings round them. -/
def spread {α : Type} [DecidableEq α] (next : α → List α) : Nat → List α → List α → List (List α)
  | 0, _, _ => []
  | fuel + 1, seen, last =>
    if last.isEmpty then []
    else
      let seen := seen ++ last
      last :: spread next fuel seen (((last.flatMap next).eraseDups).filter (fun a => !seen.contains a))

/-- The directions and neighbours of a router over links in service both ways, east, west, south, north. -/
def Mesh.near (m : Mesh) (n : Nat × Nat) : List (Nat × Nat × Nat) :=
  ([1, 3, 2, 0] : List Nat).filterMap (fun d => match neighbour n.1 n.2 d with
    | some k => if m.failed n.1 n.2 d || m.failed k.1 k.2 ((d + 2) % 4) then none else some (d, k)
    | none => none)

/-- The routers in the order of their distance from router (0,0) over links in service. A move to an earlier one rises, any other falls. -/
def Mesh.ranks (m : Mesh) : List (Nat × Nat) := (spread (fun n => (m.near n).map (fun k => k.2)) 288 [] [(0, 0)]).flatten

/-- Does a move between two routers rise. -/
def rises (ranks : List (Nat × Nat)) (a b : Nat × Nat) : Bool := decide (ranks.idxOf b < ranks.idxOf a)

/-- The routers and phases (may the packet still rise) from which one move leads to a router in a phase: a packet that has fallen rises no
more. -/
def Mesh.before (m : Mesh) (ranks : List (Nat × Nat)) (v : (Nat × Nat) × Bool) : List ((Nat × Nat) × Bool) :=
  (m.near v.1).flatMap (fun k =>
    if rises ranks k.2 v.1 then (if v.2 then [(k.2, true)] else []) else (if v.2 then [] else [(k.2, true), (k.2, false)]))

/-- The detour at a router (R28): with links out of service the escape tables lead along a shortest way that rises first and then falls, in the
order east, west, south, north. No channel of a falling move waits for one of a rising move, so the detours make no cycle. Which detours
keep the escape network free of cycles is a DESIGN CHOICE (log 19). -/
def Mesh.detour (m : Mesh) (n to_ : Nat × Nat) (rise : Bool) : Option Nat :=
  let ranks := m.ranks
  let rings := spread (m.before ranks) 576 [] [(to_, true), (to_, false)]
  let dist := fun (v : (Nat × Nat) × Bool) => rings.findIdx? (fun r => r.contains v)
  (dist (n, rise)).bind (fun k =>
    ((m.near n).find? (fun e =>
      let up := rises ranks n e.2
      (rise || !up) && (match dist (e.2, up) with
        | some j => decide (j + 1 = k)
        | none => false))).map (fun e => e.1))

/-- May a packet's head still rise on its detour: it was not on an escape channel before its last move, or that move rose. -/
def Mesh.mayRise (m : Mesh) (p : MeshPkt) : Bool :=
  match p.route.getLast?, p.route.dropLast.getLast? with
  | some h, some g => decide (g.chan < 4) || (match neighbour h.out.1 h.out.2.1 h.out.2.2 with
    | some n => rises m.ranks (h.out.1, h.out.2.1) n
    | none => true)
  | _, _ => true

/-- The escape route of a packet's head at a router (R28): X, then Y; a detour where links are out of service. -/
def Mesh.escape (m : Mesh) (x y : Nat) (p : MeshPkt) : Option Nat :=
  let to_ := endAt p.dst
  if m.failedLinks.isEmpty then (towardX x to_.1).or (towardY y to_.2) else m.detour (x, y) to_ (m.mayRise p)

/-- The direction of a head's next hop: the adaptive choice, or the escape route on an escape channel and where every productive link is
out of service. -/
def Mesh.nextDir (m : Mesh) (f : Flit) (p : MeshPkt) : Option Nat :=
  if f.chan < 4 then (m.adaptive f.x f.y (endAt p.dst)).or (m.escape f.x f.y p) else m.escape f.x f.y p

/-- The escape channel of a channel's class. -/
def escapeOf (chan : Nat) : Nat := if chan = 0 ∨ chan = 1 ∨ chan = 4 then 4 else 5

/-- Has a packet a flit that has not crossed an output of its route yet. -/
def Mesh.crossing (m : Mesh) (p : MeshPkt) (out : Nat × Nat × Nat) (chan : Nat) : Bool :=
  match p.route.findIdx? (fun h => h.out == out && decide (h.chan = chan)) with
  | some i => m.flits.any (fun f => decide (f.packet = p.id) && decide (f.crossed ≤ i))
  | none => false

/-- Does another packet hold a channel of a link (R25). -/
def Mesh.heldBy (m : Mesh) (packet : Nat) (out : Nat × Nat × Nat) (chan : Nat) : Bool :=
  m.packets.any (fun p => decide (p.id ≠ packet) && m.crossing p out chan)

/-! ### Injection (R25, R29 to R31) -/

/-- The channel of a class. -/
def classChan : PktClass → Nat
  | .request0 => 0
  | .request1 => 1
  | .response0 => 2
  | .response1 => 3

/-- Flits of 128 bytes that hold n bytes. -/
def flitsOf (n : Nat) : Nat := (n + 127) / 128

/-- The data flits of a request and of its response (R25): a write carries its data, a read's response what was read; a head alone else. -/
def pktData (p : PktSpec) : Nat := match p.cmd with | .read _ => 0 | .write n => flitsOf n

/-- The data flits of the response (R25). -/
def respData (p : PktSpec) : Nat := match p.cmd with | .read n => flitsOf n | .write _ => 0

/-- The response buffers of 128 bytes that a request reserves (R29, R30): one for each data flit of its response, one for an
acknowledgement. The requests for which the text names no buffers take some of the 64 that both contexts share (DESIGN CHOICE, log 19). -/
def respBufs (p : PktSpec) : Nat := max 1 (respData p)

/-- Is a request a write. -/
def pktWrites (p : PktSpec) : Bool := match p.cmd with | .write _ => true | .read _ => false

/-- The number of an end point. -/
def endKey : NetEnd → Nat
  | .core site => site
  | .deep site => 288 + site
  | .rim east y => 576 + 12 * east.toNat + y
  | .hbm stack port => 600 + 4 * stack + port

/-- The counter of response buffers of a requester (R29): a core's are its contexts' remote loads (0, 1) and what both share (2). -/
def bufferKey (p : PktSpec) : Nat := endKey p.src * 3 + (if p.buf = .remote then p.cx.toNat else 2)

/-- The counter of response buffers that a home holds for what it forwards. -/
def homeKey (e : NetEnd) : Nat := 3 * 648 + endKey e

/-- The buffers behind a counter: the text numbers those of cores, and none of a rim-die port (R29). -/
def bufferSize (p : PktSpec) : Option Nat :=
  match p.src with
  | .core _ => some (if p.buf = .remote then 32 else 64)
  | _ => none

/-- The 64-byte lines a request touches. -/
def pktLines (p : PktSpec) : List Nat :=
  (List.range ((p.addr % 64 + p.cmd.bytes + 63) / 64)).map (fun i => p.addr / 64 + i)

/-- May a request enter the networks: it holds buffers for its response, and no unacknowledged write of its path touches a line of it (R29,
R31). -/
def Mesh.mayInject (m : Mesh) (p : PktSpec) : Bool :=
  (match bufferSize p with
    | some n => decide (m.reserved.getD (bufferKey p) 0 + respBufs p ≤ n)
    | none => true) &&
  !(pktLines p).any (fun l => m.writes.contains (p.src, p.cx, p.path, l))

/-- Does a packet travel on the memory plane: one of its ends is an HBM controller (R23, R36). -/
def onPlane (src dst : NetEnd) : Bool :=
  match src, dst with
  | .hbm _ _, _ => true
  | _, .hbm _ _ => true
  | _, _ => false

/-- Is a class a response. -/
def isResponse (c : PktClass) : Bool := decide (2 ≤ classChan c)

/-- The beats of 512 bytes of a packet on the memory plane (R36). -/
def planeBeats (data : Nat) : Nat := max 1 ((data + 3) / 4)

/-- A packet put on its network: its flits stand in the interface of its source, or its beats at the source's memory router. -/
def Mesh.put (m : Mesh) (cls : PktClass) (spec : PktSpec) (src dst : NetEnd) (data : Nat) (root : Option Nat) (now : Nat) : Mesh :=
  let id := m.nextId
  let at_ := endAt src
  let flit := fun (i : Nat) =>
    ({ id := id + i, packet := id, idx := i, last := i == data, x := at_.1, y := at_.2, chan := classChan cls, own := false, port := 6,
       since := m.fclk, crossed := 0, won := [] } : Flit)
  let n := planeBeats data
  let beat := fun (i : Nat) =>
    ({ packet := id, last := i + 1 == n, x := at_.1, y := at_.2, resp := isResponse cls, ready := now + 1 } : Beat)
  let m : Mesh := { m with
    nextId := id + data + 1
    packets := m.packets ++ [{ id := id, cls := cls, spec := spec, src := src, dst := dst, data := data, route := [], root := root.getD id }] }
  if onPlane src dst then { m with beats := m.beats ++ (List.range n).map beat }
  else { m with flits := m.flits ++ (List.range (data + 1)).map flit }

/-- A request in the networks: its buffers are reserved, and a write is unacknowledged until its response (R29, R31). -/
def Mesh.inject (m : Mesh) (p : PktSpec) (now : Nat) : Mesh :=
  { m.put .request0 p p.src p.dst (pktData p) none now with
    reserved := m.reserved.setD (bufferKey p) 0 (m.reserved.getD (bufferKey p) 0 + respBufs p)
    writes := if pktWrites p then m.writes ++ (pktLines p).map (fun l => (p.src, p.cx, p.path, l)) else m.writes }

/-- A request offered: one that may not enter waits in its engine (R29). -/
def Mesh.offer (m : Mesh) (p : PktSpec) (now : Nat) : Mesh :=
  if m.mayInject p then m.inject p now else { m with waiting := m.waiting ++ [p] }

/-- The waiting requests tried again, in order. -/
def Mesh.retryWaiting (m : Mesh) (now : Nat) : Mesh :=
  m.waiting.foldl (fun (m : Mesh) p => m.offer p now) { m with waiting := [] }

/-- PACKET_INJECT (R29): a request that cannot reserve its buffers waits in its engine. -/
def execPacketInject (p : PktSpec) (s : State) : Host.Outcome State Fault Refusal :=
  .next (if p.ok then { s with mesh := s.mesh.offer p s.cycle } else s)

/-! ### Exchanges at homes (R26, R29, R31) -/

/-- A request has ended: its buffers and its write's lines are free again, and its requester learns how. -/
def Mesh.finish (m : Mesh) (p : PktSpec) (fault : Option Cause) : Mesh :=
  let k := bufferKey p
  { m with
    reserved := m.reserved.setD k 0 (m.reserved.getD k 0 - respBufs p)
    writes := if pktWrites p then (pktLines p).foldl (fun l i => l.erase (p.src, p.cx, p.path, i)) m.writes else m.writes
    ended := m.ended ++ [(p, fault)] }

/-- Is a request that a home holds the first of its lines there (R31). -/
def Mesh.firstAtHome (m : Mesh) (v : Serve) : Bool :=
  !(m.serving.takeWhile (fun u => decide (u.root ≠ v.root))).any (fun u =>
    u.spec.dst == v.spec.dst && (pktLines u.spec).any (fun l => (pktLines v.spec).contains l))

/-- A home goes on with a request: it asks with Request 1, holding buffers for the answers, or with every answer in it sends Response 0, the
last packet of the exchange (R26, R29). Its first turn is the moment of the access at its home (R31, R143). -/
def Mesh.serve (m : Mesh) (v : Serve) (now : Nat) : Mesh :=
  let p := v.spec
  let m := { m with homes := if v.asked then m.homes else m.homes ++ [p.tag] }
  if !v.asked && !p.asks.isEmpty then
    let m := { m with
      serving := m.serving.map (fun u => if u.root = v.root then { u with asked := true, waiting := p.asks.length } else u)
      reserved := m.reserved.setD (homeKey p.dst) 0 (m.reserved.getD (homeKey p.dst) 0 + p.asks.length) }
    p.asks.foldl (fun (m : Mesh) e => m.put .request1 p p.dst e 0 (some v.root) now) m
  else
    ({ m with serving := m.serving.filter (fun u => decide (u.root ≠ v.root)) } : Mesh).put .response0 p p.dst p.src (respData p) (some v.root) now

/-- Every home goes on with what it may: the requests that are first of their lines, in arrival order. -/
def Mesh.serveAll (m : Mesh) (now : Nat) : Mesh :=
  m.serving.foldl (fun (m : Mesh) u =>
    match m.serving.find? (fun v => decide (v.root = u.root)) with
    | some v => if m.firstAtHome v && decide (v.waiting = 0) then m.serve v now else m
    | none => m) m

/-- A packet has arrived whole. A Request 0 is served at its home; a Request 1 is answered; a Response 1 reaches the home that asked; a
Response 0 ends the exchange. -/
def Mesh.arrive (m : Mesh) (p : MeshPkt) (now : Nat) : Mesh :=
  let m := { m with packets := m.packets.filter (fun q => decide (q.id ≠ p.id)), delivered := m.delivered ++ [(p.id, m.fclk)] }
  match p.cls with
  | .request0 => ({ m with serving := m.serving ++ [{ root := p.root, spec := p.spec, asked := false, waiting := 0 }] } : Mesh).serveAll now
  | .request1 => m.put .response1 p.spec p.dst p.src 0 (some p.root) now
  | .response1 =>
    ({ m with
      serving := m.serving.map (fun v => if v.root = p.root then { v with waiting := v.waiting - 1 } else v)
      reserved := m.reserved.setD (homeKey p.dst) 0 (m.reserved.getD (homeKey p.dst) 0 - 1) } : Mesh).serveAll now
  | .response0 => m.finish p.spec none

/-- A flit leaves at its destination; with its last flit the packet has arrived. -/
def Mesh.deliver (m : Mesh) (f : Flit) (now : Nat) : Mesh :=
  let m := { m with flits := m.flits.filter (fun g => decide (g.id ≠ f.id)) }
  if m.flits.any (fun g => decide (g.packet = f.packet)) then m
  else match m.pkt? f.packet with
    | some p => m.arrive p now
    | none => m

/-! ### Paths (R25, R32, R34) -/

/-- The outputs of a set-up path from a router in a direction: to the destination and out of it, eight routers, or the last router before a
bridge; one turn. -/
def setupPath (to_ : Nat × Nat) (exit : Nat) : Nat → Nat → Nat → Nat → List (Nat × Nat × Nat)
  | 0, _, _, _ => []
  | fuel + 1, x, y, d =>
    if isBridge x y d then []
    else
      match neighbour x y d with
      | none => []
      | some n =>
        let horiz := d % 2 == 1
        let next := if horiz then (if n.1 = to_.1 then towardY n.2 to_.2 else some d) else (if n.2 = to_.2 then towardX n.1 to_.1 else some d)
        (x, y, d) :: (match next with
          | some e => setupPath to_ exit fuel n.1 n.2 e
          | none => [(n.1, n.2, exit)])

/-- The outputs that lie before a packet's head: out of its destination router, the next escape or bridge link, or a bypass path; up to a
link out of service or a channel that another packet holds. -/
def Mesh.headPath (m : Mesh) (f : Flit) (p : MeshPkt) : List (Nat × Nat × Nat) :=
  let to_ := endAt p.dst
  if (f.x, f.y) = to_ then [(f.x, f.y, (endExit p.dst))]
  else
    match m.nextDir f p with
    | none => []
    | some d =>
      let path := if 4 ≤ f.chan ∨ isBridge f.x f.y d ∨ (m.adaptive f.x f.y to_).isNone then [(f.x, f.y, d)]
        else setupPath to_ (endExit p.dst) 8 f.x f.y d
      path.takeWhile (fun h => !m.failed h.1 h.2.1 h.2.2 && !m.heldBy f.packet h f.chan)

/-- The outputs of a way that one set-up covers: to the eighth router, with one turn, and out of the destination (R32). -/
def oneTurn : List (Nat × Nat × Nat) → Nat → Bool → Option Nat → List (Nat × Nat × Nat)
  | [], _, _, _ => []
  | o :: rest, n, turned, axis =>
    if (neighbour o.1 o.2.1 o.2.2).isNone then [o]
    else
      let turns := match axis with | some a => decide (a ≠ o.2.2 % 2) | none => false
      match n with
      | 0 => []
      | n + 1 => if turns && turned then [] else o :: oneTurn rest n (turned || turns) (some (o.2.2 % 2))

/-- The outputs that lie before another flit of a packet: those its predecessor has crossed, one at a time on escape channels and over
bridges. -/
def Mesh.bodyPath (m : Mesh) (f : Flit) (p : MeshPkt) : List (Nat × Nat × Nat) :=
  let upto := match m.flits.find? (fun g => decide (g.packet = f.packet) && decide (g.idx + 1 = f.idx)) with
    | some g => g.crossed
    | none => p.route.length
  let hops := (p.route.take upto).drop f.crossed
  match hops with
  | [] => []
  | h :: _ =>
    if 4 ≤ f.chan ∨ isBridge h.out.1 h.out.2.1 h.out.2.2 then [h.out]
    else oneTurn ((hops.map (fun h => h.out)).takeWhile (fun o => !isBridge o.1 o.2.1 o.2.2)) 8 false none

/-- The outputs that lie before a flit in its router. -/
def Mesh.ahead (m : Mesh) (f : Flit) : List (Nat × Nat × Nat) :=
  match m.pkt? f.packet with
  | none => []
  | some p => if f.idx = 0 then m.headPath f p else m.bodyPath f p

/-- Is a flit's next crossing a latched hop: on an escape channel, over a bridge, or on to an escape channel (R28, R32). -/
def hopsNext (f : Flit) (path : List (Nat × Nat × Nat)) : Bool :=
  decide (4 ≤ f.chan) || (match path with | h :: _ => isBridge h.1 h.2.1 h.2.2 | [] => false)

/-- The path for which a latched flit contends in this FCLK cycle, to cross in the next: two more cycles in the router before a bridge
(R34). -/
def Mesh.path (m : Mesh) (f : Flit) : List (Nat × Nat × Nat) :=
  if f.port = 6 then []
  else
    let p := m.ahead f
    let bridge := match p with | h :: _ => isBridge h.1 h.2.1 h.2.2 | [] => false
    if m.fclk < f.since + (if bridge then 2 else 0) then [] else p

/-! ### Entering a router (R25, R27) -/

/-- The room of a channel at a router port: in the shared pool, else in the channel's own reserved flit (true). -/
def Mesh.roomFor (m : Mesh) (x y port chan : Nat) : Option Bool :=
  if chan < 4 ∧ 0 < m.poolFree x y port then some false else if m.ownFree x y port chan then some true else none

/-- The channel in which a flit is latched at a router, and whether in its reserved flit: the shared pool, else the escape channel of its class,
on which its packet then stays; none when neither has room. A data flit follows its head's channel, and where the pool is full it takes that
channel's reserved flit (DESIGN CHOICE, log 19: what those of channels 0 to 3 hold the text does not say). -/
def Mesh.latchChan (m : Mesh) (f : Flit) (out : Nat × Nat × Nat) (x y port : Nat) (forced : Option Nat) : Option (Nat × Bool) :=
  let esc := escapeOf f.chan
  match forced with
  | some c => (m.roomFor x y port c).map (fun own => (c, own))
  | none =>
    if f.chan < 4 ∧ 0 < m.poolFree x y port then some (f.chan, false)
    else if m.ownFree x y port esc && !m.heldBy f.packet out esc then some (esc, true) else none

/-- The flits in a source's interface enter its router: one in an FCLK cycle at a port, the first of its channel there, as the pool has room,
or, for a data flit, its channel's reserved flit (R27). -/
def Mesh.load (m : Mesh) : Mesh :=
  let first := fun (f : Flit) (e : NetEnd) => !m.flits.any (fun g => decide (g.port = 6) && decide (g.id < f.id) && decide (g.chan = f.chan) &&
    (match m.pkt? g.packet with | some q => q.src == e | none => false))
  let may := m.flits.filterMap (fun f =>
    if f.port ≠ 6 then none
    else match m.pkt? f.packet with
      | some p =>
        let room := if f.idx = 0 then (if 0 < m.poolFree f.x f.y (endEntry p.src) then some false else none)
          else m.roomFor f.x f.y (endEntry p.src) f.chan
        if first f p.src then room.map (fun own => (p.src, { f with own := own })) else none
      | none => none)
  let picks := may.filter (fun a => !may.any (fun b => b.1 == a.1 && decide (b.2.id < a.2.id)))
  { m with flits := m.flits.map (fun f =>
      match picks.find? (fun a => decide (a.2.id = f.id)) with
      | some a => { a.2 with port := endEntry a.1, since := m.fclk }
      | none => f) }

/-! ### Set-up and grants (R32, R33) -/

/-- The port by which a path enters the router of its i-th output. -/
def pathPort (f : Flit) (path : List (Nat × Nat × Nat)) (i : Nat) : Nat :=
  if i = 0 then f.port else match path[i - 1]? with | some h => entryPort h.2.2 | none => f.port

/-- The key of an output's pointer. -/
def outKey (h : Nat × Nat × Nat) : Nat := (h.1 * 12 + h.2.1) * 8 + h.2.2

/-- A contender for an output: flit, input port, whether it has waited 4 cycles at that router. -/
structure Contender where
  id : Nat
  port : Nat
  old : Bool
deriving DecidableEq, Repr

/-- The contender whose port the pointer meets first; within a port the earliest flit. -/
def roundRobin (ptr : Nat) (cs : List Contender) : Option Contender :=
  cs.foldl (fun (best : Option Contender) c =>
    let rank := fun (x : Contender) => ((x.port + 6 - ptr) % 6, x.id)
    match best with
    | none => some c
    | some b => if (rank c).1 < (rank b).1 ∨ ((rank c).1 = (rank b).1 ∧ (rank c).2 < (rank b).2) then some c else some b) none

/-- The grant of one output (R33). -/
def grantOutput (ptr : Nat) (cs : List Contender) : Option Contender :=
  let old := cs.filter (fun c => c.old)
  roundRobin ptr (if old.isEmpty then cs else old)

/-- A flit's path, and the part of it, up to and with the first output it loses, to which its set-up comes. -/
structure SetupPath where
  flit : Flit
  path : List (Nat × Nat × Nat)
  comes : List (Nat × Nat × Nat)
deriving DecidableEq, Repr

/-- The grants of outputs: of each that a set-up comes to, to one of those that come to it. -/
abbrev Grants := List ((Nat × Nat × Nat) × Option Contender)

/-- Has a flit won an output. -/
def wonBy (grants : Grants) (id : Nat) (h : Nat × Nat × Nat) : Bool :=
  grants.any (fun g => g.1 == h && (match g.2 with | some c => decide (c.id = id) | none => false))

/-- Every output to which a set-up comes, and the contender that wins it (R33). -/
def Mesh.grantAll (m : Mesh) (ps : List SetupPath) : Grants :=
  ((ps.flatMap (fun p => p.comes)).eraseDups).map (fun h =>
    let cs := ps.filterMap (fun p =>
      match p.comes.findIdx? (fun g => g == h) with
      | some i => some { id := p.flit.id, port := pathPort p.flit p.path i, old := i == 0 && decide (p.flit.since + 4 ≤ m.fclk) : Contender }
      | none => none)
    (h, grantOutput (m.pointers.getD (outKey h) 0) cs))

/-- A path's set-up goes on as far as it wins. -/
def SetupPath.reach (p : SetupPath) (grants : Grants) : SetupPath :=
  { p with comes := p.path.take ((p.path.takeWhile (fun h => wonBy grants p.flit.id h)).length + 1) }

/-- The grants of one FCLK cycle (R32, R33): a set-up that has lost an output comes to none beyond it, so the grants are worked out again until
the set-ups come no farther than they win. -/
def Mesh.grants (m : Mesh) : Nat → List SetupPath → Grants
  | 0, ps => m.grantAll ps
  | fuel + 1, ps =>
    let g := m.grantAll ps
    let qs := ps.map (fun p => p.reach g)
    if qs = ps then g else m.grants fuel qs

/-! ### Bridges (R35) -/

/-- FCLK cycles of 4 µs, after which a bridge sends again, and of 1 µs, within which its far side acknowledges (R35, R40). -/
def bridgeResend : Nat := 3500

/-- FCLK cycles of 1 µs. -/
def bridgeAck : Nat := 875

/-- Is a packet that a bridge keeps overdue. -/
def BridgeTxn.overdue (t : BridgeTxn) (fclk : Nat) : Bool := t.far.isNone && decide (t.sentAt + bridgeResend ≤ fclk)

/-- The acknowledgements of bridges' far sides: cumulative, at 64 packets or 1 µs. -/
def Mesh.bridgeAcks (m : Mesh) : Mesh :=
  let done := fun (t : BridgeTxn) => match t.far with
    | some k => decide (k + bridgeAck ≤ m.fclk) || decide (64 ≤ (m.bridges.filter (fun u => u.link == t.link && u.far.isSome)).length)
    | none => false
  { m with bridges := m.bridges.filter (fun t => !done t) }

/-- A flit crosses a bridge link: with its head the near side keeps the packet under the link's next number, with its last flit the far side
has it. -/
def Mesh.overBridge (m : Mesh) (f : Flit) (out : Nat × Nat × Nat) : Mesh :=
  if !isBridge out.1 out.2.1 out.2.2 then m
  else
    let n := m.bridgeSeq.getD (outKey out) 0
    let m := if f.idx = 0 then { m with
        bridges := m.bridges ++ [{ link := out, seq := n, packet := f.packet, sentAt := m.fclk, resends := 0, far := none }]
        bridgeSeq := m.bridgeSeq.setD (outKey out) 0 ((n + 1) % 2 ^ 32) } else m
    if f.last then { m with bridges := m.bridges.map (fun t =>
        if t.link == out && decide (t.packet = f.packet) then { t with far := some m.fclk } else t) } else m

/-! ### Traversal -/

/-- The outputs up to the n-th of a list crossed by a flit: its head writes them into the packet's route. -/
def Mesh.crossed (m : Mesh) (f : Flit) (outs : List (Nat × Nat × Nat)) (chan : Nat) : Mesh :=
  let hops := outs.mapIdx (fun i o => { out := o, chan := if i + 1 = outs.length then chan else f.chan : Hop })
  let m := if f.idx = 0 then { m with packets := m.packets.map (fun p =>
      if p.id = f.packet then { p with route := p.route ++ hops } else p) } else m
  outs.foldl (fun (m : Mesh) o => m.overBridge f o) m

/-- A flit carried along outputs that it has won, as far as it can: out of the mesh, or to be latched at the last router of them that has
room for it; `fuel` bounds the tries. -/
def Mesh.carry (m : Mesh) (f : Flit) (now : Nat) : Nat → List (Nat × Nat × Nat) → Mesh
  | 0, _ => { m with flits := m.flits.map (fun g => if g.id = f.id then { g with won := [] } else g) }
  | fuel + 1, outs =>
    match outs.getLast? with
    | none => { m with flits := m.flits.map (fun g => if g.id = f.id then { g with won := [] } else g) }
    | some h =>
      match neighbour h.1 h.2.1 h.2.2 with
      | none => (m.crossed f outs f.chan).deliver f now
      | some n =>
        let port := entryPort h.2.2
        let forced := match m.pkt? f.packet with
          | none => none
          | some p =>
            if f.idx ≠ 0 then (p.route[f.crossed + outs.length - 1]?).map (fun h => h.chan)
            else if (m.adaptive f.x f.y (endAt p.dst)).isNone then some (escapeOf f.chan) else none
        match m.latchChan f h n.1 n.2 port forced with
        | none => m.carry f now fuel outs.dropLast
        | some (c, own) =>
          let g := { f with x := n.1, y := n.2, port := port, chan := c, own := own, since := m.fclk + 1, crossed := f.crossed + outs.length, won := [] }
          let m := m.crossed f outs c
          { m with flits := m.flits.map (fun k => if k.id = f.id then g else k) }

/-- FLIT_SETUP (R32 to R34): waiting requests and the flits of interfaces enter, every latched flit drives its set-up, and each output grants
one contender. The set-up takes one FCLK cycle, also of a mesh that stood idle. -/
def execFlitSetup (s : State) : Host.Outcome State Fault Refusal :=
  let m := ((s.mesh.retryWaiting s.cycle).bridgeAcks).load
  let paths := m.flits.filterMap (fun f => if f.won.isEmpty then
    (let p := m.path f; if p.isEmpty then none else some { flit := f, path := p, comes := p.take 1 : SetupPath }) else none)
  let grants := m.grants 64 paths
  let flits := m.flits.map (fun f =>
    match paths.find? (fun p => decide (p.flit.id = f.id)) with
    | some p => { f with won := p.path.takeWhile (fun h => wonBy grants f.id h) }
    | none => f)
  let pointers := grants.foldl (fun (t : Tab Nat) g => match g.2 with
    | some c => t.setD (outKey g.1) 0 ((c.port + 1) % 6)
    | none => t) m.pointers
  .next { s with mesh := { m with flits := flits, pointers := pointers, setupOwed := false, nextAt := max m.nextAt (s.cycle + 2) } }

/-- FLIT_BYPASS (R32): the next FCLK cycle; every flit that does not hop crosses the routers whose outputs it won. -/
def execFlitBypass (s : State) : Host.Outcome State Fault Refusal :=
  let m := { s.mesh with fclk := s.mesh.fclk + 1, nextAt := s.cycle + 2, setupOwed := true }
  let on := m.flits.filter (fun f => !f.won.isEmpty && !hopsNext f f.won)
  .next { s with mesh := on.foldl (fun (m : Mesh) f => m.carry f s.cycle 9 f.won) m }

/-- The mesh after a latched flit has moved one hop, on an escape channel or over a bridge, by the output it has won (R28, R33, R34). -/
def Mesh.hop (m : Mesh) (f : Flit) (now : Nat) : Option Mesh :=
  if m.setupOwed && !f.won.isEmpty && hopsNext f f.won then some (m.carry f now 1 f.won) else none

/-- LATCHED_HOP (R28, R34). -/
def execLatchedHop (flit : Nat) (s : State) : Host.Outcome State Fault Refusal :=
  .next (match s.mesh.flits.find? (fun f => decide (f.id = flit)) with
    | none => s
    | some f => match s.mesh.hop f s.cycle with
      | some m => { s with mesh := m }
      | none => s)

/-! ### Links out of service (R18, R35) -/

/-- MESH_LINK_REROUTE (R18): the escape tables route around a failed link. -/
def execMeshLinkReroute (x y : Nat) (dir : Fin 4) (s : State) : Host.Outcome State Fault Refusal :=
  .next (if s.mesh.failed x y dir.val then s
    else { s with mesh := { s.mesh with failedLinks := s.mesh.failedLinks ++ [(x, y, dir.val)] } })

/-- The packets that a bridge link loses when its retries are exhausted: those it keeps and the far side has not, and those whose head stands
before it (log 19). -/
def Mesh.lostAt (m : Mesh) (link : Nat × Nat × Nat) : List Nat :=
  (((m.bridges.filter (fun t => t.link == link && t.far.isNone)).map (fun t => t.packet)) ++
    (m.flits.filter (fun f => decide (f.idx = 0) && decide (f.port ≠ 6) && (m.ahead f).head? == some link)).map (fun f => f.packet)).eraseDups

/-- A packet lost: its flits leave the mesh, its exchange ends, and its requester's access faults with PEERLOST. -/
def Mesh.lose (m : Mesh) (id : Nat) : Mesh :=
  match m.pkt? id with
  | none => m
  | some p =>
    let gone := (m.packets.filter (fun q => decide (q.root = p.root))).map (fun q => q.id)
    let m := { m with flits := m.flits.filter (fun f => !gone.contains f.packet), beats := m.beats.filter (fun b => !gone.contains b.packet)
                      packets := m.packets.filter (fun q => !gone.contains q.id), bridges := m.bridges.filter (fun t => !gone.contains t.packet) }
    let held := (m.serving.filter (fun v => decide (v.root = p.root))).foldl (fun n v => n + v.waiting) 0
    ({ m with serving := m.serving.filter (fun v => decide (v.root ≠ p.root))
              reserved := m.reserved.setD (homeKey p.spec.dst) 0 (m.reserved.getD (homeKey p.spec.dst) 0 - held) } : Mesh).finish p.spec (some .peerlost)

/-- The site of the core a packet's exchange belongs to. -/
def pktSite (p : PktSpec) : Nat := match p.src with | .core i => i | _ => 288

/-- The PEERLOST of a lost access names the package's own chip number (R35): no register holds a chip, so the model tells it outside (DESIGN
CHOICE, log 19). -/
def State.nameLost (s : State) (packet : Nat) : State :=
  match s.mesh.pkt? packet with
  | some p => s.notify (.peerLost (pktSite p.spec) s.chip.toNat)
  | none => s

/-- BRIDGE_RETRY_EXHAUSTED (R35): the packets that the bridge link lost fault their accesses with PEERLOST, naming this chip, and the link is
retired, so that the escape tables route around it. -/
def execBridgeRetryExhausted (x y : Nat) (dir : Fin 4) (s : State) : Host.Outcome State Fault Refusal :=
  let m := s.mesh
  let link := (x, y, dir.val)
  .next (if !isBridge x y dir.val then s
    else
      let s := (m.lostAt link).foldl (fun (s : State) id => s.nameLost id) s
      let m := (m.lostAt link).foldl (fun (m : Mesh) id => m.lose id) m
      { s with mesh := ({ m with failedLinks := m.failedLinks ++ [link] } : Mesh).serveAll s.cycle })

/-- A bridge sends a packet again (R35, R40): the far side accepts it once, whatever is resent. -/
def Mesh.resendBridge (m : Mesh) (link : Nat × Nat × Nat) (seq : Nat) : Mesh :=
  { m with bridges := m.bridges.map (fun t =>
      if t.link == link && decide (t.seq = seq) && t.overdue m.fclk && decide (t.resends < 3) then
        { t with resends := t.resends + 1, sentAt := m.fclk } else t) }

/-! ### The memory plane (R36) -/

/-- The output of a beat's next move: X, then Y, then out of the packet's end. -/
def beatOut (b : Beat) (dst : NetEnd) : Nat × Nat × Nat :=
  let to_ := endAt dst
  (b.x, b.y, ((towardX b.x to_.1).or (towardY b.y to_.2)).getD (endExit dst))

/-- The stack's port by which a beat is about to enter the plane. -/
def Beat.leaves (b : Beat) (src : NetEnd) : Bool :=
  match src with
  | .hbm _ _ => (b.x, b.y) == endAt src
  | _ => false

/-- May a beat pass an output of a memory router in an MCLK cycle: an attachment port of a stack moves 640 GB/s, 5 beats in 7 cycles, into the
stack and out of it. -/
def planeMay (out : Nat × Nat × Nat) (leaves : Bool) (now : Nat) : Bool := (decide (out.2.2 ≠ 6) && !leaves) || decide (now % 7 < 5)

/-- The stack whose controller a beat is about to enter with a request. -/
def Beat.stackOf (b : Beat) (dst : NetEnd) : Option Nat :=
  match dst with
  | .hbm stack _ => if !b.resp && (b.x, b.y) == endAt dst then some stack else none
  | _ => none

/-- One MCLK cycle of the memory plane: each output passes the beat that has stood longest in its router; a join across a deep-die edge takes
two cycles more. A stack that is HOT admits one request, in arrival order, in every other cycle (R16): the even ones (DESIGN CHOICE, log 19). The
order in which a router serves its inputs is a DESIGN CHOICE (log 19). -/
def Mesh.planeStep (m : Mesh) (now : Nat) (hot : List Bool) : Mesh :=
  let wants := m.beats.mapIdx (fun i b => match m.pkt? b.packet with
    | some p => (i, b, beatOut b p.dst)
    | none => (i, b, (b.x, b.y, 6)))
  let stack := fun (w : Nat × Beat × (Nat × Nat × Nat)) => (m.pkt? w.2.1.packet).bind (fun p => w.2.1.stackOf p.dst)
  let leaving := fun (w : Nat × Beat × (Nat × Nat × Nat)) => match m.pkt? w.2.1.packet with
    | some p => if w.2.1.leaves p.src then some p.src else none
    | none => none
  let may := wants.filter (fun w => decide (w.2.1.ready ≤ now) && planeMay w.2.2 (leaving w).isSome now)
  let may := may.filter (fun w => (leaving w).isNone || !may.any (fun v => decide (v.1 < w.1) && leaving v == leaving w))
  let may := may.filter (fun w => match stack w with
    | some k => !hot.getD k false || (decide (now % 2 = 0) && !may.any (fun v => decide (v.1 < w.1) && stack v == some k))
    | none => true)
  let moves := may.filter (fun w => !may.any (fun v => v.2.2 == w.2.2 && decide (v.1 < w.1)))
  let stay := (wants.filter (fun w => !moves.any (fun v => decide (v.1 = w.1)))).map (fun w => w.2.1)
  let gone := moves.filter (fun w => (neighbour w.2.2.1 w.2.2.2.1 w.2.2.2.2).isNone)
  let on := moves.filterMap (fun w => (neighbour w.2.2.1 w.2.2.2.1 w.2.2.2.2).map (fun n =>
    { w.2.1 with x := n.1, y := n.2, ready := now + 1 + (if isBridge w.2.2.1 w.2.2.2.1 w.2.2.2.2 then 2 else 0) }))
  let m := { m with beats := stay ++ on }
  (gone.filter (fun w => w.2.1.last)).foldl (fun (m : Mesh) w => match m.pkt? w.2.1.packet with
    | some p => m.arrive p now
    | none => m) m

end Sys2Proof.Machine
end

