-- ==== Sys2Proof/Machine/Shoot.lean ====
section
/-! DEFINITION. Shootdowns, changes of the page-table root and of the partition map (R53, R121, R133, R134). -/

namespace Sys2Proof.Machine

/-- Does an invalidation of a kind drop a TLB entry (R133): by page, non-global, all. Kind 3 is a change of the map alone. -/
def TlbEnt.dropped (e : TlbEnt) (kind vpage : Nat) : Bool :=
  match kind with
  | 0 => decide (e.vpage ≤ vpage) && decide (vpage * 65536 < e.vpage * 65536 + e.leaf.size)
  | 1 => !e.leaf.glob
  | 2 => true
  | _ => false

/-- A shootdown starts (R134): every core of the partition is told, and the walk caches of its dies drop the partition's
entries. -/
def State.startShoot (s : State) (kind vpage : Nat) (newMap : Option (List (BitVec 128))) : State :=
  let s := s.onPart (fun p =>
    { p with busy := true,
             shoot := some { vpage := vpage, kind := kind, waiting := p.cores.map (fun e => e.1), dropped := [], newMap := newMap } })
  if kind = 3 then s
  else { s with walkCaches := s.walkCaches.map (fun l => l.filter (fun e => !(e.1 == s.pid))) }

/-- A write of INVCTL takes effect (R133, R134). -/
def State.writeInvctl (s : State) (v : Word) : State :=
  let s := s.onPart (fun p => { p with invctl := v.setWidth 3 })
  s.startShoot (v.toNat % 4) (s.part.invaddr.toNat / 65536 % 2 ^ 36)
    (if v.getLsbD 2 then some s.part.mapWritten else none)

/-- A write of PTROOT takes effect: a shootdown of kind 2 (R121). -/
def State.writePtroot (s : State) (v : Word) : State :=
  (s.onPart (fun p => { p with ptroot := v &&& 0x000FFFFFFFFF0000#64 })).startShoot 2 0 none

/-- A change of the partition map (R53): it takes effect when every core has acknowledged; one that comes during a shootdown
follows it. -/
def State.changeMap (s : State) (m : List (BitVec 128)) : State :=
  let s := s.onPart (fun p => { p with mapWritten := m })
  if s.part.busy then s else s.startShoot 3 0 (some m)

/-- The end of a shootdown: BUSY clears, and a new map is in force. -/
def State.endShoot (s : State) (k : Shoot) : State :=
  let s := s.onPart (fun p => { p with busy := false, shoot := none, map := k.newMap.getD p.map })
  if s.part.mapWritten ≠ s.part.map then s.startShoot 3 0 (some s.part.mapWritten) else s

/-- Was an access translated with a leaf that an invalidation drops. -/
def Place.dropped (p : Place) (va kind vpage : Nat) : Bool :=
  match p.leaf with
  | none => false
  | some l => ({ cx := false, vpage := va / l.size * l.size / 65536, leaf := l, inc := 0 } : TlbEnt).dropped kind vpage

/-- Has a pawn translated only what the row step of an accumulator copy still waits with: the step has not started. -/
def Pawn.rowWaits (p : Pawn) : Bool := p.eng == .matrix && p.panels.isEmpty

/-- The entries of a core dropped (R134), with what a word that is still at issue, or a row step that still waits, has translated with them. -/
def CoreBox.shootdown (b : CoreBox) (kind vpage : Nat) : CoreBox :=
  let keep := fun (l : List TlbEnt) => l.filter (fun e => !e.dropped kind vpage)
  let left := fun (l : List Trans) => l.filter (fun t => kind != 3 && !t.place.dropped t.va kind vpage)
  let lines := fun (c : Context) => { c with ttr := left c.ttr }
  { core := { b.core with ctlTlb := keep b.core.ctlTlb, tTlb := keep b.core.tTlb, mTlb := keep b.core.mTlb, vTlb := keep b.core.vTlb
                          pawns := b.core.pawns.map (fun p => if p.rowWaits then { p with tr := left p.tr } else p) }
    a := lines b.a, b := lines b.b }

/-- The accesses of a context that the dropped entries have translated and that are not performed: of pending tokens, and of uncommitted
T words. -/
def Context.heldBy (c : Context) (k : Shoot) : List (Nat × Nat) :=
  c.tok.toList.filterMap (fun t => t.bind (fun t => match t.tr, t.op.access with
    | some p, some (_, a, _) => if p.dropped a.toNat k.kind k.vpage then some (t.serial, 0) else none
    | _, _ => none)) ++
  (c.twin.filter (fun e => e.op.lines.any (fun l => l.2.dropped l.1 k.kind k.vpage))).map (fun e => (e.serial, 0))

/-- The steps of a pawn that the dropped entries have translated, by position: the one that it makes, and those whose accesses are on their way
ahead of it. -/
def State.stepsHeld (s : State) (k : Shoot) (p : Pawn) : List (Nat × Nat) :=
  let old := p.tr.filter (fun t => t.place.dropped t.va k.kind k.vpage)
  if !p.open || p.rowWaits || old.isEmpty then []
  else (p.serial, p.pos) :: (s.net.filter (fun a => decide (a.serial = p.serial) && old.any (fun t => t.place.key == a.key))).map
    (fun a => (p.serial, a.pos / 2 ^ 20))

/-- Where the writes that wait at their homes stand among the awaited accesses: beyond every position. -/
def awaitedWrite (key : Nat) : Nat := 2 ^ 80 + key

/-- The accesses in flight that a core has translated with the entries that it drops (R134). -/
def State.awaitedBy (s : State) (k : Shoot) (site : Nat) : List (Nat × Nat) :=
  let b := s.coreOf site
  b.a.heldBy k ++ b.b.heldBy k ++ b.core.pawns.toList.flatMap (s.stepsHeld k) ++
  (if k.kind = 3 then [] else (s.part.replWrites.filter (fun w => w.site == site)).map (fun w => (w.serial.getD 0, awaitedWrite w.key)))

/-- Is an awaited access of a core still not performed. -/
def State.stillOpen (s : State) (site : Nat) (a : Nat × Nat) : Bool :=
  let b := s.coreOf site
  if 2 ^ 80 ≤ a.2 then s.part.replWrites.any (fun w => w.site == site && decide (w.serial.getD 0 = a.1) && decide (awaitedWrite w.key = a.2))
  else
    ([b.a, b.b].any (fun c => c.tok.toList.any (fun t => match t with | some t => decide (t.serial = a.1) && t.tr.isSome | none => false) ||
      c.twin.any (fun e => decide (e.serial = a.1)))) ||
    b.core.pawns.toList.any (fun p => p.open && !p.rowWaits && decide (p.serial = a.1) && decide (p.pos ≤ a.2) && !p.tr.isEmpty)

/-- Are the accesses performed that a core translated with entries it has dropped (R134). -/
def State.shootClear (s : State) (site : Nat) (awaited : List (Nat × Nat)) : Bool := !awaited.any (s.stillOpen site)

/-- A core drops its entries, and acknowledges once the accesses they translated are performed (R134). -/
def State.ackShoot (s : State) (site : Nat) : State :=
  match s.part.shoot with
  | none => s
  | some k =>
    if k.waiting.isEmpty then s.endShoot k
    else if !k.waiting.contains site then s
    else
      let first := !k.dropped.any (fun d => decide (d.1 = site))
      let awaited := match k.dropped.find? (fun d => decide (d.1 = site)) with
        | some d => d.2
        | none => s.awaitedBy k site
      let s := if first then s.putCoreOf site ((s.coreOf site).shootdown k.kind k.vpage) else s
      let k := if first then { k with dropped := k.dropped ++ [(site, awaited)] } else k
      if !s.shootClear site awaited then s.onPart (fun p => { p with shoot := some k })
      else
        let k := { k with waiting := k.waiting.erase site }
        if k.waiting.isEmpty then s.endShoot k else s.onPart (fun p => { p with shoot := some k })

/-- The core whose part in the shootdown is to be taken next: one that has not dropped its entries, or may acknowledge. -/
def State.shootNext (s : State) : Option Nat :=
  match s.part.shoot with
  | none => none
  | some k =>
    if k.waiting.isEmpty then some 0
    else k.waiting.find? (fun site => match k.dropped.find? (fun d => decide (d.1 = site)) with
      | none => true
      | some d => s.shootClear site d.2)

/-- INVCTL_WRITE (R134): one that finds BUSY set has waited at its CRW, so an outside step has no effect then. -/
def execInvctlWrite (part : Nat) (v : BitVec 64) (s : State) : Host.Outcome State Fault Refusal :=
  let s := s.focusPart part
  .next (if !s.part.live || s.part.busy || v.toNat % 4 = 3 then s else s.writeInvctl v)

/-- PTROOT_WRITE (R121). -/
def execPtrootWrite (part : Nat) (v : BitVec 64) (s : State) : Host.Outcome State Fault Refusal :=
  let s := s.focusPart part
  .next (if !s.part.live || s.part.busy then s else s.writePtroot v)

/-- SHOOTDOWN_ACK (R134). -/
def execShootdownAck (part site : Nat) (s : State) : Host.Outcome State Fault Refusal :=
  .next ((s.focusPart part).ackShoot site)

/-- Does an entry of a partition map grant the deep slice of a disabled site, which a map never grants (R119). -/
def State.grantsDisabled (s : State) (e : BitVec 128) : Bool :=
  let w := e.toNat
  let base := w / 2 ^ 16 % 2 ^ 36 * 65536
  let count := w / 2 ^ 64 % 2 ^ 36 * 65536
  decide (w % 2 = 1) && (List.finRange 288).any (fun i => s.columns[i].spare &&
    decide (base < 2 ^ 40 + (i.val + 1) * 2 ^ 24) && decide (2 ^ 40 + i.val * 2 ^ 24 < base + count))

/-- PARTITION_MAP_CHANGE (R53): 64 entries; one that grants the slice of a disabled site is refused (R119). -/
def execPartitionMapChange (part : Nat) (map : List (BitVec 128)) (s : State) : Host.Outcome State Fault Refusal :=
  let s := s.focusPart part
  .next (if s.part.live && !(map.take 64).any s.grantsDisabled then s.changeMap (map.take 64) else s)

end Sys2Proof.Machine
end

