-- ==== Sys2Proof/Machine/TWindow.lean ====
section
/-! DEFINITION. Issue, commit and withdrawal of T-stream words (R322 to R326, R331, R332, spec/17_transfer.md). -/

namespace Sys2Proof.Machine

/-! ### Faults and issue -/

/-- The fault of a T word, with its fault record (R139, R165): T words make no progress of their own. It keeps nothing that it has translated or
reserved (R397). -/
def State.faultT (s : State) (c : Cause) (va : Nat) : State :=
  (s.onCtx (fun x => { x.dropSlot (s.cycle + 1) with ttr := [] })).faultEngine .t c (BitVec.ofNat 64 (va % 2 ^ 52)) (faultRecord c 0 (va % 2 ^ 52)) none 0 .c

/-- A wait at issue for a queue, or the trap of its check, at a T word. -/
def State.queueT (s : State) (q : Fin 16) : QFail → State
  | .wait => s.waitIn .t (.queue q)
  | .fault c => s.faultT c 0

/-- A T word met at issue (R155, R322): the window has room, or is empty, since the cycle before, for a word that issues alone (R398); its token is
popped once. -/
def State.tWord (s : State) (sync : Fin 8) (alone : Bool) (f : State → State) : State :=
  if (alone && (!s.ctx.twin.isEmpty || decide (s.cycle < s.ctx.tcommitAt))) || decide (16 ≤ s.ctx.twin.length) then s.waitIn .t .window
  else
    match s.ctx.await .t sync s.cycle with
    | none => s.waitIn .t .channel
    | some c => f (s.onCtx (fun _ => c))

/-- A T word stands in the window until it commits; the lines that it has translated are its own now. `set` is the address register it sets, at
latency 1. -/
def State.enterT (s : State) (op : TOp) (lat : Nat) (sync : Fin 8) (pops : List (Fin 16 × QEnt)) (set : Option (Fin 16 × Word)) :
    State :=
  let r := s.ctx.ts
  let regs := match set with
    | some (a, _) => [(a, s.ctx.getA a)]
    | none => []
  let e : TEntry :=
    { serial := s.serial, pc := r.pc, pos := r.issued, op := op, due := s.cycle + lat, sync := sync, fault := none, done := none
      undo := { pops := pops, regs := regs, awaitOf := r.awaited, loops := r.loops } }
  let s := (s.onCtx (fun c => { c with twin := c.twin ++ [e], ttr := [] })).bump
  let s := op.lines.foldl (fun s l => s.noteSlow e.serial l.2.key lat) s
  match set with
  | some (a, v) => s.land .t 1 (.a a) (v.setWidth 256)
  | none => s

/-- A T word issues and stands in the window. -/
def State.issueT (s : State) (op : TOp) (lat : Nat) (sync : Fin 8) (pops : List (Fin 16 × QEnt)) (set : Option (Fin 16 × Word)) :
    State :=
  (s.enterT op lat sync pops set).issuedIn .t

/-! ### Lines and ranges -/

/-- The 64-byte lines of some bytes translated for a T word at issue: the lines with their places, a wait, or a fault. Each line is translated once,
and kept while others wait for their walks (R122, R322); the translation of the next page that the word will touch is fetched ahead (R131). -/
def State.linesT (s : State) (k : Acc) (as : List Nat) : Except (Option (Cause × Nat)) (List (Nat × Place)) × State :=
  let ls := linesOf as
  match s.xlateMore .t ((linePieces ls).map (fun l => (k, l.1, l.2))) s.ctx.ttr with
  | ((none, tr), s) =>
    (.ok (ls.filterMap (fun l => (placeOf tr k.writes l).map (fun p => (l, p)))), s.onCtx (fun c => { c with ttr := tr }))
  | ((some e, tr), s) =>
    (.error (e.map (fun f => (f.1, (as.find? (fun a => decide (a / 64 * 64 = f.2))).getD f.2))),
      (s.onCtx (fun c => { c with ttr := tr })).prefetchNext .t as)

/-- The wait or the fault of a translation. -/
def State.failT (s : State) : Option (Cause × Nat) → State
  | none => s.waitIn .t .translation
  | some (c, va) => s.faultT c va

/-- The unloaded latency of an access to lines: that of the farthest (R117). -/
def State.linesLat (s : State) (ls : List (Nat × Place)) : Nat := ls.foldl (fun n l => max n (s.latencyTo s.site l.2.key)) 1

/-- The ranges of the context's own share that the first n elements of a walk touch: its rows up to the last one's last element, and the scales of
their blocks (R160). -/
def State.walkRanges (s : State) (w : Walking) (n : Nat) (writes : Bool) : List (Nat × Nat × Bool) :=
  if n = 0 ∨ w.ly.cols = 0 then []
  else
    let cols := w.ly.cols.toNat
    let rows := (n + cols - 1) / cols
    let last := n - (rows - 1) * cols
    let own := (s.ownWalk w.ly w.base rows w.rowLen (w.lenTo last)).toList
    let scale := if w.geom = 2 then
        (s.ownRange w.ly.scale.toNat (w.ly.scale.toNat + (rows - 1) * (cols / 32) + (last + 31) / 32)).toList
      else []
    (own ++ scale).map (fun x => (x.1, x.2, writes))

/-- Ranges checked and entered for a T word or its pawn, then the word goes on (R160). -/
def State.rangedT (s : State) (va : Word) (pawn : Bool) (rs : List (Nat × Nat × Bool)) (f : State → State) : State :=
  match s.checkRanges .t pawn rs with
  | .error none => s.waitIn .t .rangeSlot
  | .error (some r) => s.overlapAt .t r (va &&& 0xFFFFFFFFFFFFF#64) (faultRecord .overlap 0 (va.toNat % 2 ^ 52))
  | .ok _ => f s

/-! ### Writes at commit -/

/-- Bytes with their addresses grouped into runs of rising addresses within a line. -/
def byteRuns (bs : List (Nat × Nat)) : List (Nat × List (BitVec 8)) :=
  (bs.foldl (fun (acc : List (Nat × List (BitVec 8))) b =>
    match acc with
    | (a, l) :: rest =>
      if b.1 = a + l.length ∧ b.1 % 64 ≠ 0 then (a, l ++ [BitVec.ofNat 8 b.2]) :: rest else (b.1, [BitVec.ofNat 8 b.2]) :: acc
    | [] => [(b.1, [BitVec.ofNat 8 b.2])]) []).reverse

/-- The first address of a store that would rewrite a bad word only in part (R191). -/
def State.partBad (s : State) (lines : List (Nat × Place)) (bs : List (Nat × Nat)) : Option Nat :=
  if s.badWords.isEmpty then none
  else
    let keys := bs.filterMap (fun b => (placeIn lines b.1).map (fun p => (b.1, p.key)))
    (keys.find? (fun k => s.badWords.any (fun w =>
      decide (w ≤ k.2) && decide (k.2 < w + 8) &&
      !(List.range 8).all (fun i => keys.any (fun j => decide (j.2 = w + i)))))).map (fun k => k.1)

/-- The state in which the bad words that a store has rewritten whole are good (R191). -/
def State.clearBad (s : State) (lines : List (Nat × Place)) (bs : List (Nat × Nat)) : State :=
  if s.badWords.isEmpty then s
  else
    let keys := bs.filterMap (fun b => (placeIn lines b.1).map (fun p => p.key))
    { s with badWords := s.badWords.filter (fun w => !(List.range 8).all (fun i => keys.contains (w + i))) }

/-- Bytes stored by a path of the focused context's word or pawn at resolved addresses. -/
def State.storeBytes (s : State) (via : Via) (lines : List (Nat × Place)) (bs : List (Nat × Nat)) : State :=
  ((byteRuns bs).foldl (fun s b =>
    match placeIn lines b.1 with
    | some p => s.writePlace via.path via.serial p b.2
    | none => s) s).clearBad lines bs

/-! ### Scatter-accumulate (R236, R331) -/

/-- The smaller or larger of two FP32 patterns (R236): -0 lies below +0, a NaN yields the other, two NaNs the canonical one. -/
def fp32Pick (isMax : Bool) (a b : Nat) : Nat :=
  let x := fp32.decode a
  let y := fp32.decode b
  if x.isNan && y.isNan then 0x7FC00000
  else if x.isNan then b
  else if y.isNan then a
  else
    let less := x.lt y || (x.eqv y && x.sign && !y.sign)
    if less = isMax then b else a

/-- The result of the entries vs, in queue order, on an element (R236): fn 0 ADD, 1 MIN, 2 MAX, 3 SWAP. -/
def saccMerge (fn : Nat) (isInt : Bool) (mem : Nat) (vs : List Nat) : Nat :=
  match fn, isInt with
  | 0, true => vs.foldl (fun a v => (a + v) % 2 ^ 32) mem
  | 0, false =>
    match vs with
    | [] => mem
    | v :: rest =>
      let add := fun a b => roundFp32 ((fp32.decode a).add false (fp32.decode b))
      add mem (rest.foldl add v)
  | 1, true => vs.foldl (fun a v => if signedOf 32 v < signedOf 32 a then v else a) mem
  | 1, false => vs.foldl (fp32Pick false) mem
  | 2, true => vs.foldl (fun a v => if signedOf 32 a < signedOf 32 v then v else a) mem
  | 2, false => vs.foldl (fp32Pick true) mem
  | _, _ => vs.getLastD mem

/-- The address and value of each lane of a SACC that is not skipped, from lane `lo` on (R331). -/
def saccLanes (base : Nat) (idx val : QEntry) (lo : Nat) : List (Nat × Nat) :=
  (List.range 32).filterMap (fun i =>
    let k := laneOf idx 32 (lo + i)
    if k = 0xFFFFFFFF then none else some ((base + 4 * k) % 2 ^ 64, laneOf val 32 (lo + i)))

/-- Is an element that SACC targets an INT32 (true) or an FP32 (false) one; none is FORMAT (R331). -/
def saccInt (leaf : Option Leaf) : Option Bool :=
  match leaf with
  | none => some false
  | some l => if l.fmt = fmtFp32 then some false else if l.fmt = fmtInt32 ∨ l.fmt = fmtRaw then some true else none

/-- One window of a SACC applied at the homes: each element changes once (R236). -/
def State.saccWindow (s : State) (serial fn : Nat) (lines : List (Nat × Place)) (es : List (Nat × Nat)) : State :=
  (es.map (fun e => e.1)).eraseDups.foldl (fun s a =>
    match placeIn lines a with
    | none => s
    | some p =>
      let s := s.correct p.key 4
      let mem := leNat (s.homeBytes p.key 4)
      let vs := (es.filter (fun e => decide (e.1 = a))).map (fun e => e.2)
      s.writePlace 3 serial p (leBytes 4 (saccMerge fn ((saccInt p.leaf).getD false) mem vs))) s

/-! ### Late faults (R323) -/

/-- What an uncommitted word did at issue undone: its push, its pops, its token, its registers. -/
def Context.undoT (c : Context) (e : TEntry) : Context :=
  let c := match e.op with
    | .ldq q .. => c.unpushQ q e.serial
    | .scas _ _ _ q _ => c.unpushQ q e.serial
    | .push q _ i => { c.unpushQ q e.serial with replayBack := i :: c.replayBack }
    | _ => c
  let c := e.undo.pops.reverse.foldl (fun c p => c.unpopQ p.1 p.2) c
  let c := e.undo.regs.foldl (fun c r => c.setA r.1 r.2) c
  match e.undo.awaitOf with
  | some i => c.unpopToken i
  | none => c

/-- Every uncommitted word of the context withdrawn, the latest first, with the fault of one that had not issued: the earliest is the halt point;
the T stream stands at the oldest one. -/
def Context.withdraw (c : Context) (e : TEntry) : Context :=
  let c := match c.ts.awaited with
    | some i => c.unpopToken i
    | none => c
  let drop := c.twin.map (fun e => e.serial)
  let later := fun (t : PendTrap) => decide (t.rank = 2) && decide (t.st = .t) && t.pawn.isNone
  let c := c.twin.reverse.foldl (fun (c : Context) (e : TEntry) => c.undoT e) c
  { c with
    twin := []
    ttr := []
    pend := c.pend.filter (fun t => !later t)
    landing := c.landing.filter (fun l => !decide (l.st = .t))
    ranges := c.ranges.filter (fun r => !(r.pawn.isNone && drop.contains r.serial))
    ts := { c.ts with pc := e.pc, loops := e.undo.loops, awaited := none, fence := none, issued := e.pos, run := true } }

/-- A late fault of the oldest uncommitted word (R323): it and every later one are withdrawn in reverse issue order, and the
stream stands at it with its trap pending. -/
def State.lateFault (s : State) (e : TEntry) (c : Cause) (va : Nat) : State := (s.onCtx (fun x => x.withdraw e)).faultT c va

/-! ### Commit (R322) -/

/-- The kind of a word's accesses. -/
def TOp.acc : TOp → Acc
  | .ldq .. => .read
  | _ => .write

/-- The post to C that a SYNC makes. -/
def TOp.postsC : TOp → Bool
  | .sync b => b
  | _ => false

/-- The walk of a queue load or store: RAW elements have the width of the lane format (R325). -/
def queueWalk (ly : LyRec) (base : Word) (lines : List (Nat × Place)) : Walking :=
  ly.walkAt base.toNat (leafIn lines base.toNat) (fmtBits ly.lfmt.toNat)

/-- The lanes of an entry in a lane format. -/
def lanesOf (lf : Nat) (e : QEntry) : List Nat := (List.range (2048 / fmtBits lf)).map (fun i => laneOf e (fmtBits lf) i)

/-- A queue load commits (R326, R230): its entry is there, its flags are set. -/
def State.commitLdq (s : State) (e : TEntry) (q : Fin 16) (base : Word) (ly : LyRec) (lines : List (Nat × Place)) :
    Except (Cause × Nat) State :=
  match s.badLine lines with
  | some va => .error (.memerr, va)
  | none =>
    let w := queueWalk ly base lines
    let lf := ly.lfmt.toNat
    let r := s.loadLanes { path := 1, serial := e.serial } w lines (2048 / fmtBits lf)
    let s := lines.foldl (fun s l => s.noteRead l.2 64) s
    .ok (s.onCtx (fun c => { c.landQ q e.serial (entryOf (fmtBits lf) r.1) with fflags := c.fflags ||| r.2 }))

/-- The bytes that a queue store writes, and its flags (R326, R230). -/
def stqBytes (entry : QEntry) (base : Word) (ly : LyRec) (lines : List (Nat × Place)) : List (Nat × Nat) × BitVec 8 :=
  storeLanes (queueWalk ly base lines) lines (lanesOf ly.lfmt.toNat entry)

/-- The state in which the writes of an uncommitted word have been made at their homes, with what a SCAS found there. -/
def State.madeT (s : State) (serial old : Nat) : State :=
  s.onCtx (fun c => { c with twin := c.twin.map (fun e => if e.serial = serial then { e with done := some old } else e) })

/-- The writes or the atomic of a word made at their homes, once (R31, R322, R331, R332); an error that they meet there is the word's. -/
def State.makeT (s : State) (e : TEntry) : Except (Cause × Nat) State :=
  if e.done.isSome then .ok s
  else
    match e.op with
    | .stq entry base ly ls =>
      let r := stqBytes entry base ly ls
      match s.partBad ls r.1 with
      | some va => .error (.memerr, va)
      | none => .ok ((s.storeBytes { path := 1, serial := e.serial } ls r.1).madeT e.serial 0)
    | .sacc fn idx val base ls =>
      let lo := saccLanes base.toNat idx val 0
      let hi := saccLanes base.toNat idx val 32
      match (lo ++ hi).find? (fun x => match placeIn ls x.1 with | some p => s.readBad p.key 4 | none => false) with
      | some x => .error (.memerr, x.1)
      | none => .ok (((s.saccWindow e.serial fn ls lo).saccWindow e.serial fn ls hi).madeT e.serial 0)
    | .scas entry a wide _ ls =>
      let n := if wide then 8 else 4
      match placeIn ls a.toNat with
      | none => .ok s
      | some p =>
        if s.readBad p.key n then .error (.memerr, a.toNat)
        else
          let s := s.correct p.key n
          let old := leNat (s.homeBytes p.key n)
          let s := if old = (wordOf entry 0).toNat % 256 ^ n then s.writePlace 3 e.serial p (leBytes n (wordOf entry 1).toNat) else s
          .ok (s.madeT e.serial old)
    | _ => .ok s

/-- The address that a failed access of a word reports: that of its line. -/
def TEntry.lineAt (e : TEntry) (i : Nat) : Nat := ((e.op.lines[i]?).map (fun l => l.1)).getD 0

/-- What the oldest word does when it commits, its writes made and performed: a late fault of an access comes first. -/
def State.performT (s : State) (e : TEntry) : Except (Cause × Nat) State :=
  match e.fault with
  | some (i, c) => .error (c, e.lineAt i)
  | none =>
    match e.op with
    | .ldq q b ly ls => s.commitLdq e q b ly ls
    | .stq en b ly ls => .ok (s.onCtx (fun c => { c with fflags := c.fflags ||| (stqBytes en b ly ls).2 }))
    | .sacc .. => .ok s
    | .scas en _ wide qd _ =>
      let old := e.done.getD 0
      let hit := decide (old = (wordOf en 0).toNat % 256 ^ (if wide then 8 else 4))
      .ok ((s.replayLog e.serial 4 .t e.pos old).onCtx (fun c => c.landQ qd e.serial (entryOf 64 [old, hit.toNat])))
    | .push q en _ => .ok (s.onCtx (fun c => c.landQ q e.serial en))
    | .sync _ => .ok s
    | .plain => .ok s

/-- Has the oldest uncommitted word's post room (R155). -/
def Context.commitRoom (c : Context) (e : TEntry) : Bool :=
  c.postRoom .t e.sync && (!e.op.postsC || c.tokenRoom (chanIx 1 0))

/-- The head of the window leaves it: its post is made, its ranges are free; the next word's writes go out now (R322). -/
def State.leaveT (s : State) (e : TEntry) : State :=
  let s := s.dropRanges e.serial
  let now := s.cycle
  let s := s.onCtx (fun c =>
    let c := { c with twin := c.twin.drop 1, tcommitAt := now + 1 }
    let c := c.post .t e.sync now (e.serial + 1)
    if e.op.postsC then c.pushToken (chanIx 1 0) now (c.knowAt .t (e.serial + 1)) else c)
  match s.ctx.twin with
  | n :: rest =>
    if n.op.acc = .write ∧ n.op.lines ≠ [] then
      let due := max n.due (now + s.linesLat n.op.lines)
      s.onCtx (fun c => { c with twin := { n with due := due } :: rest })
    else s
  | [] => s

/-- May the head of the window commit or fault now: its time is over, its answers are there, and its post has room. -/
def State.commitReady (s : State) : Bool :=
  match s.ctx.twin with
  | e :: _ => decide (e.due ≤ s.cycle) && !s.netOpen e.serial && s.ctx.commitRoom e && !(e.done.isSome && s.writing e.serial)
  | [] => false

/-- The words in error counted and listed that a word's access at an address meets (R192). -/
def State.meetT (s : State) (e : TEntry) (va : Nat) : State :=
  match placeIn e.op.lines va with
  | none => s
  | some p => match e.op with
    | .ldq .. => s.meetBad p.key 64
    | _ => s.meetBad (p.key / 8 * 8) 8

/-- The head of the window commits (R322), or is withdrawn by a late fault (R323). A word whose writes their homes have not performed stays. -/
def State.commitT (s : State) : State :=
  match s.ctx.twin with
  | [] => s
  | e :: _ =>
    if !s.commitReady then s
    else
      match (if e.fault.isSome then .ok s else s.makeT e) with
      | .error (c, va) => (s.meetT e va).lateFault e c va
      | .ok s =>
        if s.writing e.serial && e.fault.isNone then s
        else
          match s.ctx.twin with
          | [] => s
          | e :: _ =>
            match s.performT e with
            | .error (c, va) => (if c = .memerr ∧ e.fault.isNone then s.meetT e va else s).lateFault e c va
            | .ok s =>
              match e.op with
              | .scas .. => (s.leaveT e).flushLog
              | _ => s.leaveT e

/-- T_WORD_COMMIT (R322). -/
def execTWordCommit (site : Nat) (cx : Bool) (s : State) : Host.Outcome State Fault Refusal :=
  .next ((s.focus site cx).commitT)

/-- The fault that the head of the window would end with now, if it would. -/
def State.lateNow (s : State) (e : TEntry) : Option (Cause × Nat) :=
  match (if e.fault.isSome then .ok s else s.makeT e) with
  | .error f => some f
  | .ok t => match t.performT e with
    | .error f => some f
    | .ok _ => none

/-- LATE_FAULT (R323): as a commit that finds its fault, and without effect on a word that has none. -/
def execLateFault (site : Nat) (cx : Bool) (s : State) : Host.Outcome State Fault Refusal :=
  let s := s.focus site cx
  .next (match s.ctx.twin with
    | [] => s
    | e :: _ => if s.commitReady && (s.lateNow e).isSome then s.commitT else s)

end Sys2Proof.Machine
end

