-- ==== Sys2Proof/Machine/Cycle.lean ====
section
/-! DEFINITION. One cycle: which slots issue, fetching a word, what a stream meets before its word, and the counts that the end of a
cycle makes (R87, R88, R151, R162, R178, R183, R184, R203, R293, R400). -/

namespace Sys2Proof.Machine

/-! ### Fetch (R293, R400) -/

/-- What a fetch gives. -/
inductive Fetched where
  | word (w : Nat)
  | wait
  | fault (c : Cause)
deriving DecidableEq, Repr

/-- The word at a stream's position, through the stream's TLB. A position that is no multiple of 4 (a turn record's entry)
faults with ALIGN. Near the end of a page the walk of the next one is started ahead. -/
def State.fetch (s : State) (st : Strm) : Fetched × State :=
  let pc := (s.ctx.strm st).pc.toNat
  if pc % 4 ≠ 0 then (.fault .align, s)
  else
    match s.xlate st .fetch pc 4 with
    | (.wait, s) => (.wait, s)
    | (.fault c, s) => (.fault c, s)
    | (.ok p, s) =>
      if s.readBad p.key 4 then (.fault .memerr, s.meetBad p.key 4)
      else
        let s := s.correct p.key 4
        (.word (s.readKey p.key 4),
          if pc % 65536 ≥ 65536 - 64 then s.prefetchPage st (pc / 65536 * 65536 + 65536) else s)

/-! ### Breakpoints (R203) -/

/-- Where a loop's kernel iteration starts: at its first active stage. -/
def LoopSt.starts (l : LoopSt) : Word :=
  match (List.range l.stages).find? (fun i => l.active i) with
  | some i => l.body + BitVec.ofNat 64 (4 * (i * (l.len / l.stages)))
  | none => l.body

/-- The words of the body of a loop that an instruction starts. -/
def loopLen : Instr → Nat
  | .tLoop o => o.len.val
  | .mLoop o => o.len.val
  | .vLoop o => o.len.val
  | _ => 0

/-- Does the body of a loop inside this one hold an address: a LOOP word before it whose body reaches so far. A word that cannot be read now is
taken for none. -/
def State.innerHolds (s : State) (st : Strm) (l : LoopSt) (pc : Nat) : Bool :=
  (List.range ((pc - l.body.toNat) / 4)).any (fun i =>
    let at_ := l.body.toNat + 4 * i
    match s.peek st .fetch at_ 4 with
    | none => false
    | some key => match decode st (s.readKey key 4) with
      | .ok w => decide (pc < at_ + 4 + 4 * loopLen w)
      | .error _ => false)

/-- Will the word at an address issue in an active stage of the kernel iteration of the innermost loop around it that starts at the position of
an engine stream. -/
def State.willIssue (s : State) (st : Strm) (pc : Nat) : Bool :=
  let r := s.ctx.strm st
  match r.loops with
  | [] => r.pc.toNat == pc
  | l :: _ =>
    let i := (pc - l.body.toNat) / 4
    decide (l.body.toNat ≤ pc) && decide (i < l.len) && l.active (i / (l.len / l.stages)) && r.pc == l.starts && !s.innerHolds st l pc

/-- Does a breakpoint match a stream's position: before a C word, whatever IV says, or at the boundary before an engine stream's iteration. -/
def State.bpMatches (s : State) (bpa bpi : Word) (st : Strm) : Bool :=
  let a := bpa.toNat
  let i := bpi.toNat
  let r := s.ctx.strm st
  decide (a / 2 ^ 63 = 1) && decide (a % 4 = strmCode st) &&
  (if st = .c then decide (r.pc.toNat = a % 2 ^ 52 / 4 * 4)
   else
    r.bound && s.willIssue st (a % 2 ^ 52 / 4 * 4) &&
    (decide (i / 2 ^ 40 % 2 = 0) ||
      match r.loops with
      | [] => false
      | l :: _ => decide (l.iter % 2 ^ 32 = i % 2 ^ 32) && decide (l.mask = i / 2 ^ 32 % 256)))

/-- Does some breakpoint of the focused context fire at a stream's position. -/
def State.bpFires (s : State) (st : Strm) : Bool :=
  !(s.ctx.strm st).bpSkip && (List.finRange 4).any (fun i => s.bpMatches s.ctx.bpa[i] s.ctx.bpi[i] st)

/-! ### Slots (R151, R162, R178, R184) -/

/-- Is MCLK of a site's die stretched in this cycle (R14). -/
def State.stretched (s : State) (site : Nat) : Bool :=
  match s.dies.toList[dieOf site]? with
  | some d => decide (s.cycle < d.stretchTo)
  | none => false

/-- May the focused context issue at all in this cycle. -/
def State.mayIssue (s : State) : Bool :=
  s.ctx.turn.isSome && s.ctx.retire.isNone && s.core.enabled &&
  !s.gated.contains (clusterOf s.site) && !s.stretched s.site &&
  (s.ctx.stepOf.isSome || (s.core.active == s.cx && !s.ctx.halted))

/-- Is a stream of the focused context ready to meet its next word. -/
def State.streamReady (s : State) (st : Strm) : Bool :=
  let r := s.ctx.strm st
  s.mayIssue && r.run && !r.held && decide (r.readyAt ≤ s.cycle) &&
  !(st == .c && (s.core.stopping || (s.core.urgent.isSome && s.core.active == s.cx))) &&
  !(st == .c && s.ctx.haltReq && s.ctx.stepOf.isNone) &&
  (match s.ctx.stepOf with | some x => x.st == st && (st != .c || x.issued == r.issued) | none => true)

/-- Does an engine stream stop here for a hold: at a boundary, or at a word that waits (R162, R184). -/
def StreamSt.stopsHere (r : StreamSt) (st : Strm) : Bool := st != .c && r.holdReq && (r.bound || r.wait.isSome)

/-- The state in which an engine stream is held where it stands. -/
def State.hold (s : State) (st : Strm) : State := s.onCtx (fun c => c.onStrm st (fun r => { r with held := true, wait := none }))

/-- A word that does not decode, or whose fetch faults: a trap at the C word, a fault of the engine word, with the record of R165 for a T word
(R176, R177, R262, R293). -/
def State.badWord (s : State) (st : Strm) (c : Cause) (va : Word) : State :=
  match st with
  | .c => s.trapWord c va
  | .t => s.faultT c va.toNat
  | _ => s.faultAt st c va

/-- The state in which the first slot of the cycle is met: that slot is spent and its context is in focus. -/
def State.takeSlot (s : State) (sl : Slot) : State :=
  ({ s with todo := s.todo.drop 1 }).focus sl.site sl.cx

/-- What a slot comes to: the state after it, or the instruction that its word decodes to and that is now to execute. -/
inductive SlotRes where
  | done (s : State)
  | word (i : Instr) (s : State)

/-- A stream's slot (R151, R162, R203, R293): it may not be ready, it may stop here for a hold, a breakpoint may fire, its fetch
may wait or fault, its word may be none; else its word executes. -/
def State.slot (s : State) (st : Strm) : SlotRes :=
  if !s.streamReady st then .done s
  else if (s.ctx.strm st).stopsHere st then .done (s.hold st)
  else
    match s.fetch st with
    | (.wait, s) => .done (s.waitIn st .fetch)
    | (.fault c, s) => .done (s.badWord st c (s.ctx.strm st).pc)
    | (.word w, s) =>
      match decode st w with
      | .error _ => .done (s.badWord st .illegal 0)
      | .ok i => .word i s

/-! ### The end of a cycle (R87, R88, R183) -/

/-- Is a wait one that deadlock detection counts. -/
def WaitOn.counts : WaitOn → Bool
  | .queue _ => true
  | .channel => true
  | .tokens => true
  | .cend => true
  | .chanSlot => true
  | .pawnEntry => true
  | .overflow => true
  | .drain => true
  | .window => true
  | _ => false

/-- Is a wait one that stops the count without clearing it. -/
def WaitOn.freezes : WaitOn → Bool
  | .drawSlot => true
  | .spill => true
  | .rangeSlot => true
  | _ => false

/-- Is a wait one for a wait token. -/
def WaitOn.onToken : WaitOn → Bool
  | .token _ => true
  | .owned _ => true
  | _ => false

/-- Is a stream idle or in a wait that satisfies p. -/
def StreamSt.stuck (r : StreamSt) (p : WaitOn → Bool) : Bool :=
  !r.run || (match r.wait with | some w => p w | none => false)

/-- Does the oldest uncommitted T word wait only for room for its post (R155). -/
def Context.postBlocked (c : Context) (now : Nat) : Bool :=
  match c.twin with
  | e :: _ => decide (e.due ≤ now) && !c.postRoom .t e.sync
  | [] => false

/-- Has the context an access pending: a token's, or an uncommitted T word's. -/
def Context.accessPending (c : Context) (now : Nat) : Bool :=
  c.tok.toList.any (fun t => match t with
    | some t => (match t.op with | .qget .. => false | .qput .. => false | .pwait .. => false | .pcancel .. => false | _ => true)
    | none => false) || (!c.twin.isEmpty && !c.postBlocked now)

/-- The deadlock counter after one more cycle (R181, R183). -/
def Context.countDead (c : Context) (now : Nat) (openPawns : Bool) : Nat :=
  if c.tip then
    if c.cs.stuck (fun w => w.counts || w.onToken) && c.cs.run && !c.accessPending now then c.dead + 1 else 0
  else
    let all := fun p => c.cs.stuck p && c.ts.stuck p && c.ms.stuck p && c.vs.stuck p
    if openPawns || c.accessPending now || !c.pend.isEmpty then 0
    else if all WaitOn.counts then c.dead + 1
    else if all (fun w => w.counts || w.freezes) then c.dead
    else 0

/-- Is the word of a creation number one whose completion ends a wait of the context: the token waited for, an access that a fence or a release
waits for, the window's head. The waits for a queue, a channel or a slot are the program's own (R88, R273). -/
def Context.waitIsFor (c : Context) (serial : Nat) (w : WaitOn) : Bool :=
  let tok := fun (p : Fin 8 → TokPend → Bool) => (List.finRange 8).any (fun i => match c.tok[i] with
    | some t => decide (t.serial = serial) && p i t
    | none => false)
  let word := c.twin.any (fun e => decide (e.serial = serial))
  match w with
  | .tokens => tok (fun i _ => c.waitMask.getLsbD i.val)
  | .token k => tok (fun i _ => i == k)
  | .owned r => tok (fun _ t => t.owned.contains r)
  | .fence => tok (fun _ _ => true) || word
  | .release => tok (fun _ _ => true) || word
  | .window => word
  | _ => false

/-- Does a step of the pawn of a creation number wait in this cycle on its accesses: any step of a copy, and an MGO's once its own time is over
(R391). -/
def Pawn.stepWaits (p : Pawn) (serial now : Nat) : Bool :=
  p.open && decide (p.serial = serial) && (decide (p.due ≤ now) || (match p.job with | .mgo .. => false | _ => true))

/-- Does a stream, or a step of a pawn, wait in this cycle on an access whose delay R88 excuses: one that is on its way to such a place, or that is
still delayed. A cycle in which a branch or a fetch waits is never excused so (R274, R400). `away` lists the creation numbers of accesses to delayed
places that have not been answered (log 15). -/
def Context.waitsSlow (c : Context) (k : Core) (now : Nat) (away : List Nat) : Bool :=
  let streams := [c.cs, c.ts, c.ms, c.vs].filterMap (fun r => if r.run then r.wait else none)
  let late := (c.slow.filter (fun e => decide (e.2.1 ≤ now) && decide (now < e.2.2))).map (fun e => e.1)
  let waits := fun (serial : Nat) => streams.any (c.waitIsFor serial)
  !streams.contains .fetch && !streams.contains .branch &&
  (late.any (fun n => waits n || k.pawns.toList.any (fun p => p.open && decide (p.serial = n))) ||
    away.any (fun n => waits n || k.pawns.toList.any (fun p => p.stepWaits n now)))

/-- One more cycle of a context (R87 to R89): an empty one counts idle cycles; a turn's occupancy, excused cycles and NET
advance at turn level; a halted context counts nothing. -/
def Context.countCycle (c : Context) (now : Nat) (active openPawns slow : Bool) : Context :=
  match c.turn with
  | none => { c with idle := c.idle + 1 }
  | some t =>
    if c.halted then c
    else
      let sum := c.cs.issued + c.ts.issued + c.ms.issued + c.vs.issued
      let quiet := sum == c.issuedThen
      let c := { c with issuedThen := sum, slow := c.slow.filter (fun e => decide (now < e.2.2)) }
      let c := if active then { c with dead := c.countDead now openPawns } else c
      if c.pl || !(active || t.started) then c
      else if !active || decide (now < c.excuseTo) || (quiet && slow) then
        { c with occupancy := c.occupancy + 1, excused := c.excused + 1 }
      else { c with occupancy := c.occupancy + 1, net := if c.net = BitVec.allOnes 32 then c.net else c.net + 1 }

/-- Does a core hold an open pawn that a context's turn owns. -/
def Core.openFor (k : Core) (c : Context) : Bool :=
  match c.turn with
  | none => false
  | some t => k.pawns.toList.any (fun p => p.open && !p.adopted && p.owner == some t.id)

/-- One more cycle of a core. A core that is stopping for a swap or a time epoch, or gated, counts nothing (R88, R214). -/
def CoreBox.countCycle (b : CoreBox) (now : Nat) (frozen : Bool) (away : List Nat) : CoreBox :=
  if b.core.part.isNone || b.core.stopping || frozen then b
  else
    let go := b.core.urgent.isNone
    { b with a := b.a.countCycle now (!b.core.active && go) (b.core.openFor b.a) (b.a.waitsSlow b.core now away),
             b := b.b.countCycle now (b.core.active && go) (b.core.openFor b.b) (b.b.waitsSlow b.core now away) }

/-- The issue slots of a core in one cycle: the four streams of its active context, or the stream that a debugger steps. -/
def CoreBox.slots (b : CoreBox) (site : Nat) : List Slot :=
  let of := fun (cx : Bool) => [Slot.mk site cx .c, Slot.mk site cx .t, Slot.mk site cx .m, Slot.mk site cx .v]
  let act := if (b.ctx b.core.active).turn.isSome then of b.core.active else []
  let step := fun (cx : Bool) => match (b.ctx cx).stepOf with
    | some x => if cx = b.core.active then [] else [Slot.mk site cx x.st]
    | none => []
  if b.core.part.isNone then [] else act ++ step false ++ step true

/-- The sites the machine holds a core for, rising, the focused one among them. -/
def State.sites (s : State) : List Nat := (Tab.put (s.cores.map (fun e => (e.1, ()))) s.site ()).map (fun e => e.1)

/-- Is a sample of a context due in a cycle (R205, R206). -/
def Context.sampleDue (c : Context) (now : Nat) : Bool :=
  let p := c.trctl.toNat / 2 ^ 14 % 16
  c.turn.isSome && decide (p ≠ 0) && decide (now % 2 ^ (p + 8) = 0)

/-- One sample record for each stream of the focused context that is not idle. -/
def State.sampleCtx (s : State) : State :=
  [Strm.c, .t, .m, .v].foldl (fun s st => if (s.ctx.strm st).run then s.trace 0xA st 0 else s) s

/-- The samples of a core that are due. -/
def State.sample (s : State) (site : Nat) : State :=
  let b := s.boxAt site
  let s := if b.a.sampleDue s.cycle then (s.focus site false).sampleCtx else s
  if b.b.sampleDue s.cycle then (s.focus site true).sampleCtx else s

/-- The accesses that a core has under way to places whose delays are excused, by creation number (R88). -/
def State.slowAway (s : State) (site : Nat) : List Nat :=
  (s.net.filter (fun a => a.live && decide (a.site = site) && s.slowKey a.key)).map (fun a => a.serial)

/-- The next cycle (R151): the counts advance, and every active context has a slot for each of its streams. -/
def State.tick (s : State) : State :=
  let f := fun (site : Nat) (b : CoreBox) => b.countCycle s.cycle (s.gated.contains (clusterOf site)) (s.slowAway site)
  let here := f s.site s.hereBox
  let cores := s.cores.map (fun e => (e.1, f e.1 e.2))
  let s := { s with cycle := s.cycle + 1, cores := cores }
  let s := s.putBox s.site here
  let s := s.sites.foldl (fun s site => s.sample site) s
  let s := if s.mesh.beats.isEmpty then s else { s with mesh := s.mesh.planeStep s.cycle (s.hbm.toList.map (fun k => k.hot)) }
  { s with todo := s.sites.flatMap (fun site => (s.boxAt site).slots site) }

end Sys2Proof.Machine
end

