-- ==== Sys2Proof/Machine/Land.lean ====
section
/-! DEFINITION. Where fixed-latency results land: every destination, control registers among them (R157, R271, R316 to
R318). -/

namespace Sys2Proof.Machine

/-! ### Control registers (R317) -/

/-- The bits of mask from v, the others kept. -/
def mergeBits {w : Nat} (old v mask : BitVec w) : BitVec w := (old &&& ~~~mask) ||| (v &&& mask)

/-- SIZE limited to its largest value. -/
def capSize (v : Word) (n : Nat) : Word := if v.toNat % 16 ≤ n then v else (v &&& ~~~15#64) ||| BitVec.ofNat 64 n

/-- A ring register written: SIZE capped and BASE, HEAD kept (R206, R209, R210). -/
def writeRing (old v : Word) (n : Nat) : Word := mergeBits old (capSize v n) 0x000FFFFFFFFFFFCF#64

/-- A ring register of the context in which bits [5:4] read as zero. -/
def clearRing (v : Word) : Word := v &&& ~~~0x30#64

/-- The context's own control registers as a CRW leaves them. RO fields and reserved bits are unchanged; RW1C bits clear
where 1 is written (R4, R316). -/
def Context.writeCtl (c : Context) (reg : Nat) (v : Word) : Context :=
  let pc := v &&& 0x000FFFFFFFFFFFFC#64
  let va := v &&& 0x000FFFFFFFFFFFFF#64
  let bpa := v &&& 0x800FFFFFFFFFFFFF#64
  let bpi := v &&& 0x1FFFFFFFFFF#64
  match reg with
  | 0x000 => { c with ppl := v.getLsbD 1 }
  | 0x002 => { c with epc := pc }
  | 0x004 => { c with limit := v.setWidth 32 }
  | 0x005 => { c with deadline := v }
  | 0x014 => { c with strict := v.getLsbD 0 }
  | 0x01A => { c with faddr := va }
  | 0x01B => { c with fpc := va }
  | 0x01C => { c with fpc2 := va }
  | 0x01D => { c with frec := v }
  | 0x01E => { c with sscr := v }
  | 0x020 => { c with dbgctl := v.setWidth 4 }
  | 0x021 => { c with trctl := v.setWidth 20 }
  | 0x022 => { c with trbase := clearRing (writeRing c.trbase v 6) }
  | 0x023 => { c with bdring := clearRing (writeRing c.bdring v 8) }
  | 0x024 => { c with rplog := clearRing (writeRing c.rplog v 4), replayFull := false }
  | 0x026 => { c with fflags := c.fflags &&& ~~~(v.setWidth 8) }
  | 0x028 => { c with bpa := c.bpa.set 0 bpa }
  | 0x029 => { c with bpa := c.bpa.set 1 bpa }
  | 0x02A => { c with bpa := c.bpa.set 2 bpa }
  | 0x02B => { c with bpa := c.bpa.set 3 bpa }
  | 0x02C => { c with bpi := c.bpi.set 0 bpi }
  | 0x02D => { c with bpi := c.bpi.set 1 bpi }
  | 0x02E => { c with bpi := c.bpi.set 2 bpi }
  | 0x02F => { c with bpi := c.bpi.set 3 bpi }
  | _ => c

/-- FLOGE as a write leaves it (R182): EVENT and EVV written, DROPS cleared where 1 is written. -/
def writeFloge (old v : Word) : Word :=
  mergeBits old v 0x1FFFF#64 &&& ~~~(v &&& 0xFFFF000000000000#64)

/-- The state in which a control register is written by a CRW or by the debug window. -/
def State.writeCtl (s : State) (reg : Nat) (v : Word) : State :=
  match reg with
  | 0x003 => s.onPart (fun p => { p with tvec := v &&& 0x000FFFFFFFFFFFC0#64 })
  | 0x015 => s.writePtroot v
  | 0x016 => s.onPart (fun p => { p with invaddr := v &&& 0x000FFFFFFFFF0000#64 })
  | 0x017 => s.writeInvctl v
  | 0x018 => s.onPart (fun p => { p with flog := capSize v 10 &&& 0x000FFFFFFFFFFFCF#64 })
  | 0x019 => s.onPart (fun p => { p with floge := writeFloge p.floge v })
  | _ => s.onCtx (fun c => c.writeCtl reg v)

/-! ### Landing (R157) -/

/-- The context with a result in its register. -/
def Context.landIn (c : Context) (d : Dest) (v : BitVec 256) : Context :=
  match d with
  | .x r => c.setX r (v.setWidth 64)
  | .p r => c.setP r (v != 0)
  | .preds => (List.finRange 8).foldl (fun c i => c.setP i (v.getLsbD i.val)) c
  | .b r byPbr start =>
    { c with b := c.b.set r { val := v.setWidth 64, ready := if byPbr then some (start + 6) else none, byPbr := byPbr } }
  | .a r => c.setA r (v.setWidth 64)
  | .s r => { c with s := c.s.set r (v.setWidth 32) }
  | .m r => c.setM r v
  | .mb r => { c with mb := c.mb.set r (v.setWidth 64) }
  | .nest l f =>
    let w : BitVec 17 := v.setWidth 17
    let e := c.nest[l]
    let e := match f.val with
      | 0 => { e with trip := w }
      | 1 => { e with as_ := w }
      | 2 => { e with bs := w }
      | _ => { e with cs := w }
    { c with nest := c.nest.set l e }
  | .mfmt isB =>
    { c with mfmt := if isB then mergeBits c.mfmt (v.setWidth 8 <<< 4) 0xF0#8 else mergeBits c.mfmt (v.setWidth 8) 0x0F#8 }
  | .vshape lanesOnly =>
    { c with vshape := if lanesOnly then mergeBits c.vshape (v.setWidth 32 <<< 4) 0x1FF0#32 else v.setWidth 32 }
  | .ctl _ => c

/-- The result that lands first among those that are due: by cycle, then by issue. -/
def firstLanding (now : Nat) : List Landing → Option Landing
  | [] => none
  | l :: rest =>
    match firstLanding now rest with
    | none => if l.due ≤ now then some l else none
    | some r => if l.due ≤ now ∧ (l.due < r.due ∨ (l.due = r.due ∧ l.serial ≤ r.serial)) then some l else some r

/-- A result of the focused context lands (R157). -/
def State.landOne (s : State) : State :=
  match firstLanding s.cycle s.ctx.landing with
  | none => s
  | some l =>
    let s := s.onCtx (fun c => { c with landing := c.landing.erase l })
    match l.dst with
    | .ctl reg => s.writeCtl reg (l.val.setWidth 64)
    | d => s.onCtx (fun c => c.landIn d l.val)

/-- May the oldest issued M word retire now (R155, R346, R349): its time has come and its posts have room. -/
def State.retReady (s : State) : Bool :=
  match s.ctx.zeroing with
  | z :: _ => decide (z.due ≤ s.cycle) && s.ctx.postRoom .m z.sync && (!z.postC || s.ctx.tokenRoom (chanIx 2 0))
  | [] => false

/-- The oldest issued M word retires (R346, R349): its tile is +0 and its rows are F, and its posts are made. -/
def State.zeroOne (s : State) : State :=
  if !s.retReady then s
  else
    match s.ctx.zeroing with
    | [] => s
    | z :: rest =>
      let clear := fun (k : Nat) => match z.tile with
        | some t => decide (k / 128 = t.val)
        | none => false
      let s := match z.tile with
        | some t => s.rewrite (spKey s.site (accOff s.cx + 0x10000 * t.val)) 0x10000
        | none => s
      s.onCtx (fun c =>
        let c := { c with zeroing := rest, acc := c.acc.filter (fun e => !clear e.1), rowInt := c.rowInt.filter (fun e => !clear e.1) }
        let c := c.post .m z.sync s.cycle s.serial
        if z.postC then c.pushToken (chanIx 2 0) s.cycle (c.knowAt .m s.serial) else c)

/-- RESULT_LAND (R157, R271, R346): the earliest due result of a context. -/
def execResultLand (site : Nat) (cx : Bool) (s : State) : Host.Outcome State Fault Refusal :=
  let s := s.focus site cx
  .next (if (firstLanding s.cycle s.ctx.landing).isSome then s.landOne else s.zeroOne)

end Sys2Proof.Machine
end

