-- ==== Sys2Proof/Machine/LoadStore.lean ====
section
/-! DEFINITION. Loads, stores and WAIT of the C stream (R286 to R289, spec/15_control_arith.md). -/

namespace Sys2Proof.Machine

/-- The unloaded cycles of an access by the C path (R117, R270): the level's latency plus 2 and at least 8, with the walk of a
page whose translation is missing. -/
def State.memLat (s : State) (k : Acc) (va n : Nat) : Nat :=
  match s.peek .c k va n with
  | some key => max 8 (s.latencyTo s.site key + 2)
  | none =>
    match s.placeNow k va n with
    | .ok p => max 8 (s.walkCycles va + s.latencyTo s.site p.key + 2)
    | .error _ => 8

/-- The address of a load or store (R286). -/
def State.memAddr (s : State) (o : Op.Mem) (size : Nat) : Word :=
  s.ctx.getX o.ra + o.off.signExtend 64 * BitVec.ofNat 64 size

/-- A C-path access of n bytes: a word that may issue traps if its address is misaligned (R158, R286, R288); its translation is asked for as soon as it
has issued (R132). -/
def State.cAccess (s : State) (tok : Fin 8) (owned : List (Fin 32)) (k : Acc) (a : Word) (n : Nat) (op : TokOp) : State :=
  match s.ctx.tokHazard tok owned with
  | some w => s.waitIn .c w
  | none =>
    if a.toNat % n ≠ 0 then s.trapWord .align a
    else
      let d := s.takeDelay
      (d.2.takeTok tok owned (s.memLat k a.toNat n + d.1) op).issuedIn .c

/-- A load of n bytes (R286 to R288). -/
def State.loadWord (s : State) (o : Op.Mem) (n : Nat) (signed : Bool) : State :=
  s.guarded o.g (fun s =>
    let a := s.memAddr o n
    s.cAccess o.tok [o.rd] .read a n (.load n signed o.rd a))

/-- A store of n bytes: the data are read at issue (R286 to R288). -/
def State.storeWord (s : State) (o : Op.Mem) (n : Nat) : State :=
  s.guarded o.g (fun s =>
    let a := s.memAddr o n
    s.cAccess o.tok [] .write a n (.store n a (s.ctx.getX o.rd)))

/-- LDB (R286). -/
def execLdb (o : Op.Mem) (s : State) : Host.Outcome State Fault Refusal := .next (s.loadWord o 1 true)

/-- LDH (R286). -/
def execLdh (o : Op.Mem) (s : State) : Host.Outcome State Fault Refusal := .next (s.loadWord o 2 true)

/-- LDW (R286). -/
def execLdw (o : Op.Mem) (s : State) : Host.Outcome State Fault Refusal := .next (s.loadWord o 4 true)

/-- LDD (R286). -/
def execLdd (o : Op.Mem) (s : State) : Host.Outcome State Fault Refusal := .next (s.loadWord o 8 false)

/-- LDBU (R286). -/
def execLdbu (o : Op.Mem) (s : State) : Host.Outcome State Fault Refusal := .next (s.loadWord o 1 false)

/-- LDHU (R286). -/
def execLdhu (o : Op.Mem) (s : State) : Host.Outcome State Fault Refusal := .next (s.loadWord o 2 false)

/-- LDWU (R286). -/
def execLdwu (o : Op.Mem) (s : State) : Host.Outcome State Fault Refusal := .next (s.loadWord o 4 false)

/-- STB (R286). -/
def execStb (o : Op.Mem) (s : State) : Host.Outcome State Fault Refusal := .next (s.storeWord o 1)

/-- STH (R286). -/
def execSth (o : Op.Mem) (s : State) : Host.Outcome State Fault Refusal := .next (s.storeWord o 2)

/-- STW (R286). -/
def execStw (o : Op.Mem) (s : State) : Host.Outcome State Fault Refusal := .next (s.storeWord o 4)

/-- STD (R286). -/
def execStd (o : Op.Mem) (s : State) : Host.Outcome State Fault Refusal := .next (s.storeWord o 8)

/-- Is a token of a mask pending. -/
def Context.anyPending (c : Context) (mask : BitVec 8) : Bool :=
  (List.finRange 8).any (fun i => mask.getLsbD i.val && c.tok[i].isSome)

/-- WAIT (R289): it stalls until every named token is settled; while it stalls, the faults of its own tokens wait for the
boundary after it. -/
def execWait (o : Op.Wait) (s : State) : Host.Outcome State Fault Refusal :=
  .next (s.guarded o.g (fun s =>
    if s.ctx.anyPending o.mask then
      (s.waitIn .c .tokens).onCtx (fun c => { c with waitMask := o.mask })
    else (s.issuedIn .c).onCtx (fun c => { c with waitMask := 0 })))

end Sys2Proof.Machine
end

