-- ==== Sys2Proof/Machine/SysWords.lean ====
section
/-! DEFINITION. FENCE, control registers, traps and system words of the C stream (R315 to R321,
spec/16_control_system.md). -/

namespace Sys2Proof.Machine

/-! ### FENCE (R146, R147, R315) -/

/-- A FENCE of any stream: it is met once, and waits until every earlier access of its from paths is performed at the chips of its scope, read as
it is met (R46). Accesses performed in this package are performed at every scope within it (DEDUCED, log 15). -/
def State.fenceWord (s : State) (st : Strm) (before after : BitVec 6) (scope : Nat) (sync : Fin 8) (done : State → State) : State :=
  match (s.ctx.strm st).fence with
  | some f => if s.pendingOn st f.before.toNat f.serial f.chips then s.waitIn st .fence else done s
  | none =>
    if s.pendingOn st before.toNat s.serial (s.fenceChips scope) then
      ((s.onCtx (fun c => c.onStrm st (fun r =>
        { r with fence := some { before := before, after := after, scope := scope, chips := s.fenceChips scope, serial := s.serial, sync := sync } }))).bump).waitIn
        st .fence
    else done s

/-- FENCE (R315). -/
def execFence (o : Op.CFence) (s : State) : Host.Outcome State Fault Refusal :=
  .next (s.guarded o.g (fun s => s.fenceWord .c o.before o.after o.scope.val 0 (fun s => s.issuedIn .c)))

/-! ### Control registers (R316, R317) -/

/-- Is a register readable at supervisor level alone (R317). -/
def crrSupervisor (reg : Nat) : Bool :=
  [0x002, 0x003, 0x018, 0x019, 0x01A, 0x01B, 0x01C, 0x01D, 0x01E, 0x021, 0x022, 0x023, 0x024, 0x028, 0x029, 0x02A, 0x02B,
    0x02C, 0x02D, 0x02E, 0x02F].contains reg

/-- Does a CRW of a register trap with PRIV at either level (R317). -/
def crwNever (reg : Nat) : Bool :=
  [0x006, 0x007, 0x008, 0x009, 0x00A, 0x010, 0x011, 0x012, 0x013].contains reg

/-- Is a register writable at any level (R317). -/
def crwAny (reg : Nat) : Bool := [0x014, 0x026].contains reg

/-- CRR (R316): PRIV at turn level for the supervisor's registers. -/
def execCrr (o : Op.Crr) (s : State) : Host.Outcome State Fault Refusal :=
  .next (s.guarded o.g (fun s =>
    if crrSupervisor o.reg.val && !s.ctx.pl then s.trapWord .priv 0
    else s.cToken o.tok [o.rd] 3 (.crr o.reg.val o.rd)))

/-- Is a write of PTROOT or INVCTL on its way. -/
def Context.shootPending (c : Context) : Bool :=
  c.landing.any (fun l => match l.dst with | .ctl r => r == 0x015 || r == 0x017 | _ => false)

/-- CRW (R316): latency 2. A write of INVCTL or PTROOT that finds BUSY set stalls (R134), and kind 3 is ILLEGAL (R133). -/
def execCrw (o : Op.Crw) (s : State) : Host.Outcome State Fault Refusal :=
  .next (s.guarded o.g (fun s =>
    let reg := o.reg.val
    let v := s.ctx.getX o.ra
    if reg = 0x017 ∧ v.toNat % 4 = 3 then s.trapWord .illegal 0
    else if crwNever reg || (!crwAny reg && !s.ctx.pl) then s.trapWord .priv 0
    else if (reg = 0x015 ∨ reg = 0x017) ∧ (s.part.busy || s.ctx.shootPending) then s.waitIn .c .shootdown
    else s.cLand 2 (.ctl reg) (v.setWidth 256)))

/-! ### Traps and returns (R319) -/

/-- A trap after a word of the C stream: EPC names the next word, FPC the word, FREC its code (R177, R319). -/
def State.trapAfter (s : State) (cause : Cause) (code : BitVec 15) : State :=
  let pc := s.ctx.cs.pc
  let s := s.issuedIn .c
  s.enterTrapAt (s.cycle + 1)
    { rank := 0, order := 0, cause := cause, st := .c, pawn := none, tok := none, async_ := false, st2 := .c, faddr := 0,
      fpc := pc, fpc2 := 0, frec := code.setWidth 64 } s.ctx.cs.pc

/-- TRAP (R319). -/
def execTrap (o : Op.Code) (s : State) : Host.Outcome State Fault Refusal :=
  .next (s.guarded o.g (fun s => s.trapAfter .swtrap o.code))

/-- BKPT (R319): with DBGCTL.BKEN set the context halts (R198, R199). -/
def execBkpt (o : Op.Code) (s : State) : Host.Outcome State Fault Refusal :=
  .next (s.guarded o.g (fun s =>
    if s.ctx.dbgctl.getLsbD 2 then (s.issuedIn .c).requestHalt else s.trapAfter .bkpt o.code))

/-- ERET (R319, R180). -/
def execEret (o : Op.Bare) (s : State) : Host.Outcome State Fault Refusal :=
  .next (s.guarded o.g (fun s =>
    if !s.ctx.pl then s.trapWord .priv 0
    else if !s.ctx.tip then s.trapWord .illegal 0
    else s.leaveTrap))

/-! ### TLRW and TIME (R320, R321) -/

/-- TLRW (R320): its image is read on path C, and its record written 4 cycles after the image arrives. -/
def execTlrw (o : Op.TokSrc2) (s : State) : Host.Outcome State Fault Refusal :=
  .next (s.guarded o.g (fun s =>
    let a := s.ctx.getX o.rb
    s.cAccess o.tok [] .read a 32 (.tlrw (s.ctx.getX o.ra) a)))

/-- TIME (R321): under replay the logged value is delivered (R211). -/
def execTime (o : Op.ResTok) (s : State) : Host.Outcome State Fault Refusal :=
  .next (s.guarded o.g (fun s =>
    match s.ctx.tokHazard o.tok [o.rd] with
    | some w => s.waitIn .c w
    | none =>
      if s.ctx.replaying then
        match s.replayTake 5 .c s.ctx.cs.issued with
        | none => s.diverge .c
        | some (v, s) => ((s.takeTok o.tok [o.rd] 3 (.time o.rd)).doneLater o.tok 3 v 0).issuedIn .c
      else (s.takeTok o.tok [o.rd] 3 (.time o.rd)).issuedIn .c))

end Sys2Proof.Machine
end

