-- ==== Sys2Proof/Machine/Engines.lean ====
section
/-! DEFINITION. The control words that the engine streams share: LOOP, WAITH and what retires a FENCE (R146, R161, R167,
R257, R335, R349, R375). -/

namespace Sys2Proof.Machine

/-! ### LOOP (R161) -/

/-- Does a LOOP word break a rule of R161: body not a multiple of the stages or shorter, identifier active, or not wholly inside
one stage of the loop around it. -/
def loopBad (r : StreamSt) (id : Fin 4) (stages len : Nat) : Bool :=
  decide (len % stages ≠ 0) || decide (len < stages) || r.loops.any (fun l => l.id == id) ||
  (match r.loops with
   | [] => false
   | l :: _ =>
     let size := l.len / l.stages
     let first := (r.pc - l.body).toNat / 4 + 1
     decide (l.len < first + len) || decide (first / size ≠ (first + len - 1) / size))

/-- The state in which a LOOP word of a stream has issued: at the first word of its body, or past it with a count of 0. -/
def State.enterLoop (s : State) (st : Strm) (id : Fin 4) (stages len count : Nat) : State :=
  let r := s.ctx.strm st
  if count = 0 then s.issuedAt st (r.pc + 4 + BitVec.ofNat 64 (4 * len)) r.loops false
  else s.issuedAt st (r.pc + 4) ({ id := id, count := count, stages := stages, body := r.pc + 4, len := len, iter := 0 } :: r.loops) true

/-! ### WAITH (R165 to R167, R335) -/

/-- A trap that WAITH raises for a faulted pawn: its own cause, record, address and entry (R167, R176). -/
def State.trapPawn (s : State) (st : Strm) (frec faddr : Word) (slot : Nat) : State :=
  s.faultEngine st ((causeOfCode (frec.toNat % 256)).getD .memerr) faddr frec (some slot) 0 .c

/-- WAITH of a handle: it waits until the pawn has ended, reports it and frees its entry; a faulted pawn traps; GONE proceeds at
once. -/
def State.waithOne (s : State) (st : Strm) (h : BitVec 16) (done : State → State) : State :=
  match s.byHandle h with
  | none => done s
  | some k =>
    let p := s.pawn k
    if !p.state.ended then s.waitIn st (.waith h)
    else
      let s := s.freeAfter h none (some st) k
      if p.state = .faulted then s.trapPawn st p.frec p.faddr k.val else done s

/-- WAITH h0: it waits for every anonymous pawn of the stream, reports the aggregate and clears it. -/
def State.waithAll (s : State) (st : Strm) (done : State → State) : State :=
  if !(s.anonOpen st).isEmpty then s.waitIn st (.waith 0)
  else
    let a := s.ctx.agg st
    let s := s.onCtx (fun c => c.onAgg st (fun _ => Aggregate.clear))
    if a.faulted then s.trapPawn st a.frec a.faddr a.slot else done s

/-- WAITH (R167). -/
def State.waithWord (s : State) (st : Strm) (h : Fin 16) (done : State → State) : State :=
  if h = 0 then s.waithAll st done else s.waithOne st (s.ctx.getH h) done

/-! ### Posts of M and V words at issue -/

/-- A word of the M or V stream that retires as it issues: its post needs room (R155). -/
def State.issuePost (s : State) (st : Strm) (sync : Fin 8) : State :=
  if s.ctx.postRoom st sync then (s.onCtx (fun c => c.post st sync s.cycle s.serial)).issuedIn st else s.waitIn st .channel

/-- A word of the M or V stream met at issue: its token is popped once (R155, R156). -/
def State.awaited (s : State) (st : Strm) (sync : Fin 8) (f : State → State) : State :=
  match s.ctx.await st sync s.cycle with
  | none => s.waitIn st .channel
  | some c => f (s.onCtx (fun _ => c))

/-- What a FENCE does as it retires (R146): a T FENCE posts when earlier T words have committed. -/
def State.fenceDone (st : Strm) (sync : Fin 8) (s : State) : State :=
  match st with
  | .c => s.issuedIn .c
  | .t => s.issueT .plain 0 sync [] none
  | _ => s.issuePost st sync

/-- FENCE_RETIRE (R146): every access of the before set is performed, and the stream issues on. -/
def execFenceRetire (site : Nat) (cx : Bool) (st : Strm) (s : State) : Host.Outcome State Fault Refusal :=
  let s := s.focus site cx
  .next (match (s.ctx.strm st).fence, (s.ctx.strm st).wait with
    | some f, some .fence => if !s.streamReady st || s.pendingOn st f.before.toNat f.serial f.chips then s else s.fenceDone st f.sync
    | _, _ => s)

end Sys2Proof.Machine
end

