-- ==== Sys2Proof/Machine/TransferWords.lean ====
section
/-! DEFINITION. The T-stream words (R326 to R335, spec/17_transfer.md). -/

namespace Sys2Proof.Machine

/-! ### Queue loads and stores (R325 to R327) -/

/-- A layout record of the focused core. -/
def State.lyRec (s : State) (k : Fin 64) : LyRec := s.core.ly[k]

/-- Does a layout record hold a word in error: a word that reads it faults with MEMERR, whose address is no virtual one and reads 0 (R191; log 16). -/
def State.lyBad (s : State) (k : Fin 64) : Bool := s.readBad (spKey s.site (layoutOff + 32 * k.val)) 32

/-- The lanes a record's lane format gives an entry. -/
def LyRec.lanes (ly : LyRec) : Nat := 2048 / fmtBits ly.lfmt.toNat

/-- The elements that a queue word of a record covers. -/
def LyRec.covers (ly : LyRec) : Nat := min ly.lanes (ly.rows.toNat * ly.cols.toNat)

/-- The checks that a base address meets (R322, R325): 64-byte aligned, bits [63:52] zero. -/
def baseFault (b : Word) : Option Cause := if b.toNat % 64 ≠ 0 then some .align else if 2 ^ 52 ≤ b.toNat then some .prot else none

/-- The walk of a queue word, its lines translated and its formats checked, or the state in which the word waits or faults. -/
def State.walkT (s : State) (k : Acc) (b : Word) (ly : LyRec) (strict : Bool) (f : Walking → List (Nat × Place) → State → State) :
    State :=
  let n := ly.covers
  if n = 0 then f (queueWalk ly b []) [] s
  else
    match s.linesT k [b.toNat] with
    | (.error e, s) => s.failT e
    | (.ok base, s) =>
      let p : Place := (placeIn base b.toNat).getD { key := 0, leaf := none }
      let raw := fmtBits ly.lfmt.toNat
      let w := ly.walkAt b.toNat p.leaf raw
      if (w.geom ≠ 0 ∧ w.ly.cols.toNat % 32 ≠ 0) ∨ (w.geom = 2 ∧ w.ly.scale = 0) then s.faultT .format b.toNat
      else
        match s.linesT k (w.addrs n) with
        | (.error e, s) => s.failT e
        | (.ok ls, s) =>
          match (List.range n).find? (fun i => !w.elemOk ls strict raw (w.rc i).1 (w.rc i).2) with
          | some i => s.faultT .format ((w.elemBytes (w.rc i).1 (w.rc i).2).headD 0)
          | none => f w ls s

/-- The base register of a queue word after its step (R326). -/
def stepped (b : Word) (step : BitVec 9) : Word := b + step.signExtend 64 * 64

/-- LDQ (R326): VSHAPE bit 17 makes a load that V consumes strict (R128). -/
def execLdq (o : Op.Tq) (s : State) : Host.Outcome State Fault Refusal :=
  .next (s.tWord o.sync false (fun s =>
    if s.lyBad o.ly then s.faultT .memerr 0
    else
    let ly := s.lyRec o.ly
    let b := s.ctx.getA o.ra
    if !laneFmtOk ly.lfmt.toNat then s.faultT .illegal 0
    else
      match s.ctx.roomQ s.cycle .t o.q with
      | .error e => s.queueT o.q e
      | .ok _ =>
        match baseFault b with
        | some c => s.faultT c b.toNat
        | none =>
          let strict := s.ctx.strict || (decide ((s.ctx.q[o.q].binding s.cycle).2 = queueCode .v) && s.ctx.vshape.getLsbD 17)
          s.walkT .read b ly strict (fun w ls s =>
            let rs := s.walkRanges w ly.covers false
            s.rangedT b false rs (fun s =>
              let d := s.contendAll 0 (ls.map (fun l => l.2.key))
              let s := d.2
              let n := s.serial
              let s := (s.addRanges .t n none rs).onCtx (fun c => c.reserveQ s.cycle o.q n n)
              s.issueT (.ldq o.q b ly ls) (s.linesLat ls + d.1) o.sync [] (some (o.ra, stepped b o.step))))))

/-- STQ (R326). -/
def execStq (o : Op.Tq) (s : State) : Host.Outcome State Fault Refusal :=
  .next (s.tWord o.sync false (fun s =>
    if s.lyBad o.ly then s.faultT .memerr 0
    else
    let ly := s.lyRec o.ly
    let b := s.ctx.getA o.ra
    if !laneFmtOk ly.lfmt.toNat then s.faultT .illegal 0
    else
      match s.ctx.popQ s.cycle .t o.q 1 with
      | .error e => s.queueT o.q e
      | .ok (es, c) =>
        match baseFault b with
        | some c => s.faultT c b.toNat
        | none =>
          s.walkT .write b ly s.ctx.strict (fun w ls s =>
            let rs := s.walkRanges w ly.covers true
            s.rangedT b false rs (fun s =>
              let d := s.contendAll 1 (ls.map (fun l => l.2.key))
              let s := d.2
              let entry := (es.headD QEnt.absent).bits
              let s := (s.addRanges .t s.serial none rs).onCtx (fun x => ({ x with q := c.q }).learn .t c.ts.know)
              s.issueT (.stq entry b ly ls) (s.linesLat ls + d.1) o.sync (es.map (fun e => (o.q, e)))
                (some (o.ra, stepped b o.step))))))

/-- The banks of deep SRAM that some lines lie in, woken (R117, R327). -/
def State.wakeBanks (s : State) (keys : List Nat) : State :=
  { s with drowsy := s.drowsy.filter (fun d => !keys.any (fun k => decide (deepSite k = some d.1) && decide (k % 2 ^ 24 / 2 ^ 18 = d.2))) }

/-- Would an element of the first n of a walk fault with FORMAT, of those that start in a line. -/
def Walking.lineBad (w : Walking) (lines : List (Nat × Place)) (strict : Bool) (raw n va : Nat) : Bool :=
  (List.range n).any (fun i =>
    let rc := w.rc i
    decide ((w.elemBytes rc.1 rc.2).headD 0 / 64 * 64 = va) && !w.elemOk lines strict raw rc.1 rc.2)

/-- The lines of a PREF translated in walk order, each once, up to one whose page would fault: those that the walk reaches, and whether a
translation is awaited. -/
def State.prefLines (s : State) (bad : List (Nat × Place) → Nat → Bool) : List Nat → List Trans → (Bool × List Trans) × State
  | [], tr => ((false, tr), s)
  | va :: rest, tr =>
    if (placeOf tr false va).isSome then s.prefLines bad rest tr
    else
      match s.xlate .t .read va 64 with
      | (.wait, s) => ((true, tr), s)
      | (.fault _, s) => ((false, tr), s)
      | (.ok p, s) => if bad [(va, p)] va then ((false, tr), s) else s.prefLines bad rest (tr ++ [{ writes := false, va := va, place := p }])

/-- What a PREF does for a line it reaches: the bank is awake, and the die asks for a copy of a replicated frame (R136, R327). -/
def State.prefLine (s : State) (p : Place) : State :=
  let s := s.wakeBanks [p.key]
  match p.replFrame with
  | some f => s.replRead (dieOf s.site) f
  | none => s

/-- PREF (R325, R327): it moves no data and never faults on a page. -/
def execPref (o : Op.Pref) (s : State) : Host.Outcome State Fault Refusal :=
  .next (s.tWord o.sync false (fun s =>
    if s.lyBad o.ly then s.faultT .memerr 0
    else
    let ly := s.lyRec o.ly
    let b := s.ctx.getA o.ra
    if !laneFmtOk ly.lfmt.toNat then s.faultT .illegal 0
    else if b.toNat % 64 ≠ 0 then s.faultT .align b.toNat
    else
      let go := fun (s : State) => s.issueT .plain 0 o.sync [] (some (o.ra, stepped b o.step))
      if ly.covers = 0 then go s
      else
        match s.linesT .read [b.toNat] with
        | (.error none, s) => s.waitIn .t .translation
        | (.error (some _), s) => go s
        | (.ok base, s) =>
          let raw := fmtBits ly.lfmt.toNat
          let w := ly.walkAt b.toNat (leafIn base b.toNat) raw
          if (w.geom ≠ 0 ∧ w.ly.cols.toNat % 32 ≠ 0) ∨ (w.geom = 2 ∧ w.ly.scale = 0) then go s
          else
            match s.prefLines (fun lines va => w.lineBad lines s.ctx.strict raw ly.covers va) (linesOf (w.addrs ly.covers)) s.ctx.ttr with
            | ((true, tr), s) => (s.onCtx (fun c => { c with ttr := tr })).waitIn .t .translation
            | ((false, tr), s) => go (tr.foldl (fun s t => s.prefLine t.place) s)))

/-! ### Pawns of the T stream (R164, R328 to R330, R334) -/

/-- A pawn of the T stream is created and its word issues; a cancel is observed (R95, R164). -/
def State.makePawnT (s : State) (va : Word) (rs : List (Nat × Nat × Bool)) (n : NewPawn) : State :=
  match s.freePawn with
  | none => s.waitIn .t .pawnEntry
  | some k =>
    s.rangedT va true rs (fun s =>
      ((((s.addRanges .t s.serial (some k.val) rs).createPawn k n).onCtx (fun c => { c with ttr := [] })).issuedIn .t).observe)

/-- A word's pops taken, once it has passed its checks. -/
def State.takePops (s : State) (c : Context) : State := s.onCtx (fun x => ({ x with q := c.q }).learn .t c.ts.know)

/-- The walk side of a copy at its translated base: RAW elements are bytes; with raw the row counts bytes (R325, R328). -/
def copyWalk (ly : LyRec) (b : Word) (leaf : Option Leaf) : Walking := ly.walkAt b.toNat leaf 8

/-- The row length of a copy's walk. -/
def copyRow (w : Walking) (raw : Bool) : Nat := if raw then w.ly.cols.toNat else w.rowLen

/-- The record of a copy pawn's side. -/
def Walking.side (w : Walking) (b : Word) (leaf : Option Leaf) : CopySide :=
  { base := b, ly := w.ly, bits := w.bits, geom := w.geom, fmt := pageFmt leaf }

/-- Does a walk with blocks break the rules of R325 and R126, for a copy that counts elements. -/
def copyFmtBad (w : Walking) (raw : Bool) : Bool := !raw && decide (w.geom ≠ 0) && decide (w.ly.cols.toNat % 32 ≠ 0)

/-- The ranges of a copy's side (R160). -/
def State.sideRanges (s : State) (w : Walking) (rows rowLen : Nat) (writes : Bool) : List (Nat × Nat × Bool) :=
  if rows = 0 ∨ rowLen = 0 then [] else ((s.ownWalk w.ly w.base rows rowLen rowLen).toList).map (fun x => (x.1, x.2, writes))

/-- The fault of two addresses that a word names: ALIGN of either comes before PROT of either (R263). -/
def baseFaults (a b : Word) : Option (Cause × Nat) :=
  match baseFault a, baseFault b with
  | some .align, _ => some (.align, a.toNat)
  | _, some .align => some (.align, b.toNat)
  | some c, _ => some (c, a.toNat)
  | none, some c => some (c, b.toNat)
  | none, none => none

/-- The unloaded cycles of a copy's first line (R329). -/
def State.copyLat (s : State) (src dst : Nat) : Nat := s.latencyTo s.site src + s.latencyTo s.site dst

/-- COPY (R328, R329). -/
def execCopy (o : Op.Tc) (s : State) : Host.Outcome State Fault Refusal :=
  .next (s.tWord o.sync true (fun s =>
    let src := s.ctx.getA o.src
    let dst := s.ctx.getA o.dst
    if o.ly = 63 ∨ (o.detach = true ∧ o.h ≠ 0) then s.faultT .illegal 0
    else if s.lyBad o.ly || s.lyBad (o.ly + 1) then s.faultT .memerr 0
    else
      let la := s.lyRec o.ly
      let lb := s.lyRec (o.ly + 1)
      if la.rows ≠ lb.rows ∨ (o.raw = true ∧ la.cols ≠ lb.cols) ∨
          (inWindow src.toNat = true ∧ inWindow dst.toNat = true ∧ copyRow (copyWalk la src none) o.raw ≠ copyRow (copyWalk lb dst none) o.raw) then
        s.faultT .illegal 0
      else
      match baseFaults src dst with
      | some (c, va) => s.faultT c va
      | none =>
        match s.linesT .read [src.toNat] with
        | (.error e, s) => s.failT e
        | (.ok ls, s) =>
          match s.linesT .write [dst.toNat] with
          | (.error e, s) => s.failT e
          | (.ok ms, s) =>
            let p : Place := (placeIn ls src.toNat).getD { key := 0, leaf := none }
            let q : Place := (placeIn ms dst.toNat).getD { key := 0, leaf := none }
            let wa := copyWalk la src p.leaf
            let wb := copyWalk lb dst q.leaf
            let n := copyRow wa o.raw
            let rows := la.rows.toNat
            if n ≠ copyRow wb o.raw then s.faultT .illegal 0
            else if copyFmtBad wa o.raw then s.faultT .format src.toNat
            else if copyFmtBad wb o.raw then s.faultT .format dst.toNat
            else
              let ra := la.range src.toNat rows n
              let rb := lb.range dst.toNat rows n
              if rows ≠ 0 ∧ n ≠ 0 ∧ ra.1 < rb.2 ∧ rb.1 < ra.2 then s.faultT .overlap src.toNat
              else
                let d := s.contendCopy p.key q.key
                let s := d.2
                s.makePawnT src (s.sideRanges wa rows n false ++ s.sideRanges wb rows n true)
                  { st := .t, eng := .transfer, pri := o.pri.val, h := o.h, detach := o.detach
                    job := .copy (wa.side src p.leaf) (wb.side dst q.leaf) rows n o.raw s.ctx.strict, sync := o.sync
                    due := s.cycle, lead := s.copyLat p.key q.key + d.1, rows := 0, draw := false, idx := [], tr := [] }))

/-- The index addresses that entries carry, 32 to an entry. -/
def indexList (es : List QEnt) (rows : Nat) : List Word := (es.flatMap (fun e => (List.range 32).map (fun i => wordOf e.bits i))).take rows

/-- The first index address that is misaligned, else the first out of the space, with its cause (R263, R329). -/
def indexFault (ws : List Word) : Option (Cause × Nat) :=
  match ws.find? (fun w => w != 0 && decide (w.toNat % 64 ≠ 0)) with
  | some w => some (.align, w.toNat)
  | none => (ws.find? (fun w => w != 0 && decide (2 ^ 52 ≤ w.toNat))).map (fun w => (.prot, w.toNat))

/-- The fault of a base or of an index address that a word raises: ALIGN before PROT (R263). -/
def firstAlign (base : Option Cause) (b : Word) (index : Option (Cause × Nat)) : Option (Cause × Nat) :=
  match base, index with
  | some .align, _ => some (.align, b.toNat)
  | _, some (.align, va) => some (.align, va)
  | some c, _ => some (c, b.toNat)
  | none, i => i

/-- The range of own-share rows that index addresses name (R160). -/
def State.indexRanges (s : State) (ws : List Word) (rowLen : Nat) (writes : Bool) : List (Nat × Nat × Bool) :=
  let own := ws.filterMap (fun w => if w = 0 ∨ rowLen = 0 then none else s.ownRange w.toNat (w.toNat + rowLen))
  match own with
  | [] => []
  | r :: rest => [(rest.foldl (fun m x => min m x.1) r.1, rest.foldl (fun m x => max m x.2) r.2, writes)]

/-- GATH and SCAT (R328, R329): `gather` selects the one. -/
def State.indexedCopy (s : State) (o : Op.Tc) (gather : Bool) : State :=
  s.tWord o.sync true (fun s =>
    let q := if gather then o.src else o.dst
    let b := s.ctx.getA (if gather then o.dst else o.src)
    let ly := s.lyRec o.ly
    let rows := ly.rows.toNat
    if s.lyBad o.ly then s.faultT .memerr 0
    else if (o.detach = true ∧ o.h ≠ 0) ∨ rows = 0 ∨ 128 < rows then s.faultT .illegal 0
    else
      match s.ctx.popQ s.cycle .t q ((rows + 31) / 32) with
      | .error e => s.queueT q e
      | .ok (es, c) =>
        let ws := indexList es rows
        match firstAlign (baseFault b) b (indexFault ws) with
        | some (e, va) => s.faultT e va
        | none =>
          match s.linesT (if gather then .write else .read) [b.toNat] with
          | (.error e, s) => s.failT e
          | (.ok ls, s) =>
            let p : Place := (placeIn ls b.toNat).getD { key := 0, leaf := none }
            let w := copyWalk ly b p.leaf
            let n := copyRow w o.raw
            if copyFmtBad w o.raw then s.faultT .format b.toNat
            else
              match s.freePawn with
              | none => s.waitIn .t .pawnEntry
              | some k =>
                let rs := s.sideRanges w rows n gather ++ s.indexRanges ws n (!gather)
                s.rangedT b true rs (fun s =>
                  let d := s.contend (if gather then 1 else 0) p.key
                  let s := (d.2.takePops c).addRanges .t s.serial (some k.val) rs
                  let far := ws.foldl (fun m a => match s.peek .t .read a.toNat 1 with
                    | some key => max m (s.latencyTo s.site key)
                    | none => m) 1
                  let job := if gather then PawnJob.gath (w.side b p.leaf) n o.raw s.ctx.strict ws
                    else PawnJob.scat (w.side b p.leaf) n o.raw s.ctx.strict ws
                  (((s.createPawn k
                    { st := .t, eng := .transfer, pri := o.pri.val, h := o.h, detach := o.detach, job := job, sync := o.sync
                      due := s.cycle, lead := s.latencyTo s.site p.key + far + d.1, rows := 0, draw := false, idx := [], tr := [] }).onCtx
                    (fun c => { c with ttr := [] })).issuedIn .t).observe))

/-- GATH (R328, R329). -/
def execGath (o : Op.Tc) (s : State) : Host.Outcome State Fault Refusal := .next (s.indexedCopy o true)

/-- SCAT (R328, R329). -/
def execScat (o : Op.Tc) (s : State) : Host.Outcome State Fault Refusal := .next (s.indexedCopy o false)

/-- The request slot of a remote word with so many response buffers: the one it has reserved, or the lowest-numbered free one, reserved from here on
(R30, R397). -/
def State.reserveSlot (s : State) (bufs : Nat) : Option (Fin 8 × State) :=
  let s := match s.ctx.rldHeld with
    | some h => if h.2 = bufs then s else s.onCtx (fun c => c.dropSlot s.cycle)
    | none => s
  match s.ctx.rldHeld with
  | some h => some (h.1, s)
  | none =>
    match s.ctx.freeSlot s.cycle with
    | none => none
    | some j => if s.ctx.rldBufs < bufs then none else some (j, s.onCtx (fun c => { c.takeSlot j bufs with rldHeld := some (j, bufs) }))

/-- The unloaded cycles of a remote word: a load's until its data have arrived (R47), a store's until its acknowledgement. -/
def State.remoteLat (s : State) (load : Bool) (src dst : Nat) : Nat :=
  if load then s.latencyTo s.site src else s.copyLat src dst

/-- RLD and RST (R330), in the order of R397: `load` selects the one. What they have translated at issue their step uses. -/
def State.remoteWord (s : State) (o : Op.Tr) (load : Bool) : State :=
  match s.ctx.await .t o.sync s.cycle with
  | none => s.waitIn .t .channel
  | some c =>
    let s := s.onCtx (fun _ => c)
    let src := s.ctx.getA o.src
    let dst := s.ctx.getA o.dst
    let n := 64 * 2 ^ o.size.val
    let bufs := if load then (if n ≤ 128 then 1 else n / 128) else 1
    if src.toNat % n ≠ 0 then s.faultT .align src.toNat
    else if dst.toNat % n ≠ 0 then s.faultT .align dst.toNat
    else if 2 ^ 52 ≤ src.toNat ∨ inWindow src.toNat = load then s.faultT .prot src.toNat
    else if 2 ^ 52 ≤ dst.toNat ∨ inWindow dst.toNat = !load then s.faultT .prot dst.toNat
    else if !s.ctx.twin.isEmpty || decide (s.cycle < s.ctx.tcommitAt) then s.waitIn .t .window
    else
      match s.xlateMore .t [(.read, src.toNat, n), (.write, dst.toNat, n)] s.ctx.ttr with
      | ((some e, tr), s) => (s.onCtx (fun c => { c with ttr := tr })).failT e
      | ((none, tr), s) =>
          let s := s.onCtx (fun c => { c with ttr := tr })
          let p := (placeOf tr false src.toNat).getD { key := 0, leaf := none }
          let q := (placeOf tr true dst.toNat).getD { key := 0, leaf := none }
          match s.reserveSlot bufs with
          | none => s.waitIn .t .remoteSlot
          | some (j, s) =>
            match s.freePawn with
            | none => s.waitIn .t .pawnEntry
            | some k =>
              let va := if load then dst else src
              let rs := ((s.ownRange va.toNat (va.toNat + n)).toList).map (fun x => (x.1, x.2, load))
              s.rangedT va true rs (fun s =>
                let d := s.contend 8 (if load then q.key else p.key)
                let s := (d.2.addRanges .t s.serial (some k.val) rs).onCtx (fun c => { c with rldHeld := none, ttr := [] })
                let job := if load then PawnJob.rld src dst n bufs else PawnJob.rst src dst n
                ((s.createPawn k
                  { st := .t, eng := .transfer, pri := 0, h := o.h, detach := false, job := job, sync := o.sync
                    due := s.cycle, lead := s.remoteLat load p.key q.key + d.1, rows := 0, draw := false, idx := [j.val]
                    tr := [{ writes := false, va := src.toNat, place := p }, { writes := true, va := dst.toNat, place := q }] }).issuedIn .t).observe)

/-- RLD (R330). -/
def execRld (o : Op.Tr) (s : State) : Host.Outcome State Fault Refusal := .next (s.remoteWord o true)

/-- RST (R330). -/
def execRst (o : Op.Tr) (s : State) : Host.Outcome State Fault Refusal := .next (s.remoteWord o false)

/-! ### Atomics (R331, R332) -/

/-- The ranges that some 4-byte elements touch (R160). -/
def State.elemRanges (s : State) (as : List Nat) (n : Nat) : List (Nat × Nat × Bool) :=
  match as.filterMap (fun a => s.ownRange a (a + n)) with
  | [] => []
  | r :: rest => [(rest.foldl (fun m x => min m x.1) r.1, rest.foldl (fun m x => max m x.2) r.2, true)]

/-- The wait or the trap of a T word whose check of one queue fails: an ILLEGAL that its other queue meets comes first (R263). -/
def State.queueFirst (s : State) (q : Fin 16) (e : QFail) (q2 : Fin 16) (f : Option QFail) : State :=
  if e ≠ .fault .illegal ∧ f = some (.fault .illegal) then s.queueT q2 (.fault .illegal) else s.queueT q e

/-- A member of SACC (R331). -/
def State.saccWord (s : State) (o : Op.Sacc) (fn : Nat) : State :=
  s.tWord o.sync false (fun s =>
    let b := s.ctx.getA o.ra
    match s.ctx.popQ s.cycle .t o.qi 1 with
    | .error e => s.queueFirst o.qi e o.qv (match s.ctx.popQ s.cycle .t o.qv 1 with | .error f => some f | .ok _ => none)
    | .ok (is, c) =>
      match c.popQ s.cycle .t o.qv 1 with
      | .error e => s.queueT o.qv e
      | .ok (vs, c) =>
        if b.toNat % 4 ≠ 0 then s.faultT .align b.toNat
        else if 2 ^ 52 ≤ b.toNat then s.faultT .prot b.toNat
        else
          let idx := (is.headD QEnt.absent).bits
          let val := (vs.headD QEnt.absent).bits
          let as := (saccLanes b.toNat idx val 0 ++ saccLanes b.toNat idx val 32).map (fun e => e.1)
          match s.linesT .atomic as with
          | (.error e, s) => s.failT e
          | (.ok ls, s) =>
              match as.find? (fun a => (saccInt (leafIn ls a)).isNone) with
              | some a => s.faultT .format a
              | none =>
                let rs := s.elemRanges as 4
                s.rangedT b false rs (fun s =>
                  let d := s.contendAll 7 (ls.map (fun l => l.2.key))
                  let s := (d.2.takePops c).addRanges .t s.serial none rs
                  s.issueT (.sacc fn idx val b ls) (s.linesLat ls + d.1) o.sync
                    (is.map (fun e => (o.qi, e)) ++ vs.map (fun e => (o.qv, e))) none))

/-- SACC.ADD (R331). -/
def execSaccAdd (o : Op.Sacc) (s : State) : Host.Outcome State Fault Refusal := .next (s.saccWord o 0)

/-- SACC.MIN (R331). -/
def execSaccMin (o : Op.Sacc) (s : State) : Host.Outcome State Fault Refusal := .next (s.saccWord o 1)

/-- SACC.MAX (R331). -/
def execSaccMax (o : Op.Sacc) (s : State) : Host.Outcome State Fault Refusal := .next (s.saccWord o 2)

/-- SACC.SWAP (R331). -/
def execSaccSwap (o : Op.Sacc) (s : State) : Host.Outcome State Fault Refusal := .next (s.saccWord o 3)

/-- SCAS (R332): under replay the logged old value is pushed and no atomic performed (R211). -/
def execScas (o : Op.Scas) (s : State) : Host.Outcome State Fault Refusal :=
  .next (s.tWord o.sync false (fun s =>
    let a := s.ctx.getA o.ra
    let n := if o.wide then 8 else 4
    match s.ctx.popQ s.cycle .t o.qv 1 with
    | .error e => s.queueFirst o.qv e o.qd (match s.ctx.roomQ s.cycle .t o.qd with | .error f => some f | .ok _ => none)
    | .ok (vs, c) =>
      match c.roomQ s.cycle .t o.qd with
      | .error e => s.queueT o.qd e
      | .ok _ =>
        if a.toNat % n ≠ 0 then s.faultT .align a.toNat
        else if 2 ^ 52 ≤ a.toNat then s.faultT .prot a.toNat
        else
          let entry := (vs.headD QEnt.absent).bits
          let pops := vs.map (fun e => (o.qv, e))
          match s.linesT .atomic [a.toNat] with
          | (.error e, s) => s.failT e
          | (.ok ls, s) =>
            if s.ctx.replaying then
              let logged := (s.replayIndex 4 .t s.ctx.ts.issued).getD 0
              match s.replayTake 4 .t s.ctx.ts.issued with
              | none => s.diverge .t
              | some (old, s) =>
                let hit := decide (old.toNat % 256 ^ n = (wordOf entry 0).toNat % 256 ^ n)
                let s := (s.takePops c).onCtx (fun c => c.reserveQ s.cycle o.qd s.serial s.serial)
                s.issueT (.push o.qd (entryOf 64 [old.toNat, hit.toNat]) logged) (s.linesLat ls) o.sync pops none
            else
              let rs := s.elemRanges [a.toNat] n
              s.rangedT a false rs (fun s =>
                let d := s.contendAll 7 (ls.map (fun l => l.2.key))
                let s := ((d.2.takePops c).addRanges .t s.serial none rs).onCtx (fun c => c.reserveQ s.cycle o.qd s.serial s.serial)
                s.issueT (.scas entry a o.wide o.qd ls) (s.linesLat ls + d.1) o.sync pops none)))

/-! ### Address registers (R333) -/

/-- ADDA (R333). -/
def execAdda (o : Op.Adda) (s : State) : Host.Outcome State Fault Refusal :=
  .next (s.tWord o.sync false (fun s =>
    s.issueT .plain 0 o.sync [] (some (o.dst, s.ctx.getA o.src + o.imm.signExtend 64))))

/-- ADDAR (R333): a pop of one entry. -/
def execAddar (o : Op.Addar) (s : State) : Host.Outcome State Fault Refusal :=
  .next (s.tWord o.sync false (fun s =>
    match s.ctx.popQ s.cycle .t o.src 1 with
    | .error e => s.queueT o.src e
    | .ok (es, c) =>
      let v := s.ctx.getA o.dst + wordOf (es.headD QEnt.absent).bits 0
      (s.takePops c).issueT .plain 0 o.sync (es.map (fun e => (o.src, e))) (some (o.dst, v))))

/-! ### Channels (R113 to R116, R334) -/

/-- A channel of the turn's launch. -/
def State.chan? (s : State) (n : Nat) : Option Chan := s.part.chans.find? (fun c => c.launch == s.launchOf && c.num == n)

/-- The next free slot of a channel in ring order, if one is free (R114). -/
def Chan.freeSlot (c : Chan) : Option Nat :=
  ((List.range c.slots).map (fun i => (c.next + i) % c.slots)).find? (fun j =>
    !c.filling.contains j && !c.filled.contains j && !c.held.any (fun h => h.1 == j))

/-- SEND (R334). -/
def execSend (o : Op.Chan) (s : State) : Host.Outcome State Fault Refusal :=
  .next (s.tWord o.sync true (fun s =>
    let a := s.ctx.getA o.ra
    match s.chan? o.ch.val with
    | none => s.faultT .chan 0
    | some c =>
      if s.logicalOf s.site ≠ some c.sender ∨ s.siteOf c.receiver = none then s.faultT .chan 0
      else if a.toNat % 64 ≠ 0 then s.faultT .align a.toNat
      else if 2 ^ 52 ≤ a.toNat then s.faultT .prot a.toNat
      else
        match c.freeSlot with
        | none => s.waitIn .t .chanSlot
        | some j =>
          match s.freePawn with
          | none => s.waitIn .t .pawnEntry
          | some k =>
            let rs := ((s.ownRange a.toNat (a.toNat + c.size)).toList).map (fun x => (x.1, x.2, false))
            s.rangedT a true rs (fun s =>
              let d := s.contendCopy ((s.peek .t .read a.toNat 64).getD 0) (spKey ((s.siteOf c.receiver).getD 0) (c.base + j * c.size))
              let s := (d.2.addRanges .t s.serial (some k.val) rs).onChan c.launch c.num (fun c =>
                { c with next := (j + 1) % c.slots, filling := c.filling ++ [j] })
              let lat := match s.peek .t .read a.toNat 64 with
                | some key => s.latencyTo s.site key + 14
                | none => 14
              ((s.createPawn k
                { st := .t, eng := .transfer, pri := 0, h := 0, detach := false, job := .send c.num c.launch a j c.size
                  sync := o.sync, due := s.cycle, lead := lat + d.1, rows := 0, draw := false, idx := [], tr := [] }).issuedIn .t).observe)))

/-- The scratchpad-window address of byte b of a context's own share (R118). -/
def State.ownAddr (s : State) (b : Nat) : Word :=
  BitVec.ofNat 64 (0x000FFFFFFF000000 + positionOf s.site * 2 ^ 22 + b)

/-- RECV (R334): the slot held is freed first; then the oldest filled slot is taken. -/
def execRecv (o : Op.Chan) (s : State) : Host.Outcome State Fault Refusal :=
  .next (s.tWord o.sync true (fun s =>
    match s.chan? o.ch.val with
    | none => s.faultT .chan 0
    | some c =>
      if s.logicalOf s.site ≠ some c.receiver ∨ s.siteOf c.sender = none then s.faultT .chan 0
      else
        let s := s.onChan c.launch c.num (fun c => { c with held := c.held.filter (fun h => h.2 != s.turnId) })
        match c.filled with
        | [] => s.waitIn .t .chanSlot
        | j :: _ =>
          if !s.ctx.postRoom .t o.sync then s.waitIn .t .channel
          else
          let s := s.onChan c.launch c.num (fun c => { c with filled := c.filled.drop 1, held := c.held ++ [(j, s.turnId)] })
          s.issueT .plain 0 o.sync [] (some (o.ra, s.ownAddr (c.base + j * c.size)))))

/-! ### Stream control (R335) -/

/-- LOOP of the T stream (R161, R335): the count is a[cnt][31:0]. -/
def execTLoop (o : Op.Loop) (s : State) : Host.Outcome State Fault Refusal :=
  .next (s.tWord o.sync false (fun s =>
    if loopBad s.ctx.ts o.id (o.stm1.val + 1) o.len.val then s.faultT .illegal 0
    else
      let n := (s.ctx.getA o.cnt).toNat % 2 ^ 32
      (s.enterT .plain 0 o.sync [] none).enterLoop .t o.id (o.stm1.val + 1) o.len.val n))

/-- SYNC of the T stream (R335). -/
def execTSync (o : Op.Sync) (s : State) : Host.Outcome State Fault Refusal :=
  .next (s.tWord o.sync false (fun s => s.issueT (.sync o.postC) 0 o.sync [] none))

/-- FENCE of the T stream (R146, R335). -/
def execTFence (o : Op.EFence) (s : State) : Host.Outcome State Fault Refusal :=
  .next (s.tWord o.sync false (fun s =>
    s.fenceWord .t o.before o.after o.scope.val o.sync (State.fenceDone .t o.sync)))

/-- The end of an engine stream: it is idle (R151). -/
def State.endStrm (s : State) (st : Strm) (sync : Fin 8) : State :=
  ((s.issuedIn st).onCtx (fun c => (c.post st sync s.cycle s.serial).onStrm st (fun r => { r with run := false, loops := [], wait := none })))

/-- END of the T stream (R335): every earlier word has committed. -/
def execTEnd (o : Op.EBare) (s : State) : Host.Outcome State Fault Refusal :=
  .next (s.tWord o.sync true (fun s => if s.ctx.postRoom .t o.sync then s.endStrm .t o.sync else s.waitIn .t .channel))

/-- WAITH of the T stream (R335): every earlier word has committed. -/
def execTWaith (o : Op.Waith) (s : State) : Host.Outcome State Fault Refusal :=
  .next (s.tWord o.sync true (fun s => s.waithWord .t o.h (fun s => s.issueT .plain 0 o.sync [] none)))

end Sys2Proof.Machine
end

