-- ==== Sys2Proof/Machine/Matrix.lean ====
section
/-! DEFINITION. The words of the M stream and the steps of its pawns (spec/18_matrix.md, R337 to R349; R231 to R233; R390). -/

namespace Sys2Proof.Machine

/-! ### M words at issue -/

/-- Is an issued M word held by a full channel (R155): the stream stalls at it. -/
def State.retStuck (s : State) : Bool :=
  match s.ctx.zeroing with
  | z :: _ => decide (z.due ≤ s.cycle) && !s.retReady
  | [] => false

/-- An M word met at issue: no earlier post is stuck, and its token is popped once (R155, R156). -/
def State.mWord (s : State) (sync : Fin 8) (f : State → State) : State :=
  if s.retStuck then s.waitIn .m .channel else s.awaited .m sync f

/-- An M word with a register result of latency 1 (R271). -/
def State.mResult (s : State) (sync : Fin 8) (dst : Dest) (v : BitVec 256) : State :=
  if s.ctx.postRoom .m sync then (s.land .m 1 dst v).issuePost .m sync else s.waitIn .m .channel

/-- NSET of a level of the live nest table (R340): the field is written. -/
def execNsetLevel (o : Op.NsetLevel) (s : State) : Host.Outcome State Fault Refusal :=
  .next (s.mWord o.sync (fun s => s.mResult o.sync (.nest (Fin.ofNat 6 o.level.val) o.field) (o.v.setWidth 256)))

/-- NSET that inserts 17 bits into a base register (R340). -/
def execNsetIns (o : Op.NsetIns) (s : State) : Host.Outcome State Fault Refusal :=
  .next (s.mWord o.sync (fun s =>
    s.mResult o.sync (.mb o.mb) ((s.ctx.mb[o.mb] <<< 17 ||| o.v.setWidth 64).setWidth 256)))

/-- NSET of AFMT or BFMT (R340). -/
def execNsetFmt (o : Op.NsetFmt) (s : State) : Host.Outcome State Fault Refusal :=
  .next (s.mWord o.sync (fun s =>
    if 14 ≤ o.v.val then s.faultAt .m .illegal 0 else s.mResult o.sync (.mfmt o.isB) (BitVec.ofNat 256 o.v.val)))

/-! ### Accumulator rows (R337, R343) -/

/-- A row of zeros. -/
def accZeros : List Half := List.replicate 128 0

/-- The elements of an accumulator row. -/
def Context.accRow (c : Context) (r : Nat) : List Half := c.acc.getD r accZeros

/-- Does a row hold INT32 values. -/
def Context.rowIsInt (c : Context) (r : Nat) : Bool := c.rowInt.getD r false

/-- The context with an accumulator row written, and its kind. -/
def Context.setRow (c : Context) (r : Nat) (isInt : Bool) (v : List Half) : Context :=
  { c with acc := c.acc.setD r accZeros v, rowInt := c.rowInt.setD r false isInt }

/-- The 128 rows from row r on, around the bank. -/
def rowWindow (r : Nat) : BitVec 512 := (BitVec.ofNat 512 (2 ^ 128 - 1)).rotateLeft (r % 512)

/-- The rows of tile t. -/
def tileRows (t : Nat) : BitVec 512 := rowWindow (128 * t)

/-- Do rows meet a tile whose zeroing has not ended (R346). -/
def Context.zeroMeets (c : Context) (rows : BitVec 512) : Bool :=
  c.zeroing.any (fun z => match z.tile with
    | some t => tileRows t.val &&& rows != 0
    | none => false)

/-- Do rows meet the set of an M pawn of the context that was issued before a creation number and has not ended (R343). -/
def State.rowsHeld (s : State) (cx : Bool) (serial : Nat) (rows : BitVec 512) : Bool :=
  pawnSlots.any (fun k =>
    let p := s.pawn k
    p.live && !p.state.ended && p.cx == cx && p.eng == .matrix && decide (p.serial < serial) && (p.rows &&& rows != 0))

/-- MZERO (R346): it waits for earlier pawns on its rows and for an earlier zeroing of its tile; its zeroing ends 32 cycles
later. -/
def execMzero (o : Op.Mzero) (s : State) : Host.Outcome State Fault Refusal :=
  .next (s.mWord o.sync (fun s =>
    let rows := tileRows o.t.val
    if s.rowsHeld s.cx s.serial rows || s.ctx.zeroMeets rows then s.waitIn .m .tile
    else
      (s.onCtx (fun c => { c with zeroing := c.zeroing ++ [{ tile := some o.t, due := s.cycle + 32, sync := o.sync, postC := false }] })).issuedIn .m))

/-! ### Nests (R340, R342) -/

/-- The trip count of a level. -/
def NestLevel.trips (l : NestLevel) : Nat := l.trip.toNat + 1

/-- The index vector of a step, the innermost level first. -/
def nestIdx : List NestLevel → Nat → List Nat
  | [], _ => []
  | l :: rest, n => n % l.trips :: nestIdx rest (n / l.trips)

/-- The number of steps of a nest. -/
def nestSteps : List NestLevel → Nat
  | [] => 1
  | l :: rest => l.trips * nestSteps rest

/-- The sum of index times stride over the levels. -/
def nestSum (f : NestLevel → BitVec 17) : List NestLevel → List Nat → Int
  | l :: ls, i :: is => (i : Int) * (f l).toInt + nestSum f ls is
  | _, _ => 0

/-- The lowest and highest sums that the strides of a nest reach. -/
def nestSpan (f : NestLevel → BitVec 17) : List NestLevel → Int × Int
  | [] => (0, 0)
  | l :: rest =>
    let r := nestSpan f rest
    let d : Int := (l.trip.toNat : Int) * (f l).toInt
    (r.1 + min 0 d, r.2 + max 0 d)

/-- The first rows that the steps of a nest reach from those of a set. -/
def nestReach : List NestLevel → BitVec 512 → BitVec 512
  | [], set => set
  | l :: rest, set =>
    nestReach rest ((List.range (min l.trips 512)).foldl
      (fun acc (i : Nat) => acc ||| set.rotateLeft (((i : Int) * l.cs.toInt % 512).toNat)) 0)

/-- The rows that an MGO may touch (R343): the union of its step windows. -/
def nestRows (nest : List NestLevel) (t : Nat) : BitVec 512 :=
  let firsts := nestReach nest (BitVec.ofNat 512 (2 ^ (128 * t)))
  (List.range 128).foldl (fun acc i => acc ||| firsts.rotateLeft i) 0

/-! ### Panels (R338, R339) -/

/-- The elements of a panel line. -/
def panelK (fmt : Nat) : Nat := if fmt = fmtBf16 ∨ fmt = fmtFp16 then 16 else 32

/-- The width of a panel line in bytes. -/
def panelW (fmt : Nat) : Nat := if fmt = fmtMxfp8 then 33 else if fmt = fmtMxfp4 ∨ fmt = fmtInt4x then 17 else 32

/-- The size of a panel in bytes. -/
def panelSize (fmt : Nat) : Nat := 128 * panelW fmt

/-- The exact values of a panel line. -/
def lineVals (fmt : Nat) (bs : List (BitVec 8)) : List Val :=
  if isBlockFmt fmt then
    let els := leNat (bs.drop 1)
    (blockVals fmt ((bs.headD 0).toNat) ((List.range 32).map (fun i => els / 2 ^ (fmtBits fmt * i) % 2 ^ fmtBits fmt))).map (fun v => v.1)
  else
    let els := leNat bs
    (List.range (panelK fmt)).map (fun i => (elemVal fmt (els / 2 ^ (fmtBits fmt * i) % 2 ^ fmtBits fmt)).1)

/-- The lines of a panel, from its bytes. -/
def panelLines (fmt : Nat) : Nat → List (BitVec 8) → List (List Val)
  | 0, _ => []
  | n + 1, bs => lineVals fmt (bs.take (panelW fmt)) :: panelLines fmt n (bs.drop (panelW fmt))

/-- Are formats of an integer panel. -/
def isIntPanel (fmt : Nat) : Bool := fmt == fmtInt8 || fmt == fmtUint8

/-- May a format be an operand of chunks of 32. -/
def isBytePanel (fmt : Nat) : Bool := decide (4 ≤ fmt) && decide (fmt ≤ 10)

/-- The pairing of two effective formats (R339): none is FORMAT, true is row kind I. -/
def pairing (a b : Nat) : Option Bool :=
  if isIntPanel a && isIntPanel b then some true
  else if isBytePanel a && isBytePanel b then some false
  else if (a = fmtBf16 ∨ a = fmtFp16) ∧ (b = fmtBf16 ∨ b = fmtFp16) then some false
  else none

/-- The chunk time (R339). -/
def chunkTime (a b : Nat) : Nat :=
  let half := fun f => f = fmtMxfp4 ∨ f = fmtInt4x
  if half a ∧ half b then 4 else 8

/-- A panel found: where it lies and its effective format. -/
structure Panel where
  place : Place
  fmt : Nat
deriving DecidableEq, Repr

/-- What looking for a panel gives. -/
inductive PanelRes where
  | ok (p : Panel)
  | wait
  | fault (c : Cause)

/-- A panel at a place, for an operand of the given expected format (R339). -/
def panelAt (expect : Nat) (p : Place) : Panel :=
  { place := p, fmt := match p.leaf with | some l => if l.fmt = 0 then expect else l.fmt | none => expect }

/-- The panel at an address for an operand of the given expected format (R338, R339, R342). -/
def State.panel (s : State) (va expect : Nat) (strict : Bool) : PanelRes × State :=
  if 2 ^ 52 ≤ va then (.fault .prot, s)
  else if inWindow va then
    match s.windowKey va (panelSize expect) with
    | .error c => (.fault c, s)
    | .ok key => (.ok { place := { key := key, leaf := none }, fmt := expect }, s)
  else
    match s.xlate .m .operand va 1 with
    | (.wait, s) => (.wait, s)
    | (.fault c, s) => (.fault c, s)
    | (.ok p, s) =>
      match p.leaf with
      | none => (.fault .prot, s)
      | some l =>
        let fmt := (panelAt expect p).fmt
        let n := panelSize fmt
        if strict && fmtConflict expect (some l) then (.fault .format, s)
        else if l.geom = 2 ∨ l.size < va % l.size + n ∨ (isBlockFmt fmt = true ∧ va % l.size % panelW fmt ≠ 0) then (.fault .format, s)
        else
          match s.placeBy l .operand va n with
          | .error c => (.fault c, s)
          | .ok q => (.ok { place := q, fmt := fmt }, s)

/-- Both panels of a step, or why it cannot be made: a wait, or a fault and its address. -/
def State.panels (s : State) (a b afmt bfmt : Nat) (strict : Bool) : Except (Option (Cause × Nat)) (Panel × Panel × Bool) × State :=
  match s.panel a afmt strict with
  | (.wait, s) => (.error none, s)
  | (.fault c, s) => (.error (some (c, a)), s)
  | (.ok pa, s) =>
    match s.panel b bfmt strict with
    | (.wait, s) => (.error none, s)
    | (.fault c, s) => (.error (some (c, b)), s)
    | (.ok pb, s) =>
      match pairing pa.fmt pb.fmt with
      | none => (.error (some (.format, a)), s)
      | some kind => (.ok (pa, pb, kind), s)

/-- The cycles that reading a panel takes (R344): none beyond the chunk time in the own scratchpad and deep slice. -/
def State.panelTime (s : State) (p : Panel) (first : Bool) : Nat :=
  let key := p.place.key
  let n := panelSize p.fmt
  let deep := deepSite key
  if (2 ^ 56 ≤ key ∧ key < 2 ^ 57 ∧ (key - 2 ^ 56) / 2 ^ 22 = s.site) ∨ deep = some s.site then 0
  else
    let rate := if 2 ^ 57 ≤ key ∧ key < 2 ^ 63 then 121 else if deep.isSome then 64 else 512
    (n + rate - 1) / rate + (if first then s.latencyTo s.site key else 0)

/-! ### A step of an MGO (R231 to R233, R342) -/

/-- The exact sum of a chunk (R232). -/
def chunkSum (a b : List Val) : Val :=
  match List.zipWith Val.mul a b with
  | [] => .fin false 0 0
  | p :: ps => ps.foldl (Val.add false) p

/-- The integer that an exact integer value is. -/
def Val.toInt : Val → Int
  | .fin neg m e => if 0 ≤ e then signedAt neg m e 0 else 0
  | _ => 0

/-- An accumulator element after one chunk (R231, R233). -/
def accumulate (isInt fresh : Bool) (old : Half) (sum : Val) : Half :=
  if isInt then (if fresh then 0 else old) + BitVec.ofInt 32 sum.toInt
  else BitVec.ofNat 32 (if fresh then roundFp32 sum else roundFp32 ((fp32.decode old.toNat).add false sum))

/-- A row of the accumulator after one chunk. -/
def accumulateRow (isInt fresh : Bool) (old : List Half) (a : List Val) (bs : List (List Val)) : List Half :=
  List.zipWith (fun o b => accumulate isInt fresh o (chunkSum a b)) old bs

/-- The context with the 128 rows of a window accumulated from row r on; `keep` says which rows are not fresh. -/
def Context.accumulateFrom (c : Context) (isInt : Bool) (keep : BitVec 512) (bs : List (List Val)) : Nat → List (List Val) → Context
  | _, [] => c
  | r, a :: rest =>
    let r := r % 512
    (c.setRow r isInt (accumulateRow isInt (!keep.getLsbD r) (c.accRow r) a bs)).accumulateFrom isInt keep bs (r + 1) rest

/-- The addresses and the first row of a step of a captured nest. -/
def mgoAt (nest : List NestLevel) (a0 b0 : Word) (t pos : Nat) : Nat × Nat × Nat :=
  let idx := nestIdx nest pos
  let at_ := fun (base : Word) (f : NestLevel → BitVec 17) => (base + BitVec.ofInt 64 (64 * nestSum f nest idx)).toNat
  (at_ a0 (fun l => l.as_), at_ b0 (fun l => l.bs), (((128 * t : Nat) : Int) + nestSum (fun l => l.cs) nest idx).emod 512 |>.toNat)

/-- The loops in which a nest runs through the panels of an operand, the outermost first, at a step: trips, stride in bytes, index (R131). -/
def panelLoops (f : NestLevel → BitVec 17) (nest : List NestLevel) (pos : Nat) : List (Nat × Int × Nat) :=
  (List.zipWith (fun l i => (l.trips, 64 * (f l).toInt, i)) nest (nestIdx nest pos)).reverse

/-- Does a panel lie in a scratchpad. -/
def Panel.inScratch (p : Panel) : Bool := decide (2 ^ 56 ≤ p.place.key) && decide (p.place.key < 2 ^ 57)

/-- The bytes of a panel as the M path of the context reads them for the pawn of a creation number: by the requests that bring them (R25, R31). -/
def State.panelBytes (s : State) (serial : Nat) (p : Panel) : List (BitVec 8) :=
  (List.range ((panelSize p.fmt + 511) / 512)).flatMap (fun j =>
    s.readFor 2 serial { p.place with key := p.place.key + 512 * j } (min 512 (panelSize p.fmt - 512 * j)))

/-- A panel read by a requester of the conflict board: the cycles that its lines meet at scratchpad banks (R208). One that carries the multicast bit
and names an address that such a read reached within the last 8 cycles is merged with it: one read of the banks feeds both, with the same bytes, and no
cycle is lost (R37, R345). A read after the window is served alone, and opens a window of its own (DESIGN CHOICE, log 15). -/
def State.readPanel (s : State) (requester : Nat) (mc : Bool) (p : Panel) : Nat × State :=
  let key := p.place.key
  let n := panelSize p.fmt
  let alone := fun (s : State) =>
    if p.inScratch then s.contendAll requester ((List.range ((n + 63) / 64)).map (fun i => key + 64 * i)) else s.contend requester key
  if !mc || !p.inScratch then alone s
  else if s.mcReads.any (fun r => decide (r.1 = key) && decide (s.cycle ≤ r.2.1 + 8)) then (0, s)
  else alone { s with mcReads := (key, s.cycle, s.readPlace 2 p.place n) :: s.mcReads.filter (fun r => decide (s.cycle ≤ r.2.1 + 8)) }

/-- The bytes that the merged read of a panel has given its requesters (R345); none where the panel is read by itself. -/
def State.mergedBytes (s : State) (mc : Bool) (p : Panel) : List (BitVec 8) :=
  if !mc || !p.inScratch then []
  else
    match s.mcReads.find? (fun r => decide (r.1 = p.place.key)) with
    | some r => r.2.2 ++ (s.readPlace 2 p.place (panelSize p.fmt)).drop r.2.2.length
    | none => []

/-- The step of an MGO pawn under way begins (R344): its panels are found, and stand where they are translated to (R134); its time runs, and the pages
of later steps' panels are prefetched. The cycles beyond that time are excused if a cause of R88 delays a panel (R391). -/
def State.mgoBegin (s : State) (k : Fin 64) : State :=
  let p := s.pawn k
  match p.job with
  | .mgo nest a0 b0 t _ afmt bfmt mc strict =>
    let at_ := mgoAt nest a0 b0 t p.pos
    let s := s.prefetchLoops .m at_.1 (panelLoops (fun l => l.as_) nest p.pos) a0.toNat
    let s := s.prefetchLoops .m at_.2.1 (panelLoops (fun l => l.bs) nest p.pos) b0.toNat
    match s.panels at_.1 at_.2.1 afmt bfmt strict with
    | (.error none, s) => s.afterStep k .wait 0
    | (.error (some (c, va)), s) => s.afterStep k (.fault c va) 0
    | (.ok (pa, pb, _), s) =>
      let first := p.pos == 0
      let time := max (chunkTime pa.fmt pb.fmt) (max (s.panelTime pa first) (s.panelTime pb first)) + (if first then 16 else 0)
      let d := s.readPanel 2 mc pa
      let e := d.2.readPanel 3 mc pb
      let s := e.2
      let due := s.cycle + time + max d.1 e.1
      let s := if s.slowKey pa.place.key || s.slowKey pb.place.key then s.onCtx (fun c => c.slowUntil p.serial (s.cycle + time) due) else s
      (s.onPawn k (fun p =>
        { p with state := .running, due := due, panels := [s.mergedBytes mc pa, s.mergedBytes mc pb]
                 tr := [{ writes := false, va := at_.1, place := pa.place }, { writes := false, va := at_.2.1, place := pb.place }] })).onCore
        (fun c => { c with mstep := some k })
  | _ => s

/-- The key of an accumulator row of the context in focus (R189). -/
def State.accKey (s : State) (row : Nat) : Nat := spKey s.site (accOff s.cx + 512 * row)

/-- Is a word in error that holds elements lo to hi of an accumulator row (R191). -/
def State.accBad (s : State) (row lo hi : Nat) : Bool := s.readBad (s.accKey row + 4 * lo) (4 * (hi - lo))

/-- Whole rows of the accumulator written: their words in error are so no longer. -/
def State.accRewrite (s : State) (rows : List Nat) : State := rows.foldl (fun s r => s.rewrite (s.accKey r) 512) s

/-- The rows of a window, in order. -/
def windowRows (row0 : Nat) : List Nat := (List.range 128).map (fun i => (row0 + i) % 512)

/-- The residue check of the next chunk (R193): does it mismatch, and the schedule after it. -/
def State.takeMismatch (s : State) : Bool × State :=
  match s.mismatches with
  | [] => (false, s)
  | m :: rest => (m, { s with mismatches := rest })

/-- The panels of the step that an MGO pawn has begun, with their addresses: A, then B. -/
def Pawn.panelsOf (p : Pawn) : Option ((Nat × Panel) × (Nat × Panel)) :=
  match p.job, p.tr with
  | .mgo _ _ _ _ _ afmt bfmt _ _, [a, b] => some ((a.va, panelAt afmt a.place), (b.va, panelAt bfmt b.place))
  | _, _ => none

/-- The address that the failed request of an MGO's step reports: requests of the A panel are numbered from 0 on, those of the B panel from 64 on. -/
def Pawn.panelAddr (p : Pawn) (pos : Nat) : Nat :=
  match p.panelsOf with
  | some (a, b) => if pos % 2 ^ 20 < 64 then a.1 + 512 * (pos % 2 ^ 20) else b.1 + 512 * (pos % 2 ^ 20 - 64)
  | none => 0

/-- The end of an MGO's step that has failed (R344): the window keeps its values. -/
def State.mgoFail (s : State) (k : Fin 64) (c : Cause) (va : Nat) : State :=
  ((s.onPawn k (fun p => { p with panels := [] })).afterStep k (.fault c va) 0).onCore (fun c => { c with mstep := none })

/-- A mismatch of a chunk's residues (R193): it runs once more, one chunk time later; a second one ends the pawn. -/
def State.mgoMismatch (s : State) (k : Fin 64) (time : Nat) : State :=
  if (s.pawn k).retry then
    (s.onPawn k (fun p => { p with retry := false })).mgoFail k .memerr 0
  else s.onPawn k (fun p => { p with retry := true, due := s.cycle + time })

/-- The step of an MGO pawn is made (R342): all 128 rows of its window at once. A panel that a network has failed or that holds a word in error, an
accumulating step that reads a row in error, and a second mismatch of residues end the pawn; the rows keep their values (R35, R191, R193). -/
def State.mgoFinish (s : State) (k : Fin 64) : State :=
  let p := s.pawn k
  match p.net, p.job, p.panelsOf with
  | some (pos, c), _, _ => s.mgoFail k c (p.panelAddr pos)
  | none, .mgo nest a0 b0 t acc .., some (a, b) =>
    let row0 := (mgoAt nest a0 b0 t p.pos).2.2
    let keep := if acc then BitVec.allOnes 512 else p.covered
    let rows := windowRows row0
    let m := s.takeMismatch
    let bad := fun (q : Nat × Panel) => s.readBad q.2.place.key (panelSize q.2.fmt)
    if bad a then (s.meetBad a.2.place.key (panelSize a.2.fmt)).mgoFail k .memerr a.1
    else if bad b then (s.meetBad b.2.place.key (panelSize b.2.fmt)).mgoFail k .memerr b.1
    else if m.1 then m.2.mgoMismatch k (chunkTime a.2.fmt b.2.fmt)
    else if rows.any (fun r => keep.getLsbD r && s.accBad r 0 128) then m.2.mgoFail k .memerr 0
    else
      let read := fun (i : Nat) (q : Panel) =>
        let merged := p.panels.getD i []
        panelLines q.fmt 128 (if merged.isEmpty then s.panelBytes p.serial q else merged)
      let s' := m.2.accRewrite rows
      let s' := (s'.noteRead a.2.place (panelSize a.2.fmt)).noteRead b.2.place (panelSize b.2.fmt)
      let s' := s'.onCtx (fun c => c.accumulateFrom ((pairing a.2.fmt b.2.fmt).getD false) keep (read 1 b.2) row0 (read 0 a.2))
      let s' := s'.onPawn k (fun p => { p with retry := false, covered := p.covered ||| rowWindow row0, panels := [] })
      ((s'.afterStep k (.made 1 (decide (nestSteps nest ≤ p.pos + 1))) 0).onPawn k (fun p => { p with tr := [] })).onCore
        (fun c => { c with mstep := none })
  | _, _, _ => s.onCore (fun c => { c with mstep := none })

/-! ### Draw slots (R12, R341, R390) -/

/-- The slots that a launch may still take: its declaration, at most the grant, less what it holds or has released in this cycle. -/
def State.launchRoom (s : State) (launch : Word) : Nat :=
  let l := s.part.levels.find? (fun l => l.counter == launch)
  let d := min (match l with | some l => l.draw | none => 1) s.part.grant
  let held := match l with
    | some l => l.drawHeld
    | none => 0
  d - held - (s.part.freed.filter (fun f => decide (f.1 = s.cycle) && f.2 == launch)).length

/-- The slots of the partition's grant that are free: a slot released in this cycle is not. -/
def State.freeSlots (s : State) : Nat :=
  s.part.grant - s.part.held - (s.part.freed.filter (fun f => decide (f.1 = s.cycle))).length

/-- The waiters that so many free slots go to, in the order in which they reached issue; `taken` are the launches served. -/
def serveDraw (room : Word → Nat) : Nat → List Word → List (Nat × Bool × Word) → List (Nat × Bool × Word)
  | _, _, [] => []
  | free, taken, w :: rest =>
    if free = 0 then []
    else if taken.count w.2.2 < room w.2.2 then w :: serveDraw room (free - 1) (w.2.2 :: taken) rest
    else serveDraw room free taken rest

/-- The MGO words of the partition that wait for a draw slot and for nothing else, with their launches, in the order in which they reached issue. A word
that waits for its tile, a pawn entry or a nest copy keeps its place and holds back no other (DEDUCED, log 15). -/
def State.drawWaiters (s : State) : List (Nat × Bool × Word) :=
  s.part.mgoWait.filterMap (fun w =>
    let b := s.boxAt w.1
    let c := b.ctx w.2.1
    match c.turn with
    | some t =>
      if t.id = w.2.2 ∧ c.ms.run = true ∧ c.ms.held = false ∧ b.core.active = w.2.1 ∧ (c.ms.wait = some .drawSlot ∨ c.ms.wait = none) then
        some (w.1, w.2.1, t.launch)
      else none
    | none => none)

/-- The MGO in focus has reached issue: it has its place in the order (R390). -/
def State.reachIssue (s : State) : State :=
  let me := (s.site, s.cx, s.turnId)
  s.onPart (fun p =>
    { p with mgoWait := if p.mgoWait.contains me then p.mgoWait
        else p.mgoWait.filter (fun w => !(w.1 == s.site && w.2.1 == s.cx)) ++ [me] })

/-- Does a free draw slot go to the MGO of the context in focus, which has reached issue and waits for nothing else. -/
def State.drawMine (s : State) : Bool :=
  let s := s.onCtx (fun c => c.onStrm .m (fun r => { r with wait := none }))
  (serveDraw s.launchRoom s.freeSlots [] s.drawWaiters).contains (s.site, s.cx, s.launchOf)

/-- A draw slot taken by the launch of the turn in focus. -/
def State.takeDraw (s : State) : State :=
  (s.onLevel s.launchOf (fun l => { l with drawHeld := l.drawHeld + 1 })).onPart (fun p =>
    { p with held := p.held + 1, mgoWait := p.mgoWait.filter (fun w => !(w.1 == s.site && w.2.1 == s.cx)) })

/-- The first waiter that a free slot goes to and that still stands at its wait. -/
def State.grantee (s : State) : Option (Nat × Bool × Word) :=
  (serveDraw s.launchRoom s.freeSlots [] s.drawWaiters).find? (fun w =>
    decide (((s.boxAt w.1).ctx w.2.1).ms.wait = some .drawSlot))

/-- DRAW_SLOT_GRANT (R390): the first eligible waiter goes to issue. -/
def execDrawSlotGrant (part : Nat) (s : State) : Host.Outcome State Fault Refusal :=
  let s := s.focusPart part
  .next (match s.grantee with
    | none => s
    | some w => (s.focus w.1 w.2.1).onCtx (fun c => c.onStrm .m (fun r => { r with wait := none })))

/-! ### MGO (R341) -/

/-- What some loops of pieces touch between two addresses: from the lowest to the highest byte. -/
def loopsWithin (size lo hi : Int) : List (Nat × Int) → Int → Option (Nat × Nat)
  | [], base => if max base lo < min (base + size) hi then some ((max base lo).toNat, (min (base + size) hi).toNat) else none
  | (n, stride) :: inner, base =>
    let r := loopSpan ((n, stride) :: inner)
    if base + r.2 + size ≤ lo ∨ hi ≤ base + r.1 then none
    else if lo ≤ base + r.1 ∧ base + r.2 + size ≤ hi then some ((base + r.1).toNat, (base + r.2 + size).toNat)
    else (List.range n).foldl (fun acc (i : Nat) => hull acc (loopsWithin size lo hi inner (base + i * stride))) none

/-- The range of the own share that an operand's panels touch (R160, R341). -/
def State.operandRange (s : State) (base : Word) (f : NestLevel → BitVec 17) (nest : List NestLevel) (fmt : Nat) :
    List (Nat × Nat × Bool) :=
  let lo := s.ownBase
  ((loopsWithin (panelSize fmt) lo (lo + 2 ^ 22) (nest.map (fun l => (l.trips, 64 * (f l).toInt))) base.toNat).map
    (fun r => (r.1 - lo, r.2 - lo, false))).toList

/-- The checks of MGO at issue, in the order of R341. -/
def State.mgoFault (s : State) (o : Op.Mgo) (a b : Word) : Option (Cause × Word) :=
  if 6 ≤ o.depm1.val ∨ (o.detach = true ∧ o.h ≠ 0) then some (.illegal, 0)
  else if a.toNat % 64 ≠ 0 then some (.align, a)
  else if b.toNat % 64 ≠ 0 then some (.align, b)
  else if 2 ^ 52 ≤ a.toNat then some (.prot, a)
  else if 2 ^ 52 ≤ b.toNat then some (.prot, b)
  else if s.part.grant = 0 then some (.prot, 0)
  else none

/-- A fault address of an M word. -/
def State.faultM (s : State) (c : Cause) (va : Word) : State := s.faultAt .m c (va &&& 0xFFFFFFFFFFFFF#64)

/-- A pawn of the M stream is created and its word issues, with its ranges entered; a cancel is observed (R95, R160, R164). -/
def State.makePawnM (s : State) (va : Word) (rs : List (Nat × Nat × Bool)) (k : Fin 64) (take : State → State) (n : NewPawn) : State :=
  match s.checkRanges .m true rs with
  | .error none => s.waitIn .m .rangeSlot
  | .error (some r) => s.overlapAt .m r (va &&& 0xFFFFFFFFFFFFF#64) 0
  | .ok _ => ((((take s).addRanges .m s.serial (some k.val) rs).createPawn k n).issuedIn .m).observe

/-- MGO (R341). -/
def execMgo (o : Op.Mgo) (s : State) : Host.Outcome State Fault Refusal :=
  .next (s.mWord o.sync (fun s =>
    let a := s.ctx.mb[o.mba]
    let b := s.ctx.mb[o.mbb]
    match s.mgoFault o a b with
    | some (c, va) => s.faultM c va
    | none =>
      let nest := s.ctx.nest.toList.take (o.depm1.val + 1)
      let rows := nestRows nest o.t.val
      let afmt := s.ctx.mfmt.toNat % 16
      let bfmt := s.ctx.mfmt.toNat / 16
      let s := s.reachIssue
      if s.ctx.zeroMeets rows then s.waitIn .m .tile
      else if 8 ≤ s.ctx.captured then s.waitIn .m .nestCopy
      else
        match s.freePawn with
        | none => s.waitIn .m .pawnEntry
        | some k =>
          if !s.drawMine then s.waitIn .m .drawSlot
          else
          s.makePawnM a (s.operandRange a (fun l => l.as_) nest afmt ++ s.operandRange b (fun l => l.bs) nest bfmt) k
            (fun s => s.takeDraw.onCtx (fun c => { c with captured := c.captured + 1 }))
            { st := .m, eng := .matrix, pri := o.pri.val, h := o.h, detach := o.detach
              job := .mgo nest a b o.t.val o.acc afmt bfmt o.mc s.ctx.strict, sync := o.sync, due := s.cycle, lead := 0
              rows := rows, draw := true, idx := [], tr := [] }))

/-! ### Accumulator copies (R347, R348) -/

/-- The walk of an accumulator copy: the format is EFMT's, RAW elements are 32 bits. -/
def mcWalk (ly : LyRec) (base : Word) : Walking := ly.walkAt base.toNat none 32

/-- The addresses of row r of a walk. -/
def Walking.rowAddrs (w : Walking) (r : Nat) : List Nat :=
  if w.geom = 0 then (List.range w.ly.cols.toNat).flatMap (fun c => w.elemBytes r c)
  else (List.range (w.ly.cols.toNat / 32)).flatMap (fun k => w.blockAddrs r k)

/-- The lines of some addresses on the M path, for the row step of an entry's accumulator copy: places, a wait, or a fault. A step that waits keeps
what it has translated (R132). -/
def State.linesM (s : State) (slot : Fin 64) (k : Acc) (as : List Nat) : Except (Option (Cause × Nat)) (List (Nat × Place)) × State :=
  let ls := linesOf as
  match s.xlateMore .m ((linePieces ls).map (fun l => (k, l.1, l.2))) (s.pawn slot).tr with
  | ((some e, tr), s) => (.error e, s.onPawn slot (fun p => { p with tr := tr }))
  | ((none, tr), s) =>
    (.ok (ls.filterMap (fun va => (placeOf tr k.writes va).map (fun q => (va, q)))), s.onPawn slot (fun p => { p with tr := [] }))

/-- The step end that a failed translation gives. -/
def stepFail : Option (Cause × Nat) → StepEnd
  | none => .wait
  | some (c, va) => .fault c va

/-- The exact value of an accumulator element, as its row's kind says. -/
def accVal (isInt : Bool) (v : Half) : Val := if isInt then .ofInt v.toInt else fp32.decode v.toNat

/-- The bytes that ACC2S stores for row r of a walk (R348). -/
def acc2sWrites (w : Walking) (r : Nat) (isInt : Bool) (row : List Half) : List (Nat × Nat) :=
  if w.geom = 0 then
    (List.range w.ly.cols.toNat).flatMap (fun c =>
      let v := row.getD c 0
      w.elemWrites r c (if w.fmt = 0 then v.toNat else (encodeElem w.fmt .rne true (accVal isInt v)).1))
  else
    (List.range (w.ly.cols.toNat / 32)).flatMap (fun k =>
      let e := encodeBlock w.fmt .rne true ((List.range 32).map (fun i => accVal isInt (row.getD (32 * k + i) 0)))
      w.blockWrites r k e.1 e.2.1)

/-- Is a walk element taken exactly as INT32 (R348). -/
def isIntFmt (fmt : Nat) : Bool := fmt == fmtInt8 || fmt == fmtUint8 || fmt == fmtInt16 || fmt == fmtInt32

/-- What S2ACC puts into an accumulator element (R348). -/
def s2accElem (fmt : Nat) (pattern : Nat) (v : Val) : Half :=
  if fmt = 0 then BitVec.ofNat 32 pattern
  else if isIntFmt fmt then BitVec.ofInt 32 v.toInt
  else BitVec.ofNat 32 (roundTo fp32 .rne false v).1

/-- Does a walk of an accumulator copy break the block rule of R325. -/
def mcFmtBad (w : Walking) : Bool := decide (w.geom ≠ 0) && decide (w.ly.cols.toNat % 32 ≠ 0)

/-- ACC2S: the step of row r. -/
def State.acc2sStep (s : State) (via : Via) (k : Fin 64) (w : Walking) (t r : Nat) : StepEnd × State :=
  match s.linesM k .write (w.rowAddrs r) with
  | (.error e, s) => (stepFail e, s)
  | (.ok lines, s) =>
    if s.accBad (128 * t + r) 0 w.ly.cols.toNat then (.fault .memerr 0, s)
    else
    let bs := acc2sWrites w r (s.ctx.rowIsInt (128 * t + r)) (s.ctx.accRow (128 * t + r))
    match s.partBad lines bs with
    | some va => (.fault .memerr va, s)
    | none => (.made 1 (decide (w.ly.rows.toNat ≤ r + 1)), s.storeBytes via lines bs)

/-- S2ACC: the step of row r. -/
def State.s2accStep (s : State) (via : Via) (k : Fin 64) (w : Walking) (t r : Nat) : StepEnd × State :=
  match s.linesM k .read (w.rowAddrs r) with
  | (.error e, s) => (stepFail e, s)
  | (.ok lines, s) =>
    match s.badLine lines with
    | some va => (.fault .memerr va, s)
    | none =>
      let n := w.ly.cols.toNat
      if n % 2 = 1 ∧ s.accBad (128 * t + r) (n - 1) n = true then (.fault .memerr 0, s)
      else
      let s := s.rewrite (s.accKey (128 * t + r)) (4 * n)
      let old := s.ctx.accRow (128 * t + r)
      let new := (List.range 128).map (fun c =>
        if n ≤ c then old.getD c 0
        else s2accElem w.fmt (if w.geom = 0 then s.elemIn via w lines r c else 0)
          (if w.fmt = 0 then .fin false 0 0 else (s.valueIn via w lines r c).1))
      let kind := if w.fmt = 0 then s.ctx.rowIsInt (128 * t + r) else isIntFmt w.fmt
      (.made 1 (decide (w.ly.rows.toNat ≤ r + 1)), s.onCtx (fun c => c.setRow (128 * t + r) kind new))

/-- ACCMUL: the scale vector, read before the first step (R347). -/
def State.scaleVec (s : State) (via : Via) (k : Fin 64) (w : Walking) : Except (Option (Cause × Nat)) (List Val) × State :=
  match s.linesM k .read (w.addrs 128) with
  | (.error e, s) => (.error e, s)
  | (.ok lines, s) =>
    match s.badLine lines with
    | some va => (.error (some (.memerr, va)), s)
    | none => (.ok ((List.range 128).map (fun k =>
        if w.fmt = 0 then fp32.decode (s.elemIn via w lines (w.rc k).1 (w.rc k).2)
        else (s.valueIn via w lines (w.rc k).1 (w.rc k).2).1)), s)

/-- ACCMUL: the step of row r. -/
def State.accmulStep (s : State) (via : Via) (k : Fin 64) (w : Walking) (t r : Nat) (perCol : Bool) : StepEnd × State :=
  let apply := fun (s : State) (vec : List Val) =>
    let row := 128 * t + r
    if s.accBad row 0 128 then (StepEnd.fault .memerr 0, s)
    else
    let isInt := s.ctx.rowIsInt row
    let new := (s.ctx.accRow row).mapIdx (fun c v =>
      BitVec.ofNat 32 (roundFp32 ((accVal isInt v).mul (vec.getD (if perCol then c else r) (.fin false 0 0)))))
    ((StepEnd.made 1 (decide (128 ≤ r + 1))), s.onCtx (fun x => x.setRow row false new))
  if r = 0 then
    match s.scaleVec via k w with
    | (.error e, s) => (stepFail e, s)
    | (.ok vec, s) => apply (s.onPawn k (fun p => { p with vec := vec })) vec
  else apply s (s.pawn k).vec

/-- A row step of an accumulator copy. -/
def State.mcStep (s : State) (k : Fin 64) : StepEnd × State :=
  let p := s.pawn k
  let via : Via := { path := 2, serial := p.serial }
  let go := fun (ly : LyRec) (base : Word) (rows : Nat) (f : Walking → StepEnd × State) =>
    let w := mcWalk ly base
    if rows ≤ p.pos ∨ ly.cols = 0 then (StepEnd.made 0 true, s)
    else if mcFmtBad w then (.fault .format base.toNat, s)
    else f w
  match p.job with
  | .acc2s base t ly => go ly base ly.rows.toNat (fun w => s.acc2sStep via k w t p.pos)
  | .s2acc base t ly => go ly base ly.rows.toNat (fun w => s.s2accStep via k w t p.pos)
  | .accmul base t ly perCol => go ly base 128 (fun w => s.accmulStep via k w t p.pos perCol)
  | _ => (.made 0 true, s)

/-- The scratchpad lines that a row step of an accumulator copy touches: a row, or the scale vector before the first step (R347). -/
def PawnJob.mcLines (j : PawnJob) (pos : Nat) : List Nat :=
  let row := fun (ly : LyRec) (base : Word) => if ly.cols = 0 ∨ ly.rows.toNat ≤ pos then [] else linesOf ((mcWalk ly base).rowAddrs pos)
  match j with
  | .acc2s base _ ly => row ly base
  | .s2acc base _ ly => row ly base
  | .accmul base _ ly _ => if pos = 0 ∧ ly.cols ≠ 0 then linesOf ((mcWalk ly base).addrs 128) else []
  | _ => []

/-- The extra cycles that a row step meets at scratchpad banks, counted on the board (R208). -/
def State.mcContend (s : State) (j : PawnJob) (pos : Nat) : Nat × State :=
  match (j.mcLines pos).filterMap (fun va => s.peek .m .read va 64) with
  | [] => (0, s)
  | keys => s.contendAll 4 keys

/-- Has an accumulator copy no row to make: it ends at once (R347). -/
def PawnJob.noRows (j : PawnJob) (pos : Nat) : Bool :=
  match j with
  | .acc2s _ _ ly => decide (ly.rows.toNat ≤ pos) || decide (ly.cols = 0)
  | .s2acc _ _ ly => decide (ly.rows.toNat ≤ pos) || decide (ly.cols = 0)
  | _ => false

/-- The rows of its tile that a pawn's next step touches. -/
def Pawn.stepRows (p : Pawn) : BitVec 512 :=
  match p.job with
  | .mgo nest a0 b0 t .. => rowWindow (mgoAt nest a0 b0 t p.pos).2.2
  | .acc2s _ t _ => BitVec.ofNat 512 (2 ^ (128 * t + p.pos))
  | .s2acc _ t _ => BitVec.ofNat 512 (2 ^ (128 * t + p.pos))
  | .accmul _ t _ _ => BitVec.ofNat 512 (2 ^ (128 * t + p.pos))
  | _ => 0

/-- ACC2S, S2ACC and ACCMUL at issue (R347): without rows or columns the pawn ends at once. -/
def State.mcWord (s : State) (sync : Fin 8) (h : Fin 16) (mb t : Fin 4) (ly : LyRec) (pri : Fin 8) (detach shapeBad writes : Bool)
    (used : Nat) (job : Word → PawnJob) : State :=
  let b := s.ctx.mb[mb]
  let rows := tileRows t.val
  if (detach = true ∧ h ≠ 0) ∨ shapeBad = true then s.faultM .illegal 0
  else if b.toNat % 64 ≠ 0 then s.faultM .align b
  else if !inWindow b.toNat then s.faultM .prot b
  else if s.ctx.zeroMeets rows then s.waitIn .m .tile
  else
    match s.freePawn with
    | none => s.waitIn .m .pawnEntry
    | some k =>
      let none_ := (job b).noRows 0
      let d := s.mcContend (job b) 0
      d.2.makePawnM b (s.walkRanges (mcWalk ly b) used writes) k id
        { st := .m, eng := .matrix, pri := pri.val, h := h, detach := detach, job := job b, sync := sync
          due := s.cycle, lead := if none_ then 0 else s.latencyTo s.site ((s.peek .m .read b.toNat 64).getD 0) + d.1, rows := rows, draw := false, idx := [], tr := [] }

/-- Are ROWS or COLS above 128. -/
def LyRec.overTile (ly : LyRec) : Bool := decide (128 < ly.rows.toNat) || decide (128 < ly.cols.toNat)

/-- ACC2S (R347, R348). -/
def execAcc2s (o : Op.Mc) (s : State) : Host.Outcome State Fault Refusal :=
  .next (s.mWord o.sync (fun s =>
    if s.lyBad o.ly then s.faultM .memerr 0
    else
    let ly := s.lyRec o.ly
    s.mcWord o.sync o.h o.mb o.t ly o.pri o.detach ly.overTile true (ly.rows.toNat * ly.cols.toNat) (fun b => .acc2s b o.t.val ly)))

/-- S2ACC (R347, R348). -/
def execS2acc (o : Op.Mc) (s : State) : Host.Outcome State Fault Refusal :=
  .next (s.mWord o.sync (fun s =>
    if s.lyBad o.ly then s.faultM .memerr 0
    else
    let ly := s.lyRec o.ly
    s.mcWord o.sync o.h o.mb o.t ly o.pri o.detach ly.overTile false (ly.rows.toNat * ly.cols.toNat) (fun b => .s2acc b o.t.val ly)))

/-- ACCMUL (R347, R348). -/
def execAccmul (o : Op.Accmul) (s : State) : Host.Outcome State Fault Refusal :=
  .next (s.mWord o.sync (fun s =>
    if s.lyBad o.ly then s.faultM .memerr 0
    else
    let ly := s.lyRec o.ly
    let small := decide (ly.rows.toNat * ly.cols.toNat < 128)
    s.mcWord o.sync o.h o.mb o.t ly o.pri o.detach small false 128 (fun b => .accmul b o.t.val ly o.axis)))

/-! ### Stream control (R349) -/

/-- LOOP of the M stream (R161, R349): the trip count is the low half of a base register. -/
def execMLoop (o : Op.MLoop) (s : State) : Host.Outcome State Fault Refusal :=
  .next (s.mWord o.sync (fun s =>
    if loopBad s.ctx.ms o.id (o.stm1.val + 1) o.len.val then s.faultM .illegal 0
    else if !s.ctx.postRoom .m o.sync then s.waitIn .m .channel
    else
      (s.onCtx (fun c => c.post .m o.sync s.cycle s.serial)).enterLoop .m o.id (o.stm1.val + 1) o.len.val ((s.ctx.mb[o.mb]).toNat % 2 ^ 32)))

/-- SYNC of the M stream (R349): it retires, and posts, when every earlier MZERO has ended. -/
def execMSync (o : Op.Sync) (s : State) : Host.Outcome State Fault Refusal :=
  .next (s.mWord o.sync (fun s =>
    if s.ctx.zeroing.isEmpty && !(s.ctx.postRoom .m o.sync && (!o.postC || s.ctx.tokenRoom (chanIx 2 0))) then s.waitIn .m .channel
    else
      let s := s.onCtx (fun c => { c with zeroing := c.zeroing ++ [{ tile := none, due := s.cycle, sync := o.sync, postC := o.postC }] })
      s.zeroOne.issuedIn .m))

/-- FENCE of the M stream (R146, R349). -/
def execMFence (o : Op.EFence) (s : State) : Host.Outcome State Fault Refusal :=
  .next (s.mWord o.sync (fun s => s.fenceWord .m o.before o.after o.scope.val o.sync (State.fenceDone .m o.sync)))

/-- END of the M stream (R349): it retires as SYNC does. -/
def execMEnd (o : Op.EBare) (s : State) : Host.Outcome State Fault Refusal :=
  .next (s.mWord o.sync (fun s =>
    if !s.ctx.zeroing.isEmpty then s.waitIn .m .tile
    else if s.ctx.postRoom .m o.sync then s.endStrm .m o.sync else s.waitIn .m .channel))

/-- WAITH of the M stream (R349). -/
def execMWaith (o : Op.Waith) (s : State) : Host.Outcome State Fault Refusal :=
  .next (s.mWord o.sync (fun s => s.waithWord .m o.h (fun s => s.issuePost .m o.sync)))

end Sys2Proof.Machine
end

