-- ==== Sys2Proof/Machine/Debug.lean ====
section
/-! DEFINITION. The debug window of a site: halts, steps, and the items that its commands read and write (R195 to R202,
spec/11_debug.md). -/

namespace Sys2Proof.Machine

/-! ### Status (R195, R196) -/

/-- The state with a site's status code. -/
def State.dbgCode (s : State) (site : Nat) (code : Fin 8) : State := s.onDbg site (fun d => { d with code := code })

/-- Is the seal of the partition that owns a site closed (R62, R195). -/
def State.sealedAt (s : State) (site : Nat) : Bool :=
  match (s.boxAt site).core.part with
  | none => false
  | some p => !(s.focusPart p).part.sealOpen

/-- Is a command in progress at a site. -/
def State.dbgBusy (s : State) (site : Nat) : Bool := (s.dbgAt site).code == 5

/-- Rows of bytes: where the first lies, from one to the next, how many, and their length. -/
structure ByteRows where
  base : Nat
  stride : Int
  rows : Nat
  len : Nat
deriving DecidableEq, Repr

/-- Do rows of bytes have one between two addresses. -/
def ByteRows.meets (r : ByteRows) (lo hi : Nat) : Bool := (rowsWithin r.base r.stride r.rows r.len lo hi).isSome

/-- The virtual rows that a pawn writes to. -/
def PawnJob.dests : PawnJob → List ByteRows
  | .copy _ d rows n _ _ => [⟨d.base.toNat, d.ly.rstride.toInt, rows, d.ly.rowSpan n⟩]
  | .gath d n _ _ idx => [⟨d.base.toNat, d.ly.rstride.toInt, idx.length, d.ly.rowSpan n⟩]
  | .scat _ n _ _ idx => (idx.filter (fun w => w != 0)).map (fun w => ⟨w.toNat, 0, 1, n⟩)
  | .rld _ d n _ => [⟨d.toNat, 0, 1, n⟩]
  | .acc2s b _ ly => [⟨b.toNat, ly.rstride.toInt, ly.rows.toNat, ly.rowSpan (ly.cols.toNat * 4)⟩]
  | .coll _ _ params buf _ => [⟨buf.toNat, 0, 1, params.toNat % 2 ^ 32⟩]
  | _ => []

/-- The first address of a position of the scratchpad window (R118). -/
def windowPos (i : Nat) : Nat := 0x000FFFFFFF000000 + i * 2 ^ 22

/-- Does a pawn of a core write into the share of context cx of a site. -/
def State.targets? (s : State) (from_ : Nat) (p : Pawn) (site : Nat) (cx : Bool) : Bool :=
  p.live && !p.state.ended &&
  match p.job with
  | .send chan launch .. =>
    !cx && s.part.chans.any (fun c => c.launch == launch && c.num == chan && s.siteOf c.receiver == some site)
  | job => p.cx == cx && ([0, 1, 2, 3] : List Nat).any (fun i => siteAt (clusterOf from_) i == site &&
      job.dests.any (fun r => r.meets (windowPos i) (windowPos (i + 1))))

/-- No pawn that has not ended targets a context's share (R196, R201). At a site whose core runs no partition the bit reads 0, its value after reset
(DESIGN CHOICE, log 17). -/
def State.quiet (s : State) (site : Nat) (cx : Bool) : Bool :=
  (s.boxAt site).core.part.isSome &&
  let s := match (s.boxAt site).core.part with
    | some p => s.focusPart p
    | none => s
  s.sites.all (fun i => !(s.boxAt i).core.pawns.toList.any (fun p => s.targets? i p site cx))

/-- DBGSTAT (R196). -/
def State.dbgStat (s : State) (site : Nat) : Nat :=
  let b := s.boxAt site
  (s.dbgAt site).code.val + 8 * b.a.halted.toNat + 16 * b.b.halted.toNat + 32 * (s.quiet site false).toNat + 64 * (s.quiet site true).toNat

/-- A command to a context, unless one is in progress or the seal is closed. -/
def State.command (s : State) (site : Nat) (cx : Bool) (f : State → State) : State :=
  if s.dbgBusy site then s
  else if s.sealedAt site then s.dbgCode site 2
  else f (s.focus site cx)

/-- As command, for what needs the context halted: else NOTHALTED. -/
def State.haltedCommand (s : State) (site : Nat) (cx : Bool) (f : State → State) : State :=
  s.command site cx (fun s => if s.ctx.halted then f s else s.dbgCode site 3)

/-! ### HALT and RESUME (R199, R201) -/

/-- The engine streams of a stopped context held where they stand. -/
def Context.holdAll (c : Context) : Context :=
  let f := fun (r : StreamSt) => if r.run then { r with held := true, holdReq := true, wait := none } else r
  { c with ts := f c.ts, ms := f c.ms, vs := f c.vs }

/-- The step that a debugger asked for ends; the context halts again. -/
def State.endStep (s : State) (now : Nat) : State :=
  let s := s.onCtx (fun c => { (c.pauseC now).holdAll with stepOf := none })
  (s.dbgCode s.site 0).trace 0xB .c ((s.dbgCode s.site 0).dbgStat s.site)

/-- Does the unit of the step in progress wait at issue. -/
def Context.stepWaits (c : Context) : Bool :=
  match c.stepOf with
  | none => false
  | some x => (c.strm x.st).wait.isSome

/-- DBG_HALT (R199, R202): a halt is requested; it ends a step whose word waits at issue, and leaves that unissued. -/
def execDbgHalt (site : Nat) (cx : Bool) (s : State) : Host.Outcome State Fault Refusal :=
  .next (if s.sealedAt site then (if s.dbgBusy site then s else s.dbgCode site 2)
    else
      let v := s.focus site cx
      if v.ctx.stepWaits then v.endStep v.cycle
      else s.command site cx (fun s => (if s.ctx.halted then s else s.requestHalt).dbgCode site 0))

/-- Has a requested halt of the focused context reached its stop points. -/
def State.haltLands (s : State) : Bool :=
  s.ctx.haltReq && s.ctx.retire.isNone && !s.core.stopping && (s.core.active != s.cx || s.ctx.turn.isNone || s.ctx.enginesStopped s.cycle)

/-- Has the step of the focused context issued its unit, or can it issue none; a step of an engine stream ends when its results have landed, as a halt
does (R159, R200), and with STEPDRAIN when the end of its pawns is reported (R202). -/
def State.stepDone (s : State) : Bool :=
  match s.ctx.stepOf with
  | none => false
  | some x =>
    let r := s.ctx.strm x.st
    (decide (r.issued ≠ x.issued) && (x.st == .c || r.bound) || s.ctx.tip != x.tip || !r.run || r.held || s.ctx.turn.isNone ||
      s.ctx.retire.isSome) &&
    (x.st == .c || s.ctx.engineLanded s.cycle) &&
    !(s.ctx.dbgctl.getLsbD 1 && s.core.pawns.toList.any (fun p => p.live && !p.state.ended && p.cx == s.cx && decide (x.serial ≤ p.serial)))

/-- DEBUG_HALT_LAND (R199, R202): the context stops issuing, or a step ends. -/
def execDebugHaltLand (site : Nat) (cx : Bool) (s : State) : Host.Outcome State Fault Refusal :=
  let s := s.focus site cx
  .next (if s.ctx.stepOf.isSome then (if s.stepDone then s.endStep (s.cycle + 1) else s)
    else if !s.haltLands then s
    else
      let live := s.core.active == s.cx && s.ctx.turn.isSome
      let s := s.onCtx (fun c => { (if live then c.pauseC s.cycle else c).holdAll with halted := true, haltReq := false })
      s.trace 0xB .c (s.dbgStat site))

/-- The context as a RESUME leaves it: a breakpoint at the words it stands at does not fire again before they issue (DEDUCED, log 17). -/
def Context.resumed (c : Context) : Context :=
  let f := fun (r : StreamSt) => { r with bpSkip := true }
  let c := { c with halted := false, haltReq := false, cs := f c.cs, ts := f c.ts, ms := f c.ms, vs := f c.vs }
  c.resumeEngines

/-- DBG_RESUME (R199). -/
def execDbgResume (site : Nat) (cx : Bool) (s : State) : Host.Outcome State Fault Refusal :=
  .next (s.haltedCommand site cx (fun s => (s.onCtx Context.resumed).dbgCode site 0))

/-- DBG_STEP (R202): the stream may issue one unit; CODE reads INPROG until it has. -/
def execDbgStep (site : Nat) (cx : Bool) (st : Strm) (s : State) : Host.Outcome State Fault Refusal :=
  .next (s.haltedCommand site cx (fun s =>
    let x : StepSt := { st := st, issued := (s.ctx.strm st).issued, tip := s.ctx.tip, serial := s.serial }
    (s.onCtx (fun c => { c.onStrm st (fun r => { r with held := false, holdReq := false, wait := none, bpSkip := true }) with
      stepOf := some x })).dbgCode site 5))

/-- DBG_BADCMD (R196). -/
def execDbgBadcmd (site : Nat) (s : State) : Host.Outcome State Fault Refusal :=
  .next (if s.dbgBusy site then s else if s.sealedAt site then s.dbgCode site 2 else s.dbgCode site 4)

/-! ### Items (R197) -/

/-- What a debug access answers: an item, or a status code. -/
inductive DbgAns where
  | item (v : Nat)
  | status (code : Fin 8)
deriving DecidableEq, Repr

/-- The landing buffer of the stop at which the context stands: the program's, or within a handler the handler's (R159). -/
def Context.stopBuf (c : Context) : List LandSave := if c.tip then c.hbuf else c.lbuf

/-- The context with that buffer changed. -/
def Context.onStopBuf (c : Context) (f : List LandSave → List LandSave) : Context :=
  if c.tip then { c with hbuf := f c.hbuf } else { c with lbuf := f c.lbuf }

/-- The register number of a destination. -/
def Dest.regNo : Dest → Nat
  | .x r => r.val
  | .p r => r.val
  | .b r _ _ => r.val
  | .a r => r.val
  | .s r => r.val
  | .m r => r.val
  | .mb r => r.val
  | _ => 0

/-- A destination with its register number replaced. -/
def Dest.withNo (d : Dest) (n : Nat) : Dest :=
  match d with
  | .x _ => .x (Fin.ofNat 32 n)
  | .p _ => .p (Fin.ofNat 8 n)
  | .b _ k t => .b (Fin.ofNat 8 n) k t
  | .a _ => .a (Fin.ofNat 16 n)
  | .s _ => .s (Fin.ofNat 16 n)
  | .m _ => .m (Fin.ofNat 8 n)
  | .mb _ => .mb (Fin.ofNat 4 n)
  | d => d

/-- Is a tile within the rows of a pawn of the focused context that has not ended (R197, R343). -/
def State.tileBusy (s : State) (t : Nat) : Bool := s.rowsHeld s.cx s.serial (tileRows t)

/-- The micro-position of a pawn as numbers (R163). -/
def Pawn.position (p : Pawn) : List Nat :=
  match p.job with
  | .mgo nest .. => nestIdx nest p.pos ++ [p.pos]
  | .rld .. | .rst .. => [p.pos]
  | _ => p.pos :: p.idx

/-- Item k of a pawn entry. -/
def Pawn.item (p : Pawn) (k : Nat) : Nat :=
  match k with
  | 1 => p.frec.toNat
  | 0 => (Config.dbgItem 12 0 [p.live.toNat, p.state.code, (p.owner.map (fun i => i.toNat)).getD 0, strmCode p.st, p.pri,
      (p.handle.map (fun h => h.val)).getD 0]).toNat
  | k => (Config.dbgItem 12 k p.position).toNat

/-- Item k of an event's entry. -/
def EvEnt.item (e : EvEnt) (k : Nat) : Nat :=
  match k with
  | 0 => (Config.dbgItem 13 0 [e.counting.toNat, e.state.toNat]).toNat
  | 5 => (Config.dbgItem 13 5 (e.overflow.map (fun w => w.1.turn.record.toNat))).toNat
  | 6 => e.overflow.length
  | k => (Config.dbgItem 13 k ((e.waiters[k - 1]?).toList.map (fun w => w.1.turn.record.toNat))).toNat

/-- A number for what a stream waits on. -/
def WaitOn.number : WaitOn → List Nat
  | .queue q => [1, q.val]
  | .channel => [2]
  | .tokens => [3]
  | .cend => [4]
  | .chanSlot => [5]
  | .pawnEntry => [6]
  | .overflow => [7]
  | .drawSlot => [8]
  | .spill => [9]
  | .rangeSlot => [10]
  | .fetch => [11]
  | .translation => [12]
  | .fence => [13]
  | .token k => [14, k.val]
  | .owned r => [15, r.val]
  | .landing => [16]
  | .divide => [17]
  | .branch => [18]
  | .window => [19]
  | .nestCopy => [20]
  | .tile => [21]
  | .remoteSlot => [22]
  | .cell => [23]
  | .shootdown => [24]
  | .release => [25]
  | .drain => [26]
  | .ready => [27]
  | .waith h => [28, h.toNat]

/-- Item k of a stream's position. -/
def StreamSt.item (r : StreamSt) (k : Nat) : Nat :=
  match k with
  | 0 => r.pc.toNat
  | 1 => (Config.dbgItem 14 1 (r.loops.flatMap (fun l => [l.id.val, l.mask]))).toNat
  | 2 => match r.loops with
    | [] => 0
    | l :: _ => l.iter
  | _ => (Config.dbgItem 14 3 (match r.wait with | some w => w.number | none => [0])).toNat

/-- The stream of a code. -/
def strmOf (n : Nat) : Strm := if n = 0 then .c else if n = 1 then .t else if n = 2 then .m else .v

/-- The bits of an item of n items of a register space, or BADCMD. -/
def itemOf {n : Nat} (i : Nat) (f : Fin n → Nat) : DbgAns := if h : i < n then .item (f ⟨i, h⟩) else .status 4

/-- Is a byte in the share of the context in focus: B has none in single mode (R118). -/
def State.inShare (s : State) (off : Nat) : Bool := decide (off < s.shareSize) && !(s.part.single && s.cx)

/-- The item of a space that READ moves. -/
def State.dbgRead (s : State) (space : Fin 16) (i : Nat) : DbgAns :=
  let c := s.ctx
  match space.val with
  | 0 => itemOf i (fun (r : Fin 32) => (c.getX r).toNat)
  | 1 => itemOf i (fun (r : Fin 8) => (c.getP r).toNat)
  | 2 => itemOf i (fun (r : Fin 8) => c.b[r].val.toNat)
  | 3 => itemOf i (fun (r : Fin 16) => (c.getA r).toNat)
  | 4 => itemOf i (fun (r : Fin 4) => c.mb[r].toNat)
  | 5 => itemOf i (fun (r : Fin 16) => c.s[r].toNat)
  | 6 => itemOf i (fun (r : Fin 32) => (c.getM (Fin.ofNat 8 (r.val / 4))).toNat / 2 ^ (64 * (r.val % 4)) % 2 ^ 64)
  | 7 => itemOf i (fun (r : Fin 16) => (c.getH r).toNat)
  | 8 =>
    if 2048 ≤ i then .status 4
    else
      match (c.q[Fin.ofNat 16 (i / 128)]).ents[i / 32 % 4]? with
      | none => .status 4
      | some e => .item (laneOf e.bits 64 (i % 32))
  | 9 =>
    if 16 ≤ i then .status 4
    else
      match c.stopBuf[i / 2]? with
      | none => .item 0
      | some e => .item (if i % 2 = 0 then e.val.toNat % 2 ^ 64 else e.dst.regNo + e.remain % 256 * 256 + e.valid.toNat * 65536)
  | 10 =>
    if 32768 ≤ i then .status 4
    else if s.tileBusy (i / 8192) then .status 1
    else
      let row := c.accRow (i / 64)
      .item ((row.getD (i % 64 * 2) 0).toNat + (row.getD (i % 64 * 2 + 1) 0).toNat * 2 ^ 32)
  | 11 => if h : i < 4096 then (if listedRegister ⟨i, h⟩ then .item (s.crrValue i).toNat else .status 4) else .status 4
  | 12 => itemOf i (fun (r : Fin 256) => (s.pawn (Fin.ofNat 64 (r.val / 4))).item (r.val % 4))
  | 13 =>
    if 32768 ≤ i ∨ i % 8 = 7 then .status 4
    else
      match s.part.events.find? (i / 8) with
      | some e => .item (e.item (i % 8))
      | none => .item (Config.dbgItem 13 (i % 8) []).toNat
  | 14 => itemOf i (fun (r : Fin 16) => (c.strm (strmOf (r.val / 4))).item (r.val % 4))
  | _ => if !s.inShare (8 * i) then .status 4 else .item (s.readKey (spKey s.site (shareBase s.cx + 8 * i)) 8)

/-- The state after an access to the scratchpad share, which counts on the board as the debug requester. -/
def State.dbgTouch (s : State) (space : Fin 16) (i : Nat) : State :=
  if space = 15 ∧ s.inShare (8 * i) = true then (s.contend 9 (spKey s.site (shareBase s.cx + 8 * i))).2 else s

/-- READ done: the item is in DBGDLO and DBGDHI, or the status says why not. -/
def State.dbgAnswer (s : State) (site : Nat) : DbgAns → State
  | .status c => s.dbgCode site c
  | .item v => s.onDbg site (fun d => { d with lo := BitVec.ofNat 32 v, hi := BitVec.ofNat 32 (v / 2 ^ 32), code := 0 })

/-- DBG_READ (R197): a halt is needed but in spaces 12 and 13. -/
def execDbgRead (site : Nat) (cx : Bool) (space : Fin 16) (s : State) : Host.Outcome State Fault Refusal :=
  let go := fun (s : State) =>
    let i := (s.dbgAt site).idx.toNat
    (s.dbgTouch space i).dbgAnswer site (s.dbgRead space i)
  .next (if space = 12 ∨ space = 13 then s.command site cx go else s.haltedCommand site cx go)

/-- 64 bits of a wider value replaced. -/
def setPart {w : Nat} (old : BitVec w) (i : Nat) (v : Word) : BitVec w :=
  mergeBits old (v.setWidth w <<< (64 * i)) ((BitVec.allOnes 64).setWidth w <<< (64 * i))

/-- A write of a control register as a supervisor's CRW makes it. -/
def State.dbgCtl (s : State) (i : Nat) (v : Word) : Option State × Fin 8 :=
  if h : i < 4096 then
    if !listedRegister ⟨i, h⟩ || crwNever i || (decide (i = 0x017) && decide (v.toNat % 4 = 3)) then (none, 4)
    else if (i = 0x015 ∨ i = 0x017) ∧ s.part.busy = true then (none, 1)
    else (some (s.writeCtl i v), 0)
  else (none, 4)

/-- An entry that holds nothing yet. What a debugger makes of it lands in an x register: the item gives no register file (DESIGN CHOICE,
log 17). -/
def LandSave.empty : LandSave := { remain := 0, dst := .x 0, val := 0, valid := false }

/-- The landing buffer with item k of entry i written (R197, R200). -/
def writeLand (l : List LandSave) (i k : Nat) (v : Word) : List LandSave :=
  let l := l ++ List.replicate (i + 1 - l.length) LandSave.empty
  match l[i]? with
  | none => l
  | some e =>
    if k = 0 then l.set i { e with val := v.setWidth 256 }
    else l.set i { e with dst := e.dst.withNo (v.toNat % 32), remain := v.toNat / 256 % 256, valid := v.getLsbD 16 }

/-- The landing buffer with entry i removed (R200): the others keep their numbers. -/
def dropLand (l : List LandSave) (i : Nat) : List LandSave := l.modify i (fun e => { e with valid := false })

/-- The context with item i of a register space written. -/
def Context.dbgSet (c : Context) (space i : Nat) (v : Word) : Context :=
  match space with
  | 0 => c.setX (Fin.ofNat 32 i) v
  | 1 => c.setP (Fin.ofNat 8 i) (v.getLsbD 0)
  | 2 => { c with b := c.b.set (Fin.ofNat 8 i) { val := v, ready := none, byPbr := false } }
  | 3 => c.setA (Fin.ofNat 16 i) v
  | 4 => { c with mb := c.mb.set (Fin.ofNat 4 i) v }
  | 5 => { c with s := c.s.set (Fin.ofNat 16 i) (v.setWidth 32) }
  | 6 => c.setM (Fin.ofNat 8 (i / 4)) (setPart (c.getM (Fin.ofNat 8 (i / 4))) (i % 4) v)
  | 7 => { c.setH (Fin.ofNat 16 i) (v.setWidth 16) with hwas := c.hwas.filter (fun e => e.1 != Fin.ofNat 16 i) }
  | _ => c

/-- The number of items of a register space. -/
def spaceSize : Nat → Nat
  | 0 => 32
  | 1 => 8
  | 2 => 8
  | 3 => 16
  | 4 => 4
  | 5 => 16
  | 6 => 32
  | _ => 16

/-- The item of a space that WRITE moves: the state after it if the write is made, and the status (R197, R200). -/
def State.dbgWrite (s : State) (space : Fin 16) (i : Nat) (v : Word) : Option State × Fin 8 :=
  if space.val ≤ 7 then
    if spaceSize space.val ≤ i then (none, 4)
    else if space = 0 ∧ s.ctx.ownedX (Fin.ofNat 32 i) = true then (none, 1)
    else (some (s.onCtx (fun c => c.dbgSet space.val i v)), 0)
  else
    match space.val with
    | 8 =>
      let q := Fin.ofNat 16 (i / 128)
      if 2048 ≤ i ∨ (s.ctx.q[q]).ents.length ≤ i / 32 % 4 then (none, 4)
      else
        -- an entry whose push has not landed holds zeros, and the landing no longer replaces it (DESIGN CHOICE, log 17)
        let put := fun (e : QEnt) => { e with data := some (setPart (e.data.getD 0) (i % 32) v) }
        (some (s.onCtx (fun c => { c with q := c.q.set q { c.q[q] with ents := c.q[q].ents.modify (i / 32 % 4) put } })), 0)
    | 9 => if 16 ≤ i then (none, 4) else (some (s.onCtx (fun c => c.onStopBuf (fun l => writeLand l (i / 2) (i % 2) v))), 0)
    | 10 =>
      if 32768 ≤ i then (none, 4)
      else if s.tileBusy (i / 8192) then (none, 1)
      else
        let r := i / 64
        let row := ((s.ctx.accRow r).set (i % 64 * 2) (v.setWidth 32)).set (i % 64 * 2 + 1) ((v >>> 32).setWidth 32)
        (some (s.onCtx (fun c => c.setRow r (c.rowIsInt r) row)), 0)
    | 11 => s.dbgCtl i v
    | 15 =>
      if !s.inShare (8 * i) then (none, 4)
      else (some (s.writeKey (spKey s.site (shareBase s.cx + 8 * i)) 8 v.toNat), 0)
    | _ => (none, 4)

/-- DBG_WRITE (R197, R200). -/
def execDbgWrite (site : Nat) (cx : Bool) (space : Fin 16) (s : State) : Host.Outcome State Fault Refusal :=
  .next (s.haltedCommand site cx (fun s =>
    let d := s.dbgAt site
    let r := (s.dbgTouch space d.idx.toNat).dbgWrite space d.idx.toNat (d.hi ++ d.lo)
    ((r.1).getD s).dbgCode site r.2))

/-- DBG_DROP (R200): the landing-buffer entry that INDEX names is removed. -/
def execDbgDrop (site : Nat) (cx : Bool) (s : State) : Host.Outcome State Fault Refusal :=
  .next (s.haltedCommand site cx (fun s =>
    let i := (s.dbgAt site).idx.toNat
    if 8 ≤ i then s.dbgCode site 4 else (s.onCtx (fun c => c.onStopBuf (fun l => dropLand l i))).dbgCode site 0))

/-! ### Writes to the window (R196) -/

/-- The state a meaning answers with. -/
def nextOf (s : State) : Host.Outcome State Fault Refusal → State
  | .next t => t
  | _ => s

/-- A write to DBGCMD: the command starts. -/
def State.writeDbgcmd (s : State) (site : Nat) (v : BitVec 32) : State :=
  let cx := v.getLsbD 3
  let space := Fin.ofNat 16 (v.toNat / 16)
  nextOf s (match v.toNat % 8 with
    | 1 => execDbgHalt site cx s
    | 2 => execDbgResume site cx s
    | 3 => execDbgStep site cx (strmOf (v.toNat / 256 % 4)) s
    | 4 => execDbgRead site cx space s
    | 5 => execDbgWrite site cx space s
    | 6 => execDbgDrop site cx s
    | _ => execDbgBadcmd site s)

/-- A write to a register of a site's debug window. -/
def State.writeDbg (s : State) (site reg : Nat) (v : BitVec 32) : State :=
  match reg with
  | 0 => s.writeDbgcmd site v
  | 4 => s.onDbg site (fun d => { d with idx := v })
  | 8 => s.onDbg site (fun d => { d with lo := v })
  | 12 => s.onDbg site (fun d => { d with hi := v })
  | _ => s

/-! ### Breakpoints (R203) -/

/-- Does a breakpoint of the focused context fire at a stream that is about to issue. -/
def State.bpDue (s : State) (st : Strm) : Bool := s.streamReady st && !s.ctx.haltReq && s.bpFires st

/-- BREAKPOINT_FIRE (R203): the context halts, or traps with BKPT. -/
def execBreakpointFire (site : Nat) (cx : Bool) (st : Strm) (s : State) : Host.Outcome State Fault Refusal :=
  let s := s.focus site cx
  .next (if !s.bpDue st then s
    else if s.ctx.dbgctl.getLsbD 2 then s.requestHalt
    else if st = .c then s.trapWord .bkpt 0
    else s.faultAt st .bkpt 0)

end Sys2Proof.Machine
end

