-- ==== Sys2Proof/Machine/Power.lean ====
section
/-! DEFINITION. Sensors, power, draw grants, and writes to the management registers (spec/01_package.md, R12 to R17; R4, R44, R61,
R192; MTRBASE of R206). -/

namespace Sys2Proof.Machine

/-! ### Droop and temperature (R14 to R16) -/

/-- A context whose cycles are excused to a point. -/
def Context.excuse (c : Context) (to_ : Nat) : Context := { c with excuseTo := max c.excuseTo to_ }

/-- Every core of a die changed, with its contexts. -/
def State.onDieContexts (s : State) (die : Nat) (f : CoreBox → CoreBox) : State :=
  let g := fun (site : Nat) (b : CoreBox) => if dieOf site = die then f b else b
  let here := g s.site s.hereBox
  let s := { s with cores := s.cores.map (fun (e : Nat × CoreBox) => (e.1, g e.1 e.2)) }
  s.putBox s.site here

/-- A cycle that lies ahead, n cycles later. -/
def laterBy (now n t : Nat) : Nat := if now < t then t + n else t

/-- A stream whose readiness lies ahead, n cycles later. -/
def StreamSt.shift (r : StreamSt) (now n : Nat) : StreamSt := { r with readyAt := laterBy now n r.readyAt }

/-- A destination in flight whose clock stands still for n cycles: a prefetch that has started runs so much later (R274). -/
def Dest.shift (d : Dest) (now n : Nat) : Dest :=
  match d with
  | .b r true start => .b r true (laterBy now n (start + 6) - 6)
  | d => d

/-- A context whose clock stands still for n cycles: all that its die counts falls due so much later, so fixed latencies keep their relative
order (R14). -/
def Context.shift (c : Context) (now n : Nat) : Context :=
  { c with
    landing := c.landing.map (fun l => { l with due := l.due + n, dst := l.dst.shift now n })
    vpend := c.vpend.map (fun v => { v with due := v.due + n })
    zeroing := c.zeroing.map (fun z => { z with due := z.due + n })
    divBusy := laterBy now n c.divBusy
    b := c.b.map (fun r => { r with ready := r.ready.map (laterBy now n) })
    cs := c.cs.shift now n, ts := c.ts.shift now n, ms := c.ms.shift now n, vs := c.vs.shift now n }

/-- The pawns and engines of a core whose clock stands still for n cycles. -/
def Core.shift (k : Core) (now n : Nat) : Core :=
  { k with
    pawns := k.pawns.map (fun p => { p with due := laterBy now n p.due })
    xferCycle := laterBy now n k.xferCycle, mcCycle := laterBy now n k.mcCycle }

/-- The rack controllers of a die whose clock stands still for n cycles: the focused partition's operations at its racks there apply and settle so
much later (R14, R101). -/
def State.shiftRacks (s : State) (die n : Nat) : State :=
  let here := fun (k : Nat) => match s.part.racks.find? k with
    | some r => decide (r.home / 9 = die)
    | none => false
  let tok := fun (t : Option TokPend) => t.map (fun t => match t.op with
    | .rack _ k _ _ => if here k then { t with due := laterBy s.cycle n t.due } else t
    | _ => t)
  let hit := fun (b : CoreBox) => { b with a := { b.a with tok := b.a.tok.map tok }, b := { b.b with tok := b.b.tok.map tok } }
  (s.part.cores.foldl (fun s e => s.putCoreOf e.1 (hit (s.coreOf e.1))) s).onPart (fun p =>
    { p with rackops := p.rackops.map (fun o => if here o.rack then { o with apply := o.apply + n } else o) })

/-- DROOP_TRIGGER (R14): MCLK of the die stretches for 32 to 256 cycles, which are excused, and DROOPCNT counts. -/
def execDroopTrigger (die cycles : Nat) (s : State) : Host.Outcome State Fault Refusal :=
  let to_ := s.cycle + max 32 (min 256 cycles)
  let full := BitVec.allOnes 24
  .next (match s.dies.toList[die]? with
    | none => s
    | some d =>
      if 8 ≤ die ∧ die < 16 then s
      else
        let n := to_ - max s.cycle d.stretchTo
        let s := { s with dies := atIndex s.dies die (fun d =>
          { d with droop := if d.droop = full then full else d.droop + 1, stretchTo := max d.stretchTo to_, lost := d.lost + n }) }
        if 8 ≤ die then s
        else
          let s := s.onDieContexts die (fun b =>
            { core := b.core.shift s.cycle n, a := (b.a.shift s.cycle n).excuse to_, b := (b.b.shift s.cycle n).excuse to_ })
          let pid := s.pid
          (s.livePids.foldl (fun s p => (s.focusPart p).shiftRacks die n) s).focusPart pid)

/-- COLUMN_SAMPLE (R15): TALLOW is refreshed. -/
def execColumnSample (site : Nat) (temp : BitVec 10) (s : State) : Host.Outcome State Fault Refusal :=
  let allow := min 255 (4 * s.tlimit.toNat - temp.toNat)
  .next { s with columns := atIndex s.columns site (fun c => { c with temp := temp, allow := BitVec.ofNat 8 allow }) }

/-- A stack's monitor after a sample (R16), in units of 0.25 °C. A sample at or above 95 °C while HOT is set sets HOTSEEN again after software has
cleared it: whether it does the text does not say (DESIGN CHOICE, log 15). -/
def Stack.sample (k : Stack) (temp : BitVec 10) : Stack :=
  let t := temp.toNat
  { k with
    temp := temp
    ref2x := if 340 < t then true else if t ≤ 332 then false else k.ref2x
    hot := if 380 ≤ t then true else if t < 372 then false else k.hot
    hotseen := k.hotseen || decide (380 ≤ t)
    run := if 380 ≤ t then k.run + 1 else 0 }

/-- HBM_STACK_SAMPLE (R16): refresh, throttle and HOT; setting HOT interrupts the service cores. -/
def execHbmStackSample (stack : Nat) (temp : BitVec 10) (s : State) : Host.Outcome State Fault Refusal :=
  .next (match s.hbm.toList[stack]? with
    | none => s
    | some k =>
      let k' := k.sample temp
      let s := { s with hbm := atIndex s.hbm stack (fun _ => k') }
      if k'.hot && !k.hot then s.notify (.hotInterrupt stack) else s)

/-- Has a stack completed 10 ms of consecutive samples at or above 95 °C: 1,000 samples of 10 µs (DEDUCED, log 15). -/
def Stack.reportDue (k : Stack) : Bool := decide (1000 ≤ k.run)

/-- HOT_STACK_REPORT (R16): the stack is reported, and the count of samples begins again. -/
def execHotStackReport (stack : Nat) (s : State) : Host.Outcome State Fault Refusal :=
  .next (match s.hbm.toList[stack]? with
    | none => s
    | some k =>
      if !k.reportDue then s
      else ({ s with hbm := atIndex s.hbm stack (fun k => { k with run := 0, reports := k.reports + 1 }) }).notify (.hotReport stack))

/-! ### Draw ceiling and grants (R12) -/

/-- The sum of the grants of all partitions. -/
def State.grants (s : State) : Nat := (s.parts.drop s.pid).foldl (fun n e => n + e.2.grant) s.part.grant

/-- A write to DRAWCEIL: CEIL clamped or refused, CEILERR cleared by 1 and set by a refusal. -/
def State.writeDrawceil (s : State) (v : BitVec 32) : State :=
  let ceil := min 280 (v.toNat % 512)
  let err := s.ceilErr && !v.getLsbD 9
  if ceil < s.grants then { s with ceilErr := true } else { s with drawceil := BitVec.ofNat 9 ceil, ceilErr := err }

/-- DRAWCEIL_WRITE (R12). -/
def execDrawceilWrite (v : BitVec 32) (s : State) : Host.Outcome State Fault Refusal := .next (s.writeDrawceil v)

/-- The MGO words of the partition in focus that wait for a slot trap with PROT (R12). -/
def State.trapWaiters (s : State) : State :=
  (s.part.mgoWait.filter (fun w => decide ((s.boxAt w.1).core.part = some s.pid) &&
    (match ((s.boxAt w.1).ctx w.2.1).turn with | some t => decide (t.id = w.2.2) | none => false) &&
    decide (((s.boxAt w.1).ctx w.2.1).ms.wait = some .drawSlot))).foldl
    (fun s w => (s.focus w.1 w.2.1).faultM .prot 0) s

/-- DRAWG_GRANT_WRITE (R12): refused when the sum of the grants would pass CEIL. -/
def execDrawgGrantWrite (part grant : Nat) (s : State) : Host.Outcome State Fault Refusal :=
  let s := s.focusPart part
  .next (if !s.part.live then s
    else if s.drawceil.toNat < s.grants - s.part.grant + grant then { s with ceilErr := true }
    else
      let s := s.onPart (fun p => { p with grant := grant })
      if grant = 0 then s.trapWaiters else s)

/-! ### Ring oscillators (R17) -/

/-- A write to RING: SEL, and GO starts a measurement. -/
def State.writeOsc (s : State) (die : Nat) (v : BitVec 32) : State :=
  { s with dies := atIndex s.dies die (fun d => { d with ringSel := (v >>> 16).setWidth 2, ringBusy := d.ringBusy || v.getLsbD 18 }) }

/-- RING_MEASURE_START (R17). -/
def execRingMeasureStart (die : Nat) (v : BitVec 32) (s : State) : Host.Outcome State Fault Refusal := .next (s.writeOsc die v)

/-- RING_MEASURE_DONE (R17). -/
def execRingMeasureDone (die : Nat) (count : BitVec 16) (s : State) : Host.Outcome State Fault Refusal :=
  .next { s with dies := atIndex s.dies die (fun d => if d.ringBusy then { d with ringCount := count, ringBusy := false } else d) }

/-! ### The chip number (R44) -/

/-- A write to MYINC: the first sets CHIP and CLOCK. -/
def State.writeMyinc (s : State) (v : BitVec 32) : State :=
  if s.clock then s else { s with chip := (v >>> 16).setWidth 6, clock := true }

/-- MYINC_CHIP_WRITE (R44). -/
def execMyincChipWrite (v : BitVec 32) (s : State) : Host.Outcome State Fault Refusal := .next (s.writeMyinc v)

/-! ### Management registers (R17, R44, R192, R206) -/

/-- TLIMIT as a write stores it (R17). -/
def limitOf (v : BitVec 32) : BitVec 8 := BitVec.ofNat 8 (max 70 (min 105 (v.toNat % 256)))

/-- A write to PEERA: INC and VALID are written, LOST clears where 1 is written (R44). -/
def Peer.writeA (p : Peer) (v : BitVec 32) : Peer :=
  { p with inc := v.setWidth 16, valid := v.getLsbD 16, lost := p.lost && !v.getLsbD 18 }

/-- A half of a 64-bit register replaced. -/
def putHalf (old : Word) (hi : Bool) (v : BitVec 32) : Word :=
  if hi then mergeBits old (v.setWidth 64 <<< 32) 0xFFFFFFFF00000000#64 else mergeBits old (v.setWidth 64) 0xFFFFFFFF#64

/-- An entry of a retirement list whose V is cleared: UC and LINE, which are read only, stay (R4, R192). -/
def MemCtl.clearV (m : MemCtl) (i : Nat) : MemCtl :=
  match m.list.find? i with
  | some e => { m with list := m.list.put i { e with v := false } }
  | none => m

/-- MERR as a write leaves it: CE and UE clear where 1 is written (R192). -/
def MemCtl.write (m : MemCtl) (v : BitVec 32) : MemCtl :=
  { m with ce := m.ce &&& ~~~(v.setWidth 16), ue := m.ue &&& ~~~((v >>> 16).setWidth 8) }

/-- The state in which a 32-bit management register is written: RW fields take the value, RW1C bits clear where 1 is written, the
rest is unchanged (R4). Registers whose writes have an effect of their own take it. -/
def State.writeMgmt (s : State) (off : Nat) (v : BitVec 32) : State :=
  if 0x40000 ≤ off ∧ off < 0x40030 then
    { s with hbm := atIndex s.hbm ((off - 0x40000) / 4) (fun k => { k with hotseen := k.hotseen && !v.getLsbD 12 }) }
  else if 0x40600 ≤ off ∧ off < 0x40648 then
    { s with dies := atIndex s.dies ((off - 0x40600) / 4) (fun d => { d with droop := d.droop &&& ~~~(v.setWidth 24) }) }
  else if 0x40680 ≤ off ∧ off < 0x406C8 then s.writeOsc ((off - 0x40680) / 4) v
  else if off = 0x40800 then s.writeDrawceil v
  else if off = 0x40804 then { s with tlimit := limitOf v }
  else if 0x40A00 ≤ off ∧ off < 0x40A78 then
    { s with memctl := atIndex s.memctl ((off - 0x40A00) / 4) (fun m => m.write v) }
  else if 0x41000 ≤ off ∧ off < 0x42E00 then
    if off % 8 = 0 ∧ v.getLsbD 0 = true then
      { s with memctl := atIndex s.memctl ((off - 0x41000) / 256) (fun m => m.clearV ((off - 0x41000) % 256 / 8)) }
    else s
  else if 0x50000 ≤ off ∧ off < 0x50200 then
    { s with peers := atIndex s.peers ((off - 0x50000) / 8) (fun p => if off % 8 = 0 then p.writeA v else { p with ports := v.setWidth 18 }) }
  else if off = 0x50200 then s.writeMyinc v
  else if 0x50210 ≤ off ∧ off < 0x50240 then
    let n := (off - 0x50210) / 16
    match off % 16 with
    | 0 => { s with radius := atIndex s.radius n (fun _ => v.setWidth 4) }
    | 4 => { s with smask := atIndex s.smask n (fun w => putHalf w false v) }
    | 8 => { s with smask := atIndex s.smask n (fun w => putHalf w true v) }
    | _ => s
  else if 0x60000 ≤ off ∧ off < 0x62400 then s.writeDbg ((off - 0x60000) / 32) (off % 32) v
  else if off = 0x64000 ∨ off = 0x64004 then
    { s with mtrbase := clearRing (writeRing s.mtrbase (putHalf s.mtrbase (decide (off = 0x64004)) v) 6) }
  else s

/-- MGMT_REGISTER_WRITE (R4). -/
def execMgmtRegisterWrite (off : Nat) (v : BitVec 32) (s : State) : Host.Outcome State Fault Refusal :=
  .next (if off % 4 = 0 then s.writeMgmt off v else s)

/-! ### Reading the management registers (R17, R44, R192, R196, R206) -/

/-- HTEMP as a read gives it (R17). -/
def Stack.word (k : Stack) : Nat := k.temp.toNat + 2 ^ 10 * k.ref2x.toNat + 2 ^ 11 * k.hot.toNat + 2 ^ 12 * k.hotseen.toNat

/-- CTEMP as a read gives it (R17). -/
def Column.word (c : Column) : Nat := c.temp.toNat + 2 ^ 10 * c.allow.toNat + 2 ^ 18 * c.spare.toNat + 2 ^ 19 * c.retired.toNat

/-- RING as a read gives it (R17): GO is write only. -/
def Die.ringWord (d : Die) : Nat := d.ringCount.toNat + 2 ^ 16 * d.ringSel.toNat + 2 ^ 19 * d.ringBusy.toNat

/-- MERR as a read gives it (R192): FULL while every entry is valid. -/
def MemCtl.word (m : MemCtl) : Nat := m.ce.toNat + 2 ^ 16 * m.ue.toNat + 2 ^ 24 * ((List.range 32).all m.valid).toNat

/-- Entry i of a retirement list as a read gives it (R192). -/
def MemCtl.entry (m : MemCtl) (i : Nat) : Nat :=
  match m.list.find? i with
  | none => 0
  | some e => e.v.toNat + 2 * e.uc.toNat + e.line / 64 % 2 ^ 46 * 64

/-- PEERA as a read gives it (R44): UP with a port of PORTS in service. -/
def Peer.word (p : Peer) (served : Bool) : Nat :=
  p.inc.toNat + 2 ^ 16 * p.valid.toNat + 2 ^ 17 * (p.up && served).toNat + 2 ^ 18 * p.lost.toNat

/-- A half of a 64-bit register. -/
def halfOf (v : Nat) (hi : Bool) : Nat := if hi then v / 2 ^ 32 % 2 ^ 32 else v % 2 ^ 32

/-- What a read of a 32-bit management register gives: write-only and reserved bits read 0 (R4). A read changes nothing. -/
def State.readMgmt (s : State) (off : Nat) : Nat :=
  if 0x40000 ≤ off ∧ off < 0x40030 then (s.hbm.toList[(off - 0x40000) / 4]?.map Stack.word).getD 0
  else if 0x40100 ≤ off ∧ off < 0x40580 then (s.columns.toList[(off - 0x40100) / 4]?.map Column.word).getD 0
  else if 0x40600 ≤ off ∧ off < 0x40648 then (s.dies.toList[(off - 0x40600) / 4]?.map (fun d => d.droop.toNat)).getD 0
  else if 0x40680 ≤ off ∧ off < 0x406C8 then (s.dies.toList[(off - 0x40680) / 4]?.map Die.ringWord).getD 0
  else if off = 0x40800 then s.drawceil.toNat + 2 ^ 9 * s.ceilErr.toNat
  else if off = 0x40804 then s.tlimit.toNat
  else if 0x40A00 ≤ off ∧ off < 0x40A78 then (s.memctl.toList[(off - 0x40A00) / 4]?.map MemCtl.word).getD 0
  else if 0x41000 ≤ off ∧ off < 0x42E00 then
    halfOf ((s.memctl.toList[(off - 0x41000) / 256]?.map (fun m => m.entry ((off - 0x41000) % 256 / 8))).getD 0) (decide (off % 8 = 4))
  else if 0x50000 ≤ off ∧ off < 0x50200 then
    (s.peers.toList[(off - 0x50000) / 8]?.map (fun p => if off % 8 = 0 then p.word (s.served p) else p.ports.toNat)).getD 0
  else if off = 0x50200 then s.myInc.toNat + 2 ^ 16 * s.chip.toNat + 2 ^ 22 * s.clock.toNat
  else if 0x50210 ≤ off ∧ off < 0x50240 then
    let n := (off - 0x50210) / 16
    match off % 16 with
    | 0 => (s.radius.toList[n]?.map (fun r => r.toNat)).getD 0
    | 4 => halfOf ((s.smask.toList[n]?.map (fun w => w.toNat)).getD 0) false
    | 8 => halfOf ((s.smask.toList[n]?.map (fun w => w.toNat)).getD 0) true
    | _ => 0
  else if 0x60000 ≤ off ∧ off < 0x62400 then
    let d := s.dbgAt ((off - 0x60000) / 32)
    match off % 32 with
    | 4 => d.idx.toNat
    | 8 => d.lo.toNat
    | 12 => d.hi.toNat
    | 16 => s.dbgStat ((off - 0x60000) / 32)
    | _ => 0
  else if off = 0x64000 ∨ off = 0x64004 then halfOf s.mtrbase.toNat (decide (off = 0x64004))
  else 0

/-! ### Trips (R61) -/

/-- THERMAL_TRIP (R61): a column at 110 °C or a stack at 100 °C stops all package clocks. -/
def execThermalTrip (temp : BitVec 10) (isStack : Bool) (s : State) : Host.Outcome State Fault Refusal :=
  .next (if (if isStack then 400 else 440) ≤ temp.toNat then { s with power := .tripped } else s)

/-- POWER_TRIP (R61): input above 8.0 kW averaged over 50 µs. -/
def execPowerTrip (watts : Nat) (s : State) : Host.Outcome State Fault Refusal :=
  .next (if 8000 < watts then { s with power := .tripped } else s)

end Sys2Proof.Machine
end

