-- ==== Sys2Proof/Machine/Collective.lean ====
section
/-! DEFINITION. Collectives between cores and chips: validation, contributions, exchange steps, results (R46, R48, R49, R311 to R313). -/

namespace Sys2Proof.Machine

/-! ### Descriptors (R48, R311, R313) -/

/-- The member chips of a descriptor. -/
def descChips (d : List (BitVec 8)) : List Nat := bitsOf 64 (leNat (d.take 8))

/-- The member logical cores of a descriptor. -/
def descCores (d : List (BitVec 8)) : List Nat := bitsOf 280 (leNat ((d.drop 8).take 35))

/-- The element format code and the operation of a descriptor. -/
def descFmt (d : List (BitVec 8)) : Nat × Nat := ((d.getD 43 0).toNat, (d.getD 44 0).toNat)

/-- What the parameter word of a collective says: COUNT, SCOPE, ROOT. -/
def collParams (params : Word) : Nat × Nat × Nat :=
  (params.toNat % 2 ^ 32, params.toNat / 2 ^ 32 % 8, params.toNat / 2 ^ 40 % 65536)

/-- Is a collective of member fn on a descriptor one that R48 and R313 let run, issued by logical core `me`. A COUNT against R311, a chip
that is no member, and a ROOT outside BCAST are refused likewise (DEDUCED, log 16). -/
def State.collOk (s : State) (fn : Nat) (d : List (BitVec 8)) (params : Word) (me : Nat) : Bool :=
  let (count, scope, root) := collParams params
  let chips := descChips d
  let cores := descCores d
  let n := chips.length * cores.length
  let (fmt, op) := descFmt d
  (d.drop 45).all (fun b => b == 0) && decide (leNat ((d.drop 8).take 35) < 2 ^ 280) &&
  (fn == 1 || fn == 2 || fn == 4 || ((fmt == fmtFp32 || fmt == fmtBf16 || fmt == fmtInt32) && decide (op < 3))) &&
  decide (4 ≤ scope) && chips.all (fun c => (s.scopeChips scope).getLsbD c) &&
  chips.contains s.chip.toNat && cores.contains me &&
  decide (params.toNat / 2 ^ 35 % 32 = 0) && decide (params.toNat / 2 ^ 59 = 0) &&
  (if fn = 1 then decide (root < n) else decide (root = 0)) &&
  (if fn = 4 then decide (count = 0) else decide (count % 64 = 0) && decide (0 < count))

/-- The member number of a logical core of this chip. -/
def State.memberOf (s : State) (c : Coll) (core : Nat) : Nat := memberIx c.chips c.cores s.chip.toNat core

/-- The members of a collective. -/
def Coll.members (c : Coll) : Nat := c.chips.length * c.cores.length

/-- Where in its buffer a member's contribution lies, and its length (R312). -/
def Coll.reads (c : Coll) (ix : Nat) : Nat × Nat :=
  match c.fn with
  | 0 => (0, c.count)
  | 1 => (0, if ix = c.root then c.count else 0)
  | 2 => (ix * c.count, c.count)
  | 3 => (0, c.members * c.count)
  | _ => (0, 0)

/-- Where in its buffer a member's result lies, where in the collective's value it starts, and its length (R312). A broadcast's root holds
its result already: its buffer is only read. -/
def Coll.writes (c : Coll) (ix : Nat) : Nat × Nat × Nat :=
  match c.fn with
  | 0 => (0, 0, c.count)
  | 1 => (0, 0, if ix = c.root then 0 else c.count)
  | 2 => (0, 0, c.members * c.count)
  | 3 => (ix * c.count, ix * c.count, c.count)
  | _ => (0, 0, 0)

/-! ### Combining (R49) -/

/-- round(lower + higher), or the smaller or larger value, of two elements. -/
def combineElem (fmt op a b : Nat) : Nat :=
  if fmt = fmtInt32 then saccMerge op true a [b]
  else if fmt = fmtBf16 then
    if op = 0 then (roundTo bf16 .rne false ((bf16.decode a).add false (bf16.decode b))).1
    else fp32Pick (decide (op = 2)) (a * 65536) (b * 65536) / 65536
  else saccMerge op false a [b]

/-- The bytes of an element of a reducible format. -/
def elemBytes (fmt : Nat) : Nat := if fmt = fmtBf16 then 2 else 4

/-- Vectors of elements combined, the lower rank's first. -/
def combineBytes (fmt op : Nat) : Nat → List (BitVec 8) → List (BitVec 8) → List (BitVec 8)
  | 0, _, _ => []
  | n + 1, a, b =>
    let w := elemBytes fmt
    leBytes w (combineElem fmt op (leNat (a.take w)) (leNat (b.take w))) ++ combineBytes fmt op n (a.drop w) (b.drop w)

/-- Bytes of a value replaced from an offset on. -/
def putBytes (v : List (BitVec 8)) (off : Nat) (bs : List (BitVec 8)) : List (BitVec 8) := v.take off ++ bs ++ v.drop (off + bs.length)

/-- What the chip holds once every local member has contributed (R49): the combination in ascending logical core, the root's buffer, or
the local segments in their places. -/
def State.collLocal (s : State) (c : Coll) : List (BitVec 8) :=
  let (fmt, op) := descFmt c.desc
  match c.fn with
  | 1 =>
    match c.cores.find? (fun k => decide (s.memberOf c k = c.root)) with
    | some k => c.arrived.getD k []
    | none => List.replicate c.count 0
  | 2 => c.cores.foldl (fun v k => putBytes v (s.memberOf c k * c.count) (c.arrived.getD k [])) (List.replicate (c.members * c.count) 0)
  | 4 => []
  | _ =>
    match c.cores.map (fun k => c.arrived.getD k []) with
    | [] => []
    | v :: rest => rest.foldl (fun a b => combineBytes fmt op (a.length / elemBytes fmt) a b) v

/-- The largest power of two that is at most m. -/
def powerBelow (m : Nat) : Nat := if m = 0 then 1 else 2 ^ m.log2

/-- The exchange steps of rank r among m chips that bring it data (R49): the partner's rank, with the distance bit of a step among the
first k ranks. -/
def exchangePlan (m r : Nat) : List (Nat × Option Nat) :=
  let k := powerBelow m
  if k ≤ r then [(r - k, none)]
  else (if r + k < m then [(r + k, none)] else []) ++ (List.range k.log2).map (fun j => (r ^^^ 2 ^ j, some j))

/-- The ranks whose contributions the data of a step holds: after a fold all of them; before it the folded rank's own; at distance bit j
the partner's group of 2^j ranks and what was folded into them. -/
def stepRanks (m r : Nat) (e : Nat × Option Nat) : List Nat :=
  let k := powerBelow m
  match e.2 with
  | none => if k ≤ r then List.range m else [e.1]
  | some j =>
    let base := (List.range k).filter (fun q => decide (q / 2 ^ j = e.1 / 2 ^ j))
    base ++ (base.map (fun q => q + k)).filter (fun q => decide (q < m))

/-- The value after a step's data has come in. -/
def State.collMerge (s : State) (c : Coll) (e : Nat × Option Nat) (data : List (BitVec 8)) : List (BitVec 8) :=
  let m := c.chips.length
  let r := c.chips.idxOf s.chip.toNat
  let ranks := stepRanks m r e
  let (fmt, op) := descFmt c.desc
  match c.fn with
  | 1 => if ranks.contains (c.root / c.cores.length) then data else c.value
  | 2 =>
    let size := c.cores.length * c.count
    ranks.foldl (fun v q => putBytes v (q * size) ((data.drop (q * size)).take size)) c.value
  | 4 => []
  | _ =>
    if powerBelow m ≤ r then data
    else
      let n := c.value.length / elemBytes fmt
      if e.1 < r then combineBytes fmt op n data c.value else combineBytes fmt op n c.value data

/-- The state with a collective changed. -/
def State.onColl (s : State) (id : Nat) (f : Coll → Coll) : State :=
  { s with colls := s.colls.map (fun c => if c.id = id then f c else c) }

/-- A collective whose local members have all contributed: the chip's value stands, and with one chip it is the result. -/
def State.collGather (s : State) (c : Coll) : Coll :=
  if c.cores.all (fun k => match c.arrived.find? k with
      | some bs => decide (bs.length = (c.reads (s.memberOf c k)).2)
      | none => false) && decide (c.exchange = 0) then
    { c with value := s.collLocal c, ready := (exchangePlan c.chips.length (c.chips.idxOf s.chip.toNat)).isEmpty, exchange := 1 }
  else c

/-- Has a collective its local value: `exchange` then counts the steps made, from 1. -/
def Coll.gathered (c : Coll) : Bool := decide (0 < c.exchange)

/-- The bytes that the flits of an exchange step bring (R312). -/
def Coll.stepSize (c : Coll) : Nat :=
  match c.fn with
  | 0 => c.count
  | 1 => c.count
  | 2 => c.members * c.count
  | 3 => c.members * c.count
  | _ => 0

/-- A collective refused: every member here faults with PROT (R313). -/
def Coll.refuse (c : Coll) : Coll := { c with fault := some (c.fault.getD .prot) }

/-- COLLECTIVE_EXCHANGE_STEP (R49): the data of the next step that the chip's rank awaits. Flits that do not fit come from a chip whose members disagree
or have been refused, and fault the members here with PROT (R313; that such a chip shows itself so is a DESIGN CHOICE, log 16). -/
def execCollectiveExchangeStep (coll : Nat) (data : List (BitVec 8)) (s : State) : Host.Outcome State Fault Refusal :=
  .next (match s.colls.find? (fun c => c.id == coll) with
    | none => s
    | some c =>
      let plan := exchangePlan c.chips.length (c.chips.idxOf s.chip.toNat)
      if c.ready || c.fault.isSome then s
      else if data.length ≠ c.stepSize then s.onColl coll Coll.refuse
      else if !c.gathered then s
      else
        match plan[c.exchange - 1]? with
        | none => s
        | some e =>
          s.onColl coll (fun c =>
            { c with value := s.collMerge c e data, exchange := c.exchange + 1, ready := decide (plan.length ≤ c.exchange) }))

/-- The collectives in progress that a chip takes part in fault with a cause at every member that waits (R49). -/
def State.failColls (s : State) (chip : Nat) (cause : Cause) : State :=
  { s with colls := s.colls.map (fun c =>
      if c.chips.contains chip && !c.ready && c.fault.isNone then { c with fault := some cause } else c) }

/-! ### The steps of a collective's pawn (R49, R313, R163) -/

/-- One 64-byte line of the T path read, for a step. -/
def State.collLine (s : State) (va : Nat) : Except StepEnd (List (BitVec 8)) × State :=
  match s.xlate .t .read va 64 with
  | (.wait, s) => (.error .wait, s)
  | (.fault c, s) => (.error (.fault c va), s)
  | (.ok p, s) => if s.readBad p.key 64 then (.error (.fault .memerr va), s.meetBad p.key 64) else (.ok (s.readPlace 1 p 64), s.noteRead p 64)

/-- A member reaches the other chips of its collective as any access to a peer does (R49, R138): the first that cannot be reached decides. -/
def State.collGate (s : State) (va : Nat) (chips : List Nat) : XRes × State :=
  match chips with
  | [] => (.ok { key := 0, leaf := none }, s)
  | chip :: rest =>
    match s.chipGate .t va chip with
    | (.ok _, s) => s.collGate va rest
    | r => r

/-- The first step: the descriptor is read and checked, and the member joins its operation; what R313 refuses at one member faults it at all of
them, and the other member chips are told. -/
def State.collJoin (s : State) (k : Fin 64) (fn : Nat) (desc params : Word) (number : Nat) : StepEnd × State :=
  match s.collLine desc.toNat with
  | (.error e, s) => (e, s)
  | (.ok d, s) =>
    let me := (s.logicalOf s.site).getD 0xFFFF
    let (count, _, root) := collParams params
    let same := fun (c : Coll) => c.part == s.pid && c.desc == d && c.number == number
    let fresh : Coll :=
      { id := s.serial, part := s.pid, desc := d, number := number, fn := fn, count := count, root := root, chips := descChips d,
        cores := descCores d, arrived := [], value := [], exchange := 0, ready := false, fault := none }
    let s := if s.colls.any same then s else ({ s with colls := s.colls ++ [fresh] }).bump
    match s.colls.find? same with
    | none => (.wait, s)
    | some c =>
      if s.collOk fn d params me = false ∨ c.fn ≠ fn ∨ c.count ≠ count ∨ c.root ≠ root then
        (.fault .prot 0, (c.chips.filter (· ≠ s.chip.toNat)).foldl (fun s q => s.notify (.collRefused q number)) (s.onColl c.id Coll.refuse))
      else
        match s.collGate desc.toNat (c.chips.filter (· ≠ s.chip.toNat)) with
        | (.ok _, s) =>
          let r := (c.reads (s.memberOf c me)).2
          let s := s.onColl c.id (fun c => let c := { c with arrived := c.arrived.put me [] }; s.collGather c)
          (.made 0 false, s.onPawn k (fun p => { p with idx := [r, c.id] }))
        | (.fault e, s) => (.fault e 0, s.onColl c.id (fun c => { c with fault := some e }))
        | (.wait, s) => (.wait, s)

/-- One line of a member's contribution read. -/
def State.collRead (s : State) (c : Coll) (me ix : Nat) (buf : Word) (pos : Nat) : StepEnd × State :=
  match s.collLine (buf.toNat + (c.reads ix).1 + pos) with
  | (.error e, s) => (e, s)
  | (.ok bs, s) =>
    (.made 64 false, s.onColl c.id (fun c =>
      let c := { c with arrived := c.arrived.put me (c.arrived.getD me [] ++ bs) }
      s.collGather c))

/-- One line of a member's result written. -/
def State.collWrite (s : State) (serial : Nat) (c : Coll) (ix : Nat) (buf : Word) (pos : Nat) : StepEnd × State :=
  let (at_, from_, n) := c.writes ix
  if n ≤ pos then (.made 0 true, s)
  else
    let va := buf.toNat + at_ + pos
    match s.xlate .t .write va 64 with
    | (.wait, s) => (.wait, s)
    | (.fault e, s) => (.fault e va, s)
    | (.ok q, s) =>
      if s.writeBad q.key 64 then (.fault .memerr va, s.meetBad q.key 64)
      else (.made 64 (decide (n ≤ pos + 64)), s.writePlace 1 serial q ((c.value.drop (from_ + pos)).take 64))

/-- One step of a collective's pawn. -/
def State.collStep (s : State) (k : Fin 64) : StepEnd × State :=
  let p := s.pawn k
  match p.job with
  | .coll fn desc params buf number =>
    match p.idx with
    | r :: id :: _ =>
      match s.colls.find? (fun c => c.id == id) with
      | none => (.wait, s)
      | some c =>
        match c.fault with
        | some e => (.fault e 0, s)
        | none =>
          let me := (s.logicalOf s.site).getD 0xFFFF
          let ix := s.memberOf c me
          if p.pos < r then s.collRead c me ix buf p.pos
          else if c.ready then s.collWrite p.serial c ix buf (p.pos - r)
          else (.wait, s)
    | _ => s.collJoin k fn desc params number
  | _ => (.wait, s)

end Sys2Proof.Machine
end

