-- ==== Sys2Proof/Machine/Link.lean ====
section
/-! DEFINITION. Link ports, end-to-end retry, incarnations, and requests that peers make of this chip (spec/02_fabric.md, R38 to R43;
R22, R124, R138, R150). -/

namespace Sys2Proof.Machine

/-! ### Contexts that wait on a link -/

/-- Every context of the package with f applied, by site and letter. -/
def State.onContexts (s : State) (f : Core → Bool → Context → Context) : State :=
  let g := fun (b : CoreBox) => { b with a := f b.core false b.a, b := f b.core true b.b }
  let here := g s.hereBox
  let s := { s with cores := s.cores.map (fun (e : Nat × CoreBox) => (e.1, g e.2)) }
  s.putBox s.site here

/-- The ports of a peer's mask, rising. -/
def Peer.portList (p : Peer) : List Nat := (List.range 18).filter (fun i => p.ports.getLsbD i)

/-- The port by which requests to a frame of a chip leave (R39): a fixed hash chooses from the mask. -/
def State.portFor (s : State) (chip frame : Nat) : Option Nat :=
  let p := s.peerOf chip
  let l := p.portList
  l[Config.linkPort p.ports.toNat chip frame % l.length]?

/-- The state with a port changed. -/
def State.onPort (s : State) (port : Nat) (f : LinkPort → LinkPort) : State := { s with ports := atIndex s.ports port f }

/-- Whom a home asks before it answers a write: the holders of the frame (R26, R137). A die of this chip is named by its first column; for one of
another chip the request is forwarded to the rim-die port of its link, in row 0 (DESIGN CHOICE, log 19). -/
def State.asksOf (s : State) (hs : List Nat) : List NetEnd :=
  hs.filterMap (fun h =>
    if h < 8 then some (.deep (36 * h))
    else if h < 18 then none
    else (s.portFor ((h - 18) / 8) 0).map (fun p => .rim (decide (9 ≤ p)) 0))

/-- The contexts that wait for accesses of some tags have the waits for these excused from now to a cycle (R38, R47, R88). -/
def State.excuseTags (s : State) (tags : List Nat) (to_ : Nat) : State :=
  (s.net.filter (fun a => a.live && tags.contains a.tag)).foldl (fun s a =>
    let b := s.boxAt a.site
    let f := fun (c : Context) => c.slowUntil a.serial s.cycle to_
    s.putBox a.site (if a.cx then { b with b := f b.b } else { b with a := f b.a })) s

/-- The tags of this chip's own accesses that a port holds or has sent, whose answers are still to come. -/
def LinkPort.ownTags (p : LinkPort) : List Nat :=
  ((p.store ++ p.waiting).filter (fun t => t.lat.isSome)).map (fun t => t.tag)

/-- LINK_FLIT_REPLAY (R38): the port is held for a replay of at most 500 ns. What it has sent is answered so much later, and the cycles that
waiting turns lose are excused. -/
def execLinkFlitReplay (port : Nat) (s : State) : Host.Outcome State Fault Refusal :=
  let to_ := s.cycle + 875
  .next (match s.ports.toList[port]? with
    | none => s
    | some p =>
      (s.onPort port (fun p =>
        { p with heldTo := max p.heldTo to_, replayTo := to_
                 store := p.store.map (fun t => { t with ansAt := t.ansAt.map (fun a => if a ≤ s.cycle then a else a + 875) }) })).excuseTags
        p.ownTags to_)

/-! ### Transactions and retry (R40 to R42) -/

/-- The most transactions of a retry store, and the most to one chip. -/
def storeLimit : Nat × Nat := (8192, 512)

/-- Has a port room for one transaction more to a chip. -/
def LinkPort.roomFor (p : LinkPort) (chip : Nat) : Bool :=
  decide (p.store.length < storeLimit.1) && decide ((p.store.filter (fun t => t.chip == chip)).length < storeLimit.2)

/-- A transaction that has not been sent yet. -/
def LinkTxn.fresh (chip frame tag : Nat) (resp : Option (Nat × BitVec 32)) (lat : Option Nat) : LinkTxn :=
  { chip := chip, seq := 0, frame := frame, tag := tag, sentDt := 0, resends := 0, resp := resp, lat := lat, ansAt := none }

/-- A transaction sent: it takes the port's next number and stands in the retry store. -/
def LinkPort.send (p : LinkPort) (t : LinkTxn) (now dt : Nat) : LinkPort :=
  { p with
    nextSeq := p.nextSeq + 1
    store := p.store ++ [{ t with seq := p.nextSeq, sentDt := dt, ansAt := t.lat.map (fun n => now + n) }] }

/-- May a port send a transaction to a chip now: it is in service and not held, and has room. -/
def LinkPort.maySend (p : LinkPort) (chip now : Nat) : Bool := p.inService && decide (p.heldTo ≤ now) && p.roomFor chip

/-- A transaction handed to a port: sent, or waiting at it behind those that wait for the same chip (R40). -/
def LinkPort.offer (p : LinkPort) (t : LinkTxn) (now dt : Nat) : LinkPort :=
  if p.maySend t.chip now && !p.waiting.any (fun u => u.chip == t.chip) then p.send t now dt else { p with waiting := p.waiting ++ [t] }

/-- The first transaction waiting at a port that it may send now. -/
def LinkPort.nextSend (p : LinkPort) (now : Nat) : Option LinkTxn := p.waiting.find? (fun t => p.maySend t.chip now)

/-- A waiting transaction sent. -/
def LinkPort.sendNext (p : LinkPort) (now dt : Nat) : LinkPort :=
  match p.nextSend now with
  | none => p
  | some t => ({ p with waiting := p.waiting.erase t } : LinkPort).send t now dt

/-- A request to a frame of a chip handed to its port (R39). -/
def State.offerLink (s : State) (t : LinkTxn) : State :=
  match s.portFor t.chip t.frame with
  | none => s
  | some port => s.onPort port (fun p => p.offer t s.cycle s.dt)

/-- LINK_TRANSACTION_SEND (R39, R40, R138): a request to a chip that is not up is not made; one that finds no room, or a held port, waits at
the port. -/
def execLinkTransactionSend (chip frame tag : Nat) (s : State) : Host.Outcome State Fault Refusal :=
  .next (if !(s.peerOf chip).valid || (s.peerOf chip).lost || !s.peerUp chip then s
    else s.offerLink (LinkTxn.fresh chip frame tag none none))

/-- Is number a at or before number b in the cyclic order of 32 bits. -/
def seqUpTo (a b : BitVec 32) : Bool := decide ((b - a).toNat < 2 ^ 31)

/-- The kept responses that some transactions carried are dropped. -/
def State.dropResponses (s : State) (ts : List LinkTxn) : State :=
  { s with sources := s.sources.map (fun q =>
      { q with responses := q.responses.filter (fun r => !ts.any (fun t => t.chip == q.chip && t.resp == some (q.port, r.1))) }) }

/-- The cause that a peer's refusal brings to the access (R43, R53, R124). -/
def refusalCause : PeerRefusal → Cause
  | .prot => .prot
  | .reset => .peerreset
  | .memErr => .memerr

/-- The answers to this chip's own accesses that some acknowledged transactions carried. With its acknowledgement a request is answered, and
its answer is there once its latency is over: that both come together is a DESIGN CHOICE (log 7). -/
def State.answerTxns (s : State) (ts : List LinkTxn) (refused : List (BitVec 32 × PeerRefusal)) : State :=
  ts.foldl (fun s t => match t.ansAt with
    | none => s
    | some a => s.answerAccess t.tag (max a s.cycle) ((refused.find? (fun r => r.1 == t.seq)).map (fun r => refusalCause r.2))) s

/-- LINK_ACK_RECEIVE (R40): the transactions to the chip up to a number leave the retry store; the acknowledgement names those that the
target has refused, and why (R43, R53, R124). -/
def execLinkAckReceive (port chip : Nat) (ack : LinkAck) (s : State) : Host.Outcome State Fault Refusal :=
  let hit := fun (t : LinkTxn) => t.chip == chip && seqUpTo t.seq ack.seq
  .next (match s.ports.toList[port]? with
    | none => s
    | some p =>
      ((s.dropResponses (p.store.filter hit)).onPort port (fun p => { p with store := p.store.filter (fun t => !hit t) })).answerTxns
        (p.store.filter hit) ack.refused)

/-- Is a transaction unacknowledged 4 µs after it was last sent. -/
def LinkTxn.overdue (t : LinkTxn) (dt : Nat) : Bool := decide (t.sentDt + 4000 ≤ dt)

/-- The transaction of a number in a port's store. -/
def State.txn (s : State) (port : Nat) (seq : BitVec 32) : Option LinkTxn :=
  (s.ports.toList[port]?).bind (fun p => p.store.find? (fun t => t.seq == seq))

/-- LINK_RESEND (R40): an overdue transaction is sent again, at most 3 times; the cycles that waiting turns lose to its next 4 µs are
excused (R47; the point to which they are is a DESIGN CHOICE, log 7). -/
def execLinkResend (port : Nat) (seq : BitVec 32) (s : State) : Host.Outcome State Fault Refusal :=
  .next (match s.txn port seq with
    | none => s
    | some t =>
      if !t.overdue s.dt || decide (3 ≤ t.resends) then s
      else
        (s.onPort port (fun p =>
          { p with store := p.store.map (fun u =>
              if u.seq = seq then { u with resends := u.resends + 1, sentDt := s.dt, ansAt := u.lat.map (fun n => s.cycle + n) } else u) })).excuseTags
          [t.tag] (s.cycle + 7000))

/-- The chip's copies of this chip's frames are no more: one that is lost, or that has restarted, keeps none. -/
def State.dropHolder (s : State) (chip : Nat) : State :=
  let mine := fun (h : Nat) => decide (18 ≤ h) && decide ((h - 18) / 8 = chip)
  let f := fun (p : Part) =>
    { p with holders := (p.holders.map (fun e => (e.1, e.2.filter (fun h => !mine h)))).filter (fun e => !e.2.isEmpty)
             replWrites := p.replWrites.map (fun w => { w with waiting := w.waiting.filter (fun h => !mine h) }) }
  { s with part := f s.part, parts := s.parts.map (fun (e : Nat × Part) => (e.1, f e.2)) }

/-- LINK_RETRY_EXHAUSTED (R42): the port gives up on the transaction, its access faults with PEERLOST, and LOST sets. What still waits at the
ports for the chip is given up with it (DEDUCED, log 7). -/
def execLinkRetryExhausted (port : Nat) (seq : BitVec 32) (s : State) : Host.Outcome State Fault Refusal :=
  .next (match s.txn port seq with
    | none => s
    | some t =>
      if !t.overdue s.dt || decide (t.resends < 3) then s
      else
        let s := (s.dropResponses [t]).onPort port (fun p =>
          { p with store := p.store.filter (fun u => !(u.seq == seq)), lostTags := p.lostTags ++ [t.tag] })
        let held := s.ports.toList.flatMap (fun p => p.waiting.filter (fun u => decide (u.chip = t.chip)))
        let s := { s with peers := atIndex s.peers t.chip (fun p => { p with lost := true })
                          ports := s.ports.map (fun (p : LinkPort) =>
                            ({ p with waiting := p.waiting.filter (fun u => !decide (u.chip = t.chip)) } : LinkPort)) }
        let s := (t :: held).foldl (fun s u => if u.lat.isSome then s.endAccess u.tag (some .peerlost) else s) s
        (s.failColls t.chip .peerlost).dropHolder t.chip)

/-! ### Lanes and ports (R18, R21, R22) -/

/-- Are two repairs of one kind, of which one at most is in progress (R21). -/
def sameKind (a b : Repair) : Bool :=
  match a, b with
  | .coreSite _, .coreSite _ => true
  | .linkLane _, .linkLane _ => true
  | .coreSite _, _ => false
  | .linkLane _, _ => false
  | _, .coreSite _ => false
  | _, .linkLane _ => false
  | _, _ => true

/-- May a repair be made now: it is in progress, or none of its kind is. -/
def State.mayRepair (s : State) (r : Repair) : Bool := s.repairing.contains r || !s.repairing.any (sameKind r)

/-- A repair ends, and the next of its kind in the queue starts (R21). -/
def State.repaired (s : State) (r : Repair) : State :=
  let s := { s with repairing := s.repairing.erase r }
  match s.repairs.find? (sameKind r) with
  | none => s
  | some n => { s with repairs := s.repairs.erase n, repairing := s.repairing ++ [n] }

/-- A repair is in progress. -/
def State.repairing_ (s : State) (r : Repair) : State := if s.repairing.contains r then s else { s with repairing := s.repairing ++ [r] }

/-- LINK_LANE_SPARE (R18, R22): the spare lane takes over, and the port is held for at most 2 µs; the switch is in progress meanwhile. -/
def execLinkLaneSpare (port _lane : Nat) (s : State) : Host.Outcome State Fault Refusal :=
  .next (match s.ports.toList[port]? with
    | none => s
    | some p =>
      if p.spareUsed || !p.inService || !s.mayRepair (.linkLane port) then s
      else
        (s.onPort port (fun p => { p with failed := p.failed + 1, spareUsed := true, heldTo := max p.heldTo (s.cycle + 3500) })).repairing_
          (.linkLane port))

/-- The lane switch that is over: the port is held no more, or is out of service (R21). -/
def State.laneDone (s : State) : Option Repair :=
  s.repairing.find? (fun r => match r with
    | .linkLane port => (match s.ports.toList[port]? with
      | some p => (p.spareUsed && decide (p.heldTo ≤ s.cycle)) || !p.inService
      | none => true)
    | _ => false)

/-- LINK_PORT_RETRAIN (R22): a second lane fails while the spare is in use, and the port runs on 4 lanes. -/
def execLinkPortRetrain (port : Nat) (s : State) : Host.Outcome State Fault Refusal :=
  .next (s.onPort port (fun p => if p.spareUsed && !p.half && p.inService then { p with failed := p.failed + 1, half := true } else p))

/-- Transactions that waited at a port out of service go to the ports now chosen for them; with none left their accesses fault with PEERLOST
(DEDUCED, log 7). -/
def State.rehome (s : State) (ts : List LinkTxn) : State :=
  ts.foldl (fun s t => match s.portFor t.chip t.frame with
    | some _ => s.offerLink t
    | none => if t.lat.isSome then s.endAccess t.tag (some .peerlost) else s) s

/-- LINK_PORT_OUT (R22, R39): a third lane fails; the port leaves service and every mask. -/
def execLinkPortOut (port : Nat) (s : State) : Host.Outcome State Fault Refusal :=
  .next (match s.ports.toList[port]? with
    | none => s
    | some p =>
      if !p.half || !p.inService then s
      else
        ({ s.onPort port (fun p => { p with failed := p.failed + 1, inService := false, waiting := [] }) with
          peers := s.peers.map (fun q => { q with ports := q.ports &&& ~~~(BitVec.ofNat 18 (2 ^ port)) }) } : State).rehome p.waiting)

/-! ### Incarnations (R43, R138) -/

/-- INCARNATION_ANNOUNCE (R43): every chip of the peer table is told this chip's number and incarnation. -/
def execIncarnationAnnounce (s : State) : Host.Outcome State Fault Refusal :=
  let tell := (List.finRange 64).filter (fun c => s.peers[c].valid)
  .next { tell.foldl (fun s c => s.notify (.announce c.val s.chip.toNat s.myInc)) s with announced := true }

/-- The TLB entries of a chip's remote leaves purged from a core. -/
def Core.purgePeer (k : Core) (chip : Nat) : Core :=
  let keep := fun (l : List TlbEnt) => l.filter (fun e => !(decide (e.leaf.tgt.val % 2 = 1) && e.leaf.chip == chip))
  { k with ctlTlb := keep k.ctlTlb, tTlb := keep k.tTlb, mTlb := keep k.mTlb, vTlb := keep k.vTlb }

/-- The copies that dies of this chip hold of a chip's frames are dropped. -/
def Part.dropPeerFrames (p : Part) (chip : Nat) : Part :=
  { p with holders := p.holders.filter (fun e => !(decide (2 ^ 40 ≤ e.1) && decide ((e.1 - 2 ^ 40) / 2 ^ 36 = chip))) }

/-- ANNOUNCEMENT_RECEIVE (R43, R138): the incarnation is written, remote translations for the chip are purged, then UP sets; a chip that
has restarted fails the collectives it took part in with PEERRESET (R49), and copies of its frames, and its own of frames here, are no more
(DEDUCED, log 11). The numbers accepted from its ports stand: whether they survive a new incarnation the text does not say (DESIGN CHOICE,
log 7). -/
def execAnnouncementReceive (chip : Nat) (inc : BitVec 16) (s : State) : Host.Outcome State Fault Refusal :=
  let s := if (s.peerOf chip).up && (s.peerOf chip).inc != inc then
      let s := (s.failColls chip .peerreset).dropHolder chip
      { s with part := s.part.dropPeerFrames chip, parts := s.parts.map (fun (e : Nat × Part) => (e.1, e.2.dropPeerFrames chip)) }
    else s
  let s := { s with peers := atIndex s.peers chip (fun p => { p with inc := inc }) }
  let purge := fun (b : CoreBox) => { b with core := b.core.purgePeer chip }
  let here := purge s.hereBox
  let s := { s with cores := s.cores.map (fun (e : Nat × CoreBox) => (e.1, purge e.2)) }
  .next { s.putBox s.site here with peers := atIndex s.peers chip (fun p => { p with up := true }) }

/-! ### Requests of peers (R41, R43, R53, R124, R150) -/

/-- A partition of this chip whose map in force grants a peer's access: the owner of the frame. -/
def State.ownerOf (s : State) (k : Acc) (pa n : Nat) : Option Nat :=
  let grants := fun (p : Part) => p.live && p.map.any (fun e => mapEntryAllows e k pa n)
  if grants s.part then some s.pid else (List.find? (fun (e : Nat × Part) => grants e.2) (s.parts.drop s.pid)).map (fun e => e.1)

/-- A tracked source. -/
def LinkSrc.fresh (chip port : Nat) : LinkSrc :=
  { chip := chip, port := port, high := BitVec.allOnes 32, above := [], owed := 0, owedSince := 0, responses := [] }

/-- The tracking of a source (R41). -/
def State.source (s : State) (chip port : Nat) : LinkSrc :=
  (s.sources.find? (fun q => q.chip == chip && q.port == port)).getD (LinkSrc.fresh chip port)

/-- The state with the tracking of a source. -/
def State.putSource (s : State) (q : LinkSrc) : State :=
  { s with sources := s.sources.filter (fun r => !(r.chip == q.chip && r.port == q.port)) ++ [q] }

/-- The accepted numbers above the contiguous ones drawn in. -/
def LinkSrc.draw (q : LinkSrc) : Nat → LinkSrc
  | 0 => q
  | n + 1 => if q.above.contains (q.high + 1) then { q with high := q.high + 1, above := q.above.erase (q.high + 1) }.draw n else q

/-- A number accepted (R41). -/
def LinkSrc.accept (q : LinkSrc) (seq : BitVec 32) (dt : Nat) : LinkSrc :=
  let q := { q with owed := q.owed + 1, owedSince := if q.owed = 0 then dt else q.owedSince }
  ({ q with above := q.above ++ [seq] }).draw 512

/-- How far a number lies beyond the contiguous ones. -/
def LinkSrc.offset (q : LinkSrc) (seq : BitVec 32) : Nat := (seq - q.high - 1).toNat

/-- What a peer's request touches: kind, address, bytes. -/
def peerBytes : PeerOp → Acc × Nat × Nat
  | .read a n => (.read, a, n)
  | .write a d => (.write, a, d.length)
  | .sacc a _ _ _ => (.write, a, 4)
  | .scas a wide _ _ => (.write, a, if wide then 8 else 4)
  | .inval f => (.read, f * 65536, 65536)

/-- The path of a peer's writes at the homes here: each chip's is its own (R137, R143). -/
def peerSite (chip : Nat) : Nat := 289 + chip

/-- A write for a peer that has reached its home: on a replicated frame it waits there for the holders (R137). -/
def State.peerWrite (s : State) (chip serial pa : Nat) (bs : List (BitVec 8)) : State :=
  s.frameWrite (some (pa / 65536)) pa bs (peerSite chip) false 4 (some serial)

/-- An atomic of a peer that has reached its home: it finds what every write and atomic before it leaves, and the value that it computes is
written like any other (R137, R150). -/
def State.peerAtomic (s : State) (chip serial pa n : Nat) (f : Nat → Option Nat) : State × Except Cause (List (BitVec 8)) :=
  if s.readBad pa n then (s.meetBad pa n, .error .memerr)
  else
    let s := s.correct pa n
    let old := leNat (s.homeBytes pa n)
    (match f old with
      | some v => s.peerWrite chip serial pa (leBytes n v)
      | none => s, .ok (leBytes n old))

/-- The copies that dies here hold of a peer's frame dropped (R137). -/
def State.peerInval (s : State) (chip frame : Nat) : State :=
  let drop := fun (p : Part) => { p with holders := p.holders.drop (peerFrame chip frame) }
  { s with part := drop s.part, parts := s.parts.map (fun (e : Nat × Part) => (e.1, drop e.2)) }

/-- The partition that owns the bytes that a peer's request touches: one whose map grants them (R53, R124); none is PROT. -/
def State.peerOwner (s : State) (op : PeerOp) : Option Nat :=
  let (k, pa, n) := peerBytes op
  if s.names pa && !s.sliceOff pa then s.ownerOf k pa n else none

/-- A peer's request executed at its home: the state, and the response or the cause of its refusal. A read by a die of the peer may gain it a
copy of the frame (R136). -/
def State.peerExec (s : State) (chip serial : Nat) (die : Option (Fin 8)) (op : PeerOp) : State × Except Cause (List (BitVec 8)) :=
  match s.peerOwner op with
  | none => (s, .error .prot)
  | some pid =>
    let s := s.focusPart pid
    match op with
    | .read pa n =>
      if s.readBad pa n then (s.meetBad pa n, .error .memerr)
      else
        let s := s.correct pa n
        (match die with
          | some d => s.replRead (holderOf chip d.val) (pa / 65536)
          | none => s, .ok (s.mem.readBytes pa n))
    | .write pa d => if s.writeBad pa d.length then (s.meetBad pa d.length, .error .memerr) else (s.peerWrite chip serial pa d, .ok [])
    | .sacc pa fn fmt v =>
      let r := s.peerAtomic chip serial pa 4 (fun old => some (saccMerge fn (decide (fmt ≠ fmtFp32)) old [v.toNat % 2 ^ 32]))
      (r.1, match r.2 with
        | .error c => .error c
        | .ok _ => .ok [])
    | .scas pa wide cmp new =>
      let n := if wide then 8 else 4
      s.peerAtomic chip serial pa n (fun old => if old = cmp.toNat % 256 ^ n then some new.toNat else none)
    | .inval _ => (s, .ok [])

/-- An answer as the peer sees it: its data, or the cause of a refusal. -/
def State.sendAnswer (s : State) (r : PeerReq) (refusal : Option Cause) (data : List (BitVec 8)) : State :=
  match refusal with
  | some c => s.notify (.refused r.chip r.port r.seq c)
  | none => s.notify (.response r.chip r.port r.seq data)

/-- A response sent and kept until it is acknowledged (R40, R41); with no room at its port it waits there. It leaves by the port hashed for
the requesting chip and frame 0: which port a response takes the text does not say (DESIGN CHOICE, log 7). -/
def State.respond (s : State) (r : PeerReq) (refusal : Option Cause) (data : List (BitVec 8)) : State :=
  let q := s.source r.chip r.port
  let s := s.putSource { q with responses := q.responses ++ [(r.seq, refusal, data)] }
  (s.offerLink (LinkTxn.fresh r.chip 0 0 (some (r.port, r.seq)) none)).sendAnswer r refusal data

/-- The request of a peer as it enters the networks at the rim (R23, R26, R29): by its port's rim die, in the row of its home (DESIGN CHOICE, log
19). -/
def State.peerSpec (s : State) (r : PeerReq) (pa n : Nat) (writes : Bool) (tag : Nat) : PktSpec :=
  let home := homeEnd pa
  let hs := if writes then s.part.holders.getD (pa / 65536) [] else []
  { cmd := if writes then .write n else .read n, src := .rim (decide (9 ≤ r.port)) (endAt home).2, dst := home, addr := pa, tag := tag, inc := r.inc
    cx := false, path := 4, buf := .shared, asks := s.asksOf hs }

/-- An accepted request of a peer starts (R41): an invalidation drops copies, one that no map grants is refused, any other goes to its home. -/
def State.peerStart (s : State) (r : PeerReq) : State :=
  match r.op with
  | .inval f => (s.peerInval r.chip f).respond r none []
  | _ =>
    match s.peerOwner r.op with
    | none => s.respond r (some .prot) []
    | some pid =>
      let (k, pa, n) := peerBytes r.op
      let tag := s.netNext
      { s.bump with
        netNext := tag + 2
        peerJobs := s.peerJobs ++ [{ tag := tag, serial := s.serial, req := r, ans := none }]
        mesh := s.mesh.offer ((s.focusPart pid).peerSpec r pa n (k == .write) tag) s.cycle }

/-- PEER_REQUEST_RECEIVE (R41, R43, R124): nothing before the announcement; another incarnation is refused, and its number is not accepted (DESIGN
CHOICE, log 7); a duplicate is never executed twice; a number beyond the window is dropped. -/
def execPeerRequestReceive (r : PeerReq) (s : State) : Host.Outcome State Fault Refusal :=
  .next (if !s.announced then s
    else if r.inc ≠ s.myInc then s.notify (.refused r.chip r.port r.seq .peerreset)
    else
      let q := s.source r.chip r.port
      if decide (512 ≤ q.offset r.seq) || q.above.contains r.seq then
        match q.responses.find? (fun x => x.1 == r.seq) with
        | some x => s.sendAnswer r x.2.1 x.2.2
        | none => s
      else (s.putSource (q.accept r.seq s.dt)).peerStart r)

/-- The request of a peer whose packet has reached its home is executed there, in arrival order (R31, R41, R143). -/
def State.peerServe (s : State) (j : PeerJob) : State :=
  let r := s.peerExec j.req.chip j.serial j.req.die j.req.op
  let ans := match r.2 with
    | .ok data => (none, data)
    | .error c => (some c, [])
  { r.1 with peerJobs := r.1.peerJobs.map (fun i => if i.tag = j.tag then { i with ans := some ans } else i) }

/-- Has any partition a write of a creation number that its home has not performed. -/
def State.writingAny (s : State) (serial : Nat) : Bool :=
  s.writing serial || (s.parts.drop s.pid).any (fun (e : Nat × Part) => e.2.replWrites.any (fun w => w.serial == some serial))

/-- The first request of a peer to be answered: its exchange has ended, and its write is performed (R137), or a bridge has lost it (R35). -/
def State.peerEnded (s : State) : Option (PeerJob × (PktSpec × Option Cause)) :=
  s.peerJobs.findSome? (fun j =>
    if s.writingAny j.serial then none
    else (s.mesh.ended.find? (fun e => decide (e.1.tag = j.tag))).bind (fun e => if e.2.isSome || j.ans.isSome then some (j, e) else none))

/-- It is answered. -/
def State.answerPeer (s : State) : State :=
  match s.peerEnded with
  | none => s
  | some (j, e) =>
    let s := { s with peerJobs := s.peerJobs.erase j, mesh := { s.mesh with ended := s.mesh.ended.erase e } }
    match e.2, j.ans with
    | some c, _ => s.respond j.req (some c) []
    | none, some (c, data) => s.respond j.req c data
    | none, none => s

/-- Does a source await an acknowledgement now: 64 transactions, or 1 µs. -/
def LinkSrc.ackDue (q : LinkSrc) (dt : Nat) : Bool := decide (64 ≤ q.owed) || (decide (0 < q.owed) && decide (q.owedSince + 1000 ≤ dt))

/-- LINK_ACK_SEND (R40): the cumulative acknowledgement of a source. -/
def execLinkAckSend (chip port : Nat) (s : State) : Host.Outcome State Fault Refusal :=
  let q := s.source chip port
  .next (if q.owed = 0 then s else (s.putSource { q with owed := 0 }).notify (.ack chip port q.high))

end Sys2Proof.Machine
end

