-- ==== Sys2Proof/Machine/Boot.lean ====
section
/-! DEFINITION. Power-up, network boot, configuration records, guards, identity and the seal (spec/03_host_trust.md, R56 to R62;
R18). -/

namespace Sys2Proof.Machine

/-! ### Configuration records (R60) -/

/-- Does a key with a ROM digest verify a message's authenticator: the signature, then the key, whose sizes R57 gives (log 8). -/
def romVerifies (msg auth : List (BitVec 8)) : Bool :=
  let key := auth.drop 2820
  let d := Config.shake256 key
  decide (auth.length = 2888) && (d == Config.romDigest false || d == Config.romDigest true) &&
  Config.xmssVerify key msg (auth.take 2820)

/-- The bytes that a record's authenticator covers. -/
def recBody (r : CfgRecord) : List (BitVec 8) := Config.recordBytes r.kind r.version r.payload

/-- Does a device tag verify under the map key in use. -/
def recTagOk (east : Bool) (r : CfgRecord) : Bool := r.tagged && decide (r.kind = 1) && decide (r.auth = Config.kmac256 east (recBody r))

/-- Does the ROM accept a record (R60): a signature, or a tag on a spare map that is not an old one. -/
def Store.accepts (k : Store) (east : Bool) (r : CfgRecord) : Bool :=
  if !r.tagged then romVerifies (recBody r) r.auth
  else
    recTagOk east r && (decide (r.version = k.spareMap) ||
      (decide (r.version + 1 = k.spareMap) && !k.flash.any (fun q => recTagOk east q && decide (q.version = k.spareMap))))

/-- The later version of two records; of equal ones the first in flash: the text does not say which (DESIGN CHOICE, log 8). -/
def newerRec (a : Option CfgRecord) (b : CfgRecord) : Option CfgRecord :=
  match a with
  | some r => if b.version ≤ r.version then some r else some b
  | none => some b

/-- The accepted record of a type with the highest version. -/
def Store.record (k : Store) (east : Bool) (kind : Nat) : Option CfgRecord :=
  (k.flash.filter (fun r => decide (r.kind = kind) && k.accepts east r)).foldl newerRec none

/-- The record of a type in use, under the map key of the rim die that holds the identity (R58, R60). -/
def State.record (s : State) (kind : Nat) : Option CfgRecord := s.store.record s.eastKey kind

/-! ### Measurement (R59) -/

/-- A measurement register extended by a component. -/
def extend (m component : List (BitVec 8)) : List (BitVec 8) := Config.shake256 (m ++ Config.shake256 component)

/-! ### Boot (R56, R57) -/

/-- The lowest service core of a mask. -/
def lowestCore (m : BitVec 4) : Nat := if m.getLsbD 0 then 0 else if m.getLsbD 1 then 1 else if m.getLsbD 2 then 2 else 3

/-- The network boot from its first step: a server from the BOOTSRV record, or DHCPv6. -/
def State.startBoot (s : State) : State :=
  let server := (s.record 2).map (fun r => Config.bootServer r.payload)
  { s with boot := { s.boot with
      step := if server.isSome then .fetch else .server
      port := 0, linkTries := 0, server := server, nextBlock := 1, retries := 0, restarts := 0, image := [] } }

/-- A boot that has failed in a step, reported on I3C: 0 no link, 1 no server, 2 TFTP error, 3 image too long, 4 signature invalid. -/
def State.bootFails (s : State) (step cause : Nat) : State :=
  ({ s with boot := { s.boot with step := .failed step cause } }).notify (.bootReport step cause)

/-- POWER_UP_BOOT (R56, R43, R58): the incarnation increments; the lowest core that passes its self-test boots. -/
def execPowerUpBoot (selfTest : BitVec 4) (westOk : Bool) (s : State) : Host.Outcome State Fault Refusal :=
  .next (if s.power = .tripped ∨ (s.power = .on ∧ s.boot.step ≠ .idle) then s
    else
      let inc := s.store.incarnation + 1
      let s := { s with power := .on, store := { s.store with incarnation := inc }, myInc := inc, eastKey := !westOk
                        boot := { s.boot with passed := selfTest, core := lowestCore selfTest } }
      if selfTest = 0 then ({ s with boot := { s.boot with step := .bootfail } }).notify .bootFail else s.startBoot)

/-- BOOT_LINK_TIMEOUT (R56): port 0 has had no link for 2 s, so port 1 is used; without that one too the boot fails. -/
def execBootLinkTimeout (s : State) : Host.Outcome State Fault Refusal :=
  .next (if s.boot.step ≠ .server ∧ s.boot.step ≠ .fetch then s
    else if s.boot.linkTries = 0 then { s with boot := { s.boot with port := 1, linkTries := 1 } }
    else s.bootFails 1 0)

/-- DHCPV6_REPLY_RECEIVE (R56): the boot server and the file name; the URL must be a tftp:// URL. -/
def execDhcpv6ReplyReceive (tftp : Bool) (server : Nat) (file : List (BitVec 8)) (s : State) : Host.Outcome State Fault Refusal :=
  .next (if s.boot.step ≠ .server then s
    else if tftp then { s with boot := { s.boot with step := .fetch, server := some (server, file), nextBlock := 1 } }
    else s.bootFails 2 1)

/-- The largest boot image (R57). -/
def maxImage : Nat := 33553920

/-- The version in a boot image's header. -/
def imageVersionOf (img : List (BitVec 8)) : Nat := leNat ((img.drop 8).take 4)

/-- Does the ROM accept a boot image (R57): its parts fit, its key and signature verify, its version is not below the minimum. -/
def Store.acceptsImage (k : Store) (img : List (BitVec 8)) : Bool :=
  let n := 128 + leNat ((img.drop 12).take 4)
  decide (img.length = n + 2888) && romVerifies (img.take n) (img.drop n) && decide (k.minVersion.toNat ≤ imageVersionOf img)

/-- The guards locked: caps of the GUARDS record, or the defaults (R61). -/
def State.setGuards (s : State) : State :=
  let caps := match s.record 3 with
    | some r => Config.guardCaps r.payload
    | none => (2000000000, 1000000000 / 8)
  { s with guards := { s.guards with locked := true, writeCap := caps.1, egressCap := caps.2 } }

/-- The spare map applied (R10, R56): spare sites are disabled, retired sites too. -/
def State.applySpares (s : State) (spares retired : List Nat) : State :=
  let off := fun (i : Nat) => spares.contains i || retired.contains i
  let mark := fun (i : Nat) (c : Column) => { c with spare := off i, retired := retired.contains i }
  let at_ := fun (i : Nat) (b : CoreBox) => { b with core := { b.core with enabled := !off i } }
  let here := at_ s.site s.hereBox
  let s := { s with columns := s.columns.mapIdx mark, cores := s.cores.map (fun (e : Nat × CoreBox) => (e.1, at_ e.1 e.2)) }
  s.putBox s.site here

/-- What firmware does after a start (R56, R60): the spare map, TLIMIT, the chip number. -/
def State.startFirmware (s : State) : State :=
  let s := match s.record 1 with
    | some r => s.applySpares (Config.spareSites r.payload).1 (Config.spareSites r.payload).2
    | none => s
  let s := match s.record 4 with
    | some r => { s with tlimit := limitOf (BitVec.ofNat 32 (Config.thermalLimit r.payload)) }
    | none => s
  match s.record 5 with
  | some r => s.writeMyinc (BitVec.ofNat 32 (Config.chipNumber r.payload % 64 * 2 ^ 16))
  | none => s

/-- Firmware that has started raises the minimum version to the next of `State.raises`, or lets it stand; nothing lowers it (R57; log 8). -/
def State.raiseMin (s : State) : State :=
  let raise := s.raises.headD 0
  { s with raises := s.raises.tail
           store := { s.store with minVersion := if s.store.minVersion ≤ raise then raise else s.store.minVersion } }

/-- The image fetched whole is verified, measured and started. The ROM measures the record in use of each listed type, over the bytes that its
authenticator covers and the authenticator; which records, and which of their bytes, R59 leaves open (DESIGN CHOICE, log 8). An image refused for
its length or for its version is reported as one whose signature is invalid: R56 names no cause for it (DESIGN CHOICE, log 8). -/
def State.verifyImage (s : State) : State :=
  let img := s.boot.image
  if !s.store.acceptsImage img then s.bootFails 4 4
  else
    let records := [1, 2, 3, 4, 5].filterMap s.record
    let m := records.foldl (fun m r => extend m ((recBody r) ++ r.auth)) (extend s.measure img)
    let s := { s with measure := m, imageVersion := BitVec.ofNat 32 (imageVersionOf img)
                      boot := { s.boot with entry := BitVec.ofNat 32 (leNat ((img.drop 16).take 4)) } }
    (({ s.setGuards with serviceCores := s.boot.passed }).startFirmware) |> fun s => ({ s with boot := { s.boot with step := .running } } : State).raiseMin

/-- TFTP_BLOCK_RECEIVE (R56): the block awaited is stored; one shorter than 512 bytes is the last. -/
def execTftpBlockReceive (block : Nat) (data : List (BitVec 8)) (s : State) : Host.Outcome State Fault Refusal :=
  .next (if s.boot.step ≠ .fetch ∨ block ≠ s.boot.nextBlock % 65536 ∨ 512 < data.length then s
    else
      let image := s.boot.image ++ data
      let s := { s with boot := { s.boot with image := image, nextBlock := s.boot.nextBlock + 1, retries := 0 } }
      if maxImage < image.length then s.bootFails 3 3 else if data.length < 512 then s.verifyImage else s)

/-- TFTP_BLOCK_RETRY (R56): up to 5 retries of a block, then up to 3 restarts of the transfer, the ports alternating. -/
def execTftpBlockRetry (s : State) : Host.Outcome State Fault Refusal :=
  .next (if s.boot.step ≠ .fetch then s
    else if s.boot.retries < 5 then { s with boot := { s.boot with retries := s.boot.retries + 1 } }
    else if s.boot.restarts < 3 then
      { s with boot := { s.boot with restarts := s.boot.restarts + 1, port := 1 - s.boot.port, retries := 0, nextBlock := 1, image := [] } }
    else s.bootFails 3 2)

/-- BOOT_RETRY (R56): the whole boot once more. -/
def execBootRetry (s : State) : Host.Outcome State Fault Refusal :=
  .next (match s.boot.step with
    | .failed _ _ => s.startBoot
    | _ => s)

/-- POWER_FAIL (R58, R43): volatile state is lost; the module's flash and counters keep theirs, and so does what lies outside the
package. -/
def execPowerFail (s : State) : Host.Outcome State Fault Refusal :=
  .next { State.reset with
    cycle := s.cycle, dtBase := s.dtBase, agenda := s.agenda, store := s.store, power := .failed, notices := s.notices
    delays := s.delays
    mem := s.mem.filter (fun e => decide (2 ^ 57 ≤ e.1) && decide (e.1 < 2 ^ 63)) }

/-! ### Service cores (R18, R61) -/

/-- How many service cores serve. -/
def servingCores (m : BitVec 4) : Nat := ((List.finRange 4).filter (fun i => m.getLsbD i.val)).length

/-- SERVICE_CORE_TAKEOVER (R18): the others take over a failed core's duties; two of the four must be left for it. -/
def execServiceCoreTakeover (core : Nat) (s : State) : Host.Outcome State Fault Refusal :=
  let left := s.serviceCores &&& ~~~(BitVec.ofNat 4 (2 ^ core))
  .next (if servingCores left < 2 then s else { s with serviceCores := left })

/-- FIRMWARE_SWITCH (R18, R57): a live switch between the A and B images; firmware that has started may raise the minimum version with it, as it may
after its start. -/
def execFirmwareSwitch (s : State) : Host.Outcome State Fault Refusal :=
  let s := { s with imageB := !s.imageB }
  .next (if s.boot.step = .running then s.raiseMin else s)

/-- What a meter of a rate in bytes per second has left after a time in nanoseconds. -/
def drain (used rate ns : Nat) : Nat := used - rate * ns / 1000000000

/-- The meters brought to now. -/
def State.metered (s : State) : Guards :=
  let g := s.guards
  let ns := s.dt - g.since
  { g with writeUsed := drain g.writeUsed g.writeCap ns, egressUsed := g.egressUsed.map (fun u => drain u g.egressCap ns), since := s.dt }

/-- The key of a bus address that the physical function reaches. -/
def pfKey (a : Nat) : Nat := hostKey 16 a

/-- Bytes that a service core writes to host memory (R61): inside a registered window and within the cap they land; any others are dropped and
counted, and PF0 vector 63 fires. The cap is taken with the burst of the Ethernet meter (DESIGN CHOICE, log 8). -/
def State.hostPut (s : State) (addr : Nat) (data : List (BitVec 8)) : State :=
  let g := s.metered
  let n := data.length
  let inside := g.windows.any (fun w => decide (w.1 ≤ addr) && decide (addr + n ≤ w.1 + w.2))
  if inside && decide (g.writeUsed + n ≤ g.burst) then
    ({ s with guards := { g with writeUsed := g.writeUsed + n } }).writeList (pfKey addr) data
  else ({ s with guards := { g with writeDrops := g.writeDrops + 1 } }).notify (.pf0Vector 63)

/-- The windows that the PF0 driver has registered since, each 4 KiB-aligned, 16 at most (R61). -/
def Guards.register (g : Guards) (ws : List (Nat × Nat)) : Guards :=
  { g with windows := (g.windows ++ ws.filter (fun w => decide (w.1 % 4096 = 0) && decide (w.2 % 4096 = 0) && decide (0 < w.2))).take 16 }

/-- SERVICE_CORE_HOST_WRITE (R61, R62): the windows that the PF0 driver has registered meanwhile are in force; bytes of the service core's own go
out, and a copy out of the package's memory starts. -/
def execServiceCoreHostWrite (windows : List (Nat × Nat)) (w : SvcWrite) (s : State) : Host.Outcome State Fault Refusal :=
  .next (if !s.guards.locked then s
    else
      let s := { s with guards := s.guards.register windows }
      match w.src with
      | .own data => s.hostPut w.addr data
      | .memory pa n => { s with svcCopies := s.svcCopies ++ [{ addr := w.addr, pa := pa, left := n }] })

/-- The next 64-byte line of a service core's copy: sealed memory faults on that core with PROT, and no further line is read (R62). -/
def State.svcLine (s : State) : State :=
  match s.svcCopies with
  | [] => s
  | c :: rest =>
    let n := min c.left (64 - c.pa % 64)
    let s := { s with svcCopies := rest }
    if n = 0 then s
    else if s.sealedPa c.pa || !s.names c.pa then s.notify (.serviceFault c.pa .prot)
    else if s.readBad (c.pa) n then (s.meetBad c.pa n).notify (.serviceFault c.pa .memerr)
    else
      let s := s.hostPut c.addr (s.mem.readBytes (c.pa) n)
      { s with svcCopies := { addr := c.addr + n, pa := c.pa + n, left := c.left - n } :: rest }

/-- ETHERNET_FRAME_SEND (R61): a frame beyond the meter is dropped and counted; the boot is not metered. -/
def execEthernetFrameSend (port bytes : Nat) (s : State) : Host.Outcome State Fault Refusal :=
  .next (if !s.guards.locked then s
    else
      let g := s.metered
      let used := g.egressUsed.getD port 0
      if used + bytes ≤ g.burst then { s with guards := { g with egressUsed := g.egressUsed.set port (used + bytes) } }
      else { s with guards := { g with frameDrops := g.frameDrops + 1 } })

/-! ### Identity and attestation (R58, R59) -/

/-- An attestation report (R59): nonce, the register named, MYINC, image version. -/
def reportOf (nonce m : List (BitVec 8)) (s : State) : List (BitVec 8) :=
  nonce ++ m ++ leBytes 4 (s.myInc.toNat + s.chip.toNat * 2 ^ 16 + s.clock.toNat * 2 ^ 22) ++ leBytes 4 s.imageVersion.toNat

/-- A signature asked for: the index increments first; a spent key refuses. One asked for while the store has still to confirm another is not made:
the text does not say what becomes of it (DESIGN CHOICE, log 8). -/
def State.askSign (s : State) (nonce m : List (BitVec 8)) : State :=
  if nonce.length ≠ 32 ∨ s.signing.isSome then s
  else if 2 ^ 20 ≤ s.store.xmssIndex then s.notify .keySpent
  else { s with store := { s.store with xmssIndex := s.store.xmssIndex + 1 }, signing := some (reportOf nonce m s) }

/-- ATTESTATION_REQUEST (R58, R59): the counter store is asked for the next index; the register of a sealed partition is not
reported. -/
def execAttestationRequest (nonce : List (BitVec 8)) (target : Option Nat) (s : State) : Host.Outcome State Fault Refusal :=
  .next (match target with
    | none => s.askSign nonce s.measure
    | some p =>
      let s := s.focusPart p
      if s.part.live && s.part.sealOpen then s.askSign nonce s.part.measure else s)

/-- KEY_COUNTER_CONFIRM (R58): the store has confirmed the index, and the signature with it is released. -/
def execKeyCounterConfirm (s : State) : Host.Outcome State Fault Refusal :=
  .next (match s.signing with
    | none => s
    | some r => ({ s with signing := none }).notify (.report (r ++ Config.xmssSign (s.store.xmssIndex - 1) r)))

/-! ### The seal (R62) -/

/-- SEAL_OPEN (R62). -/
def execSealOpen (part : Nat) (s : State) : Host.Outcome State Fault Refusal :=
  let s := s.focusPart part
  .next (if s.part.live then s.onPart (fun p => { p with sealOpen := true }) else s)

/-- SEAL_CLOSE (R62). -/
def execSealClose (part : Nat) (s : State) : Host.Outcome State Fault Refusal :=
  let s := s.focusPart part
  .next (if s.part.live then s.onPart (fun p => { p with sealOpen := false }) else s)

end Sys2Proof.Machine
end

