-- ==== Sys2Proof/Machine/Branch.lean ====
section
/-! DEFINITION. The branch words of the C stream and the prefetch of their targets (R274, R290 to R293, R400). -/

namespace Sys2Proof.Machine

/-- The walk of a target's page started with its prefetch, when its translation is missing (R400). -/
def State.startFetch (s : State) (t : Word) : State := s.prefetchPage .c t.toNat

/-- A walk of a page for the control TLB is in flight. -/
def State.walking (s : State) (va : Nat) : Bool :=
  s.core.walks.any (fun w => w.cx == s.cx && w.tlb == .c && w.vpage == va / 65536)

/-- The state in which a branch register's own fetch has started in this cycle. -/
def State.fetchFor (s : State) (bt : Fin 8) : State :=
  (s.onCtx (fun c => { c with b := c.b.set bt { c.b[bt] with ready := some (s.cycle + 6) } })).startFetch s.ctx.b[bt].val

/-- Why a branch through a register waits at issue: its target's fetch is not ready (R274). -/
def State.branchWaits (s : State) (bt : Fin 8) : Bool :=
  match s.ctx.b[bt].ready with
  | none => true
  | some t => decide (s.cycle < t) || s.walking s.ctx.b[bt].val.toNat

/-- A branch taken through a register: the checks of R291, the wait of R274, then `f` (what else the word does) and the target
as the next word. A fetch that no PBR or CALL started serves this branch alone (DEDUCED, log 15). -/
def State.branchTo (s : State) (bt : Fin 8) (f : State → State) : State :=
  let r := s.ctx.b[bt]
  if r.val.toNat % 4 ≠ 0 then s.trapWord .align r.val
  else if 2 ^ 52 ≤ r.val.toNat then s.trapWord .prot r.val
  else if r.ready.isNone then (s.fetchFor bt).waitIn .c .branch
  else if s.branchWaits bt then s.waitIn .c .branch
  else
    let s := if r.byPbr then s else s.onCtx (fun c => { c with b := c.b.set bt { c.b[bt] with ready := none } })
    (f s).issuedTo r.val

/-- The write of a branch register by PBR or CALL, and the start of its prefetch (R274, R290, R291). -/
def State.landB (s : State) (bt : Fin 8) (t : Word) : State :=
  (s.land .c 1 (.b bt true s.cycle) (t.setWidth 256)).startFetch t

/-- PBR (R290). -/
def execPbr (o : Op.Pbr) (s : State) : Host.Outcome State Fault Refusal :=
  .next (s.guarded o.g (fun s =>
    if s.ctx.landingFull then s.waitLanding .landing
    else (s.landB o.bt (s.ctx.cs.pc + (o.disp.signExtend 64 <<< 2))).issuedIn .c))

/-- PBRX (R290): no prefetch. -/
def execPbrx (o : Op.Pbrx) (s : State) : Host.Outcome State Fault Refusal :=
  .next (s.guarded o.g (fun s => s.cLand 1 (.b o.bt false s.cycle) ((s.ctx.getX o.ra).setWidth 256)))

/-- BR (R291). -/
def execBr (o : Op.Branch) (s : State) : Host.Outcome State Fault Refusal :=
  .next (s.guarded o.g (fun s => s.branchTo o.bt id))

/-- CALL (R291): b7 receives the address of the word after it, and the branch goes to the old value of b[bt]. -/
def execCall (o : Op.Branch) (s : State) : Host.Outcome State Fault Refusal :=
  .next (s.guarded o.g (fun s =>
    if s.ctx.landingFull then s.waitLanding .landing else s.branchTo o.bt (fun s => s.landB 7 (s.ctx.cs.pc + 4))))

/-- LOOPC (R292). -/
def execLoopc (o : Op.Loopc) (s : State) : Host.Outcome State Fault Refusal :=
  .next (s.guarded o.g (fun s =>
    if s.ctx.ownedX o.rc then s.waitIn .c (.owned o.rc)
    else if s.ctx.landingFull then s.waitLanding .landing
    else
      let v := s.ctx.getX o.rc - 1
      let f := fun (s : State) => s.land .c 1 (.x o.rc) (v.setWidth 256)
      if v = 0 then (f s).issuedIn .c else s.branchTo o.bt f))

end Sys2Proof.Machine
end

