-- ==== Sys2Proof/Machine/Swap.lean ====
section
/-! DEFINITION. Stopping a partition's cores, partition swaps, late responses, time registers, and repairs of core sites and memory
(R18 to R21, R112, R171, R186 to R188, R194, R212, R214). -/

namespace Sys2Proof.Machine

/-! ### Stopping a partition's cores (R186 steps 1 and 2) -/

/-- The sites whose cores now run the focused partition. -/
def State.liveSites (s : State) : List Nat := s.sites.filter (fun i => (s.boxAt i).core.part == some s.pid)

/-- The state with every core that runs the focused partition changed. -/
def State.onLiveCores (s : State) (f : CoreBox → CoreBox) : State := s.liveSites.foldl (fun s i => s.putBox i (f (s.boxAt i))) s

/-- A core told to stop: its C streams stop at once, results in flight saved; its engine streams are asked to hold. -/
def CoreBox.stop (b : CoreBox) (now : Nat) : CoreBox :=
  let f := fun (live : Bool) (c : Context) => if c.turn.isSome && live then (c.pauseC now).holdEngines else c
  { core := { b.core with stopping := true }, a := f (!b.core.active) b.a, b := f b.core.active b.b }

/-- Has a core stopped: its engine streams stand at their stop points, and no pawn is within a step. -/
def CoreBox.hasStopped (b : CoreBox) (now : Nat) : Bool :=
  b.core.stopping && b.core.mstep.isNone && (b.ctx b.core.active).enginesStopped now

/-- Is a pawn of a site's core within a step. A remote load is not waited for: its data may come after the swap (R188). -/
def State.stepsOn (s : State) (site : Nat) : Bool :=
  let v := s.focus site false
  pawnSlots.any (fun k =>
    let p := v.pawn k
    p.open && !p.suspended && v.midStep p && (match p.job with
      | .rld .. => false
      | _ => true))

/-- Have all cores of the focused partition stopped. -/
def State.allStopped (s : State) : Bool := s.liveSites.all (fun i => (s.boxAt i).hasStopped s.cycle && !s.stepsOn i)

/-- A core that goes on after a stop; a context that is to halt keeps its streams held (R199). -/
def CoreBox.goOn (b : CoreBox) : CoreBox :=
  { core := { b.core with stopping := false }
    a := if b.core.active || b.a.haltReq then b.a else b.a.resumeEngines
    b := if !b.core.active || b.b.haltReq then b.b else b.b.resumeEngines }

/-- A stop of a partition's cores asked for, for a purpose. -/
def State.askPause (s : State) (pid : Nat) (p : Pause) : State :=
  let s := s.focusPart pid
  let s := s.liveSites.foldl (fun s i => s.putBox i ((s.boxAt i).stop (s.cNowAt i (s.boxAt i).core.active))) s
  { s with pauses := s.pauses ++ [(pid, p)] }

/-- Does a partition wait for its cores to stop. -/
def State.isPausing (s : State) (pid : Nat) : Bool := s.pauses.any (fun e => e.1 == pid)

/-- The state without a pause that has been served. -/
def State.endPause (s : State) (pid : Nat) (p : Pause) : State := { s with pauses := s.pauses.erase (pid, p) }

/-! ### Images (R187, R188) -/

/-- The key of byte b of partition pid's scratchpad image in a site's shadow store. -/
def shadowKey (pid site b : Nat) : Nat := 2 ^ 56 + 2 ^ 40 + pid * 2 ^ 32 + site * 2 ^ 22 + b

/-- n bytes of memory moved from one key to another; what stood there is gone. -/
def State.moveBytes (s : State) (from_ to_ n : Nat) : State :=
  let inside := fun (a k : Nat) => decide (a ≤ k) && decide (k < a + n)
  let moved := s.mem.filter (fun e => inside from_ e.1)
  let rest := s.mem.filter (fun e => !inside from_ e.1 && !inside to_ e.1)
  let shift := fun (l : List Nat) => (l.filter (fun w => !inside to_ w)).map (fun w => if inside from_ w then w - from_ + to_ else w)
  { s with mem := moved.foldl (fun (m : Memory) e => m.write (e.1 - from_ + to_) e.2) rest
           badWords := shift s.badWords, flips := shift s.flips }

/-- The bytes of a core's image space: the scratchpad, and the words of its other stores (R187). -/
def imageBytes : Nat := 2 ^ 22

/-- The remote loads of a core whose reads are in flight (R188): they have been translated, and land where that leads. -/
def State.inFlightReads (s : State) (site : Nat) : List LateRead :=
  pawnSlots.filterMap (fun k =>
    let p := (s.boxAt site).core.pawns[k]
    match p.job with
    | .rld src dst n _ =>
      match placeOf p.tr false src.toNat, placeOf p.tr true dst.toNat with
      | some q, some w =>
        if !p.open || p.suspended then none
        else
          some { part := s.pid, slot := k, key := q.key, bytes := n, site := (w.key - 2 ^ 56) / 2 ^ 22, off := w.key % 2 ^ 22, due := max p.due s.cycle }
      | _, _ => none
    | _ => none)

/-- The 64 KiB regions of the image of a site's core with responses outstanding, with their partition: the core's remap table. -/
def remapOf (site : Nat) (rs : List LateRead) : List (Nat × Nat) :=
  ((rs.filter (fun r => decide (r.site = site))).flatMap (fun r =>
    (List.range ((r.off % 65536 + r.bytes + 65535) / 65536)).map (fun i => (r.off / 65536 + i, r.part)))).eraseDups

/-- The late reads of every core. -/
def State.allLate (s : State) : List LateRead := s.sites.flatMap (fun i => (s.boxAt i).core.lateReads)

/-- The remap tables of all cores as the late reads have them (R188). -/
def State.remapAll (s : State) : State :=
  let rs := s.allLate
  s.sites.foldl (fun s i => let b := s.boxAt i; s.putBox i { b with core := { b.core with remap := remapOf i rs } }) s

/-- A context that keeps no translation of an access that it has still to make: it is translated again (R134). -/
def Context.unplaced (c : Context) : Context :=
  { c with ttr := [], tok := c.tok.map (fun t => t.map (fun t => if t.done.isSome then t else { t with tr := none })) }

/-- An image as it goes into the shadow store: no translation and no walk stays with it. -/
def CoreBox.image (b : CoreBox) (late : List LateRead) : CoreBox :=
  let mark := fun (k : Fin 64) (p : Pawn) => { p with tr := [], suspended := p.suspended || late.any (fun r => r.slot == k) }
  { core := { b.core with
      ctlTlb := [], tTlb := [], mTlb := [], vTlb := [], walks := [], wfault := [], remap := [], lateReads := []
      pawns := Vector.ofFn (fun i => mark i b.core.pawns[i]) }
    a := b.a.holdAll.unplaced, b := b.b.holdAll.unplaced }

/-- A core after its image has gone: empty, with what stays at the site. -/
def Core.vacated (k : Core) (late : List LateRead) : Core :=
  { Core.reset with enabled := k.enabled, board := k.board, lateReads := k.lateReads ++ late }

/-- The records of a swap of a site's contexts: payload 1 out, 3 in (R205). -/
def State.traceSwap (s : State) (site payload : Nat) : State :=
  let one := fun (s : State) (cx : Bool) =>
    let s := s.focus site cx
    if s.ctx.turn.isSome then s.trace 0xE .c payload else s
  (one (one s false) true).managerTrace 0xE ((s.part.cores.find? site).getD 0xFFFF) payload

/-- A site's contexts and scratchpad moved down into the focused partition's image, which stands in the site's shadow store now; one of another
partition that stood there has gone to that one's swap area (R187). -/
def State.saveSite (s : State) (site : Nat) : State :=
  let s := s.traceSwap site 1
  let b := s.boxAt site
  let late := s.inFlightReads site
  let s := { s.onPart (fun p => { p with images := p.images.put site (b.image late) }) with shadows := s.shadows.put site s.pid }
  (s.moveBytes (spKey site 0) (shadowKey s.pid site 0) imageBytes).putBox site
    { core := b.core.vacated late, a := Context.reset, b := Context.reset }

/-- Does a word of a core's image hold state of a context (R187, R194): its share, its accumulators, its queues, its registers, the pawns it has
created, its banks of the sum-product scratch; the layout cache is state of both. -/
def CoreBox.imageOf (b : CoreBox) (single : Bool) (cx : Bool) (off : Nat) : Bool :=
  let in_ := fun (lo n : Nat) => decide (lo ≤ off) && decide (off < lo + n)
  in_ (shareBase cx) (if single then (if cx then 0 else 0x300000) else 0x180000) || in_ (accOff cx) 0x40000 || in_ (queueOff cx) 0x4000 ||
  in_ layoutOff 0x800 || in_ (regsOff cx) 0x800 ||
  (in_ pawnOff 0x1000 && (let p := b.core.pawns[Fin.ofNat 64 ((off - pawnOff) / 64)]; p.live && p.cx == cx)) ||
  (in_ scratchOff 0xC000 && (single || decide ((off - scratchOff) / 4 % 4096 / 512 / 4 = cx.toNat)))

/-- The first word in error of a site's image that holds state of a context (R194). -/
def State.imageError (s : State) (site : Nat) (b : CoreBox) (cx : Bool) : Option Nat :=
  (s.badWords.find? (fun w => decide (shadowKey s.pid site 0 ≤ w) && decide (w < shadowKey s.pid site imageBytes) &&
    b.imageOf s.part.single cx (w - shadowKey s.pid site 0))).map (fun w => w - shadowKey s.pid site 0)

/-- A context's turn is gone with the words of its queues and registers, so these stand in error no more; nor does the layout cache or the pawn
table, whose words the restore has written. -/
def State.dropImageErrors (s : State) (site : Nat) : State :=
  { s with badWords := s.badWords.filter (fun w => !(decide (spKey site (queueOff false) ≤ w) && decide (w < spKey site imageBytes))) }

/-- The turn of a context whose image holds an error retires FAULTED before it issues, with a fault-log entry of kind 6; its pawns are
cancelled (R194). -/
def State.failRestored (s : State) (site : Nat) (cx : Bool) (off : Nat) : State :=
  let s := s.focus site cx
  if s.ctx.turn.isNone then s
  else
    let s := s.logFault Cause.memerr.code 6 ((s.logicalOf site).getD 0xFFFF) off 0
    let s := (pawnSlots.filter (fun k => s.created (s.pawn k))).foldl (fun s k => s.cancelPawn k) s
    s.retireTurn true false

/-- The focused partition's image of a site moved up (R186 step 4): its contexts resume where it stopped. -/
def State.restoreSite (s : State) (site : Nat) (b : CoreBox) : State :=
  let old := (s.boxAt site).core
  let errA := s.imageError site b false
  let errB := s.imageError site b true
  let s := { s with shadows := if s.shadows.find? site = some s.pid then s.shadows.drop site else s.shadows }
  let core := { b.core with part := some s.pid, enabled := old.enabled, board := old.board, lateReads := old.lateReads, remap := old.remap }
  let s := ((s.moveBytes (shadowKey s.pid site 0) (spKey site 0) imageBytes).dropImageErrors site).putBox site ({ b with core := core }).goOn
  let s := s.traceSwap site 3
  let s := match errA with
    | some off => s.failRestored site false off
    | none => s
  match errB with
  | some off => s.failRestored site true off
  | none => s

/-! ### Time registers (R212, R214) -/

/-- A staged value in its register. -/
def Part.setTime (p : Part) (e : TimeReg × Word) : Part :=
  match e.1 with
  | .tofs => { p with tofs := e.2 }
  | .tscale => { p with tscale := e.2 }
  | .tmode => { p with tmode := e.2.getLsbD 0 }

/-- A time epoch: the staged values take effect. -/
def Part.epoch (p : Part) : Part := { p.staged.foldl (fun (p : Part) e => p.setTime e) p with staged := [] }

/-- TIME_REGISTER_STAGE (R214). -/
def execTimeRegisterStage (part : Nat) (r : TimeReg) (v : BitVec 64) (s : State) : Host.Outcome State Fault Refusal :=
  let s := s.focusPart part
  .next (if s.part.live then s.onPart (fun p => { p with staged := p.staged ++ [(r, v)] }) else s)

/-- A time epoch served: the cores go on at once. -/
def State.serveEpoch (s : State) (pid : Nat) : State :=
  let s := (s.focusPart pid).endPause pid .epoch
  (s.onPart Part.epoch).onLiveCores CoreBox.goOn

/-- TIME_EPOCH (R214): the partition's cores are asked to stop; when they have, the staged values take effect. -/
def execTimeEpoch (part : Nat) (s : State) : Host.Outcome State Fault Refusal :=
  let s := s.focusPart part
  .next (if !s.part.live || s.part.swapped then s
    else if s.pauses.contains (part, .epoch) then (if s.allStopped then s.serveEpoch part else s)
    else if s.isPausing part then s
    else s.askPause part .epoch)

/-! ### Swaps (R186) -/

/-- The partition that a swap takes out. -/
def swapsOut : SwapKind → Option Nat
  | .swapOut p => some p
  | .swapIn _ => none
  | .exchange p _ => some p

/-- The partition that a swap brings in. -/
def swapsIn : SwapKind → Option Nat
  | .swapOut _ => none
  | .swapIn p => some p
  | .exchange _ p => some p

/-- SWAPPED sets: resident time stands still. -/
def State.setSwapped (s : State) (pid : Nat) : State :=
  (s.focusPart pid).onPart (fun p => { p with swapped := true, swapSince := some s.dtW })

/-- SWAPPED clears: the interval is counted, and the swap-in is a time epoch. -/
def State.clearSwapped (s : State) : State :=
  s.onPart (fun p =>
    { p.epoch with swapped := false, swapSince := none
                   swappedTotal := p.swappedTotal + (match p.swapSince with | some t => s.dtW - t | none => 0) })

/-- The stopped partition's contexts moved into its images. -/
def State.swapOut (s : State) (pid : Nat) : State :=
  let s := s.focusPart pid
  (s.liveSites.foldl (fun s i => s.saveSite i) s).remapAll

/-- A swapped-out partition's contexts restored. -/
def State.swapIn (s : State) (pid : Nat) : State :=
  let s := (s.focusPart pid).clearSwapped
  let images := s.part.images
  images.foldl (fun s (e : Nat × CoreBox) => (s.focusPart pid).restoreSite e.1 e.2) (s.onPart (fun p => { p with images := [] }))

/-- May the shadow store of a site take the image of a partition: it holds that one or none, or what it holds may move to its swap area, since no
entry of a remap table names it (R187). -/
def State.storeFree (s : State) (pid site : Nat) : Bool :=
  match s.shadows.find? site with
  | none => true
  | some q => q == pid || !s.allLate.any (fun r => decide (r.part = q) && decide (r.site = site))

/-- Could a partition be swapped in, with another one leaving: its images' sites are free or become so, and its images can be staged. -/
def State.canSwapIn (s : State) (pid : Nat) (out : Option Nat) : Bool :=
  let s := s.focusPart pid
  s.part.live && s.part.swapped && !s.isPausing pid &&
  s.part.images.all (fun e => match (s.boxAt e.1).core.part with
    | none => true
    | some q => out == some q) &&
  s.part.images.all (fun e => s.storeFree pid e.1)

/-- May step 4 of a swap-out start: no core has reads outstanding in more than 16 regions (R188), and the shadow stores can take the images. -/
def State.remapsFit (s : State) : Bool :=
  let rs := s.allLate ++ s.liveSites.flatMap (fun i => s.inFlightReads i)
  s.liveSites.all (fun i => decide ((remapOf i rs).length ≤ 16) && s.storeFree s.pid i)

/-- A swap whose partitions are ready for it. -/
def State.swapNow (s : State) (k : SwapKind) : State :=
  let s := match swapsOut k with
    | some p => (s.endPause p (.swap k)).swapOut p
    | none => s
  match swapsIn k with
  | some p => s.swapIn p
  | none => s

/-- PARTITION_SWAP (R186): the outgoing partition's SWAPPED sets and its cores are asked to stop; once they have, images move. -/
def execPartitionSwap (k : SwapKind) (s : State) : Host.Outcome State Fault Refusal :=
  let fits := match swapsIn k with
    | some p => s.canSwapIn p (swapsOut k)
    | none => true
  .next (match swapsOut k with
    | none => if fits then s.swapNow k else s
    | some p =>
      let s := s.focusPart p
      if !s.part.live || !fits then s
      else if s.pauses.contains (p, .swap k) then (if s.allStopped && s.remapsFit then s.swapNow k else s)
      else if s.isPausing p || s.part.swapped then s
      else (s.setSwapped p).askPause p (.swap k))

/-! ### Late responses (R188) -/

/-- The pawn of a late read has its data, or its error; its request slot and buffers are free (R30, R188, R330). -/
def lateDone (r : LateRead) (bad : Bool) (now : Nat) (b : CoreBox) : CoreBox :=
  let q := { b.core.pawns[r.slot] with suspended := false }
  let p := if bad then q.fail .memerr (q.netAddr 0) else ({ q with pos := r.bytes }).finish
  let give := fun (cx : Bool) (c : Context) => if cx == p.cx then c.giveSlot p now else c
  { core := { b.core with pawns := b.core.pawns.set r.slot p.slotGiven }, a := give false b.a, b := give true b.b }

/-- REMAP_RESPONSE_LAND (R188): the first response that is due lands where its region's bytes now are; one in error leaves them as they were
(R330). -/
def execRemapResponseLand (site : Nat) (s : State) : Host.Outcome State Fault Refusal :=
  let b := s.boxAt site
  .next (match b.core.lateReads.find? (fun r => decide (r.due ≤ s.cycle)) with
    | none => s
    | some r =>
      let rest := b.core.lateReads.erase r
      let s := (s.putBox site { b with core := { b.core with lateReads := rest } }).remapAll.focusPart r.part
      let bad := s.readBad r.key r.bytes
      let live := (s.boxAt r.site).core.part == some r.part
      let at_ := if live then spKey r.site r.off else shadowKey r.part r.site r.off
      let s := if bad then s.meetBad r.key r.bytes else (s.correct r.key r.bytes).writeList at_ (s.mem.readBytes r.key r.bytes)
      s.putCoreOf site (lateDone r bad s.cycle (s.coreOf site)))

/-! ### Repairs of core sites (R19) -/

/-- Every entry of a turn that a partition holds outside its contexts changed. -/
def Part.onEnts (p : Part) (f : HeapEnt → HeapEnt) : Part :=
  let g := fun (l : List HeapEnt) => l.map f
  let w := fun (l : List (HeapEnt × Nat)) => l.map (fun e => (f e.1, e.2))
  { p with
    scheds := p.scheds.map (fun e => (e.1, { e.2 with heap := g e.2.heap, spill := g e.2.spill, bgq := g e.2.bgq }))
    events := p.events.map (fun e => (e.1, { e.2 with waiters := w e.2.waiters, overflow := w e.2.overflow }))
    placing := p.placing.map (fun e => (e.1, f e.2)) }

/-- Every turn that a partition holds outside its contexts changed. -/
def Part.onTurns (p : Part) (f : Turn → Turn) : Part := p.onEnts (fun e => { e with turn := f e.turn })

/-- A place with its key changed. -/
def Place.mapKey (f : Nat → Nat) (p : Place) : Place := { p with key := f p.key }

/-- A T word with the keys of its lines changed. -/
def TOp.mapKeys (f : Nat → Nat) (o : TOp) : TOp :=
  let g := fun (ls : List (Nat × Place)) => ls.map (fun l => (l.1, l.2.mapKey f))
  match o with
  | .ldq q b ly ls => .ldq q b ly (g ls)
  | .stq e b ly ls => .stq e b ly (g ls)
  | .sacc fn i v b ls => .sacc fn i v b (g ls)
  | .scas e a w q ls => .scas e a w q (g ls)
  | .push q e i => .push q e i
  | .sync c => .sync c
  | .plain => .plain

/-- Translations with their keys changed. -/
def mapTrans (f : Nat → Nat) (l : List Trans) : List Trans := l.map (fun t => { t with place := t.place.mapKey f })

/-- A context in which every key of an access under way is changed. -/
def Context.mapKeys (f : Nat → Nat) (c : Context) : Context :=
  { c with twin := c.twin.map (fun e => { e with op := e.op.mapKeys f }), ttr := mapTrans f c.ttr
           tok := c.tok.map (fun t => t.map (fun t => { t with tr := t.tr.map (Place.mapKey f) })) }

/-- A core in which every key of an access under way is changed. -/
def CoreBox.mapKeys (f : Nat → Nat) (b : CoreBox) : CoreBox :=
  { core := { b.core with lateReads := b.core.lateReads.map (fun r => { r with key := f r.key })
                          pawns := b.core.pawns.map (fun p => { p with tr := mapTrans f p.tr }) }
    a := b.a.mapKeys f, b := b.b.mapKeys f }

/-- A partition in which every key of an access under way is changed, in saved contexts too. -/
def Part.mapKeys (f : Nat → Nat) (p : Part) : Part :=
  { p.onEnts (fun (e : HeapEnt) => { e with saved := e.saved.map (Context.mapKeys f) }) with
    images := p.images.map (fun (e : Nat × CoreBox) => (e.1, e.2.mapKeys f))
    replWrites := p.replWrites.map (fun w => { w with key := f w.key }) }

/-- The state in which every key of an access under way is changed: what has been translated goes where the bytes now are. -/
def State.mapKeys (s : State) (f : Nat → Nat) : State :=
  let here := s.hereBox.mapKeys f
  let s := { s with cores := s.cores.map (fun (e : Nat × CoreBox) => (e.1, e.2.mapKeys f))
                    part := s.part.mapKeys f, parts := s.parts.map (fun (e : Nat × Part) => (e.1, e.2.mapKeys f))
                    net := s.net.map (fun (a : NetAcc) => { a with key := f a.key }) }
  s.putBox s.site here

/-- The accesses that a site's core has on the networks, and the late reads that land in its scratchpad, are another site's. -/
def State.mapNet (s : State) (a b : Nat) : State :=
  let at_ := fun (i : Nat) => if i = a then b else i
  let s := { s with net := s.net.map (fun (x : NetAcc) => { x with site := at_ x.site }) }
  s.sites.foldl (fun s i =>
    let k := s.boxAt i
    s.putBox i { k with core := { k.core with lateReads := k.core.lateReads.map (fun (r : LateRead) => { r with site := at_ r.site }) } }) s

/-- A context with its turn changed. -/
def Context.onTurn (c : Context) (f : Turn → Turn) : Context := { c with turn := c.turn.map f }

/-- A partition in which what names one site names another: pins, waits for draw slots, pending writes. -/
def Part.resite (p : Part) (a b : Nat) : Part :=
  let at_ := fun (i : Nat) => if i = a then b else i
  { p.onTurns (fun t => { t with pin := t.pin.map at_ }) with
    mgoWait := p.mgoWait.map (fun w => (at_ w.1, w.2))
    replWrites := p.replWrites.map (fun w => { w with site := at_ w.site }) }

/-- The free spare of a site's die. -/
def State.spareOf (s : State) (site : Nat) : Option Nat :=
  ((List.range 36).map (fun i => dieOf site * 36 + i)).find? (fun i =>
    match s.columns.toList[i]? with
    | some c => c.spare && !c.retired
    | none => false)

/-- The partition that holds a cluster. -/
def State.clusterOwner (s : State) (cl : Nat) : Option Nat :=
  if s.part.live && s.part.clusters.contains cl then some s.pid
  else (List.find? (fun (e : Nat × Part) => e.2.live && e.2.clusters.contains cl) (s.parts.drop s.pid)).map (fun e => e.1)

/-- May the focused partition take a spare of this site: its cluster is the partition's or no one's. -/
def State.spareUsable (s : State) (spare : Nat) : Bool :=
  match s.clusterOwner (clusterOf spare) with
  | none => true
  | some p => p == s.pid

/-- May a site that is no partition's be replaced by a spare: the spare's cluster belongs to the partition of the site's cluster, or to none. -/
def State.spareFits (s : State) (site spare : Nat) : Bool :=
  (s.clusterOwner (clusterOf spare)).isNone || s.clusterOwner (clusterOf spare) == s.clusterOwner (clusterOf site)

/-- Clusters with one more, rising. -/
def insertRising (n : Nat) : List Nat → List Nat
  | [] => [n]
  | x :: rest => if n < x then n :: x :: rest else if n = x then x :: rest else x :: insertRising n rest

/-- A new spare map written (R60): the counter increments, and the record carries the device's tag. -/
def State.writeSpareMap (s : State) : State :=
  let marked := fun (p : Column → Bool) => (List.range 288).filter (fun i => match s.columns.toList[i]? with | some c => p c | none => false)
  let n := s.store.spareMap + 1
  let payload := Config.sparePayload (marked (fun c => c.spare && !c.retired)) (marked (fun c => c.retired))
  let r : CfgRecord := { kind := 1, version := n, payload := payload, tagged := true, auth := [] }
  { s with store := { s.store with spareMap := n, flash := s.store.flash ++ [{ r with auth := Config.kmac256 s.eastKey (recBody r) }] } }

/-- A failed site's flags: SPARE and RETIRED; the spare that took over has neither. The map is written before the site is used (R60). -/
def State.markSites (s : State) (failed : Nat) (spare : Option Nat) : State :=
  let s := { s with columns := atIndex s.columns failed (fun c => { c with spare := true, retired := true }) }
  (match spare with
  | some i => { s with columns := atIndex s.columns i (fun c => { c with spare := false }) }
  | none => s).writeSpareMap

/-- A context's turn pinned to a site, pinned to another. -/
def repin (a b : Nat) (t : Turn) : Turn := { t with pin := t.pin.map (fun i => if i = a then b else i) }

/-- The focused partition's core of a stopped site moved to the spare (R19 steps 2 and 3), live or as an image: the spare has its logical number,
and its cluster is the partition's. The other enabled sites of a cluster that joins so have no numbers until SITES_JOIN_PARTITION gives them
some: whether they get them at once the text does not say (DESIGN CHOICE, log 16). -/
def State.moveCore (s : State) (site spare : Nat) : State :=
  let pid := s.pid
  let s := if (s.boxAt site).core.part == some pid then
      let b := s.boxAt site
      let s := s.putBox site { core := { Core.reset with enabled := false }, a := Context.reset, b := Context.reset }
      let b := { b with core := { b.core with ctlTlb := [], tTlb := [], mTlb := [], vTlb := [], walks := [], wfault := [], enabled := true } }
      (s.putBox spare b).moveBytes (spKey site 0) (spKey spare 0) imageBytes
    else
      match s.part.images.find? site with
      | some b =>
        (s.onPart (fun p => { p with images := (p.images.drop site).put spare b })).moveBytes (shadowKey pid site 0) (shadowKey pid spare 0) imageBytes
      | none => s
  let s := (s.mapKeys (fun k => if spKey site 0 ≤ k ∧ k < spKey site imageBytes then k - spKey site 0 + spKey spare 0 else k)).mapNet site spare
  let n := (s.part.cores.find? site).getD 0
  let pin := fun (b : CoreBox) => { b with a := b.a.onTurn (repin site spare), b := b.b.onTurn (repin site spare) }
  let s := s.onPart (fun p =>
    { p.resite site spare with
      cores := (p.cores.drop site).put spare n, clusters := insertRising (clusterOf spare) p.clusters
      images := p.images.map (fun (e : Nat × CoreBox) => (e.1, pin e.2)) })
  s.onLiveCores pin

/-- A site out of service and its spare in its place: the responses that were still to come to the one come to the other. -/
def State.handOver (s : State) (site spare : Nat) : State :=
  let b := s.boxAt site
  let s := s.putBox site { b with core := { b.core with enabled := false, lateReads := [] } }
  let c := s.boxAt spare
  (s.putBox spare { c with core := { c.core with enabled := true, lateReads := c.core.lateReads ++ b.core.lateReads } }).remapAll

/-- Every partition that has a logical core at a site, the focused one first in force, with f applied; the focus returns. -/
def State.onHolders (s : State) (site : Nat) (f : State → State) : State :=
  let pid := s.pid
  (s.livePids.foldl (fun s q =>
    let s := s.focusPart q
    if (s.part.cores.find? site).isSome then f s else s) s).focusPart pid

/-- A site repair served: every partition with a core there has it at the spare, and the stopped one resumes with its new cluster map. -/
def State.serveRepair (s : State) (site spare : Nat) : State :=
  let s := ((s.onHolders site (fun s => s.moveCore site spare)).handOver site spare).markSites site (some spare)
  let s := if s.part.swapped then s else s.onLiveCores CoreBox.goOn
  ((s.endPause s.pid (.repair site)).repaired (.coreSite site)).notify (.mapResume s.pid)

/-- The partition that has a logical core at a site: the one that runs there, or one that is swapped out. -/
def State.holderOf (s : State) (site : Nat) : Option Nat :=
  match (s.boxAt site).core.part with
  | some p => some p
  | none => s.livePids.find? (fun q => ((s.focusPart q).part.cores.find? site).isSome)

/-- CORE_SITE_REPAIR (R19, R21): the partition's cores are asked to stop; once they have, or at once on the image of a partition swapped
out, the spare takes over the site's logical number. A site of no partition is replaced at once. The repair is in progress from the request for
the stop on. One whose die's spare lies in a cluster of another partition waits, and the repairs of its kind behind it: the text names no outcome
(DESIGN CHOICE, log 16). -/
def execCoreSiteRepair (site : Nat) (s : State) : Host.Outcome State Fault Refusal :=
  .next (match s.spareOf site with
    | none => s
    | some spare =>
      if !s.mayRepair (.coreSite site) || (s.columns.toList.getD site (Column.reset site)).spare then s
      else
        match s.holderOf site with
        | none => if s.spareFits site spare then ((s.handOver site spare).markSites site (some spare)).repaired (.coreSite site) else s
        | some p =>
          let s := s.focusPart p
          if !s.spareUsable spare then s
          else
            let s := s.repairing_ (.coreSite site)
            if s.part.swapped && !s.isPausing p then s.serveRepair site spare
            else if s.pauses.contains (p, .repair site) then (if s.allStopped then s.serveRepair site spare else s)
            else if s.isPausing p then s
            else s.askPause p (.repair site))

/-- A withdrawn core's turn at its last saved position, unpinned, back in its cluster's heap (R19). -/
def State.returnTurn (s : State) (site : Nat) (c : Context) : State :=
  match c.turn with
  | none => s
  | some t =>
    let c := { (c.pauseC s.cycle).holdAll.unplaced with turn := none, ranges := [] }
    s.returnHeap (clusterOf site) { turn := { t with pin := none }, saved := if t.started then some c else none }

/-- The focused partition's logical core at a site withdrawn: its turns return to the heap, and none stays pinned there. -/
def State.withdrawCore (s : State) (site : Nat) : State :=
  let b := s.coreOf site
  let s := if (s.boxAt site).core.part = some s.pid then
      s.putBox site { core := { Core.reset with enabled := false }, a := Context.reset, b := Context.reset }
    else s.onPart (fun q => { q with images := q.images.drop site })
  let unpin := fun (t : Turn) => { t with pin := t.pin.filter (fun i => decide (i ≠ site)) }
  let free := fun (b : CoreBox) => { b with a := b.a.onTurn unpin, b := b.b.onTurn unpin }
  let s := (s.onPart (fun q =>
    { q.onTurns unpin with cores := q.cores.drop site, images := q.images.map (fun (e : Nat × CoreBox) => (e.1, free e.2)) })).onLiveCores free
  (s.returnTurn site b.a).returnTurn site b.b

/-- CORE_SITE_RETIRE (R19): a site without a spare on its die is retired; its logical number is withdrawn, and its turns return unpinned.
Its pawns and scratchpad are lost with it (DESIGN CHOICE, log 16). -/
def execCoreSiteRetire (site : Nat) (s : State) : Host.Outcome State Fault Refusal :=
  .next (if 288 ≤ site || (s.spareOf site).isSome || !s.mayRepair (.coreSite site) || (s.columns.toList.getD site (Column.reset site)).spare then s
    else
      let s := s.onHolders site (fun s => s.withdrawCore site)
      let b := s.boxAt site
      ((s.putBox site { b with core := { b.core with enabled := false } }).markSites site none).repaired (.coreSite site))

/-! ### Requests and repairs of memory (R18, R20, R21, R112) -/

/-- REPAIR_REQUEST (R21): it starts once no repair of its kind is in progress, in arrival order. -/
def execRepairRequest (r : Repair) (s : State) : Host.Outcome State Fault Refusal :=
  .next (if s.repairing.any (sameKind r) then { s with repairs := s.repairs ++ [r] } else { s with repairing := s.repairing ++ [r] })

/-- HBM_ROW_REPAIR (R20): every access to the 64 KiB row is served from its staging copy, which answers to the row's own keys: the bytes and the
order of accesses are those of the row without the repair, and the latency is that of the copy. -/
def execHbmRowRepair (base : Nat) (s : State) : Host.Outcome State Fault Refusal :=
  .next (if base % 65536 ≠ 0 ∨ 12 * 2 ^ 36 ≤ base ∨ s.stagedRows.contains base = true then s
    else
      { s with stagedRows := s.stagedRows ++ [base] })

/-- HBM_ROW_REPAIR_DONE (R20): the staged bytes are written back, and the row is in service. -/
def execHbmRowRepairDone (base : Nat) (s : State) : Host.Outcome State Fault Refusal :=
  .next (if s.stagedRows.contains base then
      { s with stagedRows := s.stagedRows.erase base }
    else s)

/-- Physical memory that takes the contents of a retired channel or bank: what stood there is gone, and it answers to its own addresses no
more (R18). -/
def State.take (s : State) (pa n : Nat) : State :=
  let inside := fun (k : Nat) => decide (pa ≤ k) && decide (k < pa + n)
  { s with mem := s.mem.filter (fun e => !inside e.1), badWords := s.badWords.filter (fun w => !inside w)
           flips := s.flips.filter (fun w => !inside w), taken := s.taken ++ [(pa, n)] }

/-- The repair in progress that names a channel. -/
def isChannel (stack chan : Nat) : Repair → Bool
  | .hbmChannel a b _ _ _ => a == stack && b == chan
  | _ => false

/-- HBM_CHANNEL_RETIRE (R18, R21): the channel's contents move to their new place, of at most 2 GiB, and stay at their addresses (DEDUCED, log 16);
the new place is the cost. -/
def execHbmChannelRetire (stack chan : Nat) (s : State) : Host.Outcome State Fault Refusal :=
  .next (match s.repairing.find? (isChannel stack chan) with
    | some (.hbmChannel a b c dst bytes) =>
      let r : Repair := .hbmChannel a b c dst bytes
      if 12 ≤ stack ∨ 32 ≤ chan ∨ s.retiredChans.contains (stack, chan) = true then s.repaired r
      else (({ s with retiredChans := s.retiredChans ++ [(stack, chan)] }).take dst (min bytes (2 ^ 31))).repaired r
    | _ => s)

/-- DEEP_ROW_SPARE (R18): the spare row has the failing row's contents. -/
def execDeepRowSpare (site row : Nat) (s : State) : Host.Outcome State Fault Refusal :=
  .next (if 288 ≤ site ∨ s.sparedRows.contains (site, row) = true then s else { s with sparedRows := s.sparedRows ++ [(site, row)] })

/-- The deep-SRAM bank that holds a physical address now: a retired bank's contents are in the bank that took them (R18). Banks are
256 KiB, numbered 64 to a slice. -/
def State.bankOf (s : State) (key : Nat) : Option Nat :=
  (deepSite key).map (fun d =>
    let b := d * 64 + key % 2 ^ 24 / 2 ^ 18
    match s.retiredBanks.find? (fun r => r.1 == b) with
    | some r => r.2
    | none => b)

/-- The banks of each slot of a rack, where its slots lie in deep SRAM. -/
def State.slotBanks (s : State) (r : Rack) : List (List Nat) :=
  (List.range r.slots).map (fun i =>
    ((List.range ((r.stride + 65535) / 65536 + 1)).filterMap (fun j =>
      match s.placeNow .read ((r.slotAddr i).toNat + min (j * 65536) (r.stride - 1)) 1 with
      | .ok p => s.bankOf p.key
      | .error _ => none)).eraseDups)

/-- May a bank move to a new one: in no rack of the focused partition does another slot lie in the new bank (R112, R108). -/
def State.bankMovable (s : State) (old new : Nat) : Bool :=
  s.part.racks.all (fun e =>
    let bs := s.slotBanks e.2
    (bs.mapIdx (fun i l => !l.contains old ||
      (bs.mapIdx (fun j m => j == i || !m.contains new)).all id)).all id)

/-- DEEP_BANK_RETIRE (R18, R112): the bank's contents stay at their addresses in the new bank, whose own addresses are the cost. -/
def execDeepBankRetire (site bank : Nat) (s : State) : Host.Outcome State Fault Refusal :=
  .next (match s.repairing.findSome? (fun r => match r with
      | .deepBank a b c d => if a = site ∧ b = bank then some (r, c * 64 + d) else none
      | _ => none) with
    | none => s
    | some (r, new) =>
      let old := site * 64 + bank
      let at_ := 2 ^ 40 + new * 2 ^ 18
      if 288 ≤ site ∨ 64 ≤ bank ∨ s.retiredBanks.any (fun x => x.1 == old) = true ∨ s.names at_ = false then s.repaired r
      else if !s.livePids.all (fun p => (s.focusPart p).bankMovable old new) then s
      else
        (({ s with retiredBanks := s.retiredBanks.map (fun (x : Nat × Nat) => (x.1, if x.2 = old then new else x.2)) ++ [(old, new)] }).take
          at_ (2 ^ 18)).repaired r)

end Sys2Proof.Machine
end

