-- ==== Sys2Proof/Machine/HostPort.lean ====
section
/-! DEFINITION. Partitions and the submission path: creation, destruction, windows, doorbells, gating (spec/03_host_trust.md, R51 to R55,
R61, R62; R207, R399, R117). -/

namespace Sys2Proof.Machine

/-! ### Partitions (R52, R399) -/

/-- The enabled sites of some clusters, rising. -/
def State.enabledSites (s : State) (cls : List Nat) : List Nat :=
  (List.range 288).filter (fun i => cls.contains (clusterOf i) && (s.boxAt i).core.enabled)

/-- Sites numbered in the focused partition from its next number on. -/
def State.numberSites (s : State) (sites : List Nat) : State :=
  let s := s.onPart (fun p =>
    { p with cores := (sites.mapIdx (fun i x => (i, x))).foldl (fun (t : Tab Nat) e => t.put e.2 (p.nextCore + e.1)) p.cores
             nextCore := p.nextCore + sites.length })
  sites.foldl (fun s i =>
    let b := s.boxAt i
    s.putBox i { b with core := { b.core with part := some s.pid } }) s

/-- May a partition be created so: a free number, whole clusters of no one, a grant under the ceiling, sizes of R53 and R79, no slice of a
disabled site (R119). -/
def State.mayCreate (s : State) (part : Nat) (p : PartSpec) : Bool :=
  s.boot.step == .running && decide (part < 16) && !(s.focusPart part).part.live && !p.clusters.isEmpty &&
  p.clusters.all (fun c => decide (c < 72) && (s.clusterOwner c).isNone) && decide (s.grants + p.grant ≤ s.drawceil.toNat) &&
  decide (p.map.length ≤ 64) && !p.map.any s.grantsDisabled && decide (1024 ≤ p.spillCap) && decide (p.spillCap ≤ 65536)

/-- PARTITION_CREATE (R52, R59, R61, R212, R399): the seal is closed, the measurement is zeros, resident time is 0. -/
def execPartitionCreate (part : Nat) (p : PartSpec) (s : State) : Host.Outcome State Fault Refusal :=
  .next (if !s.mayCreate part p then s
    else
      let s := s.focusPart part
      let cls := p.clusters.foldl (fun l c => insertRising c l) []
      let fresh : Part :=
        { Part.none with
          live := true, clusters := cls, single := p.single, map := p.map, mapWritten := p.map, window := p.window, grant := p.grant
          ptroot := p.ptroot &&& 0x000FFFFFFFFF0000#64, tvec := p.tvec &&& 0x000FFFFFFFFFFFC0#64
          flog := capSize p.flog 10 &&& 0x000FFFFFFFFFFFCF#64, floge := p.floge &&& 0x1FFFF#64
          created := s.dtW, overflowCap := p.overflowCap, spillCap := p.spillCap, replicaCap := p.replicaCap }
      let s := s.onPart (fun _ => fresh)
      s.numberSites (s.enabledSites cls))

/-- SITES_JOIN_PARTITION (R399): numbers above the highest the partition has ever used. -/
def execSitesJoinPartition (part : Nat) (clusters : List Nat) (s : State) : Host.Outcome State Fault Refusal :=
  let s := s.focusPart part
  .next (if !s.part.live || s.part.swapped || s.isPausing part ||
      !clusters.all (fun c => decide (c < 72) && (match s.clusterOwner c with | none => true | some p => p == part)) then s
    else
      let sites := (s.enabledSites clusters).filter (fun i => (s.part.cores.find? i).isNone)
      (s.onPart (fun p => { p with clusters := clusters.foldl (fun l c => insertRising c l) p.clusters })).numberSites sites)

/-- The local physical ranges of a partition's map. -/
def mapRanges (m : List (BitVec 128)) : List (Nat × Nat) :=
  m.filterMap (fun e =>
    let w := e.toNat
    if w % 2 = 1 then some (w / 2 ^ 16 % 2 ^ 36 * 65536, w / 2 ^ 64 % 2 ^ 36 * 65536) else none)

/-- The state in which some ranges of storage hold zeros. -/
def State.zeroRanges (s : State) (rs : List (Nat × Nat)) : State :=
  let hit := fun (k : Nat) => rs.any (fun r => decide (r.1 ≤ k) && decide (k < r.1 + r.2))
  { s with mem := s.mem.filter (fun e => !hit e.1), badWords := s.badWords.filter (fun w => !hit w), flips := s.flips.filter (fun w => !hit w) }

/-- PARTITION_DESTROY (R62): its memory, scratchpads and shadow images are zeroed, whatever the seal. -/
def execPartitionDestroy (part : Nat) (s : State) : Host.Outcome State Fault Refusal :=
  let s := s.focusPart part
  .next (if !s.part.live then s
    else
      let live := s.liveSites
      let zero := mapRanges s.part.map ++ live.map (fun i => (spKey i 0, imageBytes)) ++ [(shadowKey part 0 0, 2 ^ 32)]
      let s := s.zeroRanges zero
      let s := live.foldl (fun s i =>
        let b := s.boxAt i
        s.putBox i { core := { Core.reset with enabled := b.core.enabled, board := b.core.board }, a := Context.reset, b := Context.reset }) s
      let pauses := s.pauses.filter (fun e => !(e.1 == part))
      { s.onPart (fun _ => Part.none) with
        pauses := pauses, colls := s.colls.filter (fun c => !(c.part == part))
        walkCaches := s.walkCaches.map (fun l => l.filter (fun e => !(e.1 == part)))
        shadows := s.shadows.filter (fun e => !(e.2 == part)) })

/-- VF_FUNCTION_LEVEL_RESET (R51, R78): the jobs are cancelled at level 4, and the submission queue is empty: records copied from it and not
loaded yet go too. -/
def execVfFunctionLevelReset (part : Nat) (s : State) : Host.Outcome State Fault Refusal :=
  let s := s.focusPart part
  .next (if !s.part.live then s
    else
      let jobs := (s.part.jobs.filter (fun j => j.live)).map (fun j => j.counter)
      (jobs.foldl (fun s a => s.cancelLevel a .job) s).onPart (fun p => { p with subq := [], copied := [] }))

/-! ### The submission path (R54, R55) -/

/-- A write to SUBMIT. -/
def State.submit (s : State) (bytes : Nat) (v : Word) : State :=
  if bytes < 8 ∨ v.toNat % 64 ≠ 0 ∨ 2 ^ 20 < v.toNat + 256 then s.onPart (fun p => { p with badaddr := true })
  else if 16 ≤ s.part.subq.length then s.onPart (fun p => { p with ovf := true })
  else s.onPart (fun p => { p with subq := p.subq ++ [v.toNat] })

/-- SUBMIT_WRITE (R55). -/
def execSubmitWrite (part bytes : Nat) (v : BitVec 64) (s : State) : Host.Outcome State Fault Refusal :=
  let s := s.focusPart part
  .next (if s.part.live then s.submit bytes v else s)

/-- SUBMISSION_WINDOW_WRITE (R54, R55, R62): memory of the window, SUBMIT, SUBST's RW1C bits, SEAL; a reserved offset and a VF without a
partition drop it. -/
def execSubmissionWindowWrite (part off : Nat) (data : List (BitVec 8)) (s : State) : Host.Outcome State Fault Refusal :=
  let s := s.focusPart part
  let v := leNat data
  .next (if !s.part.live then s
    else if off + data.length ≤ 2 ^ 20 then s.frameWrite (some ((s.part.window + off) / 65536)) (s.part.window + off) data 288 false 4 none
    else if 0x100000 ≤ off ∧ off < 0x100008 then
      s.submit (if off = 0x100000 then data.length else min data.length 7) (BitVec.ofNat 64 v)
    else if off = 0x100008 then
      s.onPart (fun p => { p with ovf := p.ovf && decide (v / 32 % 2 = 0), badaddr := p.badaddr && decide (v / 64 % 2 = 0) })
    else if off = 0x100010 then s.onPart (fun p => { p with sealOpen := decide (v % 2 = 1) })
    else s)

/-- SUBMISSION_COPY (R55): the oldest entry's record is copied whole, ACCEPTED increments, the entry is free. A partition that is
swapped out waits. -/
def execSubmissionCopy (part : Nat) (s : State) : Host.Outcome State Fault Refusal :=
  let s := s.focusPart part
  .next (match s.part.subq with
    | [] => s
    | off :: rest =>
      if !s.part.live || s.part.swapped then s
      else
        let bytes := s.mem.readBytes (s.part.window + off) 256
        s.onPart (fun p => { p with subq := rest, copied := p.copied ++ [(off, bytes)], accepted := p.accepted + 1 }))

/-- SUBST as a read gives it (R55). -/
def Part.subst (p : Part) : Nat :=
  p.subq.length + 2 ^ 5 * p.ovf.toNat + 2 ^ 6 * p.badaddr.toNat + 2 ^ 7 * p.swapped.toNat + 2 ^ 16 * p.accepted.toNat

/-- What a VF's read of n bytes of its window gives (R51, R54): all ones from a VF without a partition; the submission window as memory; SUBMIT,
which is write only, and reserved offsets read zero. A read changes nothing. -/
def State.vfRead (s : State) (part off n : Nat) : Nat :=
  let s := s.focusPart part
  if !s.part.live then 256 ^ n - 1
  else if off + n ≤ 2 ^ 20 then leNat (s.mem.readBytes (s.part.window + off) n)
  else if 0x100008 ≤ off ∧ off < 0x100010 then s.part.subst / 256 ^ (off - 0x100008) % 256 ^ n
  else if 0x100010 ≤ off ∧ off < 0x100018 then s.part.sealOpen.toNat / 256 ^ (off - 0x100010) % 256 ^ n
  else 0

/-! ### Gating and drowsy banks (R117, R207) -/

/-- Is a core without turns and open pawns: it may lose power. -/
def CoreBox.quiet (b : CoreBox) : Bool := b.a.turn.isNone && b.b.turn.isNone && !b.core.pawns.toList.any (fun p => p.open)

/-- CLUSTER_POWER_GATE (R207): the trace buffers keep their records; only a cluster without turns and pawns is gated (DEDUCED, log 16). -/
def execClusterPowerGate (cluster : Nat) (s : State) : Host.Outcome State Fault Refusal :=
  .next (if s.gated.contains cluster || decide (72 ≤ cluster) || !(sitesOf cluster).all (fun i => (s.boxAt i).quiet) then s
    else
      let s := (sitesOf cluster).foldl (fun s i =>
        let b := s.boxAt i
        s.putBox i { b with core := { b.core with gatedAt := some s.dt, ctlTlb := [], tTlb := [], mTlb := [], vTlb := [] } }) s
      { s with gated := s.gated ++ [cluster] })

/-- CLUSTER_UNGATE (R207): a gap record is owed once the buffers have drained. -/
def execClusterUngate (cluster : Nat) (s : State) : Host.Outcome State Fault Refusal :=
  .next (if !s.gated.contains cluster then s
    else
      let s := (sitesOf cluster).foldl (fun s i =>
        let b := s.boxAt i
        let gap := b.core.gatedAt.map (fun t => s.dt - t)
        s.putBox i { b with core := { b.core with gatedAt := none, gapOwed := gap } }) s
      { s with gated := s.gated.erase cluster })

/-- BANK_GOES_DROWSY (R117): banks of 256 KiB, 64 to a slice. -/
def execBankGoesDrowsy (site bank : Nat) (s : State) : Host.Outcome State Fault Refusal :=
  .next (if 288 ≤ site ∨ 64 ≤ bank ∨ s.drowsy.contains (site, bank) = true then s else { s with drowsy := s.drowsy ++ [(site, bank)] })

end Sys2Proof.Machine
end

