-- ==== Sys2Proof/Machine/Jobs.lean ====
section
/-! DEFINITION. The loader: job records, .vfo images, relocations, racks and event names of a job (R65, R66, R96 to R98, R251 to R254), and
the imports a supervisor registers. -/

namespace Sys2Proof.Machine

/-! ### Reading bytes -/

/-- The little-endian number of n bytes from offset i of a list. -/
def numAt (l : List (BitVec 8)) (i n : Nat) : Nat := leNat ((l.drop i).take n)

/-- n bytes from a virtual address, in pieces that stay within a 64-byte line. -/
def State.readSpan (s : State) : Nat → Nat → Nat → Except Cause (List (BitVec 8))
  | 0, _, _ => .ok []
  | fuel + 1, va, n =>
    if n = 0 then .ok []
    else
      let k := min n (64 - va % 64)
      match s.placeNow .read va k with
      | .error c => .error c
      | .ok p =>
        if s.readBad p.key k then .error .memerr
        else
          match s.readSpan fuel (va + k) (n - k) with
          | .error c => .error c
          | .ok rest => .ok (s.mem.readBytes p.key k ++ rest)

/-- Where the loader's own access to n bytes of the image lands: it writes its pages whatever they permit, so that code pages need no WR
(R252); the partition map must hold the frame, code with CODE and rodata with RD (DEDUCED, log 12). -/
def State.placeLoad (s : State) (k : Acc) (va n : Nat) : Except Cause Place :=
  if 2 ^ 52 ≤ va ∨ inWindow va = true then .error .prot
  else
    match s.walk va with
    | .error c => .error c
    | .ok l => if s.peerStops l then .error .peerlost else s.placeBy { l with rd := true, wr := true, code := true } k va n

/-- Bytes of the image that the loader writes from a virtual address on. -/
def State.loadSpan (s : State) (k : Acc) : Nat → Nat → List (BitVec 8) → Except Cause State
  | 0, _, _ => .ok s
  | fuel + 1, va, bs =>
    if bs.isEmpty then .ok s
    else
      let n := min bs.length (64 - va % 64)
      match s.placeLoad k va n with
      | .error c => .error c
      | .ok p => (s.hwWrite p (bs.take n) none).loadSpan k fuel (va + n) (bs.drop n)

/-! ### Images (R251 to R254) -/

/-- A section: kind, alignment, offset from the load base, and contents. -/
structure VSection where
  kind : Nat
  align : Nat
  off : Nat
  bytes : List (BitVec 8)
deriving DecidableEq, Repr

/-- A symbol: name, section, kind, flags, value. -/
structure VSymbol where
  name : List (BitVec 8)
  sec : Nat
  kind : Nat
  flags : Nat
  value : Nat
deriving DecidableEq, Repr

/-- A relocation: section, kind, field, offset, symbol, addend. -/
structure VReloc where
  sec : Nat
  kind : Nat
  low : Nat
  width : Nat
  off : Nat
  sym : Nat
  add : Nat
deriving DecidableEq, Repr

/-- A .vfo image. -/
structure Vfo where
  sections : List VSection
  symbols : List VSymbol
  relocs : List VReloc
  size : Nat
deriving DecidableEq, Repr

/-- A zero-terminated string of the string table; none without its terminator. -/
def stringAt (img : List (BitVec 8)) (table off : Nat) : Option (List (BitVec 8)) :=
  let l := img.drop (table + off)
  let s := l.takeWhile (fun b => b != 0)
  if s.length < l.length then some s else none

/-- A section entry. -/
def readSection (img : List (BitVec 8)) (at_ strings : Nat) : Option VSection :=
  let size := numAt img (at_ + 16) 8
  let file := numAt img (at_ + 24) 8
  let kind := numAt img (at_ + 4) 1
  if (stringAt img strings (numAt img at_ 4)).isNone ∨ kind = 0 ∨ 7 < kind ∨ numAt img (at_ + 6) 2 ≠ 0 ∨ img.length < file + size ∨
      (kind = 7 ∧ numAt img (at_ + 8) 8 ≠ 0) then none
  else some { kind := kind, align := numAt img (at_ + 5) 1, off := numAt img (at_ + 8) 8, bytes := (img.drop file).take size }

/-- A symbol entry. -/
def readSymbol (img : List (BitVec 8)) (at_ strings secs : Nat) : Option VSymbol :=
  let sec := numAt img (at_ + 4) 2
  let kind := numAt img (at_ + 6) 1
  match stringAt img strings (numAt img at_ 4) with
  | none => none
  | some name =>
    if kind = 0 ∨ 5 < kind ∨ 4 ≤ numAt img (at_ + 7) 1 ∨ numAt img (at_ + 16) 8 ≠ 0 ∨ (secs ≤ sec ∧ sec < 0xFFFE) then none
    else some { name := name, sec := sec, kind := kind, flags := numAt img (at_ + 7) 1, value := numAt img (at_ + 8) 8 }

/-- A relocation entry. -/
def readReloc (img : List (BitVec 8)) (at_ secs syms : Nat) : Option VReloc :=
  let r : VReloc :=
    { sec := numAt img at_ 2, kind := numAt img (at_ + 2) 1, low := numAt img (at_ + 3) 1, width := numAt img (at_ + 4) 1
      off := numAt img (at_ + 8) 8, sym := numAt img (at_ + 16) 4, add := numAt img (at_ + 24) 8 }
  if secs ≤ r.sec ∨ r.kind = 0 ∨ 7 < r.kind ∨ 64 < r.low + r.width ∨ numAt img (at_ + 5) 3 ≠ 0 ∨ numAt img (at_ + 20) 4 ≠ 0 ∨ syms ≤ r.sym then
    none
  else some r

/-- A list of options whose elements are all there. -/
def allSome {α : Type} : List (Option α) → Option (List α)
  | [] => some []
  | none :: _ => none
  | some x :: rest => (allSome rest).map (fun l => x :: l)

/-- A number rounded up to a multiple. -/
def roundUp (n m : Nat) : Nat := (n + m - 1) / m * m

/-- Do the loaded sections lie where R252 puts them: code in the order C, T, M, V at 64-byte boundaries, then rodata and data at 64 KiB
boundaries? `at_` is where the last one ends. -/
def layoutOk : List VSection → Nat → Bool
  | [], _ => true
  | s :: rest, at_ =>
    let off := if s.kind ≤ 4 then roundUp at_ 64 else roundUp at_ 65536
    decide (s.off = off) && layoutOk rest (off + s.bytes.length)

/-- The loaded sections that hold something, by kind; none when a kind comes twice. -/
def loadedSections (l : List VSection) : Option (List VSection) :=
  let real := l.filter (fun s => decide (s.kind ≠ 7) && !s.bytes.isEmpty)
  if (real.map (fun s => s.kind)).eraseDups.length ≠ real.length then none
  else some ([1, 2, 3, 4, 5, 6].filterMap (fun k => real.find? (fun s => s.kind == k)))

/-- The tables of a .vfo image, whatever they describe (R251, R253). -/
def readTables (img : List (BitVec 8)) : Option Vfo :=
  let magic := [0x56, 0x4C, 0x46, 0x44, 0x4F, 0x42, 0x4A, 0x31]
  let ns := numAt img 10 2
  let ny := numAt img 48 4
  let nr := numAt img 52 4
  let st := numAt img 16 8
  let yt := numAt img 24 8
  let rt := numAt img 32 8
  let str := numAt img 40 8
  if img.length < 64 ∨ (img.take 8).map (fun b => b.toNat) ≠ magic ∨ numAt img 8 2 ≠ 1 ∨ numAt img 12 4 ≠ 0 ∨ img.length < st + 32 * ns ∨
      img.length < yt + 24 * ny ∨ img.length < rt + 32 * nr then none
  else
    match allSome ((List.range ns).map (fun i => readSection img (st + 32 * i) str)),
        allSome ((List.range ny).map (fun i => readSymbol img (yt + 24 * i) str ns)),
        allSome ((List.range nr).map (fun i => readReloc img (rt + 32 * i) ns ny)) with
    | some ss, some ys, some rs => some { sections := ss, symbols := ys, relocs := rs, size := numAt img 56 8 }
    | _, _, _ => none

/-- Does an image describe sections that lie as they must, and its size (R251 to R253). -/
def Vfo.ok (v : Vfo) : Bool :=
  match loadedSections v.sections with
  | none => false
  | some real => layoutOk real 0 && decide (v.size = real.foldl (fun m s => max m (s.off + s.bytes.length)) 0)

/-- A valid .vfo image (R251 to R253). -/
def readVfo (img : List (BitVec 8)) : Option Vfo := (readTables img).filter (fun v => v.ok)

/-! ### Names (R91, R98, R129, R254) -/

/-- The lowest n numbers below a limit that a list does not hold. -/
def freeNumbers (limit : Nat) (used : List Nat) (n : Nat) : List Nat := ((List.range limit).filter (fun i => !used.contains i)).take n

/-- The image's own symbols of a kind, with their indices. -/
def Vfo.own (v : Vfo) (kind : Nat) : List (Nat × VSymbol) :=
  (v.symbols.mapIdx (fun i y => (i, y))).filter (fun e => e.2.kind == kind && e.2.sec != 0xFFFF)

/-- The numbers bound to symbols: symbol index and number. -/
abbrev Binding := List (Nat × Nat)

/-- The value S of a symbol for a relocation (R254): an address, a constant, a bound number, or a registered import of its name and
kind. -/
def State.symbolValue (s : State) (v : Vfo) (b : Binding) (base : Nat) (i : Nat) : Option Nat :=
  match v.symbols[i]? with
  | none => none
  | some y =>
    if y.sec = 0xFFFF then (s.part.imports.find? (fun e => e.1 == y.name && e.2.1 == y.kind)).map (fun e => e.2.2.toNat)
    else if y.kind = 1 then (v.sections[y.sec]?).map (fun c => base + c.off + y.value)
    else if y.kind = 2 then some y.value
    else (b.find? (fun e => e.1 == i)).map (fun e => e.2)

/-- The symbol kind that a relocation kind takes. -/
def relocTakes (kind sym : Nat) : Bool :=
  match kind with
  | 5 => sym == 5
  | 6 => sym == 4
  | 7 => sym == 3
  | _ => sym == 1 || sym == 2

/-- The field value of a relocation, or none if it is unresolved or does not fit (R254). `word` is the patched word of its section at an
offset. -/
def State.relocValue (s : State) (v : Vfo) (b : Binding) (base : Nat) (r : VReloc) (prev : Nat) : Option Nat :=
  match s.symbolValue v b base r.sym, v.symbols[r.sym]?, v.sections[r.sec]? with
  | some sv, some y, some c =>
    let p : Int := base + c.off + r.off
    let e : Int := sv + signedOf 64 r.add - p
    let fits := fun (x : Int) (w : Nat) => if -(2 ^ (w - 1) : Int) ≤ x ∧ x < 2 ^ (w - 1) then some (x % 2 ^ w).toNat else none
    if !relocTakes r.kind y.kind then none
    else
      match r.kind with
      | 1 => if e % 4 = 0 then fits (e / 4) 20 else none
      | 2 => fits (e / 4) 18
      | 3 => fits (e + 4 - 4 * signedOf 18 (prev % 2 ^ 18)) 13
      | 4 => some ((sv + r.add) % 2 ^ 64)
      | _ => if sv < 2 ^ r.width then some sv else none
  | _, _, _ => none

/-- Bits low to low + width - 1 of a number replaced. -/
def putField (w low width v : Nat) : Nat := w % 2 ^ low + v % 2 ^ width * 2 ^ low + w / 2 ^ (low + width) * 2 ^ (low + width)

/-- The field that a relocation fills: kinds 1 to 4 have theirs fixed. -/
def VReloc.field (r : VReloc) : Nat × Nat :=
  match r.kind with
  | 1 => (0, 20)
  | 2 => (0, 18)
  | 3 => (0, 13)
  | 4 => (0, 64)
  | _ => (r.low, r.width)

/-- One relocation applied to the sections. Those of the job section are the host's. -/
def State.relocate (s : State) (v : Vfo) (b : Binding) (base : Nat) (ss : List VSection) (r : VReloc) : Option (List VSection) :=
  match ss[r.sec]? with
  | none => none
  | some c =>
    if c.kind = 7 then some ss
    else
      let f := r.field
      let n := (f.1 + f.2 + 7) / 8
      if c.bytes.length < r.off + n then none
      else
        match s.relocValue v b base r (numAt c.bytes (r.off - 4) 4) with
        | none => none
        | some x =>
          let w := putField (numAt c.bytes r.off n) f.1 f.2 x
          some (ss.set r.sec { c with bytes := c.bytes.take r.off ++ leBytes n w ++ c.bytes.drop (r.off + n) })

/-- Every relocation applied in table order. -/
def State.relocateAll (s : State) (v : Vfo) (b : Binding) (base : Nat) : List VReloc → List VSection → Option (List VSection)
  | [], ss => some ss
  | r :: rest, ss =>
    match s.relocate v b base ss r with
    | none => none
    | some ss => s.relocateAll v b base rest ss

/-! ### Racks (R96 to R98) -/

/-- The bank of deep SRAM that 256 KiB from a virtual address lie in whole, with its partition's grant: the one that holds them now (R18). -/
def State.wholeBank (s : State) (va : Nat) : Option Nat :=
  let ps := (List.range 4).map (fun i =>
    match s.placeNow .read (va + 65536 * i) 65536, s.placeNow .write (va + 65536 * i) 65536 with
    | .ok p, .ok _ => some p.key
    | _, _ => none)
  match ps with
  | [some a, some b, some c, some d] =>
    if a % 2 ^ 18 = 0 ∧ b = a + 65536 ∧ c = a + 131072 ∧ d = a + 196608 ∧ (deepSite a).isSome = true then s.bankOf a else none
  | _ => none

/-- The bank of deep SRAM that a virtual address lies in, if it lies in one. -/
def State.bankAt (s : State) (va : Nat) : Option Nat :=
  match s.walk va with
  | .ok l => if l.tgt.val = 0 then s.bankOf (l.frame * 65536 + va % l.size) else none
  | .error _ => none

/-- The banks of deep SRAM that a range of n bytes from a virtual address lies in. -/
def State.rangeBanks (s : State) (va n : Nat) : List Nat :=
  if n = 0 then [] else ((List.range ((va % 65536 + n + 65535) / 65536)).filterMap (fun i => s.bankAt (va + 65536 * i))).eraseDups

/-- The banks that hold what the partition is given beside slots: its submission window (R54), and the live descriptors and load ranges of its
jobs (R97). Where its spill areas and overflow area lie the text does not say: they hold no bank of the model's (DESIGN CHOICE, log 15). -/
def State.givenBanks (s : State) : List Nat :=
  (List.range 4).filterMap (fun i => s.bankOf (s.part.window + 2 ^ 18 * i)) ++
  s.part.racks.flatMap (fun e => s.rangeBanks e.2.desc.toNat 64) ++
    (s.part.jobs.filter (fun j => j.live)).flatMap (fun j => s.rangeBanks j.range.1 j.range.2)

/-- The bytes of this chip that a virtual range lies in, a piece for each of its 64 KiB. -/
def State.rangePieces (s : State) (va n : Nat) : List (Nat × Nat) :=
  if n = 0 then []
  else (List.range ((va % 65536 + n + 65535) / 65536)).filterMap (fun i =>
    let lo := max va (va / 65536 * 65536 + 65536 * i)
    let hi := min (va + n) (va / 65536 * 65536 + 65536 * (i + 1))
    match s.walk lo with
    | .ok l => if l.tgt.val = 0 then some (l.frame * 65536 + lo % l.size, hi - lo) else none
    | .error _ => none)

/-- Are 64 bytes free for a live descriptor: they lie outside the submission window, the load ranges of the partition's jobs and of the one that
is loaded, and the other live descriptors (R96 to R98). -/
def State.descFree (s : State) (key : Nat) (made : List Rack) (range : Nat × Nat) : Bool :=
  let given := (s.part.window, 2 ^ 20) :: (s.part.racks.map (fun e => e.2) ++ made).flatMap (fun r => s.rangePieces r.desc.toNat 64) ++
    (range :: (s.part.jobs.filter (fun j => j.live)).map (fun j => j.range)).flatMap (fun r => s.rangePieces r.1 r.2)
  !given.any (fun g => decide (g.1 < key + 64) && decide (key < g.1 + g.2))

/-- A rack from its descriptor image and the loader's places, or none where R98 fails the job. `made` are the racks of the job made before it,
`slotted` the banks given to slots, `given` those given to anything else, `range` the job's load range. The controller reads
the live descriptor once, here: when it does the text does not say (DESIGN CHOICE, log 15). -/
def State.makeRack (s : State) (img : List (BitVec 8)) (job : Nat) (desc base : Word) (made : List Rack) (slotted given : List Nat)
    (range : Nat × Nat) : Option (Rack × List Nat) :=
  let units := numAt img 0 4
  let slots := numAt img 4 1
  let nports := numAt img 5 1
  let b6 := numAt img 6 1
  let scope := b6 / 2 % 8
  let deep := b6 % 2 == 0
  let stride := roundUp (units * 4096) (if deep then 2 ^ 18 else 65536)
  match s.part.clusters[numAt img 16 2]? with
  | none => none
  | some home =>
    let die := home / 9
    let pages := slots * stride / (if deep then 2 ^ 18 else 65536)
    let held := ((s.part.racks :: (s.parts.drop s.pid).map (fun (e : Nat × Part) => e.2.racks)).map
      (fun rs => (rs.filter (fun e => decide (e.2.home / 9 = die))).length)).sum + (made.filter (fun r => decide (r.home / 9 = die))).length
    if units = 0 ∨ 262144 < units ∨ slots < 2 ∨ 64 < slots ∨ nports = 0 ∨ 62 < nports ∨ slots < nports + 2 ∨ scope < 2 ∨ 4 < scope ∨ 16 ≤ b6 ∨
        numAt img 7 1 ≠ 0 ∨ numAt img 18 6 ≠ 0 ∨ 4096 ≤ held then none
    else
      let descOk := match s.placeNow .read desc.toNat 64, s.placeNow .write desc.toNat 64 with
        | .ok p, .ok _ => decide (desc.toNat % 64 = 0) &&
          (match s.bankOf p.key with | some k => dieOf (k / 64) == die && !slotted.contains k && s.descFree p.key made range | none => false)
        | _, _ => false
      let banks := (List.range pages).map (fun i => s.wholeBank (base.toNat + 2 ^ 18 * i))
      let regionOk :=
        if deep then
          decide (base.toNat % 2 ^ 18 = 0) && banks.all (fun b => match b with
            | some k => dieOf (k / 64) == die && !slotted.contains k && !given.contains k && !(s.rangeBanks desc.toNat 64).contains k
            | none => false) && decide ((banks.filterMap id).eraseDups.length = pages)
        else
          decide (base.toNat % 65536 = 0) && (List.range pages).all (fun i =>
            match s.placeNow .read (base.toNat + 65536 * i) 65536, s.placeNow .write (base.toNat + 65536 * i) 65536 with
            | .ok p, .ok _ => decide (p.key < 12 * 2 ^ 36)
            | _, _ => false)
      if descOk && regionOk then
        some ({ job := job, slots := slots, base := base, stride := stride, scope := scope, home := home, desc := desc,
                slotSeq := List.replicate slots 0, slotCycle := List.replicate slots none, freshest := none, seq := 0,
                ports := List.replicate nports none, writer := none }, if deep then banks.filterMap id else [])
      else none

/-- The banks that the slots of a partition's racks have been given. -/
def State.rackBanks (s : State) : List Nat :=
  s.part.racks.flatMap (fun e =>
    if e.2.stride % 2 ^ 18 = 0 then (List.range (e.2.slots * e.2.stride / 2 ^ 18)).filterMap (fun i => s.wholeBank (e.2.base.toNat + 2 ^ 18 * i))
    else [])

/-- The racks of a job made in symbol order: number, section and offset of its image, rack. -/
def State.makeRacks (s : State) (v : Vfo) (job : Nat) (range : Nat × Nat) :
    List (Nat × VSymbol × Nat × Word × Word) → List Rack → List Nat → List Nat → Option (List (Nat × Nat × Nat × Rack))
  | [], _, _, _ => some []
  | (_, y, n, desc, base) :: rest, made, slotted, given =>
    match v.sections[y.sec]? with
    | none => none
    | some c =>
      match s.makeRack ((c.bytes.drop y.value).take 32) job desc base made slotted given range with
      | none => none
      | some (r, banks) =>
        if c.bytes.length < y.value + 32 then none
        else
          (s.makeRacks v job range rest (r :: made) (banks ++ slotted) (s.rangeBanks desc.toNat 64 ++ given)).map
            (fun l => (n, y.sec, y.value, r) :: l)

/-- A rack's image with what the loader writes into it: the cluster, the slot region, the live descriptor's address. -/
def patchRack (ss : List VSection) (e : Nat × Nat × Nat × Rack) : List VSection :=
  match ss[e.2.1]? with
  | none => ss
  | some c =>
    let o := e.2.2.1
    let r := e.2.2.2
    let bytes := c.bytes.take (o + 8) ++ leBytes 8 r.base.toNat ++ leBytes 2 r.home ++ (c.bytes.drop (o + 18)).take 6 ++ leBytes 8 r.desc.toNat ++
      c.bytes.drop (o + 32)
    ss.set e.2.1 { c with bytes := bytes }

/-- The live descriptor of a rack written (R96). -/
def State.writeDesc (s : State) (img : List (BitVec 8)) (r : Rack) : State :=
  let bytes := img.take 8 ++ leBytes 8 r.base.toNat ++ leBytes 2 r.home ++ List.replicate 46 0
  match s.placeNow .write r.desc.toNat 64 with
  | .ok p => s.hwWrite p bytes none
  | .error _ => s

/-! ### Loading (R66) -/

/-- A job record's fields: counter, image, length, load base, load length, activity offsets, MSI-X vector, strict. -/
structure JobRec where
  counter : Nat
  image : Nat
  imageLen : Nat
  base : Nat
  len : Nat
  acts : List Nat
  msix : Option (Fin 16)
  strict : Bool
  ok : Bool
deriving DecidableEq, Repr

/-- A job record of 256 bytes (R65). -/
def readJob (l : List (BitVec 8)) : JobRec :=
  let n := numAt l 3 1
  let flags := numAt l 4 4
  let offs := (List.range 16).map (fun i => numAt l (48 + 8 * i) 8)
  { counter := numAt l 8 8, image := numAt l 16 8, imageLen := numAt l 24 8, base := numAt l 32 8, len := numAt l 40 8
    acts := offs.take n, msix := if flags % 2 = 1 then some (Fin.ofNat 16 (flags / 2)) else none, strict := decide (flags / 32 % 2 = 1)
    ok := decide (numAt l 0 2 = 1) && decide (numAt l 2 1 = 1) && decide (1 ≤ n) && decide (n ≤ 16) && decide (flags / 64 = 0) &&
      (offs.drop n).all (fun x => decide (x = 0)) && (l.drop 176).all (fun b => b == 0) && decide (numAt l 32 8 % 65536 = 0) }

/-- The vector of a job fires, if it asks for one. -/
def State.fireJob (s : State) (j : JobRec) : State :=
  match j.msix with
  | some v => s.notify (.vfVector s.pid v.val)
  | none => s

/-- Is the job's counter writable by the partition. -/
def State.counterWritable (s : State) (j : JobRec) : Bool := decide (j.counter % 8 = 0) && (s.placeNow .write j.counter 8).toOption.isSome

/-- A job is dropped (R66): its window offset is written to the reject word. -/
def State.dropJob (s : State) (j : JobRec) (off : Nat) : State :=
  (s.writeKey (s.part.window + 0xFFFF8) 8 off).fireJob j

/-- The relocation that names the event of the job's counter: its EVENT field lies at bits 63 to 48 of the word. -/
def counterReloc (v : Vfo) (j : JobRec) : Option VReloc :=
  v.relocs.find? (fun r => r.kind == 7 && r.width == 16 &&
    (match v.sections[r.sec]? with
     | some c => decide (c.kind ≠ 7) && decide (8 * (j.base + c.off + r.off) + r.low = 8 * j.counter + 48)
     | none => false))

/-- The counter word of the job as its image holds it, if it lies there. -/
def imageCounter (v : Vfo) (j : JobRec) : Option Nat :=
  v.sections.findSome? (fun c =>
    if c.kind ≠ 7 ∧ j.base + c.off ≤ j.counter ∧ j.counter + 8 ≤ j.base + c.off + c.bytes.length then
      some (numAt c.bytes (j.counter - j.base - c.off) 8)
    else none)

/-- What the loader knows of a job it is loading. -/
structure Loading where
  rec_ : JobRec
  img : List (BitVec 8)
  vfo : Option Vfo
  binding : Binding
deriving DecidableEq, Repr

/-- The counter's own event bound before any other check (R66): its symbol and name, or none where it cannot be bound. -/
def State.bindCounter (s : State) (v : Vfo) (j : JobRec) : Option (Nat × Nat × Bool) :=
  match counterReloc v j with
  | none => none
  | some r =>
    match v.symbols[r.sym]? with
    | none => none
    | some y =>
      if y.kind ≠ 3 ∨ y.sec = 0xFFFF then none
      else if 4096 ≤ s.part.events.length then none
      else ((freeNumbers 4096 (s.part.events.map (fun e => e.1)) 1).head?).map (fun n => (r.sym, n, decide (y.flags / 2 % 2 = 1)))

/-- A fresh event of a job. -/
def EvEnt.fresh (job : Nat) (counting : Bool) : EvEnt :=
  { job := job, counting := counting, state := 0, waiters := [], overflow := [], notify := false, vec := 0, walkAt := none }

/-- A failed job reported (R66): the counter is DONE and FAULTED with its event posted, and the vector fires. An image whose tables cannot be read
resolves no relocation, so its counter posts nothing. -/
def State.failJob (s : State) (v : Option Vfo) (j : JobRec) (job : Nat) : State :=
  let named := match v with
    | none => none
    | some v => match counterReloc v j with
      | none => none
      | some r => some (s.bindCounter v j, r.sym, v)
  let old := ((v.bind (fun v => imageCounter v j)).getD ((s.ctr (BitVec.ofNat 64 j.counter)).getD 0))
  let silent := if ctrBit old 47 then old - 2 ^ 47 else old
  let w := match named with
    | none => if v.isNone then silent else old
    | some (some (_, n, _), _, _) => old % 2 ^ 48 + n * 2 ^ 48
    | some (none, sym, v) =>
      match (v.symbols[sym]?).bind (fun y => if y.sec = 0xFFFF then s.symbolValue v [] j.base sym else none) with
      | some n => old % 2 ^ 48 + n % 65536 * 2 ^ 48
      | none => silent
  let done := ctrSet (ctrSet (ctrCreate w 0) 41 true) 43 true
  let s := s.putCtr (BitVec.ofNat 64 j.counter) done
  let s := match named with
    | some (some (_, n, counting), _, _) =>
      -- the one name is live while the failure is reported
      let s := s.putEvent n (EvEnt.fresh job counting)
      let s := if ctrBit done 47 then s.applyEvOp { due := s.cycle, name := n, kind := .post, tok := none } else s
      s.onPart (fun p => { p with events := p.events.drop n })
    | _ => s.postOf done
  s.fireJob j

/-- An activity of the loaded image (R67), or none where it is malformed. -/
def State.readAct (s : State) (addr : Nat) (t0 : Nat) : Option Activity :=
  match s.readSpan 2 addr 64 with
  | .error _ => none
  | .ok l =>
    let p := numAt l 0 8
    let f := numAt l 8 8
    let d := numAt l 16 8
    let flags := numAt l 43 1
    let evrel := decide (flags / 2 % 2 = 1)
    if addr % 64 ≠ 0 ∨ d = 0 ∨ 4 ≤ flags ∨ 8 ≤ numAt l 42 1 ∨ numAt l 48 16 ≠ 0 ∨ (p = 0 ∧ evrel = false) then none
    else
      some { addr := BitVec.ofNat 64 addr, period := BitVec.ofNat 64 p, rel := BitVec.ofNat 64 d
             phase := BitVec.ofNat 64 (numAt l 24 8), event := if evrel then some (numAt l 40 2) else none, heat := numAt l 42 1
             trapmiss := decide (flags % 2 = 1), limit := numAt l 44 4, made := 0, nextDt := BitVec.ofNat 64 (t0 + f), live := false
             deadline := 0, missed := false, ended := false, sizeAt := none, selOpen := false, selAddr := 0 }

/-- Does the partition map let the image's code be fetched. -/
def State.codeOk (s : State) (base : Nat) (ss : List VSection) : Bool :=
  let code := ss.filter (fun c => decide (c.kind ≤ 4) && !c.bytes.isEmpty)
  let ends := code.foldl (fun m c => max m (c.off + c.bytes.length)) 0
  (List.range (roundUp ends 65536 / 65536)).all (fun i =>
    match s.walk (base + 65536 * i) with
    | .ok l => l.tgt.val % 2 == 1 || s.mapAllows .fetch (l.frame * 65536 + (base + 65536 * i) % l.size) 65536
    | .error _ => false)

/-- The page-table entries that the loader writes for racks. -/
def State.writePtes (s : State) (ps : List (Nat × BitVec 64)) : State :=
  ps.foldl (fun s e => if s.mapAllows .write e.1 8 && s.names e.1 then s.writeKey (e.1) 8 e.2.toNat else s) s

/-- What the partition map must grant of the frames of a section (R252). -/
def VSection.access (c : VSection) : Acc := if c.kind ≤ 4 then .fetch else if c.kind = 5 then .read else .write

/-- The sections of a relocated image in memory. -/
def State.writeImage (s : State) (base : Nat) : List VSection → Except Cause State
  | [] => .ok s
  | c :: rest =>
    if c.kind = 7 then s.writeImage base rest
    else
      match s.loadSpan c.access (c.bytes.length / 64 + 2) (base + c.off) c.bytes with
      | .error e => .error e
      | .ok s => s.writeImage base rest

/-- The numbers bound to the image's own events, racks and layout records, the counter's event among them; none where there are too
many. -/
def State.bindNames (s : State) (v : Vfo) (j : JobRec) : Option (Binding × Binding × Binding) :=
  let first := (s.bindCounter v j).map (fun e => (e.1, e.2.1))
  let evs := (v.own 3).filter (fun e => match first with | some f => e.1 != f.1 | none => true)
  let en := freeNumbers 4096 (s.part.events.map (fun e => e.1) ++ (first.map (fun f => f.2)).toList) evs.length
  let racks := v.own 4
  let rn := freeNumbers 1024 (s.part.racks.map (fun e => e.1)) racks.length
  let lys := v.own 5
  let used := (s.part.jobs.filter (fun j => j.live)).flatMap (fun j => j.lys)
  let ln := freeNumbers 64 used lys.length
  let _ := j
  if s.part.events.length + (v.own 3).length ≤ 4096 ∧ rn.length = racks.length ∧ ln.length = lys.length ∧ en.length = evs.length then
    some (first.toList ++ (evs.map (fun e => e.1)).zip en, (racks.map (fun e => e.1)).zip rn, (lys.map (fun e => e.1)).zip ln)
  else none

/-- The loader's work on a job whose record and image are well formed, or none where the job fails (R66). -/
def State.loadImage (s : State) (v : Vfo) (j : JobRec) (job : Nat) (img : List (BitVec 8)) (plan : LoadPlan) : Option State :=
  match s.bindNames v j with
  | none => none
  | some (evs, racks, lys) =>
    let s := s.writePtes plan.ptes
    let rs := ((v.own 4).zip racks).zip plan.racks |>.map (fun e => (e.1.1.1, e.1.1.2, e.1.2.2, e.2.1, e.2.2))
    if rs.length ≠ racks.length ∨ j.len < v.size then none
    else
      match s.makeRacks v job (j.base, j.len) rs [] s.rackBanks (s.givenBanks ++ s.rangeBanks j.base j.len) with
      | none => none
      | some made =>
        match s.relocateAll v (evs ++ racks ++ lys) j.base v.relocs v.sections with
        | none => none
        | some ss =>
          let images := made.map (fun e => (((ss[e.2.1]?).map (fun c => (c.bytes.drop e.2.2.1).take 24)).getD [], e.2.2.2))
          let ss := made.foldl patchRack ss
          match s.writeImage j.base ss with
          | .error _ => none
          | .ok s =>
            if !s.codeOk j.base ss then none
            else
              let s := images.foldl (fun s e => s.writeDesc e.1 e.2) s
              match allSome (j.acts.map (fun o => s.readAct (j.base + o) s.dt)) with
              | none => none
              | some acts =>
                let counting := fun (i : Nat) => match v.symbols[i]? with | some y => decide (y.flags / 2 % 2 = 1) | none => false
                let counter := BitVec.ofNat 64 j.counter
                let rec_ : Job :=
                  { live := true, counter := counter, msix := j.msix, strict := j.strict, acts := acts
                    events := evs.map (fun e => e.2), racks := racks.map (fun e => e.2), lys := lys.map (fun e => e.2)
                    range := (j.base, j.len) }
                let s := s.onPart (fun p =>
                  { p with
                    events := evs.foldl (fun (t : Tab EvEnt) e => t.put e.2 (EvEnt.fresh job (counting e.1))) p.events
                    racks := made.foldl (fun (t : Tab Rack) e => t.put e.1 e.2.2.2) p.racks
                    jobs := p.jobs ++ [rec_], measure := extend p.measure img
                    levels := p.levels ++ [{ kind := .job, counter := counter, parent := 0, job := job, act := 0, node := none, draw := 0,
                                             drawHeld := 0, cancelled := false }] })
                some (match s.ctr counter with
                  | some w => s.putCtr counter (ctrCreate w acts.length)
                  | none => s)

/-- JOB_LOAD (R66): the oldest copied record is loaded, fails, or is dropped. -/
def execJobLoad (part : Nat) (plan : LoadPlan) (s : State) : Host.Outcome State Fault Refusal :=
  let s := s.focusPart part
  .next (match s.part.copied with
    | [] => s
    | (off, bytes) :: rest =>
      if !s.part.live || s.part.swapped then s
      else
        let s := s.onPart (fun p => { p with copied := rest })
        let j := readJob bytes
        let job := s.part.jobs.length
        if !s.counterWritable j then s.dropJob j off
        else
          let img := (s.readSpan (j.imageLen / 64 + 2) j.image j.imageLen).toOption
          let v := img.bind readTables
          match img, v with
          | some img, some vfo =>
            if !j.ok || !vfo.ok then s.failJob v j job
            else
              match s.loadImage vfo j job img plan with
              | some t => t
              | none => s.failJob v j job
          | _, _ => s.failJob v j job)

/-- IMPORT_REGISTER (R254): a registration of a name and kind, or its withdrawal. -/
def execImportRegister (part : Nat) (name : List (BitVec 8)) (kind : Nat) (value : Option (BitVec 64)) (s : State) :
    Host.Outcome State Fault Refusal :=
  let s := s.focusPart part
  .next (if !s.part.live then s
    else s.onPart (fun p =>
      { p with imports := p.imports.filter (fun e => !(e.1 == name && e.2.1 == kind)) ++
          (match value with | some v => [(name, kind, v)] | none => []) }))

end Sys2Proof.Machine
end

