-- ==== Sys2Proof/Machine/Phases.lean ====
section
/-! DEFINITION. Releases of activities, the selector, deadline misses, counters and cancels (R64, R68 to R71, R78, R94). -/

namespace Sys2Proof.Machine

/-! ### Releases (R68) -/

/-- Is a periodic release of an activity due. -/
def Activity.releaseDue (a : Activity) (dt : Nat) : Bool :=
  a.event.isNone && !a.ended && decide (a.period ≠ 0) && decide (a.nextDt.toNat ≤ dt)

/-- May an activity be released: its job lives, it has releases left, and no cancel has reached the job. -/
def State.mayRelease (s : State) (job : Nat) (a : Activity) : Bool :=
  match s.part.jobs[job]? with
  | some j => j.live && !a.ended && (decide (a.limit = 0) || decide (a.made < a.limit)) && !s.ctrHas j.counter 40
  | none => false

/-- ACTIVITY_RELEASE (R68): the release that is due is made, or counted as a miss. -/
def execActivityRelease (part job act : Nat) (s : State) : Host.Outcome State Fault Refusal :=
  let s := s.focusPart part
  .next (match s.act? job act with
    | none => s
    | some a =>
      if s.part.live && a.releaseDue s.dt && s.mayRelease job a then State.runAll (s.release job act a.nextDt.toNat) else s)

/-! ### The selector's size (R71) -/

/-- The selector's port closed at its rack: the close travels on the rack signal network. -/
def State.closeSelector (s : State) (job act rack port : Nat) : State :=
  match s.part.racks.find? rack with
  | none => s
  | some r =>
    let cl := s.part.clusters.headD 0
    let op : RackOp := { apply := s.rackAt r cl, serial := s.serial, fn := 3, rack := rack, port := port, holder := .selector,
                         cluster := cl, tok := none, sel := some (job, act) }
    (s.onPart (fun p => { p with rackops := p.rackops ++ [op] })).bump

/-- The low 32 bits at an address, as the scheduler reads them. -/
def State.low32 (s : State) (va : Nat) : Except Cause Nat :=
  match s.readSpan 2 va 4 with
  | .ok bs => .ok (leNat bs)
  | .error c => .error c

/-- The size word read, the port closed, and the first variant that fits started, or the phase faulted. -/
def State.readSize (s : State) (job act : Nat) (a : Activity) : State :=
  match s.readDwords a.phase.toNat 3 with
  | .error c => State.runAll (s.phaseFault job act c)
  | .ok ws =>
    let w1 := ws.getD 1 0
    let w2 := ws.getD 2 0
    let rackSource := w2 / 65536 % 2 = 1
    let close := fun (s : State) => if a.selOpen then s.closeSelector job act (w2 % 65536) (w2 / 2 ^ 24 % 256) else s
    let size := if rackSource then (if a.selOpen then s.low32 ((a.selAddr + BitVec.ofNat 64 w1).toNat) else .ok 0) else s.low32 w1
    match size with
    | .ok v => State.runAll ((close s).select job act v)
    | .error c => State.runAll ((close s).phaseFault job act c)

/-- Is the selector's size word due. -/
def Activity.sizeDue (a : Activity) (now : Nat) : Bool :=
  match a.sizeAt with
  | some t => decide (t ≤ now)
  | none => false

/-- SELECTOR_SIZE_READ (R71). -/
def execSelectorSizeRead (part job act : Nat) (s : State) : Host.Outcome State Fault Refusal :=
  let s := s.focusPart part
  .next (match s.act? job act with
    | none => s
    | some a => if a.live && a.sizeDue s.cycle then s.readSize job act a else s)

/-! ### Deadline misses (R69) -/

/-- Has an activity's live phase missed its deadline, unreported. -/
def Activity.missDue (a : Activity) (dt : Nat) : Bool := a.live && !a.missed && decide (a.deadline.toNat < dt)

/-- DEADLINE_MISS (R69): MISSED sets, the miss counts, and TRAPMISS reports it. The phase is not stopped. -/
def execDeadlineMiss (part job act : Nat) (s : State) : Host.Outcome State Fault Refusal :=
  let s := s.focusPart part
  .next (match s.act? job act with
    | none => s
    | some a =>
      if !a.missDue s.dt || s.ctrHas a.phase 43 then s
      else
        let s := ((s.onAct job act (fun a => { a with missed := true })).setCtrBit a.phase 42).countMiss a
        if a.trapmiss then s.logFault Cause.phase.code 2 0xFFFF a.phase.toNat 0 else s)

/-! ### Counters and cancels (R64, R78, R94) -/

/-- COUNTER_DECREMENT (R64). -/
def execCounterDecrement (part : Nat) (addr : BitVec 64) (faulted cancelled : Bool) (s : State) : Host.Outcome State Fault Refusal :=
  let s := s.focusPart part
  .next (if s.part.live then s.run [.decr addr 1 faulted cancelled] else s)

/-- CANCEL_LINEARISE (R78, R93, R94). -/
def execCancelLinearise (part : Nat) (addr : BitVec 64) (level : Nat) (s : State) : Host.Outcome State Fault Refusal :=
  let s := s.focusPart part
  .next (if s.part.live then s.cancelLevel addr (levelKindOf level) else s)

/-- CANCEL_BROADCAST (R94, R95): the oldest cancel on its way reaches every scheduler, the event table and every core. -/
def execCancelBroadcast (part : Nat) (s : State) : Host.Outcome State Fault Refusal :=
  let s := s.focusPart part
  .next (match s.part.casts with
    | [] => s
    | (_, top) :: rest => (s.onPart (fun p => { p with casts := rest })).sweep top)

end Sys2Proof.Machine
end

