-- ==== Sys2Proof/Machine/Sched.lean ====
section
/-! DEFINITION. The turn scheduler's own steps: retirement, dispatch, displacement, refills, activation, urgent switches, steals and
budget traps (R77, R79 to R90, R185). -/

namespace Sys2Proof.Machine

/-! ### Retirement (R77, R149) -/

/-- May the turn in focus leave its context: what it did on every path is performed. T words that only wait for room for a post are
discarded with the turn (R180). -/
def State.retireReady (s : State) : Bool :=
  s.ctx.turn.isSome && s.ctx.retire.isSome && !s.core.stopping && !s.ctx.busyTokens &&
  (s.ctx.twin.isEmpty || s.ctx.postBlocked s.cycle) && !s.homeWaits

/-- TURN_RETIRE (R77). -/
def execTurnRetire (site : Nat) (cx : Bool) (s : State) : Host.Outcome State Fault Refusal :=
  let s := s.focus site cx
  .next (match s.ctx.retire with
    | none => s
    | some r => if s.retireReady then s.retire r.faulted r.cancelled else s)

/-! ### Dispatch, displacement and refills (R79, R82 to R85) -/

/-- May a cluster's scheduler dispatch in this cycle: at most one turn per cycle. -/
def State.dispatchFree (s : State) (cl : Nat) : Bool := decide ((s.sched cl).lastCycle ≤ s.cycle) && !s.part.swapped

/-- TURN_DISPATCH (R82 to R84). -/
def execTurnDispatch (part cluster : Nat) (s : State) : Host.Outcome State Fault Refusal :=
  let s := s.focusPart part
  .next (if s.dispatchFree cluster then s.dispatch cluster else s)

/-- TURN_DISPLACE (R85). -/
def execTurnDisplace (part cluster : Nat) (s : State) : Host.Outcome State Fault Refusal :=
  let s := s.focusPart part
  .next (if s.dispatchFree cluster then s.displace cluster else s)

/-- A turn that waits at a cluster's scheduler for an entry of its spill area and now finds one (R79). -/
def State.placeable (s : State) (cl : Nat) : Option (Nat × HeapEnt) :=
  s.part.placing.find? (fun e => e.1 == cl && !(s.needsSpill cl (some e.2.turn) && !s.spillRoom cl))

/-- Is the refill of a cluster's heap due. -/
def Sched.refillDue (k : Sched) (now : Nat) : Bool := decide (k.heap.length < 48) && !k.spill.isEmpty && decide (k.refillAt ≤ now)

/-- SPILL_REFILL (R79): the earliest spilled entry moves on die, one every 16 cycles; a turn that waited for room enters. -/
def execSpillRefill (part cluster : Nat) (s : State) : Host.Outcome State Fault Refusal :=
  let s := s.focusPart part
  .next (match s.placeable cluster with
    | some e => (s.onPart (fun p => { p with placing := p.placing.erase e })).enterHeap cluster e.2
    | none =>
      match (s.sched cluster).spill with
      | [] => s
      | e :: rest =>
        if (s.sched cluster).refillDue s.cycle then
          s.onSched cluster (fun k => { k with heap := heapInsert e k.heap, spill := rest, refillAt := s.cycle + 16 })
        else s)

/-! ### Activation and urgent switches (R85, R86, R185) -/

/-- Does the active context of a core hold no turn, or stand halted, while the other one holds a turn that may run. -/
def CoreBox.activates (b : CoreBox) : Bool :=
  let act := b.ctx b.core.active
  let other := b.ctx (!b.core.active)
  b.core.part.isSome && b.core.enabled && !b.core.stopping && (act.turn.isNone || act.halted) && other.turn.isSome && !other.halted

/-- CONTEXT_ACTIVATE (R85): at most 16 cycles. -/
def execContextActivate (site : Nat) (s : State) : Host.Outcome State Fault Refusal :=
  let s := s.focus site (s.boxAt site).core.active
  .next (if (s.boxAt site).activates then s.activate (!s.core.active) 16 else s)

/-- Is the evaluation of R86 due on a core. -/
def CoreBox.evalDue (b : CoreBox) (now : Nat) : Bool :=
  let act := b.ctx b.core.active
  b.core.part.isSome && b.core.urgent.isNone && !b.core.stopping && act.turn.isSome && (b.ctx (!b.core.active)).turn.isSome && !act.tip &&
  decide (b.core.evalAt ≤ now)

/-- URGENT_SWITCH_EVALUATE (R86, R185): every 256 cycles; a switch that is wanted stops the active context's streams, the C stream at once with its
results in flight saved. -/
def execUrgentSwitchEvaluate (site : Nat) (s : State) : Host.Outcome State Fault Refusal :=
  let s := s.focus site (s.boxAt site).core.active
  .next (if !(s.boxAt site).evalDue s.cycle then s
    else
      let s := s.onCore (fun k => { k with evalAt := s.cycle + 256 })
      if urgentWanted s.ctx s.octx && !s.ctx.halted && s.ctx.retire.isNone then
        ((s.onCore (fun k => { k with urgent := some s.cycle })).onCtx (fun c => c.pauseC s.cNow)).askHold
      else s)

/-- May an urgent switch that was decided no longer be taken: the turn traps, leaves or halts (R180). -/
def CoreBox.urgentDrops (b : CoreBox) : Bool :=
  let act := b.ctx b.core.active
  act.tip || !act.pend.isEmpty || act.retire.isSome || act.turn.isNone || act.haltReq || act.halted ||
  (b.ctx (!b.core.active)).turn.isNone || (b.ctx (!b.core.active)).halted

/-- Is a decided urgent switch to be taken or given up now. -/
def CoreBox.urgentDue (b : CoreBox) (now : Nat) : Bool :=
  b.core.urgent.isSome && !b.core.stopping && (b.urgentDrops || (b.ctx b.core.active).enginesStopped now)

/-- URGENT_SWITCH (R185): the engines take the resident context when the last stream has stopped. -/
def execUrgentSwitch (site : Nat) (s : State) : Host.Outcome State Fault Refusal :=
  let s := s.focus site (s.boxAt site).core.active
  let b := s.boxAt site
  .next (if !b.urgentDue s.cycle then s
    else if b.urgentDrops then
      (s.onCore (fun k => { k with urgent := none })).onCtx (fun c => if c.tip || c.haltReq then c else c.resumeEngines)
    else s.urgentSwitch)

/-! ### Steals (R87) -/

/-- The other clusters of a die that serve the focused partition, ascending, starting after a cluster. -/
def State.dieClusters (s : State) (cl : Nat) : List Nat :=
  let l := s.part.clusters.filter (fun c => c / 9 == cl / 9 && c != cl)
  l.filter (fun c => decide (cl < c)) ++ l.filter (fun c => decide (c < cl))

/-- The clusters of the other dies, in order of rising mesh distance. -/
def State.farClusters (s : State) (cl : Nat) : List Nat := byDistance cl (s.part.clusters.filter (fun c => c / 9 != cl / 9))

/-- Does an idle context ask within its die now: after 256 cycles, and again after 256 more. -/
def Context.asksNear (c : Context) : Bool := decide (256 ≤ c.idle) && decide (c.asked + 256 ≤ c.idle)

/-- Does an idle context ask across dies now: after 1,024 cycles, and again after 256 more. -/
def Context.asksFar (c : Context) : Bool := decide (1024 ≤ c.idle) && decide (c.askedX + 256 ≤ c.idle)

/-- STEAL_REQUEST (R87). -/
def execStealRequest (site : Nat) (cx : Bool) (s : State) : Host.Outcome State Fault Refusal :=
  let s := s.focus site cx
  .next (if s.emptyAt site cx && s.ctx.asksNear then s.steal site cx (s.dieClusters (clusterOf site)) false else s)

/-- STEAL_CROSS_DIE (R87): only turns with the migratable bit. -/
def execStealCrossDie (site : Nat) (cx : Bool) (s : State) : Host.Outcome State Fault Refusal :=
  let s := s.focus site cx
  .next (if s.emptyAt site cx && s.ctx.asksFar then s.steal site cx (s.farClusters (clusterOf site)) true else s)

/-! ### Budget (R90, R211) -/

/-- Is NET above a LIMIT that is not zero. -/
def Context.overBudget (c : Context) : Bool := decide (c.limit ≠ 0) && decide (c.limit.toNat < c.net.toNat)

/-- Does the replay log name a budget trap at the C stream's position (R211). -/
def State.replayBudget (s : State) : Bool :=
  match s.replayEntry with
  | some (w, _) => decide (w % 256 = 6) && decide (w / 256 % 4 = 0) && decide (w / 2 ^ 32 = s.ctx.cs.issued % 2 ^ 32)
  | none => false

/-- Is a budget trap to become pending in the focused context. -/
def State.budgetDue (s : State) : Bool :=
  s.ctx.turn.isSome && s.ctx.retire.isNone && !s.ctx.tip && !s.ctx.halted && !s.ctx.pend.any (fun t => t.rank == 4) && s.core.active == s.cx &&
  (if s.ctx.replaying then s.replayBudget else s.ctx.overBudget)

/-- A pending trap of BUDGET or DEADLOCK, taken at the next C boundary (R177 to R179). -/
def asyncTrap (rank : Nat) (cause : Cause) : PendTrap :=
  { rank := rank, order := 0, cause := cause, st := .c, pawn := none, tok := none, async_ := true, st2 := .c, faddr := 0, fpc := 0,
    fpc2 := 0, frec := 0 }

/-- BUDGET_TRAP (R90): the trap becomes pending. -/
def execBudgetTrap (site : Nat) (cx : Bool) (s : State) : Host.Outcome State Fault Refusal :=
  let s := s.focus site cx
  .next (if s.budgetDue then
      s.onCtx (fun c => { c with pend := c.pend ++ [asyncTrap 4 .budget], replayAt := if c.replaying then c.replayAt + 1 else c.replayAt })
    else s)

end Sys2Proof.Machine
end

