-- ==== Sys2Proof/Machine/EventTable.lean ====
section
/-! DEFINITION. The steps of the event table, the racks, wait tokens, page walks and replicated frames (R91, R92, R101, R123, R132,
R136 to R138, R158, R274). -/

namespace Sys2Proof.Machine

/-! ### Events and racks (R91, R92, R101) -/

/-- The operation that the event table applies now: the oldest of those that have arrived. -/
def State.nextEvOp (s : State) : Option EvOp := s.part.evops.find? (fun o => decide (o.due ≤ s.cycle))

/-- EVENT_TABLE_APPLY (R91). -/
def execEventTableApply (part : Nat) (s : State) : Host.Outcome State Fault Refusal :=
  let s := s.focusPart part
  .next (match s.nextEvOp with
    | none => s
    | some o => (s.onPart (fun p => { p with evops := p.evops.erase o })).applyEvOp o)

/-- The event whose overflow list the walker serves now. -/
def State.nextWalked (s : State) : Option (Nat × EvEnt) :=
  List.find? (fun (e : Nat × EvEnt) => match e.2.walkAt with | some t => decide (t ≤ s.cycle) | none => false) s.part.events

/-- OVERFLOW_WALK (R92): one waiter every 8 cycles, in arrival order. -/
def execOverflowWalk (part : Nat) (s : State) : Host.Outcome State Fault Refusal :=
  let s := s.focusPart part
  .next (match s.nextWalked with
    | none => s
    | some (name, e) =>
      match e.overflow with
      | [] => s.putEvent name { e with walkAt := none }
      | w :: rest =>
        (s.putEvent name { e with overflow := rest, walkAt := if rest.isEmpty then none else some (s.cycle + 8) }).releaseTurns [w])

/-- The rack operation that a controller applies now. -/
def State.nextRackOp (s : State) : Option RackOp := firstRackOp (s.part.rackops.filter (fun o => decide (o.apply ≤ s.cycle)))

/-- RACK_OP_APPLY (R101 to R104, R110). -/
def execRackOpApply (part : Nat) (s : State) : Host.Outcome State Fault Refusal :=
  let s := s.focusPart part
  .next (match s.nextRackOp with
    | none => s
    | some o => (s.onPart (fun p => { p with rackops := p.rackops.erase o })).applyRackOp o)

/-! ### Wait tokens, walks and prefetches (R123, R132, R158, R274) -/

/-- WAIT_TOKEN_SETTLE (R158). -/
def execWaitTokenSettle (site : Nat) (cx : Bool) (tok : Fin 8) (s : State) : Host.Outcome State Fault Refusal :=
  .next ((s.focus site cx).settleTok tok)

/-- The walk of a core that ends now. -/
def Core.nextWalk (k : Core) (now : Nat) : Option Walk := k.walks.find? (fun w => decide (w.due ≤ now))

/-- PAGE_WALK_COMPLETE (R123, R132). -/
def execPageWalkComplete (site : Nat) (s : State) : Host.Outcome State Fault Refusal :=
  let s := s.focus site s.cx
  .next (match s.core.nextWalk s.cycle with
    | none => s
    | some w => s.endWalk w)

/-- Is the prefetch of a branch register ready now, and not yet marked so (R274); 0 marks one that is. -/
def BReg.readyDue (r : BReg) (now : Nat) : Bool :=
  match r.ready with
  | some t => decide (0 < t) && decide (t ≤ now)
  | none => false

/-- PREFETCH_READY (R274): a branch through the register need not wait any more. -/
def execPrefetchReady (site : Nat) (cx : Bool) (b : Fin 8) (s : State) : Host.Outcome State Fault Refusal :=
  let s := s.focus site cx
  .next (if s.ctx.b[b].readyDue s.cycle then s.onCtx (fun c => { c with b := c.b.set b { c.b[b] with ready := some 0 } }) else s)

/-- Has a wait for a chip that is not up come to its end (R138). -/
def UpWait.over (u : UpWait) (now : Nat) : Bool :=
  match u.due with
  | some t => decide (t ≤ now)
  | none => false

/-- Has one of a context's waits for chips come to its end. -/
def Context.upDue (c : Context) (now : Nat) : Bool := c.upWait.any (fun u => u.over now)

/-- PEER_UP_WAIT_TIMEOUT (R138): the accesses whose 16 µs are over fault with PEERLOST. -/
def execPeerUpWaitTimeout (site : Nat) (cx : Bool) (s : State) : Host.Outcome State Fault Refusal :=
  let s := s.focus site cx
  .next (if s.ctx.upDue s.cycle then s.onCtx (fun c =>
    { c with upWait := c.upWait.map (fun u => if u.over s.cycle then { u with due := none } else u) }) else s)

/-! ### Replicated frames (R136, R137) -/

/-- REPLICA_READ (R136, R137). -/
def execReplicaRead (part die frame : Nat) (s : State) : Host.Outcome State Fault Refusal :=
  .next ((s.focusPart part).replRead die frame)

/-- The writes whose frame has no earlier write waiting, in arrival order. -/
def headWrites (ws : List ReplWrite) : List ReplWrite :=
  (ws.foldl (fun (acc : List ReplWrite × List Nat) w =>
    if acc.2.contains w.frame then acc else (acc.1 ++ [w], w.frame :: acc.2)) ([], [])).1

/-- The write that its home takes up now, or performs: one that waits for no holder any more. -/
def State.nextRepl (s : State) : Option ReplWrite := (headWrites s.part.replWrites).find? (fun w => !w.sent || w.waiting.isEmpty)

/-- REPLICA_WRITE (R137): invalidations go to every holder; with none, the write is performed. -/
def execReplicaWrite (part : Nat) (s : State) : Host.Outcome State Fault Refusal :=
  let s := s.focusPart part
  .next (match s.nextRepl with
    | none => s
    | some w =>
      match (if w.sent then [] else s.part.holders.getD w.frame []) with
      | [] => s.performRepl w
      | hs => (s.invalidate w.frame hs).onPart (fun p =>
        { p with replWrites := p.replWrites.map (fun x => if x = w then { w with waiting := hs, sent := true } else x) }))

/-- The write that an acknowledgement from a die concerns. -/
def State.ackedRepl (s : State) (die : Nat) : Option ReplWrite := s.part.replWrites.find? (fun w => w.sent && w.waiting.contains die)

/-- HOLDER_ACK (R137): after the last one, the home performs the write. Dies of other chips are numbered from 18 on, 8 to a chip. -/
def execHolderAck (part die : Nat) (s : State) : Host.Outcome State Fault Refusal :=
  let s := s.focusPart part
  .next (match s.ackedRepl die with
    | none => s
    | some w =>
      let q := { w with waiting := w.waiting.erase die }
      if q.waiting.isEmpty then s.performRepl w
      else s.onPart (fun p => { p with replWrites := p.replWrites.map (fun x => if x = w then q else x) }))

end Sys2Proof.Machine
end

