-- ==== Sys2Proof/Machine/PawnEvents.lean ====
section
/-! DEFINITION. The steps and ends of pawns: which pawn an engine runs, and what its step does (R140, R163 to R170, R329, R342 to R344). -/

namespace Sys2Proof.Machine

/-! ### Which pawn an engine runs (R168, R343) -/

/-- A context of the focused core by its letter. -/
def State.ctxOf (s : State) (cx : Bool) : Context := if s.cx == cx then s.ctx else s.octx

/-- May the engines of the focused core make steps in this cycle. -/
def State.enginesRun (s : State) : Bool :=
  s.core.part.isSome && s.core.enabled && !s.stretched s.site && !s.gated.contains (clusterOf s.site)

/-- Are a pawn's steps stopped by FREEZE of its halted context (R198). -/
def State.frozen (s : State) (p : Pawn) : Bool := (s.ctxOf p.cx).halted && (s.ctxOf p.cx).dbgctl.getLsbD 0

/-- Is a pawn one that steps of an MGO are made for. -/
def PawnJob.isMgo : PawnJob → Bool
  | .mgo .. => true
  | _ => false

/-- Is the pawn's engine free to start a step in this cycle. -/
def State.engineFree (s : State) (p : Pawn) : Bool :=
  match p.eng with
  | .transfer => p.job.remote || decide (s.core.xferCycle ≤ s.cycle)
  | .matrix => s.core.mstep.isNone && (p.job.isMgo || decide (s.core.mcCycle ≤ s.cycle))
  | .collective => true

/-- Is the step of an MGO under way the pawn's. -/
def State.inEngine (s : State) (p : Pawn) : Bool :=
  match s.core.mstep with
  | some k => decide ((s.pawn k).serial = p.serial)
  | none => false

/-- May a pawn go on now: be stopped at its boundary by a cancel (R170), even when it is frozen or suspended (R201); start a step, or end the one it
is in, once the answers are there. A core that stops, and FREEZE, let only steps under way end (R171, R201). -/
def State.runnable (s : State) (p : Pawn) : Bool :=
  p.open && !s.inEngine p &&
  (if p.cancelReq && !s.midStep p then !s.core.stopping
   else
    decide (p.due ≤ s.cycle) && ((!s.frozen p && !s.core.stopping) || s.midStep p) && !p.suspended &&
    (p.job.noRows p.pos || (s.engineFree p && !(p.eng == .matrix && s.rowsHeld p.cx p.serial p.stepRows))) &&
    !(p.eng == .transfer && p.begun && p.stepStarted && p.net.isNone && !s.stepAnswered p))

/-- Does pawn p come before pawn q at an engine: by priority, then the active context's, then the earliest issued. -/
def Pawn.goesBefore (active : Bool) (p q : Pawn) : Bool :=
  if p.pri ≠ q.pri then decide (q.pri < p.pri)
  else if p.cx ≠ q.cx then p.cx == active
  else decide (p.serial ≤ q.serial)

/-- The first of some entries. -/
def State.pickPawn (s : State) : List (Fin 64) → Option (Fin 64)
  | [] => none
  | k :: rest =>
    match s.pickPawn rest with
    | none => some k
    | some j => if (s.pawn k).goesBefore s.core.active (s.pawn j) then some k else some j

/-- The entry whose pawn an engine of the focused core runs now. -/
def State.enginePick (s : State) (e : Engine) : Option (Fin 64) :=
  if !s.enginesRun then none else s.pickPawn (pawnSlots.filter (fun k => (s.pawn k).eng == e && s.runnable (s.pawn k)))

/-! ### Steps -/

/-- The cycles until the transfer engine starts the next line: a row of a gather takes as many as it has lines (R329). -/
def PawnJob.lines : PawnJob → Nat
  | .gath _ rowLen _ _ _ => max 1 ((rowLen + 63) / 64)
  | _ => 1

/-- The first step of a pawn starts: it runs, and its first line lands so many cycles later (R165, R329). -/
def Pawn.begin (p : Pawn) (now : Nat) : Pawn := { p with state := .running, due := now + p.lead, begun := true }

/-- Does a pawn's first step start now, with cycles to go until it ends. -/
def Pawn.starts (p : Pawn) : Bool := !p.begun && decide (p.lead ≠ 0) && !p.job.noRows p.pos && !(p.eng == .transfer && p.stepLines.isEmpty)

/-- The extra cycles that the lines of a step meet at scratchpad banks, counted on the board; those of a pawn's first line are part of its lead
(R208). -/
def State.stepContend (s : State) (p : Pawn) : Nat × State :=
  if p.pos = 0 ∨ p.job.remote = true then (0, s)
  else if p.eng = .matrix then s.mcContend p.job p.pos
  else
    let keys := fun (writes : Bool) => (p.tr.filter (fun t => t.writes == writes && p.stepLines.any (fun l => decide (l.2.1 = t.va)))).map (fun t => t.place.key)
    let d := s.contendAll 0 (keys false)
    let e := if (keys true).isEmpty then (0, d.2) else d.2.contendAll 1 (keys true)
    (d.1 + e.1, e.2)

/-- The translated step of a copy pawn: its first one starts, with its accesses noted whose delay is excused (R88); one whose answers are there is
made. -/
def State.copyGoes (s : State) (k : Fin 64) : State :=
  let p := s.pawn k
  if p.starts then p.tr.foldl (fun s t => s.noteSlow p.serial t.place.key p.lead) (s.onPawn k (fun p => p.begin s.cycle))
  else if !s.stepAnswered p then s.onPawn k (fun p => { p with begun := true, state := .running })
  else
    let r := s.copyStep p
    let d := if r.1 = .wait then (0, r.2) else r.2.stepContend p
    let n := p.job.lines + d.1
    let s := if p.job.remote || r.1 = .wait then d.2 else d.2.onCore (fun c => { c with xferCycle := s.cycle + n })
    s.afterStep k r.1 n

/-- A turn of a copy pawn at the transfer engine (R132, R329): a step that a network has failed ends it; its accesses are translated, each once; one
that waits for a translation leaves the engine to others. -/
def State.copyTurn (s : State) (k : Fin 64) : State :=
  let p := s.pawn k
  let failed := p.net.bind (fun f => if f.1 / 2 ^ 20 ≤ p.pos then some f else none)
  match failed with
  | some (q, c) => s.onPawn k (fun p => p.fail c (p.netAddr q))
  | none =>
    match s.xlateMore .t p.stepLines p.tr with
    | ((some none, tr), s) => ((s.onPawn k (fun p => { p with tr := tr })).prefetchCopy p).afterStep k .wait 0
    | ((some (some (c, va)), _), s) => s.afterStep k (.fault c va) 0
    | ((none, tr), s) => ((s.onPawn k (fun p => { p with tr := tr })).prefetchCopy p).copyGoes k

/-- A step of the pawn of an entry: focused on its context. A pawn that waits for a translation leaves its engine to others (R132). -/
def State.stepPawn (s : State) (k : Fin 64) : State :=
  let p := s.pawn k
  if p.cancelReq && !s.midStep p then s.onPawn k (fun p => { p.stopCancelled with suspended := false })
  else
    match p.eng with
    | .transfer => s.copyTurn k
    | .matrix =>
      if p.job.isMgo then s.mgoBegin k
      else if p.starts then s.onPawn k (fun p => p.begin s.cycle)
      else
        let r := s.mcStep k
        let d := if r.1 = .wait then (0, r.2) else r.2.stepContend p
        let s := if r.1 = .wait then d.2 else d.2.onCore (fun c => { c with mcCycle := s.cycle + 1 + d.1 })
        s.afterStep k r.1 1
    | .collective =>
      let r := s.collStep k
      r.2.afterStep k r.1 1

/-- PAWN_STEP (R168, R170). -/
def execPawnStep (site : Nat) (slot : Fin 64) (s : State) : Host.Outcome State Fault Refusal :=
  let s := s.focus site s.cx
  let p := s.pawn slot
  .next (if s.enginePick p.eng = some slot then ((s.focusCx p.cx).stepPawn slot).clearRanges slot else s)

/-- Is the step of an MGO that is under way to end now: its time is over, and its panels have come. -/
def State.mgoDue (s : State) : Option (Fin 64) :=
  match s.core.mstep with
  | none => none
  | some k => if (s.pawn k).due ≤ s.cycle ∧ s.netOpen (s.pawn k).serial = false ∧ s.stretched s.site = false then some k else none

/-- MGO_STEP (R342). -/
def execMgoStep (site : Nat) (slot : Fin 64) (s : State) : Host.Outcome State Fault Refusal :=
  let s := s.focus site s.cx
  .next (if s.mgoDue = some slot then ((s.focusCx (s.pawn slot).cx).mgoFinish slot).clearRanges slot else s)

/-- PAWN_END (R155, R165 to R169). -/
def execPawnEnd (site : Nat) (slot : Fin 64) (s : State) : Host.Outcome State Fault Refusal :=
  let s := s.focus site s.cx
  .next (if s.endReady slot then (s.focusCx (s.pawn slot).cx).endPawn slot else s)

end Sys2Proof.Machine
end

