-- ==== Sys2Proof/Machine/Pred.lean ====
section
/-! DEFINITION. The compares and predicate words of the C stream (R282 to R284, spec/15_control_arith.md). -/

namespace Sys2Proof.Machine

/-- A C word whose fixed-latency result is a predicate: latency 1 (R270). -/
def State.cPred (s : State) (pd : Fin 8) (v : Bool) : State := s.cLand 1 (.p pd) (if v then 1 else 0)

/-- A compare of two registers (R282). -/
def State.cmpWord (s : State) (o : Op.Cmp) (f : Word → Word → Bool) : State :=
  s.guarded o.g (fun s => s.cPred o.pd (f (s.ctx.getX o.ra) (s.ctx.getX o.rb)))

/-- A compare with an immediate (R283). -/
def State.cmpiWord (s : State) (o : Op.CmpImm) (f : Word → Word → Bool) : State :=
  s.guarded o.g (fun s => s.cPred o.pd (f (s.ctx.getX o.ra) (o.imm.signExtend 64)))

/-- A word over two predicates (R284). -/
def State.predWord (s : State) (o : Op.Pred) (f : Bool → Bool → Bool) : State :=
  s.guarded o.g (fun s => s.cPred o.pd (f (s.ctx.getP o.pa) (s.ctx.getP o.pb)))

/-- CMP.EQ (R282). -/
def execCmpEq (o : Op.Cmp) (s : State) : Host.Outcome State Fault Refusal := .next (s.cmpWord o (fun a b => a == b))

/-- CMP.NE (R282). -/
def execCmpNe (o : Op.Cmp) (s : State) : Host.Outcome State Fault Refusal := .next (s.cmpWord o (fun a b => a != b))

/-- CMP.LT (R282): signed. -/
def execCmpLt (o : Op.Cmp) (s : State) : Host.Outcome State Fault Refusal :=
  .next (s.cmpWord o (fun a b => decide (a.toInt < b.toInt)))

/-- CMP.LTU (R282): unsigned. -/
def execCmpLtu (o : Op.Cmp) (s : State) : Host.Outcome State Fault Refusal :=
  .next (s.cmpWord o (fun a b => decide (a.toNat < b.toNat)))

/-- CMP.GE (R282): signed. -/
def execCmpGe (o : Op.Cmp) (s : State) : Host.Outcome State Fault Refusal :=
  .next (s.cmpWord o (fun a b => decide (b.toInt ≤ a.toInt)))

/-- CMP.GEU (R282): unsigned. -/
def execCmpGeu (o : Op.Cmp) (s : State) : Host.Outcome State Fault Refusal :=
  .next (s.cmpWord o (fun a b => decide (b.toNat ≤ a.toNat)))

/-- CMPI.EQ (R283). -/
def execCmpiEq (o : Op.CmpImm) (s : State) : Host.Outcome State Fault Refusal :=
  .next (s.cmpiWord o (fun a b => a == b))

/-- CMPI.NE (R283). -/
def execCmpiNe (o : Op.CmpImm) (s : State) : Host.Outcome State Fault Refusal :=
  .next (s.cmpiWord o (fun a b => a != b))

/-- CMPI.LT (R283): signed. -/
def execCmpiLt (o : Op.CmpImm) (s : State) : Host.Outcome State Fault Refusal :=
  .next (s.cmpiWord o (fun a b => decide (a.toInt < b.toInt)))

/-- CMPI.LTU (R283): both unsigned 64-bit numbers. -/
def execCmpiLtu (o : Op.CmpImm) (s : State) : Host.Outcome State Fault Refusal :=
  .next (s.cmpiWord o (fun a b => decide (a.toNat < b.toNat)))

/-- PAND (R284). -/
def execPand (o : Op.Pred) (s : State) : Host.Outcome State Fault Refusal := .next (s.predWord o (fun a b => a && b))

/-- POR (R284). -/
def execPor (o : Op.Pred) (s : State) : Host.Outcome State Fault Refusal := .next (s.predWord o (fun a b => a || b))

/-- PXOR (R284). -/
def execPxor (o : Op.Pred) (s : State) : Host.Outcome State Fault Refusal := .next (s.predWord o (fun a b => xor a b))

/-- PANDN (R284). -/
def execPandn (o : Op.Pred) (s : State) : Host.Outcome State Fault Refusal := .next (s.predWord o (fun a b => a && !b))

/-- PFROM (R284): p1 to p7 from bits 1 to 7, one fixed-latency result. -/
def execPfrom (o : Op.OneSrc) (s : State) : Host.Outcome State Fault Refusal :=
  .next (s.guarded o.g (fun s => s.cLand 1 .preds ((s.ctx.getX o.ra).setWidth 256)))

/-- The predicates as bits [7:0], bit 0 reading 1. -/
def Context.predBits (c : Context) : Word :=
  (List.finRange 8).foldl (fun v i => if c.getP i then v ||| (1#64 <<< i.val) else v) 0

/-- PTO (R284). -/
def execPto (o : Op.OneDst) (s : State) : Host.Outcome State Fault Refusal :=
  .next (s.guarded o.g (fun s => s.cResult o.rd 1 s.ctx.predBits))

end Sys2Proof.Machine
end

