-- ==== Sys2Proof/Machine/StrmWords.lean ====
section
/-! DEFINITION. The C-stream words that start, drain and couple the engine streams (R295 to R300,
spec/16_control_system.md). -/

namespace Sys2Proof.Machine

/-- The engine stream of a code: 1 T, 2 M, 3 V; 0 names none. -/
def engineOf (n : Nat) : Option Strm :=
  match n with
  | 1 => some .t
  | 2 => some .m
  | 3 => some .v
  | _ => none

/-- A start of an engine stream (R296). A stream started by a handler is held until the return, as the others are
(R178; DEDUCED, log 15). -/
def State.startStrm (s : State) (st : Strm) (o : Op.OneSrc) : State :=
  s.guarded o.g (fun s =>
    let e := s.ctx.getX o.ra
    if (s.ctx.strm st).run then s.trapWord .illegal 0
    else if e.toNat % 4 ≠ 0 then s.trapWord .align e
    else if 2 ^ 52 ≤ e.toNat then s.trapWord .prot e
    else
      let now := s.cycle
      let known := s.ctx.knowAt .c s.serial
      (s.onCtx (fun c => c.onStrm st (fun r =>
        { StreamSt.idle with run := true, pc := e, readyAt := now + 1, holdReq := c.held, issued := r.issued, know := known }))).issuedIn .c)

/-- TSTART (R296). -/
def execTstart (o : Op.OneSrc) (s : State) : Host.Outcome State Fault Refusal := .next (s.startStrm .t o)

/-- MSTART (R296). -/
def execMstart (o : Op.OneSrc) (s : State) : Host.Outcome State Fault Refusal := .next (s.startStrm .m o)

/-- VSTART (R296). -/
def execVstart (o : Op.OneSrc) (s : State) : Host.Outcome State Fault Refusal := .next (s.startStrm .v o)

/-- SDRAIN (R297). -/
def execSdrain (o : Op.Drain) (s : State) : Host.Outcome State Fault Refusal :=
  .next (s.guarded o.g (fun s =>
    if o.mask = 0 then s.trapWord .illegal 0
    else if (o.mask.getLsbD 0 && s.ctx.ts.run) || (o.mask.getLsbD 1 && s.ctx.ms.run) || (o.mask.getLsbD 2 && s.ctx.vs.run) then
      s.waitIn .c .drain
    else s.issuedIn .c))

/-- Does a stream wait at issue on a queue. -/
def StreamSt.onQueue (r : StreamSt) (q : Fin 16) : Bool := r.run && decide (r.wait = some (.queue q))

/-- Does some stream of the context wait on a queue: an engine word at issue, or a C operation not yet served. -/
def Context.queueAwaited (c : Context) (q : Fin 16) : Bool :=
  c.ts.onQueue q || c.vs.onQueue q ||
  c.tok.toList.any (fun t => match t with
    | some t => t.done.isNone && (match t.op with | .qget q' .. => q' == q | .qput q' .. => q' == q | _ => false)
    | none => false)

/-- QBIND (R298, R153): the record cursor of the sum-product unit restarts (R379). -/
def execQbind (o : Op.Bind) (s : State) : Host.Outcome State Fault Refusal :=
  .next (s.guarded o.g (fun s =>
    if (o.prod = 3) ≠ (o.cons = 3) then s.trapWord .illegal 0
    else if !(s.ctx.q[o.q].ents.isEmpty) || s.ctx.queueAwaited o.q then s.trapWord .illegal 0
    else
      let r := s.ctx.q[o.q]
      let bound : Queue := { Queue.empty with prod := o.prod, cons := o.cons, was := (r.prod, r.cons), since := s.cycle + 1 }
      (s.onCtx (fun c => { c with q := c.q.set o.q bound })).issuedIn .c))

/-- The operations of the C stream on a queue that are issued and not yet served: pops if pop, else pushes. -/
def Context.queued (c : Context) (q : Fin 16) (pop : Bool) : Nat :=
  (c.tok.toList.filter (fun t => match t with
    | some t => t.done.isNone &&
      (match t.op with | .qget q' _ _ p => pop && p && q' == q | .qput q' _ _ => !pop && q' == q | _ => false)
    | none => false)).length

/-- The trap a queue word of the C stream raises at issue: a binding that is not its own, or a queue that C both produces
and consumes and that cannot serve it (R153, R154, R273). -/
def Context.queueTrap (c : Context) (q : Fin 16) (pop : Bool) : Option Cause :=
  let r := c.q[q]
  if (if pop then r.cons else r.prod) ≠ 0 then some .illegal
  else if r.prod ≠ r.cons then none
  else
    let n := r.ents.length + c.queued q false
    if pop then (if n ≤ c.queued q true then some .qunder else none)
    else if 4 + c.queued q true ≤ n then some .qover else none

/-- The queue operation of a token, served as its word issues if its queue can serve it (R270, R273). -/
def State.serveTok (s : State) (tok : Fin 8) : State :=
  match s.ctx.tok[tok] with
  | some t => (s.serveQueue tok t).getD s
  | none => s

/-- A queue word: its trap, else a wait token (R299). -/
def State.queueWord (s : State) (q : Fin 16) (pop : Bool) (tok : Fin 8) (owned : List (Fin 32)) (op : TokOp) : State :=
  match s.ctx.queueTrap q pop with
  | some c => s.trapWord c 0
  | none =>
    match s.ctx.tokHazard tok owned with
    | some w => s.waitIn .c w
    | none => ((s.takeTok tok owned 1 op).serveTok tok).issuedIn .c

/-- QGET (R299). -/
def execQget (o : Op.QGet) (s : State) : Host.Outcome State Fault Refusal :=
  .next (s.guarded o.g (fun s => s.queueWord o.q true o.tok [o.rd] (.qget o.q o.k o.rd true)))

/-- QGETP (R299): as QGET, without popping. -/
def execQgetp (o : Op.QGet) (s : State) : Host.Outcome State Fault Refusal :=
  .next (s.guarded o.g (fun s => s.queueWord o.q true o.tok [o.rd] (.qget o.q o.k o.rd false)))

/-- QPUT (R299): the source is read at issue. -/
def execQput (o : Op.QPut) (s : State) : Host.Outcome State Fault Refusal :=
  .next (s.guarded o.g (fun s => s.queueWord o.q false o.tok [] (.qput o.q o.k (s.ctx.getX o.rb))))

/-- TPOST (R300). -/
def execTpost (o : Op.Token) (s : State) : Host.Outcome State Fault Refusal :=
  .next (s.guarded o.g (fun s =>
    if o.eng = 0 then s.trapWord .illegal 0
    else if !s.ctx.tokenRoom (chanIx 0 o.eng.val) then s.waitIn .c .channel
    else (s.onCtx (fun c => c.pushToken (chanIx 0 o.eng.val) s.cycle (c.knowAt .c s.serial))).issuedIn .c))

/-- TAWAIT (R300). -/
def execTawait (o : Op.Token) (s : State) : Host.Outcome State Fault Refusal :=
  .next (s.guarded o.g (fun s =>
    if o.eng = 0 then s.trapWord .illegal 0
    else if !s.ctx.tokenReady (chanIx o.eng.val 0) s.cycle then s.waitIn .c .channel
    else (s.onCtx (fun c => (c.popToken (chanIx o.eng.val 0)).learn .c
      (c.chans[chanIx o.eng.val 0].headD { made := 0, know := Know.none }).know)).issuedIn .c))

end Sys2Proof.Machine
end

