-- ==== Sys2Proof/Machine/VectorArith.lean ====
section
/-! DEFINITION. The V stream: shapes, lanes, queue operands, retirement, and the arithmetic, compare, select and queue words
(spec/19_vector_arith.md, R351 to R367; spec/12_numbers.md). -/

namespace Sys2Proof.Machine

/-! ### VSHAPE (R351) -/

/-- The fields of VSHAPE that a word reads at issue. -/
structure VShape where
  fmt : Nat
  lanes : Nat
  rm : RMode
  sat : Bool
deriving DecidableEq, Repr

/-- VSHAPE as a word reads it. -/
def Context.shape (c : Context) : VShape :=
  let v := c.vshape.toNat
  { fmt := v % 16, lanes := v / 16 % 512, rm := RMode.ofCode (v / 2 ^ 13 % 8), sat := c.vshape.getLsbD 16 }

/-- The lane width. -/
def VShape.w (sh : VShape) : Nat := fmtBits sh.fmt

/-- The lanes that an entry holds. -/
def VShape.count (sh : VShape) : Nat := 2048 / sh.w

/-- Is lane i enabled under a mask (R353). -/
def VShape.on (sh : VShape) (m : BitVec 256) (i : Nat) : Bool := decide (i < min sh.lanes sh.count) && m.getLsbD i

/-- A format that VSHAPE holds (R351). -/
def heldFmt (f : Nat) : Bool := [1, 2, 3, 4, 5, 8, 9, 11, 12, 13].contains f

/-- A floating-point lane format. -/
def floatFmt (f : Nat) : Bool := decide (1 ≤ f) && decide (f ≤ 5)

/-- FP32 alone (R359). -/
def onlyFp32 (f : Nat) : Bool := f == fmtFp32

/-- What reductions accept (R372). -/
def reduceFmt (f : Nat) : Bool := [1, 2, 3, 4, 5, 8, 9, 11, 13].contains f

/-- Are lanes of a format read as signed integers (R361). -/
def signedFmt (f : Nat) : Bool := f == fmtInt8 || f == fmtInt16 || f == fmtInt32

/-- The floating-point format of a lane format; FP32 for those that have none. -/
def VShape.fp (sh : VShape) : FpFmt := (fpOf sh.fmt).getD fp32

/-- An entry of lane results: those of enabled lanes, the others zero, and the flags of the enabled ones (R353, R356). -/
def VShape.build (sh : VShape) (m : BitVec 256) (f : Nat → Nat × BitVec 8) : QEntry × BitVec 8 :=
  let rs := (List.range sh.count).map (fun i => if sh.on m i then f i else (0, 0))
  (entryOf sh.w (rs.map (fun r => r.1)), rs.foldl (fun fl r => fl ||| r.2) 0)

/-- Lane i of an entry under a shape. -/
def VShape.lane (sh : VShape) (e : QEntry) (i : Nat) : Nat := laneOf e sh.w i

/-! ### Issue and retirement (R354, R375, R381) -/

/-- May a V word in flight retire now: its time has come, its posts have room, and a SYNC is the oldest. -/
def State.vRetires (s : State) (p : VPend) : Bool :=
  decide (p.due ≤ s.cycle) && s.ctx.postRoom .v p.sync && (!p.postC || s.ctx.tokenRoom (chanIx 3 0)) &&
  (!p.last || !s.ctx.vpend.any (fun q => decide (q.serial < p.serial)))

/-- A due V word that a full channel holds: the stream stalls at it (R155). -/
def State.vStuck (s : State) : Bool :=
  s.ctx.vpend.any (fun p => decide (p.due ≤ s.cycle) && !s.vRetires p && !(p.last && s.ctx.vpend.any (fun q => decide (q.serial < p.serial))))

/-- A V word met at issue (R155, R156). -/
def State.vWord (s : State) (sync : Fin 8) (f : State → State) : State :=
  if s.vStuck then s.waitIn .v .channel else s.awaited .v sync f

/-- A V word enters flight and its stream goes on. -/
def State.vFly (s : State) (p : VPend) : State := ((s.onCtx (fun c => { c with vpend := c.vpend ++ [p] })).bump).issuedIn .v

/-- A V word in flight that pushes nothing. -/
def vPlain (serial due : Nat) (sync : Fin 8) (flags : BitVec 8) : VPend :=
  { serial := serial, due := due, pushes := [], flags := flags, sync := sync, cells := [], postC := false, last := false }

/-- The parts of a V word's push lists that land: every entry in its queue, every cell in the scratch. -/
def State.vLand (s : State) (p : VPend) : State :=
  (s.onCtx (fun c => p.pushes.foldl (fun (c : Context) (x : Fin 16 × Nat × QEntry) => c.landQ x.1 x.2.1 x.2.2) c)).onCore (fun k =>
    { k with sp := p.cells.foldl (fun (t : Tab Half) (x : Nat × Half) => t.setD x.1 0 x.2) k.sp })

/-- A V word retires: its flags enter FFLAGS and its posts are made (R230, R354). -/
def State.vRetire (s : State) (p : VPend) : State :=
  s.onCtx (fun c =>
    let c := ({ c with vpend := c.vpend.erase p, fflags := c.fflags ||| p.flags }).post .v p.sync s.cycle s.serial
    if p.postC then c.pushToken (chanIx 3 0) s.cycle c.vs.know else c)

/-- The V word in flight that lands or retires next: one whose result is due, or one that may retire. -/
def State.vNext (s : State) : Option VPend :=
  s.ctx.vpend.find? (fun p => decide (p.due ≤ s.cycle) && (p.pushes ≠ [] || p.cells ≠ [] || s.vRetires p))

/-- VECTOR_RESULT_PUSH (R354): the result lands; the word retires when its posts have room. -/
def execVectorResultPush (site : Nat) (cx : Bool) (s : State) : Host.Outcome State Fault Refusal :=
  let s := s.focus site cx
  .next (match s.vNext with
    | none => s
    | some p =>
      let s := s.vLand p
      if s.vRetires p then s.vRetire p
      else
        let q := { p with pushes := [], cells := [] }
        s.onCtx (fun c => { c with vpend := c.vpend.map (fun x => if x = p then q else x) }))

/-! ### Queue operands (R153, R154, R354) -/

/-- A queue that a V word reads: popped, or peeked. -/
structure VSrc where
  q : Fin 16
  peek : Bool
deriving DecidableEq, Repr

/-- How many entries of a queue the sources need: as many as they pop, at least one. -/
def needOf (srcs : List VSrc) (q : Fin 16) : Nat := max 1 (srcs.countP (fun v => v.q == q && !v.peek))

/-- What each source reads, from the heads before the word: a peek the head, pops the oldest entries in order. -/
def readSrcs (c : Context) (now : Nat) : List VSrc → List (Fin 16) → List QEntry
  | [], _ => []
  | v :: rest, popped =>
    let i := if v.peek then 0 else popped.count v.q
    let es := match c.headQ now .v v.q (i + 1) with
      | .ok es => es
      | .error _ => []
    ((es.getD i QEnt.absent).bits) :: readSrcs c now rest (if v.peek then popped else v.q :: popped)

/-- The first source whose queue cannot serve it, with what then happens. -/
def srcFail (c : Context) (now : Nat) (srcs : List VSrc) : List VSrc → Option (Fin 16 × QFail)
  | [] => none
  | v :: rest =>
    match c.headQ now .v v.q (needOf srcs v.q) with
    | .error e => some (v.q, e)
    | .ok _ => srcFail c now srcs rest

/-- The context with the popped entries gone; a popped record queue restarts its cursor (R379). -/
def popSrcs (c : Context) (now : Nat) : List VSrc → Context
  | [] => c
  | v :: rest =>
    if v.peek then popSrcs c now rest
    else
      match c.popQ now .v v.q 1 with
      | .ok (_, c) => popSrcs ({ c with q := c.q.set v.q { c.q[v.q] with cursor := 0 } }) now rest
      | .error _ => popSrcs c now rest

/-- Places taken for the pushes, or the first queue without room. -/
def takeRoom (c : Context) (now : Nat) : List (Fin 16) → Nat → Except (Fin 16 × QFail) Context
  | [], _ => .ok c
  | q :: rest, serial =>
    match c.roomQ now .v q with
    | .error e => .error (q, e)
    | .ok _ => takeRoom (c.reserveQ now q serial serial) now rest (serial + 1)

/-- Is V the consumer of every source and the producer of every destination (R354). -/
def boundV (c : Context) (now : Nat) (srcs : List VSrc) (dsts : List (Fin 16)) : Bool :=
  srcs.all (fun v => (c.q[v.q].binding now).2 == 2) && dsts.all (fun q => (c.q[q].binding now).1 == 2)

/-- What a V word is, for issue: its sync code, its queues, the formats it accepts, its latency. -/
structure VForm where
  sync : Fin 8
  srcs : List VSrc
  dsts : List (Fin 16)
  accept : Nat → Bool
  lat : Nat

/-- The queues of a V word served, or its wait or trap; `f` then gets the entries read (R263, R354, R355). -/
def State.vServe (s : State) (w : VForm) (f : List QEntry → State → State) : State :=
  if !w.accept s.ctx.shape.fmt || !boundV s.ctx s.cycle w.srcs w.dsts then s.faultAt .v .illegal 0
  else
    match srcFail s.ctx s.cycle w.srcs w.srcs with
    | some (q, e) => s.queueFail .v q e
    | none =>
      let es := readSrcs s.ctx s.cycle w.srcs []
      match takeRoom (popSrcs s.ctx s.cycle w.srcs) s.cycle w.dsts s.serial with
      | .error (q, e) => s.queueFail .v q e
      | .ok c => f es { s with ctx := c, serial := s.serial + w.dsts.length }

/-- A V word that pushes one result into each destination. `f` gives the entry and the flags from the shape, the mask and the entries
read. -/
def State.vPush (s : State) (w : VForm) (m : BitVec 256) (f : VShape → BitVec 256 → List QEntry → QEntry × BitVec 8) : State :=
  s.vWord w.sync (fun s =>
    let first := s.serial
    s.vServe w (fun es s =>
      let r := f s.ctx.shape m es
      s.vFly { serial := s.serial, due := s.cycle + w.lat, pushes := w.dsts.mapIdx (fun i q => (q, first + i, r.1)), flags := r.2
               sync := w.sync, cells := [], postC := false, last := false }))

/-- A V word whose result goes to a mask or scalar register and that retires with it. -/
def State.vReg (s : State) (w : VForm) (f : VShape → List QEntry → Dest × BitVec 256 × BitVec 8) : State :=
  s.vWord w.sync (fun s =>
    s.vServe w (fun es s =>
      let r := f s.ctx.shape es
      (s.land .v w.lat r.1 r.2.1).vFly (vPlain (s.serial + 1) (s.cycle + w.lat) w.sync r.2.2)))

/-- The entry of source i. -/
def src (es : List QEntry) (i : Nat) : QEntry := es.getD i 0

/-- The form of a two-operand word. -/
def formVv (o : Op.Vv) (accept : Nat → Bool) (lat : Nat) : VForm :=
  { sync := o.sync, srcs := [{ q := o.qa, peek := o.pka }, { q := o.qb, peek := o.pkb }], dsts := [o.qd], accept := accept, lat := lat }

/-- The form of a one-operand word. -/
def formVu (o : Op.Vu) (accept : Nat → Bool) (lat : Nat) : VForm :=
  { sync := o.sync, srcs := [{ q := o.qa, peek := o.pka }], dsts := [o.qd], accept := accept, lat := lat }

/-- The form of a word with a scalar operand. -/
def formVs (o : Op.Vs) (accept : Nat → Bool) (lat : Nat) : VForm :=
  { sync := o.sync, srcs := [{ q := o.qa, peek := o.pka }], dsts := [o.qd], accept := accept, lat := lat }

/-! ### Floating lanes (R356 to R360) -/

/-- The value of a floating lane. -/
def VShape.val (sh : VShape) (a : Nat) : Val := sh.fp.decode a

/-- A value rounded into the lane format by VSHAPE's mode (R356). -/
def VShape.round (sh : VShape) (v : Val) : Nat × BitVec 8 := roundTo sh.fp sh.rm sh.sat v

/-- a + b. -/
def VShape.add (sh : VShape) (a b : Nat) : Nat × BitVec 8 := sh.round ((sh.val a).add sh.rm.zneg (sh.val b))

/-- a - b. -/
def VShape.sub (sh : VShape) (a b : Nat) : Nat × BitVec 8 := sh.round ((sh.val a).add sh.rm.zneg (sh.val b).negate)

/-- a * b. -/
def VShape.mul (sh : VShape) (a b : Nat) : Nat × BitVec 8 := sh.round ((sh.val a).mul (sh.val b))

/-- a * b + d, rounded once (R358). -/
def VShape.fma (sh : VShape) (a b d : Nat) : Nat × BitVec 8 := sh.round (((sh.val a).mul (sh.val b)).add sh.rm.zneg (sh.val d))

/-- The lesser or the greater of two lanes (R357): -0 lies below +0, a NaN yields the other and sets NV. -/
def VShape.pick (sh : VShape) (isMax : Bool) (a b : Nat) : Nat × BitVec 8 :=
  let x := sh.val a
  let y := sh.val b
  if x.isNan && y.isNan then (sh.fp.nanBits, flNV)
  else if x.isNan then (b, flNV)
  else if y.isNan then (a, flNV)
  else
    let less := x.lt y || (x.eqv y && x.sign && !y.sign)
    (if less = isMax then b else a, 0)

/-- The sign bit of a lane cleared, or inverted; a NaN is made canonical and sets NV (R357). -/
def VShape.signOp (sh : VShape) (invert : Bool) (a : Nat) : Nat × BitVec 8 :=
  if (sh.val a).isNan then (sh.fp.nanBits, flNV)
  else
    let top := 2 ^ (sh.w - 1)
    (if invert then (if a < top then a + top else a - top) else a % top, 0)

/-- A two-operand floating word. -/
def State.vfp (s : State) (o : Op.Vv) (lat : Nat) (f : VShape → Nat → Nat → Nat × BitVec 8) : State :=
  s.vPush (formVv o floatFmt lat) (s.ctx.getM o.m) (fun sh m es =>
    sh.build m (fun i => f sh (sh.lane (src es 0) i) (sh.lane (src es 1) i)))

/-- A one-operand word. -/
def State.vun (s : State) (o : Op.Vu) (accept : Nat → Bool) (lat : Nat) (f : VShape → Nat → Nat × BitVec 8) : State :=
  s.vPush (formVu o accept lat) (s.ctx.getM o.m) (fun sh m es => sh.build m (fun i => f sh (sh.lane (src es 0) i)))

/-- A word with a scalar operand: the low w bits of s[s], read at issue (R360). -/
def State.vfs (s : State) (o : Op.Vs) (lat : Nat) (f : VShape → Nat → Nat → Nat × BitVec 8) : State :=
  let v := (s.ctx.s[o.sr]).toNat
  s.vPush (formVs o floatFmt lat) (s.ctx.getM o.m) (fun sh m es =>
    sh.build m (fun i => f sh (sh.lane (src es 0) i) (v % 2 ^ sh.w)))

/-- VADD (R357). -/
def execVadd (o : Op.Vv) (s : State) : Host.Outcome State Fault Refusal := .next (s.vfp o 3 VShape.add)

/-- VSUB (R357). -/
def execVsub (o : Op.Vv) (s : State) : Host.Outcome State Fault Refusal := .next (s.vfp o 3 VShape.sub)

/-- VMUL (R357). -/
def execVmul (o : Op.Vv) (s : State) : Host.Outcome State Fault Refusal := .next (s.vfp o 4 VShape.mul)

/-- VFMA (R357, R358): the addend is popped from qd. -/
def execVfma (o : Op.Vv) (s : State) : Host.Outcome State Fault Refusal :=
  let w := formVv o floatFmt 4
  .next (s.vPush { w with srcs := w.srcs ++ [{ q := o.qd, peek := false }] } (s.ctx.getM o.m) (fun sh m es =>
    sh.build m (fun i => sh.fma (sh.lane (src es 0) i) (sh.lane (src es 1) i) (sh.lane (src es 2) i))))

/-- VMIN (R357). -/
def execVmin (o : Op.Vv) (s : State) : Host.Outcome State Fault Refusal := .next (s.vfp o 3 (fun sh => sh.pick false))

/-- VMAX (R357). -/
def execVmax (o : Op.Vv) (s : State) : Host.Outcome State Fault Refusal := .next (s.vfp o 3 (fun sh => sh.pick true))

/-- VABS (R357). -/
def execVabs (o : Op.Vu) (s : State) : Host.Outcome State Fault Refusal := .next (s.vun o floatFmt 3 (fun sh => sh.signOp false))

/-- VNEG (R357). -/
def execVneg (o : Op.Vu) (s : State) : Host.Outcome State Fault Refusal := .next (s.vun o floatFmt 3 (fun sh => sh.signOp true))

/-- VRCP (R359, R234, R235). -/
def execVrcp (o : Op.Vu) (s : State) : Host.Outcome State Fault Refusal := .next (s.vun o onlyFp32 12 (fun _ a => rcp32 a))

/-- VRSQ (R359). -/
def execVrsq (o : Op.Vu) (s : State) : Host.Outcome State Fault Refusal := .next (s.vun o onlyFp32 12 (fun _ a => rsq32 a))

/-- VEXP2 (R359). -/
def execVexp2 (o : Op.Vu) (s : State) : Host.Outcome State Fault Refusal := .next (s.vun o onlyFp32 12 (fun _ a => exp232 a))

/-- VLOG2 (R359). -/
def execVlog2 (o : Op.Vu) (s : State) : Host.Outcome State Fault Refusal := .next (s.vun o onlyFp32 12 (fun _ a => log232 a))

/-- VADDS (R360). -/
def execVadds (o : Op.Vs) (s : State) : Host.Outcome State Fault Refusal := .next (s.vfs o 3 VShape.add)

/-- VSUBS (R360). -/
def execVsubs (o : Op.Vs) (s : State) : Host.Outcome State Fault Refusal := .next (s.vfs o 3 VShape.sub)

/-- VMULS (R360). -/
def execVmuls (o : Op.Vs) (s : State) : Host.Outcome State Fault Refusal := .next (s.vfs o 4 VShape.mul)

/-- VFMAS (R360): the addend is popped from qd. -/
def execVfmas (o : Op.Vs) (s : State) : Host.Outcome State Fault Refusal :=
  let v := (s.ctx.s[o.sr]).toNat
  let w := formVs o floatFmt 4
  .next (s.vPush { w with srcs := w.srcs ++ [{ q := o.qd, peek := false }] } (s.ctx.getM o.m) (fun sh m es =>
    sh.build m (fun i => sh.fma (sh.lane (src es 0) i) (v % 2 ^ sh.w) (sh.lane (src es 1) i))))

/-- VMINS (R360). -/
def execVmins (o : Op.Vs) (s : State) : Host.Outcome State Fault Refusal := .next (s.vfs o 3 (fun sh => sh.pick false))

/-- VMAXS (R360). -/
def execVmaxs (o : Op.Vs) (s : State) : Host.Outcome State Fault Refusal := .next (s.vfs o 3 (fun sh => sh.pick true))

/-! ### Integer lanes (R361, R362) -/

/-- A lane as an integer: signed in the signed formats, unsigned in every other. -/
def VShape.int (sh : VShape) (a : Nat) : Int := if signedFmt sh.fmt then signedOf sh.w a else (a : Int)

/-- An integer wrapped into a lane. -/
def VShape.wrap (sh : VShape) (i : Int) : Nat × BitVec 8 := (patternOf sh.w i, 0)

/-- A two-operand integer word. -/
def State.vint (s : State) (o : Op.Vv) (lat : Nat) (f : VShape → Nat → Nat → Nat × BitVec 8) : State :=
  s.vPush (formVv o heldFmt lat) (s.ctx.getM o.m) (fun sh m es =>
    sh.build m (fun i => f sh (sh.lane (src es 0) i) (sh.lane (src es 1) i)))

/-- VIADD (R361). -/
def execViadd (o : Op.Vv) (s : State) : Host.Outcome State Fault Refusal :=
  .next (s.vint o 2 (fun sh a b => sh.wrap ((a : Int) + b)))

/-- VISUB (R361). -/
def execVisub (o : Op.Vv) (s : State) : Host.Outcome State Fault Refusal :=
  .next (s.vint o 2 (fun sh a b => sh.wrap ((a : Int) - b)))

/-- VIMUL (R361). -/
def execVimul (o : Op.Vv) (s : State) : Host.Outcome State Fault Refusal :=
  .next (s.vint o 4 (fun sh a b => sh.wrap ((a : Int) * b)))

/-- VAND (R361). -/
def execVand (o : Op.Vv) (s : State) : Host.Outcome State Fault Refusal := .next (s.vint o 2 (fun _ a b => (a &&& b, 0)))

/-- VOR (R361). -/
def execVor (o : Op.Vv) (s : State) : Host.Outcome State Fault Refusal := .next (s.vint o 2 (fun _ a b => (a ||| b, 0)))

/-- VXOR (R361). -/
def execVxor (o : Op.Vv) (s : State) : Host.Outcome State Fault Refusal := .next (s.vint o 2 (fun _ a b => (a ^^^ b, 0)))

/-- VSHL (R361): by b modulo the width, zeros entering. -/
def execVshl (o : Op.Vv) (s : State) : Host.Outcome State Fault Refusal :=
  .next (s.vint o 2 (fun sh a b => sh.wrap ((a * 2 ^ (b % sh.w) : Nat) : Int)))

/-- VSHR (R361). -/
def execVshr (o : Op.Vv) (s : State) : Host.Outcome State Fault Refusal :=
  .next (s.vint o 2 (fun sh a b => (a / 2 ^ (b % sh.w), 0)))

/-- VSRA (R361): copies of bit w - 1 entering. -/
def execVsra (o : Op.Vv) (s : State) : Host.Outcome State Fault Refusal :=
  .next (s.vint o 2 (fun sh a b => sh.wrap (signedOf sh.w a / (2 ^ (b % sh.w) : Int))))

/-- VIMIN (R361). -/
def execVimin (o : Op.Vv) (s : State) : Host.Outcome State Fault Refusal :=
  .next (s.vint o 2 (fun sh a b => (if sh.int b < sh.int a then b else a, 0)))

/-- VIMAX (R361). -/
def execVimax (o : Op.Vv) (s : State) : Host.Outcome State Fault Refusal :=
  .next (s.vint o 2 (fun sh a b => (if sh.int a < sh.int b then b else a, 0)))

/-- VIADDI (R362). -/
def execViaddi (o : Op.Vi) (s : State) : Host.Outcome State Fault Refusal :=
  .next (s.vPush { sync := o.sync, srcs := [{ q := o.qa, peek := o.pka }], dsts := [o.qd], accept := heldFmt, lat := 2 }
    (s.ctx.getM o.m) (fun sh m es => sh.build m (fun i => sh.wrap ((sh.lane (src es 0) i : Int) + o.imm.toInt))))

/-! ### VCMP (R363) -/

/-- The conditions of VCMP. -/
inductive VCond where
  | eq | ne | lt | le | gt | ge
deriving DecidableEq, Repr

/-- A condition on lanes whose order is known. -/
def VCond.holds (c : VCond) (less same : Bool) : Bool :=
  match c with
  | .eq => same
  | .ne => !same
  | .lt => less
  | .le => less || same
  | .gt => !less && !same
  | .ge => !less

/-- Is a condition one that a NaN makes invalid. -/
def VCond.ordered : VCond → Bool
  | .eq => false
  | .ne => false
  | _ => true

/-- Does a comparison of two lanes hold, and its flags. -/
def VShape.compare (sh : VShape) (c : VCond) (int uns : Bool) (a b : Nat) : Bool × BitVec 8 :=
  if int then
    let x : Int := if uns then a else signedOf sh.w a
    let y : Int := if uns then b else signedOf sh.w b
    (c.holds (decide (x < y)) (decide (x = y)), 0)
  else
    let x := sh.val a
    let y := sh.val b
    if x.isNan || y.isNan then (c == .ne, flIf c.ordered flNV) else (c.holds (x.lt y) (x.eqv y), 0)

/-- VCMP of a condition (R363). -/
def State.vcmp (s : State) (o : Op.Vc) (c : VCond) : State :=
  let m := s.ctx.getM o.m
  s.vReg { sync := o.sync, srcs := [{ q := o.qa, peek := o.pka }, { q := o.qb, peek := o.pkb }], dsts := []
           accept := if o.int then heldFmt else floatFmt, lat := 2 } (fun sh es =>
    let rs := (List.range sh.count).map (fun i =>
      if sh.on m i then sh.compare c o.int o.uns (sh.lane (src es 0) i) (sh.lane (src es 1) i) else (false, 0))
    (.m o.md, BitVec.ofNat 256 (rs.foldr (fun r acc => r.1.toNat + 2 * acc) 0), rs.foldl (fun fl r => fl ||| r.2) 0))

/-- VCMP.EQ (R363). -/
def execVcmpEq (o : Op.Vc) (s : State) : Host.Outcome State Fault Refusal := .next (s.vcmp o .eq)

/-- VCMP.NE (R363). -/
def execVcmpNe (o : Op.Vc) (s : State) : Host.Outcome State Fault Refusal := .next (s.vcmp o .ne)

/-- VCMP.LT (R363). -/
def execVcmpLt (o : Op.Vc) (s : State) : Host.Outcome State Fault Refusal := .next (s.vcmp o .lt)

/-- VCMP.LE (R363). -/
def execVcmpLe (o : Op.Vc) (s : State) : Host.Outcome State Fault Refusal := .next (s.vcmp o .le)

/-- VCMP.GT (R363). -/
def execVcmpGt (o : Op.Vc) (s : State) : Host.Outcome State Fault Refusal := .next (s.vcmp o .gt)

/-- VCMP.GE (R363). -/
def execVcmpGe (o : Op.Vc) (s : State) : Host.Outcome State Fault Refusal := .next (s.vcmp o .ge)

/-! ### VSEL, VBCASTI and VQ (R364 to R366) -/

/-- VSEL (R364): the mask selects and disables nothing. -/
def execVsel (o : Op.Vv) (s : State) : Host.Outcome State Fault Refusal :=
  .next (s.vPush (formVv o heldFmt 2) (s.ctx.getM o.m) (fun sh m es =>
    sh.build (BitVec.allOnes 256) (fun i => (sh.lane (if m.getLsbD i then src es 0 else src es 1) i, 0))))

/-- VBCASTI (R365). -/
def execVbcasti (o : Op.Vbi) (s : State) : Host.Outcome State Fault Refusal :=
  .next (s.vPush { sync := o.sync, srcs := [], dsts := [o.qd], accept := heldFmt, lat := 2 } (s.ctx.getM o.m) (fun sh m _ =>
    sh.build m (fun _ => encodeElem sh.fmt sh.rm sh.sat (.ofInt o.imm.toInt))))

/-- VMOV (R366). -/
def execVmov (o : Op.Vu) (s : State) : Host.Outcome State Fault Refusal :=
  .next (s.vun o heldFmt 1 (fun _ a => (a, 0)))

/-- VPOP (R366). -/
def execVpop (o : Op.Vp) (s : State) : Host.Outcome State Fault Refusal :=
  .next (s.vPush { sync := o.sync, srcs := [{ q := o.qa, peek := false }], dsts := [], accept := heldFmt, lat := 1 } 0
    (fun _ _ _ => (0, 0)))

/-- VDUP (R366): two copies. -/
def execVdup (o : Op.Vu) (s : State) : Host.Outcome State Fault Refusal :=
  let w := formVu o heldFmt 1
  .next (s.vPush { w with dsts := [o.qd, o.qd] } (s.ctx.getM o.m) (fun sh m es => sh.build m (fun i => (sh.lane (src es 0) i, 0))))

/-! ### VSHAPE and VMASK (R352, R367) -/

/-- A V word without queues whose result has latency 1. -/
def State.vSet (s : State) (sync : Fin 8) (dst : Dest) (v : BitVec 256) : State :=
  (s.land .v 1 dst v).vFly (vPlain (s.serial + 1) (s.cycle + 1) sync 0)

/-- Is a value one that VSETSH takes (R352). -/
def shapeOk (v : Nat) : Bool :=
  heldFmt (v % 16) && decide (1 ≤ v / 16 % 512) && decide (v / 16 % 512 ≤ 256) && decide (v / 2 ^ 13 % 8 < 4) && decide (v < 2 ^ 18)

/-- VSETSH (R352). -/
def execVsetsh (o : Op.Vset) (s : State) : Host.Outcome State Fault Refusal :=
  .next (s.vWord o.sync (fun s =>
    let v := s.ctx.s[o.sr]
    if !shapeOk v.toNat then s.faultAt .v .illegal 0 else s.vSet o.sync (.vshape false) (v.setWidth 256)))

/-- VSETL (R352). -/
def execVsetl (o : Op.Vset) (s : State) : Host.Outcome State Fault Refusal :=
  .next (s.vWord o.sync (fun s =>
    let v := s.ctx.s[o.sr]
    if v = 0 ∨ 256 < v.toNat then s.faultAt .v .illegal 0 else s.vSet o.sync (.vshape true) (v.setWidth 256)))

/-- A word on mask registers. -/
def State.vmask (s : State) (o : Op.Vm) (f : BitVec 256 → BitVec 256 → BitVec 256) : State :=
  s.vWord o.sync (fun s => s.vSet o.sync (.m o.md) (f (s.ctx.getM o.ma) (s.ctx.getM o.mb)))

/-- MAND (R367). -/
def execMand (o : Op.Vm) (s : State) : Host.Outcome State Fault Refusal := .next (s.vmask o (fun a b => a &&& b))

/-- MOR (R367). -/
def execMor (o : Op.Vm) (s : State) : Host.Outcome State Fault Refusal := .next (s.vmask o (fun a b => a ||| b))

/-- MXOR (R367). -/
def execMxor (o : Op.Vm) (s : State) : Host.Outcome State Fault Refusal := .next (s.vmask o (fun a b => a ^^^ b))

/-- MNOT (R367). -/
def execMnot (o : Op.Vn) (s : State) : Host.Outcome State Fault Refusal :=
  .next (s.vWord o.sync (fun s => s.vSet o.sync (.m o.md) (~~~(s.ctx.getM o.ma))))

end Sys2Proof.Machine
end

