-- ==== Sys2Proof/Machine/VectorMore.lean ====
section
/-! DEFINITION. The V stream's conversion, packing, reduction, lane movement and stream control (spec/20_vector_more.md,
R369 to R375). -/

namespace Sys2Proof.Machine

/-! ### VCVT (R369, R370) -/

/-- The lanes of a conversion between formats without blocks (R369). -/
def VShape.convert (sh : VShape) (m : BitVec 256) (fmt : Nat) (rm : RMode) (sat : Bool) (e : QEntry) : QEntry × BitVec 8 :=
  let wd := fmtBits fmt
  let n := min sh.lanes (min sh.count (2048 / wd))
  let rs := (List.range (2048 / wd)).map (fun i =>
    if decide (i < n) && m.getLsbD i then convertElem sh.fmt fmt rm sat (sh.lane e i) else (0, 0))
  (entryOf wd (rs.map (fun r => r.1)), rs.foldl (fun fl r => fl ||| r.2) 0)

/-- The number of lanes that a block conversion covers. -/
def VShape.blockLanes (sh : VShape) : Nat := min sh.lanes sh.count

/-- Does a block conversion keep the rules of R370. -/
def VShape.blocksOk (sh : VShape) (maskReg : Fin 8) (fmt : Nat) : Bool :=
  decide (maskReg = 0) && decide (sh.blockLanes % 32 = 0) && decide (sh.blockLanes / 32 ≤ if fmt = fmtMxfp8 then 7 else 8)

/-- A conversion into blocks, packed in the geometry-1 layout (R370). -/
def VShape.toBlocks (sh : VShape) (fmt : Nat) (rm : RMode) (sat : Bool) (e : QEntry) : QEntry × BitVec 8 :=
  let bits := fmtBits fmt
  let size := 4 * bits + 1
  let rs := (List.range (sh.blockLanes / 32)).map (fun b =>
    let vs := (List.range 32).map (fun i => elemVal sh.fmt (sh.lane e (32 * b + i)))
    let r := encodeBlock fmt rm sat (vs.map (fun v => v.1))
    let packed := r.1 + 256 * (r.2.1.foldr (fun v acc => v % 2 ^ bits + 2 ^ bits * acc) 0)
    (packed * 2 ^ (8 * size * b), vs.foldl (fun fl v => fl ||| v.2) r.2.2))
  (BitVec.ofNat 2048 (rs.foldl (fun acc r => acc + r.1) 0), rs.foldl (fun fl r => fl ||| r.2) 0)

/-- VCVT (R369, R370): the word's own rounding mode and saturation. -/
def execVcvt (o : Op.Vcvt) (s : State) : Host.Outcome State Fault Refusal :=
  let f := o.fmt.val
  let rm := RMode.ofCode o.rm.val
  let sh := s.ctx.shape
  let bad := f = 0 ∨ 14 ≤ f ∨ 4 ≤ o.rm.val ∨ (isBlockFmt f = true ∧ sh.blocksOk o.m f = false)
  .next (s.vPush { sync := o.sync, srcs := [{ q := o.qa, peek := o.pka }], dsts := [o.qd]
                   accept := fun x => heldFmt x && !decide bad, lat := 4 } (s.ctx.getM o.m) (fun sh m es =>
    if isBlockFmt f then sh.toBlocks f rm o.sat (src es 0) else sh.convert m f rm o.sat (src es 0)))

/-! ### VPACK and VUNPK (R371) -/

/-- The halves of two entries joined: the low ones, or the high ones. -/
def State.vpacked (s : State) (o : Op.Vv) (high : Bool) : State :=
  s.vPush (formVv o heldFmt 3) (s.ctx.getM o.m) (fun sh m es =>
    let h := if high then sh.count / 2 else 0
    sh.build m (fun i =>
      (if i < sh.count / 2 then sh.lane (src es 0) (i + h) else sh.lane (src es 1) (i - sh.count / 2 + h), 0)))

/-- VPACK (R371). -/
def execVpack (o : Op.Vv) (s : State) : Host.Outcome State Fault Refusal := .next (s.vpacked o false)

/-- VUNPK (R371). -/
def execVunpk (o : Op.Vv) (s : State) : Host.Outcome State Fault Refusal := .next (s.vpacked o true)

/-! ### Reductions (R372) -/

/-- The exact sum of values; an exact zero is -0 when every value is -0 or under RDN, and +0 of no value. -/
def exactSum (zneg : Bool) (vs : List Val) : Val :=
  match vs with
  | [] => .fin false 0 0
  | v :: rest =>
    let t := rest.foldl (Val.add false) v
    if t.isZero then .fin (zneg || vs.all (fun v => v.isZero && v.sign)) 0 0 else t

/-- VRSUM of the enabled lanes. -/
def VShape.sum (sh : VShape) (ls : List Nat) : Nat × BitVec 8 :=
  if floatFmt sh.fmt then sh.round (exactSum sh.rm.zneg (ls.map sh.val))
  else sh.wrap (((ls.foldl (fun a b => a + b) 0 : Nat)) : Int)

/-- What VRMAX (or VRMIN) gives of no lane. -/
def VShape.extreme (sh : VShape) (isMax : Bool) : Nat :=
  if floatFmt sh.fmt then (if sh.fp.hasInf then sh.fp.infBits isMax else sh.fp.largestBits isMax)
  else
    let r := intRange sh.fmt
    patternOf sh.w (if isMax then r.1 else r.2)

/-- VRMAX or VRMIN of the enabled lanes: NaN lanes yield to the others and set NV. -/
def VShape.extremum (sh : VShape) (isMax : Bool) (ls : List Nat) : Nat × BitVec 8 :=
  if floatFmt sh.fmt then
    let good := ls.filter (fun l => !(sh.val l).isNan)
    let fl := flIf (decide (good.length < ls.length)) flNV
    match good with
    | [] => (if ls.isEmpty then sh.extreme isMax else sh.fp.nanBits, fl)
    | l :: rest => (rest.foldl (fun a b => (sh.pick isMax a b).1) l, fl)
  else
    match ls with
    | [] => (sh.extreme isMax, 0)
    | l :: rest => (rest.foldl (fun a b => if (sh.int a < sh.int b) = isMax then b else a) l, 0)

/-- A reduction: every lane of the result receives it (R372). -/
def State.vreduce (s : State) (o : Op.Vu) (f : VShape → List Nat → Nat × BitVec 8) : State :=
  s.vPush (formVu o reduceFmt 8) (s.ctx.getM o.m) (fun sh m es =>
    let r := f sh (((List.range sh.count).filter (fun i => sh.on m i)).map (fun i => sh.lane (src es 0) i))
    (entryOf sh.w (List.replicate sh.count r.1), r.2))

/-- VRSUM (R372). -/
def execVrsum (o : Op.Vu) (s : State) : Host.Outcome State Fault Refusal := .next (s.vreduce o VShape.sum)

/-- VRMAX (R372). -/
def execVrmax (o : Op.Vu) (s : State) : Host.Outcome State Fault Refusal := .next (s.vreduce o (fun sh => sh.extremum true))

/-- VRMIN (R372). -/
def execVrmin (o : Op.Vu) (s : State) : Host.Outcome State Fault Refusal := .next (s.vreduce o (fun sh => sh.extremum false))

/-! ### Lane movement (R373, R374) -/

/-- VPERM (R373). -/
def execVperm (o : Op.Vv) (s : State) : Host.Outcome State Fault Refusal :=
  .next (s.vPush (formVv o heldFmt 4) (s.ctx.getM o.m) (fun sh m es =>
    sh.build m (fun i => (sh.lane (src es 0) (sh.lane (src es 1) i % sh.count), 0))))

/-- VBCAST (R373). -/
def execVbcast (o : Op.Vb) (s : State) : Host.Outcome State Fault Refusal :=
  let v := (s.ctx.s[o.sr]).toNat
  .next (s.vPush { sync := o.sync, srcs := [], dsts := [o.qd], accept := heldFmt, lat := 2 } (s.ctx.getM o.m) (fun sh m _ =>
    sh.build m (fun _ => (v % 2 ^ sh.w, 0))))

/-- VROT (R373). -/
def execVrot (o : Op.Vi) (s : State) : Host.Outcome State Fault Refusal :=
  .next (s.vPush { sync := o.sync, srcs := [{ q := o.qa, peek := o.pka }], dsts := [o.qd], accept := heldFmt, lat := 3 }
    (s.ctx.getM o.m) (fun sh m es =>
      sh.build m (fun i => (sh.lane (src es 0) ((((i : Int) + o.imm.toInt) % (sh.count : Int)).toNat), 0))))

/-- VSMOV from a lane to an s register (R374). -/
def execVsmovToS (o : Op.Vl2s) (s : State) : Host.Outcome State Fault Refusal :=
  .next (s.vReg { sync := o.sync, srcs := [{ q := o.q, peek := o.pk }], dsts := []
                  accept := fun f => heldFmt f && decide (o.lane.val < 2048 / fmtBits f), lat := 2 } (fun sh es =>
    let v := sh.lane (src es 0) o.lane.val
    let r := if sh.fmt = fmtInt8 ∨ sh.fmt = fmtInt16 then patternOf 32 (signedOf sh.w v) else v
    (.s o.sr, BitVec.ofNat 256 r, 0)))

/-- An entry with lane l of w bits replaced. -/
def putLane (e : QEntry) (w l v : Nat) : QEntry :=
  let mask : QEntry := BitVec.ofNat 2048 ((2 ^ w - 1) * 2 ^ (w * l))
  (e &&& ~~~mask) ||| BitVec.ofNat 2048 (v % 2 ^ w * 2 ^ (w * l))

/-- VSMOV from an s register to a lane (R374): the queue must be bound from V to V. -/
def execVsmovToLane (o : Op.Vs2l) (s : State) : Host.Outcome State Fault Refusal :=
  let v := (s.ctx.s[o.sr]).toNat
  .next (s.vPush { sync := o.sync, srcs := [{ q := o.q, peek := false }], dsts := [o.q]
                   accept := fun f => heldFmt f && decide (o.lane.val < 2048 / fmtBits f), lat := 2 } 0
    (fun sh _ es => (putLane (src es 0) sh.w o.lane.val v, 0)))

/-! ### Stream control (R375) -/

/-- LOOP of the V stream (R161, R375). -/
def execVLoop (o : Op.Loop) (s : State) : Host.Outcome State Fault Refusal :=
  .next (s.vWord o.sync (fun s =>
    if loopBad s.ctx.vs o.id (o.stm1.val + 1) o.len.val then s.faultAt .v .illegal 0
    else if !s.ctx.postRoom .v o.sync then s.waitIn .v .channel
    else
      (s.onCtx (fun c => c.post .v o.sync s.cycle s.serial)).enterLoop .v o.id (o.stm1.val + 1) o.len.val (s.ctx.s[o.cnt]).toNat))

/-- SYNC of the V stream (R375): it retires, and posts, when every earlier V word has retired. -/
def execVSync (o : Op.Sync) (s : State) : Host.Outcome State Fault Refusal :=
  .next (s.vWord o.sync (fun s =>
    let p : VPend := { vPlain s.serial s.cycle o.sync 0 with postC := o.postC, last := true }
    if s.ctx.vpend.isEmpty then
      if s.vRetires p then (s.issuedIn .v).vRetire p else s.waitIn .v .channel
    else s.vFly p))

/-- FENCE of the V stream (R146, R375). -/
def execVFence (o : Op.EFence) (s : State) : Host.Outcome State Fault Refusal :=
  .next (s.vWord o.sync (fun s => s.fenceWord .v o.before o.after o.scope.val o.sync (State.fenceDone .v o.sync)))

/-- END of the V stream (R375): it retires as SYNC does. -/
def execVEnd (o : Op.EBare) (s : State) : Host.Outcome State Fault Refusal :=
  .next (s.vWord o.sync (fun s =>
    if !s.ctx.vpend.isEmpty then s.waitIn .v .landing
    else if s.ctx.postRoom .v o.sync then s.endStrm .v o.sync else s.waitIn .v .channel))

end Sys2Proof.Machine
end

