-- ==== Sys2Proof/Machine/SumProd.lean ====
section
/-! DEFINITION. The sum-product unit (spec/20_vector_more.md, R377 to R383; R237, R238 of spec/12_numbers.md). -/

namespace Sys2Proof.Machine

/-! ### Cells (R377, R378, R381) -/

/-- A cell's pattern. -/
def State.cell (s : State) (key : Nat) : Nat := (s.core.sp.getD key 0).toNat

/-- The key of a cell that a 12-bit reference names in a part of the scratch. -/
def State.refKey (s : State) (part ref : Nat) : Nat := cellKey part (s.spBanks.1 + ref / 512) (ref % 512)

/-- Does one of some cells have a write of an earlier word in flight (R381). -/
def State.cellsBusy (s : State) (keys : List Nat) : Bool := s.ctx.vpend.any (fun p => p.cells.any (fun c => keys.contains c.1))

/-- The cells of SPLD and SPST from a reference on: ref(k) for k below n (R378). -/
def State.spanKeys (s : State) (part ref n : Nat) : List Nat :=
  let nb := s.spBanks.2
  (List.range n).map (fun k => cellKey part (s.spBanks.1 + (ref / 512 % 8 + k) % nb) (ref % 512 + k / nb))

/-- Does a run of n cells from a reference leave the context's banks (R378). -/
def State.spanBad (s : State) (ref n : Nat) : Bool :=
  let nb := s.spBanks.2
  decide (nb ≤ ref / 512 % 8) || decide (511 < ref % 512 + (n - 1) / nb)

/-- The lanes that the moving words cover. -/
def VShape.spLanes (sh : VShape) : Nat := min sh.lanes 64

/-- A sum-product word: its queues served, then its banks checked, then its cells free (R263, R381). -/
def State.spWord (s : State) (w : VForm) (bad : List QEntry → Bool) (keys : List QEntry → List Nat) (f : List QEntry → State → State) : State :=
  s.vWord w.sync (fun s =>
    s.vServe w (fun es s' =>
      if bad es then s.faultAt .v .spbank 0
      else if s.cellsBusy (keys es) then s.waitIn .v .cell
      else f es s'))

/-- SPLD (R378). -/
def execSpld (o : Op.Spls) (s : State) : Host.Outcome State Fault Refusal :=
  let ref := (s.ctx.s[o.sr]).toNat % 4096
  let n := s.ctx.shape.spLanes
  let keys := s.spanKeys o.part.val ref n
  .next (s.spWord { sync := o.sync, srcs := [{ q := o.q, peek := false }], dsts := []
                    accept := fun _ => decide (o.part.val ≠ 3), lat := 4 }
    (fun _ => s.spanBad ref n) (fun _ => keys) (fun es s =>
      s.vFly { vPlain s.serial (s.cycle + 4) o.sync 0 with
        cells := keys.mapIdx (fun k key => (key, BitVec.ofNat 32 (laneOf (src es 0) 32 k))) }))

/-- SPST (R378): the cells are read at issue. -/
def execSpst (o : Op.Spls) (s : State) : Host.Outcome State Fault Refusal :=
  let ref := (s.ctx.s[o.sr]).toNat % 4096
  let n := s.ctx.shape.spLanes
  let keys := s.spanKeys o.part.val ref n
  .next (s.spWord { sync := o.sync, srcs := [], dsts := [o.q], accept := fun _ => decide (o.part.val ≠ 3), lat := 4 }
    (fun _ => s.spanBad ref n) (fun _ => keys) (fun _ s =>
      s.vFly { vPlain s.serial (s.cycle + 4) o.sync 0 with
        pushes := [(o.q, s.serial - 1, entryOf 32 (keys.map (fun key => s.cell key)))] }))

/-- SPCVT (R378): FP32 to PS32, or back. -/
def execSpcvt (o : Op.Spcvt) (s : State) : Host.Outcome State Fault Refusal :=
  .next (s.vPush { sync := o.sync, srcs := [{ q := o.qa, peek := false }], dsts := [o.qd], accept := fun _ => true, lat := 4 } 0
    (fun sh _ es =>
      let rs := (List.range sh.spLanes).map (fun k =>
        let v := laneOf (src es 0) 32 k
        if o.toF then convertElem fmtPs32 fmtFp32 .rne false v else convertElem fmtFp32 fmtPs32 .rne false v)
      (entryOf 32 (rs.map (fun r => r.1)), rs.foldl (fun fl r => fl ||| r.2) 0)))

/-! ### Subtree records (R261, R379, R380) -/

/-- A subtree record. -/
structure SubRec where
  ops : Nat
  present : Nat
  dest : Nat
  leaves : List Nat
  weights : List Nat
  reserved : Bool
deriving DecidableEq, Repr

/-- Record c of an entry (R261, R379). -/
def SubRec.ofEntry (e : QEntry) (c : Nat) : SubRec :=
  let r := e.toNat / 2 ^ (256 * c) % 2 ^ 256
  { ops := r % 128, present := r / 2 ^ 7 % 256, dest := r / 2 ^ 16 % 4096
    leaves := (List.range 8).map (fun j => r / 2 ^ (32 + 12 * j) % 4096)
    weights := (List.range 8).map (fun j => r / 2 ^ (128 + 12 * j) % 4096)
    reserved := decide (r / 2 ^ 15 % 2 ≠ 0) || decide (r / 2 ^ 28 % 16 ≠ 0) || decide (r / 2 ^ 224 ≠ 0) }

/-- Leaf j's reference. -/
def SubRec.leaf (r : SubRec) (j : Nat) : Nat := r.leaves.getD j 0xFFF

/-- The weight reference of leaf j. -/
def SubRec.weight (r : SubRec) (j : Nat) : Nat := r.weights.getD j 0xFFF

/-- Is leaf j present (R380). -/
def SubRec.has (r : SubRec) (j : Nat) : Bool := decide (r.present / 2 ^ j % 2 = 1) && decide (r.leaf j ≠ 0xFFF)

/-- The present leaves, rising. -/
def SubRec.leafs (r : SubRec) : List Nat := (List.range 8).filter r.has

/-- The present leaves that have a weight. -/
def SubRec.weighted (r : SubRec) : List Nat := r.leafs.filter (fun j => decide (r.weight j ≠ 0xFFF))

/-- Does a record break a rule of R380, where nb banks are configured. -/
def SubRec.bad (r : SubRec) (nb : Nat) : Bool :=
  r.reserved || decide (r.dest = 0xFFF) || decide (nb ≤ r.dest / 512) ||
  r.leafs.any (fun j => decide (nb ≤ r.leaf j / 512)) || r.weighted.any (fun j => decide (nb ≤ r.weight j / 512))

/-- The issue cycles of a record (R381). -/
def SubRec.cycles (r : SubRec) : Nat :=
  (List.range 8).foldl (fun n b =>
    max n (max (r.leafs.countP (fun j => r.leaf j / 512 == b)) (r.weighted.countP (fun j => r.weight j / 512 == b)))) 1

/-- The operation of node k: true is a product. -/
def SubRec.isProd (r : SubRec) (k : Nat) : Bool := decide (r.ops / 2 ^ k % 2 = 1)

/-! ### Arithmetic (R237, R238): PS32 patterns, with flags beside them -/

/-- A pattern as it reads: the canonical pattern of its value, and PIN (R221). -/
def psRead (w : Nat) : Nat × BitVec 8 :=
  let v := ps32Val w
  ((roundPs .rne v.1).1, v.2)

/-- round_ps of an exact product. -/
def psMul (a b : Nat) : Nat × BitVec 8 := roundPs .rne ((ps32Val a).1.mul (ps32Val b).1)

/-- round_ps of an exact sum. -/
def psAdd (a b : Nat) : Nat × BitVec 8 := roundPs .rne ((ps32Val a).1.add false (ps32Val b).1)

/-- node(a, b) of R237. -/
def psNode (isProd : Bool) (a b : Option Nat) : Option Nat × BitVec 8 :=
  match a, b with
  | none, none => (none, 0)
  | some x, none => (some x, 0)
  | none, some y => (some y, 0)
  | some x, some y =>
    let r := if isProd then psMul x y else psAdd x y
    (some r.1, r.2)

/-- The edges of a record and their flags (R237). -/
def State.edges (s : State) (r : SubRec) : List (Option Nat × BitVec 8) :=
  (List.range 8).map (fun j =>
    if !r.has j then (none, 0)
    else
      let v := psRead (s.cell (s.refKey 0 (r.leaf j)))
      if r.weight j = 0xFFF then (some v.1, v.2)
      else
        let w := psRead (s.cell (s.refKey 2 (r.weight j)))
        let p := psMul v.1 w.1
        (some p.1, v.2 ||| w.2 ||| p.2))

/-- What a record evaluates to: its edges, its nodes 0 to 6, its flags. -/
structure SubVal where
  e : List (Option Nat)
  n : List (Option Nat)
  flags : BitVec 8
deriving DecidableEq, Repr

/-- The evaluation of a record (R237, R382). -/
def State.evalRec (s : State) (r : SubRec) : SubVal :=
  let es := s.edges r
  let e := es.map (fun x => x.1)
  let lo := (List.range 4).map (fun k => psNode (r.isProd k) (e.getD (2 * k) none) (e.getD (2 * k + 1) none))
  let n := lo.map (fun x => x.1)
  let n4 := psNode (r.isProd 4) (n.getD 0 none) (n.getD 1 none)
  let n5 := psNode (r.isProd 5) (n.getD 2 none) (n.getD 3 none)
  let n6 := psNode (r.isProd 6) n4.1 n5.1
  { e := e, n := n ++ [n4.1, n5.1, n6.1]
    flags := es.foldl (fun fl x => fl ||| x.2) (lo.foldl (fun fl x => fl ||| x.2) (n4.2 ||| n5.2 ||| n6.2)) }

/-- The cells that a record reads or writes: leaf values, weights, and the destination's half; for SPDN the leaves' derivatives. -/
def State.recKeys (s : State) (r : SubRec) (down : Bool) : List Nat :=
  r.leafs.map (fun j => s.refKey 0 (r.leaf j)) ++ r.weighted.map (fun j => s.refKey 2 (r.weight j)) ++
  [s.refKey (if down then 1 else 0) r.dest] ++ (if down then r.leafs.map (fun j => s.refKey 1 (r.leaf j)) else [])

/-- What SPUP writes, and its flags (R382). -/
def State.upCells (s : State) (r : SubRec) (addInto : Bool) : List (Nat × Half) × BitVec 8 :=
  let v := s.evalRec r
  let key := s.refKey 0 r.dest
  match v.n.getD 6 none with
  | none => (if addInto then [] else [(key, 0)], v.flags)
  | some root =>
    if addInto then
      let d := psRead (s.cell key)
      let t := psAdd d.1 root
      ([(key, BitVec.ofNat 32 t.1)], v.flags ||| d.2 ||| t.2)
    else ([(key, BitVec.ofNat 32 root)], v.flags)

/-- What reaches a child of a node from the node's own g (R238, R383). -/
def psDown (isProd : Bool) (g sibling : Option Nat) : Option Nat × BitVec 8 :=
  match g, sibling with
  | some g, some y => if isProd then (let r := psMul g y; (some r.1, r.2)) else (some g, 0)
  | g, _ => (g, 0)

/-- g at a node or edge that is present. -/
def psAt (v : Option Nat) (r : Option Nat × BitVec 8) : Option Nat × BitVec 8 := if v.isSome then r else (none, 0)

/-- g at the eight edges, with flags (R383). -/
def SubVal.down (v : SubVal) (r : SubRec) (g6 : Nat) : List (Option Nat × BitVec 8) :=
  let n := fun k => v.n.getD k none
  let e := fun k => v.e.getD k none
  let g4 := psAt (n 4) (psDown (r.isProd 6) (some g6) (n 5))
  let g5 := psAt (n 5) (psDown (r.isProd 6) (some g6) (n 4))
  let child := fun (k : Nat) (g : Option Nat × BitVec 8) (x y : Option Nat) =>
    let d := psAt x (psDown (r.isProd k) g.1 y)
    (d.1, d.2 ||| g.2)
  let gs := [child 4 g4 (n 0) (n 1), child 4 g4 (n 1) (n 0), child 5 g5 (n 2) (n 3), child 5 g5 (n 3) (n 2)]
  (List.range 8).map (fun j => child (j / 2) (gs.getD (j / 2) (none, 0)) (e j) (e (if j % 2 = 0 then j + 1 else j - 1)))

/-- What SPDN writes, and its flags: each present leaf's derivative in ascending order (R383). -/
def State.downCells (s : State) (r : SubRec) : List (Nat × Half) × BitVec 8 :=
  let v := s.evalRec r
  match v.n.getD 6 none with
  | none => ([], v.flags)
  | some _ =>
    let d := psRead (s.cell (s.refKey 1 r.dest))
    let gs := v.down r d.1
    r.leafs.foldl (fun (acc : List (Nat × Half) × BitVec 8) j =>
      match (gs.getD j (none, 0)) with
      | (none, fl) => (acc.1, acc.2 ||| fl)
      | (some g, fl) =>
        let w := psRead (s.cell (s.refKey 2 (r.weight j)))
        let c := if r.weight j = 0xFFF then (g, 0) else psMul g w.1
        let key := s.refKey 1 (r.leaf j)
        let old := match List.find? (fun (x : Nat × Half) => x.1 == key) acc.1 with
          | some x => psRead x.2.toNat
          | none => psRead (s.cell key)
        let t := psAdd old.1 c.1
        ((key, BitVec.ofNat 32 t.1) :: acc.1.filter (fun x => !(x.1 == key)), acc.2 ||| fl ||| c.2 ||| old.2 ||| t.2))
      ([], v.flags ||| d.2)

/-- The context with a record of a queue taken: the cursor advances, and past the last record the entry pops (R379). -/
def Context.takeRec (c : Context) (now : Nat) (q : Fin 16) : Context :=
  if c.q[q].cursor.val = 7 then
    match c.popQ now .v q 1 with
    | .ok (_, c) => { c with q := c.q.set q { c.q[q] with cursor := 0 } }
    | .error _ => c
  else { c with q := c.q.set q { c.q[q] with cursor := c.q[q].cursor + 1 } }

/-- SPUP or SPDN: the record at the cursor is checked, its cells are read over its issue cycles, and its writes land `lat` cycles
after the last of them. -/
def State.recWord (s : State) (sync : Fin 8) (q : Fin 16) (lat : Nat) (down : Bool)
    (cells : State → SubRec → List (Nat × Half) × BitVec 8) : State :=
  let cur := (s.ctx.q[q]).cursor.val
  let recOf := fun (es : List QEntry) => SubRec.ofEntry (src es 0) cur
  s.spWord { sync := sync, srcs := [{ q := q, peek := true }], dsts := [], accept := fun _ => true, lat := lat }
    (fun es => (recOf es).bad s.spBanks.2) (fun es => s.recKeys (recOf es) down) (fun es s =>
      let r := recOf es
      let n := r.cycles
      let w := cells s r
      let s := s.onCtx (fun c => c.takeRec s.cycle q)
      (s.vFly { vPlain s.serial (s.cycle + (n - 1) + lat) sync w.2 with cells := w.1 }).onCtx (fun c =>
        c.onStrm .v (fun x => { x with readyAt := s.cycle + n })))

/-- SPUP (R382). -/
def execSpup (o : Op.Spup) (s : State) : Host.Outcome State Fault Refusal :=
  .next (s.recWord o.sync o.qr 8 false (fun s r => s.upCells r o.addInto))

/-- SPDN (R383). -/
def execSpdn (o : Op.Spdn) (s : State) : Host.Outcome State Fault Refusal :=
  .next (s.recWord o.sync o.qr 12 true (fun s r => s.downCells r))

end Sys2Proof.Machine
end

