-- ==== Sys2Proof/Machine/Traps.lean ====
section
/-! DEFINITION. Pending traps taken at C boundaries, and deadlocks (R178, R179, R181, R183, R396). -/

namespace Sys2Proof.Machine

/-- Is a pending trap that of a token which the WAIT at issue names: it is raised after the WAIT (R289). -/
def Context.waitsFor (c : Context) (t : PendTrap) : Bool :=
  match t.tok with
  | some k => t.rank == 1 && c.waitMask.getLsbD k.val
  | none => false

/-- The pending trap that the focused context takes now (R178, R179): its C stream stands at a boundary, and no handler runs. -/
def State.trapDue (s : State) : Option PendTrap :=
  if s.ctx.turn.isNone || s.ctx.tip || s.ctx.retire.isSome || s.ctx.halted || s.ctx.haltReq || s.core.stopping || s.core.urgent.isSome ||
      s.core.active != s.cx then none
  else firstTrap (s.ctx.pend.filter (fun t => !s.ctx.waitsFor t))

/-- A pending trap is taken: BUDGET and DEADLOCK name EPC, and a budget trap is logged for replay (R177, R210). -/
def State.takeTrap (s : State) (t : PendTrap) : State :=
  let epc := s.ctx.cs.pc
  let s := s.onCtx (fun c => { c with pend := c.pend.erase t })
  let s := if t.rank = 4 then s.replayLog s.serial 6 .c s.ctx.cs.issued s.ctx.net.toNat else s
  s.enterTrapAt s.cNow (if 4 ≤ t.rank then { t with fpc := epc } else t) epc

/-- TRAP_ENTRY (R178). -/
def execTrapEntry (site : Nat) (cx : Bool) (s : State) : Host.Outcome State Fault Refusal :=
  let s := s.focus site cx
  .next (match s.trapDue with
    | none => s
    | some t => s.takeTrap t)

/-- The count of R183 that makes a deadlock. -/
def deadlockCycles : Nat := 4096

/-- DEADLOCK_DETECT (R183): the trap becomes pending. -/
def execDeadlockDetect (site : Nat) (cx : Bool) (s : State) : Host.Outcome State Fault Refusal :=
  let s := s.focus site cx
  .next (if s.ctx.turn.isSome && !s.ctx.tip && decide (deadlockCycles ≤ s.ctx.dead) then
      s.onCtx (fun c => { c with dead := 0, pend := c.pend ++ [asyncTrap 5 .deadlock] })
    else s)

/-- HANDLER_DEADLOCK (R181): a double trap. -/
def execHandlerDeadlock (site : Nat) (cx : Bool) (s : State) : Host.Outcome State Fault Refusal :=
  let s := s.focus site cx
  .next (if s.ctx.turn.isSome && s.ctx.tip && s.ctx.retire.isNone && decide (deadlockCycles ≤ s.ctx.dead) then
      s.enterTrap (asyncTrap 5 .deadlock) s.ctx.cs.pc
    else s)

end Sys2Proof.Machine
end

