-- ==== Sys2Proof/Machine/TurnWords.lean ====
section
/-! DEFINITION. The C-stream words of turns, events and cancels: TURN, SETE and CANCEL families (R301 to R308,
spec/16_control_system.md). -/

namespace Sys2Proof.Machine

/-! ### Creation (R302) -/

/-- The turn of the record at an address as a SPAWN of the turn in focus would create it, if the record can be read (R76). -/
def State.recordTurn (s : State) (rec : Word) : Option Turn :=
  let act := s.jobOf
  match s.readTurn rec s.launchOf act.1 act.2 none with
  | .ok (t, _) => some t
  | .error _ => none

/-- A record word with a token and no result: its address is aligned, its token is taken, and a turn that creates
observes a cancel (R294, R95). -/
def State.recordWord (s : State) (tok : Fin 8) (a : Word) (align : Nat) (op : TokOp) : State :=
  match s.ctx.tokHazard tok [] with
  | some w => s.waitIn .c w
  | none => if a.toNat % align ≠ 0 then s.trapWord .align a else (s.takeTok tok [] (s.recordLat a.toNat) op).issuedIn .c

/-- SPAWN (R302): it waits at issue for room in the spill area (R79). -/
def execSpawn (o : Op.TokSrc) (s : State) : Host.Outcome State Fault Refusal :=
  .next (s.guarded o.g (fun s =>
    let rec_ := s.ctx.getX o.ra
    let cl := clusterOf s.site
    match s.ctx.tokHazard o.tok [] with
    | some w => s.waitIn .c w
    | none =>
      if rec_.toNat % 64 ≠ 0 then s.trapWord .align rec_
      else
        if s.needsSpill cl (s.recordTurn rec_) && !s.spillRoom cl then s.waitIn .c .spill
        else ((s.takeTok o.tok [] (s.recordLat rec_.toNat) (.spawn rec_)).issuedIn .c).observe))

/-- Does a turn placed next, unpinned and in the foreground, find no entry (R79, R80). -/
def State.placementFull (s : State) : Bool :=
  let cl := nextCluster s.part.clusters s.part.lastPlace
  s.needsSpill cl none && !s.spillRoom cl

/-- LAUNCH (R302): it waits at issue for room in the spill area (R79). -/
def execLaunch (o : Op.TokSrc) (s : State) : Host.Outcome State Fault Refusal :=
  .next (s.guarded o.g (fun s =>
    let rec_ := s.ctx.getX o.ra
    match s.ctx.tokHazard o.tok [] with
    | some w => s.waitIn .c w
    | none =>
      if rec_.toNat % 64 ≠ 0 then s.trapWord .align rec_
      else
        if s.placementFull then s.waitIn .c .spill
        else ((s.takeTok o.tok [] (s.recordLat rec_.toNat) (.launch rec_)).issuedIn .c).observe))

/-- JOIN (R303). -/
def execJoin (o : Op.TokSrc2) (s : State) : Host.Outcome State Fault Refusal :=
  .next (s.guarded o.g (fun s =>
    let a := s.ctx.getX o.ra
    s.recordWord o.tok a 8 (.join a ((s.ctx.getX o.rb).setWidth 40))))

/-! ### The end of a turn (R304, R180) -/

/-- Has the turn in focus work of its own that END and EWAIT wait for: engine streams, and operations outstanding whose faults
must still be seen (R304, R149; DEDUCED, log 15). -/
def Context.unfinished (c : Context) : Bool := c.ts.run || c.ms.run || c.vs.run || c.busyTokens

/-- Has a cancel reached the turn in focus. -/
def Context.isCancelled (c : Context) : Bool :=
  match c.turn with
  | some t => t.cancelled
  | none => false

/-- END (R304): in a handler it retires the turn FAULTED at once. -/
def execCEnd (o : Op.Bare) (s : State) : Host.Outcome State Fault Refusal :=
  .next (s.guarded o.g (fun s =>
    if s.ctx.tip then (s.issuedIn .c).retireTurn true s.ctx.isCancelled
    else if s.ctx.unfinished then s.waitIn .c .cend
    else (s.issuedIn .c).retireTurn false s.ctx.isCancelled))

/-- An EWAIT of a cancelled turn (R93, R95): its continuation is a stillborn, whose join counter counts it, and the turn retires. -/
def State.stillEwait (s : State) (name : Nat) (u : Turn) : State :=
  (((if u.join = 0 then s else s.run [.decr u.join 1 false true]).trace 9 .c name).issuedIn .c).retireTurn false true

/-- The registration of a continuation (R304, R93): the creation atomic, the parent written into the record, the event's wait
list; after a cancel, a stillborn. -/
def State.registerEwait (s : State) (name : Nat) (e : EvEnt) (rec_ : Word) : State :=
  let act := s.jobOf
  let s := s.seeVa rec_.toNat 64
  match s.readTurn rec_ s.launchOf act.1 act.2 none with
  | .error c => s.trapWord c rec_
  | .ok (u, bad) =>
    match s.createUnder s.launchOf 1 with
    | .error c => s.trapWord c s.launchOf
    | .ok (false, s) => s.stillEwait name u
    | .ok (true, s) =>
      match s.writeVa (rec_.toNat + 40) 8 s.launchOf.toNat with
      | .error c => (s.run [.decr s.launchOf 1 false false]).trapWord c rec_
      | .ok s =>
        let s := s.onPart (fun p => { p with turnSeq := p.turnSeq + 1 })
        let s := if bad then
            (s.logFault Cause.illegal.code 3 ((s.logicalOf s.site).getD 0xFFFF) rec_.toNat 0).run [.gone u true false]
          else s.applyEwait name e { turn := u, saved := none } (clusterOf s.site)
        ((s.trace 9 .c name).issuedIn .c).retireTurn false false

/-- EWAIT (R304). -/
def execEwait (o : Op.TwoSrc) (s : State) : Host.Outcome State Fault Refusal :=
  .next (s.guarded o.g (fun s =>
    let name := (s.ctx.getX o.ra).toNat % 65536
    let rec_ := s.ctx.getX o.rb
    if rec_.toNat % 64 ≠ 0 then s.trapWord .align rec_
    else if s.ctx.tip then (s.issuedIn .c).retireTurn true s.ctx.isCancelled
    else if s.ctx.unfinished then s.waitIn .c .cend
    else if s.ctx.isCancelled then
      match s.recordTurn rec_ with
      | some u => s.stillEwait name u
      | none => ((s.trace 9 .c name).issuedIn .c).retireTurn false true
    else
      match s.part.events.find? name with
      | none => s.trapWord .prot 0
      | some e =>
        if e.state = 0 ∧ s.overflowFull e = true then s.waitIn .c .overflow else s.registerEwait name e rec_))

/-! ### Events (R305, R306) -/

/-- The cycles from issue to the event table, in the partition's lowest cluster (R91; unloaded, as R101's signals). -/
def State.toTable (s : State) : Nat := if s.part.clusters.headD 0 / 9 = dieOf s.site then 6 else 20

/-- A word served at the event table: its token is taken and its operation is on its way. -/
def State.tableWord (s : State) (tok : Fin 8) (owned : List (Fin 32)) (name : Nat) (kind : EvKind) (op : TokOp) : State :=
  match s.ctx.tokHazard tok owned with
  | some w => s.waitIn .c w
  | none =>
    let o : EvOp := { due := s.cycle + s.toTable, name := name, kind := kind, tok := some (s.turnId, tok) }
    ((s.takeTok tok owned s.tableLat op).onPart (fun p => { p with evops := p.evops ++ [o] })).issuedIn .c

/-- Has an access that a release at package scope covers not been performed (R149): paths C, T, M, S and K. -/
def State.releaseWaits (s : State) : Bool := s.pendingOn .c 0x1F s.serial (BitVec.allOnes 64)

/-- EPOST (R305): a release. -/
def execEpost (o : Op.TokSrc) (s : State) : Host.Outcome State Fault Refusal :=
  .next (s.guarded o.g (fun s =>
    let name := (s.ctx.getX o.ra).toNat % 65536
    if s.ctx.tok[o.tok].isSome then s.waitIn .c (.token o.tok)
    else if s.releaseWaits then s.waitIn .c .release
    else (s.trace 9 .c name).tableWord o.tok [] name .post (.epost name)))

/-- A word of a token-guarded input under replay (R211): the logged value is delivered, or the context halts. -/
def State.replayWord (s : State) (tok : Fin 8) (owned : List (Fin 32)) (lat kind : Nat) (op : TokOp) : State :=
  match s.ctx.tokHazard tok owned with
  | some w => s.waitIn .c w
  | none =>
    match s.replayTake kind .c s.ctx.cs.issued with
    | none => s.diverge .c
    | some (v, s) => ((s.takeTok tok owned lat op).doneLater tok lat v 0).issuedIn .c

/-- ETEST (R305). -/
def execEtest (o : Op.TokRes) (s : State) : Host.Outcome State Fault Refusal :=
  .next (s.guarded o.g (fun s =>
    let name := (s.ctx.getX o.ra).toNat % 65536
    if s.ctx.replaying then s.replayWord o.tok [o.rd] s.tableLat 3 (.etest name o.rd)
    else s.tableWord o.tok [o.rd] name .test (.etest name o.rd)))

/-- A member of SETE (R306). -/
def State.seteWord (s : State) (o : Op.TokRes) (fn : Nat) : State :=
  s.guarded o.g (fun s =>
    let name := (s.ctx.getX o.ra).toNat % 65536
    let v : BitVec 32 := BitVec.ofNat 32 ((s.ctx.getX o.ra).toNat / 2 ^ 32)
    s.tableWord o.tok [o.rd] name (.sete fn v) (.sete fn name v o.rd))

/-- SETA (R306). -/
def execSeta (o : Op.TokRes) (s : State) : Host.Outcome State Fault Refusal := .next (s.seteWord o 0)

/-- SETN (R306): it may release waiters, and is then a release like EPOST, so it waits as EPOST does. -/
def execSetn (o : Op.TokRes) (s : State) : Host.Outcome State Fault Refusal :=
  .next (if s.ctx.getP o.g && !s.ctx.tok[o.tok].isSome && s.releaseWaits then s.waitIn .c .release else s.seteWord o 1)

/-- SETS (R306). -/
def execSets (o : Op.TokRes) (s : State) : Host.Outcome State Fault Refusal := .next (s.seteWord o 2)

/-- SETNT (R306). -/
def execSetnt (o : Op.TokRes) (s : State) : Host.Outcome State Fault Refusal := .next (s.seteWord o 3)

/-- GETA (R306). -/
def execGeta (o : Op.TokRes) (s : State) : Host.Outcome State Fault Refusal := .next (s.seteWord o 4)

/-! ### BUDGET, CANCEL and CPOINT (R307, R308) -/

/-- BUDGET (R307): the requested limit is read at issue. -/
def execBudget (o : Op.TokRes) (s : State) : Host.Outcome State Fault Refusal :=
  .next (s.guarded o.g (fun s =>
    s.cToken o.tok [o.rd] 12 (.budget o.rd ((s.ctx.getX o.ra).setWidth 32))))

/-- CANCEL (R308): levels 1 to 4. -/
def execCancel (o : Op.Cancel) (s : State) : Host.Outcome State Fault Refusal :=
  .next (s.guarded o.g (fun s =>
    let a := s.ctx.getX o.ra
    if o.level.val = 0 ∨ 4 < o.level.val then s.trapWord .illegal 0
    else s.recordWord o.tok a 8 (.cancel a o.level.val)))

/-- CPOINT (R308). -/
def execCpoint (o : Op.Bare) (s : State) : Host.Outcome State Fault Refusal :=
  .next (s.guarded o.g (fun s => (s.issuedIn .c).observe))

end Sys2Proof.Machine
end

