-- ==== Sys2Proof/Machine/Upkeep.lean ====
section
/-! DEFINITION. Scrubbers and retirement lists, and the drain of trace buffers (R189 to R192, R204 to R207). -/

namespace Sys2Proof.Machine

/-! ### Scrubbing (R190, R192) -/

/-- The partition that owns a stored byte: by its map, by its core for a scratchpad. -/
def State.ownerOfKey (s : State) (key : Nat) : Option Nat :=
  if 2 ^ 56 ≤ key ∧ key < 2 ^ 57 then
    if key < 2 ^ 56 + 2 ^ 40 then (s.boxAt ((key - 2 ^ 56) / 2 ^ 22)).core.part else some ((key - 2 ^ 56 - 2 ^ 40) / 2 ^ 32)
  else s.ownerOf .read key 8

/-- The queue entry of a context that a word of its core's image space lies in marked as in error: an entry's words are numbered from its queue's head
(DESIGN CHOICE, log 16), and go with it. -/
def Context.markQueue (c : Context) (off : Nat) : Context :=
  let q : Fin 16 := Fin.ofNat 16 (off / 1024)
  { c with q := c.q.set q { c.q[q] with ents := c.q[q].ents.modify (off % 1024 / 256) (fun e => { e with bad := true }) } }

/-- The queue entry that a word in error lies in, if it lies in one. -/
def State.markQueues (s : State) (word : Nat) : State :=
  s.sites.foldl (fun s i =>
    let b := s.boxAt i
    let at_ := fun (cx : Bool) (c : Context) =>
      let base := spKey i (queueOff cx)
      if base ≤ word ∧ word < base + 0x4000 then c.markQueue (word - base) else c
    s.putBox i { b with a := at_ false b.a, b := at_ true b.b }) s

/-- An uncorrectable word found by a scrubber: bad until it is written whole, listed, and logged for its partition. -/
def State.noteUncorrectable (s : State) (word : Nat) : State :=
  let line := word / 64 * 64
  let s := { s with badWords := if s.badWords.contains word then s.badWords else s.badWords ++ [word] }
  let s := s.markQueues word
  let s := match unitOf line with
    | none => s
    | some u => { s with memctl := atIndex s.memctl u (fun m => ({ m with ue := satInc m.ue }).listLine true line) }
  match s.ownerOfKey word with
  | none => s
  | some p => (s.focusPart p).logFault Cause.memerr.code 7 0xFFFF line 0

/-- SCRUB_VISIT (R190): a word read in idle cycles. One that is corrected is written back. -/
def execScrubVisit (pa : Nat) (r : ScrubResult) (s : State) : Host.Outcome State Fault Refusal :=
  let word := pa / 8 * 8
  .next (match r with
    | .clean => s
    | .corrected =>
      let s := s.noteCorrected (word / 64 * 64)
      { s with flips := s.flips.filter (fun w => decide (w ≠ word)) }
    | .uncorrectable => s.noteUncorrectable word)

/-! ### The trace buffer (R205 to R207) -/

/-- A record that is not of a stream: a loss or a gap, with its count or length. -/
def State.plainRec (s : State) (type : Nat) (cx : Bool) (payload : Nat) : TraceRec :=
  { cx := cx, bytes := leBytes 1 type ++ leBytes 1 (16 * cx.toNat) ++ leBytes 2 ((s.logicalOf s.site).getD 0xFFFF) ++ leBytes 4 0 ++
      leBytes 8 0 ++ leBytes 8 s.guest.toNat ++ leBytes 8 payload }

/-- A loss or gap record in the buffer, for each context that traces (R205, R206). -/
def State.pushPlain (s : State) (type payload : Nat) : State :=
  let cxs := [s.core.active, !s.core.active].filter (fun cx => decide ((s.ctxOf cx).trctl.toNat % 2 ^ 14 ≠ 0))
  s.onCore (fun c => { c with trace := c.trace ++ cxs.map (fun cx => s.plainRec type cx payload) })

/-- A record written to the ring of its context; a write that faults is dropped and counted. -/
def State.drainOne (s : State) (r : TraceRec) : State :=
  let s := s.focusCx r.cx
  let size := s.ctx.trbase.toNat % 16
  let head := s.ctx.trbase.toNat / 2 ^ 52 % (64 * 2 ^ size)
  let base := s.ctx.trbase.toNat / 64 % 2 ^ 46 * 64
  let words := (List.range 4).map (fun i => leNat ((r.bytes.drop (8 * i)).take 8))
  match s.writeWords (base + 32 * head) words with
  | .error _ => s.onCore (fun c => { c with lost := c.lost + 1 })
  | .ok s => s.onCtx (fun c =>
    { c with trbase := BitVec.ofNat 64 (c.trbase.toNat % 2 ^ 52 + (head + 1) % (64 * 2 ^ size) * 2 ^ 52) })

/-- Has the focused core something to drain in this cycle. -/
def State.drainDue (s : State) : Bool :=
  s.core.part.isSome && !s.core.stopping && !s.gated.contains (clusterOf s.site) && decide (s.core.drainAt ≤ s.cycle) &&
  (!s.core.trace.isEmpty || decide (s.core.lost ≠ 0) || s.core.gapOwed.isSome)

/-- The two records of a cycle drained. -/
def State.drain (s : State) : State :=
  let n := s.core.lost
  let s := s.onCore (fun c => { c with drainAt := s.cycle + 1 })
  let s := if n ≠ 0 ∧ s.core.trace.length < 256 then (s.onCore (fun c => { c with lost := 0 })).pushPlain 0xD n else s
  let s := match s.core.trace.isEmpty, s.core.gapOwed with
    | true, some g => (s.onCore (fun c => { c with gapOwed := none })).pushPlain 0xC g
    | _, _ => s
  let out := s.core.trace.take 2
  let s := s.onCore (fun c => { c with trace := c.trace.drop 2 })
  out.foldl (fun s r => s.drainOne r) s

/-- TRACE_DRAIN (R207). -/
def execTraceDrain (site : Nat) (s : State) : Host.Outcome State Fault Refusal :=
  let s := s.focus site s.cx
  .next (if s.drainDue then s.drain else s)

end Sys2Proof.Machine
end

