-- ==== Sys2Proof/Machine/Dispatch.lean ====
section
/-! DEFINITION. The meaning of every instruction: one arm per constructor, each one direct call. -/

namespace Sys2Proof.Machine

/-- The step that an instruction or event makes. -/
def exec (i : Instr) (s : State) : Host.Outcome State Fault Refusal :=
  match i with
  | .add o => Sys2Proof.Machine.execAdd o s
  | .sub o => Sys2Proof.Machine.execSub o s
  | .and o => Sys2Proof.Machine.execAnd o s
  | .or o => Sys2Proof.Machine.execOr o s
  | .xor o => Sys2Proof.Machine.execXor o s
  | .shl o => Sys2Proof.Machine.execShl o s
  | .shr o => Sys2Proof.Machine.execShr o s
  | .sra o => Sys2Proof.Machine.execSra o s
  | .mul o => Sys2Proof.Machine.execMul o s
  | .mulh o => Sys2Proof.Machine.execMulh o s
  | .mulhu o => Sys2Proof.Machine.execMulhu o s
  | .div o => Sys2Proof.Machine.execDiv o s
  | .divu o => Sys2Proof.Machine.execDivu o s
  | .rem o => Sys2Proof.Machine.execRem o s
  | .remu o => Sys2Proof.Machine.execRemu o s
  | .min o => Sys2Proof.Machine.execMin o s
  | .max o => Sys2Proof.Machine.execMax o s
  | .clz o => Sys2Proof.Machine.execClz o s
  | .popc o => Sys2Proof.Machine.execPopc o s
  | .addi o => Sys2Proof.Machine.execAddi o s
  | .andi o => Sys2Proof.Machine.execAndi o s
  | .ori o => Sys2Proof.Machine.execOri o s
  | .xori o => Sys2Proof.Machine.execXori o s
  | .shli o => Sys2Proof.Machine.execShli o s
  | .shri o => Sys2Proof.Machine.execShri o s
  | .srai o => Sys2Proof.Machine.execSrai o s
  | .lui o => Sys2Proof.Machine.execLui o s
  | .addpc o => Sys2Proof.Machine.execAddpc o s
  | .cmpEq o => Sys2Proof.Machine.execCmpEq o s
  | .cmpNe o => Sys2Proof.Machine.execCmpNe o s
  | .cmpLt o => Sys2Proof.Machine.execCmpLt o s
  | .cmpLtu o => Sys2Proof.Machine.execCmpLtu o s
  | .cmpGe o => Sys2Proof.Machine.execCmpGe o s
  | .cmpGeu o => Sys2Proof.Machine.execCmpGeu o s
  | .cmpiEq o => Sys2Proof.Machine.execCmpiEq o s
  | .cmpiNe o => Sys2Proof.Machine.execCmpiNe o s
  | .cmpiLt o => Sys2Proof.Machine.execCmpiLt o s
  | .cmpiLtu o => Sys2Proof.Machine.execCmpiLtu o s
  | .pand o => Sys2Proof.Machine.execPand o s
  | .por o => Sys2Proof.Machine.execPor o s
  | .pxor o => Sys2Proof.Machine.execPxor o s
  | .pandn o => Sys2Proof.Machine.execPandn o s
  | .pfrom o => Sys2Proof.Machine.execPfrom o s
  | .pto o => Sys2Proof.Machine.execPto o s
  | .sel o => Sys2Proof.Machine.execSel o s
  | .ldb o => Sys2Proof.Machine.execLdb o s
  | .ldh o => Sys2Proof.Machine.execLdh o s
  | .ldw o => Sys2Proof.Machine.execLdw o s
  | .ldd o => Sys2Proof.Machine.execLdd o s
  | .ldbu o => Sys2Proof.Machine.execLdbu o s
  | .ldhu o => Sys2Proof.Machine.execLdhu o s
  | .ldwu o => Sys2Proof.Machine.execLdwu o s
  | .stb o => Sys2Proof.Machine.execStb o s
  | .sth o => Sys2Proof.Machine.execSth o s
  | .stw o => Sys2Proof.Machine.execStw o s
  | .std o => Sys2Proof.Machine.execStd o s
  | .wait o => Sys2Proof.Machine.execWait o s
  | .pbr o => Sys2Proof.Machine.execPbr o s
  | .pbrx o => Sys2Proof.Machine.execPbrx o s
  | .br o => Sys2Proof.Machine.execBr o s
  | .call o => Sys2Proof.Machine.execCall o s
  | .loopc o => Sys2Proof.Machine.execLoopc o s
  | .tstart o => Sys2Proof.Machine.execTstart o s
  | .mstart o => Sys2Proof.Machine.execMstart o s
  | .vstart o => Sys2Proof.Machine.execVstart o s
  | .sdrain o => Sys2Proof.Machine.execSdrain o s
  | .qbind o => Sys2Proof.Machine.execQbind o s
  | .qget o => Sys2Proof.Machine.execQget o s
  | .qgetp o => Sys2Proof.Machine.execQgetp o s
  | .qput o => Sys2Proof.Machine.execQput o s
  | .tpost o => Sys2Proof.Machine.execTpost o s
  | .tawait o => Sys2Proof.Machine.execTawait o s
  | .spawn o => Sys2Proof.Machine.execSpawn o s
  | .join o => Sys2Proof.Machine.execJoin o s
  | .cEnd o => Sys2Proof.Machine.execCEnd o s
  | .ewait o => Sys2Proof.Machine.execEwait o s
  | .epost o => Sys2Proof.Machine.execEpost o s
  | .etest o => Sys2Proof.Machine.execEtest o s
  | .launch o => Sys2Proof.Machine.execLaunch o s
  | .budget o => Sys2Proof.Machine.execBudget o s
  | .cancel o => Sys2Proof.Machine.execCancel o s
  | .cpoint o => Sys2Proof.Machine.execCpoint o s
  | .pwait o => Sys2Proof.Machine.execPwait o s
  | .ptest o => Sys2Proof.Machine.execPtest o s
  | .pcancel o => Sys2Proof.Machine.execPcancel o s
  | .pdetach o => Sys2Proof.Machine.execPdetach o s
  | .pprio o => Sys2Proof.Machine.execPprio o s
  | .pstat o => Sys2Proof.Machine.execPstat o s
  | .allred o => Sys2Proof.Machine.execAllred o s
  | .bcast o => Sys2Proof.Machine.execBcast o s
  | .allgath o => Sys2Proof.Machine.execAllgath o s
  | .redscat o => Sys2Proof.Machine.execRedscat o s
  | .barrier o => Sys2Proof.Machine.execBarrier o s
  | .rkopenw o => Sys2Proof.Machine.execRkopenw o s
  | .rkcommit o => Sys2Proof.Machine.execRkcommit o s
  | .rkopenr o => Sys2Proof.Machine.execRkopenr o s
  | .rkclose o => Sys2Proof.Machine.execRkclose o s
  | .fence o => Sys2Proof.Machine.execFence o s
  | .crr o => Sys2Proof.Machine.execCrr o s
  | .crw o => Sys2Proof.Machine.execCrw o s
  | .trap o => Sys2Proof.Machine.execTrap o s
  | .eret o => Sys2Proof.Machine.execEret o s
  | .bkpt o => Sys2Proof.Machine.execBkpt o s
  | .tlrw o => Sys2Proof.Machine.execTlrw o s
  | .time o => Sys2Proof.Machine.execTime o s
  | .seta o => Sys2Proof.Machine.execSeta o s
  | .setn o => Sys2Proof.Machine.execSetn o s
  | .sets o => Sys2Proof.Machine.execSets o s
  | .setnt o => Sys2Proof.Machine.execSetnt o s
  | .geta o => Sys2Proof.Machine.execGeta o s
  | .ldq o => Sys2Proof.Machine.execLdq o s
  | .stq o => Sys2Proof.Machine.execStq o s
  | .pref o => Sys2Proof.Machine.execPref o s
  | .copy o => Sys2Proof.Machine.execCopy o s
  | .gath o => Sys2Proof.Machine.execGath o s
  | .scat o => Sys2Proof.Machine.execScat o s
  | .rld o => Sys2Proof.Machine.execRld o s
  | .rst o => Sys2Proof.Machine.execRst o s
  | .saccAdd o => Sys2Proof.Machine.execSaccAdd o s
  | .saccMin o => Sys2Proof.Machine.execSaccMin o s
  | .saccMax o => Sys2Proof.Machine.execSaccMax o s
  | .saccSwap o => Sys2Proof.Machine.execSaccSwap o s
  | .scas o => Sys2Proof.Machine.execScas o s
  | .adda o => Sys2Proof.Machine.execAdda o s
  | .addar o => Sys2Proof.Machine.execAddar o s
  | .tLoop o => Sys2Proof.Machine.execTLoop o s
  | .send o => Sys2Proof.Machine.execSend o s
  | .recv o => Sys2Proof.Machine.execRecv o s
  | .tSync o => Sys2Proof.Machine.execTSync o s
  | .tFence o => Sys2Proof.Machine.execTFence o s
  | .tEnd o => Sys2Proof.Machine.execTEnd o s
  | .tWaith o => Sys2Proof.Machine.execTWaith o s
  | .nsetLevel o => Sys2Proof.Machine.execNsetLevel o s
  | .nsetIns o => Sys2Proof.Machine.execNsetIns o s
  | .nsetFmt o => Sys2Proof.Machine.execNsetFmt o s
  | .mgo o => Sys2Proof.Machine.execMgo o s
  | .mzero o => Sys2Proof.Machine.execMzero o s
  | .acc2s o => Sys2Proof.Machine.execAcc2s o s
  | .s2acc o => Sys2Proof.Machine.execS2acc o s
  | .accmul o => Sys2Proof.Machine.execAccmul o s
  | .mLoop o => Sys2Proof.Machine.execMLoop o s
  | .mSync o => Sys2Proof.Machine.execMSync o s
  | .mEnd o => Sys2Proof.Machine.execMEnd o s
  | .mFence o => Sys2Proof.Machine.execMFence o s
  | .mWaith o => Sys2Proof.Machine.execMWaith o s
  | .vadd o => Sys2Proof.Machine.execVadd o s
  | .vsub o => Sys2Proof.Machine.execVsub o s
  | .vmul o => Sys2Proof.Machine.execVmul o s
  | .vfma o => Sys2Proof.Machine.execVfma o s
  | .vmin o => Sys2Proof.Machine.execVmin o s
  | .vmax o => Sys2Proof.Machine.execVmax o s
  | .vabs o => Sys2Proof.Machine.execVabs o s
  | .vneg o => Sys2Proof.Machine.execVneg o s
  | .vrcp o => Sys2Proof.Machine.execVrcp o s
  | .vrsq o => Sys2Proof.Machine.execVrsq o s
  | .vexp2 o => Sys2Proof.Machine.execVexp2 o s
  | .vlog2 o => Sys2Proof.Machine.execVlog2 o s
  | .viadd o => Sys2Proof.Machine.execViadd o s
  | .visub o => Sys2Proof.Machine.execVisub o s
  | .vimul o => Sys2Proof.Machine.execVimul o s
  | .vand o => Sys2Proof.Machine.execVand o s
  | .vor o => Sys2Proof.Machine.execVor o s
  | .vxor o => Sys2Proof.Machine.execVxor o s
  | .vshl o => Sys2Proof.Machine.execVshl o s
  | .vshr o => Sys2Proof.Machine.execVshr o s
  | .vsra o => Sys2Proof.Machine.execVsra o s
  | .vimin o => Sys2Proof.Machine.execVimin o s
  | .vimax o => Sys2Proof.Machine.execVimax o s
  | .vcmpEq o => Sys2Proof.Machine.execVcmpEq o s
  | .vcmpNe o => Sys2Proof.Machine.execVcmpNe o s
  | .vcmpLt o => Sys2Proof.Machine.execVcmpLt o s
  | .vcmpLe o => Sys2Proof.Machine.execVcmpLe o s
  | .vcmpGt o => Sys2Proof.Machine.execVcmpGt o s
  | .vcmpGe o => Sys2Proof.Machine.execVcmpGe o s
  | .vsel o => Sys2Proof.Machine.execVsel o s
  | .vadds o => Sys2Proof.Machine.execVadds o s
  | .vsubs o => Sys2Proof.Machine.execVsubs o s
  | .vmuls o => Sys2Proof.Machine.execVmuls o s
  | .vfmas o => Sys2Proof.Machine.execVfmas o s
  | .vmins o => Sys2Proof.Machine.execVmins o s
  | .vmaxs o => Sys2Proof.Machine.execVmaxs o s
  | .viaddi o => Sys2Proof.Machine.execViaddi o s
  | .vbcasti o => Sys2Proof.Machine.execVbcasti o s
  | .vcvt o => Sys2Proof.Machine.execVcvt o s
  | .vpack o => Sys2Proof.Machine.execVpack o s
  | .vunpk o => Sys2Proof.Machine.execVunpk o s
  | .vrsum o => Sys2Proof.Machine.execVrsum o s
  | .vrmax o => Sys2Proof.Machine.execVrmax o s
  | .vrmin o => Sys2Proof.Machine.execVrmin o s
  | .vperm o => Sys2Proof.Machine.execVperm o s
  | .vbcast o => Sys2Proof.Machine.execVbcast o s
  | .vrot o => Sys2Proof.Machine.execVrot o s
  | .vmov o => Sys2Proof.Machine.execVmov o s
  | .vpop o => Sys2Proof.Machine.execVpop o s
  | .vdup o => Sys2Proof.Machine.execVdup o s
  | .vsetsh o => Sys2Proof.Machine.execVsetsh o s
  | .vsetl o => Sys2Proof.Machine.execVsetl o s
  | .mand o => Sys2Proof.Machine.execMand o s
  | .mor o => Sys2Proof.Machine.execMor o s
  | .mxor o => Sys2Proof.Machine.execMxor o s
  | .mnot o => Sys2Proof.Machine.execMnot o s
  | .vsmovToS o => Sys2Proof.Machine.execVsmovToS o s
  | .vsmovToLane o => Sys2Proof.Machine.execVsmovToLane o s
  | .spld o => Sys2Proof.Machine.execSpld o s
  | .spst o => Sys2Proof.Machine.execSpst o s
  | .spup o => Sys2Proof.Machine.execSpup o s
  | .spdn o => Sys2Proof.Machine.execSpdn o s
  | .spcvt o => Sys2Proof.Machine.execSpcvt o s
  | .vLoop o => Sys2Proof.Machine.execVLoop o s
  | .vSync o => Sys2Proof.Machine.execVSync o s
  | .vEnd o => Sys2Proof.Machine.execVEnd o s
  | .vFence o => Sys2Proof.Machine.execVFence o s
  | .powerUpBoot selfTest westOk => Sys2Proof.Machine.execPowerUpBoot selfTest westOk s
  | .bootLinkTimeout => Sys2Proof.Machine.execBootLinkTimeout s
  | .tftpBlockReceive block data => Sys2Proof.Machine.execTftpBlockReceive block data s
  | .tftpBlockRetry => Sys2Proof.Machine.execTftpBlockRetry s
  | .bootRetry => Sys2Proof.Machine.execBootRetry s
  | .droopTrigger die cycles => Sys2Proof.Machine.execDroopTrigger die cycles s
  | .columnSample site temp => Sys2Proof.Machine.execColumnSample site temp s
  | .hbmStackSample stack temp => Sys2Proof.Machine.execHbmStackSample stack temp s
  | .hotStackReport stack => Sys2Proof.Machine.execHotStackReport stack s
  | .drawceilWrite v => Sys2Proof.Machine.execDrawceilWrite v s
  | .drawgGrantWrite part grant => Sys2Proof.Machine.execDrawgGrantWrite part grant s
  | .ringMeasureStart die v => Sys2Proof.Machine.execRingMeasureStart die v s
  | .ringMeasureDone die count => Sys2Proof.Machine.execRingMeasureDone die count s
  | .mgmtRegisterWrite off v => Sys2Proof.Machine.execMgmtRegisterWrite off v s
  | .myincChipWrite v => Sys2Proof.Machine.execMyincChipWrite v s
  | .sealOpen part => Sys2Proof.Machine.execSealOpen part s
  | .sealClose part => Sys2Proof.Machine.execSealClose part s
  | .repairRequest r => Sys2Proof.Machine.execRepairRequest r s
  | .coreSiteRepair site => Sys2Proof.Machine.execCoreSiteRepair site s
  | .coreSiteRetire site => Sys2Proof.Machine.execCoreSiteRetire site s
  | .hbmRowRepair base => Sys2Proof.Machine.execHbmRowRepair base s
  | .hbmRowRepairDone base => Sys2Proof.Machine.execHbmRowRepairDone base s
  | .hbmChannelRetire stack chan => Sys2Proof.Machine.execHbmChannelRetire stack chan s
  | .deepRowSpare site row => Sys2Proof.Machine.execDeepRowSpare site row s
  | .deepBankRetire site bank => Sys2Proof.Machine.execDeepBankRetire site bank s
  | .linkLaneSpare port lane => Sys2Proof.Machine.execLinkLaneSpare port lane s
  | .linkPortRetrain port => Sys2Proof.Machine.execLinkPortRetrain port s
  | .linkPortOut port => Sys2Proof.Machine.execLinkPortOut port s
  | .meshLinkReroute x y dir => Sys2Proof.Machine.execMeshLinkReroute x y dir s
  | .serviceCoreTakeover core => Sys2Proof.Machine.execServiceCoreTakeover core s
  | .firmwareSwitch => Sys2Proof.Machine.execFirmwareSwitch s
  | .thermalTrip temp isStack => Sys2Proof.Machine.execThermalTrip temp isStack s
  | .powerTrip watts => Sys2Proof.Machine.execPowerTrip watts s
  | .serviceCoreHostWrite windows w => Sys2Proof.Machine.execServiceCoreHostWrite windows w s
  | .ethernetFrameSend port bytes => Sys2Proof.Machine.execEthernetFrameSend port bytes s
  | .packetInject p => Sys2Proof.Machine.execPacketInject p s
  | .flitSetup => Sys2Proof.Machine.execFlitSetup s
  | .flitBypass => Sys2Proof.Machine.execFlitBypass s
  | .latchedHop flit => Sys2Proof.Machine.execLatchedHop flit s
  | .bridgeRetryExhausted x y dir => Sys2Proof.Machine.execBridgeRetryExhausted x y dir s
  | .linkFlitReplay port => Sys2Proof.Machine.execLinkFlitReplay port s
  | .linkTransactionSend chip frame tag => Sys2Proof.Machine.execLinkTransactionSend chip frame tag s
  | .linkAckSend chip port => Sys2Proof.Machine.execLinkAckSend chip port s
  | .linkAckReceive port chip ack => Sys2Proof.Machine.execLinkAckReceive port chip ack s
  | .linkResend port seq => Sys2Proof.Machine.execLinkResend port seq s
  | .linkRetryExhausted port seq => Sys2Proof.Machine.execLinkRetryExhausted port seq s
  | .peerRequestReceive r => Sys2Proof.Machine.execPeerRequestReceive r s
  | .incarnationAnnounce => Sys2Proof.Machine.execIncarnationAnnounce s
  | .announcementReceive chip inc => Sys2Proof.Machine.execAnnouncementReceive chip inc s
  | .collectiveExchangeStep coll data => Sys2Proof.Machine.execCollectiveExchangeStep coll data s
  | .vfFunctionLevelReset part => Sys2Proof.Machine.execVfFunctionLevelReset part s
  | .partitionCreate part p => Sys2Proof.Machine.execPartitionCreate part p s
  | .partitionDestroy part => Sys2Proof.Machine.execPartitionDestroy part s
  | .partitionMapChange part map => Sys2Proof.Machine.execPartitionMapChange part map s
  | .submitWrite part bytes v => Sys2Proof.Machine.execSubmitWrite part bytes v s
  | .submissionCopy part => Sys2Proof.Machine.execSubmissionCopy part s
  | .attestationRequest nonce target => Sys2Proof.Machine.execAttestationRequest nonce target s
  | .keyCounterConfirm => Sys2Proof.Machine.execKeyCounterConfirm s
  | .jobLoad part plan => Sys2Proof.Machine.execJobLoad part plan s
  | .importRegister part name kind value => Sys2Proof.Machine.execImportRegister part name kind value s
  | .activityRelease part job act => Sys2Proof.Machine.execActivityRelease part job act s
  | .selectorSizeRead part job act => Sys2Proof.Machine.execSelectorSizeRead part job act s
  | .deadlineMiss part job act => Sys2Proof.Machine.execDeadlineMiss part job act s
  | .counterDecrement part addr faulted cancelled => Sys2Proof.Machine.execCounterDecrement part addr faulted cancelled s
  | .turnRetire site cx => Sys2Proof.Machine.execTurnRetire site cx s
  | .cancelLinearise part addr level => Sys2Proof.Machine.execCancelLinearise part addr level s
  | .cancelBroadcast part => Sys2Proof.Machine.execCancelBroadcast part s
  | .turnDispatch part cluster => Sys2Proof.Machine.execTurnDispatch part cluster s
  | .spillRefill part cluster => Sys2Proof.Machine.execSpillRefill part cluster s
  | .turnDisplace part cluster => Sys2Proof.Machine.execTurnDisplace part cluster s
  | .contextActivate site => Sys2Proof.Machine.execContextActivate site s
  | .urgentSwitchEvaluate site => Sys2Proof.Machine.execUrgentSwitchEvaluate site s
  | .urgentSwitch site => Sys2Proof.Machine.execUrgentSwitch site s
  | .stealRequest site cx => Sys2Proof.Machine.execStealRequest site cx s
  | .stealCrossDie site cx => Sys2Proof.Machine.execStealCrossDie site cx s
  | .budgetTrap site cx => Sys2Proof.Machine.execBudgetTrap site cx s
  | .eventTableApply part => Sys2Proof.Machine.execEventTableApply part s
  | .overflowWalk part => Sys2Proof.Machine.execOverflowWalk part s
  | .rackOpApply part => Sys2Proof.Machine.execRackOpApply part s
  | .waitTokenSettle site cx tok => Sys2Proof.Machine.execWaitTokenSettle site cx tok s
  | .pageWalkComplete site => Sys2Proof.Machine.execPageWalkComplete site s
  | .prefetchReady site cx b => Sys2Proof.Machine.execPrefetchReady site cx b s
  | .invctlWrite part v => Sys2Proof.Machine.execInvctlWrite part v s
  | .ptrootWrite part v => Sys2Proof.Machine.execPtrootWrite part v s
  | .shootdownAck part site => Sys2Proof.Machine.execShootdownAck part site s
  | .replicaRead part die frame => Sys2Proof.Machine.execReplicaRead part die frame s
  | .replicaWrite part => Sys2Proof.Machine.execReplicaWrite part s
  | .holderAck part die => Sys2Proof.Machine.execHolderAck part die s
  | .fenceRetire site cx st => Sys2Proof.Machine.execFenceRetire site cx st s
  | .resultLand site cx => Sys2Proof.Machine.execResultLand site cx s
  | .pawnStep site slot => Sys2Proof.Machine.execPawnStep site slot s
  | .pawnEnd site slot => Sys2Proof.Machine.execPawnEnd site slot s
  | .mgoStep site slot => Sys2Proof.Machine.execMgoStep site slot s
  | .drawSlotGrant part => Sys2Proof.Machine.execDrawSlotGrant part s
  | .tWordCommit site cx => Sys2Proof.Machine.execTWordCommit site cx s
  | .lateFault site cx => Sys2Proof.Machine.execLateFault site cx s
  | .vectorResultPush site cx => Sys2Proof.Machine.execVectorResultPush site cx s
  | .trapEntry site cx => Sys2Proof.Machine.execTrapEntry site cx s
  | .deadlockDetect site cx => Sys2Proof.Machine.execDeadlockDetect site cx s
  | .handlerDeadlock site cx => Sys2Proof.Machine.execHandlerDeadlock site cx s
  | .partitionSwap k => Sys2Proof.Machine.execPartitionSwap k s
  | .remapResponseLand site => Sys2Proof.Machine.execRemapResponseLand site s
  | .timeRegisterStage part r v => Sys2Proof.Machine.execTimeRegisterStage part r v s
  | .timeEpoch part => Sys2Proof.Machine.execTimeEpoch part s
  | .scrubVisit pa r => Sys2Proof.Machine.execScrubVisit pa r s
  | .dbgHalt site cx => Sys2Proof.Machine.execDbgHalt site cx s
  | .debugHaltLand site cx => Sys2Proof.Machine.execDebugHaltLand site cx s
  | .dbgResume site cx => Sys2Proof.Machine.execDbgResume site cx s
  | .dbgStep site cx st => Sys2Proof.Machine.execDbgStep site cx st s
  | .dbgRead site cx space => Sys2Proof.Machine.execDbgRead site cx space s
  | .dbgWrite site cx space => Sys2Proof.Machine.execDbgWrite site cx space s
  | .dbgDrop site cx => Sys2Proof.Machine.execDbgDrop site cx s
  | .dbgBadcmd site => Sys2Proof.Machine.execDbgBadcmd site s
  | .breakpointFire site cx st => Sys2Proof.Machine.execBreakpointFire site cx st s
  | .traceDrain site => Sys2Proof.Machine.execTraceDrain site s
  | .powerFail => Sys2Proof.Machine.execPowerFail s
  | .peerUpWaitTimeout site cx => Sys2Proof.Machine.execPeerUpWaitTimeout site cx s
  | .dhcpv6ReplyReceive tftp server file => Sys2Proof.Machine.execDhcpv6ReplyReceive tftp server file s
  | .submissionWindowWrite part off data => Sys2Proof.Machine.execSubmissionWindowWrite part off data s
  | .sitesJoinPartition part clusters => Sys2Proof.Machine.execSitesJoinPartition part clusters s
  | .clusterPowerGate cluster => Sys2Proof.Machine.execClusterPowerGate cluster s
  | .clusterUngate cluster => Sys2Proof.Machine.execClusterUngate cluster s
  | .bankGoesDrowsy site bank => Sys2Proof.Machine.execBankGoesDrowsy site bank s

end Sys2Proof.Machine
end

