-- ==== Sys2Proof/Machine/Net.lean ====
section
/-! DEFINITION. The accesses of cores on the networks between columns and on the links: when each is offered, when its home makes it, and how it ends
(R23 to R31, R36, R39, R40). -/

namespace Sys2Proof.Machine

/-- A request that an access makes outside its column: the token, T word or pawn it belongs to and its place among the requests of that one, its
address where a pawn's is translated ahead of its step, where it lands, its bytes, its path and the buffers of its response. -/
structure NetWant where
  serial : Nat
  pos : Nat
  va : Nat
  place : Place
  bytes : Nat
  writes : Bool
  path : Fin 6
  buf : NetBuf
  pawn : Option (Fin 64)
deriving DecidableEq, Repr

/-! ### What the accesses of a context ask for -/

/-- Where an access of a stream lands, if its translation is present and its chip is up: nothing changes, and nothing waits. -/
def State.netPlace (s : State) (st : Strm) (k : Acc) (va n : Nat) : Option Place :=
  if 2 ^ 52 ≤ va then none
  else if inWindow va then (s.windowKey va n).toOption.map (fun key => { key := key, leaf := none })
  else (hitTlb (s.core.tlb st) s.cx va).bind (fun e =>
    if s.peerStops e.leaf then none else (s.placeBy e.leaf k va n).toOption.map (fun p => { p with inc := e.inc }))

/-- The request of an access by a word of the C stream: of a load, a store, a TLRW or a JOIN where it is translated to, and of the record or the
counter of an operation on levels, on the S path (R141, R286, R302, R303, R320). -/
def State.tokWants (s : State) (t : TokPend) : List NetWant :=
  let want := fun (path : Fin 6) (writes : Bool) (a : Word) (n : Nat) (p : Option Place) => (p.map (fun p =>
    ({ serial := t.serial, pos := 0, va := a.toNat, place := p, bytes := n, writes := writes, path := path, buf := .own, pawn := none } : NetWant))).toList
  if t.done.isSome || t.fault.isSome then []
  else
    match t.op with
    | .load n _ _ a => want 0 false a n t.tr
    | .store n a _ => want 0 true a n t.tr
    | .tlrw _ a => want 0 false a 32 t.tr
    | .join a _ => want 3 true a 8 t.tr
    | .spawn a => want 3 false a 64 (s.netPlace .c .read a.toNat 64)
    | .launch a => want 3 false a 64 (s.netPlace .c .read a.toNat 64)
    | .cancel a _ => want 3 true a 8 (s.netPlace .c .write a.toNat 8)
    | _ => []

/-- The requests of a T word's lines. A word's writes go out when it is the oldest (R322). -/
def TEntry.wants (e : TEntry) (head : Bool) : List NetWant :=
  let to_ := fun (writes : Bool) (path : Fin 6) (buf : NetBuf) => e.op.lines.mapIdx (fun i l =>
    ({ serial := e.serial, pos := i, va := l.1, place := l.2, bytes := 64, writes := writes, path := path, buf := buf, pawn := none } : NetWant))
  if e.done.isSome || e.fault.isSome then []
  else
    match e.op with
    | .ldq .. => to_ false 1 .own
    | .stq .. => if head then to_ true 1 .own else []
    | .sacc .. => if head then to_ true 3 .shared else []
    | .scas .. => if head then to_ true 3 .shared else []
    | _ => []

/-- The buffers that the answers to a pawn's requests come to (R29, R30). -/
def PawnJob.netBuf : PawnJob → NetBuf
  | .rld .. => .remote
  | .rst .. => .remote
  | .send .. => .own
  | _ => .shared

/-- Is a pawn a SEND: its writes go to a channel's slot, by no address. -/
def PawnJob.sends : PawnJob → Bool
  | .send .. => true
  | _ => false

/-- Where the bytes of a copy pawn's line go, of its next step or of one ahead. -/
def State.aheadTo (s : State) (p : Pawn) (l : CopyLine) : Option Place :=
  if p.job.sends then s.sendPlace p
  else (placeOf p.tr true l.dst).or (s.netPlace .t .write l.dst l.n)

/-- Where they come from: as it is translated for the pawn, or for a step still ahead where the translation is present (R131). -/
def State.aheadFrom (s : State) (p : Pawn) (l : CopyLine) : Option Place := (placeOf p.tr false l.src).or (s.netPlace .t .read l.src l.n)

/-- A copy pawn's step with the places of its lines, from and to. -/
structure CopyAhead where
  pawn : Pawn
  lines : List (CopyLine × Place × Place)
deriving DecidableEq, Repr

/-- The steps of a copy pawn from its next one on whose accesses are translated or can be, at most so many. -/
def State.stepsAhead (s : State) (p : Pawn) : Nat → List CopyAhead
  | 0 => []
  | n + 1 =>
    let ls := p.moves.filterMap (fun l => match s.aheadFrom p l, s.aheadTo p l with
      | some a, some b => some (l, a, b)
      | _, _ => none)
    if p.moves.isEmpty || decide (ls.length < p.moves.length) then []
    else { pawn := p, lines := ls } :: s.stepsAhead { p with pos := p.nextPos } n

/-- The last step of a copy pawn of which a write has gone out. -/
def State.aheadTop (s : State) (p : Pawn) : Nat :=
  (s.net.filter (fun a => decide (a.serial = p.serial) && decide (a.pos % 2 = 1))).foldl (fun n a => max n (a.pos / 2 ^ 20)) p.pos

/-- Do the lines of some steps write bytes of a place. -/
def writesAt (steps : List CopyAhead) (key n : Nat) : Bool :=
  steps.any (fun c => c.lines.any (fun l => decide (l.2.2.key < key + n) && decide (key < l.2.2.key + l.1.n)))

/-- The requests of a copy pawn's steps (R329): of the one it is making, and of those ahead, each one cycle after the other, whose accesses start as
long before the step as they take. A line is not read ahead that an earlier step has still to write; it is written once it is read, unless a fault
stops its step. A pawn that is to stop sends no more than the steps before a write that has gone out. -/
def State.pawnWants (s : State) (k : Fin 64) : List NetWant :=
  let p := s.pawn k
  if !p.open || p.eng != .transfer || !p.begun || p.suspended || p.net.isSome || p.cx != s.cx then []
  else
    let steps := s.stepsAhead p 64
    let stops := p.cancelReq || s.frozen p || s.core.stopping
    let top := s.aheadTop p
    (steps.mapIdx (fun m c =>
      let q := c.pawn
      let base := q.pos * 2 ^ 20
      if s.cycle + p.lead < p.due + m || (stops && decide (top < q.pos)) then []
      else
        let clean := (q.moves.findSome? (fun l => (c.lines.find? (fun x => x.1 == l)).bind (fun x => q.job.lineFault l x.2.1.leaf x.2.2.leaf))).isNone
        (c.lines.mapIdx (fun i l =>
          let want := fun (j va : Nat) (pl : Place) (writes : Bool) =>
            ({ serial := q.serial, pos := base + 2 * i + j, va := va, place := pl, bytes := l.1.n, writes := writes, path := 1
               buf := q.job.netBuf, pawn := if q.job.sends && writes then none else some k } : NetWant)
          let read := if writesAt (steps.take m) l.2.1.key l.1.n then [] else [want 0 l.1.src l.2.1 false]
          let came := if s.goesOut l.2.1 false then s.netDone q.serial (base + 2 * i) else !writesAt (steps.take m) l.2.1.key l.1.n
          if clean && came then read ++ [want 1 l.1.dst l.2.2 true] else read)).flatten)).flatten

/-- The requests of a panel outside the scratchpads, up to 512 bytes each (R25, R338, R339): `i` numbers the first. -/
def panelWants (p : Pawn) (i va : Nat) (q : Panel) : List NetWant :=
  let n := panelSize q.fmt
  (List.range ((n + 511) / 512)).map (fun j =>
    { serial := p.serial, pos := p.pos * 2 ^ 20 + i + j, va := va, place := { q.place with key := q.place.key + 512 * j }, bytes := min 512 (n - 512 * j)
      writes := false, path := 2, buf := .own, pawn := none })

/-- The requests of the step of an MGO that is under way (R342, R344). A panel that a multicast read has brought asks for none (R37). -/
def State.mgoWants (s : State) : List NetWant :=
  match s.core.mstep with
  | none => []
  | some k =>
    let p := s.pawn k
    if !p.open || p.net.isSome || p.cx != s.cx then []
    else
      match p.panelsOf with
      | some (a, b) =>
        (if (p.panels.getD 0 []).isEmpty then panelWants p 0 a.1 a.2 else []) ++ (if (p.panels.getD 1 []).isEmpty then panelWants p 64 b.1 b.2 else [])
      | none => []

/-- The first request of the focused context's accesses that goes outside its column and has not been offered. -/
def State.nextWant (s : State) : Option NetWant :=
  let all := (s.ctx.tok.toList.flatMap (fun t => match t with | some t => s.tokWants t | none => [])) ++
    (s.ctx.twin.mapIdx (fun i e => e.wants (decide (i = 0)))).flatten ++ (pawnSlots.filter (fun k => (s.pawn k).live)).flatMap (fun k => s.pawnWants k) ++
    s.mgoWants
  all.find? (fun w => s.goesOut w.place w.writes && !s.net.any (fun a => decide (a.serial = w.serial) && decide (a.pos = w.pos)))

/-! ### Offering -/

/-- Is an entry of the accesses outside their columns still to be kept: its answer is to come, or what asked for it is still at that place. -/
def State.netKept (s : State) (a : NetAcc) : Bool :=
  a.live ||
  (let b := s.boxAt a.site
   let c := b.ctx a.cx
   c.tok.toList.any (fun t => match t with | some t => decide (t.serial = a.serial) | none => false) ||
   c.twin.any (fun e => decide (e.serial = a.serial)) ||
   b.core.pawns.toList.any (fun p => p.live && decide (p.serial = a.serial) && decide (p.pos ≤ a.pos / 2 ^ 20)))

/-- The mesh or plane request of an access to an end point. A home asks the holders of a replicated frame before it answers a write (R26,
R137). -/
def State.netSpec (s : State) (w : NetWant) (dst : NetEnd) (tag : Nat) : PktSpec :=
  let hs := if w.writes then (match w.place.replFrame with
    | some f => s.part.holders.getD f []
    | none => []) else []
  { cmd := if w.writes then .write w.bytes else .read w.bytes, src := .core s.site, dst := dst, addr := w.place.key % 2 ^ 52, tag := tag
    inc := w.place.inc, cx := s.cx, path := w.path, buf := w.buf, asks := s.asksOf hs }

/-- The waits for an access are excused whose delay R88 names: of its store, and of a replay for which its link's port is held (R38). -/
def State.noteOffer (s : State) (w : NetWant) (port : Nat) : State :=
  let s := if w.pawn.isSome then s.noteSlow w.serial w.place.key (s.latencyTo s.site w.place.key) else s
  match s.ports.toList[port]?, linkOf w.place.key with
  | some p, some _ => if s.cycle < p.replayTo then s.onCtx (fun c => c.slowUntil w.serial s.cycle p.replayTo) else s
  | _, _ => s

/-- A pawn keeps where an access of a step ahead is translated to (R132, R134). -/
def State.keepPlace (s : State) (w : NetWant) : State :=
  match w.pawn with
  | none => s
  | some k =>
    if (placeOf (s.pawn k).tr w.writes w.va).isSome then s
    else s.onPawn k (fun p => { p with tr := p.tr ++ [({ writes := w.writes, va := w.va, place := w.place } : Trans)] })

/-- The port of the link by which an access to a key goes. -/
def State.wantPort (s : State) (key : Nat) : Nat :=
  match linkOf key with
  | some (chip, frame) => (s.portFor chip frame).getD 0
  | none => 0

/-- What is noted of a request as it is offered: the waits for it that are excused, and where a step ahead is translated to. -/
def State.noted (s : State) (w : NetWant) : State := (s.noteOffer w (s.wantPort w.place.key)).keepPlace w

/-- A request of the focused context offered to the networks and, to a peer or a pooled device, to its link. The way to the rim and the transaction
on the link, whose latency counts from the issue (R47), go side by side (DESIGN CHOICE, log 19). -/
def State.netOffer (s : State) (w : NetWant) : State :=
  let key := w.place.key
  let tag := s.netNext
  let entry := fun (tag : Nat) =>
    ({ site := s.site, cx := s.cx, serial := w.serial, pos := w.pos, tag := tag, live := true, answer := none, key := key, bytes := w.bytes
       writes := w.writes, path := w.path.val, got := [], done := false } : NetAcc)
  let port := s.wantPort key
  let s := ({ s with net := s.net.filter (fun a => s.netKept a), netNext := tag + 2 } : State).noted w
  let s := match linkOf key with
    | some (chip, frame) =>
      ({ s with net := s.net ++ [entry (tag + 1)] } : State).offerLink (LinkTxn.fresh chip frame (tag + 1) none (some (s.latencyTo s.site key)))
    | none => s
  match s.netEnd key port with
  | some dst => { s with net := s.net ++ [entry tag], mesh := s.mesh.offer (s.netSpec w dst tag) s.cycle }
  | none => s

/-- The next request of the focused context offered. -/
def State.offerNext (s : State) : State :=
  match s.nextWant with
  | some w => s.netOffer w
  | none => s

/-! ### At the homes (R31, R143) -/

/-- The access of an entry marked as made by its home. -/
def State.netDid (s : State) (tag : Nat) : State := { s with net := s.net.map (fun a => if a.tag = tag then { a with done := true } else a) }

/-- A read served by its home: its bytes are those that stand there now, with its path's own pending writes over them (R31, R137). -/
def State.serveRead (s : State) (a : NetAcc) : State :=
  let bs := s.readPlace a.path { key := a.key, leaf := none } a.bytes
  { s with net := s.net.map (fun b => if b.tag = a.tag then { b with got := bs } else b) }

/-- The writes of a T word are made at their homes, once the last of its requests has come there (DESIGN CHOICE, log 19). -/
def State.serveT (s : State) (e : TEntry) : State :=
  let came := fun (i : Nat) (l : Nat × Place) => !s.goesOut l.2 true || s.netMade e.serial i
  if (e.op.lines.mapIdx came).all id then (match s.makeT e with
    | .ok t => t
    | .error _ => s) else s

/-- The line of a copy pawn's step is written at its home, unless a word in error forbids it. -/
def State.serveLine (s : State) (a : NetAcc) (k : Fin 64) : State :=
  let p := { s.pawn k with pos := a.pos / 2 ^ 20 }
  match p.moves[a.pos % 2 ^ 20 / 2]? with
  | none => s
  | some l =>
    match s.aheadFrom p l, s.aheadTo p l with
    | some from_, some to_ =>
      if s.readBad from_.key l.n || s.writeBad to_.key l.n then s else (s.writeLine p l from_ to_).netDid a.tag
    | _, _ => s

/-- A write or an atomic of a core's access made by its home (R31, R143): that of a token, of a T word, or of a line of a copy. -/
def State.serveWrite (s : State) (a : NetAcc) : State :=
  let s := s.focus a.site a.cx
  match (List.finRange 8).find? (fun k => match s.ctx.tok[k] with | some t => decide (t.serial = a.serial) | none => false) with
  | some k => (match s.ctx.tok[k] with
    | some t => s.makeTok k t
    | none => s)
  | none =>
    match s.ctx.twin.find? (fun e => decide (e.serial = a.serial)) with
    | some e => (s.netDid a.tag).serveT e
    | none =>
      match pawnSlots.find? (fun k => (s.pawn k).live && decide ((s.pawn k).serial = a.serial)) with
      | some k => s.serveLine a k
      | none => s

/-- The access of an entry served by its home: its bytes are read, or its write is made. -/
def State.serveAcc (s : State) (a : NetAcc) : State := if a.writes then s.serveWrite a else (s.focus a.site a.cx).serveRead a

/-- The first request that has come to its home is served there, in arrival order: one of a core, or of a peer. An access that leaves by a link is
served when its answer is there (DESIGN CHOICE, log 19). -/
def State.serveHome (s : State) : State :=
  match s.mesh.homes with
  | [] => s
  | tag :: rest =>
    let s := { s with mesh := { s.mesh with homes := rest } }
    match s.peerJobs.find? (fun j => decide (j.tag = tag)) with
    | some j => s.peerServe j
    | none =>
      match s.net.find? (fun a => decide (a.tag = tag)) with
      | some a => if (linkOf a.key).isSome then s else s.serveAcc a
      | none => s

/-! ### Answers -/

/-- Is an end point a core. -/
def fromCore : NetEnd → Bool
  | .core _ => true
  | _ => false

/-- The first exchange of an access of a core that the networks have ended, answered or failed (R35). -/
def State.netEnded (s : State) : Option (PktSpec × Option Cause) :=
  s.mesh.ended.find? (fun e => s.net.any (fun a => a.live && decide (a.tag = e.1.tag) && fromCore e.1.src))

/-- The access of an ended exchange told. -/
def State.takeEnded (s : State) : State :=
  match s.netEnded with
  | some e => ({ s with mesh := { s.mesh with ended := s.mesh.ended.erase e } }).endAccess e.1.tag e.2
  | none => s

/-- The access whose answer a link has brought is served, unless it has failed, and told. -/
def State.takeAnswer (s : State) : State :=
  match s.netAnswered with
  | some (tag, c) =>
    let s := match c, s.net.find? (fun a => decide (a.tag = tag)) with
      | none, some a => s.serveAcc a
      | _, _ => s
    s.endAccess tag c
  | none => s

end Sys2Proof.Machine
end

