-- ==== Sys2Proof/Machine/Due.lean ====
section
/-! DEFINITION. What falls due in the machine by itself, cycle by cycle: every step of its own agents, each made by the meaning of its
event. -/

namespace Sys2Proof.Machine

/-- A step of the machine's own agents that is due. -/
inductive Due where
  | resultLand (site : Nat) (cx : Bool)
  | vectorPush (site : Nat) (cx : Bool)
  | tCommit (site : Nat) (cx : Bool)
  | prefetch (site : Nat) (cx : Bool) (b : Fin 8)
  | upTimeout (site : Nat) (cx : Bool)
  | token (site : Nat) (cx : Bool) (tok : Fin 8)
  | breakpoint (site : Nat) (cx : Bool) (st : Strm)
  | deadlock (site : Nat) (cx : Bool)
  | handlerDeadlock (site : Nat) (cx : Bool)
  | budget (site : Nat) (cx : Bool)
  | trapEntry (site : Nat) (cx : Bool)
  | haltLand (site : Nat) (cx : Bool)
  | turnRetire (site : Nat) (cx : Bool)
  | stealNear (site : Nat) (cx : Bool)
  | stealFar (site : Nat) (cx : Bool)
  | pageWalk (site : Nat)
  | mgoStep (site : Nat) (slot : Fin 64)
  | pawnEnd (site : Nat) (slot : Fin 64)
  | pawnStep (site : Nat) (slot : Fin 64)
  | activate (site : Nat)
  | urgentEval (site : Nat)
  | urgentSwitch (site : Nat)
  | remapLand (site : Nat)
  | traceDrain (site : Nat)
  | translate (site : Nat) (cx : Bool) (tok : Fin 8)
  | netOffer (site : Nat) (cx : Bool)
  | eventApply (part : Nat)
  | overflowWalk (part : Nat)
  | rackApply (part : Nat)
  | replicaWrite (part : Nat)
  | holderAck (part die : Nat)
  | shootAck (part site : Nat)
  | broadcast (part : Nat)
  | drawGrant (part : Nat)
  | displace (part cluster : Nat)
  | dispatch (part cluster : Nat)
  | refill (part cluster : Nat)
  | release (part job act : Nat)
  | sizeRead (part job act : Nat)
  | miss (part job act : Nat)
  | copySubmission (part : Nat)
  | swap (k : SwapKind)
  | epoch (part : Nat)
  | siteRepair (site : Nat)
  | siteRetire (site : Nat)
  | laneSpare (port : Nat)
  | repairOver (r : Repair)
  | serviceLine
  | homeServe
  | peerAnswer
  | netEnded
  | netAnswered
  | linkSend (port : Nat)
  | hotReport (stack : Nat)
  | ackSend (chip port : Nat)
  | resend (port : Nat) (seq : BitVec 32)
  | exhausted (port : Nat) (seq : BitVec 32)
  | bypass
  | hop (flit : Nat)
  | setup
  | bridgeResend (link : Nat × Nat × Nat) (seq : Nat)
  | bridgeOut (link : Nat × Nat × Nat)
deriving DecidableEq, Repr

/-- The step made: the meaning of the event it is. -/
def Due.run (d : Due) (s : State) : Host.Outcome State Fault Refusal :=
  match d with
  | .resultLand site cx => execResultLand site cx s
  | .vectorPush site cx => execVectorResultPush site cx s
  | .tCommit site cx => execTWordCommit site cx s
  | .prefetch site cx b => execPrefetchReady site cx b s
  | .upTimeout site cx => execPeerUpWaitTimeout site cx s
  | .token site cx k => execWaitTokenSettle site cx k s
  | .breakpoint site cx st => execBreakpointFire site cx st s
  | .deadlock site cx => execDeadlockDetect site cx s
  | .handlerDeadlock site cx => execHandlerDeadlock site cx s
  | .budget site cx => execBudgetTrap site cx s
  | .trapEntry site cx => execTrapEntry site cx s
  | .haltLand site cx => execDebugHaltLand site cx s
  | .turnRetire site cx => execTurnRetire site cx s
  | .stealNear site cx => execStealRequest site cx s
  | .stealFar site cx => execStealCrossDie site cx s
  | .pageWalk site => execPageWalkComplete site s
  | .mgoStep site k => execMgoStep site k s
  | .pawnEnd site k => execPawnEnd site k s
  | .pawnStep site k => execPawnStep site k s
  | .activate site => execContextActivate site s
  | .urgentEval site => execUrgentSwitchEvaluate site s
  | .urgentSwitch site => execUrgentSwitch site s
  | .remapLand site => execRemapResponseLand site s
  | .traceDrain site => execTraceDrain site s
  | .translate site cx k => .next ((s.focus site cx).xlateTok k)
  | .netOffer site cx => .next (s.focus site cx).offerNext
  | .eventApply p => execEventTableApply p s
  | .overflowWalk p => execOverflowWalk p s
  | .rackApply p => execRackOpApply p s
  | .replicaWrite p => execReplicaWrite p s
  | .holderAck p die => execHolderAck p die s
  | .shootAck p site => execShootdownAck p site s
  | .broadcast p => execCancelBroadcast p s
  | .drawGrant p => execDrawSlotGrant p s
  | .displace p cl => execTurnDisplace p cl s
  | .dispatch p cl => execTurnDispatch p cl s
  | .refill p cl => execSpillRefill p cl s
  | .release p j a => execActivityRelease p j a s
  | .sizeRead p j a => execSelectorSizeRead p j a s
  | .miss p j a => execDeadlineMiss p j a s
  | .copySubmission p => execSubmissionCopy p s
  | .swap k => execPartitionSwap k s
  | .epoch p => execTimeEpoch p s
  | .siteRepair site => execCoreSiteRepair site s
  | .siteRetire site => execCoreSiteRetire site s
  | .laneSpare port => execLinkLaneSpare port 0 s
  | .repairOver r => .next (s.repaired r)
  | .serviceLine => .next s.svcLine
  | .homeServe => .next s.serveHome
  | .peerAnswer => .next s.answerPeer
  | .netEnded => .next s.takeEnded
  | .netAnswered => .next s.takeAnswer
  | .linkSend port => .next (s.onPort port (fun p => p.sendNext s.cycle s.dt))
  | .hotReport n => execHotStackReport n s
  | .ackSend chip port => execLinkAckSend chip port s
  | .resend port seq => execLinkResend port seq s
  | .exhausted port seq => execLinkRetryExhausted port seq s
  | .bypass => execFlitBypass s
  | .hop f => execLatchedHop f s
  | .setup => execFlitSetup s
  | .bridgeResend link seq => .next { s with mesh := s.mesh.resendBridge link seq }
  | .bridgeOut link => execBridgeRetryExhausted link.1 link.2.1 (Fin.ofNat 4 link.2.2) s

/-- d if the condition holds. -/
def orDue (c : Bool) (d : Due) : Option Due := if c then some d else none

/-! ### What is due in a context, at a core, in a partition, in the package -/

/-- Is a wait token's operation due: its time has come, and its answers are there, or a fault is. -/
def State.tokenDue (s : State) (k : Fin 8) : Bool :=
  match s.ctx.tok[k] with
  | some t => decide (t.due ≤ s.cycle) && (t.fault.isSome || !s.netOpen t.serial)
  | none => false

/-- The first step due in the focused context: results and answers first, then traps and halts, then the turn's own end. -/
def State.ctxDue (s : State) : Option Due :=
  let i := s.site
  let cx := s.cx
  [((List.finRange 8).find? (fun k => s.tokXlates k)).map (fun k => .translate i cx k),
    orDue s.nextWant.isSome (.netOffer i cx),
    orDue ((firstLanding s.cycle s.ctx.landing).isSome || s.retReady) (.resultLand i cx),
    orDue s.vNext.isSome (.vectorPush i cx),
    orDue s.commitReady (.tCommit i cx),
    ((List.finRange 8).find? (fun b => s.ctx.b[b].readyDue s.cycle)).map (fun b => .prefetch i cx b),
    orDue (s.ctx.upDue s.cycle) (.upTimeout i cx),
    ((List.finRange 8).find? (fun k => s.tokenDue k)).map (fun k => .token i cx k),
    ([Strm.c, .t, .m, .v].find? (fun st => s.bpDue st)).map (fun st => .breakpoint i cx st),
    orDue (s.ctx.turn.isSome && !s.ctx.tip && decide (deadlockCycles ≤ s.ctx.dead)) (.deadlock i cx),
    orDue (s.ctx.turn.isSome && s.ctx.tip && s.ctx.retire.isNone && decide (deadlockCycles ≤ s.ctx.dead)) (.handlerDeadlock i cx),
    orDue s.budgetDue (.budget i cx),
    orDue s.trapDue.isSome (.trapEntry i cx),
    orDue (if s.ctx.stepOf.isSome then s.stepDone else s.haltLands) (.haltLand i cx),
    orDue s.retireReady (.turnRetire i cx),
    orDue (s.ctx.asksNear && s.emptyAt i cx) (.stealNear i cx),
    orDue (s.ctx.asksFar && s.emptyAt i cx) (.stealFar i cx)].findSome? id

/-- The first step due at the pawn table of the focused core. -/
def State.pawnDue (s : State) : Option Due :=
  if !s.core.pawns.toList.any (fun p => p.live) then none
  else
    [s.mgoDue.map (fun k => Due.mgoStep s.site k),
      (pawnSlots.find? (fun k => s.endReady k)).map (fun k => .pawnEnd s.site k),
      (s.enginePick .transfer).map (fun k => .pawnStep s.site k),
      (s.enginePick .matrix).map (fun k => .pawnStep s.site k),
      (s.enginePick .collective).map (fun k => .pawnStep s.site k)].findSome? id

/-- The first step due at a core; none while the MCLK of its die is stretched (R14). -/
def State.siteDue (s : State) (site : Nat) : Option Due :=
  let a := s.focus site false
  let b := s.boxAt site
  if s.stretched site then none
  else
  [orDue (b.core.nextWalk s.cycle).isSome (.pageWalk site),
    a.ctxDue,
    (a.focusCx true).ctxDue,
    a.pawnDue,
    orDue b.activates (.activate site),
    orDue (b.evalDue s.cycle) (.urgentEval site),
    orDue (b.urgentDue s.cycle) (.urgentSwitch site),
    orDue (b.core.lateReads.any (fun r => decide (r.due ≤ s.cycle))) (.remapLand site),
    orDue a.drainDue (.traceDrain site)].findSome? id

/-- The first step due of an activity. -/
def State.actDue (s : State) (job act : Nat) (a : Activity) : Option Due :=
  [orDue (a.releaseDue s.dt && s.mayRelease job a) (.release s.pid job act),
    orDue (a.live && a.sizeDue s.cycle) (.sizeRead s.pid job act),
    orDue (a.missDue s.dt && !s.ctrHas a.phase 43) (.miss s.pid job act)].findSome? id

/-- The first step due of the focused partition's activities. -/
def State.jobsDue (s : State) : Option Due :=
  ((s.part.jobs.mapIdx (fun j job => job.acts.mapIdx (fun i a => (j, i, a)))).flatten).findSome? (fun x => s.actDue x.1 x.2.1 x.2.2)

/-- The first step due at a cluster's scheduler. -/
def State.schedDue (s : State) (cl : Nat) : Option Due :=
  [orDue ((s.placeable cl).isSome || (s.sched cl).refillDue s.cycle) (.refill s.pid cl),
    orDue (s.dispatchFree cl && (s.nextTurn cl).isSome) (.dispatch s.pid cl),
    orDue (s.dispatchFree cl && (s.displacer cl).isSome) (.displace s.pid cl)].findSome? id

/-- The first step due in the focused partition. -/
def State.partDue (s : State) : Option Due :=
  if !s.part.live then none
  else
    [orDue s.nextEvOp.isSome (.eventApply s.pid),
      orDue s.nextWalked.isSome (.overflowWalk s.pid),
      orDue s.nextRackOp.isSome (.rackApply s.pid),
      orDue s.nextRepl.isSome (.replicaWrite s.pid),
      (s.part.replWrites.findSome? (fun w => if w.sent then w.waiting.find? (fun d => decide (d < 18)) else none)).map (fun d => .holderAck s.pid d),
      s.shootNext.map (fun site => .shootAck s.pid site),
      orDue (!s.part.casts.isEmpty) (.broadcast s.pid),
      orDue s.grantee.isSome (.drawGrant s.pid),
      s.jobsDue,
      s.part.clusters.findSome? (fun cl => s.schedDue cl),
      orDue (!s.part.subq.isEmpty && !s.part.swapped) (.copySubmission s.pid)].findSome? id

/-- The purpose of a stop of a partition's cores that may be served now. -/
def State.pauseDue (s : State) (e : Nat × Pause) : Option Due :=
  let v := s.focusPart e.1
  if !v.part.live || !v.allStopped then none
  else
    match e.2 with
    | .epoch => orDue (!v.part.swapped) (.epoch e.1)
    | .swap k =>
      let fits := match swapsIn k with
        | some p => s.canSwapIn p (swapsOut k)
        | none => true
      orDue (fits && v.remapsFit) (.swap k)
    | .repair site =>
      match s.spareOf site with
      | some spare => orDue (v.spareUsable spare && s.mayRepair (.coreSite site) && s.holderOf site == some e.1) (.siteRepair site)
      | none => none

/-- The first step due of a link port: a transaction that waits at it, or one of its retry store. -/
def State.portDue (s : State) (port : Nat) : Option Due :=
  match s.ports.toList[port]? with
  | none => none
  | some p =>
    if (p.nextSend s.cycle).isSome then some (.linkSend port)
    else (p.store.find? (fun t => t.overdue s.dt)).map (fun t => if t.resends < 3 then .resend port t.seq else .exhausted port t.seq)

/-- The first step due of a repair in progress (R19, R21): a site's repair starts, or the site is retired; a lane switch starts; one that has
nothing left to do ends. A site's repair for which no spare may be taken stays in progress (DESIGN CHOICE, log 16). -/
def State.repairDue (s : State) (r : Repair) : Option Due :=
  match r with
  | .coreSite site =>
    if 288 ≤ site || (s.columns.toList.getD site (Column.reset site)).spare then some (.repairOver r)
    else
      match s.spareOf site with
      | none => some (.siteRetire site)
      | some spare =>
        match s.holderOf site with
        | none => orDue (s.spareFits site spare) (.siteRepair site)
        | some p => orDue ((s.focusPart p).spareUsable spare && !s.isPausing p) (.siteRepair site)
  | .linkLane port =>
    if s.laneDone = some r then some (.repairOver r)
    else match s.ports.toList[port]? with
      | some p => orDue (!p.spareUsed && p.inService) (.laneSpare port)
      | none => none
  | _ => none

/-- The first step due in the mesh: a bridge's packet sent again, or given up; a hop; a set-up; the next FCLK cycle. -/
def State.meshDue (s : State) : Option Due :=
  let m := s.mesh
  if m.flits.isEmpty && m.waiting.isEmpty && m.bridges.isEmpty then none
  else if m.setupOwed then
    match m.bridges.find? (fun t => t.overdue m.fclk) with
    | some t => some (if t.resends < 3 then .bridgeResend t.link t.seq else .bridgeOut t.link)
    | none =>
      match m.flits.find? (fun f => (m.hop f s.cycle).isSome) with
      | some f => some (.hop f.id)
      | none => some .setup
  else orDue (decide (m.nextAt ≤ s.cycle)) .bypass

/-- The first step due of the package. -/
def State.packDue (s : State) : Option Due :=
  [s.pauses.findSome? (fun e => s.pauseDue e),
    s.repairing.findSome? (fun r => s.repairDue r),
    orDue (!s.svcCopies.isEmpty) .serviceLine,
    orDue (!s.mesh.homes.isEmpty) .homeServe,
    orDue s.peerEnded.isSome .peerAnswer,
    orDue s.netEnded.isSome .netEnded,
    orDue s.netAnswered.isSome .netAnswered,
    ((List.range 12).find? (fun i => match s.hbm.toList[i]? with | some k => k.reportDue | none => false)).map (fun i => .hotReport i),
    (s.sources.find? (fun q => q.ackDue s.dt)).map (fun q => .ackSend q.chip q.port),
    (List.range 18).findSome? (fun i => s.portDue i),
    s.meshDue].findSome? id

/-- The first step that is due. -/
def State.due (s : State) : Option Due :=
  match s.sites.findSome? (fun i => s.siteDue i) with
  | some d => some d
  | none =>
    match s.livePids.findSome? (fun p => (s.focusPart p).partDue) with
    | some d => some d
    | none => s.packDue

end Sys2Proof.Machine
end

