-- ==== Sys2Proof/Machine/Step.lean ====
section
/-! DEFINITION. One step of the machine, and a word placed where the next step fetches. -/

namespace Sys2Proof.Machine

/-- One step: what the outside world brings first; then what is due in this cycle; then the next issue slot of the cycle; with
nothing left to do in the cycle, the next cycle. -/
def step (s : State) : Host.Outcome State Fault Refusal :=
  match s.agenda with
  | e :: rest => exec e { s with agenda := rest }
  | [] =>
    if s.power ≠ .on then .fault .clocksStopped
    else
      match s.due with
      | some d => d.run s
      | none =>
        match s.todo with
        | [] => .next s.tick
        | sl :: _ =>
          match (s.takeSlot sl).slot sl.st with
          | .done s => .next s
          | .word i s => exec i s

/-- The virtual address at which withFetchWord stores its word. -/
def fetchBase : Nat := 0

/-- The state with an instruction word (32 bits of the table's numbering) stored where step fetches its next instruction: the
focused context holds a turn, its stream of that instruction stands at the word, the page of the word is mapped and its
translation present, and that stream has the next issue slot of the cycle (log 2). -/
def State.withFetchWord (s : State) (_nbits w : Nat) : State :=
  let st := (tableStream w).getD .c
  let leaf : Leaf :=
    { rd := true, wr := true, code := true, tgt := 0, chip := 0, fmt := 0, geom := 0, repl := false, glob := false, frame := 0,
      size := 65536 }
  let turn : Turn :=
    { id := 0, record := 0, launch := 0, join := 0, flags := 0, deadline := 0, stamp := 0, arrival := 0, heat := 0, pin := none,
      bg := false, bgDue := false, started := true, cancelled := false, job := 0, act := 0 }
  let ctx := { s.ctx with turn := some (s.ctx.turn.getD turn) }
  let core := { s.core with part := some s.pid, active := s.cx, enabled := true }
  { s with
    agenda := [], power := .on, todo := [{ site := s.site, cx := s.cx, st := st }]
    mem := s.mem.writeBytes fetchBase (leBytes 4 (w % 2 ^ 32))
    part := { s.part with live := true, map := [BitVec.ofNat 128 (0xF + 2 ^ 64)], cores := s.part.cores.put s.site 0 }
    core := core.setTlb st [{ cx := s.cx, vpage := 0, leaf := leaf, inc := 0 }]
    ctx := ctx.onStrm st (fun _ => { StreamSt.idle with run := true, pc := BitVec.ofNat 64 fetchBase }) }

end Sys2Proof.Machine
end

