-- ==== Sys2Proof/Safety.lean ====
section
/-! DEFINITION. What a safe state is: the invariant that every step keeps. -/

namespace Sys2Proof.Machine

/-- The fixed registers of a context store what they read as: x0, a0 and h0 hold 0 (R152). -/
def Context.fixed (c : Context) : Prop := c.x[0] = 0 ∧ c.a[0] = 0 ∧ c.h[0] = 0

/-- The invariant: the memory is in canonical form. -/
def State.Inv (s : State) : Prop := Memory.wf s.mem = true

end Sys2Proof.Machine
end

