-- ==== Sys2Proof/Safety/Words.lean ====
section
/-! DEFINITION. The terms of the statements about words of the C stream: what each word does, written from the rules of
spec/15_control_arith.md and spec/16_control_system.md over numbers and record updates, apart from the meanings. -/

namespace Sys2Proof.Claims

open Sys2Proof.Machine

/-! ### Numbers (R276, R277) -/

/-- The two's complement reading of the low n bits of a number. -/
def sgn (n a : Nat) : Int := if a % 2 ^ n < 2 ^ (n - 1) then (a % 2 ^ n : Nat) else (a % 2 ^ n : Nat) - (2 ^ n : Nat)

/-- The members of R276 and the edge cases of R278, on two numbers of n bits: the operands, the latency, the exact result. -/
def aluMember : Instr → Option (Op.Alu × Nat × (Nat → Nat → Nat → Int))
  | .add o => some (o, 1, fun _ a b => a + b)
  | .sub o => some (o, 1, fun _ a b => a - b)
  | .and o => some (o, 1, fun _ a b => (a &&& b : Nat))
  | .or o => some (o, 1, fun _ a b => (a ||| b : Nat))
  | .xor o => some (o, 1, fun _ a b => (a ^^^ b : Nat))
  | .shl o => some (o, 1, fun n a b => (a * 2 ^ (b % n) : Nat))
  | .shr o => some (o, 1, fun n a b => (a / 2 ^ (b % n) : Nat))
  | .sra o => some (o, 1, fun n a b => sgn n a / (2 ^ (b % n) : Nat))
  | .min o => some (o, 1, fun n a b => min (sgn n a) (sgn n b))
  | .max o => some (o, 1, fun n a b => max (sgn n a) (sgn n b))
  | .mul o => some (o, 4, fun _ a b => (a * b : Nat))
  | .mulh o => some (o, 4, fun n a b => sgn n a * sgn n b / (2 ^ n : Nat))
  | .mulhu o => some (o, 4, fun n a b => (a * b / 2 ^ n : Nat))
  | .div o => some (o, 20, fun n a b => if b = 0 then -1 else (sgn n a).tdiv (sgn n b))
  | .divu o => some (o, 20, fun _ a b => if b = 0 then -1 else (a / b : Nat))
  | .rem o => some (o, 20, fun n a b => if b = 0 then sgn n a else (sgn n a).tmod (sgn n b))
  | .remu o => some (o, 20, fun _ a b => if b = 0 then a else (a % b : Nat))
  | _ => none

/-- A member in the width its word selects: the 64-bit form, or the 32-bit form with its result sign-extended (R277). -/
def inWidth (w : Bool) (f : Nat → Nat → Nat → Int) (a b : Word) : Word :=
  if w then (BitVec.ofInt 32 (f 32 (a.toNat % 2 ^ 32) (b.toNat % 2 ^ 32))).signExtend 64 else BitVec.ofInt 64 (f 64 a.toNat b.toNat)

/-- The leading zeros of a number of n bits: n for zero. -/
def leadingZeros (n a : Nat) : Nat := if a = 0 then n else n - 1 - Nat.log2 a

/-- The one bits of a number of n bits. -/
def oneBits (n a : Nat) : Nat := (List.range n).countP (fun i => a.testBit i)

/-- What the words of one source, of an immediate, or of a predicate compute for x[rd] (R276, R279 to R281, R284, R285): guard,
destination, value. -/
def xWord (c : Context) : Instr → Option (Fin 8 × Fin 32 × Word)
  | .clz o => some (o.g, o.rd, inWidth o.w (fun n a _ => leadingZeros n a) (c.getX o.ra) 0)
  | .popc o => some (o.g, o.rd, inWidth o.w (fun n a _ => oneBits n a) (c.getX o.ra) 0)
  | .addi o => some (o.g, o.rd, BitVec.ofInt 64 ((c.getX o.ra).toInt + o.imm.toInt))
  | .andi o => some (o.g, o.rd, c.getX o.ra &&& BitVec.ofInt 64 o.imm.toInt)
  | .ori o => some (o.g, o.rd, c.getX o.ra ||| BitVec.ofInt 64 o.imm.toInt)
  | .xori o => some (o.g, o.rd, c.getX o.ra ^^^ BitVec.ofInt 64 o.imm.toInt)
  | .shli o => some (o.g, o.rd, BitVec.ofNat 64 ((c.getX o.ra).toNat * 2 ^ o.amount.val))
  | .shri o => some (o.g, o.rd, BitVec.ofNat 64 ((c.getX o.ra).toNat / 2 ^ o.amount.val))
  | .srai o => some (o.g, o.rd, BitVec.ofInt 64 ((c.getX o.ra).toInt / 2 ^ o.amount.val))
  | .lui o => some (o.g, o.rd, BitVec.ofInt 64 (o.imm.toInt * 2 ^ 14))
  | .addpc o => some (o.g, o.rd, BitVec.ofInt 64 (c.cs.pc.toInt + o.imm.toInt * 4))
  | .sel o => some (o.g, o.rd, if c.getP o.ps then c.getX o.ra else c.getX o.rb)
  | .pto o => some (o.g, o.rd, BitVec.ofNat 64
      (1 + 2 * (c.getP 1).toNat + 4 * (c.getP 2).toNat + 8 * (c.getP 3).toNat + 16 * (c.getP 4).toNat + 32 * (c.getP 5).toNat +
        64 * (c.getP 6).toNat + 128 * (c.getP 7).toNat))
  | _ => none

/-- What the compares and predicate words compute for p[pd] (R282 to R284): guard, destination, value. -/
def pWord (c : Context) : Instr → Option (Fin 8 × Fin 8 × Bool)
  | .cmpEq o => some (o.g, o.pd, decide ((c.getX o.ra).toNat = (c.getX o.rb).toNat))
  | .cmpNe o => some (o.g, o.pd, decide ((c.getX o.ra).toNat ≠ (c.getX o.rb).toNat))
  | .cmpLt o => some (o.g, o.pd, decide ((c.getX o.ra).toInt < (c.getX o.rb).toInt))
  | .cmpLtu o => some (o.g, o.pd, decide ((c.getX o.ra).toNat < (c.getX o.rb).toNat))
  | .cmpGe o => some (o.g, o.pd, decide ((c.getX o.rb).toInt ≤ (c.getX o.ra).toInt))
  | .cmpGeu o => some (o.g, o.pd, decide ((c.getX o.rb).toNat ≤ (c.getX o.ra).toNat))
  | .cmpiEq o => some (o.g, o.pd, decide ((c.getX o.ra).toInt = o.imm.toInt))
  | .cmpiNe o => some (o.g, o.pd, decide ((c.getX o.ra).toInt ≠ o.imm.toInt))
  | .cmpiLt o => some (o.g, o.pd, decide ((c.getX o.ra).toInt < o.imm.toInt))
  | .cmpiLtu o => some (o.g, o.pd, decide ((c.getX o.ra).toNat < (BitVec.ofInt 64 o.imm.toInt).toNat))
  | .pand o => some (o.g, o.pd, c.getP o.pa && c.getP o.pb)
  | .por o => some (o.g, o.pd, c.getP o.pa || c.getP o.pb)
  | .pxor o => some (o.g, o.pd, c.getP o.pa != c.getP o.pb)
  | .pandn o => some (o.g, o.pd, c.getP o.pa && !c.getP o.pb)
  | _ => none

/-! ### Issue of a C word (R157, R159, R274) -/

/-- Does the first issue after a stop reload saved results: the program's, or within a handler the handler's own (R159). -/
def reloads (c : Context) : Bool := if c.tip then c.hresume else c.resume

/-- The saved results that an issue in a cycle puts in flight again, each with the cycles that remained (R159). -/
def reloaded (c : Context) (now : Nat) : List Landing :=
  if reloads c then
    ((if c.tip then c.hbuf else c.lbuf).filter (fun e => e.valid)).map (fun e =>
      { due := now + e.remain, serial := 0, st := .c, dst := e.dst.restart now, val := e.val })
  else []

/-- When the divider is free after such an issue: a saved divide holds it until it has landed (R159, R270). -/
def divider (c : Context) (now : Nat) : Nat :=
  if reloads c then
    (((if c.tip then c.hbuf else c.lbuf).filter (fun e => e.valid)).filter (fun e => e.divide)).foldl (fun n e => max n (now + e.remain)) c.divBusy
  else c.divBusy

/-- The branch registers at such an issue: the prefetches that a stop discarded start again (R274). -/
def restarted (c : Context) (now : Nat) : Vector BReg 8 :=
  if reloads c then c.b.map (fun r => if r.byPbr && r.ready.isNone then { r with ready := some (now + 6) } else r) else c.b

/-- The targets whose prefetches start again at such an issue: those of registers that lost theirs, and those of saved results (R159, R274). -/
def targetsAgain (c : Context) : List Word :=
  if reloads c then
    (List.finRange 8).filterMap (fun r => if c.b[r].byPbr && c.b[r].ready.isNone then some c.b[r].val else none) ++
      ((if c.tip then c.hbuf else c.lbuf).filter (fun e => e.valid)).filterMap (fun e => match e.dst with
        | .b _ true _ => some (e.val.setWidth 64)
        | _ => none)
  else []

/-- The state in which those prefetches have started the walks of their targets' pages (R132, R274): the pages that the control TLB misses. -/
def refetched (s : State) : State := (targetsAgain s.ctx).foldl (fun s t => s.prefetchPage .c t.toNat) s

/-- The context in which the C stream has issued its word in cycle now and stands at pc, with these results in flight besides. Nothing
else of the context is different. -/
def issuedC (c : Context) (now : Nat) (pc : Word) (new : List Landing) : Context :=
  { c with
    turn := c.turn.map (fun u => { u with started := true })
    landing := c.landing ++ new ++ reloaded c now
    b := restarted c now
    divBusy := divider c now
    lbuf := if !c.tip && c.resume then [] else c.lbuf
    hbuf := if c.tip && c.hresume then [] else c.hbuf
    resume := c.tip && c.resume
    hresume := !c.tip && c.hresume
    cs := { c.cs with pc := pc, loops := [], bound := true, bpSkip := false, awaited := none, wait := none, fence := none,
                      issued := c.cs.issued + 1 } }

/-- The state in which the C stream has issued its word and nothing else has happened. -/
def nextWord (s : State) : State := { refetched s with ctx := issuedC s.ctx s.cycle (s.ctx.cs.pc + 4) [] }

/-- The state in which the C stream has issued its word, and a result is to land in d after lat cycles (R157). -/
def landsIn (s : State) (lat : Nat) (d : Dest) (v : BitVec 256) : State :=
  { refetched { s with serial := s.serial + 1 } with
    ctx := issuedC s.ctx s.cycle (s.ctx.cs.pc + 4) [{ due := s.cycle + lat, serial := s.serial, st := .c, dst := d, val := v }] }

/-- The state in which what a stop has saved is in flight again, and nothing else has happened (R159). -/
def landingBack (s : State) : State :=
  { refetched s with ctx := { s.ctx with
    landing := s.ctx.landing ++ reloaded s.ctx s.cycle
    b := restarted s.ctx s.cycle
    divBusy := divider s.ctx s.cycle
    lbuf := if !s.ctx.tip && s.ctx.resume then [] else s.ctx.lbuf
    hbuf := if s.ctx.tip && s.ctx.hresume then [] else s.ctx.hbuf
    resume := s.ctx.tip && s.ctx.resume
    hresume := !s.ctx.tip && s.ctx.hresume } }

/-- The state in which the C stream waits at its word and nothing else has happened. -/
def waitsOn (s : State) (why : WaitOn) : State := { s with ctx := { s.ctx with cs := { s.ctx.cs with wait := some why } } }

/-- The C stream's word may put a result in flight to x[rd]: no token owns the register, and the landing limit has room (R157, R158). -/
def mayLand (c : Context) (rd : Fin 32) : Prop := c.ownedX rd = false ∧ c.landingFull = false

/-! ### Words with a wait token (R158, R270, R294 to R321) -/

/-- The token of a word that issues now: its operation, when it is first asked, the registers it owns. -/
def pendingTok (s : State) (op : TokOp) (due : Nat) (owned : List (Fin 32)) : TokPend :=
  { op := op, pc := s.ctx.cs.pc, pos := s.ctx.cs.issued, serial := s.serial, due := due, owned := owned.filter (fun r => r != 0),
    done := none, fault := none }

/-- The state in which the C stream has issued its word, whose operation is pending in token k. -/
def tokenTaken (s : State) (k : Fin 8) (op : TokOp) (lat : Nat) (owned : List (Fin 32)) : State :=
  { refetched { s with serial := s.serial + 1 } with
    ctx := { issuedC s.ctx s.cycle (s.ctx.cs.pc + 4) [] with tok := s.ctx.tok.set k (some (pendingTok s op (s.cycle + lat) owned)) } }

/-- The word may take token k and own these registers: the token is settled, and no register but x0 among them is owned (R158). -/
def mayTake (c : Context) (k : Fin 8) (owned : List (Fin 32)) : Prop :=
  c.tok[k] = none ∧ ∀ r ∈ owned, r ≠ 0 → c.ownedX r = false

/-- The registers of a pair destination: x[rd] and x[rd + 1], none of them when rd is 0 (R158, R294). -/
def both (rd : Fin 32) : List (Fin 32) := if rd = 0 then [] else [rd, rd + 1]

/-- The words whose whole effect at issue is to take their token: guard, token, owned registers, latency, operation, and the condition
at issue that the rules state (R303, R307 to R309, R316, R321). -/
def tokWord (s : State) : Instr → Option (Fin 8 × Fin 8 × List (Fin 32) × Nat × TokOp × Prop)
  | .join o => some (o.g, o.tok, [], s.recordLat (s.ctx.getX o.ra).toNat, .join (s.ctx.getX o.ra) ((s.ctx.getX o.rb).setWidth 40),
      (s.ctx.getX o.ra).toNat % 8 = 0)
  | .budget o => some (o.g, o.tok, [o.rd], 12, .budget o.rd ((s.ctx.getX o.ra).setWidth 32), True)
  | .cancel o => some (o.g, o.tok, [], s.recordLat (s.ctx.getX o.ra).toNat, .cancel (s.ctx.getX o.ra) o.level.val,
      1 ≤ o.level.val ∧ o.level.val ≤ 4 ∧ (s.ctx.getX o.ra).toNat % 8 = 0)
  | .pwait o => some (o.g, o.tok, both o.rd, 1, .pwait (s.ctx.cHandle o.h) (o.h == 0) o.rd, o.rd.val % 2 = 0)
  | .ptest o => some (o.g, o.tok, both o.rd, 12, .ptest (s.ctx.cHandle o.h) (o.h == 0) o.rd, o.rd.val % 2 = 0)
  | .pdetach o => some (o.g, o.tok, [], 12, .pdetach (s.ctx.cHandle o.h) (o.h == 0)
      (if (s.ctx.getX o.rb).getLsbD 16 then some ((s.ctx.getX o.rb).toNat % 2 ^ 16) else none), True)
  | .pprio o => some (o.g, o.tok, [], 12, .pprio (s.ctx.cHandle o.h) (o.h == 0) ((s.ctx.getX o.rb).toNat % 8), True)
  | .pstat o => some (o.g, o.tok, [o.rd], 12, .pstat o.rd, True)
  | .crr o => some (o.g, o.tok, [o.rd], 3, .crr o.reg.val o.rd, crrSupervisor o.reg.val = true → s.ctx.pl = true)
  | .time o => some (o.g, o.tok, [o.rd], 3, .time o.rd, s.ctx.replaying = false)
  | _ => none

/-- The words served at the event table (R305, R306): guard, token, owned registers, name, operation there, operation of the token. -/
def eventWord (s : State) : Instr → Option (Fin 8 × Fin 8 × List (Fin 32) × Nat × EvKind × TokOp)
  | .epost o => some (o.g, o.tok, [], name o.ra, .post, .epost (name o.ra))
  | .etest o => some (o.g, o.tok, [o.rd], name o.ra, .test, .etest (name o.ra) o.rd)
  | .seta o => some (o.g, o.tok, [o.rd], name o.ra, .sete 0 (v o.ra), .sete 0 (name o.ra) (v o.ra) o.rd)
  | .setn o => some (o.g, o.tok, [o.rd], name o.ra, .sete 1 (v o.ra), .sete 1 (name o.ra) (v o.ra) o.rd)
  | .sets o => some (o.g, o.tok, [o.rd], name o.ra, .sete 2 (v o.ra), .sete 2 (name o.ra) (v o.ra) o.rd)
  | .setnt o => some (o.g, o.tok, [o.rd], name o.ra, .sete 3 (v o.ra), .sete 3 (name o.ra) (v o.ra) o.rd)
  | .geta o => some (o.g, o.tok, [o.rd], name o.ra, .sete 4 (v o.ra), .sete 4 (name o.ra) (v o.ra) o.rd)
  | _ => none
where
  name (r : Fin 32) : Nat := (s.ctx.getX r).toNat % 2 ^ 16
  v (r : Fin 32) : BitVec 32 := BitVec.ofNat 32 ((s.ctx.getX r).toNat / 2 ^ 32)

/-- Does a word release what came before it (R105, R149, R305, R306): it then waits until that is performed. -/
def releases : Instr → Bool
  | .epost _ => true
  | .setn _ => true
  | _ => false

/-- The rack words (R314): guard, token, owned registers, the member's number, the register with rack and port, its first destination. -/
def rackWord : Instr → Option (Fin 8 × Fin 8 × List (Fin 32) × Nat × Fin 32 × Fin 32)
  | .rkopenw o => some (o.g, o.tok, [o.rd], 0, o.ra, o.rd)
  | .rkcommit o => some (o.g, o.tok, [], 1, o.ra, 0)
  | .rkopenr o => some (o.g, o.tok, both o.rd, 2, o.ra, o.rd)
  | .rkclose o => some (o.g, o.tok, [], 3, o.ra, 0)
  | _ => none

/-- What a rack word waits for before it issues (R105): a commit for the writes of the C, T, M and S paths and for the turn's pawns, a
close of a reader port for its reads and for the pawns. Under replay it takes its word from the log (R211). -/
def rackReady (s : State) (fn port : Nat) : Prop :=
  (fn = 1 → s.pendingOn .c 0x0F s.serial (BitVec.allOnes 64) = false ∧ s.ctx.twinOpen = false ∧ s.pawnsOpen = false) ∧
  (fn = 3 → port ≠ 63 → s.ctx.readsPending = false ∧ s.pawnsOpen = false) ∧
  s.ctx.replaying = false

/-- The state in which the C stream has issued a memory word that is served after lat unloaded cycles and the extra ones it meets (R117, R270,
R286): its token is taken, its operation pending. Its translation is asked for once it has issued (R132). -/
def accessed (s : State) (k : Fin 8) (op : TokOp) (lat : Nat) (owned : List (Fin 32)) : State :=
  tokenTaken { s with delays := s.delays.tail } k op (lat + s.delays.headD 0) owned

/-- The queue words of the C stream served as they issue (R154, R270, R273, R299): the token settles 2 cycles later with this value. -/
def queueServed (s : State) (c : Context) (k : Fin 8) (op : TokOp) (owned : List (Fin 32)) (serial : Nat) (v : Word) : State :=
  { refetched { s with serial := serial } with
    ctx := { issuedC c s.cycle (s.ctx.cs.pc + 4) [] with
      tok := s.ctx.tok.set k (some { pendingTok s op (s.cycle + 2) owned with done := some (v, 0) }) } }

/-- The bits of the oldest entry. -/
def oldest (es : List QEnt) : QEntry := (es.headD QEnt.absent).bits

/-- No earlier QGET or QPUT on a queue is still to be served. -/
def queueFree (c : Context) (q : Fin 16) : Prop :=
  ∀ k : Fin 8, ∀ t ∈ c.tok[k], t.done = none → (∀ w rd pop, t.op ≠ .qget q w rd pop) ∧ ∀ w v, t.op ≠ .qput q w v

/-- The address of a load or store of so many bytes (R286). -/
def memAt (c : Context) (r : Fin 32) (off : BitVec 10) (size : Nat) : Word := BitVec.ofInt 64 ((c.getX r).toInt + off.toInt * size)

/-- The memory words of the C stream (R286, R320): guard, token, owned registers, address, size, operation. -/
def memWord (c : Context) : Instr → Option (Fin 8 × Fin 8 × List (Fin 32) × Word × Nat × TokOp)
  | .ldb o => some (o.g, o.tok, [o.rd], memAt c o.ra o.off 1, 1, .load 1 true o.rd (memAt c o.ra o.off 1))
  | .ldh o => some (o.g, o.tok, [o.rd], memAt c o.ra o.off 2, 2, .load 2 true o.rd (memAt c o.ra o.off 2))
  | .ldw o => some (o.g, o.tok, [o.rd], memAt c o.ra o.off 4, 4, .load 4 true o.rd (memAt c o.ra o.off 4))
  | .ldd o => some (o.g, o.tok, [o.rd], memAt c o.ra o.off 8, 8, .load 8 false o.rd (memAt c o.ra o.off 8))
  | .ldbu o => some (o.g, o.tok, [o.rd], memAt c o.ra o.off 1, 1, .load 1 false o.rd (memAt c o.ra o.off 1))
  | .ldhu o => some (o.g, o.tok, [o.rd], memAt c o.ra o.off 2, 2, .load 2 false o.rd (memAt c o.ra o.off 2))
  | .ldwu o => some (o.g, o.tok, [o.rd], memAt c o.ra o.off 4, 4, .load 4 false o.rd (memAt c o.ra o.off 4))
  | .stb o => some (o.g, o.tok, [], memAt c o.ra o.off 1, 1, .store 1 (memAt c o.ra o.off 1) (c.getX o.rd))
  | .sth o => some (o.g, o.tok, [], memAt c o.ra o.off 2, 2, .store 2 (memAt c o.ra o.off 2) (c.getX o.rd))
  | .stw o => some (o.g, o.tok, [], memAt c o.ra o.off 4, 4, .store 4 (memAt c o.ra o.off 4) (c.getX o.rd))
  | .std o => some (o.g, o.tok, [], memAt c o.ra o.off 8, 8, .store 8 (memAt c o.ra o.off 8) (c.getX o.rd))
  | .tlrw o => some (o.g, o.tok, [], c.getX o.rb, 32, .tlrw (c.getX o.ra) (c.getX o.rb))
  | _ => none

/-! ### Branches, streams and turns (R274, R291, R296, R300) -/

/-- The target of a branch register is a word address of the C stream, and its fetch is ready (R274, R291). -/
def targetReady (s : State) (bt : Fin 8) : Prop :=
  s.ctx.b[bt].val.toNat % 4 = 0 ∧ s.ctx.b[bt].val.toNat < 2 ^ 52 ∧ s.walking s.ctx.b[bt].val.toNat = false ∧
  ∃ t, s.ctx.b[bt].ready = some t ∧ t ≤ s.cycle

/-- The state in which the fetch of a branch target has started: the walk of its page, if the control TLB misses it (R274, R400). -/
def fetchStarted (s : State) (target : Word) : State := s.prefetchPage .c target.toNat

/-- The context after a branch through a register: a fetch that no PBR or CALL started has served (log 15). -/
def spent (c : Context) (bt : Fin 8) : Context :=
  if c.b[bt].byPbr then c else { c with b := c.b.set bt { c.b[bt] with ready := none } }

/-- A cancel that has reached the turn ends it at a cancellation point: it is to retire CANCELLED (R95). -/
def afterCancel (s : State) : State :=
  if (s.ctx.turn.map (fun t => t.cancelled)).getD false then
    { s with ctx := { s.ctx with retire := some { faulted := false, cancelled := true } } }
  else s

/-- Is some engine stream of a mask (T, M, V from bit 0) not idle. -/
def draining (mask : BitVec 3) (c : Context) : Bool :=
  (mask.getLsbD 0 && c.ts.run) || (mask.getLsbD 1 && c.ms.run) || (mask.getLsbD 2 && c.vs.run)

/-- The channel from the C stream to an engine (1 T, 2 M, 3 V). -/
def fromC (eng : Fin 4) : Fin 12 := Fin.ofNat 12 (eng.val - 1)

/-- The channel from an engine (1 T, 2 M, 3 V) to the C stream. -/
def toC (eng : Fin 4) : Fin 12 := Fin.ofNat 12 (3 * eng.val)

/-- A stream that starts at an entry in a cycle: held if the context runs a handler, and knowing the C words so far (R145, R296). -/
def startedAt (r : StreamSt) (e : Word) (now : Nat) (held : Bool) (known : Know) : StreamSt :=
  { run := true, pc := e, loops := [], awaited := none, wait := none, holdReq := held, held := false, readyAt := now + 1, fence := none,
    issued := r.issued, bound := true, bpSkip := false, know := known }

/-! ### Frames -/

/-- The registers that words name are as they were: x, p, the values of b, a, mb, s, m, h, the shape and format registers, the flags, the
nest table and the accumulator. -/
def sameRegs (c d : Context) : Prop :=
  d.x = c.x ∧ d.p = c.p ∧ (∀ r : Fin 8, d.b[r].val = c.b[r].val) ∧ d.a = c.a ∧ d.mb = c.mb ∧ d.s = c.s ∧ d.m = c.m ∧ d.h = c.h ∧
  d.vshape = c.vshape ∧ d.mfmt = c.mfmt ∧ d.fflags = c.fflags ∧ d.strict = c.strict ∧ d.nest = c.nest ∧ d.acc = c.acc ∧
  d.rowInt = c.rowInt

/-- The registers that a trap writes are as they were. -/
def sameTrapRegs (c d : Context) : Prop :=
  d.cause = c.cause ∧ d.epc = c.epc ∧ d.faddr = c.faddr ∧ d.fpc = c.fpc ∧ d.fpc2 = c.fpc2 ∧ d.frec = c.frec ∧ d.sscr = c.sscr

/-! ### Guards (R275) -/

/-- The guard of a word of the C stream: every word of the stream has one. -/
def guardOf : Instr → Option (Fin 8)
  | .add o => some o.g
  | .sub o => some o.g
  | .and o => some o.g
  | .or o => some o.g
  | .xor o => some o.g
  | .shl o => some o.g
  | .shr o => some o.g
  | .sra o => some o.g
  | .mul o => some o.g
  | .mulh o => some o.g
  | .mulhu o => some o.g
  | .div o => some o.g
  | .divu o => some o.g
  | .rem o => some o.g
  | .remu o => some o.g
  | .min o => some o.g
  | .max o => some o.g
  | .clz o => some o.g
  | .popc o => some o.g
  | .addi o => some o.g
  | .andi o => some o.g
  | .ori o => some o.g
  | .xori o => some o.g
  | .shli o => some o.g
  | .shri o => some o.g
  | .srai o => some o.g
  | .lui o => some o.g
  | .addpc o => some o.g
  | .cmpEq o => some o.g
  | .cmpNe o => some o.g
  | .cmpLt o => some o.g
  | .cmpLtu o => some o.g
  | .cmpGe o => some o.g
  | .cmpGeu o => some o.g
  | .cmpiEq o => some o.g
  | .cmpiNe o => some o.g
  | .cmpiLt o => some o.g
  | .cmpiLtu o => some o.g
  | .pand o => some o.g
  | .por o => some o.g
  | .pxor o => some o.g
  | .pandn o => some o.g
  | .pfrom o => some o.g
  | .pto o => some o.g
  | .sel o => some o.g
  | .ldb o => some o.g
  | .ldh o => some o.g
  | .ldw o => some o.g
  | .ldd o => some o.g
  | .ldbu o => some o.g
  | .ldhu o => some o.g
  | .ldwu o => some o.g
  | .stb o => some o.g
  | .sth o => some o.g
  | .stw o => some o.g
  | .std o => some o.g
  | .wait o => some o.g
  | .pbr o => some o.g
  | .pbrx o => some o.g
  | .br o => some o.g
  | .call o => some o.g
  | .loopc o => some o.g
  | .tstart o => some o.g
  | .mstart o => some o.g
  | .vstart o => some o.g
  | .sdrain o => some o.g
  | .qbind o => some o.g
  | .qget o => some o.g
  | .qgetp o => some o.g
  | .qput o => some o.g
  | .tpost o => some o.g
  | .tawait o => some o.g
  | .spawn o => some o.g
  | .join o => some o.g
  | .cEnd o => some o.g
  | .ewait o => some o.g
  | .epost o => some o.g
  | .etest o => some o.g
  | .launch o => some o.g
  | .budget o => some o.g
  | .cancel o => some o.g
  | .cpoint o => some o.g
  | .pwait o => some o.g
  | .ptest o => some o.g
  | .pcancel o => some o.g
  | .pdetach o => some o.g
  | .pprio o => some o.g
  | .pstat o => some o.g
  | .allred o => some o.g
  | .bcast o => some o.g
  | .allgath o => some o.g
  | .redscat o => some o.g
  | .barrier o => some o.g
  | .rkopenw o => some o.g
  | .rkcommit o => some o.g
  | .rkopenr o => some o.g
  | .rkclose o => some o.g
  | .fence o => some o.g
  | .crr o => some o.g
  | .crw o => some o.g
  | .trap o => some o.g
  | .eret o => some o.g
  | .bkpt o => some o.g
  | .tlrw o => some o.g
  | .time o => some o.g
  | .seta o => some o.g
  | .setn o => some o.g
  | .sets o => some o.g
  | .setnt o => some o.g
  | .geta o => some o.g
  | _ => none

/-! ### Traps (R175, R178) -/

/-- The results of the C stream in flight, as the landing buffer saves them in a cycle (R159). -/
def saved (c : Context) (now : Nat) : List LandSave :=
  (c.landing.filter (fun l => decide (l.st = .c))).map (fun l => { remain := l.due - now, dst := l.dst, val := l.val, divide := decide (l.due = c.divBusy) })

/-- The context that has entered the handler at an address for a trap (R178): what each register then holds. The words in flight are
saved as of cycle now, and the first handler word issues 20 cycles after this one. A FENCE at the word keeps its set for the return (R147);
serial numbers what the handler makes. -/
def inHandler (c : Context) (cycle now serial : Nat) (t : PendTrap) (epc : Word) (entry : Nat) : Context :=
  { c with
    ppl := c.pl, pl := true, tip := true, held := true
    cause := BitVec.ofNat 24 (t.cause.code + 2 ^ 8 * strmCode t.st + 2 ^ 10 * t.pawn.isSome.toNat + 2 ^ 11 * t.pawn.getD 0 +
      2 ^ 17 * (t.tok.getD 0).val + 2 ^ 20 * t.tok.isSome.toNat + 2 ^ 21 * strmCode t.st2 + 2 ^ 23 * t.async_.toNat)
    epc := epc &&& 0x000FFFFFFFFFFFFC#64, faddr := t.faddr &&& 0x000FFFFFFFFFFFFF#64, fpc := t.fpc &&& 0x000FFFFFFFFFFFFF#64
    fpc2 := t.fpc2 &&& 0x000FFFFFFFFFFFFF#64, frec := t.frec
    divBusy := 0
    lbuf := c.lbuf ++ saved c now
    landing := c.landing.filter (fun l => !decide (l.st = .c))
    b := c.b.map (fun r => { r with ready := none })
    resume := true, dead := 0, waitMask := 0
    fenceKept := c.cs.fence.map (fun f => (epc, f)), tipSerial := serial
    ts := { c.ts with holdReq := true }, ms := { c.ms with holdReq := true }, vs := { c.vs with holdReq := true }
    cs := { c.cs with pc := BitVec.ofNat 64 entry, wait := none, awaited := none, fence := none, readyAt := cycle + 20 } }

/-- The handler's entry of a partition: TVEC.ENTRY (R176). -/
def handlerOf (p : Part) : Nat := p.tvec.toNat / 64 % 2 ^ 46 * 64

/-- A trap of the C stream's own word. -/
def wordTrap (cause : Cause) (pc faddr frec : Word) : PendTrap :=
  { rank := 0, order := 0, cause := cause, st := .c, pawn := none, tok := none, async_ := false, st2 := .c, faddr := faddr, fpc := pc,
    fpc2 := 0, frec := frec }

/-- Has a step entered a handler: the context is that of R178, memory, partition and the other context are as before, and of the core
only what waits for the trace and the noted walk faults of this context may differ. -/
def entersHandler (s t : State) (c : Context) : Prop :=
  ∃ trace lost, t = { s with
    ctx := c, core := { s.core with trace := trace, lost := lost, wfault := s.core.wfault.filter (fun f => f.1 != s.cx) } }

end Sys2Proof.Claims
end

