-- ==== Sys2Proof/Safety/Engines.lean ====
section
/-! DEFINITION. The terms of the statements about words of the T, M and V streams: when such a word issues, and the record that its issue
leaves, written from spec/17_transfer.md to spec/20_vector_more.md. -/

namespace Sys2Proof.Claims

open Sys2Proof.Machine

/-! ### Meeting a word (R155, R156) -/

/-- A T word issues now (R155, R322, R398): the window has room, and is empty since the cycle before for a word that issues alone; its token is
popped, which leaves the state t. -/
def metT (s : State) (sync : Fin 8) (alone : Bool) (t : State) : Prop :=
  (alone = true → s.ctx.twin = [] ∧ s.ctx.tcommitAt ≤ s.cycle) ∧ s.ctx.twin.length < 16 ∧
  ∃ c, s.ctx.await .t sync s.cycle = some c ∧ t = { s with ctx := c }

/-- An M word issues now: no due word is held by a full channel, and its token is popped. -/
def metM (s : State) (sync : Fin 8) (t : State) : Prop :=
  s.retStuck = false ∧ ∃ c, s.ctx.await .m sync s.cycle = some c ∧ t = { s with ctx := c }

/-- A V word issues now: no due word is held by a full channel, and its token is popped. -/
def metV (s : State) (sync : Fin 8) (t : State) : Prop :=
  s.vStuck = false ∧ ∃ c, s.ctx.await .v sync s.cycle = some c ∧ t = { s with ctx := c }

/-- The post of a sync code made (R155): what the stream has made so far is before what follows it (R145). -/
def posted (s : State) (st : Strm) (sync : Fin 8) : State := { s with ctx := s.ctx.post st sync s.cycle s.serial }

/-- A result of an engine stream in flight (R157, R271). -/
def flies (s : State) (st : Strm) (lat : Nat) (d : Dest) (v : BitVec 256) : State :=
  { s with
    serial := s.serial + 1
    ctx := { s.ctx with landing := s.ctx.landing ++ [{ due := s.cycle + lat, serial := s.serial, st := st, dst := d, val := v }] } }

/-- An engine stream that has ended: idle, its post made (R151, R335, R349, R375). -/
def endedAt (s : State) (st : Strm) (sync : Fin 8) : State :=
  let t := s.issuedIn st
  { t with ctx := (t.ctx.post st sync s.cycle s.serial).onStrm st (fun r => { r with run := false, loops := [], wait := none }) }

/-! ### T words (R322, R323, R326) -/

/-- The state in which the waits for a word's lines are excused while they last, one entry for each line that meets a delay that R88 names. -/
def slowed (s : State) (serial : Nat) (ls : List (Nat × Place)) (lat : Nat) : State :=
  { s with ctx := { s.ctx with
    slow := List.replicate (ls.countP (fun l => s.slowKey l.2.key)) (serial, s.cycle, s.cycle + lat) ++ s.ctx.slow } }

/-- A T word in the window (R322): what it will do, when at the earliest, what undoes it (R323), and the address register that it sets,
at latency 1. What it has translated is its own now. -/
def windowed (s : State) (op : TOp) (lat : Nat) (sync : Fin 8) (pops : List (Fin 16 × QEnt)) (set : Option (Fin 16 × Word)) : State :=
  let e : TEntry :=
    { serial := s.serial, pc := s.ctx.ts.pc, pos := s.ctx.ts.issued, op := op, due := s.cycle + lat, sync := sync, fault := none, done := none
      undo := { pops := pops, regs := set.toList.map (fun r => (r.1, s.ctx.getA r.1)), awaitOf := s.ctx.ts.awaited, loops := s.ctx.ts.loops } }
  let t := slowed { s with serial := s.serial + 1, ctx := { s.ctx with twin := s.ctx.twin ++ [e], ttr := [] } } s.serial op.lines lat
  match set with
  | none => t
  | some (a, v) => flies t .t 1 (.a a) (v.setWidth 256)

/-- The pops of a word taken: the queues are those after the pops, and the stream knows what the pushers knew (R145, R153). -/
def popped (s : State) (c : Context) : State :=
  { s with ctx := { s.ctx with q := c.q, ts := { s.ctx.ts with know := s.ctx.ts.know.join c.ts.know } } }

/-- The oldest entry of a queue. -/
def entry1 (es : List QEnt) : QEntry := (es.headD QEnt.absent).bits

/-- A base address that a word may use (R322, R325): 64-byte aligned, bits [63:52] zero. -/
def goodBase (b : Word) : Prop := b.toNat % 64 = 0 ∧ b.toNat < 2 ^ 52

/-- The base after a queue word's step of 64 bytes times a signed number (R326). -/
def stepBase (b : Word) (step : BitVec 9) : Word := BitVec.ofInt 64 (b.toInt + 64 * step.toInt)

/-- The walk of a queue word at a base (R325, R326): every line it touches is translated, every element keeps the format rules; w is the
walk, ls the lines with their places, t the state after the translations. With no element covered nothing is translated. -/
def queueWalks (s : State) (k : Acc) (b : Word) (ly : LyRec) (strict : Bool) (w : Walking) (ls : List (Nat × Place)) (t : State) : Prop :=
  let lanes := fmtBits ly.lfmt.toNat
  let n := min (2048 / lanes) (ly.rows.toNat * ly.cols.toNat)
  if n = 0 then w = ly.walkAt b.toNat none lanes ∧ ls = [] ∧ t = s
  else
    ∃ base s1, s.linesT k [b.toNat] = (.ok base, s1) ∧ w = ly.walkAt b.toNat (leafIn base b.toNat) lanes ∧
      (w.geom ≠ 0 → ly.cols.toNat % 32 = 0) ∧ (w.geom = 2 → ly.scale ≠ 0) ∧
      s1.linesT k (w.addrs n) = (.ok ls, t) ∧
      ∀ i, i < n → w.elemOk ls strict lanes (i / ly.cols.toNat) (i % ly.cols.toNat) = true

/-- A line that a PREF reaches (R117, R136, R327): its bank of deep SRAM is awake, and its die asks for a copy of a replicated frame. -/
def reached (s : State) (p : Place) : State :=
  let u := { s with drowsy := s.drowsy.filter (fun d => !(decide (deepSite p.key = some d.1) && decide (p.key % 2 ^ 24 / 2 ^ 18 = d.2))) }
  match p.replFrame with
  | some f => u.replRead (dieOf s.site) f
  | none => u

/-- The bytes of the own share that a queue word's elements lie in (R160). -/
def queueRanges (s : State) (w : Walking) (writes : Bool) : List (Nat × Nat × Bool) :=
  s.walkRanges w (min (2048 / fmtBits w.ly.lfmt.toNat) (w.ly.rows.toNat * w.ly.cols.toNat)) writes

/-- Ranges of a T word in the range checker (R160). -/
def tracked (s : State) (st : Strm) (pawn : Option Nat) (rs : List (Nat × Nat × Bool)) : State :=
  let ops : List RangeOp := rs.map (fun r =>
    { serial := s.serial, lo := r.1, hi := r.2.1, writes := r.2.2, pc := (s.ctx.strm st).pc, st := st, pawn := pawn })
  { s with ctx := { s.ctx with ranges := s.ctx.ranges ++ ops } }

/-- The first key of some lines. -/
def firstKey (ls : List (Nat × Place)) : Nat := (ls.head?.map (fun l => l.2.key)).getD 0

/-! ### Pawns that words create (R164, R165) -/

/-- The entry of a pawn that its word has just created (R164, R165): the generation advances by one, past 1,023 to 1. -/
def bornPawn (s : State) (k : Fin 64) (n : NewPawn) : Pawn :=
  { live := true, gen := if (s.pawn k).gen = 1023 then 1 else (s.pawn k).gen + 1, state := .pending, owner := some s.turnId, cx := s.cx
    st := n.st, eng := n.eng, pri := n.pri, handle := if n.h = 0 then none else some n.h, adopted := n.detach, launch := s.launchOf
    event := none, frec := 0, faddr := 0, pc := (s.ctx.strm n.st).pc, endsAt := 0, serial := s.serial, job := n.job, pos := 0
    idx := n.idx, rows := n.rows, covered := 0, due := n.due, suspended := false, cancelReq := false, draw := n.draw, vec := []
    sync := n.sync, fin := none, net := none, lead := n.lead, retry := false, tr := n.tr, begun := false, panels := [] }

/-- The registers that a pawn-creating word leaves: all but the handle register that it names, which holds generation and entry (R164). -/
def keepsRegs (c d : Context) (h : Fin 16) (handle : BitVec 16) : Prop :=
  d.x = c.x ∧ d.p = c.p ∧ d.a = c.a ∧ d.mb = c.mb ∧ d.s = c.s ∧ d.m = c.m ∧ d.vshape = c.vshape ∧ d.mfmt = c.mfmt ∧
  d.fflags = c.fflags ∧ d.strict = c.strict ∧ d.nest = c.nest ∧ d.acc = c.acc ∧
  (∀ r : Fin 16, d.h[r] = if r = h ∧ h ≠ 0 then handle else c.h[r])

/-- What a pawn-creating word leaves (R164): the pawn in the lowest free entry, every other entry as it was but for the one that the
handle register named before, the registers, and, if no loop ends and the pawn is not detached, all of memory. A cancel that has reached
the turn is observed. -/
def createsPawn (s t : State) (k : Fin 64) (n : NewPawn) : Prop :=
  t.pawn k = bornPawn s k n ∧
  (∀ j : Fin 64, j ≠ k → (n.h = 0 ∨ s.byHandle s.ctx.h[n.h] ≠ some j) → t.pawn j = s.pawn j) ∧
  keepsRegs s.ctx t.ctx n.h (BitVec.ofNat 16 (k.val + 64 * (bornPawn s k n).gen.toNat)) ∧
  ((s.ctx.strm n.st).loops = [] → (t.ctx.strm n.st).pc = (s.ctx.strm n.st).pc + 4) ∧
  ((s.ctx.strm n.st).loops = [] → n.detach = false → t.mem = s.mem) ∧
  ((s.ctx.turn.map (fun u => u.cancelled)).getD false = true → t.ctx.retire = some { faulted := false, cancelled := true })

/-- Where a copy's side lies (R325, R328). -/
def sideAt (w : Walking) (b : Word) (leaf : Option Leaf) : CopySide :=
  { base := b, ly := w.ly, bits := w.bits, geom := w.geom, fmt := match leaf with | some l => l.fmt | none => 0 }

/-- A row of a copy: with raw the row counts bytes (R328). -/
def rowBytes (w : Walking) (raw : Bool) : Nat := if raw then w.ly.cols.toNat else w.rowLen

/-- A walk with blocks has rows of whole blocks, unless the copy counts bytes (R126, R325). -/
def wholeBlocks (w : Walking) (raw : Bool) : Prop := raw = true ∨ w.geom = 0 ∨ w.ly.cols.toNat % 32 = 0

/-- The index addresses of a gather or scatter: 32 to an entry, the first rows of them (R329). -/
def indexWords (es : List QEnt) (rows : Nat) : List Word :=
  (es.flatMap (fun e => (List.range 32).map (fun i => BitVec.ofNat 64 (laneOf e.bits 64 i)))).take rows

/-! ### Loops and the advance of a stream (R161) -/

/-- A LOOP word met the rules of R161: the body is a positive multiple of the stages, the identifier is free, and the body lies inside one
stage of the loop around it. -/
def goodLoop (r : StreamSt) (id : Fin 4) (stages len : Nat) : Prop :=
  len % stages = 0 ∧ stages ≤ len ∧ (∀ l ∈ r.loops, l.id ≠ id) ∧
  ∀ l ∈ r.loops.head?,
    let first := (r.pc - l.body).toNat / 4 + 1
    first + len ≤ l.len ∧ first / (l.len / l.stages) = (first + len - 1) / (l.len / l.stages)

/-- The state after a LOOP: at the first word of the body, inside the loop; past the body with a count of 0 (R161). -/
def loopEntered (s : State) (st : Strm) (id : Fin 4) (stages len count : Nat) : State :=
  let r := s.ctx.strm st
  if count = 0 then s.issuedAt st (BitVec.ofNat 64 (r.pc.toNat + 4 + 4 * len)) r.loops false
  else s.issuedAt st (r.pc + 4) ({ id := id, count := count, stages := stages, body := r.pc + 4, len := len, iter := 0 } :: r.loops) true

/-! ### V words (R351 to R356) -/

/-- The queues of a V word serve it (R153, R354): its format is accepted, V consumes every source and produces every destination, the
sources hold what it reads, and the destinations have room; es are the entries read, t the state with the pops made and the places
taken. -/
def served (s : State) (w : VForm) (es : List QEntry) (t : State) : Prop :=
  w.accept s.ctx.shape.fmt = true ∧ boundV s.ctx s.cycle w.srcs w.dsts = true ∧ srcFail s.ctx s.cycle w.srcs w.srcs = none ∧
  es = readSrcs s.ctx s.cycle w.srcs [] ∧
  ∃ c, takeRoom (popSrcs s.ctx s.cycle w.srcs) s.cycle w.dsts s.serial = .ok c ∧
    t = { s with ctx := c, serial := s.serial + w.dsts.length }

/-- A V word in flight that pushes r into each destination; its stream goes on (R354). -/
def pushesAll (s t : State) (w : VForm) (r : QEntry) (fl : BitVec 8) : State :=
  State.issuedIn { t with
    serial := t.serial + 1
    ctx := { t.ctx with vpend := t.ctx.vpend ++ [{
      serial := t.serial, due := t.cycle + w.lat, pushes := w.dsts.mapIdx (fun i q => (q, s.serial + i, r)), flags := fl
      sync := w.sync, cells := [], postC := false, last := false }] } } .v

/-- A V word in flight that pushes nothing and writes these cells; its stream goes on. -/
def pushesNone (t : State) (due : Nat) (sync : Fin 8) (fl : BitVec 8) (cells : List (Nat × Half)) : State :=
  State.issuedIn { t with
    serial := t.serial + 1
    ctx := { t.ctx with vpend := t.ctx.vpend ++ [{
      serial := t.serial, due := due, pushes := [], flags := fl, sync := sync, cells := cells, postC := false, last := false }] } } .v

/-- An entry whose lanes of the shape's width are f in the enabled lanes and zero in the others, with the flags of the enabled ones
(R353, R356). -/
def lanesAre (sh : VShape) (m : BitVec 256) (f : Nat → Nat × BitVec 8) (r : QEntry) (fl : BitVec 8) : Prop :=
  (∀ i, i < 2048 / sh.w → laneOf r sh.w i =
    if i < sh.lanes ∧ m.getLsbD i = true then (f i).1 % 2 ^ sh.w else 0) ∧
  fl = ((List.range (2048 / sh.w)).map (fun i => if i < sh.lanes ∧ m.getLsbD i = true then (f i).2 else 0)).foldl (fun a b => a ||| b) 0

/-- The two-queue form. -/
def two (o : Op.Vv) (accept : Nat → Bool) (lat : Nat) : VForm :=
  { sync := o.sync, srcs := [⟨o.qa, o.pka⟩, ⟨o.qb, o.pkb⟩], dsts := [o.qd], accept := accept, lat := lat }

/-- The one-queue form. -/
def one (sync : Fin 8) (qa : Fin 16) (pka : Bool) (qd : Fin 16) (accept : Nat → Bool) (lat : Nat) : VForm :=
  { sync := sync, srcs := [⟨qa, pka⟩], dsts := [qd], accept := accept, lat := lat }

/-- The form with the addend popped from qd besides (R358). -/
def plusAddend (w : VForm) (qd : Fin 16) : VForm := { w with srcs := w.srcs ++ [⟨qd, false⟩] }

/-- The exact value of a floating lane. -/
def fval (sh : VShape) (a : Nat) : Val := sh.fp.decode a

/-- An exact value rounded once into the lane format, by VSHAPE's mode and saturation (R224, R356). -/
def rounded (sh : VShape) (v : Val) : Nat × BitVec 8 := roundTo sh.fp sh.rm sh.sat v

/-- The sign of a zero sum: negative under RDN (R224). -/
def zeroNeg (sh : VShape) : Bool := decide (sh.rm = .rdn)

/-- The lesser or greater of two floating lanes (R357): the one NaN yields to the other, with NV; -0 is below +0. -/
def lesser (sh : VShape) (a b : Nat) : Nat × BitVec 8 :=
  if (fval sh a).isNan = true ∧ (fval sh b).isNan = true then (sh.fp.nanBits, flNV)
  else if (fval sh a).isNan = true then (b, flNV)
  else if (fval sh b).isNan = true then (a, flNV)
  else (if (fval sh a).lt (fval sh b) = true ∨ ((fval sh a).eqv (fval sh b) = true ∧ (fval sh a).sign = true ∧ (fval sh b).sign = false)
    then a else b, 0)

/-- The greater of two floating lanes. -/
def greater (sh : VShape) (a b : Nat) : Nat × BitVec 8 :=
  if (fval sh a).isNan = true ∧ (fval sh b).isNan = true then (sh.fp.nanBits, flNV)
  else if (fval sh a).isNan = true then (b, flNV)
  else if (fval sh b).isNan = true then (a, flNV)
  else (if (fval sh a).lt (fval sh b) = true ∨ ((fval sh a).eqv (fval sh b) = true ∧ (fval sh a).sign = true ∧ (fval sh b).sign = false)
    then b else a, 0)

/-- An integer as a lane, without flags (R361). -/
def wraps (sh : VShape) (i : Int) : Nat × BitVec 8 := ((i % (2 ^ sh.w : Nat)).toNat, 0)

/-- A lane as a signed integer of the lane's width. -/
def slane (sh : VShape) (a : Nat) : Int := sgn sh.w a

/-- A lane as VIMIN and VIMAX read it: signed in INT8, INT16 and INT32 (R361). -/
def ilane (sh : VShape) (a : Nat) : Int := if signedFmt sh.fmt then sgn sh.w a else (a : Int)

/-- The V words that compute each enabled lane by itself and push the entry (R357 to R362, R366, R371, R373): form, mask, lane i from the
entries read. -/
def laneWord (c : Context) : Instr → Option (VForm × BitVec 256 × (VShape → (Nat → Nat → Nat) → Nat → Nat × BitVec 8))
  | .vadd o => some (two o floatFmt 3, c.getM o.m, fun sh l i => rounded sh ((fval sh (l 0 i)).add (zeroNeg sh) (fval sh (l 1 i))))
  | .vsub o => some (two o floatFmt 3, c.getM o.m, fun sh l i => rounded sh ((fval sh (l 0 i)).add (zeroNeg sh) (fval sh (l 1 i)).negate))
  | .vmul o => some (two o floatFmt 4, c.getM o.m, fun sh l i => rounded sh ((fval sh (l 0 i)).mul (fval sh (l 1 i))))
  | .vfma o => some (plusAddend (two o floatFmt 4) o.qd, c.getM o.m, fun sh l i =>
      rounded sh (((fval sh (l 0 i)).mul (fval sh (l 1 i))).add (zeroNeg sh) (fval sh (l 2 i))))
  | .vmin o => some (two o floatFmt 3, c.getM o.m, fun sh l i => lesser sh (l 0 i) (l 1 i))
  | .vmax o => some (two o floatFmt 3, c.getM o.m, fun sh l i => greater sh (l 0 i) (l 1 i))
  | .vabs o => some (one o.sync o.qa o.pka o.qd floatFmt 3, c.getM o.m, fun sh l i =>
      if (fval sh (l 0 i)).isNan = true then (sh.fp.nanBits, flNV) else (l 0 i % 2 ^ (sh.w - 1), 0))
  | .vneg o => some (one o.sync o.qa o.pka o.qd floatFmt 3, c.getM o.m, fun sh l i =>
      if (fval sh (l 0 i)).isNan = true then (sh.fp.nanBits, flNV) else (l 0 i ^^^ 2 ^ (sh.w - 1), 0))
  | .vrcp o => some (one o.sync o.qa o.pka o.qd onlyFp32 12, c.getM o.m, fun _ l i => rcp32 (l 0 i))
  | .vrsq o => some (one o.sync o.qa o.pka o.qd onlyFp32 12, c.getM o.m, fun _ l i => rsq32 (l 0 i))
  | .vexp2 o => some (one o.sync o.qa o.pka o.qd onlyFp32 12, c.getM o.m, fun _ l i => exp232 (l 0 i))
  | .vlog2 o => some (one o.sync o.qa o.pka o.qd onlyFp32 12, c.getM o.m, fun _ l i => log232 (l 0 i))
  | .vadds o => some (one o.sync o.qa o.pka o.qd floatFmt 3, c.getM o.m, fun sh l i =>
      rounded sh ((fval sh (l 0 i)).add (zeroNeg sh) (fval sh (sv c o.sr sh))))
  | .vsubs o => some (one o.sync o.qa o.pka o.qd floatFmt 3, c.getM o.m, fun sh l i =>
      rounded sh ((fval sh (l 0 i)).add (zeroNeg sh) (fval sh (sv c o.sr sh)).negate))
  | .vmuls o => some (one o.sync o.qa o.pka o.qd floatFmt 4, c.getM o.m, fun sh l i =>
      rounded sh ((fval sh (l 0 i)).mul (fval sh (sv c o.sr sh))))
  | .vfmas o => some (plusAddend (one o.sync o.qa o.pka o.qd floatFmt 4) o.qd, c.getM o.m, fun sh l i =>
      rounded sh (((fval sh (l 0 i)).mul (fval sh (sv c o.sr sh))).add (zeroNeg sh) (fval sh (l 1 i))))
  | .vmins o => some (one o.sync o.qa o.pka o.qd floatFmt 3, c.getM o.m, fun sh l i => lesser sh (l 0 i) (sv c o.sr sh))
  | .vmaxs o => some (one o.sync o.qa o.pka o.qd floatFmt 3, c.getM o.m, fun sh l i => greater sh (l 0 i) (sv c o.sr sh))
  | .viadd o => some (two o heldFmt 2, c.getM o.m, fun sh l i => wraps sh ((l 0 i : Int) + l 1 i))
  | .visub o => some (two o heldFmt 2, c.getM o.m, fun sh l i => wraps sh ((l 0 i : Int) - l 1 i))
  | .vimul o => some (two o heldFmt 4, c.getM o.m, fun sh l i => wraps sh ((l 0 i : Int) * l 1 i))
  | .vand o => some (two o heldFmt 2, c.getM o.m, fun _ l i => (l 0 i &&& l 1 i, 0))
  | .vor o => some (two o heldFmt 2, c.getM o.m, fun _ l i => (l 0 i ||| l 1 i, 0))
  | .vxor o => some (two o heldFmt 2, c.getM o.m, fun _ l i => (l 0 i ^^^ l 1 i, 0))
  | .vshl o => some (two o heldFmt 2, c.getM o.m, fun sh l i => wraps sh ((l 0 i * 2 ^ (l 1 i % sh.w) : Nat)))
  | .vshr o => some (two o heldFmt 2, c.getM o.m, fun sh l i => wraps sh ((l 0 i / 2 ^ (l 1 i % sh.w) : Nat)))
  | .vsra o => some (two o heldFmt 2, c.getM o.m, fun sh l i => wraps sh (slane sh (l 0 i) / (2 ^ (l 1 i % sh.w) : Nat)))
  | .vimin o => some (two o heldFmt 2, c.getM o.m, fun sh l i => (if ilane sh (l 0 i) ≤ ilane sh (l 1 i) then l 0 i else l 1 i, 0))
  | .vimax o => some (two o heldFmt 2, c.getM o.m, fun sh l i => (if ilane sh (l 1 i) ≤ ilane sh (l 0 i) then l 0 i else l 1 i, 0))
  | .viaddi o => some (one o.sync o.qa o.pka o.qd heldFmt 2, c.getM o.m, fun sh l i => wraps sh ((l 0 i : Int) + o.imm.toInt))
  | .vbcasti o => some ({ sync := o.sync, srcs := [], dsts := [o.qd], accept := heldFmt, lat := 2 }, c.getM o.m, fun sh _ _ =>
      encodeElem sh.fmt sh.rm sh.sat (.ofInt o.imm.toInt))
  | .vmov o => some (one o.sync o.qa o.pka o.qd heldFmt 1, c.getM o.m, fun _ l i => (l 0 i, 0))
  | .vdup o => some ({ one o.sync o.qa o.pka o.qd heldFmt 1 with dsts := [o.qd, o.qd] }, c.getM o.m, fun _ l i => (l 0 i, 0))
  | .vsel o => some (two o heldFmt 2, BitVec.allOnes 256, fun _ l i => (if (c.getM o.m).getLsbD i then l 0 i else l 1 i, 0))
  | .vpack o => some (two o heldFmt 3, c.getM o.m, fun sh l i =>
      (let h := 2048 / sh.w / 2; if i < h then l 0 i else l 1 (i - h), 0))
  | .vunpk o => some (two o heldFmt 3, c.getM o.m, fun sh l i =>
      (let h := 2048 / sh.w / 2; if i < h then l 0 (h + i) else l 1 i, 0))
  | .vperm o => some (two o heldFmt 4, c.getM o.m, fun sh l i => (l 0 (l 1 i % (2048 / sh.w)), 0))
  | .vbcast o => some ({ sync := o.sync, srcs := [], dsts := [o.qd], accept := heldFmt, lat := 2 }, c.getM o.m, fun sh _ _ => (sv c o.sr sh, 0))
  | .vrot o => some (one o.sync o.qa o.pka o.qd heldFmt 3, c.getM o.m, fun sh l i =>
      (l 0 (((i : Int) + o.imm.toInt) % (2048 / sh.w : Nat)).toNat, 0))
  | _ => none
where
  sv (c : Context) (r : Fin 16) (sh : VShape) : Nat := (c.s[r]).toNat % 2 ^ sh.w

/-- The lanes of an entry that a VCVT gives (R369): the enabled lanes below both counts converted, in the width of the word's format. -/
def convertsTo (sh : VShape) (m : BitVec 256) (fmt : Nat) (rm : RMode) (sat : Bool) (e r : QEntry) (fl : BitVec 8) : Prop :=
  let wd := fmtBits fmt
  let on := fun i => i < sh.lanes ∧ i < 2048 / sh.w ∧ m.getLsbD i = true
  let lane := fun i => convertElem sh.fmt fmt rm sat (laneOf e sh.w i)
  (∀ i, i < 2048 / wd → laneOf r wd i = if on i then (lane i).1 % 2 ^ wd else 0) ∧
  fl = ((List.range (2048 / wd)).map (fun i => if on i then (lane i).2 else 0)).foldl (fun a b => a ||| b) 0

/-- The lanes that a reduction reads, rising (R372). -/
def reduced (sh : VShape) (m : BitVec 256) (e : QEntry) : List Nat :=
  ((List.range (2048 / sh.w)).filter (fun i => decide (i < sh.lanes) && m.getLsbD i)).map (fun i => laneOf e sh.w i)

/-- The conditions of VCMP on two lanes (R363): not for a NaN, but for NE. -/
def comparesAs (i : Instr) (less same nan : Bool) : Bool :=
  match i with
  | .vcmpEq _ => same && !nan
  | .vcmpNe _ => !same || nan
  | .vcmpLt _ => less && !nan
  | .vcmpLe _ => (less || same) && !nan
  | .vcmpGt _ => !less && !same && !nan
  | .vcmpGe _ => !less && !nan
  | _ => false

/-- The operands of a VCMP word, and whether a NaN sets NV (R363). -/
def vcmpOf : Instr → Option (Op.Vc × Bool)
  | .vcmpEq o => some (o, false)
  | .vcmpNe o => some (o, false)
  | .vcmpLt o => some (o, true)
  | .vcmpLe o => some (o, true)
  | .vcmpGt o => some (o, true)
  | .vcmpGe o => some (o, true)
  | _ => none

/-- VCMP of two lanes: does it hold, and its flags. -/
def compares (i : Instr) (o : Op.Vc) (nv : Bool) (sh : VShape) (a b : Nat) : Bool × BitVec 8 :=
  if o.int then
    let x : Int := if o.uns then a else sgn sh.w a
    let y : Int := if o.uns then b else sgn sh.w b
    (comparesAs i (decide (x < y)) (decide (x = y)) false, 0)
  else
    let nan := (fval sh a).isNan || (fval sh b).isNan
    (comparesAs i ((fval sh a).lt (fval sh b)) ((fval sh a).eqv (fval sh b)) nan, if nv && nan then flNV else 0)

end Sys2Proof.Claims
end

