-- ==== Sys2Proof/Safety/Agents.lean ====
section
/-! DEFINITION. The terms of the statements about the machine's own agents: repairs, peers, completion counters, loaded turns. -/

namespace Sys2Proof.Claims

open Sys2Proof.Machine

/-! ### Repairs (R21) -/

/-- A repair has ended, and the first waiting one of its kind has started; no other repair is different. -/
def repairEnds (s t : State) (r : Repair) : Prop :=
  t.repairing = s.repairing.erase r ++ (s.repairs.find? (sameKind r)).toList ∧
  t.repairs = (match s.repairs.find? (sameKind r) with | some n => s.repairs.erase n | none => s.repairs)

/-! ### Requests of peers (R41) -/

/-- What a peer's request that is granted makes of memory at its key, and the data of its response. -/
def peerEffect (m : Memory) (key : Nat) : PeerOp → Memory × List (BitVec 8)
  | .read _ n => (m, m.readBytes key n)
  | .write _ d => (m.writeBytes key d, [])
  | .sacc _ fn fmt v =>
    (m.writeBytes key (leBytes 4 (saccMerge fn (decide (fmt ≠ fmtFp32)) (leNat (m.readBytes key 4)) [v.toNat % 2 ^ 32])), [])
  | .scas _ wide cmp new =>
    let n := if wide then 8 else 4
    let old := leNat (m.readBytes key n)
    (if old = cmp.toNat % 256 ^ n then m.writeBytes key (leBytes n new.toNat) else m, leBytes n old)
  | .inval _ => (m, [])

/-- Does a request read its bytes, so that a word in error among them refuses it (R191). -/
def peerBad (s : State) (key : Nat) : PeerOp → Bool
  | .read _ n => s.readBad key n
  | .write _ d => s.writeBad key d.length
  | .sacc .. => s.readBad key 4
  | .scas _ wide _ _ => s.readBad key (if wide then 8 else 4)
  | .inval _ => false

/-! ### Completion counters (R64) -/

/-- The state in which the counter word at an address has been changed by an atomic at its home: it finds what every write that came before
leaves, corrects the single-bit errors it meets, and its eight bytes are written like any other write (R64, R137, R143, R189). A counter that
no atomic reaches, or that is in error, keeps its word. -/
def counted (s : State) (a : Word) (f : Nat → Nat) : State :=
  match s.placeNow .atomic a.toNat 8 with
  | .ok p =>
    if s.readBad p.key 8 then s
    else (s.correct p.key 8).hwWrite p (leBytes 8 (f (leNat (s.homeBytes p.key 8)))) none
  | .error _ => s

/-! ### Turns that are loaded into a context (R76, R84, R89, R152) -/

/-- The context that has been dispatched a turn whose record holds these eight words: entry, stack, arguments, budget, deadline; every
other register of a program is at its reset value, and the debug and trace registers stand. -/
def dispatchedTo (c d : Context) (u : Turn) (ws : List Nat) (strict : Bool) (first : Nat) : Prop :=
  d.turn = some { u with join := BitVec.ofNat 64 (ws.getD 2 0) } ∧ d.strict = strict ∧
  d.cs.run = true ∧ d.cs.pc = BitVec.ofNat 64 (ws.getD 0 0) ∧ d.cs.readyAt = first ∧
  d.ts.run = false ∧ d.ms.run = false ∧ d.vs.run = false ∧
  d.x[31] = BitVec.ofNat 64 (ws.getD 1 0) ∧
  d.x[1] = BitVec.ofNat 64 (ws.getD 6 0 % 2 ^ 32) ∧ d.x[2] = BitVec.ofNat 64 (ws.getD 6 0 / 2 ^ 32 % 2 ^ 32) ∧
  d.x[3] = BitVec.ofNat 64 (ws.getD 7 0 % 2 ^ 32) ∧ d.x[4] = BitVec.ofNat 64 (ws.getD 7 0 / 2 ^ 32 % 2 ^ 32) ∧
  (∀ r : Fin 32, r = 0 ∨ (5 ≤ r.val ∧ r.val < 31) → d.x[r] = 0) ∧
  (∀ r : Fin 16, d.a[r] = 0 ∧ d.s[r] = 0 ∧ d.h[r] = 0) ∧ (∀ r : Fin 8, d.p[r] = false ∧ d.b[r].val = 0 ∧ d.m[r] = 0 ∧ d.tok[r] = none) ∧
  (∀ q : Fin 16, d.q[q] = Queue.empty) ∧ (∀ k : Fin 12, d.chans[k] = []) ∧ d.acc = [] ∧ d.fflags = 0 ∧ d.pl = false ∧ d.tip = false ∧
  d.vshape = (if strict then 0x20401 else 0x401) ∧ d.limit = BitVec.ofNat 32 (ws.getD 4 0) ∧ d.net = 0 ∧ d.deadline = u.deadline ∧
  d.dbgctl = c.dbgctl ∧ d.trctl = c.trctl ∧ d.bpa = c.bpa ∧ d.bpi = c.bpi

/-- A turn e that waits in a heap has been loaded into context cx of a site, which first issues in a cycle: from its record when it has not
run before, else as it was saved. No byte of memory is different. -/
def loaded (s t : State) (site : Nat) (cx : Bool) (e : HeapEnt) (u : Turn) (extra : Nat) : Prop :=
  let v := s.focus site cx
  v.ctrHas u.launch 40 = false →
  t.site = site ∧ t.cx = cx ∧
  (∀ c, e.saved = some c → t.mem = s.mem ∧ t.ctx.x = c.x ∧ t.ctx.p = c.p ∧ t.ctx.cs.pc = c.cs.pc ∧ t.ctx.turn = some u ∧
    t.ctx.cs.readyAt = c.cs.readyAt + extra) ∧
  (∀ ws, e.saved = none → v.readDwords u.record.toNat 8 = .ok ws → v.ctx.trctl.toNat / 2 ^ 19 % 2 = 0 → v.ctx.dbgctl.getLsbD 3 = false →
    t.mem = s.mem ∧
    dispatchedTo v.ctx t.ctx u ws (match v.part.jobs[u.job]? with | some j => j.strict | none => false) (s.cycle + 64 + extra))

/-! ### Results that land (R157, R316, R317) -/

/-- A result has landed in its register, and the context is otherwise as it was: a write to x0, p0, a0 or m0 is discarded. -/
def landedIn (c d : Context) (l : Landing) : Prop :=
  match l.dst with
  | .x r => d = { c with x := d.x } ∧ ∀ i : Fin 32, d.x[i] = if i = r ∧ r ≠ 0 then l.val.setWidth 64 else c.x[i]
  | .p r => d = { c with p := d.p } ∧ ∀ i : Fin 8, d.p[i] = if i = r ∧ r ≠ 0 then decide (l.val ≠ 0) else c.p[i]
  | .preds => d = { c with p := d.p } ∧ ∀ i : Fin 8, d.p[i] = if i ≠ 0 then l.val.getLsbD i.val else c.p[i]
  | .b r byPbr start => d = { c with b := d.b } ∧ ∀ i : Fin 8, d.b[i] =
      if i = r then { val := l.val.setWidth 64, ready := if byPbr then some (start + 6) else none, byPbr := byPbr } else c.b[i]
  | .a r => d = { c with a := d.a } ∧ ∀ i : Fin 16, d.a[i] = if i = r ∧ r ≠ 0 then l.val.setWidth 64 else c.a[i]
  | .s r => d = { c with s := d.s } ∧ ∀ i : Fin 16, d.s[i] = if i = r then l.val.setWidth 32 else c.s[i]
  | .m r => d = { c with m := d.m } ∧ ∀ i : Fin 8, d.m[i] = if i = r ∧ r ≠ 0 then l.val else c.m[i]
  | .mb r => d = { c with mb := d.mb } ∧ ∀ i : Fin 4, d.mb[i] = if i = r then l.val.setWidth 64 else c.mb[i]
  | .nest lv f => d = { c with nest := d.nest } ∧ ∀ i : Fin 6, d.nest[i] =
      if i = lv then
        { trip := if f = 0 then l.val.setWidth 17 else c.nest[i].trip, as_ := if f = 1 then l.val.setWidth 17 else c.nest[i].as_
          bs := if f = 2 then l.val.setWidth 17 else c.nest[i].bs, cs := if f = 3 then l.val.setWidth 17 else c.nest[i].cs }
      else c.nest[i]
  | .mfmt isB => d = { c with mfmt := d.mfmt } ∧ d.mfmt.toNat =
      if isB then c.mfmt.toNat % 16 + 16 * (l.val.toNat % 16) else c.mfmt.toNat / 16 * 16 + l.val.toNat % 16
  | .vshape lanesOnly => d = { c with vshape := d.vshape } ∧ d.vshape.toNat =
      if lanesOnly then c.vshape.toNat / 2 ^ 13 * 2 ^ 13 + l.val.toNat % 2 ^ 9 * 16 + c.vshape.toNat % 16 else l.val.toNat % 2 ^ 32
  | .ctl _ => True

/-- A ring register as a write leaves it: HEAD stands, BASE is written, SIZE is capped, bits [5:4] are 0 (R206, R209, R210). -/
def ringWritten (old new v : Word) (cap : Nat) : Prop :=
  new.toNat = old.toNat / 2 ^ 52 * 2 ^ 52 + v.toNat % 2 ^ 52 / 64 * 64 + min (v.toNat % 16) cap

/-- A control register of the context after a CRW of v has landed, and nothing else is different (R317): reserved bits read as 0. -/
def ctlLanded (s t : State) (reg : Nat) (v : Word) : Prop :=
  let c := s.ctx
  let d := t.ctx
  (reg = 0x000 → t = { s with ctx := { c with ppl := decide (v.toNat / 2 % 2 = 1) } }) ∧
  (reg = 0x002 → t = { s with ctx := { c with epc := BitVec.ofNat 64 (v.toNat % 2 ^ 52 / 4 * 4) } }) ∧
  (reg = 0x003 → t = { s with part := { s.part with tvec := BitVec.ofNat 64 (v.toNat % 2 ^ 52 / 64 * 64) } }) ∧
  (reg = 0x004 → t = { s with ctx := { c with limit := BitVec.ofNat 32 v.toNat } }) ∧
  (reg = 0x005 → t = { s with ctx := { c with deadline := v } }) ∧
  (reg = 0x014 → t = { s with ctx := { c with strict := decide (v.toNat % 2 = 1) } }) ∧
  (reg = 0x016 → t = { s with part := { s.part with invaddr := BitVec.ofNat 64 (v.toNat % 2 ^ 52 / 2 ^ 16 * 2 ^ 16) } }) ∧
  (reg = 0x018 → t = { s with part := { s.part with
    flog := BitVec.ofNat 64 (v.toNat % 2 ^ 52 / 64 * 64 + min (v.toNat % 16) 10) } }) ∧
  (reg = 0x019 → t = { s with part := { s.part with floge := t.part.floge } } ∧ ∀ i, i < 64 → t.part.floge.getLsbD i =
    if i < 17 then v.getLsbD i else if i < 48 then s.part.floge.getLsbD i else s.part.floge.getLsbD i && !v.getLsbD i) ∧
  (reg = 0x020 → t = { s with ctx := { c with dbgctl := BitVec.ofNat 4 v.toNat } }) ∧
  (reg = 0x021 → t = { s with ctx := { c with trctl := BitVec.ofNat 20 v.toNat } }) ∧
  (reg = 0x01A → t = { s with ctx := { c with faddr := BitVec.ofNat 64 (v.toNat % 2 ^ 52) } }) ∧
  (reg = 0x01B → t = { s with ctx := { c with fpc := BitVec.ofNat 64 (v.toNat % 2 ^ 52) } }) ∧
  (reg = 0x01C → t = { s with ctx := { c with fpc2 := BitVec.ofNat 64 (v.toNat % 2 ^ 52) } }) ∧
  (reg = 0x01D → t = { s with ctx := { c with frec := v } }) ∧
  (reg = 0x01E → t = { s with ctx := { c with sscr := v } }) ∧
  (reg = 0x022 → t = { s with ctx := { c with trbase := d.trbase } } ∧ ringWritten c.trbase d.trbase v 6) ∧
  (reg = 0x023 → t = { s with ctx := { c with bdring := d.bdring } } ∧ ringWritten c.bdring d.bdring v 8) ∧
  (reg = 0x024 → t = { s with ctx := { c with rplog := d.rplog, replayFull := false } } ∧ ringWritten c.rplog d.rplog v 4) ∧
  (reg = 0x026 → t = { s with ctx := { c with fflags := d.fflags } } ∧
    ∀ i, i < 8 → d.fflags.getLsbD i = (c.fflags.getLsbD i && !v.getLsbD i)) ∧
  (∀ k : Fin 4, reg = 0x028 + k.val → t = { s with ctx := { c with bpa := d.bpa } } ∧
    ∀ i : Fin 4, d.bpa[i] = if i = k then BitVec.ofNat 64 (v.toNat / 2 ^ 63 * 2 ^ 63 + v.toNat % 2 ^ 52) else c.bpa[i]) ∧
  (∀ k : Fin 4, reg = 0x02C + k.val → t = { s with ctx := { c with bpi := d.bpi } } ∧
    ∀ i : Fin 4, d.bpi[i] = if i = k then BitVec.ofNat 64 (v.toNat % 2 ^ 41) else c.bpi[i])

/-! ### T words that commit (R322, R323, R326, R331, R332) -/

/-- What the entries of a queue are when those of some places have landed; one that had landed stands. -/
def landedAt (es : List QEnt) (at_ : Nat → Option QEntry) : List QEnt :=
  es.map (fun e => match at_ e.serial with | some v => { e with data := some (e.data.getD v) } | none => e)

/-- Only queue q differs: its entry of this place has landed. -/
def oneLands (c d : Context) (q : Fin 16) (serial : Nat) (v : QEntry) : Prop :=
  ∀ i : Fin 16, d.q[i] = if i = q then { c.q[i] with ents := landedAt c.q[i].ents (fun n => if n = serial then some v else none) }
    else c.q[i]

/-- The elements of a scatter-accumulate's window changed once each, in the order of their first lanes (R236, R331). -/
def accumulated (m : Memory) (fn : Nat) (ls : List (Nat × Place)) (es : List (Nat × Nat)) : Memory :=
  ((es.map (fun e => e.1)).eraseDups).foldl (fun (m : Memory) (a : Nat) =>
    match placeIn ls a with
    | none => m
    | some p =>
      let int := match p.leaf with | none => false | some l => decide (l.fmt = fmtInt32 ∨ l.fmt = fmtRaw)
      m.writeBytes p.key (leBytes 4 (saccMerge fn int (leNat (m.readBytes p.key 4)) ((es.filter (fun e => decide (e.1 = a))).map (fun e => e.2))))) m

/-- Bytes have been stored at the places of their addresses, and no byte elsewhere is different. -/
def storesExactly (m m' : Memory) (ls : List (Nat × Place)) (bs : List (Nat × Nat)) : Prop :=
  let at_ := fun (k v : Nat) => ∃ x ∈ bs, ∃ p, placeIn ls x.1 = some p ∧ p.key = k ∧ x.2 = v
  (∀ k, (∀ v, ¬ at_ k v) → m'.read k = m.read k) ∧
  (∀ k v, at_ k v → (∀ w, at_ k w → w = v) → m'.read k = BitVec.ofNat 8 v)

/-- What the head of the window does as it commits: where its writes have been made at their homes before, memory stands. -/
def committed (u t : State) (e : TEntry) : Prop :=
  match e.op with
  | .ldq q b ly ls =>
    let r := u.loadLanes { path := 1, serial := e.serial } (queueWalk ly b ls) ls (2048 / fmtBits ly.lfmt.toNat)
    oneLands u.ctx t.ctx q e.serial (entryOf (fmtBits ly.lfmt.toNat) r.1) ∧ t.ctx.fflags = u.ctx.fflags ||| r.2 ∧ t.mem = u.mem
  | .stq en b ly ls =>
    let r := storeLanes (queueWalk ly b ls) ls (lanesOf ly.lfmt.toNat en)
    t.ctx.fflags = u.ctx.fflags ||| r.2 ∧ t.ctx.q = u.ctx.q ∧ (e.done.isSome = true → t.mem = u.mem) ∧
    (e.done = none → u.mem.wf = true → storesExactly u.mem t.mem ls r.1)
  | .sacc fn ix vl b ls =>
    t.ctx.q = u.ctx.q ∧ t.ctx.fflags = u.ctx.fflags ∧ (e.done.isSome = true → t.mem = u.mem) ∧
    (e.done = none → t.mem = accumulated (accumulated u.mem fn ls (saccLanes b.toNat ix vl 0)) fn ls (saccLanes b.toNat ix vl 32))
  | .scas en a wide qd ls =>
    let n := if wide then 8 else 4
    let hit := fun (old : Nat) => old = laneOf en 64 0 % 256 ^ n
    let lands := fun (old : Nat) => t.ctx.fflags = u.ctx.fflags ∧
      oneLands u.ctx t.ctx qd e.serial (entryOf 64 [old, (if old = laneOf en 64 0 % 256 ^ n then 1 else 0)])
    u.ctx.trctl.toNat / 2 ^ 19 % 2 = 0 → u.ctx.logHeld = [] →
      (∀ old, e.done = some old → t.mem = u.mem ∧ lands old) ∧
      (e.done = none → ∀ p, placeIn ls a.toNat = some p →
        let old := leNat (u.mem.readBytes p.key n)
        (hit old → t.mem = u.mem.writeBytes p.key (leBytes n (laneOf en 64 1))) ∧ (¬hit old → t.mem = u.mem) ∧ lands old)
  | .push q en _ => oneLands u.ctx t.ctx q e.serial en ∧ t.mem = u.mem ∧ t.ctx.fflags = u.ctx.fflags
  | _ => t.mem = u.mem ∧ t.ctx.q = u.ctx.q ∧ t.ctx.fflags = u.ctx.fflags

/-- The pending trap of a T word whose access has failed after its issue (R139, R323). -/
def lateTrap (e : TEntry) (cause : Cause) (va : Nat) : PendTrap :=
  { rank := 2, order := 1, cause := cause, st := .t, pawn := none, tok := none, async_ := true, st2 := .c
    faddr := BitVec.ofNat 64 (va % 2 ^ 52), fpc := e.pc, fpc2 := 0, frec := faultRecord cause 0 (va % 2 ^ 52) }

/-! ### Steps of pawns (R168, R170, R325, R328 to R330, R342) -/

/-- The piece that the next step of a copying pawn moves, if it is one within a line: source, destination, bytes, the position after it, and
whether it is the last. A gather moves a row in a step; only rows of a line or less are meant here. -/
def pieceOf (p : Pawn) : Option (Nat × Nat × Nat × Nat × Bool) :=
  match p.job with
  | .copy src dst rows rowLen _ _ =>
    let n := min 64 (rowLen - p.pos % rowLen)
    if rows * rowLen ≤ p.pos then none
    else some (src.ly.rowByte src.base.toNat (p.pos / rowLen) (p.pos % rowLen), dst.ly.rowByte dst.base.toNat (p.pos / rowLen) (p.pos % rowLen),
      n, p.pos + n, decide (rows * rowLen ≤ p.pos + n))
  | .gath dst rowLen _ _ idx =>
    let j := nextRow idx p.pos
    if idx.length ≤ j ∨ rowLen = 0 ∨ 64 < rowLen then none
    else some ((idx.getD j 0).toNat, dst.ly.rowByte dst.base.toNat j 0, rowLen, j + 1, decide (idx.length ≤ nextRow idx (j + 1)))
  | .scat src rowLen _ _ idx =>
    let j := nextRow idx (p.pos / rowLen)
    let off := if p.pos / rowLen = j then p.pos % rowLen else 0
    let n := min 64 (rowLen - off)
    if rowLen = 0 ∨ idx.length ≤ j then none
    else some (src.ly.rowByte src.base.toNat j off, (idx.getD j 0).toNat + off, n, j * rowLen + off + n,
      decide ((j * rowLen + off + n) % rowLen = 0) && decide (idx.length ≤ nextRow idx ((j * rowLen + off + n) / rowLen)))
  | .rld src dst n _ => if n ≤ p.pos then none else some (src.toNat, dst.toNat, n, n, true)
  | .rst src dst n => if n ≤ p.pos then none else some (src.toNat, dst.toNat, n, n, true)
  | _ => none

/-- Do the pages of a piece keep the rules of R325 and R328: raw copies and the remote words meet none. -/
def piecePages (p : Pawn) (a b : Option Leaf) : Prop :=
  match p.job with
  | .copy src dst _ rowLen raw strict =>
    let n := min 64 (rowLen - p.pos % rowLen)
    raw = true ∨ (src.ok a (p.pos / rowLen) (p.pos % rowLen) n = true ∧ dst.ok b (p.pos / rowLen) (p.pos % rowLen) n = true ∧
      strictClash strict src.fmt dst.fmt = false)
  | .gath dst rowLen raw strict idx =>
    raw = true ∨ (dst.ok b (nextRow idx p.pos) 0 rowLen = true ∧ strictClash strict (pageFmt a) dst.fmt = false)
  | .scat src rowLen raw strict idx =>
    let j := nextRow idx (p.pos / rowLen)
    let off := if p.pos / rowLen = j then p.pos % rowLen else 0
    raw = true ∨ (src.ok a j off (min 64 (rowLen - off)) = true ∧ strictClash strict src.fmt (pageFmt b) = false)
  | _ => True

/-- The record of a pawn that has not faulted: cause 0 and its progress (R165). -/
def progressOnly (p : Pawn) : Word := BitVec.ofNat 64 (min p.progress (2 ^ 32 - 1) * 2 ^ 8)

/-- What a pawn still has to do when its steps are over: a remote load has returned its buffers (R30). -/
def stepsOver (j : PawnJob) : PawnJob :=
  match j with
  | .rld src dst n _ => .rld src dst n 0
  | j => j

/-- A pawn after a step: at a position, running, due again in a cycle, with the translations that it still keeps; after its last step it has
finished. -/
def stepped (p : Pawn) (tr : List Trans) (pos due : Nat) (last : Bool) : Pawn :=
  let q := { p with pos := pos, state := .running, due := due, tr := tr }
  if last then { q with fin := some .done, frec := progressOnly q, job := stepsOver p.job, tr := [] } else q

/-- The translations of a pawn but those of a line that it has moved, from one address to another. -/
def trWithout (p : Pawn) (src : Nat) (dst : Option Nat) : List Trans :=
  p.tr.filter (fun t => !(if t.writes then decide (some t.va = dst) else decide (t.va = src)))

/-- A pawn that a cancel has stopped (R170). -/
def cancelledAt (p : Pawn) : Pawn :=
  { p with fin := some .cancelled, frec := faultRecord .cancelled p.progress 0, suspended := false, tr := [], job := stepsOver p.job }

/-- A pawn that a fault has stopped (R140, R165): its record and its address. -/
def faultedAt (p : Pawn) (c : Cause) (va : Nat) : Pawn :=
  { p with fin := some .faulted, frec := faultRecord c p.progress va, faddr := BitVec.ofNat 64 (va % 2 ^ 52), tr := [], job := stepsOver p.job }

/-- Only one entry of the pawn table is different: it is p. -/
def onlyPawn (s t : State) (k : Fin 64) (p : Pawn) : Prop := t.pawn k = p ∧ ∀ j : Fin 64, j ≠ k → t.pawn j = s.pawn j

/-- Only one row of the accumulator is different. -/
def onlyRow (c d : Context) (row : Nat) (isInt : Bool) (v : List Half) : Prop :=
  ∀ r, d.accRow r = (if r = row then v else c.accRow r) ∧ d.rowIsInt r = if r = row then isInt else c.rowIsInt r

/-- What the end of a pawn gives back: its ranges, and its request slot and buffers, or its captured nest (R330, R341). -/
def givenBack (c d : Context) (p : Pawn) (now : Nat) : Prop :=
  d.ranges = c.ranges.filter (fun r => !decide (r.serial = p.serial)) ∧
  match p.job with
  | .rld _ _ _ bufs => d.captured = c.captured ∧ if bufs = 0 then d.rldSlots = c.rldSlots ∧ d.rldBufs = c.rldBufs
      else d.rldSlots = c.rldSlots.set (Fin.ofNat 8 (p.idx.headD 0)) (some (now + 1)) ∧ d.rldBufs = c.rldBufs + bufs
  | .rst _ _ _ => d.rldSlots = c.rldSlots.set (Fin.ofNat 8 (p.idx.headD 0)) (some (now + 1)) ∧ d.rldBufs = c.rldBufs + 1 ∧ d.captured = c.captured
  | .mgo .. => d.captured = c.captured - 1 ∧ d.rldSlots = c.rldSlots ∧ d.rldBufs = c.rldBufs
  | _ => d.rldSlots = c.rldSlots ∧ d.rldBufs = c.rldBufs ∧ d.captured = c.captured

/-- The anonymous aggregate after a pawn has ended in it (R167): it ORs the ends, and the earliest issued faulted one gives the record. -/
def aggregated (a b : Aggregate) (p : Pawn) (k : Fin 64) (fin : PawnState) : Prop :=
  b.ended = true ∧ b.cancelled = (a.cancelled || decide (fin = .cancelled)) ∧ b.faulted = (a.faulted || decide (fin = .faulted)) ∧
  (if fin = .faulted ∧ (a.faulted = false ∨ p.serial < a.serial)
    then b.frec = p.frec ∧ b.faddr = p.faddr ∧ b.slot = k.val ∧ b.serial = p.serial
    else b.frec = a.frec ∧ b.faddr = a.faddr ∧ b.slot = a.slot ∧ b.serial = a.serial)

/-- A row of the accumulator after a chunk, from the old row, a line of A and the lines of B (R231 to R233). -/
def chunkRow (isInt fresh : Bool) (old : List Half) (a : List Val) (bs : List (List Val)) : List Half :=
  List.zipWith (fun o b => accumulate isInt fresh o (chunkSum a b)) old bs

/-- The bytes of a panel of an MGO's step: those of a merged read, else those that its own reads bring. -/
def panelRead (v : State) (p : Pawn) (i : Nat) (q : Panel) : List (BitVec 8) :=
  if p.panels.getD i [] = [] then v.panelBytes p.serial q else p.panels.getD i []

/-- The lines of a panel of an MGO's step. -/
def panelRows (v : State) (p : Pawn) (i : Nat) (q : Panel) : List (List Val) := panelLines q.fmt 128 (panelRead v p i q)

/-! ### Traps that retire the turn (R181, R182) -/

/-- A report has been written to the fault log: its number is the next, and, where its four words can be written at HEAD, they stand there. -/
def reported (s t : State) (cause kind core record frec : Nat) : Prop :=
  t.part.logSeq = s.part.logSeq + 1 ∧
  ∀ m, ({ s with part := { s.part with logSeq := s.part.logSeq + 1 } }).writeWords
      (s.part.flog.toNat / 64 % 2 ^ 46 * 64 + 32 * (s.part.floge.toNat / 2 ^ 32 % 2 ^ 16))
      [(s.part.logSeq + 1).toNat + cause * 2 ^ 32 + kind * 2 ^ 40 + core % 65536 * 2 ^ 48, record, frec, s.dt] = .ok m →
    t.mem = m.mem

/-- The turn is to retire FAULTED, with a report of kind 5 that holds both causes, and no handler is entered (R181). -/
def retiresFaulted (s t : State) (first second : Nat) : Prop :=
  t.ctx.retire = some { faulted := true, cancelled := false } ∧ t.ctx.tip = s.ctx.tip ∧ t.ctx.pl = s.ctx.pl ∧ t.ctx.cs = s.ctx.cs ∧
  sameRegs s.ctx t.ctx ∧ sameTrapRegs s.ctx t.ctx ∧
  reported s t (if second = 0 then first else second) 5 ((s.logicalOf s.site).getD 0xFFFF)
    ((s.ctx.turn.map (fun u => u.record.toNat)).getD 0) (first + 256 * second)

/-! ### The debug window (R195 to R202) -/

/-- A site's status code has been set, and nothing else is different. -/
def codeIs (s t : State) (site : Nat) (code : Fin 8) : Prop :=
  t = { s with dbg := t.dbg } ∧ ∀ i : Fin 288, t.dbg[i] = if i.val = site then { s.dbg[i] with code := code } else s.dbg[i]

/-- The commands that need the context halted. -/
def needsHalt (site : Nat) (cx : Bool) : Instr → Prop
  | .dbgResume i b => i = site ∧ b = cx
  | .dbgStep i b _ => i = site ∧ b = cx
  | .dbgRead i b space => i = site ∧ b = cx ∧ space ≠ 12 ∧ space ≠ 13
  | .dbgWrite i b _ => i = site ∧ b = cx
  | .dbgDrop i b => i = site ∧ b = cx
  | _ => False

/-- The commands to a site. -/
def commands (site : Nat) (cx : Bool) : Instr → Prop
  | .dbgHalt i b => i = site ∧ b = cx
  | .dbgRead i b _ => i = site ∧ b = cx
  | .dbgBadcmd i => i = site
  | i => needsHalt site cx i

/-- The items of the register spaces and of the scratchpad share that READ moves (R197). -/
def debugItem (s : State) (space : Fin 16) (i : Nat) : Option Nat :=
  match space.val with
  | 0 => if h : i < 32 then some (s.ctx.getX ⟨i, h⟩).toNat else none
  | 1 => if h : i < 8 then some (s.ctx.getP ⟨i, h⟩).toNat else none
  | 2 => if h : i < 8 then some (s.ctx.b[i]).val.toNat else none
  | 3 => if h : i < 16 then some (s.ctx.getA ⟨i, h⟩).toNat else none
  | 4 => if h : i < 4 then some (s.ctx.mb[i]).toNat else none
  | 5 => if h : i < 16 then some (s.ctx.s[i]).toNat else none
  | 6 => if i < 32 then some ((s.ctx.getM (Fin.ofNat 8 (i / 4))).toNat / 2 ^ (64 * (i % 4)) % 2 ^ 64) else none
  | 7 => if h : i < 16 then some (s.ctx.getH ⟨i, h⟩).toNat else none
  | 10 => if i < 32768 ∧ s.tileBusy (i / 8192) = false then
      some (((s.ctx.accRow (i / 64)).getD (i % 64 * 2) 0).toNat + 2 ^ 32 * ((s.ctx.accRow (i / 64)).getD (i % 64 * 2 + 1) 0).toNat)
    else none
  | 15 => if 8 * i < s.shareSize ∧ ¬(s.part.single = true ∧ s.cx = true) then some (leNat (s.mem.readBytes (spKey s.site (shareBase s.cx + 8 * i)) 8)) else none
  | _ => none

end Sys2Proof.Claims
end

