-- ==== Sys2Proof/Certificates/Slice0/Obligations.lean ====
section
/-! DEFINITION. The statements for the provers. -/

open Sys2Proof Sys2Proof.Machine Sys2Proof.Claims

/-! ### Words of the C stream -/

/-- R276 to R278: a member of the ALU family, guard on, puts its exact result, in the width its word selects, in flight to x[rd] with
latency 1, 4 or 20, stands at the next word, and changes nothing else; a divide member besides takes the divider for its 20 cycles. -/
def Obligations.AluMembersLandTheirResults : Prop :=
  ∀ (i : Instr) (s : State),
    match aluMember i with
    | none => True
    | some (o, lat, f) =>
      s.ctx.getP o.g = true → mayLand s.ctx o.rd → (lat = 20 → s.ctx.divBusy ≤ s.cycle ∧ s.ctx.divideSaved = false) →
        let t := landsIn s lat (.x o.rd) ((inWidth o.w f (s.ctx.getX o.ra) (s.ctx.getX o.rb)).setWidth 256)
        exec i s = .next (if lat = 20 then { t with ctx := { t.ctx with divBusy := s.cycle + 20 } } else t)

/-- R276, R277, R279 to R281, R284, R285: CLZ, POPC, the immediate words, the shifts by an immediate, LUI, ADDPC, SEL and PTO put their
value in flight to x[rd] with latency 1, stand at the next word, and change nothing else. -/
def Obligations.ImmediateAndSelectWordsLandTheirValue : Prop :=
  ∀ (i : Instr) (s : State) (g : Fin 8) (rd : Fin 32) (v : Word), xWord s.ctx i = some (g, rd, v) →
    s.ctx.getP g = true → mayLand s.ctx rd → exec i s = .next (landsIn s 1 (.x rd) (v.setWidth 256))

/-- R282 to R284: the compares and the predicate words put 1 or 0 in flight to p[pd] with latency 1, PFROM all of p1 to p7; each stands at
the next word and changes nothing else. -/
def Obligations.CompareAndPredicateWordsLandTheirValue : Prop :=
  (∀ (i : Instr) (s : State) (g pd : Fin 8) (v : Bool), pWord s.ctx i = some (g, pd, v) →
    s.ctx.getP g = true → s.ctx.landingFull = false → exec i s = .next (landsIn s 1 (.p pd) (BitVec.ofNat 256 v.toNat))) ∧
  (∀ (o : Op.OneSrc) (s : State), s.ctx.getP o.g = true → s.ctx.landingFull = false →
    exec (.pfrom o) s = .next (landsIn s 1 .preds ((s.ctx.getX o.ra).setWidth 256)))

/-- R275: a word of the C stream whose guard is off issues in one cycle and changes nothing else: no register, predicate, token, byte of
memory or branch register. (What a stop had saved is in flight again, as at any issue, R159.) -/
def Obligations.GuardedOffWordOnlyIssues : Prop :=
  ∀ (i : Instr) (s : State) (g : Fin 8), guardOf i = some g → s.ctx.getP g = false → exec i s = .next (nextWord s)

/-- R157, R158: a word whose destination x[rd] a pending token owns waits at issue, and so does one that finds eight results in flight; a
waiting word changes nothing but its stream's wait. (That one which waits for results meanwhile has those of a landing buffer in flight
again is the model's own choice, log 15.) -/
def Obligations.ResultWordsWaitForTheirDestination : Prop :=
  ∀ (i : Instr) (s : State) (g : Fin 8) (rd : Fin 32) (v : Word), xWord s.ctx i = some (g, rd, v) → s.ctx.getP g = true →
    (s.ctx.ownedX rd = true → exec i s = .next (waitsOn s (.owned rd))) ∧
    (s.ctx.ownedX rd = false → s.ctx.landingFull = true → exec i s = .next (waitsOn (landingBack s) .landing))

/-- R286, R287, R320, R117: a load, a store or a TLRW whose guard is on, whose address is a multiple of its size, and whose token and
destination are free issues: the C stream stands at the next word, and the token holds the address and, for a store, the data read at issue,
and is due after the cycles of its access, at least 8; no register and no byte of memory changes at issue, and nothing else. Addresses of
byte words are all aligned. (The model's own readings are in log 4.) -/
def Obligations.MemoryWordsTakeTheirToken : Prop :=
  (∀ (o : Op.Mem) (s : State), s.ctx.getP o.g = true → mayTake s.ctx o.tok [o.rd] →
    let a := memAt s.ctx o.ra o.off
    let loads := fun (size : Nat) (signed : Bool) =>
      accessed s o.tok (.load size signed o.rd (a size)) (s.memLat .read (a size).toNat size) [o.rd]
    exec (.ldb o) s = .next (loads 1 true) ∧ exec (.ldbu o) s = .next (loads 1 false) ∧
    ((a 2).toNat % 2 = 0 → exec (.ldh o) s = .next (loads 2 true) ∧ exec (.ldhu o) s = .next (loads 2 false)) ∧
    ((a 4).toNat % 4 = 0 → exec (.ldw o) s = .next (loads 4 true) ∧ exec (.ldwu o) s = .next (loads 4 false)) ∧
    ((a 8).toNat % 8 = 0 → exec (.ldd o) s = .next (loads 8 false))) ∧
  (∀ (o : Op.Mem) (s : State), s.ctx.getP o.g = true → mayTake s.ctx o.tok [] →
    let a := memAt s.ctx o.ra o.off
    let stores := fun (size : Nat) =>
      accessed s o.tok (.store size (a size) (s.ctx.getX o.rd)) (s.memLat .write (a size).toNat size) []
    exec (.stb o) s = .next (stores 1) ∧
    ((a 2).toNat % 2 = 0 → exec (.sth o) s = .next (stores 2)) ∧
    ((a 4).toNat % 4 = 0 → exec (.stw o) s = .next (stores 4)) ∧
    ((a 8).toNat % 8 = 0 → exec (.std o) s = .next (stores 8))) ∧
  (∀ (o : Op.TokSrc2) (s : State), s.ctx.getP o.g = true → mayTake s.ctx o.tok [] → (s.ctx.getX o.rb).toNat % 32 = 0 →
    exec (.tlrw o) s = .next (accessed s o.tok (.tlrw (s.ctx.getX o.ra) (s.ctx.getX o.rb)) (s.memLat .read (s.ctx.getX o.rb).toNat 32) [])) ∧
  (∀ (s : State) (k : Acc) (a n : Nat), 8 ≤ s.memLat k a n ∧
    ∀ key, s.peek .c k a n = some key → s.memLat k a n = max 8 (s.latencyTo s.site key + 2))

/-- R154, R270, R273, R299, R303, R307 to R309, R316, R321: the words that only take their token (JOIN, BUDGET, CANCEL, the pawn words but
PCANCEL, CRR, TIME) leave the operation with its operands pending in the token and stand at the next word; nothing else changes at issue. A
QGET, QGETP or QPUT whose queue serves it does so as it issues, and its token settles 2 cycles later: the word of the oldest entry is read,
and for QGET the entry popped; a QPUT's entry, its word at its place, is there; one whose queue cannot serve it yet waits in its token. (The
model's own readings are in log 4.) -/
def Obligations.TokenWordsTakeTheirToken : Prop :=
  (∀ (i : Instr) (s : State),
    match tokWord s i with
    | none => True
    | some (g, k, owned, lat, op, ok) =>
      s.ctx.getP g = true → ok → mayTake s.ctx k owned → exec i s = .next (tokenTaken s k op lat owned)) ∧
  (∀ (o : Op.QGet) (pop : Bool) (s : State), s.ctx.getP o.g = true → s.ctx.queueTrap o.q true = none → mayTake s.ctx o.tok [o.rd] →
    queueFree s.ctx o.q →
    let i : Instr := if pop then .qget o else .qgetp o
    let op : TokOp := .qget o.q o.k o.rd pop
    (∀ es c, s.ctx.popQ s.cycle .c o.q 1 = .ok (es, c) →
      exec i s = .next (queueServed s (if pop then c else s.ctx) o.tok op [o.rd] (s.serial + 1) (BitVec.ofNat 64 (laneOf (oldest es) 64 o.k.val)))) ∧
    (∀ e, s.ctx.popQ s.cycle .c o.q 1 = .error e → exec i s = .next (tokenTaken s o.tok op 1 [o.rd]))) ∧
  (∀ (o : Op.QPut) (s : State), s.ctx.getP o.g = true → s.ctx.queueTrap o.q false = none → mayTake s.ctx o.tok [] → queueFree s.ctx o.q →
    (∀ e ∈ s.ctx.q[o.q].ents, e.serial ≠ s.serial + 1) →
    let op : TokOp := .qput o.q o.k (s.ctx.getX o.rb)
    (s.ctx.roomQ s.cycle .c o.q = .ok () → ∃ e : QEnt, e.pushed = s.cycle ∧ e.data = some (BitVec.ofNat 2048 ((s.ctx.getX o.rb).toNat * 2 ^ (64 * o.k.val))) ∧
      exec (.qput o) s = .next (queueServed s
        { s.ctx with q := s.ctx.q.set o.q { s.ctx.q[o.q] with ents := s.ctx.q[o.q].ents ++ [e] } } o.tok op [] (s.serial + 2) 0)) ∧
    (∀ e, s.ctx.roomQ s.cycle .c o.q = .error e → exec (.qput o) s = .next (tokenTaken s o.tok op 1 [])))

/-- R101, R105, R305, R306, R314: EPOST, ETEST and the SETE members take their token and put their operation on its way to the event table;
EPOST and SETN issue only when what they release is performed. A rack word takes its token and sends its operation, with the rack and the
port of x[ra] and the turn as its holder, to the rack's controller, where it applies after the latency to it; it settles after twice that,
both later by what a droop still holds the controller's die still. Of the rest only the trace of EPOST's record may differ. (The model's own
readings are in logs 4 and 15.) -/
def Obligations.EventAndRackWordsSendTheirOperation : Prop :=
  (∀ (i : Instr) (s : State) (g k : Fin 8) (owned : List (Fin 32)) (name : Nat) (kind : EvKind) (op : TokOp),
    eventWord s i = some (g, k, owned, name, kind, op) → s.ctx.getP g = true → mayTake s.ctx k owned →
    (releases i = true → s.releaseWaits = false) → s.ctx.replaying = false →
    let t := tokenTaken s k op s.tableLat owned
    ∃ trace lost, exec i s = .next { t with
      core := { t.core with trace := trace, lost := lost }
      part := { s.part with evops := s.part.evops ++ [{ due := s.cycle + s.toTable, name := name, kind := kind, tok := some (s.turnId, k) }] } }) ∧
  (∀ (i : Instr) (s : State) (g k : Fin 8) (owned : List (Fin 32)) (fn : Nat) (ra rd : Fin 32),
    rackWord i = some (g, k, owned, fn, ra, rd) → s.ctx.getP g = true → (fn = 2 → rd.val % 2 = 0) → mayTake s.ctx k owned →
    let v := (s.ctx.getX ra).toNat
    let rack := v % 1024
    let port := v / 2 ^ 16 % 64
    rackReady s fn port →
      exec i s = .next { tokenTaken s k (.rack fn rack port rd) (2 * s.rackLat rack + s.rackStill rack) owned with
        part := { s.part with rackops := s.part.rackops ++ [{
          apply := s.cycle + s.rackLat rack + s.rackStill rack, serial := s.serial, fn := fn, rack := rack, port := port, holder := .turn s.turnId
          cluster := clusterOf s.site, tok := some (s.turnId, k), sel := none }] } })

/-- R302, R95: SPAWN and LAUNCH with an aligned record and room take their token with the record's address; a turn that has seen a cancel is
then to retire CANCELLED. (The model's own readings are in log 15.) -/
def Obligations.CreationWordsTakeTheirToken : Prop :=
  (∀ (o : Op.TokSrc) (s : State), s.ctx.getP o.g = true → (s.ctx.getX o.ra).toNat % 64 = 0 → mayTake s.ctx o.tok [] →
    (s.needsSpill (clusterOf s.site) (s.recordTurn (s.ctx.getX o.ra)) = true → s.spillRoom (clusterOf s.site) = true) →
    exec (.spawn o) s = .next (afterCancel (tokenTaken s o.tok (.spawn (s.ctx.getX o.ra)) (s.recordLat (s.ctx.getX o.ra).toNat) []))) ∧
  (∀ (o : Op.TokSrc) (s : State), s.ctx.getP o.g = true → (s.ctx.getX o.ra).toNat % 64 = 0 → mayTake s.ctx o.tok [] →
    s.placementFull = false →
    exec (.launch o) s = .next (afterCancel (tokenTaken s o.tok (.launch (s.ctx.getX o.ra)) (s.recordLat (s.ctx.getX o.ra).toNat) [])))

/-- R290 to R292, R274: PBR and PBRX put the target, relative to the word or from x[ra], in flight to the branch register with latency 1,
and PBR starts its prefetch. BR through a register whose value is a word address below 2^52 and whose fetch is ready stands at that address;
CALL besides puts the address of the word after it in flight to b7 and prefetches it. LOOPC puts x[rc] - 1, modulo 2^64, in flight to x[rc];
where that is 0 it stands at the next word, whatever the branch register holds, and else at the register's target. (The model's own readings
are in log 15.) -/
def Obligations.BranchWordsLandAndFollowTargets : Prop :=
  ((∀ (o : Op.Pbr) (s : State), s.ctx.getP o.g = true → s.ctx.landingFull = false →
     let target := BitVec.ofInt 64 (s.ctx.cs.pc.toInt + o.disp.toInt * 4)
     exec (.pbr o) s = .next { refetched (fetchStarted { s with serial := s.serial + 1 } target) with
       ctx := (landsIn s 1 (.b o.bt true s.cycle) (target.setWidth 256)).ctx }) ∧
   (∀ (o : Op.Pbrx) (s : State), s.ctx.getP o.g = true → s.ctx.landingFull = false →
     exec (.pbrx o) s = .next (landsIn s 1 (.b o.bt false s.cycle) ((s.ctx.getX o.ra).setWidth 256)))) ∧
  ((∀ (o : Op.Branch) (s : State), s.ctx.getP o.g = true → targetReady s o.bt →
     exec (.br o) s = .next { refetched s with ctx := issuedC (spent s.ctx o.bt) s.cycle s.ctx.b[o.bt].val [] }) ∧
   (∀ (o : Op.Branch) (s : State), s.ctx.getP o.g = true → s.ctx.landingFull = false → targetReady s o.bt →
     exec (.call o) s = .next { refetched (fetchStarted { s with serial := s.serial + 1 } (s.ctx.cs.pc + 4)) with
         ctx := issuedC (spent s.ctx o.bt) s.cycle s.ctx.b[o.bt].val
           [{ due := s.cycle + 1, serial := s.serial, st := .c, dst := .b 7 true s.cycle, val := (s.ctx.cs.pc + 4).setWidth 256 }] })) ∧
  (∀ (o : Op.Loopc) (s : State), s.ctx.getP o.g = true → mayLand s.ctx o.rc →
     let v : Word := BitVec.ofInt 64 ((s.ctx.getX o.rc).toInt - 1)
     (v = 0 → exec (.loopc o) s = .next (landsIn s 1 (.x o.rc) (v.setWidth 256))) ∧
     (v ≠ 0 → targetReady s o.bt →
       exec (.loopc o) s = .next { refetched { s with serial := s.serial + 1 } with
         ctx := issuedC (spent s.ctx o.bt) s.cycle s.ctx.b[o.bt].val
           [{ due := s.cycle + 1, serial := s.serial, st := .c, dst := .x o.rc, val := v.setWidth 256 }] }))

/-- R289, R297, R298, R300, R308, R153: WAIT with its tokens settled, SDRAIN with its streams idle, TPOST with room, TAWAIT with a token,
and CPOINT issue, with just the effect of each; otherwise the first four wait, and change nothing but that. QBIND of a queue that is empty
and on which nothing waits, to a producer and a consumer or to neither, leaves it empty with that binding. -/
def Obligations.SynchronisingWordsIssueOrWaitAndQbindBinds : Prop :=
  ((∀ (o : Op.Wait) (s : State), s.ctx.getP o.g = true → (∀ k : Fin 8, o.mask.getLsbD k.val = true → s.ctx.tok[k] = none) →
     exec (.wait o) s = .next { nextWord s with ctx := { (nextWord s).ctx with waitMask := 0 } }) ∧
   (∀ (o : Op.Wait) (s : State) (k : Fin 8), s.ctx.getP o.g = true → o.mask.getLsbD k.val = true → s.ctx.tok[k] ≠ none →
     exec (.wait o) s = .next { waitsOn s .tokens with ctx := { (waitsOn s .tokens).ctx with waitMask := o.mask } }) ∧
   (∀ (o : Op.Drain) (s : State), s.ctx.getP o.g = true → o.mask ≠ 0 → draining o.mask s.ctx = false →
     exec (.sdrain o) s = .next (nextWord s)) ∧
   (∀ (o : Op.Drain) (s : State), s.ctx.getP o.g = true → o.mask ≠ 0 → draining o.mask s.ctx = true →
     exec (.sdrain o) s = .next (waitsOn s .drain)) ∧
   (∀ (o : Op.Token) (s : State), s.ctx.getP o.g = true → o.eng ≠ 0 →
     let ch := s.ctx.chans[fromC o.eng]
     exec (.tpost o) s = .next (if ch.length < 16
       then { nextWord s with ctx := { (nextWord s).ctx with chans := s.ctx.chans.set (fromC o.eng) (ch ++ [{ made := s.cycle, know := { s.ctx.cs.know with c := s.serial } }]) } }
       else waitsOn s .channel)) ∧
   (∀ (o : Op.Token) (s : State), s.ctx.getP o.g = true → o.eng ≠ 0 →
     exec (.tawait o) s = .next (match s.ctx.chans[toC o.eng] with
       | t :: rest => if t.made < s.cycle then { nextWord s with ctx := { (nextWord s).ctx with
             chans := s.ctx.chans.set (toC o.eng) rest, cs := { (nextWord s).ctx.cs with know := s.ctx.cs.know.join t.know } } }
           else waitsOn s .channel
       | [] => waitsOn s .channel)) ∧
   (∀ (o : Op.Bare) (s : State), s.ctx.getP o.g = true → exec (.cpoint o) s = .next (afterCancel (nextWord s)))) ∧
  (∀ (o : Op.Bind) (s : State), s.ctx.getP o.g = true → (o.prod = 3 ↔ o.cons = 3) → s.ctx.q[o.q].ents = [] →
     s.ctx.queueAwaited o.q = false →
     exec (.qbind o) s = .next { nextWord s with ctx := { (nextWord s).ctx with
       q := s.ctx.q.set o.q { prod := o.prod, cons := o.cons, was := (s.ctx.q[o.q].prod, s.ctx.q[o.q].cons), since := s.cycle + 1
                              ents := [], popCycle := 0, popCount := 0, cursor := 0 } } })

/-- R296, R151: TSTART, MSTART and VSTART of an idle stream at a word address below 2^52 make the stream run from there, its first word no
earlier than the next cycle; every other stream stands as it did. (The model's own readings are in log 15.) -/
def Obligations.StartsRunTheirStream : Prop :=
  ∀ (o : Op.OneSrc) (s : State), s.ctx.getP o.g = true →
    let e := s.ctx.getX o.ra
    let c := (nextWord s).ctx
    e.toNat % 4 = 0 → e.toNat < 2 ^ 52 →
    (s.ctx.ts.run = false → exec (.tstart o) s = .next { nextWord s with ctx := { c with ts := startedAt s.ctx.ts e s.cycle s.ctx.held { s.ctx.cs.know with c := s.serial } } }) ∧
    (s.ctx.ms.run = false → exec (.mstart o) s = .next { nextWord s with ctx := { c with ms := startedAt s.ctx.ms e s.cycle s.ctx.held { s.ctx.cs.know with c := s.serial } } }) ∧
    (s.ctx.vs.run = false → exec (.vstart o) s = .next { nextWord s with ctx := { c with vs := startedAt s.ctx.vs e s.cycle s.ctx.held { s.ctx.cs.know with c := s.serial } } })

/-- R304, R93, R180: END with its engine streams idle and its operations settled retires the turn, CANCELLED if a cancel has reached it;
under TIP it retires the turn FAULTED at once. EWAIT with an aligned record and a live event creates its continuation under the launch,
leaves the parent in bytes 40 to 47 of the record, enters it behind the event's waiters while the event has not fired and its inline list
has room, and retires the turn. (The model's own readings are in log 15.) -/
def Obligations.EndAndEwaitRetireTheTurn : Prop :=
  (∀ (o : Op.Bare) (s : State), s.ctx.getP o.g = true →
     let c := (nextWord s).ctx
     (s.ctx.tip = false → s.ctx.unfinished = false →
       exec (.cEnd o) s = .next { nextWord s with ctx := { c with retire := some { faulted := false, cancelled := s.ctx.isCancelled } } }) ∧
     (s.ctx.tip = true →
       exec (.cEnd o) s = .next { nextWord s with ctx := { c with retire := some { faulted := true, cancelled := s.ctx.isCancelled } } }) ∧
     (s.ctx.tip = false → s.ctx.unfinished = true → exec (.cEnd o) s = .next (waitsOn s .cend))) ∧
  (∀ (o : Op.TwoSrc) (s a b : State) (e : EvEnt) (u : Turn), s.ctx.getP o.g = true → s.ctx.tip = false → s.ctx.unfinished = false →
     s.ctx.isCancelled = false →
     let rec_ := s.ctx.getX o.rb
     let name := (s.ctx.getX o.ra).toNat % 2 ^ 16
     let act := match s.ctx.turn with
       | some t => (t.job, t.act)
       | none => (0, 0)
     let v := s.seeVa rec_.toNat 64
     rec_.toNat % 64 = 0 → s.part.events.find? name = some e → e.state = 0 → e.waiters.length < 4 → s.overflowFull e = false →
     v.readTurn rec_ v.launchOf act.1 act.2 none = .ok (u, false) → v.createUnder v.launchOf 1 = .ok (true, a) →
     a.writeVa (rec_.toNat + 40) 8 a.launchOf.toNat = .ok b →
     ∃ t, exec (.ewait o) s = .next t ∧ t.mem = b.mem ∧ t.ctx.cs.pc = b.ctx.cs.pc + 4 ∧
       t.ctx.retire = some { faulted := false, cancelled := false } ∧ t.part.turnSeq = b.part.turnSeq + 1 ∧
       t.part.events = b.part.events.put name { e with waiters := e.waiters ++ [({ turn := u, saved := none }, clusterOf b.site)] })

/-- R315, R146: a FENCE whose earlier accesses of its from paths are all performed issues and changes nothing else. (The model's own
readings are in log 15.) -/
def Obligations.FenceIssuesWhenPerformed : Prop :=
  ∀ (o : Op.CFence) (s : State), s.ctx.getP o.g = true →
    (match s.ctx.cs.fence with
     | none => s.pendingOn .c o.before.toNat s.serial (s.fenceChips o.scope.val) = false
     | some f => s.pendingOn .c f.before.toNat f.serial f.chips = false) →
    exec (.fence o) s = .next (nextWord s)

/-- R316, R317, R133: a CRW that its level allows puts x[ra] in flight to the control register with latency 2; one that it does not traps
with PRIV at the word, and one of INVCTL with kind 3 first of all with ILLEGAL. -/
def Obligations.CrwLandsOrTraps : Prop :=
  ∀ (o : Op.Crw) (s : State), s.ctx.getP o.g = true →
    let reg := o.reg.val
    let barred := crwNever reg = true ∨ (crwAny reg = false ∧ s.ctx.pl = false)
    (¬barred → s.ctx.landingFull = false → (reg = 0x017 → (s.ctx.getX o.ra).toNat % 4 ≠ 3) →
      (reg = 0x015 ∨ reg = 0x017 → s.part.busy = false ∧ s.ctx.shootPending = false) →
      exec (.crw o) s = .next (landsIn s 2 (.ctl reg) ((s.ctx.getX o.ra).setWidth 256))) ∧
    (s.ctx.tip = false → handlerOf s.part ≠ 0 →
      let traps := fun (t : State) (c : Cause) =>
        entersHandler s t (inHandler s.ctx s.cycle s.cycle s.serial (wordTrap c s.ctx.cs.pc 0 0) s.ctx.cs.pc (handlerOf s.part))
      let noKind := reg = 0x017 ∧ (s.ctx.getX o.ra).toNat % 4 = 3
      (noKind → ∃ t, exec (.crw o) s = .next t ∧ traps t .illegal) ∧
      (barred → ¬noKind → ∃ t, exec (.crw o) s = .next t ∧ traps t .priv))

/-- R158, R177, R178, R198, R199, R286, R288, R319: TRAP and, with DBGCTL.BKEN clear, BKPT trap after the word: EPC names the next word, FPC
the word, FREC its code. BKPT with DBGCTL.BKEN set issues, and asks the context to halt. A load, a store or a TLRW that may issue and whose
address is not a multiple of its size traps with ALIGN at the word, its address in FADDR: the token is not touched and no access is made;
one whose token is pending waits first, whatever its address is then, and changes nothing but that. (The model's own readings are in log
21.) -/
def Obligations.TrapBkptAndMisalignedWordsTrap : Prop :=
  (∀ (o : Op.Code) (s : State), s.ctx.getP o.g = true → s.ctx.tip = false → handlerOf s.part ≠ 0 →
     let enters := fun (t : State) (cause : Cause) => entersHandler (nextWord s) t
       (inHandler (nextWord s).ctx s.cycle (s.cycle + 1) (nextWord s).serial (wordTrap cause s.ctx.cs.pc 0 (o.code.setWidth 64)) (s.ctx.cs.pc + 4)
         (handlerOf s.part))
     (∃ t, exec (.trap o) s = .next t ∧ enters t .swtrap) ∧
     (s.ctx.dbgctl.getLsbD 2 = false → ∃ t, exec (.bkpt o) s = .next t ∧ enters t .bkpt)) ∧
  (∀ (o : Op.Code) (s : State), s.ctx.getP o.g = true → s.ctx.dbgctl.getLsbD 2 = true →
     ∃ t, exec (.bkpt o) s = .next t ∧ t.ctx.haltReq = true ∧ t.ctx.cs = (nextWord s).ctx.cs ∧ t.mem = s.mem ∧ t.ctx.x = s.ctx.x ∧
       t.ctx.tip = s.ctx.tip) ∧
  (∀ (i : Instr) (s : State) (g k : Fin 8) (owned : List (Fin 32)) (a : Word) (n : Nat) (op : TokOp),
    memWord s.ctx i = some (g, k, owned, a, n, op) → s.ctx.getP g = true →
    (mayTake s.ctx k owned → a.toNat % n ≠ 0 → s.ctx.tip = false → handlerOf s.part ≠ 0 →
      ∃ t, exec i s = .next t ∧
        entersHandler s t (inHandler s.ctx s.cycle s.cycle s.serial (wordTrap .align s.ctx.cs.pc a 0) s.ctx.cs.pc (handlerOf s.part))) ∧
    (s.ctx.tok[k] ≠ none → exec i s = .next (waitsOn s (.token k))))

/-- R180, R319: ERET at supervisor level with TIP set returns: PL is PPL, TIP and HELD are 0, the C stream stands at EPC, its first word at
most 20 cycles later, the engine streams without a pending fault are released, and no general register, byte of memory or saved register
changes. At turn level it traps with PRIV. (The model's own readings are in log 4.) -/
def Obligations.EretReturns : Prop :=
  ∀ (o : Op.Bare) (s : State), s.ctx.getP o.g = true →
    (s.ctx.pl = true → s.ctx.tip = true →
      ∃ t, exec (.eret o) s = .next t ∧ t.ctx.pl = s.ctx.ppl ∧ t.ctx.tip = false ∧ t.ctx.held = false ∧ t.ctx.cs.pc = s.ctx.epc ∧
        t.ctx.cs.readyAt = s.cycle + 20 ∧ t.ctx.resume = true ∧
        (∀ st ∈ [Strm.t, .m, .v], (t.ctx.strm st).holdReq = false ∧ (t.ctx.strm st).pc = (s.ctx.strm st).pc ∧
          ((∀ f ∈ s.ctx.pend, f.rank = 2 → f.st ≠ st) → (t.ctx.strm st).held = false)) ∧
        sameRegs s.ctx t.ctx ∧ sameTrapRegs s.ctx t.ctx ∧ t.mem = s.mem ∧ t.part = s.part) ∧
    (s.ctx.pl = false → s.ctx.tip = false → handlerOf s.part ≠ 0 →
      ∃ t, exec (.eret o) s = .next t ∧
        entersHandler s t (inHandler s.ctx s.cycle s.cycle s.serial (wordTrap .priv s.ctx.cs.pc 0 0) s.ctx.cs.pc (handlerOf s.part)))

/-- R309 to R311, R313, R170: a collective word with an even ra, an aligned descriptor and buffer, a free pawn entry and room in the range
checker creates its pawn with the two operands of x[ra] and numbers it; PCANCEL of an even rd tells its pawns and takes its token: of its
pawns, one that has not begun is to end CANCELLED at once, one under way at its next step boundary, one that has ended is left alone. A
handle register that a T word not before the C word has written counts for it with its former handle. (The model's own readings are in logs
4 and 16.) -/
def Obligations.PawnWordsCreateAndCancel : Prop :=
  (∀ (i : Instr) (g : Fin 8) (detach : Bool) (h : Fin 16) (ra : Fin 32) (buf : Word) (fn : Nat) (rb : Fin 32) (s : State) (k : Fin 64),
    let o : Op.Coll := { g := g, detach := detach, h := h, ra := ra, rb := rb }
    (i, fn, buf) ∈ [(Instr.allred o, 0, s.ctx.getX rb), (.bcast o, 1, s.ctx.getX rb), (.allgath o, 2, s.ctx.getX rb),
      (.redscat o, 3, s.ctx.getX rb), (.barrier { g := g, detach := detach, h := h, ra := ra }, 4, 0)] →
    s.ctx.getP g = true → ra.val % 2 = 0 → (s.ctx.getX ra).toNat % 64 = 0 → buf.toNat % 64 = 0 → s.freePawn = some k → s.ctx.cs.loops = [] →
    s.checkRanges .c true (s.collRanges fn (s.ctx.getX ra) (s.ctx.getX (ra + 1)) buf) = .ok () →
    let n := s.part.collSeq.getD (s.collKey (s.ctx.getX ra)) 0
    ∃ r, exec i s = .next r ∧ r.part.collSeq = s.part.collSeq.put (s.collKey (s.ctx.getX ra)) (n + 1) ∧ createsPawn s r k {
      st := .c, eng := .collective, pri := (s.ctx.getX (ra + 1)).toNat / 2 ^ 56 % 8, h := h, detach := detach
      job := .coll fn (s.ctx.getX ra) (s.ctx.getX (ra + 1)) buf n, sync := 0, due := s.cycle + 1, lead := 0, rows := 0, draw := false, idx := [], tr := [] }) ∧
  (∀ (o : Op.PawnRes) (s : State), s.ctx.getP o.g = true → o.rd.val % 2 = 0 → mayTake s.ctx o.tok (both o.rd) →
    let u := s.cancelTargets (s.ctx.cHandle o.h) (o.h == 0)
    exec (.pcancel o) s = .next (tokenTaken u o.tok (.pcancel (s.ctx.cHandle o.h) (o.h == 0) o.rd) 12 (both o.rd)) ∧
    ∀ k, u.pawn k =
      let p := s.pawn k
      if k ∈ s.targets (s.ctx.cHandle o.h) (o.h == 0) then
        (if p.open = true then
          (if p.state = .pending then { p with fin := some .cancelled, frec := BitVec.ofNat 64 15, job := stepsOver p.job }
            else { p with cancelReq := true })
        else if p.fin = none then p
        else { p with job := stepsOver p.job })
      else p) ∧
  (∀ (c : Context) (r : Fin 16), (∀ e ∈ c.hwas, e.1 ≠ r) → c.cHandle r = c.getH r) ∧
  (∀ (c : Context) (r : Fin 16) (n : Nat) (old : BitVec 16) (rest : List (Fin 16 × Strm × Nat × BitVec 16)), c.hwas = (r, .t, n, old) :: rest →
    (∀ e ∈ rest, e.1 ≠ r) → c.cHandle r = if n < c.cs.know.t then c.getH r else old)

/-! ### Words of the T stream -/

/-- R322, R333, R335, R161, R167: ADDA and ADDAR enter the window and put their sum in flight to a[rd] with latency 1; SYNC enters it; LOOP
enters it and the stream stands in the loop; FENCE with nothing pending, and WAITH of a handle that is GONE, enter it. Nothing else changes.
-/
def Obligations.TransferRegisterAndControlWordsEnterTheWindow : Prop :=
  (∀ (o : Op.Adda) (s t : State), metT s o.sync false t →
    exec (.adda o) s = .next (State.issuedIn (windowed t .plain 0 o.sync []
      (some (o.dst, BitVec.ofInt 64 ((s.ctx.getA o.src).toInt + o.imm.toInt)))) .t)) ∧
  (∀ (o : Op.Addar) (s t : State) (es : List QEnt) (c : Context), metT s o.sync false t → t.ctx.popQ s.cycle .t o.src 1 = .ok (es, c) →
    exec (.addar o) s = .next (State.issuedIn (windowed (popped t c) .plain 0 o.sync (es.map (fun e => (o.src, e)))
      (some (o.dst, BitVec.ofNat 64 ((s.ctx.getA o.dst).toNat + laneOf (entry1 es) 64 0)))) .t)) ∧
  (∀ (o : Op.Sync) (s t : State), metT s o.sync false t →
    exec (.tSync o) s = .next (State.issuedIn (windowed t (.sync o.postC) 0 o.sync [] none) .t)) ∧
  (∀ (o : Op.Loop) (s t : State), metT s o.sync false t → goodLoop t.ctx.ts o.id (o.stm1.val + 1) o.len.val →
    exec (.tLoop o) s = .next (loopEntered (windowed t .plain 0 o.sync [] none) .t o.id (o.stm1.val + 1) o.len.val
      ((s.ctx.getA o.cnt).toNat % 2 ^ 32))) ∧
  (∀ (o : Op.EFence) (s t : State), metT s o.sync false t →
    (match t.ctx.ts.fence with
     | none => t.pendingOn .t o.before.toNat t.serial (t.fenceChips o.scope.val) = false
     | some f => t.pendingOn .t f.before.toNat f.serial f.chips = false) →
    exec (.tFence o) s = .next (State.issuedIn (windowed t .plain 0 o.sync [] none) .t)) ∧
  (∀ (o : Op.Waith) (s t : State), metT s o.sync true t → o.h ≠ 0 → t.byHandle s.ctx.h[o.h] = none →
    exec (.tWaith o) s = .next (State.issuedIn (windowed t .plain 0 o.sync [] none) .t))

/-- R151, R161, R146, R167, R335, R346, R349, R375: END of an engine stream whose earlier words are complete makes its stream idle and makes
its post. MZERO of a tile that no earlier pawn and no zeroing uses ends 32 cycles later. LOOP enters its loop; SYNC of the M stream with
nothing to wait for, and of the V stream with no word in flight, posts at once, the latter else retires after the words in flight; FENCE
with nothing pending and WAITH of a handle that is GONE make their post. (The model's own readings are in log 15.) -/
def Obligations.EngineControlWordsIssue : Prop :=
  ((∀ (o : Op.EBare) (s t : State), metT s o.sync true t → t.ctx.postRoom .t o.sync = true → exec (.tEnd o) s = .next (endedAt t .t o.sync)) ∧
   (∀ (o : Op.EBare) (s t : State), metM s o.sync t → t.ctx.zeroing = [] → t.ctx.postRoom .m o.sync = true →
     exec (.mEnd o) s = .next (endedAt t .m o.sync)) ∧
   (∀ (o : Op.EBare) (s t : State), metV s o.sync t → t.ctx.vpend = [] → t.ctx.postRoom .v o.sync = true →
     exec (.vEnd o) s = .next (endedAt t .v o.sync))) ∧
  ((∀ (o : Op.Mzero) (s t : State), metM s o.sync t → t.rowsHeld s.cx t.serial (tileRows o.t.val) = false →
     (∀ z ∈ t.ctx.zeroing, z.tile ≠ some o.t) →
     exec (.mzero o) s = .next (State.issuedIn { t with ctx := { t.ctx with
       zeroing := t.ctx.zeroing ++ [{ tile := some o.t, due := s.cycle + 32, sync := o.sync, postC := false }] } } .m)) ∧
   (∀ (o : Op.MLoop) (s t : State), metM s o.sync t → goodLoop t.ctx.ms o.id (o.stm1.val + 1) o.len.val → t.ctx.postRoom .m o.sync = true →
     exec (.mLoop o) s = .next (loopEntered (posted t .m o.sync) .m o.id (o.stm1.val + 1) o.len.val (s.ctx.mb[o.mb].toNat % 2 ^ 32))) ∧
   (∀ (o : Op.Sync) (s t : State), metM s o.sync t → t.ctx.zeroing = [] → t.ctx.postRoom .m o.sync = true →
     (o.postC = true → t.ctx.tokenRoom (chanIx 2 0) = true) →
     let u := posted t .m o.sync
     exec (.mSync o) s = .next (State.issuedIn (if o.postC then { u with ctx := u.ctx.pushToken (chanIx 2 0) s.cycle (u.ctx.knowAt .m t.serial) } else u) .m)) ∧
   (∀ (o : Op.EFence) (s t : State), metM s o.sync t →
     (match t.ctx.ms.fence with
      | none => t.pendingOn .m o.before.toNat t.serial (t.fenceChips o.scope.val) = false
      | some f => t.pendingOn .m f.before.toNat f.serial f.chips = false) → t.ctx.postRoom .m o.sync = true →
     exec (.mFence o) s = .next (State.issuedIn (posted t .m o.sync) .m)) ∧
   (∀ (o : Op.Waith) (s t : State), metM s o.sync t → o.h ≠ 0 → t.byHandle s.ctx.h[o.h] = none → t.ctx.postRoom .m o.sync = true →
     exec (.mWaith o) s = .next (State.issuedIn (posted t .m o.sync) .m))) ∧
  ((∀ (o : Op.Loop) (s t : State), metV s o.sync t → goodLoop t.ctx.vs o.id (o.stm1.val + 1) o.len.val → t.ctx.postRoom .v o.sync = true →
     exec (.vLoop o) s = .next (loopEntered (posted t .v o.sync) .v o.id (o.stm1.val + 1) o.len.val (s.ctx.s[o.cnt]).toNat)) ∧
   (∀ (o : Op.Sync) (s t : State), metV s o.sync t →
     let p : VPend := { serial := t.serial, due := s.cycle, pushes := [], flags := 0, sync := o.sync, cells := [], postC := o.postC, last := true }
     (t.ctx.vpend ≠ [] →
       exec (.vSync o) s = .next (State.issuedIn { t with serial := t.serial + 1, ctx := { t.ctx with vpend := t.ctx.vpend ++ [p] } } .v)) ∧
     (t.ctx.vpend = [] → t.ctx.postRoom .v o.sync = true → (o.postC = true → t.ctx.tokenRoom (chanIx 3 0) = true) →
       let u := posted (t.issuedIn .v) .v o.sync
       exec (.vSync o) s = .next (if o.postC then { u with ctx := u.ctx.pushToken (chanIx 3 0) s.cycle u.ctx.vs.know } else u))) ∧
   (∀ (o : Op.EFence) (s t : State), metV s o.sync t →
     (match t.ctx.vs.fence with
      | none => t.pendingOn .v o.before.toNat t.serial (t.fenceChips o.scope.val) = false
      | some f => t.pendingOn .v f.before.toNat f.serial f.chips = false) → t.ctx.postRoom .v o.sync = true →
     exec (.vFence o) s = .next (State.issuedIn (posted t .v o.sync) .v)))

/-- R325, R326, R160: LDQ and STQ of a bound queue and a record without an error, at a base that is aligned and mapped in lines and formats
that the rules allow, enter the window with their walk, take their place in the queue or their entry from it, enter their ranges, and put
the stepped base in flight to a[ra]; the extra cycles and the board counts are those that contention gives (R117, R208). (The model's own
readings are in log 4.) -/
def Obligations.QueueLoadsAndStoresEnterTheWindow : Prop :=
  (∀ (o : Op.Tq) (s t u : State) (w : Walking) (ls : List (Nat × Place)), metT s o.sync false t →
    let ly := s.core.ly[o.ly]
    let b := s.ctx.getA o.ra
    s.lyBad o.ly = false → laneFmtOk ly.lfmt.toNat = true → t.ctx.roomQ s.cycle .t o.q = .ok () → goodBase b →
    queueWalks t .read b ly (s.ctx.strict || (decide ((s.ctx.q[o.q].binding s.cycle).2 = 2) && s.ctx.vshape.getLsbD 17)) w ls u →
    let rs := queueRanges u w false
    u.checkRanges .t false rs = .ok () →
    let d := u.contendAll 0 (ls.map (fun l => l.2.key))
    let v := tracked d.2 .t none rs
    exec (.ldq o) s = .next (State.issuedIn (windowed { v with ctx := v.ctx.reserveQ s.cycle o.q d.2.serial d.2.serial } (.ldq o.q b ly ls)
      (d.2.linesLat ls + d.1) o.sync [] (some (o.ra, stepBase b o.step))) .t)) ∧
  (∀ (o : Op.Tq) (s t u : State) (w : Walking) (ls : List (Nat × Place)) (es : List QEnt) (c : Context), metT s o.sync false t →
    let ly := s.core.ly[o.ly]
    let b := s.ctx.getA o.ra
    s.lyBad o.ly = false → laneFmtOk ly.lfmt.toNat = true → t.ctx.popQ s.cycle .t o.q 1 = .ok (es, c) → goodBase b →
    queueWalks t .write b ly s.ctx.strict w ls u →
    let rs := queueRanges u w true
    u.checkRanges .t false rs = .ok () →
    let d := u.contendAll 1 (ls.map (fun l => l.2.key))
    exec (.stq o) s = .next (State.issuedIn (windowed (popped (tracked d.2 .t none rs) c) (.stq (entry1 es) b ly ls)
      (d.2.linesLat ls + d.1) o.sync (es.map (fun e => (o.q, e))) (some (o.ra, stepBase b o.step))) .t))

/-- R327, R326, R136: PREF from an aligned base prefetches the lines whose translations it has, in walk order until one that would fault:
each wakes its bank of deep SRAM and, on a replicated page, asks for a copy; it steps its base and enters the window. It does so too when
its walk has no element or meets a fault at its base, which it does not raise. It moves no data: no byte of memory, no general register and
no queue changes. (The model's own readings are in log 15.) -/
def Obligations.PrefMovesNoData : Prop :=
  ∀ (o : Op.Pref) (s t : State), metT s o.sync false t →
    let ly := s.core.ly[o.ly]
    let b := s.ctx.getA o.ra
    let raw := fmtBits ly.lfmt.toNat
    let n := min (2048 / raw) (ly.rows.toNat * ly.cols.toNat)
    let goesOn := fun (v : State) =>
      exec (.pref o) s = .next (State.issuedIn (windowed v .plain 0 o.sync [] (some (o.ra, stepBase b o.step))) .t)
    s.lyBad o.ly = false → laneFmtOk ly.lfmt.toNat = true → b.toNat % 64 = 0 →
    (n = 0 → goesOn t) ∧
    (∀ (f : Cause × Nat) (u : State), n ≠ 0 → t.linesT .read [b.toNat] = (.error (some f), u) → goesOn u) ∧
    (∀ (base : List (Nat × Place)) (tr : List Trans) (u v : State), n ≠ 0 → t.linesT .read [b.toNat] = (.ok base, u) →
      let w := ly.walkAt b.toNat (leafIn base b.toNat) raw
      (w.geom ≠ 0 → ly.cols.toNat % 32 = 0) → (w.geom = 2 → ly.scale ≠ 0) →
      u.prefLines (fun lines va => w.lineBad lines u.ctx.strict raw n va) (linesOf (w.addrs n)) u.ctx.ttr = ((false, tr), v) →
      let r := tr.foldl (fun x y => reached x y.place) v
      goesOn r ∧ r.mem = s.mem ∧ r.ctx.q = t.ctx.q ∧ r.ctx.x = s.ctx.x ∧ r.ctx.a = s.ctx.a)

/-- R331, R332: SACC in its four members pops an index and a value entry, and SCAS pops its entry and takes a place for its result; with
every element aligned, in local or peer memory, and for SACC of a 32-bit element, they enter the window. (The model's own readings are in
log 4.) -/
def Obligations.AtomicWordsEnterTheWindow : Prop :=
  (∀ (i : Instr) (o : Op.Sacc) (fn : Nat) (s t u : State) (is vs : List QEnt) (c1 c2 : Context) (ls : List (Nat × Place)),
    (i, fn) ∈ [(Instr.saccAdd o, 0), (.saccMin o, 1), (.saccMax o, 2), (.saccSwap o, 3)] → metT s o.sync false t →
    let b := s.ctx.getA o.ra
    t.ctx.popQ s.cycle .t o.qi 1 = .ok (is, c1) → c1.popQ s.cycle .t o.qv 1 = .ok (vs, c2) → b.toNat % 4 = 0 → b.toNat < 2 ^ 52 →
    let as := (saccLanes b.toNat (entry1 is) (entry1 vs) 0 ++ saccLanes b.toNat (entry1 is) (entry1 vs) 32).map (fun e => e.1)
    t.linesT .atomic as = (.ok ls, u) → (∀ a ∈ as, (saccInt (leafIn ls a)).isSome = true) →
    u.checkRanges .t false (u.elemRanges as 4) = .ok () →
    let d := u.contendAll 7 (ls.map (fun l => l.2.key))
    exec i s = .next (State.issuedIn (windowed (tracked (popped d.2 c2) .t none (u.elemRanges as 4))
      (.sacc fn (entry1 is) (entry1 vs) b ls) (d.2.linesLat ls + d.1) o.sync
      (is.map (fun e => (o.qi, e)) ++ vs.map (fun e => (o.qv, e))) none) .t)) ∧
  (∀ (o : Op.Scas) (s t u : State) (vs : List QEnt) (c : Context) (ls : List (Nat × Place)), metT s o.sync false t →
    let a := s.ctx.getA o.ra
    let n := if o.wide then 8 else 4
    t.ctx.popQ s.cycle .t o.qv 1 = .ok (vs, c) → c.roomQ s.cycle .t o.qd = .ok () → a.toNat % n = 0 → a.toNat < 2 ^ 52 →
    t.linesT .atomic [a.toNat] = (.ok ls, u) → u.ctx.replaying = false →
    u.checkRanges .t false (u.elemRanges [a.toNat] n) = .ok () →
    let d := u.contendAll 7 (ls.map (fun l => l.2.key))
    let v := tracked (popped d.2 c) .t none (u.elemRanges [a.toNat] n)
    exec (.scas o) s = .next (State.issuedIn (windowed { v with ctx := v.ctx.reserveQ s.cycle o.qd v.serial v.serial }
      (.scas (entry1 vs) a o.wide o.qd ls) (d.2.linesLat ls + d.1) o.sync (vs.map (fun e => (o.qv, e))) none) .t))

/-- R328, R329, R325: COPY between two walks of equal shape that do not overlap, GATH and SCAT of 1 to 128 indexed rows, each with a free
pawn entry and room in the range checker, create their pawn in the lowest free entry; it may step at once, and its first line lands after
the cycles of its two accesses; no byte is moved at issue. (The model's own readings are in logs 4 and 15.) -/
def Obligations.CopyWordsCreateTheirPawn : Prop :=
  (∀ (o : Op.Tc) (s t u v : State) (p q : Place) (ls ms : List (Nat × Place)) (k : Fin 64) (ix : Fin 64), metT s o.sync true t →
    let src := s.ctx.getA o.src
    let dst := s.ctx.getA o.dst
    o.ly.val + 1 = ix.val → (o.detach = true → o.h = 0) → s.lyBad o.ly = false → s.lyBad ix = false → goodBase src → goodBase dst →
    t.linesT .read [src.toNat] = (.ok ls, u) → placeIn ls src.toNat = some p →
    u.linesT .write [dst.toNat] = (.ok ms, v) → placeIn ms dst.toNat = some q →
    let la := s.core.ly[o.ly]
    let lb := s.core.ly[ix]
    let wa := la.walkAt src.toNat p.leaf 8
    let wb := lb.walkAt dst.toNat q.leaf 8
    let n := rowBytes wa o.raw
    let ra := la.range src.toNat la.rows.toNat n
    let rb := lb.range dst.toNat la.rows.toNat n
    la.rows = lb.rows → n = rowBytes wb o.raw → wholeBlocks wa o.raw → wholeBlocks wb o.raw →
    (la.rows.toNat = 0 ∨ n = 0 ∨ rb.2 ≤ ra.1 ∨ ra.2 ≤ rb.1) →
    let d := v.contendCopy p.key q.key
    d.2.freePawn = some k →
    d.2.checkRanges .t true (d.2.sideRanges wa la.rows.toNat n false ++ d.2.sideRanges wb la.rows.toNat n true) = .ok () →
    ∃ r, exec (.copy o) s = .next r ∧ createsPawn t r k {
      st := .t, eng := .transfer, pri := o.pri.val, h := o.h, detach := o.detach
      job := .copy (sideAt wa src p.leaf) (sideAt wb dst q.leaf) la.rows.toNat n o.raw s.ctx.strict, sync := o.sync
      due := s.cycle, lead := d.2.latencyTo s.site p.key + d.2.latencyTo s.site q.key + d.1, rows := 0, draw := false, idx := [], tr := [] }) ∧
  (∀ (o : Op.Tc) (gather : Bool) (s t u : State) (p : Place) (ls : List (Nat × Place)) (k : Fin 64) (es : List QEnt) (c : Context), metT s o.sync true t →
    let qr := if gather then o.src else o.dst
    let b := s.ctx.getA (if gather then o.dst else o.src)
    let ly := s.core.ly[o.ly]
    let rows := ly.rows.toNat
    s.lyBad o.ly = false → (o.detach = true → o.h = 0) → 1 ≤ rows → rows ≤ 128 → t.ctx.popQ s.cycle .t qr ((rows + 31) / 32) = .ok (es, c) →
    let ws := indexWords es rows
    goodBase b → (∀ w ∈ ws, w ≠ 0 → goodBase w) → t.linesT (if gather then .write else .read) [b.toNat] = (.ok ls, u) →
    placeIn ls b.toNat = some p →
    let w := ly.walkAt b.toNat p.leaf 8
    let n := rowBytes w o.raw
    wholeBlocks w o.raw → u.freePawn = some k →
    u.checkRanges .t true (u.sideRanges w rows n gather ++ u.indexRanges ws n (!gather)) = .ok () →
    let d := u.contend (if gather then 1 else 0) p.key
    let far := ws.foldl (fun m a => match d.2.peek .t .read a.toNat 1 with
      | some key => max m (d.2.latencyTo s.site key)
      | none => m) 1
    ∃ r, exec (if gather then .gath o else .scat o) s = .next r ∧ r.ctx.q = c.q ∧ createsPawn t r k {
      st := .t, eng := .transfer, pri := o.pri.val, h := o.h, detach := o.detach
      job := if gather then .gath (sideAt w b p.leaf) n o.raw s.ctx.strict ws else .scat (sideAt w b p.leaf) n o.raw s.ctx.strict ws
      sync := o.sync, due := s.cycle, lead := d.2.latencyTo s.site p.key + far + d.1, rows := 0, draw := false, idx := [], tr := [] })

/-- R330, R113, R114, R334: RLD of an aligned span outside the window into one inside it, and RST the other way, with a request slot and its
buffers free or reserved for it, create their pawn and take the lowest-numbered free slot and the buffers: as many as the span has 128-byte
parts for a load, one for a store. SEND of the sender with a free slot reserves the next one in ring order and creates its pawn; RECV of the
receiver frees the slot that its turn holds, takes the oldest filled one, and puts its address in flight to a[ra]. (The model's own readings
are in log 4.) -/
def Obligations.RemoteAndChannelWordsTakeTheirSlot : Prop :=
  (∀ (o : Op.Tr) (load : Bool) (s t v : State) (tr : List Trans) (p q : Place) (j : Fin 8) (k : Fin 64), metT s o.sync true t →
     let src := s.ctx.getA o.src
     let dst := s.ctx.getA o.dst
     let n := 64 * 2 ^ o.size.val
     let bufs := if load then max 1 (n / 128) else 1
     src.toNat % n = 0 → dst.toNat % n = 0 → src.toNat < 2 ^ 52 → dst.toNat < 2 ^ 52 → inWindow src.toNat = !load → inWindow dst.toNat = load →
     t.xlateMore .t [(.read, src.toNat, n), (.write, dst.toNat, n)] t.ctx.ttr = ((none, tr), v) →
     placeOf tr false src.toNat = some p → placeOf tr true dst.toNat = some q →
     let kept := s.ctx.rldHeld = some (j, bufs)
     (kept ∨ (s.ctx.rldHeld = none ∧ s.ctx.freeSlot s.cycle = some j ∧ bufs ≤ s.ctx.rldBufs)) → v.freePawn = some k →
     (let va := (if load then dst else src).toNat
      v.checkRanges .t true ((v.ownRange va (va + n)).toList.map (fun x => (x.1, x.2, load))) = .ok ()) →
     let d := v.contend 8 (if load then q.key else p.key)
     ∃ r, exec (if load then .rld o else .rst o) s = .next r ∧
       (kept → r.ctx.rldSlots = s.ctx.rldSlots ∧ r.ctx.rldBufs = s.ctx.rldBufs) ∧
       (¬kept → r.ctx.rldSlots = s.ctx.rldSlots.set j none ∧ r.ctx.rldBufs = s.ctx.rldBufs - bufs) ∧ r.ctx.rldHeld = none ∧
       createsPawn t r k {
         st := .t, eng := .transfer, pri := 0, h := o.h, detach := false
         job := if load then .rld src dst n bufs else .rst src dst n, sync := o.sync
         due := s.cycle, lead := (if load then d.2.latencyTo s.site p.key else d.2.latencyTo s.site p.key + d.2.latencyTo s.site q.key) + d.1
         rows := 0, draw := false, idx := [j.val]
         tr := [{ writes := false, va := src.toNat, place := p }, { writes := true, va := dst.toNat, place := q }] }) ∧
  ((∀ (o : Op.Chan) (s t : State) (ch : Machine.Chan) (j : Nat) (k : Fin 64), metT s o.sync true t →
     let a := s.ctx.getA o.ra
     t.chan? o.ch.val = some ch → t.logicalOf s.site = some ch.sender → (t.siteOf ch.receiver).isSome = true → goodBase a →
     ch.freeSlot = some j → t.freePawn = some k →
     t.checkRanges .t true ((t.ownRange a.toNat (a.toNat + ch.size)).toList.map (fun x => (x.1, x.2, false))) = .ok () →
     let line := t.peek .t .read a.toNat 64
     let d := t.contendCopy (line.getD 0) (spKey ((t.siteOf ch.receiver).getD 0) (ch.base + j * ch.size))
     ∃ r, exec (.send o) s = .next r ∧
       r.part.chans = s.part.chans.map (fun c => if c.launch = ch.launch ∧ c.num = ch.num
         then { c with next := (j + 1) % c.slots, filling := c.filling ++ [j] } else c) ∧
       createsPawn t r k {
         st := .t, eng := .transfer, pri := 0, h := 0, detach := false, job := .send ch.num ch.launch a j ch.size
         sync := o.sync, due := s.cycle, lead := (line.map (t.latencyTo s.site)).getD 0 + 14 + d.1, rows := 0, draw := false, idx := [], tr := [] }) ∧
   (∀ (o : Op.Chan) (s t : State) (ch : Machine.Chan) (j : Nat) (rest : List Nat), metT s o.sync true t →
     t.chan? o.ch.val = some ch → t.logicalOf s.site = some ch.receiver → (t.siteOf ch.sender).isSome = true →
     t.ctx.postRoom .t o.sync = true → ch.filled = j :: rest →
     exec (.recv o) s = .next (State.issuedIn (windowed { t with part := { s.part with chans := s.part.chans.map (fun c =>
       if c.launch = ch.launch ∧ c.num = ch.num then { c with filled := c.filled.drop 1, held := c.held.filter (fun h => h.2 != s.turnId) ++ [(j, s.turnId)] } else c) } }
       .plain 0 o.sync [] (some (o.ra, t.ownAddr (ch.base + j * ch.size)))) .t)))

/-! ### Words of the M stream -/

/-- R340, R155, R271: NSET puts its field, the base register shifted left by 17 with the value inserted, or a format below 14 in flight with
latency 1, and makes its post; a format of 14 or 15 is ILLEGAL: the stream halts and a trap is pending. -/
def Obligations.NsetWordsLandTheirField : Prop :=
  (∀ (o : Op.NsetLevel) (lv : Fin 6) (s t : State), o.level.val = lv.val → metM s o.sync t → t.ctx.postRoom .m o.sync = true →
    exec (.nsetLevel o) s = .next (State.issuedIn (posted (flies t .m 1 (.nest lv o.field) (o.v.setWidth 256)) .m o.sync) .m)) ∧
  (∀ (o : Op.NsetIns) (s t : State), metM s o.sync t → t.ctx.postRoom .m o.sync = true →
    exec (.nsetIns o) s = .next (State.issuedIn (posted (flies t .m 1 (.mb o.mb)
      (BitVec.ofNat 256 ((s.ctx.mb[o.mb].toNat * 2 ^ 17 + o.v.toNat) % 2 ^ 64))) .m o.sync) .m)) ∧
  (∀ (o : Op.NsetFmt) (s t : State), metM s o.sync t → t.ctx.postRoom .m o.sync = true → o.v.val < 14 →
    exec (.nsetFmt o) s = .next (State.issuedIn (posted (flies t .m 1 (.mfmt o.isB) (BitVec.ofNat 256 o.v.val)) .m o.sync) .m)) ∧
  (∀ (o : Op.NsetFmt) (s t : State), metM s o.sync t → 14 ≤ o.v.val → exec (.nsetFmt o) s = .next (t.faultAt .m .illegal 0))

/-- R341, R164, R168: MGO with aligned operand bases below 2^52, a depth of 1 to 6, a grant, no tile of its rows being zeroed, a draw slot
that goes to it, fewer than 8 nests captured, a free pawn entry and room in the range checker creates its pawn with the nest captured as it
stands, takes the draw slot and counts the captured nest. (The model's own readings are in log 15.) -/
def Obligations.MgoCapturesItsNest : Prop :=
  ∀ (o : Op.Mgo) (s t : State) (k : Fin 64), metM s o.sync t →
    let a := s.ctx.mb[o.mba]
    let b := s.ctx.mb[o.mbb]
    let nest := s.ctx.nest.toList.take (o.depm1.val + 1)
    let afmt := s.ctx.mfmt.toNat % 16
    let bfmt := s.ctx.mfmt.toNat / 16
    o.depm1.val < 6 → (o.detach = true → o.h = 0) → goodBase a → goodBase b → s.part.grant ≠ 0 →
    t.ctx.zeroMeets (nestRows nest o.t.val) = false → t.reachIssue.drawMine = true → s.ctx.captured < 8 → t.freePawn = some k →
    t.checkRanges .m true (t.operandRange a (fun l => l.as_) nest afmt ++ t.operandRange b (fun l => l.bs) nest bfmt) = .ok () →
    ∃ r, exec (.mgo o) s = .next r ∧ r.ctx.captured = s.ctx.captured + 1 ∧ r.part.held = s.part.held + 1 ∧
      createsPawn t r k {
        st := .m, eng := .matrix, pri := o.pri.val, h := o.h, detach := o.detach
        job := .mgo nest a b o.t.val o.acc afmt bfmt o.mc s.ctx.strict, sync := o.sync, due := s.cycle, lead := 0
        rows := nestRows nest o.t.val, draw := true, idx := [], tr := [] }

/-- R347, R348: ACC2S, S2ACC and ACCMUL with an aligned base in the scratchpad window, a record of at most 128 rows and columns (for ACCMUL
of at least 128 elements), no zeroing of their tile, a free entry and room in the range checker create their pawn on their tile's rows; with
no rows or no columns it is due at once. (The model's own readings are in log 4.) -/
def Obligations.AccumulatorCopiesCreateTheirPawn : Prop :=
  (∀ (o : Op.Mc) (store : Bool) (s t : State) (k : Fin 64), metM s o.sync t →
    let b := s.ctx.mb[o.mb]
    let ly := s.core.ly[o.ly]
    s.lyBad o.ly = false → (o.detach = true → o.h = 0) → ly.rows.toNat ≤ 128 → ly.cols.toNat ≤ 128 → b.toNat % 64 = 0 → inWindow b.toNat = true →
    (∀ z ∈ t.ctx.zeroing, z.tile ≠ some o.t) → t.freePawn = some k →
    let line := (t.peek .m .read b.toNat 64).getD 0
    let empty := ly.rows.toNat = 0 ∨ ly.cols = 0
    let d := t.mcContend (if store then .acc2s b o.t.val ly else .s2acc b o.t.val ly) 0
    d.2.checkRanges .m true (t.walkRanges (ly.walkAt b.toNat none 32) (ly.rows.toNat * ly.cols.toNat) store) = .ok () →
    ∃ r, exec (if store then .acc2s o else .s2acc o) s = .next r ∧ createsPawn t r k {
      st := .m, eng := .matrix, pri := o.pri.val, h := o.h, detach := o.detach
      job := if store then .acc2s b o.t.val ly else .s2acc b o.t.val ly, sync := o.sync
      due := s.cycle, lead := if empty then 0 else t.latencyTo s.site line + d.1, rows := tileRows o.t.val
      draw := false, idx := [], tr := [] }) ∧
  (∀ (o : Op.Accmul) (s t : State) (k : Fin 64), metM s o.sync t →
    let b := s.ctx.mb[o.mb]
    let ly := s.core.ly[o.ly]
    s.lyBad o.ly = false → (o.detach = true → o.h = 0) → 128 ≤ ly.rows.toNat * ly.cols.toNat → b.toNat % 64 = 0 → inWindow b.toNat = true →
    (∀ z ∈ t.ctx.zeroing, z.tile ≠ some o.t) → t.freePawn = some k →
    let line := (t.peek .m .read b.toNat 64).getD 0
    let d := t.mcContend (.accmul b o.t.val ly o.axis) 0
    d.2.checkRanges .m true (t.walkRanges (ly.walkAt b.toNat none 32) 128 false) = .ok () →
    ∃ r, exec (.accmul o) s = .next r ∧ createsPawn t r k {
      st := .m, eng := .matrix, pri := o.pri.val, h := o.h, detach := o.detach, job := .accmul b o.t.val ly o.axis, sync := o.sync
      due := s.cycle, lead := t.latencyTo s.site line + d.1, rows := tileRows o.t.val, draw := false, idx := [], tr := [] })

/-! ### Words of the V stream -/

/-- R353 to R362, R364 to R366, R371, R373: a V word that computes each lane by itself, in a format it accepts and with its queues serving
it, puts in flight into each of its destinations one entry whose enabled lanes are its results, rounded once, and whose other lanes are
zero, with the flags of the enabled lanes; its stream goes on and nothing else changes. (The model's own readings are in logs 10 and 15.) -/
def Obligations.VectorLaneWordsPushTheirLanes : Prop :=
  ∀ (i : Instr) (s : State),
    match laneWord s.ctx i with
    | none => True
    | some (w, m, f) => ∀ (t u : State) (es : List QEntry), metV s w.sync t → served t w es u →
      ∃ r fl, lanesAre s.ctx.shape m (f s.ctx.shape (fun j l => laneOf (es.getD j 0) s.ctx.shape.w l)) r fl ∧
        exec i s = .next (pushesAll t u w r fl)

/-- R366, R369, R370, R372, R374, R378: VPOP pops and pushes nothing; VCVT pushes the lanes converted in its own mode, or packed blocks; a
reduction pushes its result in every lane; VSMOV into a lane pushes the entry with that lane replaced; SPCVT converts to or from PS32. (The
model's own readings are in log 15.) -/
def Obligations.VectorEntryWordsPushTheirEntry : Prop :=
  (∀ (o : Op.Vp) (s t u : State) (es : List QEntry), metV s o.sync t →
    let w : VForm := { sync := o.sync, srcs := [⟨o.qa, false⟩], dsts := [], accept := heldFmt, lat := 1 }
    served t w es u → exec (.vpop o) s = .next (pushesNone u (s.cycle + 1) o.sync 0 [])) ∧
  (∀ (o : Op.Vcvt) (s t u : State) (es : List QEntry), metV s o.sync t → o.fmt.val ≠ 0 → o.fmt.val < 14 → o.rm.val < 4 →
    (isBlockFmt o.fmt.val = true → o.m = 0 ∧ s.ctx.shape.blockLanes % 32 = 0 ∧
      s.ctx.shape.blockLanes / 32 ≤ (if o.fmt.val = fmtMxfp8 then 7 else 8)) →
    let w := one o.sync o.qa o.pka o.qd heldFmt 4
    served t w es u →
    ∃ r fl, exec (.vcvt o) s = .next (pushesAll t u w r fl) ∧
      (isBlockFmt o.fmt.val = false → convertsTo s.ctx.shape (s.ctx.getM o.m) o.fmt.val (RMode.ofCode o.rm.val) o.sat (es.getD 0 0) r fl) ∧
      (isBlockFmt o.fmt.val = true → (r, fl) = s.ctx.shape.toBlocks o.fmt.val (RMode.ofCode o.rm.val) o.sat (es.getD 0 0))) ∧
  (∀ (i : Instr) (o : Op.Vu) (f : VShape → List Nat → Nat × BitVec 8) (s t u : State) (es : List QEntry),
    (i = .vrsum o ∧ f = VShape.sum) ∨ (i = .vrmax o ∧ f = fun sh => sh.extremum true) ∨ (i = .vrmin o ∧ f = fun sh => sh.extremum false) →
    metV s o.sync t →
    let w := one o.sync o.qa o.pka o.qd reduceFmt 8
    served t w es u →
    let v := f s.ctx.shape (reduced s.ctx.shape (s.ctx.getM o.m) (es.getD 0 0))
    ∃ r, (∀ l, l < 2048 / s.ctx.shape.w → laneOf r s.ctx.shape.w l = v.1 % 2 ^ s.ctx.shape.w) ∧
      exec i s = .next (pushesAll t u w r v.2)) ∧
  (∀ (o : Op.Vs2l) (s t u : State) (es : List QEntry), metV s o.sync t →
    let n := s.ctx.shape.w
    let w : VForm := { sync := o.sync, srcs := [⟨o.q, false⟩], dsts := [o.q], accept := heldFmt, lat := 2 }
    o.lane.val < 2048 / n → served t w es u →
    ∃ r, (∀ l, l < 2048 / n → laneOf r n l = if l = o.lane.val then (s.ctx.s[o.sr]).toNat % 2 ^ n else laneOf (es.getD 0 0) n l) ∧
      exec (.vsmovToLane o) s = .next (pushesAll t u w r 0)) ∧
  (∀ (o : Op.Spcvt) (s t u : State) (es : List QEntry), metV s o.sync t →
    let w : VForm := { sync := o.sync, srcs := [⟨o.qa, false⟩], dsts := [o.qd], accept := fun _ => true, lat := 4 }
    served t w es u →
    ∃ r fl, (∀ l, l < 64 → laneOf r 32 l = if l < s.ctx.shape.lanes
        then (if o.toF then convertElem fmtPs32 fmtFp32 .rne false (laneOf (es.getD 0 0) 32 l)
          else convertElem fmtFp32 fmtPs32 .rne false (laneOf (es.getD 0 0) 32 l)).1 % 2 ^ 32 else 0) ∧
      exec (.spcvt o) s = .next (pushesAll t u w r fl))

/-- R352, R363, R367, R374: VCMP puts a mask in flight whose bit i says whether lane i is enabled and satisfies the condition, with NV for a
NaN under the four ordered conditions; VSMOV from a lane puts the lane in flight to s[sd], sign-extended from INT8 and INT16. VSETSH of a
value that names a held format, 1 to 256 lanes and a mode below 4, VSETL of 1 to 256, and the four mask words put their value in flight with
latency 1; VSETSH and VSETL of any other value are ILLEGAL. -/
def Obligations.VectorRegisterWordsLandTheirValue : Prop :=
  ((∀ (i : Instr) (o : Op.Vc) (nv : Bool) (s t u : State) (es : List QEntry), vcmpOf i = some (o, nv) → metV s o.sync t →
     let sh := s.ctx.shape
     let w : VForm := { sync := o.sync, srcs := [⟨o.qa, o.pka⟩, ⟨o.qb, o.pkb⟩], dsts := []
                        accept := if o.int then heldFmt else floatFmt, lat := 2 }
     served t w es u →
     let c := fun l => compares i o nv sh (laneOf (es.getD 0 0) sh.w l) (laneOf (es.getD 1 0) sh.w l)
     let on := fun l => l < sh.lanes ∧ l < 2048 / sh.w ∧ (s.ctx.getM o.m).getLsbD l = true
     ∃ v : BitVec 256, (∀ l, l < 256 → v.getLsbD l = (decide (on l) && (c l).1)) ∧
       exec i s = .next (pushesNone (flies u .v 2 (.m o.md) v) (s.cycle + 2) o.sync
         (((List.range (2048 / sh.w)).map (fun l => if on l then (c l).2 else 0)).foldl (fun a b => a ||| b) 0) [])) ∧
   (∀ (o : Op.Vl2s) (s t u : State) (es : List QEntry), metV s o.sync t →
     let sh := s.ctx.shape
     let w : VForm := { sync := o.sync, srcs := [⟨o.q, o.pk⟩], dsts := [], accept := heldFmt, lat := 2 }
     o.lane.val < 2048 / sh.w → served t w es u →
     let v := laneOf (es.getD 0 0) sh.w o.lane.val
     exec (.vsmovToS o) s = .next (pushesNone (flies u .v 2 (.s o.sr)
       (if sh.fmt = fmtInt8 ∨ sh.fmt = fmtInt16 then BitVec.ofNat 256 ((sgn sh.w v) % (2 ^ 32 : Nat)).toNat else BitVec.ofNat 256 v))
       (s.cycle + 2) o.sync 0 []))) ∧
  ((∀ (o : Op.Vset) (s t : State), metV s o.sync t →
     let v := s.ctx.s[o.sr]
     let good := heldFmt (v.toNat % 16) = true ∧ 1 ≤ v.toNat / 16 % 512 ∧ v.toNat / 16 % 512 ≤ 256 ∧ v.toNat / 2 ^ 13 % 8 < 4 ∧ v.toNat < 2 ^ 18
     (good → exec (.vsetsh o) s = .next (pushesNone (flies t .v 1 (.vshape false) (v.setWidth 256)) (s.cycle + 1) o.sync 0 [])) ∧
     (¬good → exec (.vsetsh o) s = .next (t.faultAt .v .illegal 0)) ∧
     (1 ≤ v.toNat → v.toNat ≤ 256 →
       exec (.vsetl o) s = .next (pushesNone (flies t .v 1 (.vshape true) (v.setWidth 256)) (s.cycle + 1) o.sync 0 [])) ∧
     (v.toNat = 0 ∨ 256 < v.toNat → exec (.vsetl o) s = .next (t.faultAt .v .illegal 0))) ∧
   (∀ (o : Op.Vm) (s t : State), metV s o.sync t →
     let lands := fun v => pushesNone (flies t .v 1 (.m o.md) v) (s.cycle + 1) o.sync 0 []
     let a := s.ctx.getM o.ma
     let b := s.ctx.getM o.mb
     exec (.mand o) s = .next (lands (a &&& b)) ∧ exec (.mor o) s = .next (lands (a ||| b)) ∧ exec (.mxor o) s = .next (lands (a ^^^ b))) ∧
   (∀ (o : Op.Vn) (s t : State), metV s o.sync t →
     exec (.mnot o) s = .next (pushesNone (flies t .v 1 (.m o.md) (~~~(s.ctx.getM o.ma))) (s.cycle + 1) o.sync 0 [])))

/-- R377 to R383: SPLD puts its lanes in flight into the cells from s[sr] on; SPST reads them at issue and pushes them; SPUP and SPDN take
the record at the cursor, and put their cells in flight 8 or 12 cycles after the last of its issue cycles; with a bank that is not the
context's they fault with SPBANK, having popped nothing. -/
def Obligations.SumProductWordsWriteTheirCells : Prop :=
  (∀ (o : Op.Spls) (s t u : State) (es : List QEntry), metV s o.sync t → o.part.val ≠ 3 →
    let ref := (s.ctx.s[o.sr]).toNat % 4096
    let n := min s.ctx.shape.lanes 64
    let keys := s.spanKeys o.part.val ref n
    let w : VForm := { sync := o.sync, srcs := [⟨o.q, false⟩], dsts := [], accept := fun _ => true, lat := 4 }
    served t w es u →
    (s.spanBad ref n = false → (∀ p ∈ t.ctx.vpend, ∀ c ∈ p.cells, c.1 ∉ keys) →
      exec (.spld o) s = .next (pushesNone u (s.cycle + 4) o.sync 0
        (keys.mapIdx (fun l key => (key, BitVec.ofNat 32 (laneOf (es.getD 0 0) 32 l)))))) ∧
    (s.spanBad ref n = true → exec (.spld o) s = .next (t.faultAt .v .spbank 0))) ∧
  (∀ (o : Op.Spls) (s t u : State) (es : List QEntry), metV s o.sync t → o.part.val ≠ 3 →
    let ref := (s.ctx.s[o.sr]).toNat % 4096
    let n := min s.ctx.shape.lanes 64
    let keys := s.spanKeys o.part.val ref n
    let w : VForm := { sync := o.sync, srcs := [], dsts := [o.q], accept := fun _ => true, lat := 4 }
    served t w es u → s.spanBad ref n = false → (∀ p ∈ t.ctx.vpend, ∀ c ∈ p.cells, c.1 ∉ keys) →
    exec (.spst o) s = .next (pushesAll t u w (entryOf 32 (keys.map (fun key => (s.core.sp.getD key 0).toNat))) 0)) ∧
  (∀ (qr : Fin 16) (sync : Fin 8) (down addInto : Bool) (s t u : State) (es : List QEntry), metV s sync t →
    let i : Instr := if down then .spdn { sync := sync, qr := qr } else .spup { sync := sync, qr := qr, addInto := addInto }
    let lat := if down then 12 else 8
    let w : VForm := { sync := sync, srcs := [⟨qr, true⟩], dsts := [], accept := fun _ => true, lat := lat }
    served t w es u →
    let r := SubRec.ofEntry (es.getD 0 0) s.ctx.q[qr].cursor.val
    (r.bad s.spBanks.2 = true → exec i s = .next (t.faultAt .v .spbank 0)) ∧
    (r.bad s.spBanks.2 = false → (∀ p ∈ t.ctx.vpend, ∀ c ∈ p.cells, c.1 ∉ s.recKeys r down) →
      let out := if down then s.downCells r else s.upCells r addInto
      let v := pushesNone { u with ctx := u.ctx.takeRec s.cycle qr } (s.cycle + (r.cycles - 1) + lat) sync out.2 out.1
      exec i s = .next { v with ctx := { v.ctx with vs := { v.ctx.vs with readyAt := s.cycle + r.cycles } } }))

/-- R151, R161: an engine stream that issues stands at the next word: outside loops the word after, inside a loop the next word of an active
stage, at the end of the body the first word of an active stage of the next kernel iteration, and after the last one the word after the
body; nothing else changes when no loop ends. -/
def Obligations.EngineStreamsAdvance : Prop :=
  ∀ (st : Strm) (s : State), st ≠ .c → (s.ctx.turn.map (fun u => u.started)).getD true = true →
    let r := s.ctx.strm st
    let at_ := fun (pc : Word) (ls : List LoopSt) (fresh : Bool) => { s with ctx := s.ctx.onStrm st (fun r =>
      { r with pc := pc, loops := ls, bound := fresh, bpSkip := false, awaited := none, wait := none, fence := none, issued := r.issued + 1 }) }
    (r.loops = [] → s.issuedIn st = at_ (r.pc + 4) [] true) ∧
    (∀ l rest, r.loops = l :: rest →
      let i := (r.pc + 4 - l.body).toNat / 4
      let size := l.len / l.stages
      (i < l.len → l.active (i / size) = true → s.issuedIn st = at_ (r.pc + 4) (l :: rest) false) ∧
      (l.len ≤ i → l.iter + 1 < l.count + l.stages - 1 → 0 < l.len → ({ l with iter := l.iter + 1 } : LoopSt).active 0 = true →
        s.issuedIn st = at_ l.body ({ l with iter := l.iter + 1 } :: rest) true) ∧
      (0 < size → i < l.len → l.active (i / size) = false → l.active (i / size + 1) = true → size * (i / size + 1) < l.len → l.len < 2 ^ 40 →
        s.issuedIn st = at_ (BitVec.ofNat 64 (l.body.toNat + 4 * (size * (i / size + 1)))) (l :: rest) false) ∧
      (l.len ≤ i → l.count + l.stages - 1 ≤ l.iter + 1 → rest = [] →
        ((s.issuedIn st).ctx.strm st).pc = r.pc + 4 ∧ ((s.issuedIn st).ctx.strm st).loops = [] ∧ (s.issuedIn st).ctx.x = s.ctx.x))

/-! ### Events: sensors, power, boot, guards, partitions -/

/-- R12, R14 to R17, R61: a droop stretches, counts, excuses the stretched cycles and keeps the order of the results in flight; a column
sample refreshes TALLOW; a stack sample sets and clears REF2X, HOT and HOTSEEN at its thresholds and interrupts when HOT sets; a stack hot
for 1,000 samples is reported; CEIL is clamped to 280 and refused below the grants, a grant is refused above CEIL; a ring measurement runs
while BUSY; 110 °C at a column, 100 °C at a stack, or more than 8.0 kW trip the package. Nothing else changes. (The model's own readings are
in logs 3 and 15.) -/
def Obligations.SensorAndPowerEventsSetTheirRegisters : Prop :=
  (∀ (die n : Nat) (s : State), die < 8 ∨ 16 ≤ die → die < 18 →
    let until_ := s.cycle + max 32 (min 256 n)
    ∃ t, exec (.droopTrigger die n) s = .next t ∧ t.mem = s.mem ∧
      (∀ i : Fin 18, t.dies[i] = if i.val = die then { s.dies[i] with
        droop := if s.dies[i].droop.toNat = 2 ^ 24 - 1 then s.dies[i].droop else s.dies[i].droop + 1
        stretchTo := max s.dies[i].stretchTo until_
        lost := s.dies[i].lost + (until_ - max s.cycle s.dies[i].stretchTo) } else s.dies[i]) ∧
      (16 ≤ die → t = { s with dies := t.dies }) ∧
      (die < 8 → ∀ d : Fin 18, d.val = die →
        let by_ := until_ - max s.cycle s.dies[d].stretchTo
        let here := dieOf s.site = die
        t.ctx.x = s.ctx.x ∧ t.ctx.q = s.ctx.q ∧ t.ctx.turn = s.ctx.turn ∧ t.ctx.cs.pc = s.ctx.cs.pc ∧
        t.ctx.excuseTo = (if here then max s.ctx.excuseTo until_ else s.ctx.excuseTo) ∧
        t.ctx.landing = (if here then s.ctx.landing.map (fun l => { l with due := l.due + by_, dst := l.dst.shift s.cycle by_ }) else s.ctx.landing) ∧
        t.ctx.vpend = (if here then s.ctx.vpend.map (fun v => { v with due := v.due + by_ }) else s.ctx.vpend))) ∧
  (∀ (site : Nat) (temp : BitVec 10) (s : State),
    ∃ cols, exec (.columnSample site temp) s = .next { s with columns := cols } ∧
      ∀ i : Fin 288, cols[i] = if i.val = site then { s.columns[i] with temp := temp, allow := BitVec.ofNat 8 (min 255 (4 * s.tlimit.toNat - temp.toNat)) }
        else s.columns[i]) ∧
  (∀ (k : Fin 12) (temp : BitVec 10) (s : State),
    let v := temp.toNat
    let hot := if 380 ≤ v then true else if v < 372 then false else s.hbm[k].hot
    ∃ h, (∀ i : Fin 12, h[i] = if i = k then { s.hbm[i] with
        temp := temp, ref2x := if 340 < v then true else if v ≤ 332 then false else s.hbm[i].ref2x, hot := hot
        hotseen := s.hbm[i].hotseen || decide (380 ≤ v), run := if 380 ≤ v then s.hbm[i].run + 1 else 0 } else s.hbm[i]) ∧
      exec (.hbmStackSample k.val temp) s = .next { s with
        hbm := h, notices := if hot = true ∧ s.hbm[k].hot = false then s.notices ++ [.hotInterrupt k.val] else s.notices }) ∧
  (∀ (k : Fin 12) (s : State), 1000 ≤ s.hbm[k].run →
    ∃ h, (∀ i : Fin 12, h[i] = if i = k then { s.hbm[i] with run := 0, reports := s.hbm[i].reports + 1 } else s.hbm[i]) ∧
      exec (.hotStackReport k.val) s = .next { s with hbm := h, notices := s.notices ++ [.hotReport k.val] }) ∧
  (∀ (v : BitVec 32) (s : State),
    let ceil := min 280 (v.toNat % 512)
    exec (.drawceilWrite v) s = .next (if ceil < s.grants then { s with ceilErr := true }
      else { s with drawceil := BitVec.ofNat 9 ceil, ceilErr := s.ceilErr && !v.getLsbD 9 })) ∧
  (∀ (part grant : Nat) (s : State),
    let u := s.focusPart part
    u.part.live = true →
    (u.drawceil.toNat < u.grants - u.part.grant + grant → exec (.drawgGrantWrite part grant) s = .next { u with ceilErr := true }) ∧
    (u.grants - u.part.grant + grant ≤ u.drawceil.toNat → grant ≠ 0 →
      exec (.drawgGrantWrite part grant) s = .next { u with part := { u.part with grant := grant } }) ∧
    (u.grants - u.part.grant ≤ u.drawceil.toNat → ∃ t, exec (.drawgGrantWrite part 0) s = .next t ∧ t.mem = s.mem)) ∧
  (∀ (die : Nat) (v : BitVec 32) (count : BitVec 16) (s : State),
    (∃ d, exec (.ringMeasureStart die v) s = .next { s with dies := d } ∧
      ∀ i : Fin 18, d[i] = if i.val = die then { s.dies[i] with
        ringSel := BitVec.ofNat 2 (v.toNat / 2 ^ 16 % 4), ringBusy := s.dies[i].ringBusy || v.getLsbD 18 } else s.dies[i]) ∧
    (∃ d, exec (.ringMeasureDone die count) s = .next { s with dies := d } ∧
      ∀ i : Fin 18, d[i] = if i.val = die ∧ s.dies[i].ringBusy = true then { s.dies[i] with ringCount := count, ringBusy := false }
        else s.dies[i])) ∧
  (∀ (temp : BitVec 10) (isStack : Bool) (s : State), (if isStack then 400 else 440) ≤ temp.toNat →
    exec (.thermalTrip temp isStack) s = .next { s with power := .tripped }) ∧
  (∀ (watts : Nat) (s : State), 8000 < watts → exec (.powerTrip watts) s = .next { s with power := .tripped })

/-- R4, R17, R44, R192, R18: of the management registers, a write of HTEMP clears HOTSEEN and of DROOPCNT its bits where 1 is written,
TLIMIT is clamped to 70 to 105, PEERA takes INC and VALID and clears LOST where 1 is written, PEERB takes its mask, MERR clears CE and UE
where 1 is written; an entry of a retirement list loses V and keeps UC and LINE; MYINC takes the chip number once; a service core's takeover
leaves two of the four at least; the firmware switch takes the other image, and firmware that has started raises the minimum version to what
it asks for next, if that is no lower. (The model's own readings are in logs 3, 8 and 22.) -/
def Obligations.ManagementWritesFollowTheirAccess : Prop :=
  (∀ (k : Fin 12) (v : BitVec 32) (s : State),
    ∃ h, exec (.mgmtRegisterWrite (0x40000 + 4 * k.val) v) s = .next { s with hbm := h } ∧
      ∀ i : Fin 12, h[i] = if i = k then { s.hbm[i] with hotseen := s.hbm[i].hotseen && !v.getLsbD 12 } else s.hbm[i]) ∧
  (∀ (k : Fin 18) (v : BitVec 32) (s : State),
    ∃ d, exec (.mgmtRegisterWrite (0x40600 + 4 * k.val) v) s = .next { s with dies := d } ∧
      ∀ i : Fin 18, d[i] = if i = k then { s.dies[i] with droop := s.dies[i].droop &&& ~~~(v.setWidth 24) } else s.dies[i]) ∧
  (∀ (v : BitVec 32) (s : State),
    exec (.mgmtRegisterWrite 0x40804 v) s = .next { s with tlimit := BitVec.ofNat 8 (max 70 (min 105 (v.toNat % 256))) }) ∧
  (∀ (k : Fin 64) (v : BitVec 32) (s : State),
    (∃ p, exec (.mgmtRegisterWrite (0x50000 + 8 * k.val) v) s = .next { s with peers := p } ∧
      ∀ i : Fin 64, p[i] = if i = k then { s.peers[i] with
        inc := v.setWidth 16, valid := v.getLsbD 16, lost := s.peers[i].lost && !v.getLsbD 18 } else s.peers[i]) ∧
    (∃ p, exec (.mgmtRegisterWrite (0x50004 + 8 * k.val) v) s = .next { s with peers := p } ∧
      ∀ i : Fin 64, p[i] = if i = k then { s.peers[i] with ports := v.setWidth 18 } else s.peers[i])) ∧
  (∀ (k : Fin 30) (v : BitVec 32) (s : State),
    ∃ m, exec (.mgmtRegisterWrite (0x40A00 + 4 * k.val) v) s = .next { s with memctl := m } ∧
      ∀ i : Fin 30, m[i] = if i = k then { s.memctl[i] with
        ce := s.memctl[i].ce &&& ~~~(v.setWidth 16), ue := s.memctl[i].ue &&& ~~~(BitVec.ofNat 8 (v.toNat / 2 ^ 16 % 256)) } else s.memctl[i]) ∧
  (∀ (v : BitVec 32) (s : State), exec (.myincChipWrite v) s = .next (if s.clock then s
    else { s with chip := BitVec.ofNat 6 (v.toNat / 2 ^ 16 % 64), clock := true })) ∧
  (∀ (k : Fin 30) (i : Fin 32) (v : BitVec 32) (e : RetEnt) (s : State), s.memctl[k].list.find? i.val = some e →
    (v.getLsbD 0 = true → ∃ m, exec (.mgmtRegisterWrite (0x41000 + 256 * k.val + 8 * i.val) v) s = .next { s with memctl := m } ∧
      m[k].list.find? i.val = some { e with v := false } ∧ ∀ j : Fin 30, j ≠ k → m[j] = s.memctl[j]) ∧
    (v.getLsbD 0 = false → exec (.mgmtRegisterWrite (0x41000 + 256 * k.val + 8 * i.val) v) s = .next s)) ∧
  (∀ (core : Fin 4) (s : State),
    let left := fun (i : Fin 4) => s.serviceCores.getLsbD i.val && decide (i ≠ core)
    (2 ≤ ((List.finRange 4).filter left).length →
      ∃ m, exec (.serviceCoreTakeover core.val) s = .next { s with serviceCores := m } ∧ ∀ i : Fin 4, m.getLsbD i.val = left i) ∧
    (((List.finRange 4).filter left).length < 2 → exec (.serviceCoreTakeover core.val) s = .next s)) ∧
  (∀ s : State,
    (s.boot.step ≠ .running → exec .firmwareSwitch s = .next { s with imageB := !s.imageB }) ∧
    (s.boot.step = .running → exec .firmwareSwitch s = .next { s with
      imageB := !s.imageB
      raises := s.raises.tail
      store := { s.store with minVersion := match s.raises with
        | [] => s.store.minVersion
        | v :: _ => if s.store.minVersion.toNat ≤ v.toNat then v else s.store.minVersion } }))

/-- R43, R56 to R58: power-up counts the incarnation and boots on the lowest service core that passes, from a server record or by DHCPv6;
port 1 follows port 0, then the boot fails in step 1; a tftp reply starts the fetch, another fails step 2; a block of 512 bytes is stored,
one beyond the largest image fails step 3, a last one that the ROM refuses fails step 4; a block is asked for 6 times, the transfer 4 times;
a boot that has failed begins again. Losing power leaves the module's store and what lies outside the package. (The model's own readings are
in logs 3, 8, 13 and 16.) -/
def Obligations.BootEventsFollowTheRom : Prop :=
  (∀ (selfTest : BitVec 4) (westOk : Bool) (s : State), s.power = .failed ∨ (s.power = .on ∧ s.boot.step = .idle) →
    ∃ t, exec (.powerUpBoot selfTest westOk) s = .next t ∧ t.power = .on ∧ t.store.incarnation = s.store.incarnation + 1 ∧
      t.myInc = s.store.incarnation + 1 ∧ t.eastKey = !westOk ∧ t.mem = s.mem ∧
      (selfTest = 0 → t.boot.step = .bootfail ∧ t.notices = s.notices ++ [.bootFail]) ∧
      (∀ k : Fin 4, selfTest.getLsbD k.val = true → (∀ j : Fin 4, j < k → selfTest.getLsbD j.val = false) →
        t.boot.core = k.val ∧ t.boot.port = 0 ∧ t.boot.nextBlock = 1 ∧ t.boot.image = [] ∧
        t.boot.step = (if (t.record 2).isSome then .fetch else .server))) ∧
  (∀ s : State, s.boot.step = .server ∨ s.boot.step = .fetch →
    exec .bootLinkTimeout s = .next (if s.boot.linkTries = 0 then { s with boot := { s.boot with port := 1, linkTries := 1 } }
      else { s with boot := { s.boot with step := .failed 1 0 }, notices := s.notices ++ [.bootReport 1 0] })) ∧
  (∀ (tftp : Bool) (server : Nat) (file : List (BitVec 8)) (s : State), s.boot.step = .server →
    exec (.dhcpv6ReplyReceive tftp server file) s = .next (if tftp
      then { s with boot := { s.boot with step := .fetch, server := some (server, file), nextBlock := 1 } }
      else { s with boot := { s.boot with step := .failed 2 1 }, notices := s.notices ++ [.bootReport 2 1] })) ∧
  (∀ (data : List (BitVec 8)) (s : State), s.boot.step = .fetch →
    let u := { s with boot := { s.boot with image := s.boot.image ++ data, nextBlock := s.boot.nextBlock + 1, retries := 0 } }
    (data.length = 512 → (s.boot.image ++ data).length ≤ 33553920 →
      exec (.tftpBlockReceive (s.boot.nextBlock % 65536) data) s = .next u) ∧
    (data.length ≤ 512 → 33553920 < (s.boot.image ++ data).length →
      exec (.tftpBlockReceive (s.boot.nextBlock % 65536) data) s = .next
        { u with boot := { u.boot with step := .failed 3 3 }, notices := s.notices ++ [.bootReport 3 3] }) ∧
    (data.length < 512 → (s.boot.image ++ data).length ≤ 33553920 → s.store.acceptsImage (s.boot.image ++ data) = false →
      exec (.tftpBlockReceive (s.boot.nextBlock % 65536) data) s = .next
        { u with boot := { u.boot with step := .failed 4 4 }, notices := s.notices ++ [.bootReport 4 4] }) ∧
    (data.length < 512 → (s.boot.image ++ data).length ≤ 33553920 → s.store.acceptsImage (s.boot.image ++ data) = true →
      ∃ t, exec (.tftpBlockReceive (s.boot.nextBlock % 65536) data) s = .next t ∧ t.boot.step = .running ∧ t.guards.locked = true ∧
        t.serviceCores = s.boot.passed ∧ t.mem = s.mem)) ∧
  (∀ s : State, s.boot.step = .fetch →
    exec .tftpBlockRetry s = .next (if s.boot.retries < 5 then { s with boot := { s.boot with retries := s.boot.retries + 1 } }
      else if s.boot.restarts < 3 then { s with boot := { s.boot with
        restarts := s.boot.restarts + 1, port := 1 - s.boot.port, retries := 0, nextBlock := 1, image := [] } }
      else { s with boot := { s.boot with step := .failed 3 2 }, notices := s.notices ++ [.bootReport 3 2] })) ∧
  (∀ (s : State) (a b : Nat), s.boot.step = .failed a b →
    ∃ t, exec .bootRetry s = .next t ∧ t.boot.step = (if (s.record 2).isSome then .fetch else .server) ∧ t.boot.restarts = 0 ∧
      t = { s with boot := t.boot }) ∧
  (∀ s : State, ∃ t, exec .powerFail s = .next t ∧ t.power = .failed ∧ t.store = s.store ∧ t.cycle = s.cycle ∧ t.cores = [] ∧ t.parts = [] ∧
    t.part = Machine.Part.none ∧ t.ctx = Context.reset ∧
    ∀ a, t.mem.read a = if 2 ^ 57 ≤ a ∧ a < 2 ^ 63 then s.mem.read a else 0)

/-- R51 to R55, R58, R59, R61, R62: SUBMIT queues an aligned offset inside the window, sets BADADDR or OVF otherwise; the oldest entry's
record is copied and counted; a write of the window stores its bytes, SUBST's bits clear where 1 is written, SEAL is written; a
function-level reset empties the queue and what was copied from it; a signature takes the next index and is released when the counter is
confirmed; a host write inside a registered window and within the cap lands, any other is dropped, counted and reported, and a copy out of
memory starts; a frame within the meter passes and is counted, another is dropped. (The model's own readings are in logs 3 and 8.) -/
def Obligations.SubmissionSealAndGuardEvents : Prop :=
  (∀ (part n : Nat) (v : BitVec 64) (s : State),
    let u := s.focusPart part
    u.part.live = true →
    exec (.submitWrite part n v) s = .next { u with part :=
      if n < 8 ∨ v.toNat % 64 ≠ 0 ∨ 2 ^ 20 < v.toNat + 256 then { u.part with badaddr := true }
      else if 16 ≤ u.part.subq.length then { u.part with ovf := true } else { u.part with subq := u.part.subq ++ [v.toNat] } }) ∧
  (∀ (part off : Nat) (rest : List Nat) (s : State),
    let u := s.focusPart part
    u.part.live = true → u.part.swapped = false → u.part.subq = off :: rest →
    exec (.submissionCopy part) s = .next { u with part := { u.part with
      subq := rest, accepted := u.part.accepted + 1
      copied := u.part.copied ++ [(off, u.mem.readBytes (u.part.window + off) 256)] } }) ∧
  (∀ (part off : Nat) (data : List (BitVec 8)) (s : State),
    let u := s.focusPart part
    let v := leNat data
    u.part.live = true →
    (off + data.length ≤ 2 ^ 20 → u.part.holders.getD ((u.part.window + off) / 65536) [] = [] →
      (∀ w ∈ u.part.replWrites, w.frame ≠ (u.part.window + off) / 65536) →
      ∃ bad flips, exec (.submissionWindowWrite part off data) s = .next { u with
        badWords := bad, flips := flips, mem := u.mem.writeBytes (u.part.window + off) data }) ∧
    exec (.submissionWindowWrite part 0x100004 data) s = .next { u with part := { u.part with badaddr := true } } ∧
    exec (.submissionWindowWrite part 0x100008 data) s = .next { u with part := { u.part with
      ovf := u.part.ovf && !v.testBit 5, badaddr := u.part.badaddr && !v.testBit 6 } } ∧
    exec (.submissionWindowWrite part 0x100010 data) s = .next { u with part := { u.part with sealOpen := v.testBit 0 } }) ∧
  (∀ (part : Nat) (s : State),
    let u := s.focusPart part
    u.part.live = true →
    exec (.sealOpen part) s = .next { u with part := { u.part with sealOpen := true } } ∧
    exec (.sealClose part) s = .next { u with part := { u.part with sealOpen := false } } ∧
    ∃ t, exec (.vfFunctionLevelReset part) s = .next t ∧ t.part.subq = [] ∧ t.part.copied = []) ∧
  (∀ (nonce : List (BitVec 8)) (s : State), nonce.length = 32 → s.signing = none → s.store.xmssIndex < 2 ^ 20 →
    exec (.attestationRequest nonce none) s = .next { s with
      store := { s.store with xmssIndex := s.store.xmssIndex + 1 }, signing := some (reportOf nonce s.measure s) }) ∧
  (∀ (r : List (BitVec 8)) (s : State), s.signing = some r →
    exec .keyCounterConfirm s = .next { s with
      signing := none, notices := s.notices ++ [.report (r ++ Config.xmssSign (s.store.xmssIndex - 1) r)] }) ∧
  (∀ (windows : List (Nat × Nat)) (addr pa n : Nat) (data : List (BitVec 8)) (s : State), s.guards.locked = true →
    let ws := (s.guards.windows ++ windows.filter (fun w => decide (w.1 % 4096 = 0) && decide (w.2 % 4096 = 0) && decide (0 < w.2))).take 16
    let u := { s with guards := { s.guards with windows := ws } }
    let g := u.metered
    let passes := (∃ w ∈ ws, w.1 ≤ addr ∧ addr + data.length ≤ w.1 + w.2) ∧ g.writeUsed + data.length ≤ s.guards.burst
    (passes → ∃ bad flips, exec (.serviceCoreHostWrite windows ⟨addr, .own data⟩) s = .next { u with
      guards := { g with writeUsed := g.writeUsed + data.length }, badWords := bad, flips := flips, mem := s.mem.writeBytes (hostKey 16 addr) data }) ∧
    (¬passes → exec (.serviceCoreHostWrite windows ⟨addr, .own data⟩) s = .next { u with
      guards := { g with writeDrops := s.guards.writeDrops + 1 }, notices := s.notices ++ [.pf0Vector 63] }) ∧
    exec (.serviceCoreHostWrite windows ⟨addr, .memory pa n⟩) s = .next { u with
      svcCopies := s.svcCopies ++ [{ addr := addr, pa := pa, left := n }] }) ∧
  (∀ (port : Fin 2) (n : Nat) (s : State), s.guards.locked = true →
    let g := s.metered
    let used := g.egressUsed.getD port.val 0
    exec (.ethernetFrameSend port.val n) s = .next { s with guards :=
      if used + n ≤ g.burst then { g with egressUsed := g.egressUsed.set port.val (used + n) } else { g with frameDrops := g.frameDrops + 1 } })

/-- R52, R59, R62, R117, R190, R192, R207, R399: a partition made of free clusters under the ceiling is live with its seal closed, no time
passed and its enabled sites numbered from 0; clusters that join are numbered after those; a partition destroyed leaves its memory zero and
every core of it at reset; a quiet cluster may be gated and ungated; a bank goes drowsy; a corrected word counts in its controller and an
uncorrectable one is bad; the trace buffer drains two records a cycle. (The model's own readings are in logs 3, 13 and 16.) -/
def Obligations.PartitionClusterAndUpkeepEvents : Prop :=
  (∀ (part : Nat) (p : PartSpec) (s : State), s.mayCreate part p = true →
    ∃ t, exec (.partitionCreate part p) s = .next t ∧ t.pid = part ∧ t.part.live = true ∧ t.part.sealOpen = false ∧ t.part.measure = List.replicate 32 0 ∧
      t.part.created = BitVec.ofNat 64 s.dt ∧ t.part.swappedTotal = 0 ∧ t.part.grant = p.grant ∧ t.part.map = p.map ∧
      t.part.nextCore = t.part.cores.length ∧ t.part.nextCore = ((s.focusPart part).enabledSites p.clusters).length ∧ t.mem = s.mem) ∧
  (∀ (part : Nat) (cls : List Nat) (s : State),
    let u := s.focusPart part
    u.part.live = true → u.part.swapped = false → u.isPausing part = false →
    (∀ c ∈ cls, c < 72 ∧ (u.clusterOwner c = none ∨ u.clusterOwner c = some part)) →
    ∃ t, exec (.sitesJoinPartition part cls) s = .next t ∧ t.mem = s.mem ∧
      t.part.nextCore = u.part.nextCore + ((u.enabledSites cls).filter (fun i => (u.part.cores.find? i).isNone)).length) ∧
  (∀ (part : Nat) (s : State),
    let u := s.focusPart part
    u.part.live = true →
    ∃ t, exec (.partitionDestroy part) s = .next t ∧ t.part = Machine.Part.none ∧
      (∀ r ∈ mapRanges u.part.map, ∀ a, r.1 ≤ a → a < r.1 + r.2 → t.mem.read a = 0) ∧
      (∀ i ∈ u.liveSites, ∀ a, spKey i 0 ≤ a → a < spKey i 0 + 2 ^ 22 → t.mem.read a = 0)) ∧
  (∀ (cluster : Nat) (s : State), cluster < 72 → cluster ∉ s.gated → (∀ i ∈ sitesOf cluster, (s.boxAt i).quiet = true) →
    ∃ t, exec (.clusterPowerGate cluster) s = .next t ∧ t.gated = s.gated ++ [cluster] ∧ t.mem = s.mem ∧ t.part = s.part) ∧
  (∀ (cluster : Nat) (s : State), cluster ∈ s.gated →
    ∃ t, exec (.clusterUngate cluster) s = .next t ∧ t.gated = s.gated.erase cluster ∧ t.mem = s.mem ∧ t.part = s.part) ∧
  (∀ (site bank : Nat) (s : State), site < 288 → bank < 64 → (site, bank) ∉ s.drowsy →
    exec (.bankGoesDrowsy site bank) s = .next { s with drowsy := s.drowsy ++ [(site, bank)] }) ∧
  (∀ (pa : Nat) (s : State),
    exec (.scrubVisit pa .clean) s = .next s ∧
    (pa < 12 * 2 ^ 36 → ∃ c m, exec (.scrubVisit pa .corrected) s = .next { s with
        corrections := c, memctl := m, flips := s.flips.filter (fun w => decide (w ≠ pa / 8 * 8)) } ∧
      ∀ k : Fin 30, k.val = 18 + pa / 2 ^ 36 → m[k].ce = satInc s.memctl[k].ce ∧ m[k].ue = s.memctl[k].ue) ∧
    (pa < 12 * 2 ^ 36 → ∃ t, exec (.scrubVisit pa .uncorrectable) s = .next t ∧
      (∀ k : Fin 30, k.val = 18 + pa / 2 ^ 36 → t.memctl[k].ue = satInc s.memctl[k].ue) ∧
      (s.ownerOfKey (pa / 8 * 8) = none → pa / 8 * 8 ∈ t.badWords ∧ t.mem = s.mem))) ∧
  (∀ (site : Nat) (s : State),
    let u := s.focus site s.cx
    u.drainDue = true → u.core.lost = 0 → u.core.trace ≠ [] →
    ∃ t, exec (.traceDrain site) s = .next t ∧ t.core.trace = u.core.trace.drop 2 ∧ t.core.drainAt = s.cycle + 1)


/-! ### Events: repairs, the mesh, links -/

/-- R18 to R22, R112: a repair starts when none of its kind is in progress; a spare takes over its site's logical number and the map is
written; without a spare the number is withdrawn; a row under repair keeps every byte and every access under way, and is served from its
staging copy, in 60 cycles and by no network, until the repair is over; a retired channel and a retired bank leave their contents at their
addresses, and the memory that took them answers to its own no more; a lane's spare, a port at half width, a port out of service with its
bit in every mask, a link of the mesh taken out. (The model's own readings are in logs 3, 4, 9, 12 and 16.) -/
def Obligations.RepairEventsKeepWhatTheyMove : Prop :=
  ((∀ (r : Repair) (s : State), exec (.repairRequest r) s = .next (if s.repairing.any (sameKind r)
      then { s with repairs := s.repairs ++ [r] } else { s with repairing := s.repairing ++ [r] })) ∧
   (∀ (n : Fin 288) (sp : Nat) (s : State), s.spareOf n.val = some sp → s.mayRepair (.coreSite n.val) = true → s.columns[n].spare = false →
     let taken := fun (t : State) => t.store.spareMap = s.store.spareMap + 1 ∧
       ∀ i : Fin 288, t.columns[i] = if i = n then { s.columns[i] with spare := true, retired := true }
         else if i.val = sp then { s.columns[i] with spare := false } else s.columns[i]
     (s.holderOf n.val = none → s.spareFits n.val sp = true → ∃ t, exec (.coreSiteRepair n.val) s = .next t ∧ taken t ∧ t.mem = s.mem ∧
       (t.boxAt n.val).core.enabled = false ∧ (t.boxAt sp).core.enabled = true) ∧
     (∀ p, s.holderOf n.val = some p →
       let u := s.focusPart p
       u.part.live = true → u.spareUsable sp = true →
       (u.part.swapped = false → u.isPausing p = false →
         ∃ t, exec (.coreSiteRepair n.val) s = .next t ∧ t.pauses = s.pauses ++ [(p, .repair n.val)] ∧ t.mem = s.mem ∧ t.part = u.part ∧
           .coreSite n.val ∈ t.repairing ∧ ∀ i ∈ u.liveSites, (t.boxAt i).core.stopping = true) ∧
       (∀ k, (u.part.swapped = true ∧ u.isPausing p = false ∨
           u.pauses.contains (p, .repair n.val) = true ∧ u.part.swapped = false ∧ u.allStopped = true) →
         Tab.wf u.part.cores = true → u.part.cores.find? n.val = some k →
         ∃ t, exec (.coreSiteRepair n.val) s = .next t ∧ t.part.cores.find? sp = some k ∧ t.part.cores.find? n.val = none ∧ taken t ∧
           t.notices = s.notices ++ [.mapResume p]))) ∧
   (∀ (n : Fin 288) (s : State), s.spareOf n.val = none → s.mayRepair (.coreSite n.val) = true → s.columns[n].spare = false →
     ∃ t, exec (.coreSiteRetire n.val) s = .next t ∧ t.store.spareMap = s.store.spareMap + 1 ∧ t.mem = s.mem ∧
       (t.boxAt n.val).core.enabled = false ∧
       (s.part.live = true → Tab.wf s.part.cores = true →
         ∀ k, t.part.cores.find? k = if k = n.val then none else s.part.cores.find? k) ∧
       ∀ i : Fin 288, t.columns[i] = if i = n then { s.columns[i] with spare := true, retired := true } else s.columns[i])) ∧
  ((∀ (base : Nat) (s : State), base % 65536 = 0 → base < 12 * 2 ^ 36 →
     (base ∉ s.stagedRows → ∃ t, exec (.hbmRowRepair base) s = .next t ∧ t = { s with stagedRows := s.stagedRows ++ [base] } ∧
       ∀ site i, i < 65536 → t.latencyTo site (base + i) = 60 ∧ t.slowKey (base + i) = true ∧ ∀ port, t.netEnd (base + i) port = none) ∧
     (base ∈ s.stagedRows → s.stagedRows.Nodup → (∀ r ∈ s.stagedRows, r % 65536 = 0) →
       ∃ t, exec (.hbmRowRepairDone base) s = .next t ∧ t = { s with stagedRows := s.stagedRows.erase base } ∧
       ∀ site i, i < 65536 → t.latencyTo site (base + i) = 490 ∧ ∀ port, t.netEnd (base + i) port ≠ none)) ∧
   (∀ (stack chan src dst bytes : Nat) (s : State),
     s.repairing.find? (isChannel stack chan) = some (.hbmChannel stack chan src dst bytes) → stack < 12 → chan < 32 →
     (stack, chan) ∉ s.retiredChans →
     let n := min bytes (2 ^ 31)
     ∃ t, exec (.hbmChannelRetire stack chan) s = .next t ∧ repairEnds s t (.hbmChannel stack chan src dst bytes) ∧
       t.retiredChans = s.retiredChans ++ [(stack, chan)] ∧ t.stagedRows = s.stagedRows ∧
       (∀ a, t.mem.read a = if dst ≤ a ∧ a < dst + n then 0 else s.mem.read a) ∧
       ∀ pa, t.names pa = (s.names pa && !(decide (dst ≤ pa) && decide (pa < dst + n)))) ∧
   (∀ (site row : Nat) (s : State), site < 288 → (site, row) ∉ s.sparedRows →
     exec (.deepRowSpare site row) s = .next { s with sparedRows := s.sparedRows ++ [(site, row)] }) ∧
   (∀ (site bank c d : Nat) (s : State) (l₁ l₂ : List Repair), s.repairing = l₁ ++ .deepBank site bank c d :: l₂ →
     (∀ x y, Repair.deepBank site bank x y ∉ l₁) → site < 288 → bank < 64 →
     (∀ x ∈ s.retiredBanks, x.1 ≠ site * 64 + bank) → s.names (2 ^ 40 + (c * 64 + d) * 2 ^ 18) = true →
     (∀ p ∈ s.livePids, (s.focusPart p).bankMovable (site * 64 + bank) (c * 64 + d) = true) →
     let at_ := 2 ^ 40 + (c * 64 + d) * 2 ^ 18
     ∃ t, exec (.deepBankRetire site bank) s = .next t ∧ repairEnds s t (.deepBank site bank c d) ∧
       (∀ a, t.mem.read a = if at_ ≤ a ∧ a < at_ + 2 ^ 18 then 0 else s.mem.read a) ∧
       (∀ pa, t.names pa = (s.names pa && !(decide (at_ ≤ pa) && decide (pa < at_ + 2 ^ 18)))) ∧
       ∀ key, t.bankOf key = if s.bankOf key = some (site * 64 + bank) then some (c * 64 + d) else s.bankOf key)) ∧
  ((∀ (port : Fin 18) (lane : Nat) (s : State), s.ports[port].spareUsed = false → s.ports[port].inService = true →
     s.mayRepair (.linkLane port.val) = true →
     ∃ ps, exec (.linkLaneSpare port.val lane) s = .next { s with
         ports := ps
         repairing := if s.repairing.contains (.linkLane port.val) = true then s.repairing else s.repairing ++ [.linkLane port.val] } ∧
       ∀ i : Fin 18, ps[i] = if i = port then { s.ports[i] with
         failed := s.ports[i].failed + 1, spareUsed := true, heldTo := max s.ports[i].heldTo (s.cycle + 3500) } else s.ports[i]) ∧
   (∀ (port : Fin 18) (s : State), ∃ ps, exec (.linkPortRetrain port.val) s = .next { s with ports := ps } ∧
     ∀ i : Fin 18, ps[i] = if i = port ∧ s.ports[i].spareUsed = true ∧ s.ports[i].half = false ∧ s.ports[i].inService = true
       then { s.ports[i] with failed := s.ports[i].failed + 1, half := true } else s.ports[i]) ∧
   (∀ (port : Fin 18) (s : State), s.ports[port].half = true → s.ports[port].inService = true →
     let masks := fun (qs : Vector Peer 64) => ∀ k : Fin 64, qs[k] = { s.peers[k] with ports := qs[k].ports } ∧
       ∀ i : Fin 18, qs[k].ports.getLsbD i.val = (s.peers[k].ports.getLsbD i.val && decide (i ≠ port))
     (∃ t, exec (.linkPortOut port.val) s = .next t ∧ t.mem = s.mem ∧ t.ports[port].inService = false ∧
       t.ports[port].failed = s.ports[port].failed + 1 ∧ masks t.peers) ∧
     (s.ports[port].waiting = [] → ∃ ps qs, exec (.linkPortOut port.val) s = .next { s with ports := ps, peers := qs } ∧ masks qs ∧
       ∀ i : Fin 18, ps[i] = if i = port then { s.ports[i] with failed := s.ports[i].failed + 1, inService := false } else s.ports[i])) ∧
   (∀ (x y : Nat) (dir : Fin 4) (s : State),
     exec (.meshLinkReroute x y dir) s = .next (if (x, y, dir.val) ∈ s.mesh.failedLinks then s
       else { s with mesh := { s.mesh with failedLinks := s.mesh.failedLinks ++ [(x, y, dir.val)] } })))

/-- R23 to R36: a request that can hold its response buffers stands with all its flits at its source, or on the memory plane with its beats,
else it waits; a set-up wins at most nine outputs, none over a bridge but by itself, and no output twice; a bypass carries a flit into the
router after the last output it won, or out of the mesh, and the next FCLK cycle begins; a request that arrives whole is answered by its
home; a latched flit moves one hop by the output it has won, and a bridge keeps the packet; a bridge whose retries are exhausted loses its
packets, and their requesters learn it, with the number of this chip; a beat of the memory plane moves one router in an MCLK cycle, out of a
stack's port in five of seven. (The model's own readings are in logs 3 and 19.) -/
def Obligations.MeshEventsMoveFlits : Prop :=
  (∀ (p : PktSpec) (s : State),
    let data := match p.cmd with | .read _ => 0 | .write n => (n + 127) / 128
    let bufs := max 1 (match p.cmd with | .read n => (n + 127) / 128 | .write _ => 0)
    (p.ok = false → exec (.packetInject p) s = .next s) ∧
    (p.ok = true → s.mesh.mayInject p = false →
      exec (.packetInject p) s = .next { s with mesh := { s.mesh with waiting := s.mesh.waiting ++ [p] } }) ∧
    (p.ok = true → s.mesh.mayInject p = true →
      ∃ m q new beats, exec (.packetInject p) s = .next { s with mesh := m } ∧
        m.flits = s.mesh.flits ++ new ∧ m.beats = s.mesh.beats ++ beats ∧ m.packets = s.mesh.packets ++ [q] ∧ m.waiting = s.mesh.waiting ∧
        m.fclk = s.mesh.fclk ∧ m.serving = s.mesh.serving ∧ m.ended = s.mesh.ended ∧
        q.cls = .request0 ∧ q.spec = p ∧ q.src = p.src ∧ q.dst = p.dst ∧ q.data = data ∧ q.id = s.mesh.nextId ∧
        (onPlane p.src p.dst = false → beats = [] ∧ new.length = data + 1) ∧
        (onPlane p.src p.dst = true → new = [] ∧ beats.length = max 1 ((data + 3) / 4)) ∧
        (∀ f ∈ new, f.packet = q.id ∧ (f.x, f.y) = endAt p.src ∧ f.port = 6 ∧ f.chan = 0 ∧ f.crossed = 0 ∧ f.won = []) ∧
        (∀ b ∈ beats, b.packet = q.id ∧ (b.x, b.y) = endAt p.src ∧ b.resp = false ∧ b.ready = s.cycle + 1) ∧
        (Tab.wf s.mesh.reserved = true →
          ∀ k, m.reserved.getD k 0 = s.mesh.reserved.getD k 0 + (if k = bufferKey p then bufs else 0)))) ∧
  (∀ s : State, (∀ f ∈ s.mesh.flits, f.won = []) → s.mesh.waiting = [] →
    ∃ m, exec .flitSetup s = .next { s with mesh := m } ∧ m.setupOwed = false ∧ m.fclk = s.mesh.fclk ∧ m.packets = s.mesh.packets ∧
      m.reserved = s.mesh.reserved ∧ m.flits.map (fun f => f.id) = s.mesh.flits.map (fun f => f.id) ∧
      (∀ f ∈ m.flits, f.won.length ≤ 9 ∧ (2 ≤ f.won.length → ∀ h ∈ f.won, isBridge h.1 h.2.1 h.2.2 = false) ∧
        (f.idx = 0 → ∀ h ∈ f.won, (neighbour h.1 h.2.1 h.2.2).isSome = true → h ∉ s.mesh.failedLinks)) ∧
      ∀ f ∈ m.flits, ∀ g ∈ m.flits, ∀ h, h ∈ f.won → h ∈ g.won → f.id = g.id) ∧
  (∀ s : State,
    let m := { s.mesh with fclk := s.mesh.fclk + 1, nextAt := s.cycle + 2, setupOwed := true }
    ((∀ f ∈ s.mesh.flits, f.won = []) → exec .flitBypass s = .next { s with mesh := m }) ∧
    ∀ f h p, s.mesh.flits = [f] → f.idx = 0 → f.chan < 4 → f.won.getLast? = some h → s.mesh.pkt? f.packet = some p →
      (∀ o ∈ f.won, isBridge o.1 o.2.1 o.2.2 = false) →
      (∀ n, neighbour h.1 h.2.1 h.2.2 = some n → (s.mesh.adaptive f.x f.y (endAt p.dst)).isSome = true →
        exec .flitBypass s = .next { s with mesh := { m with
          flits := [{ f with
            x := n.1, y := n.2, port := entryPort h.2.2, own := false, since := s.mesh.fclk + 2, crossed := f.crossed + f.won.length, won := [] }]
          packets := s.mesh.packets.map (fun q => if q.id = f.packet
            then { q with route := q.route ++ f.won.map (fun o => { out := o, chan := f.chan }) } else q) } }) ∧
      (neighbour h.1 h.2.1 h.2.2 = none → ∃ m', exec .flitBypass s = .next { s with mesh := m' } ∧
        m'.delivered = s.mesh.delivered ++ [(p.id, s.mesh.fclk + 1)] ∧
        (p.cls = .response0 → m'.flits = [] ∧ m'.ended = s.mesh.ended ++ [(p.spec, none)] ∧
          m'.packets = s.mesh.packets.filter (fun q => decide (q.id ≠ p.id))) ∧
        (p.cls = .request0 → s.mesh.serving = [] → p.spec.asks = [] → ∃ q,
          m'.packets = s.mesh.packets.filter (fun q => decide (q.id ≠ p.id)) ++ [q] ∧ q.cls = .response0 ∧ q.spec = p.spec ∧
          q.src = p.spec.dst ∧ q.dst = p.spec.src ∧ q.data = (match p.spec.cmd with | .read n => (n + 127) / 128 | .write _ => 0)))) ∧
  (∀ (s : State) (f : Flit) (p : MeshPkt), s.mesh.flits.find? (fun g => decide (g.id = f.id)) = some f → s.mesh.pkt? f.packet = some p →
    (s.mesh.setupOwed = false ∨ f.won = [] → exec (.latchedHop f.id) s = .next s) ∧
    (∀ h n, s.mesh.setupOwed = true → f.won = [h] → f.idx = 0 → neighbour h.1 h.2.1 h.2.2 = some n →
      (f.chan < 4 ∧ isBridge h.1 h.2.1 h.2.2 = true ∧ (s.mesh.adaptive f.x f.y (endAt p.dst)).isSome = true ∧
          0 < s.mesh.poolFree n.1 n.2 (entryPort h.2.2) ∨
        (f.chan = 4 ∨ f.chan = 5) ∧ s.mesh.ownFree n.1 n.2 (entryPort h.2.2) f.chan = true ∧ s.mesh.heldBy f.packet h f.chan = false) →
      ∃ m, exec (.latchedHop f.id) s = .next { s with mesh := m } ∧ m.fclk = s.mesh.fclk ∧
        m.flits = s.mesh.flits.map (fun g => if g.id = f.id then
          { f with x := n.1, y := n.2, port := entryPort h.2.2, own := decide (4 ≤ f.chan), since := s.mesh.fclk + 1, crossed := f.crossed + 1
                   won := [] } else g) ∧
        m.packets = s.mesh.packets.map (fun q => if q.id = f.packet then { q with route := q.route ++ [{ out := h, chan := f.chan }] } else q) ∧
        (isBridge h.1 h.2.1 h.2.2 = false → m.bridges = s.mesh.bridges) ∧
        (isBridge h.1 h.2.1 h.2.2 = true → ∃ b ∈ m.bridges, b.link = h ∧ b.packet = f.packet ∧ b.sentAt = s.mesh.fclk ∧ b.resends = 0))) ∧
  (∀ (x y : Nat) (dir : Fin 4) (s : State),
    let link := (x, y, dir.val)
    (isBridge x y dir.val = false → exec (.bridgeRetryExhausted x y dir) s = .next s) ∧
    (isBridge x y dir.val = true → s.mesh.serving = [] →
      ∃ m ns, exec (.bridgeRetryExhausted x y dir) s = .next { s with mesh := m, notices := s.notices ++ ns } ∧
        m.failedLinks = s.mesh.failedLinks ++ [link] ∧
        (∀ f ∈ m.flits, f ∈ s.mesh.flits) ∧
        (∀ b ∈ s.mesh.bridges, b.link = link → b.far = none → (s.mesh.pkt? b.packet).isSome = true → ∀ g ∈ m.flits, g.packet ≠ b.packet) ∧
        ∀ id p, s.mesh.lostAt link = [id] → s.mesh.pkt? id = some p →
          m.ended = s.mesh.ended ++ [(p.spec, some .peerlost)] ∧ ns = [.peerLost (pktSite p.spec) s.chip.toNat])) ∧
  (∀ (m : Mesh) (b : Beat) (p : MeshPkt) (n : Nat × Nat) (now : Nat) (hot : List Bool), m.beats = [b] → m.pkt? b.packet = some p →
    b.ready ≤ now → (b.leaves p.src = true → now % 7 < 5) →
    let out := beatOut b p.dst
    neighbour out.1 out.2.1 out.2.2 = some n →
    m.planeStep now hot = { m with
      beats := [{ b with x := n.1, y := n.2, ready := now + 1 + (if isBridge out.1 out.2.1 out.2.2 then 2 else 0) }] })

/-- R38 to R44, R48, R49, R124, R137: a replay holds its port at most 500 ns; a transaction takes the next number and stands in the retry
store until it is acknowledged, or waits at a port that has no room for it; its acknowledgement answers the access that it carries, or
refuses it; one overdue is sent again three times, then LOST sets and the access that it carries faults with PEERLOST; a request of a peer
goes to its home once, is refused in another incarnation, answered again from what is kept, executed at its home, and answered when its
packets have come back; an invalidation drops the copies held here; an announcement writes the incarnation, purges translations and sets UP;
a collective takes its step's data, or is refused by data of another length. (The model's own readings are in logs 3, 7, 11, 16 and 19.) -/
def Obligations.LinkEventsKeepTheRetryProtocol : Prop :=
  ((∀ (port : Nat) (s : State), ∃ t, exec (.linkFlitReplay port) s = .next t ∧ t.mem = s.mem ∧ t.part = s.part ∧ t.core = s.core ∧
     t.ctx = { s.ctx with slow := t.ctx.slow } ∧
     ∀ i : Fin 18, t.ports[i] = if i.val = port then { s.ports[i] with
       heldTo := max s.ports[i].heldTo (s.cycle + 875), replayTo := s.cycle + 875
       store := s.ports[i].store.map (fun x => { x with ansAt := x.ansAt.map (fun a => if a ≤ s.cycle then a else a + 875) }) } else s.ports[i]) ∧
   (∀ (chip frame tag : Nat) (s : State), ((s.peerOf chip).valid = false ∨ (s.peerOf chip).lost = true ∨ s.peerUp chip = false) →
     exec (.linkTransactionSend chip frame tag) s = .next s) ∧
   (∀ (chip frame tag : Nat) (port : Fin 18) (s : State),
     let p := s.ports[port]
     let x : LinkTxn := { chip := chip, seq := 0, frame := frame, tag := tag, sentDt := 0, resends := 0, resp := none, lat := none, ansAt := none }
     let goes := p.inService = true ∧ p.heldTo ≤ s.cycle ∧ p.store.length < 8192 ∧
       (p.store.filter (fun t => t.chip == chip)).length < 512 ∧ ∀ y ∈ p.waiting, y.chip ≠ chip
     s.portFor chip frame = some port.val → (s.peerOf chip).valid = true → (s.peerOf chip).lost = false → s.peerUp chip = true →
     ∃ ps, exec (.linkTransactionSend chip frame tag) s = .next { s with ports := ps } ∧ (∀ i : Fin 18, i ≠ port → ps[i] = s.ports[i]) ∧
       (goes → ps[port] = { p with nextSeq := p.nextSeq + 1, store := p.store ++ [{ x with seq := p.nextSeq, sentDt := s.dt }] }) ∧
       (¬goes → ps[port] = { p with waiting := p.waiting ++ [x] })) ∧
   (∀ (chip port : Nat) (s : State),
     let q := s.source chip port
     (q.owed = 0 → exec (.linkAckSend chip port) s = .next s) ∧
     (q.owed ≠ 0 → ∃ l, exec (.linkAckSend chip port) s = .next { s with sources := l, notices := s.notices ++ [.ack chip port q.high] } ∧
       ({ s with sources := l } : State).source chip port = { q with owed := 0 })) ∧
   (∀ (port : Fin 18) (chip : Nat) (seq : BitVec 32) (refused : List (BitVec 32 × PeerRefusal)) (s : State),
     let hit := fun (x : LinkTxn) => x.chip == chip && decide ((seq - x.seq).toNat < 2 ^ 31)
     ∃ t, exec (.linkAckReceive port.val chip ⟨seq, refused⟩) s = .next t ∧ t.mem = s.mem ∧ t.ctx = s.ctx ∧
       (∀ i : Fin 18, t.ports[i] = if i = port then { s.ports[i] with store := s.ports[i].store.filter (fun x => !hit x) } else s.ports[i]) ∧
       ∀ x at_, s.ports[port].store.filter hit = [x] → x.ansAt = some at_ →
         t.net = s.net.map (fun b => if b.live = true ∧ b.tag = x.tag then { b with answer := some (max at_ s.cycle,
           (refused.find? (fun r => r.1 == x.seq)).map (fun r => match r.2 with
             | .prot => .prot
             | .reset => .peerreset
             | .memErr => .memerr)) } else b)) ∧
   (∀ (port : Fin 18) (seq : BitVec 32) (x : LinkTxn) (s : State), s.ports[port].store.find? (fun t => t.seq == seq) = some x →
     x.sentDt + 4000 ≤ s.dt →
     (x.resends < 3 → ∃ t, exec (.linkResend port.val seq) s = .next t ∧ t.mem = s.mem ∧ t.peers = s.peers ∧
       ∀ i : Fin 18, t.ports[i] = if i = port then { s.ports[i] with store := s.ports[i].store.map (fun u =>
         if u.seq = seq then { u with resends := u.resends + 1, sentDt := s.dt, ansAt := u.lat.map (fun n => s.cycle + n) } else u) }
         else s.ports[i]) ∧
     (3 ≤ x.resends → ∃ t, exec (.linkRetryExhausted port.val seq) s = .next t ∧ t.mem = s.mem ∧
       (∀ u ∈ t.ports[port].store, u.seq ≠ seq) ∧ t.ports[port].lostTags = s.ports[port].lostTags ++ [x.tag] ∧
       (∀ i : Fin 18, ∀ u ∈ t.ports[i].waiting, u.chip ≠ x.chip) ∧
       (∀ (a : NetAcc) (k : Fin 8) (y : TokPend), x.lat.isSome = true → s.net.find? (fun a => a.live && decide (a.tag = x.tag)) = some a → a.site = s.site → a.cx = s.cx →
         s.ctx.tok[k] = some y → y.serial = a.serial → (t.ctx.tok[k].bind (fun y => y.fault)).map (fun f => f.1) = some .peerlost) ∧
       ∀ k : Fin 64, t.peers[k] = if k.val = x.chip then { s.peers[k] with lost := true } else s.peers[k]))) ∧
  ((∀ (r : PeerReq) (s : State),
     let q := s.source r.chip r.port
     (s.announced = false → exec (.peerRequestReceive r) s = .next s) ∧
     (s.announced = true → r.inc ≠ s.myInc →
       exec (.peerRequestReceive r) s = .next { s with notices := s.notices ++ [.refused r.chip r.port r.seq .peerreset] }) ∧
     (s.announced = true → r.inc = s.myInc → (512 ≤ q.offset r.seq ∨ r.seq ∈ q.above) →
       ∃ ns, exec (.peerRequestReceive r) s = .next { s with notices := s.notices ++ ns } ∧
         ∀ x, q.responses.find? (fun x => x.1 == r.seq) = some x → ns = [match x.2.1 with
           | some c => .refused r.chip r.port r.seq c
           | none => .response r.chip r.port r.seq x.2.2]) ∧
     (s.announced = true → r.inc = s.myInc → q.offset r.seq < 512 → r.seq ∉ q.above →
       let a := peerBytes r.op
       (∀ f, r.op = .inval f → ∃ t, exec (.peerRequestReceive r) s = .next t ∧ t.mem = s.mem ∧
         t.part.holders = s.part.holders.drop (peerFrame r.chip f) ∧ t.notices = s.notices ++ [.response r.chip r.port r.seq []]) ∧
       ((∀ f, r.op ≠ .inval f) → (s.ownerOf a.1 a.2.1 a.2.2 = none ∨ s.names a.2.1 = false) →
         ∃ t, exec (.peerRequestReceive r) s = .next t ∧ t.mem = s.mem ∧ t.notices = s.notices ++ [.refused r.chip r.port r.seq .prot]) ∧
       (∀ pid, (∀ f, r.op ≠ .inval f) → s.ownerOf a.1 a.2.1 a.2.2 = some pid → s.names a.2.1 = true → s.sliceOff a.2.1 = false →
         ∃ m l, exec (.peerRequestReceive r) s = .next { s with
             serial := s.serial + 1, netNext := s.netNext + 2, mesh := m, sources := l
             peerJobs := s.peerJobs ++ [{ tag := s.netNext, serial := s.serial, req := r, ans := none }] } ∧
           ({ s with sources := l } : State).source r.chip r.port = q.accept r.seq s.dt))) ∧
   (∀ (j : PeerJob) (pid : Nat) (s : State),
     let a := peerBytes j.req.op
     let u := s.focusPart pid
     (∀ f, j.req.op ≠ .inval f) → s.ownerOf a.1 a.2.1 a.2.2 = some pid → s.names a.2.1 = true → s.sliceOff a.2.1 = false →
     peerBad s a.2.1 j.req.op = false → u.part.holders.getD (a.2.1 / 65536) [] = [] → u.part.replWrites = [] →
     (s.peerServe j).mem = (peerEffect s.mem a.2.1 j.req.op).1 ∧
     ∀ i ∈ (s.peerServe j).peerJobs, i.tag = j.tag → i.ans = some (none, (peerEffect s.mem a.2.1 j.req.op).2)) ∧
   (∀ (j : PeerJob) (p : PktSpec) (ans : Option Cause × List (BitVec 8)) (s : State), s.peerEnded = some (j, (p, none)) → j.ans = some ans →
     s.answerPeer.mem = s.mem ∧ s.answerPeer.peerJobs = s.peerJobs.erase j ∧
     s.answerPeer.notices = s.notices ++ [match ans.1 with
       | some c => .refused j.req.chip j.req.port j.req.seq c
       | none => .response j.req.chip j.req.port j.req.seq ans.2]) ∧
   (∀ s : State, exec .incarnationAnnounce s = .next { s with
     announced := true
     notices := s.notices ++ ((List.finRange 64).filter (fun k => s.peers[k].valid)).map (fun k => .announce k.val s.chip.toNat s.myInc) }) ∧
   (∀ (chip : Fin 64) (inc : BitVec 16) (s : State), ∃ t, exec (.announcementReceive chip.val inc) s = .next t ∧ t.mem = s.mem ∧
     (∀ k : Fin 64, t.peers[k] = if k = chip then { s.peers[k] with inc := inc, up := true } else s.peers[k]) ∧
     ∀ i st, ∀ e ∈ (t.boxAt i).core.tlb st, ¬(e.leaf.tgt.val % 2 = 1 ∧ e.leaf.chip = chip.val)) ∧
   (∀ (coll : Nat) (data : List (BitVec 8)) (k : Coll) (e : Nat × Option Nat) (s : State), s.colls.find? (fun x => x.id == coll) = some k →
     let plan := exchangePlan k.chips.length (k.chips.idxOf s.chip.toNat)
     k.ready = false → k.fault = none →
     (data.length ≠ k.stepSize → ∃ l, exec (.collectiveExchangeStep coll data) s = .next { s with colls := l } ∧
       l.find? (fun x => x.id == coll) = some { k with fault := some .prot }) ∧
     (0 < k.exchange → data.length = k.stepSize → plan[k.exchange - 1]? = some e →
     ∃ l, exec (.collectiveExchangeStep coll data) s = .next { s with colls := l } ∧
       l.find? (fun x => x.id == coll) = some { k with
         value := s.collMerge k e data, exchange := k.exchange + 1, ready := decide (plan.length ≤ k.exchange) } ∧
       ∀ x ∈ s.colls, x.id ≠ coll → x ∈ l)))


/-! ### Events: jobs, phases, counters, the scheduler -/

/-- R65, R66, R68, R69, R71, R254: a copied job record whose counter cannot be written is dropped, its offset in the reject word; one that
loads adds a live job with its activities and extends the measurement; one whose image cannot be read is DONE and FAULTED, and posts no
event. An import is registered. A release counts; with the phase before it still live it is a miss, else the phase has its deadline and its
size is read 24 cycles later; the first variant whose bound fits starts. A missed deadline sets MISSED and counts. (The model's own readings
are in logs 3 and 16.) -/
def Obligations.JobAndActivityEvents : Prop :=
  (∀ (part off : Nat) (bytes : List (BitVec 8)) (rest : List (Nat × List (BitVec 8))) (plan : LoadPlan) (s : State),
    let u := s.focusPart part
    let w := { u with part := { u.part with copied := rest } }
    let j := readJob bytes
    u.part.live = true → u.part.swapped = false → u.part.copied = (off, bytes) :: rest →
    (w.counterWritable j = false →
      ∃ t, exec (.jobLoad part plan) s = .next t ∧ t.part = w.part ∧
        t.mem = s.mem.writeBytes (u.part.window + 0xFFFF8) (leBytes 8 off) ∧
        t.notices = s.notices ++ (match j.msix with | some v => [.vfVector part v.val] | none => [])) ∧
    (∀ img vfo t, w.counterWritable j = true → w.readSpan (j.imageLen / 64 + 2) j.image j.imageLen = .ok img → readVfo img = some vfo →
      j.ok = true → w.loadImage vfo j u.part.jobs.length img plan = some t →
      exec (.jobLoad part plan) s = .next t ∧ t.part.copied = rest ∧ t.part.measure = extend u.part.measure img ∧
        ∃ job, t.part.jobs = u.part.jobs ++ [job] ∧ job.live = true ∧ job.counter = BitVec.ofNat 64 j.counter ∧ job.msix = j.msix ∧
          job.strict = j.strict ∧ job.acts.length = j.acts.length) ∧
    (∀ c, w.counterWritable j = true → w.readSpan (j.imageLen / 64 + 2) j.image j.imageLen = .error c →
      ∃ t, exec (.jobLoad part plan) s = .next t ∧ t.part.copied = rest ∧ t.part.jobs = u.part.jobs ∧
        ∀ p old, u.placeNow .atomic j.counter 8 = .ok p → p.replFrame = none → u.ctr (BitVec.ofNat 64 j.counter) = some old →
          t.mem = s.mem.writeBytes p.key (leBytes 8 (old / 2 ^ 48 * 2 ^ 48 + 2 ^ 43 + 2 ^ 41)))) ∧
  (∀ (part kind : Nat) (name : List (BitVec 8)) (value : Option (BitVec 64)) (s : State),
    let u := s.focusPart part
    u.part.live = true →
    ∃ l, exec (.importRegister part name kind value) s = .next { u with part := { u.part with imports := l } } ∧
      (l.find? (fun e => e.1 == name && e.2.1 == kind)).map (fun e => e.2.2) = value ∧
      ∀ e, (e.1 ≠ name ∨ e.2.1 ≠ kind) → (e ∈ l ↔ e ∈ u.part.imports)) ∧
  (∀ (part job act : Nat) (a : Activity) (s : State),
    let u := s.focusPart part
    u.part.live = true → u.act? job act = some a → a.releaseDue s.dt = true → u.mayRelease job a = true →
    (a.live = true → exec (.activityRelease part job act) s = .next
      (counted (counted (u.onAct job act (fun a => { a with made := a.made + 1, nextDt := a.nextDt + a.period })) (a.addr + 32)
        (fun w => min (w + 1) (2 ^ 64 - 1))) a.phase (fun w => ctrSet w 42 true))) ∧
    (∀ ws, a.live = false →
      let v := counted u a.phase (fun w => ctrCreate w 1)
      v.readDwords a.phase.toNat 20 = .ok ws → descOk ws = true → ws.getD 2 0 / 65536 % 2 = 0 →
      ∃ t, exec (.activityRelease part job act) s = .next t ∧ t.mem = v.mem ∧
        t.act? job act = some { a with
          made := a.made + 1, nextDt := a.nextDt + a.period, live := true, missed := false, deadline := a.nextDt + a.rel, selOpen := false
          sizeAt := some (s.cycle + 24) } ∧
        ∃ l, t.part.levels = u.part.levels ++ [l] ∧ l.kind = .phase ∧ l.counter = a.phase ∧ l.job = job ∧ l.act = act)) ∧
  (∀ (part job act at_ size i : Nat) (a : Activity) (ws : List Nat) (s : State),
    let u := s.focusPart part
    let w2 := ws.getD 2 0
    let v := if a.selOpen then u.closeSelector job act (w2 % 65536) (w2 / 2 ^ 24 % 256) else u
    let w := v.onAct job act (fun a => { a with sizeAt := none, selOpen := false })
    u.act? job act = some a → a.live = true → a.sizeAt = some at_ → at_ ≤ s.cycle → u.readDwords a.phase.toNat 20 = .ok ws →
    (if w2 / 65536 % 2 = 1 then (if a.selOpen then u.low32 (a.selAddr + BitVec.ofNat 64 (ws.getD 1 0)).toNat else .ok 0)
      else u.low32 (ws.getD 1 0)) = .ok size →
    u.ctrHas a.phase 40 = false →
    i < w2 / 2 ^ 32 % 256 → size ≤ ws.getD (4 + 2 * i) 0 % 2 ^ 32 → (∀ j, j < i → ws.getD (4 + 2 * j) 0 % 2 ^ 32 < size) →
    exec (.selectorSizeRead part job act) s = .next (State.runAll (w.startGraph
      (BitVec.ofNat 64 (ws.getD (4 + 2 * i) 0 / 2 ^ 32 + ws.getD (5 + 2 * i) 0 % 2 ^ 32 * 2 ^ 32)) job act))) ∧
  (∀ (part job act : Nat) (a : Activity) (s : State),
    let u := s.focusPart part
    u.act? job act = some a → a.live = true → a.missed = false → a.deadline.toNat < s.dt → u.ctrHas a.phase 43 = false →
    let t := counted (counted (u.onAct job act (fun a => { a with missed := true })) a.phase (fun w => ctrSet w 42 true)) (a.addr + 32)
      (fun w => min (w + 1) (2 ^ 64 - 1))
    exec (.deadlineMiss part job act) s = .next (if a.trapmiss then t.logFault 21 2 0xFFFF a.phase.toNat 0 else t))

/-- R64, R78, R94, R95: a decrement of a counter at zero sets UNDER; above one it counts and copies the status bits; to zero it sets DONE
and posts the event, and nothing more for a counter of no live level. A cancel marks the counter of a live level of its kind and is
broadcast; the broadcast tells every running turn at or beneath it. (The model's own readings are in logs 3 and 15.) -/
def Obligations.CountersFallAndCancelsSpread : Prop :=
  (∀ (part : Nat) (addr : BitVec 64) (faulted cancelled : Bool) (w : Nat) (s : State),
    let u := s.focusPart part
    let down := fun w => ctrSet (ctrSet (w - 1) 41 faulted) 40 cancelled
    u.part.live = true → u.ctr addr = some w →
    (w % 2 ^ 40 = 0 → exec (.counterDecrement part addr faulted cancelled) s = .next (counted u addr (fun w => ctrSet w 44 true))) ∧
    (2 ≤ w % 2 ^ 40 → exec (.counterDecrement part addr faulted cancelled) s = .next (counted u addr down)) ∧
    (w % 2 ^ 40 = 1 → u.level? addr = none →
      let v := counted u addr (fun w => ctrSet (down w) 43 true)
      exec (.counterDecrement part addr faulted cancelled) s = .next (if ctrBit w 47
        then { v with part := { v.part with evops := v.part.evops ++ [{ due := s.cycle + 1, name := w / 2 ^ 48, kind := .post, tok := none }] } }
        else v))) ∧
  (∀ (part level : Nat) (addr : BitVec 64) (l : Level) (s : State),
    let u := s.focusPart part
    u.part.live = true → u.level? addr = some l → l.kind = levelKindOf level →
    (l.cancelled = true → exec (.cancelLinearise part addr level) s = .next u) ∧
    (l.cancelled = false → levelsUnder u.part.levels addr = [l] → l.kind = .launch →
      let v := counted u addr (fun w => ctrSet w 40 true)
      exec (.cancelLinearise part addr level) s = .next { v with part := { v.part with
        levels := v.part.levels.map (fun x => if x.counter = addr then { x with cancelled := true } else x)
        casts := v.part.casts ++ [(s.cycle, addr)] } })) ∧
  (∀ (part at_ : Nat) (top : Word) (rest : List (Nat × Word)) (s : State),
    let u := s.focusPart part
    u.part.casts = (at_, top) :: rest →
    (∀ cl ∈ u.part.clusters, ∀ e ∈ (u.sched cl).heap ++ (u.sched cl).spill ++ (u.sched cl).bgq, u.isUnder top e.turn.launch = false) →
    (∀ e ∈ u.part.events, ∀ x ∈ e.2.waiters ++ e.2.overflow, u.isUnder top x.1.turn.launch = false) →
    ∃ t, exec (.cancelBroadcast part) s = .next t ∧ t.part.casts = rest ∧ t.mem = s.mem ∧
      ∀ e ∈ u.part.cores, (u.boxAt e.1).core.part = some u.pid → ∀ cx,
        ((t.boxAt e.1).ctx cx).turn = ((u.boxAt e.1).ctx cx).turn.map (fun x => if u.isUnder top x.launch then { x with cancelled := true } else x) ∧
        ((t.boxAt e.1).ctx cx).x = ((u.boxAt e.1).ctx cx).x)

/-- R77, R79, R82 to R90, R152, R185: a retired turn leaves its context at reset but for the debug and trace registers; a dispatch, a
displacement and a steal load the turn's record; a displaced turn returns to its heap; a spilled turn moves on die every 16 cycles; an
activation takes 16 cycles, an urgent switch 64, after the streams have stopped; a NET above LIMIT makes the budget trap pending. (The
model's own readings are in logs 3 and 4.) -/
def Obligations.SchedulerEventsMoveTurns : Prop :=
  ((∀ (site : Nat) (cx : Bool) (r : RetireSt) (s : State),
     let u := s.focus site cx
     u.ctx.retire = some r → u.retireReady = true →
     ∃ t, exec (.turnRetire site cx) s = .next t ∧ t.site = site ∧ t.cx = cx ∧ t.ctx.turn = none ∧ (∀ r : Fin 32, t.ctx.x[r] = 0) ∧
       t.ctx.pend = [] ∧ t.ctx.pl = false ∧ t.ctx.tip = false ∧ t.ctx.retire = none ∧ t.ctx.cs.run = false ∧ t.ctx.ts.run = false ∧
       t.ctx.dbgctl = u.ctx.dbgctl ∧ t.ctx.trctl = u.ctx.trctl ∧ t.ctx.bpa = u.ctx.bpa ∧ t.octx = u.octx) ∧
   (∀ (part cl : Nat) (e : HeapEnt) (due : Bool) (site : Nat) (cx : Bool) (s : State),
     let u := s.focusPart part
     u.dispatchFree cl = true → u.nextTurn cl = some (e, due) → u.bestCtx (u.takers cl e.turn) = some (site, cx) →
     ∃ t, exec (.turnDispatch part cl) s = .next t ∧ loaded u t site cx e { e.turn with bgDue := due } 0) ∧
   (∀ (part cl : Nat) (e : HeapEnt) (site : Nat) (cx : Bool) (old : Turn) (s : State),
     let u := s.focusPart part
     u.dispatchFree cl = true → u.displacer cl = some (e, site, cx, old) →
     ∃ t, exec (.turnDisplace part cl) s = .next t ∧ loaded u t site cx e e.turn 0 ∧
       ((u.focus site cx).ctrHas e.turn.launch 40 = false →
         (e.saved = none → ∃ ws, (u.focus site cx).readDwords e.turn.record.toNat 8 = .ok ws) →
         (old.bg = true → { turn := old, saved := none } ∈ (t.sched cl).bgq) ∧
         (old.bg = false → { turn := old, saved := none } ∈ (t.sched cl).heap ++ (t.sched cl).spill))) ∧
   (∀ (part cl : Nat) (e : HeapEnt) (rest : List HeapEnt) (s : State),
     let u := s.focusPart part
     u.placeable cl = none → (u.sched cl).spill = e :: rest → (u.sched cl).heap.length < 48 → (u.sched cl).refillAt ≤ s.cycle →
     ∃ l, exec (.spillRefill part cl) s = .next { u with part := { u.part with scheds := l } } ∧
       ({ u with part := { u.part with scheds := l } } : State).sched cl =
         { u.sched cl with heap := heapInsert e (u.sched cl).heap, spill := rest, refillAt := s.cycle + 16 })) ∧
  ((∀ (site : Nat) (s : State), (s.boxAt site).activates = true →
     let v := s.focus site (s.boxAt site).core.active
     exec (.contextActivate site) s = .next { v with
       cx := !v.cx, core := { v.core with active := !v.core.active, urgent := none }, octx := v.ctx
       ctx := { v.octx.resumeEngines with cs := { v.octx.cs with readyAt := max v.octx.cs.readyAt (s.cycle + 16) } } }) ∧
   (∀ (site : Nat) (s : State), (s.boxAt site).evalDue s.cycle = true →
     let v := s.focus site (s.boxAt site).core.active
     let left := if v.ctx.limit = 0 ∨ v.ctx.limit.toNat ≤ v.ctx.net.toNat then 0 else v.ctx.limit.toNat - v.ctx.net.toNat
     let wanted := v.ctx.pend = [] ∧ v.octx.halted = false ∧ v.ctx.halted = false ∧ v.ctx.retire = none ∧
       v.octx.deadline.toNat + (left * 4 + 6) / 7 < v.ctx.deadline.toNat
     let at_ := if s.todo.any (fun t => t.site == site && t.cx == v.cx && t.st == .c) then s.cycle else s.cycle + 1
     (wanted → exec (.urgentSwitchEvaluate site) s = .next { v with
       core := { v.core with evalAt := s.cycle + 256, urgent := some s.cycle }
       ctx := { v.ctx with
         lbuf := v.ctx.lbuf ++ saved v.ctx at_, divBusy := 0, landing := v.ctx.landing.filter (fun l => !decide (l.st = .c))
         b := v.ctx.b.map (fun r => { r with ready := none }), resume := true, cs := { v.ctx.cs with wait := none }
         ts := { v.ctx.ts with holdReq := true }, ms := { v.ctx.ms with holdReq := true }, vs := { v.ctx.vs with holdReq := true } } }) ∧
     (¬wanted → exec (.urgentSwitchEvaluate site) s = .next { v with core := { v.core with evalAt := s.cycle + 256 } })) ∧
   (∀ (site : Nat) (s : State), (s.boxAt site).urgentDue s.cycle = true → (s.boxAt site).urgentDrops = false →
     let v := s.focus site (s.boxAt site).core.active
     ∃ t, exec (.urgentSwitch site) s = .next t ∧ t.core.active = !v.core.active ∧ t.core.urgent = none ∧ t.cx = !v.cx ∧ t.mem = s.mem ∧
       t.octx.lbuf = v.ctx.lbuf ∧ t.octx.x = v.ctx.x ∧ t.octx.cs.pc = v.ctx.cs.pc ∧ t.octx.turn = v.ctx.turn ∧
       t.ctx.x = v.octx.x ∧ t.ctx.turn = v.octx.turn ∧ t.ctx.cs = { v.octx.cs with readyAt := max v.octx.cs.readyAt (s.cycle + 64) }) ∧
   (∀ (site : Nat) (cx cross : Bool) (s : State),
     let u := s.focus site cx
     let i : Instr := if cross then .stealCrossDie site cx else .stealRequest site cx
     let cls := if cross then u.farClusters (clusterOf site) else u.dieClusters (clusterOf site)
     let answers := cls.filterMap (fun cl => (u.stealable cl site cx cross).map (fun e => (cl, e)))
     u.emptyAt site cx = true → (if cross then u.ctx.asksFar else u.ctx.asksNear) = true →
     (answers = [] → exec i s = .next { u with ctx :=
       if cross then { u.ctx with askedX := u.ctx.idle } else { u.ctx with asked := u.ctx.idle } }) ∧
     (∀ cl e, earliest answers = some (cl, e) →
       ∃ t, exec i s = .next t ∧ loaded u t site cx e e.turn (if cross then 600 else 200))) ∧
   (∀ (site : Nat) (cx : Bool) (s : State),
     let u := s.focus site cx
     u.ctx.turn.isSome = true → u.ctx.retire = none → u.ctx.tip = false → u.ctx.halted = false → (∀ x ∈ u.ctx.pend, x.rank ≠ 4) →
     u.core.active = cx → u.ctx.dbgctl.getLsbD 3 = false → u.ctx.limit ≠ 0 → u.ctx.limit.toNat < u.ctx.net.toNat →
     ∃ x, exec (.budgetTrap site cx) s = .next { u with ctx := { u.ctx with pend := u.ctx.pend ++ [x] } } ∧ x.cause = .budget ∧ x.rank = 4 ∧
       x.async_ = true ∧ x.st = .c))


/-! ### Events: the event table, racks, wait tokens, translation, replicas -/

/-- R91, R92, R99 to R104, R109, R305: at the table a name that is not live faults its token with PROT; a test answers the event's word; a
post counts, or releases the oldest waiter of a counting event, or sets a binary one and releases its four; the overflow list is walked one
waiter every 8 cycles. At a rack a writer's open gives the oldest slot, a commit makes it the freshest, a reader's open pins the freshest, a
close frees the port, and misuse faults with RACKPORT. (The model's own readings are in logs 3 and 15.) -/
def Obligations.EventAndRackTablesApplyTheirOperations : Prop :=
  (∀ (part : Nat) (o : EvOp) (s : State),
    let u := s.focusPart part
    let w := { u with part := { u.part with evops := u.part.evops.erase o } }
    u.part.evops.find? (fun x => decide (x.due ≤ s.cycle)) = some o →
    (∀ job, o.kind = .free job → exec (.eventTableApply part) s = .next { w with part := { w.part with
      events := w.part.events.filter (fun e => !decide (e.2.job = job)) } }) ∧
    ((∀ job, o.kind ≠ .free job) → u.part.events.find? o.name = none → exec (.eventTableApply part) s = .next (w.faultTok o.tok .prot 0)) ∧
    (∀ e, u.part.events.find? o.name = some e →
      let set := fun e => { w with part := { w.part with events := w.part.events.put o.name e } }
      let word := BitVec.ofNat 64 (e.state.toNat + 2 ^ 32 * min (e.waiters.length + e.overflow.length) 0xFFFF + 2 ^ 48 * e.counting.toNat +
        2 ^ 49 * e.vec.val + 2 ^ 53 * e.notify.toNat)
      (o.kind = .test → exec (.eventTableApply part) s = .next (w.answerTok o.tok word 0)) ∧
      (∀ v, o.kind = .sete 0 v ∨ o.kind = .sete 4 v →
        exec (.eventTableApply part) s = .next ((set { e with state := 0 }).answerTok o.tok word 0)) ∧
      (∀ v, o.kind = .sete 3 v → exec (.eventTableApply part) s = .next
        ((set { e with notify := v.getLsbD 4, vec := Fin.ofNat 16 (v.toNat % 16) }).answerTok o.tok word 0)) ∧
      (∀ v, o.kind = .sete 2 v → e.waiters = [] → e.overflow = [] → exec (.eventTableApply part) s = .next
        ((set { e with counting := v.getLsbD 0, state := 0 }).answerTok o.tok word 0)) ∧
      (o.kind = .post → (∀ j ∈ u.part.jobs, ∀ a ∈ j.acts, a.event ≠ some o.name) →
        let told := fun (t : State) => if e.notify then { t with notices := t.notices ++ [.vfVector part e.vec.val] } else t
        (e.counting = true → e.waiters = [] → e.overflow = [] → exec (.eventTableApply part) s = .next ((told (set { e with
          state := if e.state = BitVec.allOnes 32 then e.state else e.state + 1 })).answerTok o.tok 0 0)) ∧
        (∀ x rest, e.counting = true → e.waiters = x :: rest → exec (.eventTableApply part) s = .next ((told ((set { e with
          waiters := rest ++ e.overflow.take 1, overflow := e.overflow.drop 1 }).enterHeap x.2 x.1)).answerTok o.tok 0 0)) ∧
        (e.counting = false → e.state ≠ 0 → exec (.eventTableApply part) s = .next ((told w).answerTok o.tok 0 0)) ∧
        (e.counting = false → e.state = 0 → exec (.eventTableApply part) s = .next ((told (e.waiters.foldl (fun t x => t.enterHeap x.2 x.1)
          (set { e with state := 1, waiters := [], walkAt := if e.overflow = [] then none else some (s.cycle + 8) }))).answerTok o.tok 0 0))))) ∧
  (∀ (part name : Nat) (e : EvEnt) (x : HeapEnt × Nat) (rest : List (HeapEnt × Nat)) (s : State),
    let u := s.focusPart part
    u.nextWalked = some (name, e) → e.overflow = x :: rest →
    exec (.overflowWalk part) s = .next (({ u with part := { u.part with events := u.part.events.put name { e with
      overflow := rest, walkAt := if rest = [] then none else some (s.cycle + 8) } } } : State).enterHeap x.2 x.1)) ∧
  (∀ (part : Nat) (o : RackOp) (s : State),
    let u := s.focusPart part
    let w := { u with part := { u.part with rackops := u.part.rackops.erase o } }
    u.nextRackOp = some o → o.sel = none →
    let turned := fun c => exec (.rackOpApply part) s = .next (w.faultTok o.tok c 0)
    (u.part.racks.find? o.rack = none → turned .prot) ∧
    (∀ r, u.part.racks.find? o.rack = some r →
      let within := (match r.scope with | 2 => o.cluster = r.home | 3 => o.cluster / 9 = r.home / 9 | _ => True)
      let becomes := fun (r : Rack) (v x : Word) => exec (.rackOpApply part) s = .next
        (({ w with part := { w.part with racks := w.part.racks.put o.rack r } } : State).answerTok o.tok v x)
      (¬within → o.fn < 5 → turned .rackport) ∧
      (within → o.fn = 0 → (r.writer = none → ∀ i, r.writerSlot = some i →
          becomes { r with writer := some (o.holder, i) } (r.base + BitVec.ofNat 64 (i * r.stride)) 0) ∧ (r.writer ≠ none → turned .rackport)) ∧
      (within → o.fn = 1 → ∀ i, r.writer = some (o.holder, i) →
        let seq := if r.seq + 1 = 2 ^ 32 then 1 else r.seq + 1
        ∃ t, exec (.rackOpApply part) s = .next t ∧ t.part.racks.find? o.rack = some { r with
          seq := seq, slotSeq := r.slotSeq.set i seq, slotCycle := r.slotCycle.set i (some (s.dieClock (r.home / 9))), freshest := some i, writer := none }) ∧
      (within → o.fn = 1 → r.writer.map (fun x => x.1) ≠ some o.holder → turned .rackport) ∧
      (within → o.fn = 2 → r.ports[o.port]? = some none →
        (r.freshest = none → becomes r 0 0) ∧
        (∀ f c, r.freshest = some f → r.slotCycle[f]? = some (some c) → becomes { r with ports := r.ports.set o.port (some (o.holder, f)) }
          (r.base + BitVec.ofNat 64 (f * r.stride)) (BitVec.ofNat 64 (r.slotSeq.getD f 0 * 2 ^ 32 + min (s.dieClock (r.home / 9) - c) (2 ^ 32 - 1))))) ∧
      (within → o.fn = 2 → r.ports[o.port]? ≠ some none → turned .rackport) ∧
      (within → o.fn = 3 → o.port ≠ 63 →
        (∀ i, r.ports[o.port]? = some (some (o.holder, i)) → becomes { r with ports := r.ports.set o.port none } 0 0) ∧
        ((∀ i, r.ports[o.port]? ≠ some (some (o.holder, i))) → turned .rackport)) ∧
      (within → o.fn = 3 → o.port = 63 → ∀ i, r.writer = some (o.holder, i) → becomes { r with writer := none } 0 0)))

/-- R158, R177, R286 to R288, R299, R307, R309, R316, R320, R321: a token that is due settles: a load writes just its bytes, extended, to
x[rd], as its home has served it; a store writes just its bytes of memory, or waits for the holders of its frame; a TLRW has its image, and
4 cycles later writes its record; a QGET and a QPUT are served by their queue and settle 2 cycles later; a BUDGET lowers LIMIT; a CRR and a
TIME deliver; an answer from elsewhere is delivered; a fault writes no destination and makes a trap pending that names the token. (The
model's own readings are in logs 3 and 4.) -/
def Obligations.WaitTokensSettleOnce : Prop :=
  ∀ (site : Nat) (cx : Bool) (k : Fin 8) (t : TokPend) (s : State),
    let u := s.focus site cx
    let i : Instr := .waitTokenSettle site cx k
    let free := fun (c : Context) => c.tok.set k none
    let inner := fun (c : Context) => c.tip = true ∧ c.tipSerial ≤ t.serial
    u.ctx.tok[k] = some t → t.due ≤ s.cycle → (t.fault = none → s.netOpen t.serial = false) →
    (∀ c va, t.fault = some (c, va) → ¬inner u.ctx →
      let w := { u with ctx := { u.ctx with
        tok := free u.ctx
        pend := u.ctx.pend ++ [{ rank := 1, order := t.serial, cause := c, st := .c, pawn := none, tok := some k, async_ := true, st2 := .c,
                                 faddr := va &&& 0xFFFFFFFFFFFFF#64, fpc := t.pc, fpc2 := 0, frec := 0 }] } }
      exec i s = .next (if t.op.takesInput then w.flushLog else w)) ∧
    (∀ c va, t.fault = some (c, va) → inner u.ctx → ∃ w, exec i s = .next w ∧ w.ctx.tok[k] = none ∧ w.ctx.x = u.ctx.x ∧
      w.ctx.retire = some { faulted := true, cancelled := false }) ∧
    (t.fault = none → u.ctx.memBlocked t = true → exec i s = .next { u with ctx := { u.ctx with
      tok := u.ctx.tok.set k (some { t with due := s.cycle + 1 }) } }) ∧
    (t.fault = none → u.ctx.memBlocked t = false →
      (∀ n signed rd a p, t.op = .load n signed rd a → t.tr = some p → u.readBad p.key n = false →
        let raw := leNat (u.readFor 0 t.serial p n)
        ∃ w, exec i s = .next w ∧ w.mem = s.mem ∧ w.core = u.core ∧ w.ctx = { u.ctx with
          tok := free u.ctx
          x := if rd = 0 then u.ctx.x else u.ctx.x.set rd (if signed then BitVec.ofInt 64 (sgn (8 * n) raw) else BitVec.ofNat 64 raw) }) ∧
      (∀ n a x p, t.op = .store n a x → t.done = none → t.tr = some p → u.writeBad p.key n = false →
        (p.replFrame = none → u.writing t.serial = false →
          ∃ w, exec i s = .next w ∧ w.mem = s.mem.writeBytes p.key (leBytes n x.toNat) ∧ w.core = u.core ∧ w.part = u.part ∧
            w.ctx = { u.ctx with tok := free u.ctx }) ∧
        (∀ f, p.replFrame = some f → u.part.holders.getD f [] ≠ [] →
          ∃ w, exec i s = .next w ∧ w.mem = s.mem ∧
            w.part = { u.part with replWrites := u.part.replWrites ++ [{ frame := f, key := p.key, data := leBytes n x.toNat, site := site
                                                                         cx := cx, path := 0, waiting := [], sent := false, serial := some t.serial }] } ∧
            w.ctx = { u.ctx with tok := u.ctx.tok.set k (some { t with due := s.cycle + 1, done := some (0, 0) }) })) ∧
      (∀ n a x, t.op = .store n a x → t.done.isSome = true → exec i s = .next { u with ctx := { u.ctx with
        tok := if u.writing t.serial then u.ctx.tok.set k (some { t with due := s.cycle + 1 }) else free u.ctx } }) ∧
      (∀ ly a p, t.op = .tlrw ly a → t.tr = some p → u.readBad p.key 32 = false →
        let d := fun i => BitVec.ofNat 64 (leNat (((u.readFor 0 t.serial p 32).drop (8 * i)).take 8))
        ∃ w, exec i s = .next w ∧ w.mem = s.mem ∧ w.core = u.core ∧ w.ctx = { u.ctx with
          tok := u.ctx.tok.set k (some { t with op := .record ly (d 0) (d 1) (d 2) (d 3), due := s.cycle + 4, tr := none }) }) ∧
      (∀ ly d0 d1 d2 d3, t.op = .record ly d0 d1 d2 d3 →
        (∀ r : Fin 64, ly.toNat = r.val → lyImageOk d1.toNat d2.toNat d3.toNat = true →
          ∃ w, exec i s = .next w ∧ w.mem = s.mem ∧ w.ctx = { u.ctx with tok := free u.ctx } ∧
            ∀ j : Fin 64, w.core.ly[j] = if j = r then LyRec.ofWords d0.toNat d1.toNat d2.toNat d3.toNat else u.core.ly[j]) ∧
        (64 ≤ ly.toNat ∨ lyImageOk d1.toNat d2.toNat d3.toNat = false → ¬inner u.ctx →
          ∃ w x, exec i s = .next w ∧ w.core.ly = u.core.ly ∧ w.ctx = { u.ctx with tok := free u.ctx, pend := u.ctx.pend ++ [x] } ∧
            x.cause = .illegal ∧ x.tok = some k)) ∧
      (∀ p n, (∀ a ∈ s.net, a.serial ≠ t.serial) → u.part.replWrites = [] → u.readFor 0 t.serial p n = s.mem.readBytes p.key n) ∧
      (∀ q w rd pop es c, t.op = .qget q w rd pop → t.done = none → u.ctx.queueBlocked t q = false → u.ctx.popQ s.cycle .c q 1 = .ok (es, c) →
        let d := if pop then c else u.ctx
        exec i s = .next { u with ctx := { d with tok := d.tok.set k (some { t with
          due := s.cycle + 2, done := some (BitVec.ofNat 64 (laneOf (entry1 es) 64 w.val), 0) }) } }) ∧
      (∀ q w rd pop v x, t.op = .qget q w rd pop → t.done = some (v, x) →
        exec i s = .next { u with ctx := { u.ctx with tok := free u.ctx, x := if rd = 0 then u.ctx.x else u.ctx.x.set rd v } }) ∧
      (∀ q w v, t.op = .qput q w v → t.done = none → u.ctx.queueBlocked t q = false → u.ctx.roomQ s.cycle .c q = .ok () →
        ∃ qs, exec i s = .next { u with serial := u.serial + 1, ctx := { u.ctx with
            tok := u.ctx.tok.set k (some { t with due := s.cycle + 2, done := some (0, 0) }), q := qs } } ∧
          (∀ r : Fin 16, r ≠ q → qs[r] = u.ctx.q[r]) ∧
          ((∀ e ∈ u.ctx.q[q].ents, e.serial ≠ u.serial) → ∃ e, qs[q].ents = u.ctx.q[q].ents ++ [e] ∧
            e.data = some (BitVec.ofNat 2048 (v.toNat * 2 ^ (64 * w.val))))) ∧
      (∀ rd n, t.op = .budget rd n →
        let lim := if n ≠ 0 ∧ (u.ctx.limit = 0 ∨ n.toNat < u.ctx.limit.toNat) then n else u.ctx.limit
        exec i s = .next { u with ctx := { u.ctx with
          tok := free u.ctx, limit := lim
          x := if rd = 0 then u.ctx.x else u.ctx.x.set rd (BitVec.ofNat 64 (u.ctx.net.toNat * 2 ^ 32 + lim.toNat)) } }) ∧
      (∀ reg rd, t.op = .crr reg rd → exec i s = .next { u with ctx := { u.ctx with
        tok := free u.ctx, x := if rd = 0 then u.ctx.x else u.ctx.x.set rd (u.crrValue reg) } }) ∧
      (∀ rd, t.op = .time rd → t.done = none → u.ctx.trctl.toNat / 2 ^ 19 % 2 = 0 → u.ctx.logHeld = [] → exec i s = .next { u with ctx := { u.ctx with
        tok := free u.ctx, x := if rd = 0 then u.ctx.x else u.ctx.x.set rd u.guest } }) ∧
      (∀ name fn x rd v w, (t.op = .sete fn name x rd ∨ (t.op = .etest name rd ∧ u.ctx.trctl.toNat / 2 ^ 19 % 2 = 0 ∧ u.ctx.logHeld = [])) → t.done = some (v, w) →
        exec i s = .next { u with ctx := { u.ctx with tok := free u.ctx, x := if rd = 0 then u.ctx.x else u.ctx.x.set rd v } }) ∧
      (∀ rd, t.op = .pstat rd → ∃ m, exec i s = .next { u with ctx := { u.ctx with
          tok := free u.ctx, x := if rd = 0 then u.ctx.x else u.ctx.x.set rd m } } ∧
        ∀ j : Fin 64, m.getLsbD j.val = u.owns (u.pawn j)))

/-- R53, R121, R123, R131 to R134, R136 to R138, R274: a walk that ends fills its TLB or keeps its fault for the access; a prefetch is
ready; a wait of 16 µs for a chip ends. INVCTL, PTROOT and a new map start a shootdown; each core drops its entries and acknowledges; after
the last BUSY clears and the map is in force. A read of a replicated frame may add a holder; a write is performed once every holder has
acknowledged. (The model's own readings are in logs 3, 11 and 15.) -/
def Obligations.TranslationAndReplicaEvents : Prop :=
  ((∀ (site : Nat) (w : Walk) (s : State),
     let u := (s.focus site s.cx).focus site w.cx
     let va := w.vpage * 65536
     let at_ := u.walkStart va
     (s.focus site s.cx).core.walks.find? (fun x => decide (x.due ≤ s.cycle)) = some w →
     ∃ t, exec (.pageWalkComplete site) s = .next t ∧ t.mem = s.mem ∧ t.part = u.part ∧ t.ctx = u.ctx ∧ w ∉ t.core.walks ∧
       (∀ c, u.walkFrom 4 at_.1 at_.2 va = .error c →
         t.core.tlb w.tlb = u.core.tlb w.tlb ∧
         t.core.wfault = (if w.prefetch then u.core.wfault else u.core.wfault ++ [(w.cx, w.tlb, w.vpage, c)])) ∧
       (∀ l, u.walkFrom 4 at_.1 at_.2 va = .ok l → t.core.wfault = u.core.wfault ∧
         ∃ e, (t.core.tlb w.tlb).head? = some e ∧ e.cx = w.cx ∧ e.leaf = l ∧ e.vpage = va / l.size * l.size / 65536 ∧
           (l.tgt.val % 2 = 1 → ∀ k : Fin 64, l.chip = k.val → e.inc = s.peers[k].inc))) ∧
   (∀ (site : Nat) (cx : Bool) (b : Fin 8) (at_ : Nat) (s : State),
     let u := s.focus site cx
     u.ctx.b[b].ready = some at_ → 0 < at_ → at_ ≤ s.cycle →
     exec (.prefetchReady site cx b) s = .next { u with ctx := { u.ctx with b := u.ctx.b.set b { u.ctx.b[b] with ready := some 0 } } }) ∧
   (∀ (site : Nat) (cx : Bool) (s : State),
     let u := s.focus site cx
     (∃ w ∈ u.ctx.upWait, ∃ at_, w.due = some at_ ∧ at_ ≤ s.cycle) →
     exec (.peerUpWaitTimeout site cx) s = .next { u with ctx := { u.ctx with
       upWait := u.ctx.upWait.map (fun w => if w.over s.cycle then { w with due := none } else w) } })) ∧
  ((∀ (part : Nat) (v : BitVec 64) (s : State),
     let u := s.focusPart part
     let told := u.part.cores.map (fun e => e.1)
     u.part.live = true → u.part.busy = false →
     (v.toNat % 4 ≠ 3 → exec (.invctlWrite part v) s = .next { u with
       part := { u.part with invctl := v.setWidth 3, busy := true, shoot := some {
         vpage := u.part.invaddr.toNat / 65536 % 2 ^ 36, kind := v.toNat % 4, waiting := told, dropped := []
         newMap := if v.getLsbD 2 then some u.part.mapWritten else none } }
       walkCaches := u.walkCaches.map (fun l => l.filter (fun e => !(e.1 == part))) }) ∧
     exec (.ptrootWrite part v) s = .next { u with
       part := { u.part with ptroot := v &&& 0x000FFFFFFFFF0000#64, busy := true, shoot := some { vpage := 0, kind := 2, waiting := told, dropped := [], newMap := none } }
       walkCaches := u.walkCaches.map (fun l => l.filter (fun e => !(e.1 == part))) } ∧
     ∀ map : List (BitVec 128),
       ((∀ e ∈ map.take 64, s.grantsDisabled e = false) → exec (.partitionMapChange part map) s = .next { u with part := { u.part with
         mapWritten := map.take 64, busy := true
         shoot := some { vpage := 0, kind := 3, waiting := told, dropped := [], newMap := some (map.take 64) } } }) ∧
       ((∃ e ∈ map.take 64, s.grantsDisabled e = true) → exec (.partitionMapChange part map) s = .next u)) ∧
   (∀ (part site : Nat) (k : Shoot) (s : State),
     let u := s.focusPart part
     let first := ∀ d ∈ k.dropped, d.1 ≠ site
     let ds := if first then k.dropped ++ [(site, u.awaitedBy k site)] else k.dropped
     let clear := ∃ l, ds.find? (fun d => decide (d.1 = site)) = some (site, l) ∧ u.shootClear site l = true
     u.part.shoot = some k → site ∈ k.waiting →
     ∃ t, exec (.shootdownAck part site) s = .next t ∧ t.mem = s.mem ∧
       (∀ st, (u.boxAt site).core.part = some part → (t.boxAt site).core.tlb st =
         if first then ((u.boxAt site).core.tlb st).filter (fun e => !e.dropped k.kind k.vpage) else (u.boxAt site).core.tlb st) ∧
       (¬clear → t.part.busy = u.part.busy ∧ t.part.map = u.part.map ∧ t.part.shoot = some { k with dropped := ds }) ∧
       (clear → k.waiting.erase site ≠ [] → t.part.busy = u.part.busy ∧ t.part.map = u.part.map ∧
         t.part.shoot = some { k with waiting := k.waiting.erase site, dropped := ds }) ∧
       (clear → k.waiting.erase site = [] → t.part.map = k.newMap.getD u.part.map ∧
         (t.part.mapWritten = t.part.map → t.part.busy = false ∧ t.part.shoot = none)))) ∧
  ((∀ (part die frame : Nat) (s : State),
     let u := s.focusPart part
     let hs := u.part.holders.getD frame []
     die ∉ hs → hs.length < 8 → (∀ w ∈ u.part.replWrites, w.frame ≠ frame) →
     (die < 18 → (u.part.holders.filter (fun e => e.2.contains die)).length < u.part.replicaCap) →
     exec (.replicaRead part die frame) s = .next { u with part := { u.part with holders := u.part.holders.put frame (hs ++ [die]) } }) ∧
   (∀ (part : Nat) (w : ReplWrite) (s : State),
     let u := s.focusPart part
     let hs := u.part.holders.getD w.frame []
     u.nextRepl = some w →
     (w.sent = true ∨ hs = [] → ∃ t, exec (.replicaWrite part) s = .next t ∧ t.mem = s.mem.writeBytes w.key w.data ∧
       t.part = { u.part with replWrites := u.part.replWrites.erase w, holders := u.part.holders.drop w.frame }) ∧
     (w.sent = false → hs ≠ [] → exec (.replicaWrite part) s = .next { u with
       notices := s.notices ++ (hs.filter (fun h => decide (18 ≤ h))).map (fun h => .invalidate ((h - 18) / 8) ((h - 18) % 8) w.frame)
       part := { u.part with replWrites := u.part.replWrites.map (fun x => if x = w then { w with waiting := hs, sent := true } else x) } })) ∧
   (∀ (part die : Nat) (w : ReplWrite) (s : State),
     let u := s.focusPart part
     u.part.replWrites.find? (fun x => x.sent && x.waiting.contains die) = some w →
     (w.waiting.erase die ≠ [] → exec (.holderAck part die) s = .next { u with part := { u.part with
       replWrites := u.part.replWrites.map (fun x => if x = w then { w with waiting := w.waiting.erase die } else x) } }) ∧
     (w.waiting.erase die = [] → ∃ t, exec (.holderAck part die) s = .next t ∧
       t.mem = s.mem.writeBytes w.key w.data ∧
       t.part = { u.part with replWrites := u.part.replWrites.erase w, holders := u.part.holders.drop w.frame })))

/-! ### Events: results, T words, fences -/

/-- R146, R157, R230, R271, R316, R317, R322, R323, R326, R331, R332, R346, R354: a FENCE retires when nothing of its before set is pending;
of the results due the earliest, and among equals the earliest issued, lands in its register; a zeroing M word clears its tile; a V word's
result lands, and the word retires with its flags and its post when these have room; the head of a T window commits, and leaves it, once its
homes have performed its writes; a failed access or a word in error withdraws every word of the window, with a trap pending at the word that
met it, and none of a later word. (The model's own readings are in logs 3 and 15.) -/
def Obligations.ResultsLandAndTWordsCommit : Prop :=
  (∀ (site : Nat) (cx : Bool) (st : Strm) (s : State) (f : FenceSt),
    let u := s.focus site cx
    (u.ctx.strm st).fence = some f → (u.ctx.strm st).wait = some .fence → u.streamReady st = true →
    u.pendingOn st f.before.toNat f.serial f.chips = false →
    (st = .c → exec (.fenceRetire site cx st) s = .next (nextWord u)) ∧
    (st = .t → exec (.fenceRetire site cx st) s = .next ((windowed u .plain 0 f.sync [] none).issuedIn .t)) ∧
    (st = .m ∨ st = .v → u.ctx.postRoom st f.sync = true →
      exec (.fenceRetire site cx st) s = .next ((posted u st f.sync).issuedIn st))) ∧
  (∀ (site : Nat) (cx : Bool) (s : State) (l : Landing),
    let u := s.focus site cx
    l ∈ u.ctx.landing → l.due ≤ u.cycle →
    (∀ m ∈ u.ctx.landing, m ≠ l → m.due ≤ u.cycle → l.due < m.due ∨ (l.due = m.due ∧ l.serial < m.serial)) →
    let v := { u with ctx := { u.ctx with landing := u.ctx.landing.erase l } }
    ∃ t, exec (.resultLand site cx) s = .next t ∧ t.mem = u.mem ∧ t.ctx.landing = v.ctx.landing ∧ landedIn v.ctx t.ctx l ∧
      ((∀ r, l.dst ≠ .ctl r) → t = { v with ctx := t.ctx }) ∧ (∀ r, l.dst = .ctl r → ctlLanded v t r (l.val.setWidth 64))) ∧
  (∀ (site : Nat) (cx : Bool) (s : State) (z : MRet) (rest : List MRet),
    let u := s.focus site cx
    u.ctx.zeroing = z :: rest → z.due ≤ u.cycle → (∀ l ∈ u.ctx.landing, u.cycle < l.due) →
    u.ctx.postRoom .m z.sync = true → (z.postC = true → u.ctx.tokenRoom (chanIx 2 0) = true) → u.ctx.acc.wf = true → u.ctx.rowInt.wf = true →
    ∃ t, exec (.resultLand site cx) s = .next t ∧ t.mem = u.mem ∧ t.ctx.x = u.ctx.x ∧ t.ctx.zeroing = rest ∧
      (∀ row, t.ctx.acc.find? row = if z.tile.map (fun n => n.val) = some (row / 128) then none else u.ctx.acc.find? row) ∧
      (∀ row, t.ctx.rowInt.find? row = if z.tile.map (fun n => n.val) = some (row / 128) then none else u.ctx.rowInt.find? row) ∧
      t.ctx.chans = (if z.postC then (u.ctx.post .m z.sync u.cycle u.serial).pushToken (chanIx 2 0) u.cycle { u.ctx.ms.know with m := u.serial }
        else u.ctx.post .m z.sync u.cycle u.serial).chans) ∧
  (∀ (site : Nat) (cx : Bool) (s : State) (p : VPend) (pre post : List VPend),
    let u := s.focus site cx
    u.ctx.vpend = pre ++ p :: post → (∀ q ∈ pre, u.cycle < q.due) → p.due ≤ u.cycle → u.core.sp.wf = true →
    (p.last = true → ∀ q ∈ pre ++ post, p.serial ≤ q.serial) →
    let room := u.ctx.postRoom .v p.sync = true ∧ (p.postC = true → u.ctx.tokenRoom (chanIx 3 0) = true)
    (room ∨ p.pushes ≠ [] ∨ p.cells ≠ []) →
    ∃ t, exec (.vectorResultPush site cx) s = .next t ∧ t.mem = u.mem ∧ t.ctx.x = u.ctx.x ∧
      (∀ q : Fin 16, t.ctx.q[q] = { u.ctx.q[q] with ents := landedAt u.ctx.q[q].ents (fun n =>
        ((p.pushes.find? (fun x => x.1 == q && x.2.1 == n)).map (fun x => x.2.2))) }) ∧
      (∀ key, t.core.sp.getD key 0 = ((p.cells.reverse.find? (fun x => x.1 == key)).map (fun x => x.2)).getD (u.core.sp.getD key 0)) ∧
      (room → t.ctx.fflags = u.ctx.fflags ||| p.flags ∧ t.ctx.vpend = pre ++ post ∧
        t.ctx.chans = (if p.postC then (u.ctx.post .v p.sync u.cycle u.serial).pushToken (chanIx 3 0) u.cycle u.ctx.vs.know
          else u.ctx.post .v p.sync u.cycle u.serial).chans) ∧
      (¬ room → p ∉ post → t.ctx.fflags = u.ctx.fflags ∧ t.ctx.vpend = pre ++ { p with pushes := [], cells := [] } :: post)) ∧
  (∀ (site : Nat) (cx : Bool) (s : State) (e : TEntry) (rest : List TEntry),
    let u := s.focus site cx
    u.ctx.twin = e :: rest → e.due ≤ u.cycle → u.ctx.commitRoom e = true → u.netOpen e.serial = false →
    let plain := ∀ l ∈ e.op.lines, l.2.replFrame = none
    (u.lateNow e = none → u.writing e.serial = false →
      e.op.lines = [] ∨ e.op.acc = .read ∨ e.done.isSome = true ∨ (plain ∧ u.part.replWrites = []) →
      ∃ t, exec (.tWordCommit site cx) s = .next t ∧ committed u t e ∧ t.ctx.x = u.ctx.x ∧ t.ctx.a = u.ctx.a ∧
      t.ctx.twin.map (fun w => w.serial) = rest.map (fun w => w.serial) ∧
      t.ctx.ranges = u.ctx.ranges.filter (fun r => !decide (r.serial = e.serial)) ∧
      (u.ctx.trctl.toNat / 2 ^ 19 % 2 = 0 → t.ctx.chans = (if e.op.postsC
        then (u.ctx.post .t e.sync u.cycle (e.serial + 1)).pushToken (chanIx 1 0) u.cycle { u.ctx.ts.know with t := e.serial + 1 }
        else u.ctx.post .t e.sync u.cycle (e.serial + 1)).chans)) ∧
    (e.fault = none → e.done.isSome = true → u.writing e.serial = true → exec (.tWordCommit site cx) s = .next u) ∧
    (∀ en b ly ls, e.op = .stq en b ly ls → e.fault = none → e.done = none → u.partBad ls (stqBytes en b ly ls).1 = none →
      (∀ l ∈ ls, ∃ f, l.2.replFrame = some f ∧ u.part.holders.getD f [] ≠ []) → (∃ x ∈ (stqBytes en b ly ls).1, (placeIn ls x.1).isSome = true) →
      ∃ t, exec (.tWordCommit site cx) s = .next t ∧ t.mem = u.mem ∧ t.ctx.chans = u.ctx.chans ∧
        t.ctx.twin.map (fun w => w.serial) = (e :: rest).map (fun w => w.serial) ∧ t.writing e.serial = true ∧
        ∀ w ∈ t.ctx.twin, w.serial = e.serial → w.done = some 0) ∧
    (∀ (c : Cause) (va : Nat) (i : Instr),
      ((∃ n, e.fault = some (n, c) ∧ va = ((e.op.lines[n]?).map (fun l => l.1)).getD 0) ∨
        (e.fault = none ∧ c = .memerr ∧ ∃ q b ly ls, e.op = .ldq q b ly ls ∧ u.badLine ls = some va) ∨
        (e.fault = none ∧ c = .memerr ∧ e.done = none ∧ ∃ en b ly ls, e.op = .stq en b ly ls ∧ u.partBad ls (stqBytes en b ly ls).1 = some va)) →
      u.writing e.serial = false → i = .tWordCommit site cx ∨ i = .lateFault site cx →
      ∃ t, exec i s = .next t ∧ t.mem = u.mem ∧ t.ctx.twin = [] ∧
        t.ctx.pend = u.ctx.pend.filter (fun x => !(decide (x.rank = 2) && decide (x.st = .t) && x.pawn.isNone)) ++ [lateTrap e c va] ∧
        t.ctx.ts.pc = e.pc ∧ t.ctx.ts.issued = e.pos ∧ t.ctx.ts.loops = e.undo.loops ∧ t.ctx.ts.held = true ∧
        t.ctx.x = u.ctx.x ∧ (∀ l ∈ t.ctx.landing, l.st ≠ .t)))

/-! ### Events: pawns -/

/-- R140, R155, R163, R165 to R170, R328 to R330, R334, R341, R342, R347, R348, R390: an engine's step of its pawn moves one piece, a line
of a SEND, or one row of the accumulator, and the pawn goes on or has finished; a cancel stops it; a PAGE fault suspends a pawn that is not
adopted and is pending as a trap, another fault ends it; a step of an MGO runs at least the chunk time and then accumulates the 128 rows of
its window; the end of a pawn is reported by its handle, or enters the anonymous aggregate, or frees an adopted pawn; a free draw slot sends
the first waiter on. (The model's own readings are in logs 3, 15 and 22.) -/
def Obligations.PawnEventsStepEndAndGrant : Prop :=
  (∀ (site : Nat) (k : Fin 64) (s : State),
    let u := s.focus site s.cx
    let p := u.pawn k
    let v := u.focusCx p.cx
    let goes := (p.cancelReq = false ∨ v.midStep p = true) ∧ (∀ f, p.net = some f → p.pos < f.1 / 2 ^ 20)
    let row := p.cancelReq = false ∧ p.starts = false ∧ p.eng = .matrix
    u.enginePick p.eng = some k →
    (p.cancelReq = true → v.midStep p = false → ∃ t, exec (.pawnStep site k) s = .next t ∧ t.mem = s.mem ∧ onlyPawn v t k (cancelledAt p)) ∧
    (goes → p.eng = .transfer → p.starts = true → ∀ tr x, v.xlateMore .t p.stepLines p.tr = ((none, tr), x) →
      ∃ t, exec (.pawnStep site k) s = .next t ∧ t.mem = s.mem ∧
        onlyPawn v t k { p with state := .running, due := s.cycle + p.lead, begun := true, tr := tr }) ∧
    (p.cancelReq = false → p.eng = .matrix → p.job.isMgo = false → p.starts = true → ∃ t, exec (.pawnStep site k) s = .next t ∧ t.mem = s.mem ∧
      onlyPawn v t k { p with state := .running, due := s.cycle + p.lead, begun := true }) ∧
    (∀ n c, (p.cancelReq = false ∨ v.midStep p = true) → p.eng = .transfer → p.net = some (n, c) → n / 2 ^ 20 ≤ p.pos →
      ∃ t, exec (.pawnStep site k) s = .next t ∧ t.mem = s.mem ∧ onlyPawn v t k (faultedAt p c (p.netAddr n))) ∧
    (goes → p.eng = .transfer → ∀ src dst n pos last, pieceOf p = some (src, dst, n, pos, last) →
      (∀ a b, p.starts = false → placeOf p.tr false src = some a → placeOf p.tr true dst = some b → piecePages p a.leaf b.leaf →
        v.stepAnswered p = true → v.readBad a.key n = false → v.writeBad b.key n = false → b.replFrame = none →
        (p.cancelReq = true → ∀ e ∈ v.net, e.serial ≠ p.serial) →
        ((∀ e ∈ v.net, e.serial ≠ p.serial) → v.homeWaits = false → v.readFor 1 p.serial a n = s.mem.readBytes a.key n) ∧
        ∃ t d, exec (.pawnStep site k) s = .next t ∧
          t.mem = (if v.netMade p.serial (p.pos * 2 ^ 20 + 1) = true then s.mem else s.mem.writeBytes b.key (v.readFor 1 p.serial a n)) ∧
          s.cycle < d ∧ (p.pos = 0 ∨ p.job.remote = true → d = s.cycle + 1) ∧
          let q := stepped p (trWithout p src (some dst)) pos d last
          onlyPawn v t k (if p.cancelReq = true ∧ last = false then { cancelledAt q with suspended := p.suspended } else q)) ∧
      (∀ c x, placeOf p.tr false src = none → v.xlate .t .read src n = (.fault c, x) →
        let va : Word := BitVec.ofNat 64 (src % 2 ^ 52)
        (c = .page → p.adopted = false → ∃ t, exec (.pawnStep site k) s = .next t ∧ t.mem = s.mem ∧
          onlyPawn v t k { p with suspended := true, state := .running, faddr := va, tr := [] } ∧
          t.ctx.pend = v.ctx.pend ++ [{ rank := 3, order := k.val, cause := .page, st := p.st, pawn := some k.val, tok := none, async_ := true
                                        st2 := .c, faddr := va, fpc := p.pc, fpc2 := 0, frec := faultRecord .page p.progress src }]) ∧
        (c ≠ .page ∨ p.adopted = true → ∃ t, exec (.pawnStep site k) s = .next t ∧ t.mem = s.mem ∧
          onlyPawn v t k (faultedAt p c src)))) ∧
    (goes → p.eng = .transfer → p.cancelReq = false → p.starts = false → ∀ chan launch src slot n ch a rs, p.job = .send chan launch src slot n → p.pos < n →
      v.part.chans.find? (fun c => c.launch == launch && c.num == chan) = some ch → v.siteOf ch.receiver = some rs →
      let slotKey := spKey rs (ch.base + slot * ch.size + p.pos)
      placeOf p.tr false (src.toNat + p.pos) = some a → v.stepAnswered p = true → v.readBad a.key 64 = false → v.writeBad slotKey 64 = false →
      ∃ t d, exec (.pawnStep site k) s = .next t ∧ s.cycle < d ∧
        t.mem = (if v.netMade p.serial (p.pos * 2 ^ 20 + 1) = true then s.mem else s.mem.writeBytes slotKey (v.readFor 1 p.serial a 64)) ∧
        onlyPawn v t k (stepped p (trWithout p (src.toNat + p.pos) none) (p.pos + 64) d (decide (n ≤ p.pos + 64)))) ∧
    (p.cancelReq = false → p.eng = .matrix → ∀ nest a0 b0 tile acc af bf mc strict pa pb int v1, p.job = .mgo nest a0 b0 tile acc af bf mc strict →
      let at_ := mgoAt nest a0 b0 tile p.pos
      State.panels ((v.prefetchLoops .m at_.1 (panelLoops (fun l => l.as_) nest p.pos) a0.toNat).prefetchLoops .m at_.2.1
        (panelLoops (fun l => l.bs) nest p.pos) b0.toNat) at_.1 at_.2.1 af bf strict = (.ok (pa, pb, int), v1) →
      ∃ t d ps, exec (.pawnStep site k) s = .next t ∧ t.mem = s.mem ∧ t.ctx.acc = v.ctx.acc ∧ t.core.mstep = some k ∧
        s.cycle + chunkTime pa.fmt pb.fmt ≤ d ∧ (mc = false → ps = [[], []]) ∧ onlyPawn v t k { p with
          state := .running, due := d, panels := ps
          tr := [{ writes := false, va := at_.1, place := pa.place }, { writes := false, va := at_.2.1, place := pb.place }] }) ∧
    (row → ∀ base tile ly, p.job = .acc2s base tile ly → p.pos < ly.rows.toNat → ly.cols ≠ 0 →
      let w := mcWalk ly base
      let row := 128 * tile + p.pos
      let bs := acc2sWrites w p.pos (v.ctx.rowIsInt row) (v.ctx.accRow row)
      ∀ ls m1, mcFmtBad w = false → v.linesM k .write (w.rowAddrs p.pos) = (.ok ls, m1) → v.accBad row 0 ly.cols.toNat = false →
        v.partBad ls bs = none →
        (∀ l ∈ ls, l.2.replFrame = none) → s.mem.wf = true →
        ∃ t, exec (.pawnStep site k) s = .next t ∧ storesExactly s.mem t.mem ls bs ∧ t.ctx.acc = v.ctx.acc ∧
          onlyPawn v t k (stepped p [] (p.pos + 1) (s.cycle + 1) (decide (ly.rows.toNat ≤ p.pos + 1)))) ∧
    (row → ∀ base tile ly, p.job = .s2acc base tile ly → p.pos < ly.rows.toNat → ly.cols ≠ 0 →
      let w := mcWalk ly base
      let row := 128 * tile + p.pos
      let via : Via := { path := 2, serial := p.serial }
      let new := fun (ls : List (Nat × Place)) (i : Nat) =>
        if ly.cols.toNat ≤ i then (v.ctx.accRow row).getD i 0
        else if w.fmt = 0 then BitVec.ofNat 32 (if w.geom = 0 then v.elemIn via w ls p.pos i else 0)
        else if isIntFmt w.fmt then BitVec.ofInt 32 ((v.valueIn via w ls p.pos i).1).toInt
        else BitVec.ofNat 32 (roundTo fp32 .rne false (v.valueIn via w ls p.pos i).1).1
      ∀ ls m1, mcFmtBad w = false → v.linesM k .read (w.rowAddrs p.pos) = (.ok ls, m1) → v.badLine ls = none →
        (ly.cols.toNat % 2 = 1 → v.accBad row (ly.cols.toNat - 1) ly.cols.toNat = false) → v.ctx.acc.wf = true → v.ctx.rowInt.wf = true →
        ∃ t, exec (.pawnStep site k) s = .next t ∧ t.mem = s.mem ∧
          onlyRow v.ctx t.ctx row (if w.fmt = 0 then v.ctx.rowIsInt row else isIntFmt w.fmt) ((List.range 128).map (new ls)) ∧
          onlyPawn v t k (stepped p [] (p.pos + 1) (s.cycle + 1) (decide (ly.rows.toNat ≤ p.pos + 1)))) ∧
    (row → ∀ base tile ly perCol, p.job = .accmul base tile ly perCol → 0 < p.pos → p.pos < 128 → ly.cols ≠ 0 →
      let row := 128 * tile + p.pos
      mcFmtBad (mcWalk ly base) = false → v.accBad row 0 128 = false → v.ctx.acc.wf = true → v.ctx.rowInt.wf = true →
      ∃ t, exec (.pawnStep site k) s = .next t ∧ t.mem = s.mem ∧
        onlyRow v.ctx t.ctx row false ((v.ctx.accRow row).mapIdx (fun i o => BitVec.ofNat 32
          (roundFp32 ((accVal (v.ctx.rowIsInt row) o).mul (p.vec.getD (if perCol then i else p.pos) (.fin false 0 0)))))) ∧
        onlyPawn v t k (stepped p p.tr (p.pos + 1) (s.cycle + 1) (decide (128 ≤ p.pos + 1))))) ∧
  (∀ (site : Nat) (k : Fin 64) (s : State),
    let u := s.focus site s.cx
    let p := u.pawn k
    let v := u.focusCx p.cx
    u.mgoDue = some k → ∀ nest a0 b0 tile acc af bf mc strict va pa vb pb, p.job = .mgo nest a0 b0 tile acc af bf mc strict →
    p.panelsOf = some ((va, pa), (vb, pb)) →
    let row := fun (i : Nat) => ((mgoAt nest a0 b0 tile p.pos).2.2 + i) % 512
    let int := (pairing pa.fmt pb.fmt).getD false
    (∀ n c, p.net = some (n, c) → c ≠ .page → ∃ t, exec (.mgoStep site k) s = .next t ∧ t.mem = s.mem ∧ t.core.mstep = none ∧
      t.ctx.acc = v.ctx.acc ∧ onlyPawn v t k (faultedAt { p with panels := [] } c (p.panelAddr n))) ∧
    (p.net = none → v.readBad pa.place.key (panelSize pa.fmt) = true → ∃ t, exec (.mgoStep site k) s = .next t ∧ t.mem = s.mem ∧
      t.core.mstep = none ∧ t.ctx.acc = v.ctx.acc ∧ onlyPawn v t k (faultedAt { p with panels := [] } .memerr va)) ∧
    (p.net = none → v.readBad pa.place.key (panelSize pa.fmt) = false → v.readBad pb.place.key (panelSize pb.fmt) = false →
      v.ctx.acc.wf = true → v.ctx.rowInt.wf = true →
      ((∀ e ∈ v.net, e.serial ≠ p.serial) → v.homeWaits = false → (p.panels.getD 0 [] = [] → panelRead v p 0 pa = s.mem.readBytes pa.place.key (panelSize pa.fmt)) ∧
        (p.panels.getD 1 [] = [] → panelRead v p 1 pb = s.mem.readBytes pb.place.key (panelSize pb.fmt))) ∧
      (∀ rest, s.mismatches = true :: rest → ∃ t, exec (.mgoStep site k) s = .next t ∧ t.mem = s.mem ∧ t.mismatches = rest ∧
        t.ctx.acc = v.ctx.acc ∧ t.ctx.rowInt = v.ctx.rowInt ∧
        (p.fin = none → p.retry = false → t.core.mstep = v.core.mstep ∧
          onlyPawn v t k { p with retry := true, due := s.cycle + chunkTime pa.fmt pb.fmt }) ∧
        (p.retry = true → t.core.mstep = none ∧ onlyPawn v t k (faultedAt { p with retry := false, panels := [] } .memerr 0))) ∧
      (p.cancelReq = false → s.mismatches.head? ≠ some true →
        (∀ i, i < 128 → acc = true ∨ p.covered.getLsbD (row i) = true → v.accBad (row i) 0 128 = false) →
      ∃ t, exec (.mgoStep site k) s = .next t ∧ t.mem = s.mem ∧ t.core.mstep = none ∧ t.mismatches = s.mismatches.tail ∧
        onlyPawn v t k { stepped p [] (p.pos + 1) s.cycle (decide (nestSteps nest ≤ p.pos + 1)) with
          covered := p.covered ||| rowWindow (mgoAt nest a0 b0 tile p.pos).2.2, retry := false, panels := [] } ∧
        (∀ i, i < 128 → t.ctx.rowIsInt (row i) = int ∧ t.ctx.accRow (row i) =
          chunkRow int (!(acc || p.covered.getLsbD (row i))) (v.ctx.accRow (row i)) ((panelRows v p 0 pa).getD i []) (panelRows v p 1 pb)) ∧
        (∀ r, (∀ i, i < 128 → r ≠ row i) → t.ctx.accRow r = v.ctx.accRow r ∧ t.ctx.rowIsInt r = v.ctx.rowIsInt r)))) ∧
  (∀ (site : Nat) (k : Fin 64) (s : State) (fin : PawnState),
    let u := s.focus site s.cx
    let p := u.pawn k
    let v := u.focusCx p.cx
    u.endReady k = true → p.fin = some fin →
    (p.adopted = false → p.handle.isSome = true → ∃ t, exec (.pawnEnd site k) s = .next t ∧ t.mem = s.mem ∧ t.ctx.x = v.ctx.x ∧
      givenBack v.ctx t.ctx p s.cycle ∧ onlyPawn v t k { p with state := fin, fin := none, endsAt := s.cycle, suspended := false }) ∧
    (p.adopted = false → p.handle = none → p.st ≠ .v → ∃ t, exec (.pawnEnd site k) s = .next t ∧ t.mem = s.mem ∧ t.ctx.x = v.ctx.x ∧
      givenBack v.ctx t.ctx p s.cycle ∧ aggregated (v.ctx.agg p.st) (t.ctx.agg p.st) p k fin ∧
      onlyPawn v t k (if v.waitedOn (v.handleOf k) none none = true
        then { p with state := fin, fin := none, endsAt := s.cycle, suspended := false } else { Pawn.free with gen := p.gen })) ∧
    (p.adopted = true → ∃ t, exec (.pawnEnd site k) s = .next t ∧ t.pawn k = { Pawn.free with gen := p.gen })) ∧
  (∀ (part : Nat) (s : State) (w : Nat × Bool × Word),
    let u := s.focusPart part
    u.grantee = some w →
    let f := u.focus w.1 w.2.1
    0 < u.freeSlots ∧ w ∈ u.drawWaiters ∧
    exec (.drawSlotGrant part) s = .next { f with ctx := { f.ctx with ms := { f.ctx.ms with wait := none } } })

/-! ### Events: traps, swaps, time, the debug window -/

/-- R175, R177 to R179, R181 to R183, R396: of the traps pending at a C boundary the first by rank and order is taken: every trap register
holds what R178 says, BUDGET and DEADLOCK name EPC as their word; with no handler the turn retires FAULTED with a report; 4,096 quiet cycles
make a DEADLOCK pending, and in a handler they retire the turn FAULTED. (The model's own readings are in logs 3, 15 and 21.) -/
def Obligations.PendingTrapsEnterTheirHandler : Prop :=
  (∀ (site : Nat) (cx : Bool) (s : State) (x : PendTrap),
    let u := s.focus site cx
    let free := fun (y : PendTrap) => ∀ k, y.tok = some k → y.rank = 1 → u.ctx.waitMask.getLsbD k.val = false
    u.ctx.turn.isSome = true → u.ctx.tip = false → u.ctx.retire = none → u.ctx.halted = false → u.ctx.haltReq = false → u.core.stopping = false →
    u.core.urgent = none → u.core.active = cx → x ∈ u.ctx.pend → free x →
    (∀ y ∈ u.ctx.pend, y ≠ x → free y → x.rank < y.rank ∨ (x.rank = y.rank ∧ x.order < y.order)) →
    (x.rank = 4 → u.ctx.trctl.getLsbD 19 = false) →
    let v := { u with ctx := { u.ctx with pend := u.ctx.pend.erase x } }
    let at_ := if s.todo.any (fun t => t.site == site && t.cx == cx && t.st == .c) then s.cycle else s.cycle + 1
    (handlerOf u.part ≠ 0 → ∃ t, exec (.trapEntry site cx) s = .next t ∧ entersHandler v t
      (inHandler v.ctx u.cycle at_ u.serial (if 4 ≤ x.rank then { x with fpc := u.ctx.cs.pc } else x) u.ctx.cs.pc (handlerOf u.part))) ∧
    (handlerOf u.part = 0 → ∃ t, exec (.trapEntry site cx) s = .next t ∧ t.ctx.pend = v.ctx.pend ∧ retiresFaulted v t x.cause.code 0)) ∧
  (∀ (site : Nat) (cx : Bool) (s : State),
    let u := s.focus site cx
    u.ctx.turn.isSome = true → u.ctx.tip = false → 4096 ≤ u.ctx.dead →
    ∃ x : PendTrap, x.cause = .deadlock ∧ x.rank = 5 ∧ x.async_ = true ∧ x.st = .c ∧ x.tok = none ∧ x.pawn = none ∧
      exec (.deadlockDetect site cx) s = .next { u with ctx := { u.ctx with dead := 0, pend := u.ctx.pend ++ [x] } }) ∧
  (∀ (site : Nat) (cx : Bool) (s : State),
    let u := s.focus site cx
    u.ctx.turn.isSome = true → u.ctx.tip = true → u.ctx.retire = none → 4096 ≤ u.ctx.dead →
    ∃ t, exec (.handlerDeadlock site cx) s = .next t ∧ t.ctx.pend = u.ctx.pend ∧ retiresFaulted u t (u.ctx.cause.toNat % 256) 5)

/-- R186 to R188, R212, R214: a swap-out sets SWAPPED and asks the partition's cores to stop; once they have, the contexts and the
scratchpad of a site are in its image, and the site is empty; a swap-in puts both back, clears SWAPPED and counts the time that resident
time stood still; a late response lands where its bytes now are; time registers are staged, and an epoch gives each its last staged value.
(The model's own readings are in logs 3 and 16.) -/
def Obligations.SwapsMoveImagesAndEpochsSetTime : Prop :=
  (∀ (k : SwapKind) (p : Nat) (s : State),
    let u := s.focusPart p
    swapsOut k = some p → u.part.live = true → u.part.swapped = false → (∀ e ∈ s.pauses, e.1 ≠ p) →
    (∀ q, swapsIn k = some q → s.canSwapIn q (some p) = true) →
    ∃ t, exec (.partitionSwap k) s = .next t ∧ t.mem = s.mem ∧ t.pid = p ∧ t.pauses = s.pauses ++ [(p, .swap k)] ∧
      t.part = { u.part with swapped := true, swapSince := some s.dtW } ∧
      ∀ i ∈ u.liveSites, (t.boxAt i).core.stopping = true ∧ (t.boxAt i).a.x = (u.boxAt i).a.x ∧ (t.boxAt i).b.x = (u.boxAt i).b.x) ∧
  (∀ (p i : Nat) (s : State),
    let u := s.focusPart p
    u.part.live = true → (p, Pause.swap (.swapOut p)) ∈ s.pauses → u.allStopped = true → u.remapsFit = true → u.liveSites = [i] → i < 288 →
    s.mtrbase.toNat / 64 % 2 ^ 46 = 0 → s.mem.wf = true →
    ∃ t b, exec (.partitionSwap (.swapOut p)) s = .next t ∧ t.pauses = s.pauses.erase (p, .swap (.swapOut p)) ∧ t.pid = p ∧
      t.part.images.find? i = some b ∧ (t.boxAt i).core.part = none ∧ (t.boxAt i).a.turn = none ∧ (t.boxAt i).b.turn = none ∧
      sameRegs (u.boxAt i).a b.a ∧ sameRegs (u.boxAt i).b b.b ∧
      (∀ n, n < 2 ^ 22 → t.mem.read (shadowKey p i n) = s.mem.read (spKey i n) ∧ t.mem.read (spKey i n) = 0) ∧
      (∀ key, (∀ n, n < 2 ^ 22 → key ≠ spKey i n ∧ key ≠ shadowKey p i n) → t.mem.read key = s.mem.read key)) ∧
  (∀ (p i : Nat) (b : CoreBox) (s : State),
    let u := s.focusPart p
    s.canSwapIn p none = true → u.part.images = [(i, b)] → i < 288 → s.badWords = [] → s.mtrbase.toNat / 64 % 2 ^ 46 = 0 → s.mem.wf = true →
    ∃ t, exec (.partitionSwap (.swapIn p)) s = .next t ∧ t.pid = p ∧ t.part.swapped = false ∧ t.part.images = [] ∧ t.part.staged = [] ∧
      (∀ since, u.part.swapSince = some since → t.part.swappedTotal = u.part.swappedTotal + (s.dtW - since)) ∧
      (t.boxAt i).core.part = some p ∧ sameRegs b.a (t.boxAt i).a ∧ sameRegs b.b (t.boxAt i).b ∧
      (∀ n, n < 2 ^ 22 → t.mem.read (spKey i n) = s.mem.read (shadowKey p i n)) ∧
      (∀ key, (∀ n, n < 2 ^ 22 → key ≠ spKey i n ∧ key ≠ shadowKey p i n) → t.mem.read key = s.mem.read key)) ∧
  (∀ (site : Nat) (s : State) (r : LateRead) (pre post : List LateRead),
    let b := s.boxAt site
    b.core.lateReads = pre ++ r :: post → (∀ q ∈ pre, s.cycle < q.due) → r.due ≤ s.cycle →
    let p := { b.core.pawns[r.slot] with suspended := false }
    ∃ t, exec (.remapResponseLand site) s = .next t ∧ (t.boxAt site).core.lateReads = pre ++ post ∧
      (s.readBad r.key r.bytes = false →
        t.mem = s.mem.writeBytes (if (s.boxAt r.site).core.part = some r.part then spKey r.site r.off else shadowKey r.part r.site r.off)
          (s.mem.readBytes r.key r.bytes) ∧
        (b.core.part = some r.part → (t.boxAt site).core.pawns[r.slot] = stepped p [] r.bytes p.due true)) ∧
      (s.readBad r.key r.bytes = true → t.mem = s.mem ∧
        (b.core.part = some r.part → (t.boxAt site).core.pawns[r.slot] = faultedAt p .memerr (p.netAddr 0)))) ∧
  (∀ (part : Nat) (r : TimeReg) (w : BitVec 64) (s : State),
    let u := s.focusPart part
    u.part.live = true → exec (.timeRegisterStage part r w) s = .next { u with part := { u.part with staged := u.part.staged ++ [(r, w)] } }) ∧
  (∀ (part : Nat) (s : State),
    let u := s.focusPart part
    let lastOf := fun (r : TimeReg) => (u.part.staged.reverse.find? (fun e => decide (e.1 = r))).map (fun e => e.2)
    u.part.live = true → u.part.swapped = false →
    ((∀ e ∈ s.pauses, e.1 ≠ part) → ∃ t, exec (.timeEpoch part) s = .next t ∧ t.mem = s.mem ∧ t.part = u.part ∧
      t.pauses = s.pauses ++ [(part, .epoch)] ∧ ∀ i ∈ u.liveSites, (t.boxAt i).core.stopping = true) ∧
    ((part, Pause.epoch) ∈ s.pauses → u.allStopped = true → ∃ t, exec (.timeEpoch part) s = .next t ∧ t.mem = s.mem ∧
      t.pauses = s.pauses.erase (part, .epoch) ∧
      t.part = { u.part with staged := [], tofs := (lastOf .tofs).getD u.part.tofs, tscale := (lastOf .tscale).getD u.part.tscale
                             tmode := ((lastOf .tmode).map (fun w => w.getLsbD 0)).getD u.part.tmode } ∧
      ∀ i ∈ u.liveSites, (t.boxAt i).core.stopping = false))

/-- R195 to R203: a command that finds one in progress has no effect, but a HALT that finds a step whose word waits ends it; one that finds
the seal closed reads SEALED, an unknown one BADCMD, one that needs a halt NOTHALTED; HALT asks the context to halt at its stop points,
where its results in flight are saved; RESUME and STEP let it go on; READ moves an item to the data registers and WRITE one from them; DROP
removes a landing-buffer entry; a breakpoint halts the context when BKEN is set, else traps with BKPT. (The model's own readings are in logs
3 and 17.) -/
def Obligations.DebugCommandsAndBreakpoints : Prop :=
  (∀ (n : Fin 288) (cx : Bool) (s : State),
    let closed := ∃ p, (s.boxAt n.val).core.part = some p ∧ (s.focusPart p).part.sealOpen = false
    let f := s.focus n.val cx
    ((s.dbg[n]).code = 5 → ∀ i, commands n.val cx i → i ≠ .dbgHalt n.val cx ∨ f.ctx.stepWaits = false ∨ closed → exec i s = .next s) ∧
    (¬ closed → f.ctx.stepWaits = true → ∃ t, exec (.dbgHalt n.val cx) s = .next t ∧ t.mem = s.mem ∧ sameRegs f.ctx t.ctx ∧ (t.dbg[n]).code = 0 ∧
      t.ctx.stepOf = none) ∧
    ((s.dbg[n]).code ≠ 5 → closed → ∀ i, commands n.val cx i → ∃ t, exec i s = .next t ∧ codeIs s t n.val 2) ∧
    ((s.dbg[n]).code ≠ 5 → ¬ closed →
      (∃ t, exec (.dbgBadcmd n.val) s = .next t ∧ codeIs s t n.val 4) ∧
      (f.ctx.halted = false → ∀ i, needsHalt n.val cx i → ∃ t, exec i s = .next t ∧ codeIs f t n.val 3) ∧
      (f.ctx.stepOf = none → ∃ t, exec (.dbgHalt n.val cx) s = .next t ∧ t.mem = s.mem ∧ sameRegs f.ctx t.ctx ∧ (t.dbg[n]).code = 0 ∧
        t.ctx.haltReq = (f.ctx.haltReq || !f.ctx.halted) ∧ t.ctx.halted = f.ctx.halted ∧
        (f.ctx.halted = false → f.core.active = cx → f.ctx.turn.isSome = true → f.ctx.tip = false →
          let at_ := if s.todo.any (fun x => x.site == n.val && x.cx == cx && x.st == .c) then s.cycle else s.cycle + 1
          t.ctx.lbuf = f.ctx.lbuf ++ saved f.ctx at_ ∧ (∀ l ∈ t.ctx.landing, l.st ≠ .c))) ∧
      (f.ctx.halted = true →
        (∃ t, exec (.dbgResume n.val cx) s = .next t ∧ t.mem = s.mem ∧ sameRegs f.ctx t.ctx ∧ sameTrapRegs f.ctx t.ctx ∧ t.ctx.halted = false ∧
          t.ctx.haltReq = false ∧ (∀ st, (t.ctx.strm st).bpSkip = true ∧ (t.ctx.strm st).pc = (f.ctx.strm st).pc) ∧ (t.dbg[n]).code = 0) ∧
        (∀ st, ∃ t, exec (.dbgStep n.val cx st) s = .next t ∧ t.mem = s.mem ∧ sameRegs f.ctx t.ctx ∧ (t.dbg[n]).code = 5 ∧
          (t.ctx.strm st).held = false ∧ (t.ctx.strm st).pc = (f.ctx.strm st).pc ∧ t.ctx.halted = true ∧ (t.ctx.stepOf.map (fun x => x.st)) = some st) ∧
        (∀ space v, debugItem f space (s.dbg[n]).idx.toNat = some v → ∃ t, exec (.dbgRead n.val cx space) s = .next t ∧ t.mem = s.mem ∧
          t.ctx = f.ctx ∧ t.dbg[n] = { s.dbg[n] with lo := BitVec.ofNat 32 v, hi := BitVec.ofNat 32 (v / 2 ^ 32), code := 0 }) ∧
        (∀ r : Fin 32, (s.dbg[n]).idx.toNat = r.val → f.ctx.ownedX r = false → ∃ t, exec (.dbgWrite n.val cx 0) s = .next t ∧ t.mem = s.mem ∧
          (t.dbg[n]).code = 0 ∧ t.ctx = { f.ctx with x := t.ctx.x } ∧
          ∀ j : Fin 32, t.ctx.x[j] = if j = r ∧ r ≠ 0 then (s.dbg[n]).hi ++ (s.dbg[n]).lo else f.ctx.x[j]) ∧
        (∀ r : Fin 16, (s.dbg[n]).idx.toNat = r.val → ∃ t, exec (.dbgWrite n.val cx 3) s = .next t ∧ t.mem = s.mem ∧
          (t.dbg[n]).code = 0 ∧ t.ctx = { f.ctx with a := t.ctx.a } ∧
          ∀ j : Fin 16, t.ctx.a[j] = if j = r ∧ r ≠ 0 then (s.dbg[n]).hi ++ (s.dbg[n]).lo else f.ctx.a[j]) ∧
        (8 * (s.dbg[n]).idx.toNat < f.shareSize → ¬(f.part.single = true ∧ cx = true) → ∃ t, exec (.dbgWrite n.val cx 15) s = .next t ∧ t.ctx = f.ctx ∧ (t.dbg[n]).code = 0 ∧
          t.mem = s.mem.writeBytes (spKey f.site (shareBase cx + 8 * (s.dbg[n]).idx.toNat)) (leBytes 8 ((s.dbg[n]).hi ++ (s.dbg[n]).lo).toNat)) ∧
        ((s.dbg[n]).idx.toNat < 8 → ∃ t, exec (.dbgDrop n.val cx) s = .next t ∧ t.mem = s.mem ∧ (t.dbg[n]).code = 0 ∧ t.ctx =
          (if f.ctx.tip then { f.ctx with hbuf := f.ctx.hbuf.modify (s.dbg[n]).idx.toNat (fun e => { e with valid := false }) }
            else { f.ctx with lbuf := f.ctx.lbuf.modify (s.dbg[n]).idx.toNat (fun e => { e with valid := false }) })) ∧
        (∀ i e, f.ctx.tip = false → i < 8 → f.ctx.lbuf[i]? = some e → (s.dbg[n]).idx.toNat = 2 * i → ∃ t, exec (.dbgWrite n.val cx 9) s = .next t ∧
          t.mem = s.mem ∧ (t.dbg[n]).code = 0 ∧
          t.ctx = { f.ctx with lbuf := f.ctx.lbuf.set i { e with val := ((s.dbg[n]).hi ++ (s.dbg[n]).lo).setWidth 256 } })))) ∧
  (∀ (site : Nat) (cx : Bool) (s : State),
    let u := s.focus site cx
    u.ctx.stepOf = none → u.ctx.haltReq = true → u.ctx.retire = none → u.core.stopping = false → u.core.active = cx → u.ctx.turn.isSome = true →
    u.ctx.enginesStopped s.cycle = true →
    ∃ t, exec (.debugHaltLand site cx) s = .next t ∧ t.mem = s.mem ∧ sameRegs u.ctx t.ctx ∧ sameTrapRegs u.ctx t.ctx ∧ t.ctx.halted = true ∧
      t.ctx.haltReq = false ∧ t.ctx.cs.pc = u.ctx.cs.pc ∧ (∀ l ∈ t.ctx.landing, l.st ≠ .c) ∧
      (u.ctx.tip = false → t.ctx.lbuf = u.ctx.lbuf ++ saved u.ctx u.cycle ∧ t.ctx.hbuf = u.ctx.hbuf) ∧
      (u.ctx.tip = true → t.ctx.hbuf = u.ctx.hbuf ++ saved u.ctx u.cycle ∧ t.ctx.lbuf = u.ctx.lbuf)) ∧
  (∀ (site : Nat) (cx : Bool) (st : Strm) (s : State),
    let u := s.focus site cx
    u.streamReady st = true → u.ctx.haltReq = false → u.bpFires st = true →
    (u.ctx.dbgctl.getLsbD 2 = true → ∃ t, exec (.breakpointFire site cx st) s = .next t ∧ t.ctx.haltReq = true ∧ t.mem = s.mem ∧
      sameRegs u.ctx t.ctx ∧ t.ctx.cs.pc = u.ctx.cs.pc ∧ t.ctx.cs.issued = u.ctx.cs.issued) ∧
    (u.ctx.dbgctl.getLsbD 2 = false → st = .c → u.ctx.tip = true → ∃ t, exec (.breakpointFire site cx st) s = .next t ∧
      retiresFaulted u t (u.ctx.cause.toNat % 256) 16) ∧
    (u.ctx.dbgctl.getLsbD 2 = false → st = .c → u.ctx.tip = false → handlerOf u.part ≠ 0 → ∃ t, exec (.breakpointFire site cx st) s = .next t ∧
      entersHandler u t (inHandler u.ctx u.cycle u.cycle u.serial (wordTrap .bkpt u.ctx.cs.pc 0 0) u.ctx.cs.pc (handlerOf u.part))) ∧
    (u.ctx.dbgctl.getLsbD 2 = false → st ≠ .c → ∃ t, exec (.breakpointFire site cx st) s = .next t ∧ t.mem = s.mem ∧ sameRegs u.ctx t.ctx ∧
      (t.ctx.strm st).held = true ∧ (t.ctx.strm st).pc = (u.ctx.strm st).pc ∧
      ∃ x, t.ctx.pend = u.ctx.pend ++ [x] ∧ x.cause = .bkpt ∧ x.st = st ∧ x.fpc = (u.ctx.strm st).pc ∧ x.async_ = true))

/-! ### The machine as a whole -/

/-- R246, R255 to R269: every well-formed word of every stream has a word of 32 bits that its stream decodes to it, with every operand at
every value that its row allows; and what a stream decodes from a word of 32 bits is a well-formed word of that stream whose encoding is
that word, so that no bit is left unread. -/
def Obligations.WordsDecodeToThemselves : Prop :=
  (∀ (i : Instr) (st : Strm), i.stream = some st → i.wellFormed = true → ∃ w, encode i = some w ∧ w < 2 ^ 32 ∧ decode st w = .ok i) ∧
  (∀ (i : Instr) (st : Strm) (w : Nat), w < 2 ^ 32 → decode st w = .ok i → i.stream = some st ∧ i.wellFormed = true ∧ encode i = some w)

/-- Every step that answers a next state keeps the memory in its canonical form: keys rising, and no byte listed that an unlisted address
reads as. (The form is the model's own, log 9; the steps are the specification's.) -/
def Obligations.StepsKeepMemoryCanonical : Prop := ∀ (s t : State), s.Inv → step s = .next t → t.Inv

/-- R4, R12, R17, R38, R52, R117, R152, R164, R351: what reset leaves. Memory lists nothing and is canonical; every register of a program
reads as at dispatch, no queue is bound, every token is settled, no pawn is live and every generation is 0; the draw ceiling is 280, the
column limit 100 °C, every monitor's flag clear; every link port in service at full width; no partition is live. (The model's own readings
are in logs 5, 7 and 9.) -/
def Obligations.ResetLeavesTheMachineAsSpecified : Prop :=
  let s := State.reset
  s.Inv ∧ (∀ a, s.mem.read a = 0) ∧
  (∀ c ∈ [s.ctx, s.octx], c.turn = none ∧ (∀ r : Fin 32, c.getX r = 0) ∧ (∀ r : Fin 8, c.getP r = decide (r = 0) ∧ c.b[r].val = 0 ∧ c.tok[r] = none ∧
      c.getM r = if r = 0 then BitVec.allOnes 256 else 0) ∧
    (∀ r : Fin 16, c.getA r = 0 ∧ c.s[r] = 0 ∧ c.getH r = 0 ∧ c.q[r].ents = [] ∧ c.q[r].prod = 3 ∧ c.q[r].cons = 3) ∧
    (∀ r : Fin 4, c.mb[r] = 0) ∧ (∀ r : Fin 12, c.chans[r] = []) ∧ c.vshape = 0x401 ∧ c.fflags = 0 ∧ c.pl = false ∧ c.tip = false ∧
    c.lbuf = [] ∧ c.landing = [] ∧ c.captured = 0 ∧ (∀ l : Fin 6, c.nest[l] = { trip := 0, as_ := 0, bs := 0, cs := 0 }) ∧
    (∀ st, (c.strm st).run = false)) ∧
  (∀ k : Fin 64, (s.pawn k).live = false ∧ (s.pawn k).gen = 0 ∧ s.core.ly[k] = LyRec.zero) ∧
  s.drawceil = 280 ∧ s.ceilErr = false ∧ s.tlimit = 100 ∧
  (∀ i : Fin 12, s.hbm[i].ref2x = false ∧ s.hbm[i].hot = false ∧ s.hbm[i].hotseen = false) ∧
  (∀ i : Fin 288, s.columns[i].allow = 0 ∧ s.columns[i].retired = false) ∧
  (∀ i : Fin 18, s.dies[i].droop = 0 ∧ s.dies[i].ringBusy = false ∧ s.ports[i].inService = true ∧ s.ports[i].half = false ∧
    s.ports[i].nextSeq = 0) ∧
  (∀ i : Fin 64, s.peers[i].valid = false ∧ s.peers[i].up = false) ∧ s.part.live = false ∧ s.parts = []

/-- R151, R262, R293, R400: what the outside brings comes first; a machine without power stops; what falls due in the cycle is done next;
then the next slot of the cycle: the four bytes that the stream's fetch finds at its position decode to an instruction of the stream, and
the step is that instruction's, or the C stream traps with ILLEGAL; with no slot left the next cycle begins. (The model's own readings are
in logs 2, 18 and 20.) -/
def Obligations.StepRunsTheDecodedWord : Prop :=
  (∀ (e : Instr) (rest : List Instr) (s : State), s.agenda = e :: rest → step s = exec e { s with agenda := rest }) ∧
  (∀ s : State, s.agenda = [] → s.power ≠ .on → step s = .fault .clocksStopped) ∧
  (∀ (d : Due) (s : State), s.agenda = [] → s.power = .on → s.due = some d → step s = d.run s) ∧
  (∀ s : State, s.agenda = [] → s.power = .on → s.due = none → s.todo = [] → step s = .next s.tick) ∧
  (∀ (s : State) (sl : Slot) (rest : List Slot) (p : Place) (u : State),
    s.agenda = [] → s.power = .on → s.due = none → s.todo = sl :: rest →
    let v := ({ s with todo := rest }).focus sl.site sl.cx
    let pc := (v.ctx.strm sl.st).pc.toNat
    v.streamReady sl.st = true → (v.ctx.strm sl.st).stopsHere sl.st = false → pc % 4 = 0 → v.xlate sl.st .fetch pc 4 = (.ok p, u) →
    u.readBad p.key 4 = false →
    let read := u.correct p.key 4
    let ahead := if 65536 - 64 ≤ pc % 65536 then read.prefetchPage sl.st (pc / 65536 * 65536 + 65536) else read
    (∀ i, decodeBytes sl.st (u.mem.readBytes p.key 4) = .ok (i, []) → step s = exec i ahead) ∧
    (∀ e, decodeBytes sl.st (u.mem.readBytes p.key 4) = .error e → sl.st = .c → ahead.ctx.tip = false → handlerOf ahead.part ≠ 0 →
      ∃ t, step s = .next t ∧ entersHandler ahead t (inHandler ahead.ctx ahead.cycle ahead.cycle ahead.serial (wordTrap .illegal ahead.ctx.cs.pc 0 0)
        ahead.ctx.cs.pc (handlerOf ahead.part))))

/-- Words written out from the specification's own worked encodings (R262, R278, R281 to R288, R294, R326 to R335, R349, R367) decode to the
instructions they stand for, and the words that R262 lists as ILLEGAL to none. -/
def Obligations.SpelledWordsDecode : Prop :=
  decode .c 0x0424648B = .ok (.div { g := 0, rd := 9, ra := 3, rb := 4, w := true }) ∧
  decode .c 0x1C1448D1 = .ok (.lui { g := 0, rd := 5, imm := 0x48D1#18 }) ∧
  decode .c 0x2868C064 = .ok (.cmpiLtu { g := 0, pd := 2, ra := 6, imm := 100#13 }) ∧
  decode .c 0x6C296C01 = .ok (.std { g := 0, rd := 10, ra := 11, tok := 3, off := 1#10 }) ∧
  decode .c 0xB8288202 = .ok (.rkopenr { g := 0, rd := 10, ra := 4, tok := 2 }) ∧
  decode .t 0x091B05FE = .ok (.stq { sync := 2, q := 3, ra := 6, ly := 2, step := 0x1FE#9 }) ∧
  decode .m 0x0415FFC0 = .ok (.nsetLevel { sync := 0, level := 1, field := 1, v := 0x1FFC0#17 }) ∧
  decode .v 0x10309004 = .ok (.vcmpGt { sync := 0, md := 3, qa := 1, qb := 2, pka := false, pkb := false, m := 0, int := false, uns := false }) ∧
  (∀ st, ∃ e, decode st 0 = .error e) ∧ (∃ e, decode .c 0x04000013 = .error e) ∧ (∃ e, decode .c 0x25240000 = .error e) ∧
  (∃ e, decode .t 0x0C080000 = .error e) ∧ (∃ e, decode .v 0x10111806 = .error e)

/-- R282, R285: CMP and SEL, from the fields of their words to their results. -/
def Obligations.CompareAndSelectWordsAreAsWritten : Prop :=
  (∀ (fn : Nat) (mk : Op.Cmp → Instr) (holds : Word → Word → Bool),
    (fn, mk, holds) ∈ ([(0, Instr.cmpEq, fun a b => decide (a.toNat = b.toNat)), (1, Instr.cmpNe, fun a b => decide (a.toNat ≠ b.toNat)),
      (2, Instr.cmpLt, fun a b => decide (a.toInt < b.toInt)), (3, Instr.cmpLtu, fun a b => decide (a.toNat < b.toNat)),
      (4, Instr.cmpGe, fun a b => decide (b.toInt ≤ a.toInt)), (5, Instr.cmpGeu, fun a b => decide (b.toNat ≤ a.toNat))] :
      List (Nat × (Op.Cmp → Instr) × (Word → Word → Bool))) →
    ∀ (g pd : Fin 8) (ra rb : Fin 32) (s : State),
      let o : Op.Cmp := { g := g, pd := pd, ra := ra, rb := rb }
      decode .c (0x09 * 2 ^ 26 + g.val * 2 ^ 23 + pd.val * 2 ^ 18 + ra.val * 2 ^ 13 + rb.val * 2 ^ 8 + fn) = .ok (mk o) ∧
      (s.ctx.getP g = true → s.ctx.landingFull = false →
        exec (mk o) s = .next (landsIn s 1 (.p pd) (if holds (s.ctx.getX ra) (s.ctx.getX rb) then 1 else 0)))) ∧
  decode .c 0x240C8502 = .ok (.cmpLt { g := 0, pd := 3, ra := 4, rb := 5 }) ∧
  (∀ (g ps : Fin 8) (rd ra rb : Fin 32) (s : State),
    let o : Op.Sel := { g := g, rd := rd, ra := ra, rb := rb, ps := ps }
    decode .c (0x0C * 2 ^ 26 + g.val * 2 ^ 23 + rd.val * 2 ^ 18 + ra.val * 2 ^ 13 + rb.val * 2 ^ 8 + ps.val) = .ok (.sel o) ∧
    (s.ctx.getP g = true → mayLand s.ctx rd →
      exec (.sel o) s = .next (landsIn s 1 (.x rd) ((if s.ctx.getP ps = true then s.ctx.getX ra else s.ctx.getX rb).setWidth 256))) ∧
    (s.ctx.getP g = false → exec (.sel o) s = .next (nextWord s))) ∧
  decode .c 0x300CA602 = .ok (.sel { g := 0, rd := 3, ra := 5, rb := 6, ps := 2 })

/-- R280, R281, R283: SHIFTI, LUI, ADDPC and CMPI, from the fields of their words to their results. -/
def Obligations.ShiftConstantAndImmediateCompareWordsAreAsWritten : Prop :=
  (∀ (fn : Nat) (mk : Op.ShiftImm → Instr) (v : Word → Nat → Word),
    (fn, mk, v) ∈ ([(0, Instr.shli, fun a n => BitVec.ofNat 64 (a.toNat * 2 ^ n)), (1, Instr.shri, fun a n => BitVec.ofNat 64 (a.toNat / 2 ^ n)),
      (2, Instr.srai, fun a n => BitVec.ofInt 64 (a.toInt / 2 ^ n))] : List (Nat × (Op.ShiftImm → Instr) × (Word → Nat → Word))) →
    ∀ (g : Fin 8) (rd ra : Fin 32) (n : Fin 64) (s : State),
      let o : Op.ShiftImm := { g := g, rd := rd, ra := ra, amount := n }
      decode .c (0x06 * 2 ^ 26 + g.val * 2 ^ 23 + rd.val * 2 ^ 18 + ra.val * 2 ^ 13 + fn * 2 ^ 11 + n.val) = .ok (mk o) ∧
      (s.ctx.getP g = true → mayLand s.ctx rd → exec (mk o) s = .next (landsIn s 1 (.x rd) ((v (s.ctx.getX ra) n.val).setWidth 256)))) ∧
  (∀ (g : Fin 8) (rd : Fin 32) (imm : BitVec 18) (s : State),
    let o : Op.Upper := { g := g, rd := rd, imm := imm }
    let w := g.val * 2 ^ 23 + rd.val * 2 ^ 18 + imm.toNat
    decode .c (0x07 * 2 ^ 26 + w) = .ok (.lui o) ∧ decode .c (0x08 * 2 ^ 26 + w) = .ok (.addpc o) ∧
    (s.ctx.getP g = true → mayLand s.ctx rd →
      exec (.lui o) s = .next (landsIn s 1 (.x rd) ((BitVec.ofInt 64 (imm.toInt * 2 ^ 14)).setWidth 256)) ∧
      exec (.addpc o) s = .next (landsIn s 1 (.x rd) ((s.ctx.cs.pc + BitVec.ofInt 64 (imm.toInt * 4)).setWidth 256)))) ∧
  decode .c 0x1C1448D1 = .ok (.lui { g := 0, rd := 5, imm := 0x48D1#18 }) ∧
  decode .c 0x0814AFFF = .ok (.addi { g := 0, rd := 5, ra := 5, imm := 4095#13 }) ∧
  decode .c 0x0814A679 = .ok (.addi { g := 0, rd := 5, ra := 5, imm := 0x679#13 }) ∧
  (∀ s : State, mayLand s.ctx 5 →
    exec (.lui { g := 0, rd := 5, imm := 0x48D1#18 }) s = .next (landsIn s 1 (.x 5) 0x12344000) ∧
    (s.ctx.getX 5 = 0x12344000 → exec (.addi { g := 0, rd := 5, ra := 5, imm := 4095#13 }) s = .next (landsIn s 1 (.x 5) 0x12344FFF)) ∧
    (s.ctx.getX 5 = 0x12344FFF → exec (.addi { g := 0, rd := 5, ra := 5, imm := 0x679#13 }) s = .next (landsIn s 1 (.x 5) 0x12345678))) ∧
  (∀ (cc : Nat) (mk : Op.CmpImm → Instr) (holds : Word → BitVec 13 → Bool),
    (cc, mk, holds) ∈ ([(0, Instr.cmpiEq, fun a v => decide (a.toInt = v.toInt)), (1, Instr.cmpiNe, fun a v => decide (a.toInt ≠ v.toInt)),
      (2, Instr.cmpiLt, fun a v => decide (a.toInt < v.toInt)), (3, Instr.cmpiLtu, fun a v => decide (a.toNat < (BitVec.ofInt 64 v.toInt).toNat))] :
      List (Nat × (Op.CmpImm → Instr) × (Word → BitVec 13 → Bool))) →
    ∀ (g pd : Fin 8) (ra : Fin 32) (imm : BitVec 13) (s : State),
      let o : Op.CmpImm := { g := g, pd := pd, ra := ra, imm := imm }
      decode .c (0x0A * 2 ^ 26 + g.val * 2 ^ 23 + cc * 2 ^ 21 + pd.val * 2 ^ 18 + ra.val * 2 ^ 13 + imm.toNat) = .ok (mk o) ∧
      (s.ctx.getP g = true → s.ctx.landingFull = false →
        exec (mk o) s = .next (landsIn s 1 (.p pd) (if holds (s.ctx.getX ra) imm then 1 else 0)))) ∧
  decode .c 0x2868C064 = .ok (.cmpiLtu { g := 0, pd := 2, ra := 6, imm := 100#13 }) ∧
  (∀ s : State, s.ctx.landingFull = false → exec (.cmpiLtu { g := 0, pd := 1, ra := 2, imm := -1 }) s =
    .next (landsIn s 1 (.p 1) (if s.ctx.getX 2 = BitVec.allOnes 64 then 0 else 1)))

/-- R213: guest time from device time, or from resident time when TMODE.SRC is 1. -/
def Obligations.GuestTimeFollowsItsFormula : Prop :=
  ∀ s : State,
    let source := if s.part.tmode then s.resident.toNat else s.dtW.toNat
    s.guest.toNat = (s.part.tofs.toNat + source * s.part.tscale.toNat / 2 ^ 32) % 2 ^ 64
end

