-- ==== Sys2Proof/Laws/State.lean ====
section
/-! SUPPORT. What each update of a record leaves of each field: one lemma per field and update. -/

namespace Sys2Proof.Machine

/-! ### The focused context changed -/

@[simp] theorem State.onCtx_cycle (s : State) (f : Context → Context) : (s.onCtx f).cycle = s.cycle := rfl
@[simp] theorem State.onCtx_dtBase (s : State) (f : Context → Context) : (s.onCtx f).dtBase = s.dtBase := rfl
@[simp] theorem State.onCtx_agenda (s : State) (f : Context → Context) : (s.onCtx f).agenda = s.agenda := rfl
@[simp] theorem State.onCtx_todo (s : State) (f : Context → Context) : (s.onCtx f).todo = s.todo := rfl
@[simp] theorem State.onCtx_serial (s : State) (f : Context → Context) : (s.onCtx f).serial = s.serial := rfl
@[simp] theorem State.onCtx_delays (s : State) (f : Context → Context) : (s.onCtx f).delays = s.delays := rfl
@[simp] theorem State.onCtx_hostErrors (s : State) (f : Context → Context) : (s.onCtx f).hostErrors = s.hostErrors := rfl
@[simp] theorem State.onCtx_raises (s : State) (f : Context → Context) : (s.onCtx f).raises = s.raises := rfl
@[simp] theorem State.onCtx_mismatches (s : State) (f : Context → Context) : (s.onCtx f).mismatches = s.mismatches := rfl
@[simp] theorem State.onCtx_mcReads (s : State) (f : Context → Context) : (s.onCtx f).mcReads = s.mcReads := rfl
@[simp] theorem State.onCtx_net (s : State) (f : Context → Context) : (s.onCtx f).net = s.net := rfl
@[simp] theorem State.onCtx_netNext (s : State) (f : Context → Context) : (s.onCtx f).netNext = s.netNext := rfl
@[simp] theorem State.onCtx_power (s : State) (f : Context → Context) : (s.onCtx f).power = s.power := rfl
@[simp] theorem State.onCtx_mem (s : State) (f : Context → Context) : (s.onCtx f).mem = s.mem := rfl
@[simp] theorem State.onCtx_badWords (s : State) (f : Context → Context) : (s.onCtx f).badWords = s.badWords := rfl
@[simp] theorem State.onCtx_flips (s : State) (f : Context → Context) : (s.onCtx f).flips = s.flips := rfl
@[simp] theorem State.onCtx_drowsy (s : State) (f : Context → Context) : (s.onCtx f).drowsy = s.drowsy := rfl
@[simp] theorem State.onCtx_site (s : State) (f : Context → Context) : (s.onCtx f).site = s.site := rfl
@[simp] theorem State.onCtx_cx (s : State) (f : Context → Context) : (s.onCtx f).cx = s.cx := rfl
@[simp] theorem State.onCtx_ctx (s : State) (f : Context → Context) : (s.onCtx f).ctx = f s.ctx := rfl
@[simp] theorem State.onCtx_octx (s : State) (f : Context → Context) : (s.onCtx f).octx = s.octx := rfl
@[simp] theorem State.onCtx_core (s : State) (f : Context → Context) : (s.onCtx f).core = s.core := rfl
@[simp] theorem State.onCtx_cores (s : State) (f : Context → Context) : (s.onCtx f).cores = s.cores := rfl
@[simp] theorem State.onCtx_pid (s : State) (f : Context → Context) : (s.onCtx f).pid = s.pid := rfl
@[simp] theorem State.onCtx_part (s : State) (f : Context → Context) : (s.onCtx f).part = s.part := rfl
@[simp] theorem State.onCtx_parts (s : State) (f : Context → Context) : (s.onCtx f).parts = s.parts := rfl
@[simp] theorem State.onCtx_walkCaches (s : State) (f : Context → Context) : (s.onCtx f).walkCaches = s.walkCaches := rfl
@[simp] theorem State.onCtx_hbm (s : State) (f : Context → Context) : (s.onCtx f).hbm = s.hbm := rfl
@[simp] theorem State.onCtx_columns (s : State) (f : Context → Context) : (s.onCtx f).columns = s.columns := rfl
@[simp] theorem State.onCtx_dies (s : State) (f : Context → Context) : (s.onCtx f).dies = s.dies := rfl
@[simp] theorem State.onCtx_drawceil (s : State) (f : Context → Context) : (s.onCtx f).drawceil = s.drawceil := rfl
@[simp] theorem State.onCtx_ceilErr (s : State) (f : Context → Context) : (s.onCtx f).ceilErr = s.ceilErr := rfl
@[simp] theorem State.onCtx_tlimit (s : State) (f : Context → Context) : (s.onCtx f).tlimit = s.tlimit := rfl
@[simp] theorem State.onCtx_peers (s : State) (f : Context → Context) : (s.onCtx f).peers = s.peers := rfl
@[simp] theorem State.onCtx_myInc (s : State) (f : Context → Context) : (s.onCtx f).myInc = s.myInc := rfl
@[simp] theorem State.onCtx_chip (s : State) (f : Context → Context) : (s.onCtx f).chip = s.chip := rfl
@[simp] theorem State.onCtx_clock (s : State) (f : Context → Context) : (s.onCtx f).clock = s.clock := rfl
@[simp] theorem State.onCtx_radius (s : State) (f : Context → Context) : (s.onCtx f).radius = s.radius := rfl
@[simp] theorem State.onCtx_smask (s : State) (f : Context → Context) : (s.onCtx f).smask = s.smask := rfl
@[simp] theorem State.onCtx_ports (s : State) (f : Context → Context) : (s.onCtx f).ports = s.ports := rfl
@[simp] theorem State.onCtx_sources (s : State) (f : Context → Context) : (s.onCtx f).sources = s.sources := rfl
@[simp] theorem State.onCtx_announced (s : State) (f : Context → Context) : (s.onCtx f).announced = s.announced := rfl
@[simp] theorem State.onCtx_mesh (s : State) (f : Context → Context) : (s.onCtx f).mesh = s.mesh := rfl
@[simp] theorem State.onCtx_boot (s : State) (f : Context → Context) : (s.onCtx f).boot = s.boot := rfl
@[simp] theorem State.onCtx_store (s : State) (f : Context → Context) : (s.onCtx f).store = s.store := rfl
@[simp] theorem State.onCtx_guards (s : State) (f : Context → Context) : (s.onCtx f).guards = s.guards := rfl
@[simp] theorem State.onCtx_svcCopies (s : State) (f : Context → Context) : (s.onCtx f).svcCopies = s.svcCopies := rfl
@[simp] theorem State.onCtx_measure (s : State) (f : Context → Context) : (s.onCtx f).measure = s.measure := rfl
@[simp] theorem State.onCtx_imageVersion (s : State) (f : Context → Context) : (s.onCtx f).imageVersion = s.imageVersion := rfl
@[simp] theorem State.onCtx_signing (s : State) (f : Context → Context) : (s.onCtx f).signing = s.signing := rfl
@[simp] theorem State.onCtx_eastKey (s : State) (f : Context → Context) : (s.onCtx f).eastKey = s.eastKey := rfl
@[simp] theorem State.onCtx_memctl (s : State) (f : Context → Context) : (s.onCtx f).memctl = s.memctl := rfl
@[simp] theorem State.onCtx_mtrbase (s : State) (f : Context → Context) : (s.onCtx f).mtrbase = s.mtrbase := rfl
@[simp] theorem State.onCtx_dbg (s : State) (f : Context → Context) : (s.onCtx f).dbg = s.dbg := rfl
@[simp] theorem State.onCtx_pauses (s : State) (f : Context → Context) : (s.onCtx f).pauses = s.pauses := rfl
@[simp] theorem State.onCtx_repairs (s : State) (f : Context → Context) : (s.onCtx f).repairs = s.repairs := rfl
@[simp] theorem State.onCtx_repairing (s : State) (f : Context → Context) : (s.onCtx f).repairing = s.repairing := rfl
@[simp] theorem State.onCtx_stagedRows (s : State) (f : Context → Context) : (s.onCtx f).stagedRows = s.stagedRows := rfl
@[simp] theorem State.onCtx_corrections (s : State) (f : Context → Context) : (s.onCtx f).corrections = s.corrections := rfl
@[simp] theorem State.onCtx_retiredChans (s : State) (f : Context → Context) : (s.onCtx f).retiredChans = s.retiredChans := rfl
@[simp] theorem State.onCtx_retiredBanks (s : State) (f : Context → Context) : (s.onCtx f).retiredBanks = s.retiredBanks := rfl
@[simp] theorem State.onCtx_taken (s : State) (f : Context → Context) : (s.onCtx f).taken = s.taken := rfl
@[simp] theorem State.onCtx_sparedRows (s : State) (f : Context → Context) : (s.onCtx f).sparedRows = s.sparedRows := rfl
@[simp] theorem State.onCtx_serviceCores (s : State) (f : Context → Context) : (s.onCtx f).serviceCores = s.serviceCores := rfl
@[simp] theorem State.onCtx_imageB (s : State) (f : Context → Context) : (s.onCtx f).imageB = s.imageB := rfl
@[simp] theorem State.onCtx_colls (s : State) (f : Context → Context) : (s.onCtx f).colls = s.colls := rfl
@[simp] theorem State.onCtx_notices (s : State) (f : Context → Context) : (s.onCtx f).notices = s.notices := rfl
@[simp] theorem State.onCtx_gated (s : State) (f : Context → Context) : (s.onCtx f).gated = s.gated := rfl
@[simp] theorem State.onCtx_peerCycles (s : State) (f : Context → Context) : (s.onCtx f).peerCycles = s.peerCycles := rfl
@[simp] theorem State.onCtx_peerRefuses (s : State) (f : Context → Context) : (s.onCtx f).peerRefuses = s.peerRefuses := rfl
@[simp] theorem State.onCtx_shadows (s : State) (f : Context → Context) : (s.onCtx f).shadows = s.shadows := rfl
@[simp] theorem State.onCtx_peerJobs (s : State) (f : Context → Context) : (s.onCtx f).peerJobs = s.peerJobs := rfl

/-! ### The focused core changed -/

@[simp] theorem State.onCore_cycle (s : State) (f : Core → Core) : (s.onCore f).cycle = s.cycle := rfl
@[simp] theorem State.onCore_dtBase (s : State) (f : Core → Core) : (s.onCore f).dtBase = s.dtBase := rfl
@[simp] theorem State.onCore_agenda (s : State) (f : Core → Core) : (s.onCore f).agenda = s.agenda := rfl
@[simp] theorem State.onCore_todo (s : State) (f : Core → Core) : (s.onCore f).todo = s.todo := rfl
@[simp] theorem State.onCore_serial (s : State) (f : Core → Core) : (s.onCore f).serial = s.serial := rfl
@[simp] theorem State.onCore_delays (s : State) (f : Core → Core) : (s.onCore f).delays = s.delays := rfl
@[simp] theorem State.onCore_hostErrors (s : State) (f : Core → Core) : (s.onCore f).hostErrors = s.hostErrors := rfl
@[simp] theorem State.onCore_raises (s : State) (f : Core → Core) : (s.onCore f).raises = s.raises := rfl
@[simp] theorem State.onCore_mismatches (s : State) (f : Core → Core) : (s.onCore f).mismatches = s.mismatches := rfl
@[simp] theorem State.onCore_mcReads (s : State) (f : Core → Core) : (s.onCore f).mcReads = s.mcReads := rfl
@[simp] theorem State.onCore_net (s : State) (f : Core → Core) : (s.onCore f).net = s.net := rfl
@[simp] theorem State.onCore_netNext (s : State) (f : Core → Core) : (s.onCore f).netNext = s.netNext := rfl
@[simp] theorem State.onCore_power (s : State) (f : Core → Core) : (s.onCore f).power = s.power := rfl
@[simp] theorem State.onCore_mem (s : State) (f : Core → Core) : (s.onCore f).mem = s.mem := rfl
@[simp] theorem State.onCore_badWords (s : State) (f : Core → Core) : (s.onCore f).badWords = s.badWords := rfl
@[simp] theorem State.onCore_flips (s : State) (f : Core → Core) : (s.onCore f).flips = s.flips := rfl
@[simp] theorem State.onCore_drowsy (s : State) (f : Core → Core) : (s.onCore f).drowsy = s.drowsy := rfl
@[simp] theorem State.onCore_site (s : State) (f : Core → Core) : (s.onCore f).site = s.site := rfl
@[simp] theorem State.onCore_cx (s : State) (f : Core → Core) : (s.onCore f).cx = s.cx := rfl
@[simp] theorem State.onCore_ctx (s : State) (f : Core → Core) : (s.onCore f).ctx = s.ctx := rfl
@[simp] theorem State.onCore_octx (s : State) (f : Core → Core) : (s.onCore f).octx = s.octx := rfl
@[simp] theorem State.onCore_core (s : State) (f : Core → Core) : (s.onCore f).core = f s.core := rfl
@[simp] theorem State.onCore_cores (s : State) (f : Core → Core) : (s.onCore f).cores = s.cores := rfl
@[simp] theorem State.onCore_pid (s : State) (f : Core → Core) : (s.onCore f).pid = s.pid := rfl
@[simp] theorem State.onCore_part (s : State) (f : Core → Core) : (s.onCore f).part = s.part := rfl
@[simp] theorem State.onCore_parts (s : State) (f : Core → Core) : (s.onCore f).parts = s.parts := rfl
@[simp] theorem State.onCore_walkCaches (s : State) (f : Core → Core) : (s.onCore f).walkCaches = s.walkCaches := rfl
@[simp] theorem State.onCore_hbm (s : State) (f : Core → Core) : (s.onCore f).hbm = s.hbm := rfl
@[simp] theorem State.onCore_columns (s : State) (f : Core → Core) : (s.onCore f).columns = s.columns := rfl
@[simp] theorem State.onCore_dies (s : State) (f : Core → Core) : (s.onCore f).dies = s.dies := rfl
@[simp] theorem State.onCore_drawceil (s : State) (f : Core → Core) : (s.onCore f).drawceil = s.drawceil := rfl
@[simp] theorem State.onCore_ceilErr (s : State) (f : Core → Core) : (s.onCore f).ceilErr = s.ceilErr := rfl
@[simp] theorem State.onCore_tlimit (s : State) (f : Core → Core) : (s.onCore f).tlimit = s.tlimit := rfl
@[simp] theorem State.onCore_peers (s : State) (f : Core → Core) : (s.onCore f).peers = s.peers := rfl
@[simp] theorem State.onCore_myInc (s : State) (f : Core → Core) : (s.onCore f).myInc = s.myInc := rfl
@[simp] theorem State.onCore_chip (s : State) (f : Core → Core) : (s.onCore f).chip = s.chip := rfl
@[simp] theorem State.onCore_clock (s : State) (f : Core → Core) : (s.onCore f).clock = s.clock := rfl
@[simp] theorem State.onCore_radius (s : State) (f : Core → Core) : (s.onCore f).radius = s.radius := rfl
@[simp] theorem State.onCore_smask (s : State) (f : Core → Core) : (s.onCore f).smask = s.smask := rfl
@[simp] theorem State.onCore_ports (s : State) (f : Core → Core) : (s.onCore f).ports = s.ports := rfl
@[simp] theorem State.onCore_sources (s : State) (f : Core → Core) : (s.onCore f).sources = s.sources := rfl
@[simp] theorem State.onCore_announced (s : State) (f : Core → Core) : (s.onCore f).announced = s.announced := rfl
@[simp] theorem State.onCore_mesh (s : State) (f : Core → Core) : (s.onCore f).mesh = s.mesh := rfl
@[simp] theorem State.onCore_boot (s : State) (f : Core → Core) : (s.onCore f).boot = s.boot := rfl
@[simp] theorem State.onCore_store (s : State) (f : Core → Core) : (s.onCore f).store = s.store := rfl
@[simp] theorem State.onCore_guards (s : State) (f : Core → Core) : (s.onCore f).guards = s.guards := rfl
@[simp] theorem State.onCore_svcCopies (s : State) (f : Core → Core) : (s.onCore f).svcCopies = s.svcCopies := rfl
@[simp] theorem State.onCore_measure (s : State) (f : Core → Core) : (s.onCore f).measure = s.measure := rfl
@[simp] theorem State.onCore_imageVersion (s : State) (f : Core → Core) : (s.onCore f).imageVersion = s.imageVersion := rfl
@[simp] theorem State.onCore_signing (s : State) (f : Core → Core) : (s.onCore f).signing = s.signing := rfl
@[simp] theorem State.onCore_eastKey (s : State) (f : Core → Core) : (s.onCore f).eastKey = s.eastKey := rfl
@[simp] theorem State.onCore_memctl (s : State) (f : Core → Core) : (s.onCore f).memctl = s.memctl := rfl
@[simp] theorem State.onCore_mtrbase (s : State) (f : Core → Core) : (s.onCore f).mtrbase = s.mtrbase := rfl
@[simp] theorem State.onCore_dbg (s : State) (f : Core → Core) : (s.onCore f).dbg = s.dbg := rfl
@[simp] theorem State.onCore_pauses (s : State) (f : Core → Core) : (s.onCore f).pauses = s.pauses := rfl
@[simp] theorem State.onCore_repairs (s : State) (f : Core → Core) : (s.onCore f).repairs = s.repairs := rfl
@[simp] theorem State.onCore_repairing (s : State) (f : Core → Core) : (s.onCore f).repairing = s.repairing := rfl
@[simp] theorem State.onCore_stagedRows (s : State) (f : Core → Core) : (s.onCore f).stagedRows = s.stagedRows := rfl
@[simp] theorem State.onCore_corrections (s : State) (f : Core → Core) : (s.onCore f).corrections = s.corrections := rfl
@[simp] theorem State.onCore_retiredChans (s : State) (f : Core → Core) : (s.onCore f).retiredChans = s.retiredChans := rfl
@[simp] theorem State.onCore_retiredBanks (s : State) (f : Core → Core) : (s.onCore f).retiredBanks = s.retiredBanks := rfl
@[simp] theorem State.onCore_taken (s : State) (f : Core → Core) : (s.onCore f).taken = s.taken := rfl
@[simp] theorem State.onCore_sparedRows (s : State) (f : Core → Core) : (s.onCore f).sparedRows = s.sparedRows := rfl
@[simp] theorem State.onCore_serviceCores (s : State) (f : Core → Core) : (s.onCore f).serviceCores = s.serviceCores := rfl
@[simp] theorem State.onCore_imageB (s : State) (f : Core → Core) : (s.onCore f).imageB = s.imageB := rfl
@[simp] theorem State.onCore_colls (s : State) (f : Core → Core) : (s.onCore f).colls = s.colls := rfl
@[simp] theorem State.onCore_notices (s : State) (f : Core → Core) : (s.onCore f).notices = s.notices := rfl
@[simp] theorem State.onCore_gated (s : State) (f : Core → Core) : (s.onCore f).gated = s.gated := rfl
@[simp] theorem State.onCore_peerCycles (s : State) (f : Core → Core) : (s.onCore f).peerCycles = s.peerCycles := rfl
@[simp] theorem State.onCore_peerRefuses (s : State) (f : Core → Core) : (s.onCore f).peerRefuses = s.peerRefuses := rfl
@[simp] theorem State.onCore_shadows (s : State) (f : Core → Core) : (s.onCore f).shadows = s.shadows := rfl
@[simp] theorem State.onCore_peerJobs (s : State) (f : Core → Core) : (s.onCore f).peerJobs = s.peerJobs := rfl

/-! ### The focused partition changed -/

@[simp] theorem State.onPart_cycle (s : State) (f : Part → Part) : (s.onPart f).cycle = s.cycle := rfl
@[simp] theorem State.onPart_dtBase (s : State) (f : Part → Part) : (s.onPart f).dtBase = s.dtBase := rfl
@[simp] theorem State.onPart_agenda (s : State) (f : Part → Part) : (s.onPart f).agenda = s.agenda := rfl
@[simp] theorem State.onPart_todo (s : State) (f : Part → Part) : (s.onPart f).todo = s.todo := rfl
@[simp] theorem State.onPart_serial (s : State) (f : Part → Part) : (s.onPart f).serial = s.serial := rfl
@[simp] theorem State.onPart_delays (s : State) (f : Part → Part) : (s.onPart f).delays = s.delays := rfl
@[simp] theorem State.onPart_hostErrors (s : State) (f : Part → Part) : (s.onPart f).hostErrors = s.hostErrors := rfl
@[simp] theorem State.onPart_raises (s : State) (f : Part → Part) : (s.onPart f).raises = s.raises := rfl
@[simp] theorem State.onPart_mismatches (s : State) (f : Part → Part) : (s.onPart f).mismatches = s.mismatches := rfl
@[simp] theorem State.onPart_mcReads (s : State) (f : Part → Part) : (s.onPart f).mcReads = s.mcReads := rfl
@[simp] theorem State.onPart_net (s : State) (f : Part → Part) : (s.onPart f).net = s.net := rfl
@[simp] theorem State.onPart_netNext (s : State) (f : Part → Part) : (s.onPart f).netNext = s.netNext := rfl
@[simp] theorem State.onPart_power (s : State) (f : Part → Part) : (s.onPart f).power = s.power := rfl
@[simp] theorem State.onPart_mem (s : State) (f : Part → Part) : (s.onPart f).mem = s.mem := rfl
@[simp] theorem State.onPart_badWords (s : State) (f : Part → Part) : (s.onPart f).badWords = s.badWords := rfl
@[simp] theorem State.onPart_flips (s : State) (f : Part → Part) : (s.onPart f).flips = s.flips := rfl
@[simp] theorem State.onPart_drowsy (s : State) (f : Part → Part) : (s.onPart f).drowsy = s.drowsy := rfl
@[simp] theorem State.onPart_site (s : State) (f : Part → Part) : (s.onPart f).site = s.site := rfl
@[simp] theorem State.onPart_cx (s : State) (f : Part → Part) : (s.onPart f).cx = s.cx := rfl
@[simp] theorem State.onPart_ctx (s : State) (f : Part → Part) : (s.onPart f).ctx = s.ctx := rfl
@[simp] theorem State.onPart_octx (s : State) (f : Part → Part) : (s.onPart f).octx = s.octx := rfl
@[simp] theorem State.onPart_core (s : State) (f : Part → Part) : (s.onPart f).core = s.core := rfl
@[simp] theorem State.onPart_cores (s : State) (f : Part → Part) : (s.onPart f).cores = s.cores := rfl
@[simp] theorem State.onPart_pid (s : State) (f : Part → Part) : (s.onPart f).pid = s.pid := rfl
@[simp] theorem State.onPart_part (s : State) (f : Part → Part) : (s.onPart f).part = f s.part := rfl
@[simp] theorem State.onPart_parts (s : State) (f : Part → Part) : (s.onPart f).parts = s.parts := rfl
@[simp] theorem State.onPart_walkCaches (s : State) (f : Part → Part) : (s.onPart f).walkCaches = s.walkCaches := rfl
@[simp] theorem State.onPart_hbm (s : State) (f : Part → Part) : (s.onPart f).hbm = s.hbm := rfl
@[simp] theorem State.onPart_columns (s : State) (f : Part → Part) : (s.onPart f).columns = s.columns := rfl
@[simp] theorem State.onPart_dies (s : State) (f : Part → Part) : (s.onPart f).dies = s.dies := rfl
@[simp] theorem State.onPart_drawceil (s : State) (f : Part → Part) : (s.onPart f).drawceil = s.drawceil := rfl
@[simp] theorem State.onPart_ceilErr (s : State) (f : Part → Part) : (s.onPart f).ceilErr = s.ceilErr := rfl
@[simp] theorem State.onPart_tlimit (s : State) (f : Part → Part) : (s.onPart f).tlimit = s.tlimit := rfl
@[simp] theorem State.onPart_peers (s : State) (f : Part → Part) : (s.onPart f).peers = s.peers := rfl
@[simp] theorem State.onPart_myInc (s : State) (f : Part → Part) : (s.onPart f).myInc = s.myInc := rfl
@[simp] theorem State.onPart_chip (s : State) (f : Part → Part) : (s.onPart f).chip = s.chip := rfl
@[simp] theorem State.onPart_clock (s : State) (f : Part → Part) : (s.onPart f).clock = s.clock := rfl
@[simp] theorem State.onPart_radius (s : State) (f : Part → Part) : (s.onPart f).radius = s.radius := rfl
@[simp] theorem State.onPart_smask (s : State) (f : Part → Part) : (s.onPart f).smask = s.smask := rfl
@[simp] theorem State.onPart_ports (s : State) (f : Part → Part) : (s.onPart f).ports = s.ports := rfl
@[simp] theorem State.onPart_sources (s : State) (f : Part → Part) : (s.onPart f).sources = s.sources := rfl
@[simp] theorem State.onPart_announced (s : State) (f : Part → Part) : (s.onPart f).announced = s.announced := rfl
@[simp] theorem State.onPart_mesh (s : State) (f : Part → Part) : (s.onPart f).mesh = s.mesh := rfl
@[simp] theorem State.onPart_boot (s : State) (f : Part → Part) : (s.onPart f).boot = s.boot := rfl
@[simp] theorem State.onPart_store (s : State) (f : Part → Part) : (s.onPart f).store = s.store := rfl
@[simp] theorem State.onPart_guards (s : State) (f : Part → Part) : (s.onPart f).guards = s.guards := rfl
@[simp] theorem State.onPart_svcCopies (s : State) (f : Part → Part) : (s.onPart f).svcCopies = s.svcCopies := rfl
@[simp] theorem State.onPart_measure (s : State) (f : Part → Part) : (s.onPart f).measure = s.measure := rfl
@[simp] theorem State.onPart_imageVersion (s : State) (f : Part → Part) : (s.onPart f).imageVersion = s.imageVersion := rfl
@[simp] theorem State.onPart_signing (s : State) (f : Part → Part) : (s.onPart f).signing = s.signing := rfl
@[simp] theorem State.onPart_eastKey (s : State) (f : Part → Part) : (s.onPart f).eastKey = s.eastKey := rfl
@[simp] theorem State.onPart_memctl (s : State) (f : Part → Part) : (s.onPart f).memctl = s.memctl := rfl
@[simp] theorem State.onPart_mtrbase (s : State) (f : Part → Part) : (s.onPart f).mtrbase = s.mtrbase := rfl
@[simp] theorem State.onPart_dbg (s : State) (f : Part → Part) : (s.onPart f).dbg = s.dbg := rfl
@[simp] theorem State.onPart_pauses (s : State) (f : Part → Part) : (s.onPart f).pauses = s.pauses := rfl
@[simp] theorem State.onPart_repairs (s : State) (f : Part → Part) : (s.onPart f).repairs = s.repairs := rfl
@[simp] theorem State.onPart_repairing (s : State) (f : Part → Part) : (s.onPart f).repairing = s.repairing := rfl
@[simp] theorem State.onPart_stagedRows (s : State) (f : Part → Part) : (s.onPart f).stagedRows = s.stagedRows := rfl
@[simp] theorem State.onPart_corrections (s : State) (f : Part → Part) : (s.onPart f).corrections = s.corrections := rfl
@[simp] theorem State.onPart_retiredChans (s : State) (f : Part → Part) : (s.onPart f).retiredChans = s.retiredChans := rfl
@[simp] theorem State.onPart_retiredBanks (s : State) (f : Part → Part) : (s.onPart f).retiredBanks = s.retiredBanks := rfl
@[simp] theorem State.onPart_taken (s : State) (f : Part → Part) : (s.onPart f).taken = s.taken := rfl
@[simp] theorem State.onPart_sparedRows (s : State) (f : Part → Part) : (s.onPart f).sparedRows = s.sparedRows := rfl
@[simp] theorem State.onPart_serviceCores (s : State) (f : Part → Part) : (s.onPart f).serviceCores = s.serviceCores := rfl
@[simp] theorem State.onPart_imageB (s : State) (f : Part → Part) : (s.onPart f).imageB = s.imageB := rfl
@[simp] theorem State.onPart_colls (s : State) (f : Part → Part) : (s.onPart f).colls = s.colls := rfl
@[simp] theorem State.onPart_notices (s : State) (f : Part → Part) : (s.onPart f).notices = s.notices := rfl
@[simp] theorem State.onPart_gated (s : State) (f : Part → Part) : (s.onPart f).gated = s.gated := rfl
@[simp] theorem State.onPart_peerCycles (s : State) (f : Part → Part) : (s.onPart f).peerCycles = s.peerCycles := rfl
@[simp] theorem State.onPart_peerRefuses (s : State) (f : Part → Part) : (s.onPart f).peerRefuses = s.peerRefuses := rfl
@[simp] theorem State.onPart_shadows (s : State) (f : Part → Part) : (s.onPart f).shadows = s.shadows := rfl
@[simp] theorem State.onPart_peerJobs (s : State) (f : Part → Part) : (s.onPart f).peerJobs = s.peerJobs := rfl

/-! ### A notice given -/

@[simp] theorem State.notify_cycle (s : State) (n : Notice) : (s.notify n).cycle = s.cycle := rfl
@[simp] theorem State.notify_dtBase (s : State) (n : Notice) : (s.notify n).dtBase = s.dtBase := rfl
@[simp] theorem State.notify_agenda (s : State) (n : Notice) : (s.notify n).agenda = s.agenda := rfl
@[simp] theorem State.notify_todo (s : State) (n : Notice) : (s.notify n).todo = s.todo := rfl
@[simp] theorem State.notify_serial (s : State) (n : Notice) : (s.notify n).serial = s.serial := rfl
@[simp] theorem State.notify_delays (s : State) (n : Notice) : (s.notify n).delays = s.delays := rfl
@[simp] theorem State.notify_hostErrors (s : State) (n : Notice) : (s.notify n).hostErrors = s.hostErrors := rfl
@[simp] theorem State.notify_raises (s : State) (n : Notice) : (s.notify n).raises = s.raises := rfl
@[simp] theorem State.notify_mismatches (s : State) (n : Notice) : (s.notify n).mismatches = s.mismatches := rfl
@[simp] theorem State.notify_mcReads (s : State) (n : Notice) : (s.notify n).mcReads = s.mcReads := rfl
@[simp] theorem State.notify_net (s : State) (n : Notice) : (s.notify n).net = s.net := rfl
@[simp] theorem State.notify_netNext (s : State) (n : Notice) : (s.notify n).netNext = s.netNext := rfl
@[simp] theorem State.notify_power (s : State) (n : Notice) : (s.notify n).power = s.power := rfl
@[simp] theorem State.notify_mem (s : State) (n : Notice) : (s.notify n).mem = s.mem := rfl
@[simp] theorem State.notify_badWords (s : State) (n : Notice) : (s.notify n).badWords = s.badWords := rfl
@[simp] theorem State.notify_flips (s : State) (n : Notice) : (s.notify n).flips = s.flips := rfl
@[simp] theorem State.notify_drowsy (s : State) (n : Notice) : (s.notify n).drowsy = s.drowsy := rfl
@[simp] theorem State.notify_site (s : State) (n : Notice) : (s.notify n).site = s.site := rfl
@[simp] theorem State.notify_cx (s : State) (n : Notice) : (s.notify n).cx = s.cx := rfl
@[simp] theorem State.notify_ctx (s : State) (n : Notice) : (s.notify n).ctx = s.ctx := rfl
@[simp] theorem State.notify_octx (s : State) (n : Notice) : (s.notify n).octx = s.octx := rfl
@[simp] theorem State.notify_core (s : State) (n : Notice) : (s.notify n).core = s.core := rfl
@[simp] theorem State.notify_cores (s : State) (n : Notice) : (s.notify n).cores = s.cores := rfl
@[simp] theorem State.notify_pid (s : State) (n : Notice) : (s.notify n).pid = s.pid := rfl
@[simp] theorem State.notify_part (s : State) (n : Notice) : (s.notify n).part = s.part := rfl
@[simp] theorem State.notify_parts (s : State) (n : Notice) : (s.notify n).parts = s.parts := rfl
@[simp] theorem State.notify_walkCaches (s : State) (n : Notice) : (s.notify n).walkCaches = s.walkCaches := rfl
@[simp] theorem State.notify_hbm (s : State) (n : Notice) : (s.notify n).hbm = s.hbm := rfl
@[simp] theorem State.notify_columns (s : State) (n : Notice) : (s.notify n).columns = s.columns := rfl
@[simp] theorem State.notify_dies (s : State) (n : Notice) : (s.notify n).dies = s.dies := rfl
@[simp] theorem State.notify_drawceil (s : State) (n : Notice) : (s.notify n).drawceil = s.drawceil := rfl
@[simp] theorem State.notify_ceilErr (s : State) (n : Notice) : (s.notify n).ceilErr = s.ceilErr := rfl
@[simp] theorem State.notify_tlimit (s : State) (n : Notice) : (s.notify n).tlimit = s.tlimit := rfl
@[simp] theorem State.notify_peers (s : State) (n : Notice) : (s.notify n).peers = s.peers := rfl
@[simp] theorem State.notify_myInc (s : State) (n : Notice) : (s.notify n).myInc = s.myInc := rfl
@[simp] theorem State.notify_chip (s : State) (n : Notice) : (s.notify n).chip = s.chip := rfl
@[simp] theorem State.notify_clock (s : State) (n : Notice) : (s.notify n).clock = s.clock := rfl
@[simp] theorem State.notify_radius (s : State) (n : Notice) : (s.notify n).radius = s.radius := rfl
@[simp] theorem State.notify_smask (s : State) (n : Notice) : (s.notify n).smask = s.smask := rfl
@[simp] theorem State.notify_ports (s : State) (n : Notice) : (s.notify n).ports = s.ports := rfl
@[simp] theorem State.notify_sources (s : State) (n : Notice) : (s.notify n).sources = s.sources := rfl
@[simp] theorem State.notify_announced (s : State) (n : Notice) : (s.notify n).announced = s.announced := rfl
@[simp] theorem State.notify_mesh (s : State) (n : Notice) : (s.notify n).mesh = s.mesh := rfl
@[simp] theorem State.notify_boot (s : State) (n : Notice) : (s.notify n).boot = s.boot := rfl
@[simp] theorem State.notify_store (s : State) (n : Notice) : (s.notify n).store = s.store := rfl
@[simp] theorem State.notify_guards (s : State) (n : Notice) : (s.notify n).guards = s.guards := rfl
@[simp] theorem State.notify_svcCopies (s : State) (n : Notice) : (s.notify n).svcCopies = s.svcCopies := rfl
@[simp] theorem State.notify_measure (s : State) (n : Notice) : (s.notify n).measure = s.measure := rfl
@[simp] theorem State.notify_imageVersion (s : State) (n : Notice) : (s.notify n).imageVersion = s.imageVersion := rfl
@[simp] theorem State.notify_signing (s : State) (n : Notice) : (s.notify n).signing = s.signing := rfl
@[simp] theorem State.notify_eastKey (s : State) (n : Notice) : (s.notify n).eastKey = s.eastKey := rfl
@[simp] theorem State.notify_memctl (s : State) (n : Notice) : (s.notify n).memctl = s.memctl := rfl
@[simp] theorem State.notify_mtrbase (s : State) (n : Notice) : (s.notify n).mtrbase = s.mtrbase := rfl
@[simp] theorem State.notify_dbg (s : State) (n : Notice) : (s.notify n).dbg = s.dbg := rfl
@[simp] theorem State.notify_pauses (s : State) (n : Notice) : (s.notify n).pauses = s.pauses := rfl
@[simp] theorem State.notify_repairs (s : State) (n : Notice) : (s.notify n).repairs = s.repairs := rfl
@[simp] theorem State.notify_repairing (s : State) (n : Notice) : (s.notify n).repairing = s.repairing := rfl
@[simp] theorem State.notify_stagedRows (s : State) (n : Notice) : (s.notify n).stagedRows = s.stagedRows := rfl
@[simp] theorem State.notify_corrections (s : State) (n : Notice) : (s.notify n).corrections = s.corrections := rfl
@[simp] theorem State.notify_retiredChans (s : State) (n : Notice) : (s.notify n).retiredChans = s.retiredChans := rfl
@[simp] theorem State.notify_retiredBanks (s : State) (n : Notice) : (s.notify n).retiredBanks = s.retiredBanks := rfl
@[simp] theorem State.notify_taken (s : State) (n : Notice) : (s.notify n).taken = s.taken := rfl
@[simp] theorem State.notify_sparedRows (s : State) (n : Notice) : (s.notify n).sparedRows = s.sparedRows := rfl
@[simp] theorem State.notify_serviceCores (s : State) (n : Notice) : (s.notify n).serviceCores = s.serviceCores := rfl
@[simp] theorem State.notify_imageB (s : State) (n : Notice) : (s.notify n).imageB = s.imageB := rfl
@[simp] theorem State.notify_colls (s : State) (n : Notice) : (s.notify n).colls = s.colls := rfl
@[simp] theorem State.notify_notices (s : State) (n : Notice) : (s.notify n).notices = s.notices ++ [n] := rfl
@[simp] theorem State.notify_gated (s : State) (n : Notice) : (s.notify n).gated = s.gated := rfl
@[simp] theorem State.notify_peerCycles (s : State) (n : Notice) : (s.notify n).peerCycles = s.peerCycles := rfl
@[simp] theorem State.notify_peerRefuses (s : State) (n : Notice) : (s.notify n).peerRefuses = s.peerRefuses := rfl
@[simp] theorem State.notify_shadows (s : State) (n : Notice) : (s.notify n).shadows = s.shadows := rfl
@[simp] theorem State.notify_peerJobs (s : State) (n : Notice) : (s.notify n).peerJobs = s.peerJobs := rfl

/-! ### A creation number used -/

@[simp] theorem State.bump_cycle (s : State) : (s.bump).cycle = s.cycle := rfl
@[simp] theorem State.bump_dtBase (s : State) : (s.bump).dtBase = s.dtBase := rfl
@[simp] theorem State.bump_agenda (s : State) : (s.bump).agenda = s.agenda := rfl
@[simp] theorem State.bump_todo (s : State) : (s.bump).todo = s.todo := rfl
@[simp] theorem State.bump_serial (s : State) : (s.bump).serial = s.serial + 1 := rfl
@[simp] theorem State.bump_delays (s : State) : (s.bump).delays = s.delays := rfl
@[simp] theorem State.bump_hostErrors (s : State) : (s.bump).hostErrors = s.hostErrors := rfl
@[simp] theorem State.bump_raises (s : State) : (s.bump).raises = s.raises := rfl
@[simp] theorem State.bump_mismatches (s : State) : (s.bump).mismatches = s.mismatches := rfl
@[simp] theorem State.bump_mcReads (s : State) : (s.bump).mcReads = s.mcReads := rfl
@[simp] theorem State.bump_net (s : State) : (s.bump).net = s.net := rfl
@[simp] theorem State.bump_netNext (s : State) : (s.bump).netNext = s.netNext := rfl
@[simp] theorem State.bump_power (s : State) : (s.bump).power = s.power := rfl
@[simp] theorem State.bump_mem (s : State) : (s.bump).mem = s.mem := rfl
@[simp] theorem State.bump_badWords (s : State) : (s.bump).badWords = s.badWords := rfl
@[simp] theorem State.bump_flips (s : State) : (s.bump).flips = s.flips := rfl
@[simp] theorem State.bump_drowsy (s : State) : (s.bump).drowsy = s.drowsy := rfl
@[simp] theorem State.bump_site (s : State) : (s.bump).site = s.site := rfl
@[simp] theorem State.bump_cx (s : State) : (s.bump).cx = s.cx := rfl
@[simp] theorem State.bump_ctx (s : State) : (s.bump).ctx = s.ctx := rfl
@[simp] theorem State.bump_octx (s : State) : (s.bump).octx = s.octx := rfl
@[simp] theorem State.bump_core (s : State) : (s.bump).core = s.core := rfl
@[simp] theorem State.bump_cores (s : State) : (s.bump).cores = s.cores := rfl
@[simp] theorem State.bump_pid (s : State) : (s.bump).pid = s.pid := rfl
@[simp] theorem State.bump_part (s : State) : (s.bump).part = s.part := rfl
@[simp] theorem State.bump_parts (s : State) : (s.bump).parts = s.parts := rfl
@[simp] theorem State.bump_walkCaches (s : State) : (s.bump).walkCaches = s.walkCaches := rfl
@[simp] theorem State.bump_hbm (s : State) : (s.bump).hbm = s.hbm := rfl
@[simp] theorem State.bump_columns (s : State) : (s.bump).columns = s.columns := rfl
@[simp] theorem State.bump_dies (s : State) : (s.bump).dies = s.dies := rfl
@[simp] theorem State.bump_drawceil (s : State) : (s.bump).drawceil = s.drawceil := rfl
@[simp] theorem State.bump_ceilErr (s : State) : (s.bump).ceilErr = s.ceilErr := rfl
@[simp] theorem State.bump_tlimit (s : State) : (s.bump).tlimit = s.tlimit := rfl
@[simp] theorem State.bump_peers (s : State) : (s.bump).peers = s.peers := rfl
@[simp] theorem State.bump_myInc (s : State) : (s.bump).myInc = s.myInc := rfl
@[simp] theorem State.bump_chip (s : State) : (s.bump).chip = s.chip := rfl
@[simp] theorem State.bump_clock (s : State) : (s.bump).clock = s.clock := rfl
@[simp] theorem State.bump_radius (s : State) : (s.bump).radius = s.radius := rfl
@[simp] theorem State.bump_smask (s : State) : (s.bump).smask = s.smask := rfl
@[simp] theorem State.bump_ports (s : State) : (s.bump).ports = s.ports := rfl
@[simp] theorem State.bump_sources (s : State) : (s.bump).sources = s.sources := rfl
@[simp] theorem State.bump_announced (s : State) : (s.bump).announced = s.announced := rfl
@[simp] theorem State.bump_mesh (s : State) : (s.bump).mesh = s.mesh := rfl
@[simp] theorem State.bump_boot (s : State) : (s.bump).boot = s.boot := rfl
@[simp] theorem State.bump_store (s : State) : (s.bump).store = s.store := rfl
@[simp] theorem State.bump_guards (s : State) : (s.bump).guards = s.guards := rfl
@[simp] theorem State.bump_svcCopies (s : State) : (s.bump).svcCopies = s.svcCopies := rfl
@[simp] theorem State.bump_measure (s : State) : (s.bump).measure = s.measure := rfl
@[simp] theorem State.bump_imageVersion (s : State) : (s.bump).imageVersion = s.imageVersion := rfl
@[simp] theorem State.bump_signing (s : State) : (s.bump).signing = s.signing := rfl
@[simp] theorem State.bump_eastKey (s : State) : (s.bump).eastKey = s.eastKey := rfl
@[simp] theorem State.bump_memctl (s : State) : (s.bump).memctl = s.memctl := rfl
@[simp] theorem State.bump_mtrbase (s : State) : (s.bump).mtrbase = s.mtrbase := rfl
@[simp] theorem State.bump_dbg (s : State) : (s.bump).dbg = s.dbg := rfl
@[simp] theorem State.bump_pauses (s : State) : (s.bump).pauses = s.pauses := rfl
@[simp] theorem State.bump_repairs (s : State) : (s.bump).repairs = s.repairs := rfl
@[simp] theorem State.bump_repairing (s : State) : (s.bump).repairing = s.repairing := rfl
@[simp] theorem State.bump_stagedRows (s : State) : (s.bump).stagedRows = s.stagedRows := rfl
@[simp] theorem State.bump_corrections (s : State) : (s.bump).corrections = s.corrections := rfl
@[simp] theorem State.bump_retiredChans (s : State) : (s.bump).retiredChans = s.retiredChans := rfl
@[simp] theorem State.bump_retiredBanks (s : State) : (s.bump).retiredBanks = s.retiredBanks := rfl
@[simp] theorem State.bump_taken (s : State) : (s.bump).taken = s.taken := rfl
@[simp] theorem State.bump_sparedRows (s : State) : (s.bump).sparedRows = s.sparedRows := rfl
@[simp] theorem State.bump_serviceCores (s : State) : (s.bump).serviceCores = s.serviceCores := rfl
@[simp] theorem State.bump_imageB (s : State) : (s.bump).imageB = s.imageB := rfl
@[simp] theorem State.bump_colls (s : State) : (s.bump).colls = s.colls := rfl
@[simp] theorem State.bump_notices (s : State) : (s.bump).notices = s.notices := rfl
@[simp] theorem State.bump_gated (s : State) : (s.bump).gated = s.gated := rfl
@[simp] theorem State.bump_peerCycles (s : State) : (s.bump).peerCycles = s.peerCycles := rfl
@[simp] theorem State.bump_peerRefuses (s : State) : (s.bump).peerRefuses = s.peerRefuses := rfl
@[simp] theorem State.bump_shadows (s : State) : (s.bump).shadows = s.shadows := rfl
@[simp] theorem State.bump_peerJobs (s : State) : (s.bump).peerJobs = s.peerJobs := rfl

/-! ### A stream waits -/

@[simp] theorem State.waitIn_cycle (s : State) (st : Strm) (w : WaitOn) : (s.waitIn st w).cycle = s.cycle := rfl
@[simp] theorem State.waitIn_dtBase (s : State) (st : Strm) (w : WaitOn) : (s.waitIn st w).dtBase = s.dtBase := rfl
@[simp] theorem State.waitIn_agenda (s : State) (st : Strm) (w : WaitOn) : (s.waitIn st w).agenda = s.agenda := rfl
@[simp] theorem State.waitIn_todo (s : State) (st : Strm) (w : WaitOn) : (s.waitIn st w).todo = s.todo := rfl
@[simp] theorem State.waitIn_serial (s : State) (st : Strm) (w : WaitOn) : (s.waitIn st w).serial = s.serial := rfl
@[simp] theorem State.waitIn_delays (s : State) (st : Strm) (w : WaitOn) : (s.waitIn st w).delays = s.delays := rfl
@[simp] theorem State.waitIn_hostErrors (s : State) (st : Strm) (w : WaitOn) : (s.waitIn st w).hostErrors = s.hostErrors := rfl
@[simp] theorem State.waitIn_raises (s : State) (st : Strm) (w : WaitOn) : (s.waitIn st w).raises = s.raises := rfl
@[simp] theorem State.waitIn_mismatches (s : State) (st : Strm) (w : WaitOn) : (s.waitIn st w).mismatches = s.mismatches := rfl
@[simp] theorem State.waitIn_mcReads (s : State) (st : Strm) (w : WaitOn) : (s.waitIn st w).mcReads = s.mcReads := rfl
@[simp] theorem State.waitIn_net (s : State) (st : Strm) (w : WaitOn) : (s.waitIn st w).net = s.net := rfl
@[simp] theorem State.waitIn_netNext (s : State) (st : Strm) (w : WaitOn) : (s.waitIn st w).netNext = s.netNext := rfl
@[simp] theorem State.waitIn_power (s : State) (st : Strm) (w : WaitOn) : (s.waitIn st w).power = s.power := rfl
@[simp] theorem State.waitIn_mem (s : State) (st : Strm) (w : WaitOn) : (s.waitIn st w).mem = s.mem := rfl
@[simp] theorem State.waitIn_badWords (s : State) (st : Strm) (w : WaitOn) : (s.waitIn st w).badWords = s.badWords := rfl
@[simp] theorem State.waitIn_flips (s : State) (st : Strm) (w : WaitOn) : (s.waitIn st w).flips = s.flips := rfl
@[simp] theorem State.waitIn_drowsy (s : State) (st : Strm) (w : WaitOn) : (s.waitIn st w).drowsy = s.drowsy := rfl
@[simp] theorem State.waitIn_site (s : State) (st : Strm) (w : WaitOn) : (s.waitIn st w).site = s.site := rfl
@[simp] theorem State.waitIn_cx (s : State) (st : Strm) (w : WaitOn) : (s.waitIn st w).cx = s.cx := rfl
@[simp] theorem State.waitIn_ctx (s : State) (st : Strm) (w : WaitOn) : (s.waitIn st w).ctx = s.ctx.onStrm st (fun r => r.waitFor w) := rfl
@[simp] theorem State.waitIn_octx (s : State) (st : Strm) (w : WaitOn) : (s.waitIn st w).octx = s.octx := rfl
@[simp] theorem State.waitIn_core (s : State) (st : Strm) (w : WaitOn) : (s.waitIn st w).core = s.core := rfl
@[simp] theorem State.waitIn_cores (s : State) (st : Strm) (w : WaitOn) : (s.waitIn st w).cores = s.cores := rfl
@[simp] theorem State.waitIn_pid (s : State) (st : Strm) (w : WaitOn) : (s.waitIn st w).pid = s.pid := rfl
@[simp] theorem State.waitIn_part (s : State) (st : Strm) (w : WaitOn) : (s.waitIn st w).part = s.part := rfl
@[simp] theorem State.waitIn_parts (s : State) (st : Strm) (w : WaitOn) : (s.waitIn st w).parts = s.parts := rfl
@[simp] theorem State.waitIn_walkCaches (s : State) (st : Strm) (w : WaitOn) : (s.waitIn st w).walkCaches = s.walkCaches := rfl
@[simp] theorem State.waitIn_hbm (s : State) (st : Strm) (w : WaitOn) : (s.waitIn st w).hbm = s.hbm := rfl
@[simp] theorem State.waitIn_columns (s : State) (st : Strm) (w : WaitOn) : (s.waitIn st w).columns = s.columns := rfl
@[simp] theorem State.waitIn_dies (s : State) (st : Strm) (w : WaitOn) : (s.waitIn st w).dies = s.dies := rfl
@[simp] theorem State.waitIn_drawceil (s : State) (st : Strm) (w : WaitOn) : (s.waitIn st w).drawceil = s.drawceil := rfl
@[simp] theorem State.waitIn_ceilErr (s : State) (st : Strm) (w : WaitOn) : (s.waitIn st w).ceilErr = s.ceilErr := rfl
@[simp] theorem State.waitIn_tlimit (s : State) (st : Strm) (w : WaitOn) : (s.waitIn st w).tlimit = s.tlimit := rfl
@[simp] theorem State.waitIn_peers (s : State) (st : Strm) (w : WaitOn) : (s.waitIn st w).peers = s.peers := rfl
@[simp] theorem State.waitIn_myInc (s : State) (st : Strm) (w : WaitOn) : (s.waitIn st w).myInc = s.myInc := rfl
@[simp] theorem State.waitIn_chip (s : State) (st : Strm) (w : WaitOn) : (s.waitIn st w).chip = s.chip := rfl
@[simp] theorem State.waitIn_clock (s : State) (st : Strm) (w : WaitOn) : (s.waitIn st w).clock = s.clock := rfl
@[simp] theorem State.waitIn_radius (s : State) (st : Strm) (w : WaitOn) : (s.waitIn st w).radius = s.radius := rfl
@[simp] theorem State.waitIn_smask (s : State) (st : Strm) (w : WaitOn) : (s.waitIn st w).smask = s.smask := rfl
@[simp] theorem State.waitIn_ports (s : State) (st : Strm) (w : WaitOn) : (s.waitIn st w).ports = s.ports := rfl
@[simp] theorem State.waitIn_sources (s : State) (st : Strm) (w : WaitOn) : (s.waitIn st w).sources = s.sources := rfl
@[simp] theorem State.waitIn_announced (s : State) (st : Strm) (w : WaitOn) : (s.waitIn st w).announced = s.announced := rfl
@[simp] theorem State.waitIn_mesh (s : State) (st : Strm) (w : WaitOn) : (s.waitIn st w).mesh = s.mesh := rfl
@[simp] theorem State.waitIn_boot (s : State) (st : Strm) (w : WaitOn) : (s.waitIn st w).boot = s.boot := rfl
@[simp] theorem State.waitIn_store (s : State) (st : Strm) (w : WaitOn) : (s.waitIn st w).store = s.store := rfl
@[simp] theorem State.waitIn_guards (s : State) (st : Strm) (w : WaitOn) : (s.waitIn st w).guards = s.guards := rfl
@[simp] theorem State.waitIn_svcCopies (s : State) (st : Strm) (w : WaitOn) : (s.waitIn st w).svcCopies = s.svcCopies := rfl
@[simp] theorem State.waitIn_measure (s : State) (st : Strm) (w : WaitOn) : (s.waitIn st w).measure = s.measure := rfl
@[simp] theorem State.waitIn_imageVersion (s : State) (st : Strm) (w : WaitOn) : (s.waitIn st w).imageVersion = s.imageVersion := rfl
@[simp] theorem State.waitIn_signing (s : State) (st : Strm) (w : WaitOn) : (s.waitIn st w).signing = s.signing := rfl
@[simp] theorem State.waitIn_eastKey (s : State) (st : Strm) (w : WaitOn) : (s.waitIn st w).eastKey = s.eastKey := rfl
@[simp] theorem State.waitIn_memctl (s : State) (st : Strm) (w : WaitOn) : (s.waitIn st w).memctl = s.memctl := rfl
@[simp] theorem State.waitIn_mtrbase (s : State) (st : Strm) (w : WaitOn) : (s.waitIn st w).mtrbase = s.mtrbase := rfl
@[simp] theorem State.waitIn_dbg (s : State) (st : Strm) (w : WaitOn) : (s.waitIn st w).dbg = s.dbg := rfl
@[simp] theorem State.waitIn_pauses (s : State) (st : Strm) (w : WaitOn) : (s.waitIn st w).pauses = s.pauses := rfl
@[simp] theorem State.waitIn_repairs (s : State) (st : Strm) (w : WaitOn) : (s.waitIn st w).repairs = s.repairs := rfl
@[simp] theorem State.waitIn_repairing (s : State) (st : Strm) (w : WaitOn) : (s.waitIn st w).repairing = s.repairing := rfl
@[simp] theorem State.waitIn_stagedRows (s : State) (st : Strm) (w : WaitOn) : (s.waitIn st w).stagedRows = s.stagedRows := rfl
@[simp] theorem State.waitIn_corrections (s : State) (st : Strm) (w : WaitOn) : (s.waitIn st w).corrections = s.corrections := rfl
@[simp] theorem State.waitIn_retiredChans (s : State) (st : Strm) (w : WaitOn) : (s.waitIn st w).retiredChans = s.retiredChans := rfl
@[simp] theorem State.waitIn_retiredBanks (s : State) (st : Strm) (w : WaitOn) : (s.waitIn st w).retiredBanks = s.retiredBanks := rfl
@[simp] theorem State.waitIn_taken (s : State) (st : Strm) (w : WaitOn) : (s.waitIn st w).taken = s.taken := rfl
@[simp] theorem State.waitIn_sparedRows (s : State) (st : Strm) (w : WaitOn) : (s.waitIn st w).sparedRows = s.sparedRows := rfl
@[simp] theorem State.waitIn_serviceCores (s : State) (st : Strm) (w : WaitOn) : (s.waitIn st w).serviceCores = s.serviceCores := rfl
@[simp] theorem State.waitIn_imageB (s : State) (st : Strm) (w : WaitOn) : (s.waitIn st w).imageB = s.imageB := rfl
@[simp] theorem State.waitIn_colls (s : State) (st : Strm) (w : WaitOn) : (s.waitIn st w).colls = s.colls := rfl
@[simp] theorem State.waitIn_notices (s : State) (st : Strm) (w : WaitOn) : (s.waitIn st w).notices = s.notices := rfl
@[simp] theorem State.waitIn_gated (s : State) (st : Strm) (w : WaitOn) : (s.waitIn st w).gated = s.gated := rfl
@[simp] theorem State.waitIn_peerCycles (s : State) (st : Strm) (w : WaitOn) : (s.waitIn st w).peerCycles = s.peerCycles := rfl
@[simp] theorem State.waitIn_peerRefuses (s : State) (st : Strm) (w : WaitOn) : (s.waitIn st w).peerRefuses = s.peerRefuses := rfl
@[simp] theorem State.waitIn_shadows (s : State) (st : Strm) (w : WaitOn) : (s.waitIn st w).shadows = s.shadows := rfl
@[simp] theorem State.waitIn_peerJobs (s : State) (st : Strm) (w : WaitOn) : (s.waitIn st w).peerJobs = s.peerJobs := rfl

/-! ### Bytes written at a key -/

@[simp] theorem State.writeKey_cycle (s : State) (k n v : Nat) : (s.writeKey k n v).cycle = s.cycle := rfl
@[simp] theorem State.writeKey_dtBase (s : State) (k n v : Nat) : (s.writeKey k n v).dtBase = s.dtBase := rfl
@[simp] theorem State.writeKey_agenda (s : State) (k n v : Nat) : (s.writeKey k n v).agenda = s.agenda := rfl
@[simp] theorem State.writeKey_todo (s : State) (k n v : Nat) : (s.writeKey k n v).todo = s.todo := rfl
@[simp] theorem State.writeKey_serial (s : State) (k n v : Nat) : (s.writeKey k n v).serial = s.serial := rfl
@[simp] theorem State.writeKey_delays (s : State) (k n v : Nat) : (s.writeKey k n v).delays = s.delays := rfl
@[simp] theorem State.writeKey_hostErrors (s : State) (k n v : Nat) : (s.writeKey k n v).hostErrors = s.hostErrors := rfl
@[simp] theorem State.writeKey_raises (s : State) (k n v : Nat) : (s.writeKey k n v).raises = s.raises := rfl
@[simp] theorem State.writeKey_mismatches (s : State) (k n v : Nat) : (s.writeKey k n v).mismatches = s.mismatches := rfl
@[simp] theorem State.writeKey_mcReads (s : State) (k n v : Nat) : (s.writeKey k n v).mcReads = s.mcReads := rfl
@[simp] theorem State.writeKey_net (s : State) (k n v : Nat) : (s.writeKey k n v).net = s.net := rfl
@[simp] theorem State.writeKey_netNext (s : State) (k n v : Nat) : (s.writeKey k n v).netNext = s.netNext := rfl
@[simp] theorem State.writeKey_power (s : State) (k n v : Nat) : (s.writeKey k n v).power = s.power := rfl
@[simp] theorem State.writeKey_mem (s : State) (k n v : Nat) : (s.writeKey k n v).mem = s.mem.writeBytes k (leBytes n v) := rfl
@[simp] theorem State.writeKey_badWords (s : State) (k n v : Nat) : (s.writeKey k n v).badWords = s.badWords.filter (kept k (leBytes n v).length) := rfl
@[simp] theorem State.writeKey_flips (s : State) (k n v : Nat) : (s.writeKey k n v).flips = s.flips.filter (kept k (leBytes n v).length) := rfl
@[simp] theorem State.writeKey_drowsy (s : State) (k n v : Nat) : (s.writeKey k n v).drowsy = s.drowsy := rfl
@[simp] theorem State.writeKey_site (s : State) (k n v : Nat) : (s.writeKey k n v).site = s.site := rfl
@[simp] theorem State.writeKey_cx (s : State) (k n v : Nat) : (s.writeKey k n v).cx = s.cx := rfl
@[simp] theorem State.writeKey_ctx (s : State) (k n v : Nat) : (s.writeKey k n v).ctx = s.ctx := rfl
@[simp] theorem State.writeKey_octx (s : State) (k n v : Nat) : (s.writeKey k n v).octx = s.octx := rfl
@[simp] theorem State.writeKey_core (s : State) (k n v : Nat) : (s.writeKey k n v).core = s.core := rfl
@[simp] theorem State.writeKey_cores (s : State) (k n v : Nat) : (s.writeKey k n v).cores = s.cores := rfl
@[simp] theorem State.writeKey_pid (s : State) (k n v : Nat) : (s.writeKey k n v).pid = s.pid := rfl
@[simp] theorem State.writeKey_part (s : State) (k n v : Nat) : (s.writeKey k n v).part = s.part := rfl
@[simp] theorem State.writeKey_parts (s : State) (k n v : Nat) : (s.writeKey k n v).parts = s.parts := rfl
@[simp] theorem State.writeKey_walkCaches (s : State) (k n v : Nat) : (s.writeKey k n v).walkCaches = s.walkCaches := rfl
@[simp] theorem State.writeKey_hbm (s : State) (k n v : Nat) : (s.writeKey k n v).hbm = s.hbm := rfl
@[simp] theorem State.writeKey_columns (s : State) (k n v : Nat) : (s.writeKey k n v).columns = s.columns := rfl
@[simp] theorem State.writeKey_dies (s : State) (k n v : Nat) : (s.writeKey k n v).dies = s.dies := rfl
@[simp] theorem State.writeKey_drawceil (s : State) (k n v : Nat) : (s.writeKey k n v).drawceil = s.drawceil := rfl
@[simp] theorem State.writeKey_ceilErr (s : State) (k n v : Nat) : (s.writeKey k n v).ceilErr = s.ceilErr := rfl
@[simp] theorem State.writeKey_tlimit (s : State) (k n v : Nat) : (s.writeKey k n v).tlimit = s.tlimit := rfl
@[simp] theorem State.writeKey_peers (s : State) (k n v : Nat) : (s.writeKey k n v).peers = s.peers := rfl
@[simp] theorem State.writeKey_myInc (s : State) (k n v : Nat) : (s.writeKey k n v).myInc = s.myInc := rfl
@[simp] theorem State.writeKey_chip (s : State) (k n v : Nat) : (s.writeKey k n v).chip = s.chip := rfl
@[simp] theorem State.writeKey_clock (s : State) (k n v : Nat) : (s.writeKey k n v).clock = s.clock := rfl
@[simp] theorem State.writeKey_radius (s : State) (k n v : Nat) : (s.writeKey k n v).radius = s.radius := rfl
@[simp] theorem State.writeKey_smask (s : State) (k n v : Nat) : (s.writeKey k n v).smask = s.smask := rfl
@[simp] theorem State.writeKey_ports (s : State) (k n v : Nat) : (s.writeKey k n v).ports = s.ports := rfl
@[simp] theorem State.writeKey_sources (s : State) (k n v : Nat) : (s.writeKey k n v).sources = s.sources := rfl
@[simp] theorem State.writeKey_announced (s : State) (k n v : Nat) : (s.writeKey k n v).announced = s.announced := rfl
@[simp] theorem State.writeKey_mesh (s : State) (k n v : Nat) : (s.writeKey k n v).mesh = s.mesh := rfl
@[simp] theorem State.writeKey_boot (s : State) (k n v : Nat) : (s.writeKey k n v).boot = s.boot := rfl
@[simp] theorem State.writeKey_store (s : State) (k n v : Nat) : (s.writeKey k n v).store = s.store := rfl
@[simp] theorem State.writeKey_guards (s : State) (k n v : Nat) : (s.writeKey k n v).guards = s.guards := rfl
@[simp] theorem State.writeKey_svcCopies (s : State) (k n v : Nat) : (s.writeKey k n v).svcCopies = s.svcCopies := rfl
@[simp] theorem State.writeKey_measure (s : State) (k n v : Nat) : (s.writeKey k n v).measure = s.measure := rfl
@[simp] theorem State.writeKey_imageVersion (s : State) (k n v : Nat) : (s.writeKey k n v).imageVersion = s.imageVersion := rfl
@[simp] theorem State.writeKey_signing (s : State) (k n v : Nat) : (s.writeKey k n v).signing = s.signing := rfl
@[simp] theorem State.writeKey_eastKey (s : State) (k n v : Nat) : (s.writeKey k n v).eastKey = s.eastKey := rfl
@[simp] theorem State.writeKey_memctl (s : State) (k n v : Nat) : (s.writeKey k n v).memctl = s.memctl := rfl
@[simp] theorem State.writeKey_mtrbase (s : State) (k n v : Nat) : (s.writeKey k n v).mtrbase = s.mtrbase := rfl
@[simp] theorem State.writeKey_dbg (s : State) (k n v : Nat) : (s.writeKey k n v).dbg = s.dbg := rfl
@[simp] theorem State.writeKey_pauses (s : State) (k n v : Nat) : (s.writeKey k n v).pauses = s.pauses := rfl
@[simp] theorem State.writeKey_repairs (s : State) (k n v : Nat) : (s.writeKey k n v).repairs = s.repairs := rfl
@[simp] theorem State.writeKey_repairing (s : State) (k n v : Nat) : (s.writeKey k n v).repairing = s.repairing := rfl
@[simp] theorem State.writeKey_stagedRows (s : State) (k n v : Nat) : (s.writeKey k n v).stagedRows = s.stagedRows := rfl
@[simp] theorem State.writeKey_corrections (s : State) (k n v : Nat) : (s.writeKey k n v).corrections = s.corrections := rfl
@[simp] theorem State.writeKey_retiredChans (s : State) (k n v : Nat) : (s.writeKey k n v).retiredChans = s.retiredChans := rfl
@[simp] theorem State.writeKey_retiredBanks (s : State) (k n v : Nat) : (s.writeKey k n v).retiredBanks = s.retiredBanks := rfl
@[simp] theorem State.writeKey_taken (s : State) (k n v : Nat) : (s.writeKey k n v).taken = s.taken := rfl
@[simp] theorem State.writeKey_sparedRows (s : State) (k n v : Nat) : (s.writeKey k n v).sparedRows = s.sparedRows := rfl
@[simp] theorem State.writeKey_serviceCores (s : State) (k n v : Nat) : (s.writeKey k n v).serviceCores = s.serviceCores := rfl
@[simp] theorem State.writeKey_imageB (s : State) (k n v : Nat) : (s.writeKey k n v).imageB = s.imageB := rfl
@[simp] theorem State.writeKey_colls (s : State) (k n v : Nat) : (s.writeKey k n v).colls = s.colls := rfl
@[simp] theorem State.writeKey_notices (s : State) (k n v : Nat) : (s.writeKey k n v).notices = s.notices := rfl
@[simp] theorem State.writeKey_gated (s : State) (k n v : Nat) : (s.writeKey k n v).gated = s.gated := rfl
@[simp] theorem State.writeKey_peerCycles (s : State) (k n v : Nat) : (s.writeKey k n v).peerCycles = s.peerCycles := rfl
@[simp] theorem State.writeKey_peerRefuses (s : State) (k n v : Nat) : (s.writeKey k n v).peerRefuses = s.peerRefuses := rfl
@[simp] theorem State.writeKey_shadows (s : State) (k n v : Nat) : (s.writeKey k n v).shadows = s.shadows := rfl
@[simp] theorem State.writeKey_peerJobs (s : State) (k n v : Nat) : (s.writeKey k n v).peerJobs = s.peerJobs := rfl

@[simp] theorem State.writeList_cycle (s : State) (k : Nat) (bs : List (BitVec 8)) : (s.writeList k bs).cycle = s.cycle := rfl
@[simp] theorem State.writeList_dtBase (s : State) (k : Nat) (bs : List (BitVec 8)) : (s.writeList k bs).dtBase = s.dtBase := rfl
@[simp] theorem State.writeList_agenda (s : State) (k : Nat) (bs : List (BitVec 8)) : (s.writeList k bs).agenda = s.agenda := rfl
@[simp] theorem State.writeList_todo (s : State) (k : Nat) (bs : List (BitVec 8)) : (s.writeList k bs).todo = s.todo := rfl
@[simp] theorem State.writeList_serial (s : State) (k : Nat) (bs : List (BitVec 8)) : (s.writeList k bs).serial = s.serial := rfl
@[simp] theorem State.writeList_delays (s : State) (k : Nat) (bs : List (BitVec 8)) : (s.writeList k bs).delays = s.delays := rfl
@[simp] theorem State.writeList_hostErrors (s : State) (k : Nat) (bs : List (BitVec 8)) : (s.writeList k bs).hostErrors = s.hostErrors := rfl
@[simp] theorem State.writeList_raises (s : State) (k : Nat) (bs : List (BitVec 8)) : (s.writeList k bs).raises = s.raises := rfl
@[simp] theorem State.writeList_mismatches (s : State) (k : Nat) (bs : List (BitVec 8)) : (s.writeList k bs).mismatches = s.mismatches := rfl
@[simp] theorem State.writeList_mcReads (s : State) (k : Nat) (bs : List (BitVec 8)) : (s.writeList k bs).mcReads = s.mcReads := rfl
@[simp] theorem State.writeList_net (s : State) (k : Nat) (bs : List (BitVec 8)) : (s.writeList k bs).net = s.net := rfl
@[simp] theorem State.writeList_netNext (s : State) (k : Nat) (bs : List (BitVec 8)) : (s.writeList k bs).netNext = s.netNext := rfl
@[simp] theorem State.writeList_power (s : State) (k : Nat) (bs : List (BitVec 8)) : (s.writeList k bs).power = s.power := rfl
@[simp] theorem State.writeList_mem (s : State) (k : Nat) (bs : List (BitVec 8)) : (s.writeList k bs).mem = s.mem.writeBytes k bs := rfl
@[simp] theorem State.writeList_badWords (s : State) (k : Nat) (bs : List (BitVec 8)) : (s.writeList k bs).badWords = s.badWords.filter (kept k bs.length) := rfl
@[simp] theorem State.writeList_flips (s : State) (k : Nat) (bs : List (BitVec 8)) : (s.writeList k bs).flips = s.flips.filter (kept k bs.length) := rfl
@[simp] theorem State.writeList_drowsy (s : State) (k : Nat) (bs : List (BitVec 8)) : (s.writeList k bs).drowsy = s.drowsy := rfl
@[simp] theorem State.writeList_site (s : State) (k : Nat) (bs : List (BitVec 8)) : (s.writeList k bs).site = s.site := rfl
@[simp] theorem State.writeList_cx (s : State) (k : Nat) (bs : List (BitVec 8)) : (s.writeList k bs).cx = s.cx := rfl
@[simp] theorem State.writeList_ctx (s : State) (k : Nat) (bs : List (BitVec 8)) : (s.writeList k bs).ctx = s.ctx := rfl
@[simp] theorem State.writeList_octx (s : State) (k : Nat) (bs : List (BitVec 8)) : (s.writeList k bs).octx = s.octx := rfl
@[simp] theorem State.writeList_core (s : State) (k : Nat) (bs : List (BitVec 8)) : (s.writeList k bs).core = s.core := rfl
@[simp] theorem State.writeList_cores (s : State) (k : Nat) (bs : List (BitVec 8)) : (s.writeList k bs).cores = s.cores := rfl
@[simp] theorem State.writeList_pid (s : State) (k : Nat) (bs : List (BitVec 8)) : (s.writeList k bs).pid = s.pid := rfl
@[simp] theorem State.writeList_part (s : State) (k : Nat) (bs : List (BitVec 8)) : (s.writeList k bs).part = s.part := rfl
@[simp] theorem State.writeList_parts (s : State) (k : Nat) (bs : List (BitVec 8)) : (s.writeList k bs).parts = s.parts := rfl
@[simp] theorem State.writeList_walkCaches (s : State) (k : Nat) (bs : List (BitVec 8)) : (s.writeList k bs).walkCaches = s.walkCaches := rfl
@[simp] theorem State.writeList_hbm (s : State) (k : Nat) (bs : List (BitVec 8)) : (s.writeList k bs).hbm = s.hbm := rfl
@[simp] theorem State.writeList_columns (s : State) (k : Nat) (bs : List (BitVec 8)) : (s.writeList k bs).columns = s.columns := rfl
@[simp] theorem State.writeList_dies (s : State) (k : Nat) (bs : List (BitVec 8)) : (s.writeList k bs).dies = s.dies := rfl
@[simp] theorem State.writeList_drawceil (s : State) (k : Nat) (bs : List (BitVec 8)) : (s.writeList k bs).drawceil = s.drawceil := rfl
@[simp] theorem State.writeList_ceilErr (s : State) (k : Nat) (bs : List (BitVec 8)) : (s.writeList k bs).ceilErr = s.ceilErr := rfl
@[simp] theorem State.writeList_tlimit (s : State) (k : Nat) (bs : List (BitVec 8)) : (s.writeList k bs).tlimit = s.tlimit := rfl
@[simp] theorem State.writeList_peers (s : State) (k : Nat) (bs : List (BitVec 8)) : (s.writeList k bs).peers = s.peers := rfl
@[simp] theorem State.writeList_myInc (s : State) (k : Nat) (bs : List (BitVec 8)) : (s.writeList k bs).myInc = s.myInc := rfl
@[simp] theorem State.writeList_chip (s : State) (k : Nat) (bs : List (BitVec 8)) : (s.writeList k bs).chip = s.chip := rfl
@[simp] theorem State.writeList_clock (s : State) (k : Nat) (bs : List (BitVec 8)) : (s.writeList k bs).clock = s.clock := rfl
@[simp] theorem State.writeList_radius (s : State) (k : Nat) (bs : List (BitVec 8)) : (s.writeList k bs).radius = s.radius := rfl
@[simp] theorem State.writeList_smask (s : State) (k : Nat) (bs : List (BitVec 8)) : (s.writeList k bs).smask = s.smask := rfl
@[simp] theorem State.writeList_ports (s : State) (k : Nat) (bs : List (BitVec 8)) : (s.writeList k bs).ports = s.ports := rfl
@[simp] theorem State.writeList_sources (s : State) (k : Nat) (bs : List (BitVec 8)) : (s.writeList k bs).sources = s.sources := rfl
@[simp] theorem State.writeList_announced (s : State) (k : Nat) (bs : List (BitVec 8)) : (s.writeList k bs).announced = s.announced := rfl
@[simp] theorem State.writeList_mesh (s : State) (k : Nat) (bs : List (BitVec 8)) : (s.writeList k bs).mesh = s.mesh := rfl
@[simp] theorem State.writeList_boot (s : State) (k : Nat) (bs : List (BitVec 8)) : (s.writeList k bs).boot = s.boot := rfl
@[simp] theorem State.writeList_store (s : State) (k : Nat) (bs : List (BitVec 8)) : (s.writeList k bs).store = s.store := rfl
@[simp] theorem State.writeList_guards (s : State) (k : Nat) (bs : List (BitVec 8)) : (s.writeList k bs).guards = s.guards := rfl
@[simp] theorem State.writeList_svcCopies (s : State) (k : Nat) (bs : List (BitVec 8)) : (s.writeList k bs).svcCopies = s.svcCopies := rfl
@[simp] theorem State.writeList_measure (s : State) (k : Nat) (bs : List (BitVec 8)) : (s.writeList k bs).measure = s.measure := rfl
@[simp] theorem State.writeList_imageVersion (s : State) (k : Nat) (bs : List (BitVec 8)) : (s.writeList k bs).imageVersion = s.imageVersion := rfl
@[simp] theorem State.writeList_signing (s : State) (k : Nat) (bs : List (BitVec 8)) : (s.writeList k bs).signing = s.signing := rfl
@[simp] theorem State.writeList_eastKey (s : State) (k : Nat) (bs : List (BitVec 8)) : (s.writeList k bs).eastKey = s.eastKey := rfl
@[simp] theorem State.writeList_memctl (s : State) (k : Nat) (bs : List (BitVec 8)) : (s.writeList k bs).memctl = s.memctl := rfl
@[simp] theorem State.writeList_mtrbase (s : State) (k : Nat) (bs : List (BitVec 8)) : (s.writeList k bs).mtrbase = s.mtrbase := rfl
@[simp] theorem State.writeList_dbg (s : State) (k : Nat) (bs : List (BitVec 8)) : (s.writeList k bs).dbg = s.dbg := rfl
@[simp] theorem State.writeList_pauses (s : State) (k : Nat) (bs : List (BitVec 8)) : (s.writeList k bs).pauses = s.pauses := rfl
@[simp] theorem State.writeList_repairs (s : State) (k : Nat) (bs : List (BitVec 8)) : (s.writeList k bs).repairs = s.repairs := rfl
@[simp] theorem State.writeList_repairing (s : State) (k : Nat) (bs : List (BitVec 8)) : (s.writeList k bs).repairing = s.repairing := rfl
@[simp] theorem State.writeList_stagedRows (s : State) (k : Nat) (bs : List (BitVec 8)) : (s.writeList k bs).stagedRows = s.stagedRows := rfl
@[simp] theorem State.writeList_corrections (s : State) (k : Nat) (bs : List (BitVec 8)) : (s.writeList k bs).corrections = s.corrections := rfl
@[simp] theorem State.writeList_retiredChans (s : State) (k : Nat) (bs : List (BitVec 8)) : (s.writeList k bs).retiredChans = s.retiredChans := rfl
@[simp] theorem State.writeList_retiredBanks (s : State) (k : Nat) (bs : List (BitVec 8)) : (s.writeList k bs).retiredBanks = s.retiredBanks := rfl
@[simp] theorem State.writeList_taken (s : State) (k : Nat) (bs : List (BitVec 8)) : (s.writeList k bs).taken = s.taken := rfl
@[simp] theorem State.writeList_sparedRows (s : State) (k : Nat) (bs : List (BitVec 8)) : (s.writeList k bs).sparedRows = s.sparedRows := rfl
@[simp] theorem State.writeList_serviceCores (s : State) (k : Nat) (bs : List (BitVec 8)) : (s.writeList k bs).serviceCores = s.serviceCores := rfl
@[simp] theorem State.writeList_imageB (s : State) (k : Nat) (bs : List (BitVec 8)) : (s.writeList k bs).imageB = s.imageB := rfl
@[simp] theorem State.writeList_colls (s : State) (k : Nat) (bs : List (BitVec 8)) : (s.writeList k bs).colls = s.colls := rfl
@[simp] theorem State.writeList_notices (s : State) (k : Nat) (bs : List (BitVec 8)) : (s.writeList k bs).notices = s.notices := rfl
@[simp] theorem State.writeList_gated (s : State) (k : Nat) (bs : List (BitVec 8)) : (s.writeList k bs).gated = s.gated := rfl
@[simp] theorem State.writeList_peerCycles (s : State) (k : Nat) (bs : List (BitVec 8)) : (s.writeList k bs).peerCycles = s.peerCycles := rfl
@[simp] theorem State.writeList_peerRefuses (s : State) (k : Nat) (bs : List (BitVec 8)) : (s.writeList k bs).peerRefuses = s.peerRefuses := rfl
@[simp] theorem State.writeList_shadows (s : State) (k : Nat) (bs : List (BitVec 8)) : (s.writeList k bs).shadows = s.shadows := rfl
@[simp] theorem State.writeList_peerJobs (s : State) (k : Nat) (bs : List (BitVec 8)) : (s.writeList k bs).peerJobs = s.peerJobs := rfl

/-! ### Registers of a context written -/

@[simp] theorem Context.setX_turn (c : Context) (r : Fin 32) (v : Word) : (c.setX r v).turn = c.turn := by unfold Context.setX; split <;> rfl
@[simp] theorem Context.setX_p (c : Context) (r : Fin 32) (v : Word) : (c.setX r v).p = c.p := by unfold Context.setX; split <;> rfl
@[simp] theorem Context.setX_b (c : Context) (r : Fin 32) (v : Word) : (c.setX r v).b = c.b := by unfold Context.setX; split <;> rfl
@[simp] theorem Context.setX_tok (c : Context) (r : Fin 32) (v : Word) : (c.setX r v).tok = c.tok := by unfold Context.setX; split <;> rfl
@[simp] theorem Context.setX_a (c : Context) (r : Fin 32) (v : Word) : (c.setX r v).a = c.a := by unfold Context.setX; split <;> rfl
@[simp] theorem Context.setX_mb (c : Context) (r : Fin 32) (v : Word) : (c.setX r v).mb = c.mb := by unfold Context.setX; split <;> rfl
@[simp] theorem Context.setX_s (c : Context) (r : Fin 32) (v : Word) : (c.setX r v).s = c.s := by unfold Context.setX; split <;> rfl
@[simp] theorem Context.setX_m (c : Context) (r : Fin 32) (v : Word) : (c.setX r v).m = c.m := by unfold Context.setX; split <;> rfl
@[simp] theorem Context.setX_h (c : Context) (r : Fin 32) (v : Word) : (c.setX r v).h = c.h := by unfold Context.setX; split <;> rfl
@[simp] theorem Context.setX_vshape (c : Context) (r : Fin 32) (v : Word) : (c.setX r v).vshape = c.vshape := by unfold Context.setX; split <;> rfl
@[simp] theorem Context.setX_mfmt (c : Context) (r : Fin 32) (v : Word) : (c.setX r v).mfmt = c.mfmt := by unfold Context.setX; split <;> rfl
@[simp] theorem Context.setX_fflags (c : Context) (r : Fin 32) (v : Word) : (c.setX r v).fflags = c.fflags := by unfold Context.setX; split <;> rfl
@[simp] theorem Context.setX_strict (c : Context) (r : Fin 32) (v : Word) : (c.setX r v).strict = c.strict := by unfold Context.setX; split <;> rfl
@[simp] theorem Context.setX_q (c : Context) (r : Fin 32) (v : Word) : (c.setX r v).q = c.q := by unfold Context.setX; split <;> rfl
@[simp] theorem Context.setX_chans (c : Context) (r : Fin 32) (v : Word) : (c.setX r v).chans = c.chans := by unfold Context.setX; split <;> rfl
@[simp] theorem Context.setX_landing (c : Context) (r : Fin 32) (v : Word) : (c.setX r v).landing = c.landing := by unfold Context.setX; split <;> rfl
@[simp] theorem Context.setX_lbuf (c : Context) (r : Fin 32) (v : Word) : (c.setX r v).lbuf = c.lbuf := by unfold Context.setX; split <;> rfl
@[simp] theorem Context.setX_hbuf (c : Context) (r : Fin 32) (v : Word) : (c.setX r v).hbuf = c.hbuf := by unfold Context.setX; split <;> rfl
@[simp] theorem Context.setX_divBusy (c : Context) (r : Fin 32) (v : Word) : (c.setX r v).divBusy = c.divBusy := by unfold Context.setX; split <;> rfl
@[simp] theorem Context.setX_cs (c : Context) (r : Fin 32) (v : Word) : (c.setX r v).cs = c.cs := by unfold Context.setX; split <;> rfl
@[simp] theorem Context.setX_ts (c : Context) (r : Fin 32) (v : Word) : (c.setX r v).ts = c.ts := by unfold Context.setX; split <;> rfl
@[simp] theorem Context.setX_ms (c : Context) (r : Fin 32) (v : Word) : (c.setX r v).ms = c.ms := by unfold Context.setX; split <;> rfl
@[simp] theorem Context.setX_vs (c : Context) (r : Fin 32) (v : Word) : (c.setX r v).vs = c.vs := by unfold Context.setX; split <;> rfl
@[simp] theorem Context.setX_twin (c : Context) (r : Fin 32) (v : Word) : (c.setX r v).twin = c.twin := by unfold Context.setX; split <;> rfl
@[simp] theorem Context.setX_rldSlots (c : Context) (r : Fin 32) (v : Word) : (c.setX r v).rldSlots = c.rldSlots := by unfold Context.setX; split <;> rfl
@[simp] theorem Context.setX_rldBufs (c : Context) (r : Fin 32) (v : Word) : (c.setX r v).rldBufs = c.rldBufs := by unfold Context.setX; split <;> rfl
@[simp] theorem Context.setX_ranges (c : Context) (r : Fin 32) (v : Word) : (c.setX r v).ranges = c.ranges := by unfold Context.setX; split <;> rfl
@[simp] theorem Context.setX_vpend (c : Context) (r : Fin 32) (v : Word) : (c.setX r v).vpend = c.vpend := by unfold Context.setX; split <;> rfl
@[simp] theorem Context.setX_nest (c : Context) (r : Fin 32) (v : Word) : (c.setX r v).nest = c.nest := by unfold Context.setX; split <;> rfl
@[simp] theorem Context.setX_captured (c : Context) (r : Fin 32) (v : Word) : (c.setX r v).captured = c.captured := by unfold Context.setX; split <;> rfl
@[simp] theorem Context.setX_acc (c : Context) (r : Fin 32) (v : Word) : (c.setX r v).acc = c.acc := by unfold Context.setX; split <;> rfl
@[simp] theorem Context.setX_rowInt (c : Context) (r : Fin 32) (v : Word) : (c.setX r v).rowInt = c.rowInt := by unfold Context.setX; split <;> rfl
@[simp] theorem Context.setX_zeroing (c : Context) (r : Fin 32) (v : Word) : (c.setX r v).zeroing = c.zeroing := by unfold Context.setX; split <;> rfl
@[simp] theorem Context.setX_aggC (c : Context) (r : Fin 32) (v : Word) : (c.setX r v).aggC = c.aggC := by unfold Context.setX; split <;> rfl
@[simp] theorem Context.setX_aggT (c : Context) (r : Fin 32) (v : Word) : (c.setX r v).aggT = c.aggT := by unfold Context.setX; split <;> rfl
@[simp] theorem Context.setX_aggM (c : Context) (r : Fin 32) (v : Word) : (c.setX r v).aggM = c.aggM := by unfold Context.setX; split <;> rfl
@[simp] theorem Context.setX_pl (c : Context) (r : Fin 32) (v : Word) : (c.setX r v).pl = c.pl := by unfold Context.setX; split <;> rfl
@[simp] theorem Context.setX_ppl (c : Context) (r : Fin 32) (v : Word) : (c.setX r v).ppl = c.ppl := by unfold Context.setX; split <;> rfl
@[simp] theorem Context.setX_tip (c : Context) (r : Fin 32) (v : Word) : (c.setX r v).tip = c.tip := by unfold Context.setX; split <;> rfl
@[simp] theorem Context.setX_held (c : Context) (r : Fin 32) (v : Word) : (c.setX r v).held = c.held := by unfold Context.setX; split <;> rfl
@[simp] theorem Context.setX_cause (c : Context) (r : Fin 32) (v : Word) : (c.setX r v).cause = c.cause := by unfold Context.setX; split <;> rfl
@[simp] theorem Context.setX_epc (c : Context) (r : Fin 32) (v : Word) : (c.setX r v).epc = c.epc := by unfold Context.setX; split <;> rfl
@[simp] theorem Context.setX_faddr (c : Context) (r : Fin 32) (v : Word) : (c.setX r v).faddr = c.faddr := by unfold Context.setX; split <;> rfl
@[simp] theorem Context.setX_fpc (c : Context) (r : Fin 32) (v : Word) : (c.setX r v).fpc = c.fpc := by unfold Context.setX; split <;> rfl
@[simp] theorem Context.setX_fpc2 (c : Context) (r : Fin 32) (v : Word) : (c.setX r v).fpc2 = c.fpc2 := by unfold Context.setX; split <;> rfl
@[simp] theorem Context.setX_frec (c : Context) (r : Fin 32) (v : Word) : (c.setX r v).frec = c.frec := by unfold Context.setX; split <;> rfl
@[simp] theorem Context.setX_sscr (c : Context) (r : Fin 32) (v : Word) : (c.setX r v).sscr = c.sscr := by unfold Context.setX; split <;> rfl
@[simp] theorem Context.setX_limit (c : Context) (r : Fin 32) (v : Word) : (c.setX r v).limit = c.limit := by unfold Context.setX; split <;> rfl
@[simp] theorem Context.setX_net (c : Context) (r : Fin 32) (v : Word) : (c.setX r v).net = c.net := by unfold Context.setX; split <;> rfl
@[simp] theorem Context.setX_deadline (c : Context) (r : Fin 32) (v : Word) : (c.setX r v).deadline = c.deadline := by unfold Context.setX; split <;> rfl
@[simp] theorem Context.setX_occupancy (c : Context) (r : Fin 32) (v : Word) : (c.setX r v).occupancy = c.occupancy := by unfold Context.setX; split <;> rfl
@[simp] theorem Context.setX_excused (c : Context) (r : Fin 32) (v : Word) : (c.setX r v).excused = c.excused := by unfold Context.setX; split <;> rfl
@[simp] theorem Context.setX_dbgctl (c : Context) (r : Fin 32) (v : Word) : (c.setX r v).dbgctl = c.dbgctl := by unfold Context.setX; split <;> rfl
@[simp] theorem Context.setX_trctl (c : Context) (r : Fin 32) (v : Word) : (c.setX r v).trctl = c.trctl := by unfold Context.setX; split <;> rfl
@[simp] theorem Context.setX_trbase (c : Context) (r : Fin 32) (v : Word) : (c.setX r v).trbase = c.trbase := by unfold Context.setX; split <;> rfl
@[simp] theorem Context.setX_bdring (c : Context) (r : Fin 32) (v : Word) : (c.setX r v).bdring = c.bdring := by unfold Context.setX; split <;> rfl
@[simp] theorem Context.setX_rplog (c : Context) (r : Fin 32) (v : Word) : (c.setX r v).rplog = c.rplog := by unfold Context.setX; split <;> rfl
@[simp] theorem Context.setX_bpa (c : Context) (r : Fin 32) (v : Word) : (c.setX r v).bpa = c.bpa := by unfold Context.setX; split <;> rfl
@[simp] theorem Context.setX_bpi (c : Context) (r : Fin 32) (v : Word) : (c.setX r v).bpi = c.bpi := by unfold Context.setX; split <;> rfl
@[simp] theorem Context.setX_boardSeq (c : Context) (r : Fin 32) (v : Word) : (c.setX r v).boardSeq = c.boardSeq := by unfold Context.setX; split <;> rfl
@[simp] theorem Context.setX_boardSkip (c : Context) (r : Fin 32) (v : Word) : (c.setX r v).boardSkip = c.boardSkip := by unfold Context.setX; split <;> rfl
@[simp] theorem Context.setX_boardBusy (c : Context) (r : Fin 32) (v : Word) : (c.setX r v).boardBusy = c.boardBusy := by unfold Context.setX; split <;> rfl
@[simp] theorem Context.setX_replayAt (c : Context) (r : Fin 32) (v : Word) : (c.setX r v).replayAt = c.replayAt := by unfold Context.setX; split <;> rfl
@[simp] theorem Context.setX_replayOff (c : Context) (r : Fin 32) (v : Word) : (c.setX r v).replayOff = c.replayOff := by unfold Context.setX; split <;> rfl
@[simp] theorem Context.setX_replayFull (c : Context) (r : Fin 32) (v : Word) : (c.setX r v).replayFull = c.replayFull := by unfold Context.setX; split <;> rfl
@[simp] theorem Context.setX_logHeld (c : Context) (r : Fin 32) (v : Word) : (c.setX r v).logHeld = c.logHeld := by unfold Context.setX; split <;> rfl
@[simp] theorem Context.setX_pend (c : Context) (r : Fin 32) (v : Word) : (c.setX r v).pend = c.pend := by unfold Context.setX; split <;> rfl
@[simp] theorem Context.setX_resume (c : Context) (r : Fin 32) (v : Word) : (c.setX r v).resume = c.resume := by unfold Context.setX; split <;> rfl
@[simp] theorem Context.setX_hresume (c : Context) (r : Fin 32) (v : Word) : (c.setX r v).hresume = c.hresume := by unfold Context.setX; split <;> rfl
@[simp] theorem Context.setX_dead (c : Context) (r : Fin 32) (v : Word) : (c.setX r v).dead = c.dead := by unfold Context.setX; split <;> rfl
@[simp] theorem Context.setX_haltReq (c : Context) (r : Fin 32) (v : Word) : (c.setX r v).haltReq = c.haltReq := by unfold Context.setX; split <;> rfl
@[simp] theorem Context.setX_halted (c : Context) (r : Fin 32) (v : Word) : (c.setX r v).halted = c.halted := by unfold Context.setX; split <;> rfl
@[simp] theorem Context.setX_waitMask (c : Context) (r : Fin 32) (v : Word) : (c.setX r v).waitMask = c.waitMask := by unfold Context.setX; split <;> rfl
@[simp] theorem Context.setX_stepOf (c : Context) (r : Fin 32) (v : Word) : (c.setX r v).stepOf = c.stepOf := by unfold Context.setX; split <;> rfl
@[simp] theorem Context.setX_retire (c : Context) (r : Fin 32) (v : Word) : (c.setX r v).retire = c.retire := by unfold Context.setX; split <;> rfl
@[simp] theorem Context.setX_idle (c : Context) (r : Fin 32) (v : Word) : (c.setX r v).idle = c.idle := by unfold Context.setX; split <;> rfl
@[simp] theorem Context.setX_asked (c : Context) (r : Fin 32) (v : Word) : (c.setX r v).asked = c.asked := by unfold Context.setX; split <;> rfl
@[simp] theorem Context.setX_askedX (c : Context) (r : Fin 32) (v : Word) : (c.setX r v).askedX = c.askedX := by unfold Context.setX; split <;> rfl
@[simp] theorem Context.setX_excuseTo (c : Context) (r : Fin 32) (v : Word) : (c.setX r v).excuseTo = c.excuseTo := by unfold Context.setX; split <;> rfl
@[simp] theorem Context.setX_slow (c : Context) (r : Fin 32) (v : Word) : (c.setX r v).slow = c.slow := by unfold Context.setX; split <;> rfl
@[simp] theorem Context.setX_issuedThen (c : Context) (r : Fin 32) (v : Word) : (c.setX r v).issuedThen = c.issuedThen := by unfold Context.setX; split <;> rfl
@[simp] theorem Context.setX_upWait (c : Context) (r : Fin 32) (v : Word) : (c.setX r v).upWait = c.upWait := by unfold Context.setX; split <;> rfl
@[simp] theorem Context.setX_fenceKept (c : Context) (r : Fin 32) (v : Word) : (c.setX r v).fenceKept = c.fenceKept := by unfold Context.setX; split <;> rfl
@[simp] theorem Context.setX_tipSerial (c : Context) (r : Fin 32) (v : Word) : (c.setX r v).tipSerial = c.tipSerial := by unfold Context.setX; split <;> rfl
@[simp] theorem Context.setX_rldHeld (c : Context) (r : Fin 32) (v : Word) : (c.setX r v).rldHeld = c.rldHeld := by unfold Context.setX; split <;> rfl
@[simp] theorem Context.setX_replayBack (c : Context) (r : Fin 32) (v : Word) : (c.setX r v).replayBack = c.replayBack := by unfold Context.setX; split <;> rfl
@[simp] theorem Context.setX_hwas (c : Context) (r : Fin 32) (v : Word) : (c.setX r v).hwas = c.hwas := by unfold Context.setX; split <;> rfl
@[simp] theorem Context.setX_tcommitAt (c : Context) (r : Fin 32) (v : Word) : (c.setX r v).tcommitAt = c.tcommitAt := by unfold Context.setX; split <;> rfl
@[simp] theorem Context.setX_ttr (c : Context) (r : Fin 32) (v : Word) : (c.setX r v).ttr = c.ttr := by unfold Context.setX; split <;> rfl

@[simp] theorem Context.setP_turn (c : Context) (r : Fin 8) (v : Bool) : (c.setP r v).turn = c.turn := by unfold Context.setP; split <;> rfl
@[simp] theorem Context.setP_x (c : Context) (r : Fin 8) (v : Bool) : (c.setP r v).x = c.x := by unfold Context.setP; split <;> rfl
@[simp] theorem Context.setP_b (c : Context) (r : Fin 8) (v : Bool) : (c.setP r v).b = c.b := by unfold Context.setP; split <;> rfl
@[simp] theorem Context.setP_tok (c : Context) (r : Fin 8) (v : Bool) : (c.setP r v).tok = c.tok := by unfold Context.setP; split <;> rfl
@[simp] theorem Context.setP_a (c : Context) (r : Fin 8) (v : Bool) : (c.setP r v).a = c.a := by unfold Context.setP; split <;> rfl
@[simp] theorem Context.setP_mb (c : Context) (r : Fin 8) (v : Bool) : (c.setP r v).mb = c.mb := by unfold Context.setP; split <;> rfl
@[simp] theorem Context.setP_s (c : Context) (r : Fin 8) (v : Bool) : (c.setP r v).s = c.s := by unfold Context.setP; split <;> rfl
@[simp] theorem Context.setP_m (c : Context) (r : Fin 8) (v : Bool) : (c.setP r v).m = c.m := by unfold Context.setP; split <;> rfl
@[simp] theorem Context.setP_h (c : Context) (r : Fin 8) (v : Bool) : (c.setP r v).h = c.h := by unfold Context.setP; split <;> rfl
@[simp] theorem Context.setP_vshape (c : Context) (r : Fin 8) (v : Bool) : (c.setP r v).vshape = c.vshape := by unfold Context.setP; split <;> rfl
@[simp] theorem Context.setP_mfmt (c : Context) (r : Fin 8) (v : Bool) : (c.setP r v).mfmt = c.mfmt := by unfold Context.setP; split <;> rfl
@[simp] theorem Context.setP_fflags (c : Context) (r : Fin 8) (v : Bool) : (c.setP r v).fflags = c.fflags := by unfold Context.setP; split <;> rfl
@[simp] theorem Context.setP_strict (c : Context) (r : Fin 8) (v : Bool) : (c.setP r v).strict = c.strict := by unfold Context.setP; split <;> rfl
@[simp] theorem Context.setP_q (c : Context) (r : Fin 8) (v : Bool) : (c.setP r v).q = c.q := by unfold Context.setP; split <;> rfl
@[simp] theorem Context.setP_chans (c : Context) (r : Fin 8) (v : Bool) : (c.setP r v).chans = c.chans := by unfold Context.setP; split <;> rfl
@[simp] theorem Context.setP_landing (c : Context) (r : Fin 8) (v : Bool) : (c.setP r v).landing = c.landing := by unfold Context.setP; split <;> rfl
@[simp] theorem Context.setP_lbuf (c : Context) (r : Fin 8) (v : Bool) : (c.setP r v).lbuf = c.lbuf := by unfold Context.setP; split <;> rfl
@[simp] theorem Context.setP_hbuf (c : Context) (r : Fin 8) (v : Bool) : (c.setP r v).hbuf = c.hbuf := by unfold Context.setP; split <;> rfl
@[simp] theorem Context.setP_divBusy (c : Context) (r : Fin 8) (v : Bool) : (c.setP r v).divBusy = c.divBusy := by unfold Context.setP; split <;> rfl
@[simp] theorem Context.setP_cs (c : Context) (r : Fin 8) (v : Bool) : (c.setP r v).cs = c.cs := by unfold Context.setP; split <;> rfl
@[simp] theorem Context.setP_ts (c : Context) (r : Fin 8) (v : Bool) : (c.setP r v).ts = c.ts := by unfold Context.setP; split <;> rfl
@[simp] theorem Context.setP_ms (c : Context) (r : Fin 8) (v : Bool) : (c.setP r v).ms = c.ms := by unfold Context.setP; split <;> rfl
@[simp] theorem Context.setP_vs (c : Context) (r : Fin 8) (v : Bool) : (c.setP r v).vs = c.vs := by unfold Context.setP; split <;> rfl
@[simp] theorem Context.setP_twin (c : Context) (r : Fin 8) (v : Bool) : (c.setP r v).twin = c.twin := by unfold Context.setP; split <;> rfl
@[simp] theorem Context.setP_rldSlots (c : Context) (r : Fin 8) (v : Bool) : (c.setP r v).rldSlots = c.rldSlots := by unfold Context.setP; split <;> rfl
@[simp] theorem Context.setP_rldBufs (c : Context) (r : Fin 8) (v : Bool) : (c.setP r v).rldBufs = c.rldBufs := by unfold Context.setP; split <;> rfl
@[simp] theorem Context.setP_ranges (c : Context) (r : Fin 8) (v : Bool) : (c.setP r v).ranges = c.ranges := by unfold Context.setP; split <;> rfl
@[simp] theorem Context.setP_vpend (c : Context) (r : Fin 8) (v : Bool) : (c.setP r v).vpend = c.vpend := by unfold Context.setP; split <;> rfl
@[simp] theorem Context.setP_nest (c : Context) (r : Fin 8) (v : Bool) : (c.setP r v).nest = c.nest := by unfold Context.setP; split <;> rfl
@[simp] theorem Context.setP_captured (c : Context) (r : Fin 8) (v : Bool) : (c.setP r v).captured = c.captured := by unfold Context.setP; split <;> rfl
@[simp] theorem Context.setP_acc (c : Context) (r : Fin 8) (v : Bool) : (c.setP r v).acc = c.acc := by unfold Context.setP; split <;> rfl
@[simp] theorem Context.setP_rowInt (c : Context) (r : Fin 8) (v : Bool) : (c.setP r v).rowInt = c.rowInt := by unfold Context.setP; split <;> rfl
@[simp] theorem Context.setP_zeroing (c : Context) (r : Fin 8) (v : Bool) : (c.setP r v).zeroing = c.zeroing := by unfold Context.setP; split <;> rfl
@[simp] theorem Context.setP_aggC (c : Context) (r : Fin 8) (v : Bool) : (c.setP r v).aggC = c.aggC := by unfold Context.setP; split <;> rfl
@[simp] theorem Context.setP_aggT (c : Context) (r : Fin 8) (v : Bool) : (c.setP r v).aggT = c.aggT := by unfold Context.setP; split <;> rfl
@[simp] theorem Context.setP_aggM (c : Context) (r : Fin 8) (v : Bool) : (c.setP r v).aggM = c.aggM := by unfold Context.setP; split <;> rfl
@[simp] theorem Context.setP_pl (c : Context) (r : Fin 8) (v : Bool) : (c.setP r v).pl = c.pl := by unfold Context.setP; split <;> rfl
@[simp] theorem Context.setP_ppl (c : Context) (r : Fin 8) (v : Bool) : (c.setP r v).ppl = c.ppl := by unfold Context.setP; split <;> rfl
@[simp] theorem Context.setP_tip (c : Context) (r : Fin 8) (v : Bool) : (c.setP r v).tip = c.tip := by unfold Context.setP; split <;> rfl
@[simp] theorem Context.setP_held (c : Context) (r : Fin 8) (v : Bool) : (c.setP r v).held = c.held := by unfold Context.setP; split <;> rfl
@[simp] theorem Context.setP_cause (c : Context) (r : Fin 8) (v : Bool) : (c.setP r v).cause = c.cause := by unfold Context.setP; split <;> rfl
@[simp] theorem Context.setP_epc (c : Context) (r : Fin 8) (v : Bool) : (c.setP r v).epc = c.epc := by unfold Context.setP; split <;> rfl
@[simp] theorem Context.setP_faddr (c : Context) (r : Fin 8) (v : Bool) : (c.setP r v).faddr = c.faddr := by unfold Context.setP; split <;> rfl
@[simp] theorem Context.setP_fpc (c : Context) (r : Fin 8) (v : Bool) : (c.setP r v).fpc = c.fpc := by unfold Context.setP; split <;> rfl
@[simp] theorem Context.setP_fpc2 (c : Context) (r : Fin 8) (v : Bool) : (c.setP r v).fpc2 = c.fpc2 := by unfold Context.setP; split <;> rfl
@[simp] theorem Context.setP_frec (c : Context) (r : Fin 8) (v : Bool) : (c.setP r v).frec = c.frec := by unfold Context.setP; split <;> rfl
@[simp] theorem Context.setP_sscr (c : Context) (r : Fin 8) (v : Bool) : (c.setP r v).sscr = c.sscr := by unfold Context.setP; split <;> rfl
@[simp] theorem Context.setP_limit (c : Context) (r : Fin 8) (v : Bool) : (c.setP r v).limit = c.limit := by unfold Context.setP; split <;> rfl
@[simp] theorem Context.setP_net (c : Context) (r : Fin 8) (v : Bool) : (c.setP r v).net = c.net := by unfold Context.setP; split <;> rfl
@[simp] theorem Context.setP_deadline (c : Context) (r : Fin 8) (v : Bool) : (c.setP r v).deadline = c.deadline := by unfold Context.setP; split <;> rfl
@[simp] theorem Context.setP_occupancy (c : Context) (r : Fin 8) (v : Bool) : (c.setP r v).occupancy = c.occupancy := by unfold Context.setP; split <;> rfl
@[simp] theorem Context.setP_excused (c : Context) (r : Fin 8) (v : Bool) : (c.setP r v).excused = c.excused := by unfold Context.setP; split <;> rfl
@[simp] theorem Context.setP_dbgctl (c : Context) (r : Fin 8) (v : Bool) : (c.setP r v).dbgctl = c.dbgctl := by unfold Context.setP; split <;> rfl
@[simp] theorem Context.setP_trctl (c : Context) (r : Fin 8) (v : Bool) : (c.setP r v).trctl = c.trctl := by unfold Context.setP; split <;> rfl
@[simp] theorem Context.setP_trbase (c : Context) (r : Fin 8) (v : Bool) : (c.setP r v).trbase = c.trbase := by unfold Context.setP; split <;> rfl
@[simp] theorem Context.setP_bdring (c : Context) (r : Fin 8) (v : Bool) : (c.setP r v).bdring = c.bdring := by unfold Context.setP; split <;> rfl
@[simp] theorem Context.setP_rplog (c : Context) (r : Fin 8) (v : Bool) : (c.setP r v).rplog = c.rplog := by unfold Context.setP; split <;> rfl
@[simp] theorem Context.setP_bpa (c : Context) (r : Fin 8) (v : Bool) : (c.setP r v).bpa = c.bpa := by unfold Context.setP; split <;> rfl
@[simp] theorem Context.setP_bpi (c : Context) (r : Fin 8) (v : Bool) : (c.setP r v).bpi = c.bpi := by unfold Context.setP; split <;> rfl
@[simp] theorem Context.setP_boardSeq (c : Context) (r : Fin 8) (v : Bool) : (c.setP r v).boardSeq = c.boardSeq := by unfold Context.setP; split <;> rfl
@[simp] theorem Context.setP_boardSkip (c : Context) (r : Fin 8) (v : Bool) : (c.setP r v).boardSkip = c.boardSkip := by unfold Context.setP; split <;> rfl
@[simp] theorem Context.setP_boardBusy (c : Context) (r : Fin 8) (v : Bool) : (c.setP r v).boardBusy = c.boardBusy := by unfold Context.setP; split <;> rfl
@[simp] theorem Context.setP_replayAt (c : Context) (r : Fin 8) (v : Bool) : (c.setP r v).replayAt = c.replayAt := by unfold Context.setP; split <;> rfl
@[simp] theorem Context.setP_replayOff (c : Context) (r : Fin 8) (v : Bool) : (c.setP r v).replayOff = c.replayOff := by unfold Context.setP; split <;> rfl
@[simp] theorem Context.setP_replayFull (c : Context) (r : Fin 8) (v : Bool) : (c.setP r v).replayFull = c.replayFull := by unfold Context.setP; split <;> rfl
@[simp] theorem Context.setP_logHeld (c : Context) (r : Fin 8) (v : Bool) : (c.setP r v).logHeld = c.logHeld := by unfold Context.setP; split <;> rfl
@[simp] theorem Context.setP_pend (c : Context) (r : Fin 8) (v : Bool) : (c.setP r v).pend = c.pend := by unfold Context.setP; split <;> rfl
@[simp] theorem Context.setP_resume (c : Context) (r : Fin 8) (v : Bool) : (c.setP r v).resume = c.resume := by unfold Context.setP; split <;> rfl
@[simp] theorem Context.setP_hresume (c : Context) (r : Fin 8) (v : Bool) : (c.setP r v).hresume = c.hresume := by unfold Context.setP; split <;> rfl
@[simp] theorem Context.setP_dead (c : Context) (r : Fin 8) (v : Bool) : (c.setP r v).dead = c.dead := by unfold Context.setP; split <;> rfl
@[simp] theorem Context.setP_haltReq (c : Context) (r : Fin 8) (v : Bool) : (c.setP r v).haltReq = c.haltReq := by unfold Context.setP; split <;> rfl
@[simp] theorem Context.setP_halted (c : Context) (r : Fin 8) (v : Bool) : (c.setP r v).halted = c.halted := by unfold Context.setP; split <;> rfl
@[simp] theorem Context.setP_waitMask (c : Context) (r : Fin 8) (v : Bool) : (c.setP r v).waitMask = c.waitMask := by unfold Context.setP; split <;> rfl
@[simp] theorem Context.setP_stepOf (c : Context) (r : Fin 8) (v : Bool) : (c.setP r v).stepOf = c.stepOf := by unfold Context.setP; split <;> rfl
@[simp] theorem Context.setP_retire (c : Context) (r : Fin 8) (v : Bool) : (c.setP r v).retire = c.retire := by unfold Context.setP; split <;> rfl
@[simp] theorem Context.setP_idle (c : Context) (r : Fin 8) (v : Bool) : (c.setP r v).idle = c.idle := by unfold Context.setP; split <;> rfl
@[simp] theorem Context.setP_asked (c : Context) (r : Fin 8) (v : Bool) : (c.setP r v).asked = c.asked := by unfold Context.setP; split <;> rfl
@[simp] theorem Context.setP_askedX (c : Context) (r : Fin 8) (v : Bool) : (c.setP r v).askedX = c.askedX := by unfold Context.setP; split <;> rfl
@[simp] theorem Context.setP_excuseTo (c : Context) (r : Fin 8) (v : Bool) : (c.setP r v).excuseTo = c.excuseTo := by unfold Context.setP; split <;> rfl
@[simp] theorem Context.setP_slow (c : Context) (r : Fin 8) (v : Bool) : (c.setP r v).slow = c.slow := by unfold Context.setP; split <;> rfl
@[simp] theorem Context.setP_issuedThen (c : Context) (r : Fin 8) (v : Bool) : (c.setP r v).issuedThen = c.issuedThen := by unfold Context.setP; split <;> rfl
@[simp] theorem Context.setP_upWait (c : Context) (r : Fin 8) (v : Bool) : (c.setP r v).upWait = c.upWait := by unfold Context.setP; split <;> rfl
@[simp] theorem Context.setP_fenceKept (c : Context) (r : Fin 8) (v : Bool) : (c.setP r v).fenceKept = c.fenceKept := by unfold Context.setP; split <;> rfl
@[simp] theorem Context.setP_tipSerial (c : Context) (r : Fin 8) (v : Bool) : (c.setP r v).tipSerial = c.tipSerial := by unfold Context.setP; split <;> rfl
@[simp] theorem Context.setP_rldHeld (c : Context) (r : Fin 8) (v : Bool) : (c.setP r v).rldHeld = c.rldHeld := by unfold Context.setP; split <;> rfl
@[simp] theorem Context.setP_replayBack (c : Context) (r : Fin 8) (v : Bool) : (c.setP r v).replayBack = c.replayBack := by unfold Context.setP; split <;> rfl
@[simp] theorem Context.setP_hwas (c : Context) (r : Fin 8) (v : Bool) : (c.setP r v).hwas = c.hwas := by unfold Context.setP; split <;> rfl
@[simp] theorem Context.setP_tcommitAt (c : Context) (r : Fin 8) (v : Bool) : (c.setP r v).tcommitAt = c.tcommitAt := by unfold Context.setP; split <;> rfl
@[simp] theorem Context.setP_ttr (c : Context) (r : Fin 8) (v : Bool) : (c.setP r v).ttr = c.ttr := by unfold Context.setP; split <;> rfl

@[simp] theorem Context.setA_turn (c : Context) (r : Fin 16) (v : Word) : (c.setA r v).turn = c.turn := by unfold Context.setA; split <;> rfl
@[simp] theorem Context.setA_x (c : Context) (r : Fin 16) (v : Word) : (c.setA r v).x = c.x := by unfold Context.setA; split <;> rfl
@[simp] theorem Context.setA_p (c : Context) (r : Fin 16) (v : Word) : (c.setA r v).p = c.p := by unfold Context.setA; split <;> rfl
@[simp] theorem Context.setA_b (c : Context) (r : Fin 16) (v : Word) : (c.setA r v).b = c.b := by unfold Context.setA; split <;> rfl
@[simp] theorem Context.setA_tok (c : Context) (r : Fin 16) (v : Word) : (c.setA r v).tok = c.tok := by unfold Context.setA; split <;> rfl
@[simp] theorem Context.setA_mb (c : Context) (r : Fin 16) (v : Word) : (c.setA r v).mb = c.mb := by unfold Context.setA; split <;> rfl
@[simp] theorem Context.setA_s (c : Context) (r : Fin 16) (v : Word) : (c.setA r v).s = c.s := by unfold Context.setA; split <;> rfl
@[simp] theorem Context.setA_m (c : Context) (r : Fin 16) (v : Word) : (c.setA r v).m = c.m := by unfold Context.setA; split <;> rfl
@[simp] theorem Context.setA_h (c : Context) (r : Fin 16) (v : Word) : (c.setA r v).h = c.h := by unfold Context.setA; split <;> rfl
@[simp] theorem Context.setA_vshape (c : Context) (r : Fin 16) (v : Word) : (c.setA r v).vshape = c.vshape := by unfold Context.setA; split <;> rfl
@[simp] theorem Context.setA_mfmt (c : Context) (r : Fin 16) (v : Word) : (c.setA r v).mfmt = c.mfmt := by unfold Context.setA; split <;> rfl
@[simp] theorem Context.setA_fflags (c : Context) (r : Fin 16) (v : Word) : (c.setA r v).fflags = c.fflags := by unfold Context.setA; split <;> rfl
@[simp] theorem Context.setA_strict (c : Context) (r : Fin 16) (v : Word) : (c.setA r v).strict = c.strict := by unfold Context.setA; split <;> rfl
@[simp] theorem Context.setA_q (c : Context) (r : Fin 16) (v : Word) : (c.setA r v).q = c.q := by unfold Context.setA; split <;> rfl
@[simp] theorem Context.setA_chans (c : Context) (r : Fin 16) (v : Word) : (c.setA r v).chans = c.chans := by unfold Context.setA; split <;> rfl
@[simp] theorem Context.setA_landing (c : Context) (r : Fin 16) (v : Word) : (c.setA r v).landing = c.landing := by unfold Context.setA; split <;> rfl
@[simp] theorem Context.setA_lbuf (c : Context) (r : Fin 16) (v : Word) : (c.setA r v).lbuf = c.lbuf := by unfold Context.setA; split <;> rfl
@[simp] theorem Context.setA_hbuf (c : Context) (r : Fin 16) (v : Word) : (c.setA r v).hbuf = c.hbuf := by unfold Context.setA; split <;> rfl
@[simp] theorem Context.setA_divBusy (c : Context) (r : Fin 16) (v : Word) : (c.setA r v).divBusy = c.divBusy := by unfold Context.setA; split <;> rfl
@[simp] theorem Context.setA_cs (c : Context) (r : Fin 16) (v : Word) : (c.setA r v).cs = c.cs := by unfold Context.setA; split <;> rfl
@[simp] theorem Context.setA_ts (c : Context) (r : Fin 16) (v : Word) : (c.setA r v).ts = c.ts := by unfold Context.setA; split <;> rfl
@[simp] theorem Context.setA_ms (c : Context) (r : Fin 16) (v : Word) : (c.setA r v).ms = c.ms := by unfold Context.setA; split <;> rfl
@[simp] theorem Context.setA_vs (c : Context) (r : Fin 16) (v : Word) : (c.setA r v).vs = c.vs := by unfold Context.setA; split <;> rfl
@[simp] theorem Context.setA_twin (c : Context) (r : Fin 16) (v : Word) : (c.setA r v).twin = c.twin := by unfold Context.setA; split <;> rfl
@[simp] theorem Context.setA_rldSlots (c : Context) (r : Fin 16) (v : Word) : (c.setA r v).rldSlots = c.rldSlots := by unfold Context.setA; split <;> rfl
@[simp] theorem Context.setA_rldBufs (c : Context) (r : Fin 16) (v : Word) : (c.setA r v).rldBufs = c.rldBufs := by unfold Context.setA; split <;> rfl
@[simp] theorem Context.setA_ranges (c : Context) (r : Fin 16) (v : Word) : (c.setA r v).ranges = c.ranges := by unfold Context.setA; split <;> rfl
@[simp] theorem Context.setA_vpend (c : Context) (r : Fin 16) (v : Word) : (c.setA r v).vpend = c.vpend := by unfold Context.setA; split <;> rfl
@[simp] theorem Context.setA_nest (c : Context) (r : Fin 16) (v : Word) : (c.setA r v).nest = c.nest := by unfold Context.setA; split <;> rfl
@[simp] theorem Context.setA_captured (c : Context) (r : Fin 16) (v : Word) : (c.setA r v).captured = c.captured := by unfold Context.setA; split <;> rfl
@[simp] theorem Context.setA_acc (c : Context) (r : Fin 16) (v : Word) : (c.setA r v).acc = c.acc := by unfold Context.setA; split <;> rfl
@[simp] theorem Context.setA_rowInt (c : Context) (r : Fin 16) (v : Word) : (c.setA r v).rowInt = c.rowInt := by unfold Context.setA; split <;> rfl
@[simp] theorem Context.setA_zeroing (c : Context) (r : Fin 16) (v : Word) : (c.setA r v).zeroing = c.zeroing := by unfold Context.setA; split <;> rfl
@[simp] theorem Context.setA_aggC (c : Context) (r : Fin 16) (v : Word) : (c.setA r v).aggC = c.aggC := by unfold Context.setA; split <;> rfl
@[simp] theorem Context.setA_aggT (c : Context) (r : Fin 16) (v : Word) : (c.setA r v).aggT = c.aggT := by unfold Context.setA; split <;> rfl
@[simp] theorem Context.setA_aggM (c : Context) (r : Fin 16) (v : Word) : (c.setA r v).aggM = c.aggM := by unfold Context.setA; split <;> rfl
@[simp] theorem Context.setA_pl (c : Context) (r : Fin 16) (v : Word) : (c.setA r v).pl = c.pl := by unfold Context.setA; split <;> rfl
@[simp] theorem Context.setA_ppl (c : Context) (r : Fin 16) (v : Word) : (c.setA r v).ppl = c.ppl := by unfold Context.setA; split <;> rfl
@[simp] theorem Context.setA_tip (c : Context) (r : Fin 16) (v : Word) : (c.setA r v).tip = c.tip := by unfold Context.setA; split <;> rfl
@[simp] theorem Context.setA_held (c : Context) (r : Fin 16) (v : Word) : (c.setA r v).held = c.held := by unfold Context.setA; split <;> rfl
@[simp] theorem Context.setA_cause (c : Context) (r : Fin 16) (v : Word) : (c.setA r v).cause = c.cause := by unfold Context.setA; split <;> rfl
@[simp] theorem Context.setA_epc (c : Context) (r : Fin 16) (v : Word) : (c.setA r v).epc = c.epc := by unfold Context.setA; split <;> rfl
@[simp] theorem Context.setA_faddr (c : Context) (r : Fin 16) (v : Word) : (c.setA r v).faddr = c.faddr := by unfold Context.setA; split <;> rfl
@[simp] theorem Context.setA_fpc (c : Context) (r : Fin 16) (v : Word) : (c.setA r v).fpc = c.fpc := by unfold Context.setA; split <;> rfl
@[simp] theorem Context.setA_fpc2 (c : Context) (r : Fin 16) (v : Word) : (c.setA r v).fpc2 = c.fpc2 := by unfold Context.setA; split <;> rfl
@[simp] theorem Context.setA_frec (c : Context) (r : Fin 16) (v : Word) : (c.setA r v).frec = c.frec := by unfold Context.setA; split <;> rfl
@[simp] theorem Context.setA_sscr (c : Context) (r : Fin 16) (v : Word) : (c.setA r v).sscr = c.sscr := by unfold Context.setA; split <;> rfl
@[simp] theorem Context.setA_limit (c : Context) (r : Fin 16) (v : Word) : (c.setA r v).limit = c.limit := by unfold Context.setA; split <;> rfl
@[simp] theorem Context.setA_net (c : Context) (r : Fin 16) (v : Word) : (c.setA r v).net = c.net := by unfold Context.setA; split <;> rfl
@[simp] theorem Context.setA_deadline (c : Context) (r : Fin 16) (v : Word) : (c.setA r v).deadline = c.deadline := by unfold Context.setA; split <;> rfl
@[simp] theorem Context.setA_occupancy (c : Context) (r : Fin 16) (v : Word) : (c.setA r v).occupancy = c.occupancy := by unfold Context.setA; split <;> rfl
@[simp] theorem Context.setA_excused (c : Context) (r : Fin 16) (v : Word) : (c.setA r v).excused = c.excused := by unfold Context.setA; split <;> rfl
@[simp] theorem Context.setA_dbgctl (c : Context) (r : Fin 16) (v : Word) : (c.setA r v).dbgctl = c.dbgctl := by unfold Context.setA; split <;> rfl
@[simp] theorem Context.setA_trctl (c : Context) (r : Fin 16) (v : Word) : (c.setA r v).trctl = c.trctl := by unfold Context.setA; split <;> rfl
@[simp] theorem Context.setA_trbase (c : Context) (r : Fin 16) (v : Word) : (c.setA r v).trbase = c.trbase := by unfold Context.setA; split <;> rfl
@[simp] theorem Context.setA_bdring (c : Context) (r : Fin 16) (v : Word) : (c.setA r v).bdring = c.bdring := by unfold Context.setA; split <;> rfl
@[simp] theorem Context.setA_rplog (c : Context) (r : Fin 16) (v : Word) : (c.setA r v).rplog = c.rplog := by unfold Context.setA; split <;> rfl
@[simp] theorem Context.setA_bpa (c : Context) (r : Fin 16) (v : Word) : (c.setA r v).bpa = c.bpa := by unfold Context.setA; split <;> rfl
@[simp] theorem Context.setA_bpi (c : Context) (r : Fin 16) (v : Word) : (c.setA r v).bpi = c.bpi := by unfold Context.setA; split <;> rfl
@[simp] theorem Context.setA_boardSeq (c : Context) (r : Fin 16) (v : Word) : (c.setA r v).boardSeq = c.boardSeq := by unfold Context.setA; split <;> rfl
@[simp] theorem Context.setA_boardSkip (c : Context) (r : Fin 16) (v : Word) : (c.setA r v).boardSkip = c.boardSkip := by unfold Context.setA; split <;> rfl
@[simp] theorem Context.setA_boardBusy (c : Context) (r : Fin 16) (v : Word) : (c.setA r v).boardBusy = c.boardBusy := by unfold Context.setA; split <;> rfl
@[simp] theorem Context.setA_replayAt (c : Context) (r : Fin 16) (v : Word) : (c.setA r v).replayAt = c.replayAt := by unfold Context.setA; split <;> rfl
@[simp] theorem Context.setA_replayOff (c : Context) (r : Fin 16) (v : Word) : (c.setA r v).replayOff = c.replayOff := by unfold Context.setA; split <;> rfl
@[simp] theorem Context.setA_replayFull (c : Context) (r : Fin 16) (v : Word) : (c.setA r v).replayFull = c.replayFull := by unfold Context.setA; split <;> rfl
@[simp] theorem Context.setA_logHeld (c : Context) (r : Fin 16) (v : Word) : (c.setA r v).logHeld = c.logHeld := by unfold Context.setA; split <;> rfl
@[simp] theorem Context.setA_pend (c : Context) (r : Fin 16) (v : Word) : (c.setA r v).pend = c.pend := by unfold Context.setA; split <;> rfl
@[simp] theorem Context.setA_resume (c : Context) (r : Fin 16) (v : Word) : (c.setA r v).resume = c.resume := by unfold Context.setA; split <;> rfl
@[simp] theorem Context.setA_hresume (c : Context) (r : Fin 16) (v : Word) : (c.setA r v).hresume = c.hresume := by unfold Context.setA; split <;> rfl
@[simp] theorem Context.setA_dead (c : Context) (r : Fin 16) (v : Word) : (c.setA r v).dead = c.dead := by unfold Context.setA; split <;> rfl
@[simp] theorem Context.setA_haltReq (c : Context) (r : Fin 16) (v : Word) : (c.setA r v).haltReq = c.haltReq := by unfold Context.setA; split <;> rfl
@[simp] theorem Context.setA_halted (c : Context) (r : Fin 16) (v : Word) : (c.setA r v).halted = c.halted := by unfold Context.setA; split <;> rfl
@[simp] theorem Context.setA_waitMask (c : Context) (r : Fin 16) (v : Word) : (c.setA r v).waitMask = c.waitMask := by unfold Context.setA; split <;> rfl
@[simp] theorem Context.setA_stepOf (c : Context) (r : Fin 16) (v : Word) : (c.setA r v).stepOf = c.stepOf := by unfold Context.setA; split <;> rfl
@[simp] theorem Context.setA_retire (c : Context) (r : Fin 16) (v : Word) : (c.setA r v).retire = c.retire := by unfold Context.setA; split <;> rfl
@[simp] theorem Context.setA_idle (c : Context) (r : Fin 16) (v : Word) : (c.setA r v).idle = c.idle := by unfold Context.setA; split <;> rfl
@[simp] theorem Context.setA_asked (c : Context) (r : Fin 16) (v : Word) : (c.setA r v).asked = c.asked := by unfold Context.setA; split <;> rfl
@[simp] theorem Context.setA_askedX (c : Context) (r : Fin 16) (v : Word) : (c.setA r v).askedX = c.askedX := by unfold Context.setA; split <;> rfl
@[simp] theorem Context.setA_excuseTo (c : Context) (r : Fin 16) (v : Word) : (c.setA r v).excuseTo = c.excuseTo := by unfold Context.setA; split <;> rfl
@[simp] theorem Context.setA_slow (c : Context) (r : Fin 16) (v : Word) : (c.setA r v).slow = c.slow := by unfold Context.setA; split <;> rfl
@[simp] theorem Context.setA_issuedThen (c : Context) (r : Fin 16) (v : Word) : (c.setA r v).issuedThen = c.issuedThen := by unfold Context.setA; split <;> rfl
@[simp] theorem Context.setA_upWait (c : Context) (r : Fin 16) (v : Word) : (c.setA r v).upWait = c.upWait := by unfold Context.setA; split <;> rfl
@[simp] theorem Context.setA_fenceKept (c : Context) (r : Fin 16) (v : Word) : (c.setA r v).fenceKept = c.fenceKept := by unfold Context.setA; split <;> rfl
@[simp] theorem Context.setA_tipSerial (c : Context) (r : Fin 16) (v : Word) : (c.setA r v).tipSerial = c.tipSerial := by unfold Context.setA; split <;> rfl
@[simp] theorem Context.setA_rldHeld (c : Context) (r : Fin 16) (v : Word) : (c.setA r v).rldHeld = c.rldHeld := by unfold Context.setA; split <;> rfl
@[simp] theorem Context.setA_replayBack (c : Context) (r : Fin 16) (v : Word) : (c.setA r v).replayBack = c.replayBack := by unfold Context.setA; split <;> rfl
@[simp] theorem Context.setA_hwas (c : Context) (r : Fin 16) (v : Word) : (c.setA r v).hwas = c.hwas := by unfold Context.setA; split <;> rfl
@[simp] theorem Context.setA_tcommitAt (c : Context) (r : Fin 16) (v : Word) : (c.setA r v).tcommitAt = c.tcommitAt := by unfold Context.setA; split <;> rfl
@[simp] theorem Context.setA_ttr (c : Context) (r : Fin 16) (v : Word) : (c.setA r v).ttr = c.ttr := by unfold Context.setA; split <;> rfl

@[simp] theorem Context.setM_turn (c : Context) (r : Fin 8) (v : BitVec 256) : (c.setM r v).turn = c.turn := by unfold Context.setM; split <;> rfl
@[simp] theorem Context.setM_x (c : Context) (r : Fin 8) (v : BitVec 256) : (c.setM r v).x = c.x := by unfold Context.setM; split <;> rfl
@[simp] theorem Context.setM_p (c : Context) (r : Fin 8) (v : BitVec 256) : (c.setM r v).p = c.p := by unfold Context.setM; split <;> rfl
@[simp] theorem Context.setM_b (c : Context) (r : Fin 8) (v : BitVec 256) : (c.setM r v).b = c.b := by unfold Context.setM; split <;> rfl
@[simp] theorem Context.setM_tok (c : Context) (r : Fin 8) (v : BitVec 256) : (c.setM r v).tok = c.tok := by unfold Context.setM; split <;> rfl
@[simp] theorem Context.setM_a (c : Context) (r : Fin 8) (v : BitVec 256) : (c.setM r v).a = c.a := by unfold Context.setM; split <;> rfl
@[simp] theorem Context.setM_mb (c : Context) (r : Fin 8) (v : BitVec 256) : (c.setM r v).mb = c.mb := by unfold Context.setM; split <;> rfl
@[simp] theorem Context.setM_s (c : Context) (r : Fin 8) (v : BitVec 256) : (c.setM r v).s = c.s := by unfold Context.setM; split <;> rfl
@[simp] theorem Context.setM_h (c : Context) (r : Fin 8) (v : BitVec 256) : (c.setM r v).h = c.h := by unfold Context.setM; split <;> rfl
@[simp] theorem Context.setM_vshape (c : Context) (r : Fin 8) (v : BitVec 256) : (c.setM r v).vshape = c.vshape := by unfold Context.setM; split <;> rfl
@[simp] theorem Context.setM_mfmt (c : Context) (r : Fin 8) (v : BitVec 256) : (c.setM r v).mfmt = c.mfmt := by unfold Context.setM; split <;> rfl
@[simp] theorem Context.setM_fflags (c : Context) (r : Fin 8) (v : BitVec 256) : (c.setM r v).fflags = c.fflags := by unfold Context.setM; split <;> rfl
@[simp] theorem Context.setM_strict (c : Context) (r : Fin 8) (v : BitVec 256) : (c.setM r v).strict = c.strict := by unfold Context.setM; split <;> rfl
@[simp] theorem Context.setM_q (c : Context) (r : Fin 8) (v : BitVec 256) : (c.setM r v).q = c.q := by unfold Context.setM; split <;> rfl
@[simp] theorem Context.setM_chans (c : Context) (r : Fin 8) (v : BitVec 256) : (c.setM r v).chans = c.chans := by unfold Context.setM; split <;> rfl
@[simp] theorem Context.setM_landing (c : Context) (r : Fin 8) (v : BitVec 256) : (c.setM r v).landing = c.landing := by unfold Context.setM; split <;> rfl
@[simp] theorem Context.setM_lbuf (c : Context) (r : Fin 8) (v : BitVec 256) : (c.setM r v).lbuf = c.lbuf := by unfold Context.setM; split <;> rfl
@[simp] theorem Context.setM_hbuf (c : Context) (r : Fin 8) (v : BitVec 256) : (c.setM r v).hbuf = c.hbuf := by unfold Context.setM; split <;> rfl
@[simp] theorem Context.setM_divBusy (c : Context) (r : Fin 8) (v : BitVec 256) : (c.setM r v).divBusy = c.divBusy := by unfold Context.setM; split <;> rfl
@[simp] theorem Context.setM_cs (c : Context) (r : Fin 8) (v : BitVec 256) : (c.setM r v).cs = c.cs := by unfold Context.setM; split <;> rfl
@[simp] theorem Context.setM_ts (c : Context) (r : Fin 8) (v : BitVec 256) : (c.setM r v).ts = c.ts := by unfold Context.setM; split <;> rfl
@[simp] theorem Context.setM_ms (c : Context) (r : Fin 8) (v : BitVec 256) : (c.setM r v).ms = c.ms := by unfold Context.setM; split <;> rfl
@[simp] theorem Context.setM_vs (c : Context) (r : Fin 8) (v : BitVec 256) : (c.setM r v).vs = c.vs := by unfold Context.setM; split <;> rfl
@[simp] theorem Context.setM_twin (c : Context) (r : Fin 8) (v : BitVec 256) : (c.setM r v).twin = c.twin := by unfold Context.setM; split <;> rfl
@[simp] theorem Context.setM_rldSlots (c : Context) (r : Fin 8) (v : BitVec 256) : (c.setM r v).rldSlots = c.rldSlots := by unfold Context.setM; split <;> rfl
@[simp] theorem Context.setM_rldBufs (c : Context) (r : Fin 8) (v : BitVec 256) : (c.setM r v).rldBufs = c.rldBufs := by unfold Context.setM; split <;> rfl
@[simp] theorem Context.setM_ranges (c : Context) (r : Fin 8) (v : BitVec 256) : (c.setM r v).ranges = c.ranges := by unfold Context.setM; split <;> rfl
@[simp] theorem Context.setM_vpend (c : Context) (r : Fin 8) (v : BitVec 256) : (c.setM r v).vpend = c.vpend := by unfold Context.setM; split <;> rfl
@[simp] theorem Context.setM_nest (c : Context) (r : Fin 8) (v : BitVec 256) : (c.setM r v).nest = c.nest := by unfold Context.setM; split <;> rfl
@[simp] theorem Context.setM_captured (c : Context) (r : Fin 8) (v : BitVec 256) : (c.setM r v).captured = c.captured := by unfold Context.setM; split <;> rfl
@[simp] theorem Context.setM_acc (c : Context) (r : Fin 8) (v : BitVec 256) : (c.setM r v).acc = c.acc := by unfold Context.setM; split <;> rfl
@[simp] theorem Context.setM_rowInt (c : Context) (r : Fin 8) (v : BitVec 256) : (c.setM r v).rowInt = c.rowInt := by unfold Context.setM; split <;> rfl
@[simp] theorem Context.setM_zeroing (c : Context) (r : Fin 8) (v : BitVec 256) : (c.setM r v).zeroing = c.zeroing := by unfold Context.setM; split <;> rfl
@[simp] theorem Context.setM_aggC (c : Context) (r : Fin 8) (v : BitVec 256) : (c.setM r v).aggC = c.aggC := by unfold Context.setM; split <;> rfl
@[simp] theorem Context.setM_aggT (c : Context) (r : Fin 8) (v : BitVec 256) : (c.setM r v).aggT = c.aggT := by unfold Context.setM; split <;> rfl
@[simp] theorem Context.setM_aggM (c : Context) (r : Fin 8) (v : BitVec 256) : (c.setM r v).aggM = c.aggM := by unfold Context.setM; split <;> rfl
@[simp] theorem Context.setM_pl (c : Context) (r : Fin 8) (v : BitVec 256) : (c.setM r v).pl = c.pl := by unfold Context.setM; split <;> rfl
@[simp] theorem Context.setM_ppl (c : Context) (r : Fin 8) (v : BitVec 256) : (c.setM r v).ppl = c.ppl := by unfold Context.setM; split <;> rfl
@[simp] theorem Context.setM_tip (c : Context) (r : Fin 8) (v : BitVec 256) : (c.setM r v).tip = c.tip := by unfold Context.setM; split <;> rfl
@[simp] theorem Context.setM_held (c : Context) (r : Fin 8) (v : BitVec 256) : (c.setM r v).held = c.held := by unfold Context.setM; split <;> rfl
@[simp] theorem Context.setM_cause (c : Context) (r : Fin 8) (v : BitVec 256) : (c.setM r v).cause = c.cause := by unfold Context.setM; split <;> rfl
@[simp] theorem Context.setM_epc (c : Context) (r : Fin 8) (v : BitVec 256) : (c.setM r v).epc = c.epc := by unfold Context.setM; split <;> rfl
@[simp] theorem Context.setM_faddr (c : Context) (r : Fin 8) (v : BitVec 256) : (c.setM r v).faddr = c.faddr := by unfold Context.setM; split <;> rfl
@[simp] theorem Context.setM_fpc (c : Context) (r : Fin 8) (v : BitVec 256) : (c.setM r v).fpc = c.fpc := by unfold Context.setM; split <;> rfl
@[simp] theorem Context.setM_fpc2 (c : Context) (r : Fin 8) (v : BitVec 256) : (c.setM r v).fpc2 = c.fpc2 := by unfold Context.setM; split <;> rfl
@[simp] theorem Context.setM_frec (c : Context) (r : Fin 8) (v : BitVec 256) : (c.setM r v).frec = c.frec := by unfold Context.setM; split <;> rfl
@[simp] theorem Context.setM_sscr (c : Context) (r : Fin 8) (v : BitVec 256) : (c.setM r v).sscr = c.sscr := by unfold Context.setM; split <;> rfl
@[simp] theorem Context.setM_limit (c : Context) (r : Fin 8) (v : BitVec 256) : (c.setM r v).limit = c.limit := by unfold Context.setM; split <;> rfl
@[simp] theorem Context.setM_net (c : Context) (r : Fin 8) (v : BitVec 256) : (c.setM r v).net = c.net := by unfold Context.setM; split <;> rfl
@[simp] theorem Context.setM_deadline (c : Context) (r : Fin 8) (v : BitVec 256) : (c.setM r v).deadline = c.deadline := by unfold Context.setM; split <;> rfl
@[simp] theorem Context.setM_occupancy (c : Context) (r : Fin 8) (v : BitVec 256) : (c.setM r v).occupancy = c.occupancy := by unfold Context.setM; split <;> rfl
@[simp] theorem Context.setM_excused (c : Context) (r : Fin 8) (v : BitVec 256) : (c.setM r v).excused = c.excused := by unfold Context.setM; split <;> rfl
@[simp] theorem Context.setM_dbgctl (c : Context) (r : Fin 8) (v : BitVec 256) : (c.setM r v).dbgctl = c.dbgctl := by unfold Context.setM; split <;> rfl
@[simp] theorem Context.setM_trctl (c : Context) (r : Fin 8) (v : BitVec 256) : (c.setM r v).trctl = c.trctl := by unfold Context.setM; split <;> rfl
@[simp] theorem Context.setM_trbase (c : Context) (r : Fin 8) (v : BitVec 256) : (c.setM r v).trbase = c.trbase := by unfold Context.setM; split <;> rfl
@[simp] theorem Context.setM_bdring (c : Context) (r : Fin 8) (v : BitVec 256) : (c.setM r v).bdring = c.bdring := by unfold Context.setM; split <;> rfl
@[simp] theorem Context.setM_rplog (c : Context) (r : Fin 8) (v : BitVec 256) : (c.setM r v).rplog = c.rplog := by unfold Context.setM; split <;> rfl
@[simp] theorem Context.setM_bpa (c : Context) (r : Fin 8) (v : BitVec 256) : (c.setM r v).bpa = c.bpa := by unfold Context.setM; split <;> rfl
@[simp] theorem Context.setM_bpi (c : Context) (r : Fin 8) (v : BitVec 256) : (c.setM r v).bpi = c.bpi := by unfold Context.setM; split <;> rfl
@[simp] theorem Context.setM_boardSeq (c : Context) (r : Fin 8) (v : BitVec 256) : (c.setM r v).boardSeq = c.boardSeq := by unfold Context.setM; split <;> rfl
@[simp] theorem Context.setM_boardSkip (c : Context) (r : Fin 8) (v : BitVec 256) : (c.setM r v).boardSkip = c.boardSkip := by unfold Context.setM; split <;> rfl
@[simp] theorem Context.setM_boardBusy (c : Context) (r : Fin 8) (v : BitVec 256) : (c.setM r v).boardBusy = c.boardBusy := by unfold Context.setM; split <;> rfl
@[simp] theorem Context.setM_replayAt (c : Context) (r : Fin 8) (v : BitVec 256) : (c.setM r v).replayAt = c.replayAt := by unfold Context.setM; split <;> rfl
@[simp] theorem Context.setM_replayOff (c : Context) (r : Fin 8) (v : BitVec 256) : (c.setM r v).replayOff = c.replayOff := by unfold Context.setM; split <;> rfl
@[simp] theorem Context.setM_replayFull (c : Context) (r : Fin 8) (v : BitVec 256) : (c.setM r v).replayFull = c.replayFull := by unfold Context.setM; split <;> rfl
@[simp] theorem Context.setM_logHeld (c : Context) (r : Fin 8) (v : BitVec 256) : (c.setM r v).logHeld = c.logHeld := by unfold Context.setM; split <;> rfl
@[simp] theorem Context.setM_pend (c : Context) (r : Fin 8) (v : BitVec 256) : (c.setM r v).pend = c.pend := by unfold Context.setM; split <;> rfl
@[simp] theorem Context.setM_resume (c : Context) (r : Fin 8) (v : BitVec 256) : (c.setM r v).resume = c.resume := by unfold Context.setM; split <;> rfl
@[simp] theorem Context.setM_hresume (c : Context) (r : Fin 8) (v : BitVec 256) : (c.setM r v).hresume = c.hresume := by unfold Context.setM; split <;> rfl
@[simp] theorem Context.setM_dead (c : Context) (r : Fin 8) (v : BitVec 256) : (c.setM r v).dead = c.dead := by unfold Context.setM; split <;> rfl
@[simp] theorem Context.setM_haltReq (c : Context) (r : Fin 8) (v : BitVec 256) : (c.setM r v).haltReq = c.haltReq := by unfold Context.setM; split <;> rfl
@[simp] theorem Context.setM_halted (c : Context) (r : Fin 8) (v : BitVec 256) : (c.setM r v).halted = c.halted := by unfold Context.setM; split <;> rfl
@[simp] theorem Context.setM_waitMask (c : Context) (r : Fin 8) (v : BitVec 256) : (c.setM r v).waitMask = c.waitMask := by unfold Context.setM; split <;> rfl
@[simp] theorem Context.setM_stepOf (c : Context) (r : Fin 8) (v : BitVec 256) : (c.setM r v).stepOf = c.stepOf := by unfold Context.setM; split <;> rfl
@[simp] theorem Context.setM_retire (c : Context) (r : Fin 8) (v : BitVec 256) : (c.setM r v).retire = c.retire := by unfold Context.setM; split <;> rfl
@[simp] theorem Context.setM_idle (c : Context) (r : Fin 8) (v : BitVec 256) : (c.setM r v).idle = c.idle := by unfold Context.setM; split <;> rfl
@[simp] theorem Context.setM_asked (c : Context) (r : Fin 8) (v : BitVec 256) : (c.setM r v).asked = c.asked := by unfold Context.setM; split <;> rfl
@[simp] theorem Context.setM_askedX (c : Context) (r : Fin 8) (v : BitVec 256) : (c.setM r v).askedX = c.askedX := by unfold Context.setM; split <;> rfl
@[simp] theorem Context.setM_excuseTo (c : Context) (r : Fin 8) (v : BitVec 256) : (c.setM r v).excuseTo = c.excuseTo := by unfold Context.setM; split <;> rfl
@[simp] theorem Context.setM_slow (c : Context) (r : Fin 8) (v : BitVec 256) : (c.setM r v).slow = c.slow := by unfold Context.setM; split <;> rfl
@[simp] theorem Context.setM_issuedThen (c : Context) (r : Fin 8) (v : BitVec 256) : (c.setM r v).issuedThen = c.issuedThen := by unfold Context.setM; split <;> rfl
@[simp] theorem Context.setM_upWait (c : Context) (r : Fin 8) (v : BitVec 256) : (c.setM r v).upWait = c.upWait := by unfold Context.setM; split <;> rfl
@[simp] theorem Context.setM_fenceKept (c : Context) (r : Fin 8) (v : BitVec 256) : (c.setM r v).fenceKept = c.fenceKept := by unfold Context.setM; split <;> rfl
@[simp] theorem Context.setM_tipSerial (c : Context) (r : Fin 8) (v : BitVec 256) : (c.setM r v).tipSerial = c.tipSerial := by unfold Context.setM; split <;> rfl
@[simp] theorem Context.setM_rldHeld (c : Context) (r : Fin 8) (v : BitVec 256) : (c.setM r v).rldHeld = c.rldHeld := by unfold Context.setM; split <;> rfl
@[simp] theorem Context.setM_replayBack (c : Context) (r : Fin 8) (v : BitVec 256) : (c.setM r v).replayBack = c.replayBack := by unfold Context.setM; split <;> rfl
@[simp] theorem Context.setM_hwas (c : Context) (r : Fin 8) (v : BitVec 256) : (c.setM r v).hwas = c.hwas := by unfold Context.setM; split <;> rfl
@[simp] theorem Context.setM_tcommitAt (c : Context) (r : Fin 8) (v : BitVec 256) : (c.setM r v).tcommitAt = c.tcommitAt := by unfold Context.setM; split <;> rfl
@[simp] theorem Context.setM_ttr (c : Context) (r : Fin 8) (v : BitVec 256) : (c.setM r v).ttr = c.ttr := by unfold Context.setM; split <;> rfl

@[simp] theorem Context.setH_turn (c : Context) (r : Fin 16) (v : BitVec 16) : (c.setH r v).turn = c.turn := by unfold Context.setH; split <;> rfl
@[simp] theorem Context.setH_x (c : Context) (r : Fin 16) (v : BitVec 16) : (c.setH r v).x = c.x := by unfold Context.setH; split <;> rfl
@[simp] theorem Context.setH_p (c : Context) (r : Fin 16) (v : BitVec 16) : (c.setH r v).p = c.p := by unfold Context.setH; split <;> rfl
@[simp] theorem Context.setH_b (c : Context) (r : Fin 16) (v : BitVec 16) : (c.setH r v).b = c.b := by unfold Context.setH; split <;> rfl
@[simp] theorem Context.setH_tok (c : Context) (r : Fin 16) (v : BitVec 16) : (c.setH r v).tok = c.tok := by unfold Context.setH; split <;> rfl
@[simp] theorem Context.setH_a (c : Context) (r : Fin 16) (v : BitVec 16) : (c.setH r v).a = c.a := by unfold Context.setH; split <;> rfl
@[simp] theorem Context.setH_mb (c : Context) (r : Fin 16) (v : BitVec 16) : (c.setH r v).mb = c.mb := by unfold Context.setH; split <;> rfl
@[simp] theorem Context.setH_s (c : Context) (r : Fin 16) (v : BitVec 16) : (c.setH r v).s = c.s := by unfold Context.setH; split <;> rfl
@[simp] theorem Context.setH_m (c : Context) (r : Fin 16) (v : BitVec 16) : (c.setH r v).m = c.m := by unfold Context.setH; split <;> rfl
@[simp] theorem Context.setH_vshape (c : Context) (r : Fin 16) (v : BitVec 16) : (c.setH r v).vshape = c.vshape := by unfold Context.setH; split <;> rfl
@[simp] theorem Context.setH_mfmt (c : Context) (r : Fin 16) (v : BitVec 16) : (c.setH r v).mfmt = c.mfmt := by unfold Context.setH; split <;> rfl
@[simp] theorem Context.setH_fflags (c : Context) (r : Fin 16) (v : BitVec 16) : (c.setH r v).fflags = c.fflags := by unfold Context.setH; split <;> rfl
@[simp] theorem Context.setH_strict (c : Context) (r : Fin 16) (v : BitVec 16) : (c.setH r v).strict = c.strict := by unfold Context.setH; split <;> rfl
@[simp] theorem Context.setH_q (c : Context) (r : Fin 16) (v : BitVec 16) : (c.setH r v).q = c.q := by unfold Context.setH; split <;> rfl
@[simp] theorem Context.setH_chans (c : Context) (r : Fin 16) (v : BitVec 16) : (c.setH r v).chans = c.chans := by unfold Context.setH; split <;> rfl
@[simp] theorem Context.setH_landing (c : Context) (r : Fin 16) (v : BitVec 16) : (c.setH r v).landing = c.landing := by unfold Context.setH; split <;> rfl
@[simp] theorem Context.setH_lbuf (c : Context) (r : Fin 16) (v : BitVec 16) : (c.setH r v).lbuf = c.lbuf := by unfold Context.setH; split <;> rfl
@[simp] theorem Context.setH_hbuf (c : Context) (r : Fin 16) (v : BitVec 16) : (c.setH r v).hbuf = c.hbuf := by unfold Context.setH; split <;> rfl
@[simp] theorem Context.setH_divBusy (c : Context) (r : Fin 16) (v : BitVec 16) : (c.setH r v).divBusy = c.divBusy := by unfold Context.setH; split <;> rfl
@[simp] theorem Context.setH_cs (c : Context) (r : Fin 16) (v : BitVec 16) : (c.setH r v).cs = c.cs := by unfold Context.setH; split <;> rfl
@[simp] theorem Context.setH_ts (c : Context) (r : Fin 16) (v : BitVec 16) : (c.setH r v).ts = c.ts := by unfold Context.setH; split <;> rfl
@[simp] theorem Context.setH_ms (c : Context) (r : Fin 16) (v : BitVec 16) : (c.setH r v).ms = c.ms := by unfold Context.setH; split <;> rfl
@[simp] theorem Context.setH_vs (c : Context) (r : Fin 16) (v : BitVec 16) : (c.setH r v).vs = c.vs := by unfold Context.setH; split <;> rfl
@[simp] theorem Context.setH_twin (c : Context) (r : Fin 16) (v : BitVec 16) : (c.setH r v).twin = c.twin := by unfold Context.setH; split <;> rfl
@[simp] theorem Context.setH_rldSlots (c : Context) (r : Fin 16) (v : BitVec 16) : (c.setH r v).rldSlots = c.rldSlots := by unfold Context.setH; split <;> rfl
@[simp] theorem Context.setH_rldBufs (c : Context) (r : Fin 16) (v : BitVec 16) : (c.setH r v).rldBufs = c.rldBufs := by unfold Context.setH; split <;> rfl
@[simp] theorem Context.setH_ranges (c : Context) (r : Fin 16) (v : BitVec 16) : (c.setH r v).ranges = c.ranges := by unfold Context.setH; split <;> rfl
@[simp] theorem Context.setH_vpend (c : Context) (r : Fin 16) (v : BitVec 16) : (c.setH r v).vpend = c.vpend := by unfold Context.setH; split <;> rfl
@[simp] theorem Context.setH_nest (c : Context) (r : Fin 16) (v : BitVec 16) : (c.setH r v).nest = c.nest := by unfold Context.setH; split <;> rfl
@[simp] theorem Context.setH_captured (c : Context) (r : Fin 16) (v : BitVec 16) : (c.setH r v).captured = c.captured := by unfold Context.setH; split <;> rfl
@[simp] theorem Context.setH_acc (c : Context) (r : Fin 16) (v : BitVec 16) : (c.setH r v).acc = c.acc := by unfold Context.setH; split <;> rfl
@[simp] theorem Context.setH_rowInt (c : Context) (r : Fin 16) (v : BitVec 16) : (c.setH r v).rowInt = c.rowInt := by unfold Context.setH; split <;> rfl
@[simp] theorem Context.setH_zeroing (c : Context) (r : Fin 16) (v : BitVec 16) : (c.setH r v).zeroing = c.zeroing := by unfold Context.setH; split <;> rfl
@[simp] theorem Context.setH_aggC (c : Context) (r : Fin 16) (v : BitVec 16) : (c.setH r v).aggC = c.aggC := by unfold Context.setH; split <;> rfl
@[simp] theorem Context.setH_aggT (c : Context) (r : Fin 16) (v : BitVec 16) : (c.setH r v).aggT = c.aggT := by unfold Context.setH; split <;> rfl
@[simp] theorem Context.setH_aggM (c : Context) (r : Fin 16) (v : BitVec 16) : (c.setH r v).aggM = c.aggM := by unfold Context.setH; split <;> rfl
@[simp] theorem Context.setH_pl (c : Context) (r : Fin 16) (v : BitVec 16) : (c.setH r v).pl = c.pl := by unfold Context.setH; split <;> rfl
@[simp] theorem Context.setH_ppl (c : Context) (r : Fin 16) (v : BitVec 16) : (c.setH r v).ppl = c.ppl := by unfold Context.setH; split <;> rfl
@[simp] theorem Context.setH_tip (c : Context) (r : Fin 16) (v : BitVec 16) : (c.setH r v).tip = c.tip := by unfold Context.setH; split <;> rfl
@[simp] theorem Context.setH_held (c : Context) (r : Fin 16) (v : BitVec 16) : (c.setH r v).held = c.held := by unfold Context.setH; split <;> rfl
@[simp] theorem Context.setH_cause (c : Context) (r : Fin 16) (v : BitVec 16) : (c.setH r v).cause = c.cause := by unfold Context.setH; split <;> rfl
@[simp] theorem Context.setH_epc (c : Context) (r : Fin 16) (v : BitVec 16) : (c.setH r v).epc = c.epc := by unfold Context.setH; split <;> rfl
@[simp] theorem Context.setH_faddr (c : Context) (r : Fin 16) (v : BitVec 16) : (c.setH r v).faddr = c.faddr := by unfold Context.setH; split <;> rfl
@[simp] theorem Context.setH_fpc (c : Context) (r : Fin 16) (v : BitVec 16) : (c.setH r v).fpc = c.fpc := by unfold Context.setH; split <;> rfl
@[simp] theorem Context.setH_fpc2 (c : Context) (r : Fin 16) (v : BitVec 16) : (c.setH r v).fpc2 = c.fpc2 := by unfold Context.setH; split <;> rfl
@[simp] theorem Context.setH_frec (c : Context) (r : Fin 16) (v : BitVec 16) : (c.setH r v).frec = c.frec := by unfold Context.setH; split <;> rfl
@[simp] theorem Context.setH_sscr (c : Context) (r : Fin 16) (v : BitVec 16) : (c.setH r v).sscr = c.sscr := by unfold Context.setH; split <;> rfl
@[simp] theorem Context.setH_limit (c : Context) (r : Fin 16) (v : BitVec 16) : (c.setH r v).limit = c.limit := by unfold Context.setH; split <;> rfl
@[simp] theorem Context.setH_net (c : Context) (r : Fin 16) (v : BitVec 16) : (c.setH r v).net = c.net := by unfold Context.setH; split <;> rfl
@[simp] theorem Context.setH_deadline (c : Context) (r : Fin 16) (v : BitVec 16) : (c.setH r v).deadline = c.deadline := by unfold Context.setH; split <;> rfl
@[simp] theorem Context.setH_occupancy (c : Context) (r : Fin 16) (v : BitVec 16) : (c.setH r v).occupancy = c.occupancy := by unfold Context.setH; split <;> rfl
@[simp] theorem Context.setH_excused (c : Context) (r : Fin 16) (v : BitVec 16) : (c.setH r v).excused = c.excused := by unfold Context.setH; split <;> rfl
@[simp] theorem Context.setH_dbgctl (c : Context) (r : Fin 16) (v : BitVec 16) : (c.setH r v).dbgctl = c.dbgctl := by unfold Context.setH; split <;> rfl
@[simp] theorem Context.setH_trctl (c : Context) (r : Fin 16) (v : BitVec 16) : (c.setH r v).trctl = c.trctl := by unfold Context.setH; split <;> rfl
@[simp] theorem Context.setH_trbase (c : Context) (r : Fin 16) (v : BitVec 16) : (c.setH r v).trbase = c.trbase := by unfold Context.setH; split <;> rfl
@[simp] theorem Context.setH_bdring (c : Context) (r : Fin 16) (v : BitVec 16) : (c.setH r v).bdring = c.bdring := by unfold Context.setH; split <;> rfl
@[simp] theorem Context.setH_rplog (c : Context) (r : Fin 16) (v : BitVec 16) : (c.setH r v).rplog = c.rplog := by unfold Context.setH; split <;> rfl
@[simp] theorem Context.setH_bpa (c : Context) (r : Fin 16) (v : BitVec 16) : (c.setH r v).bpa = c.bpa := by unfold Context.setH; split <;> rfl
@[simp] theorem Context.setH_bpi (c : Context) (r : Fin 16) (v : BitVec 16) : (c.setH r v).bpi = c.bpi := by unfold Context.setH; split <;> rfl
@[simp] theorem Context.setH_boardSeq (c : Context) (r : Fin 16) (v : BitVec 16) : (c.setH r v).boardSeq = c.boardSeq := by unfold Context.setH; split <;> rfl
@[simp] theorem Context.setH_boardSkip (c : Context) (r : Fin 16) (v : BitVec 16) : (c.setH r v).boardSkip = c.boardSkip := by unfold Context.setH; split <;> rfl
@[simp] theorem Context.setH_boardBusy (c : Context) (r : Fin 16) (v : BitVec 16) : (c.setH r v).boardBusy = c.boardBusy := by unfold Context.setH; split <;> rfl
@[simp] theorem Context.setH_replayAt (c : Context) (r : Fin 16) (v : BitVec 16) : (c.setH r v).replayAt = c.replayAt := by unfold Context.setH; split <;> rfl
@[simp] theorem Context.setH_replayOff (c : Context) (r : Fin 16) (v : BitVec 16) : (c.setH r v).replayOff = c.replayOff := by unfold Context.setH; split <;> rfl
@[simp] theorem Context.setH_replayFull (c : Context) (r : Fin 16) (v : BitVec 16) : (c.setH r v).replayFull = c.replayFull := by unfold Context.setH; split <;> rfl
@[simp] theorem Context.setH_logHeld (c : Context) (r : Fin 16) (v : BitVec 16) : (c.setH r v).logHeld = c.logHeld := by unfold Context.setH; split <;> rfl
@[simp] theorem Context.setH_pend (c : Context) (r : Fin 16) (v : BitVec 16) : (c.setH r v).pend = c.pend := by unfold Context.setH; split <;> rfl
@[simp] theorem Context.setH_resume (c : Context) (r : Fin 16) (v : BitVec 16) : (c.setH r v).resume = c.resume := by unfold Context.setH; split <;> rfl
@[simp] theorem Context.setH_hresume (c : Context) (r : Fin 16) (v : BitVec 16) : (c.setH r v).hresume = c.hresume := by unfold Context.setH; split <;> rfl
@[simp] theorem Context.setH_dead (c : Context) (r : Fin 16) (v : BitVec 16) : (c.setH r v).dead = c.dead := by unfold Context.setH; split <;> rfl
@[simp] theorem Context.setH_haltReq (c : Context) (r : Fin 16) (v : BitVec 16) : (c.setH r v).haltReq = c.haltReq := by unfold Context.setH; split <;> rfl
@[simp] theorem Context.setH_halted (c : Context) (r : Fin 16) (v : BitVec 16) : (c.setH r v).halted = c.halted := by unfold Context.setH; split <;> rfl
@[simp] theorem Context.setH_waitMask (c : Context) (r : Fin 16) (v : BitVec 16) : (c.setH r v).waitMask = c.waitMask := by unfold Context.setH; split <;> rfl
@[simp] theorem Context.setH_stepOf (c : Context) (r : Fin 16) (v : BitVec 16) : (c.setH r v).stepOf = c.stepOf := by unfold Context.setH; split <;> rfl
@[simp] theorem Context.setH_retire (c : Context) (r : Fin 16) (v : BitVec 16) : (c.setH r v).retire = c.retire := by unfold Context.setH; split <;> rfl
@[simp] theorem Context.setH_idle (c : Context) (r : Fin 16) (v : BitVec 16) : (c.setH r v).idle = c.idle := by unfold Context.setH; split <;> rfl
@[simp] theorem Context.setH_asked (c : Context) (r : Fin 16) (v : BitVec 16) : (c.setH r v).asked = c.asked := by unfold Context.setH; split <;> rfl
@[simp] theorem Context.setH_askedX (c : Context) (r : Fin 16) (v : BitVec 16) : (c.setH r v).askedX = c.askedX := by unfold Context.setH; split <;> rfl
@[simp] theorem Context.setH_excuseTo (c : Context) (r : Fin 16) (v : BitVec 16) : (c.setH r v).excuseTo = c.excuseTo := by unfold Context.setH; split <;> rfl
@[simp] theorem Context.setH_slow (c : Context) (r : Fin 16) (v : BitVec 16) : (c.setH r v).slow = c.slow := by unfold Context.setH; split <;> rfl
@[simp] theorem Context.setH_issuedThen (c : Context) (r : Fin 16) (v : BitVec 16) : (c.setH r v).issuedThen = c.issuedThen := by unfold Context.setH; split <;> rfl
@[simp] theorem Context.setH_upWait (c : Context) (r : Fin 16) (v : BitVec 16) : (c.setH r v).upWait = c.upWait := by unfold Context.setH; split <;> rfl
@[simp] theorem Context.setH_fenceKept (c : Context) (r : Fin 16) (v : BitVec 16) : (c.setH r v).fenceKept = c.fenceKept := by unfold Context.setH; split <;> rfl
@[simp] theorem Context.setH_tipSerial (c : Context) (r : Fin 16) (v : BitVec 16) : (c.setH r v).tipSerial = c.tipSerial := by unfold Context.setH; split <;> rfl
@[simp] theorem Context.setH_rldHeld (c : Context) (r : Fin 16) (v : BitVec 16) : (c.setH r v).rldHeld = c.rldHeld := by unfold Context.setH; split <;> rfl
@[simp] theorem Context.setH_replayBack (c : Context) (r : Fin 16) (v : BitVec 16) : (c.setH r v).replayBack = c.replayBack := by unfold Context.setH; split <;> rfl
@[simp] theorem Context.setH_hwas (c : Context) (r : Fin 16) (v : BitVec 16) : (c.setH r v).hwas = c.hwas := by unfold Context.setH; split <;> rfl
@[simp] theorem Context.setH_tcommitAt (c : Context) (r : Fin 16) (v : BitVec 16) : (c.setH r v).tcommitAt = c.tcommitAt := by unfold Context.setH; split <;> rfl
@[simp] theorem Context.setH_ttr (c : Context) (r : Fin 16) (v : BitVec 16) : (c.setH r v).ttr = c.ttr := by unfold Context.setH; split <;> rfl

/-! ### A stream of a context changed -/

@[simp] theorem Context.onStrm_turn (c : Context) (st : Strm) (g : StreamSt → StreamSt) : (c.onStrm st g).turn = c.turn := by cases st <;> rfl
@[simp] theorem Context.onStrm_x (c : Context) (st : Strm) (g : StreamSt → StreamSt) : (c.onStrm st g).x = c.x := by cases st <;> rfl
@[simp] theorem Context.onStrm_p (c : Context) (st : Strm) (g : StreamSt → StreamSt) : (c.onStrm st g).p = c.p := by cases st <;> rfl
@[simp] theorem Context.onStrm_b (c : Context) (st : Strm) (g : StreamSt → StreamSt) : (c.onStrm st g).b = c.b := by cases st <;> rfl
@[simp] theorem Context.onStrm_tok (c : Context) (st : Strm) (g : StreamSt → StreamSt) : (c.onStrm st g).tok = c.tok := by cases st <;> rfl
@[simp] theorem Context.onStrm_a (c : Context) (st : Strm) (g : StreamSt → StreamSt) : (c.onStrm st g).a = c.a := by cases st <;> rfl
@[simp] theorem Context.onStrm_mb (c : Context) (st : Strm) (g : StreamSt → StreamSt) : (c.onStrm st g).mb = c.mb := by cases st <;> rfl
@[simp] theorem Context.onStrm_s (c : Context) (st : Strm) (g : StreamSt → StreamSt) : (c.onStrm st g).s = c.s := by cases st <;> rfl
@[simp] theorem Context.onStrm_m (c : Context) (st : Strm) (g : StreamSt → StreamSt) : (c.onStrm st g).m = c.m := by cases st <;> rfl
@[simp] theorem Context.onStrm_h (c : Context) (st : Strm) (g : StreamSt → StreamSt) : (c.onStrm st g).h = c.h := by cases st <;> rfl
@[simp] theorem Context.onStrm_vshape (c : Context) (st : Strm) (g : StreamSt → StreamSt) : (c.onStrm st g).vshape = c.vshape := by cases st <;> rfl
@[simp] theorem Context.onStrm_mfmt (c : Context) (st : Strm) (g : StreamSt → StreamSt) : (c.onStrm st g).mfmt = c.mfmt := by cases st <;> rfl
@[simp] theorem Context.onStrm_fflags (c : Context) (st : Strm) (g : StreamSt → StreamSt) : (c.onStrm st g).fflags = c.fflags := by cases st <;> rfl
@[simp] theorem Context.onStrm_strict (c : Context) (st : Strm) (g : StreamSt → StreamSt) : (c.onStrm st g).strict = c.strict := by cases st <;> rfl
@[simp] theorem Context.onStrm_q (c : Context) (st : Strm) (g : StreamSt → StreamSt) : (c.onStrm st g).q = c.q := by cases st <;> rfl
@[simp] theorem Context.onStrm_chans (c : Context) (st : Strm) (g : StreamSt → StreamSt) : (c.onStrm st g).chans = c.chans := by cases st <;> rfl
@[simp] theorem Context.onStrm_landing (c : Context) (st : Strm) (g : StreamSt → StreamSt) : (c.onStrm st g).landing = c.landing := by cases st <;> rfl
@[simp] theorem Context.onStrm_lbuf (c : Context) (st : Strm) (g : StreamSt → StreamSt) : (c.onStrm st g).lbuf = c.lbuf := by cases st <;> rfl
@[simp] theorem Context.onStrm_hbuf (c : Context) (st : Strm) (g : StreamSt → StreamSt) : (c.onStrm st g).hbuf = c.hbuf := by cases st <;> rfl
@[simp] theorem Context.onStrm_divBusy (c : Context) (st : Strm) (g : StreamSt → StreamSt) : (c.onStrm st g).divBusy = c.divBusy := by cases st <;> rfl
@[simp] theorem Context.onStrm_twin (c : Context) (st : Strm) (g : StreamSt → StreamSt) : (c.onStrm st g).twin = c.twin := by cases st <;> rfl
@[simp] theorem Context.onStrm_rldSlots (c : Context) (st : Strm) (g : StreamSt → StreamSt) : (c.onStrm st g).rldSlots = c.rldSlots := by cases st <;> rfl
@[simp] theorem Context.onStrm_rldBufs (c : Context) (st : Strm) (g : StreamSt → StreamSt) : (c.onStrm st g).rldBufs = c.rldBufs := by cases st <;> rfl
@[simp] theorem Context.onStrm_ranges (c : Context) (st : Strm) (g : StreamSt → StreamSt) : (c.onStrm st g).ranges = c.ranges := by cases st <;> rfl
@[simp] theorem Context.onStrm_vpend (c : Context) (st : Strm) (g : StreamSt → StreamSt) : (c.onStrm st g).vpend = c.vpend := by cases st <;> rfl
@[simp] theorem Context.onStrm_nest (c : Context) (st : Strm) (g : StreamSt → StreamSt) : (c.onStrm st g).nest = c.nest := by cases st <;> rfl
@[simp] theorem Context.onStrm_captured (c : Context) (st : Strm) (g : StreamSt → StreamSt) : (c.onStrm st g).captured = c.captured := by cases st <;> rfl
@[simp] theorem Context.onStrm_acc (c : Context) (st : Strm) (g : StreamSt → StreamSt) : (c.onStrm st g).acc = c.acc := by cases st <;> rfl
@[simp] theorem Context.onStrm_rowInt (c : Context) (st : Strm) (g : StreamSt → StreamSt) : (c.onStrm st g).rowInt = c.rowInt := by cases st <;> rfl
@[simp] theorem Context.onStrm_zeroing (c : Context) (st : Strm) (g : StreamSt → StreamSt) : (c.onStrm st g).zeroing = c.zeroing := by cases st <;> rfl
@[simp] theorem Context.onStrm_aggC (c : Context) (st : Strm) (g : StreamSt → StreamSt) : (c.onStrm st g).aggC = c.aggC := by cases st <;> rfl
@[simp] theorem Context.onStrm_aggT (c : Context) (st : Strm) (g : StreamSt → StreamSt) : (c.onStrm st g).aggT = c.aggT := by cases st <;> rfl
@[simp] theorem Context.onStrm_aggM (c : Context) (st : Strm) (g : StreamSt → StreamSt) : (c.onStrm st g).aggM = c.aggM := by cases st <;> rfl
@[simp] theorem Context.onStrm_pl (c : Context) (st : Strm) (g : StreamSt → StreamSt) : (c.onStrm st g).pl = c.pl := by cases st <;> rfl
@[simp] theorem Context.onStrm_ppl (c : Context) (st : Strm) (g : StreamSt → StreamSt) : (c.onStrm st g).ppl = c.ppl := by cases st <;> rfl
@[simp] theorem Context.onStrm_tip (c : Context) (st : Strm) (g : StreamSt → StreamSt) : (c.onStrm st g).tip = c.tip := by cases st <;> rfl
@[simp] theorem Context.onStrm_held (c : Context) (st : Strm) (g : StreamSt → StreamSt) : (c.onStrm st g).held = c.held := by cases st <;> rfl
@[simp] theorem Context.onStrm_cause (c : Context) (st : Strm) (g : StreamSt → StreamSt) : (c.onStrm st g).cause = c.cause := by cases st <;> rfl
@[simp] theorem Context.onStrm_epc (c : Context) (st : Strm) (g : StreamSt → StreamSt) : (c.onStrm st g).epc = c.epc := by cases st <;> rfl
@[simp] theorem Context.onStrm_faddr (c : Context) (st : Strm) (g : StreamSt → StreamSt) : (c.onStrm st g).faddr = c.faddr := by cases st <;> rfl
@[simp] theorem Context.onStrm_fpc (c : Context) (st : Strm) (g : StreamSt → StreamSt) : (c.onStrm st g).fpc = c.fpc := by cases st <;> rfl
@[simp] theorem Context.onStrm_fpc2 (c : Context) (st : Strm) (g : StreamSt → StreamSt) : (c.onStrm st g).fpc2 = c.fpc2 := by cases st <;> rfl
@[simp] theorem Context.onStrm_frec (c : Context) (st : Strm) (g : StreamSt → StreamSt) : (c.onStrm st g).frec = c.frec := by cases st <;> rfl
@[simp] theorem Context.onStrm_sscr (c : Context) (st : Strm) (g : StreamSt → StreamSt) : (c.onStrm st g).sscr = c.sscr := by cases st <;> rfl
@[simp] theorem Context.onStrm_limit (c : Context) (st : Strm) (g : StreamSt → StreamSt) : (c.onStrm st g).limit = c.limit := by cases st <;> rfl
@[simp] theorem Context.onStrm_net (c : Context) (st : Strm) (g : StreamSt → StreamSt) : (c.onStrm st g).net = c.net := by cases st <;> rfl
@[simp] theorem Context.onStrm_deadline (c : Context) (st : Strm) (g : StreamSt → StreamSt) : (c.onStrm st g).deadline = c.deadline := by cases st <;> rfl
@[simp] theorem Context.onStrm_occupancy (c : Context) (st : Strm) (g : StreamSt → StreamSt) : (c.onStrm st g).occupancy = c.occupancy := by cases st <;> rfl
@[simp] theorem Context.onStrm_excused (c : Context) (st : Strm) (g : StreamSt → StreamSt) : (c.onStrm st g).excused = c.excused := by cases st <;> rfl
@[simp] theorem Context.onStrm_dbgctl (c : Context) (st : Strm) (g : StreamSt → StreamSt) : (c.onStrm st g).dbgctl = c.dbgctl := by cases st <;> rfl
@[simp] theorem Context.onStrm_trctl (c : Context) (st : Strm) (g : StreamSt → StreamSt) : (c.onStrm st g).trctl = c.trctl := by cases st <;> rfl
@[simp] theorem Context.onStrm_trbase (c : Context) (st : Strm) (g : StreamSt → StreamSt) : (c.onStrm st g).trbase = c.trbase := by cases st <;> rfl
@[simp] theorem Context.onStrm_bdring (c : Context) (st : Strm) (g : StreamSt → StreamSt) : (c.onStrm st g).bdring = c.bdring := by cases st <;> rfl
@[simp] theorem Context.onStrm_rplog (c : Context) (st : Strm) (g : StreamSt → StreamSt) : (c.onStrm st g).rplog = c.rplog := by cases st <;> rfl
@[simp] theorem Context.onStrm_bpa (c : Context) (st : Strm) (g : StreamSt → StreamSt) : (c.onStrm st g).bpa = c.bpa := by cases st <;> rfl
@[simp] theorem Context.onStrm_bpi (c : Context) (st : Strm) (g : StreamSt → StreamSt) : (c.onStrm st g).bpi = c.bpi := by cases st <;> rfl
@[simp] theorem Context.onStrm_boardSeq (c : Context) (st : Strm) (g : StreamSt → StreamSt) : (c.onStrm st g).boardSeq = c.boardSeq := by cases st <;> rfl
@[simp] theorem Context.onStrm_boardSkip (c : Context) (st : Strm) (g : StreamSt → StreamSt) : (c.onStrm st g).boardSkip = c.boardSkip := by cases st <;> rfl
@[simp] theorem Context.onStrm_boardBusy (c : Context) (st : Strm) (g : StreamSt → StreamSt) : (c.onStrm st g).boardBusy = c.boardBusy := by cases st <;> rfl
@[simp] theorem Context.onStrm_replayAt (c : Context) (st : Strm) (g : StreamSt → StreamSt) : (c.onStrm st g).replayAt = c.replayAt := by cases st <;> rfl
@[simp] theorem Context.onStrm_replayOff (c : Context) (st : Strm) (g : StreamSt → StreamSt) : (c.onStrm st g).replayOff = c.replayOff := by cases st <;> rfl
@[simp] theorem Context.onStrm_replayFull (c : Context) (st : Strm) (g : StreamSt → StreamSt) : (c.onStrm st g).replayFull = c.replayFull := by cases st <;> rfl
@[simp] theorem Context.onStrm_logHeld (c : Context) (st : Strm) (g : StreamSt → StreamSt) : (c.onStrm st g).logHeld = c.logHeld := by cases st <;> rfl
@[simp] theorem Context.onStrm_pend (c : Context) (st : Strm) (g : StreamSt → StreamSt) : (c.onStrm st g).pend = c.pend := by cases st <;> rfl
@[simp] theorem Context.onStrm_resume (c : Context) (st : Strm) (g : StreamSt → StreamSt) : (c.onStrm st g).resume = c.resume := by cases st <;> rfl
@[simp] theorem Context.onStrm_hresume (c : Context) (st : Strm) (g : StreamSt → StreamSt) : (c.onStrm st g).hresume = c.hresume := by cases st <;> rfl
@[simp] theorem Context.onStrm_dead (c : Context) (st : Strm) (g : StreamSt → StreamSt) : (c.onStrm st g).dead = c.dead := by cases st <;> rfl
@[simp] theorem Context.onStrm_haltReq (c : Context) (st : Strm) (g : StreamSt → StreamSt) : (c.onStrm st g).haltReq = c.haltReq := by cases st <;> rfl
@[simp] theorem Context.onStrm_halted (c : Context) (st : Strm) (g : StreamSt → StreamSt) : (c.onStrm st g).halted = c.halted := by cases st <;> rfl
@[simp] theorem Context.onStrm_waitMask (c : Context) (st : Strm) (g : StreamSt → StreamSt) : (c.onStrm st g).waitMask = c.waitMask := by cases st <;> rfl
@[simp] theorem Context.onStrm_stepOf (c : Context) (st : Strm) (g : StreamSt → StreamSt) : (c.onStrm st g).stepOf = c.stepOf := by cases st <;> rfl
@[simp] theorem Context.onStrm_retire (c : Context) (st : Strm) (g : StreamSt → StreamSt) : (c.onStrm st g).retire = c.retire := by cases st <;> rfl
@[simp] theorem Context.onStrm_idle (c : Context) (st : Strm) (g : StreamSt → StreamSt) : (c.onStrm st g).idle = c.idle := by cases st <;> rfl
@[simp] theorem Context.onStrm_asked (c : Context) (st : Strm) (g : StreamSt → StreamSt) : (c.onStrm st g).asked = c.asked := by cases st <;> rfl
@[simp] theorem Context.onStrm_askedX (c : Context) (st : Strm) (g : StreamSt → StreamSt) : (c.onStrm st g).askedX = c.askedX := by cases st <;> rfl
@[simp] theorem Context.onStrm_excuseTo (c : Context) (st : Strm) (g : StreamSt → StreamSt) : (c.onStrm st g).excuseTo = c.excuseTo := by cases st <;> rfl
@[simp] theorem Context.onStrm_slow (c : Context) (st : Strm) (g : StreamSt → StreamSt) : (c.onStrm st g).slow = c.slow := by cases st <;> rfl
@[simp] theorem Context.onStrm_issuedThen (c : Context) (st : Strm) (g : StreamSt → StreamSt) : (c.onStrm st g).issuedThen = c.issuedThen := by cases st <;> rfl
@[simp] theorem Context.onStrm_upWait (c : Context) (st : Strm) (g : StreamSt → StreamSt) : (c.onStrm st g).upWait = c.upWait := by cases st <;> rfl
@[simp] theorem Context.onStrm_fenceKept (c : Context) (st : Strm) (g : StreamSt → StreamSt) : (c.onStrm st g).fenceKept = c.fenceKept := by cases st <;> rfl
@[simp] theorem Context.onStrm_tipSerial (c : Context) (st : Strm) (g : StreamSt → StreamSt) : (c.onStrm st g).tipSerial = c.tipSerial := by cases st <;> rfl
@[simp] theorem Context.onStrm_rldHeld (c : Context) (st : Strm) (g : StreamSt → StreamSt) : (c.onStrm st g).rldHeld = c.rldHeld := by cases st <;> rfl
@[simp] theorem Context.onStrm_replayBack (c : Context) (st : Strm) (g : StreamSt → StreamSt) : (c.onStrm st g).replayBack = c.replayBack := by cases st <;> rfl
@[simp] theorem Context.onStrm_hwas (c : Context) (st : Strm) (g : StreamSt → StreamSt) : (c.onStrm st g).hwas = c.hwas := by cases st <;> rfl
@[simp] theorem Context.onStrm_tcommitAt (c : Context) (st : Strm) (g : StreamSt → StreamSt) : (c.onStrm st g).tcommitAt = c.tcommitAt := by cases st <;> rfl
@[simp] theorem Context.onStrm_ttr (c : Context) (st : Strm) (g : StreamSt → StreamSt) : (c.onStrm st g).ttr = c.ttr := by cases st <;> rfl

@[simp] theorem Context.strm_onStrm (c : Context) (st : Strm) (g : StreamSt → StreamSt) : (c.onStrm st g).strm st = g (c.strm st) := by
  cases st <;> rfl

theorem Context.strm_onStrm_ne (c : Context) {st su : Strm} (g : StreamSt → StreamSt) (h : su ≠ st) : (c.onStrm st g).strm su = c.strm su := by
  cases st <;> cases su <;> first | rfl | exact absurd rfl h

/-! ### Registers read after a write (R152) -/

/-- x[r] after a write: x0 reads 0. -/
theorem Context.getX_setX (c : Context) (r i : Fin 32) (v : Word) : (c.setX r v).getX i = if i = r ∧ r ≠ 0 then v else c.getX i := by
  by_cases hi : i = 0
  · subst hi
    by_cases hr : r = 0
    · simp [Context.getX, hr]
    · simp [Context.getX, Ne.symm hr]
  · by_cases hr : r = 0
    · subst hr; simp [Context.setX, hi]
    · by_cases h : i = r
      · subst h; simp [Context.getX, Context.setX, hi]
      · have h' : ¬ r = i := fun e => h e.symm
        have hv : r.val ≠ i.val := fun e => h' (Fin.ext e)
        simp [Context.getX, Context.setX, hi, hr, h, hv]

/-- a[r] after a write: a0 reads 0. -/
theorem Context.getA_setA (c : Context) (r i : Fin 16) (v : Word) : (c.setA r v).getA i = if i = r ∧ r ≠ 0 then v else c.getA i := by
  by_cases hi : i = 0
  · subst hi
    by_cases hr : r = 0
    · simp [Context.getA, hr]
    · simp [Context.getA, Ne.symm hr]
  · by_cases hr : r = 0
    · subst hr; simp [Context.setA, hi]
    · by_cases h : i = r
      · subst h; simp [Context.getA, Context.setA, hi]
      · have h' : ¬ r = i := fun e => h e.symm
        have hv : r.val ≠ i.val := fun e => h' (Fin.ext e)
        simp [Context.getA, Context.setA, hi, hr, h, hv]

/-- p[r] after a write: p0 reads 1. -/
theorem Context.getP_setP (c : Context) (r i : Fin 8) (v : Bool) : (c.setP r v).getP i = if i = r ∧ r ≠ 0 then v else c.getP i := by
  by_cases hi : i = 0
  · subst hi
    by_cases hr : r = 0
    · simp [Context.getP, hr]
    · simp [Context.getP, Ne.symm hr]
  · by_cases hr : r = 0
    · subst hr; simp [Context.setP, hi]
    · by_cases h : i = r
      · subst h; simp [Context.getP, Context.setP, hi]
      · have h' : ¬ r = i := fun e => h e.symm
        have hv : r.val ≠ i.val := fun e => h' (Fin.ext e)
        simp [Context.getP, Context.setP, hi, hr, h, hv]

end Sys2Proof.Machine
end

