-- ==== Sys2Proof/Laws/Table.lean ====
section
/-! SUPPORT. The laws of tables and of memory: read after write, and that every operation keeps the canonical form. -/

namespace Sys2Proof.Machine

/-! ### Tables -/

/-- A lower bound may be lowered. -/
theorem Tab.above_mono {α : Type} {t : Tab α} {a b : Nat} (h : Tab.above (some b) t = true) (hab : a ≤ b) : Tab.above (some a) t = true := by
  cases t with
  | nil => rfl
  | cons e r =>
    simp only [Tab.above, Bool.and_eq_true, decide_eq_true_eq] at h ⊢
    exact ⟨by omega, h.2⟩

/-- A bounded table is in canonical form. -/
theorem Tab.wf_of_above {α : Type} {t : Tab α} {a : Nat} (h : Tab.above (some a) t = true) : Tab.wf t = true := by
  cases t with
  | nil => rfl
  | cons e r =>
    simp only [Tab.above, Bool.and_eq_true] at h
    exact h.2

/-- The tail of a table in canonical form lies above its head. -/
theorem Tab.above_of_wf {α : Type} {k : Nat} {v : α} {r : Tab α} (h : Tab.wf ((k, v) :: r) = true) : Tab.above (some k) r = true := h

/-- Nothing is found at or below a bound. -/
theorem Tab.find?_above {α : Type} {t : Tab α} {b n : Nat} (h : Tab.above (some b) t = true) (hn : n ≤ b) : t.find? n = none := by
  cases t with
  | nil => rfl
  | cons e r =>
    simp only [Tab.above, Bool.and_eq_true, decide_eq_true_eq] at h
    have h1 : n ≠ e.1 := by omega
    have h2 : n < e.1 := by omega
    simp [Tab.find?, h1, h2]

/-- What has been put at a key is found there. -/
@[simp] theorem Tab.find?_put_same {α : Type} (t : Tab α) (n : Nat) (v : α) : (t.put n v).find? n = some v := by
  induction t with
  | nil => simp [Tab.put, Tab.find?]
  | cons e r ih =>
    obtain ⟨k, w⟩ := e
    simp only [Tab.put]
    split
    · simp [Tab.find?]
    · split
      · simp [Tab.find?]
      · rename_i h1 h2
        simp [Tab.find?, h2, h1, ih]

/-- What is found at other keys stands. -/
theorem Tab.find?_put_ne {α : Type} (t : Tab α) {n m : Nat} (v : α) (h : m ≠ n) : (t.put n v).find? m = t.find? m := by
  induction t with
  | nil => simp [Tab.put, Tab.find?, h]
  | cons e r ih =>
    obtain ⟨k, w⟩ := e
    simp only [Tab.put]
    split
    · rename_i h1
      by_cases h2 : m < n
      · have h3 : m ≠ k := by omega
        have h4 : m < k := by omega
        simp [Tab.find?, h, h2, h3, h4]
      · simp [Tab.find?, h, h2]
    · split
      · rename_i h1 h2
        subst h2
        simp [Tab.find?, h]
      · simp [Tab.find?, ih]

/-- A key put keeps a lower bound that it exceeds. -/
theorem Tab.above_put {α : Type} {t : Tab α} {b n : Nat} {v : α} (h : Tab.above (some b) t = true) (hb : b < n) :
    Tab.above (some b) (t.put n v) = true := by
  induction t generalizing b with
  | nil => simp [Tab.put, Tab.above, hb]
  | cons e r ih =>
    obtain ⟨k, w⟩ := e
    simp only [Tab.above, Bool.and_eq_true, decide_eq_true_eq] at h
    simp only [Tab.put]
    split
    · rename_i h1
      simp [Tab.above, hb, h1, h.2]
    · split
      · rename_i h1 h2
        subst h2
        simp [Tab.above, hb, h.2]
      · rename_i h1 h2
        simp only [Tab.above, Bool.and_eq_true, decide_eq_true_eq]
        exact ⟨h.1, ih h.2 (by omega)⟩

/-- A key put keeps the canonical form. -/
theorem Tab.wf_put {α : Type} {t : Tab α} {n : Nat} {v : α} (h : Tab.wf t = true) : Tab.wf (t.put n v) = true := by
  cases t with
  | nil => rfl
  | cons e r =>
    obtain ⟨k, w⟩ := e
    simp only [Tab.put]
    split
    · rename_i h1
      simp [Tab.wf, Tab.above, h1, Tab.above_of_wf h]
    · split
      · rename_i h1 h2
        subst h2
        exact h
      · rename_i h1 h2
        exact Tab.above_put (Tab.above_of_wf h) (by omega)

/-- A key dropped keeps a lower bound. -/
theorem Tab.above_drop {α : Type} {t : Tab α} {b n : Nat} (h : Tab.above (some b) t = true) : Tab.above (some b) (t.drop n) = true := by
  induction t generalizing b with
  | nil => rfl
  | cons e r ih =>
    obtain ⟨k, w⟩ := e
    have h' := h
    simp only [Tab.above, Bool.and_eq_true, decide_eq_true_eq] at h
    simp only [Tab.drop]
    split
    · exact h'
    · split
      · exact Tab.above_mono h.2 (by omega)
      · simp only [Tab.above, Bool.and_eq_true, decide_eq_true_eq]
        exact ⟨h.1, ih h.2⟩

/-- A key dropped keeps the canonical form. -/
theorem Tab.wf_drop {α : Type} {t : Tab α} {n : Nat} (h : Tab.wf t = true) : Tab.wf (t.drop n) = true := by
  cases t with
  | nil => rfl
  | cons e r =>
    obtain ⟨k, w⟩ := e
    simp only [Tab.drop]
    split
    · exact h
    · split
      · exact Tab.wf_of_above (Tab.above_of_wf h)
      · exact Tab.above_drop (Tab.above_of_wf h)

/-- Nothing is found at a key dropped. -/
theorem Tab.find?_drop_same {α : Type} {t : Tab α} {n : Nat} (h : Tab.wf t = true) : (t.drop n).find? n = none := by
  induction t with
  | nil => rfl
  | cons e r ih =>
    obtain ⟨k, w⟩ := e
    have ha := Tab.above_of_wf h
    simp only [Tab.drop]
    split
    · rename_i h1
      have h2 : n ≠ k := by omega
      simp [Tab.find?, h1, h2]
    · split
      · rename_i h1 h2
        subst h2
        exact Tab.find?_above ha (Nat.le_refl _)
      · rename_i h1 h2
        simp only [Tab.find?, h1, h2, if_false]
        exact ih (Tab.wf_of_above ha)

/-- What is found at other keys than the one dropped stands. -/
theorem Tab.find?_drop_ne {α : Type} {t : Tab α} {n m : Nat} (h : Tab.wf t = true) (hm : m ≠ n) : (t.drop n).find? m = t.find? m := by
  induction t with
  | nil => rfl
  | cons e r ih =>
    obtain ⟨k, w⟩ := e
    have ha := Tab.above_of_wf h
    simp only [Tab.drop]
    split
    · rfl
    · split
      · rename_i h1 h2
        subst h2
        by_cases h3 : m < n
        · rw [Tab.find?_above ha (Nat.le_of_lt h3)]
          simp [Tab.find?, hm, h3]
        · simp [Tab.find?, hm, h3]
      · simp only [Tab.find?]
        rw [ih (Tab.wf_of_above ha)]

/-- Entries kept by a test keep a lower bound. -/
theorem Tab.above_filter {α : Type} {t : Tab α} {b : Nat} (p : Nat × α → Bool) (h : Tab.above (some b) t = true) :
    Tab.above (some b) (t.filter p) = true := by
  induction t generalizing b with
  | nil => rfl
  | cons e r ih =>
    obtain ⟨k, w⟩ := e
    simp only [Tab.above, Bool.and_eq_true, decide_eq_true_eq] at h
    simp only [List.filter]
    split
    · simp only [Tab.above, Bool.and_eq_true, decide_eq_true_eq]
      exact ⟨h.1, ih h.2⟩
    · exact ih (Tab.above_mono h.2 (by omega))

/-- Entries kept by a test keep the canonical form. -/
theorem Tab.wf_filter {α : Type} {t : Tab α} (p : Nat × α → Bool) (h : Tab.wf t = true) : Tab.wf (t.filter p) = true := by
  cases t with
  | nil => rfl
  | cons e r =>
    obtain ⟨k, w⟩ := e
    have ha := Tab.above_of_wf h
    simp only [List.filter]
    split
    · exact Tab.above_filter p ha
    · exact Tab.wf_of_above (Tab.above_filter p ha)

/-- What is found among the entries that a test of the keys keeps. -/
theorem Tab.find?_filter {α : Type} {t : Tab α} (p : Nat → Bool) (n : Nat) (h : Tab.wf t = true) :
    Tab.find? (t.filter (fun e => p e.1)) n = if p n then t.find? n else none := by
  induction t with
  | nil => simp [Tab.find?]
  | cons e r ih =>
    obtain ⟨k, w⟩ := e
    have ha := Tab.above_of_wf h
    have ih := ih (Tab.wf_of_above ha)
    simp only [List.filter]
    split
    · rename_i hp
      simp only [Tab.find?, ih]
      by_cases h1 : n = k
      · simp [h1, hp]
      · by_cases h2 : n < k <;> simp [h1, h2]
    · rename_i hp
      rw [ih]
      by_cases h1 : n = k
      · subst h1; simp [hp]
      · by_cases h2 : n < k
        · simp [Tab.find?, h1, h2, Tab.find?_above ha (Nat.le_of_lt h2)]
        · simp [Tab.find?, h1, h2]

/-- A table with a default reads what was set. -/
theorem Tab.getD_setD_same {α : Type} [DecidableEq α] {t : Tab α} {n : Nat} {d v : α} (h : Tab.wf t = true) : (t.setD n d v).getD n d = v := by
  unfold Tab.setD Tab.getD
  split
  · rename_i hv
    simp [Tab.find?_drop_same h, hv]
  · simp

/-- A table with a default reads elsewhere what it read. -/
theorem Tab.getD_setD_ne {α : Type} [DecidableEq α] {t : Tab α} {n m : Nat} {d v : α} (h : Tab.wf t = true) (hm : m ≠ n) :
    (t.setD n d v).getD m d = t.getD m d := by
  unfold Tab.setD Tab.getD
  split
  · rw [Tab.find?_drop_ne h hm]
  · rw [Tab.find?_put_ne t v hm]

/-- A value set keeps the canonical form. -/
theorem Tab.wf_setD {α : Type} [DecidableEq α] {t : Tab α} {n : Nat} {d v : α} (h : Tab.wf t = true) : Tab.wf (t.setD n d v) = true := by
  unfold Tab.setD
  split
  · exact Tab.wf_drop h
  · exact Tab.wf_put h

/-! ### Memory -/

/-- The canonical form of a memory, in two parts. -/
theorem Memory.wf_iff {m : Memory} : m.wf = true ↔ Tab.wf m = true ∧ ∀ e ∈ m, e.2 ≠ Memory.unwritten := by
  simp [Memory.wf, List.all_eq_true]

/-- Every entry of a table after a put is the new one or an old one. -/
theorem Tab.mem_put {α : Type} {t : Tab α} {n : Nat} {v : α} {e : Nat × α} (h : e ∈ t.put n v) : e = (n, v) ∨ e ∈ t := by
  induction t with
  | nil => simp [Tab.put] at h; exact .inl h
  | cons a r ih =>
    obtain ⟨k, w⟩ := a
    simp only [Tab.put] at h
    split at h
    · simpa using h
    · split at h
      · simp only [List.mem_cons] at h ⊢
        rcases h with h | h
        · exact .inl h
        · exact .inr (.inr h)
      · simp only [List.mem_cons] at h ⊢
        rcases h with h | h
        · exact .inr (.inl h)
        · rcases ih h with h | h
          · exact .inl h
          · exact .inr (.inr h)

/-- Every entry of a table after a drop is an old one. -/
theorem Tab.mem_drop {α : Type} {t : Tab α} {n : Nat} {e : Nat × α} (h : e ∈ t.drop n) : e ∈ t := by
  induction t with
  | nil => simp [Tab.drop] at h
  | cons a r ih =>
    obtain ⟨k, w⟩ := a
    simp only [Tab.drop] at h
    split at h
    · exact h
    · split at h
      · exact List.mem_cons_of_mem _ h
      · simp only [List.mem_cons] at h ⊢
        exact h.imp id ih

/-- A byte written keeps the canonical form. -/
theorem Memory.wf_write {m : Memory} {a : Nat} {b : BitVec 8} (h : m.wf = true) : (m.write a b).wf = true := by
  rw [Memory.wf_iff] at h ⊢
  refine ⟨Tab.wf_setD h.1, ?_⟩
  intro e he
  unfold Memory.write Tab.setD at he
  split at he
  · exact h.2 e (Tab.mem_drop he)
  · rename_i hb
    rcases Tab.mem_put he with h' | h'
    · subst h'; exact hb
    · exact h.2 e h'

/-- Bytes written keep the canonical form. -/
theorem Memory.wf_writeBytes {m : Memory} {a : Nat} (bs : List (BitVec 8)) (h : m.wf = true) : (m.writeBytes a bs).wf = true := by
  induction bs generalizing m a with
  | nil => exact h
  | cons b r ih => exact ih (Memory.wf_write h)

/-- Entries kept by a test keep the canonical form. -/
theorem Memory.wf_filter {m : Memory} (p : Nat × BitVec 8 → Bool) (h : m.wf = true) : Memory.wf (m.filter p) = true := by
  rw [Memory.wf_iff] at h ⊢
  exact ⟨Tab.wf_filter p h.1, fun e he => h.2 e (List.mem_filter.mp he).1⟩

/-- A byte written reads as it was written. -/
theorem Memory.read_write_same {m : Memory} {a : Nat} {b : BitVec 8} (h : m.wf = true) : (m.write a b).read a = b :=
  Tab.getD_setD_same (Memory.wf_iff.mp h).1

/-- Every other byte reads as before. -/
theorem Memory.read_write_ne {m : Memory} {a k : Nat} {b : BitVec 8} (h : m.wf = true) (hk : k ≠ a) : (m.write a b).read k = m.read k :=
  Tab.getD_setD_ne (Memory.wf_iff.mp h).1 hk

/-- Outside the bytes written every byte reads as before. -/
theorem Memory.read_writeBytes_outside {m : Memory} {a k : Nat} (bs : List (BitVec 8)) (h : m.wf = true)
    (hk : k < a ∨ a + bs.length ≤ k) : (m.writeBytes a bs).read k = m.read k := by
  induction bs generalizing m a with
  | nil => rfl
  | cons b r ih =>
    simp only [List.length_cons] at hk
    simp only [Memory.writeBytes]
    rw [ih (Memory.wf_write h) (by omega), Memory.read_write_ne h (by omega)]

/-- Each byte written reads as it was written. -/
theorem Memory.read_writeBytes_inside {m : Memory} {a : Nat} (bs : List (BitVec 8)) (i : Nat) (h : m.wf = true) (hi : i < bs.length) :
    (m.writeBytes a bs).read (a + i) = bs[i] := by
  induction bs generalizing m a i with
  | nil => simp at hi
  | cons b r ih =>
    simp only [Memory.writeBytes]
    cases i with
    | zero =>
      rw [Memory.read_writeBytes_outside r (Memory.wf_write h) (by omega)]
      simpa using Memory.read_write_same h
    | succ i =>
      have := ih (m := m.write a b) (a := a + 1) i (Memory.wf_write h) (by simpa using hi)
      have e : a + 1 + i = a + (i + 1) := by omega
      simpa [e] using this

/-- The number of bytes read. -/
@[simp] theorem Memory.length_readBytes (m : Memory) (a n : Nat) : (m.readBytes a n).length = n := by
  induction n generalizing a with
  | zero => rfl
  | succ n ih => simp [Memory.readBytes, ih]

/-- Each byte read is the byte at its key. -/
theorem Memory.getElem_readBytes (m : Memory) (a n i : Nat) (h : i < (m.readBytes a n).length) : (m.readBytes a n)[i] = m.read (a + i) := by
  induction n generalizing a i with
  | zero => simp [Memory.readBytes] at h
  | succ n ih =>
    cases i with
    | zero => rfl
    | succ i =>
      simp only [Memory.readBytes, List.getElem_cons_succ]
      rw [ih]
      congr 1
      omega

/-- The bytes written read back. -/
theorem Memory.readBytes_writeBytes {m : Memory} {a : Nat} (bs : List (BitVec 8)) (h : m.wf = true) :
    (m.writeBytes a bs).readBytes a bs.length = bs := by
  apply List.ext_getElem
  · simp
  · intro i h1 h2
    rw [Memory.getElem_readBytes, Memory.read_writeBytes_inside bs i h h2]

/-- Bytes apart from those written read as before. -/
theorem Memory.readBytes_writeBytes_apart {m : Memory} {a k n : Nat} (bs : List (BitVec 8)) (h : m.wf = true)
    (hk : k + n ≤ a ∨ a + bs.length ≤ k) : (m.writeBytes a bs).readBytes k n = m.readBytes k n := by
  apply List.ext_getElem
  · simp
  · intro i h1 h2
    simp only [Memory.length_readBytes] at h1
    rw [Memory.getElem_readBytes, Memory.getElem_readBytes, Memory.read_writeBytes_outside bs h (by omega)]

/-! ### Little-endian numbers -/

/-- The number of bytes of a number. -/
@[simp] theorem length_leBytes (n v : Nat) : (leBytes n v).length = n := by
  induction n generalizing v with
  | zero => rfl
  | succ n ih => simp [leBytes, ih]

/-- A number of n bytes comes back from its bytes. -/
theorem leNat_leBytes (n v : Nat) : leNat (leBytes n v) = v % 256 ^ n := by
  induction n generalizing v with
  | zero => simp [leBytes, leNat, Nat.mod_one]
  | succ n ih =>
    simp only [leBytes, leNat, ih, BitVec.toNat_ofNat]
    have e : (256 : Nat) ^ (n + 1) = 256 * 256 ^ n := by rw [Nat.pow_succ, Nat.mul_comm]
    rw [e, Nat.mod_mul]

end Sys2Proof.Machine
end

