-- ==== Sys2Proof/Laws/Ops.lean ====
section
/-! SUPPORT. What each shared operation of Machine/Ops.lean does, said once: focus, notes, traces, waits, issue, results, tokens, traps. -/

namespace Sys2Proof.Machine

open Sys2Proof.Claims

/-! ### Focus -/

/-- Turning the context letter changes nothing but which context stands unpacked. -/
theorem State.focusCx_frame (s : State) (cx : Bool) : s.focusCx cx = { s with cx := cx, ctx := if s.cx = cx then s.ctx else s.octx
                                                                              octx := if s.cx = cx then s.octx else s.ctx } := by
  unfold State.focusCx
  split
  · rename_i h; subst h; rfl
  · rfl

/-- Turning the partition number changes nothing but which partition stands unpacked. -/
theorem State.focusPart_frame (s : State) (pid : Nat) :
    s.focusPart pid = { s with pid := pid, part := (s.focusPart pid).part, parts := (s.focusPart pid).parts } := by
  unfold State.focusPart
  split
  · rename_i h; subst h; rfl
  · rfl

/-- The partition in focus stays so. -/
theorem State.focusPart_self (s : State) : s.focusPart s.pid = s := by simp [State.focusPart]

/-- Turning the site changes nothing but which core and which partition stand unpacked. -/
theorem State.focus_frame (s : State) (site : Nat) (cx : Bool) :
    s.focus site cx = { s with
      site := site, cx := cx, core := (s.focus site cx).core, ctx := (s.focus site cx).ctx, octx := (s.focus site cx).octx
      cores := (s.focus site cx).cores, pid := (s.focus site cx).pid, part := (s.focus site cx).part, parts := (s.focus site cx).parts } := by
  by_cases hs : s.site = site
  · unfold State.focus
    simp only [hs, if_true]
    subst hs
    split
    · rw [State.focusPart_frame, State.focusCx_frame]
    · rw [State.focusCx_frame]
  · unfold State.focus
    simp only [hs, if_false]
    split
    · rw [State.focusPart_frame, State.focusCx_frame]
    · rw [State.focusCx_frame]

@[simp] theorem State.focus_mem (s : State) (site : Nat) (cx : Bool) : (s.focus site cx).mem = s.mem := by rw [State.focus_frame]
@[simp] theorem State.focus_cycle (s : State) (site : Nat) (cx : Bool) : (s.focus site cx).cycle = s.cycle := by rw [State.focus_frame]
@[simp] theorem State.focus_serial (s : State) (site : Nat) (cx : Bool) : (s.focus site cx).serial = s.serial := by rw [State.focus_frame]
@[simp] theorem State.focus_site (s : State) (site : Nat) (cx : Bool) : (s.focus site cx).site = site := by rw [State.focus_frame]
@[simp] theorem State.focus_cx (s : State) (site : Nat) (cx : Bool) : (s.focus site cx).cx = cx := by rw [State.focus_frame]
@[simp] theorem State.focus_badWords (s : State) (site : Nat) (cx : Bool) : (s.focus site cx).badWords = s.badWords := by rw [State.focus_frame]
@[simp] theorem State.focus_pauses (s : State) (site : Nat) (cx : Bool) : (s.focus site cx).pauses = s.pauses := by rw [State.focus_frame]
@[simp] theorem State.focus_dbg (s : State) (site : Nat) (cx : Bool) : (s.focus site cx).dbg = s.dbg := by rw [State.focus_frame]
@[simp] theorem State.focus_delays (s : State) (site : Nat) (cx : Bool) : (s.focus site cx).delays = s.delays := by rw [State.focus_frame]
@[simp] theorem State.focus_dtBase (s : State) (site : Nat) (cx : Bool) : (s.focus site cx).dtBase = s.dtBase := by rw [State.focus_frame]

@[simp] theorem State.focusPart_mem (s : State) (p : Nat) : (s.focusPart p).mem = s.mem := by rw [State.focusPart_frame]
@[simp] theorem State.focusPart_cycle (s : State) (p : Nat) : (s.focusPart p).cycle = s.cycle := by rw [State.focusPart_frame]
@[simp] theorem State.focusPart_pid (s : State) (p : Nat) : (s.focusPart p).pid = p := by rw [State.focusPart_frame]
@[simp] theorem State.focusPart_site (s : State) (p : Nat) : (s.focusPart p).site = s.site := by rw [State.focusPart_frame]
@[simp] theorem State.focusPart_cx (s : State) (p : Nat) : (s.focusPart p).cx = s.cx := by rw [State.focusPart_frame]
@[simp] theorem State.focusPart_ctx (s : State) (p : Nat) : (s.focusPart p).ctx = s.ctx := by rw [State.focusPart_frame]
@[simp] theorem State.focusPart_octx (s : State) (p : Nat) : (s.focusPart p).octx = s.octx := by rw [State.focusPart_frame]
@[simp] theorem State.focusPart_core (s : State) (p : Nat) : (s.focusPart p).core = s.core := by rw [State.focusPart_frame]
@[simp] theorem State.focusPart_cores (s : State) (p : Nat) : (s.focusPart p).cores = s.cores := by rw [State.focusPart_frame]
@[simp] theorem State.focusPart_pauses (s : State) (p : Nat) : (s.focusPart p).pauses = s.pauses := by rw [State.focusPart_frame]
@[simp] theorem State.focusPart_badWords (s : State) (p : Nat) : (s.focusPart p).badWords = s.badWords := by rw [State.focusPart_frame]

@[simp] theorem State.focusCx_mem (s : State) (cx : Bool) : (s.focusCx cx).mem = s.mem := by rw [State.focusCx_frame]
@[simp] theorem State.focusCx_core (s : State) (cx : Bool) : (s.focusCx cx).core = s.core := by rw [State.focusCx_frame]
@[simp] theorem State.focusCx_part (s : State) (cx : Bool) : (s.focusCx cx).part = s.part := by rw [State.focusCx_frame]
@[simp] theorem State.focusCx_cycle (s : State) (cx : Bool) : (s.focusCx cx).cycle = s.cycle := by rw [State.focusCx_frame]
@[simp] theorem State.focusCx_site (s : State) (cx : Bool) : (s.focusCx cx).site = s.site := by rw [State.focusCx_frame]
@[simp] theorem State.focusCx_cx (s : State) (cx : Bool) : (s.focusCx cx).cx = cx := by rw [State.focusCx_frame]

/-! ### Cores by site -/

/-- A core put at a site is there. -/
@[simp] theorem State.boxAt_putBox (s : State) (site : Nat) (b : CoreBox) : (s.putBox site b).boxAt site = b := by
  unfold State.putBox State.boxAt
  by_cases h : site = s.site
  · simp only [h, if_true, State.hereBox]
    cases s.cx <;> rfl
  · simp [h]

/-- The cores of other sites stand. -/
theorem State.boxAt_putBox_ne (s : State) {site i : Nat} (b : CoreBox) (h : i ≠ site) : (s.putBox site b).boxAt i = s.boxAt i := by
  unfold State.putBox State.boxAt
  by_cases hs : site = s.site
  · subst hs
    simp [h, State.freshBox]
  · by_cases hi : i = s.site
    · simp [hs, hi, State.hereBox]
    · simp [hs, hi, Tab.find?_put_ne _ _ h, State.freshBox]

@[simp] theorem State.putBox_mem (s : State) (site : Nat) (b : CoreBox) : (s.putBox site b).mem = s.mem := by unfold State.putBox; split <;> rfl
@[simp] theorem State.putBox_part (s : State) (site : Nat) (b : CoreBox) : (s.putBox site b).part = s.part := by unfold State.putBox; split <;> rfl
@[simp] theorem State.putBox_pid (s : State) (site : Nat) (b : CoreBox) : (s.putBox site b).pid = s.pid := by unfold State.putBox; split <;> rfl
@[simp] theorem State.putBox_site (s : State) (site : Nat) (b : CoreBox) : (s.putBox site b).site = s.site := by unfold State.putBox; split <;> rfl
@[simp] theorem State.putBox_cycle (s : State) (site : Nat) (b : CoreBox) : (s.putBox site b).cycle = s.cycle := by unfold State.putBox; split <;> rfl
@[simp] theorem State.putBox_pauses (s : State) (site : Nat) (b : CoreBox) : (s.putBox site b).pauses = s.pauses := by unfold State.putBox; split <;> rfl

/-! ### Traces and delays -/

/-- A trace record changes only what waits in the core's trace buffer. -/
theorem State.trace_frame (s : State) (type : Nat) (st : Strm) (payload : Nat) :
    ∃ trace lost, s.trace type st payload = { s with core := { s.core with trace := trace, lost := lost } } := by
  unfold State.trace State.traceAt
  split
  · exact ⟨s.core.trace, s.core.lost, rfl⟩
  · split
    · exact ⟨s.core.trace, s.core.lost + 1, rfl⟩
    · exact ⟨_, s.core.lost, rfl⟩

@[simp] theorem State.trace_mem (s : State) (ty : Nat) (st : Strm) (p : Nat) : (s.trace ty st p).mem = s.mem := by
  obtain ⟨a, b, h⟩ := s.trace_frame ty st p; rw [h]
@[simp] theorem State.trace_ctx (s : State) (ty : Nat) (st : Strm) (p : Nat) : (s.trace ty st p).ctx = s.ctx := by
  obtain ⟨a, b, h⟩ := s.trace_frame ty st p; rw [h]
@[simp] theorem State.trace_part (s : State) (ty : Nat) (st : Strm) (p : Nat) : (s.trace ty st p).part = s.part := by
  obtain ⟨a, b, h⟩ := s.trace_frame ty st p; rw [h]
@[simp] theorem State.trace_pawns (s : State) (ty : Nat) (st : Strm) (p : Nat) : (s.trace ty st p).core.pawns = s.core.pawns := by
  obtain ⟨a, b, h⟩ := s.trace_frame ty st p; rw [h]
@[simp] theorem State.trace_cycle (s : State) (ty : Nat) (st : Strm) (p : Nat) : (s.trace ty st p).cycle = s.cycle := by
  obtain ⟨a, b, h⟩ := s.trace_frame ty st p; rw [h]

/-- A delay taken changes only the schedule of delays. -/
theorem State.takeDelay_frame (s : State) : s.takeDelay.2 = { s with delays := s.delays.drop 1 } := by
  unfold State.takeDelay
  split
  · rename_i h; simp [h]; rw [← h]
  · rename_i h; simp [h]

/-! ### Writes of the machine's own agents -/

/-- The state but for what a write changes as it reaches its home: memory, the words in error, and the writes that homes keep waiting. -/
def State.homeFrame (s t : State) : Prop :=
  t = { s with mem := t.mem, badWords := t.badWords, flips := t.flips, part := { s.part with replWrites := t.part.replWrites } }

theorem State.homeFrame_refl (s : State) : s.homeFrame s := rfl

theorem State.homeFrame_trans {s t u : State} (h : s.homeFrame t) (g : t.homeFrame u) : s.homeFrame u := by
  unfold State.homeFrame at *
  rw [h] at g
  rw [g]

/-- A write that reaches its home is performed at once or waits there: it changes nothing else. -/
theorem State.frameWrite_frame (s : State) (frame : Option Nat) (key : Nat) (bs : List (BitVec 8)) (site : Nat) (cx : Bool) (path : Nat)
    (serial : Option Nat) : s.homeFrame (s.frameWrite frame key bs site cx path serial) := by
  unfold State.frameWrite
  split
  · rfl
  · split <;> rfl

/-- A write that reaches its home keeps memory canonical. -/
theorem State.frameWrite_wf (s : State) (frame : Option Nat) (key : Nat) (bs : List (BitVec 8)) (site : Nat) (cx : Bool) (path : Nat)
    (serial : Option Nat) (h : s.mem.wf = true) : (s.frameWrite frame key bs site cx path serial).mem.wf = true := by
  unfold State.frameWrite
  split
  · exact Memory.wf_writeBytes _ h
  · split
    · exact Memory.wf_writeBytes _ h
    · exact h

/-- A write at a virtual address reaches the home of the place that the address names. -/
theorem State.writeVa_ok {s t : State} {va n v : Nat} (h : s.writeVa va n v = .ok t) :
    ∃ p, s.placeNow .write va n = .ok p ∧ t = s.hwWrite p (leBytes n v) none := by
  unfold State.writeVa State.writeVaFor at h
  split at h
  · cases h
  · rename_i p hp
    split at h
    · cases h
    · cases h; exact ⟨p, hp, rfl⟩

/-- Words written change what writes change. -/
theorem State.writeWords_frame {s t : State} {va : Nat} {ws : List Nat} (h : s.writeWords va ws = .ok t) : s.homeFrame t := by
  induction ws generalizing s va with
  | nil => simp [State.writeWords] at h; subst h; exact s.homeFrame_refl
  | cons w r ih =>
    simp only [State.writeWords] at h
    split at h
    · cases h
    · rename_i u hu
      obtain ⟨p, _, rfl⟩ := State.writeVa_ok hu
      exact State.homeFrame_trans (State.frameWrite_frame ..) (ih h)

/-- Words written keep memory canonical. -/
theorem State.writeWords_wf {s t : State} {va : Nat} {ws : List Nat} (h : s.writeWords va ws = .ok t) (hw : s.mem.wf = true) : t.mem.wf = true := by
  induction ws generalizing s va with
  | nil => simp [State.writeWords] at h; subst h; exact hw
  | cons w r ih =>
    simp only [State.writeWords] at h
    split at h
    · cases h
    · rename_i u hu
      obtain ⟨p, _, rfl⟩ := State.writeVa_ok hu
      exact ih h (State.frameWrite_wf _ _ _ _ _ _ _ _ hw)

/-- A report to the fault log changes memory, the words in error, and of the partition its log, pending event operations, and the writes that
homes keep waiting. -/
theorem State.logFault_frame (s : State) (cause kind core record frec : Nat) :
    let t := s.logFault cause kind core record frec
    t = { s with mem := t.mem, badWords := t.badWords, flips := t.flips, part := t.part } ∧
    t.part = { s.part with logSeq := s.part.logSeq + 1, floge := t.part.floge, evops := t.part.evops, replWrites := t.part.replWrites } := by
  intro t
  simp only [t, State.logFault]
  split
  · exact ⟨rfl, rfl⟩
  · rename_i u hu
    have hf := State.writeWords_frame hu
    unfold State.homeFrame at hf
    constructor
    · show State.onPart u _ = _
      rw [hf]; rfl
    · show State.part (State.onPart u _) = _
      rw [hf]; rfl

/-- A report keeps memory canonical. -/
theorem State.logFault_wf (s : State) (cause kind core record frec : Nat) (h : s.mem.wf = true) : (s.logFault cause kind core record frec).mem.wf = true := by
  unfold State.logFault
  dsimp only
  split
  · exact h
  · rename_i u hu
    rw [State.onPart_mem]
    refine State.writeWords_wf hu ?_
    rw [State.onPart_mem]
    exact h

/-! ### Issue of C words -/

/-! The prefetches that a first issue starts again look at nothing in the context. -/

theorem State.walkPtrs_withCtx (s : State) (c : Context) (fuel level table va : Nat) :
    ({ s with ctx := c } : State).walkPtrs fuel level table va = s.walkPtrs fuel level table va := by
  induction fuel generalizing level table with
  | zero => rfl
  | succ n ih =>
    simp only [State.walkPtrs]
    have h : ({ s with ctx := c } : State).readPte level (({ s with ctx := c } : State).readPa (table + 8 * levelIndex level va) 8) =
      s.readPte level (s.readPa (table + 8 * levelIndex level va) 8) := rfl
    rw [h]
    split <;> simp [ih]

theorem State.walkCycles_withCtx (s : State) (c : Context) (va : Nat) : ({ s with ctx := c } : State).walkCycles va = s.walkCycles va := by
  simp only [State.walkCycles, State.walkPtrs_withCtx]
  rfl

theorem State.takeDelay_withCtx (s : State) (c : Context) :
    ({ s with ctx := c } : State).takeDelay = (s.takeDelay.1, { s.takeDelay.2 with ctx := c }) := by
  cases h : s.delays <;> simp [State.takeDelay, h]

theorem State.cachePtrs_withCtx (s : State) (c : Context) (l : List (Nat × Nat)) :
    ({ s with ctx := c } : State).cachePtrs l = { s.cachePtrs l with ctx := c } := rfl
theorem State.cachedPtrs_withCtx (s : State) (c : Context) (va : Nat) : ({ s with ctx := c } : State).cachedPtrs va = s.cachedPtrs va := rfl
theorem State.onCore_withCtx (s : State) (c : Context) (f : Core → Core) :
    ({ s with ctx := c } : State).onCore f = { s.onCore f with ctx := c } := rfl
theorem State.bump_withCtx (s : State) (c : Context) : ({ s with ctx := c } : State).bump = { s.bump with ctx := c } := rfl

theorem State.startWalk_withCtx (s : State) (c : Context) (st : Strm) (va : Nat) (p : Bool) :
    ({ s with ctx := c } : State).startWalk st va p = { s.startWalk st va p with ctx := c } := by
  unfold State.startWalk
  dsimp only
  simp only [State.walkCycles_withCtx, State.takeDelay_withCtx, State.cachedPtrs_withCtx, State.cachePtrs_withCtx, State.onCore_withCtx, State.bump_withCtx]
  split
  · rfl
  · split
    · rfl
    · split
      · rfl
      · split <;> rfl

theorem State.prefetchPage_withCtx (s : State) (c : Context) (st : Strm) (va : Nat) :
    ({ s with ctx := c } : State).prefetchPage st va = { s.prefetchPage st va with ctx := c } := by
  unfold State.prefetchPage
  split
  · rfl
  · exact State.startWalk_withCtx s c st va true

theorem State.refetch_withCtx (s : State) (c : Context) (l : List Word) :
    l.foldl (fun s t => s.prefetchPage .c t.toNat) { s with ctx := c } = { l.foldl (fun s t => s.prefetchPage .c t.toNat) s with ctx := c } := by
  induction l generalizing s with
  | nil => rfl
  | cons t r ih =>
    simp only [List.foldl_cons]
    rw [State.prefetchPage_withCtx, ih]

/-- A stream outside loops stands where it goes. -/
theorem walkLoops_nil (n : Nat) (pc : Word) (b : Bool) : walkLoops (n + 1) pc [] b [] = (pc, [], true, []) := rfl

/-- The turn of a context that has issued has started. -/
theorem Context.markStarted_eq (c : Context) : c.markStarted = { c with turn := c.turn.map (fun u => { u with started := true }) } := by
  unfold Context.markStarted
  cases c with | mk turn =>
  cases turn with
  | none => rfl
  | some t =>
    cases t
    simp only [Option.map]
    split <;> simp_all

/-- A walk started changes what the core waits for and the die's walk cache; it takes a number and a delay. -/
theorem State.startWalk_frame (s : State) (st : Strm) (va : Nat) (p : Bool) :
    let t := s.startWalk st va p
    t = { s with serial := t.serial, delays := t.delays, core := { s.core with walks := t.core.walks }, walkCaches := t.walkCaches } := by
  intro t
  simp only [t, State.startWalk]
  split
  · rfl
  · split
    · rfl
    · split
      · rfl
      · split
        · rfl
        · rw [State.takeDelay_frame]
          rfl

/-- As a walk started. -/
theorem State.prefetchPage_frame (s : State) (st : Strm) (va : Nat) :
    let t := s.prefetchPage st va
    t = { s with serial := t.serial, delays := t.delays, core := { s.core with walks := t.core.walks }, walkCaches := t.walkCaches } := by
  intro t
  simp only [t, State.prefetchPage]
  split
  · rfl
  · exact State.startWalk_frame s st va true

/-- The prefetches that start again at a first issue change what the core waits for and the die's walk cache. -/
theorem State.refetch_frame (s : State) (l : List Word) :
    let t := l.foldl (fun s t => s.prefetchPage .c t.toNat) s
    t = { s with serial := t.serial, delays := t.delays, core := { s.core with walks := t.core.walks }, walkCaches := t.walkCaches } := by
  induction l generalizing s with
  | nil => rfl
  | cons w r ih =>
    intro t
    have h := ih (s.prefetchPage .c w.toNat)
    have e : t = r.foldl (fun s t => s.prefetchPage .c t.toNat) (s.prefetchPage .c w.toNat) := rfl
    rw [← e] at h
    dsimp only at h
    rw [State.prefetchPage_frame s .c w.toNat] at h
    exact h

theorem refetched_frame (s : State) : refetched s =
    { s with serial := (refetched s).serial, delays := (refetched s).delays, core := { s.core with walks := (refetched s).core.walks }
             walkCaches := (refetched s).walkCaches } := State.refetch_frame s (targetsAgain s.ctx)

theorem State.withCtx_self (s : State) {c : Context} (h : c = s.ctx) : s = { s with ctx := c } := by subst h; rfl

/-- The first issue after a stop reloads what was saved, and the prefetches start again (R159, R274). -/
theorem State.resumeC_eq (s : State) : s.resumeC = { refetched s with ctx := { s.ctx with
    landing := s.ctx.landing ++ reloaded s.ctx s.cycle
    b := restarted s.ctx s.cycle
    divBusy := divider s.ctx s.cycle
    lbuf := if !s.ctx.tip && s.ctx.resume then [] else s.ctx.lbuf
    hbuf := if s.ctx.tip && s.ctx.hresume then [] else s.ctx.hbuf
    resume := s.ctx.tip && s.ctx.resume
    hresume := !s.ctx.tip && s.ctx.hresume } } := by
  unfold State.resumeC
  cases htip : s.ctx.tip <;> cases hr : s.ctx.resume <;> cases hh : s.ctx.hresume <;>
    simp only [refetched, targetsAgain, reloads, reloaded, restarted, divider, htip, hr, hh, State.reloadC, State.onCtx, State.refetch_withCtx,
      Context.reload, Bool.false_eq_true, if_true, if_false, List.foldl_nil, List.append_nil, Bool.not_true, Bool.not_false, Bool.and_true,
      Bool.and_false]
  all_goals first
    | rfl
    | (refine State.withCtx_self s ?_
       generalize s.ctx = c at *
       cases c
       simp_all)


/-- The C stream goes to a word, and nothing else happens. -/
theorem State.issuedAt_c (s : State) (pc : Word) (b : Bool) : s.issuedAt .c pc [] b = { refetched s with ctx := issuedC s.ctx s.cycle pc [] } := by
  unfold State.issuedAt
  rw [if_pos rfl, State.resumeC_eq]
  simp [State.onCtx, loopsEnded, walkLoops_nil, Context.markStarted_eq, Context.onStrm, StreamSt.goto, issuedC]

/-- The C stream stands at its next word, and nothing else happens. -/
theorem State.issuedIn_c (s : State) : s.issuedIn .c = nextWord s := State.issuedAt_c s _ _

/-- A C word whose result is in flight. -/
theorem State.land_issued (s : State) (lat : Nat) (d : Dest) (v : BitVec 256) : (s.land .c lat d v).issuedIn .c = landsIn s lat d v := by
  have h : refetched (s.land .c lat d v) = { refetched { s with serial := s.serial + 1 } with ctx := (s.land .c lat d v).ctx } :=
    State.refetch_withCtx { s with serial := s.serial + 1 } (s.land .c lat d v).ctx (targetsAgain s.ctx)
  rw [State.issuedIn_c, nextWord, h]
  cases htip : s.ctx.tip <;> simp [landsIn, State.land, State.onCtx, State.bump, issuedC, reloaded, restarted, divider, reloads, htip]

/-- An engine stream outside loops, of a turn that has started, stands at its next word. -/
theorem State.issuedIn_engine (s : State) (st : Strm) (hst : st ≠ .c) (hl : (s.ctx.strm st).loops = [])
    (ht : (s.ctx.turn.map (fun u => u.started)).getD true = true) :
    s.issuedIn st = s.onCtx (fun c => c.onStrm st (fun r =>
      { r with pc := r.pc + 4, loops := [], bound := true, bpSkip := false, awaited := none, wait := none, fence := none, issued := r.issued + 1 })) := by
  have hm : ∀ c : Context, c.turn = s.ctx.turn → c.markStarted = c := by
    intro c hc
    unfold Context.markStarted
    rw [hc]
    cases hu : s.ctx.turn with
    | none => rfl
    | some u => simp [hu] at ht; simp [ht]
  have hlo : s.ctx.loopsOf st = [] := by cases st <;> simp_all [Context.loopsOf, Context.strm]
  unfold State.issuedIn State.issuedAt
  rw [hlo]
  simp only [hst, if_false, loopsEnded, walkLoops_nil, List.foldl_nil, State.onCtx]
  rw [hm _ (by simp)]
  cases st <;> first | exact absurd rfl hst | simp [Context.onStrm, StreamSt.goto, walkLoops_nil, Context.strm]

/-! ### Taking a trap (R178, R181) -/

/-- CAUSE, field by field. -/
theorem PendTrap.causeBits_eq (t : PendTrap) : t.causeBits =
    BitVec.ofNat 24 (t.cause.code + 2 ^ 8 * strmCode t.st + 2 ^ 10 * t.pawn.isSome.toNat + 2 ^ 11 * t.pawn.getD 0 +
      2 ^ 17 * (t.tok.getD 0).val + 2 ^ 20 * t.tok.isSome.toNat + 2 ^ 21 * strmCode t.st2 + 2 ^ 23 * t.async_.toNat) := by
  unfold PendTrap.causeBits
  simp only [Nat.mul_comm]

/-- A trap taken enters its handler. -/
theorem State.enterTrapAt_handler (s : State) (now : Nat) (t : PendTrap) (epc : Word) (ht : s.ctx.tip = false) (he : handlerOf s.part ≠ 0) :
    entersHandler s (s.enterTrapAt now t epc) (inHandler s.ctx s.cycle now s.serial t epc (handlerOf s.part)) := by
  have he' : ¬ (s.part.tvec.toNat / 64 % 2 ^ 46 * 64 = 0) := he
  unfold State.enterTrapAt
  simp only [ht, Bool.false_or, decide_eq_true_eq, he', if_false]
  obtain ⟨tr, lost, h⟩ := State.trace_frame
    (((s.onCtx (fun c =>
      { (c.stopC now).holdEngines with
        ppl := c.pl, pl := true, tip := true, held := true
        cause := t.causeBits, epc := pcBits epc, faddr := vaBits t.faddr, fpc := vaBits t.fpc, fpc2 := vaBits t.fpc2, frec := t.frec
        dead := 0
        waitMask := 0
        fenceKept := c.cs.fence.map (fun f => (epc, f))
        tipSerial := s.serial
        cs := { c.cs with pc := BitVec.ofNat 64 (s.part.tvec.toNat / 64 % 2 ^ 46 * 64), wait := none, awaited := none, fence := none,
                          readyAt := s.cycle + 20 } })).onCore (fun k => { k with wfault := k.wfault.filter (fun f => f.1 != s.cx) }))) 3 .c t.causeBits.toNat
  refine ⟨tr, lost, ?_⟩
  simp only [State.onCtx, State.onCore] at h ⊢
  rw [h]
  simp only [inHandler, handlerOf, PendTrap.causeBits_eq, Context.stopC, Context.holdEngines, saved, Context.savedC, Context.inFlight, pcBits, vaBits]

/-- With a handler running, or none installed, the turn is to retire FAULTED, and only the fault log and memory differ besides. -/
theorem State.enterTrapAt_retires (s : State) (now : Nat) (t : PendTrap) (epc : Word) (h : s.ctx.tip = true ∨ handlerOf s.part = 0) :
    ∃ u record frec, u = s.logFault t.cause.code 5 ((s.logicalOf s.site).getD 0xFFFF) record frec ∧
      s.enterTrapAt now t epc = { u with ctx := { u.ctx with retire := some { faulted := true, cancelled := false } } } := by
  have hc : (s.ctx.tip || decide (s.part.tvec.toNat / 64 % 2 ^ 46 * 64 = 0)) = true := by
    rcases h with h | h
    · simp [h]
    · have h' : s.part.tvec.toNat / 64 % 2 ^ 46 * 64 = 0 := h
      simp only [h', decide_true, Bool.or_true]
  unfold State.enterTrapAt
  simp only [hc, if_true]
  exact ⟨_, _, _, rfl, rfl⟩

end Sys2Proof.Machine
end

