-- ==== Sys2Proof/Laws/Net.lean ====
section
/-! SUPPORT. What the shared operations on requests outside a column do, said once: request slots, offers, answers, and the lists of what the
outside brings to an access. -/

namespace Sys2Proof.Machine

/-! ### Request slots (R30, R397) -/

/-- Taking a request slot changes the slots and the buffers only. -/
theorem Context.takeSlot_eq (c : Context) (j : Fin 8) (n : Nat) :
    c.takeSlot j n = { c with rldSlots := c.rldSlots.set j none, rldBufs := c.rldBufs - n } := rfl

/-- A slot that is taken is not free in any cycle. -/
theorem Context.freeSlot_ne_taken (c : Context) (j : Fin 8) (n now : Nat) : (c.takeSlot j n).freeSlot now ≠ some j := by
  intro h
  have := List.find?_some h
  simp [Context.takeSlot] at this

/-- A free slot has returned by now. -/
theorem Context.freeSlot_returned (c : Context) (j : Fin 8) (now : Nat) (h : c.freeSlot now = some j) :
    ∃ t, c.rldSlots[j] = some t ∧ t ≤ now := by
  have h := List.find?_some h
  split at h
  · exact ⟨_, ‹_›, by simpa using h⟩
  · cases h

/-- A slot given back keeps every other slot and changes nothing but slots and buffers. -/
theorem Context.slotBack_eq (c : Context) (p : Pawn) (n now : Nat) :
    c.slotBack p n now = { c with rldSlots := c.rldSlots.set (Fin.ofNat 8 (p.idx.headD 0)) (some (now + 1)), rldBufs := c.rldBufs + n } := rfl

/-! ### Requests and their answers -/

/-- A request handed to a link changes the ports only. -/
theorem State.offerLink_frame (s : State) (t : LinkTxn) : s.offerLink t = { s with ports := (s.offerLink t).ports } := by
  unfold State.offerLink
  split <;> rfl

/-- The answer to a request is noted at its entry only. -/
theorem State.answerAccess_frame (s : State) (tag at_ : Nat) (c : Option Cause) :
    s.answerAccess tag at_ c = { s with net := (s.answerAccess tag at_ c).net } := rfl

/-- The answer of a host access advances the completions that the outside is to give only. -/
theorem State.hostAnswer_frame (s : State) (key : Nat) (c : Option Cause) :
    (s.hostAnswer key c).2 = { s with hostErrors := (s.hostAnswer key c).2.hostErrors } := by
  unfold State.hostAnswer
  split <;> rfl

/-- The end of a request reaches nothing but its entry, its core and the completions that the outside is to give: memory, the partition and the
networks stand. -/
theorem State.endAccess_frame (s : State) (tag : Nat) (c : Option Cause) :
    s.endAccess tag c = { s with net := (s.endAccess tag c).net, core := (s.endAccess tag c).core, ctx := (s.endAccess tag c).ctx
                                 octx := (s.endAccess tag c).octx, cores := (s.endAccess tag c).cores
                                 hostErrors := (s.endAccess tag c).hostErrors } := by
  unfold State.endAccess
  split
  · rfl
  · rename_i a _
    have h := s.hostAnswer_frame a.key c
    generalize s.hostAnswer a.key c = r at h ⊢
    obtain ⟨cause, t⟩ := r
    dsimp only at h ⊢
    rw [h]
    cases cause with
    | none => rfl
    | some c =>
      simp only [State.putBox]
      split <;> rfl

/-- The waits that an offer excuses are noted in the context only. -/
theorem State.noteOffer_frame (s : State) (w : NetWant) (port : Nat) :
    s.noteOffer w port = { s with ctx := { s.ctx with slow := (s.noteOffer w port).ctx.slow } } := by
  unfold State.noteOffer State.noteSlow
  dsimp only
  repeat' split
  all_goals rfl

/-- Where an access of a step ahead is translated to is kept in the pawn table only. -/
theorem State.keepPlace_frame (s : State) (w : NetWant) :
    s.keepPlace w = { s with core := { s.core with pawns := (s.keepPlace w).core.pawns } } := by
  unfold State.keepPlace
  split
  · rfl
  · split <;> rfl

/-- What an offer notes of a request besides handing it to the networks: the waits that are excused, and the translation of a step ahead. -/
theorem State.noted_frame (s : State) (w : NetWant) :
    ∃ slow pawns, s.noted w = { s with ctx := { s.ctx with slow := slow }, core := { s.core with pawns := pawns } } := by
  refine ⟨(s.noteOffer w (s.wantPort w.place.key)).ctx.slow, (s.noted w).core.pawns, ?_⟩
  unfold State.noted
  have h := s.noteOffer_frame w (s.wantPort w.place.key)
  have g := (s.noteOffer w (s.wantPort w.place.key)).keepPlace_frame w
  generalize (s.noteOffer w (s.wantPort w.place.key)).keepPlace w = u at *
  generalize s.noteOffer w (s.wantPort w.place.key) = t at *
  rw [g, h]

/-- An offer changes the entries of requests, the ports, the mesh, the waits that are excused, and what pawns keep of steps ahead. -/
theorem State.netOffer_frame (s : State) (w : NetWant) :
    ∃ net next ports mesh slow pawns, s.netOffer w =
      { s with net := net, netNext := next, ports := ports, mesh := mesh, ctx := { s.ctx with slow := slow }
               core := { s.core with pawns := pawns } } := by
  obtain ⟨slow, pawns, h⟩ := State.noted_frame { s with net := s.net.filter (fun a => s.netKept a), netNext := s.netNext + 2 } w
  unfold State.netOffer
  dsimp only
  rw [h]
  simp only [State.offerLink, State.onPort]
  repeat' split
  all_goals exact ⟨_, _, _, _, _, _, rfl⟩

/-! ### What the outside brings (log 22) -/

/-- The residue check of a step advances its list only. -/
theorem State.takeMismatch_frame (s : State) : s.takeMismatch = (s.mismatches.headD false, { s with mismatches := s.mismatches.tail }) := by
  unfold State.takeMismatch
  cases s
  dsimp only
  split <;> simp_all

end Sys2Proof.Machine
end

