-- ==== Sys2Proof/Laws/PerInstr.lean ====
section
/-! SUPPORT. Said once per instruction: a word of a stream has an encoding of 32 bits; an event has none (R246, R255). -/

namespace Sys2Proof

/-! ### The operand bits of each format fit below its fixed bits (R256 to R261) -/

theorem Op.Alu.toBits_le (o : Op.Alu) : o.toBits ≤ 67108736 := by
  unfold Op.Alu.toBits
  have := o.g.isLt
  have := o.rd.isLt
  have := o.ra.isLt
  have := o.rb.isLt
  have := o.w.toNat_le
  omega

theorem Op.AluUn.toBits_le (o : Op.AluUn) : o.toBits ≤ 67100800 := by
  unfold Op.AluUn.toBits
  have := o.g.isLt
  have := o.rd.isLt
  have := o.ra.isLt
  have := o.w.toNat_le
  omega

theorem Op.Imm.toBits_le (o : Op.Imm) : o.toBits ≤ 67108863 := by
  unfold Op.Imm.toBits
  have := o.g.isLt
  have := o.rd.isLt
  have := o.ra.isLt
  have := o.imm.isLt
  omega

theorem Op.ShiftImm.toBits_le (o : Op.ShiftImm) : o.toBits ≤ 67100735 := by
  unfold Op.ShiftImm.toBits
  have := o.g.isLt
  have := o.rd.isLt
  have := o.ra.isLt
  have := o.amount.isLt
  omega

theorem Op.Upper.toBits_le (o : Op.Upper) : o.toBits ≤ 67108863 := by
  unfold Op.Upper.toBits
  have := o.g.isLt
  have := o.rd.isLt
  have := o.imm.isLt
  omega

theorem Op.Cmp.toBits_le (o : Op.Cmp) : o.toBits ≤ 60817152 := by
  unfold Op.Cmp.toBits
  have := o.g.isLt
  have := o.pd.isLt
  have := o.ra.isLt
  have := o.rb.isLt
  omega

theorem Op.CmpImm.toBits_le (o : Op.CmpImm) : o.toBits ≤ 60817407 := by
  unfold Op.CmpImm.toBits
  have := o.g.isLt
  have := o.pd.isLt
  have := o.ra.isLt
  have := o.imm.isLt
  omega

theorem Op.Pred.toBits_le (o : Op.Pred) : o.toBits ≤ 60614400 := by
  unfold Op.Pred.toBits
  have := o.g.isLt
  have := o.pd.isLt
  have := o.pa.isLt
  have := o.pb.isLt
  omega

theorem Op.OneSrc.toBits_le (o : Op.OneSrc) : o.toBits ≤ 58974208 := by
  unfold Op.OneSrc.toBits
  have := o.g.isLt
  have := o.ra.isLt
  omega

theorem Op.OneDst.toBits_le (o : Op.OneDst) : o.toBits ≤ 66846720 := by
  unfold Op.OneDst.toBits
  have := o.g.isLt
  have := o.rd.isLt
  omega

theorem Op.Sel.toBits_le (o : Op.Sel) : o.toBits ≤ 67108615 := by
  unfold Op.Sel.toBits
  have := o.g.isLt
  have := o.rd.isLt
  have := o.ra.isLt
  have := o.rb.isLt
  have := o.ps.isLt
  omega

theorem Op.Mem.toBits_le (o : Op.Mem) : o.toBits ≤ 67108863 := by
  unfold Op.Mem.toBits
  have := o.g.isLt
  have := o.rd.isLt
  have := o.ra.isLt
  have := o.tok.isLt
  have := o.off.isLt
  omega

theorem Op.Wait.toBits_le (o : Op.Wait) : o.toBits ≤ 58720511 := by
  unfold Op.Wait.toBits
  have := o.g.isLt
  have := o.mask.isLt
  omega

theorem Op.Pbr.toBits_le (o : Op.Pbr) : o.toBits ≤ 67108863 := by
  unfold Op.Pbr.toBits
  have := o.g.isLt
  have := o.bt.isLt
  have := o.disp.isLt
  omega

theorem Op.Pbrx.toBits_le (o : Op.Pbrx) : o.toBits ≤ 60809216 := by
  unfold Op.Pbrx.toBits
  have := o.g.isLt
  have := o.bt.isLt
  have := o.ra.isLt
  omega

theorem Op.Branch.toBits_le (o : Op.Branch) : o.toBits ≤ 66846720 := by
  unfold Op.Branch.toBits
  have := o.g.isLt
  have := o.bt.isLt
  have := o.hint.isLt
  omega

theorem Op.Loopc.toBits_le (o : Op.Loopc) : o.toBits ≤ 67100672 := by
  unfold Op.Loopc.toBits
  have := o.g.isLt
  have := o.bt.isLt
  have := o.hint.isLt
  have := o.rc.isLt
  omega

theorem Op.Drain.toBits_le (o : Op.Drain) : o.toBits ≤ 60555264 := by
  unfold Op.Drain.toBits
  have := o.g.isLt
  have := o.mask.isLt
  omega

theorem Op.Bind.toBits_le (o : Op.Bind) : o.toBits ≤ 59630336 := by
  unfold Op.Bind.toBits
  have := o.g.isLt
  have := o.prod.isLt
  have := o.q.isLt
  have := o.cons.isLt
  omega

theorem Op.QGet.toBits_le (o : Op.QGet) : o.toBits ≤ 66977536 := by
  unfold Op.QGet.toBits
  have := o.g.isLt
  have := o.rd.isLt
  have := o.q.isLt
  have := o.k.isLt
  have := o.tok.isLt
  omega

theorem Op.QPut.toBits_le (o : Op.QPut) : o.toBits ≤ 66977536 := by
  unfold Op.QPut.toBits
  have := o.g.isLt
  have := o.k.isLt
  have := o.tok.isLt
  have := o.q.isLt
  have := o.rb.isLt
  omega

theorem Op.Token.toBits_le (o : Op.Token) : o.toBits ≤ 59506688 := by
  unfold Op.Token.toBits
  have := o.g.isLt
  have := o.eng.isLt
  omega

theorem Op.TokSrc.toBits_le (o : Op.TokSrc) : o.toBits ≤ 60809216 := by
  unfold Op.TokSrc.toBits
  have := o.g.isLt
  have := o.tok.isLt
  have := o.ra.isLt
  omega

theorem Op.TokSrc2.toBits_le (o : Op.TokSrc2) : o.toBits ≤ 60817152 := by
  unfold Op.TokSrc2.toBits
  have := o.g.isLt
  have := o.tok.isLt
  have := o.ra.isLt
  have := o.rb.isLt
  omega

theorem Op.Bare.toBits_le (o : Op.Bare) : o.toBits ≤ 58720256 := by
  unfold Op.Bare.toBits
  have := o.g.isLt
  omega

theorem Op.TwoSrc.toBits_le (o : Op.TwoSrc) : o.toBits ≤ 58982144 := by
  unfold Op.TwoSrc.toBits
  have := o.g.isLt
  have := o.ra.isLt
  have := o.rb.isLt
  omega

theorem Op.TokRes.toBits_le (o : Op.TokRes) : o.toBits ≤ 67102464 := by
  unfold Op.TokRes.toBits
  have := o.g.isLt
  have := o.rd.isLt
  have := o.ra.isLt
  have := o.tok.isLt
  omega

theorem Op.Cancel.toBits_le (o : Op.Cancel) : o.toBits ≤ 60811008 := by
  unfold Op.Cancel.toBits
  have := o.g.isLt
  have := o.tok.isLt
  have := o.ra.isLt
  have := o.level.isLt
  omega

theorem Op.PawnRes.toBits_le (o : Op.PawnRes) : o.toBits ≤ 66971392 := by
  unfold Op.PawnRes.toBits
  have := o.g.isLt
  have := o.rd.isLt
  have := o.h.isLt
  have := o.tok.isLt
  omega

theorem Op.PawnArg.toBits_le (o : Op.PawnArg) : o.toBits ≤ 60686080 := by
  unfold Op.PawnArg.toBits
  have := o.g.isLt
  have := o.tok.isLt
  have := o.h.isLt
  have := o.rb.isLt
  omega

theorem Op.ResTok.toBits_le (o : Op.ResTok) : o.toBits ≤ 66848512 := by
  unfold Op.ResTok.toBits
  have := o.g.isLt
  have := o.rd.isLt
  have := o.tok.isLt
  omega

theorem Op.Coll.toBits_le (o : Op.Coll) : o.toBits ≤ 67108608 := by
  unfold Op.Coll.toBits
  have := o.g.isLt
  have := o.detach.toNat_le
  have := o.h.isLt
  have := o.ra.isLt
  have := o.rb.isLt
  omega

theorem Op.Barrier.toBits_le (o : Op.Barrier) : o.toBits ≤ 67100672 := by
  unfold Op.Barrier.toBits
  have := o.g.isLt
  have := o.detach.toNat_le
  have := o.h.isLt
  have := o.ra.isLt
  omega

theorem Op.CFence.toBits_le (o : Op.CFence) : o.toBits ≤ 67108608 := by
  unfold Op.CFence.toBits
  have := o.g.isLt
  have := o.before.isLt
  have := o.after.isLt
  have := o.scope.isLt
  omega

theorem Op.Crr.toBits_le (o : Op.Crr) : o.toBits ≤ 66908159 := by
  unfold Op.Crr.toBits
  have := o.g.isLt
  have := o.rd.isLt
  have := o.tok.isLt
  have := o.reg.isLt
  omega

theorem Op.Crw.toBits_le (o : Op.Crw) : o.toBits ≤ 58978303 := by
  unfold Op.Crw.toBits
  have := o.g.isLt
  have := o.ra.isLt
  have := o.reg.isLt
  omega

theorem Op.Code.toBits_le (o : Op.Code) : o.toBits ≤ 67108608 := by
  unfold Op.Code.toBits
  have := o.g.isLt
  have := o.code.isLt
  omega

theorem Op.Tq.toBits_le (o : Op.Tq) : o.toBits ≤ 67108863 := by
  unfold Op.Tq.toBits
  have := o.sync.isLt
  have := o.q.isLt
  have := o.ra.isLt
  have := o.ly.isLt
  have := o.step.isLt
  omega

theorem Op.Pref.toBits_le (o : Op.Pref) : o.toBits ≤ 59244543 := by
  unfold Op.Pref.toBits
  have := o.sync.isLt
  have := o.ra.isLt
  have := o.ly.isLt
  have := o.step.isLt
  omega

theorem Op.Tc.toBits_le (o : Op.Tc) : o.toBits ≤ 67108863 := by
  unfold Op.Tc.toBits
  have := o.sync.isLt
  have := o.h.isLt
  have := o.dst.isLt
  have := o.src.isLt
  have := o.ly.isLt
  have := o.pri.isLt
  have := o.detach.toNat_le
  have := o.raw.toNat_le
  omega

theorem Op.Tr.toBits_le (o : Op.Tr) : o.toBits ≤ 67108352 := by
  unfold Op.Tr.toBits
  have := o.sync.isLt
  have := o.h.isLt
  have := o.dst.isLt
  have := o.src.isLt
  have := o.size.isLt
  omega

theorem Op.Sacc.toBits_le (o : Op.Sacc) : o.toBits ≤ 60816896 := by
  unfold Op.Sacc.toBits
  have := o.sync.isLt
  have := o.qi.isLt
  have := o.qv.isLt
  have := o.ra.isLt
  omega

theorem Op.Scas.toBits_le (o : Op.Scas) : o.toBits ≤ 67107840 := by
  unfold Op.Scas.toBits
  have := o.sync.isLt
  have := o.qv.isLt
  have := o.qd.isLt
  have := o.ra.isLt
  have := o.wide.toNat_le
  omega

theorem Op.Adda.toBits_le (o : Op.Adda) : o.toBits ≤ 67108863 := by
  unfold Op.Adda.toBits
  have := o.sync.isLt
  have := o.dst.isLt
  have := o.src.isLt
  have := o.imm.isLt
  omega

theorem Op.Addar.toBits_le (o : Op.Addar) : o.toBits ≤ 67076096 := by
  unfold Op.Addar.toBits
  have := o.sync.isLt
  have := o.dst.isLt
  have := o.src.isLt
  omega

theorem Op.Loop.toBits_le (o : Op.Loop) : o.toBits ≤ 67108848 := by
  unfold Op.Loop.toBits
  have := o.sync.isLt
  have := o.id.isLt
  have := o.stm1.isLt
  have := o.cnt.isLt
  have := o.len.isLt
  omega

theorem Op.Chan.toBits_le (o : Op.Chan) : o.toBits ≤ 67100672 := by
  unfold Op.Chan.toBits
  have := o.sync.isLt
  have := o.ch.isLt
  have := o.ra.isLt
  omega

theorem Op.Sync.toBits_le (o : Op.Sync) : o.toBits ≤ 62914560 := by
  unfold Op.Sync.toBits
  have := o.sync.isLt
  have := o.postC.toNat_le
  omega

theorem Op.EFence.toBits_le (o : Op.EFence) : o.toBits ≤ 67108608 := by
  unfold Op.EFence.toBits
  have := o.sync.isLt
  have := o.before.isLt
  have := o.after.isLt
  have := o.scope.isLt
  omega

theorem Op.EBare.toBits_le (o : Op.EBare) : o.toBits ≤ 58720256 := by
  unfold Op.EBare.toBits
  have := o.sync.isLt
  omega

theorem Op.Waith.toBits_le (o : Op.Waith) : o.toBits ≤ 66584576 := by
  unfold Op.Waith.toBits
  have := o.sync.isLt
  have := o.h.isLt
  omega

theorem Op.NsetLevel.toBits_le (o : Op.NsetLevel) : o.toBits ≤ 66977791 := by
  unfold Op.NsetLevel.toBits
  have := o.sync.isLt
  have := o.level.isLt
  have := o.field.isLt
  have := o.v.isLt
  omega

theorem Op.NsetIns.toBits_le (o : Op.NsetIns) : o.toBits ≤ 59637759 := by
  unfold Op.NsetIns.toBits
  have := o.sync.isLt
  have := o.mb.isLt
  have := o.v.isLt
  omega

theorem Op.NsetFmt.toBits_le (o : Op.NsetFmt) : o.toBits ≤ 58982415 := by
  unfold Op.NsetFmt.toBits
  have := o.sync.isLt
  have := o.isB.toNat_le
  have := o.v.isLt
  omega

theorem Op.Mgo.toBits_le (o : Op.Mgo) : o.toBits ≤ 67108848 := by
  unfold Op.Mgo.toBits
  have := o.sync.isLt
  have := o.h.isLt
  have := o.mba.isLt
  have := o.mbb.isLt
  have := o.t.isLt
  have := o.acc.toNat_le
  have := o.pri.isLt
  have := o.detach.toNat_le
  have := o.depm1.isLt
  have := o.mc.toNat_le
  omega

theorem Op.Mzero.toBits_le (o : Op.Mzero) : o.toBits ≤ 65011712 := by
  unfold Op.Mzero.toBits
  have := o.sync.isLt
  have := o.t.isLt
  omega

theorem Op.Mc.toBits_le (o : Op.Mc) : o.toBits ≤ 67108832 := by
  unfold Op.Mc.toBits
  have := o.sync.isLt
  have := o.h.isLt
  have := o.mb.isLt
  have := o.t.isLt
  have := o.ly.isLt
  have := o.pri.isLt
  have := o.detach.toNat_le
  omega

theorem Op.Accmul.toBits_le (o : Op.Accmul) : o.toBits ≤ 67108848 := by
  unfold Op.Accmul.toBits
  have := o.sync.isLt
  have := o.h.isLt
  have := o.mb.isLt
  have := o.t.isLt
  have := o.ly.isLt
  have := o.pri.isLt
  have := o.detach.toNat_le
  have := o.axis.toNat_le
  omega

theorem Op.MLoop.toBits_le (o : Op.MLoop) : o.toBits ≤ 66912240 := by
  unfold Op.MLoop.toBits
  have := o.sync.isLt
  have := o.id.isLt
  have := o.stm1.isLt
  have := o.mb.isLt
  have := o.len.isLt
  omega

theorem Op.Vv.toBits_le (o : Op.Vv) : o.toBits ≤ 67108800 := by
  unfold Op.Vv.toBits
  have := o.sync.isLt
  have := o.qd.isLt
  have := o.qa.isLt
  have := o.qb.isLt
  have := o.m.isLt
  have := o.pka.toNat_le
  have := o.pkb.toNat_le
  omega

theorem Op.Vu.toBits_le (o : Op.Vu) : o.toBits ≤ 67078016 := by
  unfold Op.Vu.toBits
  have := o.sync.isLt
  have := o.qd.isLt
  have := o.qa.isLt
  have := o.m.isLt
  have := o.pka.toNat_le
  omega

theorem Op.Vc.toBits_le (o : Op.Vc) : o.toBits ≤ 66584536 := by
  unfold Op.Vc.toBits
  have := o.sync.isLt
  have := o.md.isLt
  have := o.qa.isLt
  have := o.qb.isLt
  have := o.m.isLt
  have := o.pka.toNat_le
  have := o.pkb.toNat_le
  have := o.uns.toNat_le
  have := o.int.toNat_le
  omega

theorem Op.Vs.toBits_le (o : Op.Vs) : o.toBits ≤ 67108736 := by
  unfold Op.Vs.toBits
  have := o.sync.isLt
  have := o.qd.isLt
  have := o.qa.isLt
  have := o.sr.isLt
  have := o.m.isLt
  have := o.pka.toNat_le
  omega

theorem Op.Vi.toBits_le (o : Op.Vi) : o.toBits ≤ 67108863 := by
  unfold Op.Vi.toBits
  have := o.sync.isLt
  have := o.qd.isLt
  have := o.qa.isLt
  have := o.m.isLt
  have := o.pka.toNat_le
  have := o.imm.isLt
  omega

theorem Op.Vbi.toBits_le (o : Op.Vbi) : o.toBits ≤ 66615295 := by
  unfold Op.Vbi.toBits
  have := o.sync.isLt
  have := o.qd.isLt
  have := o.m.isLt
  have := o.imm.isLt
  omega

theorem Op.Vcvt.toBits_le (o : Op.Vcvt) : o.toBits ≤ 67108856 := by
  unfold Op.Vcvt.toBits
  have := o.sync.isLt
  have := o.qd.isLt
  have := o.qa.isLt
  have := o.m.isLt
  have := o.pka.toNat_le
  have := o.fmt.isLt
  have := o.rm.isLt
  have := o.sat.toNat_le
  omega

theorem Op.Vb.toBits_le (o : Op.Vb) : o.toBits ≤ 66617088 := by
  unfold Op.Vb.toBits
  have := o.sync.isLt
  have := o.qd.isLt
  have := o.sr.isLt
  have := o.m.isLt
  omega

theorem Op.Vp.toBits_le (o : Op.Vp) : o.toBits ≤ 59211776 := by
  unfold Op.Vp.toBits
  have := o.sync.isLt
  have := o.qa.isLt
  omega

theorem Op.Vset.toBits_le (o : Op.Vset) : o.toBits ≤ 62652416 := by
  unfold Op.Vset.toBits
  have := o.sync.isLt
  have := o.sr.isLt
  omega

theorem Op.Vm.toBits_le (o : Op.Vm) : o.toBits ≤ 67092480 := by
  unfold Op.Vm.toBits
  have := o.sync.isLt
  have := o.md.isLt
  have := o.ma.isLt
  have := o.mb.isLt
  omega

theorem Op.Vn.toBits_le (o : Op.Vn) : o.toBits ≤ 66977792 := by
  unfold Op.Vn.toBits
  have := o.sync.isLt
  have := o.md.isLt
  have := o.ma.isLt
  omega

theorem Op.Vl2s.toBits_le (o : Op.Vl2s) : o.toBits ≤ 62914528 := by
  unfold Op.Vl2s.toBits
  have := o.sync.isLt
  have := o.sr.isLt
  have := o.q.isLt
  have := o.lane.isLt
  have := o.pk.toNat_le
  omega

theorem Op.Vs2l.toBits_le (o : Op.Vs2l) : o.toBits ≤ 62914496 := by
  unfold Op.Vs2l.toBits
  have := o.sync.isLt
  have := o.sr.isLt
  have := o.q.isLt
  have := o.lane.isLt
  omega

theorem Op.Spls.toBits_le (o : Op.Spls) : o.toBits ≤ 59767808 := by
  unfold Op.Spls.toBits
  have := o.sync.isLt
  have := o.q.isLt
  have := o.part.isLt
  have := o.sr.isLt
  omega

theorem Op.Spup.toBits_le (o : Op.Spup) : o.toBits ≤ 59703297 := by
  unfold Op.Spup.toBits
  have := o.sync.isLt
  have := o.qr.isLt
  have := o.addInto.toNat_le
  omega

theorem Op.Spdn.toBits_le (o : Op.Spdn) : o.toBits ≤ 59703296 := by
  unfold Op.Spdn.toBits
  have := o.sync.isLt
  have := o.qr.isLt
  omega

theorem Op.Spcvt.toBits_le (o : Op.Spcvt) : o.toBits ≤ 59766784 := by
  unfold Op.Spcvt.toBits
  have := o.sync.isLt
  have := o.qd.isLt
  have := o.qa.isLt
  have := o.toF.toNat_le
  omega

/-! ### One lemma per instruction -/

/-- The instruction is an event, which has no word, or it is a word of a stream, and that word has 32 bits (R246, R255). -/
def Laws.WordForm.Statement (i : Instr) : Prop :=
  (i.stream = none ∧ encode i = none) ∨ (∃ st w, i.stream = some st ∧ encode i = some w ∧ w < 2 ^ 32)

namespace Laws.WordForm

theorem add (o : Op.Alu) : Statement (.add o) := by
  have := o.toBits_le
  exact .inr ⟨_, _, rfl, rfl, by omega⟩

theorem sub (o : Op.Alu) : Statement (.sub o) := by
  have := o.toBits_le
  exact .inr ⟨_, _, rfl, rfl, by omega⟩

theorem and (o : Op.Alu) : Statement (.and o) := by
  have := o.toBits_le
  exact .inr ⟨_, _, rfl, rfl, by omega⟩

theorem or (o : Op.Alu) : Statement (.or o) := by
  have := o.toBits_le
  exact .inr ⟨_, _, rfl, rfl, by omega⟩

theorem xor (o : Op.Alu) : Statement (.xor o) := by
  have := o.toBits_le
  exact .inr ⟨_, _, rfl, rfl, by omega⟩

theorem shl (o : Op.Alu) : Statement (.shl o) := by
  have := o.toBits_le
  exact .inr ⟨_, _, rfl, rfl, by omega⟩

theorem shr (o : Op.Alu) : Statement (.shr o) := by
  have := o.toBits_le
  exact .inr ⟨_, _, rfl, rfl, by omega⟩

theorem sra (o : Op.Alu) : Statement (.sra o) := by
  have := o.toBits_le
  exact .inr ⟨_, _, rfl, rfl, by omega⟩

theorem mul (o : Op.Alu) : Statement (.mul o) := by
  have := o.toBits_le
  exact .inr ⟨_, _, rfl, rfl, by omega⟩

theorem mulh (o : Op.Alu) : Statement (.mulh o) := by
  have := o.toBits_le
  exact .inr ⟨_, _, rfl, rfl, by omega⟩

theorem mulhu (o : Op.Alu) : Statement (.mulhu o) := by
  have := o.toBits_le
  exact .inr ⟨_, _, rfl, rfl, by omega⟩

theorem div (o : Op.Alu) : Statement (.div o) := by
  have := o.toBits_le
  exact .inr ⟨_, _, rfl, rfl, by omega⟩

theorem divu (o : Op.Alu) : Statement (.divu o) := by
  have := o.toBits_le
  exact .inr ⟨_, _, rfl, rfl, by omega⟩

theorem rem (o : Op.Alu) : Statement (.rem o) := by
  have := o.toBits_le
  exact .inr ⟨_, _, rfl, rfl, by omega⟩

theorem remu (o : Op.Alu) : Statement (.remu o) := by
  have := o.toBits_le
  exact .inr ⟨_, _, rfl, rfl, by omega⟩

theorem min (o : Op.Alu) : Statement (.min o) := by
  have := o.toBits_le
  exact .inr ⟨_, _, rfl, rfl, by omega⟩

theorem max (o : Op.Alu) : Statement (.max o) := by
  have := o.toBits_le
  exact .inr ⟨_, _, rfl, rfl, by omega⟩

theorem clz (o : Op.AluUn) : Statement (.clz o) := by
  have := o.toBits_le
  exact .inr ⟨_, _, rfl, rfl, by omega⟩

theorem popc (o : Op.AluUn) : Statement (.popc o) := by
  have := o.toBits_le
  exact .inr ⟨_, _, rfl, rfl, by omega⟩

theorem addi (o : Op.Imm) : Statement (.addi o) := by
  have := o.toBits_le
  exact .inr ⟨_, _, rfl, rfl, by omega⟩

theorem andi (o : Op.Imm) : Statement (.andi o) := by
  have := o.toBits_le
  exact .inr ⟨_, _, rfl, rfl, by omega⟩

theorem ori (o : Op.Imm) : Statement (.ori o) := by
  have := o.toBits_le
  exact .inr ⟨_, _, rfl, rfl, by omega⟩

theorem xori (o : Op.Imm) : Statement (.xori o) := by
  have := o.toBits_le
  exact .inr ⟨_, _, rfl, rfl, by omega⟩

theorem shli (o : Op.ShiftImm) : Statement (.shli o) := by
  have := o.toBits_le
  exact .inr ⟨_, _, rfl, rfl, by omega⟩

theorem shri (o : Op.ShiftImm) : Statement (.shri o) := by
  have := o.toBits_le
  exact .inr ⟨_, _, rfl, rfl, by omega⟩

theorem srai (o : Op.ShiftImm) : Statement (.srai o) := by
  have := o.toBits_le
  exact .inr ⟨_, _, rfl, rfl, by omega⟩

theorem lui (o : Op.Upper) : Statement (.lui o) := by
  have := o.toBits_le
  exact .inr ⟨_, _, rfl, rfl, by omega⟩

theorem addpc (o : Op.Upper) : Statement (.addpc o) := by
  have := o.toBits_le
  exact .inr ⟨_, _, rfl, rfl, by omega⟩

theorem cmpEq (o : Op.Cmp) : Statement (.cmpEq o) := by
  have := o.toBits_le
  exact .inr ⟨_, _, rfl, rfl, by omega⟩

theorem cmpNe (o : Op.Cmp) : Statement (.cmpNe o) := by
  have := o.toBits_le
  exact .inr ⟨_, _, rfl, rfl, by omega⟩

theorem cmpLt (o : Op.Cmp) : Statement (.cmpLt o) := by
  have := o.toBits_le
  exact .inr ⟨_, _, rfl, rfl, by omega⟩

theorem cmpLtu (o : Op.Cmp) : Statement (.cmpLtu o) := by
  have := o.toBits_le
  exact .inr ⟨_, _, rfl, rfl, by omega⟩

theorem cmpGe (o : Op.Cmp) : Statement (.cmpGe o) := by
  have := o.toBits_le
  exact .inr ⟨_, _, rfl, rfl, by omega⟩

theorem cmpGeu (o : Op.Cmp) : Statement (.cmpGeu o) := by
  have := o.toBits_le
  exact .inr ⟨_, _, rfl, rfl, by omega⟩

theorem cmpiEq (o : Op.CmpImm) : Statement (.cmpiEq o) := by
  have := o.toBits_le
  exact .inr ⟨_, _, rfl, rfl, by omega⟩

theorem cmpiNe (o : Op.CmpImm) : Statement (.cmpiNe o) := by
  have := o.toBits_le
  exact .inr ⟨_, _, rfl, rfl, by omega⟩

theorem cmpiLt (o : Op.CmpImm) : Statement (.cmpiLt o) := by
  have := o.toBits_le
  exact .inr ⟨_, _, rfl, rfl, by omega⟩

theorem cmpiLtu (o : Op.CmpImm) : Statement (.cmpiLtu o) := by
  have := o.toBits_le
  exact .inr ⟨_, _, rfl, rfl, by omega⟩

theorem pand (o : Op.Pred) : Statement (.pand o) := by
  have := o.toBits_le
  exact .inr ⟨_, _, rfl, rfl, by omega⟩

theorem por (o : Op.Pred) : Statement (.por o) := by
  have := o.toBits_le
  exact .inr ⟨_, _, rfl, rfl, by omega⟩

theorem pxor (o : Op.Pred) : Statement (.pxor o) := by
  have := o.toBits_le
  exact .inr ⟨_, _, rfl, rfl, by omega⟩

theorem pandn (o : Op.Pred) : Statement (.pandn o) := by
  have := o.toBits_le
  exact .inr ⟨_, _, rfl, rfl, by omega⟩

theorem pfrom (o : Op.OneSrc) : Statement (.pfrom o) := by
  have := o.toBits_le
  exact .inr ⟨_, _, rfl, rfl, by omega⟩

theorem pto (o : Op.OneDst) : Statement (.pto o) := by
  have := o.toBits_le
  exact .inr ⟨_, _, rfl, rfl, by omega⟩

theorem sel (o : Op.Sel) : Statement (.sel o) := by
  have := o.toBits_le
  exact .inr ⟨_, _, rfl, rfl, by omega⟩

theorem ldb (o : Op.Mem) : Statement (.ldb o) := by
  have := o.toBits_le
  exact .inr ⟨_, _, rfl, rfl, by omega⟩

theorem ldh (o : Op.Mem) : Statement (.ldh o) := by
  have := o.toBits_le
  exact .inr ⟨_, _, rfl, rfl, by omega⟩

theorem ldw (o : Op.Mem) : Statement (.ldw o) := by
  have := o.toBits_le
  exact .inr ⟨_, _, rfl, rfl, by omega⟩

theorem ldd (o : Op.Mem) : Statement (.ldd o) := by
  have := o.toBits_le
  exact .inr ⟨_, _, rfl, rfl, by omega⟩

theorem ldbu (o : Op.Mem) : Statement (.ldbu o) := by
  have := o.toBits_le
  exact .inr ⟨_, _, rfl, rfl, by omega⟩

theorem ldhu (o : Op.Mem) : Statement (.ldhu o) := by
  have := o.toBits_le
  exact .inr ⟨_, _, rfl, rfl, by omega⟩

theorem ldwu (o : Op.Mem) : Statement (.ldwu o) := by
  have := o.toBits_le
  exact .inr ⟨_, _, rfl, rfl, by omega⟩

theorem stb (o : Op.Mem) : Statement (.stb o) := by
  have := o.toBits_le
  exact .inr ⟨_, _, rfl, rfl, by omega⟩

theorem sth (o : Op.Mem) : Statement (.sth o) := by
  have := o.toBits_le
  exact .inr ⟨_, _, rfl, rfl, by omega⟩

theorem stw (o : Op.Mem) : Statement (.stw o) := by
  have := o.toBits_le
  exact .inr ⟨_, _, rfl, rfl, by omega⟩

theorem std (o : Op.Mem) : Statement (.std o) := by
  have := o.toBits_le
  exact .inr ⟨_, _, rfl, rfl, by omega⟩

theorem wait (o : Op.Wait) : Statement (.wait o) := by
  have := o.toBits_le
  exact .inr ⟨_, _, rfl, rfl, by omega⟩

theorem pbr (o : Op.Pbr) : Statement (.pbr o) := by
  have := o.toBits_le
  exact .inr ⟨_, _, rfl, rfl, by omega⟩

theorem pbrx (o : Op.Pbrx) : Statement (.pbrx o) := by
  have := o.toBits_le
  exact .inr ⟨_, _, rfl, rfl, by omega⟩

theorem br (o : Op.Branch) : Statement (.br o) := by
  have := o.toBits_le
  exact .inr ⟨_, _, rfl, rfl, by omega⟩

theorem call (o : Op.Branch) : Statement (.call o) := by
  have := o.toBits_le
  exact .inr ⟨_, _, rfl, rfl, by omega⟩

theorem loopc (o : Op.Loopc) : Statement (.loopc o) := by
  have := o.toBits_le
  exact .inr ⟨_, _, rfl, rfl, by omega⟩

theorem tstart (o : Op.OneSrc) : Statement (.tstart o) := by
  have := o.toBits_le
  exact .inr ⟨_, _, rfl, rfl, by omega⟩

theorem mstart (o : Op.OneSrc) : Statement (.mstart o) := by
  have := o.toBits_le
  exact .inr ⟨_, _, rfl, rfl, by omega⟩

theorem vstart (o : Op.OneSrc) : Statement (.vstart o) := by
  have := o.toBits_le
  exact .inr ⟨_, _, rfl, rfl, by omega⟩

theorem sdrain (o : Op.Drain) : Statement (.sdrain o) := by
  have := o.toBits_le
  exact .inr ⟨_, _, rfl, rfl, by omega⟩

theorem qbind (o : Op.Bind) : Statement (.qbind o) := by
  have := o.toBits_le
  exact .inr ⟨_, _, rfl, rfl, by omega⟩

theorem qget (o : Op.QGet) : Statement (.qget o) := by
  have := o.toBits_le
  exact .inr ⟨_, _, rfl, rfl, by omega⟩

theorem qgetp (o : Op.QGet) : Statement (.qgetp o) := by
  have := o.toBits_le
  exact .inr ⟨_, _, rfl, rfl, by omega⟩

theorem qput (o : Op.QPut) : Statement (.qput o) := by
  have := o.toBits_le
  exact .inr ⟨_, _, rfl, rfl, by omega⟩

theorem tpost (o : Op.Token) : Statement (.tpost o) := by
  have := o.toBits_le
  exact .inr ⟨_, _, rfl, rfl, by omega⟩

theorem tawait (o : Op.Token) : Statement (.tawait o) := by
  have := o.toBits_le
  exact .inr ⟨_, _, rfl, rfl, by omega⟩

theorem spawn (o : Op.TokSrc) : Statement (.spawn o) := by
  have := o.toBits_le
  exact .inr ⟨_, _, rfl, rfl, by omega⟩

theorem join (o : Op.TokSrc2) : Statement (.join o) := by
  have := o.toBits_le
  exact .inr ⟨_, _, rfl, rfl, by omega⟩

theorem cEnd (o : Op.Bare) : Statement (.cEnd o) := by
  have := o.toBits_le
  exact .inr ⟨_, _, rfl, rfl, by omega⟩

theorem ewait (o : Op.TwoSrc) : Statement (.ewait o) := by
  have := o.toBits_le
  exact .inr ⟨_, _, rfl, rfl, by omega⟩

theorem epost (o : Op.TokSrc) : Statement (.epost o) := by
  have := o.toBits_le
  exact .inr ⟨_, _, rfl, rfl, by omega⟩

theorem etest (o : Op.TokRes) : Statement (.etest o) := by
  have := o.toBits_le
  exact .inr ⟨_, _, rfl, rfl, by omega⟩

theorem launch (o : Op.TokSrc) : Statement (.launch o) := by
  have := o.toBits_le
  exact .inr ⟨_, _, rfl, rfl, by omega⟩

theorem budget (o : Op.TokRes) : Statement (.budget o) := by
  have := o.toBits_le
  exact .inr ⟨_, _, rfl, rfl, by omega⟩

theorem cancel (o : Op.Cancel) : Statement (.cancel o) := by
  have := o.toBits_le
  exact .inr ⟨_, _, rfl, rfl, by omega⟩

theorem cpoint (o : Op.Bare) : Statement (.cpoint o) := by
  have := o.toBits_le
  exact .inr ⟨_, _, rfl, rfl, by omega⟩

theorem pwait (o : Op.PawnRes) : Statement (.pwait o) := by
  have := o.toBits_le
  exact .inr ⟨_, _, rfl, rfl, by omega⟩

theorem ptest (o : Op.PawnRes) : Statement (.ptest o) := by
  have := o.toBits_le
  exact .inr ⟨_, _, rfl, rfl, by omega⟩

theorem pcancel (o : Op.PawnRes) : Statement (.pcancel o) := by
  have := o.toBits_le
  exact .inr ⟨_, _, rfl, rfl, by omega⟩

theorem pdetach (o : Op.PawnArg) : Statement (.pdetach o) := by
  have := o.toBits_le
  exact .inr ⟨_, _, rfl, rfl, by omega⟩

theorem pprio (o : Op.PawnArg) : Statement (.pprio o) := by
  have := o.toBits_le
  exact .inr ⟨_, _, rfl, rfl, by omega⟩

theorem pstat (o : Op.ResTok) : Statement (.pstat o) := by
  have := o.toBits_le
  exact .inr ⟨_, _, rfl, rfl, by omega⟩

theorem allred (o : Op.Coll) : Statement (.allred o) := by
  have := o.toBits_le
  exact .inr ⟨_, _, rfl, rfl, by omega⟩

theorem bcast (o : Op.Coll) : Statement (.bcast o) := by
  have := o.toBits_le
  exact .inr ⟨_, _, rfl, rfl, by omega⟩

theorem allgath (o : Op.Coll) : Statement (.allgath o) := by
  have := o.toBits_le
  exact .inr ⟨_, _, rfl, rfl, by omega⟩

theorem redscat (o : Op.Coll) : Statement (.redscat o) := by
  have := o.toBits_le
  exact .inr ⟨_, _, rfl, rfl, by omega⟩

theorem barrier (o : Op.Barrier) : Statement (.barrier o) := by
  have := o.toBits_le
  exact .inr ⟨_, _, rfl, rfl, by omega⟩

theorem rkopenw (o : Op.TokRes) : Statement (.rkopenw o) := by
  have := o.toBits_le
  exact .inr ⟨_, _, rfl, rfl, by omega⟩

theorem rkcommit (o : Op.TokSrc) : Statement (.rkcommit o) := by
  have := o.toBits_le
  exact .inr ⟨_, _, rfl, rfl, by omega⟩

theorem rkopenr (o : Op.TokRes) : Statement (.rkopenr o) := by
  have := o.toBits_le
  exact .inr ⟨_, _, rfl, rfl, by omega⟩

theorem rkclose (o : Op.TokSrc) : Statement (.rkclose o) := by
  have := o.toBits_le
  exact .inr ⟨_, _, rfl, rfl, by omega⟩

theorem fence (o : Op.CFence) : Statement (.fence o) := by
  have := o.toBits_le
  exact .inr ⟨_, _, rfl, rfl, by omega⟩

theorem crr (o : Op.Crr) : Statement (.crr o) := by
  have := o.toBits_le
  exact .inr ⟨_, _, rfl, rfl, by omega⟩

theorem crw (o : Op.Crw) : Statement (.crw o) := by
  have := o.toBits_le
  exact .inr ⟨_, _, rfl, rfl, by omega⟩

theorem trap (o : Op.Code) : Statement (.trap o) := by
  have := o.toBits_le
  exact .inr ⟨_, _, rfl, rfl, by omega⟩

theorem eret (o : Op.Bare) : Statement (.eret o) := by
  have := o.toBits_le
  exact .inr ⟨_, _, rfl, rfl, by omega⟩

theorem bkpt (o : Op.Code) : Statement (.bkpt o) := by
  have := o.toBits_le
  exact .inr ⟨_, _, rfl, rfl, by omega⟩

theorem tlrw (o : Op.TokSrc2) : Statement (.tlrw o) := by
  have := o.toBits_le
  exact .inr ⟨_, _, rfl, rfl, by omega⟩

theorem time (o : Op.ResTok) : Statement (.time o) := by
  have := o.toBits_le
  exact .inr ⟨_, _, rfl, rfl, by omega⟩

theorem seta (o : Op.TokRes) : Statement (.seta o) := by
  have := o.toBits_le
  exact .inr ⟨_, _, rfl, rfl, by omega⟩

theorem setn (o : Op.TokRes) : Statement (.setn o) := by
  have := o.toBits_le
  exact .inr ⟨_, _, rfl, rfl, by omega⟩

theorem sets (o : Op.TokRes) : Statement (.sets o) := by
  have := o.toBits_le
  exact .inr ⟨_, _, rfl, rfl, by omega⟩

theorem setnt (o : Op.TokRes) : Statement (.setnt o) := by
  have := o.toBits_le
  exact .inr ⟨_, _, rfl, rfl, by omega⟩

theorem geta (o : Op.TokRes) : Statement (.geta o) := by
  have := o.toBits_le
  exact .inr ⟨_, _, rfl, rfl, by omega⟩

theorem ldq (o : Op.Tq) : Statement (.ldq o) := by
  have := o.toBits_le
  exact .inr ⟨_, _, rfl, rfl, by omega⟩

theorem stq (o : Op.Tq) : Statement (.stq o) := by
  have := o.toBits_le
  exact .inr ⟨_, _, rfl, rfl, by omega⟩

theorem pref (o : Op.Pref) : Statement (.pref o) := by
  have := o.toBits_le
  exact .inr ⟨_, _, rfl, rfl, by omega⟩

theorem copy (o : Op.Tc) : Statement (.copy o) := by
  have := o.toBits_le
  exact .inr ⟨_, _, rfl, rfl, by omega⟩

theorem gath (o : Op.Tc) : Statement (.gath o) := by
  have := o.toBits_le
  exact .inr ⟨_, _, rfl, rfl, by omega⟩

theorem scat (o : Op.Tc) : Statement (.scat o) := by
  have := o.toBits_le
  exact .inr ⟨_, _, rfl, rfl, by omega⟩

theorem rld (o : Op.Tr) : Statement (.rld o) := by
  have := o.toBits_le
  exact .inr ⟨_, _, rfl, rfl, by omega⟩

theorem rst (o : Op.Tr) : Statement (.rst o) := by
  have := o.toBits_le
  exact .inr ⟨_, _, rfl, rfl, by omega⟩

theorem saccAdd (o : Op.Sacc) : Statement (.saccAdd o) := by
  have := o.toBits_le
  exact .inr ⟨_, _, rfl, rfl, by omega⟩

theorem saccMin (o : Op.Sacc) : Statement (.saccMin o) := by
  have := o.toBits_le
  exact .inr ⟨_, _, rfl, rfl, by omega⟩

theorem saccMax (o : Op.Sacc) : Statement (.saccMax o) := by
  have := o.toBits_le
  exact .inr ⟨_, _, rfl, rfl, by omega⟩

theorem saccSwap (o : Op.Sacc) : Statement (.saccSwap o) := by
  have := o.toBits_le
  exact .inr ⟨_, _, rfl, rfl, by omega⟩

theorem scas (o : Op.Scas) : Statement (.scas o) := by
  have := o.toBits_le
  exact .inr ⟨_, _, rfl, rfl, by omega⟩

theorem adda (o : Op.Adda) : Statement (.adda o) := by
  have := o.toBits_le
  exact .inr ⟨_, _, rfl, rfl, by omega⟩

theorem addar (o : Op.Addar) : Statement (.addar o) := by
  have := o.toBits_le
  exact .inr ⟨_, _, rfl, rfl, by omega⟩

theorem tLoop (o : Op.Loop) : Statement (.tLoop o) := by
  have := o.toBits_le
  exact .inr ⟨_, _, rfl, rfl, by omega⟩

theorem send (o : Op.Chan) : Statement (.send o) := by
  have := o.toBits_le
  exact .inr ⟨_, _, rfl, rfl, by omega⟩

theorem recv (o : Op.Chan) : Statement (.recv o) := by
  have := o.toBits_le
  exact .inr ⟨_, _, rfl, rfl, by omega⟩

theorem tSync (o : Op.Sync) : Statement (.tSync o) := by
  have := o.toBits_le
  exact .inr ⟨_, _, rfl, rfl, by omega⟩

theorem tFence (o : Op.EFence) : Statement (.tFence o) := by
  have := o.toBits_le
  exact .inr ⟨_, _, rfl, rfl, by omega⟩

theorem tEnd (o : Op.EBare) : Statement (.tEnd o) := by
  have := o.toBits_le
  exact .inr ⟨_, _, rfl, rfl, by omega⟩

theorem tWaith (o : Op.Waith) : Statement (.tWaith o) := by
  have := o.toBits_le
  exact .inr ⟨_, _, rfl, rfl, by omega⟩

theorem nsetLevel (o : Op.NsetLevel) : Statement (.nsetLevel o) := by
  have := o.toBits_le
  exact .inr ⟨_, _, rfl, rfl, by omega⟩

theorem nsetIns (o : Op.NsetIns) : Statement (.nsetIns o) := by
  have := o.toBits_le
  exact .inr ⟨_, _, rfl, rfl, by omega⟩

theorem nsetFmt (o : Op.NsetFmt) : Statement (.nsetFmt o) := by
  have := o.toBits_le
  exact .inr ⟨_, _, rfl, rfl, by omega⟩

theorem mgo (o : Op.Mgo) : Statement (.mgo o) := by
  have := o.toBits_le
  exact .inr ⟨_, _, rfl, rfl, by omega⟩

theorem mzero (o : Op.Mzero) : Statement (.mzero o) := by
  have := o.toBits_le
  exact .inr ⟨_, _, rfl, rfl, by omega⟩

theorem acc2s (o : Op.Mc) : Statement (.acc2s o) := by
  have := o.toBits_le
  exact .inr ⟨_, _, rfl, rfl, by omega⟩

theorem s2acc (o : Op.Mc) : Statement (.s2acc o) := by
  have := o.toBits_le
  exact .inr ⟨_, _, rfl, rfl, by omega⟩

theorem accmul (o : Op.Accmul) : Statement (.accmul o) := by
  have := o.toBits_le
  exact .inr ⟨_, _, rfl, rfl, by omega⟩

theorem mLoop (o : Op.MLoop) : Statement (.mLoop o) := by
  have := o.toBits_le
  exact .inr ⟨_, _, rfl, rfl, by omega⟩

theorem mSync (o : Op.Sync) : Statement (.mSync o) := by
  have := o.toBits_le
  exact .inr ⟨_, _, rfl, rfl, by omega⟩

theorem mEnd (o : Op.EBare) : Statement (.mEnd o) := by
  have := o.toBits_le
  exact .inr ⟨_, _, rfl, rfl, by omega⟩

theorem mFence (o : Op.EFence) : Statement (.mFence o) := by
  have := o.toBits_le
  exact .inr ⟨_, _, rfl, rfl, by omega⟩

theorem mWaith (o : Op.Waith) : Statement (.mWaith o) := by
  have := o.toBits_le
  exact .inr ⟨_, _, rfl, rfl, by omega⟩

theorem vadd (o : Op.Vv) : Statement (.vadd o) := by
  have := o.toBits_le
  exact .inr ⟨_, _, rfl, rfl, by omega⟩

theorem vsub (o : Op.Vv) : Statement (.vsub o) := by
  have := o.toBits_le
  exact .inr ⟨_, _, rfl, rfl, by omega⟩

theorem vmul (o : Op.Vv) : Statement (.vmul o) := by
  have := o.toBits_le
  exact .inr ⟨_, _, rfl, rfl, by omega⟩

theorem vfma (o : Op.Vv) : Statement (.vfma o) := by
  have := o.toBits_le
  exact .inr ⟨_, _, rfl, rfl, by omega⟩

theorem vmin (o : Op.Vv) : Statement (.vmin o) := by
  have := o.toBits_le
  exact .inr ⟨_, _, rfl, rfl, by omega⟩

theorem vmax (o : Op.Vv) : Statement (.vmax o) := by
  have := o.toBits_le
  exact .inr ⟨_, _, rfl, rfl, by omega⟩

theorem vabs (o : Op.Vu) : Statement (.vabs o) := by
  have := o.toBits_le
  exact .inr ⟨_, _, rfl, rfl, by omega⟩

theorem vneg (o : Op.Vu) : Statement (.vneg o) := by
  have := o.toBits_le
  exact .inr ⟨_, _, rfl, rfl, by omega⟩

theorem vrcp (o : Op.Vu) : Statement (.vrcp o) := by
  have := o.toBits_le
  exact .inr ⟨_, _, rfl, rfl, by omega⟩

theorem vrsq (o : Op.Vu) : Statement (.vrsq o) := by
  have := o.toBits_le
  exact .inr ⟨_, _, rfl, rfl, by omega⟩

theorem vexp2 (o : Op.Vu) : Statement (.vexp2 o) := by
  have := o.toBits_le
  exact .inr ⟨_, _, rfl, rfl, by omega⟩

theorem vlog2 (o : Op.Vu) : Statement (.vlog2 o) := by
  have := o.toBits_le
  exact .inr ⟨_, _, rfl, rfl, by omega⟩

theorem viadd (o : Op.Vv) : Statement (.viadd o) := by
  have := o.toBits_le
  exact .inr ⟨_, _, rfl, rfl, by omega⟩

theorem visub (o : Op.Vv) : Statement (.visub o) := by
  have := o.toBits_le
  exact .inr ⟨_, _, rfl, rfl, by omega⟩

theorem vimul (o : Op.Vv) : Statement (.vimul o) := by
  have := o.toBits_le
  exact .inr ⟨_, _, rfl, rfl, by omega⟩

theorem vand (o : Op.Vv) : Statement (.vand o) := by
  have := o.toBits_le
  exact .inr ⟨_, _, rfl, rfl, by omega⟩

theorem vor (o : Op.Vv) : Statement (.vor o) := by
  have := o.toBits_le
  exact .inr ⟨_, _, rfl, rfl, by omega⟩

theorem vxor (o : Op.Vv) : Statement (.vxor o) := by
  have := o.toBits_le
  exact .inr ⟨_, _, rfl, rfl, by omega⟩

theorem vshl (o : Op.Vv) : Statement (.vshl o) := by
  have := o.toBits_le
  exact .inr ⟨_, _, rfl, rfl, by omega⟩

theorem vshr (o : Op.Vv) : Statement (.vshr o) := by
  have := o.toBits_le
  exact .inr ⟨_, _, rfl, rfl, by omega⟩

theorem vsra (o : Op.Vv) : Statement (.vsra o) := by
  have := o.toBits_le
  exact .inr ⟨_, _, rfl, rfl, by omega⟩

theorem vimin (o : Op.Vv) : Statement (.vimin o) := by
  have := o.toBits_le
  exact .inr ⟨_, _, rfl, rfl, by omega⟩

theorem vimax (o : Op.Vv) : Statement (.vimax o) := by
  have := o.toBits_le
  exact .inr ⟨_, _, rfl, rfl, by omega⟩

theorem vcmpEq (o : Op.Vc) : Statement (.vcmpEq o) := by
  have := o.toBits_le
  exact .inr ⟨_, _, rfl, rfl, by omega⟩

theorem vcmpNe (o : Op.Vc) : Statement (.vcmpNe o) := by
  have := o.toBits_le
  exact .inr ⟨_, _, rfl, rfl, by omega⟩

theorem vcmpLt (o : Op.Vc) : Statement (.vcmpLt o) := by
  have := o.toBits_le
  exact .inr ⟨_, _, rfl, rfl, by omega⟩

theorem vcmpLe (o : Op.Vc) : Statement (.vcmpLe o) := by
  have := o.toBits_le
  exact .inr ⟨_, _, rfl, rfl, by omega⟩

theorem vcmpGt (o : Op.Vc) : Statement (.vcmpGt o) := by
  have := o.toBits_le
  exact .inr ⟨_, _, rfl, rfl, by omega⟩

theorem vcmpGe (o : Op.Vc) : Statement (.vcmpGe o) := by
  have := o.toBits_le
  exact .inr ⟨_, _, rfl, rfl, by omega⟩

theorem vsel (o : Op.Vv) : Statement (.vsel o) := by
  have := o.toBits_le
  exact .inr ⟨_, _, rfl, rfl, by omega⟩

theorem vadds (o : Op.Vs) : Statement (.vadds o) := by
  have := o.toBits_le
  exact .inr ⟨_, _, rfl, rfl, by omega⟩

theorem vsubs (o : Op.Vs) : Statement (.vsubs o) := by
  have := o.toBits_le
  exact .inr ⟨_, _, rfl, rfl, by omega⟩

theorem vmuls (o : Op.Vs) : Statement (.vmuls o) := by
  have := o.toBits_le
  exact .inr ⟨_, _, rfl, rfl, by omega⟩

theorem vfmas (o : Op.Vs) : Statement (.vfmas o) := by
  have := o.toBits_le
  exact .inr ⟨_, _, rfl, rfl, by omega⟩

theorem vmins (o : Op.Vs) : Statement (.vmins o) := by
  have := o.toBits_le
  exact .inr ⟨_, _, rfl, rfl, by omega⟩

theorem vmaxs (o : Op.Vs) : Statement (.vmaxs o) := by
  have := o.toBits_le
  exact .inr ⟨_, _, rfl, rfl, by omega⟩

theorem viaddi (o : Op.Vi) : Statement (.viaddi o) := by
  have := o.toBits_le
  exact .inr ⟨_, _, rfl, rfl, by omega⟩

theorem vbcasti (o : Op.Vbi) : Statement (.vbcasti o) := by
  have := o.toBits_le
  exact .inr ⟨_, _, rfl, rfl, by omega⟩

theorem vcvt (o : Op.Vcvt) : Statement (.vcvt o) := by
  have := o.toBits_le
  exact .inr ⟨_, _, rfl, rfl, by omega⟩

theorem vpack (o : Op.Vv) : Statement (.vpack o) := by
  have := o.toBits_le
  exact .inr ⟨_, _, rfl, rfl, by omega⟩

theorem vunpk (o : Op.Vv) : Statement (.vunpk o) := by
  have := o.toBits_le
  exact .inr ⟨_, _, rfl, rfl, by omega⟩

theorem vrsum (o : Op.Vu) : Statement (.vrsum o) := by
  have := o.toBits_le
  exact .inr ⟨_, _, rfl, rfl, by omega⟩

theorem vrmax (o : Op.Vu) : Statement (.vrmax o) := by
  have := o.toBits_le
  exact .inr ⟨_, _, rfl, rfl, by omega⟩

theorem vrmin (o : Op.Vu) : Statement (.vrmin o) := by
  have := o.toBits_le
  exact .inr ⟨_, _, rfl, rfl, by omega⟩

theorem vperm (o : Op.Vv) : Statement (.vperm o) := by
  have := o.toBits_le
  exact .inr ⟨_, _, rfl, rfl, by omega⟩

theorem vbcast (o : Op.Vb) : Statement (.vbcast o) := by
  have := o.toBits_le
  exact .inr ⟨_, _, rfl, rfl, by omega⟩

theorem vrot (o : Op.Vi) : Statement (.vrot o) := by
  have := o.toBits_le
  exact .inr ⟨_, _, rfl, rfl, by omega⟩

theorem vmov (o : Op.Vu) : Statement (.vmov o) := by
  have := o.toBits_le
  exact .inr ⟨_, _, rfl, rfl, by omega⟩

theorem vpop (o : Op.Vp) : Statement (.vpop o) := by
  have := o.toBits_le
  exact .inr ⟨_, _, rfl, rfl, by omega⟩

theorem vdup (o : Op.Vu) : Statement (.vdup o) := by
  have := o.toBits_le
  exact .inr ⟨_, _, rfl, rfl, by omega⟩

theorem vsetsh (o : Op.Vset) : Statement (.vsetsh o) := by
  have := o.toBits_le
  exact .inr ⟨_, _, rfl, rfl, by omega⟩

theorem vsetl (o : Op.Vset) : Statement (.vsetl o) := by
  have := o.toBits_le
  exact .inr ⟨_, _, rfl, rfl, by omega⟩

theorem mand (o : Op.Vm) : Statement (.mand o) := by
  have := o.toBits_le
  exact .inr ⟨_, _, rfl, rfl, by omega⟩

theorem mor (o : Op.Vm) : Statement (.mor o) := by
  have := o.toBits_le
  exact .inr ⟨_, _, rfl, rfl, by omega⟩

theorem mxor (o : Op.Vm) : Statement (.mxor o) := by
  have := o.toBits_le
  exact .inr ⟨_, _, rfl, rfl, by omega⟩

theorem mnot (o : Op.Vn) : Statement (.mnot o) := by
  have := o.toBits_le
  exact .inr ⟨_, _, rfl, rfl, by omega⟩

theorem vsmovToS (o : Op.Vl2s) : Statement (.vsmovToS o) := by
  have := o.toBits_le
  exact .inr ⟨_, _, rfl, rfl, by omega⟩

theorem vsmovToLane (o : Op.Vs2l) : Statement (.vsmovToLane o) := by
  have := o.toBits_le
  exact .inr ⟨_, _, rfl, rfl, by omega⟩

theorem spld (o : Op.Spls) : Statement (.spld o) := by
  have := o.toBits_le
  exact .inr ⟨_, _, rfl, rfl, by omega⟩

theorem spst (o : Op.Spls) : Statement (.spst o) := by
  have := o.toBits_le
  exact .inr ⟨_, _, rfl, rfl, by omega⟩

theorem spup (o : Op.Spup) : Statement (.spup o) := by
  have := o.toBits_le
  exact .inr ⟨_, _, rfl, rfl, by omega⟩

theorem spdn (o : Op.Spdn) : Statement (.spdn o) := by
  have := o.toBits_le
  exact .inr ⟨_, _, rfl, rfl, by omega⟩

theorem spcvt (o : Op.Spcvt) : Statement (.spcvt o) := by
  have := o.toBits_le
  exact .inr ⟨_, _, rfl, rfl, by omega⟩

theorem vLoop (o : Op.Loop) : Statement (.vLoop o) := by
  have := o.toBits_le
  exact .inr ⟨_, _, rfl, rfl, by omega⟩

theorem vSync (o : Op.Sync) : Statement (.vSync o) := by
  have := o.toBits_le
  exact .inr ⟨_, _, rfl, rfl, by omega⟩

theorem vEnd (o : Op.EBare) : Statement (.vEnd o) := by
  have := o.toBits_le
  exact .inr ⟨_, _, rfl, rfl, by omega⟩

theorem vFence (o : Op.EFence) : Statement (.vFence o) := by
  have := o.toBits_le
  exact .inr ⟨_, _, rfl, rfl, by omega⟩

theorem powerUpBoot (selfTest : BitVec 4) (westOk : Bool) : Statement (.powerUpBoot selfTest westOk) := .inl ⟨rfl, rfl⟩

theorem bootLinkTimeout : Statement .bootLinkTimeout := .inl ⟨rfl, rfl⟩

theorem tftpBlockReceive (block : Nat) (data : List (BitVec 8)) : Statement (.tftpBlockReceive block data) := .inl ⟨rfl, rfl⟩

theorem tftpBlockRetry : Statement .tftpBlockRetry := .inl ⟨rfl, rfl⟩

theorem bootRetry : Statement .bootRetry := .inl ⟨rfl, rfl⟩

theorem droopTrigger (die cycles : Nat) : Statement (.droopTrigger die cycles) := .inl ⟨rfl, rfl⟩

theorem columnSample (site : Nat) (temp : BitVec 10) : Statement (.columnSample site temp) := .inl ⟨rfl, rfl⟩

theorem hbmStackSample (stack : Nat) (temp : BitVec 10) : Statement (.hbmStackSample stack temp) := .inl ⟨rfl, rfl⟩

theorem hotStackReport (stack : Nat) : Statement (.hotStackReport stack) := .inl ⟨rfl, rfl⟩

theorem drawceilWrite (v : BitVec 32) : Statement (.drawceilWrite v) := .inl ⟨rfl, rfl⟩

theorem drawgGrantWrite (part : Nat) (grant : Nat) : Statement (.drawgGrantWrite part grant) := .inl ⟨rfl, rfl⟩

theorem ringMeasureStart (die : Nat) (v : BitVec 32) : Statement (.ringMeasureStart die v) := .inl ⟨rfl, rfl⟩

theorem ringMeasureDone (die : Nat) (count : BitVec 16) : Statement (.ringMeasureDone die count) := .inl ⟨rfl, rfl⟩

theorem mgmtRegisterWrite (off : Nat) (v : BitVec 32) : Statement (.mgmtRegisterWrite off v) := .inl ⟨rfl, rfl⟩

theorem myincChipWrite (v : BitVec 32) : Statement (.myincChipWrite v) := .inl ⟨rfl, rfl⟩

theorem sealOpen (part : Nat) : Statement (.sealOpen part) := .inl ⟨rfl, rfl⟩

theorem sealClose (part : Nat) : Statement (.sealClose part) := .inl ⟨rfl, rfl⟩

theorem repairRequest (r : Repair) : Statement (.repairRequest r) := .inl ⟨rfl, rfl⟩

theorem coreSiteRepair (site : Nat) : Statement (.coreSiteRepair site) := .inl ⟨rfl, rfl⟩

theorem coreSiteRetire (site : Nat) : Statement (.coreSiteRetire site) := .inl ⟨rfl, rfl⟩

theorem hbmRowRepair (base : Nat) : Statement (.hbmRowRepair base) := .inl ⟨rfl, rfl⟩

theorem hbmRowRepairDone (base : Nat) : Statement (.hbmRowRepairDone base) := .inl ⟨rfl, rfl⟩

theorem hbmChannelRetire (stack chan : Nat) : Statement (.hbmChannelRetire stack chan) := .inl ⟨rfl, rfl⟩

theorem deepRowSpare (site row : Nat) : Statement (.deepRowSpare site row) := .inl ⟨rfl, rfl⟩

theorem deepBankRetire (site bank : Nat) : Statement (.deepBankRetire site bank) := .inl ⟨rfl, rfl⟩

theorem linkLaneSpare (port lane : Nat) : Statement (.linkLaneSpare port lane) := .inl ⟨rfl, rfl⟩

theorem linkPortRetrain (port : Nat) : Statement (.linkPortRetrain port) := .inl ⟨rfl, rfl⟩

theorem linkPortOut (port : Nat) : Statement (.linkPortOut port) := .inl ⟨rfl, rfl⟩

theorem meshLinkReroute (x y : Nat) (dir : Fin 4) : Statement (.meshLinkReroute x y dir) := .inl ⟨rfl, rfl⟩

theorem serviceCoreTakeover (core : Nat) : Statement (.serviceCoreTakeover core) := .inl ⟨rfl, rfl⟩

theorem firmwareSwitch : Statement .firmwareSwitch := .inl ⟨rfl, rfl⟩

theorem thermalTrip (temp : BitVec 10) (isStack : Bool) : Statement (.thermalTrip temp isStack) := .inl ⟨rfl, rfl⟩

theorem powerTrip (watts : Nat) : Statement (.powerTrip watts) := .inl ⟨rfl, rfl⟩

theorem serviceCoreHostWrite (windows : List (Nat × Nat)) (w : SvcWrite) : Statement (.serviceCoreHostWrite windows w) := .inl ⟨rfl, rfl⟩

theorem ethernetFrameSend (port bytes : Nat) : Statement (.ethernetFrameSend port bytes) := .inl ⟨rfl, rfl⟩

theorem packetInject (p : PktSpec) : Statement (.packetInject p) := .inl ⟨rfl, rfl⟩

theorem flitSetup : Statement .flitSetup := .inl ⟨rfl, rfl⟩

theorem flitBypass : Statement .flitBypass := .inl ⟨rfl, rfl⟩

theorem latchedHop (flit : Nat) : Statement (.latchedHop flit) := .inl ⟨rfl, rfl⟩

theorem bridgeRetryExhausted (x y : Nat) (dir : Fin 4) : Statement (.bridgeRetryExhausted x y dir) := .inl ⟨rfl, rfl⟩

theorem linkFlitReplay (port : Nat) : Statement (.linkFlitReplay port) := .inl ⟨rfl, rfl⟩

theorem linkTransactionSend (chip : Nat) (frame : Nat) (tag : Nat) : Statement (.linkTransactionSend chip frame tag) := .inl ⟨rfl, rfl⟩

theorem linkAckSend (chip port : Nat) : Statement (.linkAckSend chip port) := .inl ⟨rfl, rfl⟩

theorem linkAckReceive (port chip : Nat) (ack : LinkAck) : Statement (.linkAckReceive port chip ack) := .inl ⟨rfl, rfl⟩

theorem linkResend (port : Nat) (seq : BitVec 32) : Statement (.linkResend port seq) := .inl ⟨rfl, rfl⟩

theorem linkRetryExhausted (port : Nat) (seq : BitVec 32) : Statement (.linkRetryExhausted port seq) := .inl ⟨rfl, rfl⟩

theorem peerRequestReceive (r : PeerReq) : Statement (.peerRequestReceive r) := .inl ⟨rfl, rfl⟩

theorem incarnationAnnounce : Statement .incarnationAnnounce := .inl ⟨rfl, rfl⟩

theorem announcementReceive (chip : Nat) (inc : BitVec 16) : Statement (.announcementReceive chip inc) := .inl ⟨rfl, rfl⟩

theorem collectiveExchangeStep (coll : Nat) (data : List (BitVec 8)) : Statement (.collectiveExchangeStep coll data) := .inl ⟨rfl, rfl⟩

theorem vfFunctionLevelReset (part : Nat) : Statement (.vfFunctionLevelReset part) := .inl ⟨rfl, rfl⟩

theorem partitionCreate (part : Nat) (p : PartSpec) : Statement (.partitionCreate part p) := .inl ⟨rfl, rfl⟩

theorem partitionDestroy (part : Nat) : Statement (.partitionDestroy part) := .inl ⟨rfl, rfl⟩

theorem partitionMapChange (part : Nat) (map : List (BitVec 128)) : Statement (.partitionMapChange part map) := .inl ⟨rfl, rfl⟩

theorem submitWrite (part bytes : Nat) (v : BitVec 64) : Statement (.submitWrite part bytes v) := .inl ⟨rfl, rfl⟩

theorem submissionCopy (part : Nat) : Statement (.submissionCopy part) := .inl ⟨rfl, rfl⟩

theorem attestationRequest (nonce : List (BitVec 8)) (target : Option Nat) : Statement (.attestationRequest nonce target) := .inl ⟨rfl, rfl⟩

theorem keyCounterConfirm : Statement .keyCounterConfirm := .inl ⟨rfl, rfl⟩

theorem jobLoad (part : Nat) (plan : LoadPlan) : Statement (.jobLoad part plan) := .inl ⟨rfl, rfl⟩

theorem importRegister (part : Nat) (name : List (BitVec 8)) (kind : Nat) (value : Option (BitVec 64)) : Statement (.importRegister part name kind value) := .inl ⟨rfl, rfl⟩

theorem activityRelease (part job act : Nat) : Statement (.activityRelease part job act) := .inl ⟨rfl, rfl⟩

theorem selectorSizeRead (part job act : Nat) : Statement (.selectorSizeRead part job act) := .inl ⟨rfl, rfl⟩

theorem deadlineMiss (part job act : Nat) : Statement (.deadlineMiss part job act) := .inl ⟨rfl, rfl⟩

theorem counterDecrement (part : Nat) (addr : BitVec 64) (faulted cancelled : Bool) : Statement (.counterDecrement part addr faulted cancelled) := .inl ⟨rfl, rfl⟩

theorem turnRetire (site : Nat) (cx : Bool) : Statement (.turnRetire site cx) := .inl ⟨rfl, rfl⟩

theorem cancelLinearise (part : Nat) (addr : BitVec 64) (level : Nat) : Statement (.cancelLinearise part addr level) := .inl ⟨rfl, rfl⟩

theorem cancelBroadcast (part : Nat) : Statement (.cancelBroadcast part) := .inl ⟨rfl, rfl⟩

theorem turnDispatch (part cluster : Nat) : Statement (.turnDispatch part cluster) := .inl ⟨rfl, rfl⟩

theorem spillRefill (part cluster : Nat) : Statement (.spillRefill part cluster) := .inl ⟨rfl, rfl⟩

theorem turnDisplace (part cluster : Nat) : Statement (.turnDisplace part cluster) := .inl ⟨rfl, rfl⟩

theorem contextActivate (site : Nat) : Statement (.contextActivate site) := .inl ⟨rfl, rfl⟩

theorem urgentSwitchEvaluate (site : Nat) : Statement (.urgentSwitchEvaluate site) := .inl ⟨rfl, rfl⟩

theorem urgentSwitch (site : Nat) : Statement (.urgentSwitch site) := .inl ⟨rfl, rfl⟩

theorem stealRequest (site : Nat) (cx : Bool) : Statement (.stealRequest site cx) := .inl ⟨rfl, rfl⟩

theorem stealCrossDie (site : Nat) (cx : Bool) : Statement (.stealCrossDie site cx) := .inl ⟨rfl, rfl⟩

theorem budgetTrap (site : Nat) (cx : Bool) : Statement (.budgetTrap site cx) := .inl ⟨rfl, rfl⟩

theorem eventTableApply (part : Nat) : Statement (.eventTableApply part) := .inl ⟨rfl, rfl⟩

theorem overflowWalk (part : Nat) : Statement (.overflowWalk part) := .inl ⟨rfl, rfl⟩

theorem rackOpApply (part : Nat) : Statement (.rackOpApply part) := .inl ⟨rfl, rfl⟩

theorem waitTokenSettle (site : Nat) (cx : Bool) (tok : Fin 8) : Statement (.waitTokenSettle site cx tok) := .inl ⟨rfl, rfl⟩

theorem pageWalkComplete (site : Nat) : Statement (.pageWalkComplete site) := .inl ⟨rfl, rfl⟩

theorem prefetchReady (site : Nat) (cx : Bool) (b : Fin 8) : Statement (.prefetchReady site cx b) := .inl ⟨rfl, rfl⟩

theorem invctlWrite (part : Nat) (v : BitVec 64) : Statement (.invctlWrite part v) := .inl ⟨rfl, rfl⟩

theorem ptrootWrite (part : Nat) (v : BitVec 64) : Statement (.ptrootWrite part v) := .inl ⟨rfl, rfl⟩

theorem shootdownAck (part site : Nat) : Statement (.shootdownAck part site) := .inl ⟨rfl, rfl⟩

theorem replicaRead (part die : Nat) (frame : Nat) : Statement (.replicaRead part die frame) := .inl ⟨rfl, rfl⟩

theorem replicaWrite (part : Nat) : Statement (.replicaWrite part) := .inl ⟨rfl, rfl⟩

theorem holderAck (part die : Nat) : Statement (.holderAck part die) := .inl ⟨rfl, rfl⟩

theorem fenceRetire (site : Nat) (cx : Bool) (st : Strm) : Statement (.fenceRetire site cx st) := .inl ⟨rfl, rfl⟩

theorem resultLand (site : Nat) (cx : Bool) : Statement (.resultLand site cx) := .inl ⟨rfl, rfl⟩

theorem pawnStep (site : Nat) (slot : Fin 64) : Statement (.pawnStep site slot) := .inl ⟨rfl, rfl⟩

theorem pawnEnd (site : Nat) (slot : Fin 64) : Statement (.pawnEnd site slot) := .inl ⟨rfl, rfl⟩

theorem mgoStep (site : Nat) (slot : Fin 64) : Statement (.mgoStep site slot) := .inl ⟨rfl, rfl⟩

theorem drawSlotGrant (part : Nat) : Statement (.drawSlotGrant part) := .inl ⟨rfl, rfl⟩

theorem tWordCommit (site : Nat) (cx : Bool) : Statement (.tWordCommit site cx) := .inl ⟨rfl, rfl⟩

theorem lateFault (site : Nat) (cx : Bool) : Statement (.lateFault site cx) := .inl ⟨rfl, rfl⟩

theorem vectorResultPush (site : Nat) (cx : Bool) : Statement (.vectorResultPush site cx) := .inl ⟨rfl, rfl⟩

theorem trapEntry (site : Nat) (cx : Bool) : Statement (.trapEntry site cx) := .inl ⟨rfl, rfl⟩

theorem deadlockDetect (site : Nat) (cx : Bool) : Statement (.deadlockDetect site cx) := .inl ⟨rfl, rfl⟩

theorem handlerDeadlock (site : Nat) (cx : Bool) : Statement (.handlerDeadlock site cx) := .inl ⟨rfl, rfl⟩

theorem partitionSwap (k : SwapKind) : Statement (.partitionSwap k) := .inl ⟨rfl, rfl⟩

theorem remapResponseLand (site : Nat) : Statement (.remapResponseLand site) := .inl ⟨rfl, rfl⟩

theorem timeRegisterStage (part : Nat) (r : TimeReg) (v : BitVec 64) : Statement (.timeRegisterStage part r v) := .inl ⟨rfl, rfl⟩

theorem timeEpoch (part : Nat) : Statement (.timeEpoch part) := .inl ⟨rfl, rfl⟩

theorem scrubVisit (pa : Nat) (r : ScrubResult) : Statement (.scrubVisit pa r) := .inl ⟨rfl, rfl⟩

theorem dbgHalt (site : Nat) (cx : Bool) : Statement (.dbgHalt site cx) := .inl ⟨rfl, rfl⟩

theorem debugHaltLand (site : Nat) (cx : Bool) : Statement (.debugHaltLand site cx) := .inl ⟨rfl, rfl⟩

theorem dbgResume (site : Nat) (cx : Bool) : Statement (.dbgResume site cx) := .inl ⟨rfl, rfl⟩

theorem dbgStep (site : Nat) (cx : Bool) (st : Strm) : Statement (.dbgStep site cx st) := .inl ⟨rfl, rfl⟩

theorem dbgRead (site : Nat) (cx : Bool) (space : Fin 16) : Statement (.dbgRead site cx space) := .inl ⟨rfl, rfl⟩

theorem dbgWrite (site : Nat) (cx : Bool) (space : Fin 16) : Statement (.dbgWrite site cx space) := .inl ⟨rfl, rfl⟩

theorem dbgDrop (site : Nat) (cx : Bool) : Statement (.dbgDrop site cx) := .inl ⟨rfl, rfl⟩

theorem dbgBadcmd (site : Nat) : Statement (.dbgBadcmd site) := .inl ⟨rfl, rfl⟩

theorem breakpointFire (site : Nat) (cx : Bool) (st : Strm) : Statement (.breakpointFire site cx st) := .inl ⟨rfl, rfl⟩

theorem traceDrain (site : Nat) : Statement (.traceDrain site) := .inl ⟨rfl, rfl⟩

theorem powerFail : Statement .powerFail := .inl ⟨rfl, rfl⟩

theorem peerUpWaitTimeout (site : Nat) (cx : Bool) : Statement (.peerUpWaitTimeout site cx) := .inl ⟨rfl, rfl⟩

theorem dhcpv6ReplyReceive (tftp : Bool) (server : Nat) (file : List (BitVec 8)) : Statement (.dhcpv6ReplyReceive tftp server file) := .inl ⟨rfl, rfl⟩

theorem submissionWindowWrite (part off : Nat) (data : List (BitVec 8)) : Statement (.submissionWindowWrite part off data) := .inl ⟨rfl, rfl⟩

theorem sitesJoinPartition (part : Nat) (clusters : List Nat) : Statement (.sitesJoinPartition part clusters) := .inl ⟨rfl, rfl⟩

theorem clusterPowerGate (cluster : Nat) : Statement (.clusterPowerGate cluster) := .inl ⟨rfl, rfl⟩

theorem clusterUngate (cluster : Nat) : Statement (.clusterUngate cluster) := .inl ⟨rfl, rfl⟩

theorem bankGoesDrowsy (site bank : Nat) : Statement (.bankGoesDrowsy site bank) := .inl ⟨rfl, rfl⟩

end Laws.WordForm

end Sys2Proof
end

