-- ==== Sys2Proof/Tests/Slice0.lean ====
section
/-! SUPPORT. Tests of the model, and the states and operands that meet the hypotheses of the statements: first the well-formedness checks
and the words that the specification spells out, then one step or one agent's event at a time, in the order of the statements. -/

namespace Sys2Proof.Tests

-- One test after another: many at once need more memory than they save time.
set_option Elab.async false

open Sys2Proof.Machine Sys2Proof.Claims

/-! ### Well-formedness (R262, R266, R340, R341, R352, R363, R369, R377) -/

/-- A word that breaks each check on the operands of a word is not well formed. -/
theorem test_illFormed_words : ([.wait { g := 0, mask := 0 }, .br { g := 0, bt := 1, hint := 3 }, .call { g := 0, bt := 1, hint := 3 },
    .loopc { g := 0, bt := 1, hint := 3, rc := 1 }, .fence { g := 0, before := 0, after := 1, scope := 0 },
    .fence { g := 0, before := 1, after := 0, scope := 0 }, .crr { g := 0, rd := 1, tok := 0, reg := 0x00B }, .crw { g := 0, ra := 1, reg := 0x030 },
    .tFence { sync := 0, before := 0, after := 1, scope := 0 }, .mFence { sync := 0, before := 1, after := 0, scope := 0 },
    .vFence { sync := 0, before := 0, after := 0, scope := 0 }, .nsetLevel { sync := 0, level := 6, field := 0, v := 0 },
    .nsetFmt { sync := 0, isB := false, v := 14 },
    .mgo { sync := 0, h := 0, mba := 0, mbb := 0, t := 0, acc := false, pri := 0, detach := false, depm1 := 6, mc := false },
    .vcmpEq { sync := 0, md := 1, qa := 1, qb := 2, m := 0, pka := false, pkb := false, uns := true, int := false },
    .vcmpGe { sync := 0, md := 1, qa := 1, qb := 2, m := 0, pka := false, pkb := false, uns := true, int := false },
    .vcvt { sync := 0, qd := 1, qa := 2, m := 0, pka := false, fmt := 0, rm := 0, sat := false },
    .vcvt { sync := 0, qd := 1, qa := 2, m := 0, pka := false, fmt := 14, rm := 0, sat := false },
    .vcvt { sync := 0, qd := 1, qa := 2, m := 0, pka := false, fmt := 2, rm := 4, sat := false },
    .spld { sync := 0, q := 1, part := 3, sr := 0 }, .spst { sync := 0, q := 1, part := 3, sr := 0 }] : List Instr).all
    (fun i => !i.wellFormed) = true := by decide +kernel

/-- An event that names a part of the package which is not there is not well formed. -/
theorem test_illFormed_events : ([.tftpBlockReceive 1 (List.replicate 513 0), .droopTrigger 18 32, .columnSample 288 0, .hbmStackSample 12 0,
    .hotStackReport 12, .drawgGrantWrite 16 0, .ringMeasureStart 18 0, .ringMeasureDone 18 0, .sealOpen 16, .sealClose 16, .coreSiteRepair 288,
    .coreSiteRetire 288, .hbmChannelRetire 12 0, .hbmChannelRetire 0 32, .deepRowSpare 288 0, .deepRowSpare 0 65536, .deepBankRetire 0 64,
    .linkLaneSpare 18 0, .linkLaneSpare 0 9, .linkPortRetrain 18, .linkPortOut 18, .meshLinkReroute 24 0 0, .meshLinkReroute 0 12 0,
    .serviceCoreTakeover 4, .ethernetFrameSend 18 0, .bridgeRetryExhausted 24 0 0, .linkFlitReplay 18, .linkTransactionSend 64 0 0,
    .linkAckSend 64 0, .linkAckReceive 18 0 ⟨0, []⟩, .linkResend 18 0, .linkRetryExhausted 18 0, .announcementReceive 64 0, .vfFunctionLevelReset 16,
    .partitionDestroy 16, .partitionMapChange 16 [], .submitWrite 16 8 0, .submitWrite 0 9 0, .submissionCopy 16, .attestationRequest [] none,
    .jobLoad 16 { racks := [], ptes := [] }, .importRegister 16 [] 0 none, .activityRelease 16 0 0, .selectorSizeRead 16 0 0, .deadlineMiss 16 0 0,
    .counterDecrement 16 0 false false, .turnRetire 288 false, .cancelLinearise 16 0 1, .cancelBroadcast 16, .turnDispatch 0 72, .spillRefill 16 0,
    .turnDisplace 0 72, .contextActivate 288, .urgentSwitchEvaluate 288, .urgentSwitch 288, .stealRequest 288 false, .stealCrossDie 288 false,
    .budgetTrap 288 false, .eventTableApply 16, .overflowWalk 16, .rackOpApply 16, .waitTokenSettle 288 false 0, .pageWalkComplete 288,
    .prefetchReady 288 false 0, .invctlWrite 16 0] : List Instr).all (fun i => !i.wellFormed) = true := by decide +kernel

/-! ### Words as the specification spells them (its worked encodings: R262, R278, R281 to R288, R294, and its five programs) -/

/-- Does a stream decode a word to an instruction, and the encoder give the word back? -/
def spells (st : Strm) (w : Nat) (i : Instr) : Bool := decide (decode st w = .ok i) && decide (encode i = some w)

theorem test_words_c_arith :
    spells .c 0x0424648B (.div { g := 0, rd := 9, ra := 3, rb := 4, w := true }) = true ∧
    spells .c 0x04000092 (.popc { g := 0, rd := 0, ra := 0, w := true }) = true ∧
    spells .c 0x041CC808 (.mul { g := 0, rd := 7, ra := 6, rb := 8, w := false }) = true ∧
    spells .c 0x0814A679 (.addi { g := 0, rd := 5, ra := 5, imm := 0x679#13 }) = true ∧
    spells .c 0x0C5280FF (.andi { g := 0, rd := 20, ra := 20, imm := 255#13 }) = true ∧
    spells .c 0x18252824 (.shri { g := 0, rd := 9, ra := 9, amount := 36 }) = true ∧
    spells .c 0x1C37FE00 (.lui { g := 0, rd := 13, imm := -512 }) = true ∧
    spells .c 0x2054800B (.addpc { g := 0, rd := 21, imm := 0x800B#18 }) = true ∧
    spells .c 0x240C8502 (.cmpLt { g := 0, pd := 3, ra := 4, rb := 5 }) = true ∧
    spells .c 0x28268008 (.cmpiNe { g := 0, pd := 1, ra := 20, imm := 8#13 }) = true ∧
    spells .c 0x300CA602 (.sel { g := 0, rd := 3, ra := 5, rb := 6, ps := 2 }) = true := by decide +kernel

theorem test_words_c_control :
    spells .c 0x48314C00 (.ldw { g := 0, rd := 12, ra := 10, tok := 3, off := 0 }) = true ∧
    spells .c 0x4C5EB801 (.ldd { g := 0, rd := 23, ra := 21, tok := 6, off := 1 }) = true ∧
    spells .c 0x68256406 (.stw { g := 0, rd := 9, ra := 11, tok := 1, off := 6 }) = true ∧
    spells .c 0x70000070 (.wait { g := 0, mask := 0x70 }) = true ∧
    spells .c 0x80100001 (.pbr { g := 0, bt := 1, disp := 1 }) = true ∧
    spells .c 0x88900000 (.br { g := 1, bt := 1, hint := 0 }) = true ∧
    spells .c 0x9010E000 (.loopc { g := 0, bt := 1, hint := 0, rc := 7 }) = true ∧
    spells .c 0xA0036001 (.mstart { g := 0, ra := 27 }) = true ∧
    spells .c 0xA0080003 (.sdrain { g := 0, mask := 2 }) = true ∧
    spells .c 0xA0086104 (.qbind { g := 0, prod := 2, q := 3, cons := 1 }) = true ∧
    spells .c 0xA0246005 (.qget { g := 0, rd := 9, q := 3, k := 0, tok := 0 }) = true ∧
    spells .c 0xA00C4D07 (.qput { g := 0, k := 0, tok := 3, q := 2, rb := 13 }) = true ∧
    spells .c 0xA4080001 (.tawait { g := 0, eng := 2 }) = true ∧
    spells .c 0xA8150901 (.join { g := 0, tok := 5, ra := 8, rb := 9 }) = true ∧
    spells .c 0xA8800002 (.cEnd { g := 1 }) = true := by decide +kernel

theorem test_words_c_system :
    spells .c 0xB8288100 (.rkopenw { g := 0, rd := 10, ra := 4, tok := 1 }) = true ∧
    spells .c 0xB8108001 (.rkcommit { g := 0, tok := 4, ra := 4 }) = true ∧
    spells .c 0xB8048003 (.rkclose { g := 0, tok := 1, ra := 4 }) = true ∧
    spells .c 0xC0422000 (.fence { g := 0, before := 0b100001, after := 0b000100, scope := 0 }) = true ∧
    spells .c 0xC0020C00 (.fence { g := 0, before := 1, after := 1, scope := 4 }) = true ∧
    spells .c 0xC4500008 (.crr { g := 0, rd := 20, tok := 0, reg := 0x008 }) = true ∧
    spells .c 0xC4508001 (.crr { g := 0, rd := 20, tok := 4, reg := 0x001 }) = true ∧
    spells .c 0xC8000001 (.eret { g := 0 }) = true ∧
    spells .c 0xC8012A03 (.tlrw { g := 0, tok := 0, ra := 9, rb := 10 }) = true ∧
    spells .c 0xC8580704 (.time { g := 0, rd := 22, tok := 7 }) = true := by decide +kernel

theorem test_words_t :
    spells .t 0x04128004 (.ldq { sync := 0, q := 2, ra := 5, ly := 0, step := 4 }) = true ∧
    spells .t 0x048A0002 (.ldq { sync := 1, q := 1, ra := 4, ly := 0, step := 2 }) = true ∧
    spells .t 0x081A8004 (.stq { sync := 0, q := 3, ra := 5, ly := 0, step := 4 }) = true ∧
    spells .t 0x1D832A00 (.rld { sync := 3, h := 0, dst := 6, src := 5, size := 1 }) = true ∧
    spells .t 0x2C228000 (.adda { sync := 0, dst := 4, src := 5, imm := 0 }) = true ∧
    spells .t 0x2C400038 (.adda { sync := 0, dst := 8, src := 0, imm := 56 }) = true ∧
    spells .t 0x30300000 (.addar { sync := 0, dst := 6, src := 0 }) = true ∧
    spells .t 0x3425C020 (.tLoop { sync := 0, id := 1, stm1 := 1, cnt := 7, len := 2 }) = true ∧
    spells .t 0x48000000 (.tEnd { sync := 0 }) = true := by decide +kernel

theorem test_words_m :
    spells .m 0x0465FFE0 (.nsetIns { sync := 0, mb := 1, v := 0x1FFE0 }) = true ∧
    spells .m 0x04740004 (.nsetFmt { sync := 0, isB := true, v := 4 }) = true ∧
    spells .m 0x08088000 (.mgo { sync := 0, h := 1, mba := 0, mbb := 1, t := 0, acc := false, pri := 0, detach := false, depm1 := 0, mc := false }) = true ∧
    spells .m 0x10120000 (.acc2s { sync := 0, h := 2, mb := 1, t := 0, ly := 0, pri := 0, detach := false }) = true ∧
    spells .m 0x1C000020 (.mLoop { sync := 0, id := 0, stm1 := 0, mb := 0, len := 2 }) = true ∧
    spells .m 0x20400000 (.mSync { sync := 0, postC := true }) = true ∧
    spells .m 0x21800000 (.mSync { sync := 3, postC := false }) = true ∧
    spells .m 0x24000000 (.mEnd { sync := 0 }) = true ∧
    spells .m 0x2C080000 (.mWaith { sync := 0, h := 1 }) = true := by decide +kernel

theorem test_words_v :
    spells .v 0x04423941 (.vsub { sync := 0, qd := 8, qa := 4, qb := 7, m := 1, pka := false, pkb := true }) = true ∧
    spells .v 0x042AD103 (.vfma { sync := 0, qd := 5, qa := 5, qb := 10, m := 1, pka := false, pkb := false }) = true ∧
    spells .v 0x043A10C5 (.vmax { sync := 0, qd := 7, qa := 4, qb := 2, m := 0, pka := true, pkb := true }) = true ∧
    spells .v 0x08540102 (.vexp2 { sync := 0, qd := 10, qa := 8, m := 1, pka := false }) = true ∧
    spells .v 0x0C2A8800 (.viadd { sync := 0, qd := 5, qa := 5, qb := 1, m := 0, pka := false, pkb := false }) = true ∧
    spells .v 0x1013B0C4 (.vcmpGt { sync := 0, md := 1, qa := 7, qb := 6, m := 0, pka := true, pkb := true, uns := false, int := false }) = true ∧
    spells .v 0x20280000 (.vbcasti { sync := 0, qd := 5, m := 0, imm := 0 }) = true ∧
    spells .v 0x2C1A8000 (.vrsum { sync := 0, qd := 3, qa := 5, m := 0, pka := false }) = true ∧
    spells .v 0x34300800 (.vbcast { sync := 0, qd := 6, sr := 1, m := 0 }) = true ∧
    spells .v 0x3C238080 (.vmov { sync := 0, qd := 4, qa := 7, m := 0, pka := true }) = true ∧
    spells .v 0x3C030001 (.vpop { sync := 0, qa := 6 }) = true ∧
    spells .v 0x40480000 (.vsetl { sync := 0, sr := 2 }) = true ∧
    spells .v 0x48088040 (.vsmovToS { sync := 0, sr := 2, q := 2, lane := 1, pk := false }) = true ∧
    spells .v 0x60018000 (.spld { sync := 0, q := 1, part := 2, sr := 0 }) = true ∧
    spells .v 0x60320000 (.spdn { sync := 0, qr := 2 }) = true ∧
    spells .v 0x7000C080 (.vLoop { sync := 0, id := 0, stm1 := 0, cnt := 3, len := 8 }) = true ∧
    spells .v 0x78000000 (.vEnd { sync := 0 }) = true := by decide +kernel

/-! ### States to test on -/

/-- The state that an instruction leads to. -/
def next? : Host.Outcome State Fault Refusal → Option State
  | .next t => some t
  | _ => none

/-- Does an instruction lead to a state that is as told? -/
def leads (i : Instr) (s : State) (f : State → Bool) : Bool :=
  match exec i s with
  | .next t => f t
  | _ => false

/-- A turn runs on context A of site 0, which is logical core 0 of partition 0; page 0 is mapped to frame 0, and a stream runs at its word 0;
a handler is installed. -/
def base (st : Strm) : State :=
  let s := State.reset.withFetchWord 32 0x04000000
  let core := { s.core with ctlTlb := [] }
  { s with cycle := 100, serial := 7, todo := [], part := { s.part with tvec := 0x10000, clusters := [0], single := true },
           core := core.setTlb st (s.core.tlb .c), ctx := s.ctx.onStrm st (fun r => { r with run := true }) }

/-- `base` with its context changed. -/
def at_ (st : Strm) (f : Context → Context) : State := { base st with ctx := f (base st).ctx }

/-- General registers written. -/
def regs (l : List (Fin 32 × Word)) (c : Context) : Context := { c with x := l.foldl (fun v r => v.set r.1 r.2) c.x }

/-- What is in flight last: when, where, what. -/
def flight (s : State) : Option (Nat × Dest × BitVec 256) := (s.ctx.landing.getLast?).map (fun l => (l.due, l.dst, l.val))

/-- A pending token of a word that has nothing else to say. -/
def someTok : TokPend := { op := .pstat 5, pc := 0, pos := 0, serial := 0, due := 0, owned := [5], done := none, fault := none }

/-! ### Words of the C stream -/

/-- A member lands its result in x9 in 64 bits. -/
def lands (i : Instr) (a b : Word) (lat : Nat) (v : Word) : Bool :=
  leads i (at_ .c (regs [(3, a), (4, b)])) (fun t => decide (flight t = some (100 + lat, .x 9, v.setWidth 256)) && decide (t.ctx.cs.pc = 4))

/-- The members and the edge cases of R276 to R278, with the values that the rules give. -/
theorem test_alu_members :
    let o : Op.Alu := { g := 0, rd := 9, ra := 3, rb := 4, w := false }
    let w : Op.Alu := { o with w := true }
    lands (.add o) (-1) 1 1 0 ∧ lands (.add w) 0x7FFFFFFF 1 1 0xFFFFFFFF80000000 ∧ lands (.sub o) 0 1 1 (-1) ∧
    lands (.and o) 0b1100 0b1010 1 0b1000 ∧ lands (.or o) 0b1100 0b1010 1 0b1110 ∧ lands (.xor o) 0b1100 0b1010 1 0b0110 ∧
    lands (.shl o) 1 65 1 2 ∧ lands (.shl w) 1 31 1 0xFFFFFFFF80000000 ∧ lands (.shr o) (-1) 63 1 1 ∧ lands (.sra o) (-8) 1 1 (-4) ∧
    lands (.mul o) (-3) 5 4 (-15) ∧ lands (.mulh o) (-1) 1 4 (-1) ∧ lands (.mulhu o) (-1) 2 4 1 ∧
    lands (.div o) (-7) 2 20 (-3) ∧ lands (.div o) 5 0 20 (-1) ∧ lands (.div w) 0x80000000 (-1) 20 0xFFFFFFFF80000000 ∧
    lands (.divu o) 7 0 20 (-1) ∧ lands (.rem o) (-7) 2 20 (-1) ∧ lands (.rem w) 0x80000000 (-1) 20 0 ∧ lands (.remu o) 7 0 20 7 ∧
    lands (.min o) (-1) 1 1 (-1) ∧ lands (.max o) (-1) 1 1 1 := by decide +kernel

theorem test_AluMembersLandTheirResults :
    let s := at_ .c (regs [(3, 0x80000000), (4, -1)])
    let o : Op.Alu := { g := 0, rd := 9, ra := 3, rb := 4, w := true }
    (aluMember (.div o)).map (fun m => (m.1, m.2.1)) = some (o, 20) ∧ s.ctx.getP 0 = true ∧ mayLand s.ctx 9 ∧ s.ctx.divBusy ≤ s.cycle := by
  unfold mayLand; decide +kernel

/-- The words of R276 and R279 to R281, R284, R285 with the values of the rules. -/
theorem test_immediate_words :
    lands (.clz { g := 0, rd := 9, ra := 3, w := true }) 1 0 1 31 ∧ lands (.popc { g := 0, rd := 9, ra := 3, w := false }) (-1) 0 1 64 ∧
    lands (.addi { g := 0, rd := 9, ra := 3, imm := 0x679 }) 0x12344FFF 0 1 0x12345678 ∧ lands (.andi { g := 0, rd := 9, ra := 3, imm := -64 }) (-1) 0 1 (-64) ∧
    lands (.ori { g := 0, rd := 9, ra := 3, imm := -1 }) 0 0 1 (-1) ∧ lands (.xori { g := 0, rd := 9, ra := 3, imm := -1 }) 5 0 1 (-6) ∧
    lands (.shli { g := 0, rd := 9, ra := 3, amount := 63 }) 3 0 1 0x8000000000000000 ∧ lands (.shri { g := 0, rd := 9, ra := 3, amount := 36 }) (-1) 0 1 0xFFFFFFF ∧
    lands (.srai { g := 0, rd := 9, ra := 3, amount := 2 }) (-6) 0 1 (-2) ∧ lands (.lui { g := 0, rd := 9, imm := 0x48D1 }) 0 0 1 0x12344000 ∧
    lands (.addpc { g := 0, rd := 9, imm := -1 }) 0 0 1 (-4) ∧ lands (.sel { g := 0, rd := 9, ra := 3, rb := 4, ps := 0 }) 3 4 1 3 ∧
    lands (.sel { g := 0, rd := 9, ra := 3, rb := 4, ps := 2 }) 3 4 1 4 ∧ lands (.pto { g := 0, rd := 9 }) 0 0 1 1 := by decide +kernel

theorem test_ImmediateAndSelectWordsLandTheirValue :
    let s := at_ .c (regs [(3, -6)])
    (xWord s.ctx (.srai { g := 0, rd := 9, ra := 3, amount := 2 })) = some (0, 9, -2) ∧ s.ctx.getP 0 = true ∧ mayLand s.ctx 9 := by
  unfold mayLand; decide +kernel

/-- A compare or a predicate word lands 1 or 0 in p3. -/
def tells (i : Instr) (a b : Word) (p : Bool) : Bool :=
  leads i (at_ .c (fun c => { regs [(3, a), (4, b)] c with p := c.p.set 1 true })) (fun t => decide (flight t = some (101, .p 3, BitVec.ofNat 256 p.toNat)))

/-- The conditions of R282, R283 and the functions of R284. -/
theorem test_compares :
    let o : Op.Cmp := { g := 0, pd := 3, ra := 3, rb := 4 }
    let m := fun (v : BitVec 13) => ({ g := 0, pd := 3, ra := 3, imm := v } : Op.CmpImm)
    let p : Op.Pred := { g := 0, pd := 3, pa := 1, pb := 2 }
    tells (.cmpEq o) 5 5 true ∧ tells (.cmpNe o) 5 5 false ∧ tells (.cmpLt o) (-1) 0 true ∧ tells (.cmpLtu o) (-1) 0 false ∧
    tells (.cmpGe o) 0 (-1) true ∧ tells (.cmpGeu o) 0 (-1) false ∧ tells (.cmpiEq (m (-1))) (-1) 0 true ∧ tells (.cmpiNe (m 8)) 8 0 false ∧
    tells (.cmpiLt (m (-1))) 0 0 false ∧ tells (.cmpiLtu (m (-1))) 0 0 true ∧
    tells (.pand p) 0 0 false ∧ tells (.por p) 0 0 true ∧ tells (.pxor p) 0 0 true ∧ tells (.pandn p) 0 0 true := by decide +kernel

theorem test_pfrom : leads (.pfrom { g := 0, ra := 3 }) (at_ .c (regs [(3, 0xFF)])) (fun t => decide (flight t = some (101, .preds, 0xFF))) = true := by
  decide +kernel

theorem test_CompareAndPredicateWordsLandTheirValue :
    let s := at_ .c (regs [(3, -1)])
    pWord s.ctx (.cmpLt { g := 0, pd := 0, ra := 3, rb := 4 }) = some (0, 0, true) ∧ s.ctx.getP 0 = true ∧ s.ctx.landingFull = false := by
  decide +kernel

theorem test_GuardedOffWordOnlyIssues :
    let s := base .c
    guardOf (.trap { g := 7, code := 1 }) = some 7 ∧ s.ctx.getP 7 = false ∧ next? (exec (.trap { g := 7, code := 1 }) s) = some (nextWord s) :=
  ⟨rfl, by decide +kernel, rfl⟩

/-- The first clause at a token that owns x5, the second at eight results in flight. -/
theorem test_ResultWordsWaitForTheirDestination :
    let i : Instr := .addi { g := 0, rd := 5, ra := 3, imm := 1 }
    let s := at_ .c (fun c => { c with tok := c.tok.set 2 (some someTok) })
    let u := at_ .c (fun c => { c with landing := List.replicate 8 { due := 200, serial := 0, st := .c, dst := .x 1, val := 0 } })
    (xWord s.ctx i).isSome = true ∧ s.ctx.ownedX 5 = true ∧ next? (exec i s) = some (waitsOn s (.owned 5)) ∧
    (xWord u.ctx i).isSome = true ∧ u.ctx.ownedX 5 = false ∧ u.ctx.landingFull = true ∧ next? (exec i u) = some (waitsOn u .landing) :=
  ⟨rfl, by decide +kernel, rfl, rfl, by decide +kernel, by decide +kernel, rfl⟩

/-- An aligned store whose offset counts words, a byte load, a TLRW, and an access whose place is known. -/
theorem test_MemoryWordsTakeTheirToken :
    let s := at_ .c (regs [(12, 5), (8, 0x100)])
    (s.ctx.getP 0 = true ∧ mayTake s.ctx 5 [12] ∧ mayTake s.ctx 5 [] ∧ (memAt s.ctx 8 2 4).toNat % 4 = 0 ∧ (memAt s.ctx 8 1 8).toNat % 8 = 0 ∧
      (s.ctx.getX 8).toNat % 32 = 0) ∧
    leads (.stw { g := 0, rd := 12, ra := 8, tok := 5, off := 2 }) s (fun t => decide ((t.ctx.tok[(5 : Fin 8)]).map (fun k => k.op) = some (.store 4 0x108 5)) &&
      decide (t.mem = s.mem) && decide (t.ctx.x = s.ctx.x)) = true ∧
    s.peek .c .read (0x000FFFFFFF000000 + 8) 8 = some (spKey 0 8) :=
  ⟨⟨by decide +kernel, ⟨by decide +kernel, by decide +kernel⟩, ⟨by decide +kernel, nofun⟩, by decide +kernel, by decide +kernel, by decide +kernel⟩,
    by decide +kernel, by decide +kernel⟩

/-- A misaligned load, and one whose token is pending. -/
theorem test_MisalignedWords :
    let j : Instr := .ldd { g := 0, rd := 12, ra := 8, tok := 5, off := 0 }
    let u := at_ .c (regs [(8, 0x104)])
    let v := at_ .c (fun c => { regs [(8, 0x104)] c with tok := c.tok.set 5 (some someTok) })
    (memWord u.ctx j = some (0, 5, [12], 0x104, 8, .load 8 false 12 0x104) ∧ mayTake u.ctx 5 [12] ∧ u.ctx.tip = false ∧ handlerOf u.part ≠ 0) ∧
    leads j u (fun t => decide (t.ctx.cause = 11) && decide (t.ctx.faddr = 0x104) && decide (t.ctx.fpc = 0) && decide (t.ctx.cs.pc = 0x10000) &&
      t.ctx.tip && t.ctx.pl && decide (t.ctx.tok = u.ctx.tok)) = true ∧
    v.ctx.tok[(5 : Fin 8)] ≠ none ∧ next? (exec j v) = some (waitsOn v (.token 5)) :=
  ⟨⟨rfl, ⟨by decide +kernel, by decide +kernel⟩, by decide +kernel⟩, by decide +kernel, by decide +kernel, by decide +kernel⟩

/-- Every load and store takes its token with its size (R286). -/
theorem test_memory_words :
    let o : Op.Mem := { g := 0, rd := 12, ra := 8, tok := 5, off := -1 }
    let op := fun (i : Instr) => ((next? (exec i (at_ .c (regs [(12, 5), (8, 0x100)])))).bind (fun t => t.ctx.tok[(5 : Fin 8)])).map (fun k => k.op)
    op (.ldb o) = some (.load 1 true 12 0xFF) ∧ op (.ldh o) = some (.load 2 true 12 0xFE) ∧ op (.ldw o) = some (.load 4 true 12 0xFC) ∧
    op (.ldd o) = some (.load 8 false 12 0xF8) ∧ op (.ldbu o) = some (.load 1 false 12 0xFF) ∧ op (.ldhu o) = some (.load 2 false 12 0xFE) ∧
    op (.ldwu o) = some (.load 4 false 12 0xFC) ∧ op (.stb o) = some (.store 1 0xFF 5) ∧ op (.sth o) = some (.store 2 0xFE 5) ∧
    op (.std o) = some (.store 8 0xF8 5) ∧ op (.tlrw { g := 0, tok := 5, ra := 12, rb := 8 }) = some (.tlrw 5 0x100) := by decide +kernel

/-- Each form of the token words meets its conditions, and takes its token. -/
theorem test_TokenWordsTakeTheirToken :
    let s := at_ .c (fun c => { regs [(8, 0x40), (9, 3)] c with
      q := (c.q.set 3 { Queue.empty with prod := 2, cons := 0 }).set 2 { Queue.empty with prod := 0, cons := 2 } })
    let takes := fun (i : Instr) => match tokWord s i with
      | some (_, k, owned, lat, op, _) => (s.ctx.tok[k]).isNone && owned.all (fun r => !s.ctx.ownedX r) &&
          leads i s (fun t => decide (t.ctx.tok[k] = some (pendingTok s op (s.cycle + lat) owned)) && decide (t.ctx.cs.pc = 4))
      | none => false
    (∀ i ∈ ([.join { g := 0, tok := 5, ra := 8, rb := 9 },
      .budget { g := 0, rd := 5, ra := 9, tok := 1 }, .cancel { g := 0, tok := 1, ra := 8, level := 1 }, .cancel { g := 0, tok := 1, ra := 8, level := 4 },
      .pwait { g := 0, rd := 4, h := 1, tok := 0 }, .ptest { g := 0, rd := 30, h := 0, tok := 0 }, .pdetach { g := 0, tok := 1, h := 1, rb := 9 },
      .pprio { g := 0, tok := 1, h := 1, rb := 9 }, .pstat { g := 0, rd := 5, tok := 1 }, .crr { g := 0, rd := 20, tok := 4, reg := 8 },
      .time { g := 0, rd := 22, tok := 7 }] : List Instr), takes i = true) ∧ crrSupervisor 8 = false ∧ s.ctx.replaying = false := by decide +kernel

/-- With no token pending no QGET or QPUT is still to be served. -/
theorem queueFree_of_settled (c : Context) (q : Fin 16) (h : ∀ k : Fin 8, c.tok[k] = none) : queueFree c q := by
  intro k t ht
  rw [h k] at ht
  cases ht

/-- QGET and QGETP of lane 1 of a queue with an entry and of an empty one; QPUT into a queue with room and into a full one. -/
theorem test_QueueWordsAreServedOrPend :
    let q : Queue := { Queue.empty with prod := 2, cons := 0, ents := [{ serial := 1, know := Know.none, pushed := 1, data := some (BitVec.ofNat 2048 (5 * 2 ^ 64)) }] }
    let f : Queue := { Queue.empty with prod := 0, cons := 2 }
    let s := at_ .c (fun c => { regs [(9, 3)] c with
      q := (((c.q.set 3 q).set 4 { q with ents := [] }).set 2 f).set 5 { f with ents := List.replicate 16 { serial := 1, know := Know.none, pushed := 1, data := some 0 } } })
    let settles : State → Option (Nat × Option (Word × Word)) := fun t => (t.ctx.tok[(3 : Fin 8)]).map (fun k => (k.due, k.done))
    (s.ctx.queueTrap 3 true = none ∧ s.ctx.queueTrap 4 true = none ∧ s.ctx.queueTrap 2 false = none ∧ s.ctx.queueTrap 5 false = none) ∧
    (queueFree s.ctx 3 ∧ queueFree s.ctx 4 ∧ queueFree s.ctx 2 ∧ queueFree s.ctx 5 ∧ mayTake s.ctx 3 [9]) ∧
    ((∃ es c, s.ctx.popQ s.cycle .c 3 1 = .ok (es, c)) ∧ (∃ e, s.ctx.popQ s.cycle .c 4 1 = .error e) ∧ s.ctx.roomQ s.cycle .c 2 = .ok () ∧
      (∃ e, s.ctx.roomQ s.cycle .c 5 = .error e) ∧ (∀ e ∈ s.ctx.q[(5 : Fin 16)].ents, e.serial ≠ s.serial + 1)) ∧
    leads (.qget { g := 0, rd := 9, q := 3, k := 1, tok := 3 }) s (fun t => decide (settles t = some (102, some (5, 0))) && decide (t.ctx.q[(3 : Fin 16)].ents = [])) = true ∧
    leads (.qgetp { g := 0, rd := 9, q := 3, k := 1, tok := 3 }) s (fun t => decide (settles t = some (102, some (5, 0))) &&
      decide (t.ctx.q[(3 : Fin 16)].ents.length = 1)) = true ∧
    leads (.qget { g := 0, rd := 9, q := 4, k := 1, tok := 3 }) s (fun t => decide (settles t = some (101, none))) = true ∧
    leads (.qput { g := 0, k := 1, tok := 3, q := 2, rb := 9 }) s (fun t => decide (settles t = some (102, some (0, 0))) &&
      decide (t.ctx.q[(2 : Fin 16)].ents.map (fun e => (e.pushed, e.data)) = [(100, some (BitVec.ofNat 2048 (3 * 2 ^ 64)))])) = true ∧
    leads (.qput { g := 0, k := 1, tok := 3, q := 5, rb := 9 }) s (fun t => decide (settles t = some (101, none))) = true := by
  refine ⟨by decide +kernel, ⟨queueFree_of_settled _ _ (by decide +kernel), queueFree_of_settled _ _ (by decide +kernel),
    queueFree_of_settled _ _ (by decide +kernel), queueFree_of_settled _ _ (by decide +kernel), by unfold mayTake; decide +kernel⟩, ⟨⟨_, _, rfl⟩, ⟨_, rfl⟩, rfl, ⟨_, rfl⟩, by decide +kernel⟩, by decide +kernel, by decide +kernel,
    by decide +kernel, by decide +kernel, by decide +kernel⟩

/-- Each form of the event words meets its conditions and sends its operation. -/
theorem test_EventWordsSendTheirOperation :
    let s := at_ .c (regs [(8, 0x500000003)])
    let o : Op.TokRes := { g := 0, rd := 9, ra := 8, tok := 2 }
    (∀ i ∈ ([.epost { g := 0, tok := 2, ra := 8 }, .etest o, .seta o, .setn o, .sets o, .setnt o, .geta o] : List Instr),
      (eventWord s i).isSome = true ∧ leads i s (fun t => decide (t.part.evops.map (fun e => (e.name, e.tok)) = [(3, some (s.turnId, (2 : Fin 8)))]) &&
        decide (t.ctx.cs.pc = 4)) = true) ∧
    mayTake s.ctx 2 [9] ∧ s.releaseWaits = false ∧ s.ctx.replaying = false ∧
    leads (.setn o) s (fun t => decide (t.part.evops.map (fun e => e.kind) = [.sete 1 5])) = true := by unfold mayTake; decide +kernel

/-- Each rack word meets its conditions. -/
theorem test_RackWordsSendTheirOperation :
    let s := at_ .c (regs [(4, 0x30005)])
    (∀ i ∈ ([.rkopenw { g := 0, rd := 10, ra := 4, tok := 1 }, .rkcommit { g := 0, tok := 1, ra := 4 }, .rkopenr { g := 0, rd := 10, ra := 4, tok := 1 },
      .rkclose { g := 0, tok := 1, ra := 4 }] : List Instr),
      (rackWord i).isSome = true ∧ leads i s (fun t => decide (t.part.rackops.map (fun o => (o.rack, o.port, o.holder)) = [(5, 3, .turn s.turnId)])) = true) ∧
    mayTake s.ctx 1 [10, 11] ∧ s.pendingOn .c 0x0F s.serial (BitVec.allOnes 64) = false ∧ s.ctx.twinOpen = false ∧ s.pawnsOpen = false ∧ s.ctx.readsPending = false ∧ s.ctx.replaying = false := by
  unfold mayTake; decide +kernel

theorem test_CreationWordsTakeTheirToken :
    let s := at_ .c (regs [(8, 0x40)])
    let o : Op.TokSrc := { g := 0, tok := 1, ra := 8 }
    s.needsSpill (clusterOf s.site) (s.recordTurn (s.ctx.getX 8)) = false ∧ s.placementFull = false ∧ mayTake s.ctx 1 [] ∧
    next? (exec (.spawn o) s) = some (afterCancel (tokenTaken s 1 (.spawn 0x40) (s.recordLat 0x40) [])) ∧
    next? (exec (.launch o) s) = some (afterCancel (tokenTaken s 1 (.launch 0x40) (s.recordLat 0x40) [])) :=
  ⟨by decide +kernel, by decide +kernel, ⟨by decide +kernel, nofun⟩, rfl, rfl⟩

/-- PBR to word 5, BR and CALL to a ready target at the top of the word addresses, LOOPC from 1 and from 2. -/
theorem test_BranchWordsLandAndFollowTargets :
    let top : Word := 0xFFFFFFFFFFFFC
    let s := at_ .c (fun c => { regs [(7, 1), (8, 2)] c with b := c.b.set 1 { val := top, ready := some 100, byPbr := true } })
    s.ctx.landingFull = false ∧ mayLand s.ctx 7 ∧ mayLand s.ctx 8 ∧ targetReady s 1 ∧
    leads (.pbr { g := 0, bt := 1, disp := 5 }) s (fun t => decide (flight t = some (101, .b 1 true 100, 20))) = true ∧
    leads (.pbrx { g := 0, bt := 1, ra := 7 }) s (fun t => decide (flight t = some (101, .b 1 false 100, 1))) = true ∧
    leads (.br { g := 0, bt := 1, hint := 0 }) s (fun t => decide (t.ctx.cs.pc = top) && decide (t.ctx.landing = [])) = true ∧
    leads (.call { g := 0, bt := 1, hint := 0 }) s (fun t => decide (t.ctx.cs.pc = top) && decide (flight t = some (101, .b 7 true 100, 4))) = true ∧
    leads (.loopc { g := 0, bt := 1, hint := 0, rc := 7 }) s (fun t => decide (t.ctx.cs.pc = 4) && decide (flight t = some (101, .x 7, 0))) = true ∧
    leads (.loopc { g := 0, bt := 1, hint := 0, rc := 8 }) s (fun t => decide (t.ctx.cs.pc = top) && decide (flight t = some (101, .x 8, 1))) = true := by
  refine ⟨by decide +kernel, by unfold mayLand; decide +kernel, by unfold mayLand; decide +kernel,
    ⟨by decide +kernel, by decide +kernel, by decide +kernel, 100, by decide +kernel, by decide +kernel⟩, ?_⟩
  decide +kernel

/-- WAIT, SDRAIN, TPOST, TAWAIT with and without what they wait for; CPOINT; QBIND of an empty queue. -/
theorem test_SynchronisingWordsIssueOrWaitAndQbindBinds :
    let s := base .c
    let held := at_ .c (fun c => { c with tok := c.tok.set 7 (some someTok), ts := { c.ts with run := true } })
    let full := at_ .c (fun c => { c with chans := (c.chans.set 0 (List.replicate 16 { made := 1, know := Know.none })).set 3 [{ made := 1, know := Know.none }] })
    s.ctx.tok[(7 : Fin 8)] = none ∧ leads (.wait { g := 0, mask := 0x80 }) s (fun t => decide (t.ctx.cs.pc = 4)) = true ∧
    held.ctx.tok[(7 : Fin 8)] ≠ none ∧ leads (.wait { g := 0, mask := 0x80 }) held (fun t => decide (t.ctx.cs.wait = some .tokens) && decide (t.ctx.waitMask = 0x80)) = true ∧
    draining 1 s.ctx = false ∧ leads (.sdrain { g := 0, mask := 1 }) s (fun t => decide (t.ctx.cs.pc = 4)) = true ∧
    draining 1 held.ctx = true ∧ leads (.sdrain { g := 0, mask := 1 }) held (fun t => decide (t.ctx.cs.wait = some .drain)) = true ∧
    leads (.tpost { g := 0, eng := 1 }) s (fun t => decide (t.ctx.chans[(0 : Fin 12)] = [{ made := 100, know := { c := 7, t := 0, m := 0 } }])) = true ∧
    leads (.tpost { g := 0, eng := 1 }) full (fun t => decide (t.ctx.cs.wait = some .channel)) = true ∧
    leads (.tawait { g := 0, eng := 1 }) full (fun t => decide (t.ctx.chans[(3 : Fin 12)] = []) && decide (t.ctx.cs.pc = 4)) = true ∧
    leads (.tawait { g := 0, eng := 3 }) s (fun t => decide (t.ctx.cs.wait = some .channel)) = true ∧
    leads (.cpoint { g := 0 }) s (fun t => decide (t.ctx.cs.pc = 4)) = true ∧
    s.ctx.q[(3 : Fin 16)].ents = [] ∧ s.ctx.queueAwaited 3 = false ∧
    leads (.qbind { g := 0, prod := 2, q := 3, cons := 1 }) s (fun t => decide ((t.ctx.q[(3 : Fin 16)]).prod = 2) && decide ((t.ctx.q[(3 : Fin 16)]).cons = 1)) = true := by
  decide +kernel

theorem test_StartsRunTheirStream :
    let s := at_ .c (regs [(14, 0xFFFFFFFFFFFFC)])
    let o : Op.OneSrc := { g := 0, ra := 14 }
    s.ctx.ts.run = false ∧ s.ctx.ms.run = false ∧ s.ctx.vs.run = false ∧
    leads (.tstart o) s (fun t => t.ctx.ts.run && decide (t.ctx.ts.pc = 0xFFFFFFFFFFFFC) && decide (t.ctx.ts.readyAt = 101)) = true ∧
    leads (.mstart o) s (fun t => t.ctx.ms.run && decide (t.ctx.ts = s.ctx.ts)) = true ∧
    leads (.vstart o) s (fun t => t.ctx.vs.run && decide (t.ctx.ts = s.ctx.ts)) = true := by decide +kernel

/-- FENCE with nothing pending; CRW of FFLAGS, and of a read-only register; TRAP, BKPT with and without BKEN; ERET at both levels. -/
theorem test_FenceCrwTrapEret :
    let s := at_ .c (regs [(3, 0xFF)])
    let k := at_ .c (fun c => { c with dbgctl := 4 })
    let h := at_ .c (fun c => { c with pl := true, tip := true, held := true, epc := 0x40 })
    (s.ctx.cs.fence = none ∧ s.pendingOn .c 1 s.serial (s.fenceChips 0) = false ∧ leads (.fence { g := 0, before := 1, after := 1, scope := 0 }) s (fun t => decide (t.ctx = (nextWord s).ctx)) = true) ∧
    (crwNever 0x026 = false ∧ crwAny 0x026 = true ∧ leads (.crw { g := 0, ra := 3, reg := 0x026 }) s (fun t => decide (flight t = some (102, .ctl 0x026, 0xFF))) = true) ∧
    (crwAny 0x001 = false ∧ leads (.crw { g := 0, ra := 3, reg := 0x001 }) s (fun t => decide (t.ctx.cause = 2) && t.ctx.pl) = true) ∧
    (let i := at_ .c (regs [(3, 7)])
     (i.ctx.getX 3).toNat % 4 = 3 ∧ leads (.crw { g := 0, ra := 3, reg := 0x017 }) i (fun t => decide (t.ctx.cause = 1) && t.ctx.pl) = true) ∧
    (s.ctx.tip = false ∧ handlerOf s.part = 0x10000 ∧ leads (.trap { g := 0, code := 0x7FFF }) s (fun t =>
      decide (t.ctx.cause = 17) && decide (t.ctx.epc = 4) && decide (t.ctx.fpc = 0) && decide (t.ctx.frec = 0x7FFF) && decide (t.ctx.cs.pc = 0x10000)) = true) ∧
    (s.ctx.dbgctl.getLsbD 2 = false ∧ leads (.bkpt { g := 0, code := 1 }) s (fun t => decide (t.ctx.cause = 16) && decide (t.ctx.epc = 4)) = true) ∧
    (k.ctx.dbgctl.getLsbD 2 = true ∧ leads (.bkpt { g := 0, code := 1 }) k (fun t => t.ctx.haltReq && !t.ctx.tip) = true) ∧
    (h.ctx.pl = true ∧ h.ctx.tip = true ∧ leads (.eret { g := 0 }) h (fun t => !t.ctx.pl && !t.ctx.tip && decide (t.ctx.cs.pc = 0x40) &&
      decide (t.ctx.cs.readyAt = 120)) = true) ∧
    (s.ctx.pl = false ∧ leads (.eret { g := 0 }) s (fun t => decide (t.ctx.cause = 2) && t.ctx.pl && decide (t.ctx.epc = 0)) = true) := by decide +kernel

/-! ### EWAIT, collectives and pawns -/

/-- The own scratchpad window's address of a byte. -/
def own (b : Nat) : Word := BitVec.ofNat 64 (0x000FFFFFFF000000 + b)

/-- END in its three cases. -/
theorem test_EndRetires :
    let s := base .c
    let h := at_ .c (fun c => { c with tip := true })
    let w := at_ .c (fun c => { c with vs := { c.vs with run := true } })
    (s.ctx.tip = false ∧ s.ctx.unfinished = false ∧ leads (.cEnd { g := 0 }) s (fun t => decide (t.ctx.retire = some { faulted := false, cancelled := false })) = true) ∧
    (h.ctx.tip = true ∧ leads (.cEnd { g := 0 }) h (fun t => decide (t.ctx.retire = some { faulted := true, cancelled := false })) = true) ∧
    (w.ctx.unfinished = true ∧ leads (.cEnd { g := 0 }) w (fun t => decide (t.ctx.cs.wait = some .cend)) = true) := by decide +kernel

/-- A turn. -/
def aTurn : Turn :=
  { id := 1, record := 0, launch := 0, join := 0, flags := 0, deadline := 0, stamp := 0, arrival := 0, heat := 0, pin := none, bg := false,
    bgDue := false, started := true, cancelled := false, job := 0, act := 0 }

/-- An event that has not fired and has three waiters. -/
def waited : EvEnt :=
  { job := 0, counting := false, state := 0, waiters := List.replicate 3 ({ turn := aTurn, saved := none }, 0), overflow := [], notify := false,
    vec := 0, walkAt := none }

/-- A turn under the launch whose counter, at byte 0x100 of the scratchpad, has two children, with EWAIT's operands in x8 and x9. -/
def awaiting : State :=
  let s := at_ .c (fun c => { regs [(8, 3), (9, own 0x200)] c with turn := c.turn.map (fun t => { t with launch := own 0x100 }) })
  { s with mem := s.mem.writeBytes (spKey 0 0x100) (leBytes 8 2), part := { s.part with events := [(3, waited)] } }

theorem test_EwaitRegistersItsContinuation :
    let s := awaiting
    (s.part.events.find? 3 = some waited ∧ waited.state = 0 ∧ waited.waiters.length < 4 ∧ s.overflowFull waited = false ∧ s.ctx.isCancelled = false) ∧
    (∃ u a b, s.readTurn (own 0x200) s.launchOf 0 0 none = .ok (u, false) ∧ s.createUnder s.launchOf 1 = .ok (true, a) ∧
      a.writeVa ((own 0x200).toNat + 40) 8 a.launchOf.toNat = .ok b) ∧
    leads (.ewait { g := 0, ra := 8, rb := 9 }) s (fun t => decide (t.ctx.retire = some { faulted := false, cancelled := false }) &&
      decide (leNat (t.mem.readBytes (spKey 0 0x100) 8) = 3) && decide (leNat (t.mem.readBytes (spKey 0 0x228) 8) = (own 0x100).toNat) &&
      decide ((t.part.events.find? 3).map (fun e => e.waiters.length) = some 4)) = true :=
  ⟨by decide +kernel, ⟨_, _, _, rfl, rfl, rfl⟩, by decide +kernel⟩

/-- Each collective word of an even ra. -/
theorem test_CollectiveWordsCreate :
    let s := at_ .c (fun c => { regs [(4, 0x40), (5, 0x0700000000000000), (6, 0x80)] c with h := c.h.set 2 0x40 })
    let o : Op.Coll := { g := 0, detach := false, h := 2, ra := 4, rb := 6 }
    (s.freePawn = some 0 ∧ s.ctx.cs.loops = [] ∧ (s.ctx.getX 4).toNat % 64 = 0 ∧ (s.ctx.getX 6).toNat % 64 = 0) ∧
    ∀ i ∈ ([.allred o, .bcast o, .allgath o, .redscat o, .barrier { g := 0, detach := false, h := 2, ra := 4 }] : List Instr),
      leads i s (fun t => (t.pawn 0).live && decide ((t.pawn 0).gen = 1) && decide ((t.pawn 0).pri = 7) && decide (t.ctx.h[(2 : Fin 16)] = 64) &&
        decide (t.part.collSeq.getD (s.collKey 0x40) 0 = 1)) = true := by decide +kernel

/-- A pawn of the turn, as its word leaves it. -/
def aPawn (n : NewPawn) : Pawn := { bornPawn (base .c) 0 n with gen := 1 }

/-- A core with these pawns. -/
def withPawns (s : State) (l : List (Fin 64 × Pawn)) : State :=
  { s with core := { s.core with pawns := l.foldl (fun v e => v.set e.1 e.2) s.core.pawns } }

/-- A matrix pawn of tile rows that handle h names. -/
def newCopy (h : Fin 16) (job : PawnJob) (eng : Engine) (st : Strm) : NewPawn :=
  { st := st, eng := eng, pri := 0, h := h, detach := false, job := job, sync := 0, due := 100, lead := 0, rows := 0, draw := false, idx := [], tr := [] }

/-- PCANCEL of a pawn that has not begun, and of one under way. -/
theorem test_PcancelTellsItsPawns :
    let p := aPawn (newCopy 3 (.rst 0 0 64) .transfer .t)
    let s := withPawns (at_ .c (fun c => { c with h := c.h.set 3 64 })) [(0, p)]
    let u := withPawns s [(0, { p with state := .running })]
    let i : Instr := .pcancel { g := 0, rd := 4, h := 3, tok := 7 }
    (s.ctx.getP 0 = true ∧ s.ctx.tok[(7 : Fin 8)] = none ∧ s.ctx.ownedX 4 = false ∧ s.ctx.ownedX 5 = false ∧ s.targets 64 false = [0]) ∧
    leads i s (fun t => decide ((t.pawn 0).fin = some .cancelled) && decide ((t.pawn 0).frec = 15)) = true ∧
    leads i u (fun t => decide ((t.pawn 0).fin = none) && (t.pawn 0).cancelReq && (t.ctx.tok[(7 : Fin 8)]).isSome) = true ∧
    (let c : Context := { s.ctx with hwas := [(3, .t, 5, 65)] }
     c.cHandle 3 = (if 5 < (c.cs.know).t then 64 else 65) ∧ c.cHandle 4 = c.getH 4) := by decide +kernel

/-! ### Words of the T stream -/

/-- What a stream's word meets, its token popped. -/
def metOf (s : State) (st : Strm) (sync : Fin 8) : State := { s with ctx := (s.ctx.await st sync s.cycle).getD s.ctx }

theorem meets_t (s : State) (sync : Fin 8) (alone : Bool) (h : (s.ctx.await .t sync s.cycle).isSome = true ∧ s.ctx.twin = [] ∧ s.ctx.tcommitAt ≤ s.cycle) :
    metT s sync alone (metOf s .t sync) := by
  obtain ⟨c, hc⟩ := Option.isSome_iff_exists.1 h.1
  exact ⟨fun _ => h.2, by simp [h.2.1], c, hc, by simp [metOf, hc]⟩

theorem meets_m (s : State) (sync : Fin 8) (h : (s.ctx.await .m sync s.cycle).isSome = true ∧ s.retStuck = false) : metM s sync (metOf s .m sync) := by
  obtain ⟨c, hc⟩ := Option.isSome_iff_exists.1 h.1
  exact ⟨h.2, c, hc, by simp [metOf, hc]⟩

theorem meets_v (s : State) (sync : Fin 8) (h : (s.ctx.await .v sync s.cycle).isSome = true ∧ s.vStuck = false) : metV s sync (metOf s .v sync) := by
  obtain ⟨c, hc⟩ := Option.isSome_iff_exists.1 h.1
  exact ⟨h.2, c, hc, by simp [metOf, hc]⟩

/-- An entry that has landed. -/
def entry (serial : Nat) (v : QEntry) : QEnt := { serial := serial, know := Know.none, pushed := 1, data := some v }

/-- A queue between two streams, with entries. -/
def queue (prod cons : Fin 4) (es : List QEnt) : Queue := { Queue.empty with prod := prod, cons := cons, ents := es }

/-- The T stream with a base in a5, addresses in a4 and a6, a count in a7, a queue of index entries q0, a queue q1 of values, and q2 and q3 to
and from V; its token of code 1 is there. Record 0 walks one row of 64 FP32 elements, record 1 the same, record 2 four rows of 64 bytes. -/
def tState : State :=
  let ly : LyRec := { rows := 1, cols := 64, rstride := 256, swz := 0, efmt := 1, lfmt := 1, scale := 0 }
  let s := at_ .t (fun c => { c with
    a := (((c.a.set 5 0x1000).set 4 (own 0x1000)).set 6 0x2000).set 7 2
    q := (((c.q.set 0 (queue 0 1 [entry 1 0x40])).set 1 (queue 0 1 [entry 2 7])).set 2 (queue 1 2 [])).set 3 (queue 2 1 [entry 3 5])
    chans := c.chans.set 7 [{ made := 1, know := Know.none }] })
  { s with core := { s.core with ly := ((s.core.ly.set 0 ly).set 1 ly).set 2 { ly with rows := 4, cols := 64, efmt := 8, lfmt := 8 } } }

/-- The register and control words of the T stream: what each needs, and the record it leaves. -/
theorem test_TransferRegisterAndControlWords :
    let s := tState
    (metT s 0 true (metOf s .t 0) ∧ metT s 1 false (metOf s .t 1)) ∧
    (∃ es c, (metOf s .t 0).ctx.popQ s.cycle .t 0 1 = .ok (es, c)) ∧ goodLoop s.ctx.ts 3 2 2 ∧
    (s.ctx.ts.fence = none ∧ s.pendingOn .t 1 s.serial (s.fenceChips 0) = false ∧ s.byHandle s.ctx.h[(1 : Fin 16)] = none) ∧
    leads (.adda { sync := 1, dst := 4, src := 5, imm := -1 }) s (fun t => decide (flight t = some (101, .a 4, 0xFFF)) && decide (t.ctx.twin.length = 1) &&
      decide (t.ctx.chans[(7 : Fin 12)] = [])) = true ∧
    leads (.addar { sync := 0, dst := 5, src := 0 }) s (fun t => decide (flight t = some (101, .a 5, 0x1040)) && decide (t.ctx.q[(0 : Fin 16)].ents = [])) = true ∧
    leads (.tSync { sync := 0, postC := true }) s (fun t => decide (t.ctx.twin.map (fun e => e.op) = [.sync true])) = true ∧
    leads (.tLoop { sync := 0, id := 3, stm1 := 1, cnt := 7, len := 2 }) s (fun t => decide (t.ctx.ts.pc = 4) && decide (t.ctx.ts.loops.length = 1)) = true ∧
    leads (.tFence { sync := 0, before := 1, after := 1, scope := 0 }) s (fun t => decide (t.ctx.ts.pc = 4)) = true ∧
    leads (.tWaith { sync := 0, h := 1 }) s (fun t => decide (t.ctx.ts.pc = 4)) = true ∧
    leads (.tEnd { sync := 0 }) s (fun t => !t.ctx.ts.run) = true := by
  refine ⟨⟨meets_t _ _ _ (by decide +kernel), meets_t _ _ _ (by decide +kernel)⟩, ⟨_, _, rfl⟩, by unfold goodLoop; decide +kernel, ?_⟩
  decide +kernel

/-- LDQ of 64 elements at a5 into q2, STQ from q3 to a4; PREF at a5, and of an empty walk. -/
theorem test_QueueWords :
    let s := tState
    let ly := s.core.ly[(0 : Fin 64)]
    (metT s 0 false (metOf s .t 0) ∧ laneFmtOk ly.lfmt.toNat = true ∧ s.ctx.roomQ s.cycle .t 2 = .ok () ∧ goodBase 0x1000 ∧ goodBase (own 0x1000)) ∧
    (∃ w ls u, queueWalks (metOf s .t 0) .read 0x1000 ly false w ls u ∧ u.checkRanges .t false (queueRanges u w false) = .ok ()) ∧
    (∃ w ls u es c, queueWalks (metOf s .t 0) .write (own 0x1000) ly false w ls u ∧ u.checkRanges .t false (queueRanges u w true) = .ok () ∧
      (metOf s .t 0).ctx.popQ s.cycle .t 3 1 = .ok (es, c)) ∧
    leads (.ldq { sync := 0, q := 2, ra := 5, ly := 0, step := -1 }) s (fun t => decide (flight t = some (101, .a 5, 0xFC0)) &&
      decide (t.ctx.q[(2 : Fin 16)].ents.length = 1) && decide (t.ctx.twin.length = 1)) = true ∧
    leads (.stq { sync := 0, q := 3, ra := 4, ly := 0, step := 4 }) s (fun t => decide (flight t = some (101, .a 4, (own 0x1100).setWidth 256)) &&
      decide (t.ctx.q[(3 : Fin 16)].ents = []) && decide (t.ctx.ranges.map (fun r => (r.lo, r.hi, r.writes)) = [(0x1000, 0x1100, true)])) = true ∧
    (∃ base u tr v, (metOf s .t 0).linesT .read [0x1000] = (.ok base, u) ∧
      u.prefLines (fun lines va => (ly.walkAt 0x1000 (leafIn base 0x1000) (fmtBits ly.lfmt.toNat)).lineBad lines u.ctx.strict (fmtBits ly.lfmt.toNat) 64 va)
        (linesOf ((ly.walkAt 0x1000 (leafIn base 0x1000) (fmtBits ly.lfmt.toNat)).addrs 64)) u.ctx.ttr = ((false, tr), v)) ∧
    leads (.pref { sync := 0, ra := 5, ly := 0, step := 1 }) s (fun t => decide (flight t = some (101, .a 5, 0x1040)) && decide (t.mem = s.mem)) = true ∧
    (let z := { s with ctx := { s.ctx with a := s.ctx.a.set 5 (2 ^ 52) }, core := { s.core with ly := s.core.ly.set 3 { ly with rows := 0 } } }
     (∃ f u, (metOf z .t 0).linesT .read [2 ^ 52] = (.error (some f), u)) ∧
     leads (.pref { sync := 0, ra := 5, ly := 0, step := 1 }) z (fun t => decide (flight t = some (101, .a 5, 2 ^ 52 + 0x40))) = true ∧
     leads (.pref { sync := 0, ra := 5, ly := 3, step := 1 }) z (fun t => decide (flight t = some (101, .a 5, 2 ^ 52 + 0x40))) = true) := by
  refine ⟨⟨meets_t _ _ _ (by decide +kernel), by decide +kernel, rfl, by unfold goodBase; decide +kernel, by unfold goodBase; decide +kernel⟩,
    ⟨_, _, _, ⟨_, _, rfl, rfl, by decide +kernel, by decide +kernel, rfl, by decide +kernel⟩, rfl⟩,
    ⟨_, _, _, _, _, ⟨_, _, rfl, rfl, by decide +kernel, by decide +kernel, rfl, by decide +kernel⟩, rfl, rfl⟩,
    by decide +kernel, by decide +kernel, ⟨_, _, _, _, rfl, rfl⟩, by decide +kernel, ⟨_, _, rfl⟩, by decide +kernel, by decide +kernel⟩

/-- `tState` with a queue q4 of index entries: row addresses 0x1000, none, 0x1040 and 0x1080, and for the lanes of an atomic element 2 alone. -/
def uState : State :=
  { tState with ctx := { tState.ctx with
      q := (tState.ctx.q.set 4 (queue 0 1 [entry 4 (BitVec.ofNat 2048 (0x1000 + 0x1040 * 2 ^ 128 + 0x1080 * 2 ^ 192))])).set 5
        (queue 0 1 [entry 5 (BitVec.ofNat 2048 (2 + (2 ^ 2048 - 2 ^ 32)))]) } }

/-- SACC of one element at a5 + 8, and SCAS of 8 bytes. -/
theorem test_AtomicWords :
    let s := uState
    let o : Op.Sacc := { sync := 0, qi := 5, qv := 1, ra := 5 }
    let c : Op.Scas := { sync := 0, qv := 1, qd := 2, ra := 5, wide := true }
    (∃ is vs c1 c2, (metOf s .t 0).ctx.popQ s.cycle .t 5 1 = .ok (is, c1) ∧ c1.popQ s.cycle .t 1 1 = .ok (vs, c2) ∧
      (saccLanes 0x1000 (entry1 is) (entry1 vs) 0 ++ saccLanes 0x1000 (entry1 is) (entry1 vs) 32).map (fun e => e.1) = [0x1008]) ∧
    (∃ ls u p, (metOf s .t 0).linesT .atomic [0x1008] = (.ok ls, u) ∧ placeIn ls 0x1008 = some p ∧
      (saccInt (leafIn ls 0x1008)).isSome = true ∧ u.checkRanges .t false (u.elemRanges [0x1008] 4) = .ok ()) ∧
    (∀ i ∈ ([.saccAdd o, .saccMin o, .saccMax o, .saccSwap o] : List Instr), leads i s (fun t =>
      decide (t.ctx.twin.length = 1) && decide (t.ctx.q[(5 : Fin 16)].ents = []) && decide (t.ctx.q[(1 : Fin 16)].ents = [])) = true) ∧
    (∃ vs c, (metOf s .t 0).ctx.popQ s.cycle .t 1 1 = .ok (vs, c) ∧ c.roomQ s.cycle .t 2 = .ok ()) ∧ s.ctx.replaying = false ∧
    leads (.scas c) s (fun t => decide (t.ctx.twin.length = 1) && decide (t.ctx.q[(2 : Fin 16)].ents.length = 1)) = true :=
  ⟨⟨_, _, _, _, rfl, rfl, by decide +kernel⟩, ⟨_, _, _, rfl, rfl, rfl, rfl⟩, by decide +kernel, ⟨_, _, rfl, rfl⟩, by decide +kernel, by decide +kernel⟩

/-- COPY of one row of 256 bytes from page 0 into the scratchpad, under handle 1. -/
theorem test_CopyCreatesItsPawn :
    let s := uState
    let la := s.core.ly[(0 : Fin 64)]
    (metT s 0 true (metOf s .t 0) ∧ goodBase (s.ctx.getA 5) ∧ goodBase (s.ctx.getA 4)) ∧
    (∃ p q u v, (metOf s .t 0).xlate .t .read 0x1000 1 = (.ok p, u) ∧ u.xlate .t .write (own 0x1000).toNat 1 = (.ok q, v) ∧
      rowBytes (la.walkAt 0x1000 p.leaf 8) false = 256 ∧ rowBytes (la.walkAt (own 0x1000).toNat q.leaf 8) false = 256 ∧
      v.freePawn = some 0 ∧ v.checkRanges .t true (v.sideRanges (la.walkAt 0x1000 p.leaf 8) 1 256 false ++
        v.sideRanges (la.walkAt (own 0x1000).toNat q.leaf 8) 1 256 true) = .ok ()) ∧
    leads (.copy { sync := 0, h := 1, dst := 4, src := 5, ly := 0, pri := 7, detach := false, raw := false }) s (fun t =>
      (t.pawn 0).live && decide ((t.pawn 0).pri = 7) && decide (t.ctx.h[(1 : Fin 16)] = 64) && decide (t.mem = s.mem)) = true := by
  refine ⟨⟨meets_t _ _ _ (by decide +kernel), by unfold goodBase; decide +kernel, by unfold goodBase; decide +kernel⟩,
    ⟨_, _, _, _, rfl, rfl, by decide +kernel, by decide +kernel, by decide +kernel, rfl⟩, by decide +kernel⟩

/-- GATH and SCAT of four rows of 64 bytes, one of them skipped, by the addresses of q4. -/
theorem test_GathScatCreateTheirPawn :
    let s := uState
    let ly := s.core.ly[(2 : Fin 64)]
    (∃ es c, (metOf s .t 0).ctx.popQ s.cycle .t 4 1 = .ok (es, c) ∧ indexWords es 4 = [0x1000, 0, 0x1040, 0x1080]) ∧
    (∃ p u, (metOf s .t 0).xlate .t .write (own 0x1000).toNat 1 = (.ok p, u) ∧ rowBytes (ly.walkAt (own 0x1000).toNat p.leaf 8) true = 64 ∧
      u.freePawn = some 0 ∧ u.checkRanges .t true (u.sideRanges (ly.walkAt (own 0x1000).toNat p.leaf 8) 4 64 true ++
        u.indexRanges [0x1000, 0, 0x1040, 0x1080] 64 false) = .ok ()) ∧
    (∃ p u, (metOf s .t 0).xlate .t .read (own 0x1000).toNat 1 = (.ok p, u)) ∧
    leads (.gath { sync := 0, h := 0, dst := 4, src := 4, ly := 2, pri := 0, detach := true, raw := true }) s (fun t =>
      (t.pawn 0).live && (t.pawn 0).adopted && decide (t.ctx.q[(4 : Fin 16)].ents = [])) = true ∧
    leads (.scat { sync := 0, h := 1, dst := 4, src := 4, ly := 2, pri := 0, detach := false, raw := true }) s (fun t =>
      (t.pawn 0).live && decide ((t.pawn 0).handle = some 1) && decide (t.ctx.q[(4 : Fin 16)].ents = [])) = true :=
  ⟨⟨_, _, rfl, by decide +kernel⟩, ⟨_, _, rfl, by decide +kernel, by decide +kernel, rfl⟩, ⟨_, _, rfl⟩, by decide +kernel, by decide +kernel⟩

/-- A channel of two slots of 64 bytes whose sender and receiver are core 0, with slot 1 filled. -/
def aChan : Machine.Chan :=
  { launch := 0, num := 5, slots := 2, size := 64, sender := 0, receiver := 0, base := 0x4000, next := 0, filling := [], filled := [1], held := [] }

/-- RLD of 128 bytes into the scratchpad and RST of 64 out of it; SEND and RECV on channel 5. -/
theorem test_RemoteAndChannelWords :
    let s := { uState with part := { uState.part with chans := [aChan] } }
    (∃ p q u v, (metOf s .t 0).xlate .t .read 0x1000 128 = (.ok p, u) ∧ u.xlate .t .write (own 0x1000).toNat 128 = (.ok q, v) ∧ v.freePawn = some 0 ∧
      v.checkRanges .t true ((v.ownRange (own 0x1000).toNat ((own 0x1000).toNat + 128)).toList.map (fun x => (x.1, x.2, true))) = .ok ()) ∧
    (s.ctx.freeSlot s.cycle = some 0 ∧ 1 ≤ s.ctx.rldBufs ∧ inWindow 0x1000 = false ∧ inWindow (own 0x1000).toNat = true) ∧
    leads (.rld { sync := 0, h := 0, dst := 4, src := 5, size := 1 }) s (fun t => (t.pawn 0).live && decide (t.ctx.freeSlot t.cycle = some 1) && decide (t.ctx.rldBufs = 31)) = true ∧
    leads (.rld { sync := 0, h := 0, dst := 4, src := 5, size := 1 }) { s with ctx := { s.ctx with rldHeld := some (3, 1) } } (fun t =>
      decide ((t.pawn 0).idx = [3]) && decide (t.ctx.rldBufs = 32) && t.ctx.rldHeld.isNone) = true ∧
    leads (.rst { sync := 0, h := 0, dst := 5, src := 4, size := 0 }) s (fun t => (t.pawn 0).live && decide (t.ctx.freeSlot t.cycle = some 1)) = true ∧
    ((metOf s .t 0).chan? 5 = some aChan ∧ aChan.freeSlot = some 0 ∧ s.logicalOf 0 = some 0 ∧ s.siteOf 0 = some 0 ∧ aChan.filled = [1]) ∧
    (metOf s .t 0).checkRanges .t true (((metOf s .t 0).ownRange 0x1000 0x1040).toList.map (fun x => (x.1, x.2, false))) = .ok () ∧
    leads (.send { sync := 0, ch := 5, ra := 5 }) s (fun t => (t.pawn 0).live && decide (t.part.chans.map (fun c => (c.next, c.filling)) = [(1, [0])])) = true ∧
    leads (.recv { sync := 0, ch := 5, ra := 5 }) s (fun t => decide (flight t = some (101, .a 5, (own 0x4040).setWidth 256)) &&
      decide (t.part.chans.map (fun c => (c.filled, c.held)) = [([], [(1, s.turnId)])])) = true :=
  ⟨⟨_, _, _, _, rfl, rfl, by decide +kernel, rfl⟩, by decide +kernel, by decide +kernel, by decide +kernel, by decide +kernel, by decide +kernel, rfl, by decide +kernel,
    by decide +kernel⟩

/-! ### Words of the M stream -/

/-- The M stream with operand bases in mb0 and mb1, a scratchpad base in mb2, a count in mb3, FP16 operands, a nest of one step, and a grant. -/
def mState : State :=
  let s := at_ .m (fun c => { c with
    mb := (((c.mb.set 0 0x1000).set 1 0x2000).set 2 (own 0x1000)).set 3 3, mfmt := 0x33
    nest := c.nest.set 0 { trip := 0, as_ := 0, bs := 0, cs := 0 } })
  { s with
    core := { s.core with ly := s.core.ly.set 0 { rows := 128, cols := 128, rstride := 512, swz := 0, efmt := 1, lfmt := 1, scale := 0 } }
    part := { s.part with grant := 1 } }

theorem test_NsetAndControlWords :
    let s := mState
    metM s 0 (metOf s .m 0) ∧ (metOf s .m 0).ctx.postRoom .m 0 = true ∧ goodLoop s.ctx.ms 0 8 8 ∧
    (s.ctx.zeroing = [] ∧ s.rowsHeld false s.serial (tileRows 3) = false ∧ s.ctx.tokenRoom (chanIx 2 0) = true ∧
      s.pendingOn .m 1 s.serial (s.fenceChips 0) = false ∧ s.byHandle s.ctx.h[(1 : Fin 16)] = none) ∧
    leads (.nsetLevel { sync := 0, level := 5, field := 3, v := 0x1FFFF }) s (fun t => decide (flight t = some (101, .nest 5 3, 0x1FFFF))) = true ∧
    leads (.nsetIns { sync := 0, mb := 0, v := 16 }) s (fun t => decide (flight t = some (101, .mb 0, 0x20000010))) = true ∧
    leads (.nsetFmt { sync := 0, isB := true, v := 13 }) s (fun t => decide (flight t = some (101, .mfmt true, 13))) = true ∧
    leads (.nsetFmt { sync := 0, isB := true, v := 14 }) s (fun t => decide (t.ctx.pend.map (fun p => p.cause) = [.illegal])) = true ∧
    leads (.mzero { sync := 0, t := 3 }) s (fun t => decide (t.ctx.zeroing.map (fun z => (z.tile, z.due)) = [(some 3, 132)])) = true ∧
    leads (.mLoop { sync := 0, id := 0, stm1 := 7, mb := 3, len := 8 }) s (fun t => decide (t.ctx.ms.loops.length = 1)) = true ∧
    leads (.mSync { sync := 0, postC := true }) s (fun t => decide (t.ctx.chans[(6 : Fin 12)].length = 1) && decide (t.ctx.ms.pc = 4)) = true ∧
    leads (.mFence { sync := 0, before := 1, after := 1, scope := 0 }) s (fun t => decide (t.ctx.ms.pc = 4)) = true ∧
    leads (.mWaith { sync := 0, h := 1 }) s (fun t => decide (t.ctx.ms.pc = 4)) = true ∧
    leads (.mEnd { sync := 0 }) s (fun t => !t.ctx.ms.run) = true := by
  refine ⟨meets_m _ _ (by decide +kernel), by decide +kernel, by unfold goodLoop; decide +kernel, ?_⟩
  decide +kernel

/-- MGO of one level; with a depth of six too. -/
theorem test_MgoCapturesItsNest :
    let s := mState
    let i : Fin 8 → Instr := fun d => .mgo { sync := 0, h := 1, mba := 0, mbb := 1, t := 0, acc := true, pri := 7, detach := false, depm1 := d, mc := false }
    (goodBase s.ctx.mb[(0 : Fin 4)] ∧ goodBase s.ctx.mb[(1 : Fin 4)] ∧ s.part.grant ≠ 0 ∧ (metOf s .m 0).reachIssue.drawMine = true ∧ s.ctx.captured < 8 ∧
      (metOf s .m 0).freePawn = some 0) ∧
    (let nest := s.ctx.nest.toList.take 1
     (metOf s .m 0).ctx.zeroMeets (nestRows nest 0) = false ∧
     (metOf s .m 0).checkRanges .m true ((metOf s .m 0).operandRange 0x1000 (fun l => l.as_) nest 3 ++
       (metOf s .m 0).operandRange 0x2000 (fun l => l.bs) nest 3) = .ok ()) ∧
    (∀ d ∈ ([0, 5] : List (Fin 8)), leads (i d) s (fun t => (t.pawn 0).live && decide (t.ctx.captured = 1) && decide (t.part.held = 1) &&
      decide (t.ctx.h[(1 : Fin 16)] = 64)) = true) := by
  refine ⟨by unfold goodBase; decide +kernel, ⟨by decide +kernel, rfl⟩, by decide +kernel⟩

/-- ACC2S, S2ACC and ACCMUL on 128 rows of 128 columns. -/
theorem test_AccumulatorCopiesCreateTheirPawn :
    let s := mState
    let ly := s.core.ly[(0 : Fin 64)]
    let o : Op.Mc := { sync := 0, h := 2, mb := 2, t := 3, ly := 0, pri := 1, detach := false }
    (s.ctx.mb[(2 : Fin 4)].toNat % 64 = 0 ∧ inWindow s.ctx.mb[(2 : Fin 4)].toNat = true ∧ (metOf s .m 0).ctx.zeroing = [] ∧ (metOf s .m 0).freePawn = some 0) ∧
    (∀ b ∈ [true, false], (metOf s .m 0).checkRanges .m true ((metOf s .m 0).walkRanges (ly.walkAt (own 0x1000).toNat none 32) 128 b) = .ok ()) ∧
    (metOf s .m 0).checkRanges .m true ((metOf s .m 0).walkRanges (ly.walkAt (own 0x1000).toNat none 32) 1 false) = .ok () ∧
    (∀ i ∈ ([.acc2s o, .s2acc o, .accmul { sync := 0, h := 2, mb := 2, t := 3, ly := 0, pri := 1, detach := false, axis := true }] : List Instr),
      leads i s (fun t => (t.pawn 0).live && decide ((t.pawn 0).rows = tileRows 3) && decide (t.ctx.h[(2 : Fin 16)] = 64)) = true) := by
  refine ⟨by decide +kernel, ?_, rfl, by decide +kernel⟩
  intro b hb
  rcases List.mem_cons.1 hb with rfl | hb
  · rfl
  · rcases List.mem_singleton.1 hb with rfl; rfl

/-! ### Words of the V stream -/

/-- The V stream in a format of n lanes: q1 and q2 hold lanes a and b, q3 goes to T, q4 from V to V holds lanes d, q6 holds lane a alone of all lanes;
s1 holds x, m1 every other lane from lane 1 on. -/
def vOf (fmt n : Nat) (a b d : List Nat) (x : Half) : State :=
  let e := fun (l : List Nat) => entryOf (fmtBits fmt) l
  at_ .v (fun c => { c with
    vshape := BitVec.ofNat 32 (fmt + 16 * n), s := c.s.set 1 x, m := c.m.set 1 (BitVec.ofNat 256 ((2 ^ 256 - 1) / 3 * 2))
    q := ((((c.q.set 1 (queue 1 2 [entry 1 (e a)])).set 2 (queue 1 2 [entry 2 (e b)])).set 3 (queue 2 1 [])).set 4 (queue 2 2 [entry 3 (e d)])) })

/-- The queues of a V word serve it. -/
theorem serves (s : State) (w : VForm) (h : w.accept s.ctx.shape.fmt = true ∧ boundV s.ctx s.cycle w.srcs w.dsts = true ∧
    srcFail s.ctx s.cycle w.srcs w.srcs = none) (r : Context) (hr : takeRoom (popSrcs s.ctx s.cycle w.srcs) s.cycle w.dsts s.serial = .ok r) :
    ∃ es t, served s w es t := ⟨_, _, h.1, h.2.1, h.2.2, rfl, r, hr, rfl⟩

/-- The lanes of the entry that a V word pushes, and its flags. -/
def pushes (i : Instr) (s : State) (w n : Nat) : Option (List Nat × BitVec 8) :=
  match exec i s with
  | .next t => (t.ctx.vpend.getLast?).bind (fun p => (p.pushes.getLast?).map (fun x => ((List.range n).map (fun l => laneOf x.2.2 w l), p.flags)))
  | _ => none

/-- Lanes 0 and 1 of FP32: what a word gives for these two lanes, with its flags. -/
def floats (i : Instr) (a b d : List Nat) (x : Half) (r : List Nat) (fl : BitVec 8) : Bool := decide (pushes i (vOf 1 2 a b d x) 32 3 = some (r, fl))

/-- 1.0, 2.0, 3.0, 0.5 and -1.0 in FP32. -/
def f1 : Nat := 0x3F800000
def f2 : Nat := 0x40000000
def f3 : Nat := 0x40400000
def fh : Nat := 0x3F000000
def fm : Nat := 0xBF800000

/-- The floating words of R357 to R360 with the values of the rules; lane 2 is not among the lanes of the shape. -/
theorem test_float_words :
    let o : Op.Vv := { sync := 0, qd := 3, qa := 1, qb := 2, m := 0, pka := false, pkb := true }
    let u : Op.Vu := { sync := 0, qd := 3, qa := 1, m := 0, pka := false }
    let v : Op.Vs := { sync := 0, qd := 3, qa := 1, sr := 1, m := 0, pka := false }
    floats (.vadd o) [f1, f2] [f2, fm] [] 0 [f3, f1, 0] 0 ∧ floats (.vadd { o with m := 1 }) [f1, f2] [f2, fm] [] 0 [0, f1, 0] 0 ∧
    floats (.vsub o) [f1, f3] [f2, f1] [] 0 [fm, f2, 0] 0 ∧ floats (.vmul o) [f1, f2] [f2, fh] [] 0 [f2, f1, 0] 0 ∧
    floats (.vfma { o with qd := 4 }) [f1, f2] [f2, fh] [f1, f1] 0 [f3, f2, 0] 0 ∧
    floats (.vmin o) [0x80000000, 0x7FC00000] [0, f1] [] 0 [0x80000000, f1, 0] flNV ∧
    floats (.vmax o) [0x80000000, f1] [0, f2] [] 0 [0, f2, 0] 0 ∧
    floats (.vabs u) [fm, f2] [] [] 0 [f1, f2, 0] 0 ∧ floats (.vneg u) [fm, 0] [] [] 0 [f1, 0x80000000, 0] 0 ∧
    floats (.vrcp u) [f2, f1] [] [] 0 [fh, f1, 0] 0 ∧ floats (.vrsq u) [0x40800000, f1] [] [] 0 [fh, f1, 0] 0 ∧
    floats (.vexp2 u) [f1, fm] [] [] 0 [f2, fh, 0] 0 ∧ floats (.vlog2 u) [f2, fh] [] [] 0 [f1, fm, 0] 0 ∧
    floats (.vadds v) [f1, f2] [] [] 0x40000000 [f3, 0x40800000, 0] 0 ∧ floats (.vsubs v) [f3, f2] [] [] 0x40000000 [f1, 0, 0] 0 ∧
    floats (.vmuls v) [f1, fh] [] [] 0x40000000 [f2, f1, 0] 0 ∧
    floats (.vfmas { v with qd := 4 }) [f1, fh] [] [f1, f1] 0x40000000 [f3, f2, 0] 0 ∧
    floats (.vmins v) [f1, f3] [] [] 0x40000000 [f1, f2, 0] 0 ∧ floats (.vmaxs v) [f1, f3] [] [] 0x40000000 [f2, f3, 0] 0 := by
  decide +kernel

/-- Lanes of INT32. -/
def ints (i : Instr) (a b : List Nat) (x : Half) (r : List Nat) (fl : BitVec 8) : Bool := decide (pushes i (vOf 11 2 a b [] x) 32 3 = some (r, fl))

/-- The integer words of R361, R362, R365 and the moves of R364, R366, R371, R373. -/
theorem test_integer_and_lane_words :
    let o : Op.Vv := { sync := 0, qd := 3, qa := 1, qb := 2, m := 0, pka := false, pkb := true }
    let u : Op.Vu := { sync := 0, qd := 3, qa := 1, m := 0, pka := true }
    let v : Op.Vi := { sync := 0, qd := 3, qa := 1, m := 0, pka := true, imm := -1 }
    let n : Nat := 0xFFFFFFFF
    ints (.viadd o) [n, 5] [1, 6] 0 [0, 11, 0] 0 ∧ ints (.visub o) [0, 5] [1, 6] 0 [n, n, 0] 0 ∧
    ints (.vimul o) [n, 5] [3, 6] 0 [n - 2, 30, 0] 0 ∧ ints (.vand o) [12, 5] [10, 6] 0 [8, 4, 0] 0 ∧
    ints (.vor o) [12, 5] [10, 6] 0 [14, 7, 0] 0 ∧ ints (.vxor o) [12, 5] [10, 6] 0 [6, 3, 0] 0 ∧
    ints (.vshl o) [1, 1] [31, 32] 0 [0x80000000, 1, 0] 0 ∧ ints (.vshr o) [n, n] [31, 33] 0 [1, 0x7FFFFFFF, 0] 0 ∧
    ints (.vsra o) [n - 7, 8] [1, 1] 0 [n - 3, 4, 0] 0 ∧ ints (.vimin o) [n, 5] [0, 6] 0 [n, 5, 0] 0 ∧
    ints (.vimax o) [n, 5] [0, 6] 0 [0, 6, 0] 0 ∧ ints (.viaddi v) [0, 5] [] 0 [n, 4, 0] 0 ∧
    ints (.vbcasti { sync := 0, qd := 3, m := 0, imm := -2 }) [] [] 0 [n - 1, n - 1, 0] 0 ∧
    ints (.vbcast { sync := 0, qd := 3, sr := 1, m := 1 }) [] [] 9 [0, 9, 0] 0 ∧ ints (.vmov u) [3, 4] [] 0 [3, 4, 0] 0 ∧
    ints (.vdup u) [3, 4] [] 0 [3, 4, 0] 0 ∧ ints (.vsel { o with m := 1 }) [3, 4] [5, 6] 0 [5, 4, 0] 0 ∧
    ints (.vperm o) [3, 4, 7] [1, 66] 0 [4, 7, 0] 0 ∧ ints (.vrot v) [3, 4] [] 0 [0, 3, 0] 0 ∧
    decide (pushes (.vpack o) (vOf 11 64 [3] [5, 6] [] 0) 32 34 = some (3 :: List.replicate 31 0 ++ [5, 6], 0)) ∧
    decide (pushes (.vunpk o) (vOf 11 64 (List.replicate 32 1 ++ [7]) (List.replicate 32 2 ++ [8]) [] 0) 32 33 = some (7 :: List.replicate 31 0 ++ [8], 0)) := by
  decide +kernel

/-- The words of VectorLaneWordsPushTheirLanes, in a format that they accept, find their queues serving them. -/
theorem test_VectorLaneWordsPushTheirLanes :
    let s := vOf 1 64 [f1] [f2] [f3] 0
    let o : Op.Vv := { sync := 0, qd := 4, qa := 1, qb := 2, m := 0, pka := false, pkb := true }
    metV s 0 (metOf s .v 0) ∧ (laneWord s.ctx (.vfma o)).isSome = true ∧ (∃ es t, served (metOf s .v 0) (plusAddend (two o floatFmt 4) 4) es t) ∧
    (laneWord s.ctx (.vdup { sync := 0, qd := 3, qa := 1, m := 0, pka := true })).isSome = true ∧
    (∃ es t, served (metOf s .v 0) { one 0 1 true 3 heldFmt 1 with dsts := [3, 3] } es t) :=
  ⟨meets_v _ _ (by decide +kernel), by decide +kernel, serves _ _ (by decide +kernel) _ rfl, by decide +kernel, serves _ _ (by decide +kernel) _ rfl⟩

/-- VPOP, VCVT to BF16 and to MXFP8 blocks, the reductions, VSMOV into the last lane, SPCVT both ways. -/
theorem test_VectorEntryWords :
    let s := vOf 1 64 (List.replicate 64 f1) [] [] 0x1234
    let u : Op.Vu := { sync := 0, qd := 3, qa := 1, m := 0, pka := false }
    let k : Op.Vcvt := { sync := 0, qd := 3, qa := 1, m := 0, pka := false, fmt := 2, rm := 0, sat := false }
    metV s 0 (metOf s .v 0) ∧ (∃ es t, served (metOf s .v 0) (one 0 1 false 3 reduceFmt 8) es t) ∧ s.ctx.shape.blockLanes = 64 ∧
    (∃ es t, served (metOf s .v 0) { sync := 0, srcs := [⟨1, false⟩], dsts := [], accept := heldFmt, lat := 1 } es t) ∧
    (let s := vOf 1 64 [] [] [f1] 0x1234
     ∃ es t, served (metOf s .v 0) { sync := 0, srcs := [⟨4, false⟩], dsts := [4], accept := heldFmt, lat := 2 } es t) ∧
    leads (.vpop { sync := 0, qa := 1 }) s (fun t => decide (t.ctx.q[(1 : Fin 16)].ents = []) && decide (t.ctx.vpend.map (fun p => p.due) = [101])) = true ∧
    pushes (.vcvt k) s 16 2 = some ([0x3F80, 0x3F80], 0) ∧ pushes (.vcvt { k with fmt := 6 }) s 8 2 ≠ none ∧
    pushes (.vrsum u) s 32 64 = some (List.replicate 64 0x42800000, 0) ∧ pushes (.vrmax u) s 32 2 = some ([f1, f1], 0) ∧
    pushes (.vrmin u) s 32 2 = some ([f1, f1], 0) ∧
    pushes (.vsmovToLane { sync := 0, sr := 1, q := 4, lane := 63 }) (vOf 1 64 [] [] [f1] 0x1234) 32 64 = some (f1 :: List.replicate 62 0 ++ [0x1234], 0) ∧
    pushes (.spcvt { sync := 0, qd := 3, qa := 1, toF := false }) (vOf 1 1 [f1] [] [] 0) 32 2 = some ([0x02000000, 0], 0) ∧
    pushes (.spcvt { sync := 0, qd := 3, qa := 1, toF := true }) (vOf 1 1 [0x02000000] [] [] 0) 32 2 = some ([f1, 0], 0) := by
  refine ⟨meets_v _ _ (by decide +kernel), serves _ _ (by decide +kernel) _ rfl, by decide +kernel, serves _ _ (by decide +kernel) _ rfl,
    serves _ _ (by decide +kernel) _ rfl, ?_⟩
  decide +kernel

/-- The mask and the flags that a VCMP word lands in m2. -/
def masks (i : Instr) (fmt : Nat) (a b : List Nat) : Option (BitVec 256 × BitVec 8) :=
  match exec i (vOf fmt 2 a b [] 0) with
  | .next t => match flight t, t.ctx.vpend.getLast? with
    | some (102, .m 2, v), some p => some (v, p.flags)
    | _, _ => none
  | _ => none

/-- The six conditions on a lesser, an equal and a NaN lane; an unsigned compare. -/
theorem test_vcmp_words :
    let o : Op.Vc := { sync := 0, md := 2, qa := 1, qb := 2, m := 0, pka := true, pkb := true, uns := false, int := false }
    masks (.vcmpEq o) 1 [f1, 0x7FC00000] [f1, f1] = some (1, 0) ∧ masks (.vcmpNe o) 1 [f1, 0x7FC00000] [f1, f1] = some (2, 0) ∧
    masks (.vcmpLt o) 1 [f1, f1] [f1, f2] = some (2, 0) ∧ masks (.vcmpLe o) 1 [f1, f1] [f1, f2] = some (3, 0) ∧
    masks (.vcmpGt o) 1 [f2, 0x7FC00000] [f1, f2] = some (1, flNV) ∧ masks (.vcmpGe o) 1 [f1, 0] [f1, 0x80000000] = some (3, 0) ∧
    masks (.vcmpLt { o with int := true }) 11 [0xFFFFFFFF, 1] [0, 0] = some (1, 0) ∧
    masks (.vcmpLt { o with int := true, uns := true }) 11 [0xFFFFFFFF, 0] [0, 1] = some (2, 0) := by decide +kernel

/-- VCMP, VSMOV to s, VSETSH and VSETL at the ends of their ranges, the mask words. -/
theorem test_VectorRegisterWords :
    let s := vOf 13 128 [0x8000] [1] [] 256
    let lands := fun (i : Instr) (x : Half) (v : Nat × Dest × BitVec 256) => leads i (vOf 1 64 [] [] [] x) (fun t => decide (flight t = some v))
    let traps := fun (i : Instr) (x : Half) => leads i (vOf 1 64 [] [] [] x) (fun t => decide (t.ctx.pend.map (fun p => p.cause) = [.illegal]))
    metV s 0 (metOf s .v 0) ∧
    (∃ es t, served (metOf s .v 0) { sync := 0, srcs := [⟨1, true⟩, ⟨2, true⟩], dsts := [], accept := heldFmt, lat := 2 } es t) ∧
    (∃ es t, served (metOf s .v 0) { sync := 0, srcs := [⟨1, false⟩], dsts := [], accept := heldFmt, lat := 2 } es t) ∧
    leads (.vsmovToS { sync := 0, sr := 15, q := 1, lane := 0, pk := false }) s (fun t => decide (flight t = some (102, .s 15, 0xFFFF8000))) = true ∧
    lands (.vsetsh { sync := 0, sr := 1 }) 0x37000 (101, .vshape false, 0x37000) = false ∧
    lands (.vsetsh { sync := 0, sr := 1 }) 0x3700D (101, .vshape false, 0x3700D) = true ∧ traps (.vsetsh { sync := 0, sr := 1 }) 0x3701D = true ∧
    traps (.vsetsh { sync := 0, sr := 1 }) 0x7400D = true ∧ traps (.vsetsh { sync := 0, sr := 1 }) 0x8401 = true ∧ traps (.vsetsh { sync := 0, sr := 1 }) 0x406 = true ∧
    lands (.vsetl { sync := 0, sr := 1 }) 1 (101, .vshape true, 1) = true ∧ lands (.vsetl { sync := 0, sr := 1 }) 256 (101, .vshape true, 256) = true ∧
    traps (.vsetl { sync := 0, sr := 1 }) 0 = true ∧ traps (.vsetl { sync := 0, sr := 1 }) 257 = true ∧
    lands (.mand { sync := 0, md := 2, ma := 0, mb := 1 }) 0 (101, .m 2, BitVec.ofNat 256 ((2 ^ 256 - 1) / 3 * 2)) = true ∧
    lands (.mor { sync := 0, md := 2, ma := 2, mb := 1 }) 0 (101, .m 2, BitVec.ofNat 256 ((2 ^ 256 - 1) / 3 * 2)) = true ∧
    lands (.mxor { sync := 0, md := 2, ma := 0, mb := 1 }) 0 (101, .m 2, BitVec.ofNat 256 ((2 ^ 256 - 1) / 3)) = true ∧
    lands (.mnot { sync := 0, md := 2, ma := 0 }) 0 (101, .m 2, 0) = true := by
  refine ⟨meets_v _ _ (by decide +kernel), serves _ _ (by decide +kernel) _ rfl, serves _ _ (by decide +kernel) _ rfl, ?_⟩
  decide +kernel

/-- The sum-product words: q1 holds two lanes of PS32; q4 holds a record whose one leaf, cell 1, goes without a weight to cell 5. -/
def spState (ref : Half) (dest : Nat) (n : Nat := 2) : State :=
  let r : Nat := 2 ^ 7 + dest * 2 ^ 16 + 1 * 2 ^ 32 + (2 ^ 96 - 1) * 2 ^ 128
  let s := vOf 1 n [0x02000000, 0x02200000] [] [] ref
  { s with ctx := { s.ctx with q := s.ctx.q.set 4 (queue 1 2 [entry 3 (BitVec.ofNat 2048 r)]) } }

theorem test_SumProductWords :
    let s := spState 0 5
    metV s 0 (metOf s .v 0) ∧ (∃ es t, served (metOf s .v 0) { sync := 0, srcs := [⟨1, false⟩], dsts := [], accept := fun _ => true, lat := 4 } es t) ∧
    (∃ es t, served (metOf s .v 0) { sync := 0, srcs := [], dsts := [3], accept := fun _ => true, lat := 4 } es t) ∧
    (∃ es t, served (metOf s .v 0) { sync := 0, srcs := [⟨4, true⟩], dsts := [], accept := fun _ => true, lat := 8 } es t) ∧
    s.spanBad 0 2 = false ∧ s.ctx.vpend = [] ∧ (SubRec.ofEntry (s.ctx.q[(4 : Fin 16)].ents.headD QEnt.absent).bits 0).bad s.spBanks.2 = false ∧
    leads (.spld { sync := 0, q := 1, part := 2, sr := 1 }) s (fun t => decide (t.ctx.vpend.map (fun p => (p.due, p.cells.map (fun x => x.2))) =
      [(104, [0x02000000, 0x02200000])])) = true ∧
    leads (.spld { sync := 0, q := 1, part := 0, sr := 1 }) (spState 0xFFF 5 9) (fun t => decide (t.ctx.pend.map (fun p => p.cause) = [.spbank]) &&
      decide (t.ctx.q = (spState 0xFFF 5 9).ctx.q)) = true ∧
    pushes (.spst { sync := 0, q := 3, part := 0, sr := 1 }) { s with core := { s.core with sp := (s.spanKeys 0 0 1).map (fun k => (k, 9)) } } 32 3 =
      some ([9, 0, 0], 0) ∧
    leads (.spup { sync := 0, qr := 4, addInto := false }) s (fun t => decide (t.ctx.vpend.map (fun p => p.due) = [108]) &&
      decide (t.ctx.q[(4 : Fin 16)].ents.length = 1) && decide ((t.ctx.q[(4 : Fin 16)]).cursor = 1)) = true ∧
    leads (.spdn { sync := 0, qr := 4 }) s (fun t => decide (t.ctx.vpend.map (fun p => p.due) = [112])) = true ∧
    leads (.spup { sync := 0, qr := 4, addInto := true }) (spState 0 0xFFF) (fun t => decide (t.ctx.pend.map (fun p => p.cause) = [.spbank])) = true := by
  refine ⟨meets_v _ _ (by decide +kernel), serves _ _ (by decide +kernel) _ rfl, serves _ _ (by decide +kernel) _ rfl,
    serves _ _ (by decide +kernel) _ rfl, ?_⟩
  decide +kernel

/-- The control words of the V stream, and the advance of an engine stream in a loop of two stages of two words. -/
theorem test_VectorControlWordsAndLoops :
    let s := { vOf 1 64 [] [] [] 3 with serial := 9 }
    let lp : LoopSt := { id := 0, count := 2, stages := 2, body := 4, len := 4, iter := 0 }
    let in_ := fun (pc : Word) (l : LoopSt) => at_ .v (fun c => { c with vs := { c.vs with pc := pc, loops := [l] } })
    let goes := fun (u : State) => ((u.issuedIn .v).ctx.vs.pc, (u.issuedIn .v).ctx.vs.loops.map (fun l => l.iter))
    (goodLoop s.ctx.vs 3 1 1023 ∧ s.ctx.vpend = [] ∧ (metOf s .v 0).ctx.postRoom .v 0 = true) ∧
    leads (.vLoop { sync := 0, id := 3, stm1 := 0, cnt := 1, len := 1023 }) s (fun t => decide (t.ctx.vs.loops.map (fun l => l.count) = [3])) = true ∧
    leads (.vLoop { sync := 0, id := 3, stm1 := 0, cnt := 2, len := 1023 }) s (fun t => decide (t.ctx.vs.pc = 4096)) = true ∧
    leads (.vSync { sync := 0, postC := true }) s (fun t => decide (t.ctx.chans[(9 : Fin 12)].length = 1)) = true ∧
    leads (.vFence { sync := 0, before := 8, after := 1, scope := 0 }) s (fun t => decide (t.ctx.vs.pc = 4)) = true ∧
    leads (.vEnd { sync := 0 }) s (fun t => !t.ctx.vs.run) = true ∧
    (lp.active 0 = true ∧ lp.active 1 = false ∧ ({ lp with iter := 1 } : LoopSt).active 1 = true ∧ ({ lp with iter := 2 } : LoopSt).active 0 = false) ∧
    goes (base .v) = (4, []) ∧ goes (in_ 4 lp) = (8, [0]) ∧ goes (in_ 8 lp) = (4, [1]) ∧ goes (in_ 8 { lp with iter := 1 }) = (12, [1]) ∧
    goes (in_ 16 { lp with iter := 1 }) = (12, [2]) ∧ goes (in_ 16 { lp with iter := 2 }) = (20, []) := by
  refine ⟨⟨by unfold goodLoop; decide +kernel, by decide +kernel⟩, ?_⟩
  decide +kernel

/-! ### Events: sensors, power, boot, guards, partitions -/

/-- The clauses of R12 to R17, R61 at their thresholds. -/
theorem test_SensorAndPowerEvents :
    let s := base .c
    let h := { s with hbm := s.hbm.set 2 { s.hbm[2] with run := 1000 } }
    let b := { s with dies := s.dies.set 4 { s.dies[4] with ringBusy := true } }
    leads (.droopTrigger 0 40) s (fun t => decide (t.dies[(0 : Fin 18)].droop = 1) && decide (t.dies[(0 : Fin 18)].stretchTo = 140) && decide (t.ctx.excuseTo = 140)) ∧
    leads (.droopTrigger 17 1) s (fun t => decide (t.dies[(17 : Fin 18)].stretchTo = 132) && decide (t.ctx.excuseTo = 0)) ∧
    leads (.columnSample 7 300) s (fun t => decide (t.columns[(7 : Fin 288)].allow = 100)) ∧
    leads (.hbmStackSample 2 380) h (fun t => t.hbm[(2 : Fin 12)].hot && t.hbm[(2 : Fin 12)].hotseen && t.hbm[(2 : Fin 12)].ref2x &&
      decide (t.notices = [.hotInterrupt 2])) ∧
    leads (.hbmStackSample 2 371) h (fun t => !t.hbm[(2 : Fin 12)].hot && t.hbm[(2 : Fin 12)].ref2x && decide (t.hbm[(2 : Fin 12)].run = 0)) ∧
    1000 ≤ h.hbm[(2 : Fin 12)].run ∧ leads (.hotStackReport 2) h (fun t => decide (t.notices = [.hotReport 2])) ∧
    leads (.drawceilWrite 300) s (fun t => decide (t.drawceil = 280)) ∧
    leads (.ringMeasureStart 4 0x50000) s (fun t => t.dies[(4 : Fin 18)].ringBusy && decide (t.dies[(4 : Fin 18)].ringSel = 1)) ∧
    leads (.ringMeasureDone 4 99) b (fun t => !t.dies[(4 : Fin 18)].ringBusy && decide (t.dies[(4 : Fin 18)].ringCount = 99)) ∧
    leads (.thermalTrip 440 false) s (fun t => decide (t.power = .tripped)) ∧ leads (.thermalTrip 400 true) s (fun t => decide (t.power = .tripped)) ∧
    leads (.powerTrip 8001) s (fun t => decide (t.power = .tripped)) := by decide +kernel

/-- Grants at the ceiling, above it, and withdrawn. -/
theorem test_DrawGrants :
    let s := base .c
    let g := { s with part := { s.part with grant := 10 } }
    (s.focusPart 0).part.live = true ∧ s.drawceil.toNat < (s.focusPart 0).grants - s.part.grant + 281 ∧
    leads (.drawgGrantWrite 0 281) s (fun t => t.ceilErr && decide (t.part.grant = 0)) ∧
    leads (.drawgGrantWrite 0 280) s (fun t => decide (t.part.grant = 280)) ∧
    leads (.drawgGrantWrite 0 0) g (fun t => decide (t.part.grant = 0)) ∧
    leads (.drawceilWrite 9) g (fun t => t.ceilErr && decide (t.drawceil = 280)) := by decide +kernel

/-- A write of each register of the clauses, at the first or last of its group. -/
theorem test_ManagementWrites :
    let s := base .c
    let u := { s with
      hbm := s.hbm.set 11 { s.hbm[11] with hotseen := true }, dies := s.dies.set 0 { s.dies[0] with droop := 7 }
      peers := s.peers.set 63 { s.peers[63] with lost := true }, memctl := s.memctl.set 29 { ce := 3, ue := 3, list := [(31, { v := true, uc := true, line := 77 })] } }
    leads (.mgmtRegisterWrite 0x4002C 0x1000) u (fun t => !t.hbm[(11 : Fin 12)].hotseen) ∧
    leads (.mgmtRegisterWrite 0x40600 5) u (fun t => decide (t.dies[(0 : Fin 18)].droop = 2)) ∧
    leads (.mgmtRegisterWrite 0x40804 200) u (fun t => decide (t.tlimit = 105)) ∧
    leads (.mgmtRegisterWrite 0x501F8 0x50012) u (fun t => t.peers[(63 : Fin 64)].valid && decide (t.peers[(63 : Fin 64)].inc = 0x12) && !t.peers[(63 : Fin 64)].lost) ∧
    leads (.mgmtRegisterWrite 0x501FC 0x21) u (fun t => decide (t.peers[(63 : Fin 64)].ports = 0x21)) ∧
    leads (.mgmtRegisterWrite 0x40A74 0x20001) u (fun t => decide (t.memctl[(29 : Fin 30)].ce = 2) && decide (t.memctl[(29 : Fin 30)].ue = 1)) ∧
    (u.memctl[29].list.find? 31 = some { v := true, uc := true, line := 77 } ∧
      leads (.mgmtRegisterWrite 0x42DF8 1) u (fun t => decide (t.memctl[(29 : Fin 30)].list.find? 31 = some { v := false, uc := true, line := 77 })) ∧
      leads (.mgmtRegisterWrite 0x42DF8 2) u (fun t => decide (t.memctl[(29 : Fin 30)].list.find? 31 = some { v := true, uc := true, line := 77 }))) ∧
    leads (.serviceCoreTakeover 2) { u with serviceCores := 6 } (fun t => decide (t.serviceCores = 6)) ∧
    leads (.myincChipWrite 0x50000) u (fun t => t.clock && decide (t.chip = 5)) ∧
    leads (.serviceCoreTakeover 2) u (fun t => decide (t.serviceCores = 0xB)) ∧ leads .firmwareSwitch { u with raises := [3], boot := { u.boot with step := .running } } (fun t => t.imageB && decide (t.store.minVersion = 3)) ∧
    leads .firmwareSwitch { u with raises := [3] } (fun t => t.imageB && decide (t.store.minVersion = 0) && decide (t.raises = [3])) ∧
    leads .firmwareSwitch { u with store := { u.store with minVersion := 9 } } (fun t => decide (t.store.minVersion = 9)) := by decide +kernel

/-- The ROM's steps: each clause at a state that meets it. -/
theorem test_BootEvents :
    let off := { base .c with power := .failed }
    let at_ := fun (b : BootStep) => { base .c with boot := { (base .c).boot with step := b } }
    let f := at_ .fetch
    let full := { f with boot := { f.boot with image := List.replicate 10 0, nextBlock := 3 } }
    let last := { f with boot := { f.boot with retries := 5, restarts := 3 } }
    leads (.powerUpBoot 0 true) off (fun t => decide (t.power = .on) && decide (t.boot.step = .bootfail) && decide (t.notices = [.bootFail])) ∧
    leads (.powerUpBoot 0b1010 false) off (fun t => decide (t.boot.core = 1) && decide (t.boot.step = .server) && t.eastKey && decide (t.myInc = 1)) ∧
    leads .bootLinkTimeout (at_ .server) (fun t => decide (t.boot.port = 1) && decide (t.boot.linkTries = 1)) ∧
    leads (.dhcpv6ReplyReceive true 7 [1]) (at_ .server) (fun t => decide (t.boot.step = .fetch)) ∧
    leads (.dhcpv6ReplyReceive false 7 [1]) (at_ .server) (fun t => decide (t.boot.step = .failed 2 1)) ∧
    leads (.tftpBlockReceive 3 (List.replicate 512 1)) full (fun t => decide (t.boot.image.length = 522) && decide (t.boot.nextBlock = 4)) ∧
    (full.store.acceptsImage (full.boot.image ++ [1]) = false ∧ leads (.tftpBlockReceive 3 [1]) full (fun t => decide (t.boot.step = .failed 4 4))) ∧
    leads .tftpBlockRetry f (fun t => decide (t.boot.retries = 1)) ∧ leads .tftpBlockRetry last (fun t => decide (t.boot.step = .failed 3 2)) ∧
    leads .tftpBlockRetry { last with boot := { last.boot with restarts := 2 } } (fun t => decide (t.boot.restarts = 3) && decide (t.boot.port = 1)) ∧
    leads .bootRetry (at_ (.failed 2 1)) (fun t => decide (t.boot.step = .server)) ∧
    leads .powerFail (base .c) (fun t => decide (t.power = .failed) && decide (t.cores.length = 0) && decide (t.mem = [])) := by decide +kernel

/-- An image beyond the largest: the clause that refuses it is met. -/
theorem test_BootImageTooLarge :
    ∃ s : State, s.boot.step = .fetch ∧ 33553920 < (s.boot.image ++ [1]).length := by
  have h : ∀ n, ∃ s : State, s.boot.step = .fetch ∧ n < (s.boot.image ++ [1]).length := fun n =>
    ⟨{ State.reset with boot := { State.reset.boot with step := .fetch, image := List.replicate n 0 } }, rfl, by simp⟩
  exact h _

/-- `base` with its partition changed. -/
def atPart (f : Machine.Part → Machine.Part) : State := { base .c with part := f (base .c).part }

/-- SUBMIT's four cases, the copy of an entry, the window's registers, the seal, attestation and the guards. -/
theorem test_SubmissionSealAndGuards :
    let s := atPart (fun p => { p with window := 0x100000 })
    let full := atPart (fun p => { p with subq := List.replicate 16 0 })
    let one := atPart (fun p => { p with subq := [0x40, 0x80], ovf := true, badaddr := true, sealOpen := true })
    let signs := { s with signing := some [1, 2] }
    let guarded := { s with guards := { s.guards with locked := true } }
    let open_ := { guarded with guards := { guarded.guards with windows := [(0x1000, 0x1000)], burst := 2 } }
    let read_ := atPart (fun p => { p with window := 0x100000, copied := [(0, [])], subq := [0], holders := [(17, [3])] })
    (s.focusPart 0).part.live = true ∧
    leads (.submitWrite 0 8 0x40) s (fun t => decide (t.part.subq = [0x40])) ∧ leads (.submitWrite 0 8 0x41) s (fun t => t.part.badaddr) ∧
    leads (.submitWrite 0 8 0xFFF40) s (fun t => t.part.badaddr) ∧ leads (.submitWrite 0 8 0xFFF00) s (fun t => decide (t.part.subq = [0xFFF00])) ∧
    leads (.submitWrite 0 8 0x40) full (fun t => t.part.ovf && decide (t.part.subq.length = 16)) ∧
    leads (.submissionCopy 0) one (fun t => decide (t.part.subq = [0x80]) && decide (t.part.accepted = 1) && decide (t.part.copied.map (fun e => e.1) = [0x40])) ∧
    leads (.submissionWindowWrite 0 0x40 [7, 8]) s (fun t => decide (leNat (t.mem.readBytes 0x100040 2) = 0x807)) ∧
    leads (.submissionWindowWrite 0 0x100008 [0x20]) one (fun t => !t.part.ovf && t.part.badaddr) ∧
    leads (.submissionWindowWrite 0 0x100010 [1]) s (fun t => t.part.sealOpen) ∧ leads (.sealOpen 0) s (fun t => t.part.sealOpen) ∧
    leads (.sealClose 0) one (fun t => !t.part.sealOpen) ∧ leads (.vfFunctionLevelReset 0) one (fun t => t.part.subq.isEmpty) ∧
    (s.signing = none ∧ s.store.xmssIndex < 2 ^ 20 ∧
      leads (.attestationRequest (List.replicate 32 1) none) s (fun t => decide (t.store.xmssIndex = 1) && t.signing.isSome)) ∧
    leads .keyCounterConfirm signs (fun t => t.signing.isNone && decide (t.notices.length = 1)) ∧
    (s.part.holders.getD ((s.part.window + 0x40) / 65536) [] = [] ∧ s.part.replWrites = [] ∧ leads (.vfFunctionLevelReset 0) read_ (fun t => t.part.subq.isEmpty && t.part.copied.isEmpty)) ∧
    leads (.submissionWindowWrite 0 0x100004 [1]) s (fun t => t.part.badaddr) ∧
    leads (.serviceCoreHostWrite [] ⟨0x1000, (.own [1])⟩) guarded (fun t => decide (t.guards.writeDrops = 1)) ∧
    leads (.serviceCoreHostWrite [(0x1000, 0x1000), (5, 4096)] ⟨0x1FFE, (.own [1, 2])⟩) guarded (fun t => decide (t.guards.windows = [(0x1000, 0x1000)]) &&
      decide (leNat (t.mem.readBytes (hostKey 16 0x1FFE) 2) = 0x201)) ∧
    leads (.serviceCoreHostWrite [] ⟨0x1FFF, (.own [1, 2])⟩) open_ (fun t => decide (t.guards.writeDrops = 1)) ∧
    leads (.serviceCoreHostWrite [] ⟨0x1000, (.own [1, 2, 3])⟩) open_ (fun t => decide (t.guards.writeDrops = 1)) ∧
    leads (.serviceCoreHostWrite [] ⟨0x1000, (.memory 64 128)⟩) guarded (fun t => decide (t.svcCopies = [{ addr := 0x1000, pa := 64, left := 128 }])) ∧
    leads (.ethernetFrameSend 1 65536) guarded (fun t => decide (t.guards.frameDrops = 0)) ∧
    leads (.ethernetFrameSend 1 65537) guarded (fun t => decide (t.guards.frameDrops = 1)) := by decide +kernel

/-- What a partition is created with. -/
def aSpec : PartSpec :=
  { clusters := [4, 3], single := true, map := [0x100010001], window := 0, grant := 280, spillCap := 1024, overflowCap := 0, replicaCap := 0,
    ptroot := 0, tvec := 0, flog := 0, floge := 0 }

/-- A partition created, enlarged and destroyed; a cluster gated and ungated; the words of the scrubber; the trace buffer. -/
theorem test_PartitionClusterAndUpkeep :
    let s := { base .c with boot := { (base .c).boot with step := .running } }
    let r : TraceRec := { cx := false, bytes := [] }
    let tr := { s with core := { s.core with trace := [r, r, r] } }
    let gated := { s with gated := [70] }
    (s.mayCreate 5 aSpec = true ∧ leads (.partitionCreate 5 aSpec) s (fun t => t.part.live && decide (t.part.clusters = [3, 4]) && decide (t.pid = 5) &&
      decide (t.part.nextCore = 8))) ∧
    ((s.focusPart 0).part.swapped = false ∧ s.isPausing 0 = false ∧ s.clusterOwner 71 = none ∧ s.clusterOwner 0 = some 0 ∧
      leads (.sitesJoinPartition 0 [0, 1]) s (fun t => decide (t.part.nextCore = s.part.nextCore + 7))) ∧
    leads (.partitionDestroy 0) s (fun t => !t.part.live) ∧
    ((∀ i ∈ sitesOf 70, (s.boxAt i).quiet = true) ∧ leads (.clusterPowerGate 70) s (fun t => decide (t.gated = [70]))) ∧
    leads (.clusterUngate 70) gated (fun t => decide (t.gated.length = 0)) ∧ leads (.bankGoesDrowsy 287 63) s (fun t => decide (t.drowsy = [(287, 63)])) ∧
    leads (.scrubVisit 0x1000000000 .corrected) { s with flips := [0x1000000000, 8] } (fun t => decide (t.memctl[(19 : Fin 30)].ce = 1) && decide (t.flips = [8])) ∧
    (s.ownerOfKey (0x80001004 / 8 * 8) = none ∧
      leads (.scrubVisit 0x80001004 .uncorrectable) s (fun t => decide (t.memctl[(18 : Fin 30)].ue = 1) && decide (t.badWords = [0x80001000]))) ∧
    ((tr.focus 0 false).drainDue = true ∧ leads (.traceDrain 0) tr (fun t => decide (t.core.trace.length = 1) && decide (t.core.drainAt = 101))) := by
  decide +kernel

/-! ### Events: repairs, the mesh, links -/

/-- A core site repaired: the partition is asked to stop; swapped out, the spare has its number at once. Without a spare it is retired. -/
theorem test_CoreSiteRepairs :
    let s := base .c
    let out := atPart (fun p => { p with swapped := true })
    let bare := { s with columns := s.columns.set 35 { s.columns[35] with spare := false } }
    (s.holderOf 0 = some 0 ∧ s.spareOf 0 = some 35 ∧ s.spareUsable 35 = true ∧ s.mayRepair (.coreSite 0) = true ∧ s.isPausing 0 = false ∧
      leads (.coreSiteRepair 0) s (fun t => decide (t.pauses = [(0, .repair 0)]) && t.core.stopping)) ∧
    (out.part.swapped = true ∧ out.isPausing 0 = false ∧ Tab.wf out.part.cores = true ∧ out.part.cores.find? 0 = some 0 ∧
      leads (.coreSiteRepair 0) out (fun t => decide (t.part.cores.find? 35 = some 0) && decide (t.store.spareMap = 1) &&
        t.columns[(0 : Fin 288)].retired && !t.columns[(35 : Fin 288)].spare)) ∧
    (s.holderOf 40 = none ∧ s.spareOf 40 = some 71 ∧ s.spareFits 40 71 = true ∧ s.mayRepair (.coreSite 40) = true ∧ s.columns[40].spare = false ∧
      leads (.coreSiteRepair 40) s (fun t => t.columns[(40 : Fin 288)].retired && !(t.boxAt 40).core.enabled && (t.boxAt 71).core.enabled)) ∧
    (bare.spareOf 0 = none ∧ bare.holderOf 0 = some 0 ∧ bare.mayRepair (.coreSite 0) = true ∧
      leads (.coreSiteRetire 0) bare (fun t => (t.part.cores.find? 0).isNone && t.columns[(0 : Fin 288)].retired)) := by decide +kernel

/-- The second repair of its kind waits; a cores' pause that has been served lets the spare take over. -/
theorem test_RepairQueue :
    let s := { base .c with repairing := [.linkLane 3] }
    let p := { base .c with pauses := [(0, .repair 0)], core := { (base .c).core with stopping := true } }
    leads (.repairRequest (.linkLane 4)) s (fun t => decide (t.repairs = [.linkLane 4])) ∧
    leads (.repairRequest (.coreSite 4)) s (fun t => decide (t.repairing = [.linkLane 3, .coreSite 4])) ∧
    (p.pauses.contains (0, .repair 0) = true ∧ p.part.swapped = false ∧ p.allStopped = true ∧
      leads (.coreSiteRepair 0) p (fun t => decide (t.part.cores.find? 35 = some 0) && decide (t.notices = [.mapResume 0]))) := by decide +kernel

/-- A row staged and returned, a channel, a spare row and a bank retired. -/
theorem test_MemoryRepairs :
    let s := base .c
    let staged := { s with stagedRows := [0] }
    let ch := { s with repairing := [.hbmChannel 11 31 0 0 0] }
    let full := State.writeList { s with repairing := [.hbmChannel 11 31 0x20000 0x10040 64] } 0x10040 [9]
    let bank := { s with repairing := [.deepBank 3 5 4 6] }
    (s.mem.wf = true ∧ leads (.hbmRowRepair 0) s (fun t => decide (t.stagedRows = [0]) && decide (t.mem.read 3 = 4))) ∧
    leads (.hbmRowRepairDone 0) staged (fun t => decide (t.stagedRows.length = 0)) ∧
    (ch.repairing.find? (isChannel 11 31) = some (.hbmChannel 11 31 0 0 0) ∧
      leads (.hbmChannelRetire 11 31) ch (fun t => decide (t.retiredChans = [(11, 31)]) && t.repairing.isEmpty)) ∧
    leads (.hbmChannelRetire 11 31) full (fun t => !t.names 0x10040 && t.names 0x10000 && decide (t.mem.read 0x10040 = 0)) ∧
    leads (.deepRowSpare 287 9) s (fun t => decide (t.sparedRows = [(287, 9)])) ∧
    (bank.names (2 ^ 40 + (4 * 64 + 6) * 2 ^ 18) = true ∧ (∀ p ∈ bank.livePids, (bank.focusPart p).bankMovable (3 * 64 + 5) (4 * 64 + 6) = true) ∧
      leads (.deepBankRetire 3 5) bank (fun t => decide (t.bankOf (2 ^ 40 + 3 * 2 ^ 24 + 5 * 2 ^ 18) = some 262))) := by decide +kernel

/-- A lane's spare, half width, out of service, and a mesh link out. -/
theorem test_LinkRepairs :
    let s := base .c
    let used := { s with ports := s.ports.set 17 { s.ports[17] with spareUsed := true } }
    let half := { s with ports := s.ports.set 17 { s.ports[17] with spareUsed := true, half := true }
                         peers := s.peers.set 2 { s.peers[2] with ports := 0x3FFFF } }
    (s.mayRepair (.linkLane 17) = true ∧ leads (.linkLaneSpare 17 4) s (fun t => t.ports[(17 : Fin 18)].spareUsed && decide (t.ports[(17 : Fin 18)].heldTo = 3600))) ∧
    leads (.linkPortRetrain 17) used (fun t => t.ports[(17 : Fin 18)].half) ∧
    leads (.linkPortOut 17) half (fun t => !t.ports[(17 : Fin 18)].inService && decide (t.peers[(2 : Fin 64)].ports = 0x1FFFF)) ∧
    leads (.meshLinkReroute 5 6 1) s (fun t => decide (t.mesh.failedLinks = [(5, 6, 1)])) := by decide +kernel

/-- A request to write 128 bytes from site 22, at (4, 3) of the mesh, to site 55, at (7, 3). -/
def aSpecOf (dst : NetEnd) : PktSpec :=
  { cmd := .write 128, src := .core 22, dst := dst, addr := 0x1000, tag := 0, inc := 0, cx := false, path := 0, buf := .shared, asks := [] }

/-- A packet of it of a class, and its head. -/
def aPkt (cls : PktClass) (dst : NetEnd) : MeshPkt :=
  { id := 0, cls := cls, spec := aSpecOf dst, src := .core 22, dst := dst, data := 0, route := [], root := 0 }
def aFlit : Flit :=
  { id := 0, packet := 0, idx := 0, last := true, x := 4, y := 3, chan := 0, port := 4, since := 0, crossed := 0, won := [], own := false }

/-- `base` with a mesh that holds one packet, of which this flit is the head. -/
def withFlit (f : Flit) (cls : PktClass) (dst : NetEnd) : State :=
  { base .c with mesh := { (base .c).mesh with flits := [f], packets := [aPkt cls dst], nextId := 1 } }

/-- Injection on the mesh and on the memory plane, a request that is none, one that finds its buffers taken. -/
theorem test_Injection :
    let s := base .c
    let p := aSpecOf (.core 55)
    let held := { s with mesh := { s.mesh with reserved := [(bufferKey p, 64)] } }
    (p.ok = true ∧ s.mesh.mayInject p = true ∧ onPlane p.src p.dst = false ∧ Tab.wf s.mesh.reserved = true ∧
      leads (.packetInject p) s (fun t => decide (t.mesh.flits.map (fun f => (f.x, f.y)) = [(4, 3), (4, 3)]) && decide (t.mesh.reserved.getD (bufferKey p) 0 = 1))) ∧
    (onPlane (.core 22) (.hbm 1 0) = true ∧ leads (.packetInject (aSpecOf (.hbm 1 0))) s (fun t => t.mesh.flits.isEmpty &&
      decide (t.mesh.beats.map (fun b => (b.x, b.y, b.ready)) = [(4, 3, 101)]))) ∧
    (({ p with cmd := .write 513 } : PktSpec).ok = false ∧ leads (.packetInject { p with cmd := .write 513 }) s (fun t => decide (t.mesh = s.mesh))) ∧
    (held.mesh.mayInject p = false ∧ leads (.packetInject p) held (fun t => decide (t.mesh.waiting = [p]))) := by decide +kernel

/-- A set-up, a bypass to the next router, out of the mesh with a response and with a request. -/
theorem test_SetupAndBypass :
    let one := withFlit aFlit .request0 (.core 23)
    let won := withFlit { aFlit with won := [(4, 3, 1)] } .request0 (.core 23)
    let out := { aFlit with x := 5, won := [(5, 3, 4)] }
    ((∀ f ∈ one.mesh.flits, f.won = []) ∧ one.mesh.waiting = [] ∧
      leads .flitSetup one (fun t => decide (t.mesh.flits.map (fun f => f.won) = [[(4, 3, 1), (5, 3, 4)]]))) ∧
    leads .flitBypass one (fun t => decide (t.mesh.fclk = 1) && t.mesh.setupOwed) ∧
    (won.mesh.pkt? 0 = some (aPkt .request0 (.core 23)) ∧ neighbour 4 3 1 = some (5, 3) ∧
      (won.mesh.adaptive 4 3 (endAt (.core 23))).isSome = true ∧ isBridge 4 3 1 = false ∧
      leads .flitBypass won (fun t => decide (t.mesh.flits.map (fun f => (f.x, f.since, f.crossed)) = [(5, 2, 1)]))) ∧
    (neighbour 5 3 4 = none ∧ leads .flitBypass (withFlit out .response0 (.core 23)) (fun t => decide (t.mesh.delivered = [(0, 1)]) && t.mesh.flits.isEmpty &&
      decide (t.mesh.ended = [(aSpecOf (.core 23), none)]))) ∧
    ((withFlit out .request0 (.core 23)).mesh.serving = [] ∧
      leads .flitBypass (withFlit out .request0 (.core 23)) (fun t => decide (t.mesh.packets.map (fun p => (p.cls, p.src, p.dst, p.data)) =
        [(.response0, .core 23, .core 22, 0)]))) := by decide +kernel

/-- A flit that has won nothing, one that hops over the bridge at x = 5 by an adaptive and one by an escape channel; a bridge that loses its
packet before it and in it; a beat that moves east, over an edge between dies. -/
theorem test_HopsAndBridges :
    let f : Flit := { aFlit with x := 5, won := [(5, 3, 1)] }
    let at_ := fun (f : Flit) => { withFlit f .request0 (.core 55) with mesh := { (withFlit f .request0 (.core 55)).mesh with setupOwed := true } }
    let s := at_ f
    let e := at_ { f with chan := 4 }
    let kept := { withFlit { f with won := [] } .request0 (.core 55) with mesh := { (withFlit { f with won := [] } .request0 (.core 55)).mesh with
      bridges := [{ link := (5, 3, 1), seq := 0, packet := 0, sentAt := 0, resends := 3, far := none }] } }
    let b : Beat := { packet := 0, last := true, x := 5, y := 3, resp := false, ready := 100 }
    let m := { s.mesh with beats := [b], packets := [aPkt .request0 (.hbm 1 3)] }
    leads (.latchedHop 0) (withFlit aFlit .request0 (.core 55)) (fun t => decide (t.mesh.flits = [aFlit])) ∧
    (s.mesh.flits.find? (fun g => decide (g.id = f.id)) = some f ∧ isBridge 5 3 1 = true ∧ (s.mesh.adaptive 5 3 (endAt (.core 55))).isSome = true ∧
      0 < s.mesh.poolFree 6 3 (entryPort 1) ∧ leads (.latchedHop 0) s (fun t => decide (t.mesh.flits.map (fun f => (f.x, f.since)) = [(6, 1)]) &&
        decide (t.mesh.bridges.map (fun b => (b.link, b.packet)) = [((5, 3, 1), 0)]))) ∧
    (e.mesh.ownFree 6 3 (entryPort 1) 4 = true ∧ e.mesh.heldBy 0 (5, 3, 1) 4 = false ∧
      leads (.latchedHop 0) e (fun t => decide (t.mesh.flits.map (fun f => (f.x, f.chan)) = [(6, 4)]))) ∧
    (isBridge 4 3 1 = false ∧ leads (.bridgeRetryExhausted 4 3 1) kept (fun t => decide (t.mesh = kept.mesh))) ∧
    (kept.mesh.serving = [] ∧ kept.mesh.lostAt (5, 3, 1) = [0] ∧ (kept.mesh.pkt? 0).isSome = true ∧
      leads (.bridgeRetryExhausted 5 3 1) kept (fun t => t.mesh.flits.isEmpty && decide (t.mesh.failedLinks = [(5, 3, 1)]) &&
        decide (t.mesh.ended = [(aSpecOf (.core 55), some .peerlost)]))) ∧
    (m.pkt? 0 = some (aPkt .request0 (.hbm 1 3)) ∧ (beatOut b (.hbm 1 3)).2.2 = 1 ∧ neighbour 5 3 1 = some (6, 3) ∧
      (m.planeStep 100 []).beats.map (fun b => (b.x, b.y, b.ready)) = [(6, 3, 103)]) := by decide +kernel

/-- Chip 2 is a valid peer whose announcement has come, by port 0 alone; this chip has announced itself as incarnation 0. -/
def linked : State :=
  { base .c with announced := true, peers := (base .c).peers.set 2 { inc := 0, valid := true, up := true, lost := false, ports := 1 } }

/-- A transaction to chip 2 in port 0's store, which carries an access of token 3's word. -/
def aTxn : LinkTxn := { chip := 2, seq := 0, frame := 9, tag := 7, sentDt := 0, resends := 0, resp := none, lat := some 500, ansAt := some 6000 }

/-- `linked` with a transaction in its store, 4,000 ns later, and its access pending in token 3. -/
def sent (n : Nat) : State :=
  { linked with
    cycle := 7000, ports := linked.ports.set 0 { linked.ports[0] with nextSeq := 1, store := [{ aTxn with resends := n }] }
    net := [{ site := 0, cx := false, serial := 6, pos := 0, tag := 7, live := true, answer := none, key := 2 ^ 60 + 2 ^ 53, path := 0, bytes := 8, writes := false
              got := [], done := false }]
    ctx := { linked.ctx with tok := linked.ctx.tok.set 3 (some { someTok with serial := 6 }) } }

theorem test_LinkSendHasItsPort : linked.portFor 2 9 = some 0 := by
  show ([0] : List Nat)[Config.linkPort 1 2 9 % 1]? = some 0
  rw [Nat.mod_one]; rfl

/-- A port with room, and one that is held. -/
theorem test_LinkSend :
    let p := linked.ports[0]
    let held := { linked with ports := linked.ports.set 0 { p with heldTo := 200 } }
    (p.inService = true ∧ p.heldTo ≤ linked.cycle ∧ p.store.length < 8192 ∧ (p.store.filter (fun t => t.chip == 2)).length < 512 ∧ p.waiting = []) ∧
    ((linked.peerOf 2).valid = true ∧ (linked.peerOf 2).lost = false ∧ linked.peerUp 2 = true ∧ (linked.peerOf 3).valid = false) ∧
    ¬held.ports[0].heldTo ≤ held.cycle := by decide +kernel

/-- A replay, acknowledgements both ways, one that refuses, a transaction sent again and one given up. -/
theorem test_LinkRetries :
    let owed := { linked with sources := [{ LinkSrc.fresh 2 1 with owed := 3 }] }
    let fault := fun (t : State) => t.ctx.tok[(3 : Fin 8)].bind (fun y => y.fault.map (fun f => f.1))
    leads (.linkFlitReplay 17) linked (fun t => decide (t.ports[(17 : Fin 18)].heldTo = 975)) ∧
    ((owed.source 2 1).owed ≠ 0 ∧ (owed.source 3 1).owed = 0 ∧ leads (.linkAckSend 2 1) owed (fun t => decide ((t.source 2 1).owed = 0) && decide (t.notices.length = 1))) ∧
    leads (.linkAckReceive 0 2 ⟨0, []⟩) (sent 0) (fun t => t.ports[(0 : Fin 18)].store.isEmpty && decide (t.net.map (fun b => b.answer) = [some (7000, none)])) ∧
    leads (.linkAckReceive 0 2 ⟨0, [(0, .prot)]⟩) (sent 0) (fun t => decide (t.net.map (fun b => b.answer) = [some (7000, some .prot)])) ∧
    ((sent 2).ports[(0 : Fin 18)].store.find? (fun t => t.seq == 0) = some { aTxn with resends := 2 } ∧ aTxn.sentDt + 4000 ≤ (sent 2).dt ∧
      leads (.linkResend 0 0) (sent 2) (fun t => decide (t.ports[(0 : Fin 18)].store.map (fun x => (x.resends, x.ansAt)) = [(3, some 7500)]))) ∧
    leads (.linkRetryExhausted 0 0) (sent 3) (fun t => t.ports[(0 : Fin 18)].store.isEmpty && t.peers[(2 : Fin 64)].lost &&
      decide (t.ports[(0 : Fin 18)].lostTags = [7]) && decide (fault t = some .peerlost)) := by decide +kernel

/-- A request of chip 2. -/
def aReq (seq : BitVec 32) (op : PeerOp) : PeerReq := { chip := 2, port := 1, seq := seq, inc := 0, op := op, die := some 3 }

/-- Requests executed, refused, and answered again; announcements. -/
theorem test_PeerRequests :
    let deaf := { linked with peers := linked.peers.set 2 { linked.peers[2] with ports := 0 } }
    let again := { linked with sources := [{ LinkSrc.fresh 2 1 with high := 0, responses := [(0, none, [5])] }] }
    let leaf : Leaf := { rd := true, wr := true, code := true, tgt := 1, chip := 2, fmt := 0, geom := 0, repl := false, glob := false, frame := 0, size := 65536 }
    let entry : TlbEnt := { cx := false, vpage := 0, leaf := leaf, inc := 0 }
    let seen := { linked with core := { linked.core with tTlb := [entry] } }
    let served := fun (op : PeerOp) =>
      let j : PeerJob := { tag := 9, serial := 1, req := aReq 0 op, ans := none }
      ({ deaf with peerJobs := [j] } : State).peerServe j
    leads (.peerRequestReceive (aReq 0 (.read 0 4))) (base .c) (fun t => decide (t.notices.length = 0)) ∧
    ((aReq 0 (.read 0 4)).inc = deaf.myInc ∧ (deaf.source 2 1).offset 0 = 0 ∧ deaf.ownerOf .read 0 4 = some 0 ∧
      localExists 0 = true ∧ peerBad deaf 0 (.read 0 4) = false ∧
      leads (.peerRequestReceive (aReq 0 (.read 0 4))) deaf (fun t => decide (t.peerJobs.map (fun j => j.req) = [aReq 0 (.read 0 4)]) && t.notices.isEmpty) ∧
      (served (.read 0 4)).peerJobs.map (fun j => j.ans) = [some (none, [0, 0, 0, 4])]) ∧
    (served (.write 64 [9])).mem.read 64 = 9 ∧ leNat ((served (.sacc 0 0 8 1)).mem.readBytes 0 4) ≠ 0x04000000 ∧
    leNat ((served (.scas 0 false 0x04000000 5)).mem.readBytes 0 4) = 5 ∧
    (deaf.ownerOf .read 0x80000000 4 = none ∧
      leads (.peerRequestReceive (aReq 0 (.read 0x80000000 4))) deaf (fun t => decide (t.notices = [.refused 2 1 0 .prot]))) ∧
    leads (.peerRequestReceive { aReq 0 (.read 0 4) with inc := 1 }) linked (fun t => decide (t.notices = [.refused 2 1 0 .peerreset])) ∧
    (512 ≤ (again.source 2 1).offset 0 ∧ leads (.peerRequestReceive (aReq 0 (.read 0 4))) again (fun t => decide (t.notices = [.response 2 1 0 [5]]))) ∧
    (let j : PeerJob := { tag := 9, serial := 1, req := aReq 0 (.read 0 4), ans := some (none, [1, 2, 3, 4]) }
     let p : PktSpec := { aSpecOf (.core 3) with tag := 9 }
     let back := { deaf with peerJobs := [j], mesh := { deaf.mesh with ended := [(p, none)] } }
     back.peerEnded = some (j, (p, none)) ∧ back.answerPeer.notices = [.response 2 1 0 [1, 2, 3, 4]]) ∧
    leads .incarnationAnnounce linked (fun t => decide (t.notices = [.announce 2 0 0])) ∧
    leads (.announcementReceive 2 6) seen (fun t => decide (t.peers[(2 : Fin 64)].inc = 6) && t.core.tTlb.isEmpty) := by decide +kernel

/-- A collective of two chips, of which this is the first, in its one exchange. -/
def aColl : Coll :=
  { id := 4, part := 0, desc := List.replicate 64 0, number := 0, fn := 4, count := 1, root := 0, chips := [0, 1], cores := [0], arrived := [],
    value := [], exchange := 1, ready := false, fault := none }

theorem test_CollectiveExchange :
    let s := { linked with colls := [aColl] }
    s.colls.find? (fun x => x.id == 4) = some aColl ∧ 0 < aColl.exchange ∧ aColl.ready = false ∧
    (exchangePlan aColl.chips.length (aColl.chips.idxOf s.chip.toNat))[aColl.exchange - 1]? = some (1, some 0) ∧
    aColl.stepSize = 0 ∧ leads (.collectiveExchangeStep 4 []) s (fun t => decide (t.colls.map (fun k => (k.exchange, k.ready)) = [(2, true)])) ∧
    leads (.collectiveExchangeStep 4 [1]) s (fun t => decide (t.colls.map (fun k => k.fault) = [some .prot])) := by decide +kernel

/-! ### Events: jobs, phases, counters, the scheduler -/

/-- Words of 64 bits written into the own scratchpad from a byte on. -/
def State.poke (s : State) (b : Nat) (ws : List Nat) : State := { s with mem := s.mem.writeBytes (spKey 0 b) (ws.flatMap (leBytes 8)) }

/-- A job record of one activity: its image at byte `img` of the scratchpad, its activity record at byte 0x600, its counter at byte `ctr`. -/
def aJob (img : Word) (ctr : Word) : List (BitVec 8) :=
  leBytes 2 1 ++ leBytes 2 0x0101 ++ leBytes 4 0x23 ++ leBytes 8 ctr.toNat ++ leBytes 8 img.toNat ++ leBytes 8 64 ++ leBytes 8 (own 0).toNat ++
  leBytes 8 0 ++ leBytes 8 0x600 ++ List.replicate 200 0

/-- A partition whose oldest copied record is this; an empty image at byte 0x400. -/
def loading (r : List (BitVec 8)) : State :=
  let s := State.poke (State.poke (atPart (fun p => { p with window := 0x100000, copied := [(0x80, r)] })) 0x400 [0x314A424F44464C56, 1, 0, 0, 0, 0, 0, 0]) 0x600
    [1000, 0, 5, (own 0x800).toNat, 0, 0, 0, 0]
  s

/-- The three ends of a job record: loaded, dropped, failed. -/
theorem test_JobLoads :
    let s := loading (aJob (own 0x400) (own 0x100))
    let j := readJob (aJob (own 0x400) (own 0x100))
    let d := loading (aJob (own 0x400) 0x104)
    let f := loading (aJob 0x5000000000 (own 0x100))
    (s.counterWritable j = true ∧ j.ok = true ∧
      (s.readSpan (j.imageLen / 64 + 2) j.image j.imageLen).toBool = true ∧
      leads (.jobLoad 0 { racks := [], ptes := [] }) s (fun t => decide (t.part.jobs.length = 1) && t.part.copied.isEmpty)) ∧
    (d.counterWritable (readJob (aJob (own 0x400) 0x104)) = false ∧
      leads (.jobLoad 0 { racks := [], ptes := [] }) d (fun t => decide (leNat (t.mem.readBytes 0x1FFFF8 8) = 0x80) && decide (t.notices = [.vfVector 0 1]))) ∧
    (f.counterWritable (readJob (aJob 0x5000000000 (own 0x100))) = true ∧
      leads (.jobLoad 0 { racks := [], ptes := [] }) f (fun t => decide (t.part.jobs.length = 0) &&
        decide (leNat (t.mem.readBytes (spKey 0 0x100) 8) = 2 ^ 43 + 2 ^ 41))) := by decide +kernel

/-- What has been read is as told. -/
def reads {α : Type} (e : Except Cause α) (f : α → Bool) : Bool :=
  match e with
  | .ok a => f a
  | .error _ => false

theorem test_JobLoadsItsImage :
    let s := loading (aJob (own 0x400) (own 0x100))
    let w := { s with part := { s.part with copied := [] } }
    let j := readJob (aJob (own 0x400) (own 0x100))
    reads (w.readSpan (j.imageLen / 64 + 2) j.image j.imageLen) (fun img => match readVfo img with
      | some vfo => (w.loadImage vfo j 0 img { racks := [], ptes := [] }).isSome
      | none => false) = true := by decide +kernel

/-- An activity whose phase descriptor is at byte 0x800. -/
def anAct : Activity :=
  { addr := own 0x600, period := 50, rel := 9, phase := own 0x800, event := none, heat := 0, trapmiss := true, limit := 0, made := 0, nextDt := 40
    live := false, deadline := 0, missed := false, ended := false, sizeAt := none, selOpen := false, selAddr := 0 }

/-- A live job of one activity; its descriptor reads its size at byte 0x900 and has two variants, of bounds 4 and 8. -/
def jobbed (f : Activity → Activity) : State :=
  let job : Job := { live := true, counter := own 0x100, msix := none, strict := false, acts := [f anAct], events := [], racks := [], lys := [], range := (0, 0) }
  let g := (own 0xA00).toNat
  State.poke (State.poke (atPart (fun p => { p with jobs := [job] })) 0x800
    [0, (own 0x900).toNat, 2 * 2 ^ 32, 0, 4 + g % 2 ^ 32 * 2 ^ 32, g / 2 ^ 32, 8 + g % 2 ^ 32 * 2 ^ 32, g / 2 ^ 32]) 0x900 [5]

/-- A release counted as a miss, one made; the size that has been read; a missed deadline. -/
theorem test_Activities :
    let s := jobbed id
    let live := jobbed (fun a => { a with live := true, sizeAt := some 90 })
    let late := jobbed (fun a => { a with live := true, deadline := 56 })
    (∃ a, live.act? 0 0 = some a ∧ a.releaseDue live.dt = true ∧ live.mayRelease 0 a = true ∧ a.live = true) ∧
    leads (.activityRelease 0 0 0) live (fun t => decide (leNat (t.mem.readBytes (spKey 0 0x620) 8) = 1) &&
      decide (leNat (t.mem.readBytes (spKey 0 0x800) 8) = 2 ^ 42)) ∧
    reads ((counted s (own 0x800) (fun w => ctrCreate w 1)).readDwords (own 0x800).toNat 20) (fun ws => descOk ws && decide (ws.getD 2 0 / 65536 % 2 = 0)) ∧
    leads (.activityRelease 0 0 0) s (fun t => decide ((t.act? 0 0).map (fun a => (a.live, a.sizeAt, a.deadline)) = some (true, some 124, 49)) &&
      decide (t.part.levels.length = 1)) ∧
    reads (live.readDwords (own 0x800).toNat 20) (fun ws => reads (live.low32 (ws.getD 1 0)) (fun n => decide (n = 5)) && !live.ctrHas (own 0x800) 40 &&
      decide (1 < ws.getD 2 0 / 2 ^ 32 % 256) && decide (5 ≤ ws.getD 6 0 % 2 ^ 32) && decide (ws.getD 4 0 % 2 ^ 32 < 5)) ∧
    leads (.selectorSizeRead 0 0 0) live (fun t => decide (((t.act? 0 0).bind (fun a => a.sizeAt)).isNone)) ∧
    ((56 : Word).toNat < late.dt ∧ late.ctrHas (own 0x800) 43 = false ∧
      leads (.deadlineMiss 0 0 0) late (fun t => decide ((t.act? 0 0).map (fun a => a.missed) = some true) && decide (t.part.logSeq = 1) &&
        decide (leNat (t.mem.readBytes (spKey 0 0x620) 8) = 1))) :=
  ⟨⟨_, rfl, by decide +kernel, by decide +kernel, rfl⟩, by decide +kernel, by decide +kernel, by decide +kernel, by decide +kernel, by decide +kernel,
    by decide +kernel, by decide +kernel⟩

theorem test_ImportRegisters :
    leads (.importRegister 0 [65] 3 (some 7)) (base .c) (fun t => decide (t.part.imports = [([65], 3, 7)])) = true := by decide +kernel

/-- A launch's level whose counter is at byte 0x100. -/
def aLevel : Level := { kind := .launch, counter := own 0x100, parent := 0, job := 0, act := 0, node := none, draw := 0, drawHeld := 0, cancelled := false }

/-- A counter at zero, above one, and at one; a cancel and its broadcast. -/
theorem test_CountersAndCancels :
    let at_ := fun (n : Nat) => State.poke (base .c) 0x100 [n + 7 * 2 ^ 48 + 2 ^ 47]
    let lev := State.poke (atPart (fun p => { p with levels := [aLevel] })) 0x100 [2]
    let cast := { lev with part := { lev.part with casts := [(0, own 0x100)] }, ctx := { lev.ctx with turn := some { aTurn with launch := own 0x100 } } }
    ((at_ 0).ctr (own 0x100) = some (7 * 2 ^ 48 + 2 ^ 47) ∧
      leads (.counterDecrement 0 (own 0x100) false false) (at_ 0) (fun t => decide (t.ctrHas (own 0x100) 44 = true))) ∧
    leads (.counterDecrement 0 (own 0x100) true false) (at_ 2) (fun t => decide (t.ctr (own 0x100) = some (1 + 7 * 2 ^ 48 + 2 ^ 47 + 2 ^ 41))) ∧
    ((at_ 1).level? (own 0x100) = none ∧ leads (.counterDecrement 0 (own 0x100) false true) (at_ 1) (fun t => t.ctrHas (own 0x100) 43 && t.ctrHas (own 0x100) 40 &&
      decide (t.part.evops = [{ due := 101, name := 7, kind := .post, tok := none }]))) ∧
    (lev.level? (own 0x100) = some aLevel ∧ levelKindOf 1 = .launch ∧ lev.ctrHas (own 0x100) 40 = false ∧ levelsUnder lev.part.levels (own 0x100) = [aLevel] ∧
      leads (.cancelLinearise 0 (own 0x100) 1) { lev with part := { lev.part with levels := [{ aLevel with cancelled := true }] } } (fun t => decide (t.mem = lev.mem)) ∧
      leads (.cancelLinearise 0 (own 0x100) 1) lev (fun t => t.ctrHas (own 0x100) 40 && decide (t.part.casts = [(100, own 0x100)]))) ∧
    (cast.isUnder (own 0x100) (own 0x100) = true ∧ (cast.sched 0).heap = [] ∧
      leads (.cancelBroadcast 0) cast (fun t => t.part.casts.isEmpty && decide (t.ctx.turn.map (fun u => u.cancelled) = some true))) := by decide +kernel

/-- A ready turn that has not run, with its record at byte 0xB00 and its launch counter at byte 0x100. -/
def aReady : HeapEnt :=
  { turn := { aTurn with id := 2, record := own 0xB00, launch := own 0x100, started := false, flags := 0x40, deadline := 50 }, saved := none }

/-- The scheduler of a cluster holds the ready turn; context A is as told. -/
def ready (cl : Nat) (f : Context → Context) : State :=
  let s := State.poke (atPart (fun p => { p with clusters := [0, cl].eraseDups, scheds := [(cl, { Sched.empty with heap := [aReady] })] })) 0xB00
    [0x40, 0x1000, 0, 0, 77, 0, 1, 0]
  { s with ctx := f s.ctx }

/-- No turn. -/
def noTurn (c : Context) : Context := { c with turn := none, idle := 1024 }

/-- A retired turn, a dispatch, a displacement, a refill. -/
theorem test_TurnsComeAndGo :
    let s := at_ .c (fun c => { c with retire := some { faulted := false, cancelled := false }, dbgctl := 4 })
    let d := ready 0 noTurn
    let b := { ready 0 id with octx := { (base .c).octx with turn := some { aTurn with id := 3, started := false, deadline := 60 } } }
    let sp := atPart (fun p => { p with scheds := [(0, { Sched.empty with spill := [aReady] })] })
    (s.retireReady = true ∧ leads (.turnRetire 0 false) s (fun t => t.ctx.turn.isNone && decide (t.ctx.dbgctl = 4) && !t.ctx.cs.run)) ∧
    ((d.dispatchFree 0 = true ∧ (d.nextTurn 0).isSome = true ∧ d.bestCtx (d.takers 0 aReady.turn) = some (0, false) ∧ d.ctrHas (own 0x100) 40 = false) ∧
      leads (.turnDispatch 0 0) d (fun t => decide (t.ctx.turn.map (fun u => u.id) = some 2) && decide (t.ctx.cs.pc = 0x40) && decide (t.ctx.x[(31 : Fin 32)] = 0x1000) &&
        decide (t.ctx.limit = 77) && decide (t.ctx.x[(1 : Fin 32)] = 1) && decide (t.ctx.cs.readyAt = 164))) ∧
    ((b.displacer 0).map (fun x => (x.2.1, x.2.2.1, x.2.2.2.id)) = some (0, true, 3) ∧
      leads (.turnDisplace 0 0) b (fun t => decide (t.ctx.turn.map (fun u => u.id) = some 2) && decide (((t.sched 0).heap.map (fun e => e.turn.id)) = [3]))) ∧
    (sp.placeable 0 = none ∧ leads (.spillRefill 0 0) sp (fun t => decide ((t.sched 0).heap.length = 1) && decide ((t.sched 0).refillAt = 116))) := by
  decide +kernel

/-- An activation, an evaluation with each outcome, an urgent switch, steals from the same die and across dies, a budget overrun. -/
theorem test_SwitchesAndSteals :
    let two := fun (f g : Context → Context) => { base .c with ctx := f (base .c).ctx, octx := g { (base .c).octx with turn := some aTurn } }
    let act := two noTurn id
    let ev := two (fun c => { c with deadline := 100 }) id
    let no := two id id
    let urg := { ev with core := { ev.core with urgent := some 50 } }
    let near := ready 1 noTurn
    let far := ready 9 noTurn
    let spent := at_ .c (fun c => { c with limit := 5, net := 6 })
    ((act.boxAt 0).activates = true ∧ leads (.contextActivate 0) act (fun t => t.core.active && t.cx && decide (t.ctx.cs.readyAt = 116))) ∧
    ((ev.boxAt 0).evalDue 100 = true ∧ leads (.urgentSwitchEvaluate 0) ev (fun t => decide (t.core.urgent = some 100) && t.ctx.ts.holdReq)) ∧
    ((no.boxAt 0).evalDue 100 = true ∧ leads (.urgentSwitchEvaluate 0) no (fun t => t.core.urgent.isNone && decide (t.core.evalAt = 356))) ∧
    ((urg.boxAt 0).urgentDue 100 = true ∧ (urg.boxAt 0).urgentDrops = false ∧
      leads (.urgentSwitch 0) urg (fun t => t.core.active && decide (t.ctx.cs.readyAt = 164))) ∧
    (near.emptyAt 0 false = true ∧ near.ctx.asksNear = true ∧ leads (.stealRequest 0 false) near (fun t => decide (t.ctx.turn.map (fun u => u.id) = some 2) &&
      decide (t.ctx.cs.readyAt = 364))) ∧
    (far.ctx.asksFar = true ∧ leads (.stealCrossDie 0 false) far (fun t => decide (t.ctx.turn.map (fun u => u.id) = some 2) && decide (t.ctx.cs.readyAt = 764))) ∧
    leads (.stealRequest 0 false) far (fun t => t.ctx.turn.isNone && decide (t.ctx.asked = 1024)) ∧
    (spent.ctx.turn.isSome = true ∧ spent.core.active = false ∧ leads (.budgetTrap 0 false) spent (fun t => decide (t.ctx.pend.map (fun x => x.cause) = [.budget]))) := by
  decide +kernel

/-! ### Events: the event table, racks, wait tokens, translation, replicas -/

/-- An operation that has reached the table, on event 3 as told; token 2 of context A of site 0 awaits it. -/
def onEvent (k : EvKind) (e : EvEnt) : State :=
  let s := at_ .c (fun c => { c with tok := c.tok.set 2 (some someTok) })
  { s with part := { s.part with events := [(3, e)], evops := [{ due := 99, name := 3, kind := k, tok := some (s.turnId, 2) }] } }

/-- What token 2 has been answered. -/
def answered (t : State) : Option (Option (Word × Word) × Option (Cause × Word)) := (t.ctx.tok[(2 : Fin 8)]).map (fun k => (k.done, k.fault))

/-- Each operation of the table. -/
theorem test_EventTable :
    let e : EvEnt := { waited with waiters := [] }
    let c : EvEnt := { e with counting := true, state := 4 }
    let w : EvEnt := { waited with counting := true, overflow := [(aReady, 0)] }
    let walk := atPart (fun p => { p with events := [(3, { waited with overflow := [(aReady, 0), (aReady, 0)], walkAt := some 90 })] })
    let gone := { onEvent .post e with part := { (onEvent .post e).part with events := [] } }
    leads (.eventTableApply 0) gone (fun t => decide ((answered t).map (fun a => a.2.map (fun f => f.1)) = some (some .prot))) ∧
    leads (.eventTableApply 0) (onEvent .test c) (fun t => decide ((answered t).map (fun a => a.1) = some (some (4 + 2 ^ 48, 0)))) ∧
    leads (.eventTableApply 0) (onEvent (.sete 0 0) c) (fun t => decide ((t.part.events.find? 3).map (fun e => e.state) = some 0)) ∧
    leads (.eventTableApply 0) (onEvent (.sete 3 0x15) c) (fun t => decide ((t.part.events.find? 3).map (fun e => (e.notify, e.vec)) = some (true, 5))) ∧
    leads (.eventTableApply 0) (onEvent (.sete 2 1) e) (fun t => decide ((t.part.events.find? 3).map (fun e => e.counting) = some true)) ∧
    leads (.eventTableApply 0) (onEvent .post c) (fun t => decide ((t.part.events.find? 3).map (fun e => e.state) = some 5)) ∧
    leads (.eventTableApply 0) (onEvent .post w) (fun t => decide ((t.part.events.find? 3).map (fun e => (e.waiters.length, e.overflow.length)) = some (3, 0))) ∧
    leads (.eventTableApply 0) (onEvent .post { e with state := 1, notify := true }) (fun t => decide (t.notices = [.vfVector 0 0])) ∧
    leads (.eventTableApply 0) (onEvent .post { waited with overflow := [(aReady, 0)] })
      (fun t => decide ((t.part.events.find? 3).map (fun e => (e.state, e.waiters.length, e.walkAt)) = some (1, 0, some 108))) ∧
    ((walk.nextWalked).isSome = true ∧
      leads (.overflowWalk 0) walk (fun t => decide ((t.part.events.find? 3).map (fun e => (e.overflow.length, e.walkAt)) = some (1, some 108)))) := by
  decide +kernel

/-- A rack of cluster 0 with three slots and one reader port. -/
def aRack : Rack :=
  { job := 0, slots := 3, base := 0x100000, stride := 0x40000, scope := 2, home := 0, desc := own 0xC00, slotSeq := [0, 7, 0], slotCycle := [none, some 40, none]
    freshest := some 1, seq := 7, ports := [none], writer := none }

/-- An operation that has reached rack 5 as told. -/
def onRack (fn port : Nat) (r : Rack) : State :=
  let s := at_ .c (fun c => { c with tok := c.tok.set 2 (some someTok) })
  let o : RackOp := { apply := 99, serial := 1, fn := fn, rack := 5, port := port, holder := .turn 1, cluster := 0, tok := some (s.turnId, 2), sel := none }
  { s with part := { s.part with racks := [(5, r)], rackops := [o] } }

/-- Is an operation refused with RACKPORT. -/
def refused (t : State) : Bool := decide ((answered t).map (fun a => a.2.map (fun f => f.1)) = some (some .rackport))

/-- Each operation of a rack, granted and refused. -/
theorem test_Racks :
    let mine : Rack := { aRack with writer := some (.turn 1, 2) }
    let read : Rack := { aRack with ports := [some (.turn 1, 1)] }
    let done := fun (t : State) => (answered t).bind (fun a => a.1)
    ((onRack 0 0 aRack).nextRackOp.isSome = true ∧ leads (.rackOpApply 0) (onRack 0 0 aRack) (fun t => decide (done t = some (0x100000, 0)))) ∧
    leads (.rackOpApply 0) (onRack 0 0 mine) refused ∧
    leads (.rackOpApply 0) (onRack 0 0 { aRack with home := 1 }) refused ∧
    leads (.rackOpApply 0) (onRack 1 0 mine) (fun t => decide ((t.part.racks.find? 5).map (fun r => (r.seq, r.freshest, r.writer)) = some (8, some 2, none))) ∧
    leads (.rackOpApply 0) (onRack 1 0 aRack) refused ∧
    leads (.rackOpApply 0) (onRack 2 0 aRack) (fun t => decide (done t = some (0x140000, BitVec.ofNat 64 (7 * 2 ^ 32 + 60)))) ∧
    leads (.rackOpApply 0) (onRack 2 0 { aRack with freshest := none }) (fun t => decide (done t = some (0, 0))) ∧
    leads (.rackOpApply 0) (onRack 2 1 aRack) refused ∧
    leads (.rackOpApply 0) (onRack 3 0 read) (fun t => decide ((t.part.racks.find? 5).map (fun r => r.ports) = some [none])) ∧
    leads (.rackOpApply 0) (onRack 3 0 aRack) refused ∧
    leads (.rackOpApply 0) (onRack 3 63 mine) (fun t => decide ((t.part.racks.find? 5).map (fun r => r.writer) = some none)) ∧
    leads (.rackOpApply 0) { onRack 0 0 aRack with part := { (onRack 0 0 aRack).part with racks := [] } }
      (fun t => decide ((answered t).map (fun a => a.2.map (fun f => f.1)) = some (some .prot))) := by decide +kernel

/-- `base` with a pending token 2 of an operation that is due. -/
def settling (op : TokOp) (done : Option (Word × Word)) (f : Context → Context) : State :=
  at_ .c (fun c => f { c with tok := c.tok.set 2 (some { someTok with op := op, done := done, tr := some { key := spKey 0 0x100, leaf := none } }) })

/-- Token 2 has settled, and all is as told. -/
def settled (f : State → Bool) (t : State) : Bool := (t.ctx.tok[(2 : Fin 8)]).isNone && f t

/-- Queue 3 holds an entry whose word 1 is 0x55; queue 2 takes what the C stream pushes. -/
def queues (c : Context) : Context :=
  { c with q := (c.q.set 3 { Queue.empty with prod := 2, cons := 0, ents := [{ serial := 1, know := Know.none, pushed := 0, data := some (0x55 * 2 ^ 64) }] }).set 2
             { Queue.empty with prod := 0, cons := 2 } }

/-- A leaf of a page of this chip. -/
def aLeaf : Leaf :=
  { rd := true, wr := true, code := false, tgt := 0, chip := 0, fmt := 0, geom := 0, repl := false, glob := false, frame := 0, size := 65536 }

/-- Each operation of a token that settles. -/
theorem test_TokensSettle :
    let ld := State.poke (settling (.load 2 true 9 (own 0x100)) none id) 0x100 [0xFFFE]
    let st := settling (.store 4 (own 0x100) 0x1234567890) none id
    let ly := State.poke (settling (.tlrw 63 (own 0x100)) none id) 0x100 [2 + 4 * 2 ^ 32, 64, 0, 0]
    let rec_ := settling (.record 63 (2 + 4 * 2 ^ 32) 64 0 0) none id
    let bad := settling (.record 64 0 64 0 0) none id
    let qg := settling (.qget 3 1 9 true) none queues
    let qp := settling (.qput 2 1 7) none queues
    ((ld.ctx.memBlocked { someTok with op := .load 2 true 9 (own 0x100) } = false ∧ ld.homeWaits = false ∧ ld.netOpen 0 = false ∧ ld.ctx.logHeld = []) ∧ leads (.waitTokenSettle 0 false 2) ld (settled (fun t => decide (t.ctx.x[(9 : Fin 32)] = -2)))) ∧
    leads (.waitTokenSettle 0 false 2) st (settled (fun t => decide (leNat (t.mem.readBytes (spKey 0 0x100) 8) = 0x34567890))) ∧
    (let p : Place := { key := 0x70000, leaf := some { aLeaf with repl := true, frame := 7 } }
     let held := { st with ctx := { st.ctx with tok := st.ctx.tok.set 2 (some { someTok with op := .store 4 (own 0x100) 9, tr := some p, serial := 5 }) },
                           part := { st.part with holders := [(7, [4])] } }
     p.replFrame = some 7 ∧ leads (.waitTokenSettle 0 false 2) held (fun t => decide ((t.ctx.tok[(2 : Fin 8)]).map (fun k => (k.due, k.done)) = some (101, some (0, 0))) &&
       decide (t.part.replWrites.map (fun w => (w.key, w.serial, w.path)) = [(0x70000, some 5, 0)]) && t.writing 5 &&
       leads (.waitTokenSettle 0 false 2) { t with cycle := 101 } (fun u => decide ((u.ctx.tok[(2 : Fin 8)]).map (fun k => k.due) = some 102)) &&
       leads (.waitTokenSettle 0 false 2) { t with cycle := 101, part := { t.part with replWrites := [] } } (settled (fun _ => true)))) ∧
    leads (.waitTokenSettle 0 false 2) ly (fun t => decide ((t.ctx.tok[(2 : Fin 8)]).map (fun k => (k.due, k.op)) = some (104, .record 63 (2 + 4 * 2 ^ 32) 64 0 0))) ∧
    leads (.waitTokenSettle 0 false 2) rec_ (settled (fun t => decide (t.core.ly[(63 : Fin 64)] ≠ LyRec.zero))) ∧
    leads (.waitTokenSettle 0 false 2) bad (settled (fun t => decide (t.ctx.pend.map (fun x => x.cause) = [.illegal]))) ∧
    (qg.ctx.queueBlocked { someTok with op := .qget 3 1 9 true } 3 = false ∧ leads (.waitTokenSettle 0 false 2) qg (fun t =>
      decide ((t.ctx.tok[(2 : Fin 8)]).map (fun k => (k.due, k.done)) = some (102, some (0x55, 0))) && t.ctx.q[(3 : Fin 16)].ents.isEmpty)) ∧
    leads (.waitTokenSettle 0 false 2) (settling (.qget 3 1 9 true) (some (0x55, 0)) id) (settled (fun t => decide (t.ctx.x[(9 : Fin 32)] = 0x55))) ∧
    (qp.ctx.queueBlocked { someTok with op := .qput 2 1 7 } 2 = false ∧ leads (.waitTokenSettle 0 false 2) qp (fun t =>
      decide (t.ctx.q[(2 : Fin 16)].ents.map (fun e => e.data) = [some (7 * 2 ^ 64)]))) ∧
    leads (.waitTokenSettle 0 false 2) (settling (.budget 9 5) none (fun c => { c with limit := 8, net := 2 })) (settled (fun t => decide (t.ctx.limit = 5) && decide (t.ctx.x[(9 : Fin 32)] = 0x200000005))) ∧
    leads (.waitTokenSettle 0 false 2) (settling (.crr 4 9) none (fun c => { c with limit := 8 })) (settled (fun t => decide (t.ctx.x[(9 : Fin 32)] = 8))) ∧
    leads (.waitTokenSettle 0 false 2) (settling (.time 9) none id) (settled (fun t => decide (t.ctx.x[(9 : Fin 32)] = 57))) ∧
    leads (.waitTokenSettle 0 false 2) (settling (.etest 3 9) (some (6, 0)) id) (settled (fun t => decide (t.ctx.x[(9 : Fin 32)] = 6))) ∧
    leads (.waitTokenSettle 0 false 2) (settling (.pstat 9) none id) (settled (fun t => decide (t.ctx.x[(9 : Fin 32)] = 0))) := by decide +kernel

/-- A fault makes a trap pending that names the token; a blocked access tries again. -/
theorem test_TokenFaults :
    let s := at_ .c (fun c => { c with tok := c.tok.set 2 (some { someTok with fault := some (.prot, 0x123) }) })
    let op : TokOp := .load 2 true 9 (own 0x100)
    let u := at_ .c (fun c => { c with tok := (c.tok.set 2 (some { someTok with op := op, serial := 5 })).set 3 (some { someTok with op := .store 8 (own 0x100) 0, serial := 4, due := 200 }) })
    let h := { s with ctx := { s.ctx with tip := true } }
    leads (.waitTokenSettle 0 false 2) s (settled (fun t => decide (t.ctx.pend.map (fun x => (x.cause, x.faddr)) = [(.prot, 0x123)]))) ∧
    (h.ctx.tipSerial = 0 ∧ leads (.waitTokenSettle 0 false 2) h (settled (fun t => decide (t.ctx.retire = some { faulted := true, cancelled := false })))) ∧
    (u.ctx.memBlocked { someTok with op := op, serial := 5 } = true ∧
      leads (.waitTokenSettle 0 false 2) u (fun t => decide ((t.ctx.tok[(2 : Fin 8)]).map (fun k => k.due) = some 101))) := by decide +kernel

/-- A walk that faults and one that fills the TLB; a prefetch and a wait that end. -/
theorem test_Translations :
    let walk : Walk := { serial := 1, cx := false, tlb := .c, vpage := 5, due := 90, prefetch := false }
    let s := { base .c with core := { (base .c).core with walks := [walk] } }
    let at_ := s.walkStart (5 * 65536)
    let pb := { base .c with ctx := { (base .c).ctx with b := (base .c).ctx.b.set 6 { val := 0, ready := some 90, byPbr := true } } }
    let up := { base .c with ctx := { (base .c).ctx with upWait := [{ st := .c, va := 64, chip := 2, due := some 90 }, { st := .t, va := 0, chip := 3, due := some 101 }] } }
    s.core.walks.find? (fun x => decide (x.due ≤ s.cycle)) = some walk ∧ (s.walkFrom 4 at_.1 at_.2 (5 * 65536)).toBool = false ∧
    leads (.pageWalkComplete 0) s (fun t => decide (t.core.wfault.map (fun w => (w.1, w.2.2.1)) = [(false, 5)]) && t.core.walks.isEmpty) ∧
    leads (.prefetchReady 0 false 6) pb (fun t => decide (t.ctx.b[(6 : Fin 8)].ready = some 0)) ∧
    leads (.peerUpWaitTimeout 0 false) up (fun t => decide (t.ctx.upWait.map (fun w => w.due) = [none, some 101])) := by decide +kernel

/-- Shootdowns: started by each of their three registers, acknowledged, ended. -/
theorem test_Shootdowns :
    let s := atPart (fun p => { p with invaddr := 0x50000 })
    let k : Shoot := { vpage := 0, kind := 3, waiting := [0], dropped := [], newMap := some [9] }
    let tw : List (Nat × Nat) := [(3, awaitedWrite 0x70000)]
    let last := atPart (fun p => { p with shoot := some k, busy := true, mapWritten := [9] })
    let two := atPart (fun p => { p with shoot := some { k with waiting := [0, 4] }, busy := true })
    let w : ReplWrite := { frame := 7, key := 0x70000, data := [1, 2], site := 0, cx := false, path := 0, waiting := [4], sent := true, serial := some 3 }
    let held := atPart (fun p => { p with shoot := some { k with kind := 2, newMap := none, dropped := [(0, tw)] }, busy := true, replWrites := [w] })
    let spare : BitVec 128 := BitVec.ofNat 128 (1 + (2 ^ 40 + 35 * 2 ^ 24) + 2 ^ 64)
    leads (.invctlWrite 0 4) s (fun t => t.part.busy && decide (t.part.shoot.map (fun k => (k.vpage, k.kind, k.waiting)) = some (5, 0, [0]))) ∧
    leads (.ptrootWrite 0 0x50000) s (fun t => t.part.busy && decide (t.part.ptroot = 0x50000)) ∧
    leads (.partitionMapChange 0 [7]) s (fun t => t.part.busy && decide (t.part.mapWritten = [7]) && decide (t.part.map ≠ [7])) ∧
    (s.grantsDisabled 7 = false ∧ s.grantsDisabled spare = true ∧ leads (.partitionMapChange 0 [spare]) s (fun t => !t.part.busy)) ∧
    (held.shootClear 0 tw = false ∧ last.shootClear 0 (last.awaitedBy k 0) = true ∧
      leads (.shootdownAck 0 0) held (fun t => t.part.busy && decide (t.part.shoot.map (fun k => (k.waiting, k.dropped)) = some ([0], [(0, tw)])))) ∧
    ((last.boxAt 0).core.part = some 0 ∧ leads (.shootdownAck 0 0) last (fun t => !t.part.busy && decide (t.part.map = [9]))) ∧
    leads (.shootdownAck 0 0) two (fun t => t.part.busy && decide (t.part.shoot.map (fun k => k.waiting) = some [4])) := by decide +kernel

/-- A holder added; a write performed at once, and after its last holder has acknowledged. -/
theorem test_Replicas :
    let w : ReplWrite := { frame := 7, key := 0x70000, data := [1, 2], site := 0, cx := false, path := 0, waiting := [], sent := false, serial := some 3 }
    let wr := fun (w : ReplWrite) (h : List Nat) => atPart (fun p => { p with replWrites := [w], holders := if h.isEmpty then [] else [(7, h)], replicaCap := 1 })
    let s := wr { w with frame := 8 } []
    (((s.part.holders.filter (fun e => e.2.contains 3)).length < s.part.replicaCap) ∧
      leads (.replicaRead 0 3 7) s (fun t => decide (t.part.holders = [(7, [3])]))) ∧
    ((wr w []).nextRepl.isSome = true ∧ leads (.replicaWrite 0) (wr w []) (fun t => decide (t.mem.read 0x70001 = 2) && t.part.replWrites.isEmpty)) ∧
    leads (.replicaWrite 0) (wr w [3, 4]) (fun t => decide (t.part.replWrites.map (fun w => (w.sent, w.waiting)) = [(true, [3, 4])])) ∧
    leads (.holderAck 0 3) (wr { w with sent := true, waiting := [3, 4] } [3, 4]) (fun t => decide (t.part.replWrites.map (fun w => w.waiting) = [[4]])) ∧
    leads (.holderAck 0 4) (wr { w with sent := true, waiting := [4] } [3, 4]) (fun t => decide (t.mem.read 0x70001 = 2) && t.part.holders.isEmpty) := by
  decide +kernel

/-! ### Events: results, T words, fences -/

/-- A fence of all paths that waits in each stream. -/
theorem test_FencesRetire :
    let f : FenceSt := { before := 0x3F, after := 0x3F, scope := 0, chips := BitVec.allOnes 64, serial := 5, sync := 0 }
    let s := fun (st : Strm) => at_ st (fun c => c.onStrm st (fun r => { r with fence := some f, wait := some .fence }))
    ((s .c).streamReady .c = true ∧ (s .c).pendingOn .c 0x3F 5 (BitVec.allOnes 64) = false ∧ leads (.fenceRetire 0 false .c) (s .c) (fun t => decide (t.ctx.cs.pc = 4))) ∧
    ((s .t).streamReady .t = true ∧ leads (.fenceRetire 0 false .t) (s .t) (fun t => decide (t.ctx.ts.pc = 4) && decide (t.ctx.twin.length = 1))) ∧
    ((s .m).ctx.postRoom .m 0 = true ∧ leads (.fenceRetire 0 false .m) (s .m) (fun t => decide (t.ctx.ms.pc = 4))) ∧
    leads (.fenceRetire 0 false .v) (s .v) (fun t => decide (t.ctx.vs.pc = 4)) := by decide +kernel

/-- The earlier of two results lands; a control register; a tile is cleared. -/
theorem test_ResultsLand :
    let l := fun (due serial : Nat) (d : Dest) (v : BitVec 256) => ({ due := due, serial := serial, st := .c, dst := d, val := v } : Landing)
    let land := fun (d : Dest) => at_ .c (fun c => { c with landing := [l 100 9 (.x 1) 0, l 100 8 d 5] })
    let z : MRet := { tile := some 1, due := 100, sync := 0, postC := true }
    let s := at_ .m (fun c => { c with zeroing := [z], acc := [(127, [1]), (128, [2])] })
    leads (.resultLand 0 false) (land (.x 9)) (fun t => decide (t.ctx.x[(9 : Fin 32)] = 5) && decide (t.ctx.landing.length = 1)) ∧
    leads (.resultLand 0 false) (land (.x 0)) (fun t => decide (t.ctx.x[(0 : Fin 32)] = 0)) ∧
    leads (.resultLand 0 false) (land (.vshape true)) (fun t => decide (t.ctx.vshape = 0x51)) ∧
    leads (.resultLand 0 false) (land (.nest 2 1)) (fun t => decide (t.ctx.nest[(2 : Fin 6)].as_ = 5)) ∧
    leads (.resultLand 0 false) (land (.ctl 4)) (fun t => decide (t.ctx.limit = 5)) ∧
    leads (.resultLand 0 false) (land (.ctl 0x19)) (fun t => decide (t.part.floge = 5)) ∧
    (s.ctx.acc.wf = true ∧ s.ctx.rowInt.wf = true ∧ leads (.resultLand 0 false) s (fun t => (t.ctx.acc.find? 128).isNone && (t.ctx.acc.find? 127).isSome &&
      decide (t.ctx.chans[(6 : Fin 12)].length = 1))) := by decide +kernel

/-- A V word lands and retires; without room for its post it lands only. -/
theorem test_VectorResultsLand :
    let p : VPend := { serial := 4, due := 100, pushes := [(2, 7, 0x55)], flags := 1, sync := 0, cells := [(3, 9)], postC := true, last := true }
    let s := fun (n : Nat) => at_ .v (fun c => { c with
      vpend := [p], chans := c.chans.set 9 (List.replicate n { made := 1, know := Know.none }), q := c.q.set 2 { Queue.empty with ents := [{ entry 7 0 with data := none }] } })
    ((s 0).core.sp.wf = true ∧ (s 0).ctx.tokenRoom (chanIx 3 0) = true ∧ leads (.vectorResultPush 0 false) (s 0) (fun t =>
      decide (t.ctx.q[(2 : Fin 16)].ents.map (fun e => e.data) = [some 0x55]) && decide (t.core.sp.getD 3 0 = 9) && decide (t.ctx.fflags = 1) &&
      t.ctx.vpend.isEmpty)) ∧
    ((s 16).ctx.tokenRoom (chanIx 3 0) = false ∧ leads (.vectorResultPush 0 false) (s 16) (fun t => decide (t.ctx.fflags = 0) && decide (t.ctx.vpend.length = 1) &&
      decide (t.ctx.q[(2 : Fin 16)].ents.map (fun e => e.data) = [some 0x55]))) := by decide +kernel

/-- A T word that is to commit, and the four lines of the scratchpad it reads or writes. -/
def aWord (op : TOp) : TEntry :=
  { serial := 7, pc := 8, pos := 2, op := op, due := 100, sync := 0, undo := { pops := [], regs := [], awaitOf := none, loops := [] }, fault := none, done := none }

def fourLines : List (Nat × Place) := (List.range 4).map (fun i => ((own 0x1000).toNat + 64 * i, { key := spKey 0 0x1000 + 64 * i, leaf := none }))

/-- `tState` whose window holds one word, with numbers in its lines and one entry of q2 to land. -/
def commits (op : TOp) : State :=
  let s := State.poke tState 0x1000 [0x3F80000040000000]
  { s with ctx := { s.ctx with twin := [aWord op], q := s.ctx.q.set 2 (queue 1 2 [{ entry 7 0 with data := none }]) } }

/-- The words of a T window commit, each kind. -/
theorem test_TWordsCommit :
    let ly := tState.core.ly[(0 : Fin 64)]
    let ok := fun (op : TOp) => (match (commits op).performT (aWord op) with | .ok _ => true | .error _ => false) && (commits op).ctx.commitRoom (aWord op)
    let run := fun (op : TOp) (f : State → Bool) => ok op = true ∧ leads (.tWordCommit 0 false) (commits op) (fun t => t.ctx.twin.isEmpty && f t) = true
    run (.ldq 2 (own 0x1000) ly fourLines) (fun t => decide (t.ctx.q[(2 : Fin 16)].ents.map (fun e => (e.data.getD 0).toNat % 2 ^ 64) = [0x3F80000040000000])) ∧
    run (.stq 0x77 (own 0x1000) ly fourLines) (fun t => decide (leNat (t.mem.readBytes (spKey 0 0x1000) 8) = 0x77)) ∧
    run (.sacc 3 (1 + (2 ^ 2048 - 2 ^ 32)) 0x44 (own 0x1000) fourLines) (fun t => decide (leNat (t.mem.readBytes (spKey 0 0x1004) 4) = 0x44)) ∧
    run (.scas (0x3F80000040000000 + 5 * 2 ^ 64) (own 0x1000) true 2 fourLines) (fun t => decide (leNat (t.mem.readBytes (spKey 0 0x1000) 8) = 5) &&
      decide (t.ctx.q[(2 : Fin 16)].ents.map (fun e => e.data) = [some (0x3F80000040000000 + 2 ^ 64)])) ∧
    run (.push 2 9 0) (fun t => decide (t.ctx.q[(2 : Fin 16)].ents.map (fun e => e.data) = [some 9])) ∧
    run (.sync true) (fun t => decide (t.ctx.chans[(3 : Fin 12)].length = 1)) ∧ run .plain (fun t => decide (t.mem = (commits .plain).mem)) := by decide +kernel

/-- An STQ whose frame has holders leaves the window once its writes are performed. -/
theorem test_StqWaitsForItsHolders :
    let ly := tState.core.ly[(0 : Fin 64)]
    let lines : List (Nat × Place) := (List.range 4).map (fun i =>
      ((own 0x1000).toNat + 64 * i, { key := 0x70000 + 64 * i, leaf := some { aLeaf with repl := true, frame := 7 } }))
    let op : TOp := .stq 0x77 (own 0x1000) ly lines
    let s := { commits op with part := { (commits op).part with holders := [(7, [4])] } }
    let done := { commits op with ctx := { (commits op).ctx with twin := [{ aWord op with done := some 0 }] } }
    (s.partBad lines (stqBytes 0x77 (own 0x1000) ly lines).1 = none ∧ (∀ l ∈ lines, l.2.replFrame = some 7) ∧ s.part.holders.getD 7 [] ≠ [] ∧
      leads (.tWordCommit 0 false) s (fun t => decide (t.ctx.twin.map (fun w => w.done) = [some 0]) && t.writing 7 && decide (t.mem = s.mem) &&
        leads (.tWordCommit 0 false) t (fun u => decide (u.ctx.twin.length = 1)))) ∧
    leads (.tWordCommit 0 false) done (fun t => t.ctx.twin.isEmpty && decide (t.mem = done.mem)) := by decide +kernel

/-- A line in error withdraws the window. -/
theorem test_LateFaults :
    let op : TOp := .ldq 2 (own 0x1000) tState.core.ly[(0 : Fin 64)] fourLines
    let s := { commits op with badWords := [spKey 0 0x1048] }
    s.badLine fourLines = some (own 0x1040).toNat ∧
    ∀ i ∈ ([.tWordCommit 0 false, .lateFault 0 false] : List Instr), leads i s (fun t => t.ctx.twin.isEmpty && decide (t.ctx.ts.pc = 8) && t.ctx.ts.held &&
      decide (t.ctx.pend.map (fun x => (x.cause, x.faddr)) = [(.memerr, own 0x1040)])) := by decide +kernel

/-! ### Events: traps, swaps, time, the debug window -/

/-- Of three pending traps the first is entered; without a handler the turn retires; both deadlocks. -/
theorem test_PendingTraps :
    let x := fun (r o : Nat) (c : Cause) => ({ rank := r, order := o, cause := c, st := .c, pawn := none, tok := none, async_ := true, st2 := .c, faddr := 1, fpc := 2, fpc2 := 0, frec := 0 } : PendTrap)
    let s := at_ .c (fun c => { c with pend := [x 4 0 .budget, x 2 1 .memerr, x 2 0 .format] })
    let b := at_ .c (fun c => { c with pend := [x 4 0 .budget], cs := { c.cs with pc := 0x40 } })
    let n := { s with part := { s.part with tvec := 0 } }
    let d := at_ .c (fun c => { c with dead := 4096 })
    let h := at_ .c (fun c => { c with dead := 4096, tip := true, cause := 3 })
    (handlerOf s.part ≠ 0 ∧ leads (.trapEntry 0 false) s (fun t => decide (t.ctx.cause.toNat % 256 = Cause.format.code) && t.ctx.tip && t.ctx.pl &&
      decide (t.ctx.cs.pc = 0x10000) && decide (t.ctx.pend.length = 2))) ∧
    leads (.trapEntry 0 false) b (fun t => decide (t.ctx.cause.toNat % 256 = Cause.budget.code) && decide (t.ctx.fpc = 0x40)) ∧
    (handlerOf n.part = 0 ∧ leads (.trapEntry 0 false) n (fun t => decide (t.ctx.retire = some { faulted := true, cancelled := false }) && decide (t.part.logSeq = 1))) ∧
    leads (.deadlockDetect 0 false) d (fun t => decide (t.ctx.pend.map (fun x => x.cause) = [.deadlock]) && decide (t.ctx.dead = 0)) ∧
    leads (.handlerDeadlock 0 false) h (fun t => decide (t.ctx.retire = some { faulted := true, cancelled := false })) := by decide +kernel

/-- A swap-out asked for, served, and undone; a late response; a time epoch. -/
theorem test_SwapsAndEpochs :
    let s := base .c
    let k : SwapKind := .swapOut 0
    let stop := { s with pauses := [(0, .swap k)], core := { s.core with stopping := true } }
    let b := s.boxAt 0
    let out := atPart (fun p => { p with swapped := true, swapSince := some 10, images := [(0, b)] })
    let img := { out with core := { Core.reset with part := none }, ctx := Context.reset }
    let late : LateRead := { part := 0, slot := 3, key := 0, bytes := 8, site := 0, off := 0x40, due := 90 }
    let r := { s with core := { s.core with lateReads := [late] } }
    let ep := atPart (fun p => { p with staged := [(.tofs, 5), (.tofs, 6), (.tmode, 1)] })
    let eps := { ep with pauses := [(0, .epoch)], core := { ep.core with stopping := true } }
    (swapsOut k = some 0 ∧ leads (.partitionSwap k) s (fun t => t.part.swapped && t.core.stopping && decide (t.pauses = [(0, .swap k)]))) ∧
    (stop.allStopped = true ∧ stop.remapsFit = true ∧ stop.liveSites = [0] ∧
      leads (.partitionSwap k) stop (fun t => (t.part.images.find? 0).isSome && (t.boxAt 0).core.part.isNone && t.pauses.isEmpty)) ∧
    (img.canSwapIn 0 none = true ∧ leads (.partitionSwap (.swapIn 0)) img (fun t => !t.part.swapped && t.part.images.isEmpty && decide (t.part.swappedTotal = 47) &&
      decide ((t.boxAt 0).core.part = some 0))) ∧
    (r.readBad 0 8 = false ∧ leads (.remapResponseLand 0) r (fun t => t.core.lateReads.isEmpty && decide (leNat (t.mem.readBytes (spKey 0 0x40) 8) = 0x04000000))) ∧
    leads (.remapResponseLand 0) { r with badWords := [0] } (fun t => t.core.lateReads.isEmpty && decide (t.mem = r.mem) &&
      decide ((t.pawn 3).fin = some .faulted)) ∧
    leads (.timeRegisterStage 0 .tscale 9) s (fun t => decide (t.part.staged = [(.tscale, 9)])) ∧
    leads (.timeEpoch 0) ep (fun t => decide (t.pauses = [(0, .epoch)]) && t.core.stopping) ∧
    (eps.allStopped = true ∧ leads (.timeEpoch 0) eps (fun t => decide (t.part.tofs = 6) && t.part.tmode && decide (t.part.tscale = ep.part.tscale) && !t.core.stopping)) := by
  decide +kernel

/-! ### Events: pawns -/

/-- `base` with one pawn, in entry 5. -/
def pawned (job : PawnJob) (eng : Engine) (f : Pawn → Pawn) : State := withPawns (base .c) [(5, f (aPawn (newCopy 2 job eng .t)))]

/-- A side of a copy in the own scratchpad: one row of 64 bytes. -/
def aSide (b : Nat) : CopySide := { base := own b, ly := { LyRec.zero with rows := 1, cols := 64, rstride := 64 }, bits := 8, geom := 0, fmt := 0 }

/-- The engine runs entry 5's pawn, whose step leads to a state and a pawn as told. -/
def via (i : Instr) (s : State) (f : State → Pawn → Bool) : Bool := s.enginePick (s.pawn 5).eng == some 5 && leads i s (fun t => f t (t.pawn 5))

/-- A COPY, a GATH, a SCAT, an RLD and an RST move a piece; a SEND moves a line. -/
theorem test_TransferSteps :
    let put := fun (s : State) => State.poke s 0x1000 [0x1122334455667788]
    let got := fun (b : Nat) (n : Nat) (t : State) (p : Pawn) => decide (leNat (t.mem.readBytes (spKey 0 b) 8) = 0x1122334455667788) && decide (p.pos = n)
    let ch : Machine.Chan := { launch := 0, num := 3, slots := 1, size := 128, sender := 0, receiver := 0, base := 0x8000, next := 0, filling := [0], filled := [], held := [] }
    let send := pawned (.send 3 0 (own 0x1000) 0 128) .transfer id
    via (.pawnStep 0 5) (put (pawned (.copy (aSide 0x1000) (aSide 0x2000) 1 64 true false) .transfer id)) (fun t p => got 0x2000 64 t p && decide (p.fin = some .done)) ∧
    via (.pawnStep 0 5) (put (pawned (.gath (aSide 0x2000) 64 true false [own 0x1000]) .transfer id)) (got 0x2000 1) ∧
    via (.pawnStep 0 5) (put (pawned (.scat (aSide 0x1000) 64 true false [own 0x2000]) .transfer id)) (got 0x2000 64) ∧
    via (.pawnStep 0 5) (put (pawned (.rld (own 0x1000) (own 0x2000) 64 1) .transfer id)) (got 0x2000 64) ∧
    via (.pawnStep 0 5) (put (pawned (.rst (own 0x1000) (own 0x2000) 64) .transfer id)) (got 0x2000 64) ∧
    via (.pawnStep 0 5) (put { send with part := { send.part with chans := [ch] } }) (fun t p => got 0x8000 64 t p && p.fin.isNone) := by decide +kernel

/-- A cancel, a PAGE fault that suspends, and one of an adopted pawn. -/
theorem test_PawnFaults :
    let job : PawnJob := .rst 0x500000 (own 0) 64
    let s := fun (f : Pawn → Pawn) => { pawned job .transfer f with core := { (pawned job .transfer f).core with wfault := [(false, .t, 0x50, .page)] } }
    let copy := pawned (.copy (aSide 0x1000) (aSide 0x2000) 1 64 true false) .transfer
    leads (.pawnStep 0 5) (s (fun p => { p with cancelReq := true })) (fun t => decide ((t.pawn 5).fin = some .cancelled)) ∧
    via (.pawnStep 0 5) (copy (fun p => { p with lead := 7 })) (fun _ p => p.begun && decide ((p.state, p.due, p.pos) = (.running, 107, 0))) ∧
    via (.pawnStep 0 5) (copy (fun p => { p with net := some (0, .peerlost) })) (fun _ p => decide (p.fin = some .faulted)) ∧
    via (.pawnStep 0 5) (pawned (.copy (aSide 0x1000) (aSide 0x2000) 2 64 true false) .transfer (fun p => { p with
      cancelReq := true, begun := true, state := .running
      tr := [{ writes := false, va := (own 0x1000).toNat, place := { key := spKey 0 0x1000, leaf := none } },
             { writes := true, va := (own 0x2000).toNat, place := { key := spKey 0 0x2000, leaf := none } }] }))
      (fun _ p => decide ((p.pos, p.fin, p.tr) = (64, some .cancelled, []))) ∧
    ((s id).enginePick .transfer = some 5 ∧
      leads (.pawnStep 0 5) (s id) (fun t => (t.pawn 5).suspended && decide (t.ctx.pend.map (fun x => (x.cause, x.faddr)) = [(.page, 0x500000)]))) ∧
    leads (.pawnStep 0 5) (s (fun p => { p with adopted := true })) (fun t => decide ((t.pawn 5).fin = some .faulted) && t.ctx.pend.isEmpty) := by decide +kernel

/-- ACC2S, S2ACC and ACCMUL move their row, after the cycles of the first. -/
theorem test_RowSteps :
    let ly : LyRec := { rows := 2, cols := 2, rstride := 512, swz := 0, efmt := 1, lfmt := 1, scale := 0 }
    let acc := fun (s : State) => { s with ctx := { s.ctx with acc := [(128, 0x40000000 :: List.replicate 127 0)] } }
    let s2 := State.poke (pawned (.s2acc (own 0x1000) 1 ly) .matrix id) 0x1000 [0x3F80000040400000]
    let am := pawned (.accmul (own 0x1000) 1 ly false) .matrix (fun p => { p with pos := 1, vec := List.replicate 128 (.fin false 3 0) })
    via (.pawnStep 0 5) (acc (pawned (.acc2s (own 0x1000) 1 ly) .matrix (fun p => { p with lead := 6 }))) (fun _ p => p.begun && decide (p.due = 106)) ∧
    via (.pawnStep 0 5) (acc (pawned (.acc2s (own 0x1000) 1 ly) .matrix id)) (fun t p => decide (leNat (t.mem.readBytes (spKey 0 0x1000) 8) = 0x40000000) && decide (p.pos = 1)) ∧
    via (.pawnStep 0 5) s2 (fun t p => decide ((t.ctx.accRow 128).take 3 = [0x40400000, 0x3F800000, 0]) && decide (p.pos = 1)) ∧
    via (.pawnStep 0 5) { am with ctx := { am.ctx with acc := [(129, List.replicate 128 0x40000000)] } }
      (fun t p => decide ((t.ctx.accRow 129).take 2 = [0x40C00000, 0x40C00000]) && decide (p.pos = 2)) := by decide +kernel

/-- A step of an MGO begins, and is made. -/
theorem test_MgoSteps :
    let job : PawnJob := .mgo [{ trip := 0, as_ := 0, bs := 0, cs := 0 }] (own 0x4000) (own 0x8000) 0 false fmtBf16 fmtBf16 false false
    let s := State.poke (State.poke (pawned job .matrix id) 0x4000 [0x4000]) 0x8000 [0x4040]
    let tr : List Trans := [0x4000, 0x8000].map (fun b => { writes := false, va := (own b).toNat, place := { key := spKey 0 b, leaf := none } })
    let u := { s with core := { (withPawns s [(5, { s.pawn 5 with state := .running, tr := tr })]).core with mstep := some 5 } }
    (match s.panels (own 0x4000).toNat (own 0x8000).toNat fmtBf16 fmtBf16 false with | (.ok _, _) => true | _ => false) = true ∧
    via (.pawnStep 0 5) s (fun t p => decide (t.core.mstep = some 5) && decide (s.cycle + 8 ≤ p.due) && decide (p.state = .running)) ∧
    (u.mgoDue = some 5 ∧ u.homeWaits = false ∧ leads (.mgoStep 0 5) u (fun t => decide ((t.pawn 5).fin = some .done) && t.core.mstep.isNone)) ∧
    leads (.mgoStep 0 5) { u with badWords := [spKey 0 0x4000] } (fun t => decide (((t.pawn 5).fin, (t.pawn 5).faddr) = (some .faulted, own 0x4000)) && t.core.mstep.isNone) ∧
    leads (.mgoStep 0 5) (withPawns u [(5, { u.pawn 5 with net := some (65, .peerlost) })]) (fun t =>
      decide (((t.pawn 5).fin, (t.pawn 5).faddr) = (some .faulted, own 0x8200)) && t.core.mstep.isNone) ∧
    leads (.mgoStep 0 5) { u with mismatches := [true] } (fun t => (t.pawn 5).retry && (t.pawn 5).fin.isNone && decide (t.core.mstep = some 5) && t.mismatches.isEmpty) ∧
    leads (.mgoStep 0 5) { withPawns u [(5, { u.pawn 5 with retry := true })] with mismatches := [true] }
      (fun t => decide ((t.pawn 5).fin = some .faulted) && t.core.mstep.isNone) := by decide +kernel

/-- Ends by handle, in the aggregate, and adopted; a draw slot granted. -/
theorem test_PawnEnds :
    let s := fun (f : Pawn → Pawn) => pawned (.rst 0 0 64) .transfer (fun p => f { p with fin := some .done })
    let g := at_ .m (fun c => { c with ms := { c.ms with wait := some .drawSlot } })
    let w := { g with part := { g.part with grant := 4, mgoWait := [(0, false, (g.ctx.turn.map (fun t => t.id)).getD 0)] } }
    ((s id).endReady 5 = true ∧ leads (.pawnEnd 0 5) (s id) (fun t => decide ((t.pawn 5).state = .done) && (t.pawn 5).fin.isNone && decide (t.ctx.freeSlot t.cycle = some 1) && decide (t.ctx.freeSlot (t.cycle + 1) = some 0))) ∧
    leads (.pawnEnd 0 5) (s (fun p => { p with handle := none })) (fun t => !(t.pawn 5).live && t.ctx.aggT.ended) ∧
    leads (.pawnEnd 0 5) (s (fun p => { p with adopted := true })) (fun t => !(t.pawn 5).live) ∧
    (w.grantee.isSome = true ∧ leads (.drawSlotGrant 0) w (fun t => t.ctx.ms.wait.isNone)) := by decide +kernel

/-- `base` whose seal is open, with its debug window and its context as told. -/
def debugged (w : DbgWin → DbgWin) (f : Context → Context) : State :=
  let s := atPart (fun p => { p with sealOpen := true })
  { s with dbg := s.dbg.set 0 (w s.dbg[0]), ctx := f s.ctx }

/-- A halted context. -/
def haltedCtx (c : Context) : Context := { c with halted := true }

/-- The code that a command leaves. -/
def coded (n : Nat) (t : State) : Bool := decide ((t.dbg[(0 : Fin 288)]).code.val = n)

/-- The commands: busy, sealed, unknown, not halted, and each with its effect. -/
theorem test_DebugCommands :
    let s := debugged id haltedCtx
    let busy := debugged (fun w => { w with code := 5 }) haltedCtx
    let runs := debugged id id
    let at_ := fun (i : Nat) => debugged (fun w => { w with idx := BitVec.ofNat 32 i, lo := 7, hi := 1 }) (fun c => regs [(9, 0x500000006)] (haltedCtx c))
    let saves := debugged id (fun c => { haltedCtx c with lbuf := [{ remain := 1, dst := .x 1, val := 0 }] })
    let saves2 := debugged (fun w => { w with idx := 2, lo := 7, hi := 1 }) (fun c =>
      { haltedCtx c with lbuf := [{ remain := 1, dst := .x 1, val := 0 }, { remain := 3, dst := .x 2, val := 0 }] })
    let flying := debugged id (fun c => { c with landing := [{ due := 103, serial := 1, st := .c, dst := .x 9, val := 5 }] })
    let waits := debugged (fun w => { w with code := 5 }) (fun c =>
      { haltedCtx c with stepOf := some { st := .c, issued := 0, tip := false, serial := 0 }, cs := { (haltedCtx c).cs with wait := some .tokens } })
    (waits.ctx.stepWaits = true ∧ leads (.dbgHalt 0 false) waits (fun t => coded 0 t && t.ctx.stepOf.isNone && t.ctx.halted)) ∧
    (busy.ctx.stepWaits = false ∧ leads (.dbgHalt 0 false) busy (coded 5)) ∧
    leads (.dbgResume 0 false) busy (fun t => coded 5 t && t.ctx.halted) ∧ leads (.dbgHalt 0 false) (base .c) (coded 2) ∧ leads (.dbgBadcmd 0) s (coded 4) ∧
    leads (.dbgDrop 0 false) runs (coded 3) ∧ leads (.dbgHalt 0 false) runs (fun t => coded 0 t && t.ctx.haltReq) ∧
    leads (.dbgResume 0 false) s (fun t => coded 0 t && !t.ctx.halted && t.ctx.cs.bpSkip) ∧
    leads (.dbgStep 0 false .c) s (fun t => coded 5 t && t.ctx.stepOf.isSome) ∧
    leads (.dbgRead 0 false 0) (at_ 9) (fun t => coded 0 t && decide ((t.dbg[(0 : Fin 288)]).lo = 6) && decide ((t.dbg[(0 : Fin 288)]).hi = 5)) ∧
    ((at_ 9).ctx.ownedX 9 = false ∧ leads (.dbgWrite 0 false 0) (at_ 9) (fun t => decide (t.ctx.x[(9 : Fin 32)] = 0x100000007))) ∧
    leads (.dbgWrite 0 false 3) (at_ 15) (fun t => decide (t.ctx.a[(15 : Fin 16)] = 0x100000007)) ∧
    (8 * 9 < s.shareSize ∧ leads (.dbgWrite 0 false 15) (at_ 9) (fun t => decide (leNat (t.mem.readBytes (spKey 0 72) 8) = 0x100000007))) ∧
    leads (.dbgDrop 0 false) saves (fun t => coded 0 t && decide (t.ctx.lbuf.map (fun e => e.valid) = [false])) ∧
    leads (.dbgWrite 0 false 9) saves2 (fun t => coded 0 t && decide (t.ctx.lbuf.map (fun e => (e.remain, e.val)) = [(1, 0), (3, 0x100000007)])) ∧
    (flying.core.active = false ∧ leads (.dbgHalt 0 false) flying (fun t => decide (t.ctx.lbuf.map (fun e => e.remain) = [2]) && t.ctx.landing.isEmpty)) := by decide +kernel

/-- A halt lands; a breakpoint halts, traps, and stops an engine stream. -/
theorem test_HaltsAndBreakpoints :
    let l : Landing := { due := 103, serial := 1, st := .c, dst := .x 9, val := 5 }
    let h := at_ .c (fun c => { c with haltReq := true, landing := [l] })
    let b := fun (st : Strm) (ctl : BitVec 4) => at_ st (fun c => { c with bpa := c.bpa.set 2 (BitVec.ofNat 64 (2 ^ 63 + strmCode st)), dbgctl := ctl })
    let inTrap := { b .c 0 with ctx := { (b .c 0).ctx with tip := true, pl := true } }
    (h.ctx.enginesStopped 100 = true ∧ leads (.debugHaltLand 0 false) h (fun t => t.ctx.halted && decide (t.ctx.lbuf.map (fun s => s.remain) = [3]) && t.ctx.landing.isEmpty)) ∧
    (inTrap.bpFires .c = true ∧ leads (.breakpointFire 0 false .c) inTrap (fun t => decide (t.ctx.retire = some { faulted := true, cancelled := false }))) ∧
    ((b .c 4).streamReady .c = true ∧ (b .c 4).bpFires .c = true ∧ leads (.breakpointFire 0 false .c) (b .c 4) (fun t => t.ctx.haltReq)) ∧
    (handlerOf (b .c 0).part ≠ 0 ∧ leads (.breakpointFire 0 false .c) (b .c 0) (fun t => decide (t.ctx.cause.toNat % 256 = 16) && decide (t.ctx.cs.pc = 0x10000))) ∧
    ((b .m 0).streamReady .m = true ∧ (b .m 0).bpFires .m = true ∧ leads (.breakpointFire 0 false .m) (b .m 0) (fun t => t.ctx.ms.held &&
      decide (t.ctx.pend.map (fun x => (x.cause, x.st)) = [(.bkpt, .m)]))) := by decide +kernel

/-! ### The machine as a whole -/

/-- A step leads to a state as told. -/
def goes (s : State) (f : State → Bool) : Bool :=
  match step s with
  | .next t => f t
  | _ => false

/-- What a step does, clause by clause: an outside event, no power, what is due, the next cycle, a word, and one that decodes to none. -/
theorem test_Steps :
    let s := base .c
    let word := fun (w : Nat) => State.reset.withFetchWord 32 w
    let l : Landing := { due := 100, serial := 1, st := .c, dst := .x 9, val := 5 }
    let d := at_ .c (fun c => { c with landing := [l] })
    let m := word 0
    let v := { m with part := { m.part with tvec := 0x10000 } }
    (s.agenda = [] ∧ s.power = .on ∧ s.todo = []) ∧
    goes { s with agenda := [.firmwareSwitch] } (fun t => t.imageB && t.agenda.isEmpty) ∧
    (match step { s with power := .tripped } with | .fault .clocksStopped => true | _ => false) = true ∧
    (d.due.isSome = true ∧ goes d (fun t => decide (t.ctx.x[(9 : Fin 32)] = 5))) ∧
    (s.due.isNone = true ∧ goes s (fun t => decide (t.cycle = 101))) ∧
    goes (word 0x1C1448D1) (fun t => decide (t.ctx.landing.map (fun l => (l.dst, l.val)) = [(.x 5, 0x12344000)])) ∧
    goes v (fun t => decide (t.ctx.cause.toNat % 256 = 1) && decide (t.ctx.cs.pc = 0x10000)) := by decide +kernel

/-- The premises of the clauses about words. -/
theorem test_StepFetchesItsWord :
    let s := State.reset.withFetchWord 32 0x1C1448D1
    let v := ({ s with todo := [] }).focus 0 false
    s.agenda = [] ∧ s.power = .on ∧ s.due.isNone = true ∧ s.todo = [{ site := 0, cx := false, st := .c }] ∧ v.streamReady .c = true ∧
    (v.ctx.strm .c).stopsHere .c = false ∧ (v.ctx.strm .c).pc = 0 ∧
    (match v.xlate .c .fetch 0 4 with | (.ok p, u) => decide (p.key = 0) && !u.readBad p.key 4 | _ => false) = true := by decide +kernel

/-- The invariant holds of a state that steps. -/
theorem test_StepsKeepMemoryCanonical :
    let s := State.reset.withFetchWord 32 0x1C1448D1
    s.Inv ∧ goes s (fun t => t.mem.wf) = true := by
  unfold State.Inv; decide +kernel

/-- A well-formed word of every stream, and its word of 32 bits. -/
theorem test_WordsDecodeToThemselves :
    ∀ x ∈ ([(.lui { g := 0, rd := 5, imm := 0x48D1 }, .c), (.stq { sync := 2, q := 3, ra := 6, ly := 2, step := 0x1FE }, .t),
        (.nsetLevel { sync := 0, level := 1, field := 1, v := 0x1FFC0 }, .m),
        (.vcmpGt { sync := 0, md := 3, qa := 1, qb := 2, pka := false, pkb := false, m := 0, int := false, uns := false }, .v)] : List (Instr × Strm)),
      x.1.stream = some x.2 ∧ x.1.wellFormed = true ∧ (match encode x.1 with
        | some w => (match decode x.2 w with | .ok i => decide (i = x.1) | .error _ => false)
        | none => false) = true := by decide +kernel

theorem test_CompareAndSelectPremises :
    let s := at_ .c (regs [(4, 1), (5, 2)])
    s.ctx.getP 0 = true ∧ s.ctx.getP 1 = false ∧ s.ctx.landingFull = false ∧ mayLand s.ctx 3 := by
  unfold mayLand; decide +kernel

theorem test_ShiftConstantAndImmediateComparePremises :
    let s := at_ .c (regs [(5, 0x12344000)])
    let u := at_ .c (regs [(5, 0x12344FFF)])
    s.ctx.getP 0 = true ∧ mayLand s.ctx 5 ∧ s.ctx.landingFull = false ∧ s.ctx.getX 5 = 0x12344000 ∧ mayLand u.ctx 5 ∧ u.ctx.getX 5 = 0x12344FFF := by
  unfold mayLand; decide +kernel

end Sys2Proof.Tests
end

section
/-! SUPPORT. What a write of a management register, a takeover and a firmware switch leave (R4, R17, R18, R44, R57, R192). -/

namespace Sys2Proof.Machine

/-! ### One entry of a vector, one field of a word -/

/-- A vector changed at one index, entry by entry. -/
theorem getElem_atIndex {α : Type} {n : Nat} (v : Vector α n) (k i : Fin n) (f : α → α) :
    (atIndex v k.val f)[i] = if i = k then f v[i] else v[i] := by
  simp [atIndex, Fin.ext_iff]

/-- A field of a word, cut out by a shift. -/
theorem setWidth_shiftRight_eq {w : Nat} (m n : Nat) (v : BitVec w) :
    (v >>> n).setWidth m = BitVec.ofNat m (v.toNat / 2 ^ n % 2 ^ m) := by
  apply BitVec.eq_of_toNat_eq
  simp [Nat.shiftRight_eq_div_pow]

/-! ### The management registers by their offsets (R17, R44, R192) -/

/-- A management register is written at its aligned offset. -/
theorem exec_mgmtRegisterWrite {off : Nat} (h : off % 4 = 0) (v : BitVec 32) (s : State) :
    exec (.mgmtRegisterWrite off v) s = .next (s.writeMgmt off v) := by
  have arm : exec (.mgmtRegisterWrite off v) s = .next (if off % 4 = 0 then s.writeMgmt off v else s) := rfl
  rw [arm, if_pos h]

theorem State.writeMgmt_htemp (k : Fin 12) (v : BitVec 32) (s : State) : s.writeMgmt (0x40000 + 4 * k.val) v =
    { s with hbm := atIndex s.hbm k.val (fun e => { e with hotseen := e.hotseen && !v.getLsbD 12 }) } := by
  have hk : (0x40000 + 4 * k.val - 0x40000) / 4 = k.val := by omega
  unfold State.writeMgmt
  rw [if_pos (by omega), hk]

theorem State.writeMgmt_droopcnt (k : Fin 18) (v : BitVec 32) (s : State) : s.writeMgmt (0x40600 + 4 * k.val) v =
    { s with dies := atIndex s.dies k.val (fun d => { d with droop := d.droop &&& ~~~(v.setWidth 24) }) } := by
  have hk : (0x40600 + 4 * k.val - 0x40600) / 4 = k.val := by omega
  unfold State.writeMgmt
  rw [if_neg (by omega), if_pos (by omega), hk]

theorem State.writeMgmt_tlimit (v : BitVec 32) (s : State) : s.writeMgmt 0x40804 v = { s with tlimit := limitOf v } := rfl

theorem State.writeMgmt_merr (k : Fin 30) (v : BitVec 32) (s : State) : s.writeMgmt (0x40A00 + 4 * k.val) v =
    { s with memctl := atIndex s.memctl k.val (fun m => m.write v) } := by
  have hk : (0x40A00 + 4 * k.val - 0x40A00) / 4 = k.val := by omega
  unfold State.writeMgmt
  rw [if_neg (by omega), if_neg (by omega), if_neg (by omega), if_neg (by omega), if_neg (by omega), if_pos (by omega), hk]

theorem State.writeMgmt_retirement (k : Fin 30) (i : Fin 32) (v : BitVec 32) (s : State) :
    s.writeMgmt (0x41000 + 256 * k.val + 8 * i.val) v =
      if v.getLsbD 0 = true then { s with memctl := atIndex s.memctl k.val (fun m => m.clearV i.val) } else s := by
  have hk : (0x41000 + 256 * k.val + 8 * i.val - 0x41000) / 256 = k.val := by omega
  have hi : (0x41000 + 256 * k.val + 8 * i.val - 0x41000) % 256 / 8 = i.val := by omega
  have h8 : (0x41000 + 256 * k.val + 8 * i.val) % 8 = 0 := by omega
  unfold State.writeMgmt
  rw [if_neg (by omega), if_neg (by omega), if_neg (by omega), if_neg (by omega), if_neg (by omega), if_neg (by omega), if_pos (by omega), hk, hi]
  simp only [h8, true_and]

/-- A write at any offset of the peer registers, PEERA at even words and PEERB at odd ones (R44). -/
theorem State.writeMgmt_peer {off : Nat} (k : Fin 64) (hk : (off - 0x50000) / 8 = k.val) (lo : 0x50000 ≤ off) (v : BitVec 32) (s : State) :
    s.writeMgmt off v =
      { s with peers := atIndex s.peers k.val (fun p => if off % 8 = 0 then p.writeA v else { p with ports := v.setWidth 18 }) } := by
  unfold State.writeMgmt
  rw [if_neg (by omega), if_neg (by omega), if_neg (by omega), if_neg (by omega), if_neg (by omega), if_neg (by omega), if_neg (by omega),
    if_pos (by omega), hk]

theorem State.writeMgmt_peerA (k : Fin 64) (v : BitVec 32) (s : State) : s.writeMgmt (0x50000 + 8 * k.val) v =
    { s with peers := atIndex s.peers k.val (fun p => p.writeA v) } := by
  have h8 : (0x50000 + 8 * k.val) % 8 = 0 := by omega
  simp only [State.writeMgmt_peer k (off := 0x50000 + 8 * k.val) (by omega) (by omega), h8, if_true]

theorem State.writeMgmt_peerB (k : Fin 64) (v : BitVec 32) (s : State) : s.writeMgmt (0x50004 + 8 * k.val) v =
    { s with peers := atIndex s.peers k.val (fun p => { p with ports := v.setWidth 18 }) } := by
  have h8 : (0x50004 + 8 * k.val) % 8 ≠ 0 := by omega
  simp only [State.writeMgmt_peer k (off := 0x50004 + 8 * k.val) (by omega) (by omega), h8, if_false]

/-! ### What the registers keep (R4, R44, R192) -/

theorem MemCtl.write_eq (m : MemCtl) (v : BitVec 32) : m.write v = { m with
    ce := m.ce &&& ~~~(v.setWidth 16), ue := m.ue &&& ~~~(BitVec.ofNat 8 (v.toNat / 2 ^ 16 % 256)) } := by
  have field : (v >>> 16).setWidth 8 = BitVec.ofNat 8 (v.toNat / 2 ^ 16 % 256) := setWidth_shiftRight_eq 8 16 v
  rw [MemCtl.write, field]

/-- A listed entry loses V and keeps the rest. -/
theorem MemCtl.find?_clearV {m : MemCtl} {i : Nat} {e : RetEnt} (h : m.list.find? i = some e) :
    (m.clearV i).list.find? i = some { e with v := false } := by
  unfold MemCtl.clearV
  rw [h]
  exact Tab.find?_put_same _ _ _

theorem State.writeMyinc_eq (s : State) (v : BitVec 32) : s.writeMyinc v =
    if s.clock then s else { s with chip := BitVec.ofNat 6 (v.toNat / 2 ^ 16 % 64), clock := true } := by
  have field : (v >>> 16).setWidth 6 = BitVec.ofNat 6 (v.toNat / 2 ^ 16 % 64) := setWidth_shiftRight_eq 6 16 v
  rw [State.writeMyinc, field]

/-! ### Service cores and firmware (R18, R57) -/

/-- The service cores that serve without one of them. -/
theorem getLsbD_without_core (m : BitVec 4) (core i : Fin 4) :
    (m &&& ~~~(BitVec.ofNat 4 (2 ^ core.val))).getLsbD i.val = (m.getLsbD i.val && decide (i ≠ core)) := by
  rw [BitVec.getLsbD_and, BitVec.getLsbD_not, BitVec.getLsbD_ofNat, Nat.testBit_two_pow]
  simp [Fin.ext_iff, eq_comm]

/-- A takeover leaves the others serving, and is refused where fewer than two are left. -/
theorem exec_serviceCoreTakeover (core : Fin 4) (s : State) :
    let others := fun (i : Fin 4) => s.serviceCores.getLsbD i.val && decide (i ≠ core)
    exec (.serviceCoreTakeover core.val) s = .next (if ((List.finRange 4).filter others).length < 2 then s
      else { s with serviceCores := s.serviceCores &&& ~~~(BitVec.ofNat 4 (2 ^ core.val)) }) := by
  intro others
  have hn : servingCores (s.serviceCores &&& ~~~(BitVec.ofNat 4 (2 ^ core.val))) = ((List.finRange 4).filter others).length := by
    simp only [servingCores, getLsbD_without_core, others]
  rw [← hn]
  rfl

/-- Firmware that asks for nothing next lets the minimum version stand. -/
theorem State.raiseMin_eq (s : State) : s.raiseMin = { s with
    raises := s.raises.tail
    store := { s.store with minVersion := match s.raises with
      | [] => s.store.minVersion
      | v :: _ => if s.store.minVersion.toNat ≤ v.toNat then v else s.store.minVersion } } := by
  have raised : (if s.store.minVersion ≤ s.raises.headD 0 then s.raises.headD 0 else s.store.minVersion) =
      match s.raises with
      | [] => s.store.minVersion
      | v :: _ => if s.store.minVersion.toNat ≤ v.toNat then v else s.store.minVersion := by
    cases s.raises with
    | nil => simp +contextual
    | cons v rest => rfl
  unfold State.raiseMin
  simp only [raised]

/-- A switch takes the other image; running firmware may raise the minimum version with it. -/
theorem exec_firmwareSwitch (s : State) : exec .firmwareSwitch s = .next (if s.boot.step = .running
    then ({ s with imageB := !s.imageB } : State).raiseMin else { s with imageB := !s.imageB }) := rfl

end Sys2Proof.Machine
end

section
/-! SUPPORT. What reset leaves in a context and in the tables (R17, R129, R152, R164, R351). -/

namespace Sys2Proof.Machine

/-! ### The registers of a context at reset -/

@[simp] theorem Context.reset_getX (r : Fin 32) : Context.reset.getX r = 0 := by simp [Context.getX, Context.reset]
@[simp] theorem Context.reset_getP (r : Fin 8) : Context.reset.getP r = decide (r = 0) := by simp [Context.getP, Context.reset]
@[simp] theorem Context.reset_getM (r : Fin 8) : Context.reset.getM r = if r = 0 then BitVec.allOnes 256 else 0 := by
  simp [Context.getM, Context.reset]
@[simp] theorem Context.reset_getA (r : Fin 16) : Context.reset.getA r = 0 := by simp [Context.getA, Context.reset]
@[simp] theorem Context.reset_getH (r : Fin 16) : Context.reset.getH r = 0 := by simp [Context.getH, Context.reset]
theorem Context.reset_b (r : Fin 8) : Context.reset.b[r] = { val := 0, ready := none, byPbr := false } := Vector.getElem_replicate r.isLt
theorem Context.reset_tok (r : Fin 8) : Context.reset.tok[r] = none := Vector.getElem_replicate r.isLt
theorem Context.reset_s (r : Fin 16) : Context.reset.s[r] = 0 := Vector.getElem_replicate r.isLt
theorem Context.reset_q (r : Fin 16) : Context.reset.q[r] = Queue.empty := Vector.getElem_replicate r.isLt
theorem Context.reset_mb (r : Fin 4) : Context.reset.mb[r] = 0 := Vector.getElem_replicate r.isLt
theorem Context.reset_chans (r : Fin 12) : Context.reset.chans[r] = [] := Vector.getElem_replicate r.isLt
theorem Context.reset_nest (l : Fin 6) : Context.reset.nest[l] = { trip := 0, as_ := 0, bs := 0, cs := 0 } :=
  Vector.getElem_replicate l.isLt
@[simp] theorem Context.reset_strm (st : Strm) : Context.reset.strm st = StreamSt.idle := by cases st <;> rfl

/-! ### The entries of the core's and the package's tables at reset -/

theorem State.reset_pawn (k : Fin 64) : State.reset.pawn k = Pawn.free := Vector.getElem_replicate k.isLt
theorem State.reset_ly (k : Fin 64) : State.reset.core.ly[k] = LyRec.zero := Vector.getElem_replicate k.isLt
theorem State.reset_columns (i : Fin 288) : State.reset.columns[i] = Column.reset i.val := Vector.getElem_ofFn i.isLt

end Sys2Proof.Machine
end

section
/-! PROOFS. The obligations of spec/00_scope.md. -/

namespace Sys2Proof.Proofs

open Sys2Proof.Machine

/-- Settles O35: each register group by the equation of its offsets, and the vectors entry by entry. -/
theorem managementWritesFollowTheirAccess : Obligations.ManagementWritesFollowTheirAccess := by
  unfold Obligations.ManagementWritesFollowTheirAccess
  refine ⟨?htemp, ?droopcnt, ?tlimit, ?peer, ?merr, ?myinc, ?retirement, ?takeover, ?firmware⟩
  case htemp =>
    intro k v s
    rw [exec_mgmtRegisterWrite (by omega), State.writeMgmt_htemp]
    exact ⟨_, rfl, fun i => getElem_atIndex _ k i _⟩
  case droopcnt =>
    intro k v s
    rw [exec_mgmtRegisterWrite (by omega), State.writeMgmt_droopcnt]
    exact ⟨_, rfl, fun i => getElem_atIndex _ k i _⟩
  case tlimit =>
    intro v s
    rw [exec_mgmtRegisterWrite (by omega), State.writeMgmt_tlimit]
    rfl
  case peer =>
    intro k v s
    rw [exec_mgmtRegisterWrite (by omega), exec_mgmtRegisterWrite (by omega), State.writeMgmt_peerA, State.writeMgmt_peerB]
    exact ⟨⟨_, rfl, fun i => getElem_atIndex _ k i _⟩, ⟨_, rfl, fun i => getElem_atIndex _ k i _⟩⟩
  case merr =>
    intro k v s
    rw [exec_mgmtRegisterWrite (by omega), State.writeMgmt_merr]
    refine ⟨_, rfl, fun i => ?_⟩
    rw [getElem_atIndex, MemCtl.write_eq]
  case myinc =>
    intro v s
    exact congrArg _ (s.writeMyinc_eq v)
  case retirement =>
    intro k i v e s he
    rw [exec_mgmtRegisterWrite (by omega), State.writeMgmt_retirement]
    refine ⟨fun hv => ⟨_, by rw [if_pos hv], ?_, fun j hj => ?_⟩, fun hv => by rw [if_neg (ne_true_of_eq_false hv)]⟩
    · rw [getElem_atIndex, if_pos rfl]
      exact MemCtl.find?_clearV he
    · rw [getElem_atIndex, if_neg hj]
  case takeover =>
    intro core s others
    rw [exec_serviceCoreTakeover]
    exact ⟨fun h => ⟨_, by rw [if_neg (Nat.not_lt.mpr h)], fun i => getLsbD_without_core _ core i⟩, fun h => by rw [if_pos h]⟩
  case firmware =>
    intro s
    rw [exec_firmwareSwitch]
    exact ⟨fun h => by rw [if_neg h], fun h => by rw [if_pos h]; exact congrArg _ (State.raiseMin_eq _)⟩

/-- Settles O55: each table holds one value at every entry, and the rest is reset's own record. -/
theorem resetLeavesTheMachineAsSpecified : Obligations.ResetLeavesTheMachineAsSpecified := by
  unfold Obligations.ResetLeavesTheMachineAsSpecified
  refine ⟨?memory, fun _ => rfl, ?contexts, ?pawns, rfl, rfl, rfl, ?hbmStacks, ?columns, ?diesAndPorts, ?peers, rfl, rfl⟩
  case memory => exact Memory.wf_iff.mpr ⟨rfl, fun e he => absurd he List.not_mem_nil⟩
  case contexts =>
    intro c hc
    obtain rfl : c = Context.reset := by simpa [State.reset] using hc
    refine ⟨rfl, Context.reset_getX, ?eight, ?sixteen, Context.reset_mb, Context.reset_chans, rfl, rfl, rfl, rfl, rfl, rfl, rfl,
      Context.reset_nest, ?streams⟩
    case eight =>
      intro r
      rw [Context.reset_b]
      exact ⟨Context.reset_getP r, rfl, Context.reset_tok r, Context.reset_getM r⟩
    case sixteen =>
      intro r
      rw [Context.reset_q]
      exact ⟨Context.reset_getA r, Context.reset_s r, Context.reset_getH r, rfl, rfl, rfl⟩
    case streams => exact fun st => by rw [Context.reset_strm]; rfl
  case pawns =>
    intro k
    rw [State.reset_pawn]
    exact ⟨rfl, rfl, State.reset_ly k⟩
  case hbmStacks => exact fun i => by simp [State.reset]
  case columns =>
    intro i
    rw [State.reset_columns]
    exact ⟨rfl, rfl⟩
  case diesAndPorts => exact fun i => by simp [State.reset]
  case peers => exact fun i => by simp [State.reset]

end Sys2Proof.Proofs
end

section
/-! SUPPORT. What the retirement of an HBM channel leaves in memory (R18, R21). -/

namespace Sys2Proof.Machine

/-- The end of a repair touches the lists of repairs only. -/
theorem State.repaired_mem (s : State) (r : Repair) : (s.repaired r).mem = s.mem := by
  unfold State.repaired
  dsimp only
  split <;> rfl

/-- The memory that a channel's retirement leaves (R18): the entries of at most 2 GiB of the new place are gone from the list of bytes. -/
theorem exec_hbmChannelRetire_mem {stack chan src dst bytes : Nat} {s t : State}
    (found : s.repairing.find? (isChannel stack chan) = some (.hbmChannel stack chan src dst bytes)) (hstack : stack < 12) (hchan : chan < 32)
    (fresh : (stack, chan) ∉ s.retiredChans) (ht : exec (.hbmChannelRetire stack chan) s = .next t) :
    t.mem = s.mem.filter (fun e => !(decide (dst ≤ e.1) && decide (e.1 < dst + min bytes (2 ^ 31)))) := by
  have arm : exec (.hbmChannelRetire stack chan) s = execHbmChannelRetire stack chan s := rfl
  have serves : ¬(12 ≤ stack ∨ 32 ≤ chan ∨ s.retiredChans.contains (stack, chan) = true) := by
    rw [List.contains_iff_mem]
    exact fun refused => refused.elim (Nat.not_le.mpr hstack) (fun r => r.elim (Nat.not_le.mpr hchan) fresh)
  rw [arm, execHbmChannelRetire, found] at ht
  simp only [if_neg serves, Host.Outcome.next.injEq] at ht
  rw [← ht, State.repaired_mem]
  rfl

end Sys2Proof.Machine
end

section
/-! PROOFS. The obligations of spec/01_package.md. -/

namespace Sys2Proof.Proofs

open Sys2Proof.Machine

/-- Refutes O39 at its clause of retired HBM channels, which asks for no canonical memory. In the list of bytes below the keys fall: byte
0x10000 stands behind byte 0x10040, where a read, which stops at the first larger key, does not find it and answers 0. The channel's contents
move to 0x10040, the entry there goes, and 0x10000, outside the new place, then reads 4. -/
theorem not_repairEventsKeepWhatTheyMove : ¬ Obligations.RepairEventsKeepWhatTheyMove := by
  unfold Obligations.RepairEventsKeepWhatTheyMove
  intro h
  obtain ⟨-, ⟨-, channelRetire, -⟩, -⟩ := h
  let s : State := { State.reset with mem := [(0x10040, 9), (0x10000, 4)], repairing := [.hbmChannel 11 31 0x20000 0x10040 64] }
  have found : s.repairing.find? (isChannel 11 31) = some (.hbmChannel 11 31 0x20000 0x10040 64) := rfl
  have fresh : (11, 31) ∉ s.retiredChans := List.not_mem_nil
  obtain ⟨t, ht, -, -, -, reads, -⟩ := channelRetire 11 31 0x20000 0x10040 64 s found (by decide) (by decide) fresh
  have before : s.mem.read 0x10000 = 0 := rfl
  have after : t.mem.read 0x10000 = 4 := by
    rw [exec_hbmChannelRetire_mem found (by decide) (by decide) fresh ht]
    rfl
  have stands : t.mem.read 0x10000 = s.mem.read 0x10000 := (reads 0x10000).trans (if_neg (by decide))
  rw [after, before] at stands
  exact absurd stands (by decide)

end Sys2Proof.Proofs
end

section
/-! SUPPORT. What loss of power leaves in memory (R58). -/

namespace Sys2Proof.Machine

/-- Loss of power keeps, of the list of bytes, the entries of the stores outside the package (R58). -/
theorem exec_powerFail_mem {s t : State} (ht : exec .powerFail s = .next t) :
    t.mem = s.mem.filter (fun e => decide (2 ^ 57 ≤ e.1) && decide (e.1 < 2 ^ 63)) := by
  have arm : exec .powerFail s = execPowerFail s := rfl
  rw [arm, execPowerFail, Host.Outcome.next.injEq] at ht
  rw [← ht]

end Sys2Proof.Machine
end

section
/-! SUPPORT. What replays, acknowledgements and retries of the links leave (R38, R40 to R42). -/

namespace Sys2Proof.Machine

/-! ### Entries of a vector, and the cores by site -/

/-- A vector changed at a number that need not be one of its indices, entry by entry. -/
theorem getElem_atIndex_nat {α : Type} {n : Nat} (v : Vector α n) (k : Nat) (i : Fin n) (f : α → α) :
    (atIndex v k f)[i] = if i.val = k then f v[i] else v[i] := by
  simp [atIndex]

/-- The entry of an index, looked up in the list. -/
theorem toList_getElem?_fin {α : Type} {n : Nat} (v : Vector α n) (k : Fin n) : v.toList[k.val]? = some v[k] := by
  simp

/-- A core replaced changes the cores and their contexts only. -/
theorem State.putBox_frame (s : State) (site : Nat) (b : CoreBox) : s.putBox site b = { s with
    core := (s.putBox site b).core, ctx := (s.putBox site b).ctx, octx := (s.putBox site b).octx, cores := (s.putBox site b).cores } := by
  unfold State.putBox
  split <;> rfl

/-! ### Excused waits and replays (R38, R47, R88) -/

/-- Excused waits are noted in the contexts only, and in the one in focus only among the delays. -/
theorem State.excuseTags_frame (s : State) (tags : List Nat) (to_ : Nat) :
    ∃ slow octx cores, s.excuseTags tags to_ = { s with ctx := { s.ctx with slow := slow }, octx := octx, cores := cores } := by
  refine List.foldlRecOn (motive := fun (t : State) => ∃ slow octx cores, t = { s with
    ctx := { s.ctx with slow := slow }, octx := octx, cores := cores }) _ _ ⟨s.ctx.slow, s.octx, s.cores, rfl⟩ ?_
  rintro _ ⟨slow, octx, cores, rfl⟩ a -
  by_cases here : a.site = s.site
  · rw [State.putBox, if_pos here, State.boxAt, if_pos here, State.hereBox]
    cases s.cx <;> cases a.cx <;> exact ⟨_, _, _, rfl⟩
  · simp [State.putBox, here]

/-- A port held for a replay: what it has sent is answered so much later. -/
def LinkPort.replayed (p : LinkPort) (now : Nat) : LinkPort :=
  { p with heldTo := max p.heldTo (now + 875), replayTo := now + 875
           store := p.store.map (fun t => { t with ansAt := t.ansAt.map (fun a => if a ≤ now then a else a + 875) }) }

/-- A replay changes its port, and what contexts note of their waits. -/
theorem exec_linkFlitReplay (port : Nat) (s : State) : ∃ slow octx cores, exec (.linkFlitReplay port) s = .next { s with
    ports := atIndex s.ports port (fun p => p.replayed s.cycle), ctx := { s.ctx with slow := slow }, octx := octx, cores := cores } := by
  have arm : exec (.linkFlitReplay port) s = execLinkFlitReplay port s := rfl
  rw [arm, execLinkFlitReplay]
  cases hp : s.ports.toList[port]? with
  | none =>
    have beyond : 18 ≤ port := by simpa using hp
    have same : atIndex s.ports port (fun p => p.replayed s.cycle) = s.ports := by
      ext i hi
      rw [atIndex, Vector.getElem_mapIdx, if_neg (by omega)]
    exact ⟨s.ctx.slow, s.octx, s.cores, by rw [same]⟩
  | some p =>
    obtain ⟨slow, octx, cores, h⟩ :=
      (s.onPort port (fun p => p.replayed s.cycle)).excuseTags_frame p.ownTags (s.cycle + 875)
    exact ⟨slow, octx, cores, congrArg _ h⟩

/-! ### Transactions handed to their port (R39, R40) -/

/-- When a port sends a transaction that it is handed at once: it is in service and not held, has room, and nothing waits at it for the chip. -/
theorem LinkPort.sendsAtOnce_iff (p : LinkPort) (t : LinkTxn) (now : Nat) :
    (p.maySend t.chip now && !p.waiting.any (fun u => u.chip == t.chip)) = true ↔ p.inService = true ∧ p.heldTo ≤ now ∧ p.store.length < 8192 ∧
      (p.store.filter (fun u => u.chip == t.chip)).length < 512 ∧ ∀ y ∈ p.waiting, y.chip ≠ t.chip := by
  have room : p.roomFor t.chip = (decide (p.store.length < 8192) && decide ((p.store.filter (fun u => u.chip == t.chip)).length < 512)) := rfl
  simp [LinkPort.maySend, room, and_assoc]

/-- No request is made to a chip that may not be reached. -/
theorem exec_linkTransactionSend_unreachable {chip : Nat} {s : State}
    (h : (s.peerOf chip).valid = false ∨ (s.peerOf chip).lost = true ∨ s.peerUp chip = false) (frame tag : Nat) :
    exec (.linkTransactionSend chip frame tag) s = .next s := by
  have arm : exec (.linkTransactionSend chip frame tag) s = execLinkTransactionSend chip frame tag s := rfl
  rw [arm, execLinkTransactionSend, if_pos]
  rcases h with h | h | h <;> simp [h]

/-- Traffic to a chip that may be reached is handed to the port chosen for it. -/
theorem exec_linkTransactionSend {chip frame tag : Nat} {port : Fin 18} {s : State} (chosen : s.portFor chip frame = some port.val)
    (valid : (s.peerOf chip).valid = true) (kept : (s.peerOf chip).lost = false) (up : s.peerUp chip = true) :
    exec (.linkTransactionSend chip frame tag) s =
      .next { s with ports := atIndex s.ports port.val (fun p => p.offer (LinkTxn.fresh chip frame tag none none) s.cycle s.dt) } := by
  have arm : exec (.linkTransactionSend chip frame tag) s = execLinkTransactionSend chip frame tag s := rfl
  rw [arm, execLinkTransactionSend, valid, kept, up, State.offerLink, LinkTxn.fresh, chosen]
  rfl

/-! ### Acknowledgements (R40) -/

/-- The tracking of a source is that source's. -/
theorem State.source_names (s : State) (chip port : Nat) : (s.source chip port).chip = chip ∧ (s.source chip port).port = port := by
  unfold State.source
  cases h : s.sources.find? (fun q => q.chip == chip && q.port == port) with
  | none => exact ⟨rfl, rfl⟩
  | some q => simpa using List.find?_some h

/-- The tracking that is put for a source is found. -/
theorem State.source_putSource (s : State) {q : LinkSrc} {chip port : Nat} (hc : q.chip = chip) (hp : q.port = port) :
    (s.putSource q).source chip port = q := by
  subst hc hp
  have gone : (s.sources.filter (fun r => !(r.chip == q.chip && r.port == q.port))).find? (fun r => r.chip == q.chip && r.port == q.port) = none := by
    refine List.find?_eq_none.mpr (fun r hr => ?_)
    simpa only [Bool.not_eq_true, Bool.not_eq_true'] using (List.mem_filter.mp hr).2
  rw [State.source, State.putSource, List.find?_append, gone]
  simp

/-- A source that is owed an acknowledgement is told how far its numbers go. -/
theorem exec_linkAckSend (chip port : Nat) (s : State) : let q := s.source chip port
    exec (.linkAckSend chip port) s =
      .next (if q.owed = 0 then s else (s.putSource { q with owed := 0 }).notify (.ack chip port q.high)) := rfl

/-- The answers that acknowledged transactions carry are noted at the entries of requests only. -/
theorem State.answerTxns_frame (s : State) (ts : List LinkTxn) (refused : List (BitVec 32 × PeerRefusal)) :
    s.answerTxns ts refused = { s with net := (s.answerTxns ts refused).net } := by
  suffices h : ∃ net, s.answerTxns ts refused = { s with net := net } by
    obtain ⟨net, h⟩ := h
    rw [h]
  refine List.foldlRecOn (motive := fun (t : State) => ∃ net, t = { s with net := net }) _ _ ⟨s.net, rfl⟩ ?_
  rintro _ ⟨net, rfl⟩ t -
  cases t.ansAt with
  | none => exact ⟨net, rfl⟩
  | some a => exact ⟨_, rfl⟩

/-- The access that one acknowledged transaction carries is answered once its latency is over, or refused. -/
theorem State.answerTxns_singleton_net (s : State) {x : LinkTxn} {a : Nat} (carries : x.ansAt = some a) (refused : List (BitVec 32 × PeerRefusal)) :
    (s.answerTxns [x] refused).net = s.net.map (fun b => if b.live = true ∧ b.tag = x.tag then
      { b with answer := some (max a s.cycle, (refused.find? (fun r => r.1 == x.seq)).map (fun r => refusalCause r.2)) } else b) := by
  simp [State.answerTxns, State.answerAccess, carries]

/-- An acknowledgement takes the transactions that it covers out of the port's store, and answers what they carry. -/
theorem exec_linkAckReceive (port : Fin 18) (chip : Nat) (ack : LinkAck) (s : State) :
    let hit := fun (t : LinkTxn) => t.chip == chip && seqUpTo t.seq ack.seq
    exec (.linkAckReceive port.val chip ack) s =
      .next (((s.dropResponses (s.ports[port].store.filter hit)).onPort port.val (fun p =>
        { p with store := p.store.filter (fun t => !hit t) })).answerTxns (s.ports[port].store.filter hit) ack.refused) := by
  intro hit
  have arm : exec (.linkAckReceive port.val chip ack) s = execLinkAckReceive port.val chip ack s := rfl
  rw [arm, execLinkAckReceive, toList_getElem?_fin]

/-! ### Retries (R40 to R42) -/

/-- The transaction of a number, in the store of its port. -/
theorem State.txn_eq (s : State) (port : Fin 18) (seq : BitVec 32) : s.txn port.val seq = s.ports[port].store.find? (fun t => t.seq == seq) := by
  rw [State.txn, toList_getElem?_fin, Option.bind_some]

/-- A transaction of a number sent again, in its store. -/
def LinkPort.resent (p : LinkPort) (seq : BitVec 32) (now dt : Nat) : LinkPort :=
  { p with store := p.store.map (fun u =>
      if u.seq = seq then { u with resends := u.resends + 1, sentDt := dt, ansAt := u.lat.map (fun n => now + n) } else u) }

section
variable {port : Fin 18} {seq : BitVec 32} {x : LinkTxn} {s : State}

/-- An overdue transaction is sent again while its resends last. -/
theorem exec_linkResend (found : s.ports[port].store.find? (fun t => t.seq == seq) = some x) (due : x.sentDt + 4000 ≤ s.dt) (left : x.resends < 3) :
    exec (.linkResend port.val seq) s =
      .next ((s.onPort port.val (fun p => p.resent seq s.cycle s.dt)).excuseTags [x.tag] (s.cycle + 7000)) := by
  have arm : exec (.linkResend port.val seq) s = execLinkResend port.val seq s := rfl
  rw [arm, execLinkResend, State.txn_eq, found]
  simp only [LinkTxn.overdue, due, decide_true, Bool.not_true, Bool.false_or, decide_eq_true_eq, Nat.not_le.mpr left, if_false]
  rfl

/-- The state in which a port has given up on a transaction, and every port on what waits for its chip. -/
def State.gaveUp (s : State) (port : Nat) (seq : BitVec 32) (x : LinkTxn) : State :=
  { s.dropResponses [x] with
    peers := atIndex s.peers x.chip (fun p => { p with lost := true })
    ports := (atIndex s.ports port (fun p =>
      { p with store := p.store.filter (fun u => !(u.seq == seq)), lostTags := p.lostTags ++ [x.tag] })).map (fun p =>
        { p with waiting := p.waiting.filter (fun u => !decide (u.chip = x.chip)) }) }

/-- The port keeps nothing under the number, and notes the tag. -/
theorem State.gaveUp_port (s : State) (port : Fin 18) (seq : BitVec 32) (x : LinkTxn) :
    (∀ u ∈ (s.gaveUp port.val seq x).ports[port].store, u.seq ≠ seq) ∧
      (s.gaveUp port.val seq x).ports[port].lostTags = s.ports[port].lostTags ++ [x.tag] := by
  have left : (s.gaveUp port.val seq x).ports[port] = { s.ports[port] with
      store := s.ports[port].store.filter (fun u => !(u.seq == seq)), lostTags := s.ports[port].lostTags ++ [x.tag]
      waiting := s.ports[port].waiting.filter (fun u => !decide (u.chip = x.chip)) } := by
    simp [State.gaveUp, atIndex]
  rw [left]
  exact ⟨fun u hu => by simpa using (List.mem_filter.mp hu).2, rfl⟩

/-- Nothing waits for the chip. -/
theorem State.gaveUp_waiting (s : State) (port i : Fin 18) (seq : BitVec 32) (x : LinkTxn) :
    ∀ u ∈ (s.gaveUp port.val seq x).ports[i].waiting, u.chip ≠ x.chip := by
  intro u hu
  simp only [State.gaveUp, Fin.getElem_fin, Vector.getElem_map, List.mem_filter] at hu
  simpa using hu.2

/-- The accesses that some transactions carry fault with PEERLOST. -/
def State.failCarried (s : State) (l : List LinkTxn) : State :=
  l.foldl (fun s u => if u.lat.isSome then s.endAccess u.tag (some .peerlost) else s) s

/-- An overdue transaction whose resends are spent is given up, with what waits for its chip. -/
theorem exec_linkRetryExhausted (found : s.ports[port].store.find? (fun t => t.seq == seq) = some x) (due : x.sentDt + 4000 ≤ s.dt)
    (spent : 3 ≤ x.resends) : ∃ held, exec (.linkRetryExhausted port.val seq) s =
      .next ((((s.gaveUp port.val seq x).failCarried (x :: held)).failColls x.chip .peerlost).dropHolder x.chip) := by
  have arm : exec (.linkRetryExhausted port.val seq) s = execLinkRetryExhausted port.val seq s := rfl
  rw [arm, execLinkRetryExhausted, State.txn_eq, found]
  simp only [LinkTxn.overdue, due, decide_true, Bool.not_true, Bool.false_or, decide_eq_true_eq, Nat.not_lt.mpr spent, if_false]
  exact ⟨_, rfl⟩

end

/-- Accesses that fault reach their entries, cores and contexts, and the completions that the host is to give. -/
theorem State.failCarried_frame (s : State) (l : List LinkTxn) : ∃ net core ctx octx cores hostErrors, s.failCarried l = { s with
    net := net, core := core, ctx := ctx, octx := octx, cores := cores, hostErrors := hostErrors } := by
  refine List.foldlRecOn (motive := fun (t : State) => ∃ net core ctx octx cores hostErrors, t = { s with
    net := net, core := core, ctx := ctx, octx := octx, cores := cores, hostErrors := hostErrors }) _ _
    ⟨s.net, s.core, s.ctx, s.octx, s.cores, s.hostErrors, rfl⟩ ?_
  rintro _ ⟨net, core, ctx, octx, cores, hostErrors, rfl⟩ u -
  split
  · rw [State.endAccess_frame]
    exact ⟨_, _, _, _, _, _, rfl⟩
  · exact ⟨_, _, _, _, _, _, rfl⟩

/-! ### The fault of a pending token (R42) -/

/-- The cause of the fault that a pending token has met. -/
def Context.tokFault (c : Context) (k : Fin 8) : Option Cause := (c.tok[k].bind (fun y => y.fault)).map (fun f => f.1)

/-- An access that fails faults the tokens of its creation number. -/
theorem Context.failAccess_tok (c : Context) (serial pos : Nat) (cause : Cause) (k : Fin 8) : (c.failAccess serial pos cause).tok[k] =
    c.tok[k].map (fun y => if y.serial = serial then { y with fault := some (cause, y.op.netAddr) } else y) := by
  simp [Context.failAccess]

theorem Context.tokFault_failAccess_of_serial {c : Context} {k : Fin 8} {y : TokPend} (hy : c.tok[k] = some y) (pos : Nat) (cause : Cause) :
    (c.failAccess y.serial pos cause).tokFault k = some cause := by
  rw [Context.tokFault, Context.failAccess_tok, hy]
  simp

theorem Context.tokFault_failAccess_of_faulted {c : Context} {k : Fin 8} {cause : Cause} (h : c.tokFault k = some cause) (serial pos : Nat) :
    (c.failAccess serial pos cause).tokFault k = some cause := by
  rw [Context.tokFault, Context.failAccess_tok]
  rw [Context.tokFault] at h
  cases hy : c.tok[k] with
  | none => simp [hy] at h
  | some y =>
    simp only [hy, Option.bind_some] at h
    by_cases hs : y.serial = serial
    · simp [hs]
    · simpa [hs] using h

/-- An access of this site that fails, fails in the context in focus; one of another site leaves it. -/
theorem State.endAccess_ctx {s : State} {tag : Nat} {a : NetAcc} (cause : Cause)
    (found : s.net.find? (fun a => a.live && decide (a.tag = tag)) = some a) :
    (s.endAccess tag (some cause)).ctx = if a.site = s.site then s.ctx.failAccess a.serial a.pos cause else s.ctx := by
  rw [State.endAccess, found]
  by_cases here : a.site = s.site
  · cases hc : s.cx <;> simp [State.hostAnswer, State.putBox, State.boxAt, State.hereBox, here, hc]
  · simp [State.hostAnswer, State.putBox, here]

/-- A token that has met a fault keeps its cause while more accesses fault with it. -/
theorem State.endAccess_tokFault {s : State} {k : Fin 8} {cause : Cause} (h : s.ctx.tokFault k = some cause) (tag : Nat) :
    (s.endAccess tag (some cause)).ctx.tokFault k = some cause := by
  cases found : s.net.find? (fun a => a.live && decide (a.tag = tag)) with
  | none => rwa [State.endAccess, found]
  | some a =>
    rw [State.endAccess_ctx cause found]
    split
    · exact Context.tokFault_failAccess_of_faulted h a.serial a.pos
    · exact h

theorem State.failCarried_tokFault {s : State} {k : Fin 8} (h : s.ctx.tokFault k = some .peerlost) (l : List LinkTxn) :
    (s.failCarried l).ctx.tokFault k = some .peerlost := by
  refine List.foldlRecOn (motive := fun (t : State) => t.ctx.tokFault k = some .peerlost) _ _ h ?_
  intro t ht u _
  split
  · exact State.endAccess_tokFault ht u.tag
  · exact ht

/-- The access that the first of some transactions carries, one of the context in focus, faults its token with PEERLOST. -/
theorem State.failCarried_faults {s : State} {x : LinkTxn} {a : NetAcc} {k : Fin 8} {y : TokPend} (carries : x.lat.isSome = true)
    (found : s.net.find? (fun a => a.live && decide (a.tag = x.tag)) = some a) (here : a.site = s.site) (hy : s.ctx.tok[k] = some y)
    (serial : y.serial = a.serial) (held : List LinkTxn) : (s.failCarried (x :: held)).ctx.tokFault k = some .peerlost := by
  have first : (s.endAccess x.tag (some .peerlost)).ctx.tokFault k = some .peerlost := by
    rw [State.endAccess_ctx .peerlost found, if_pos here, ← serial]
    exact Context.tokFault_failAccess_of_serial hy a.pos .peerlost
  rw [State.failCarried, List.foldl_cons, if_pos carries]
  exact State.failCarried_tokFault first held

end Sys2Proof.Machine
end

section
/-! SUPPORT. What requests, invalidations and announcements of peers, and the steps of collectives leave (R41, R43, R49, R124, R137). -/

namespace Sys2Proof.Machine

open Sys2Proof.Claims

/-! ### Answers to peers (R40, R41) -/

/-- An answer as a notice: a response with its data, or the cause of a refusal. -/
def answerNotice (r : PeerReq) : Option Cause → List (BitVec 8) → Notice
  | some c, _ => .refused r.chip r.port r.seq c
  | none, data => .response r.chip r.port r.seq data

theorem State.sendAnswer_eq (s : State) (r : PeerReq) (refusal : Option Cause) (data : List (BitVec 8)) :
    s.sendAnswer r refusal data = { s with notices := s.notices ++ [answerNotice r refusal data] } := by
  cases refusal <;> rfl

/-- A response is kept with its source, handed to a port, and told. -/
theorem State.respond_frame (s : State) (r : PeerReq) (refusal : Option Cause) (data : List (BitVec 8)) :
    ∃ ports sources, s.respond r refusal data = { s with
      ports := ports, sources := sources, notices := s.notices ++ [answerNotice r refusal data] } := by
  unfold State.respond
  rw [State.sendAnswer_eq, State.offerLink_frame]
  exact ⟨_, _, rfl⟩

/-- A request whose packets have come back without a fault is answered as its home has served it. -/
theorem State.answerPeer_eq {s : State} {j : PeerJob} {p : PktSpec} {refusal : Option Cause} {data : List (BitVec 8)}
    (ended : s.peerEnded = some (j, (p, none))) (served : j.ans = some (refusal, data)) :
    s.answerPeer = ({ s with
      peerJobs := s.peerJobs.erase j, mesh := { s.mesh with ended := s.mesh.ended.erase (p, none) } } : State).respond j.req refusal data := by
  rw [State.answerPeer, ended]
  dsimp only
  rw [served]

/-! ### Requests accepted (R41) -/

/-- Numbers drawn in leave the source's name. -/
theorem LinkSrc.draw_names (n : Nat) (q : LinkSrc) : (q.draw n).chip = q.chip ∧ (q.draw n).port = q.port := by
  induction n generalizing q with
  | zero => exact ⟨rfl, rfl⟩
  | succ n ih =>
    rw [LinkSrc.draw]
    split
    · exact ih _
    · exact ⟨rfl, rfl⟩

theorem LinkSrc.accept_names (q : LinkSrc) (seq : BitVec 32) (dt : Nat) : (q.accept seq dt).chip = q.chip ∧ (q.accept seq dt).port = q.port :=
  LinkSrc.draw_names 512 _

section
variable {r : PeerReq} {s : State}

/-- Before the announcement nothing is received. -/
theorem exec_peerRequestReceive_early (early : s.announced = false) : exec (.peerRequestReceive r) s = .next s := by
  have arm : exec (.peerRequestReceive r) s = execPeerRequestReceive r s := rfl
  rw [arm, execPeerRequestReceive, if_pos (by simp [early])]

/-- A request that carries another incarnation is refused. -/
theorem exec_peerRequestReceive_reset (told : s.announced = true) (other : r.inc ≠ s.myInc) :
    exec (.peerRequestReceive r) s = .next (s.notify (.refused r.chip r.port r.seq .peerreset)) := by
  have arm : exec (.peerRequestReceive r) s = execPeerRequestReceive r s := rfl
  rw [arm, execPeerRequestReceive, if_neg (by simp [told]), if_pos other]

/-- A request that has been accepted before is answered again from what is kept, if anything is. -/
theorem exec_peerRequestReceive_again (told : s.announced = true) (inc : r.inc = s.myInc)
    (again : 512 ≤ (s.source r.chip r.port).offset r.seq ∨ r.seq ∈ (s.source r.chip r.port).above) :
    exec (.peerRequestReceive r) s = .next { s with notices := s.notices ++
      (((s.source r.chip r.port).responses.find? (fun x => x.1 == r.seq)).map (fun x => answerNotice r x.2.1 x.2.2)).toList } := by
  have arm : exec (.peerRequestReceive r) s = execPeerRequestReceive r s := rfl
  have known : (decide (512 ≤ (s.source r.chip r.port).offset r.seq) || (s.source r.chip r.port).above.contains r.seq) = true := by
    simpa using again
  rw [arm, execPeerRequestReceive, if_neg (by simp [told]), if_neg (not_not.mpr inc)]
  dsimp only
  rw [if_pos known]
  cases (s.source r.chip r.port).responses.find? (fun x => x.1 == r.seq) with
  | none => simp
  | some x => exact congrArg _ (State.sendAnswer_eq ..)

/-- A request within the window, and not met before, is accepted and started. -/
theorem exec_peerRequestReceive_new (told : s.announced = true) (inc : r.inc = s.myInc) (within : (s.source r.chip r.port).offset r.seq < 512)
    (new : r.seq ∉ (s.source r.chip r.port).above) :
    exec (.peerRequestReceive r) s = .next ((s.putSource ((s.source r.chip r.port).accept r.seq s.dt)).peerStart r) := by
  have arm : exec (.peerRequestReceive r) s = execPeerRequestReceive r s := rfl
  rw [arm, execPeerRequestReceive]
  simp [told, inc, Nat.not_le.mpr within, new]

/-- An invalidation drops the copies held here, and is answered. -/
theorem State.peerStart_inval {f : Nat} (op : r.op = .inval f) : s.peerStart r = (s.peerInval r.chip f).respond r none [] := by
  rw [State.peerStart, op]

/-- A request that no partition's map grants is refused. -/
theorem State.peerStart_refused (op : ∀ f, r.op ≠ .inval f) (owner : s.peerOwner r.op = none) : s.peerStart r = s.respond r (some .prot) [] := by
  rw [State.peerStart]
  split
  · exact absurd ‹_› (op _)
  · rw [owner]

/-- A request that a map grants goes to its home, as a packet of its own. -/
theorem State.peerStart_granted {pid : Nat} (op : ∀ f, r.op ≠ .inval f) (owner : s.peerOwner r.op = some pid) :
    ∃ m, s.peerStart r = { s with
      serial := s.serial + 1, netNext := s.netNext + 2, mesh := m
      peerJobs := s.peerJobs ++ [{ tag := s.netNext, serial := s.serial, req := r, ans := none }] } := by
  rw [State.peerStart]
  split
  · exact absurd ‹_› (op _)
  · rw [owner]
    exact ⟨_, rfl⟩

/-- Bytes that name no storage, or that no map grants, have no owner. -/
theorem State.peerOwner_eq_none {op : PeerOp} (h : s.ownerOf (peerBytes op).1 (peerBytes op).2.1 (peerBytes op).2.2 = none ∨
    s.names (peerBytes op).2.1 = false) : s.peerOwner op = none := by
  unfold State.peerOwner
  rcases h with h | h <;> simp [h]

/-- Bytes of storage in service belong to the partition whose map grants them. -/
theorem State.peerOwner_eq_some {op : PeerOp} {pid : Nat} (owner : s.ownerOf (peerBytes op).1 (peerBytes op).2.1 (peerBytes op).2.2 = some pid)
    (named : s.names (peerBytes op).2.1 = true) (on : s.sliceOff (peerBytes op).2.1 = false) : s.peerOwner op = some pid := by
  unfold State.peerOwner
  simp [owner, named, on]

end

/-! ### Requests at their homes (R124, R136, R137, R150, R189) -/

/-- A corrected error is counted and listed only. -/
theorem State.noteCorrected_frame (s : State) (line : Nat) :
    ∃ corrections memctl, s.noteCorrected line = { s with corrections := corrections, memctl := memctl } := by
  unfold State.noteCorrected
  dsimp only
  split <;> exact ⟨_, _, rfl⟩

/-- Errors corrected are counted, listed, and gone; nothing else changes. -/
theorem State.correct_frame (s : State) (key n : Nat) :
    ∃ corrections memctl flips, s.correct key n = { s with corrections := corrections, memctl := memctl, flips := flips } := by
  unfold State.correct
  dsimp only
  split
  · exact ⟨s.corrections, s.memctl, s.flips, rfl⟩
  · refine List.foldlRecOn (motive := fun (t : State) => ∃ corrections memctl flips, t = { s with
      corrections := corrections, memctl := memctl, flips := flips }) _ _ ⟨s.corrections, s.memctl, _, rfl⟩ ?_
    rintro _ ⟨corrections, memctl, flips, rfl⟩ w -
    obtain ⟨c, m, h⟩ := State.noteCorrected_frame { s with corrections := corrections, memctl := memctl, flips := flips } (w / 64 * 64)
    exact ⟨c, m, flips, h⟩

@[simp] theorem State.correct_mem (s : State) (key n : Nat) : (s.correct key n).mem = s.mem := by
  obtain ⟨c, m, f, h⟩ := s.correct_frame key n; rw [h]
@[simp] theorem State.correct_part (s : State) (key n : Nat) : (s.correct key n).part = s.part := by
  obtain ⟨c, m, f, h⟩ := s.correct_frame key n; rw [h]

/-- A read of a frame may gain it a holder, and changes nothing else. -/
theorem State.replRead_frame (s : State) (die frame : Nat) : s.replRead die frame = { s with part := (s.replRead die frame).part } := by
  unfold State.replRead
  dsimp only
  split <;> rfl

@[simp] theorem State.replRead_mem (s : State) (die frame : Nat) : (s.replRead die frame).mem = s.mem := by rw [State.replRead_frame]

/-- Without writes that wait, an atomic finds what memory holds. -/
theorem State.homeBytes_of_idle {s : State} (idle : s.part.replWrites = []) (key n : Nat) : s.homeBytes key n = s.mem.readBytes key n := by
  simp [State.homeBytes, State.bytesWith, idle]

section
variable {s : State} {pa : Nat} (unheld : s.part.holders.getD (pa / 65536) [] = []) (idle : s.part.replWrites = [])
include unheld idle

/-- A write to a frame without holders or waiting writes is performed at once. -/
theorem State.peerWrite_of_unheld (chip serial : Nat) (bs : List (BitVec 8)) : s.peerWrite chip serial pa bs = s.writeList pa bs := by
  simp [State.peerWrite, State.frameWrite, unheld, idle]

/-- An atomic on a word that is not in error finds what memory holds, and what it computes is written at once. -/
theorem State.peerAtomic_of_unheld {n : Nat} (whole : s.readBad pa n = false) (chip serial : Nat) (f : Nat → Option Nat) :
    let old := leNat (s.mem.readBytes pa n)
    let res := s.peerAtomic chip serial pa n f
    res.1.mem = ((f old).map (fun v => s.mem.writeBytes pa (leBytes n v))).getD s.mem ∧
      res.2 = .ok (leBytes n old) := by
  intro old res
  have found : leNat ((s.correct pa n).homeBytes pa n) = old := by rw [State.homeBytes_of_idle (by simp [idle]), State.correct_mem]
  have written := State.peerWrite_of_unheld (s := s.correct pa n) (pa := pa) (by simp [unheld]) (by simp [idle]) chip serial
  simp only [res, State.peerAtomic, whole, Bool.false_eq_true, if_false, found, written]
  cases f old <;> simp [State.writeList]

end

/-- A request that is granted has at its home, on a frame without holders and on words that are not in error, its effect on memory and its
answer. -/
theorem State.peerExec_granted {s : State} {op : PeerOp} {pid : Nat} (chip serial : Nat) (die : Option (Fin 8)) (hop : ∀ f, op ≠ .inval f)
    (owner : s.peerOwner op = some pid) (whole : peerBad s (peerBytes op).2.1 op = false)
    (unheld : (s.focusPart pid).part.holders.getD ((peerBytes op).2.1 / 65536) [] = []) (idle : (s.focusPart pid).part.replWrites = []) :
    let res := s.peerExec chip serial die op
    res.1.mem = (peerEffect s.mem (peerBytes op).2.1 op).1 ∧
      res.2 = .ok (peerEffect s.mem (peerBytes op).2.1 op).2 := by
  intro res
  have mem : (s.focusPart pid).mem = s.mem := s.focusPart_mem pid
  have reads : ∀ k n, (s.focusPart pid).readBad k n = s.readBad k n := fun k n => by simp [State.readBad]
  have writes : ∀ k n, (s.focusPart pid).writeBad k n = s.writeBad k n := fun k n => by simp [State.writeBad]
  simp only [res, State.peerExec, owner]
  generalize s.focusPart pid = u at *
  cases op with
  | read pa n =>
    have whole : u.readBad pa n = false := (reads pa n).trans whole
    simp only [whole, Bool.false_eq_true, if_false]
    cases die <;> simp [peerEffect, peerBytes, mem]
  | write pa d =>
    have whole : u.writeBad pa d.length = false := (writes pa d.length).trans whole
    have written := State.peerWrite_of_unheld (pa := pa) unheld idle chip serial d
    simp [whole, written, peerEffect, peerBytes, State.writeList, mem]
  | sacc pa fn fmt v =>
    have whole : u.readBad pa 4 = false := (reads pa 4).trans whole
    obtain ⟨hmem, hans⟩ := State.peerAtomic_of_unheld (pa := pa) unheld idle whole chip serial
      (fun old => some (saccMerge fn (decide (fmt ≠ fmtFp32)) old [v.toNat % 2 ^ 32]))
    dsimp only
    rw [hmem, hans, mem]
    exact ⟨rfl, rfl⟩
  | scas pa wide cmp new =>
    have whole : u.readBad pa (if wide then 8 else 4) = false := (reads pa _).trans whole
    obtain ⟨hmem, hans⟩ := State.peerAtomic_of_unheld (pa := pa) unheld idle whole chip serial
      (fun old => if old = cmp.toNat % 256 ^ (if wide then 8 else 4) then some new.toNat else none)
    dsimp only
    rw [hmem, hans, mem]
    refine ⟨?_, rfl⟩
    dsimp only [peerEffect, peerBytes]
    generalize (if wide then 8 else 4 : Nat) = n
    split <;> rfl
  | inval f => exact absurd rfl (hop f)

/-! ### Announcements (R43, R138) -/

/-- The chips of a list told this chip's number and incarnation. -/
theorem State.foldl_announce (l : List (Fin 64)) (s : State) : l.foldl (fun s c => s.notify (.announce c.val s.chip.toNat s.myInc)) s =
    { s with notices := s.notices ++ l.map (fun k => .announce k.val s.chip.toNat s.myInc) } := by
  induction l generalizing s with
  | nil => simp
  | cons c l ih =>
    rw [List.foldl_cons, ih]
    simp [State.notify]

/-- Every chip of the peer table is told. -/
theorem exec_incarnationAnnounce (s : State) : exec .incarnationAnnounce s = .next { s with
    announced := true
    notices := s.notices ++ ((List.finRange 64).filter (fun k => s.peers[k].valid)).map (fun k => .announce k.val s.chip.toNat s.myInc) } := by
  have arm : exec .incarnationAnnounce s = execIncarnationAnnounce s := rfl
  rw [arm, execIncarnationAnnounce, State.foldl_announce]

/-- A table with every value changed, read. -/
theorem Tab.find?_map {α : Type} (g : α → α) (t : Tab α) (n : Nat) : Tab.find? (t.map (fun e => (e.1, g e.2))) n = (t.find? n).map g := by
  induction t with
  | nil => rfl
  | cons e r ih =>
    simp only [List.map_cons, Tab.find?, ih]
    split
    · rfl
    · split <;> rfl

/-- A purged TLB has no entry of a remote leaf of the chip. -/
theorem Core.purgePeer_tlb {k : Core} {chip : Nat} {st : Strm} {e : TlbEnt} (he : e ∈ (k.purgePeer chip).tlb st) :
    ¬(e.leaf.tgt.val % 2 = 1 ∧ e.leaf.chip = chip) := by
  rintro ⟨remote, same⟩
  cases st <;> simp [Core.purgePeer, Core.tlb, remote, same] at he

/-- A core with a chip's translations purged. -/
def CoreBox.purgePeer (b : CoreBox) (chip : Nat) : CoreBox := { b with core := b.core.purgePeer chip }

/-- The state with a chip's translations purged in every core. -/
def State.purgePeer (s : State) (chip : Nat) : State :=
  ({ s with cores := s.cores.map (fun e => (e.1, e.2.purgePeer chip)) } : State).putBox s.site (s.hereBox.purgePeer chip)

/-- Each core is purged; one that no entry names has nothing to purge. -/
theorem State.boxAt_purgePeer (s : State) (chip i : Nat) : (s.purgePeer chip).boxAt i = (s.boxAt i).purgePeer chip := by
  rw [State.purgePeer]
  by_cases here : i = s.site
  · rw [here, State.boxAt_putBox, State.boxAt, if_pos rfl]
  · rw [State.boxAt_putBox_ne _ _ here]
    simp only [State.boxAt, if_neg here, Tab.find?_map (fun b : CoreBox => b.purgePeer chip)]
    cases s.cores.find? i <;> rfl

/-- No core has a translation of the chip left. -/
theorem State.purgePeer_tlb {s : State} {chip i : Nat} {st : Strm} {e : TlbEnt} (he : e ∈ ((s.purgePeer chip).boxAt i).core.tlb st) :
    ¬(e.leaf.tgt.val % 2 = 1 ∧ e.leaf.chip = chip) := by
  rw [State.boxAt_purgePeer] at he
  exact Core.purgePeer_tlb he

@[simp] theorem State.purgePeer_mem (s : State) (chip : Nat) : (s.purgePeer chip).mem = s.mem := State.putBox_mem ..
@[simp] theorem State.purgePeer_peers (s : State) (chip : Nat) : (s.purgePeer chip).peers = s.peers := by rw [State.purgePeer, State.putBox_frame]

/-- Of a chip that announces a new incarnation, collectives and copies of frames are given up. -/
def State.dropRestarted (s : State) (chip : Nat) (inc : BitVec 16) : State :=
  if (s.peerOf chip).up && (s.peerOf chip).inc != inc then
    let s := (s.failColls chip .peerreset).dropHolder chip
    { s with part := s.part.dropPeerFrames chip, parts := s.parts.map (fun (e : Nat × Part) => (e.1, e.2.dropPeerFrames chip)) }
  else s

@[simp] theorem State.dropRestarted_mem (s : State) (chip : Nat) (inc : BitVec 16) : (s.dropRestarted chip inc).mem = s.mem := by
  unfold State.dropRestarted; split <;> rfl
@[simp] theorem State.dropRestarted_peers (s : State) (chip : Nat) (inc : BitVec 16) : (s.dropRestarted chip inc).peers = s.peers := by
  unfold State.dropRestarted; split <;> rfl

/-- An announcement writes the incarnation, purges, and sets UP. -/
theorem exec_announcementReceive (chip : Nat) (inc : BitVec 16) (s : State) : exec (.announcementReceive chip inc) s =
    .next (({ s.dropRestarted chip inc with
      peers := atIndex s.peers chip (fun p => { p with inc := inc, up := true }) } : State).purgePeer chip) := by
  have arm : exec (.announcementReceive chip inc) s =
      let p := atIndex (s.dropRestarted chip inc).peers chip (fun p => { p with inc := inc })
      .next { ({ s.dropRestarted chip inc with peers := p } : State).purgePeer chip with
        peers := atIndex p chip (fun p => { p with up := true }) } := rfl
  have once : atIndex (atIndex s.peers chip (fun p => { p with inc := inc })) chip (fun p => { p with up := true }) =
      atIndex s.peers chip (fun p => { p with inc := inc, up := true }) := by
    ext i hi
    simp only [atIndex, Vector.getElem_mapIdx]
    split <;> rfl
  rw [arm, State.dropRestarted_peers]
  dsimp only
  rw [once]
  simp only [State.purgePeer, State.putBox, if_true]
  rfl

/-! ### Collectives (R49, R313) -/

/-- A collective changed is found changed, and the others stand. -/
theorem State.find?_onColl {s : State} {id : Nat} {k : Coll} (found : s.colls.find? (fun c => c.id == id) = some k) {f : Coll → Coll}
    (keeps : ∀ c, (f c).id = c.id) : (s.onColl id f).colls.find? (fun c => c.id == id) = some (f k) := by
  have same : ((fun c : Coll => c.id == id) ∘ fun c => if c.id = id then f c else c) = fun c => c.id == id := by
    funext c
    by_cases h : c.id = id <;> simp [h, keeps]
  have hk : k.id = id := by simpa using List.find?_some found
  rw [State.onColl, List.find?_map, same, found, Option.map_some, if_pos hk]

theorem State.mem_onColl_of_ne {s : State} {id : Nat} {f : Coll → Coll} {c : Coll} (hc : c ∈ s.colls) (ne : c.id ≠ id) :
    c ∈ (s.onColl id f).colls :=
  List.mem_map.mpr ⟨c, hc, if_neg ne⟩

theorem Coll.refuse_of_whole {k : Coll} (whole : k.fault = none) : k.refuse = { k with fault := some .prot } := by
  rw [Coll.refuse, whole, Option.getD_none]

section
variable {s : State} {coll : Nat} {k : Coll} {data : List (BitVec 8)} (found : s.colls.find? (fun c => c.id == coll) = some k)
  (pending : k.ready = false) (whole : k.fault = none)
include found pending whole

/-- Data of another length refuses the collective. -/
theorem exec_collectiveExchangeStep_refused (size : data.length ≠ k.stepSize) :
    exec (.collectiveExchangeStep coll data) s = .next (s.onColl coll Coll.refuse) := by
  have arm : exec (.collectiveExchangeStep coll data) s = execCollectiveExchangeStep coll data s := rfl
  rw [arm, execCollectiveExchangeStep, found]
  simp [pending, whole, size]

/-- The data of the step that is awaited is merged, and the step is made. -/
theorem exec_collectiveExchangeStep_made {e : Nat × Option Nat} (gathered : 0 < k.exchange) (size : data.length = k.stepSize)
    (awaited : (exchangePlan k.chips.length (k.chips.idxOf s.chip.toNat))[k.exchange - 1]? = some e) :
    exec (.collectiveExchangeStep coll data) s = .next (s.onColl coll (fun c => { c with
      value := s.collMerge c e data, exchange := c.exchange + 1
      ready := decide ((exchangePlan k.chips.length (k.chips.idxOf s.chip.toNat)).length ≤ c.exchange) })) := by
  have arm : exec (.collectiveExchangeStep coll data) s = execCollectiveExchangeStep coll data s := rfl
  rw [arm, execCollectiveExchangeStep, found]
  simp [pending, whole, size, Coll.gathered, gathered, awaited]

end

end Sys2Proof.Machine
end

section
/-! PROOFS. The obligations of spec/02_fabric.md. -/

namespace Sys2Proof.Proofs

open Sys2Proof.Machine

/-- Refutes O36 at its clause of lost power, which asks for no canonical memory. In the list of bytes below the keys fall: byte 2^57 stands behind
byte 2^63, where a read, which stops at the first larger key, does not find it and answers 0. Lost power drops the entry of 2^63, a staging copy,
and byte 2^57 then reads 4. -/
theorem not_bootEventsFollowTheRom : ¬ Obligations.BootEventsFollowTheRom := by
  unfold Obligations.BootEventsFollowTheRom
  intro h
  obtain ⟨-, -, -, -, -, -, powerFail⟩ := h
  let s : State := { State.reset with mem := [(2 ^ 63, 9), (2 ^ 57, 4)] }
  obtain ⟨t, ht, -, -, -, -, -, -, -, reads⟩ := powerFail s
  have before : s.mem.read (2 ^ 57) = 0 := rfl
  have after : t.mem.read (2 ^ 57) = 4 := by
    rw [exec_powerFail_mem ht]
    rfl
  have stands : t.mem.read (2 ^ 57) = s.mem.read (2 ^ 57) := (reads (2 ^ 57)).trans (if_pos (by decide))
  rw [after, before] at stands
  exact absurd stands (by decide)

/-- Refutes O40 at its clause of set-ups, which asks for no two flits of one number. The head of a packet and a data flit of it share number 0 here:
the head has gone north over a link that has failed since, and the data flit follows it. The set-up wins that output for number 0, and so the
head, which by itself keeps off failed links, holds it too. -/
theorem not_meshEventsMoveFlits : ¬ Obligations.MeshEventsMoveFlits := by
  unfold Obligations.MeshEventsMoveFlits
  intro h
  obtain ⟨-, flitSetup, -⟩ := h
  let spec : PktSpec :=
    { cmd := .write 128, src := .core 22, dst := .core 10, addr := 0, tag := 0, inc := 0, cx := false, path := 0, buf := .shared, asks := [] }
  let pkt : MeshPkt :=
    { id := 0, cls := .request0, spec := spec, src := .core 22, dst := .core 10, data := 1, route := [{ out := (4, 3, 0), chan := 0 }], root := 0 }
  let head : Flit :=
    { id := 0, packet := 0, idx := 0, last := false, x := 4, y := 2, chan := 0, own := false, port := 3, since := 0, crossed := 1, won := [] }
  let data : Flit := { head with idx := 1, last := true, y := 3, port := 4, crossed := 0 }
  let s : State := { State.reset with mesh := { State.reset.mesh with flits := [data, head], packets := [pkt], failedLinks := [(4, 3, 0)] } }
  have idle : ∀ f ∈ s.mesh.flits, f.won = [] := by decide
  obtain ⟨m, hm, -, -, -, -, -, bounds, -⟩ := flitSetup s idle rfl
  have flits : m.flits = [{ data with won := [(4, 3, 0)] }, { head with won := [(4, 3, 0)] }] := by
    have arm : exec .flitSetup s = execFlitSetup s := rfl
    rw [arm, execFlitSetup, Host.Outcome.next.injEq] at hm
    have after := congrArg (fun t : State => t.mesh.flits) hm
    rw [← after]
    decide
  have headWon : ({ head with won := [(4, 3, 0)] } : Flit) ∈ m.flits := by
    rw [flits]
    decide
  exact absurd (List.mem_singleton.mpr rfl) ((bounds _ headWon).2.2 rfl (4, 3, 0) (by decide) (by decide))

/-- Settles O41: each event by the equation of what it leaves, the ports, peers and TLBs entry by entry. -/
theorem linkEventsKeepTheRetryProtocol : Obligations.LinkEventsKeepTheRetryProtocol := by
  unfold Obligations.LinkEventsKeepTheRetryProtocol
  refine ⟨⟨?replay, ?unreachable, ?send, ?ackSend, ?ackReceive, ?retry⟩, ⟨?request, ?serve, ?answer, ?announce, ?announced, ?collective⟩⟩
  case replay =>
    intro port s
    obtain ⟨slow, octx, cores, h⟩ := exec_linkFlitReplay port s
    exact ⟨_, h, rfl, rfl, rfl, rfl, fun i => getElem_atIndex_nat _ port i _⟩
  case unreachable => exact fun chip frame tag s h => exec_linkTransactionSend_unreachable h frame tag
  case send =>
    intro chip frame tag port s p x goes chosen valid kept up
    have atOnce := LinkPort.sendsAtOnce_iff p x s.cycle
    rw [exec_linkTransactionSend chosen valid kept up]
    refine ⟨_, rfl, fun i hi => ?_, fun h => ?_, fun h => ?_⟩
    · rw [getElem_atIndex, if_neg hi]
    · rw [getElem_atIndex, if_pos rfl]
      exact if_pos (atOnce.mpr h)
    · rw [getElem_atIndex, if_pos rfl]
      exact if_neg (fun may => h (atOnce.mp may))
  case ackSend =>
    intro chip port s q
    rw [exec_linkAckSend]
    obtain ⟨hc, hp⟩ := s.source_names chip port
    exact ⟨fun h => by rw [if_pos h], fun h => ⟨_, by rw [if_neg h]; rfl, s.source_putSource (q := { q with owed := 0 }) hc hp⟩⟩
  case ackReceive =>
    intro port chip seq refused s hit
    refine ⟨_, exec_linkAckReceive port chip ⟨seq, refused⟩ s, ?mem, ?ctx, ?ports, ?net⟩
    case mem => rw [State.answerTxns_frame]; rfl
    case ctx => rw [State.answerTxns_frame]; rfl
    case ports =>
      intro i
      rw [State.answerTxns_frame]
      exact getElem_atIndex _ port i _
    case net =>
      intro x at_ one carries
      have one : s.ports[port].store.filter (fun t => t.chip == chip && seqUpTo t.seq seq) = [x] := one
      dsimp only
      rw [one, State.answerTxns_singleton_net _ carries]
      rfl
  case retry =>
    intro port seq x s found due
    refine ⟨fun left => ?again, fun spent => ?exhausted⟩
    case again =>
      rw [exec_linkResend found due left]
      obtain ⟨slow, octx, cores, h⟩ := (s.onPort port.val (fun p => p.resent seq s.cycle s.dt)).excuseTags_frame [x.tag] (s.cycle + 7000)
      rw [h]
      exact ⟨_, rfl, rfl, rfl, fun i => getElem_atIndex _ port i _⟩
    case exhausted =>
      obtain ⟨held, h⟩ := exec_linkRetryExhausted found due spent
      obtain ⟨net, core, ctx, octx, cores, hostErrors, failed⟩ := (s.gaveUp port.val seq x).failCarried_frame (x :: held)
      refine ⟨_, h, ?mem, ?store, ?tags, ?waiting, ?fault, ?lost⟩
      case fault =>
        exact fun a k y carries found here _ hy serial =>
          State.failCarried_faults (s := s.gaveUp port.val seq x) carries found here hy serial held
      all_goals simp only [State.dropHolder, State.failColls, failed]
      case store => exact (s.gaveUp_port port seq x).1
      case tags => exact (s.gaveUp_port port seq x).2
      case waiting => exact fun i => s.gaveUp_waiting port i seq x
      case lost => exact fun k => getElem_atIndex_nat _ x.chip k _
      case mem => rfl
  case request =>
    intro r s q
    refine ⟨exec_peerRequestReceive_early, exec_peerRequestReceive_reset, fun told inc again => ?again, fun told inc within new => ?new⟩
    case again =>
      refine ⟨_, exec_peerRequestReceive_again told inc again, fun x hx => ?_⟩
      have kept : (s.source r.chip r.port).responses.find? (fun x => x.1 == r.seq) = some x := hx
      rw [kept]
      obtain ⟨seq, refusal, data⟩ := x
      cases refusal <;> rfl
    case new =>
      intro a
      rw [exec_peerRequestReceive_new told inc within new]
      refine ⟨fun f op => ?inval, fun op unowned => ?refused, fun pid op owner named on => ?granted⟩
      case inval =>
        rw [State.peerStart_inval op]
        obtain ⟨ports, sources, h⟩ := ((s.putSource (q.accept r.seq s.dt)).peerInval r.chip f).respond_frame r none []
        exact ⟨_, congrArg _ h, rfl, rfl, rfl⟩
      case refused =>
        rw [State.peerStart_refused (s := s.putSource (q.accept r.seq s.dt)) op (State.peerOwner_eq_none unowned)]
        obtain ⟨ports, sources, h⟩ := (s.putSource (q.accept r.seq s.dt)).respond_frame r (some .prot) []
        exact ⟨_, congrArg _ h, rfl, rfl⟩
      case granted =>
        obtain ⟨m, h⟩ := State.peerStart_granted (s := s.putSource (q.accept r.seq s.dt)) op (State.peerOwner_eq_some owner named on)
        obtain ⟨hc, hp⟩ := s.source_names r.chip r.port
        obtain ⟨ac, ap⟩ := q.accept_names r.seq s.dt
        exact ⟨m, _, congrArg _ h, s.source_putSource (ac.trans hc) (ap.trans hp)⟩
  case serve =>
    intro j pid s a u op owner named on whole unheld idle
    obtain ⟨hmem, hans⟩ := State.peerExec_granted j.req.chip j.serial j.req.die op (State.peerOwner_eq_some owner named on) whole unheld idle
    refine ⟨hmem, fun i hi tag => ?_⟩
    simp only [State.peerServe, hans] at hi
    obtain ⟨i, -, rfl⟩ := List.mem_map.mp hi
    by_cases own : i.tag = j.tag
    · rw [if_pos own]
    · rw [if_neg own] at tag
      exact absurd tag own
  case answer =>
    intro j p ans s ended hans
    obtain ⟨refusal, data⟩ := ans
    rw [State.answerPeer_eq ended hans]
    obtain ⟨ports, sources, h⟩ := State.respond_frame
      { s with peerJobs := s.peerJobs.erase j, mesh := { s.mesh with ended := s.mesh.ended.erase (p, none) } } j.req refusal data
    rw [h]
    cases refusal <;> exact ⟨rfl, rfl, rfl⟩
  case announce => exact exec_incarnationAnnounce
  case announced =>
    intro chip inc s
    refine ⟨_, exec_announcementReceive chip.val inc s, ?mem, ?peers, fun i st e he => State.purgePeer_tlb he⟩
    case mem => rw [State.purgePeer_mem, State.dropRestarted_mem]
    case peers =>
      rw [State.purgePeer_peers]
      exact fun k => getElem_atIndex _ chip k _
  case collective =>
    intro coll data k e s found plan pending whole
    refine ⟨fun size => ⟨_, exec_collectiveExchangeStep_refused found pending whole size, ?_⟩, fun gathered size awaited =>
      ⟨_, exec_collectiveExchangeStep_made found pending whole gathered size awaited, ?_, fun x hx ne => State.mem_onColl_of_ne hx ne⟩⟩
    · exact (State.find?_onColl found (f := Coll.refuse) (fun _ => rfl)).trans (congrArg some (Coll.refuse_of_whole whole))
    · exact State.find?_onColl found (fun _ => rfl)

end Sys2Proof.Proofs
end

section
/-! SUPPORT. What the submission path, the seal, attestation and the guards of the service cores leave (R54, R55, R58, R59, R61, R62). -/

namespace Sys2Proof.Machine

/-! ### Writes at their homes (R137) -/

/-- A write to a frame without holders or waiting writes is performed at once. -/
theorem State.frameWrite_of_unheld {s : State} {f : Nat} (unheld : s.part.holders.getD f [] = []) (idle : ∀ w ∈ s.part.replWrites, w.frame ≠ f)
    (key : Nat) (bs : List (BitVec 8)) (site : Nat) (cx : Bool) (path : Nat) (serial : Option Nat) :
    s.frameWrite (some f) key bs site cx path serial = s.writeList key bs := by
  have none_waits : s.part.replWrites.any (fun w => w.frame == f) = false := by simpa using idle
  simp [State.frameWrite, unheld, none_waits]

/-! ### The submission path (R54, R55, R62) -/

theorem State.submit_eq (s : State) (n : Nat) (v : Word) : s.submit n v = { s with part :=
    if n < 8 ∨ v.toNat % 64 ≠ 0 ∨ 2 ^ 20 < v.toNat + 256 then { s.part with badaddr := true }
    else if 16 ≤ s.part.subq.length then { s.part with ovf := true }
    else { s.part with subq := s.part.subq ++ [v.toNat] } } := by
  unfold State.submit
  split
  · rfl
  · split <;> rfl

/-- A bit written as 0, as the write of a RW1C field reads it. -/
theorem decide_bit_clear (v i : Nat) : decide (v / 2 ^ i % 2 = 0) = !v.testBit i := by
  rw [Nat.testBit_eq_decide_div_mod_eq, ← decide_not, decide_eq_decide]
  omega

section
variable {s : State} {part : Nat} (live : (s.focusPart part).part.live = true)
include live

theorem exec_submitWrite (n : Nat) (v : BitVec 64) : exec (.submitWrite part n v) s = .next ((s.focusPart part).submit n v) :=
  congrArg Host.Outcome.next (if_pos live)

/-- The oldest entry of a resident partition's queue is copied. -/
theorem exec_submissionCopy {off : Nat} {rest : List Nat} (resident : (s.focusPart part).part.swapped = false)
    (queued : (s.focusPart part).part.subq = off :: rest) :
    let u := s.focusPart part
    exec (.submissionCopy part) s = .next { u with part := { u.part with
      subq := rest, accepted := u.part.accepted + 1
      copied := u.part.copied ++ [(off, u.mem.readBytes (u.part.window + off) 256)] } } := by
  intro u
  have arm : exec (.submissionCopy part) s = execSubmissionCopy part s := rfl
  rw [arm, execSubmissionCopy, queued]
  simp only [live, resident, Bool.not_true, Bool.or_false, Bool.false_eq_true, if_false]
  rfl

theorem exec_submissionWindowWrite_memory {off : Nat} {data : List (BitVec 8)} (inside : off + data.length ≤ 2 ^ 20) :
    let u := s.focusPart part
    exec (.submissionWindowWrite part off data) s =
      .next (u.frameWrite (some ((u.part.window + off) / 65536)) (u.part.window + off) data 288 false 4 none) := by
  have arm : exec (.submissionWindowWrite part off data) s = execSubmissionWindowWrite part off data s := rfl
  rw [arm, execSubmissionWindowWrite]
  simp only [live, Bool.not_true, Bool.false_eq_true, if_false, inside, if_true]

/-- A write that misses SUBMIT's first byte is no whole offset. -/
theorem exec_submissionWindowWrite_partSubmit (data : List (BitVec 8)) :
    let u := s.focusPart part
    exec (.submissionWindowWrite part 0x100004 data) s = .next { u with part := { u.part with badaddr := true } } := by
  intro u
  have arm : exec (.submissionWindowWrite part 0x100004 data) s = execSubmissionWindowWrite part 0x100004 data s := rfl
  rw [arm, execSubmissionWindowWrite, if_neg (by simp [live]), if_neg (by omega), if_pos (by decide), if_neg (by decide), State.submit_eq,
    if_pos (Or.inl (by omega))]

theorem exec_submissionWindowWrite_subst (data : List (BitVec 8)) :
    let u := s.focusPart part
    exec (.submissionWindowWrite part 0x100008 data) s = .next { u with part := { u.part with
      ovf := u.part.ovf && !(leNat data).testBit 5, badaddr := u.part.badaddr && !(leNat data).testBit 6 } } := by
  intro u
  have arm : exec (.submissionWindowWrite part 0x100008 data) s = execSubmissionWindowWrite part 0x100008 data s := rfl
  rw [arm, execSubmissionWindowWrite, if_neg (by simp [live]), if_neg (by omega), if_neg (by decide), if_pos rfl, ← decide_bit_clear,
    ← decide_bit_clear]
  rfl

theorem exec_submissionWindowWrite_seal (data : List (BitVec 8)) :
    let u := s.focusPart part
    exec (.submissionWindowWrite part 0x100010 data) s = .next { u with part := { u.part with sealOpen := (leNat data).testBit 0 } } := by
  intro u
  have arm : exec (.submissionWindowWrite part 0x100010 data) s = execSubmissionWindowWrite part 0x100010 data s := rfl
  rw [arm, execSubmissionWindowWrite, if_neg (by simp [live]), if_neg (by omega), if_neg (by decide), if_neg (by decide), if_pos rfl,
    Nat.testBit_zero]
  rfl

theorem exec_sealOpen : let u := s.focusPart part
    exec (.sealOpen part) s = .next { u with part := { u.part with sealOpen := true } } :=
  congrArg Host.Outcome.next (if_pos live)

theorem exec_sealClose : let u := s.focusPart part
    exec (.sealClose part) s = .next { u with part := { u.part with sealOpen := false } } :=
  congrArg Host.Outcome.next (if_pos live)

/-- A function-level reset drops what the jobs' cancels leave in the submission queue. -/
theorem exec_vfFunctionLevelReset : ∃ t : State,
    exec (.vfFunctionLevelReset part) s = .next { t with part := { t.part with subq := [], copied := [] } } := by
  have arm : exec (.vfFunctionLevelReset part) s = execVfFunctionLevelReset part s := rfl
  rw [arm, execVfFunctionLevelReset, if_neg (by simp [live])]
  exact ⟨_, rfl⟩

end

/-! ### Attestation (R58, R59) -/

theorem State.askSign_granted {s : State} {nonce : List (BitVec 8)} (size : nonce.length = 32) (idle : s.signing = none)
    (left : s.store.xmssIndex < 2 ^ 20) (m : List (BitVec 8)) : s.askSign nonce m = { s with
      store := { s.store with xmssIndex := s.store.xmssIndex + 1 }, signing := some (reportOf nonce m s) } := by
  rw [State.askSign, if_neg (by simp [size, idle]), if_neg (Nat.not_le.mpr left)]

theorem exec_keyCounterConfirm {s : State} {r : List (BitVec 8)} (asked : s.signing = some r) : exec .keyCounterConfirm s = .next { s with
    signing := none, notices := s.notices ++ [.report (r ++ Config.xmssSign (s.store.xmssIndex - 1) r)] } := by
  have arm : exec .keyCounterConfirm s = execKeyCounterConfirm s := rfl
  rw [arm, execKeyCounterConfirm, asked]
  rfl

/-! ### The guards of the service cores (R61) -/

/-- Do bytes that a service core writes to the host lie in a registered window, and within the cap. -/
def State.hostPasses (s : State) (addr n : Nat) : Prop :=
  (∃ w ∈ s.metered.windows, w.1 ≤ addr ∧ addr + n ≤ w.1 + w.2) ∧ s.metered.writeUsed + n ≤ s.metered.burst

theorem State.hostPut_of_passes {s : State} {addr : Nat} {data : List (BitVec 8)} (h : s.hostPasses addr data.length) :
    s.hostPut addr data =
      ({ s with guards := { s.metered with writeUsed := s.metered.writeUsed + data.length } } : State).writeList (hostKey 16 addr) data := by
  rw [State.hostPut]
  exact if_pos (by simpa [State.hostPasses] using h)

theorem State.hostPut_of_not_passes {s : State} {addr : Nat} {data : List (BitVec 8)} (h : ¬s.hostPasses addr data.length) :
    s.hostPut addr data = { s with
      guards := { s.metered with writeDrops := s.guards.writeDrops + 1 }, notices := s.notices ++ [.pf0Vector 63] } := by
  rw [State.hostPut]
  exact if_neg (by simpa [State.hostPasses] using h)

/-- The guards in force, a service core's own bytes go out. -/
theorem exec_serviceCoreHostWrite_own {s : State} (locked : s.guards.locked = true) (windows : List (Nat × Nat)) (addr : Nat)
    (data : List (BitVec 8)) : exec (.serviceCoreHostWrite windows ⟨addr, .own data⟩) s =
      .next (({ s with guards := s.guards.register windows } : State).hostPut addr data) :=
  congrArg Host.Outcome.next (if_neg (by simp [locked]))

/-- The guards in force, a copy out of memory starts. -/
theorem exec_serviceCoreHostWrite_memory {s : State} (locked : s.guards.locked = true) (windows : List (Nat × Nat)) (addr pa n : Nat) :
    exec (.serviceCoreHostWrite windows ⟨addr, .memory pa n⟩) s = .next { s with
      guards := s.guards.register windows, svcCopies := s.svcCopies ++ [{ addr := addr, pa := pa, left := n }] } :=
  congrArg Host.Outcome.next (if_neg (by simp [locked]))

theorem exec_ethernetFrameSend {s : State} (locked : s.guards.locked = true) (port n : Nat) :
    let g := s.metered
    let used := g.egressUsed.getD port 0
    exec (.ethernetFrameSend port n) s = .next { s with guards :=
      if used + n ≤ g.burst then { g with egressUsed := g.egressUsed.set port (used + n) } else { g with frameDrops := g.frameDrops + 1 } } := by
  have arm : exec (.ethernetFrameSend port n) s = execEthernetFrameSend port n s := rfl
  rw [arm, execEthernetFrameSend, if_neg (by simp [locked])]
  dsimp only
  split <;> rfl

end Sys2Proof.Machine
end

section
/-! SUPPORT. What the ends of page walks, prefetches and waits for chips leave (R123, R131, R132, R138, R189, R192, R274). -/

namespace Sys2Proof.Machine

/-! ### Errors that reads meet (R189, R192) -/

/-- Words in uncorrectable error are counted and listed only. -/
theorem State.meetBad_frame (s : State) (key n : Nat) : ∃ memctl, s.meetBad key n = { s with memctl := memctl } := by
  refine List.foldlRecOn (motive := fun (t : State) => ∃ memctl, t = { s with memctl := memctl }) _ _ ⟨s.memctl, rfl⟩ ?_
  rintro _ ⟨memctl, rfl⟩ w -
  dsimp only
  split <;> exact ⟨_, rfl⟩

/-- What reads that meet errors change: the corrections counted, the controllers' counts and lists, and the words still to be corrected. -/
structure ErrorsMet where
  corrections : List (Nat × Nat)
  memctl : Vector MemCtl 30
  flips : List Nat

/-- The state with another core, after reads that have met errors. -/
def State.afterReads (s : State) (k : Core) (e : ErrorsMet) : State :=
  { s with core := k, corrections := e.corrections, memctl := e.memctl, flips := e.flips }

/-- Errors that reads of table entries meet are corrected, counted and listed only. -/
theorem State.seeWords_frame (s : State) (keys : List Nat) : ∃ e, s.seeWords keys = s.afterReads s.core e := by
  refine List.foldlRecOn (motive := fun (t : State) => ∃ e, t = s.afterReads s.core e) _ _ ⟨⟨s.corrections, s.memctl, s.flips⟩, rfl⟩ ?_
  rintro _ ⟨e, rfl⟩ k -
  obtain ⟨corrections, memctl, flips, hc⟩ := (s.afterReads s.core e).correct_frame k 8
  obtain ⟨memctl', hm⟩ := ((s.afterReads s.core e).correct k 8).meetBad_frame k 8
  exact ⟨⟨corrections, memctl', flips⟩, by rw [hm, hc]; rfl⟩

/-! A walk looks neither at the core nor at what counts errors. -/

section
variable (s : State) (k : Core) (e : ErrorsMet)

theorem State.mapAllows_afterReads (a : Acc) (pa n : Nat) : (s.afterReads k e).mapAllows a pa n = s.mapAllows a pa n := rfl
theorem State.names_afterReads (pa : Nat) : (s.afterReads k e).names pa = s.names pa := rfl
theorem State.readBad_afterReads (pa n : Nat) : (s.afterReads k e).readBad pa n = s.readBad pa n := rfl
theorem State.readPa_afterReads (pa n : Nat) : (s.afterReads k e).readPa pa n = s.readPa pa n := rfl
theorem State.readPte_afterReads (level v : Nat) : (s.afterReads k e).readPte level v = s.readPte level v := rfl

theorem State.walkFrom_afterReads (fuel level table va : Nat) :
    (s.afterReads k e).walkFrom fuel level table va = s.walkFrom fuel level table va := by
  induction fuel generalizing level table with
  | zero => rfl
  | succ n ih =>
    simp only [State.walkFrom, ih, State.mapAllows_afterReads, State.names_afterReads, State.readBad_afterReads, State.readPa_afterReads,
      State.readPte_afterReads]

end

/-! ### TLBs (R131) -/

@[simp] theorem Core.tlb_setTlb (k : Core) (st : Strm) (l : List TlbEnt) : (k.setTlb st l).tlb st = l := by cases st <;> rfl
@[simp] theorem Core.setTlb_walks (k : Core) (st : Strm) (l : List TlbEnt) : (k.setTlb st l).walks = k.walks := by cases st <;> rfl
@[simp] theorem Core.setTlb_wfault (k : Core) (st : Strm) (l : List TlbEnt) : (k.setTlb st l).wfault = k.wfault := by cases st <;> rfl

/-- A new entry is the most recently used. -/
theorem head?_insertTlb (st : Strm) (l : List TlbEnt) (e : TlbEnt) : (insertTlb st l e).head? = some e := by cases st <;> rfl

/-- The incarnation that a translation records (R138): of a remote leaf, the peer table's. -/
def State.leafInc (s : State) (l : Leaf) : BitVec 16 :=
  if l.tgt.val % 2 = 1 then (s.peers.toList.getD l.chip ⟨0, false, false, false, 0⟩).inc else 0

theorem State.leafInc_remote {s : State} {l : Leaf} {k : Fin 64} (remote : l.tgt.val % 2 = 1) (chip : l.chip = k.val) :
    s.leafInc l = s.peers[k].inc := by
  rw [State.leafInc, if_pos remote, chip, List.getD_eq_getElem?_getD, toList_getElem?_fin]
  rfl

/-! ### The end of a walk (R123, R132) -/

@[simp] theorem State.focus_peers (s : State) (site : Nat) (cx : Bool) : (s.focus site cx).peers = s.peers := by rw [State.focus_frame]

/-- The core whose walk has ended. -/
def Core.walkDone (k : Core) (w : Walk) : Core := { k with walks := k.walks.filter (fun x => x != w) }

theorem Core.not_mem_walkDone (k : Core) (w : Walk) : w ∉ (k.walkDone w).walks := by simp [Core.walkDone]
@[simp] theorem Core.walkDone_tlb (k : Core) (w : Walk) (st : Strm) : (k.walkDone w).tlb st = k.tlb st := by cases st <;> rfl

/-- The state in which a walk is done and its reads of the tables have met their errors. -/
def State.walkRead (s : State) (w : Walk) : State :=
  let at_ := (s.focus s.site w.cx).walkStart (w.vpage * 65536)
  let u := (s.focus s.site w.cx).onCore (fun k => k.walkDone w)
  u.seeWords (u.walkReads 4 at_.1 at_.2 (w.vpage * 65536))

theorem State.walkRead_frame (s : State) (w : Walk) :
    let u := s.focus s.site w.cx
    ∃ e, s.walkRead w = u.afterReads (u.core.walkDone w) e :=
  State.seeWords_frame _ _

theorem State.walkFrom_walkRead (s : State) (w : Walk) (fuel level table va : Nat) :
    (s.walkRead w).walkFrom fuel level table va = (s.focus s.site w.cx).walkFrom fuel level table va := by
  obtain ⟨e, h⟩ := s.walkRead_frame w
  rw [h, State.walkFrom_afterReads]

section
variable {s u : State} {w : Walk} {at_ : Nat × Nat} (turned : s.focus s.site w.cx = u) (start : u.walkStart (w.vpage * 65536) = at_)
include turned start

/-- A walk that faults keeps its fault for the access that waits, if one does. -/
theorem State.endWalk_fault {c : Cause} (h : u.walkFrom 4 at_.1 at_.2 (w.vpage * 65536) = .error c) :
    ∃ e, s.endWalk w = u.afterReads { u.core.walkDone w with
      wfault := if w.prefetch then u.core.wfault else u.core.wfault ++ [(w.cx, w.tlb, w.vpage, c)] } e := by
  subst turned start
  obtain ⟨e, he⟩ := s.walkRead_frame w
  have ends : s.endWalk w = if w.prefetch then s.walkRead w
      else (s.walkRead w).onCore (fun k => { k with wfault := k.wfault ++ [(w.cx, w.tlb, w.vpage, c)] }) := by
    rw [← State.walkFrom_walkRead] at h
    unfold State.endWalk
    dsimp only
    split
    next c' h' => cases h.symm.trans h'; rfl
    next l h' => cases h.symm.trans h'
  rw [ends, he]
  refine ⟨e, ?_⟩
  split <;> rfl

/-- A walk that finds a leaf fills the TLB with it. -/
theorem State.endWalk_fills {l : Leaf} (h : u.walkFrom 4 at_.1 at_.2 (w.vpage * 65536) = .ok l) :
    ∃ e caches, s.endWalk w = { u.afterReads ((u.core.walkDone w).setTlb w.tlb (insertTlb w.tlb (u.core.tlb w.tlb)
      { cx := w.cx, vpage := w.vpage * 65536 / l.size * l.size / 65536, leaf := l, inc := u.leafInc l })) e with walkCaches := caches } := by
  subst turned start
  obtain ⟨e, he⟩ := s.walkRead_frame w
  have ends : ∃ caches, s.endWalk w = { (s.walkRead w).onCore (fun k => k.setTlb w.tlb (insertTlb w.tlb (k.tlb w.tlb)
      { cx := w.cx, vpage := w.vpage * 65536 / l.size * l.size / 65536, leaf := l, inc := (s.walkRead w).leafInc l })) with
        walkCaches := caches } := by
    rw [← State.walkFrom_walkRead] at h
    unfold State.endWalk
    dsimp only
    split
    next c h' => cases h.symm.trans h'
    next l' h' => cases h.symm.trans h'; exact ⟨_, rfl⟩
  obtain ⟨caches, ends⟩ := ends
  rw [ends, he]
  refine ⟨e, caches, ?_⟩
  simp only [State.onCore, State.afterReads, Core.walkDone_tlb]
  rfl

end

theorem exec_pageWalkComplete {site : Nat} {w : Walk} {s : State}
    (found : (s.focus site s.cx).core.walks.find? (fun x => decide (x.due ≤ s.cycle)) = some w) :
    exec (.pageWalkComplete site) s = .next ((s.focus site s.cx).endWalk w) := by
  have arm : exec (.pageWalkComplete site) s = execPageWalkComplete site s := rfl
  have next : (s.focus site s.cx).core.nextWalk (s.focus site s.cx).cycle = some w := by rw [Core.nextWalk, State.focus_cycle, found]
  rw [arm, execPageWalkComplete]
  simp only [next]

/-! ### Prefetches and waits for chips (R138, R274) -/

section
variable {site : Nat} {cx : Bool} {s : State}

theorem exec_prefetchReady {b : Fin 8} {at_ : Nat} (fetched : (s.focus site cx).ctx.b[b].ready = some at_) (ahead : 0 < at_)
    (due : at_ ≤ s.cycle) :
    let u := s.focus site cx
    exec (.prefetchReady site cx b) s = .next { u with ctx := { u.ctx with b := u.ctx.b.set b { u.ctx.b[b] with ready := some 0 } } } := by
  have ready : (s.focus site cx).ctx.b[b].readyDue (s.focus site cx).cycle = true := by
    simp only [BReg.readyDue, fetched, ahead, State.focus_cycle, due, decide_true, Bool.and_true]
  exact congrArg Host.Outcome.next (if_pos ready)

/-- A wait whose due cycle has come is over. -/
theorem UpWait.over_of_due {w : UpWait} {at_ now : Nat} (h : w.due = some at_) (due : at_ ≤ now) : w.over now = true := by
  simp only [UpWait.over, h, due, decide_true]

theorem exec_peerUpWaitTimeout (ended : ∃ w ∈ (s.focus site cx).ctx.upWait, ∃ at_, w.due = some at_ ∧ at_ ≤ s.cycle) :
    let u := s.focus site cx
    exec (.peerUpWaitTimeout site cx) s = .next { u with ctx := { u.ctx with
      upWait := u.ctx.upWait.map (fun w => if w.over s.cycle then { w with due := none } else w) } } := by
  rw [← s.focus_cycle site cx] at ended ⊢
  obtain ⟨w, hw, at_, hat, due⟩ := ended
  exact congrArg Host.Outcome.next (if_pos (List.any_eq_true.mpr ⟨w, hw, UpWait.over_of_due hat due⟩))

end

end Sys2Proof.Machine
end

section
/-! SUPPORT. What shootdowns leave in memory, in the partition and in the TLBs (R53, R121, R133, R134). -/

namespace Sys2Proof.Machine

/-! ### The start and the end of a shootdown (R134) -/

/-- A shootdown that starts is told to every core of the partition, and drops from the walk caches. -/
theorem State.startShoot_frame (s : State) (kind vpage : Nat) (m : Option (List (BitVec 128))) : s.startShoot kind vpage m = { s with
    part := { s.part with busy := true, shoot := some {
      vpage := vpage, kind := kind, waiting := s.part.cores.map (fun e => e.1), dropped := [], newMap := m } }
    walkCaches := if kind = 3 then s.walkCaches else s.walkCaches.map (fun l => l.filter (fun e => !(e.1 == s.pid))) } := by
  unfold State.startShoot
  dsimp only
  split <;> rfl

/-- After the last acknowledgement the new map is in force, and BUSY clears unless another change follows. -/
theorem State.endShoot_frame (s : State) (k : Shoot) :
    ∃ busy shoot, s.endShoot k = { s with part := { s.part with busy := busy, shoot := shoot, map := k.newMap.getD s.part.map } } ∧
      (s.part.mapWritten = k.newMap.getD s.part.map → busy = false ∧ shoot = none) := by
  unfold State.endShoot
  dsimp only
  split
  next other => exact ⟨_, _, State.startShoot_frame _ _ _ _, fun same => absurd same other⟩
  next => exact ⟨false, none, rfl, fun _ => ⟨rfl, rfl⟩⟩

theorem State.grantsDisabled_focusPart (s : State) (part : Nat) (e : BitVec 128) :
    (s.focusPart part).grantsDisabled e = s.grantsDisabled e := by
  rw [State.focusPart_frame]
  rfl

section
variable {s : State} {part : Nat} (live : (s.focusPart part).part.live = true)
include live

theorem exec_invctlWrite (idle : (s.focusPart part).part.busy = false) {v : BitVec 64} (kind : v.toNat % 4 ≠ 3) :
    exec (.invctlWrite part v) s = .next ((s.focusPart part).writeInvctl v) :=
  congrArg Host.Outcome.next (if_neg (by simp [live, idle, kind]))

theorem exec_ptrootWrite (idle : (s.focusPart part).part.busy = false) (v : BitVec 64) :
    exec (.ptrootWrite part v) s = .next ((s.focusPart part).writePtroot v) :=
  congrArg Host.Outcome.next (if_neg (by simp [live, idle]))

/-- A map that grants no slice of a disabled site is taken. -/
theorem exec_partitionMapChange {map : List (BitVec 128)} (granted : ∀ e ∈ map.take 64, s.grantsDisabled e = false) :
    exec (.partitionMapChange part map) s = .next ((s.focusPart part).changeMap (map.take 64)) := by
  have none_off : (map.take 64).any (s.focusPart part).grantsDisabled = false := by
    simpa [State.grantsDisabled_focusPart] using granted
  exact congrArg Host.Outcome.next (if_pos (by simp [live, none_off]))

end

/-- A map that grants the slice of a disabled site is refused (R119). -/
theorem exec_partitionMapChange_refused {s : State} {map : List (BitVec 128)} (part : Nat) (off : ∃ e ∈ map.take 64, s.grantsDisabled e = true) :
    exec (.partitionMapChange part map) s = .next (s.focusPart part) := by
  have some_off : (map.take 64).any (s.focusPart part).grantsDisabled = true := by
    simpa [State.grantsDisabled_focusPart] using off
  exact congrArg Host.Outcome.next (if_neg (by simp [some_off]))

/-! ### A core drops its entries (R133, R134) -/

/-- What the core that a site has in the focused partition is replaced by stands among the cores, or among the partition's images. -/
theorem State.putCoreOf_frame (s : State) (site : Nat) (b : CoreBox) : ∃ core ctx octx cores images,
    s.putCoreOf site b = { s with
      core := core, ctx := ctx, octx := octx, cores := cores, part := { s.part with images := images } } := by
  unfold State.putCoreOf
  split
  · exact ⟨_, _, _, _, s.part.images, s.putBox_frame site b⟩
  · exact ⟨s.core, s.ctx, s.octx, s.cores, _, rfl⟩

/-- A core replaced in its partition is there; a site that has neither a live core nor an image there keeps none. -/
theorem State.coreOf_putCoreOf (s : State) (site : Nat) {b : CoreBox} (same : b.core.part = (s.coreOf site).core.part) :
    (s.putCoreOf site b).coreOf site = b ∨ (s.putCoreOf site b).coreOf site = s.coreOf site := by
  by_cases live : (s.boxAt site).core.part = some s.pid
  · have there : b.core.part = some s.pid := by rw [same, State.coreOf, if_pos live, live]
    left
    rw [State.putCoreOf, if_pos live, State.coreOf, State.boxAt_putBox, State.putBox_pid, if_pos there]
  · rw [State.putCoreOf, if_neg live]
    cases image : s.part.images.find? site with
    | none =>
      right
      simp only [Tab.modify, image]
    | some old =>
      left
      have put : ({ s with part := { s.part with images := s.part.images.modify site (fun _ => b) } } : State).coreOf site =
          ((s.part.images.modify site (fun _ => b)).find? site).getD (s.freshBox site) := if_neg live
      rw [put, Tab.modify, image]
      dsimp only
      rw [Tab.find?_put_same, Option.getD_some]

theorem CoreBox.tlb_shootdown (b : CoreBox) (kind vpage : Nat) (st : Strm) :
    (b.shootdown kind vpage).core.tlb st = (b.core.tlb st).filter (fun e => !e.dropped kind vpage) := by cases st <;> rfl

/-- The state in which a core has dropped the entries that a shootdown names. -/
def State.dropEntries (s : State) (k : Shoot) (site : Nat) : State := s.putCoreOf site ((s.coreOf site).shootdown k.kind k.vpage)

theorem State.tlb_dropEntries {s : State} {site : Nat} (k : Shoot) (live : (s.boxAt site).core.part = some s.pid) (st : Strm) :
    ((s.dropEntries k site).boxAt site).core.tlb st = ((s.boxAt site).core.tlb st).filter (fun e => !e.dropped k.kind k.vpage) := by
  rw [State.dropEntries, State.putCoreOf, if_pos live, State.boxAt_putBox, CoreBox.tlb_shootdown, State.coreOf, if_pos live]

/-! ### What a core still awaits (R134) -/

/-- A pawn's step that is awaited and has begun. -/
def Pawn.stillOpen (p : Pawn) (a : Nat × Nat) : Bool :=
  p.open && !p.rowWaits && decide (p.serial = a.1) && decide (p.pos ≤ a.2) && !p.tr.isEmpty

/-- Is an awaited access of a core's own, not a write that waits at its home, still not performed. -/
def CoreBox.stillOpen (b : CoreBox) (a : Nat × Nat) : Bool :=
  ([b.a, b.b].any (fun c => c.tok.toList.any (fun t => match t with | some t => decide (t.serial = a.1) && t.tr.isSome | none => false) ||
    c.twin.any (fun e => decide (e.serial = a.1)))) || b.core.pawns.toList.any (fun p => p.stillOpen a)

theorem State.stillOpen_eq (s : State) (site : Nat) (a : Nat × Nat) : s.stillOpen site a =
    if 2 ^ 80 ≤ a.2 then s.part.replWrites.any (fun w => w.site == site && decide (w.serial.getD 0 = a.1) && decide (awaitedWrite w.key = a.2))
    else (s.coreOf site).stillOpen a := rfl

/-- A row step that still waits is not awaited: what it has translated may go. -/
theorem Pawn.stillOpen_of_rowWaits {p : Pawn} (waits : p.rowWaits = true) (a : Nat × Nat) : p.stillOpen a = false := by
  simp [Pawn.stillOpen, waits]

/-- The entries that a core drops are those of accesses still at issue: nothing that is awaited is withdrawn with them. -/
theorem CoreBox.stillOpen_shootdown (b : CoreBox) (kind vpage : Nat) (a : Nat × Nat) : (b.shootdown kind vpage).stillOpen a = b.stillOpen a := by
  have pawns : (b.shootdown kind vpage).core.pawns.toList.any (fun p => p.stillOpen a) = b.core.pawns.toList.any (fun p => p.stillOpen a) := by
    simp only [CoreBox.shootdown, Vector.toList_map, List.any_map]
    congr 1
    funext p
    by_cases waits : p.rowWaits = true
    · simp only [Function.comp_apply, if_pos waits, Pawn.stillOpen_of_rowWaits waits]
      refine Pawn.stillOpen_of_rowWaits ?_ a
      exact waits
    · simp only [Function.comp_apply, if_neg waits]
  rw [CoreBox.stillOpen, pawns]
  rfl

theorem State.shootClear_dropEntries (s : State) (k : Shoot) (site : Nat) (l : List (Nat × Nat)) :
    (s.dropEntries k site).shootClear site l = s.shootClear site l := by
  have core (a : Nat × Nat) : ((s.dropEntries k site).coreOf site).stillOpen a = (s.coreOf site).stillOpen a := by
    obtain h | h := s.coreOf_putCoreOf site (b := (s.coreOf site).shootdown k.kind k.vpage) rfl
    · rw [State.dropEntries, h, CoreBox.stillOpen_shootdown]
    · rw [State.dropEntries, h]
  have part : (s.dropEntries k site).part.replWrites = s.part.replWrites := by
    obtain ⟨_, _, _, _, _, h⟩ := s.putCoreOf_frame site ((s.coreOf site).shootdown k.kind k.vpage)
    rw [State.dropEntries, h]
  have same : (s.dropEntries k site).stillOpen site = s.stillOpen site := by
    funext a
    rw [State.stillOpen_eq, State.stillOpen_eq, core, part]
  rw [State.shootClear, same, State.shootClear]

/-! ### The acknowledgement of a core (R134) -/

/-- A core that has dropped its entries acknowledges once the awaited accesses are performed. -/
def State.acknowledge (s : State) (k : Shoot) (site : Nat) (awaited : List (Nat × Nat)) : State :=
  let left := { k with waiting := k.waiting.erase site }
  if !s.shootClear site awaited then s.onPart (fun p => { p with shoot := some k })
  else if left.waiting.isEmpty then s.endShoot left else s.onPart (fun p => { p with shoot := some left })

section
variable {s : State} {k : Shoot} {site : Nat} (shoots : s.part.shoot = some k) (told : site ∈ k.waiting)
include shoots told

/-- A core that is told for the first time drops its entries, and then acknowledges or waits. -/
theorem State.ackShoot_first (first : ∀ d ∈ k.dropped, d.1 ≠ site) : s.ackShoot site =
    (s.dropEntries k site).acknowledge { k with dropped := k.dropped ++ [(site, s.awaitedBy k site)] } site (s.awaitedBy k site) := by
  have waits : k.waiting.isEmpty = false := List.isEmpty_eq_false_iff_exists_mem.mpr ⟨site, told⟩
  have fresh : k.dropped.any (fun d => decide (d.1 = site)) = false := by simpa using first
  have unlisted : k.dropped.find? (fun d => decide (d.1 = site)) = none := by simpa using first
  rw [State.ackShoot, shoots]
  simp only [waits, List.contains_iff_mem.mpr told, fresh, unlisted, Bool.not_true, Bool.not_false, Bool.false_eq_true, if_false, if_true]
  rfl

/-- A core that has dropped its entries before acknowledges now or waits on. -/
theorem State.ackShoot_again {d : Nat × List (Nat × Nat)} (listed : k.dropped.find? (fun d => decide (d.1 = site)) = some d) :
    s.ackShoot site = s.acknowledge k site d.2 := by
  have waits : k.waiting.isEmpty = false := List.isEmpty_eq_false_iff_exists_mem.mpr ⟨site, told⟩
  have at_site := List.find?_some listed
  have known : k.dropped.any (fun d => decide (d.1 = site)) = true :=
    List.any_eq_true.mpr ⟨d, List.mem_of_find?_eq_some listed, at_site⟩
  rw [State.ackShoot, shoots]
  simp only [waits, List.contains_iff_mem.mpr told, known, listed, Bool.not_true, Bool.false_eq_true, if_false]
  rfl

end

/-- The state in which a core has dropped its entries: now, if it has not before. -/
def State.told (s : State) (k : Shoot) (site : Nat) : State := if ∀ d ∈ k.dropped, d.1 ≠ site then s.dropEntries k site else s

/-- The cores that have dropped their entries, this one among them, with what each awaits. -/
def State.toldBy (s : State) (k : Shoot) (site : Nat) : List (Nat × List (Nat × Nat)) :=
  if ∀ d ∈ k.dropped, d.1 ≠ site then k.dropped ++ [(site, s.awaitedBy k site)] else k.dropped

theorem State.told_frame (s : State) (k : Shoot) (site : Nat) : ∃ core ctx octx cores images, s.told k site = { s with
    core := core, ctx := ctx, octx := octx, cores := cores, part := { s.part with images := images } } := by
  unfold State.told
  split
  · exact s.putCoreOf_frame site _
  · exact ⟨_, _, _, _, _, rfl⟩

theorem State.shootClear_told (s : State) (k : Shoot) (site : Nat) (l : List (Nat × Nat)) :
    (s.told k site).shootClear site l = s.shootClear site l := by
  unfold State.told
  split
  · exact s.shootClear_dropEntries k site l
  · rfl

theorem State.tlb_told {s : State} {site : Nat} (k : Shoot) (live : (s.boxAt site).core.part = some s.pid) (st : Strm) :
    ((s.told k site).boxAt site).core.tlb st = if ∀ d ∈ k.dropped, d.1 ≠ site
      then ((s.boxAt site).core.tlb st).filter (fun e => !e.dropped k.kind k.vpage) else (s.boxAt site).core.tlb st := by
  unfold State.told
  split
  · exact State.tlb_dropEntries k live st
  · rfl

/-- A core's part in a shootdown: it drops its entries if it has not, and acknowledges once what it awaits is performed. -/
theorem State.ackShoot_eq {s : State} {k : Shoot} {site : Nat} (shoots : s.part.shoot = some k) (told : site ∈ k.waiting) :
    ∃ l, (s.toldBy k site).find? (fun d => decide (d.1 = site)) = some (site, l) ∧
      s.ackShoot site = (s.told k site).acknowledge { k with dropped := s.toldBy k site } site l := by
  by_cases first : ∀ d ∈ k.dropped, d.1 ≠ site
  · have unlisted : k.dropped.find? (fun d => decide (d.1 = site)) = none := by simpa using first
    refine ⟨s.awaitedBy k site, ?_, ?_⟩
    · simp [State.toldBy, if_pos first, unlisted]
    · rw [State.ackShoot_first shoots told first, State.told, State.toldBy, if_pos first, if_pos first]
  · cases listed : k.dropped.find? (fun d => decide (d.1 = site)) with
    | none => exact absurd (by simpa using listed) first
    | some d =>
      have at_site : d.1 = site := by simpa using List.find?_some listed
      refine ⟨d.2, ?_, ?_⟩
      · rw [State.toldBy, if_neg first, listed, ← at_site]
      · rw [State.ackShoot_again shoots told listed, State.told, State.toldBy, if_neg first, if_neg first]

section
variable {s : State} {k : Shoot} {site : Nat} {l : List (Nat × Nat)}

/-- An acknowledgement, or the wait for it, changes the partition only. -/
theorem State.acknowledge_frame : s.acknowledge k site l = { s with part := (s.acknowledge k site l).part } := by
  unfold State.acknowledge
  dsimp only
  split
  · rfl
  · split
    · obtain ⟨busy, shoot, h, -⟩ := s.endShoot_frame { k with waiting := k.waiting.erase site }
      rw [h]
    · rfl

theorem State.acknowledge_open (h : ¬s.shootClear site l = true) :
    s.acknowledge k site l = s.onPart (fun p => { p with shoot := some k }) := by
  unfold State.acknowledge
  rw [if_pos (by simpa using h)]

theorem State.acknowledge_clear (h : s.shootClear site l = true) (others : k.waiting.erase site ≠ []) :
    s.acknowledge k site l = s.onPart (fun p => { p with shoot := some { k with waiting := k.waiting.erase site } }) := by
  unfold State.acknowledge
  rw [if_neg (by simp [h]), if_neg (by simpa using others)]

theorem State.acknowledge_last (h : s.shootClear site l = true) (none_left : k.waiting.erase site = []) :
    s.acknowledge k site l = s.endShoot { k with waiting := [] } := by
  unfold State.acknowledge
  rw [if_neg (by simp [h]), if_pos (by simp [none_left]), none_left]

end

end Sys2Proof.Machine
end

section
/-! SUPPORT. What reads and writes of replicated frames leave (R136, R137). -/

namespace Sys2Proof.Machine

@[simp] theorem State.focusPart_notices (s : State) (p : Nat) : (s.focusPart p).notices = s.notices := by rw [State.focusPart_frame]

/-- A frame with room in its list, without waiting writes, read by a die with room in its replica area, gains it as a holder. -/
theorem State.replRead_granted {s : State} {die frame : Nat} (fresh : die ∉ s.part.holders.getD frame [])
    (room : (s.part.holders.getD frame []).length < 8) (idle : ∀ w ∈ s.part.replWrites, w.frame ≠ frame)
    (area : die < 18 → (s.part.holders.filter (fun e => e.2.contains die)).length < s.part.replicaCap) :
    s.replRead die frame = { s with part := { s.part with
      holders := s.part.holders.put frame (s.part.holders.getD frame [] ++ [die]) } } := by
  have unheld : (s.part.holders.getD frame []).contains die = false := by simpa using fresh
  have none_waits : s.part.replWrites.any (fun w => w.frame == frame) = false := by simpa using idle
  have free : (decide (die < 18) && decide (s.part.replicaCap ≤ (s.part.holders.filter (fun e => e.2.contains die)).length)) = false := by
    simpa using area
  unfold State.replRead
  dsimp only
  rw [unheld, none_waits, free, if_neg (by simpa using room)]
  rfl

/-- Notices given one after another. -/
theorem State.foldl_notify {α : Type} (f : α → Notice) (l : List α) (s : State) :
    l.foldl (fun s x => s.notify (f x)) s = { s with notices := s.notices ++ l.map f } := by
  induction l generalizing s with
  | nil => simp
  | cons x l ih =>
    rw [List.foldl_cons, ih]
    simp [State.notify]

/-- Holders on other chips are told; those on this chip are told by its own network. -/
theorem State.invalidate_eq (s : State) (frame : Nat) (hs : List Nat) : s.invalidate frame hs = { s with
    notices := s.notices ++ (hs.filter (fun h => decide (18 ≤ h))).map (fun h => .invalidate ((h - 18) / 8) ((h - 18) % 8) frame) } :=
  State.foldl_notify (fun h => .invalidate ((h - 18) / 8) ((h - 18) % 8) frame) _ s

/-- A write that its home performs. -/
theorem State.performRepl_part (s : State) (w : ReplWrite) : (s.performRepl w).part =
    { s.part with replWrites := s.part.replWrites.erase w, holders := s.part.holders.drop w.frame } := rfl
theorem State.performRepl_mem (s : State) (w : ReplWrite) : (s.performRepl w).mem = s.mem.writeBytes w.key w.data := rfl

section
variable {part : Nat} {w : ReplWrite} {s : State}

/-- A write that no holder's acknowledgement is asked for is performed. -/
theorem exec_replicaWrite_performs (taken : (s.focusPart part).nextRepl = some w)
    (ready : w.sent = true ∨ (s.focusPart part).part.holders.getD w.frame [] = []) :
    exec (.replicaWrite part) s = .next ((s.focusPart part).performRepl w) := by
  have arm : exec (.replicaWrite part) s = execReplicaWrite part s := rfl
  have none_asked : (if w.sent then [] else (s.focusPart part).part.holders.getD w.frame []) = [] := by
    obtain sent | unheld := ready
    · rw [if_pos sent]
    · rw [unheld, ite_self]
  rw [arm, execReplicaWrite, taken]
  simp only [none_asked]

/-- The holders of a write's frame are told to drop their copies, and the write waits for them. -/
theorem exec_replicaWrite_invalidates (taken : (s.focusPart part).nextRepl = some w) (fresh : w.sent = false)
    (held : (s.focusPart part).part.holders.getD w.frame [] ≠ []) :
    let u := s.focusPart part
    let hs := u.part.holders.getD w.frame []
    exec (.replicaWrite part) s = .next ((u.invalidate w.frame hs).onPart (fun p =>
      { p with replWrites := p.replWrites.map (fun x => if x = w then { w with waiting := hs, sent := true } else x) })) := by
  intro u hs
  have arm : exec (.replicaWrite part) s = execReplicaWrite part s := rfl
  have asked : (if w.sent then [] else (s.focusPart part).part.holders.getD w.frame []) = hs := by rw [fresh]; rfl
  obtain ⟨h, rest, cons⟩ : ∃ h rest, hs = h :: rest := List.exists_cons_of_ne_nil held
  rw [arm, execReplicaWrite, taken]
  simp only [asked, cons]
  rfl

/-- The last holder's acknowledgement: the write is performed. -/
theorem exec_holderAck_last {die : Nat} (asked : (s.focusPart part).ackedRepl die = some w) (last : w.waiting.erase die = []) :
    exec (.holderAck part die) s = .next ((s.focusPart part).performRepl w) := by
  have arm : exec (.holderAck part die) s = execHolderAck part die s := rfl
  rw [arm, execHolderAck, asked]
  exact congrArg Host.Outcome.next (if_pos (by simp [last]))

/-- Another holder's acknowledgement: the write waits for the others. -/
theorem exec_holderAck_waits {die : Nat} (asked : (s.focusPart part).ackedRepl die = some w) (others : w.waiting.erase die ≠ []) :
    let u := s.focusPart part
    exec (.holderAck part die) s = .next { u with part := { u.part with
      replWrites := u.part.replWrites.map (fun x => if x = w then { w with waiting := w.waiting.erase die } else x) } } := by
  have arm : exec (.holderAck part die) s = execHolderAck part die s := rfl
  rw [arm, execHolderAck, asked]
  exact congrArg Host.Outcome.next (if_neg (by simpa using others))

end

end Sys2Proof.Machine
end

section
/-! PROOFS. The obligations of spec/03_host_trust.md. -/

namespace Sys2Proof.Proofs

open Sys2Proof.Machine

/-- Settles O37: each event by the equation of what it leaves. -/
theorem submissionSealAndGuardEvents : Obligations.SubmissionSealAndGuardEvents := by
  unfold Obligations.SubmissionSealAndGuardEvents
  refine ⟨?submit, ?copy, ?window, ?sealAndReset, ?attest, ?confirm, ?hostWrite, ?frame⟩
  case submit =>
    intro part n v s u live
    rw [exec_submitWrite live, State.submit_eq]
  case copy =>
    intro part off rest s u live resident queued
    exact exec_submissionCopy live resident queued
  case window =>
    intro part off data s u v live
    refine ⟨fun inside unheld idle => ?_, exec_submissionWindowWrite_partSubmit live data, exec_submissionWindowWrite_subst live data,
      exec_submissionWindowWrite_seal live data⟩
    rw [exec_submissionWindowWrite_memory live inside, State.frameWrite_of_unheld unheld idle]
    exact ⟨_, _, rfl⟩
  case sealAndReset =>
    intro part s u live
    obtain ⟨t, ht⟩ := exec_vfFunctionLevelReset live
    exact ⟨exec_sealOpen live, exec_sealClose live, _, ht, rfl, rfl⟩
  case attest =>
    intro nonce s size idle left
    exact congrArg _ (State.askSign_granted size idle left s.measure)
  case confirm => exact fun r s asked => exec_keyCounterConfirm asked
  case hostWrite =>
    intro windows addr pa n data s locked ws u g passes
    refine ⟨fun h => ?_, fun h => ?_, exec_serviceCoreHostWrite_memory locked windows addr pa n⟩
    · exact ⟨_, _, (exec_serviceCoreHostWrite_own locked windows addr data).trans (congrArg _ (State.hostPut_of_passes (s := u) h))⟩
    · exact (exec_serviceCoreHostWrite_own locked windows addr data).trans (congrArg _ (State.hostPut_of_not_passes (s := u) h))
  case frame => exact fun port n s locked => exec_ethernetFrameSend locked port.val n

/-- Settles O47: walks by where they end, shootdowns by what each core still awaits, replicated frames by who holds them. -/
theorem translationAndReplicaEvents : Obligations.TranslationAndReplicaEvents := by
  unfold Obligations.TranslationAndReplicaEvents
  refine ⟨⟨?walk, ?prefetch, ?upWait⟩, ⟨?start, ?ack⟩, ?read, ?write, ?holderAck⟩
  case walk =>
    intro site w s u va at_ found
    have turned : (s.focus site s.cx).focus (s.focus site s.cx).site w.cx = u := by rw [State.focus_site]
    have mem : u.mem = s.mem := (State.focus_mem ..).trans (State.focus_mem ..)
    have peers : u.peers = s.peers := (State.focus_peers ..).trans (State.focus_peers ..)
    refine ⟨_, exec_pageWalkComplete found, ?_⟩
    cases ends : u.walkFrom 4 at_.1 at_.2 va with
    | error c =>
      obtain ⟨e, h⟩ := State.endWalk_fault turned rfl ends
      rw [h]
      refine ⟨mem, rfl, rfl, Core.not_mem_walkDone u.core w, fun c' hc => ?_, fun l hl => nomatch hl⟩
      cases hc
      exact ⟨Core.walkDone_tlb u.core w w.tlb, rfl⟩
    | ok l =>
      obtain ⟨e, caches, h⟩ := State.endWalk_fills turned rfl ends
      rw [h]
      refine ⟨mem, rfl, rfl, ?notWalked, fun c hc => (nomatch hc), fun l' hl => ?_⟩
      case notWalked => exact (Core.setTlb_walks ..).symm ▸ Core.not_mem_walkDone u.core w
      cases hl
      refine ⟨Core.setTlb_wfault .., _, (congrArg _ (Core.tlb_setTlb ..)).trans (head?_insertTlb ..), rfl, rfl, rfl, fun remote k chip => ?_⟩
      exact (State.leafInc_remote remote chip).trans (by rw [peers])
  case prefetch =>
    intro site cx b at_ s u fetched ahead due
    exact exec_prefetchReady fetched ahead due
  case upWait =>
    intro site cx s u ended
    exact exec_peerUpWaitTimeout ended
  case start =>
    intro part v s u told live idle
    have pid : u.pid = part := State.focusPart_pid ..
    refine ⟨fun kind => ?invctl, ?ptroot, fun map => ⟨fun granted => ?map, exec_partitionMapChange_refused part⟩⟩
    case invctl =>
      rw [exec_invctlWrite live idle kind, State.writeInvctl, State.startShoot_frame, if_neg kind, State.onPart_pid, pid]
      rfl
    case ptroot =>
      rw [exec_ptrootWrite live idle, State.writePtroot, State.startShoot_frame, if_neg (by decide), State.onPart_pid, pid]
      rfl
    case map =>
      have free : ¬(u.onPart (fun p => { p with mapWritten := map.take 64 })).part.busy = true := ne_true_of_eq_false idle
      rw [exec_partitionMapChange live granted, State.changeMap, if_neg free, State.startShoot_frame, if_pos rfl]
      rfl
  case ack =>
    intro part site k s u first ds clear shoots told
    obtain ⟨l, listed, acks⟩ := State.ackShoot_eq (s := u) shoots told
    obtain ⟨core, ctx, octx, cores, images, frame⟩ := u.told_frame k site
    have clears : clear ↔ (u.told k site).shootClear site l = true := by
      rw [State.shootClear_told]
      refine ⟨fun ⟨l', listed', h⟩ => ?_, fun h => ⟨l, listed, h⟩⟩
      cases listed.symm.trans listed'
      exact h
    refine ⟨u.ackShoot site, rfl, ?mem, fun st live => ?tlb, fun h => ?waits, fun h others => ?acknowledged, fun h last => ?ended⟩
    case mem =>
      rw [acks, State.acknowledge_frame, frame]
      exact State.focusPart_mem ..
    case tlb =>
      rw [acks, State.acknowledge_frame]
      exact State.tlb_told k (live.trans (congrArg some (State.focusPart_pid ..).symm)) st
    case waits =>
      rw [acks, State.acknowledge_open (mt clears.mpr h), frame]
      exact ⟨rfl, rfl, rfl⟩
    case acknowledged =>
      rw [acks, State.acknowledge_clear (k := { k with dropped := u.toldBy k site }) (clears.mp h) others, frame]
      exact ⟨rfl, rfl, rfl⟩
    case ended =>
      obtain ⟨busy, shoot, ends, quiet⟩ := (u.told k site).endShoot_frame { k with dropped := u.toldBy k site, waiting := [] }
      rw [acks, State.acknowledge_last (k := { k with dropped := u.toldBy k site }) (clears.mp h) last, ends, frame]
      rw [frame] at quiet
      exact ⟨rfl, quiet⟩
  case read =>
    intro part die frame s u hs fresh room idle area
    exact congrArg _ (State.replRead_granted fresh room idle area)
  case write =>
    intro part w s u hs taken
    refine ⟨fun ready => ⟨_, exec_replicaWrite_performs taken ready, ?_, State.performRepl_part u w⟩, fun fresh held => ?_⟩
    · rw [State.performRepl_mem, State.focusPart_mem]
    · rw [exec_replicaWrite_invalidates taken fresh held, State.invalidate_eq, State.focusPart_notices]
      rfl
  case holderAck =>
    intro part die w s u asked
    refine ⟨exec_holderAck_waits asked, fun last => ⟨_, exec_holderAck_last asked last, ?_, State.performRepl_part u w⟩⟩
    rw [State.performRepl_mem, State.focusPart_mem]

end Sys2Proof.Proofs
end

section
/-! SUPPORT. What atomics on completion counters, and the broadcast of a cancel, leave (R64, R78, R94, R95). -/

namespace Sys2Proof.Machine

open Sys2Proof.Claims

/-! ### Counter words (R64) -/

/-- A bit set leaves the bits above it. -/
theorem ctrSet_div (w : Nat) (on : Bool) {b c : Nat} (above : b < c) : ctrSet w b on / 2 ^ c = w / 2 ^ c := by
  unfold ctrSet
  split
  case isFalse => rfl
  case isTrue clear =>
    obtain ⟨d, rfl⟩ : ∃ d, c = b + 1 + d := ⟨c - (b + 1), by omega⟩
    have even : w / 2 ^ b % 2 = 0 := by simp [ctrBit] at clear; omega
    have carry : (w + 2 ^ b) / 2 ^ b = w / 2 ^ b + 1 := Nat.add_div_right _ (Nat.two_pow_pos b)
    rw [Nat.pow_add, Nat.pow_add, Nat.pow_one, ← Nat.div_div_eq_div_mul, ← Nat.div_div_eq_div_mul, carry, ← Nat.div_div_eq_div_mul,
      ← Nat.div_div_eq_div_mul]
    congr 1
    omega

theorem ctrBit_ctrSet_of_lt (w : Nat) (on : Bool) {b c : Nat} (above : b < c) : ctrBit (ctrSet w b on) c = ctrBit w c := by
  rw [ctrBit, ctrSet_div w on above, ctrBit]

/-- A status bit set leaves the count. -/
theorem ctrCount_ctrSet (w : Nat) (on : Bool) {b : Nat} (status : 40 ≤ b) : ctrCount (ctrSet w b on) = ctrCount w := by
  unfold ctrCount ctrSet
  split
  · rw [Nat.add_mod, Nat.mod_eq_zero_of_dvd (Nat.pow_dvd_pow 2 status), Nat.add_zero, Nat.mod_mod]
  · rfl

/-! ### Atomics on counters (R64, R137, R189, R191) -/

section
variable {s : State} {a : Word} {w : Nat}

/-- A counter word is found where its address leads, unless it is in error. -/
theorem State.ctr_eq_some (h : s.ctr a = some w) :
    ∃ p, s.placeNow .atomic a.toNat 8 = .ok p ∧ s.readBad p.key 8 = false ∧ leNat (s.homeBytes p.key 8) = w := by
  unfold State.ctr State.ctrAt at h
  split at h
  · cases h
  next p placed =>
    split at h
    · cases h
    next whole => exact ⟨p, placed, by simpa using whole, Option.some.inj h⟩

theorem State.ctr_eq_none (h : s.ctr a = none) :
    (∃ c, s.placeNow .atomic a.toNat 8 = .error c) ∨ ∃ p, s.placeNow .atomic a.toNat 8 = .ok p ∧ s.readBad p.key 8 = true := by
  unfold State.ctr State.ctrAt at h
  split at h
  next c stopped => exact .inl ⟨c, stopped⟩
  next p placed =>
    split at h
    next bad => exact .inr ⟨p, placed, bad⟩
    · cases h

/-- An atomic on a counter that is found writes what it makes of the word. -/
theorem counted_of_ctr (h : s.ctr a = some w) (f : Nat → Nat) : counted s a f = s.putCtr a (f w) := by
  obtain ⟨p, placed, whole, rfl⟩ := State.ctr_eq_some h
  simp [counted, State.putCtr, placed, whole]

/-- An atomic on a counter that is not found is dropped. -/
theorem counted_of_ctr_none (h : s.ctr a = none) (f : Nat → Nat) : counted s a f = s := by
  obtain ⟨c, stopped⟩ | ⟨p, placed, bad⟩ := State.ctr_eq_none h
  · simp [counted, stopped]
  · simp [counted, placed, bad]

end

theorem State.setCtrBit_eq_counted (s : State) (a : Word) (b : Nat) : s.setCtrBit a b = counted s a (fun w => ctrSet w b true) := by
  unfold State.setCtrBit
  split
  next w found => rw [counted_of_ctr found]
  next lost => rw [counted_of_ctr_none lost]

theorem State.countMiss_eq_counted (s : State) (a : Activity) :
    s.countMiss a = counted s (a.addr + 32) (fun w => min (w + 1) (2 ^ 64 - 1)) := by
  unfold State.countMiss
  split
  next w found => rw [counted_of_ctr found]
  next lost => rw [counted_of_ctr_none lost]

/-- An atomic changes memory, the words in error and their counts, and the writes that homes keep waiting. -/
theorem State.putCtr_frame (s : State) (a : Word) (w : Nat) : ∃ mem badWords flips corrections memctl replWrites, s.putCtr a w = { s with
    mem := mem, badWords := badWords, flips := flips, corrections := corrections, memctl := memctl
    part := { s.part with replWrites := replWrites } } := by
  unfold State.putCtr
  split
  · exact ⟨_, _, _, _, _, _, rfl⟩
  next p placed =>
    split
    · obtain ⟨memctl, met⟩ := s.meetBad_frame p.key 8
      exact ⟨_, _, _, _, _, _, met⟩
    · obtain ⟨c, m, fl, corrects⟩ := s.correct_frame p.key 8
      have writes := (s.correct p.key 8).frameWrite_frame p.replFrame p.key (leBytes 8 w) 288 false 4 none
      rw [State.homeFrame, corrects] at writes
      rw [State.hwWrite, corrects, writes]
      exact ⟨_, _, _, _, _, _, rfl⟩

theorem counted_frame (s : State) (a : Word) (f : Nat → Nat) : ∃ mem badWords flips corrections memctl replWrites, counted s a f = { s with
    mem := mem, badWords := badWords, flips := flips, corrections := corrections, memctl := memctl
    part := { s.part with replWrites := replWrites } } := by
  cases counter : s.ctr a with
  | none =>
    rw [counted_of_ctr_none counter]
    exact ⟨_, _, _, _, _, _, rfl⟩
  | some w =>
    rw [counted_of_ctr counter]
    exact s.putCtr_frame a (f w)

theorem counted_part (s : State) (a : Word) (f : Nat → Nat) :
    (counted s a f).part = { s.part with replWrites := (counted s a f).part.replWrites } := by
  obtain ⟨_, _, _, _, _, _, h⟩ := counted_frame s a f
  rw [h]

@[simp] theorem counted_cycle (s : State) (a : Word) (f : Nat → Nat) : (counted s a f).cycle = s.cycle := by
  obtain ⟨_, _, _, _, _, _, h⟩ := counted_frame s a f
  rw [h]

/-! ### Chains of work (R64) -/

@[simp] theorem State.doWorks_nil (s : State) (fuel : Nat) : s.doWorks fuel [] = s := by cases fuel <;> rfl

/-- A chain without work changes nothing. -/
@[simp] theorem State.runAll_nil (s : State) : State.runAll (s, []) = s := s.doWorks_nil _

theorem State.run_cons (s : State) (x : Work) (l : List Work) : s.run (x :: l) = (s.doWork x).1.doWorks 3999999 ((s.doWork x).2 ++ l) := rfl

/-! ### Decrements (R64) -/

/-- A counter word decremented by one, with the status bits of the child that ended. -/
def ctrFallen (faulted cancelled : Bool) (w : Nat) : Nat := ctrSet (ctrSet (w - 1) 41 faulted) 40 cancelled

theorem ctrCount_ctrFallen (faulted cancelled : Bool) (w : Nat) : ctrCount (ctrFallen faulted cancelled w) = ctrCount (w - 1) := by
  rw [ctrFallen, ctrCount_ctrSet _ _ (Nat.le_refl 40), ctrCount_ctrSet _ _ (by omega)]

/-- The last child's end leaves the bits above the status bits that it sets. -/
theorem ctrDone_div (faulted cancelled : Bool) {w c : Nat} (last : ctrCount w = 1) (above : 43 < c) :
    ctrSet (ctrFallen faulted cancelled w) 43 true / 2 ^ c = w / 2 ^ c := by
  have low : (w - 1) / 2 ^ 40 = w / 2 ^ 40 := by
    unfold ctrCount at last
    omega
  obtain ⟨d, rfl⟩ : ∃ d, c = 40 + d := ⟨c - 40, by omega⟩
  rw [ctrSet_div _ _ above, ctrFallen, ctrSet_div _ _ (by omega), ctrSet_div _ _ (by omega), Nat.pow_add, ← Nat.div_div_eq_div_mul, low,
    Nat.div_div_eq_div_mul]

/-- What a post names of a counter word. -/
theorem State.postOf_congr (s : State) {v w : Nat} (evv : v / 2 ^ 47 = w / 2 ^ 47) (name : v / 2 ^ 48 = w / 2 ^ 48) : s.postOf v = s.postOf w := by
  rw [State.postOf, State.postOf, ctrBit, ctrBit, evv, name]

@[simp] theorem State.postOf_levels (s : State) (w : Nat) : (s.postOf w).part.levels = s.part.levels := by
  unfold State.postOf
  split <;> rfl

section
variable {s : State} {a : Word} {w : Nat} (found : s.ctr a = some w) (faulted cancelled : Bool)
include found

theorem State.decrement_zero (zero : ctrCount w = 0) :
    s.decrement a 1 faulted cancelled = (counted s a (fun w => ctrSet w 44 true), []) := by
  rw [State.decrement, found, counted_of_ctr found]
  exact if_pos (by omega)

theorem State.decrement_above (above : 2 ≤ ctrCount w) :
    s.decrement a 1 faulted cancelled = (counted s a (ctrFallen faulted cancelled), []) := by
  have left : ctrCount (ctrFallen faulted cancelled w) ≠ 0 := by
    rw [ctrCount_ctrFallen]
    unfold ctrCount at above ⊢
    omega
  rw [State.decrement, found, counted_of_ctr found]
  exact (if_neg (by omega)).trans (if_neg left)

theorem State.decrement_last (last : ctrCount w = 1) :
    let done := ctrSet (ctrFallen faulted cancelled w) 43 true
    s.decrement a 1 faulted cancelled =
      ((counted s a (fun w => ctrSet (ctrFallen faulted cancelled w) 43 true)).postOf w, [.ended a (ctrBit done 41) (ctrBit done 40)]) := by
  intro done
  have none_left : ctrCount (ctrFallen faulted cancelled w) = 0 := by
    rw [ctrCount_ctrFallen]
    unfold ctrCount at last ⊢
    omega
  have posts (t : State) : t.postOf w = t.postOf done :=
    (t.postOf_congr (ctrDone_div _ _ last (by omega)) (ctrDone_div _ _ last (by omega))).symm
  rw [State.decrement, found, counted_of_ctr found, posts]
  exact (if_neg (by omega)).trans (if_pos none_left)

end

/-- The end of a counter that is no live level's brings about nothing more. -/
theorem State.levelEnded_of_none {s : State} {a : Word} (free : s.level? a = none) (faulted cancelled : Bool) :
    s.levelEnded a faulted cancelled = (s, []) := by
  rw [State.levelEnded, free]

theorem exec_counterDecrement {part : Nat} {s : State} (live : (s.focusPart part).part.live = true) (a : Word) (faulted cancelled : Bool) :
    exec (.counterDecrement part a faulted cancelled) s = .next ((s.focusPart part).run [.decr a 1 faulted cancelled]) :=
  congrArg Host.Outcome.next (if_pos live)

/-- A decrement that leaves nothing to do. -/
theorem State.run_decr_of_quiet {s t : State} {a : Word} {faulted cancelled : Bool} (quiet : s.decrement a 1 faulted cancelled = (t, [])) :
    s.run [.decr a 1 faulted cancelled] = t := by
  rw [State.run_cons, State.doWork, quiet, List.nil_append, State.doWorks_nil]

/-- The last decrement of a counter that is no live level's. -/
theorem State.run_decr_last {s : State} {a : Word} {w : Nat} (found : s.ctr a = some w) (last : ctrCount w = 1) (free : s.level? a = none)
    (faulted cancelled : Bool) : s.run [.decr a 1 faulted cancelled] =
      (counted s a (fun w => ctrSet (ctrFallen faulted cancelled w) 43 true)).postOf w := by
  have still : ((counted s a (fun w => ctrSet (ctrFallen faulted cancelled w) 43 true)).postOf w).level? a = none := by
    rw [State.level?, State.postOf_levels, counted_part]
    exact free
  have step (t : State) (f c : Bool) (none_live : t.level? a = none) : t.doWorks 3999999 [.ended a f c] = t := by
    have once : t.doWorks 3999999 [.ended a f c] = (t.levelEnded a f c).1.doWorks 3999998 ((t.levelEnded a f c).2 ++ []) := rfl
    rw [once, State.levelEnded_of_none none_live, List.nil_append, State.doWorks_nil]
  rw [State.run_cons, State.doWork, State.decrement_last found faulted cancelled last]
  exact step _ _ _ still

/-! ### Cancels linearised (R78, R93, R94) -/

theorem exec_cancelLinearise {part : Nat} {s : State} (live : (s.focusPart part).part.live = true) (a : Word) (level : Nat) :
    exec (.cancelLinearise part a level) s = .next ((s.focusPart part).cancelLevel a (levelKindOf level)) :=
  congrArg Host.Outcome.next (if_pos live)

section
variable {s : State} {a : Word} {l : Level} (found : s.level? a = some l)
include found

theorem State.level?_counter : l.counter = a := by simpa using List.find?_some found

theorem State.cancelLevel_again (again : l.cancelled = true) (kind : LevelKind) : s.cancelLevel a kind = s := by
  rw [State.cancelLevel, found]
  exact if_pos (.inr again)

/-- A cancel of a launch, which has no levels beneath it. -/
theorem State.cancelLevel_launch (first : l.cancelled = false) (alone : levelsUnder s.part.levels a = [l]) (kind : l.kind = .launch) :
    let v := counted s a (fun w => ctrSet w 40 true)
    s.cancelLevel a .launch = { v with part := { v.part with
      levels := v.part.levels.map (fun x => if x.counter = a then { x with cancelled := true } else x)
      casts := v.part.casts ++ [(s.cycle, a)] } } := by
  intro v
  have counter : l.counter = a := State.level?_counter found
  have cycle : v.cycle = s.cycle := counted_cycle ..
  rw [State.cancelLevel, found]
  simp only [kind, first, alone, counter, List.filter_cons, List.filter_nil, State.setCtrBit_eq_counted, List.foldl_cons, List.foldl_nil,
    Bool.false_eq_true, ne_eq, not_true_eq_false, or_self, if_false, reduceCtorEq]
  rw [← cycle]
  rfl

end

/-! ### Cancels broadcast (R94, R95) -/

/-- A turn that hears of a cancel: it is told when its launch lies at or beneath the counter. -/
def State.tell (s : State) (top : Word) (x : Turn) : Turn := if s.isUnder top x.launch then { x with cancelled := true } else x

theorem State.tell_tell (s : State) (top : Word) (x : Turn) : s.tell top (s.tell top x) = s.tell top x := by
  by_cases under : s.isUnder top x.launch = true
  · simp only [State.tell, if_pos under]
  · simp only [State.tell, if_neg under]

/-- A scheduler without turns of the cancelled level stands. -/
theorem State.sweepSched_of_spared {s : State} {top : Word} {cl : Nat}
    (spared : ∀ e ∈ (s.sched cl).heap ++ (s.sched cl).spill ++ (s.sched cl).bgq, s.isUnder top e.turn.launch = false) :
    s.sweepSched top cl = (s, []) := by
  have no_hit : ((s.sched cl).heap ++ (s.sched cl).spill ++ (s.sched cl).bgq).filter (fun e => s.hitBy top e.turn) = [] :=
    List.filter_eq_nil_iff.mpr (fun e he => by simp [State.hitBy, spared e he])
  rw [State.sweepSched, no_hit]
  rfl

/-- Wait lists without turns of the cancelled level leave nothing to do. -/
theorem State.sweepEvents_of_spared {s : State} {top : Word}
    (spared : ∀ e ∈ s.part.events, ∀ x ∈ e.2.waiters ++ e.2.overflow, s.isUnder top x.1.turn.launch = false) :
    ∃ evs, s.sweepEvents top = ({ s with part := { s.part with events := evs } }, []) := by
  have no_hit : s.part.events.flatMap (fun e => (e.2.waiters ++ e.2.overflow).filter (fun w => s.hitBy top w.1.turn)) = [] :=
    List.flatMap_eq_nil_iff.mpr (fun e he => List.filter_eq_nil_iff.mpr (fun x hx => by simp [State.hitBy, spared e he x hx]))
  rw [State.sweepEvents, no_hit]
  exact ⟨_, rfl⟩

/-- The context whose turn hears of a cancel. -/
def State.tellCtx (s : State) (top : Word) (c : Context) : Context :=
  match c.turn with
  | some x => if s.hitBy top x then { c with turn := some { x with cancelled := true } } else c
  | none => c

theorem State.tellCtx_turn (s : State) (top : Word) (c : Context) : (s.tellCtx top c).turn = c.turn.map (s.tell top) := by
  unfold State.tellCtx
  cases running : c.turn with
  | none => exact running
  | some x =>
    by_cases under : s.isUnder top x.launch = true
    · simp [State.hitBy, State.tell, under]
    · simp [State.hitBy, State.tell, under, running]

theorem State.tellCtx_x (s : State) (top : Word) (c : Context) : (s.tellCtx top c).x = c.x := by
  unfold State.tellCtx
  split
  · split <;> rfl
  · rfl

/-- A cancel's reach at a core: its turns are told, and beside them it changes pawns and the ranges that pawns hold. -/
theorem State.sweepCore_eq (s : State) (top : Word) (site : Nat) : ∃ pawns ra rb,
    let b := s.coreOf site
    s.sweepCore top site = s.putCoreOf site { core := { b.core with pawns := pawns }, a := { s.tellCtx top b.a with ranges := ra }
                                              b := { s.tellCtx top b.b with ranges := rb } } := ⟨_, _, _, rfl⟩

theorem State.sweepCore_frame (s : State) (top : Word) (site : Nat) : ∃ core ctx octx cores images, s.sweepCore top site = { s with
    core := core, ctx := ctx, octx := octx, cores := cores, part := { s.part with images := images } } := s.putCoreOf_frame site _

/-- What a cancel makes of a live core: every running turn at or beneath the counter is told, and the registers stand. -/
def State.toldTurns (s : State) (top : Word) (b d : CoreBox) : Prop :=
  ∀ cx, (d.ctx cx).turn = (b.ctx cx).turn.map (s.tell top) ∧ (d.ctx cx).x = (b.ctx cx).x

/-- The live cores of other sites stand. -/
theorem State.boxAt_sweepCore_ne (s : State) (top : Word) {site i : Nat} (other : i ≠ site) : (s.sweepCore top site).boxAt i = s.boxAt i := by
  rw [State.sweepCore, State.putCoreOf]
  split
  · exact s.boxAt_putBox_ne _ other
  · rfl

/-- A live core tells its turns. -/
theorem State.boxAt_sweepCore {s : State} {site : Nat} (live : (s.boxAt site).core.part = some s.pid) (top : Word) :
    ((s.sweepCore top site).boxAt site).core.part = some s.pid ∧ s.toldTurns top (s.boxAt site) ((s.sweepCore top site).boxAt site) := by
  obtain ⟨pawns, ra, rb, swept⟩ := s.sweepCore_eq top site
  have here : s.coreOf site = s.boxAt site := if_pos live
  rw [swept, here, State.putCoreOf, if_pos live, State.boxAt_putBox]
  refine ⟨live, fun cx => ?_⟩
  cases cx
  · exact ⟨s.tellCtx_turn top _, s.tellCtx_x top _⟩
  · exact ⟨s.tellCtx_turn top _, s.tellCtx_x top _⟩

/-- Told again, turns stand as they have been told. -/
theorem State.toldTurns_trans {s : State} {top : Word} {b d e : CoreBox} (first : s.toldTurns top b d) (again : s.toldTurns top d e) :
    s.toldTurns top b e := by
  intro cx
  obtain ⟨turn, x⟩ := first cx
  obtain ⟨turn', x'⟩ := again cx
  refine ⟨?_, x'.trans x⟩
  rw [turn', turn, Option.map_map]
  exact congrArg (fun f => Option.map f _) (funext (s.tell_tell top))

/-- The cores of a list swept, one after another. -/
def State.sweepCores (s : State) (top : Word) (l : List (Nat × Nat)) : State := l.foldl (fun s e => s.sweepCore top e.1) s

theorem State.sweepCores_frame (s : State) (top : Word) (l : List (Nat × Nat)) : ∃ core ctx octx cores images, s.sweepCores top l = { s with
    core := core, ctx := ctx, octx := octx, cores := cores, part := { s.part with images := images } } := by
  refine List.foldlRecOn (motive := fun (t : State) => ∃ core ctx octx cores images, t = { s with
    core := core, ctx := ctx, octx := octx, cores := cores, part := { s.part with images := images } }) _ _ ⟨_, _, _, _, _, rfl⟩ ?_
  rintro _ ⟨core, ctx, octx, cores, images, rfl⟩ e -
  obtain ⟨_, _, _, _, _, h⟩ := State.sweepCore_frame { s with
    core := core, ctx := ctx, octx := octx, cores := cores, part := { s.part with images := images } } top e.1
  exact ⟨_, _, _, _, _, h⟩

theorem State.sweepCores_mem (s : State) (top : Word) (l : List (Nat × Nat)) : (s.sweepCores top l).mem = s.mem := by
  obtain ⟨_, _, _, _, _, h⟩ := s.sweepCores_frame top l
  rw [h]

theorem State.sweepCores_casts (s : State) (top : Word) (l : List (Nat × Nat)) : (s.sweepCores top l).part.casts = s.part.casts := by
  obtain ⟨_, _, _, _, _, h⟩ := s.sweepCores_frame top l
  rw [h]

/-- What one core's sweep leaves of the terms in which the next is told: the partition, and what lies beneath a counter. -/
theorem State.tell_sweepCore (s : State) (top : Word) (site : Nat) : (s.sweepCore top site).tell top = s.tell top := by
  obtain ⟨_, _, _, _, _, h⟩ := s.sweepCore_frame top site
  rw [h]
  rfl

theorem State.sweepCore_pid (s : State) (top : Word) (site : Nat) : (s.sweepCore top site).pid = s.pid := by
  obtain ⟨_, _, _, _, _, h⟩ := s.sweepCore_frame top site
  rw [h]

theorem State.toldTurns_sweepCore (s : State) (top : Word) (site : Nat) : (s.sweepCore top site).toldTurns top = s.toldTurns top := by
  funext b d
  rw [State.toldTurns, State.tell_sweepCore, State.toldTurns]

/-- Every live core of the list tells its turns, whether the list names it once or again. -/
theorem State.boxAt_sweepCores {s : State} {i : Nat} (live : (s.boxAt i).core.part = some s.pid) (top : Word) (l : List (Nat × Nat)) :
    (i ∈ l.map Prod.fst → s.toldTurns top (s.boxAt i) ((s.sweepCores top l).boxAt i)) ∧
    (i ∉ l.map Prod.fst → (s.sweepCores top l).boxAt i = s.boxAt i) := by
  induction l generalizing s with
  | nil => exact ⟨fun h => absurd h List.not_mem_nil, fun _ => rfl⟩
  | cons e l ih =>
    have step : s.sweepCores top (e :: l) = (s.sweepCore top e.1).sweepCores top l := rfl
    rw [step, List.map_cons]
    by_cases here : i = e.1
    · subst here
      obtain ⟨live', told⟩ := State.boxAt_sweepCore live top
      obtain ⟨again, once⟩ := ih (live'.trans (congrArg some (s.sweepCore_pid top e.1).symm))
      rw [State.toldTurns_sweepCore] at again
      refine ⟨fun _ => ?_, fun h => absurd List.mem_cons_self h⟩
      by_cases more : e.1 ∈ l.map Prod.fst
      · exact State.toldTurns_trans told (again more)
      · rw [once more]
        exact told
    · have stands := s.boxAt_sweepCore_ne top here
      obtain ⟨among, apart⟩ := ih (s := s.sweepCore top e.1) (by rw [stands, State.sweepCore_pid]; exact live)
      rw [State.toldTurns_sweepCore, stands] at among
      rw [stands] at apart
      exact ⟨fun h => among ((List.mem_cons.mp h).resolve_left here), fun h => apart (fun later => h (List.mem_cons_of_mem _ later))⟩

/-- A cancel that reaches no queued and no waiting turn goes to the cores alone. -/
theorem State.sweep_of_spared {s : State} {top : Word}
    (queued : ∀ cl ∈ s.part.clusters, ∀ e ∈ (s.sched cl).heap ++ (s.sched cl).spill ++ (s.sched cl).bgq, s.isUnder top e.turn.launch = false)
    (waiting : ∀ e ∈ s.part.events, ∀ x ∈ e.2.waiters ++ e.2.overflow, s.isUnder top x.1.turn.launch = false) :
    ∃ evs, s.sweep top = ({ s with part := { s.part with events := evs } } : State).sweepCores top s.part.cores := by
  have scheds : s.part.clusters.foldl (fun s cl => State.runAll (s.sweepSched top cl)) s = s := by
    refine List.foldlRecOn (motive := fun t => t = s) _ _ rfl ?_
    rintro _ rfl cl hcl
    rw [State.sweepSched_of_spared (queued cl hcl), State.runAll_nil]
  obtain ⟨evs, events⟩ := State.sweepEvents_of_spared waiting
  refine ⟨evs, ?_⟩
  rw [State.sweep, scheds, events, State.runAll_nil]
  rfl

theorem exec_cancelBroadcast {part at_ : Nat} {top : Word} {rest : List (Nat × Word)} {s : State}
    (oldest : (s.focusPart part).part.casts = (at_, top) :: rest) :
    let u := s.focusPart part
    exec (.cancelBroadcast part) s = .next (({ u with part := { u.part with casts := rest } } : State).sweep top) := by
  have arm : exec (.cancelBroadcast part) s = execCancelBroadcast part s := rfl
  rw [arm, execCancelBroadcast, oldest]
  rfl

end Sys2Proof.Machine
end

section
/-! SUPPORT. What the loader, releases, the selector and missed deadlines leave (R65 to R71, R254). -/

namespace Sys2Proof.Machine

open Sys2Proof.Claims

/-! ### What translations and reads do not look at (R120 to R124) -/

/-- What the loader and the schedulers keep for a partition besides memory: the serial counter, copied records, jobs, levels, rack
operations. -/
structure Ledger where
  serial : Nat
  copied : List (Nat × List (BitVec 8))
  jobs : List Job
  levels : List Level
  rackops : List RackOp

/-- The ledger of the partition in focus. -/
def State.ledger (s : State) : Ledger :=
  { serial := s.serial, copied := s.part.copied, jobs := s.part.jobs, levels := s.part.levels, rackops := s.part.rackops }

/-- The state with another ledger. -/
def State.withLedger (s : State) (k : Ledger) : State := { s with
  serial := k.serial, part := { s.part with copied := k.copied, jobs := k.jobs, levels := k.levels, rackops := k.rackops } }

section
variable (s : State) (k : Ledger)

@[simp] theorem State.withLedger_cycle : (s.withLedger k).cycle = s.cycle := rfl

theorem State.walkFrom_withLedger (fuel level table va : Nat) : (s.withLedger k).walkFrom fuel level table va = s.walkFrom fuel level table va := by
  induction fuel generalizing level table with
  | zero => rfl
  | succ n ih =>
    have allows (a : Acc) (pa n : Nat) : (s.withLedger k).mapAllows a pa n = s.mapAllows a pa n := rfl
    have names (pa : Nat) : (s.withLedger k).names pa = s.names pa := rfl
    have bad (pa n : Nat) : (s.withLedger k).readBad pa n = s.readBad pa n := rfl
    have entry (level pa n : Nat) : (s.withLedger k).readPte level ((s.withLedger k).readPa pa n) = s.readPte level (s.readPa pa n) := rfl
    simp only [State.walkFrom, ih, allows, names, bad, entry]

theorem State.placeNow_withLedger (a : Acc) (va n : Nat) : (s.withLedger k).placeNow a va n = s.placeNow a va n := by
  have walk : (s.withLedger k).walk va = s.walk va := s.walkFrom_withLedger k 4 1 _ va
  have window : (s.withLedger k).windowKey va n = s.windowKey va n := rfl
  have stops (l : Leaf) : (s.withLedger k).agentStops l va = s.agentStops l va := rfl
  have place (l : Leaf) : (s.withLedger k).placeBy l a va n = s.placeBy l a va n := rfl
  simp only [State.placeNow, walk, window, stops, place]

theorem State.readVa_withLedger (va n : Nat) : (s.withLedger k).readVa va n = s.readVa va n := by
  rw [State.readVa, State.placeNow_withLedger]
  rfl

theorem State.readDwords_withLedger (a n : Nat) : (s.withLedger k).readDwords a n = s.readDwords a n := by
  induction n generalizing a with
  | zero => rfl
  | succ n ih => simp only [State.readDwords, State.readVa_withLedger, ih]

theorem State.ctr_withLedger (a : Word) : (s.withLedger k).ctr a = s.ctr a := by
  rw [State.ctr, State.ctrAt, State.placeNow_withLedger]
  rfl

theorem State.ctrHas_withLedger (a : Word) (b : Nat) : (s.withLedger k).ctrHas a b = s.ctrHas a b := by
  rw [State.ctrHas, State.ctr_withLedger]
  rfl

theorem State.correct_withLedger (key n : Nat) : (s.withLedger k).correct key n = (s.correct key n).withLedger k := by
  have note (t : State) (w : Nat) : (t.withLedger k).noteCorrected w = (t.noteCorrected w).withLedger k := by
    unfold State.noteCorrected
    dsimp only
    split <;> rfl
  have notes (t : State) (l : List Nat) : l.foldl (fun t w => t.noteCorrected (w / 64 * 64)) (t.withLedger k) =
      (l.foldl (fun t w => t.noteCorrected (w / 64 * 64)) t).withLedger k :=
    List.foldl_hom (fun t => State.withLedger t k) (fun t w => note t (w / 64 * 64))
  have hits : (s.withLedger k).flips = s.flips := rfl
  unfold State.correct
  dsimp only
  rw [hits]
  split
  · rfl
  · exact notes { s with flips := _ } _

theorem State.frameWrite_withLedger (frame : Option Nat) (key : Nat) (bs : List (BitVec 8)) (site : Nat) (cx : Bool) (path : Nat)
    (serial : Option Nat) :
    (s.withLedger k).frameWrite frame key bs site cx path serial = (s.frameWrite frame key bs site cx path serial).withLedger k := by
  unfold State.frameWrite
  split
  · rfl
  next f =>
    have holders : (s.withLedger k).part.holders = s.part.holders := rfl
    have waits : (s.withLedger k).part.replWrites = s.part.replWrites := rfl
    rw [holders, waits]
    split <;> rfl

/-- An atomic on a counter and the ledger do not touch. -/
theorem counted_withLedger (a : Word) (f : Nat → Nat) : counted (s.withLedger k) a f = (counted s a f).withLedger k := by
  have bad (key n : Nat) : (s.withLedger k).readBad key n = s.readBad key n := rfl
  have home (key n : Nat) : (s.withLedger k).homeBytes key n = s.homeBytes key n := rfl
  unfold counted
  rw [State.placeNow_withLedger]
  split
  next p placed =>
    rw [bad, home, State.correct_withLedger, State.hwWrite, State.frameWrite_withLedger]
    split <;> rfl
  · rfl

end

/-! ### Activities of a job (R67, R68) -/

theorem State.act?_onAct {s : State} {job act : Nat} {a : Activity} (found : s.act? job act = some a) (f : Activity → Activity) :
    (s.onAct job act f).act? job act = some (f a) := by
  unfold State.act? at found ⊢
  split at found
  next j listed => simp [State.onAct, State.onJob, List.getElem?_mapIdx, listed, found]
  · cases found

/-- The jobs of a ledger are all that says what its activities are. -/
theorem State.act?_of_jobs {s t : State} (jobs : t.part.jobs = s.part.jobs) (job act : Nat) : t.act? job act = s.act? job act := by
  rw [State.act?, State.act?, jobs]

/-- An activity changed is a change of the ledger. -/
theorem State.onAct_eq_withLedger (s : State) (job act : Nat) (f : Activity → Activity) :
    s.onAct job act f = s.withLedger { s.ledger with jobs := (s.onAct job act f).part.jobs } := rfl

theorem State.ctrHas_onAct (s : State) (job act : Nat) (f : Activity → Activity) (a : Word) (b : Nat) :
    (s.onAct job act f).ctrHas a b = s.ctrHas a b := by
  rw [State.onAct_eq_withLedger, State.ctrHas_withLedger]
theorem State.readDwords_onAct (s : State) (job act : Nat) (f : Activity → Activity) (a n : Nat) :
    (s.onAct job act f).readDwords a n = s.readDwords a n := by
  rw [State.onAct_eq_withLedger, State.readDwords_withLedger]

/-- The close of a selector's port is a change of the ledger (R71). -/
theorem State.closeSelector_eq_withLedger (s : State) (job act rack port : Nat) : ∃ k : Ledger,
    s.closeSelector job act rack port = s.withLedger k ∧ k.jobs = s.part.jobs := by
  unfold State.closeSelector
  split
  · exact ⟨s.ledger, rfl, rfl⟩
  · exact ⟨{ s.ledger with serial := _, rackops := _ }, rfl, rfl⟩

/-! ### Releases (R68 to R71) -/

/-- Nothing holds up an activity that may be released. -/
theorem State.not_blocked_of_mayRelease {s : State} {job : Nat} {a : Activity} (may : s.mayRelease job a = true) :
    ∃ j, s.part.jobs[job]? = some j ∧
    (!j.live || a.ended || (decide (a.limit ≠ 0) && decide (a.limit ≤ a.made)) || s.ctrHas j.counter 40) = false := by
  unfold State.mayRelease at may
  split at may
  next j listed =>
    refine ⟨j, listed, ?_⟩
    simp only [Bool.and_eq_true, Bool.or_eq_true, Bool.not_eq_true', decide_eq_true_eq] at may
    obtain ⟨⟨⟨live, going⟩, left⟩, uncancelled⟩ := may
    have below : ¬a.limit = 0 → a.made < a.limit := left.resolve_left
    simpa [live, going, uncancelled] using below
  · cases may

/-- The level of an activity's phase. -/
def phaseLevel (job act : Nat) (j : Job) (a : Activity) : Level :=
  { kind := .phase, counter := a.phase, parent := j.counter, job := job, act := act, node := none, draw := 0, drawHeld := 0, cancelled := false }

/-- The ledger in which an activity's phase has begun, with its deadline. -/
def State.begun (s : State) (job act at_ : Nat) (j : Job) (a : Activity) : Ledger :=
  { s.ledger with
    jobs := ((s.onAct job act (fun a => { a with made := a.made + 1, nextDt := a.nextDt + a.period })).onAct job act (fun a =>
      { a with live := true, missed := false, deadline := BitVec.ofNat 64 at_ + a.rel, selOpen := false })).part.jobs
    levels := s.part.levels ++ [phaseLevel job act j a] }

section
variable {s : State} {job act : Nat} {a : Activity} (found : s.act? job act = some a)
include found

/-- A release of an activity whose phase still lives is a miss. -/
theorem State.release_miss (may : s.mayRelease job a = true) (live : a.live = true) (at_ : Nat) :
    s.release job act at_ =
      (counted (counted (s.onAct job act (fun a => { a with made := a.made + 1, nextDt := a.nextDt + a.period })) (a.addr + 32)
        (fun w => min (w + 1) (2 ^ 64 - 1))) a.phase (fun w => ctrSet w 42 true), []) := by
  obtain ⟨j, listed, free⟩ := State.not_blocked_of_mayRelease may
  rw [State.release, listed, found]
  simp only [live, if_true, State.setCtrBit_eq_counted, State.countMiss_eq_counted]
  exact if_neg (ne_true_of_eq_false free)

/-- A release of an activity without a live phase begins one. -/
theorem State.release_begins (may : s.mayRelease job a = true) (idle : a.live = false) (at_ : Nat) : ∃ j,
    s.release job act at_ = ((counted s a.phase (fun w => ctrCreate w 1)).withLedger (s.begun job act at_ j a)).beginSelect job act := by
  obtain ⟨j, listed, free⟩ := State.not_blocked_of_mayRelease may
  refine ⟨j, ?_⟩
  have counts := counted_withLedger s { s.ledger with jobs := (s.onAct job act (fun a =>
    { a with made := a.made + 1, nextDt := a.nextDt + a.period })).part.jobs } a.phase (fun w => ctrCreate w 1)
  rw [← State.onAct_eq_withLedger] at counts
  rw [State.release, listed, found]
  simp only [idle, Bool.false_eq_true, if_false]
  refine (if_neg (ne_true_of_eq_false free)).trans ?_
  split
  next w counter =>
    rw [← counted_of_ctr counter (fun w => ctrCreate w 1), counts]
    rfl
  next lost =>
    rw [counted_of_ctr_none lost] at counts
    rw [counts]
    rfl

/-- The activity whose phase has begun. -/
theorem State.act?_begun (v : State) (at_ : Nat) (j : Job) : (v.withLedger (s.begun job act at_ j a)).act? job act = some { a with
    made := a.made + 1, nextDt := a.nextDt + a.period, live := true, missed := false, deadline := BitVec.ofNat 64 at_ + a.rel, selOpen := false } :=
  (State.act?_of_jobs (t := v.withLedger (s.begun job act at_ j a)) rfl job act).trans (State.act?_onAct (State.act?_onAct found _) _)

/-- A phase whose descriptor is well formed and names a word in memory has its size read 24 cycles later. -/
theorem State.beginSelect_word {ws : List Nat} (desc : s.readDwords a.phase.toNat 20 = .ok ws) (ok : descOk ws = true)
    (word : ws.getD 2 0 / 65536 % 2 = 0) :
    s.beginSelect job act = (s.onAct job act (fun a => { a with sizeAt := some (s.cycle + 24) }), []) := by
  rw [State.beginSelect, found]
  simp only [desc, ok, word, Bool.not_true, Bool.false_eq_true, if_false, if_true]

end

/-! ### The selector's size (R71) -/

theorem State.readDwords_take {s : State} {va m n : Nat} {ws : List Nat} (all : s.readDwords va n = .ok ws) (le : m ≤ n) :
    s.readDwords va m = .ok (ws.take m) := by
  induction m generalizing va n ws with
  | zero => rfl
  | succ m ih =>
    obtain ⟨n, rfl⟩ : ∃ k, n = k + 1 := ⟨n - 1, by omega⟩
    rw [State.readDwords] at all ⊢
    split at all
    · cases all
    next v first =>
      split at all
      · cases all
      next rest tail =>
        cases all
        simp only [ih tail (by omega), List.take_succ_cons]

/-- The first variant whose bound fits starts, in a phase that no cancel has reached. -/
theorem State.select_fits {s : State} {job act : Nat} {a : Activity} {ws : List Nat} {size i : Nat} (found : s.act? job act = some a)
    (uncancelled : s.ctrHas a.phase 40 = false) (desc : s.readDwords a.phase.toNat 20 = .ok ws)
    (variant : i < ws.getD 2 0 / 2 ^ 32 % 256) (fits : size ≤ ws.getD (4 + 2 * i) 0 % 2 ^ 32)
    (first : ∀ j, j < i → ws.getD (4 + 2 * j) 0 % 2 ^ 32 < size) :
    s.select job act size = (s.onAct job act (fun a => { a with sizeAt := none, selOpen := false })).startGraph
      (BitVec.ofNat 64 (ws.getD (4 + 2 * i) 0 / 2 ^ 32 + ws.getD (5 + 2 * i) 0 % 2 ^ 32 * 2 ^ 32)) job act := by
  have chosen : (List.range (ws.getD 2 0 / 2 ^ 32 % 256)).find? (fun i => decide (size ≤ ws.getD (4 + 2 * i) 0 % 2 ^ 32)) = some i := by
    rw [List.find?_range_eq_some]
    exact ⟨by simpa using fits, List.mem_range.mpr variant, fun j hj => by simpa using first j hj⟩
  rw [State.select, found]
  simp only [State.ctrHas_onAct, State.readDwords_onAct, uncancelled, desc, chosen, Bool.false_eq_true, if_false]

/-- The state in which the selector's port, if it was open, is closed. -/
def State.closed (s : State) (job act : Nat) (a : Activity) (w2 : Nat) : State :=
  if a.selOpen then s.closeSelector job act (w2 % 65536) (w2 / 2 ^ 24 % 256) else s

/-- The size that the selector reads: in the slot of its port if it names a rack, 0 without one, else in memory. -/
def State.selSize (s : State) (a : Activity) (w1 w2 : Nat) : Except Cause Nat :=
  if w2 / 65536 % 2 = 1 then (if a.selOpen then s.low32 (a.selAddr + BitVec.ofNat 64 w1).toNat else .ok 0) else s.low32 w1

theorem State.closed_eq_withLedger (u : State) (job act : Nat) (a : Activity) (w2 : Nat) : ∃ k : Ledger,
    u.closed job act a w2 = u.withLedger k ∧ k.jobs = u.part.jobs := by
  unfold State.closed
  split
  · exact u.closeSelector_eq_withLedger job act _ _
  · exact ⟨u.ledger, rfl, rfl⟩

theorem State.readSize_ok {u : State} {job act : Nat} {a : Activity} {ws : List Nat} {size : Nat} (desc : u.readDwords a.phase.toNat 20 = .ok ws)
    (read : u.selSize a (ws.getD 1 0) (ws.getD 2 0) = .ok size) :
    u.readSize job act a = State.runAll ((u.closed job act a (ws.getD 2 0)).select job act size) := by
  have head : u.readDwords a.phase.toNat 3 = .ok (ws.take 3) := State.readDwords_take desc (by omega)
  have one : (ws.take 3).getD 1 0 = ws.getD 1 0 := by simp [List.getD]
  have two : (ws.take 3).getD 2 0 = ws.getD 2 0 := by simp [List.getD]
  unfold State.selSize at read
  rw [State.readSize, head]
  simp only [one, two, read]
  rfl

/-! ### The events of activities (R68, R69, R71) -/

@[simp] theorem State.focusPart_dt (s : State) (p : Nat) : (s.focusPart p).dt = s.dt := by rw [State.focusPart_frame]; rfl

section
variable {part job act : Nat} {s : State} {a : Activity} (found : (s.focusPart part).act? job act = some a)
include found

theorem exec_activityRelease (live : (s.focusPart part).part.live = true) (due : a.releaseDue s.dt = true)
    (may : (s.focusPart part).mayRelease job a = true) :
    exec (.activityRelease part job act) s = .next (State.runAll ((s.focusPart part).release job act a.nextDt.toNat)) := by
  have arm : exec (.activityRelease part job act) s = execActivityRelease part job act s := rfl
  rw [arm, execActivityRelease, found]
  exact congrArg Host.Outcome.next (if_pos (by rw [live, State.focusPart_dt, due, may]; rfl))

theorem exec_selectorSizeRead {at_ : Nat} (live : a.live = true) (asked : a.sizeAt = some at_) (due : at_ ≤ s.cycle) :
    exec (.selectorSizeRead part job act) s = .next ((s.focusPart part).readSize job act a) := by
  have arm : exec (.selectorSizeRead part job act) s = execSelectorSizeRead part job act s := rfl
  rw [arm, execSelectorSizeRead, found]
  exact congrArg Host.Outcome.next (if_pos (by simp [live, Activity.sizeDue, asked, due]))

theorem exec_deadlineMiss (live : a.live = true) (unreported : a.missed = false) (late : a.deadline.toNat < s.dt)
    (undone : (s.focusPart part).ctrHas a.phase 43 = false) :
    let u := s.focusPart part
    let t := counted (counted (u.onAct job act (fun a => { a with missed := true })) a.phase (fun w => ctrSet w 42 true)) (a.addr + 32)
      (fun w => min (w + 1) (2 ^ 64 - 1))
    exec (.deadlineMiss part job act) s = .next (if a.trapmiss then t.logFault Cause.phase.code 2 0xFFFF a.phase.toNat 0 else t) := by
  intro u t
  have arm : exec (.deadlineMiss part job act) s = execDeadlineMiss part job act s := rfl
  rw [arm, execDeadlineMiss, found]
  simp only [State.setCtrBit_eq_counted, State.countMiss_eq_counted]
  exact congrArg Host.Outcome.next (if_neg (by simp [Activity.missDue, live, unreported, late, undone]))

end

/-! ### Imports (R254) -/

theorem exec_importRegister {part : Nat} {s : State} (live : (s.focusPart part).part.live = true) (name : List (BitVec 8)) (kind : Nat)
    (value : Option (BitVec 64)) :
    let u := s.focusPart part
    exec (.importRegister part name kind value) s = .next { u with part := { u.part with
      imports := u.part.imports.filter (fun e => !(e.1 == name && e.2.1 == kind)) ++ (value.map (fun v => (name, kind, v))).toList } } := by
  intro u
  have arm : exec (.importRegister part name kind value) s = execImportRegister part name kind value s := rfl
  rw [arm]
  unfold execImportRegister
  refine congrArg Host.Outcome.next ((if_neg (by simp [live])).trans ?_)
  cases value <;> rfl

/-! ### Job records (R65, R66) -/

/-- The state in which a partition's oldest copied record has been taken. -/
def State.nextRecord (s : State) (part : Nat) (rest : List (Nat × List (BitVec 8))) : State :=
  (s.focusPart part).onPart (fun p => { p with copied := rest })

/-- The vector of a job, if it asks for one, is the notice given. -/
theorem State.fireJob_eq (s : State) (j : JobRec) :
    s.fireJob j = { s with notices := s.notices ++ (j.msix.map (fun v => Notice.vfVector s.pid v.val)).toList } := by
  unfold State.fireJob
  cases j.msix with
  | none => simp
  | some v => rfl

theorem State.postOf_frame (s : State) (w : Nat) : ∃ evops, s.postOf w = { s with part := { s.part with evops := evops } } := by
  unfold State.postOf
  split <;> exact ⟨_, rfl⟩

/-- The word of a counter whose job's image could not be read: DONE and FAULTED, and no event to post (R66). -/
def unreadWord (old : Nat) : Nat := ctrSet (ctrSet (ctrCreate (if ctrBit old 47 then old - 2 ^ 47 else old) 0) 41 true) 43 true

theorem unreadWord_eq (old : Nat) : unreadWord old = old / 2 ^ 48 * 2 ^ 48 + 2 ^ 43 + 2 ^ 41 := by
  have silent : (if ctrBit old 47 then old - 2 ^ 47 else old) / 2 ^ 47 = old / 2 ^ 48 * 2 := by
    simp only [ctrBit, beq_iff_eq]
    split <;> omega
  have created : ctrCreate (if ctrBit old 47 then old - 2 ^ 47 else old) 0 = old / 2 ^ 48 * 2 ^ 48 := by
    rw [ctrCreate, silent]
    omega
  have fresh : ctrBit (old / 2 ^ 48 * 2 ^ 48) 41 = false := by
    rw [ctrBit, beq_eq_false_iff_ne]
    omega
  have faulted : ctrSet (old / 2 ^ 48 * 2 ^ 48) 41 true = old / 2 ^ 48 * 2 ^ 48 + 2 ^ 41 := by
    rw [ctrSet, fresh]
    rfl
  have undone : ctrBit (old / 2 ^ 48 * 2 ^ 48 + 2 ^ 41) 43 = false := by
    rw [ctrBit, beq_eq_false_iff_ne]
    omega
  rw [unreadWord, created, faulted, ctrSet, undone]
  exact Nat.add_right_comm _ _ _

theorem State.failJob_unread (s : State) (j : JobRec) (job : Nat) :
    let done := unreadWord ((s.ctr (BitVec.ofNat 64 j.counter)).getD 0)
    s.failJob none j job = ((s.putCtr (BitVec.ofNat 64 j.counter) done).postOf done).fireJob j := by
  simp only [State.failJob, unreadWord, Option.bind_none, Option.getD_none, Option.isNone_none, if_true]

/-- A record loaded: the job is dropped, fails, or starts. -/
def State.loadRecord (s : State) (off : Nat) (j : JobRec) (plan : LoadPlan) : State :=
  if !s.counterWritable j then s.dropJob j off
  else
    let img := (s.readSpan (j.imageLen / 64 + 2) j.image j.imageLen).toOption
    let v := img.bind readTables
    match img, v with
    | some img, some vfo =>
      if !j.ok || !vfo.ok then s.failJob v j s.part.jobs.length
      else
        match s.loadImage vfo j s.part.jobs.length img plan with
        | some t => t
        | none => s.failJob v j s.part.jobs.length
    | _, _ => s.failJob v j s.part.jobs.length

/-- A resident partition's oldest record is loaded. -/
theorem exec_jobLoad {part off : Nat} {bytes : List (BitVec 8)} {rest : List (Nat × List (BitVec 8))} {s : State}
    (live : (s.focusPart part).part.live = true) (resident : (s.focusPart part).part.swapped = false)
    (oldest : (s.focusPart part).part.copied = (off, bytes) :: rest) (plan : LoadPlan) :
    exec (.jobLoad part plan) s = .next ((s.nextRecord part rest).loadRecord off (readJob bytes) plan) := by
  have arm : exec (.jobLoad part plan) s = execJobLoad part plan s := rfl
  rw [arm, execJobLoad, oldest]
  exact congrArg Host.Outcome.next (if_neg (by simp [live, resident]))

section
variable {s : State} {j : JobRec}

theorem State.loadRecord_dropped (unwritable : s.counterWritable j = false) (off : Nat) (plan : LoadPlan) :
    s.loadRecord off j plan = s.dropJob j off := if_pos (by rw [unwritable]; rfl)

section
variable (writable : s.counterWritable j = true)
include writable

/-- A job whose image cannot be read fails. -/
theorem State.loadRecord_unread {c : Cause} (lost : s.readSpan (j.imageLen / 64 + 2) j.image j.imageLen = .error c) (off : Nat) (plan : LoadPlan) :
    s.loadRecord off j plan = s.failJob none j s.part.jobs.length := by
  rw [State.loadRecord, lost]
  exact if_neg (by simp [writable])

/-- A job whose record and image are well formed starts. -/
theorem State.loadRecord_loaded {img : List (BitVec 8)} {v : Vfo} {t : State} {plan : LoadPlan}
    (read : s.readSpan (j.imageLen / 64 + 2) j.image j.imageLen = .ok img) (valid : readVfo img = some v) (ok : j.ok = true)
    (loads : s.loadImage v j s.part.jobs.length img plan = some t) (off : Nat) : s.loadRecord off j plan = t := by
  obtain ⟨tables, sound⟩ := Option.filter_eq_some_iff.mp valid
  rw [State.loadRecord, read]
  simp only [writable, Except.toOption, Option.bind_some, tables, ok, sound, loads, Bool.not_true, Bool.or_self, Bool.false_eq_true, if_false]

end

end

theorem State.dropJob_eq (s : State) (j : JobRec) (off : Nat) : s.dropJob j off = (s.writeKey (s.part.window + 0xFFFF8) 8 off).fireJob j := rfl

/-- An atomic's write to a frame that is not replicated goes to memory. -/
theorem State.putCtr_mem {s : State} {a : Word} {p : Place} (placed : s.placeNow .atomic a.toNat 8 = .ok p) (single : p.replFrame = none)
    (whole : s.readBad p.key 8 = false) (w : Nat) : (s.putCtr a w).mem = s.mem.writeBytes p.key (leBytes 8 w) := by
  rw [State.putCtr, placed]
  simp [whole, State.hwWrite, State.frameWrite, single]

/-- An agent's access reaches the addresses of the address space only (R118). -/
theorem State.lt_of_placeNow {s : State} {k : Acc} {va n : Nat} {p : Place} (placed : s.placeNow k va n = .ok p) : va < 2 ^ 52 := by
  by_contra beyond
  rw [State.placeNow, if_pos (Nat.not_lt.mp beyond)] at placed
  cases placed

section
variable (s : State) (j : JobRec) (job : Nat)

/-- A job whose image cannot be read leaves the jobs and the records that wait as they are. -/
theorem State.failJob_unread_part : ∃ evops replWrites,
    (s.failJob none j job).part = { s.part with evops := evops, replWrites := replWrites } := by
  obtain ⟨_, _, _, _, _, replWrites, written⟩ := s.putCtr_frame (BitVec.ofNat 64 j.counter)
    (unreadWord ((s.ctr (BitVec.ofNat 64 j.counter)).getD 0))
  rw [State.failJob_unread, State.fireJob_eq, written]
  obtain ⟨evops, posted⟩ := State.postOf_frame _ _
  rw [posted]
  exact ⟨evops, replWrites, rfl⟩

variable {s j}

/-- Its counter is DONE and FAULTED, and names its event, but does not post it. -/
theorem State.failJob_unread_mem {p : Place} {old : Nat} (placed : s.placeNow .atomic j.counter 8 = .ok p) (single : p.replFrame = none)
    (found : s.ctr (BitVec.ofNat 64 j.counter) = some old) :
    (s.failJob none j job).mem = s.mem.writeBytes p.key (leBytes 8 (old / 2 ^ 48 * 2 ^ 48 + 2 ^ 43 + 2 ^ 41)) := by
  have addr : (BitVec.ofNat 64 j.counter).toNat = j.counter :=
    Nat.mod_eq_of_lt (Nat.lt_trans (State.lt_of_placeNow placed) (by decide))
  obtain ⟨q, placed', whole, -⟩ := State.ctr_eq_some found
  rw [addr, placed] at placed'
  obtain rfl := Except.ok.inj placed'
  rw [State.failJob_unread, State.fireJob_eq, found, Option.getD_some]
  obtain ⟨evops, posted⟩ := State.postOf_frame (s.putCtr (BitVec.ofNat 64 j.counter) (unreadWord old)) (unreadWord old)
  rw [posted, ← unreadWord_eq]
  exact State.putCtr_mem (by rw [addr]; exact placed) single whole _

end

/-! ### Images loaded (R66, R97, R252) -/

theorem length_of_allSome {α : Type} {l : List (Option α)} {r : List α} (h : allSome l = some r) : r.length = l.length := by
  induction l generalizing r with
  | nil => cases h; rfl
  | cons x l ih =>
    cases x with
    | none => cases h
    | some x =>
      obtain ⟨r, rest, rfl⟩ := Option.map_eq_some_iff.mp h
      rw [List.length_cons, List.length_cons, ih rest]

theorem State.writePtes_frame (s : State) (ps : List (Nat × BitVec 64)) : s.homeFrame (s.writePtes ps) := by
  refine List.foldlRecOn (motive := fun (t : State) => s.homeFrame t) _ _ s.homeFrame_refl ?_
  intro t ht e _
  split
  · exact State.homeFrame_trans ht rfl
  · exact ht

theorem State.loadSpan_frame {s t : State} {k : Acc} {fuel va : Nat} {bs : List (BitVec 8)} (h : s.loadSpan k fuel va bs = .ok t) :
    s.homeFrame t := by
  induction fuel generalizing s va bs with
  | zero => cases h; exact State.homeFrame_refl _
  | succ n ih =>
    unfold State.loadSpan at h
    split at h
    · cases h; exact State.homeFrame_refl _
    · dsimp only at h
      split at h
      · cases h
      · exact State.homeFrame_trans (State.frameWrite_frame ..) (ih h)

theorem State.writeImage_frame {s t : State} {base : Nat} {ss : List VSection} (h : s.writeImage base ss = .ok t) : s.homeFrame t := by
  induction ss generalizing s with
  | nil => cases h; exact State.homeFrame_refl _
  | cons c ss ih =>
    unfold State.writeImage at h
    split at h
    · exact ih h
    · split at h
      · cases h
      next u span => exact State.homeFrame_trans (State.loadSpan_frame span) (ih h)

theorem State.writeDesc_frame (s : State) (img : List (BitVec 8)) (r : Rack) : s.homeFrame (s.writeDesc img r) := by
  unfold State.writeDesc
  dsimp only
  split
  · exact State.frameWrite_frame ..
  · exact s.homeFrame_refl

theorem State.writeDescs_frame (s : State) (l : List (List (BitVec 8) × Rack)) : s.homeFrame (l.foldl (fun s e => s.writeDesc e.1 e.2) s) :=
  List.foldlRecOn (motive := fun (t : State) => s.homeFrame t) _ _ s.homeFrame_refl
    (fun t ht e _ => State.homeFrame_trans ht (t.writeDesc_frame e.1 e.2))

/-- Is a job, live, that of a record: it has the record's counter, vector, strictness, and an activity for each of the record's. -/
def JobRec.names (j : JobRec) (job : Job) : Prop :=
  job.live = true ∧ job.counter = BitVec.ofNat 64 j.counter ∧ job.msix = j.msix ∧ job.strict = j.strict ∧ job.acts.length = j.acts.length

/-- The partition in which a record's job has started: its image is measured. -/
def JobRec.starts (j : JobRec) (img : List (BitVec 8)) (p q : Part) : Prop :=
  q.copied = p.copied ∧ q.measure = extend p.measure img ∧ ∃ job, q.jobs = p.jobs ++ [job] ∧ j.names job

/-- What the loader writes to memory before a job starts is not in the terms of its start. -/
theorem JobRec.starts_of_homeFrame {j : JobRec} {img : List (BitVec 8)} {s d : State} {q : Part} {job : Job} (frame : s.homeFrame d)
    (copied : q.copied = d.part.copied) (measure : q.measure = extend d.part.measure img) (jobs : q.jobs = d.part.jobs ++ [job])
    (names : j.names job) : j.starts img s.part q := by
  have kept : d.part = { s.part with replWrites := d.part.replWrites } := congrArg State.part frame
  rw [kept] at copied measure jobs
  exact ⟨copied, measure, job, jobs, names⟩

/-- The job's counter does not stand in the terms of its start. -/
theorem JobRec.starts_putCtr {j : JobRec} {img : List (BitVec 8)} {p : Part} {s : State} (h : j.starts img p s.part) (a : Word) (w : Nat) :
    j.starts img p (s.putCtr a w).part := by
  obtain ⟨_, _, _, _, _, _, e⟩ := s.putCtr_frame a w
  rw [e]
  exact h

theorem State.loadImage_starts {s t : State} {v : Vfo} {j : JobRec} {job : Nat} {img : List (BitVec 8)} {plan : LoadPlan}
    (h : s.loadImage v j job img plan = some t) : j.starts img s.part t.part := by
  unfold State.loadImage at h
  split at h
  · cases h
  next evs racks lys named =>
    dsimp only at h
    split at h
    · cases h
    split at h
    · cases h
    next made hmade =>
      split at h
      · cases h
      next ss relocated =>
        split at h
        · cases h
        next u written =>
          split at h
          · cases h
          split at h
          · cases h
          next acts read =>
            have frame (l : List (List (BitVec 8) × Rack)) : s.homeFrame (l.foldl (fun s e => s.writeDesc e.1 e.2) u) :=
              State.homeFrame_trans (State.homeFrame_trans (s.writePtes_frame plan.ptes) (State.writeImage_frame written)) (u.writeDescs_frame l)
            have count : acts.length = j.acts.length := (length_of_allSome read).trans (List.length_map ..)
            obtain rfl := Option.some.inj h
            split
            · refine JobRec.starts_putCtr ?_ _ _
              exact JobRec.starts_of_homeFrame (frame _) (Eq.refl _) (Eq.refl _) (Eq.refl _) ⟨rfl, rfl, rfl, rfl, count⟩
            · exact JobRec.starts_of_homeFrame (frame _) (Eq.refl _) (Eq.refl _) (Eq.refl _) ⟨rfl, rfl, rfl, rfl, count⟩

end Sys2Proof.Machine
end

section
/-! PROOFS. The obligations of spec/04_jobs.md. -/

namespace Sys2Proof.Proofs

open Sys2Proof.Machine Sys2Proof.Claims

/-- Settles O42: a record by where its loading ends, a release by whether the phase before it lives, the selector by the size that it reads. -/
theorem jobAndActivityEvents : Obligations.JobAndActivityEvents := by
  unfold Obligations.JobAndActivityEvents
  refine ⟨?load, ?register, ?release, ?select, ?miss⟩
  case load =>
    intro part off bytes rest plan s u w j live resident oldest
    have loads : exec (.jobLoad part plan) s = .next (w.loadRecord off j plan) := exec_jobLoad live resident oldest plan
    have mem : w.mem = s.mem := State.focusPart_mem ..
    have pid : w.pid = part := State.focusPart_pid ..
    have notices : w.notices = s.notices := State.focusPart_notices ..
    rw [loads]
    refine ⟨fun unwritable => ?dropped, fun img vfo t writable read valid ok loads => ?loaded, fun c writable lost => ?unread⟩
    case dropped =>
      rw [State.loadRecord_dropped unwritable, State.dropJob_eq, State.fireJob_eq, State.writeKey_pid, pid, State.writeKey_notices, notices]
      refine ⟨_, rfl, rfl, congrArg (Memory.writeBytes · _ _) mem, ?_⟩
      cases j.msix <;> rfl
    case loaded =>
      rw [State.loadRecord_loaded writable read valid ok loads]
      obtain ⟨copied, measure, started⟩ := State.loadImage_starts loads
      exact ⟨rfl, copied, measure, started⟩
    case unread =>
      rw [State.loadRecord_unread writable lost]
      obtain ⟨evops, replWrites, kept⟩ := State.failJob_unread_part w j w.part.jobs.length
      have ledger : w = u.withLedger { u.ledger with copied := rest } := rfl
      refine ⟨_, rfl, by rw [kept], by rw [kept], fun p old placed single found => ?_⟩
      rw [← u.placeNow_withLedger { u.ledger with copied := rest }, ← ledger] at placed
      rw [← u.ctr_withLedger { u.ledger with copied := rest }, ← ledger] at found
      rw [State.failJob_unread_mem _ placed single found, mem]
  case register =>
    intro part kind name value s u live
    refine ⟨_, exec_importRegister live name kind value, ?found, fun e other => ?others⟩
    case found =>
      have removed : (u.part.imports.filter (fun e => !(e.1 == name && e.2.1 == kind))).find? (fun e => e.1 == name && e.2.1 == kind) = none :=
        List.find?_eq_none.mpr (fun e he => ne_true_of_eq_false ((Bool.not_eq_true' _).mp (List.mem_filter.mp he).2))
      rw [List.find?_append, removed]
      cases value <;> simp
    case others =>
      have kept : (!(e.1 == name && e.2.1 == kind)) = true := by
        rw [Bool.not_eq_true', Bool.and_eq_false_iff, beq_eq_false_iff_ne, beq_eq_false_iff_ne]
        exact other
      have not_new : e ∉ (value.map (fun v => (name, kind, v))).toList := by
        rw [Option.mem_toList, Option.map_eq_some_iff]
        rintro ⟨v, -, rfl⟩
        exact other.elim (· rfl) (· rfl)
      rw [List.mem_append, List.mem_filter, and_iff_left kept, or_iff_left not_new]
  case release =>
    intro part job act a s u live found due may
    rw [exec_activityRelease found live due may]
    refine ⟨fun lives => ?counts, fun ws idle => ?begins⟩
    case counts => rw [State.release_miss found may lives, State.runAll_nil]
    case begins =>
      intro v desc ok word
      obtain ⟨j, begins⟩ := State.release_begins found may idle a.nextDt.toNat
      have named := State.act?_begun found v a.nextDt.toNat j
      rw [← State.readDwords_withLedger v (u.begun job act a.nextDt.toNat j a)] at desc
      rw [begins, State.beginSelect_word named desc ok word, State.runAll_nil]
      have cycle : v.cycle = s.cycle := (counted_cycle ..).trans (State.focusPart_cycle ..)
      refine ⟨_, rfl, rfl, ?_, phaseLevel job act j a, rfl, rfl, rfl, rfl, rfl⟩
      rw [State.act?_onAct named, State.withLedger_cycle, cycle, BitVec.ofNat_toNat, BitVec.setWidth_eq]
  case select =>
    intro part job act at_ size i a ws s u w2 v w found live asked due desc read uncancelled variant fits first
    obtain ⟨k, closes, jobs⟩ : ∃ k : Ledger, v = u.withLedger k ∧ k.jobs = u.part.jobs := u.closed_eq_withLedger job act a w2
    have named : v.act? job act = some a := by
      rw [closes]
      exact (State.act?_of_jobs jobs job act).trans found
    have heard : v.ctrHas a.phase 40 = false := by rw [closes, State.ctrHas_withLedger, uncancelled]
    have sees : v.readDwords a.phase.toNat 20 = .ok ws := by rw [closes, State.readDwords_withLedger, desc]
    rw [exec_selectorSizeRead found live asked due, State.readSize_ok desc read]
    exact congrArg (fun r => Host.Outcome.next (State.runAll r)) (State.select_fits named heard sees variant fits first)
  case miss =>
    intro part job act a s u found live unreported late undone
    exact exec_deadlineMiss found live unreported late undone

/-- Settles O43: a decrement by what it leaves of the count, a cancel by its level, a broadcast by the cores that it reaches. -/
theorem countersFallAndCancelsSpread : Obligations.CountersFallAndCancelsSpread := by
  unfold Obligations.CountersFallAndCancelsSpread
  refine ⟨?decrement, ?cancel, ?broadcast⟩
  case decrement =>
    intro part addr faulted cancelled w s u down live found
    rw [exec_counterDecrement live]
    refine ⟨fun zero => ?_, fun above => ?_, fun last free => ?_⟩
    · rw [State.run_decr_of_quiet (State.decrement_zero found faulted cancelled zero)]
    · exact congrArg _ (State.run_decr_of_quiet (State.decrement_above found faulted cancelled above))
    · rw [State.run_decr_last found last free, State.postOf, State.postEvent, counted_cycle, State.focusPart_cycle]
      rfl
  case cancel =>
    intro part level addr l s u live found kind
    rw [exec_cancelLinearise live]
    refine ⟨fun again => ?_, fun first alone launch => ?_⟩
    · rw [State.cancelLevel_again found again]
    · rw [← kind, launch]
      exact congrArg _ ((State.cancelLevel_launch found first alone launch).trans (by rw [State.focusPart_cycle]))
  case broadcast =>
    intro part at_ top rest s u oldest queued waiting
    obtain ⟨evs, sweeps⟩ := State.sweep_of_spared (s := { u with part := { u.part with casts := rest } }) queued waiting
    rw [exec_cancelBroadcast oldest, sweeps]
    refine ⟨_, rfl, State.sweepCores_casts .., (State.sweepCores_mem ..).trans (State.focusPart_mem ..), fun e he live cx => ?_⟩
    exact (State.boxAt_sweepCores (s := { u with part := { u.part with casts := rest, events := evs } }) live top u.part.cores).1
      (List.mem_map_of_mem he) cx

end Sys2Proof.Proofs
end

section
/-! SUPPORT. What the event table, its overflow lists and the racks leave (R91, R92, R99 to R104, R109, R306). -/

namespace Sys2Proof.Machine

/-! ### Tokens answered, turns released -/

/-- What an operation has to say to a pending token touches the contexts only: those of cores and images, and those saved in heaps. -/
theorem State.onTok_frame (s : State) (t : BitVec 48 × Fin 8) (f : TokPend → TokPend) : ∃ core ctx octx cores images scheds,
    s.onTok t f = { s with
      core := core, ctx := ctx, octx := octx, cores := cores, part := { s.part with images := images, scheds := scheds } } := by
  unfold State.onTok
  dsimp only
  split
  · obtain ⟨core, ctx, octx, cores, images, placed⟩ := s.putCoreOf_frame _ _
    exact ⟨core, ctx, octx, cores, images, s.part.scheds, placed⟩
  · exact ⟨s.core, s.ctx, s.octx, s.cores, s.part.images, _, rfl⟩

theorem State.answerTok_racks (s : State) (t : Option (BitVec 48 × Fin 8)) (v w : Word) : (s.answerTok t v w).part.racks = s.part.racks := by
  cases t with
  | none => rfl
  | some t =>
    obtain ⟨_, _, _, _, _, _, told⟩ := s.onTok_frame t (fun p => { p with done := some (v, w) })
    rw [State.answerTok, told]

/-- A turn that becomes ready touches the schedulers only, and takes a creation number. -/
theorem State.enterHeap_frame (s : State) (cl : Nat) (e : HeapEnt) : ∃ scheds placing, s.enterHeap cl e = { s with
    serial := s.serial + 1, part := { s.part with scheds := scheds, placing := placing } } := by
  unfold State.enterHeap
  dsimp only
  split
  · exact ⟨s.part.scheds, _, rfl⟩
  · split <;> exact ⟨_, s.part.placing, rfl⟩

theorem State.releaseTurns_frame (s : State) (ws : List (HeapEnt × Nat)) : ∃ serial scheds placing, s.releaseTurns ws = { s with
    serial := serial, part := { s.part with scheds := scheds, placing := placing } } := by
  refine List.foldlRecOn (motive := fun (t : State) => ∃ serial scheds placing, t = { s with
    serial := serial, part := { s.part with scheds := scheds, placing := placing } }) _ _ ⟨s.serial, s.part.scheds, s.part.placing, rfl⟩ ?_
  rintro _ ⟨serial, scheds, placing, rfl⟩ w -
  obtain ⟨scheds', placing', entered⟩ := State.enterHeap_frame _ w.2 w.1
  exact ⟨_, scheds', placing', entered⟩

/-! ### Posts (R68, R91, R92) -/

/-- The oldest waiter is the first of those in the entry, and the first of the overflow list takes its place. -/
theorem EvEnt.pop_of_waiters {e : EvEnt} {x : HeapEnt × Nat} {rest : List (HeapEnt × Nat)} (waiting : e.waiters = x :: rest) :
    e.pop = some (x, { e with waiters := rest ++ e.overflow.take 1, overflow := e.overflow.drop 1 }) := by
  cases overflow : e.overflow with
  | nil | cons => simp [EvEnt.pop, waiting, overflow]

section
variable (s : State) (name : Nat) (e : EvEnt)

theorem State.applyPost_frame : ∃ serial events scheds placing, s.applyPost name e = { s with
    serial := serial, part := { s.part with events := events, scheds := scheds, placing := placing } } := by
  have released (f : EvEnt) (ws : List (HeapEnt × Nat)) : ∃ serial events scheds placing, (s.putEvent name f).releaseTurns ws = { s with
      serial := serial, part := { s.part with events := events, scheds := scheds, placing := placing } } := by
    obtain ⟨serial, scheds, placing, kept⟩ := (s.putEvent name f).releaseTurns_frame ws
    exact ⟨serial, _, scheds, placing, kept⟩
  unfold State.applyPost
  split
  · split
    · exact released _ _
    · exact ⟨s.serial, _, s.part.scheds, s.part.placing, rfl⟩
  · split
    · exact ⟨s.serial, s.part.events, s.part.scheds, s.part.placing, rfl⟩
    · exact released _ _

variable {e}

/-- A counting event releases its oldest waiter. -/
theorem State.applyPost_releases {x : HeapEnt × Nat} {rest : List (HeapEnt × Nat)} (counting : e.counting = true)
    (waiting : e.waiters = x :: rest) : s.applyPost name e = (s.putEvent name { e with
      waiters := rest ++ e.overflow.take 1, overflow := e.overflow.drop 1 }).enterHeap x.2 x.1 := by
  rw [State.applyPost, if_pos counting, EvEnt.pop_of_waiters waiting]
  rfl

/-- A counting event that nothing waits on counts, up to the largest count. -/
theorem State.applyPost_counts (counting : e.counting = true) (inline_ : e.waiters = []) (overflow : e.overflow = []) :
    s.applyPost name e = s.putEvent name { e with state := if e.state = BitVec.allOnes 32 then e.state else e.state + 1 } := by
  have nothing : e.pop = none := by rw [EvEnt.pop, inline_, overflow]
  rw [State.applyPost, if_pos counting, nothing]

/-- A binary event that is set stays as it is. -/
theorem State.applyPost_again (binary : e.counting = false) (set : e.state ≠ 0) : s.applyPost name e = s := by
  rw [State.applyPost, if_neg (ne_true_of_eq_false binary), if_pos set]

/-- A binary event is set; its waiters in the entry are released, and the walk of its overflow list begins. -/
theorem State.applyPost_sets (binary : e.counting = false) (clear : e.state = 0) : s.applyPost name e =
    (s.putEvent name { e with state := 1, waiters := [], walkAt := if e.overflow = [] then none else some (s.cycle + 8) }).releaseTurns e.waiters := by
  rw [State.applyPost, if_neg (ne_true_of_eq_false binary), if_neg (not_not_intro clear)]
  simp only [List.isEmpty_iff]

variable {s name}

/-- A post of an event that no activity names releases no activity. -/
theorem State.postReleases_of_unnamed (unnamed : ∀ j ∈ s.part.jobs, ∀ a ∈ j.acts, a.event ≠ some name) : s.postReleases name = s := by
  have none_named : ((s.part.jobs.mapIdx (fun j job => job.acts.mapIdx (fun i a => (j, i, a)))).flatten).filter
      (fun x => x.2.2.event == some name) = [] := by
    rw [List.filter_eq_nil_iff]
    intro x hx
    obtain ⟨l, hl, hx⟩ := List.mem_flatten.mp hx
    obtain ⟨j, hj, rfl⟩ := List.mem_mapIdx.mp hl
    obtain ⟨i, hi, rfl⟩ := List.mem_mapIdx.mp hx
    simpa using unnamed _ (List.getElem_mem hj) _ (List.getElem_mem hi)
  unfold State.postReleases
  dsimp only
  rw [none_named]
  rfl

variable (e)

/-- A post of an event that no activity names does what it does to the event, and gives the event's notification. -/
theorem State.countedPost_of_unnamed (unnamed : ∀ j ∈ s.part.jobs, ∀ a ∈ j.acts, a.event ≠ some name) :
    s.countedPost name e = if e.notify then (s.applyPost name e).notify (.vfVector s.pid e.vec.val) else s.applyPost name e := by
  obtain ⟨_, _, _, _, kept⟩ := s.applyPost_frame name e
  have jobs : (s.applyPost name e).part.jobs = s.part.jobs := by rw [kept]
  have pid : (s.applyPost name e).pid = s.pid := by rw [kept]
  rw [State.countedPost, State.postReleases_of_unnamed (by rw [jobs]; exact unnamed), pid]

end

/-! ### Operations at the event table (R91, R305, R306) -/

/-- The event word of R305, its fields in the order of their places. -/
theorem EvEnt.word_eq (e : EvEnt) : e.word = e.state.toNat + 2 ^ 32 * min (e.waiters.length + e.overflow.length) 0xFFFF +
    2 ^ 48 * e.counting.toNat + 2 ^ 49 * e.vec.val + 2 ^ 53 * e.notify.toNat := by
  simp only [EvEnt.word, Nat.mul_comm]

section
variable (s : State) (name : Nat) (e : EvEnt) (v : BitVec 32)

theorem State.applySete_notify : s.applySete 3 name e v = s.putEvent name { e with
    notify := v.getLsbD 4, vec := Fin.ofNat 16 (v.toNat % 16) } := by
  have bit : (v.toNat / 16 % 2 == 1) = v.getLsbD 4 := by
    rw [BitVec.getLsbD, Nat.testBit_eq_decide_div_mod_eq]
    rfl
  rw [State.applySete, bit]

/-- The kind of an event changes only while nothing waits on it. -/
theorem State.applySete_kind {e : EvEnt} (inline_ : e.waiters = []) (overflow : e.overflow = []) :
    s.applySete 2 name e v = s.putEvent name { e with counting := v.getLsbD 0, state := 0 } := by
  have bit : (v.toNat % 2 == 1) = v.getLsbD 0 := by
    rw [BitVec.getLsbD, Nat.testBit_eq_decide_div_mod_eq, Nat.pow_zero, Nat.div_one]
    rfl
  rw [State.applySete, inline_, overflow, bit]
  rfl

end

/-- The event table applies the oldest operation that has arrived. -/
theorem exec_eventTableApply {part : Nat} {o : EvOp} {s : State}
    (oldest : (s.focusPart part).part.evops.find? (fun x => decide (x.due ≤ s.cycle)) = some o) :
    let u := s.focusPart part
    exec (.eventTableApply part) s = .next (({ u with part := { u.part with evops := u.part.evops.erase o } } : State).applyEvOp o) := by
  intro u
  have arm : exec (.eventTableApply part) s = execEventTableApply part s := rfl
  have next : u.nextEvOp = some o := by rw [State.nextEvOp, State.focusPart_cycle, oldest]
  rw [arm, execEventTableApply, next]
  rfl

section
variable {s : State} {o : EvOp}

theorem State.applyEvOp_free {job : Nat} (free : o.kind = .free job) : s.applyEvOp o = s.freeNames job := by
  rw [State.applyEvOp, free]

theorem State.applyEvOp_dead (named : ∀ job, o.kind ≠ .free job) (dead : s.part.events.find? o.name = none) :
    s.applyEvOp o = s.faultTok o.tok .prot 0 := by
  rw [State.applyEvOp, dead]
  cases kind : o.kind with
  | free job => exact absurd kind (named job)
  | post => rfl
  | test => rfl
  | sete fn v => rfl

section
variable {e : EvEnt} (live : s.part.events.find? o.name = some e)
include live

theorem State.applyEvOp_test (test : o.kind = .test) : s.applyEvOp o = s.answerTok o.tok (BitVec.ofNat 64 e.word) 0 := by
  rw [State.applyEvOp, test, live]

theorem State.applyEvOp_sete {fn : Nat} {v : BitVec 32} (sete : o.kind = .sete fn v) :
    s.applyEvOp o = (s.applySete fn o.name e v).answerTok o.tok (BitVec.ofNat 64 e.word) 0 := by
  rw [State.applyEvOp, sete, live]

theorem State.applyEvOp_post (post : o.kind = .post) : s.applyEvOp o = (s.countedPost o.name e).answerTok o.tok 0 0 := by
  rw [State.applyEvOp, post, live]

end

end

/-- The overflow list loses its oldest waiter, which is ready; the next one follows 8 cycles later. -/
theorem exec_overflowWalk {part name : Nat} {e : EvEnt} {x : HeapEnt × Nat} {rest : List (HeapEnt × Nat)} {s : State}
    (walked : (s.focusPart part).nextWalked = some (name, e)) (waiting : e.overflow = x :: rest) :
    exec (.overflowWalk part) s = .next (((s.focusPart part).putEvent name { e with
      overflow := rest, walkAt := if rest = [] then none else some (s.cycle + 8) }).enterHeap x.2 x.1) := by
  have arm : exec (.overflowWalk part) s = execOverflowWalk part s := rfl
  rw [arm, execOverflowWalk, walked]
  simp only [waiting, List.isEmpty_iff, State.focusPart_cycle]
  rfl

/-! ### What a rack grants and refuses (R103, R104, R109) -/

section
variable {r : Rack} {h : Holder} {i port now : Nat}

theorem Rack.openWrite_free (free : r.writer = none) (oldest : r.writerSlot = some i) :
    r.openWrite h = some ({ r with writer := some (h, i) }, r.slotAddr i) := by
  rw [Rack.openWrite, free, oldest]

theorem Rack.openWrite_taken (taken : r.writer ≠ none) : r.openWrite h = none := by
  obtain ⟨w, held⟩ := Option.ne_none_iff_exists'.mp taken
  rw [Rack.openWrite, held]

/-- The rack after its writer has committed a slot. -/
def Rack.committed (r : Rack) (i now : Nat) : Rack :=
  let seq := if r.seq + 1 = 2 ^ 32 then 1 else r.seq + 1
  { r with seq := seq, slotSeq := r.slotSeq.set i seq, slotCycle := r.slotCycle.set i (some now), freshest := some i, writer := none }

theorem Rack.commit_own (own : r.writer = some (h, i)) : r.commit h now = some (r.committed i now) := by
  rw [Rack.commit, own]
  exact if_neg (not_not_intro rfl)

theorem Rack.commit_other (other : r.writer.map (fun x => x.1) ≠ some h) : r.commit h now = none := by
  cases writer : r.writer with
  | none => rw [Rack.commit, writer]
  | some w =>
    rw [writer] at other
    rw [Rack.commit, writer]
    exact if_pos (fun same => other (congrArg some same))

/-- A reader's open of a rack without a commit takes no port. -/
theorem Rack.openRead_empty (free : r.ports[port]? = some none) (empty : r.freshest = none) : r.openRead h port now = some (r, 0, 0) := by
  rw [Rack.openRead, free, empty]

/-- A reader's open pins the freshest slot, and tells its sequence number and its age. -/
theorem Rack.openRead_freshest {f c : Nat} (free : r.ports[port]? = some none) (freshest : r.freshest = some f)
    (committed : r.slotCycle[f]? = some (some c)) : r.openRead h port now = some ({ r with ports := r.ports.set port (some (h, f)) },
      r.slotAddr f, BitVec.ofNat 64 (r.slotSeq.getD f 0 * 2 ^ 32 + min (now - c) (2 ^ 32 - 1))) := by
  have since : (r.slotCycle.getD f none).getD now = c := by rw [List.getD_eq_getElem?_getD, committed]; rfl
  rw [Rack.openRead, free, freshest]
  simp only [since]

theorem Rack.openRead_taken (taken : r.ports[port]? ≠ some none) : r.openRead h port now = none := by
  unfold Rack.openRead
  split
  · contradiction
  · rfl

theorem Rack.close_writer (own : r.writer = some (h, i)) : r.close h 63 = some { r with writer := none } := by
  rw [Rack.close, if_pos rfl, own]
  exact if_pos rfl

theorem Rack.close_reader (reader : port ≠ 63) (own : r.ports[port]? = some (some (h, i))) :
    r.close h port = some { r with ports := r.ports.set port none } := by
  rw [Rack.close, if_neg reader, own]
  exact if_pos rfl

theorem Rack.close_other (reader : port ≠ 63) (other : ∀ i, r.ports[port]? ≠ some (some (h, i))) : r.close h port = none := by
  rw [Rack.close, if_neg reader]
  split
  next k i held => exact if_neg (fun (same : k = h) => other i (by rw [held, same]))
  next => rfl

end

/-- A rack's scope, as R109 words it. -/
theorem Rack.reaches_iff (r : Rack) (cl : Nat) :
    r.reaches cl = true ↔ (match r.scope with | 2 => cl = r.home | 3 => cl / 9 = r.home / 9 | _ => True) := by
  unfold Rack.reaches
  generalize r.scope = scope
  split <;> simp

/-! ### Operations at a rack (R101 to R104, R109) -/

@[simp] theorem State.dieClock_focusPart (s : State) (p die : Nat) : (s.focusPart p).dieClock die = s.dieClock die := by
  rw [State.focusPart_frame]
  rfl

/-- An operation that its controller applies now is a misuse (R109): it is out of the rack's scope, or the rack refuses it. -/
inductive Rack.Misuse (r : Rack) (o : RackOp) (now : Nat) : Prop where
  | scope (out : r.reaches o.cluster = false) (sent : o.fn ≠ 5)
  | openWrite (fn : o.fn = 0) (refused : r.openWrite o.holder = none)
  | commit (fn : o.fn = 1) (refused : r.commit o.holder now = none)
  | openRead (fn : o.fn = 2) (refused : r.openRead o.holder o.port now = none)
  | close (fn : o.fn = 3) (refused : r.close o.holder o.port = none)

section
variable {s : State} {o : RackOp} (turn : o.sel = none)

section
include turn

theorem State.rackFault_turn (c : Cause) : s.rackFault o c = s.faultTok o.tok c 0 := by
  rw [State.rackFault, turn]

/-- A rack that is not live. -/
theorem State.applyRackOp_dead (dead : s.part.racks.find? o.rack = none) : s.applyRackOp o = s.faultTok o.tok .prot 0 := by
  rw [State.applyRackOp, dead]
  exact State.rackFault_turn turn _

end

variable {r : Rack} (live : s.part.racks.find? o.rack = some r)

include turn live in
theorem State.applyRackOp_misuse (misuse : r.Misuse o (s.dieClock (r.home / 9))) : s.applyRackOp o = s.faultTok o.tok .rackport 0 := by
  rw [← State.rackFault_turn turn, State.applyRackOp, live]
  dsimp only
  split
  · rfl
  next within =>
    cases misuse with
    | scope out sent => exact absurd (by simp [out, sent]) within
    | openWrite fn refused | commit fn refused | openRead fn refused | close fn refused => simp only [fn, refused]

section
variable (within : r.reaches o.cluster = true)
include live within

/-- An operation within the rack's scope goes on to the rack. -/
theorem State.applyRackOp_openWrite {q : Rack} {a : Word} (fn : o.fn = 0) (granted : r.openWrite o.holder = some (q, a)) :
    s.applyRackOp o = (s.putRack o.rack q).answerTok o.tok a 0 := by
  rw [State.applyRackOp, live]
  simp [within, fn, granted]

theorem State.applyRackOp_close {q : Rack} (fn : o.fn = 3) (granted : r.close o.holder o.port = some q) :
    s.applyRackOp o = (s.putRack o.rack q).answerTok o.tok 0 0 := by
  rw [State.applyRackOp, live]
  simp [within, fn, granted]

include turn in
theorem State.applyRackOp_openRead {q : Rack} {a w : Word} (fn : o.fn = 2)
    (granted : r.openRead o.holder o.port (s.dieClock (r.home / 9)) = some (q, a, w)) :
    s.applyRackOp o = (s.putRack o.rack q).answerTok o.tok a w := by
  rw [State.applyRackOp, live]
  simp [within, fn, granted, turn]

end

/-- A commit's writes to the descriptor leave the racks. -/
theorem State.written_racks (s : State) (va n v : Nat) :
    (match s.writeVa va n v with | .ok t => t | .error _ => s).part.racks = s.part.racks := by
  split
  next t written =>
    obtain ⟨p, -, rfl⟩ := State.writeVa_ok written
    have frame : s.homeFrame (s.hwWrite p (leBytes n v) none) := State.frameWrite_frame ..
    rw [frame]
  next => rfl

include live in
theorem State.applyRackOp_commit_racks (within : r.reaches o.cluster = true) {q : Rack} (fn : o.fn = 1)
    (granted : r.commit o.holder (s.dieClock (r.home / 9)) = some q) :
    (s.applyRackOp o).part.racks = s.part.racks.put o.rack q := by
  rw [State.applyRackOp, live]
  simp only [within, fn, granted]
  refine (State.written_racks ..).trans ((State.written_racks ..).trans ?_)
  exact State.answerTok_racks ..

end

/-- A controller applies the first of the operations that have arrived. -/
theorem exec_rackOpApply {part : Nat} {o : RackOp} {s : State} (first : (s.focusPart part).nextRackOp = some o) :
    let u := s.focusPart part
    exec (.rackOpApply part) s = .next (({ u with part := { u.part with rackops := u.part.rackops.erase o } } : State).applyRackOp o) := by
  have arm : exec (.rackOpApply part) s = execRackOpApply part s := rfl
  rw [arm, execRackOpApply, first]
  rfl

end Sys2Proof.Machine
end

section
/-! PROOFS. The obligations of spec/05_scheduler.md. -/

namespace Sys2Proof.Proofs

open Sys2Proof.Machine

/-- Settles O45: an operation of the event table by its kind, the walk by the list's head, an operation of a rack by what the rack grants. -/
theorem eventAndRackTablesApplyTheirOperations : Obligations.EventAndRackTablesApplyTheirOperations := by
  unfold Obligations.EventAndRackTablesApplyTheirOperations
  refine ⟨?table, ?walk, ?rack⟩
  case table =>
    intro part o s u w oldest
    have applies : exec (.eventTableApply part) s = .next (w.applyEvOp o) := exec_eventTableApply oldest
    rw [applies]
    refine ⟨fun job free => ?free, fun named dead => ?dead, fun e found => ?live⟩
    case free =>
      rw [State.applyEvOp_free free]
      simp only [State.freeNames, Bool.beq_eq_decide_eq]
      rfl
    case dead => exact congrArg _ (State.applyEvOp_dead named dead)
    case live =>
      have live : w.part.events.find? o.name = some e := found
      intro set word
      have answers : BitVec.ofNat 64 e.word = word := congrArg _ e.word_eq
      refine ⟨fun test => ?test, fun v sete => ?clear, fun v sete => ?notify, fun v sete inline_ overflow => ?kind, fun post unnamed => ?post⟩
      case test => rw [State.applyEvOp_test live test, answers]
      case clear =>
        obtain sete | sete := sete
        all_goals rw [State.applyEvOp_sete live sete, answers]; rfl
      case notify =>
        rw [State.applyEvOp_sete live sete, answers, State.applySete_notify]
        rfl
      case kind =>
        rw [State.applyEvOp_sete live sete, answers, State.applySete_kind _ _ _ inline_ overflow]
        rfl
      case post =>
        have cycle : w.cycle = s.cycle := State.focusPart_cycle ..
        have pid : w.pid = part := State.focusPart_pid ..
        intro told
        rw [State.applyEvOp_post live post, State.countedPost_of_unnamed (s := w) e unnamed, pid]
        refine ⟨fun counting inline_ overflow => ?counts, fun x rest counting waiting => ?releases, fun binary was => ?again,
          fun binary clear => ?sets⟩
        case counts => rw [State.applyPost_counts _ _ counting inline_ overflow]; rfl
        case releases => rw [State.applyPost_releases _ _ counting waiting]; rfl
        case again => rw [State.applyPost_again _ _ binary was]; rfl
        case sets => rw [State.applyPost_sets _ _ binary clear, cycle]; rfl
  case walk =>
    intro part name e x rest s u walked waiting
    exact exec_overflowWalk walked waiting
  case rack =>
    intro part o s u w first turn turned
    have applies : exec (.rackOpApply part) s = .next (w.applyRackOp o) := exec_rackOpApply first
    have clock (die : Nat) : w.dieClock die = s.dieClock die := s.dieClock_focusPart part die
    refine ⟨fun dead => ?dead, fun r found => ?live⟩
    case dead => exact applies.trans (congrArg _ (State.applyRackOp_dead turn dead))
    case live =>
      have live : w.part.racks.find? o.rack = some r := found
      intro within becomes
      have reach : r.reaches o.cluster = true ↔ within := r.reaches_iff o.cluster
      have misuse (h : r.Misuse o (w.dieClock (r.home / 9))) : turned .rackport :=
        applies.trans (congrArg _ (State.applyRackOp_misuse turn live h))
      refine ⟨fun out fn => ?out, fun inside fn => ⟨fun free i oldest => ?openWrite, fun taken => ?writeTaken⟩, fun inside fn i own => ?commit,
        fun inside fn other => ?commitOther, fun inside fn free => ⟨fun empty => ?empty, fun f c freshest since => ?openRead⟩,
        fun inside fn taken => ?readTaken, fun inside fn reader => ⟨fun i own => ?close, fun other => ?closeOther⟩,
        fun inside fn port i own => ?closeWriter⟩
      case out => exact misuse (.scope (Bool.eq_false_of_not_eq_true (mt reach.mp out)) (Nat.ne_of_lt fn))
      case openWrite => exact applies.trans (congrArg _ (State.applyRackOp_openWrite live (reach.mpr inside) fn (Rack.openWrite_free free oldest)))
      case writeTaken => exact misuse (.openWrite fn (Rack.openWrite_taken taken))
      case commit =>
        refine ⟨_, applies, ?_⟩
        rw [State.applyRackOp_commit_racks live (reach.mpr inside) fn (Rack.commit_own own), Tab.find?_put_same, clock]
        rfl
      case commitOther => exact misuse (.commit fn (Rack.commit_other other))
      case empty =>
        exact applies.trans (congrArg _ (State.applyRackOp_openRead turn live (reach.mpr inside) fn (Rack.openRead_empty free empty)))
      case openRead =>
        rw [← clock]
        exact applies.trans (congrArg _ (State.applyRackOp_openRead turn live (reach.mpr inside) fn (Rack.openRead_freshest free freshest since)))
      case readTaken => exact misuse (.openRead fn (Rack.openRead_taken taken))
      case close =>
        exact applies.trans (congrArg _ (State.applyRackOp_close live (reach.mpr inside) fn (Rack.close_reader reader own)))
      case closeOther => exact misuse (.close fn (Rack.close_other reader other))
      case closeWriter =>
        exact applies.trans (congrArg _ (State.applyRackOp_close live (reach.mpr inside) fn (by rw [port]; exact Rack.close_writer own)))

end Sys2Proof.Proofs
end

section
/-! SUPPORT. What the words served at the event table and the rack words leave as they issue (R101, R105, R158, R305, R306, R314). -/

namespace Sys2Proof.Machine

open Sys2Proof.Claims

/-! ### What an issue does not look at (R132, R159, R274) -/

/-- What a word puts on its way besides its token: operations to the event table and to racks, and records of the core's trace. -/
structure Outbox where
  evops : List EvOp
  rackops : List RackOp
  trace : List TraceRec
  lost : Nat

/-- The outbox of the core and the partition in focus. -/
def State.outbox (s : State) : Outbox :=
  { evops := s.part.evops, rackops := s.part.rackops, trace := s.core.trace, lost := s.core.lost }

/-- The state with another outbox. -/
def State.withOutbox (s : State) (o : Outbox) : State := { s with
  core := { s.core with trace := o.trace, lost := o.lost }, part := { s.part with evops := o.evops, rackops := o.rackops } }

section
variable (s : State) (o : Outbox)

theorem State.walkPtrs_withOutbox (fuel level table va : Nat) :
    (s.withOutbox o).walkPtrs fuel level table va = s.walkPtrs fuel level table va := by
  induction fuel generalizing level table with
  | zero => rfl
  | succ n ih =>
    have entry (level pa n : Nat) : (s.withOutbox o).readPte level ((s.withOutbox o).readPa pa n) = s.readPte level (s.readPa pa n) := rfl
    simp only [State.walkPtrs, ih, entry]

theorem State.walkCycles_withOutbox (va : Nat) : (s.withOutbox o).walkCycles va = s.walkCycles va := by
  simp only [State.walkCycles, State.walkPtrs_withOutbox]
  rfl

theorem State.takeDelay_withOutbox : (s.withOutbox o).takeDelay = (s.takeDelay.1, s.takeDelay.2.withOutbox o) := by
  have delays : (s.withOutbox o).delays = s.delays := rfl
  unfold State.takeDelay
  rw [delays]
  split <;> rfl

theorem State.cachePtrs_withOutbox (l : List (Nat × Nat)) : (s.withOutbox o).cachePtrs l = (s.cachePtrs l).withOutbox o := rfl

theorem State.cachedPtrs_withOutbox (va : Nat) : (s.withOutbox o).cachedPtrs va = s.cachedPtrs va := rfl

theorem State.startWalk_withOutbox (st : Strm) (va : Nat) (p : Bool) :
    (s.withOutbox o).startWalk st va p = (s.startWalk st va p).withOutbox o := by
  have walks : (s.withOutbox o).core.walks = s.core.walks := rfl
  have cx : (s.withOutbox o).cx = s.cx := rfl
  unfold State.startWalk
  dsimp only
  simp only [walks, cx, State.takeDelay_withOutbox, State.cachedPtrs_withOutbox, State.cachePtrs_withOutbox, State.walkCycles_withOutbox]
  split
  · rfl
  · split
    · rfl
    · split
      · rfl
      · split <;> rfl

theorem State.prefetchPage_withOutbox (st : Strm) (va : Nat) :
    (s.withOutbox o).prefetchPage st va = (s.prefetchPage st va).withOutbox o := by
  have tlb : (s.withOutbox o).core.tlb st = s.core.tlb st := by cases st <;> rfl
  have cx : (s.withOutbox o).cx = s.cx := rfl
  unfold State.prefetchPage
  rw [tlb, cx, State.startWalk_withOutbox]
  split <;> rfl

theorem refetched_withOutbox : refetched (s.withOutbox o) = (refetched s).withOutbox o :=
  List.foldl_hom (fun t => State.withOutbox t o) (fun t w => t.prefetchPage_withOutbox o .c w.toNat)

theorem nextWord_withOutbox : nextWord (s.withOutbox o) = (nextWord s).withOutbox o := by
  rw [nextWord, refetched_withOutbox]
  rfl

theorem tokenTaken_withOutbox (k : Fin 8) (op : TokOp) (lat : Nat) (owned : List (Fin 32)) :
    tokenTaken (s.withOutbox o) k op lat owned = (tokenTaken s k op lat owned).withOutbox o := by
  have bumped : refetched { s.withOutbox o with serial := s.serial + 1 } = (refetched { s with serial := s.serial + 1 }).withOutbox o :=
    refetched_withOutbox { s with serial := s.serial + 1 } o
  unfold tokenTaken
  rw [show (s.withOutbox o).serial = s.serial from rfl, bumped]
  rfl

end

/-- A trace record changes the outbox only. -/
theorem State.trace_eq_withOutbox (s : State) (type : Nat) (st : Strm) (payload : Nat) :
    ∃ trace lost, s.trace type st payload = s.withOutbox { s.outbox with trace := trace, lost := lost } := s.trace_frame type st payload

/-! ### Words that take a token (R158) -/

/-- A token may be taken when no hazard holds the word. -/
theorem Context.tokHazard_eq_none {c : Context} {k : Fin 8} {owned : List (Fin 32)} (may : mayTake c k owned) : c.tokHazard k owned = none := by
  obtain ⟨settled, unowned⟩ := may
  have free : owned.find? (fun r => r != 0 && c.ownedX r) = none := by
    rw [List.find?_eq_none]
    intro r mem
    by_cases zero : r = 0
    · simp [zero]
    · simp [unowned r mem zero]
  simp [Context.tokHazard, settled, free]

section
variable (s : State) (k : Fin 8) (op : TokOp) (lat : Nat) (owned : List (Fin 32))

/-- A word that takes a token and does nothing else. -/
theorem State.takeTok_issued : (s.takeTok k owned lat op).issuedIn .c = tokenTaken s k op lat owned := by
  have again : refetched (s.takeTok k owned lat op) = { refetched { s with serial := s.serial + 1 } with ctx := (s.takeTok k owned lat op).ctx } :=
    State.refetch_withCtx { s with serial := s.serial + 1 } (s.takeTok k owned lat op).ctx (targetsAgain s.ctx)
  rw [State.issuedIn_c, nextWord, again]
  rfl

/-- A word that besides puts something on its way. -/
theorem State.takeTok_withOutbox_issued (o : Outbox) :
    ((s.takeTok k owned lat op).withOutbox o).issuedIn .c = (tokenTaken s k op lat owned).withOutbox o := by
  rw [State.issuedIn_c, nextWord_withOutbox, ← State.issuedIn_c, State.takeTok_issued]

theorem tokenTaken_part : (tokenTaken s k op lat owned).part = s.part := by
  rw [tokenTaken, refetched_frame]

theorem tokenTaken_outbox : (tokenTaken s k op lat owned).outbox = s.outbox := by
  rw [tokenTaken, refetched_frame]
  rfl

end

/-! ### Words served at the event table (R305, R306) -/

/-- A word under its guard does what it says. -/
theorem State.guarded_on {s : State} {g : Fin 8} (on : s.ctx.getP g = true) (f : State → State) : s.guarded g f = f s := if_pos on

/-- The operation of a word of the turn in focus, on its way to the event table. -/
def State.evOp (s : State) (k : Fin 8) (name : Nat) (kind : EvKind) : EvOp :=
  { due := s.cycle + s.toTable, name := name, kind := kind, tok := some (s.turnId, k) }

/-- A word served at the event table that no hazard holds takes its token and sends its operation. -/
theorem State.tableWord_sends {s : State} {k : Fin 8} {owned : List (Fin 32)} (may : mayTake s.ctx k owned) (name : Nat) (kind : EvKind)
    (op : TokOp) : s.tableWord k owned name kind op =
      (tokenTaken s k op s.tableLat owned).withOutbox { s.outbox with evops := s.part.evops ++ [s.evOp k name kind] } := by
  rw [State.tableWord, Context.tokHazard_eq_none may]
  exact s.takeTok_withOutbox_issued k op s.tableLat owned { s.outbox with evops := s.part.evops ++ [s.evOp k name kind] }

/-- A word served at the event table after its trace record, as EPOST is. -/
theorem State.tableWord_traced {s : State} {k : Fin 8} {owned : List (Fin 32)} (may : mayTake s.ctx k owned) (trace : List TraceRec) (lost : Nat)
    (name : Nat) (kind : EvKind) (op : TokOp) :
    (s.withOutbox { s.outbox with trace := trace, lost := lost }).tableWord k owned name kind op =
      (tokenTaken s k op s.tableLat owned).withOutbox
        { s.outbox with trace := trace, lost := lost, evops := s.part.evops ++ [s.evOp k name kind] } := by
  rw [State.tableWord_sends (s := s.withOutbox _) may, tokenTaken_withOutbox]
  rfl

/-- EPOST issues when what it releases is performed, and its record is traced. -/
theorem exec_epost {s : State} {o : Op.TokSrc} (on : s.ctx.getP o.g = true) (settled : s.ctx.tok[o.tok] = none)
    (performed : s.releaseWaits = false) :
    let name := (s.ctx.getX o.ra).toNat % 2 ^ 16
    exec (.epost o) s = .next ((s.trace 9 .c name).tableWord o.tok [] name .post (.epost name)) := by
  have arm : exec (.epost o) s = execEpost o s := rfl
  rw [arm, execEpost, State.guarded_on on, settled, performed]
  rfl

theorem exec_etest {s : State} {o : Op.TokRes} (on : s.ctx.getP o.g = true) (live : s.ctx.replaying = false) :
    let name := (s.ctx.getX o.ra).toNat % 2 ^ 16
    exec (.etest o) s = .next (s.tableWord o.tok [o.rd] name .test (.etest name o.rd)) := by
  have arm : exec (.etest o) s = execEtest o s := rfl
  rw [arm, execEtest, State.guarded_on on, live]
  rfl

/-- A member of SETE under its guard is served at the event table. -/
theorem State.seteWord_on {s : State} {o : Op.TokRes} (on : s.ctx.getP o.g = true) (fn : Nat) :
    let name := (s.ctx.getX o.ra).toNat % 2 ^ 16
    let v : BitVec 32 := BitVec.ofNat 32 ((s.ctx.getX o.ra).toNat / 2 ^ 32)
    s.seteWord o fn = s.tableWord o.tok [o.rd] name (.sete fn v) (.sete fn name v o.rd) := State.guarded_on on _

/-- SETN issues when what it releases is performed. -/
theorem exec_setn {s : State} (o : Op.TokRes) (performed : s.releaseWaits = false) : exec (.setn o) s = .next (s.seteWord o 1) := by
  have arm : exec (.setn o) s = execSetn o s := rfl
  rw [arm, execSetn, performed, Bool.and_false]
  rfl

/-- An event word that may issue is served at the event table, EPOST after its trace record. -/
theorem exec_eventWord {i : Instr} {s : State} {g k : Fin 8} {owned : List (Fin 32)} {name : Nat} {kind : EvKind} {op : TokOp}
    (word : eventWord s i = some (g, k, owned, name, kind, op)) (on : s.ctx.getP g = true) (may : mayTake s.ctx k owned)
    (performed : releases i = true → s.releaseWaits = false) (live : s.ctx.replaying = false) :
    ∃ trace lost, exec i s = .next ((s.withOutbox { s.outbox with trace := trace, lost := lost }).tableWord k owned name kind op) := by
  unfold eventWord at word
  split at word <;> cases word
  case h_1 o => -- EPOST
    obtain ⟨trace, lost, traced⟩ := s.trace_eq_withOutbox 9 .c ((s.ctx.getX o.ra).toNat % 2 ^ 16)
    exact ⟨trace, lost, (exec_epost on may.1 (performed rfl)).trans (by rw [traced]; rfl)⟩
  case h_2 => exact ⟨s.core.trace, s.core.lost, exec_etest on live⟩ -- ETEST
  case h_4 => exact ⟨s.core.trace, s.core.lost, (exec_setn _ (performed rfl)).trans (congrArg _ (State.seteWord_on on 1))⟩ -- SETN
  case h_3 | h_5 | h_6 | h_7 => exact ⟨s.core.trace, s.core.lost, congrArg _ (State.seteWord_on on _)⟩ -- SETA, SETS, SETNT, GETA

/-! ### Rack words (R101, R105, R314) -/

/-- The operation of a word of the turn in focus, on its way to a rack's controller. -/
def State.rackOp (s : State) (k : Fin 8) (fn : Nat) (v : Word) : RackOp :=
  { apply := s.cycle + s.rackLat (rackOf v).1 + s.rackStill (rackOf v).1, serial := s.serial, fn := fn, rack := (rackOf v).1, port := (rackOf v).2
    holder := .turn s.turnId, cluster := clusterOf s.site, tok := some (s.turnId, k), sel := none }

/-- A rack word that no hazard holds takes its token and sends its operation. -/
theorem State.rackWord_sends {s : State} {k : Fin 8} {owned : List (Fin 32)} (may : mayTake s.ctx k owned) (rd : Fin 32) (fn : Nat) (v : Word) :
    s.rackWord k owned rd fn v =
      (tokenTaken s k (.rack fn (rackOf v).1 (rackOf v).2 rd) (2 * s.rackLat (rackOf v).1 + s.rackStill (rackOf v).1) owned).withOutbox
        { s.outbox with rackops := s.part.rackops ++ [s.rackOp k fn v] } := by
  rw [State.rackWord, Context.tokHazard_eq_none may]
  exact s.takeTok_withOutbox_issued k _ _ owned { s.outbox with rackops := s.part.rackops ++ [s.rackOp k fn v] }

theorem exec_rkopenw {s : State} {o : Op.TokRes} (on : s.ctx.getP o.g = true) (live : s.ctx.replaying = false) :
    exec (.rkopenw o) s = .next (s.rackWord o.tok [o.rd] o.rd 0 (s.ctx.getX o.ra)) := by
  have arm : exec (.rkopenw o) s = execRkopenw o s := rfl
  rw [arm, execRkopenw, State.guarded_on on, live]
  rfl

/-- RKCOMMIT issues when the writes and pawns before it are done. -/
theorem exec_rkcommit {s : State} {o : Op.TokSrc} (on : s.ctx.getP o.g = true) (settled : s.ctx.tok[o.tok] = none)
    (performed : s.pendingOn .c 0x0F s.serial (BitVec.allOnes 64) = false ∧ s.ctx.twinOpen = false ∧ s.pawnsOpen = false)
    (live : s.ctx.replaying = false) : exec (.rkcommit o) s = .next (s.rackWord o.tok [] 0 1 (s.ctx.getX o.ra)) := by
  obtain ⟨accesses, window, pawns⟩ := performed
  have arm : exec (.rkcommit o) s = execRkcommit o s := rfl
  rw [arm, execRkcommit, State.guarded_on on, settled, accesses, window, pawns, live]
  rfl

theorem exec_rkopenr {s : State} {o : Op.TokRes} (on : s.ctx.getP o.g = true) (even : o.rd.val % 2 = 0) (live : s.ctx.replaying = false) :
    exec (.rkopenr o) s = .next (s.rackWord o.tok (both o.rd) o.rd 2 (s.ctx.getX o.ra)) := by
  have arm : exec (.rkopenr o) s = execRkopenr o s := rfl
  rw [arm, execRkopenr, State.guarded_on on, even, live]
  rfl

/-- RKCLOSE of a reader port issues when the reads and pawns before it are done. -/
theorem exec_rkclose {s : State} {o : Op.TokSrc} (on : s.ctx.getP o.g = true) (settled : s.ctx.tok[o.tok] = none)
    (performed : (rackOf (s.ctx.getX o.ra)).2 ≠ 63 → s.ctx.readsPending = false ∧ s.pawnsOpen = false) (live : s.ctx.replaying = false) :
    exec (.rkclose o) s = .next (s.rackWord o.tok [] 0 3 (s.ctx.getX o.ra)) := by
  have arm : exec (.rkclose o) s = execRkclose o s := rfl
  have issues : ¬ ((rackOf (s.ctx.getX o.ra)).2 ≠ 63 ∧ (s.ctx.readsPending || s.pawnsOpen) = true) := by
    rintro ⟨reader, waits⟩
    obtain ⟨reads, pawns⟩ := performed reader
    simp [reads, pawns] at waits
  rw [arm, execRkclose, State.guarded_on on, settled, live]
  exact congrArg _ (if_neg issues)

/-- A rack word that may issue is on its way to the rack's controller. -/
theorem exec_rackWord {i : Instr} {s : State} {g k : Fin 8} {owned : List (Fin 32)} {fn : Nat} {ra rd : Fin 32}
    (word : rackWord i = some (g, k, owned, fn, ra, rd)) (on : s.ctx.getP g = true) (even : fn = 2 → rd.val % 2 = 0)
    (may : mayTake s.ctx k owned) (ready : rackReady s fn (rackOf (s.ctx.getX ra)).2) :
    exec i s = .next (s.rackWord k owned rd fn (s.ctx.getX ra)) := by
  obtain ⟨commit, close, live⟩ := ready
  unfold rackWord at word
  split at word <;> cases word
  · exact exec_rkopenw on live
  · exact exec_rkcommit on may.1 (commit rfl) live
  · exact exec_rkopenr on (even rfl) live
  · exact exec_rkclose on may.1 (close rfl) live

end Sys2Proof.Machine
end

section
/-! PROOFS. The obligations of spec/06_racks.md. -/

namespace Sys2Proof.Proofs

open Sys2Proof.Machine Sys2Proof.Claims

/-- Settles O8: an event word by what the event table is sent, a rack word by what the rack's controller is sent. -/
theorem eventAndRackWordsSendTheirOperation : Obligations.EventAndRackWordsSendTheirOperation := by
  unfold Obligations.EventAndRackWordsSendTheirOperation
  refine ⟨?event, ?rack⟩
  case event =>
    intro i s g k owned name kind op word on may performed live t
    obtain ⟨trace, lost, served⟩ := exec_eventWord word on may performed live
    have outbox : t.outbox = s.outbox := tokenTaken_outbox ..
    have part : t.part = s.part := tokenTaken_part ..
    refine ⟨trace, lost, served.trans ?_⟩
    rw [State.tableWord_traced may, ← outbox, ← part]
    rfl
  case rack =>
    intro i s g k owned fn ra rd word on even may v rack port ready
    have outbox := tokenTaken_outbox s k (.rack fn rack port rd) (2 * s.rackLat rack + s.rackStill rack) owned
    have part := tokenTaken_part s k (.rack fn rack port rd) (2 * s.rackLat rack + s.rackStill rack) owned
    refine (exec_rackWord word on even may ready).trans ?_
    rw [State.rackWord_sends may, ← outbox, ← part]
    rfl

end Sys2Proof.Proofs
end

section
/-! SUPPORT. Memory stays canonical (R117 to R119, log 9): steps along a list, and what a function of the state answers beside the state. -/

namespace Sys2Proof.Machine

/-- Steps along a list that each keep memory keep it. -/
@[simp] theorem State.foldl_mem {α : Type} {f : State → α → State} (l : List α) (keeps : ∀ s a, (f s a).mem = s.mem) (s : State) :
    (l.foldl f s).mem = s.mem := by
  induction l generalizing s with
  | nil => rfl
  | cons a r ih => rw [List.foldl_cons, ih, keeps]

/-- Steps along a list that each keep memory canonical keep it so. -/
@[simp] theorem State.foldl_wf {α : Type} {f : State → α → State} {l : List α} (keeps : ∀ s a, s.mem.wf = true → (f s a).mem.wf = true)
    {s : State} (wf : s.mem.wf = true) : (l.foldl f s).mem.wf = true := by
  induction l generalizing s with
  | nil => exact wf
  | cons a r ih => exact ih (keeps s a wf)

/-- Steps along a list over a state and what is gathered beside it. -/
theorem State.foldl_fst_wf {α β : Type} {f : State × β → α → State × β} {l : List α}
    (keeps : ∀ r a, r.1.mem.wf = true → (f r a).1.mem.wf = true) {r : State × β} (wf : r.1.mem.wf = true) :
    (l.foldl f r).1.mem.wf = true := by
  induction l generalizing r with
  | nil => exact wf
  | cons a l ih => exact ih (keeps r a wf)

theorem State.ite_wf {c : Prop} [Decidable c] {t u : State} (ht : t.mem.wf = true) (hu : u.mem.wf = true) :
    (if c then t else u).mem.wf = true := by
  split
  · exact ht
  · exact hu

theorem mem_of_result {α : Type} {s t : State} {r : α} {x : α × State} (e : x = (r, t)) (keeps : x.2.mem = s.mem) : t.mem = s.mem := by
  rw [← keeps, e]

theorem wf_of_result {α : Type} {t : State} {r : α} {x : α × State} (e : x = (r, t)) (keeps : x.2.mem.wf = true) : t.mem.wf = true := by
  simpa [e] using keeps

/-- Bytes written one after another keep the canonical form. -/
theorem Memory.foldl_write_wf {l : List (Nat × BitVec 8)} (at_ : Nat × BitVec 8 → Nat) {m : Memory} (wf : m.wf = true) :
    (l.foldl (fun (m : Memory) e => m.write (at_ e) e.2) m).wf = true := by
  induction l generalizing m with
  | nil => exact wf
  | cons e r ih => exact ih (Memory.wf_write wf)

/-- A store that the frame takes, with the memory's fact as a rewriting rule. -/
@[simp] theorem State.frameWrite_canonical {s : State} {frame : Option Nat} {key : Nat} {bs : List (BitVec 8)} {site : Nat} {cx : Bool} {path : Nat}
    {serial : Option Nat} (wf : s.mem.wf = true) : (s.frameWrite frame key bs site cx path serial).mem.wf = true :=
  State.frameWrite_wf _ _ _ _ _ _ _ _ wf

/-- A record of the fault log, with the memory's fact as a rewriting rule. -/
@[simp] theorem State.logFault_canonical {s : State} {cause kind core record frec : Nat} (wf : s.mem.wf = true) :
    (s.logFault cause kind core record frec).mem.wf = true :=
  State.logFault_wf _ _ _ _ _ _ wf

/-- The next state, where there is one, has a canonical memory. -/
def Canonical (o : Host.Outcome State Fault Refusal) : Prop := ∀ t, o = .next t → t.mem.wf = true

theorem canonical_next {t : State} (wf : t.mem.wf = true) : Canonical (.next t) := fun _ e => by
  cases e
  exact wf

@[simp] theorem canonical_next_iff {t : State} : Canonical (.next t) ↔ t.mem.wf = true := ⟨fun h => h t rfl, canonical_next⟩

theorem canonical_fault {r : Fault} : Canonical (.fault r) := fun _ e => by cases e

theorem nextOf_wf {s : State} {o : Host.Outcome State Fault Refusal} (wf : s.mem.wf = true) (canonical : Canonical o) :
    (nextOf s o).mem.wf = true := by
  cases o with
  | next t => exact canonical t rfl
  | fault => exact wf
  | refused => exact wf

end Sys2Proof.Machine
end

section
/-! SUPPORT. The state's own operations: a store keeps memory canonical, the others leave it as it is. -/

namespace Sys2Proof.Machine

@[simp] theorem State.putCoreOf_mem (s : State) (site : Nat) (b : CoreBox) : (s.putCoreOf site b).mem = s.mem := by
  unfold State.putCoreOf
  split <;> simp

@[simp] theorem State.takeDelay_mem (s : State) : (s.takeDelay).2.mem = s.mem := by
  rw [State.takeDelay_frame]

@[simp] theorem State.land_mem (s : State) (st : Strm) (lat : Nat) (dst : Dest) (v : BitVec 256) : (s.land st lat dst v).mem = s.mem := rfl

@[simp] theorem State.writeList_wf {s : State} {k : Nat} {bs : List (BitVec 8)} (wf : s.mem.wf = true) : (s.writeList k bs).mem.wf = true :=
  Memory.wf_writeBytes _ wf

@[simp] theorem State.writeKey_wf {s : State} {k n v : Nat} (wf : s.mem.wf = true) : (s.writeKey k n v).mem.wf = true :=
  State.writeList_wf wf

@[simp] theorem State.rewrite_mem (s : State) (k n : Nat) : (s.rewrite k n).mem = s.mem := rfl

@[simp] theorem State.hwWrite_wf {s : State} {p : Place} {bs : List (BitVec 8)} {serial : Option Nat} (wf : s.mem.wf = true) :
    (s.hwWrite p bs serial).mem.wf = true := by
  unfold State.hwWrite
  simp [wf]

@[simp] theorem State.performRepl_wf {s : State} {w : ReplWrite} (wf : s.mem.wf = true) : (s.performRepl w).mem.wf = true := Memory.wf_writeBytes _ wf

@[simp] theorem State.invalidate_mem (s : State) (frame : Nat) (hs : List Nat) : (s.invalidate frame hs).mem = s.mem :=
  State.foldl_mem _ (fun _ _ => State.notify_mem ..) _

theorem State.writeVaFor_wf {s : State} {serial : Option Nat} {va n v : Nat} {t : State} (e : s.writeVaFor serial va n v = .ok t)
    (wf : s.mem.wf = true) :
    t.mem.wf = true := by
  unfold State.writeVaFor at e
  split at e
  · simp at e
  · split at e
    · simp at e
    · cases e
      exact State.hwWrite_wf wf

theorem State.writeVa_wf {s : State} {va n v : Nat} {t : State} (e : s.writeVa va n v = .ok t) (wf : s.mem.wf = true) : t.mem.wf = true :=
  State.writeVaFor_wf e wf

@[simp] theorem State.noteSlow_mem (s : State) (serial key lat : Nat) : (s.noteSlow serial key lat).mem = s.mem := by
  unfold State.noteSlow
  split <;> simp

@[simp] theorem State.noteCorrected_mem (s : State) (line : Nat) : (s.noteCorrected line).mem = s.mem := by
  unfold State.noteCorrected
  split <;> simp

@[simp] theorem State.meetBad_mem (s : State) (key n : Nat) : (s.meetBad key n).mem = s.mem := by
  refine State.foldl_mem _ (fun t w => ?_) _
  split <;> rfl

@[simp] theorem State.seeVa_mem (s : State) (va n : Nat) : (s.seeVa va n).mem = s.mem := by
  unfold State.seeVa
  split <;> simp

@[simp] theorem State.traceAt_mem (s : State) (type : Nat) (st : Strm) (lp : Option LoopSt) (payload : Nat) :
    (s.traceAt type st lp payload).mem = s.mem := by
  unfold State.traceAt
  (repeat' split) <;> simp

@[simp] theorem State.managerTrace_wf {s : State} {type core payload : Nat} (wf : s.mem.wf = true) :
    (s.managerTrace type core payload).mem.wf = true := by
  unfold State.managerTrace
  extract_lets
  split
  · exact wf
  · split
    · rwa [State.notify_mem]
    · exact State.writeKey_wf wf

@[simp] theorem State.retireTurn_mem (s : State) (faulted cancelled : Bool) : (s.retireTurn faulted cancelled).mem = s.mem := rfl

@[simp] theorem State.enterTrapAt_wf {s : State} {now : Nat} {t : PendTrap} {epc : Word} (wf : s.mem.wf = true) :
    (s.enterTrapAt now t epc).mem.wf = true := by
  unfold State.enterTrapAt
  dsimp only
  split <;> simp [wf]

@[simp] theorem State.enterTrap_wf {s : State} {t : PendTrap} {epc : Word} (wf : s.mem.wf = true) : (s.enterTrap t epc).mem.wf = true := by
  unfold State.enterTrap
  simp [wf]

@[simp] theorem State.trapWord_wf {s : State} {cause : Cause} {faddr : Word} (wf : s.mem.wf = true) : (s.trapWord cause faddr).mem.wf = true := by
  unfold State.trapWord
  simp [wf]

@[simp] theorem State.faultEngine_mem (s : State) (st : Strm) (cause : Cause) (faddr frec : Word) (pawn : Option Nat) (fpc2 : Word) (st2 : Strm) :
    (s.faultEngine st cause faddr frec pawn fpc2 st2).mem = s.mem :=
  rfl

@[simp] theorem State.faultAt_mem (s : State) (st : Strm) (cause : Cause) (faddr : Word) : (s.faultAt st cause faddr).mem = s.mem := rfl

@[simp] theorem State.leaveTrap_mem (s : State) : (s.leaveTrap).mem = s.mem := by
  unfold State.leaveTrap
  simp

@[simp] theorem State.loopExit_wf {s : State} {st : Strm} {l : LoopSt} (wf : s.mem.wf = true) : (s.loopExit st l).mem.wf = true := by
  unfold State.loopExit
  have skip : ∀ f p, ((s.onCtx f).traceAt 5 st (some l) p).mem.wf = true := fun f p => by
    rwa [State.traceAt_mem, State.onCtx_mem]
  split
  · rwa [State.traceAt_mem]
  · dsimp only
    split
    · exact skip ..
    · split
      · exact skip ..
      · next e =>
        rw [State.traceAt_mem, State.onCtx_mem]
        exact State.writeWords_wf e wf

@[simp] theorem State.contend_mem (s : State) (requester key : Nat) : (s.contend requester key).2.mem = s.mem := by
  unfold State.contend
  dsimp only
  (repeat' split) <;> simp

@[simp] theorem State.contendCopy_mem (s : State) (src dst : Nat) : (s.contendCopy src dst).2.mem = s.mem := by
  unfold State.contendCopy
  simp

@[simp] theorem State.contendAll_mem (s : State) (requester : Nat) (keys : List Nat) : (s.contendAll requester keys).2.mem = s.mem := by
  induction keys generalizing s with
  | nil => simp [State.contendAll]
  | cons k r ih => cases r <;> simp_all [State.contendAll]

end Sys2Proof.Machine
end

section
/-! SUPPORT. Translation leaves memory as it is; a hardware write keeps it canonical. -/

namespace Sys2Proof.Machine

@[simp] theorem State.seeWords_mem (s : State) (keys : List Nat) : (s.seeWords keys).mem = s.mem := by
  unfold State.seeWords
  simp

@[simp] theorem State.cachePtrs_mem (s : State) (ps : List (Nat × Nat)) : (s.cachePtrs ps).mem = s.mem := rfl

@[simp] theorem State.startWalk_mem (s : State) (st : Strm) (va : Nat) (prefetch : Bool) : (s.startWalk st va prefetch).mem = s.mem := by
  unfold State.startWalk
  dsimp only
  (repeat' split) <;> simp

@[simp] theorem State.endWalk_mem (s : State) (w : Walk) : (s.endWalk w).mem = s.mem := by
  unfold State.endWalk
  dsimp only
  (repeat' split) <;> simp

@[simp] theorem State.chipGate_mem (s : State) (st : Strm) (va chip : Nat) : (s.chipGate st va chip).2.mem = s.mem := by
  unfold State.chipGate
  dsimp only
  (repeat' split) <;> simp

@[simp] theorem State.peerGate_mem (s : State) (st : Strm) (va : Nat) (l : Leaf) : (s.peerGate st va l).2.mem = s.mem := by
  unfold State.peerGate
  split <;> simp

@[simp] theorem State.xlate_mem (s : State) (st : Strm) (k : Acc) (va n : Nat) : (s.xlate st k va n).2.mem = s.mem := by
  unfold State.xlate
  split
  · rfl
  split
  · (repeat' split) <;> rfl
  split
  · extract_lets t
    have m : t.mem = s.mem := State.onCore_mem ..
    split
    · exact m
    · split
      · next e => exact (mem_of_result e (State.peerGate_mem ..)).trans m
      · next e => exact (mem_of_result e (State.peerGate_mem ..)).trans m
  · split <;> simp

@[simp] theorem State.prefetchPage_mem (s : State) (st : Strm) (va : Nat) : (s.prefetchPage st va).mem = s.mem := by
  unfold State.prefetchPage
  split <;> simp

@[simp] theorem State.prefetchNext_mem (s : State) (st : Strm) (vas : List Nat) : (s.prefetchNext st vas).mem = s.mem := by
  unfold State.prefetchNext
  dsimp only
  (repeat' split) <;> simp

@[simp] theorem State.prefetchLoops_mem (s : State) (st : Strm) (va : Nat) (loops : List (Nat × Int × Nat)) (base : Int) :
    (s.prefetchLoops st va loops base).mem = s.mem := by
  unfold State.prefetchLoops
  dsimp only
  (repeat' split) <;> simp

@[simp] theorem State.xlateMore_mem (s : State) (st : Strm) (ls : List (Acc × Nat × Nat)) (tr : List Trans) :
    (s.xlateMore st ls tr).2.mem = s.mem := by
  induction ls generalizing s tr with
  | nil => rfl
  | cons l r ih =>
    unfold State.xlateMore
    split
    · exact ih ..
    · have m := State.xlate_mem s st l.1 l.2.1 l.2.2
      split <;> simp_all

@[simp] theorem State.noteRead_mem (s : State) (p : Place) (n : Nat) : (s.noteRead p n).mem = s.mem := by
  unfold State.noteRead
  dsimp only
  (repeat' split) <;> simp

@[simp] theorem State.writePlace_wf {s : State} {path serial : Nat} {p : Place} {bs : List (BitVec 8)} (wf : s.mem.wf = true) :
    (s.writePlace path serial p bs).mem.wf = true := by
  unfold State.writePlace
  simp [wf]

@[simp] theorem State.reloadC_mem (s : State) (es : List LandSave) : (s.reloadC es).mem = s.mem := by
  unfold State.reloadC
  simp

@[simp] theorem State.resumeC_mem (s : State) : (s.resumeC).mem = s.mem := by
  unfold State.resumeC
  (repeat' split) <;> simp

@[simp] theorem State.waitLanding_mem (s : State) (why : WaitOn) : (s.waitLanding why).mem = s.mem := by
  unfold State.waitLanding
  simp

@[simp] theorem State.issuedAt_wf {s : State} {st : Strm} {pc : Word} {ls : List LoopSt} {fresh : Bool} (wf : s.mem.wf = true) :
    (s.issuedAt st pc ls fresh).mem.wf = true := by
  unfold State.issuedAt
  (repeat' split) <;> simp_all

@[simp] theorem State.issuedIn_wf {s : State} {st : Strm} (wf : s.mem.wf = true) : (s.issuedIn st).mem.wf = true := by
  unfold State.issuedIn
  simp [wf]

@[simp] theorem State.issuedTo_wf {s : State} {pc : Word} (wf : s.mem.wf = true) : (s.issuedTo pc).mem.wf = true := by
  unfold State.issuedTo
  simp [wf]

end Sys2Proof.Machine
end

section
/-! SUPPORT. Counters, levels and the heaps write memory only through a hardware write. -/

namespace Sys2Proof.Machine

@[simp] theorem State.putCtr_wf {s : State} {a : Word} {w : Nat} (wf : s.mem.wf = true) : (s.putCtr a w).mem.wf = true := by
  unfold State.putCtr
  (repeat' split) <;> simp [wf]

@[simp] theorem State.putWord_wf {s : State} {a : Word} {w : Nat} (wf : s.mem.wf = true) : (s.putWord a w).mem.wf = true := by
  unfold State.putWord
  split
  · next e => exact State.writeVa_wf e wf
  · exact wf

@[simp] theorem State.setCtrBit_wf {s : State} {a : Word} {b : Nat} (wf : s.mem.wf = true) : (s.setCtrBit a b).mem.wf = true := by
  unfold State.setCtrBit
  split <;> simp [wf]

theorem State.createUnder_wf {s : State} {a : Word} {n : Nat} {t : State} {r : Bool} (e : s.createUnder a n = .ok (r, t)) (wf : s.mem.wf = true) :
    t.mem.wf = true := by
  unfold State.createUnder at e
  split at e
  · split at e <;> cases e
    · exact wf
    · exact State.putCtr_wf wf
  · simp at e

@[simp] theorem State.adoptUnder_wf {s : State} {a : Word} {n : Nat} (wf : s.mem.wf = true) : (s.adoptUnder a n).mem.wf = true := by
  unfold State.adoptUnder
  split <;> simp [wf]

@[simp] theorem State.postEvent_mem (s : State) (name : Nat) : (s.postEvent name).mem = s.mem := rfl

@[simp] theorem State.postOf_mem (s : State) (w : Nat) : (s.postOf w).mem = s.mem := by
  unfold State.postOf
  split <;> simp

@[simp] theorem State.onSched_mem (s : State) (cl : Nat) (f : Sched → Sched) : (s.onSched cl f).mem = s.mem := rfl

@[simp] theorem State.enterHeap_mem (s : State) (cl : Nat) (e : HeapEnt) : (s.enterHeap cl e).mem = s.mem := by
  unfold State.enterHeap
  extract_lets
  (repeat' split) <;> simp

@[simp] theorem State.returnHeap_mem (s : State) (cl : Nat) (e : HeapEnt) : (s.returnHeap cl e).mem = s.mem := by
  unfold State.returnHeap
  split <;> simp

@[simp] theorem State.onLevel_mem (s : State) (a : Word) (f : Level → Level) : (s.onLevel a f).mem = s.mem := rfl

@[simp] theorem State.dropLevel_mem (s : State) (a : Word) : (s.dropLevel a).mem = s.mem := rfl

@[simp] theorem State.onJob_mem (s : State) (job : Nat) (f : Job → Job) : (s.onJob job f).mem = s.mem := rfl

@[simp] theorem State.onAct_mem (s : State) (job act : Nat) (f : Activity → Activity) : (s.onAct job act f).mem = s.mem := rfl

@[simp] theorem State.failCtr_wf {s : State} {a : Word} {fresh : Bool} (wf : s.mem.wf = true) : (s.failCtr a fresh).1.mem.wf = true := by
  unfold State.failCtr
  split <;> simp [wf]

@[simp] theorem State.phaseFault_wf {s : State} {job act : Nat} {c : Cause} (wf : s.mem.wf = true) : (s.phaseFault job act c).1.mem.wf = true := by
  unfold State.phaseFault
  split <;> simp [wf]

@[simp] theorem State.startGraph_wf {s : State} {g : Word} {job act : Nat} (wf : s.mem.wf = true) : (s.startGraph g job act).1.mem.wf = true := by
  unfold State.startGraph
  dsimp only
  (repeat' split) <;> simp_all

@[simp] theorem State.refuseLaunch_wf {s : State} {rec : Word} {c : Cause} (wf : s.mem.wf = true) : (s.refuseLaunch rec c).1.mem.wf = true := by
  unfold State.refuseLaunch
  simp [wf]

@[simp] theorem State.startLaunch_wf {s : State} {rec parent : Word} {node : Option Nat} {job act : Nat} (wf : s.mem.wf = true) :
    (s.startLaunch rec parent node job act).1.mem.wf = true := by
  unfold State.startLaunch
  dsimp only
  (repeat' split) <;> simp [wf]

@[simp] theorem State.placeTurn_wf {s : State} {rec launch : Word} {pin : Option Nat} {job act : Nat} (wf : s.mem.wf = true) :
    (s.placeTurn rec launch pin job act).1.mem.wf = true := by
  unfold State.placeTurn
  (repeat' split) <;> simp [wf]

@[simp] theorem State.actDone_mem (s : State) (job act : Nat) : (s.actDone job act).1.mem = s.mem := by
  unfold State.actDone
  (repeat' split) <;> simp

@[simp] theorem State.jobDone_mem (s : State) (job : Nat) : (s.jobDone job).mem = s.mem := by
  unfold State.jobDone
  (repeat' split) <;> simp

@[simp] theorem State.levelEnded_wf {s : State} {a : Word} {faulted cancelled : Bool} (wf : s.mem.wf = true) :
    (s.levelEnded a faulted cancelled).1.mem.wf = true := by
  unfold State.levelEnded
  split
  · exact wf
  · extract_lets dropped launched marked ended
    have hd : dropped.mem.wf = true := by simp [dropped, wf]
    have hl : launched.mem.wf = true := by simp [launched, hd]
    have hm : marked.mem.wf = true := by unfold marked; split <;> simp [hd]
    split
    · split
      · exact hl
      · split
        · exact hl
        · split
          · exact hl
          · split
            · refine State.foldl_fst_wf (fun r j h => ?_) hl
              dsimp only
              split
              · exact State.putWord_wf h
              · exact h
            · exact hl
    · exact hd
    · simp [ended, hm]
    · simp [hd]

@[simp] theorem State.decrement_wf {s : State} {a : Word} {n : Nat} {faulted cancelled : Bool} (wf : s.mem.wf = true) :
    (s.decrement a n faulted cancelled).1.mem.wf = true := by
  unfold State.decrement
  dsimp only
  (repeat' split) <;> simp [wf]

@[simp] theorem State.doWork_wf {s : State} {w : Work} (wf : s.mem.wf = true) : (s.doWork w).1.mem.wf = true := by
  unfold State.doWork
  (repeat' split) <;> simp [wf]

@[simp] theorem State.doWorks_wf {s : State} {n : Nat} {ws : List Work} (wf : s.mem.wf = true) : (s.doWorks n ws).mem.wf = true := by
  induction n generalizing s ws with
  | zero => cases ws <;> exact wf
  | succ n ih =>
    cases ws with
    | nil => exact wf
    | cons w r => exact ih (State.doWork_wf wf)

@[simp] theorem State.run_wf {s : State} {ws : List Work} (wf : s.mem.wf = true) : (s.run ws).mem.wf = true := by
  unfold State.run
  simp [wf]

@[simp] theorem State.runAll_wf {r : State × List Work} (wf : r.1.mem.wf = true) : (State.runAll r).mem.wf = true := by
  unfold State.runAll
  simp [wf]

@[simp] theorem State.countMiss_wf {s : State} {a : Activity} (wf : s.mem.wf = true) : (s.countMiss a).mem.wf = true := by
  unfold State.countMiss
  split <;> simp [wf]

@[simp] theorem State.beginSelect_wf {s : State} {job act : Nat} (wf : s.mem.wf = true) : (s.beginSelect job act).1.mem.wf = true := by
  unfold State.beginSelect
  dsimp only
  (repeat' split) <;> simp [wf]

@[simp] theorem State.release_wf {s : State} {job act at_ : Nat} (wf : s.mem.wf = true) : (s.release job act at_).1.mem.wf = true := by
  unfold State.release
  dsimp only
  (repeat' split) <;> simp [wf]

@[simp] theorem State.select_wf {s : State} {job act size : Nat} (wf : s.mem.wf = true) : (s.select job act size).1.mem.wf = true := by
  unfold State.select
  dsimp only
  (repeat' split) <;> simp [wf]

@[simp] theorem State.releaseTurns_mem (s : State) (ws : List (HeapEnt × Nat)) : (s.releaseTurns ws).mem = s.mem := by
  unfold State.releaseTurns
  simp

@[simp] theorem State.putEvent_mem (s : State) (name : Nat) (e : EvEnt) : (s.putEvent name e).mem = s.mem :=
  State.onPart_mem ..

@[simp] theorem State.applyPost_mem (s : State) (name : Nat) (e : EvEnt) : (s.applyPost name e).mem = s.mem := by
  unfold State.applyPost
  split
  · split <;> simp
  · split
    · rfl
    · rw [State.releaseTurns_mem, State.putEvent_mem]

@[simp] theorem State.postReleases_wf {s : State} {name : Nat} (wf : s.mem.wf = true) : (s.postReleases name).mem.wf = true :=
  State.foldl_wf (fun _ _ h => State.runAll_wf (State.release_wf h)) wf

@[simp] theorem State.countedPost_wf {s : State} {name : Nat} {e : EvEnt} (wf : s.mem.wf = true) : (s.countedPost name e).mem.wf = true := by
  unfold State.countedPost
  split <;> simp [wf]

@[simp] theorem State.applySete_mem (s : State) (fn name : Nat) (e : EvEnt) (v : BitVec 32) : (s.applySete fn name e v).mem = s.mem := by
  unfold State.applySete
  dsimp only
  (repeat' split) <;> simp

@[simp] theorem State.applyEwait_mem (s : State) (name : Nat) (e : EvEnt) (h : HeapEnt) (cl : Nat) : (s.applyEwait name e h cl).mem = s.mem := by
  unfold State.applyEwait
  split
  · rw [State.releaseTurns_mem, State.putEvent_mem]
  · split <;> rw [State.putEvent_mem]

@[simp] theorem State.onTok_mem (s : State) (t : BitVec 48 × Fin 8) (f : TokPend → TokPend) : (s.onTok t f).mem = s.mem := by
  unfold State.onTok
  split <;> simp

@[simp] theorem State.answerTok_mem (s : State) (t : Option (BitVec 48 × Fin 8)) (v w : Word) : (s.answerTok t v w).mem = s.mem := by
  unfold State.answerTok
  split <;> simp

@[simp] theorem State.faultTok_mem (s : State) (t : Option (BitVec 48 × Fin 8)) (c : Cause) (va : Word) : (s.faultTok t c va).mem = s.mem := by
  unfold State.faultTok
  split <;> simp

@[simp] theorem State.freeNames_mem (s : State) (job : Nat) : (s.freeNames job).mem = s.mem := rfl

@[simp] theorem State.applyEvOp_wf {s : State} {o : EvOp} (wf : s.mem.wf = true) : (s.applyEvOp o).mem.wf = true := by
  unfold State.applyEvOp
  (repeat' split) <;> simp [wf]

@[simp] theorem State.countOff_mem (s : State) (g : Word) : (s.countOff g).1.mem = s.mem := by
  unfold State.countOff
  split <;> simp

@[simp] theorem State.cancelLevel_wf {s : State} {a : Word} {kind : LevelKind} (wf : s.mem.wf = true) : (s.cancelLevel a kind).mem.wf = true := by
  unfold State.cancelLevel
  split
  · exact wf
  · split
    · exact wf
    · extract_lets under graphs marked counted cast
      have hm : marked.mem.wf = true := State.foldl_wf (fun _ _ h => by simp [h]) wf
      have hc : counted.mem.wf = true := State.foldl_wf (fun _ _ h => by simp [h]) hm
      have ha : cast.mem.wf = true := by simp [cast, hc]
      split
      · exact State.foldl_wf (fun _ _ h => by simp [h]) ha
      · exact ha

end Sys2Proof.Machine
end

section
/-! SUPPORT. Queues, channels and the replay log. -/

namespace Sys2Proof.Machine

@[simp] theorem State.queueFail_mem (s : State) (st : Strm) (q : Fin 16) (f : QFail) : (s.queueFail st q f).mem = s.mem := by
  unfold State.queueFail
  split <;> simp

@[simp] theorem State.addRanges_mem (s : State) (st : Strm) (serial : Nat) (pawn : Option Nat) (rs : List (Nat × Nat × Bool)) :
    (s.addRanges st serial pawn rs).mem = s.mem :=
  rfl

@[simp] theorem State.dropRanges_mem (s : State) (serial : Nat) : (s.dropRanges serial).mem = s.mem := rfl

@[simp] theorem State.overlapAt_mem (s : State) (st : Strm) (r : RangeOp) (va frec : Word) : (s.overlapAt st r va frec).mem = s.mem := rfl

end Sys2Proof.Machine
end

section
/-! SUPPORT. Pawns: of a step of a pawn, only the pieces that it moves write memory. -/

namespace Sys2Proof.Machine

@[simp] theorem State.onPawn_mem (s : State) (k : Fin 64) (f : Pawn → Pawn) : (s.onPawn k f).mem = s.mem := rfl

@[simp] theorem State.freeEntry_mem (s : State) (k : Fin 64) : (s.freeEntry k).mem = s.mem := rfl

@[simp] theorem State.aggregate_mem (s : State) (k : Fin 64) (p : Pawn) : (s.aggregate k p).mem = s.mem := by
  unfold State.aggregate
  dsimp only
  split <;> simp

@[simp] theorem State.anonymise_mem (s : State) (k : Fin 64) : (s.anonymise k).mem = s.mem := by
  unfold State.anonymise
  dsimp only
  split <;> simp

@[simp] theorem State.createPawn_wf {s : State} {k : Fin 64} {n : NewPawn} (wf : s.mem.wf = true) : (s.createPawn k n).mem.wf = true := by
  unfold State.createPawn
  dsimp only
  (repeat' split) <;> simp [wf]

@[simp] theorem State.onChan_mem (s : State) (launch : Word) (num : Nat) (f : Chan → Chan) : (s.onChan launch num f).mem = s.mem := rfl

@[simp] theorem State.giveBack_mem (s : State) (p : Pawn) : (s.giveBack p).mem = s.mem := by
  unfold State.giveBack
  (repeat' split) <;> simp

@[simp] theorem State.endAdopted_wf {s : State} {k : Fin 64} {p : Pawn} {faulted : Bool} (wf : s.mem.wf = true) :
    (s.endAdopted k p faulted).mem.wf = true := by
  unfold State.endAdopted
  (repeat' split) <;> simp [wf]

@[simp] theorem State.endPawn_wf {s : State} {k : Fin 64} (wf : s.mem.wf = true) : (s.endPawn k).mem.wf = true := by
  unfold State.endPawn
  dsimp only
  (repeat' split) <;> simp [wf]

@[simp] theorem State.freeAfter_mem (s : State) (h : BitVec 16) (tok : Option (Fin 8)) (st : Option Strm) (k : Fin 64) :
    (s.freeAfter h tok st k).mem = s.mem := by
  unfold State.freeAfter
  split <;> simp

@[simp] theorem State.clearRanges_mem (s : State) (k : Fin 64) : (s.clearRanges k).mem = s.mem := by
  unfold State.clearRanges
  dsimp only
  (repeat' split) <;> simp

@[simp] theorem State.cancelPawn_mem (s : State) (k : Fin 64) : (s.cancelPawn k).mem = s.mem := by
  unfold State.cancelPawn
  simp

@[simp] theorem State.hostAnswer_mem (s : State) (key : Nat) (cause : Option Cause) : (s.hostAnswer key cause).2.mem = s.mem := by
  unfold State.hostAnswer
  split <;> simp

@[simp] theorem State.endAccess_mem (s : State) (tag : Nat) (cause : Option Cause) : (s.endAccess tag cause).mem = s.mem := by
  unfold State.endAccess
  dsimp only
  (repeat' split) <;> simp

@[simp] theorem State.answerAccess_mem (s : State) (tag at_ : Nat) (cause : Option Cause) : (s.answerAccess tag at_ cause).mem = s.mem := rfl

@[simp] theorem State.detachPawn_wf {s : State} {k : Fin 64} {event : Option Nat} (wf : s.mem.wf = true) : (s.detachPawn k event).mem.wf = true := by
  unfold State.detachPawn
  dsimp only
  (repeat' split) <;> simp [wf]

@[simp] theorem State.writeLine_wf {s : State} {p : Pawn} {l : CopyLine} {a b : Place} (wf : s.mem.wf = true) :
    (s.writeLine p l a b).mem.wf = true := by
  unfold State.writeLine
  simp [wf]

@[simp] theorem State.moveLine_wf {s : State} {p : Pawn} {i : Nat} {l : CopyLine} (wf : s.mem.wf = true) : (s.moveLine p i l).2.mem.wf = true := by
  unfold State.moveLine
  dsimp only
  (repeat' split) <;> simp [wf]

@[simp] theorem State.moveLines_wf {s : State} {p : Pawn} {i : Nat} {ls : List CopyLine} (wf : s.mem.wf = true) :
    (s.moveLines p i ls).2.mem.wf = true := by
  induction ls generalizing s i with
  | nil => exact wf
  | cons l r ih =>
    unfold State.moveLines
    split
    · next e => exact ih (wf_of_result e (State.moveLine_wf wf))
    · exact State.moveLine_wf wf

@[simp] theorem State.copyStep_wf {s : State} {p : Pawn} (wf : s.mem.wf = true) : (s.copyStep p).2.mem.wf = true := by
  unfold State.copyStep
  split <;> simp [wf]

@[simp] theorem State.prefetchCopy_mem (s : State) (p : Pawn) : (s.prefetchCopy p).mem = s.mem := by
  unfold State.prefetchCopy
  (repeat' split) <;> simp

@[simp] theorem State.afterStep_mem (s : State) (k : Fin 64) (e : StepEnd) (cycles : Nat) : (s.afterStep k e cycles).mem = s.mem := by
  unfold State.afterStep
  split
  · simp
  · simp
  · dsimp only
    split <;> simp

end Sys2Proof.Machine
end

section
/-! SUPPORT. Turns are loaded, retired and replayed. -/

namespace Sys2Proof.Machine

@[simp] theorem State.rackFault_wf {s : State} {o : RackOp} {c : Cause} (wf : s.mem.wf = true) : (s.rackFault o c).mem.wf = true := by
  unfold State.rackFault
  (repeat' split) <;> simp [wf]

@[simp] theorem State.putRack_mem (s : State) (n : Nat) (r : Rack) : (s.putRack n r).mem = s.mem := rfl

@[simp] theorem State.applyRackOp_wf {s : State} {o : RackOp} (wf : s.mem.wf = true) : (s.applyRackOp o).mem.wf = true := by
  unfold State.applyRackOp
  split
  · simp [wf]
  split
  · simp [wf]
  split
  · split <;> simp [wf]
  · split
    · simp [wf]
    · extract_lets t u
      have h : u.mem.wf = true := by
        unfold u
        split
        · next e => exact State.writeVa_wf e (by simp [t, wf])
        · simp [t, wf]
      split
      · next e => exact State.writeVa_wf e h
      · exact h
  · split
    · simp [wf]
    · dsimp only
      split <;> simp [wf]
  · split <;> simp [wf]
  · simp [wf]

@[simp] theorem State.releasePorts_mem (s : State) (cl : Nat) (id : BitVec 48) : (s.releasePorts cl id).mem = s.mem :=
  State.foldl_mem _ (fun _ _ => by simp) _

@[simp] theorem State.leaveHolds_mem (s : State) (cl : Nat) (id : BitVec 48) : (s.leaveHolds cl id).mem = s.mem := by
  unfold State.leaveHolds
  simp

@[simp] theorem State.appendLog_wf {s : State} {e : LogEnt} (wf : s.mem.wf = true) : (s.appendLog e).2.mem.wf = true := by
  unfold State.appendLog
  dsimp only
  split
  · exact wf
  · split
    · exact wf
    · next h => rw [State.onCtx_mem]; exact State.writeWords_wf h wf

@[simp] theorem State.payLoss_wf {s : State} (wf : s.mem.wf = true) : (s.payLoss).mem.wf = true := by
  unfold State.payLoss
  dsimp only
  (repeat' split) <;> simp [wf]

@[simp] theorem State.logOne_wf {s : State} {e : LogEnt} (wf : s.mem.wf = true) : (s.logOne e).mem.wf = true := by
  unfold State.logOne
  dsimp only
  (repeat' split) <;> simp [wf]

@[simp] theorem State.flushLog_wf {s : State} (wf : s.mem.wf = true) : (s.flushLog).mem.wf = true := by
  unfold State.flushLog
  dsimp only
  (repeat' split) <;> simp_all

@[simp] theorem State.replayLog_wf {s : State} {serial kind : Nat} {st : Strm} {pos v : Nat} (wf : s.mem.wf = true) :
    (s.replayLog serial kind st pos v).mem.wf = true := by
  unfold State.replayLog
  split <;> simp [wf]

@[simp] theorem State.replayEnd_wf {s : State} (wf : s.mem.wf = true) : (s.replayEnd).mem.wf = true := by
  unfold State.replayEnd
  split
  · exact wf
  · exact State.payLoss_wf (State.foldl_wf (fun _ _ h => State.logOne_wf h) wf)

@[simp] theorem State.retire_wf {s : State} {faulted cancelled : Bool} (wf : s.mem.wf = true) : (s.retire faulted cancelled).mem.wf = true := by
  unfold State.retire
  split
  · exact wf
  · extract_lets own unended unseen traced made ended adopted stopped under freed left keep emptied joined marked
    have he : ended.mem.wf = true := by simp [ended, traced, wf]
    have ha : adopted.mem.wf = true := State.foldl_wf (fun _ _ h => by simpa using h) he
    have hs : stopped.mem.wf = true := by unfold stopped; split <;> simp [ha]
    have hf : freed.mem.wf = true := State.foldl_wf (fun _ _ h => by simpa using h) (by simp [under, hs])
    have hl : emptied.mem.wf = true := by simp [emptied, left, hf]
    have hj : joined.mem.wf = true := by unfold joined; split <;> simp [hl]
    have hm : marked.mem.wf = true := by unfold marked; split <;> simp [hj]
    simp [hm]

theorem State.replayTake_mem {t : State} {a : Word} (s : State) (kind : Nat) (st : Strm) (pos : Nat) (e : s.replayTake kind st pos = some (a, t)) :
    t.mem = s.mem := by
  unfold State.replayTake at e
  split at e
  · obtain ⟨_, _, e⟩ := Option.map_eq_some_iff.mp e
    cases e
    exact State.onCtx_mem ..
  · cases e

@[simp] theorem State.requestHaltAt_mem (s : State) (now : Nat) : (s.requestHaltAt now).mem = s.mem := rfl

@[simp] theorem State.requestHalt_mem (s : State) : (s.requestHalt).mem = s.mem := rfl

@[simp] theorem State.onDbg_mem (s : State) (site : Nat) (f : DbgWin → DbgWin) : (s.onDbg site f).mem = s.mem := by
  unfold State.onDbg
  split <;> simp

@[simp] theorem State.diverge_mem (s : State) (st : Strm) : (s.diverge st).mem = s.mem := by
  unfold State.diverge
  simp

@[simp] theorem State.replayStart_mem (s : State) : s.replayStart.mem = s.mem := by
  unfold State.replayStart
  split
  · next e => simp [State.replayTake_mem _ _ _ _ e]
  · simp

@[simp] theorem State.placedIn_mem (s : State) (cx : Bool) : (s.placedIn cx).mem = s.mem := by
  unfold State.placedIn
  split <;> simp

@[simp] theorem State.freshBanks_mem (s : State) : (s.freshBanks).mem = s.mem := rfl

@[simp] theorem State.loadTurn_wf {s : State} {site : Nat} {cx : Bool} {e : HeapEnt} (wf : s.mem.wf = true) :
    (s.loadTurn site cx e).mem.wf = true := by
  unfold State.loadTurn
  dsimp only
  (repeat' split) <;> simp [wf]

@[simp] theorem State.dispatch_wf {s : State} {cl : Nat} (wf : s.mem.wf = true) : (s.dispatch cl).mem.wf = true := by
  unfold State.dispatch
  (repeat' split) <;> simp [wf]

@[simp] theorem State.displace_wf {s : State} {cl : Nat} (wf : s.mem.wf = true) : (s.displace cl).mem.wf = true := by
  unfold State.displace
  split <;> simp [wf]

@[simp] theorem State.activate_mem (s : State) (cx : Bool) (cycles : Nat) : (s.activate cx cycles).mem = s.mem := by
  unfold State.activate
  simp

@[simp] theorem State.askHold_mem (s : State) : (s.askHold).mem = s.mem := rfl

@[simp] theorem State.urgentSwitch_mem (s : State) : (s.urgentSwitch).mem = s.mem := by
  unfold State.urgentSwitch
  simp

@[simp] theorem State.steal_wf {s : State} {site : Nat} {cx : Bool} {cls : List Nat} {cross : Bool} (wf : s.mem.wf = true) :
    (s.steal site cx cls cross).mem.wf = true := by
  unfold State.steal
  dsimp only
  split <;> simp [wf]

@[simp] theorem State.sweepSched_mem (s : State) (top : Word) (cl : Nat) : (s.sweepSched top cl).1.mem = s.mem := by
  unfold State.sweepSched
  dsimp only
  split <;> simp

@[simp] theorem State.sweepEvents_mem (s : State) (top : Word) : (s.sweepEvents top).1.mem = s.mem := rfl

@[simp] theorem State.sweepCore_mem (s : State) (top : Word) (site : Nat) : (s.sweepCore top site).mem = s.mem := by
  unfold State.sweepCore
  simp

@[simp] theorem State.sweep_wf {s : State} {top : Word} (wf : s.mem.wf = true) : (s.sweep top).mem.wf = true := by
  unfold State.sweep
  extract_lets t u
  have ht : t.mem.wf = true := State.foldl_wf (fun _ _ h => State.runAll_wf (by simpa using h)) wf
  have hu : u.mem.wf = true := State.runAll_wf (by simpa using ht)
  simp [hu]

end Sys2Proof.Machine
end

section
/-! SUPPORT. Wait tokens settle: a store, a record and what the levels write keep memory canonical. -/

namespace Sys2Proof.Machine

@[simp] theorem State.guarded_wf {s : State} {g : Fin 8} {f : State → State} (wf : s.mem.wf = true)
    (keeps_f : ∀ t, t.mem.wf = true → (f t).mem.wf = true) :
    (s.guarded g f).mem.wf = true := by
  unfold State.guarded
  split <;> simp [wf, keeps_f]

@[simp] theorem State.cLand_wf {s : State} {lat : Nat} {dst : Dest} {v : BitVec 256} (wf : s.mem.wf = true) : (s.cLand lat dst v).mem.wf = true := by
  unfold State.cLand
  split <;> simp [wf]

@[simp] theorem State.cResult_wf {s : State} {rd : Fin 32} {lat : Nat} {v : Word} (wf : s.mem.wf = true) : (s.cResult rd lat v).mem.wf = true := by
  unfold State.cResult
  split <;> simp [wf]

@[simp] theorem State.takeTok_mem (s : State) (tok : Fin 8) (owned : List (Fin 32)) (lat : Nat) (op : TokOp) :
    (s.takeTok tok owned lat op).mem = s.mem :=
  rfl

@[simp] theorem State.cToken_wf {s : State} {tok : Fin 8} {owned : List (Fin 32)} {lat : Nat} {op : TokOp} (wf : s.mem.wf = true) :
    (s.cToken tok owned lat op).mem.wf = true := by
  unfold State.cToken
  split <;> simp [wf]

@[simp] theorem State.observe_mem (s : State) : (s.observe).mem = s.mem := by
  unfold State.observe
  (repeat' split) <;> simp

@[simp] theorem State.settle_mem (s : State) (k : Fin 8) (ws : List (Fin 32 × Word)) : (s.settle k ws).mem = s.mem := rfl

@[simp] theorem State.settleFault_wf {s : State} {k : Fin 8} {t : TokPend} {c : Cause} {va : Word} (wf : s.mem.wf = true) :
    (s.settleFault k t c va).mem.wf = true := by
  unfold State.settleFault
  dsimp only
  split <;> simp [wf]

@[simp] theorem State.later_mem (s : State) (k : Fin 8) (cycles : Nat) : (s.later k cycles).mem = s.mem := rfl

@[simp] theorem State.doneLater_mem (s : State) (k : Fin 8) (cycles : Nat) (v w : Word) : (s.doneLater k cycles v w).mem = s.mem := rfl

@[simp] theorem State.makeTok_wf {s : State} {k : Fin 8} {t : TokPend} (wf : s.mem.wf = true) : (s.makeTok k t).mem.wf = true := by
  unfold State.makeTok
  (repeat' split) <;> simp [wf]

@[simp] theorem State.settleWritten_mem (s : State) (k : Fin 8) (t : TokPend) : (s.settleWritten k t).mem = s.mem := by
  unfold State.settleWritten
  split <;> simp

@[simp] theorem State.settleLoad_wf {s : State} {k : Fin 8} {t : TokPend} {n : Nat} {signed : Bool} {rd : Fin 32} {a : Word} (wf : s.mem.wf = true) :
    (s.settleLoad k t n signed rd a).mem.wf = true := by
  unfold State.settleLoad
  (repeat' split) <;> simp [wf]

@[simp] theorem State.settleStore_wf {s : State} {k : Fin 8} {t : TokPend} {n : Nat} {a : Word} (wf : s.mem.wf = true) :
    (s.settleStore k t n a).mem.wf = true := by
  unfold State.settleStore
  (repeat' split) <;> simp [wf]

@[simp] theorem State.settleTlrw_wf {s : State} {k : Fin 8} {t : TokPend} {ly a : Word} (wf : s.mem.wf = true) :
    (s.settleTlrw k t ly a).mem.wf = true := by
  unfold State.settleTlrw
  (repeat' split) <;> simp [wf]

@[simp] theorem State.settleRecord_wf {s : State} {k : Fin 8} {t : TokPend} {ly w0 w1 w2 w3 : Word} (wf : s.mem.wf = true) :
    (s.settleRecord k t ly w0 w1 w2 w3).mem.wf = true := by
  unfold State.settleRecord
  split <;> simp [wf]

@[simp] theorem State.xlateTok_mem (s : State) (k : Fin 8) : (s.xlateTok k).mem = s.mem := by
  unfold State.xlateTok
  split
  · rfl
  split
  · rfl
  split <;> next e => simp [mem_of_result e (State.xlate_mem ..)]

theorem State.serveQueue_mem {u : State} (s : State) (k : Fin 8) (t : TokPend) (e : s.serveQueue k t = some u) : u.mem = s.mem := by
  unfold State.serveQueue at e
  split at e
  · (repeat' split at e) <;> cases e <;> simp
  · (repeat' split at e) <;> cases e
    simp
  · cases e

@[simp] theorem State.settleQueue_wf {s : State} {k : Fin 8} {t : TokPend} {ws : Word → List (Fin 32 × Word)} (wf : s.mem.wf = true) :
    (s.settleQueue k t ws).mem.wf = true := by
  unfold State.settleQueue
  split
  · simpa using wf
  · split
    · exact State.settleFault_wf wf
    · cases e : s.serveQueue k t with
      | none => simpa using wf
      | some u => simpa [State.serveQueue_mem _ _ _ e] using wf

@[simp] theorem State.settleCreated_mem (s : State) (k : Fin 8) (t : TokPend) (p : Turn → Bool) : (s.settleCreated k t p).mem = s.mem := by
  unfold State.settleCreated
  split <;> simp

@[simp] theorem State.spawnNow_wf {s : State} {k : Fin 8} {t : TokPend} {rec : Word} (wf : s.mem.wf = true) : (s.spawnNow k t rec).mem.wf = true := by
  unfold State.spawnNow
  split
  · simp [wf]
  · extract_lets launch act u
    have hu : u.mem.wf = true := by simp [u, wf]
    split
    · simp [hu]
    · split
      · simp [hu]
      · next e =>
        have h := State.createUnder_wf e hu
        split <;> simp [h]
      · next e =>
        have h := State.createUnder_wf e hu
        split
        · simp [h]
        · next e =>
          have h := State.writeVaFor_wf e h
          extract_lets v w
          have hw : w.mem.wf = true := by unfold w; split <;> simp [v, h]
          simp [hw]

@[simp] theorem State.launchNow_wf {s : State} {k : Fin 8} {t : TokPend} {rec : Word} (wf : s.mem.wf = true) :
    (s.launchNow k t rec).mem.wf = true := by
  unfold State.launchNow
  split
  · simp [wf]
  · extract_lets launch act u
    have hu : u.mem.wf = true := by simp [u, wf]
    split
    · simp [hu]
    · split
      · simp [hu]
      · next e =>
        have h := State.createUnder_wf e hu
        simp [h]
      · next e =>
        have h := State.createUnder_wf e hu
        simp [h]

@[simp] theorem State.joinNow_wf {s : State} {k : Fin 8} {t : TokPend} {a : Word} (wf : s.mem.wf = true) : (s.joinNow k t a).mem.wf = true := by
  unfold State.joinNow
  (repeat' split) <;> simp [wf]

@[simp] theorem State.budgetNow_mem (s : State) (k : Fin 8) (rd : Fin 32) (n : BitVec 32) : (s.budgetNow k rd n).mem = s.mem := rfl

@[simp] theorem State.cancelNow_wf {s : State} {a : Word} {n : Nat} (wf : s.mem.wf = true) : (s.cancelNow a n).mem.wf = true := by
  unfold State.cancelNow
  (repeat' split) <;> simp [wf]

@[simp] theorem State.reportAgg_mem (s : State) (k : Fin 8) (rd : Fin 32) (clear : Bool) : (s.reportAgg k rd clear).mem = s.mem := by
  unfold State.reportAgg
  split <;> simp

@[simp] theorem State.settlePcancel_mem (s : State) (k : Fin 8) (h : BitVec 16) (anon : Bool) (rd : Fin 32) :
    (s.settlePcancel k h anon rd).mem = s.mem := by
  unfold State.settlePcancel
  dsimp only
  (repeat' split) <;> simp

@[simp] theorem State.settlePwait_mem (s : State) (k : Fin 8) (h : BitVec 16) (anon : Bool) (rd : Fin 32) :
    (s.settlePwait k h anon rd).mem = s.mem := by
  unfold State.settlePwait
  dsimp only
  (repeat' split) <;> simp

@[simp] theorem State.settlePtest_mem (s : State) (k : Fin 8) (h : BitVec 16) (anon : Bool) (rd : Fin 32) :
    (s.settlePtest k h anon rd).mem = s.mem := by
  unfold State.settlePtest
  dsimp only
  (repeat' split) <;> simp

@[simp] theorem State.settleAnswer_wf {s : State} {k : Fin 8} {t : TokPend} {ws : Word → Word → List (Fin 32 × Word)} (wf : s.mem.wf = true) :
    (s.settleAnswer k t ws).mem.wf = true := by
  unfold State.settleAnswer
  split <;> simp [wf]

@[simp] theorem State.settleTok_wf {s : State} {k : Fin 8} (wf : s.mem.wf = true) : (s.settleTok k).mem.wf = true := by
  unfold State.settleTok
  split
  · exact wf
  split
  · exact wf
  split
  · split <;> simp [wf]
  split
  · simp [wf]
  split
  case h_5 =>
    split
    · simp [wf]
    · extract_lets u v
      have hv : v.mem.wf = true := by unfold v u; (repeat' split) <;> simp [wf]
      split <;> simp [hv]
  case h_14 => exact State.flushLog_wf (State.settleAnswer_wf (by split <;> simp [wf]))
  case h_22 =>
    rw [State.settle_mem]
    exact State.foldl_wf (fun _ _ h => by simpa using h) wf
  case h_21 => simp [State.foldl_wf (fun _ _ h => State.detachPawn_wf h) wf]
  all_goals simp [wf]

end Sys2Proof.Machine
end

section
/-! SUPPORT. Words under a guard: what such a word does decides. -/

namespace Sys2Proof.Machine

@[simp] theorem State.alu_wf {s : State} {o : Op.Alu} {lat : Nat} {f64 : Word → Word → Word} {f32 : Half → Half → Half} (wf : s.mem.wf = true) :
    (s.alu o lat f64 f32).mem.wf = true := by
  unfold State.alu
  (repeat' split) <;> simp_all

@[simp] theorem State.divide_wf {s : State} {o : Op.Alu} {f64 : Word → Word → Word} {f32 : Half → Half → Half} (wf : s.mem.wf = true) :
    (s.divide o f64 f32).mem.wf = true := by
  refine State.guarded_wf wf fun t h => ?_
  (repeat' split) <;> simp [h]

@[simp] theorem State.aluUn_wf {s : State} {o : Op.AluUn} {f : Nat → Nat → Nat} (wf : s.mem.wf = true) : (s.aluUn o f).mem.wf = true := by
  unfold State.aluUn
  (repeat' split) <;> simp_all

@[simp] theorem State.immWord_wf {s : State} {o : Op.Imm} {f : Word → Word → Word} (wf : s.mem.wf = true) : (s.immWord o f).mem.wf = true := by
  unfold State.immWord
  (repeat' split) <;> simp_all

@[simp] theorem State.shiftWord_wf {s : State} {o : Op.ShiftImm} {f : Word → Nat → Word} (wf : s.mem.wf = true) :
    (s.shiftWord o f).mem.wf = true := by
  unfold State.shiftWord
  (repeat' split) <;> simp_all

end Sys2Proof.Machine
end

section
/-! SUPPORT. Words that make or await pawns leave memory as it is. -/

namespace Sys2Proof.Machine

@[simp] theorem State.pawnPair_wf {s : State} {o : Op.PawnRes} {lat : Nat} {op : BitVec 16 → Bool → TokOp} (wf : s.mem.wf = true) :
    (s.pawnPair o lat op).mem.wf = true := by
  unfold State.pawnPair
  split <;> simp [wf]

@[simp] theorem State.cancelTargets_mem (s : State) (h : BitVec 16) (anon : Bool) : (s.cancelTargets h anon).mem = s.mem :=
  State.foldl_mem _ (fun _ _ => State.cancelPawn_mem ..) _

theorem execPcancel_wf {o : Op.PawnRes} {s : State} (wf : s.mem.wf = true) : Canonical (execPcancel o s) :=
  canonical_next (State.guarded_wf wf fun _ h => by dsimp only; (repeat' split) <;> simp [h])

@[simp] theorem State.overlapC_wf {s : State} {r : RangeOp} {va : Word} (wf : s.mem.wf = true) : (s.overlapC r va).mem.wf = true := by
  unfold State.overlapC
  simp [wf]

@[simp] theorem State.collWord_wf {s : State} {g : Fin 8} {detach : Bool} {h : Fin 16} {ra : Fin 32} {buf : Word} {fn : Nat} (wf : s.mem.wf = true) :
    (s.collWord g detach h ra buf fn).mem.wf = true := by
  refine State.guarded_wf wf fun t h => ?_
  dsimp only
  (repeat' split) <;> simp [h]

@[simp] theorem State.rackWord_wf {s : State} {tok : Fin 8} {owned : List (Fin 32)} {rd : Fin 32} {fn : Nat} {v : Word} (wf : s.mem.wf = true) :
    (s.rackWord tok owned rd fn v).mem.wf = true := by
  unfold State.rackWord
  split <;> simp [wf]

theorem execRkopenw_wf {o : Op.TokRes} {s : State} (wf : s.mem.wf = true) : Canonical (execRkopenw o s) := by
  refine canonical_next (State.guarded_wf wf fun t h => ?_)
  split
  · split
    · simp [h]
    · split
      · simp [h]
      · next e => simp [State.replayTake_mem _ _ _ _ e, h]
  · simp [h]

@[simp] theorem State.replayRack_wf {s : State} {tok : Fin 8} {fn : Nat} {v : Word} (wf : s.mem.wf = true) :
    (s.replayRack tok fn v).mem.wf = true := by
  unfold State.replayRack
  simp [wf]

theorem execRkcommit_wf {o : Op.TokSrc} {s : State} (wf : s.mem.wf = true) : Canonical (execRkcommit o s) :=
  canonical_next (State.guarded_wf wf fun _ h => by (repeat' split) <;> simp [h])

theorem execRkopenr_wf {o : Op.TokRes} {s : State} (wf : s.mem.wf = true) : Canonical (execRkopenr o s) := by
  refine canonical_next (State.guarded_wf wf fun t h => ?_)
  split
  · simp [h]
  split
  · split
    · simp [h]
    · split
      · simp [h]
      · next e =>
        have m := State.replayTake_mem _ _ _ _ e
        split
        · simp [h]
        · next e => simp [State.replayTake_mem _ _ _ _ e, m, h]
  · simp [h]

theorem execRkclose_wf {o : Op.TokSrc} {s : State} (wf : s.mem.wf = true) : Canonical (execRkclose o s) :=
  canonical_next (State.guarded_wf wf fun _ h => by dsimp only; (repeat' split) <;> simp [h])

end Sys2Proof.Machine
end

section
/-! SUPPORT. The mesh and the accesses it carries. -/

namespace Sys2Proof.Machine

theorem execPacketInject_wf {p : PktSpec} {s : State} (wf : s.mem.wf = true) : Canonical (execPacketInject p s) := by
  unfold execPacketInject
  split <;> simp [wf]

theorem execLatchedHop_wf {flit : Nat} {s : State} (wf : s.mem.wf = true) : Canonical (execLatchedHop flit s) := by
  unfold execLatchedHop
  (repeat' split) <;> simp_all

theorem execMeshLinkReroute_wf {x y : Nat} {dir : Fin 4} {s : State} (wf : s.mem.wf = true) : Canonical (execMeshLinkReroute x y dir s) := by
  unfold execMeshLinkReroute
  split <;> simp [wf]

@[simp] theorem State.nameLost_mem (s : State) (packet : Nat) : (s.nameLost packet).mem = s.mem := by
  unfold State.nameLost
  split <;> simp

theorem execBridgeRetryExhausted_wf {x y : Nat} {dir : Fin 4} {s : State} (wf : s.mem.wf = true) :
    Canonical (execBridgeRetryExhausted x y dir s) := by
  unfold execBridgeRetryExhausted
  split <;> simp [wf]

end Sys2Proof.Machine
end

section
/-! SUPPORT. Shootdowns and page-table registers. -/

namespace Sys2Proof.Machine

@[simp] theorem State.startShoot_mem (s : State) (kind vpage : Nat) (newMap : Option (List (BitVec 128))) :
    (s.startShoot kind vpage newMap).mem = s.mem := by
  unfold State.startShoot
  split <;> simp

@[simp] theorem State.writeInvctl_mem (s : State) (v : Word) : (s.writeInvctl v).mem = s.mem := by
  unfold State.writeInvctl
  simp

@[simp] theorem State.writePtroot_mem (s : State) (v : Word) : (s.writePtroot v).mem = s.mem := by
  unfold State.writePtroot
  rw [State.startShoot_mem, State.onPart_mem]

@[simp] theorem State.changeMap_mem (s : State) (m : List (BitVec 128)) : (s.changeMap m).mem = s.mem := by
  unfold State.changeMap
  dsimp only
  split <;> simp

@[simp] theorem State.endShoot_mem (s : State) (k : Shoot) : (s.endShoot k).mem = s.mem := by
  unfold State.endShoot
  dsimp only
  split <;> simp

@[simp] theorem State.ackShoot_mem (s : State) (site : Nat) : (s.ackShoot site).mem = s.mem := by
  unfold State.ackShoot
  dsimp only
  (repeat' split) <;> simp

theorem execInvctlWrite_wf {part : Nat} {v : BitVec 64} {s : State} (wf : s.mem.wf = true) : Canonical (execInvctlWrite part v s) := by
  unfold execInvctlWrite
  dsimp only
  split <;> simp [wf]

theorem execPtrootWrite_wf {part : Nat} {v : BitVec 64} {s : State} (wf : s.mem.wf = true) : Canonical (execPtrootWrite part v s) := by
  unfold execPtrootWrite
  dsimp only
  split <;> simp [wf]

theorem execPartitionMapChange_wf {part : Nat} {map : List (BitVec 128)} {s : State} (wf : s.mem.wf = true) :
    Canonical (execPartitionMapChange part map s) := by
  unfold execPartitionMapChange
  dsimp only
  split <;> simp [wf]

end Sys2Proof.Machine
end

section
/-! SUPPORT. The T window makes and commits its words. -/

namespace Sys2Proof.Machine

@[simp] theorem State.faultT_mem (s : State) (c : Cause) (va : Nat) : (s.faultT c va).mem = s.mem := rfl

@[simp] theorem State.queueT_mem (s : State) (q : Fin 16) (f : QFail) : (s.queueT q f).mem = s.mem := by
  unfold State.queueT
  split <;> simp

@[simp] theorem State.tWord_wf {s : State} {sync : Fin 8} {alone : Bool} {f : State → State} (wf : s.mem.wf = true)
    (keeps_f : ∀ t, t.mem.wf = true → (f t).mem.wf = true) :
    (s.tWord sync alone f).mem.wf = true := by
  unfold State.tWord
  (repeat' split) <;> simp [wf, keeps_f]

@[simp] theorem State.enterT_mem (s : State) (op : TOp) (lat : Nat) (sync : Fin 8) (pops : List (Fin 16 × QEnt)) (set : Option (Fin 16 × Word)) :
    (s.enterT op lat sync pops set).mem = s.mem := by
  unfold State.enterT
  split <;> simp

@[simp] theorem State.issueT_wf {s : State} {op : TOp} {lat : Nat} {sync : Fin 8} {pops : List (Fin 16 × QEnt)} {set : Option (Fin 16 × Word)}
    (wf : s.mem.wf = true) :
    (s.issueT op lat sync pops set).mem.wf = true := by
  unfold State.issueT
  simp [wf]

@[simp] theorem State.linesT_mem (s : State) (k : Acc) (as : List Nat) : (s.linesT k as).2.mem = s.mem := by
  unfold State.linesT
  have m := s.xlateMore_mem .t ((linePieces (linesOf as)).map (fun l => (k, l.1, l.2))) s.ctx.ttr
  dsimp only
  split <;> simp_all

@[simp] theorem State.failT_mem (s : State) (e : Option (Cause × Nat)) : (s.failT e).mem = s.mem := by
  unfold State.failT
  split <;> simp

@[simp] theorem State.rangedT_wf {s : State} {va : Word} {pawn : Bool} {rs : List (Nat × Nat × Bool)} {f : State → State} (wf : s.mem.wf = true)
    (keeps_f : ∀ t, t.mem.wf = true → (f t).mem.wf = true) :
    (s.rangedT va pawn rs f).mem.wf = true := by
  unfold State.rangedT
  split <;> simp [wf, keeps_f]

@[simp] theorem State.clearBad_mem (s : State) (lines : List (Nat × Place)) (bs : List (Nat × Nat)) : (s.clearBad lines bs).mem = s.mem := by
  unfold State.clearBad
  split <;> simp

@[simp] theorem State.storeBytes_wf {s : State} {via : Via} {lines : List (Nat × Place)} {bs : List (Nat × Nat)} (wf : s.mem.wf = true) :
    (s.storeBytes via lines bs).mem.wf = true := by
  unfold State.storeBytes
  rw [State.clearBad_mem]
  refine State.foldl_wf (fun t b h => ?_) wf
  split
  · exact State.writePlace_wf h
  · exact h

@[simp] theorem State.saccWindow_wf {s : State} {serial fn : Nat} {lines : List (Nat × Place)} {es : List (Nat × Nat)} (wf : s.mem.wf = true) :
    (s.saccWindow serial fn lines es).mem.wf = true := by
  refine State.foldl_wf (fun t a h => ?_) wf
  split
  · exact h
  · exact State.writePlace_wf (by simpa using h)

@[simp] theorem State.lateFault_mem (s : State) (e : TEntry) (c : Cause) (va : Nat) : (s.lateFault e c va).mem = s.mem := by
  unfold State.lateFault
  simp

theorem State.commitLdq_mem {t : State} (s : State) (ent : TEntry) (q : Fin 16) (base : Word) (ly : LyRec) (lines : List (Nat × Place))
    (e : s.commitLdq ent q base ly lines = .ok t) :
    t.mem = s.mem := by
  unfold State.commitLdq at e
  split at e
  · cases e
  · cases e
    simp

@[simp] theorem State.madeT_mem (s : State) (serial old : Nat) : (s.madeT serial old).mem = s.mem := rfl

theorem State.makeT_wf {s : State} {ent : TEntry} {t : State} (e : s.makeT ent = .ok t) (wf : s.mem.wf = true) : t.mem.wf = true := by
  unfold State.makeT at e
  split at e
  · cases e
    exact wf
  · split at e
    · dsimp only at e
      split at e <;> cases e
      simp [wf]
    · dsimp only at e
      split at e <;> cases e
      simp [wf]
    · extract_lets n at e
      clear_value n
      split at e
      · cases e
        exact wf
      · split at e <;> cases e
        split <;> simp [wf]
    · cases e
      exact wf

theorem State.performT_wf {s : State} {ent : TEntry} {t : State} (e : s.performT ent = .ok t) (wf : s.mem.wf = true) : t.mem.wf = true := by
  unfold State.performT at e
  split at e
  · cases e
  · split at e
    case h_1 => rwa [State.commitLdq_mem _ _ _ _ _ _ e]
    case h_4 =>
      cases e
      rw [State.onCtx_mem]
      exact State.replayLog_wf wf
    all_goals
      cases e
      simpa using wf

@[simp] theorem State.leaveT_mem (s : State) (e : TEntry) : (s.leaveT e).mem = s.mem := by
  unfold State.leaveT
  extract_lets t now u
  have m : u.mem = s.mem := by simp [u, t]
  split
  · split <;> simp [m]
  · exact m

@[simp] theorem State.meetT_mem (s : State) (e : TEntry) (va : Nat) : (s.meetT e va).mem = s.mem := by
  unfold State.meetT
  split
  · rfl
  · split <;> exact State.meetBad_mem ..

/-- The T word at the head of the window may be made: one with a fault is made as it stands. -/
theorem State.made_wf {s t : State} {e : TEntry} (made : (if e.fault.isSome then .ok s else s.makeT e) = .ok t) (wf : s.mem.wf = true) :
    t.mem.wf = true := by
  split at made
  · cases made
    exact wf
  · exact State.makeT_wf made wf

@[simp] theorem State.commitT_wf {s : State} (wf : s.mem.wf = true) : (s.commitT).mem.wf = true := by
  unfold State.commitT
  split
  · exact wf
  split
  · exact wf
  split
  · simp [wf]
  · next e =>
    have h : _ = true := State.made_wf e wf
    split
    · exact h
    split
    · exact h
    split
    · split <;> simp [h]
    · next e =>
      have h := State.performT_wf e h
      split <;> simp [h]

theorem execLateFault_wf {site : Nat} {cx : Bool} {s : State} (wf : s.mem.wf = true) : Canonical (execLateFault site cx s) := by
  unfold execLateFault
  dsimp only
  (repeat' split) <;> simp [wf]

end Sys2Proof.Machine
end

section
/-! SUPPORT. Fetch, the slots of a cycle and the next cycle. -/

namespace Sys2Proof.Machine

@[simp] theorem State.fetch_mem (s : State) (st : Strm) : (s.fetch st).2.mem = s.mem := by
  unfold State.fetch
  extract_lets
  split
  · rfl
  split
  · next e => exact mem_of_result e (State.xlate_mem ..)
  · next e => exact mem_of_result e (State.xlate_mem ..)
  · next e =>
    have m := mem_of_result e (State.xlate_mem ..)
    dsimp only
    (repeat' split) <;> simp [m]

@[simp] theorem State.hold_mem (s : State) (st : Strm) : (s.hold st).mem = s.mem := rfl

@[simp] theorem State.badWord_wf {s : State} {st : Strm} {c : Cause} {va : Word} (wf : s.mem.wf = true) : (s.badWord st c va).mem.wf = true := by
  unfold State.badWord
  split <;> simp [wf]

@[simp] theorem State.takeSlot_mem (s : State) (sl : Slot) : (s.takeSlot sl).mem = s.mem := by
  unfold State.takeSlot
  simp

@[simp] theorem State.sampleCtx_mem (s : State) : (s.sampleCtx).mem = s.mem := State.foldl_mem _ (fun t st => by split <;> simp) _

@[simp] theorem State.sample_mem (s : State) (site : Nat) : (s.sample site).mem = s.mem := by
  unfold State.sample
  dsimp only
  (repeat' split) <;> simp

@[simp] theorem State.tick_mem (s : State) : (s.tick).mem = s.mem := by
  unfold State.tick
  dsimp only
  split <;> simp

end Sys2Proof.Machine
end

section
/-! SUPPORT. Results land, and traps are entered. -/

namespace Sys2Proof.Machine

@[simp] theorem State.writeCtl_mem (s : State) (reg : Nat) (v : Word) : (s.writeCtl reg v).mem = s.mem := by
  unfold State.writeCtl
  split <;> simp

@[simp] theorem State.landOne_mem (s : State) : (s.landOne).mem = s.mem := by
  unfold State.landOne
  (repeat' split) <;> simp

@[simp] theorem State.zeroOne_mem (s : State) : (s.zeroOne).mem = s.mem := by
  unfold State.zeroOne
  (repeat' split) <;> simp

theorem execResultLand_wf {site : Nat} {cx : Bool} {s : State} (wf : s.mem.wf = true) : Canonical (execResultLand site cx s) := by
  unfold execResultLand
  dsimp only
  split <;> simp [wf]

end Sys2Proof.Machine
end

section
/-! SUPPORT. Load and store words. -/

namespace Sys2Proof.Machine

@[simp] theorem State.cAccess_wf {s : State} {tok : Fin 8} {owned : List (Fin 32)} {k : Acc} {a : Word} {n : Nat} {op : TokOp} (wf : s.mem.wf = true)
    :
    (s.cAccess tok owned k a n op).mem.wf = true := by
  unfold State.cAccess
  (repeat' split) <;> simp [wf]

@[simp] theorem State.loadWord_wf {s : State} {o : Op.Mem} {n : Nat} {signed : Bool} (wf : s.mem.wf = true) :
    (s.loadWord o n signed).mem.wf = true := by
  unfold State.loadWord
  (repeat' split) <;> simp_all

@[simp] theorem State.storeWord_wf {s : State} {o : Op.Mem} {n : Nat} (wf : s.mem.wf = true) : (s.storeWord o n).mem.wf = true := by
  unfold State.storeWord
  (repeat' split) <;> simp_all

theorem execWait_wf {o : Op.Wait} {s : State} (wf : s.mem.wf = true) : Canonical (execWait o s) :=
  canonical_next (State.guarded_wf wf fun _ h => by split <;> simp [h])

end Sys2Proof.Machine
end

section
/-! SUPPORT. Control registers and system words. -/

namespace Sys2Proof.Machine

@[simp] theorem State.fenceWord_wf {s : State} {st : Strm} {before after : BitVec 6} {scope : Nat} {sync : Fin 8} {done : State → State}
    (wf : s.mem.wf = true) (keeps_done : ∀ t, t.mem.wf = true → (done t).mem.wf = true) :
    (s.fenceWord st before after scope sync done).mem.wf = true := by
  unfold State.fenceWord
  (repeat' split) <;> simp [wf, keeps_done]

theorem execFence_wf {o : Op.CFence} {s : State} (wf : s.mem.wf = true) : Canonical (execFence o s) :=
  canonical_next (State.guarded_wf wf fun _ h => State.fenceWord_wf h fun _ h => by simp [h])

theorem execCrr_wf {o : Op.Crr} {s : State} (wf : s.mem.wf = true) : Canonical (execCrr o s) :=
  canonical_next (State.guarded_wf wf fun _ h => by split <;> simp [h])

theorem execCrw_wf {o : Op.Crw} {s : State} (wf : s.mem.wf = true) : Canonical (execCrw o s) :=
  canonical_next (State.guarded_wf wf fun _ h => by dsimp only; (repeat' split) <;> simp [h])

@[simp] theorem State.trapAfter_wf {s : State} {cause : Cause} {code : BitVec 15} (wf : s.mem.wf = true) :
    (s.trapAfter cause code).mem.wf = true := by
  unfold State.trapAfter
  simp [wf]

theorem execBkpt_wf {o : Op.Code} {s : State} (wf : s.mem.wf = true) : Canonical (execBkpt o s) :=
  canonical_next (State.guarded_wf wf fun _ h => by split <;> simp [h])

theorem execEret_wf {o : Op.Bare} {s : State} (wf : s.mem.wf = true) : Canonical (execEret o s) :=
  canonical_next (State.guarded_wf wf fun _ h => by (repeat' split) <;> simp [h])

theorem execTime_wf {o : Op.ResTok} {s : State} (wf : s.mem.wf = true) : Canonical (execTime o s) := by
  refine canonical_next (State.guarded_wf wf fun t h => ?_)
  split
  · simp [h]
  · split
    · split
      · simp [h]
      · next e => simp [State.replayTake_mem _ _ _ _ e, h]
    · simp [h]

end Sys2Proof.Machine
end

section
/-! SUPPORT. The streams of the engines start, stop and fence. -/

namespace Sys2Proof.Machine

@[simp] theorem State.enterLoop_wf {s : State} {st : Strm} {id : Fin 4} {stages len count : Nat} (wf : s.mem.wf = true) :
    (s.enterLoop st id stages len count).mem.wf = true := by
  unfold State.enterLoop
  split <;> simp [wf]

@[simp] theorem State.trapPawn_mem (s : State) (st : Strm) (frec faddr : Word) (slot : Nat) : (s.trapPawn st frec faddr slot).mem = s.mem :=
  rfl

@[simp] theorem State.waithOne_wf {s : State} {st : Strm} {h : BitVec 16} {done : State → State} (wf : s.mem.wf = true)
    (keeps_done : ∀ t, t.mem.wf = true → (done t).mem.wf = true) :
    (s.waithOne st h done).mem.wf = true := by
  unfold State.waithOne
  dsimp only
  (repeat' split) <;> simp [wf, keeps_done]

@[simp] theorem State.waithAll_wf {s : State} {st : Strm} {done : State → State} (wf : s.mem.wf = true)
    (keeps_done : ∀ t, t.mem.wf = true → (done t).mem.wf = true) :
    (s.waithAll st done).mem.wf = true := by
  unfold State.waithAll
  dsimp only
  (repeat' split) <;> simp [wf, keeps_done]

@[simp] theorem State.waithWord_wf {s : State} {st : Strm} {h : Fin 16} {done : State → State} (wf : s.mem.wf = true)
    (keeps_done : ∀ t, t.mem.wf = true → (done t).mem.wf = true) :
    (s.waithWord st h done).mem.wf = true := by
  unfold State.waithWord
  (repeat' split) <;> simp_all

@[simp] theorem State.issuePost_wf {s : State} {st : Strm} {sync : Fin 8} (wf : s.mem.wf = true) : (s.issuePost st sync).mem.wf = true := by
  unfold State.issuePost
  split <;> simp [wf]

@[simp] theorem State.awaited_wf {s : State} {st : Strm} {sync : Fin 8} {f : State → State} (wf : s.mem.wf = true)
    (keeps_f : ∀ t, t.mem.wf = true → (f t).mem.wf = true) :
    (s.awaited st sync f).mem.wf = true := by
  unfold State.awaited
  split <;> simp [wf, keeps_f]

@[simp] theorem State.fenceDone_wf {st : Strm} {sync : Fin 8} {s : State} (wf : s.mem.wf = true) : (State.fenceDone st sync s).mem.wf = true := by
  unfold State.fenceDone
  split <;> simp [wf]

theorem execFenceRetire_wf {site : Nat} {cx : Bool} {st : Strm} {s : State} (wf : s.mem.wf = true) : Canonical (execFenceRetire site cx st s) := by
  unfold execFenceRetire
  dsimp only
  (repeat' split) <;> simp [wf]

end Sys2Proof.Machine
end

section
/-! SUPPORT. Transfer words. -/

namespace Sys2Proof.Machine

@[simp] theorem State.walkT_wf {s : State} {k : Acc} {b : Word} {ly : LyRec} {strict : Bool} {f : Walking → List (Nat × Place) → State → State}
    (wf : s.mem.wf = true) (keeps_f : ∀ a0 a1 t, t.mem.wf = true → (f a0 a1 t).mem.wf = true) :
    (s.walkT k b ly strict f).mem.wf = true := by
  unfold State.walkT
  extract_lets n
  split
  · exact keeps_f _ _ _ wf
  split
  · next e => simp [mem_of_result e (State.linesT_mem ..), wf]
  · next e =>
    have m := mem_of_result e (State.linesT_mem ..)
    extract_lets
    split
    · simp [m, wf]
    split
    · next e => simp [mem_of_result e (State.linesT_mem ..), m, wf]
    · next e =>
      have l := mem_of_result e (State.linesT_mem ..)
      split
      · simp [l, m, wf]
      · exact keeps_f _ _ _ (by rwa [l, m])

theorem execLdq_wf {o : Op.Tq} {s : State} (wf : s.mem.wf = true) : Canonical (execLdq o s) := by
  refine canonical_next (State.tWord_wf wf fun t h => ?_)
  split
  · simp [h]
  extract_lets
  split
  · simp [h]
  split
  · simp [h]
  split
  · simp [h]
  · exact State.walkT_wf h fun _ _ _ h => State.rangedT_wf h fun _ h => by simp [h]

theorem execStq_wf {o : Op.Tq} {s : State} (wf : s.mem.wf = true) : Canonical (execStq o s) := by
  refine canonical_next (State.tWord_wf wf fun t h => ?_)
  split
  · simp [h]
  extract_lets
  split
  · simp [h]
  split
  · simp [h]
  split
  · simp [h]
  · exact State.walkT_wf h fun _ _ _ h => State.rangedT_wf h fun _ h => by simp [h]

@[simp] theorem State.wakeBanks_mem (s : State) (keys : List Nat) : (s.wakeBanks keys).mem = s.mem := rfl

@[simp] theorem State.prefLines_mem (s : State) (bad : List (Nat × Place) → Nat → Bool) (vas : List Nat) (tr : List Trans) :
    (s.prefLines bad vas tr).2.mem = s.mem := by
  induction vas generalizing s tr with
  | nil => rfl
  | cons va r ih =>
    unfold State.prefLines
    have m := State.xlate_mem s .t .read va 64
    split
    · exact ih ..
    · split <;> simp_all
      split <;> simp_all

@[simp] theorem State.prefLine_mem (s : State) (p : Place) : (s.prefLine p).mem = s.mem := by
  unfold State.prefLine
  split <;> simp

theorem execPref_wf {o : Op.Pref} {s : State} (wf : s.mem.wf = true) : Canonical (execPref o s) := by
  refine canonical_next (State.tWord_wf wf fun t h => ?_)
  split
  · simp [h]
  extract_lets ly b go
  have hgo : ∀ {u : State}, u.mem = t.mem → (go u).mem.wf = true := fun e => by simp [go, e, h]
  split
  · simp [h]
  split
  · simp [h]
  split
  · exact hgo rfl
  split
  · next e => simp [mem_of_result e (State.linesT_mem ..), h]
  · next e => exact hgo (mem_of_result e (State.linesT_mem ..))
  · next e =>
    have m := mem_of_result e (State.linesT_mem ..)
    extract_lets
    split
    · exact hgo m
    · split
      · next e => simp [mem_of_result e (State.prefLines_mem ..), m, h]
      · next e => exact hgo (by simp [mem_of_result e (State.prefLines_mem ..), m])

@[simp] theorem State.makePawnT_mem (s : State) (va : Word) (rs : List (Nat × Nat × Bool)) (n : NewPawn) (wf : s.mem.wf = true) :
    (s.makePawnT va rs n).mem.wf = true := by
  unfold State.makePawnT
  split
  · simp [wf]
  · exact State.rangedT_wf wf fun t h => by simp [h]

@[simp] theorem State.takePops_mem (s : State) (c : Context) : (s.takePops c).mem = s.mem := rfl

theorem execCopy_wf {o : Op.Tc} {s : State} (wf : s.mem.wf = true) : Canonical (execCopy o s) := by
  refine canonical_next (State.tWord_wf wf fun t h => ?_)
  extract_lets
  split
  · simp [h]
  split
  · simp [h]
  split
  · simp [h]
  split
  · simp [h]
  split
  · next e => simp [mem_of_result e (State.linesT_mem ..), h]
  · next e =>
    have m := mem_of_result e (State.linesT_mem ..)
    split
    · next e => simp [mem_of_result e (State.linesT_mem ..), m, h]
    · next e =>
      have n := mem_of_result e (State.linesT_mem ..)
      dsimp only
      (repeat' split) <;> simp [m, n, h]

@[simp] theorem State.indexedCopy_wf {s : State} {o : Op.Tc} {gather : Bool} (wf : s.mem.wf = true) : (s.indexedCopy o gather).mem.wf = true := by
  refine State.tWord_wf wf fun t h => ?_
  extract_lets
  split
  · simp [h]
  split
  · simp [h]
  split
  · simp [h]
  extract_lets
  split
  · simp [h]
  split
  · next e =>
    simp [mem_of_result e (State.linesT_mem ..), h]
  · next e =>
    have m := mem_of_result e (State.linesT_mem ..)
    extract_lets
    split
    · simp [m, h]
    split
    · simp [m, h]
    · exact State.rangedT_wf (by simp [m, h]) fun u hu => by simp [hu]

theorem State.reserveSlot_mem {t : State} {a : Fin 8} (s : State) (bufs : Nat) (e : s.reserveSlot bufs = some (a, t)) : t.mem = s.mem := by
  unfold State.reserveSlot at e
  extract_lets u at e
  have m : u.mem = s.mem := by
    unfold u
    (repeat' split) <;> simp
  clear_value u
  split at e
  · cases e
    exact m
  · split at e
    · cases e
    · split at e <;> cases e
      rw [State.onCtx_mem, m]

@[simp] theorem State.remoteWord_wf {s : State} {o : Op.Tr} {load : Bool} (wf : s.mem.wf = true) : (s.remoteWord o load).mem.wf = true := by
  unfold State.remoteWord
  split
  · simp [wf]
  dsimp only
  iterate 5 (split; simp [wf])
  split
  · next e => simp [mem_of_result e (State.xlateMore_mem ..), wf]
  · next e =>
    have m := mem_of_result e (State.xlateMore_mem ..)
    split
    · simp [m, wf]
    · next e =>
      have n := State.reserveSlot_mem _ _ e
      split
      · simp [m, n, wf]
      · exact State.rangedT_wf (by simp [m, n, wf]) fun u hu => by simp [hu]

@[simp] theorem State.queueFirst_mem (s : State) (q : Fin 16) (e : QFail) (q2 : Fin 16) (f : Option QFail) : (s.queueFirst q e q2 f).mem = s.mem := by
  unfold State.queueFirst
  split <;> simp

@[simp] theorem State.saccWord_wf {s : State} {o : Op.Sacc} {fn : Nat} (wf : s.mem.wf = true) : (s.saccWord o fn).mem.wf = true := by
  refine State.tWord_wf wf fun t h => ?_
  dsimp only
  split
  · simp [h]
  split
  · simp [h]
  split
  · simp [h]
  split
  · simp [h]
  split
  · next e => simp [mem_of_result e (State.linesT_mem ..), h]
  · next e =>
    have m := mem_of_result e (State.linesT_mem ..)
    split
    · simp [m, h]
    · exact State.rangedT_wf (by simp [m, h]) fun u hu => by simp [hu]

theorem execScas_wf {o : Op.Scas} {s : State} (wf : s.mem.wf = true) : Canonical (execScas o s) := by
  refine canonical_next (State.tWord_wf wf fun t h => ?_)
  extract_lets
  split
  · simp [h]
  split
  · simp [h]
  split
  · simp [h]
  split
  · simp [h]
  extract_lets
  split
  · next e => simp [mem_of_result e (State.linesT_mem ..), h]
  · next e =>
    have m := mem_of_result e (State.linesT_mem ..)
    split
    · split
      · simp [m, h]
      · next e => simp [State.replayTake_mem _ _ _ _ e, m, h]
    · exact State.rangedT_wf (by simp [m, h]) fun _ h => by simp [h]

theorem execAddar_wf {o : Op.Addar} {s : State} (wf : s.mem.wf = true) : Canonical (execAddar o s) :=
  canonical_next (State.tWord_wf wf fun _ h => by split <;> simp [h])

theorem execSend_wf {o : Op.Chan} {s : State} (wf : s.mem.wf = true) : Canonical (execSend o s) := by
  refine canonical_next (State.tWord_wf wf fun t h => ?_)
  extract_lets
  split
  · simp [h]
  split
  · simp [h]
  split
  · simp [h]
  split
  · simp [h]
  split
  · simp [h]
  split
  · simp [h]
  · exact State.rangedT_wf h fun _ h => by simp [h]

theorem execRecv_wf {o : Op.Chan} {s : State} (wf : s.mem.wf = true) : Canonical (execRecv o s) :=
  canonical_next (State.tWord_wf wf fun _ h => by dsimp only; (repeat' split) <;> simp [h])

theorem execTLoop_wf {o : Op.Loop} {s : State} (wf : s.mem.wf = true) : Canonical (execTLoop o s) :=
  canonical_next (State.tWord_wf wf fun _ h => by split <;> simp [h])

theorem execTFence_wf {o : Op.EFence} {s : State} (wf : s.mem.wf = true) : Canonical (execTFence o s) :=
  canonical_next (State.tWord_wf wf fun _ h => State.fenceWord_wf h fun _ h => State.fenceDone_wf h)

@[simp] theorem State.endStrm_wf {s : State} {st : Strm} {sync : Fin 8} (wf : s.mem.wf = true) : (s.endStrm st sync).mem.wf = true := by
  unfold State.endStrm
  simp [wf]

theorem execTEnd_wf {o : Op.EBare} {s : State} (wf : s.mem.wf = true) : Canonical (execTEnd o s) :=
  canonical_next (State.tWord_wf wf fun _ h => by split <;> simp [h])

theorem execTWaith_wf {o : Op.Waith} {s : State} (wf : s.mem.wf = true) : Canonical (execTWaith o s) :=
  canonical_next (State.tWord_wf wf fun _ h => State.waithWord_wf h fun _ h => by simp [h])

end Sys2Proof.Machine
end

section
/-! SUPPORT. Matrix words and the steps of an MGO. -/

namespace Sys2Proof.Machine

@[simp] theorem State.mWord_wf {s : State} {sync : Fin 8} {f : State → State} (wf : s.mem.wf = true)
    (keeps_f : ∀ t, t.mem.wf = true → (f t).mem.wf = true) :
    (s.mWord sync f).mem.wf = true := by
  unfold State.mWord
  (repeat' split) <;> simp_all

@[simp] theorem State.mResult_wf {s : State} {sync : Fin 8} {dst : Dest} {v : BitVec 256} (wf : s.mem.wf = true) :
    (s.mResult sync dst v).mem.wf = true := by
  unfold State.mResult
  split <;> simp [wf]

theorem execNsetFmt_wf {o : Op.NsetFmt} {s : State} (wf : s.mem.wf = true) : Canonical (execNsetFmt o s) :=
  canonical_next (State.mWord_wf wf fun _ h => by split <;> simp [h])

theorem execMzero_wf {o : Op.Mzero} {s : State} (wf : s.mem.wf = true) : Canonical (execMzero o s) :=
  canonical_next (State.mWord_wf wf fun _ h => by dsimp only; (repeat' split) <;> simp [h])

@[simp] theorem State.panel_mem (s : State) (va expect : Nat) (strict : Bool) : (s.panel va expect strict).2.mem = s.mem := by
  unfold State.panel
  split
  · rfl
  split
  · split <;> rfl
  split
  · next e => exact mem_of_result e (State.xlate_mem ..)
  · next e => exact mem_of_result e (State.xlate_mem ..)
  · next e =>
    have m := mem_of_result e (State.xlate_mem ..)
    dsimp only
    (repeat' split) <;> exact m

@[simp] theorem State.panels_mem (s : State) (a b afmt bfmt : Nat) (strict : Bool) : (s.panels a b afmt bfmt strict).2.mem = s.mem := by
  unfold State.panels
  split
  · next e => exact mem_of_result e (State.panel_mem ..)
  · next e => exact mem_of_result e (State.panel_mem ..)
  · next e =>
    rw [← mem_of_result e (State.panel_mem ..)]
    split
    · next e => exact mem_of_result e (State.panel_mem ..)
    · next e => exact mem_of_result e (State.panel_mem ..)
    · next e => split <;> exact mem_of_result e (State.panel_mem ..)

@[simp] theorem State.readPanel_mem (s : State) (requester : Nat) (mc : Bool) (p : Panel) : (s.readPanel requester mc p).2.mem = s.mem := by
  unfold State.readPanel
  dsimp only
  (repeat' split) <;> simp

@[simp] theorem State.mgoBegin_mem (s : State) (k : Fin 64) : (s.mgoBegin k).mem = s.mem := by
  unfold State.mgoBegin
  extract_lets
  split
  · dsimp only
    split
    · next e => simp [mem_of_result e (State.panels_mem ..)]
    · next e => simp [mem_of_result e (State.panels_mem ..)]
    · next e =>
      split <;> simp [mem_of_result e (State.panels_mem ..)]
  · rfl

@[simp] theorem State.accRewrite_mem (s : State) (rows : List Nat) : (s.accRewrite rows).mem = s.mem :=
  State.foldl_mem _ (fun _ _ => State.rewrite_mem ..) _

@[simp] theorem State.takeMismatch_mem (s : State) : (s.takeMismatch).2.mem = s.mem := by
  unfold State.takeMismatch
  split <;> simp

@[simp] theorem State.mgoFail_mem (s : State) (k : Fin 64) (c : Cause) (va : Nat) : (s.mgoFail k c va).mem = s.mem := by
  unfold State.mgoFail
  simp

@[simp] theorem State.mgoMismatch_mem (s : State) (k : Fin 64) (time : Nat) : (s.mgoMismatch k time).mem = s.mem := by
  unfold State.mgoMismatch
  split <;> simp

@[simp] theorem State.mgoFinish_mem (s : State) (k : Fin 64) : (s.mgoFinish k).mem = s.mem := by
  unfold State.mgoFinish
  dsimp only
  (repeat' split) <;> simp

@[simp] theorem State.reachIssue_mem (s : State) : (s.reachIssue).mem = s.mem := rfl

@[simp] theorem State.takeDraw_mem (s : State) : (s.takeDraw).mem = s.mem := rfl

theorem execDrawSlotGrant_wf {part : Nat} {s : State} (wf : s.mem.wf = true) : Canonical (execDrawSlotGrant part s) := by
  unfold execDrawSlotGrant
  dsimp only
  split <;> simp [wf]

@[simp] theorem State.faultM_mem (s : State) (c : Cause) (va : Word) : (s.faultM c va).mem = s.mem := rfl

@[simp] theorem State.makePawnM_wf {s : State} {va : Word} {rs : List (Nat × Nat × Bool)} {k : Fin 64} {take : State → State} {n : NewPawn}
    (wf : s.mem.wf = true) (keeps_take : ∀ t, t.mem.wf = true → (take t).mem.wf = true) :
    (s.makePawnM va rs k take n).mem.wf = true := by
  unfold State.makePawnM
  split
  · simp [wf]
  · simp [wf]
  · have h := keeps_take _ wf
    simp [h]

theorem execMgo_wf {o : Op.Mgo} {s : State} (wf : s.mem.wf = true) : Canonical (execMgo o s) := by
  refine canonical_next (State.mWord_wf wf fun t h => ?_)
  extract_lets _ _ _ _ _ _ reached
  have m : reached.mem.wf = true := by simp [reached, h]
  split
  · simp [h]
  split
  · simp [m]
  split
  · simp [m]
  split
  · simp [m]
  split
  · simp [m]
  · exact State.makePawnM_wf m fun _ h => by simp [h]

@[simp] theorem State.linesM_mem (s : State) (slot : Fin 64) (k : Acc) (as : List Nat) : (s.linesM slot k as).2.mem = s.mem := by
  unfold State.linesM
  dsimp only
  split <;> next e => simp [mem_of_result e (State.xlateMore_mem ..)]

@[simp] theorem State.acc2sStep_wf {s : State} {via : Via} {k : Fin 64} {w : Walking} {t r : Nat} (wf : s.mem.wf = true) :
    (s.acc2sStep via k w t r).2.mem.wf = true := by
  unfold State.acc2sStep
  split
  · next e => simpa [mem_of_result e (State.linesM_mem ..)] using wf
  · next e =>
    have m := mem_of_result e (State.linesM_mem ..)
    split
    · simpa [m] using wf
    · dsimp only
      split <;> simp [m, wf]

@[simp] theorem State.s2accStep_mem (s : State) (via : Via) (k : Fin 64) (w : Walking) (t r : Nat) : (s.s2accStep via k w t r).2.mem = s.mem := by
  unfold State.s2accStep
  split
  · next e => exact mem_of_result e (State.linesM_mem ..)
  · next e =>
    have m := mem_of_result e (State.linesM_mem ..)
    split
    · exact m
    · extract_lets _ u; have n : u.mem = s.mem := by simp [u, m]
      split
      · exact m
      · simp [n]

@[simp] theorem State.scaleVec_mem (s : State) (via : Via) (k : Fin 64) (w : Walking) : (s.scaleVec via k w).2.mem = s.mem := by
  unfold State.scaleVec
  split
  · next e => exact mem_of_result e (State.linesM_mem ..)
  · next e => split <;> exact mem_of_result e (State.linesM_mem ..)

@[simp] theorem State.accmulStep_mem (s : State) (via : Via) (k : Fin 64) (w : Walking) (t r : Nat) (perCol : Bool) :
    (s.accmulStep via k w t r perCol).2.mem = s.mem := by
  unfold State.accmulStep
  dsimp only
  split
  · split
    · next e => exact mem_of_result e (State.scaleVec_mem ..)
    · next e =>
      have m := mem_of_result e (State.scaleVec_mem ..)
      split <;> simp [m]
  · split <;> simp

@[simp] theorem State.mcStep_wf {s : State} {k : Fin 64} (wf : s.mem.wf = true) : (s.mcStep k).2.mem.wf = true := by
  unfold State.mcStep
  dsimp only
  (repeat' split) <;> simp [wf]

@[simp] theorem State.mcContend_mem (s : State) (j : PawnJob) (pos : Nat) : (s.mcContend j pos).2.mem = s.mem := by
  unfold State.mcContend
  split <;> simp

@[simp] theorem State.mcWord_wf {s : State} {sync : Fin 8} {h : Fin 16} {mb t : Fin 4} {ly : LyRec} {pri : Fin 8} {detach shapeBad writes : Bool}
    {used : Nat} {job : Word → PawnJob} (wf : s.mem.wf = true) :
    (s.mcWord sync h mb t ly pri detach shapeBad writes used job).mem.wf = true := by
  unfold State.mcWord
  dsimp only
  (repeat' split) <;> simp [wf]

theorem execAcc2s_wf {o : Op.Mc} {s : State} (wf : s.mem.wf = true) : Canonical (execAcc2s o s) :=
  canonical_next (State.mWord_wf wf fun _ h => by split <;> simp [h])

theorem execS2acc_wf {o : Op.Mc} {s : State} (wf : s.mem.wf = true) : Canonical (execS2acc o s) :=
  canonical_next (State.mWord_wf wf fun _ h => by split <;> simp [h])

theorem execAccmul_wf {o : Op.Accmul} {s : State} (wf : s.mem.wf = true) : Canonical (execAccmul o s) :=
  canonical_next (State.mWord_wf wf fun _ h => by split <;> simp [h])

theorem execMLoop_wf {o : Op.MLoop} {s : State} (wf : s.mem.wf = true) : Canonical (execMLoop o s) :=
  canonical_next (State.mWord_wf wf fun _ h => by (repeat' split) <;> simp [h])

theorem execMSync_wf {o : Op.Sync} {s : State} (wf : s.mem.wf = true) : Canonical (execMSync o s) :=
  canonical_next (State.mWord_wf wf fun _ h => by split <;> simp [h])

theorem execMFence_wf {o : Op.EFence} {s : State} (wf : s.mem.wf = true) : Canonical (execMFence o s) :=
  canonical_next (State.mWord_wf wf fun _ h => State.fenceWord_wf h fun _ h => State.fenceDone_wf h)

theorem execMEnd_wf {o : Op.EBare} {s : State} (wf : s.mem.wf = true) : Canonical (execMEnd o s) :=
  canonical_next (State.mWord_wf wf fun _ h => by (repeat' split) <;> simp [h])

theorem execMWaith_wf {o : Op.Waith} {s : State} (wf : s.mem.wf = true) : Canonical (execMWaith o s) :=
  canonical_next (State.mWord_wf wf fun _ h => State.waithWord_wf h fun _ h => by simp [h])

end Sys2Proof.Machine
end

section
/-! SUPPORT. Debug commands. -/

namespace Sys2Proof.Machine

@[simp] theorem State.dbgCode_mem (s : State) (site : Nat) (code : Fin 8) : (s.dbgCode site code).mem = s.mem := by
  unfold State.dbgCode
  simp

@[simp] theorem State.command_wf {s : State} {site : Nat} {cx : Bool} {f : State → State} (wf : s.mem.wf = true)
    (keeps_f : ∀ t, t.mem.wf = true → (f t).mem.wf = true) :
    (s.command site cx f).mem.wf = true := by
  unfold State.command
  (repeat' split) <;> simp [wf, keeps_f]

@[simp] theorem State.haltedCommand_wf {s : State} {site : Nat} {cx : Bool} {f : State → State} (wf : s.mem.wf = true)
    (keeps_f : ∀ t, t.mem.wf = true → (f t).mem.wf = true) :
    (s.haltedCommand site cx f).mem.wf = true :=
  State.command_wf wf fun t h => by
    split
    · exact keeps_f t h
    · simp [h]

@[simp] theorem State.endStep_mem (s : State) (now : Nat) : (s.endStep now).mem = s.mem := by
  unfold State.endStep
  simp

theorem execDbgHalt_wf {site : Nat} {cx : Bool} {s : State} (wf : s.mem.wf = true) : Canonical (execDbgHalt site cx s) := by
  refine canonical_next ?_
  split
  · split <;> simp [wf]
  · dsimp only
    split
    · simp [wf]
    · exact State.command_wf wf fun _ h => by split <;> simp [h]

theorem execDebugHaltLand_wf {site : Nat} {cx : Bool} {s : State} (wf : s.mem.wf = true) : Canonical (execDebugHaltLand site cx s) := by
  unfold execDebugHaltLand
  dsimp only
  (repeat' split) <;> simp [wf]

theorem execDbgResume_wf {site : Nat} {cx : Bool} {s : State} (wf : s.mem.wf = true) : Canonical (execDbgResume site cx s) := by
  unfold execDbgResume
  simp [wf]

theorem execDbgStep_wf {site : Nat} {cx : Bool} {st : Strm} {s : State} (wf : s.mem.wf = true) : Canonical (execDbgStep site cx st s) := by
  unfold execDbgStep
  simp [wf]

theorem execDbgBadcmd_wf {site : Nat} {s : State} (wf : s.mem.wf = true) : Canonical (execDbgBadcmd site s) := by
  unfold execDbgBadcmd
  (repeat' split) <;> simp_all

@[simp] theorem State.dbgTouch_mem (s : State) (space : Fin 16) (i : Nat) : (s.dbgTouch space i).mem = s.mem := by
  unfold State.dbgTouch
  split <;> simp

@[simp] theorem State.dbgAnswer_mem (s : State) (site : Nat) (ans : DbgAns) : (s.dbgAnswer site ans).mem = s.mem := by
  unfold State.dbgAnswer
  split <;> simp

theorem execDbgRead_wf {site : Nat} {cx : Bool} {space : Fin 16} {s : State} (wf : s.mem.wf = true) : Canonical (execDbgRead site cx space s) := by
  unfold execDbgRead
  split <;> simp [wf]

theorem State.dbgCtl_mem {t : State} (s : State) (i : Nat) (v : Word) (e : (s.dbgCtl i v).1 = some t) : t.mem = s.mem := by
  unfold State.dbgCtl at e
  split at e
  · (repeat' split at e) <;> cases e
    exact State.writeCtl_mem ..
  · cases e

theorem State.dbgWrite_wf {s : State} {space : Fin 16} {i : Nat} {v : Word} {t : State} (e : (s.dbgWrite space i v).1 = some t)
    (wf : s.mem.wf = true) :
    t.mem.wf = true := by
  unfold State.dbgWrite at e
  split at e
  · (repeat' split at e) <;> cases e
    simpa using wf
  · split at e
    case h_4 => rwa [State.dbgCtl_mem _ _ _ e]
    case h_5 =>
      split at e <;> cases e
      exact State.writeKey_wf wf
    case h_6 => cases e
    case h_1 =>
      extract_lets q put at e
      split at e <;> cases e
      simpa using wf
    case h_2 =>
      split at e <;> cases e
      simpa using wf
    case h_3 =>
      (repeat' split at e) <;> cases e
      simpa using wf

theorem execDbgWrite_wf {site : Nat} {cx : Bool} {space : Fin 16} {s : State} (wf : s.mem.wf = true) : Canonical (execDbgWrite site cx space s) := by
  refine canonical_next (State.haltedCommand_wf wf fun t h => ?_)
  extract_lets d r
  rw [State.dbgCode_mem]
  cases e : r.1 with
  | none => exact h
  | some u => exact State.dbgWrite_wf e (by simp [h])

theorem execDbgDrop_wf {site : Nat} {cx : Bool} {s : State} (wf : s.mem.wf = true) : Canonical (execDbgDrop site cx s) :=
  canonical_next (State.haltedCommand_wf wf fun _ h => by dsimp only; split <;> simp [h])

@[simp] theorem State.writeDbgcmd_wf {s : State} {site : Nat} {v : BitVec 32} (wf : s.mem.wf = true) : (s.writeDbgcmd site v).mem.wf = true := by
  refine nextOf_wf wf ?_
  split
  · exact execDbgHalt_wf wf
  · exact execDbgResume_wf wf
  · exact execDbgStep_wf wf
  · exact execDbgRead_wf wf
  · exact execDbgWrite_wf wf
  · exact execDbgDrop_wf wf
  · exact execDbgBadcmd_wf wf

@[simp] theorem State.writeDbg_wf {s : State} {site reg : Nat} {v : BitVec 32} (wf : s.mem.wf = true) : (s.writeDbg site reg v).mem.wf = true := by
  unfold State.writeDbg
  split <;> simp [wf]

theorem execBreakpointFire_wf {site : Nat} {cx : Bool} {st : Strm} {s : State} (wf : s.mem.wf = true) :
    Canonical (execBreakpointFire site cx st s) := by
  unfold execBreakpointFire
  dsimp only
  (repeat' split) <;> simp [wf]

end Sys2Proof.Machine
end

section
/-! SUPPORT. Sensors, power and the management registers. -/

namespace Sys2Proof.Machine

@[simp] theorem State.onDieContexts_mem (s : State) (die : Nat) (f : CoreBox → CoreBox) : (s.onDieContexts die f).mem = s.mem := by
  unfold State.onDieContexts
  simp

@[simp] theorem State.shiftRacks_mem (s : State) (die n : Nat) : (s.shiftRacks die n).mem = s.mem := by
  unfold State.shiftRacks
  simp

theorem execDroopTrigger_wf {die cycles : Nat} {s : State} (wf : s.mem.wf = true) : Canonical (execDroopTrigger die cycles s) := by
  unfold execDroopTrigger
  dsimp only
  (repeat' split) <;> simp [wf]

theorem execHbmStackSample_wf {stack : Nat} {temp : BitVec 10} {s : State} (wf : s.mem.wf = true) : Canonical (execHbmStackSample stack temp s) := by
  unfold execHbmStackSample
  dsimp only
  (repeat' split) <;> simp [wf]

theorem execHotStackReport_wf {stack : Nat} {s : State} (wf : s.mem.wf = true) : Canonical (execHotStackReport stack s) := by
  unfold execHotStackReport
  (repeat' split) <;> simp_all

@[simp] theorem State.writeDrawceil_mem (s : State) (v : BitVec 32) : (s.writeDrawceil v).mem = s.mem := by
  unfold State.writeDrawceil
  dsimp only
  split <;> simp

@[simp] theorem State.trapWaiters_mem (s : State) : (s.trapWaiters).mem = s.mem := State.foldl_mem _ (fun _ _ => by simp) _

theorem execDrawgGrantWrite_wf {part grant : Nat} {s : State} (wf : s.mem.wf = true) : Canonical (execDrawgGrantWrite part grant s) := by
  unfold execDrawgGrantWrite
  dsimp only
  (repeat' split) <;> simp [wf]

@[simp] theorem State.writeOsc_mem (s : State) (die : Nat) (v : BitVec 32) : (s.writeOsc die v).mem = s.mem := rfl

@[simp] theorem State.writeMyinc_mem (s : State) (v : BitVec 32) : (s.writeMyinc v).mem = s.mem := by
  unfold State.writeMyinc
  split <;> simp

@[simp] theorem State.writeMgmt_wf {s : State} {off : Nat} {v : BitVec 32} (wf : s.mem.wf = true) : (s.writeMgmt off v).mem.wf = true := by
  unfold State.writeMgmt
  refine State.ite_wf wf <| State.ite_wf wf <| State.ite_wf ?_ <| State.ite_wf ?_ <| State.ite_wf wf <| State.ite_wf wf <|
    State.ite_wf (State.ite_wf wf wf) <| State.ite_wf wf <| State.ite_wf ?_ <| State.ite_wf ?_ <| State.ite_wf ?_ <| State.ite_wf wf wf
  · simp [wf]
  · simp [wf]
  · simp [wf]
  · extract_lets
    split <;> exact wf
  · simp [wf]

theorem execMgmtRegisterWrite_wf {off : Nat} {v : BitVec 32} {s : State} (wf : s.mem.wf = true) : Canonical (execMgmtRegisterWrite off v s) := by
  unfold execMgmtRegisterWrite
  split <;> simp [wf]

theorem execThermalTrip_wf {temp : BitVec 10} {isStack : Bool} {s : State} (wf : s.mem.wf = true) : Canonical (execThermalTrip temp isStack s) := by
  unfold execThermalTrip
  (repeat' split) <;> simp_all

theorem execPowerTrip_wf {watts : Nat} {s : State} (wf : s.mem.wf = true) : Canonical (execPowerTrip watts s) := by
  unfold execPowerTrip
  split <;> simp [wf]

end Sys2Proof.Machine
end

section
/-! SUPPORT. Collectives. -/

namespace Sys2Proof.Machine

@[simp] theorem State.onColl_mem (s : State) (id : Nat) (f : Coll → Coll) : (s.onColl id f).mem = s.mem := rfl

theorem execCollectiveExchangeStep_wf {coll : Nat} {data : List (BitVec 8)} {s : State} (wf : s.mem.wf = true) :
    Canonical (execCollectiveExchangeStep coll data s) := by
  unfold execCollectiveExchangeStep
  dsimp only
  (repeat' split) <;> simp [wf]

@[simp] theorem State.failColls_mem (s : State) (chip : Nat) (cause : Cause) : (s.failColls chip cause).mem = s.mem := rfl

@[simp] theorem State.collLine_mem (s : State) (va : Nat) : (s.collLine va).2.mem = s.mem := by
  unfold State.collLine
  split
  · next e => exact mem_of_result e (State.xlate_mem ..)
  · next e => exact mem_of_result e (State.xlate_mem ..)
  · next e => split <;> simp [mem_of_result e (State.xlate_mem ..)]

@[simp] theorem State.collGate_mem (s : State) (va : Nat) (chips : List Nat) : (s.collGate va chips).2.mem = s.mem := by
  induction chips generalizing s with
  | nil => rfl
  | cons c r ih =>
    unfold State.collGate
    have m := State.chipGate_mem s .t va c
    split <;> simp_all

@[simp] theorem State.collJoin_mem (s : State) (k : Fin 64) (fn : Nat) (desc params : Word) (number : Nat) :
    (s.collJoin k fn desc params number).2.mem = s.mem := by
  unfold State.collJoin
  split
  · next e => exact mem_of_result e (State.collLine_mem ..)
  · next e =>
    have m := mem_of_result e (State.collLine_mem ..)
    extract_lets me same
    split
    extract_lets fresh t
    have n : t.mem = s.mem := by
      unfold t; split <;> simp [m]
    split
    · exact n
    · split
      · rw [State.foldl_mem _ (fun _ _ => State.notify_mem ..)]; simp [n]
      · split <;> next e => simp [mem_of_result e (State.collGate_mem ..), n]

@[simp] theorem State.collRead_mem (s : State) (c : Coll) (me ix : Nat) (buf : Word) (pos : Nat) : (s.collRead c me ix buf pos).2.mem = s.mem := by
  unfold State.collRead
  split <;> next e => simp [mem_of_result e (State.collLine_mem ..)]

@[simp] theorem State.collWrite_wf {s : State} {serial : Nat} {c : Coll} {ix : Nat} {buf : Word} {pos : Nat} (wf : s.mem.wf = true) :
    (s.collWrite serial c ix buf pos).2.mem.wf = true := by
  unfold State.collWrite
  dsimp only
  split
  · exact wf
  split <;> next e => 
    have m := mem_of_result e (State.xlate_mem ..)
    (repeat' split) <;> simp [m, wf]

@[simp] theorem State.collStep_wf {s : State} {k : Fin 64} (wf : s.mem.wf = true) : (s.collStep k).2.mem.wf = true := by
  unfold State.collStep
  dsimp only
  (repeat' split) <;> simp [wf]

end Sys2Proof.Machine
end

section
/-! SUPPORT. Links between chips. -/

namespace Sys2Proof.Machine

@[simp] theorem State.onPort_mem (s : State) (port : Nat) (f : LinkPort → LinkPort) : (s.onPort port f).mem = s.mem := rfl

@[simp] theorem State.excuseTags_mem (s : State) (tags : List Nat) (to_ : Nat) : (s.excuseTags tags to_).mem = s.mem := by
  unfold State.excuseTags
  simp

theorem execLinkFlitReplay_wf {port : Nat} {s : State} (wf : s.mem.wf = true) : Canonical (execLinkFlitReplay port s) := by
  unfold execLinkFlitReplay
  split <;> simp [wf]

@[simp] theorem State.offerLink_mem (s : State) (t : LinkTxn) : (s.offerLink t).mem = s.mem := by
  unfold State.offerLink
  split <;> simp

theorem execLinkTransactionSend_wf {chip frame tag : Nat} {s : State} (wf : s.mem.wf = true) :
    Canonical (execLinkTransactionSend chip frame tag s) := by
  unfold execLinkTransactionSend
  split <;> simp [wf]

@[simp] theorem State.dropResponses_mem (s : State) (ts : List LinkTxn) : (s.dropResponses ts).mem = s.mem := rfl

@[simp] theorem State.answerTxns_mem (s : State) (ts : List LinkTxn) (refused : List (BitVec 32 × PeerRefusal)) :
    (s.answerTxns ts refused).mem = s.mem :=
  State.foldl_mem _ (fun t x => by split <;> simp) _

theorem execLinkAckReceive_wf {port chip : Nat} {ack : LinkAck} {s : State} (wf : s.mem.wf = true) :
    Canonical (execLinkAckReceive port chip ack s) := by
  unfold execLinkAckReceive
  split <;> simp [wf]

theorem execLinkResend_wf {port : Nat} {seq : BitVec 32} {s : State} (wf : s.mem.wf = true) : Canonical (execLinkResend port seq s) := by
  unfold execLinkResend
  (repeat' split) <;> simp_all

@[simp] theorem State.dropHolder_mem (s : State) (chip : Nat) : (s.dropHolder chip).mem = s.mem := rfl

theorem execLinkRetryExhausted_wf {port : Nat} {seq : BitVec 32} {s : State} (wf : s.mem.wf = true) :
    Canonical (execLinkRetryExhausted port seq s) := by
  refine canonical_next ?_
  split
  · exact wf
  · split
    · exact wf
    · extract_lets dropped held lost ended
      have m : lost.mem.wf = true := by simp [lost, dropped, wf]
      have n : ended.mem.wf = true := State.foldl_wf (fun _ _ h => by split <;> simp [h]) m
      simp [n]

@[simp] theorem State.repairing__mem (s : State) (r : Repair) : (s.repairing_ r).mem = s.mem := by
  unfold State.repairing_
  split <;> simp

theorem execLinkLaneSpare_wf {port : Nat} (lane : Nat) {s : State} (wf : s.mem.wf = true) : Canonical (execLinkLaneSpare port lane s) := by
  refine canonical_next ?_
  (repeat' split) <;> simp [wf]

@[simp] theorem State.rehome_mem (s : State) (ts : List LinkTxn) : (s.rehome ts).mem = s.mem :=
  State.foldl_mem _ (fun t x => by (repeat' split) <;> simp) _

theorem execLinkPortOut_wf {port : Nat} {s : State} (wf : s.mem.wf = true) : Canonical (execLinkPortOut port s) := by
  unfold execLinkPortOut
  dsimp only
  (repeat' split) <;> simp [wf]

theorem execIncarnationAnnounce_wf {s : State} (wf : s.mem.wf = true) : Canonical (execIncarnationAnnounce s) := by
  unfold execIncarnationAnnounce
  (repeat' split) <;> simp_all

theorem execAnnouncementReceive_wf {chip : Nat} {inc : BitVec 16} {s : State} (wf : s.mem.wf = true) :
    Canonical (execAnnouncementReceive chip inc s) := by
  unfold execAnnouncementReceive
  split <;> simp [wf]

@[simp] theorem State.putSource_mem (s : State) (q : LinkSrc) : (s.putSource q).mem = s.mem := rfl

@[simp] theorem State.peerWrite_wf {s : State} {chip serial pa : Nat} {bs : List (BitVec 8)} (wf : s.mem.wf = true) :
    (s.peerWrite chip serial pa bs).mem.wf = true := by
  unfold State.peerWrite
  simp [wf]

@[simp] theorem State.peerAtomic_wf {s : State} {chip serial pa n : Nat} {f : Nat → Option Nat} (wf : s.mem.wf = true) :
    (s.peerAtomic chip serial pa n f).1.mem.wf = true := by
  unfold State.peerAtomic
  dsimp only
  (repeat' split) <;> simp [wf]

@[simp] theorem State.peerInval_mem (s : State) (chip frame : Nat) : (s.peerInval chip frame).mem = s.mem := rfl

@[simp] theorem State.peerExec_wf {s : State} {chip serial : Nat} {die : Option (Fin 8)} {op : PeerOp} (wf : s.mem.wf = true) :
    (s.peerExec chip serial die op).1.mem.wf = true := by
  unfold State.peerExec
  dsimp only
  (repeat' split) <;> simp [wf]

@[simp] theorem State.sendAnswer_mem (s : State) (r : PeerReq) (refusal : Option Cause) (data : List (BitVec 8)) :
    (s.sendAnswer r refusal data).mem = s.mem := by
  unfold State.sendAnswer
  split <;> simp

@[simp] theorem State.respond_mem (s : State) (r : PeerReq) (refusal : Option Cause) (data : List (BitVec 8)) :
    (s.respond r refusal data).mem = s.mem := by
  unfold State.respond
  simp

@[simp] theorem State.peerStart_mem (s : State) (r : PeerReq) : (s.peerStart r).mem = s.mem := by
  unfold State.peerStart
  (repeat' split) <;> simp

theorem execPeerRequestReceive_wf {r : PeerReq} {s : State} (wf : s.mem.wf = true) : Canonical (execPeerRequestReceive r s) := by
  unfold execPeerRequestReceive
  dsimp only
  (repeat' split) <;> simp [wf]

@[simp] theorem State.peerServe_wf {s : State} {j : PeerJob} (wf : s.mem.wf = true) : (s.peerServe j).mem.wf = true := by
  unfold State.peerServe
  simp [wf]

@[simp] theorem State.answerPeer_mem (s : State) : (s.answerPeer).mem = s.mem := by
  unfold State.answerPeer
  (repeat' split) <;> simp

theorem execLinkAckSend_wf {chip port : Nat} {s : State} (wf : s.mem.wf = true) : Canonical (execLinkAckSend chip port s) := by
  unfold execLinkAckSend
  dsimp only
  split <;> simp [wf]

end Sys2Proof.Machine
end

section
/-! SUPPORT. Boot; a power fail keeps the memory that lasts, which is a part of it. -/

namespace Sys2Proof.Machine

@[simp] theorem State.startBoot_mem (s : State) : (s.startBoot).mem = s.mem := rfl

@[simp] theorem State.bootFails_mem (s : State) (step cause : Nat) : (s.bootFails step cause).mem = s.mem := rfl

theorem execPowerUpBoot_wf {selfTest : BitVec 4} {westOk : Bool} {s : State} (wf : s.mem.wf = true) :
    Canonical (execPowerUpBoot selfTest westOk s) := by
  unfold execPowerUpBoot
  dsimp only
  (repeat' split) <;> simp [wf]

theorem execBootLinkTimeout_wf {s : State} (wf : s.mem.wf = true) : Canonical (execBootLinkTimeout s) := by
  unfold execBootLinkTimeout
  dsimp only
  (repeat' split) <;> simp [wf]

theorem execDhcpv6ReplyReceive_wf {tftp : Bool} {server : Nat} {file : List (BitVec 8)} {s : State} (wf : s.mem.wf = true) :
    Canonical (execDhcpv6ReplyReceive tftp server file s) := by
  unfold execDhcpv6ReplyReceive
  dsimp only
  (repeat' split) <;> simp [wf]

@[simp] theorem State.setGuards_mem (s : State) : (s.setGuards).mem = s.mem := rfl

@[simp] theorem State.applySpares_mem (s : State) (spares retired : List Nat) : (s.applySpares spares retired).mem = s.mem := by
  unfold State.applySpares
  simp

@[simp] theorem State.startFirmware_mem (s : State) : (s.startFirmware).mem = s.mem := by
  unfold State.startFirmware
  dsimp only
  (repeat' split) <;> simp

@[simp] theorem State.raiseMin_mem (s : State) : (s.raiseMin).mem = s.mem := rfl

@[simp] theorem State.verifyImage_mem (s : State) : (s.verifyImage).mem = s.mem := by
  unfold State.verifyImage
  dsimp only
  split <;> simp

theorem execTftpBlockReceive_wf {block : Nat} {data : List (BitVec 8)} {s : State} (wf : s.mem.wf = true) :
    Canonical (execTftpBlockReceive block data s) := by
  unfold execTftpBlockReceive
  dsimp only
  (repeat' split) <;> simp [wf]

theorem execTftpBlockRetry_wf {s : State} (wf : s.mem.wf = true) : Canonical (execTftpBlockRetry s) := by
  unfold execTftpBlockRetry
  dsimp only
  (repeat' split) <;> simp [wf]

theorem execBootRetry_wf {s : State} (wf : s.mem.wf = true) : Canonical (execBootRetry s) := by
  unfold execBootRetry
  split <;> simp [wf]

theorem execPowerFail_wf {s : State} (wf : s.mem.wf = true) : Canonical (execPowerFail s) :=
  canonical_next (Memory.wf_filter _ wf)

theorem execServiceCoreTakeover_wf {core : Nat} {s : State} (wf : s.mem.wf = true) : Canonical (execServiceCoreTakeover core s) := by
  unfold execServiceCoreTakeover
  dsimp only
  split <;> simp [wf]

theorem execFirmwareSwitch_wf {s : State} (wf : s.mem.wf = true) : Canonical (execFirmwareSwitch s) := by
  unfold execFirmwareSwitch
  dsimp only
  split <;> simp [wf]

@[simp] theorem State.hostPut_wf {s : State} {addr : Nat} {data : List (BitVec 8)} (wf : s.mem.wf = true) : (s.hostPut addr data).mem.wf = true := by
  unfold State.hostPut
  dsimp only
  split
  · exact State.writeList_wf wf
  · exact wf

theorem execServiceCoreHostWrite_wf {windows : List (Nat × Nat)} {w : SvcWrite} {s : State} (wf : s.mem.wf = true) :
    Canonical (execServiceCoreHostWrite windows w s) := by
  unfold execServiceCoreHostWrite
  dsimp only
  (repeat' split) <;> simp [wf]

@[simp] theorem State.svcLine_wf {s : State} (wf : s.mem.wf = true) : (s.svcLine).mem.wf = true := by
  unfold State.svcLine
  dsimp only
  (repeat' split) <;> simp [wf]

theorem execEthernetFrameSend_wf {port bytes : Nat} {s : State} (wf : s.mem.wf = true) : Canonical (execEthernetFrameSend port bytes s) := by
  unfold execEthernetFrameSend
  dsimp only
  (repeat' split) <;> simp [wf]

@[simp] theorem State.askSign_mem (s : State) (nonce : List (BitVec 8)) (m : List (BitVec 8)) : (s.askSign nonce m).mem = s.mem := by
  unfold State.askSign
  (repeat' split) <;> simp

theorem execAttestationRequest_wf {nonce : List (BitVec 8)} {target : Option Nat} {s : State} (wf : s.mem.wf = true) :
    Canonical (execAttestationRequest nonce target s) := by
  unfold execAttestationRequest
  dsimp only
  (repeat' split) <;> simp [wf]

theorem execKeyCounterConfirm_wf {s : State} (wf : s.mem.wf = true) : Canonical (execKeyCounterConfirm s) := by
  unfold execKeyCounterConfirm
  split <;> simp [wf]

theorem execSealOpen_wf {part : Nat} {s : State} (wf : s.mem.wf = true) : Canonical (execSealOpen part s) := by
  unfold execSealOpen
  dsimp only
  split <;> simp [wf]

theorem execSealClose_wf {part : Nat} {s : State} (wf : s.mem.wf = true) : Canonical (execSealClose part s) := by
  unfold execSealClose
  dsimp only
  split <;> simp [wf]

end Sys2Proof.Machine
end

section
/-! SUPPORT. Branches and loops. -/

namespace Sys2Proof.Machine

@[simp] theorem State.startFetch_mem (s : State) (t : Word) : (s.startFetch t).mem = s.mem := by
  unfold State.startFetch
  simp

@[simp] theorem State.fetchFor_mem (s : State) (bt : Fin 8) : (s.fetchFor bt).mem = s.mem := by
  unfold State.fetchFor
  simp

@[simp] theorem State.branchTo_wf {s : State} {bt : Fin 8} {f : State → State} (wf : s.mem.wf = true)
    (keeps_f : ∀ t, t.mem.wf = true → (f t).mem.wf = true) :
    (s.branchTo bt f).mem.wf = true := by
  unfold State.branchTo
  dsimp only
  (repeat' split) <;> simp [wf, keeps_f]

@[simp] theorem State.landB_mem (s : State) (bt : Fin 8) (t : Word) : (s.landB bt t).mem = s.mem := by
  unfold State.landB
  simp

theorem execPbr_wf {o : Op.Pbr} {s : State} (wf : s.mem.wf = true) : Canonical (execPbr o s) :=
  canonical_next (State.guarded_wf wf fun _ h => by split <;> simp [h])

theorem execCall_wf {o : Op.Branch} {s : State} (wf : s.mem.wf = true) : Canonical (execCall o s) :=
  canonical_next (State.guarded_wf wf fun _ h => by split <;> simp [h])

theorem execLoopc_wf {o : Op.Loopc} {s : State} (wf : s.mem.wf = true) : Canonical (execLoopc o s) := by
  refine canonical_next (State.guarded_wf wf fun t h => ?_)
  split
  · simp [h]
  split
  · simp [h]
  extract_lets v land
  split
  · simp [land, h]
  · exact State.branchTo_wf h fun _ h => by simp [land, h]

end Sys2Proof.Machine
end

section
/-! SUPPORT. Swaps, repairs and what they move: a part of memory, and writes to it, keep it canonical. -/

namespace Sys2Proof.Machine

@[simp] theorem State.onLiveCores_mem (s : State) (f : CoreBox → CoreBox) : (s.onLiveCores f).mem = s.mem := by
  unfold State.onLiveCores
  simp

@[simp] theorem State.askPause_mem (s : State) (pid : Nat) (p : Pause) : (s.askPause pid p).mem = s.mem := by
  unfold State.askPause
  dsimp only
  rw [State.foldl_mem _ (fun _ _ => State.putBox_mem ..), State.focusPart_mem]

@[simp] theorem State.endPause_mem (s : State) (pid : Nat) (p : Pause) : (s.endPause pid p).mem = s.mem := rfl

@[simp] theorem State.moveBytes_wf {s : State} {from_ to_ n : Nat} (wf : s.mem.wf = true) : (s.moveBytes from_ to_ n).mem.wf = true :=
  Memory.foldl_write_wf _ (Memory.wf_filter _ wf)

@[simp] theorem State.remapAll_mem (s : State) : (s.remapAll).mem = s.mem := by
  unfold State.remapAll
  simp

@[simp] theorem State.traceSwap_wf {s : State} {site payload : Nat} (wf : s.mem.wf = true) : (s.traceSwap site payload).mem.wf = true := by
  unfold State.traceSwap
  dsimp only
  (repeat' split) <;> simp [wf]

@[simp] theorem State.saveSite_wf {s : State} {site : Nat} (wf : s.mem.wf = true) : (s.saveSite site).mem.wf = true := by
  unfold State.saveSite
  simp [wf]

@[simp] theorem State.dropImageErrors_mem (s : State) (site : Nat) : (s.dropImageErrors site).mem = s.mem := rfl

@[simp] theorem State.failRestored_wf {s : State} {site : Nat} {cx : Bool} {off : Nat} (wf : s.mem.wf = true) :
    (s.failRestored site cx off).mem.wf = true := by
  unfold State.failRestored
  dsimp only
  split <;> simp [wf]

@[simp] theorem State.restoreSite_wf {s : State} {site : Nat} {b : CoreBox} (wf : s.mem.wf = true) : (s.restoreSite site b).mem.wf = true := by
  unfold State.restoreSite
  extract_lets old errA errB shadowed saved core placed traced failed
  have hp : placed.mem.wf = true := by simp [placed, shadowed, wf]
  clear_value errA errB
  have hf : failed.mem.wf = true := by unfold failed; split <;> simp [traced, hp]
  split <;> simp [hf]

theorem execTimeRegisterStage_wf {part : Nat} {r : TimeReg} {v : BitVec 64} {s : State} (wf : s.mem.wf = true) :
    Canonical (execTimeRegisterStage part r v s) := by
  unfold execTimeRegisterStage
  dsimp only
  split <;> simp [wf]

@[simp] theorem State.serveEpoch_mem (s : State) (pid : Nat) : (s.serveEpoch pid).mem = s.mem := by
  unfold State.serveEpoch
  simp

theorem execTimeEpoch_wf {part : Nat} {s : State} (wf : s.mem.wf = true) : Canonical (execTimeEpoch part s) := by
  unfold execTimeEpoch
  dsimp only
  (repeat' split) <;> simp [wf]

@[simp] theorem State.setSwapped_mem (s : State) (pid : Nat) : (s.setSwapped pid).mem = s.mem := by
  unfold State.setSwapped
  simp

@[simp] theorem State.clearSwapped_mem (s : State) : (s.clearSwapped).mem = s.mem := rfl

@[simp] theorem State.swapOut_wf {s : State} {pid : Nat} (wf : s.mem.wf = true) : (s.swapOut pid).mem.wf = true := by
  unfold State.swapOut
  dsimp only
  rw [State.remapAll_mem]
  exact State.foldl_wf (fun _ _ h => State.saveSite_wf h) (by simpa using wf)

@[simp] theorem State.swapIn_wf {s : State} {pid : Nat} (wf : s.mem.wf = true) : (s.swapIn pid).mem.wf = true := by
  unfold State.swapIn
  (repeat' split) <;> simp_all

@[simp] theorem State.swapNow_wf {s : State} {k : SwapKind} (wf : s.mem.wf = true) : (s.swapNow k).mem.wf = true := by
  unfold State.swapNow
  (repeat' split) <;> simp [wf]

theorem execPartitionSwap_wf {k : SwapKind} {s : State} (wf : s.mem.wf = true) : Canonical (execPartitionSwap k s) := by
  unfold execPartitionSwap
  dsimp only
  (repeat' split) <;> simp [wf]

theorem execRemapResponseLand_wf {site : Nat} {s : State} (wf : s.mem.wf = true) : Canonical (execRemapResponseLand site s) := by
  refine canonical_next ?_
  split
  · exact wf
  · extract_lets rest core t bad live at_ read
    have h : t.mem.wf = true := by simp [t, wf]
    rw [State.putCoreOf_mem]
    unfold read
    split
    · simp [h]
    · exact State.writeList_wf (by simp [h])

@[simp] theorem State.mapKeys_mem (s : State) (f : Nat → Nat) : (s.mapKeys f).mem = s.mem := by
  unfold State.mapKeys
  simp

@[simp] theorem State.mapNet_mem (s : State) (a b : Nat) : (s.mapNet a b).mem = s.mem := by
  unfold State.mapNet
  simp

@[simp] theorem State.writeSpareMap_mem (s : State) : (s.writeSpareMap).mem = s.mem := rfl

@[simp] theorem State.markSites_mem (s : State) (failed : Nat) (spare : Option Nat) : (s.markSites failed spare).mem = s.mem := by
  unfold State.markSites
  split <;> simp

@[simp] theorem State.moveCore_wf {s : State} {site spare : Nat} (wf : s.mem.wf = true) : (s.moveCore site spare).mem.wf = true := by
  unfold State.moveCore
  dsimp only
  (repeat' split) <;> simp [wf]

@[simp] theorem State.handOver_mem (s : State) (site spare : Nat) : (s.handOver site spare).mem = s.mem := by
  unfold State.handOver
  simp

@[simp] theorem State.onHolders_wf {s : State} {site : Nat} {f : State → State} (wf : s.mem.wf = true)
    (keeps_f : ∀ t, t.mem.wf = true → (f t).mem.wf = true) :
    (s.onHolders site f).mem.wf = true := by
  unfold State.onHolders
  dsimp only
  rw [State.focusPart_mem]
  refine State.foldl_wf (fun t q h => ?_) wf
  split
  · exact keeps_f _ (by simpa using h)
  · simpa using h

@[simp] theorem State.serveRepair_wf {s : State} {site spare : Nat} (wf : s.mem.wf = true) : (s.serveRepair site spare).mem.wf = true := by
  unfold State.serveRepair
  extract_lets moved going
  have hm : moved.mem.wf = true := by
    simp [moved, State.onHolders_wf wf fun _ h => State.moveCore_wf h]
  have hg : going.mem.wf = true := by unfold going; split <;> simp [hm]
  rw [State.notify_mem, State.repaired_mem]
  simp [hg]

theorem execCoreSiteRepair_wf {site : Nat} {s : State} (wf : s.mem.wf = true) : Canonical (execCoreSiteRepair site s) := by
  refine canonical_next ?_
  dsimp only
  (repeat' split) <;> simp [State.repaired_mem, wf]

@[simp] theorem State.returnTurn_mem (s : State) (site : Nat) (c : Context) : (s.returnTurn site c).mem = s.mem := by
  unfold State.returnTurn
  split <;> simp

@[simp] theorem State.withdrawCore_mem (s : State) (site : Nat) : (s.withdrawCore site).mem = s.mem := by
  unfold State.withdrawCore
  split <;> simp

theorem execCoreSiteRetire_wf {site : Nat} {s : State} (wf : s.mem.wf = true) : Canonical (execCoreSiteRetire site s) := by
  refine canonical_next ?_
  split
  · exact wf
  · rw [State.repaired_mem]
    simp [State.onHolders_wf wf fun t h => (State.withdrawCore_mem t site).symm ▸ h]

theorem execRepairRequest_wf {r : Repair} {s : State} (wf : s.mem.wf = true) : Canonical (execRepairRequest r s) := by
  unfold execRepairRequest
  split <;> simp [wf]

theorem execHbmRowRepair_wf {base : Nat} {s : State} (wf : s.mem.wf = true) : Canonical (execHbmRowRepair base s) := by
  unfold execHbmRowRepair
  split <;> simp [wf]

theorem execHbmRowRepairDone_wf {base : Nat} {s : State} (wf : s.mem.wf = true) : Canonical (execHbmRowRepairDone base s) := by
  unfold execHbmRowRepairDone
  split <;> simp [wf]

@[simp] theorem State.take_wf {s : State} {pa n : Nat} (wf : s.mem.wf = true) : (s.take pa n).mem.wf = true := Memory.wf_filter _ wf

theorem execHbmChannelRetire_wf {stack chan : Nat} {s : State} (wf : s.mem.wf = true) : Canonical (execHbmChannelRetire stack chan s) := by
  refine canonical_next ?_
  split
  · dsimp only
    split <;> rw [State.repaired_mem]
    · exact wf
    · exact State.take_wf wf
  · exact wf

theorem execDeepRowSpare_wf {site row : Nat} {s : State} (wf : s.mem.wf = true) : Canonical (execDeepRowSpare site row s) := by
  unfold execDeepRowSpare
  split <;> simp [wf]

theorem execDeepBankRetire_wf {site bank : Nat} {s : State} (wf : s.mem.wf = true) : Canonical (execDeepBankRetire site bank s) := by
  refine canonical_next ?_
  split
  · exact wf
  · dsimp only
    split
    · rwa [State.repaired_mem]
    · split
      · exact wf
      · rw [State.repaired_mem]
        exact State.take_wf wf

end Sys2Proof.Machine
end

section
/-! SUPPORT. What the host writes, and the ranges that a partition zeroes. -/

namespace Sys2Proof.Machine

@[simp] theorem State.numberSites_mem (s : State) (sites : List Nat) : (s.numberSites sites).mem = s.mem := by
  unfold State.numberSites
  simp

theorem execPartitionCreate_wf {part : Nat} {p : PartSpec} {s : State} (wf : s.mem.wf = true) : Canonical (execPartitionCreate part p s) := by
  unfold execPartitionCreate
  split <;> simp [wf]

theorem execSitesJoinPartition_wf {part : Nat} {clusters : List Nat} {s : State} (wf : s.mem.wf = true) :
    Canonical (execSitesJoinPartition part clusters s) := by
  unfold execSitesJoinPartition
  dsimp only
  split <;> simp [wf]

@[simp] theorem State.zeroRanges_wf {s : State} {rs : List (Nat × Nat)} (wf : s.mem.wf = true) : (s.zeroRanges rs).mem.wf = true :=
  Memory.wf_filter _ wf

theorem execPartitionDestroy_wf {part : Nat} {s : State} (wf : s.mem.wf = true) : Canonical (execPartitionDestroy part s) := by
  unfold execPartitionDestroy
  dsimp only
  split <;> simp [wf]

theorem execVfFunctionLevelReset_wf {part : Nat} {s : State} (wf : s.mem.wf = true) : Canonical (execVfFunctionLevelReset part s) := by
  unfold execVfFunctionLevelReset
  dsimp only
  (repeat' split) <;> simp_all

@[simp] theorem State.submit_mem (s : State) (bytes : Nat) (v : Word) : (s.submit bytes v).mem = s.mem := by
  unfold State.submit
  (repeat' split) <;> simp

theorem execSubmitWrite_wf {part bytes : Nat} {v : BitVec 64} {s : State} (wf : s.mem.wf = true) : Canonical (execSubmitWrite part bytes v s) := by
  unfold execSubmitWrite
  dsimp only
  split <;> simp [wf]

theorem execSubmissionWindowWrite_wf {part off : Nat} {data : List (BitVec 8)} {s : State} (wf : s.mem.wf = true) :
    Canonical (execSubmissionWindowWrite part off data s) := by
  unfold execSubmissionWindowWrite
  dsimp only
  (repeat' split) <;> simp [wf]

theorem execSubmissionCopy_wf {part : Nat} {s : State} (wf : s.mem.wf = true) : Canonical (execSubmissionCopy part s) := by
  unfold execSubmissionCopy
  dsimp only
  (repeat' split) <;> simp [wf]

theorem execClusterPowerGate_wf {cluster : Nat} {s : State} (wf : s.mem.wf = true) : Canonical (execClusterPowerGate cluster s) := by
  unfold execClusterPowerGate
  split <;> simp [wf]

theorem execClusterUngate_wf {cluster : Nat} {s : State} (wf : s.mem.wf = true) : Canonical (execClusterUngate cluster s) := by
  unfold execClusterUngate
  split <;> simp [wf]

theorem execBankGoesDrowsy_wf {site bank : Nat} {s : State} (wf : s.mem.wf = true) : Canonical (execBankGoesDrowsy site bank s) := by
  unfold execBankGoesDrowsy
  split <;> simp [wf]

end Sys2Proof.Machine
end

section
/-! SUPPORT. Jobs are loaded. -/

namespace Sys2Proof.Machine

theorem State.loadSpan_wf {s : State} {k : Acc} {n pos : Nat} {bs : List (BitVec 8)} {t : State} (e : s.loadSpan k n pos bs = .ok t)
    (wf : s.mem.wf = true) :
    t.mem.wf = true := by
  induction n generalizing s pos bs with
  | zero => cases e; exact wf
  | succ n ih =>
    unfold State.loadSpan at e
    split at e
    · cases e
      exact wf
    · dsimp only at e
      split at e
      · cases e
      · exact ih e (State.hwWrite_wf wf)

@[simp] theorem State.writeDesc_wf {s : State} {img : List (BitVec 8)} {r : Rack} (wf : s.mem.wf = true) : (s.writeDesc img r).mem.wf = true := by
  unfold State.writeDesc
  split <;> simp [wf]

@[simp] theorem State.fireJob_mem (s : State) (j : JobRec) : (s.fireJob j).mem = s.mem := by
  unfold State.fireJob
  split <;> simp

@[simp] theorem State.dropJob_wf {s : State} {j : JobRec} {off : Nat} (wf : s.mem.wf = true) : (s.dropJob j off).mem.wf = true := by
  unfold State.dropJob
  rw [State.fireJob_mem]
  exact State.writeKey_wf wf

@[simp] theorem State.failJob_wf {s : State} {v : Option Vfo} {j : JobRec} {job : Nat} (wf : s.mem.wf = true) :
    (s.failJob v j job).mem.wf = true := by
  unfold State.failJob
  dsimp only
  (repeat' split) <;> simp [wf]

@[simp] theorem State.writePtes_wf {s : State} {ps : List (Nat × BitVec 64)} (wf : s.mem.wf = true) : (s.writePtes ps).mem.wf = true := by
  refine State.foldl_wf (fun t e h => ?_) wf
  split
  · exact State.writeKey_wf h
  · exact h

theorem State.writeImage_wf {s : State} {base : Nat} {vs : List VSection} {t : State} (e : s.writeImage base vs = .ok t) (wf : s.mem.wf = true) :
    t.mem.wf = true := by
  induction vs generalizing s with
  | nil => cases e; exact wf
  | cons c rest ih =>
    unfold State.writeImage at e
    split at e
    · exact ih e wf
    · split at e
      · cases e
      · next h => exact ih e (State.loadSpan_wf h wf)

theorem State.loadImage_wf {s : State} {v : Vfo} {j : JobRec} {job : Nat} {img : List (BitVec 8)} {plan : LoadPlan} {t : State}
    (e : s.loadImage v j job img plan = some t) (wf : s.mem.wf = true) :
    t.mem.wf = true := by
  unfold State.loadImage at e
  split at e
  · cases e
  extract_lets u rs at e
  have hu : u.mem.wf = true := State.writePtes_wf wf
  clear_value u rs
  split at e
  · cases e
  split at e
  · cases e
  split at e
  · cases e
  extract_lets images ss at e
  split at e
  · cases e
  next w h =>
  have hw := State.writeImage_wf h hu
  split at e
  · cases e
  extract_lets x at e
  have hx : x.mem.wf = true := State.foldl_wf (fun _ _ h => State.writeDesc_wf h) hw
  clear_value x
  split at e
  · cases e
  · cases e
    split
    · exact State.putCtr_wf (by simpa using hx)
    · simpa using hx

theorem execJobLoad_wf {part : Nat} {plan : LoadPlan} {s : State} (wf : s.mem.wf = true) : Canonical (execJobLoad part plan s) := by
  refine canonical_next ?_
  split
  · simp [wf]
  · split
    · simp [wf]
    · extract_lets t j job img v
      have h : t.mem.wf = true := by simp [t, wf]
      clear_value t v img
      split
      · simp [h]
      split
      · split
        · simp [h]
        · split
          · next e => exact State.loadImage_wf e h
          · simp [h]
      · simp [h]

theorem execImportRegister_wf {part : Nat} {name : List (BitVec 8)} {kind : Nat} {value : Option (BitVec 64)} {s : State} (wf : s.mem.wf = true) :
    Canonical (execImportRegister part name kind value s) := by
  unfold execImportRegister
  dsimp only
  split <;> simp [wf]

end Sys2Proof.Machine
end

section
/-! SUPPORT. Phases are released, sized and missed. -/

namespace Sys2Proof.Machine

theorem execActivityRelease_wf {part job act : Nat} {s : State} (wf : s.mem.wf = true) : Canonical (execActivityRelease part job act s) := by
  unfold execActivityRelease
  dsimp only
  (repeat' split) <;> simp [wf]

@[simp] theorem State.closeSelector_mem (s : State) (job act rack port : Nat) : (s.closeSelector job act rack port).mem = s.mem := by
  unfold State.closeSelector
  split <;> simp

@[simp] theorem State.readSize_wf {s : State} {job act : Nat} {a : Activity} (wf : s.mem.wf = true) : (s.readSize job act a).mem.wf = true := by
  unfold State.readSize
  split
  · exact State.runAll_wf (State.phaseFault_wf wf)
  · dsimp only
    (repeat' split) <;> simp [wf]

theorem execSelectorSizeRead_wf {part job act : Nat} {s : State} (wf : s.mem.wf = true) : Canonical (execSelectorSizeRead part job act s) := by
  unfold execSelectorSizeRead
  dsimp only
  (repeat' split) <;> simp [wf]

theorem execDeadlineMiss_wf {part job act : Nat} {s : State} (wf : s.mem.wf = true) : Canonical (execDeadlineMiss part job act s) := by
  refine canonical_next ?_
  split
  · simp [wf]
  · split
    · simp [wf]
    · extract_lets u
      have h : u.mem.wf = true := State.countMiss_wf (by simp [wf])
      split
      · exact State.logFault_canonical h
      · exact h

theorem execCounterDecrement_wf {part : Nat} {addr : BitVec 64} {faulted cancelled : Bool} {s : State} (wf : s.mem.wf = true) :
    Canonical (execCounterDecrement part addr faulted cancelled s) := by
  unfold execCounterDecrement
  dsimp only
  split <;> simp [wf]

theorem execCancelLinearise_wf {part : Nat} {addr : BitVec 64} {level : Nat} {s : State} (wf : s.mem.wf = true) :
    Canonical (execCancelLinearise part addr level s) := by
  unfold execCancelLinearise
  dsimp only
  split <;> simp [wf]

theorem execCancelBroadcast_wf {part : Nat} {s : State} (wf : s.mem.wf = true) : Canonical (execCancelBroadcast part s) := by
  unfold execCancelBroadcast
  dsimp only
  split <;> simp [wf]

end Sys2Proof.Machine
end

section
/-! SUPPORT. The schedulers place and move turns. -/

namespace Sys2Proof.Machine

theorem execTurnRetire_wf {site : Nat} {cx : Bool} {s : State} (wf : s.mem.wf = true) : Canonical (execTurnRetire site cx s) := by
  unfold execTurnRetire
  dsimp only
  (repeat' split) <;> simp [wf]

theorem execTurnDispatch_wf {part cluster : Nat} {s : State} (wf : s.mem.wf = true) : Canonical (execTurnDispatch part cluster s) := by
  unfold execTurnDispatch
  dsimp only
  split <;> simp [wf]

theorem execTurnDisplace_wf {part cluster : Nat} {s : State} (wf : s.mem.wf = true) : Canonical (execTurnDisplace part cluster s) := by
  unfold execTurnDisplace
  dsimp only
  split <;> simp [wf]

theorem execSpillRefill_wf {part cluster : Nat} {s : State} (wf : s.mem.wf = true) : Canonical (execSpillRefill part cluster s) := by
  unfold execSpillRefill
  dsimp only
  (repeat' split) <;> simp [wf]

theorem execContextActivate_wf {site : Nat} {s : State} (wf : s.mem.wf = true) : Canonical (execContextActivate site s) := by
  unfold execContextActivate
  dsimp only
  split <;> simp [wf]

theorem execUrgentSwitchEvaluate_wf {site : Nat} {s : State} (wf : s.mem.wf = true) : Canonical (execUrgentSwitchEvaluate site s) := by
  unfold execUrgentSwitchEvaluate
  dsimp only
  (repeat' split) <;> simp [wf]

theorem execUrgentSwitch_wf {site : Nat} {s : State} (wf : s.mem.wf = true) : Canonical (execUrgentSwitch site s) := by
  unfold execUrgentSwitch
  dsimp only
  (repeat' split) <;> simp [wf]

theorem execStealRequest_wf {site : Nat} {cx : Bool} {s : State} (wf : s.mem.wf = true) : Canonical (execStealRequest site cx s) := by
  unfold execStealRequest
  dsimp only
  split <;> simp [wf]

theorem execStealCrossDie_wf {site : Nat} {cx : Bool} {s : State} (wf : s.mem.wf = true) : Canonical (execStealCrossDie site cx s) := by
  unfold execStealCrossDie
  dsimp only
  split <;> simp [wf]

theorem execBudgetTrap_wf {site : Nat} {cx : Bool} {s : State} (wf : s.mem.wf = true) : Canonical (execBudgetTrap site cx s) := by
  unfold execBudgetTrap
  dsimp only
  split <;> simp [wf]

end Sys2Proof.Machine
end

section
/-! SUPPORT. The event table. -/

namespace Sys2Proof.Machine

theorem execEventTableApply_wf {part : Nat} {s : State} (wf : s.mem.wf = true) : Canonical (execEventTableApply part s) := by
  unfold execEventTableApply
  dsimp only
  split <;> simp [wf]

theorem execOverflowWalk_wf {part : Nat} {s : State} (wf : s.mem.wf = true) : Canonical (execOverflowWalk part s) := by
  unfold execOverflowWalk
  dsimp only
  (repeat' split) <;> simp [wf]

theorem execRackOpApply_wf {part : Nat} {s : State} (wf : s.mem.wf = true) : Canonical (execRackOpApply part s) := by
  unfold execRackOpApply
  dsimp only
  split <;> simp [wf]

theorem execPageWalkComplete_wf {site : Nat} {s : State} (wf : s.mem.wf = true) : Canonical (execPageWalkComplete site s) := by
  unfold execPageWalkComplete
  dsimp only
  split <;> simp [wf]

theorem execPrefetchReady_wf {site : Nat} {cx : Bool} {b : Fin 8} {s : State} (wf : s.mem.wf = true) : Canonical (execPrefetchReady site cx b s) := by
  unfold execPrefetchReady
  dsimp only
  split <;> simp [wf]

theorem execPeerUpWaitTimeout_wf {site : Nat} {cx : Bool} {s : State} (wf : s.mem.wf = true) : Canonical (execPeerUpWaitTimeout site cx s) := by
  unfold execPeerUpWaitTimeout
  dsimp only
  split <;> simp [wf]

theorem execReplicaWrite_wf {part : Nat} {s : State} (wf : s.mem.wf = true) : Canonical (execReplicaWrite part s) := by
  unfold execReplicaWrite
  dsimp only
  (repeat' split) <;> simp [wf]

theorem execHolderAck_wf {part die : Nat} {s : State} (wf : s.mem.wf = true) : Canonical (execHolderAck part die s) := by
  unfold execHolderAck
  dsimp only
  (repeat' split) <;> simp [wf]

end Sys2Proof.Machine
end

section
/-! SUPPORT. Agents of pawns. -/

namespace Sys2Proof.Machine

@[simp] theorem State.stepContend_mem (s : State) (p : Pawn) : (s.stepContend p).2.mem = s.mem := by
  unfold State.stepContend
  dsimp only
  (repeat' split) <;> simp

@[simp] theorem State.copyGoes_wf {s : State} {k : Fin 64} (wf : s.mem.wf = true) : (s.copyGoes k).mem.wf = true := by
  unfold State.copyGoes
  dsimp only
  (repeat' split) <;> simp [wf]

@[simp] theorem State.copyTurn_wf {s : State} {k : Fin 64} (wf : s.mem.wf = true) : (s.copyTurn k).mem.wf = true := by
  unfold State.copyTurn
  dsimp only
  split
  · simp [wf]
  split <;> next e => simp [mem_of_result e (State.xlateMore_mem ..), wf]

@[simp] theorem State.stepPawn_wf {s : State} {k : Fin 64} (wf : s.mem.wf = true) : (s.stepPawn k).mem.wf = true := by
  unfold State.stepPawn
  dsimp only
  (repeat' split) <;> simp [wf]

theorem execPawnStep_wf {site : Nat} {slot : Fin 64} {s : State} (wf : s.mem.wf = true) : Canonical (execPawnStep site slot s) := by
  unfold execPawnStep
  dsimp only
  split <;> simp [wf]

theorem execMgoStep_wf {site : Nat} {slot : Fin 64} {s : State} (wf : s.mem.wf = true) : Canonical (execMgoStep site slot s) := by
  unfold execMgoStep
  dsimp only
  split <;> simp [wf]

theorem execPawnEnd_wf {site : Nat} {slot : Fin 64} {s : State} (wf : s.mem.wf = true) : Canonical (execPawnEnd site slot s) := by
  unfold execPawnEnd
  dsimp only
  split <;> simp [wf]

end Sys2Proof.Machine
end

section
/-! SUPPORT. Compare and predicate words. -/

namespace Sys2Proof.Machine

@[simp] theorem State.cPred_wf {s : State} {pd : Fin 8} {v : Bool} (wf : s.mem.wf = true) : (s.cPred pd v).mem.wf = true := by
  unfold State.cPred
  simp [wf]

@[simp] theorem State.cmpWord_wf {s : State} {o : Op.Cmp} {f : Word → Word → Bool} (wf : s.mem.wf = true) : (s.cmpWord o f).mem.wf = true := by
  unfold State.cmpWord
  (repeat' split) <;> simp_all

@[simp] theorem State.cmpiWord_wf {s : State} {o : Op.CmpImm} {f : Word → Word → Bool} (wf : s.mem.wf = true) : (s.cmpiWord o f).mem.wf = true := by
  unfold State.cmpiWord
  (repeat' split) <;> simp_all

@[simp] theorem State.predWord_wf {s : State} {o : Op.Pred} {f : Bool → Bool → Bool} (wf : s.mem.wf = true) : (s.predWord o f).mem.wf = true :=
  State.guarded_wf wf fun _ h => State.cPred_wf h

end Sys2Proof.Machine
end

section
/-! SUPPORT. Stream words. -/

namespace Sys2Proof.Machine

@[simp] theorem State.startStrm_wf {s : State} {st : Strm} {o : Op.OneSrc} (wf : s.mem.wf = true) : (s.startStrm st o).mem.wf = true := by
  refine State.guarded_wf wf fun t h => ?_
  dsimp only
  (repeat' split) <;> simp [h]

theorem execSdrain_wf {o : Op.Drain} {s : State} (wf : s.mem.wf = true) : Canonical (execSdrain o s) :=
  canonical_next (State.guarded_wf wf fun _ h => by (repeat' split) <;> simp [h])

theorem execQbind_wf {o : Op.Bind} {s : State} (wf : s.mem.wf = true) : Canonical (execQbind o s) :=
  canonical_next (State.guarded_wf wf fun _ h => by dsimp only; (repeat' split) <;> simp [h])

@[simp] theorem State.serveTok_mem (s : State) (tok : Fin 8) : (s.serveTok tok).mem = s.mem := by
  unfold State.serveTok
  split
  · next t _ =>
    cases e : s.serveQueue tok t with
    | none => rfl
    | some u => exact State.serveQueue_mem _ _ _ e
  · rfl

@[simp] theorem State.queueWord_wf {s : State} {q : Fin 16} {pop : Bool} {tok : Fin 8} {owned : List (Fin 32)} {op : TokOp} (wf : s.mem.wf = true) :
    (s.queueWord q pop tok owned op).mem.wf = true := by
  unfold State.queueWord
  (repeat' split) <;> simp [wf]

theorem execTpost_wf {o : Op.Token} {s : State} (wf : s.mem.wf = true) : Canonical (execTpost o s) :=
  canonical_next (State.guarded_wf wf fun _ h => by (repeat' split) <;> simp [h])

theorem execTawait_wf {o : Op.Token} {s : State} (wf : s.mem.wf = true) : Canonical (execTawait o s) :=
  canonical_next (State.guarded_wf wf fun _ h => by (repeat' split) <;> simp [h])

end Sys2Proof.Machine
end

section
/-! SUPPORT. Vector words. -/

namespace Sys2Proof.Machine

@[simp] theorem State.vWord_wf {s : State} {sync : Fin 8} {f : State → State} (wf : s.mem.wf = true)
    (keeps_f : ∀ t, t.mem.wf = true → (f t).mem.wf = true) :
    (s.vWord sync f).mem.wf = true := by
  unfold State.vWord
  (repeat' split) <;> simp_all

@[simp] theorem State.vFly_wf {s : State} {p : VPend} (wf : s.mem.wf = true) : (s.vFly p).mem.wf = true := by
  unfold State.vFly
  simp [wf]

@[simp] theorem State.vLand_mem (s : State) (p : VPend) : (s.vLand p).mem = s.mem := rfl

@[simp] theorem State.vRetire_mem (s : State) (p : VPend) : (s.vRetire p).mem = s.mem := rfl

theorem execVectorResultPush_wf {site : Nat} {cx : Bool} {s : State} (wf : s.mem.wf = true) : Canonical (execVectorResultPush site cx s) := by
  unfold execVectorResultPush
  dsimp only
  (repeat' split) <;> simp [wf]

@[simp] theorem State.vServe_wf {s : State} {w : VForm} {f : List QEntry → State → State} (wf : s.mem.wf = true)
    (keeps_f : ∀ a0 t, t.mem.wf = true → (f a0 t).mem.wf = true) :
    (s.vServe w f).mem.wf = true := by
  unfold State.vServe
  (repeat' split) <;> simp [wf, keeps_f]

@[simp] theorem State.vPush_wf {s : State} {w : VForm} {m : BitVec 256} {f : VShape → BitVec 256 → List QEntry → QEntry × BitVec 8}
    (wf : s.mem.wf = true) :
    (s.vPush w m f).mem.wf = true :=
  State.vWord_wf wf fun _ h => State.vServe_wf h fun _ _ h => State.vFly_wf h

@[simp] theorem State.vReg_wf {s : State} {w : VForm} {f : VShape → List QEntry → Dest × BitVec 256 × BitVec 8} (wf : s.mem.wf = true) :
    (s.vReg w f).mem.wf = true :=
  State.vWord_wf wf fun _ h => State.vServe_wf h fun _ _ h => State.vFly_wf (by simp [h])

@[simp] theorem State.vfp_wf {s : State} {o : Op.Vv} {lat : Nat} {f : VShape → Nat → Nat → Nat × BitVec 8} (wf : s.mem.wf = true) :
    (s.vfp o lat f).mem.wf = true := by
  unfold State.vfp
  simp [wf]

@[simp] theorem State.vun_wf {s : State} {o : Op.Vu} {accept : Nat → Bool} {lat : Nat} {f : VShape → Nat → Nat × BitVec 8} (wf : s.mem.wf = true) :
    (s.vun o accept lat f).mem.wf = true :=
  State.vPush_wf wf

@[simp] theorem State.vfs_wf {s : State} {o : Op.Vs} {lat : Nat} {f : VShape → Nat → Nat → Nat × BitVec 8} (wf : s.mem.wf = true) :
    (s.vfs o lat f).mem.wf = true := by
  unfold State.vfs
  simp [wf]

@[simp] theorem State.vint_wf {s : State} {o : Op.Vv} {lat : Nat} {f : VShape → Nat → Nat → Nat × BitVec 8} (wf : s.mem.wf = true) :
    (s.vint o lat f).mem.wf = true := by
  unfold State.vint
  simp [wf]

@[simp] theorem State.vcmp_wf {s : State} {o : Op.Vc} {c : VCond} (wf : s.mem.wf = true) : (s.vcmp o c).mem.wf = true := by
  unfold State.vcmp
  simp [wf]

@[simp] theorem State.vSet_wf {s : State} {sync : Fin 8} {dst : Dest} {v : BitVec 256} (wf : s.mem.wf = true) :
    (s.vSet sync dst v).mem.wf = true := by
  unfold State.vSet
  simp [wf]

theorem execVsetsh_wf {o : Op.Vset} {s : State} (wf : s.mem.wf = true) : Canonical (execVsetsh o s) :=
  canonical_next (State.vWord_wf wf fun _ h => by dsimp only; (repeat' split) <;> simp [h])

theorem execVsetl_wf {o : Op.Vset} {s : State} (wf : s.mem.wf = true) : Canonical (execVsetl o s) :=
  canonical_next (State.vWord_wf wf fun _ h => by dsimp only; (repeat' split) <;> simp [h])

@[simp] theorem State.vmask_wf {s : State} {o : Op.Vm} {f : BitVec 256 → BitVec 256 → BitVec 256} (wf : s.mem.wf = true) :
    (s.vmask o f).mem.wf = true := by
  unfold State.vmask
  (repeat' split) <;> simp_all

end Sys2Proof.Machine
end

section
/-! SUPPORT. Vector words that move lanes and masks. -/

namespace Sys2Proof.Machine

@[simp] theorem State.vpacked_wf {s : State} {o : Op.Vv} {high : Bool} (wf : s.mem.wf = true) : (s.vpacked o high).mem.wf = true := by
  unfold State.vpacked
  simp [wf]

@[simp] theorem State.vreduce_wf {s : State} {o : Op.Vu} {f : VShape → List Nat → Nat × BitVec 8} (wf : s.mem.wf = true) :
    (s.vreduce o f).mem.wf = true := by
  unfold State.vreduce
  simp [wf]

theorem execVLoop_wf {o : Op.Loop} {s : State} (wf : s.mem.wf = true) : Canonical (execVLoop o s) :=
  canonical_next (State.vWord_wf wf fun _ h => by (repeat' split) <;> simp [h])

theorem execVSync_wf {o : Op.Sync} {s : State} (wf : s.mem.wf = true) : Canonical (execVSync o s) :=
  canonical_next (State.vWord_wf wf fun _ h => by dsimp only; (repeat' split) <;> simp [h])

theorem execVFence_wf {o : Op.EFence} {s : State} (wf : s.mem.wf = true) : Canonical (execVFence o s) :=
  canonical_next (State.vWord_wf wf fun _ h => State.fenceWord_wf h fun _ h => State.fenceDone_wf h)

theorem execVEnd_wf {o : Op.EBare} {s : State} (wf : s.mem.wf = true) : Canonical (execVEnd o s) :=
  canonical_next (State.vWord_wf wf fun _ h => by (repeat' split) <;> simp [h])

end Sys2Proof.Machine
end

section
/-! SUPPORT. Words of the scratchpad. -/

namespace Sys2Proof.Machine

@[simp] theorem State.spWord_wf {s : State} {w : VForm} {bad : List QEntry → Bool} {keys : List QEntry → List Nat} {f : List QEntry → State → State}
    (wf : s.mem.wf = true) (keeps_f : ∀ a0 t, t.mem.wf = true → (f a0 t).mem.wf = true) :
    (s.spWord w bad keys f).mem.wf = true := by
  refine State.vWord_wf wf fun t h => State.vServe_wf h fun es u hu => ?_
  split
  · simp [h]
  · split
    · simp [h]
    · exact keeps_f _ _ hu

theorem execSpld_wf {o : Op.Spls} {s : State} (wf : s.mem.wf = true) : Canonical (execSpld o s) := by
  unfold execSpld
  (repeat' split) <;> simp_all

theorem execSpst_wf {o : Op.Spls} {s : State} (wf : s.mem.wf = true) : Canonical (execSpst o s) := by
  unfold execSpst
  (repeat' split) <;> simp_all

@[simp] theorem State.recWord_wf {s : State} {sync : Fin 8} {q : Fin 16} {lat : Nat} {down : Bool}
    {cells : State → SubRec → List (Nat × Half) × BitVec 8} (wf : s.mem.wf = true) :
    (s.recWord sync q lat down cells).mem.wf = true := by
  unfold State.recWord
  (repeat' split) <;> simp_all

end Sys2Proof.Machine
end

section
/-! SUPPORT. Trap words. -/

namespace Sys2Proof.Machine

@[simp] theorem State.takeTrap_wf {s : State} {t : PendTrap} (wf : s.mem.wf = true) : (s.takeTrap t).mem.wf = true := by
  unfold State.takeTrap
  split <;> simp [wf]

theorem execTrapEntry_wf {site : Nat} {cx : Bool} {s : State} (wf : s.mem.wf = true) : Canonical (execTrapEntry site cx s) := by
  unfold execTrapEntry
  dsimp only
  split <;> simp [wf]

theorem execDeadlockDetect_wf {site : Nat} {cx : Bool} {s : State} (wf : s.mem.wf = true) : Canonical (execDeadlockDetect site cx s) := by
  unfold execDeadlockDetect
  dsimp only
  split <;> simp [wf]

theorem execHandlerDeadlock_wf {site : Nat} {cx : Bool} {s : State} (wf : s.mem.wf = true) : Canonical (execHandlerDeadlock site cx s) := by
  unfold execHandlerDeadlock
  dsimp only
  split <;> simp [wf]

end Sys2Proof.Machine
end

section
/-! SUPPORT. Words on turns, events and racks. -/

namespace Sys2Proof.Machine

@[simp] theorem State.recordWord_wf {s : State} {tok : Fin 8} {a : Word} {align : Nat} {op : TokOp} (wf : s.mem.wf = true) :
    (s.recordWord tok a align op).mem.wf = true := by
  unfold State.recordWord
  (repeat' split) <;> simp [wf]

theorem execSpawn_wf {o : Op.TokSrc} {s : State} (wf : s.mem.wf = true) : Canonical (execSpawn o s) :=
  canonical_next (State.guarded_wf wf fun _ h => by dsimp only; (repeat' split) <;> simp [h])

theorem execLaunch_wf {o : Op.TokSrc} {s : State} (wf : s.mem.wf = true) : Canonical (execLaunch o s) :=
  canonical_next (State.guarded_wf wf fun _ h => by dsimp only; (repeat' split) <;> simp [h])

theorem execCEnd_wf {o : Op.Bare} {s : State} (wf : s.mem.wf = true) : Canonical (execCEnd o s) :=
  canonical_next (State.guarded_wf wf fun _ h => by (repeat' split) <;> simp [h])

@[simp] theorem State.stillEwait_wf {s : State} {name : Nat} {u : Turn} (wf : s.mem.wf = true) : (s.stillEwait name u).mem.wf = true := by
  unfold State.stillEwait
  split <;> simp [wf]

@[simp] theorem State.registerEwait_wf {s : State} {name : Nat} {e : EvEnt} {rec_ : Word} (wf : s.mem.wf = true) :
    (s.registerEwait name e rec_).mem.wf = true := by
  unfold State.registerEwait
  extract_lets act u
  have hu : u.mem.wf = true := by simp [u, wf]
  split
  · simp [hu]
  · split
    · simp [hu]
    · next e => simp [State.createUnder_wf e hu]
    · next e =>
      have h := State.createUnder_wf e hu
      split
      · simp [h]
      · next e =>
        have h := State.writeVa_wf e h
        extract_lets v w
        have hw : w.mem.wf = true := by unfold w; split <;> simp [v, h]
        simp [hw]

theorem execEwait_wf {o : Op.TwoSrc} {s : State} (wf : s.mem.wf = true) : Canonical (execEwait o s) :=
  canonical_next (State.guarded_wf wf fun _ h => by dsimp only; (repeat' split) <;> simp [h])

@[simp] theorem State.tableWord_wf {s : State} {tok : Fin 8} {owned : List (Fin 32)} {name : Nat} {kind : EvKind} {op : TokOp} (wf : s.mem.wf = true)
    :
    (s.tableWord tok owned name kind op).mem.wf = true := by
  unfold State.tableWord
  split <;> simp [wf]

theorem execEpost_wf {o : Op.TokSrc} {s : State} (wf : s.mem.wf = true) : Canonical (execEpost o s) :=
  canonical_next (State.guarded_wf wf fun _ h => by dsimp only; (repeat' split) <;> simp [h])

@[simp] theorem State.replayWord_wf {s : State} {tok : Fin 8} {owned : List (Fin 32)} {lat kind : Nat} {op : TokOp} (wf : s.mem.wf = true) :
    (s.replayWord tok owned lat kind op).mem.wf = true := by
  unfold State.replayWord
  split
  · simpa using wf
  · split
    · simpa using wf
    · next e => simp [State.replayTake_mem _ _ _ _ e, wf]

theorem execEtest_wf {o : Op.TokRes} {s : State} (wf : s.mem.wf = true) : Canonical (execEtest o s) :=
  canonical_next (State.guarded_wf wf fun _ h => by split <;> simp [h])

@[simp] theorem State.seteWord_wf {s : State} {o : Op.TokRes} {fn : Nat} (wf : s.mem.wf = true) : (s.seteWord o fn).mem.wf = true := by
  unfold State.seteWord
  (repeat' split) <;> simp_all

theorem execSetn_wf {o : Op.TokRes} {s : State} (wf : s.mem.wf = true) : Canonical (execSetn o s) := by
  unfold execSetn
  split <;> simp [wf]

theorem execCancel_wf {o : Op.Cancel} {s : State} (wf : s.mem.wf = true) : Canonical (execCancel o s) :=
  canonical_next (State.guarded_wf wf fun _ h => by split <;> simp [h])

end Sys2Proof.Machine
end

section
/-! SUPPORT. Upkeep: replicas, epochs and scrubbing. -/

namespace Sys2Proof.Machine

@[simp] theorem State.markQueues_mem (s : State) (word : Nat) : (s.markQueues word).mem = s.mem :=
  State.foldl_mem _ (fun _ _ => State.putBox_mem ..) _

@[simp] theorem State.noteUncorrectable_wf {s : State} {word : Nat} (wf : s.mem.wf = true) : (s.noteUncorrectable word).mem.wf = true := by
  unfold State.noteUncorrectable
  dsimp only
  (repeat' split) <;> simp [wf]

theorem execScrubVisit_wf {pa : Nat} {r : ScrubResult} {s : State} (wf : s.mem.wf = true) : Canonical (execScrubVisit pa r s) := by
  unfold execScrubVisit
  split <;> simp [wf]

@[simp] theorem State.pushPlain_mem (s : State) (type payload : Nat) : (s.pushPlain type payload).mem = s.mem := rfl

@[simp] theorem State.drainOne_wf {s : State} {r : TraceRec} (wf : s.mem.wf = true) : (s.drainOne r).mem.wf = true := by
  unfold State.drainOne
  dsimp only
  split
  · rwa [State.onCore_mem, State.focusCx_mem]
  · next e => rw [State.onCtx_mem]; exact State.writeWords_wf e (by rwa [State.focusCx_mem])

@[simp] theorem State.drain_wf {s : State} (wf : s.mem.wf = true) : (s.drain).mem.wf = true := by
  unfold State.drain
  dsimp only
  (repeat' split) <;> simp_all

theorem execTraceDrain_wf {site : Nat} {s : State} (wf : s.mem.wf = true) : Canonical (execTraceDrain site s) := by
  unfold execTraceDrain
  dsimp only
  split <;> simp [wf]

end Sys2Proof.Machine
end

section
/-! SUPPORT. Accesses of cores on the networks. -/

namespace Sys2Proof.Machine

@[simp] theorem State.noteOffer_mem (s : State) (w : NetWant) (port : Nat) : (s.noteOffer w port).mem = s.mem := by
  unfold State.noteOffer
  dsimp only
  (repeat' split) <;> simp

@[simp] theorem State.keepPlace_mem (s : State) (w : NetWant) : (s.keepPlace w).mem = s.mem := by
  unfold State.keepPlace
  (repeat' split) <;> simp

@[simp] theorem State.noted_mem (s : State) (w : NetWant) : (s.noted w).mem = s.mem := by
  unfold State.noted
  simp

@[simp] theorem State.netOffer_mem (s : State) (w : NetWant) : (s.netOffer w).mem = s.mem := by
  unfold State.netOffer
  dsimp only
  (repeat' split) <;> simp

@[simp] theorem State.offerNext_mem (s : State) : (s.offerNext).mem = s.mem := by
  unfold State.offerNext
  split <;> simp

@[simp] theorem State.netDid_mem (s : State) (tag : Nat) : (s.netDid tag).mem = s.mem := rfl

@[simp] theorem State.serveRead_mem (s : State) (a : NetAcc) : (s.serveRead a).mem = s.mem := rfl

@[simp] theorem State.serveT_wf {s : State} {e : TEntry} (wf : s.mem.wf = true) : (s.serveT e).mem.wf = true := by
  unfold State.serveT
  extract_lets
  split
  · split
    · next e => exact State.makeT_wf e wf
    · exact wf
  · exact wf

@[simp] theorem State.serveLine_wf {s : State} {a : NetAcc} {k : Fin 64} (wf : s.mem.wf = true) : (s.serveLine a k).mem.wf = true := by
  unfold State.serveLine
  dsimp only
  (repeat' split) <;> simp [wf]

@[simp] theorem State.serveWrite_wf {s : State} {a : NetAcc} (wf : s.mem.wf = true) : (s.serveWrite a).mem.wf = true := by
  unfold State.serveWrite
  dsimp only
  (repeat' split) <;> simp [wf]

@[simp] theorem State.serveAcc_wf {s : State} {a : NetAcc} (wf : s.mem.wf = true) : (s.serveAcc a).mem.wf = true := by
  unfold State.serveAcc
  split
  · exact State.serveWrite_wf wf
  · simpa using wf

@[simp] theorem State.serveHome_wf {s : State} (wf : s.mem.wf = true) : (s.serveHome).mem.wf = true := by
  unfold State.serveHome
  dsimp only
  (repeat' split) <;> simp [wf]

@[simp] theorem State.takeEnded_mem (s : State) : (s.takeEnded).mem = s.mem := by
  unfold State.takeEnded
  split <;> simp

@[simp] theorem State.takeAnswer_wf {s : State} (wf : s.mem.wf = true) : (s.takeAnswer).mem.wf = true := by
  unfold State.takeAnswer
  (repeat' split) <;> simp [wf]

end Sys2Proof.Machine
end

section
/-! SUPPORT. One step of the machine keeps memory canonical (R117 to R119, log 9). -/

namespace Sys2Proof.Machine

/-- Every instruction and every event keeps memory canonical, by the lemma of its arm. -/
theorem exec_wf {i : Instr} {s : State} (wf : s.mem.wf = true) : Canonical (exec i s) := by
  cases i with
  | add | sub | and | or | xor | shl | shr | sra | mul | mulh | mulhu | min | max => exact canonical_next (State.alu_wf wf)
  | div | divu | rem | remu => exact canonical_next (State.divide_wf wf)
  | clz | popc => exact canonical_next (State.aluUn_wf wf)
  | addi | andi | ori | xori => exact canonical_next (State.immWord_wf wf)
  | shli | shri | srai => exact canonical_next (State.shiftWord_wf wf)
  | lui | addpc | pfrom | pto | sel | pbrx | br | qget | qgetp | qput | join | budget | cpoint | pwait | ptest | pdetach | pprio | pstat | trap
  | tlrw => exact canonical_next (State.guarded_wf wf fun _ h => by simp [h])
  | cmpEq | cmpNe | cmpLt | cmpLtu | cmpGe | cmpGeu => exact canonical_next (State.cmpWord_wf wf)
  | cmpiEq | cmpiNe | cmpiLt | cmpiLtu => exact canonical_next (State.cmpiWord_wf wf)
  | pand | por | pxor | pandn => exact canonical_next (State.predWord_wf wf)
  | ldb | ldh | ldw | ldd | ldbu | ldhu | ldwu => exact canonical_next (State.loadWord_wf wf)
  | stb | sth | stw | std => exact canonical_next (State.storeWord_wf wf)
  | tstart | mstart | vstart => exact canonical_next (State.startStrm_wf wf)
  | allred | bcast | allgath | redscat | barrier => exact canonical_next (State.collWord_wf wf)
  | seta | sets | setnt | geta => exact canonical_next (State.seteWord_wf wf)
  | gath | scat => exact canonical_next (State.indexedCopy_wf wf)
  | rld | rst => exact canonical_next (State.remoteWord_wf wf)
  | saccAdd | saccMin | saccMax | saccSwap => exact canonical_next (State.saccWord_wf wf)
  | adda | tSync => exact canonical_next (State.tWord_wf wf fun _ h => by simp [h])
  | nsetLevel | nsetIns => exact canonical_next (State.mWord_wf wf fun _ h => by simp [h])
  | vadd | vsub | vmul | vmin | vmax => exact canonical_next (State.vfp_wf wf)
  | vfma | vfmas | vcvt | vbcast | vdup | vsmovToLane | columnSample | drawceilWrite | ringMeasureStart | ringMeasureDone | myincChipWrite
  | linkPortRetrain | flitSetup | flitBypass | waitTokenSettle | shootdownAck | replicaRead | tWordCommit => exact canonical_next (by simp [wf])
  | vabs | vneg | vrcp | vrsq | vexp2 | vlog2 | vmov => exact canonical_next (State.vun_wf wf)
  | viadd | visub | vimul | vand | vor | vxor | vshl | vshr | vsra | vimin | vimax => exact canonical_next (State.vint_wf wf)
  | vcmpEq | vcmpNe | vcmpLt | vcmpLe | vcmpGt | vcmpGe => exact canonical_next (State.vcmp_wf wf)
  | vsel | viaddi | vbcasti | vperm | vrot | vpop | spcvt => exact canonical_next (State.vPush_wf wf)
  | vadds | vsubs | vmuls | vmins | vmaxs => exact canonical_next (State.vfs_wf wf)
  | vpack | vunpk => exact canonical_next (State.vpacked_wf wf)
  | vrsum | vrmax | vrmin => exact canonical_next (State.vreduce_wf wf)
  | mand | mor | mxor => exact canonical_next (State.vmask_wf wf)
  | mnot => exact canonical_next (State.vWord_wf wf fun _ h => by simp [h])
  | vsmovToS => exact canonical_next (State.vReg_wf wf)
  | spup | spdn => exact canonical_next (State.recWord_wf wf)
  | wait => exact execWait_wf wf
  | pbr => exact execPbr_wf wf
  | call => exact execCall_wf wf
  | loopc => exact execLoopc_wf wf
  | sdrain => exact execSdrain_wf wf
  | qbind => exact execQbind_wf wf
  | tpost => exact execTpost_wf wf
  | tawait => exact execTawait_wf wf
  | spawn => exact execSpawn_wf wf
  | cEnd => exact execCEnd_wf wf
  | ewait => exact execEwait_wf wf
  | epost => exact execEpost_wf wf
  | etest => exact execEtest_wf wf
  | launch => exact execLaunch_wf wf
  | cancel => exact execCancel_wf wf
  | pcancel => exact execPcancel_wf wf
  | rkopenw => exact execRkopenw_wf wf
  | rkcommit => exact execRkcommit_wf wf
  | rkopenr => exact execRkopenr_wf wf
  | rkclose => exact execRkclose_wf wf
  | fence => exact execFence_wf wf
  | crr => exact execCrr_wf wf
  | crw => exact execCrw_wf wf
  | eret => exact execEret_wf wf
  | bkpt => exact execBkpt_wf wf
  | time => exact execTime_wf wf
  | setn => exact execSetn_wf wf
  | ldq => exact execLdq_wf wf
  | stq => exact execStq_wf wf
  | pref => exact execPref_wf wf
  | copy => exact execCopy_wf wf
  | scas => exact execScas_wf wf
  | addar => exact execAddar_wf wf
  | tLoop => exact execTLoop_wf wf
  | send => exact execSend_wf wf
  | recv => exact execRecv_wf wf
  | tFence => exact execTFence_wf wf
  | tEnd => exact execTEnd_wf wf
  | tWaith => exact execTWaith_wf wf
  | nsetFmt => exact execNsetFmt_wf wf
  | mgo => exact execMgo_wf wf
  | mzero => exact execMzero_wf wf
  | acc2s => exact execAcc2s_wf wf
  | s2acc => exact execS2acc_wf wf
  | accmul => exact execAccmul_wf wf
  | mLoop => exact execMLoop_wf wf
  | mSync => exact execMSync_wf wf
  | mEnd => exact execMEnd_wf wf
  | mFence => exact execMFence_wf wf
  | mWaith => exact execMWaith_wf wf
  | vsetsh => exact execVsetsh_wf wf
  | vsetl => exact execVsetl_wf wf
  | spld => exact execSpld_wf wf
  | spst => exact execSpst_wf wf
  | vLoop => exact execVLoop_wf wf
  | vSync => exact execVSync_wf wf
  | vEnd => exact execVEnd_wf wf
  | vFence => exact execVFence_wf wf
  | powerUpBoot => exact execPowerUpBoot_wf wf
  | bootLinkTimeout => exact execBootLinkTimeout_wf wf
  | tftpBlockReceive => exact execTftpBlockReceive_wf wf
  | tftpBlockRetry => exact execTftpBlockRetry_wf wf
  | bootRetry => exact execBootRetry_wf wf
  | droopTrigger => exact execDroopTrigger_wf wf
  | hbmStackSample => exact execHbmStackSample_wf wf
  | hotStackReport => exact execHotStackReport_wf wf
  | drawgGrantWrite => exact execDrawgGrantWrite_wf wf
  | mgmtRegisterWrite => exact execMgmtRegisterWrite_wf wf
  | sealOpen => exact execSealOpen_wf wf
  | sealClose => exact execSealClose_wf wf
  | repairRequest => exact execRepairRequest_wf wf
  | coreSiteRepair => exact execCoreSiteRepair_wf wf
  | coreSiteRetire => exact execCoreSiteRetire_wf wf
  | hbmRowRepair => exact execHbmRowRepair_wf wf
  | hbmRowRepairDone => exact execHbmRowRepairDone_wf wf
  | hbmChannelRetire => exact execHbmChannelRetire_wf wf
  | deepRowSpare => exact execDeepRowSpare_wf wf
  | deepBankRetire => exact execDeepBankRetire_wf wf
  | linkLaneSpare _ lane => exact execLinkLaneSpare_wf lane wf
  | linkPortOut => exact execLinkPortOut_wf wf
  | meshLinkReroute => exact execMeshLinkReroute_wf wf
  | serviceCoreTakeover => exact execServiceCoreTakeover_wf wf
  | firmwareSwitch => exact execFirmwareSwitch_wf wf
  | thermalTrip => exact execThermalTrip_wf wf
  | powerTrip => exact execPowerTrip_wf wf
  | serviceCoreHostWrite => exact execServiceCoreHostWrite_wf wf
  | ethernetFrameSend => exact execEthernetFrameSend_wf wf
  | packetInject => exact execPacketInject_wf wf
  | latchedHop => exact execLatchedHop_wf wf
  | bridgeRetryExhausted => exact execBridgeRetryExhausted_wf wf
  | linkFlitReplay => exact execLinkFlitReplay_wf wf
  | linkTransactionSend => exact execLinkTransactionSend_wf wf
  | linkAckSend => exact execLinkAckSend_wf wf
  | linkAckReceive => exact execLinkAckReceive_wf wf
  | linkResend => exact execLinkResend_wf wf
  | linkRetryExhausted => exact execLinkRetryExhausted_wf wf
  | peerRequestReceive => exact execPeerRequestReceive_wf wf
  | incarnationAnnounce => exact execIncarnationAnnounce_wf wf
  | announcementReceive => exact execAnnouncementReceive_wf wf
  | collectiveExchangeStep => exact execCollectiveExchangeStep_wf wf
  | vfFunctionLevelReset => exact execVfFunctionLevelReset_wf wf
  | partitionCreate => exact execPartitionCreate_wf wf
  | partitionDestroy => exact execPartitionDestroy_wf wf
  | partitionMapChange => exact execPartitionMapChange_wf wf
  | submitWrite => exact execSubmitWrite_wf wf
  | submissionCopy => exact execSubmissionCopy_wf wf
  | attestationRequest => exact execAttestationRequest_wf wf
  | keyCounterConfirm => exact execKeyCounterConfirm_wf wf
  | jobLoad => exact execJobLoad_wf wf
  | importRegister => exact execImportRegister_wf wf
  | activityRelease => exact execActivityRelease_wf wf
  | selectorSizeRead => exact execSelectorSizeRead_wf wf
  | deadlineMiss => exact execDeadlineMiss_wf wf
  | counterDecrement => exact execCounterDecrement_wf wf
  | turnRetire => exact execTurnRetire_wf wf
  | cancelLinearise => exact execCancelLinearise_wf wf
  | cancelBroadcast => exact execCancelBroadcast_wf wf
  | turnDispatch => exact execTurnDispatch_wf wf
  | spillRefill => exact execSpillRefill_wf wf
  | turnDisplace => exact execTurnDisplace_wf wf
  | contextActivate => exact execContextActivate_wf wf
  | urgentSwitchEvaluate => exact execUrgentSwitchEvaluate_wf wf
  | urgentSwitch => exact execUrgentSwitch_wf wf
  | stealRequest => exact execStealRequest_wf wf
  | stealCrossDie => exact execStealCrossDie_wf wf
  | budgetTrap => exact execBudgetTrap_wf wf
  | eventTableApply => exact execEventTableApply_wf wf
  | overflowWalk => exact execOverflowWalk_wf wf
  | rackOpApply => exact execRackOpApply_wf wf
  | pageWalkComplete => exact execPageWalkComplete_wf wf
  | prefetchReady => exact execPrefetchReady_wf wf
  | invctlWrite => exact execInvctlWrite_wf wf
  | ptrootWrite => exact execPtrootWrite_wf wf
  | replicaWrite => exact execReplicaWrite_wf wf
  | holderAck => exact execHolderAck_wf wf
  | fenceRetire => exact execFenceRetire_wf wf
  | resultLand => exact execResultLand_wf wf
  | pawnStep => exact execPawnStep_wf wf
  | pawnEnd => exact execPawnEnd_wf wf
  | mgoStep => exact execMgoStep_wf wf
  | drawSlotGrant => exact execDrawSlotGrant_wf wf
  | lateFault => exact execLateFault_wf wf
  | vectorResultPush => exact execVectorResultPush_wf wf
  | trapEntry => exact execTrapEntry_wf wf
  | deadlockDetect => exact execDeadlockDetect_wf wf
  | handlerDeadlock => exact execHandlerDeadlock_wf wf
  | partitionSwap => exact execPartitionSwap_wf wf
  | remapResponseLand => exact execRemapResponseLand_wf wf
  | timeRegisterStage => exact execTimeRegisterStage_wf wf
  | timeEpoch => exact execTimeEpoch_wf wf
  | scrubVisit => exact execScrubVisit_wf wf
  | dbgHalt => exact execDbgHalt_wf wf
  | debugHaltLand => exact execDebugHaltLand_wf wf
  | dbgResume => exact execDbgResume_wf wf
  | dbgStep => exact execDbgStep_wf wf
  | dbgRead => exact execDbgRead_wf wf
  | dbgWrite => exact execDbgWrite_wf wf
  | dbgDrop => exact execDbgDrop_wf wf
  | dbgBadcmd => exact execDbgBadcmd_wf wf
  | breakpointFire => exact execBreakpointFire_wf wf
  | traceDrain => exact execTraceDrain_wf wf
  | powerFail => exact execPowerFail_wf wf
  | peerUpWaitTimeout => exact execPeerUpWaitTimeout_wf wf
  | dhcpv6ReplyReceive => exact execDhcpv6ReplyReceive_wf wf
  | submissionWindowWrite => exact execSubmissionWindowWrite_wf wf
  | sitesJoinPartition => exact execSitesJoinPartition_wf wf
  | clusterPowerGate => exact execClusterPowerGate_wf wf
  | clusterUngate => exact execClusterUngate_wf wf
  | bankGoesDrowsy => exact execBankGoesDrowsy_wf wf

/-- Every agent that is due keeps memory canonical. -/
theorem Due.run_wf {d : Due} {s : State} (wf : s.mem.wf = true) : Canonical (d.run s) := by
  cases d with
  | resultLand => exact execResultLand_wf wf
  | vectorPush => exact execVectorResultPush_wf wf
  | tCommit | token | translate | netOffer | shootAck | serviceLine | homeServe | peerAnswer | netEnded | netAnswered | linkSend | bypass
  | setup | bridgeResend => exact canonical_next (by simp [wf])
  | prefetch => exact execPrefetchReady_wf wf
  | upTimeout => exact execPeerUpWaitTimeout_wf wf
  | breakpoint => exact execBreakpointFire_wf wf
  | deadlock => exact execDeadlockDetect_wf wf
  | handlerDeadlock => exact execHandlerDeadlock_wf wf
  | budget => exact execBudgetTrap_wf wf
  | trapEntry => exact execTrapEntry_wf wf
  | haltLand => exact execDebugHaltLand_wf wf
  | turnRetire => exact execTurnRetire_wf wf
  | stealNear => exact execStealRequest_wf wf
  | stealFar => exact execStealCrossDie_wf wf
  | pageWalk => exact execPageWalkComplete_wf wf
  | mgoStep => exact execMgoStep_wf wf
  | pawnEnd => exact execPawnEnd_wf wf
  | pawnStep => exact execPawnStep_wf wf
  | activate => exact execContextActivate_wf wf
  | urgentEval => exact execUrgentSwitchEvaluate_wf wf
  | urgentSwitch => exact execUrgentSwitch_wf wf
  | remapLand => exact execRemapResponseLand_wf wf
  | traceDrain => exact execTraceDrain_wf wf
  | eventApply => exact execEventTableApply_wf wf
  | overflowWalk => exact execOverflowWalk_wf wf
  | rackApply => exact execRackOpApply_wf wf
  | replicaWrite => exact execReplicaWrite_wf wf
  | holderAck => exact execHolderAck_wf wf
  | broadcast => exact execCancelBroadcast_wf wf
  | drawGrant => exact execDrawSlotGrant_wf wf
  | displace => exact execTurnDisplace_wf wf
  | dispatch => exact execTurnDispatch_wf wf
  | refill => exact execSpillRefill_wf wf
  | release => exact execActivityRelease_wf wf
  | sizeRead => exact execSelectorSizeRead_wf wf
  | miss => exact execDeadlineMiss_wf wf
  | copySubmission => exact execSubmissionCopy_wf wf
  | swap => exact execPartitionSwap_wf wf
  | epoch => exact execTimeEpoch_wf wf
  | siteRepair => exact execCoreSiteRepair_wf wf
  | siteRetire => exact execCoreSiteRetire_wf wf
  | laneSpare => exact execLinkLaneSpare_wf 0 wf
  | repairOver => exact canonical_next (by rwa [State.repaired_mem])
  | hotReport => exact execHotStackReport_wf wf
  | ackSend => exact execLinkAckSend_wf wf
  | resend => exact execLinkResend_wf wf
  | exhausted => exact execLinkRetryExhausted_wf wf
  | hop => exact execLatchedHop_wf wf
  | bridgeOut => exact execBridgeRetryExhausted_wf wf

/-- The state that a slot comes to, whether or not a word is to execute. -/
def SlotRes.state : SlotRes → State
  | .done s => s
  | .word _ s => s

theorem State.slot_wf {s : State} {st : Strm} (wf : s.mem.wf = true) : (s.slot st).state.mem.wf = true := by
  unfold State.slot
  split
  · exact wf
  split
  · exact (State.hold_mem s st).symm ▸ wf
  split <;> next e =>
    have h := (mem_of_result e (State.fetch_mem ..)).symm ▸ wf
    (repeat' split) <;> simp [SlotRes.state, h]

theorem step_wf {s : State} (wf : s.mem.wf = true) : Canonical (step s) := by
  unfold step
  split
  · exact exec_wf wf
  split
  · exact canonical_fault
  split
  · exact Due.run_wf wf
  split
  · exact canonical_next (by rwa [State.tick_mem])
  · next sl _ _ =>
    have h : ((s.takeSlot sl).slot sl.st).state.mem.wf = true := State.slot_wf (by rwa [State.takeSlot_mem])
    split
    · next e =>
      rw [e] at h
      exact canonical_next h
    · next e =>
      rw [e] at h
      exact exec_wf h

end Sys2Proof.Machine
end

section
/-! PROOFS. The obligations of spec/07_memory.md. -/

namespace Sys2Proof.Proofs

open Sys2Proof.Machine Sys2Proof.Claims

/-- Settles O54: what executes, what is due and what a slot comes to each keep the memory's canonical form. -/
theorem stepsKeepMemoryCanonical : Obligations.StepsKeepMemoryCanonical := by
  unfold Obligations.StepsKeepMemoryCanonical
  exact fun _ t wf next => step_wf wf t next

end Sys2Proof.Proofs
end

section
/-! SUPPORT. Entries of the pawn table: what an update of one leaves of the others, and the pawn that an engine picks (R164, R168). -/

namespace Sys2Proof.Machine

open Sys2Proof.Claims

/-! ### Entries (R164) -/

@[simp] theorem State.onPawn_pawn (s : State) (k j : Fin 64) (f : Pawn → Pawn) :
    (s.onPawn k f).pawn j = if j = k then f (s.pawn k) else s.pawn j := by
  show (s.core.pawns.set k.val (f s.core.pawns[k.val]))[j.val] = if j = k then f s.core.pawns[k.val] else s.core.pawns[j.val]
  rw [Vector.getElem_set]
  by_cases h : j = k
  · subst h; simp
  · have h' : ¬ (k.val = j.val) := fun e => h (Fin.ext e.symm)
    simp [h, h']

@[simp] theorem State.onCtx_pawn (s : State) (f : Context → Context) (k : Fin 64) : (s.onCtx f).pawn k = s.pawn k := rfl

/-- Only one entry is different: as an equation for every entry. -/
theorem onlyPawn_iff {s t : State} {k : Fin 64} {p : Pawn} : onlyPawn s t k p ↔ ∀ j, t.pawn j = if j = k then p else s.pawn j := by
  constructor
  · rintro ⟨h, g⟩ j
    by_cases e : j = k
    · subst e; simp [h]
    · simp [e, g j e]
  · intro h
    exact ⟨by simp [h k], fun j e => by simp [h j, e]⟩

/-- A table that stands, changed in one entry, differs in that entry only. -/
theorem onlyPawn_onPawn {s t : State} {k : Fin 64} {f : Pawn → Pawn} (h : ∀ j, t.pawn j = s.pawn j) :
    onlyPawn s (t.onPawn k f) k (f (s.pawn k)) :=
  onlyPawn_iff.2 (fun j => by simp [h])

/-- Only the pawn table counts. -/
theorem onlyPawn_of_pawn {s t u : State} {k : Fin 64} {p : Pawn} (h : onlyPawn s t k p) (g : ∀ j, u.pawn j = t.pawn j) : onlyPawn s u k p := by
  rw [onlyPawn_iff] at *
  intro j
  rw [g j, h j]

/-- A table that stands. -/
theorem onlyPawn_self {s t : State} {k : Fin 64} (h : ∀ j, t.pawn j = s.pawn j) : onlyPawn s t k (s.pawn k) := ⟨h k, fun j _ => h j⟩

theorem onlyPawn_trans {s t u : State} {k : Fin 64} {p q : Pawn} (h : onlyPawn s t k p) (g : onlyPawn t u k q) : onlyPawn s u k q := by
  rw [onlyPawn_iff] at *
  intro j
  rw [g j, h j]
  split <;> rfl

/-! ### The pawn that an engine picks (R168, R343) -/

/-- An engine picks one of the entries that it looks at. -/
theorem State.pickPawn_mem {s : State} {l : List (Fin 64)} {k : Fin 64} (h : s.pickPawn l = some k) : k ∈ l := by
  induction l generalizing k with
  | nil => simp [State.pickPawn] at h
  | cons i rest ih =>
    simp only [State.pickPawn] at h
    split at h
    next => simp_all
    next j hj =>
      split at h
      · simp_all
      · have := ih hj
        simp_all

/-- The pawn that an engine picks has not finished. -/
theorem State.enginePick_open {s : State} {e : Engine} {k : Fin 64} (h : s.enginePick e = some k) : (s.pawn k).fin = none := by
  unfold State.enginePick at h
  split at h
  · cases h
  · have hm := (List.mem_filter.1 (State.pickPawn_mem h)).2
    simp only [State.runnable, Pawn.open, Bool.and_eq_true, Option.isNone_iff_eq_none] at hm
    exact hm.2.1.1.2

/-! ### What a pawn that has finished gives up (R30, R160) -/

/-- A pawn after its step: one that has finished holds no request slot. -/
def Pawn.cleared (p : Pawn) : Pawn := if p.fin.isNone then p else { p with job := stepsOver p.job }

theorem Pawn.slotGiven_eq (p : Pawn) : p.slotGiven = { p with job := stepsOver p.job } := by
  unfold Pawn.slotGiven stepsOver
  split <;> simp_all

@[simp] theorem Pawn.cleared_open {p : Pawn} (h : p.fin = none) : p.cleared = p := by simp [Pawn.cleared, h]

/-- Slots and ranges given back change of the focused context only these. -/
theorem Context.giveSlot_frame (c : Context) (p : Pawn) (now : Nat) : ∃ slots bufs, c.giveSlot p now = { c with rldSlots := slots, rldBufs := bufs } := by
  unfold Context.giveSlot
  split
  · split
    · exact ⟨c.rldSlots, c.rldBufs, rfl⟩
    · exact ⟨_, _, rfl⟩
  · exact ⟨c.rldSlots, c.rldBufs, rfl⟩

/-- The ranges and the slot of a pawn that has finished are given back: of the state only these change, and the pawn's own request for buffers. -/
theorem State.clearRanges_frame (s : State) (k : Fin 64) : ∃ pawns ranges slots bufs octx, s.clearRanges k = { s with
    core := { s.core with pawns := pawns }, ctx := { s.ctx with ranges := ranges, rldSlots := slots, rldBufs := bufs }, octx := octx } := by
  obtain ⟨slots, bufs, hc⟩ := s.ctx.giveSlot_frame (s.pawn k) s.cycle
  unfold State.clearRanges
  dsimp only
  split
  · exact ⟨s.core.pawns, s.ctx.ranges, s.ctx.rldSlots, s.ctx.rldBufs, s.octx, rfl⟩
  · split
    · refine ⟨(s.onPawn k (fun p => p.slotGiven)).core.pawns, s.ctx.ranges.filter (fun r => !(r.serial == (s.pawn k).serial)), slots, bufs, s.octx, ?_⟩
      rw [State.onCtx, show (s.onPawn k (fun p => p.slotGiven)).ctx = s.ctx from rfl, hc]
      rfl
    · exact ⟨_, s.ctx.ranges, s.ctx.rldSlots, s.ctx.rldBufs, _, rfl⟩

theorem State.clearRanges_pawn (s : State) (k j : Fin 64) : (s.clearRanges k).pawn j = if j = k then (s.pawn k).cleared else s.pawn j := by
  unfold State.clearRanges Pawn.cleared
  dsimp only
  by_cases h : (s.pawn k).fin.isNone = true
  · rw [if_pos h, if_pos h]
    split <;> simp_all
  · rw [if_neg h, if_neg h]
    rw [← Pawn.slotGiven_eq]
    split
    · exact State.onPawn_pawn ..
    · exact State.onPawn_pawn ..

end Sys2Proof.Machine
end

section
/-! SUPPORT. What translation and prefetching change: walks, TLBs and waits for chips (R131, R132, R138). -/

namespace Sys2Proof.Machine

/-- The state after translations and prefetches: TLBs, walks and their faults, walk caches, waits for chips, and the numbers and delays taken. -/
def State.Walked (s t : State) : Prop :=
  ∃ serial delays caches ups ctl tt mt vt walks faults, t = { s with
    serial := serial, delays := delays, walkCaches := caches, ctx := { s.ctx with upWait := ups }
    core := { s.core with ctlTlb := ctl, tTlb := tt, mTlb := mt, vTlb := vt, walks := walks, wfault := faults } }

theorem State.Walked.refl (s : State) : s.Walked s :=
  ⟨s.serial, s.delays, s.walkCaches, s.ctx.upWait, s.core.ctlTlb, s.core.tTlb, s.core.mTlb, s.core.vTlb, s.core.walks, s.core.wfault, rfl⟩

theorem State.Walked.trans {s t u : State} (h : s.Walked t) (g : t.Walked u) : s.Walked u := by
  obtain ⟨a, b, c, d, e, f, i, j, k, l, rfl⟩ := h
  obtain ⟨a, b, c, d, e, f, i, j, k, l, rfl⟩ := g
  exact ⟨_, _, _, _, _, _, _, _, _, _, rfl⟩

theorem State.walked_upWait (s : State) (f : List UpWait → List UpWait) : s.Walked (s.onCtx (fun c => { c with upWait := f c.upWait })) :=
  ⟨s.serial, s.delays, s.walkCaches, _, s.core.ctlTlb, s.core.tTlb, s.core.mTlb, s.core.vTlb, s.core.walks, s.core.wfault, rfl⟩

theorem State.walked_wfault (s : State) (f : Core → List (Bool × Strm × Nat × Cause)) : s.Walked (s.onCore (fun c => { c with wfault := f c })) :=
  ⟨s.serial, s.delays, s.walkCaches, s.ctx.upWait, s.core.ctlTlb, s.core.tTlb, s.core.mTlb, s.core.vTlb, s.core.walks, _, rfl⟩

theorem State.walked_setTlb (s : State) (st : Strm) (f : Core → List TlbEnt) : s.Walked (s.onCore (fun c => c.setTlb st (f c))) := by
  cases st
  · exact ⟨s.serial, s.delays, s.walkCaches, s.ctx.upWait, _, s.core.tTlb, s.core.mTlb, s.core.vTlb, s.core.walks, s.core.wfault, rfl⟩
  · exact ⟨s.serial, s.delays, s.walkCaches, s.ctx.upWait, s.core.ctlTlb, _, s.core.mTlb, s.core.vTlb, s.core.walks, s.core.wfault, rfl⟩
  · exact ⟨s.serial, s.delays, s.walkCaches, s.ctx.upWait, s.core.ctlTlb, s.core.tTlb, _, s.core.vTlb, s.core.walks, s.core.wfault, rfl⟩
  · exact ⟨s.serial, s.delays, s.walkCaches, s.ctx.upWait, s.core.ctlTlb, s.core.tTlb, s.core.mTlb, _, s.core.walks, s.core.wfault, rfl⟩

theorem State.walked_startWalk (s : State) (st : Strm) (va : Nat) (p : Bool) : s.Walked (s.startWalk st va p) :=
  ⟨_, _, _, s.ctx.upWait, s.core.ctlTlb, s.core.tTlb, s.core.mTlb, s.core.vTlb, _, s.core.wfault, s.startWalk_frame st va p⟩

theorem State.walked_prefetchPage (s : State) (st : Strm) (va : Nat) : s.Walked (s.prefetchPage st va) :=
  ⟨_, _, _, s.ctx.upWait, s.core.ctlTlb, s.core.tTlb, s.core.mTlb, s.core.vTlb, _, s.core.wfault, s.prefetchPage_frame st va⟩

theorem State.walked_prefetchNext (s : State) (st : Strm) (vas : List Nat) : s.Walked (s.prefetchNext st vas) := by
  unfold State.prefetchNext
  cases vas with
  | nil => exact .refl s
  | cons va rest =>
    dsimp only
    generalize (match hitTlb (s.core.tlb st) s.cx va with | some e => e.leaf.size | none => 65536) = size
    split
    · exact s.walked_prefetchPage st _
    · exact .refl s

theorem State.walked_prefetchLoops (s : State) (st : Strm) (va : Nat) (loops : List (Nat × Int × Nat)) (base : Int) :
    s.Walked (s.prefetchLoops st va loops base) := by
  unfold State.prefetchLoops
  dsimp only
  generalize (match hitTlb (s.core.tlb st) s.cx va with | some e => e.leaf.size | none => 65536) = size
  split
  · split
    · exact s.walked_prefetchPage st _
    · exact .refl s
  · exact .refl s

theorem State.walked_chipGate (s : State) (st : Strm) (va chip : Nat) : s.Walked (s.chipGate st va chip).2 := by
  unfold State.chipGate
  dsimp only
  split
  · exact .refl s
  · split
    · split
      · exact s.walked_upWait (fun l => l ++ [{ st := st, va := va, chip := chip, due := some (s.cycle + 28000) }])
      · split
        · exact s.walked_upWait (fun l => l.filter (fun u => !u.is st va chip))
        · exact .refl s
    · exact s.walked_upWait (fun l => l.filter (fun u => !u.is st va chip))

theorem State.walked_peerGate (s : State) (st : Strm) (va : Nat) (l : Leaf) : s.Walked (s.peerGate st va l).2 := by
  unfold State.peerGate
  split
  · exact .refl s
  · exact s.walked_chipGate st va l.chip

theorem State.walked_xlate (s : State) (st : Strm) (k : Acc) (va n : Nat) : s.Walked (s.xlate st k va n).2 := by
  unfold State.xlate
  split
  · exact .refl s
  · split
    · split
      · exact .refl s
      · split <;> exact .refl s
    · split
      · have h := s.walked_setTlb st (fun c => touchTlb (c.tlb st) s.cx va)
        dsimp only
        split
        · exact h
        · have g := fun l => h.trans (State.walked_peerGate (s.onCore (fun c => c.setTlb st (touchTlb (c.tlb st) s.cx va))) st va l)
          split
          next t q => exact (congrArg (fun r => s.Walked r.2) q).mp (g _)
          next t q => exact (congrArg (fun r => s.Walked r.2) q).mp (g _)
      · split
        next f _ => exact s.walked_wfault (fun c => c.wfault.erase f)
        · exact s.walked_startWalk st va false

theorem State.walked_xlateMore (s : State) (st : Strm) (l : List (Acc × Nat × Nat)) (tr : List Trans) : s.Walked (s.xlateMore st l tr).2 := by
  induction l generalizing s tr with
  | nil => exact .refl s
  | cons a rest ih =>
    obtain ⟨k, va, n⟩ := a
    unfold State.xlateMore
    have h := s.walked_xlate st k va n
    split
    · exact ih s tr
    · split
      next t e => rw [e] at h; exact h
      next c t e => rw [e] at h; exact h
      next p t e => rw [e] at h; exact h.trans (ih t _)

theorem State.walked_prefetchCopy (s : State) (p : Pawn) : s.Walked (s.prefetchCopy p) := by
  unfold State.prefetchCopy
  split
  · exact .refl s
  · dsimp only
    split
    · exact (s.walked_prefetchLoops ..).trans (State.walked_prefetchLoops ..)
    · exact ((s.walked_prefetchLoops ..).trans (State.walked_prefetchNext ..)).trans (State.walked_prefetchLoops ..)
    · exact ((s.walked_prefetchLoops ..).trans (State.walked_prefetchNext ..)).trans (State.walked_prefetchLoops ..)
    · exact s.walked_prefetchLoops ..
    · exact .refl s

theorem State.walked_panel (s : State) (va expect : Nat) (strict : Bool) : s.Walked (s.panel va expect strict).2 := by
  unfold State.panel
  split
  · exact .refl s
  · split
    · split <;> exact .refl s
    · have h := s.walked_xlate .m .operand va 1
      split
      next t e => rw [e] at h; exact h
      next c t e => rw [e] at h; exact h
      next p t e =>
        rw [e] at h
        split
        · exact h
        · extract_lets fmt n
          split
          · exact h
          · split
            · exact h
            · split <;> exact h

theorem State.walked_panels (s : State) (a b afmt bfmt : Nat) (strict : Bool) : s.Walked (s.panels a b afmt bfmt strict).2 := by
  unfold State.panels
  have h := s.walked_panel a afmt strict
  split
  next t e => rw [e] at h; exact h
  next c t e => rw [e] at h; exact h
  next pa t e =>
    rw [e] at h
    have g := h.trans (State.walked_panel t b bfmt strict)
    split
    next u e => rw [e] at g; exact g
    next c u e => rw [e] at g; exact g
    next pb u e =>
      rw [e] at g
      split <;> exact g

end Sys2Proof.Machine
end

section
/-! SUPPORT. What reads, bank conflicts and translations leave alone of the work of pawns. -/

namespace Sys2Proof.Machine

open Sys2Proof.Claims

/-- What the steps of pawns work on stands: memory, the pawn table, the accumulator, requests outside the column, writes that homes keep waiting. -/
structure State.SameWork (s t : State) : Prop where
  mem : t.mem = s.mem
  cycle : t.cycle = s.cycle
  site : t.site = s.site
  cx : t.cx = s.cx
  net : t.net = s.net
  waits : t.part.replWrites = s.part.replWrites
  pawns : t.core.pawns = s.core.pawns
  mstep : t.core.mstep = s.core.mstep
  acc : t.ctx.acc = s.ctx.acc
  rowInt : t.ctx.rowInt = s.ctx.rowInt
  pend : t.ctx.pend = s.ctx.pend
  mismatches : t.mismatches = s.mismatches

theorem State.SameWork.refl (s : State) : s.SameWork s := ⟨rfl, rfl, rfl, rfl, rfl, rfl, rfl, rfl, rfl, rfl, rfl, rfl⟩

theorem State.SameWork.trans {s t u : State} (h : s.SameWork t) (g : t.SameWork u) : s.SameWork u :=
  ⟨g.mem.trans h.mem, g.cycle.trans h.cycle, g.site.trans h.site, g.cx.trans h.cx, g.net.trans h.net, g.waits.trans h.waits,
    g.pawns.trans h.pawns, g.mstep.trans h.mstep, g.acc.trans h.acc, g.rowInt.trans h.rowInt, g.pend.trans h.pend, g.mismatches.trans h.mismatches⟩

theorem State.Walked.same {s t : State} (h : s.Walked t) : s.SameWork t := by
  obtain ⟨_, _, _, _, _, _, _, _, _, _, rfl⟩ := h
  exact ⟨rfl, rfl, rfl, rfl, rfl, rfl, rfl, rfl, rfl, rfl, rfl, rfl⟩

theorem State.SameWork.pawn {s t : State} (h : s.SameWork t) (k : Fin 64) : t.pawn k = s.pawn k := by
  unfold State.pawn; rw [h.pawns]

/-- The bytes that a pawn's access brings stand. -/
theorem State.SameWork.readFor {s t : State} (h : s.SameWork t) (path serial : Nat) (p : Place) (n : Nat) :
    t.readFor path serial p n = s.readFor path serial p n := by
  unfold State.readFor State.readPlace State.bytesWith
  rw [h.net, h.site, h.cx, h.mem, h.waits]

theorem State.SameWork.netMade {s t : State} (h : s.SameWork t) (serial pos : Nat) : t.netMade serial pos = s.netMade serial pos := by
  unfold State.netMade; rw [h.net]

theorem State.SameWork.onCore {s : State} {f : Core → Core} (h : (f s.core).pawns = s.core.pawns) (g : (f s.core).mstep = s.core.mstep) :
    s.SameWork (s.onCore f) := ⟨rfl, rfl, rfl, rfl, rfl, rfl, h, g, rfl, rfl, rfl, rfl⟩

theorem State.same_correct (s : State) (key n : Nat) : s.SameWork (s.correct key n) := by
  obtain ⟨_, _, _, h⟩ := s.correct_frame key n
  rw [h]; exact ⟨rfl, rfl, rfl, rfl, rfl, rfl, rfl, rfl, rfl, rfl, rfl, rfl⟩

theorem State.same_meetBad (s : State) (key n : Nat) : s.SameWork (s.meetBad key n) := by
  obtain ⟨_, h⟩ := s.meetBad_frame key n
  rw [h]; exact ⟨rfl, rfl, rfl, rfl, rfl, rfl, rfl, rfl, rfl, rfl, rfl, rfl⟩

theorem State.same_rewrite (s : State) (key n : Nat) : s.SameWork (s.rewrite key n) :=
  ⟨rfl, rfl, rfl, rfl, rfl, rfl, rfl, rfl, rfl, rfl, rfl, rfl⟩

theorem State.same_replRead (s : State) (die frame : Nat) : s.SameWork (s.replRead die frame) := by
  unfold State.replRead
  dsimp only
  split
  · exact .refl s
  · exact ⟨rfl, rfl, rfl, rfl, rfl, rfl, rfl, rfl, rfl, rfl, rfl, rfl⟩

theorem State.same_noteRead (s : State) (p : Place) (n : Nat) : s.SameWork (s.noteRead p n) := by
  have h := s.same_correct p.key n
  unfold State.noteRead
  extract_lets t t'
  have g : s.SameWork t' := by
    refine h.trans ?_
    show t.SameWork (if _ then _ else _)
    split
    · exact .refl t
    · exact ⟨rfl, rfl, rfl, rfl, rfl, rfl, rfl, rfl, rfl, rfl, rfl, rfl⟩
  split
  · exact g.trans (t'.same_replRead ..)
  · exact g

theorem State.same_noteSlow (s : State) (serial key lat : Nat) : s.SameWork (s.noteSlow serial key lat) := by
  unfold State.noteSlow
  split
  · exact ⟨rfl, rfl, rfl, rfl, rfl, rfl, rfl, rfl, rfl, rfl, rfl, rfl⟩
  · exact .refl s

theorem State.same_takeDelay (s : State) : s.SameWork s.takeDelay.2 := by
  rw [State.takeDelay_frame]; exact ⟨rfl, rfl, rfl, rfl, rfl, rfl, rfl, rfl, rfl, rfl, rfl, rfl⟩

theorem Core.countBoard_same (c : Core) (r key d : Nat) : (c.countBoard r key d).pawns = c.pawns ∧ (c.countBoard r key d).mstep = c.mstep := by
  unfold Core.countBoard
  exact ⟨rfl, rfl⟩

theorem State.same_contend (s : State) (requester key : Nat) : s.SameWork (s.contend requester key).2 := by
  have h := s.same_takeDelay
  unfold State.contend
  extract_lets d site b
  split
  · exact h
  · split
    · obtain ⟨e, g⟩ := Core.countBoard_same d.2.core requester key d.1
      exact h.trans (show d.2.SameWork (d.2.onCore (fun c => c.countBoard requester key d.1)) from .onCore e g)
    next hs =>
      have hs' : site ≠ d.2.site := fun e => hs (e.trans h.site)
      refine h.trans ?_
      unfold State.putBox
      rw [if_neg hs']
      exact ⟨rfl, rfl, rfl, rfl, rfl, rfl, rfl, rfl, rfl, rfl, rfl, rfl⟩

theorem State.same_contendAll (s : State) (requester : Nat) (keys : List Nat) : s.SameWork (s.contendAll requester keys).2 := by
  induction keys generalizing s with
  | nil => exact s.same_takeDelay
  | cons k rest ih =>
    cases rest with
    | nil => exact s.same_contend requester k
    | cons j rest => exact (s.same_contend requester k).trans (ih _)

theorem State.same_mcContend (s : State) (j : PawnJob) (pos : Nat) : s.SameWork (s.mcContend j pos).2 := by
  unfold State.mcContend
  split
  · exact .refl s
  · exact s.same_contendAll 4 _

theorem State.same_stepContend (s : State) (p : Pawn) : s.SameWork (s.stepContend p).2 := by
  unfold State.stepContend
  split
  · exact .refl s
  · split
    · exact s.same_mcContend ..
    · extract_lets keys d e
      refine (show s.SameWork d.2 from s.same_contendAll 0 _).trans ?_
      show d.2.SameWork (if (keys true).isEmpty = true then ((0, d.2) : Nat × State) else d.2.contendAll 1 (keys true)).2
      split
      · exact .refl _
      · exact d.2.same_contendAll 1 _

/-- A pawn's first line and a remote word meet no scratchpad banks beyond their lead (R208). -/
theorem State.stepContend_zero {s : State} {p : Pawn} (h : p.pos = 0 ∨ p.job.remote = true) : s.stepContend p = (0, s) := by
  unfold State.stepContend
  rw [if_pos h]

theorem State.same_readPanel (s : State) (requester : Nat) (mc : Bool) (p : Panel) : s.SameWork (s.readPanel requester mc p).2 := by
  unfold State.readPanel
  extract_lets key n alone
  have h : ∀ u : State, u.SameWork (alone u).2 := by
    intro u
    show u.SameWork (if _ then _ else _ : Nat × State).2
    split
    · exact u.same_contendAll ..
    · exact u.same_contend ..
  split
  · exact h s
  · split
    · exact .refl s
    · refine State.SameWork.trans ?_ (h _)
      exact ⟨rfl, rfl, rfl, rfl, rfl, rfl, rfl, rfl, rfl, rfl, rfl, rfl⟩

theorem State.same_accRewrite (s : State) (rows : List Nat) : s.SameWork (s.accRewrite rows) := by
  unfold State.accRewrite
  induction rows generalizing s with
  | nil => exact .refl s
  | cons r rest ih => exact (s.same_rewrite ..).trans (ih _)

end Sys2Proof.Machine
end

section
/-! SUPPORT. The steps of the transfer engine (R140, R163, R168, R170, R325, R328 to R330, R334). -/

namespace Sys2Proof.Machine

open Sys2Proof.Claims

/-! ### What a step leaves in its entry (R163, R170) -/

/-- A pawn after the pieces of a step: its position, its next start, and the translations that it keeps. -/
def Pawn.moved (p : Pawn) (m due : Nat) : Pawn :=
  { p with
    pos := p.pos + m, state := .running, due := due
    tr := p.tr.filter (fun t => !(p.stepLines.map (fun l => (l.2.1, l.1.writes))).contains (t.va, t.writes)) }

/-- The requests of a pawn's steps up to its position, answered, are forgotten. -/
def State.netSpent (s : State) (k : Fin 64) : State :=
  { s with net := s.net.filter (fun a => a.live || !(decide (a.serial = (s.pawn k).serial) && decide (a.pos / 2 ^ 20 ≤ (s.pawn k).pos))) }

/-- A pawn after its step goes on, or has finished, or stops cancelled when none of its writes is under way. -/
def Pawn.afterMade (p : Pawn) (m due : Nat) (last : Bool) (ahead : Pawn → Bool) : Pawn :=
  if last then (p.moved m due).finish else if p.cancelReq && !ahead (p.moved m due) then (p.moved m due).stopCancelled else p.moved m due

theorem State.afterStep_made_eq (s : State) (k : Fin 64) (m : Nat) (last : Bool) (cycles : Nat) :
    s.afterStep k (.made m last) cycles =
      (s.netSpent k).onPawn k (fun _ => (s.pawn k).afterMade m (s.cycle + cycles) last (s.netSpent k).aheadWrites) := rfl

theorem State.netSpent_pawn (s : State) (k j : Fin 64) : (s.netSpent k).pawn j = s.pawn j := rfl

theorem State.afterStep_made_only (s : State) (k : Fin 64) (m : Nat) (last : Bool) (cycles : Nat) :
    onlyPawn s (s.afterStep k (.made m last) cycles) k
      ((s.pawn k).afterMade m (s.cycle + cycles) last (s.netSpent k).aheadWrites) := by
  rw [State.afterStep_made_eq]
  exact onlyPawn_onPawn (s := s) (fun j => s.netSpent_pawn k j)

/-- A pawn that goes on after its step, or that has made its last one. -/
theorem State.afterStep_made (s : State) (k : Fin 64) (m : Nat) (last : Bool) (cycles : Nat) (h : (s.pawn k).cancelReq = false ∨ last = true) :
    onlyPawn s (s.afterStep k (.made m last) cycles) k
      (if last then ((s.pawn k).moved m (s.cycle + cycles)).finish else (s.pawn k).moved m (s.cycle + cycles)) := by
  have e := s.afterStep_made_only k m last cycles
  unfold Pawn.afterMade at e
  rcases h with h | h
  · rw [h] at e; exact e
  · subst h; exact e

/-- A cancelled pawn none of whose writes are under way stops after its step. -/
theorem State.afterStep_made_cancelled (s : State) (k : Fin 64) (m cycles : Nat) (h : (s.pawn k).cancelReq = true)
    (idle : ∀ e ∈ s.net, e.serial ≠ (s.pawn k).serial) :
    onlyPawn s (s.afterStep k (.made m false) cycles) k ((s.pawn k).moved m (s.cycle + cycles)).stopCancelled := by
  have e := s.afterStep_made_only k m false cycles
  have ahead : (s.netSpent k).aheadWrites ((s.pawn k).moved m (s.cycle + cycles)) = false := by
    unfold State.aheadWrites
    rw [Bool.and_eq_false_iff]
    refine .inr (List.any_eq_false.2 (fun e he => ?_))
    have := idle e (List.mem_filter.1 he).1
    simp [Pawn.moved, this]
  unfold Pawn.afterMade at e
  rw [h, ahead] at e
  exact e

/-- The pending trap of a PAGE fault that suspends the pawn of an entry (R140). -/
def Pawn.pageTrap (p : Pawn) (k : Fin 64) (va : Nat) : PendTrap :=
  { rank := 3, order := k.val, cause := .page, st := p.st, pawn := some k.val, tok := none, async_ := true, st2 := .c
    faddr := BitVec.ofNat 64 (va % 2 ^ 52), fpc := p.pc, fpc2 := 0, frec := faultRecord .page p.progress va }

/-- A pawn that a PAGE fault suspends. -/
def Pawn.suspendedAt (p : Pawn) (va : Nat) : Pawn :=
  { p with suspended := true, state := .running, faddr := BitVec.ofNat 64 (va % 2 ^ 52), tr := [] }

theorem State.afterStep_fault_eq (s : State) (k : Fin 64) (c : Cause) (va cycles : Nat) :
    s.afterStep k (.fault c va) cycles = if c = .page ∧ (s.pawn k).adopted = false
      then ((s.onPawn k (fun p => p.suspendedAt va)).onCtx (fun x => { x with pend := x.pend ++ [(s.pawn k).pageTrap k va] })).bump
      else s.onPawn k (fun p => p.fail c va) := rfl

/-- A fault that ends a pawn. -/
theorem State.afterStep_fault {s : State} {k : Fin 64} {c : Cause} (va cycles : Nat) (h : ¬(c = .page ∧ (s.pawn k).adopted = false)) :
    s.afterStep k (.fault c va) cycles = s.onPawn k (fun p => p.fail c va) := by
  rw [State.afterStep_fault_eq, if_neg h]

/-- A PAGE fault of a pawn that is not adopted suspends it and is pending as a trap (R140). -/
theorem State.afterStep_page {s : State} {k : Fin 64} (va cycles : Nat) (h : (s.pawn k).adopted = false) :
    s.afterStep k (.fault .page va) cycles =
      ((s.onPawn k (fun p => p.suspendedAt va)).onCtx (fun x => { x with pend := x.pend ++ [(s.pawn k).pageTrap k va] })).bump := by
  rw [State.afterStep_fault_eq, if_pos ⟨rfl, h⟩]

/-! ### Steps and their statements -/

theorem Pawn.cleared_faulted (p : Pawn) (c : Cause) (va : Nat) : (p.fail c va).cleared = faultedAt p c va := by
  unfold Pawn.cleared
  rw [if_neg (by simp [Pawn.fail])]
  unfold Pawn.fail faultedAt
  rfl

/-- A pawn after a step as the statements say it. -/
theorem Pawn.cleared_moved {p : Pawn} {m pos due : Nat} {last : Bool} {tr : List Trans} (hf : p.fin = none) (hp : p.pos + m = pos)
    (ht : (p.moved m due).tr = tr) : (if last then (p.moved m due).finish else p.moved m due).cleared = Claims.stepped p tr pos due last := by
  subst hp ht
  cases last
  · exact Pawn.cleared_open hf
  · rfl

/-- The translations that a pawn keeps after a line that it has read and written. -/
theorem Pawn.moved_tr_pair {p : Pawn} {src dst n : Nat} (m due : Nat) (h : p.stepLines = [(.read, src, n), (.write, dst, n)]) :
    (p.moved m due).tr = trWithout p src (some dst) := by
  unfold Pawn.moved trWithout
  dsimp only
  rw [h]
  refine List.filter_congr (fun t _ => ?_)
  cases t.writes <;> simp [Acc.writes]

/-- The translations that a pawn keeps after a line that it has only read. -/
theorem Pawn.moved_tr_read {p : Pawn} {src n : Nat} (m due : Nat) (h : p.stepLines = [(.read, src, n)]) :
    (p.moved m due).tr = trWithout p src none := by
  unfold Pawn.moved trWithout
  dsimp only
  rw [h]
  refine List.filter_congr (fun t _ => ?_)
  cases t.writes <;> simp [Acc.writes]

/-! ### A turn of a copying pawn (R329) -/

theorem State.onPawn_self {s : State} {k : Fin 64} {f : Pawn → Pawn} (h : f (s.pawn k) = s.pawn k) : s.onPawn k f = s := by
  have e : s.core.pawns.set k.val (f s.core.pawns[k.val]) = s.core.pawns := by
    rw [show f s.core.pawns[k.val] = s.core.pawns[k.val] from h]
    exact Vector.set_getElem_self ..
  show ({ s with core := { s.core with pawns := s.core.pawns.set k.val (f s.core.pawns[k.val]) } } : State) = s
  rw [e]

/-- Accesses that are translated need no more. -/
theorem State.xlateMore_done (s : State) (st : Strm) {l : List (Acc × Nat × Nat)} {tr : List Trans}
    (h : ∀ a ∈ l, (placeOf tr a.1.writes a.2.1).isSome = true) : s.xlateMore st l tr = ((none, tr), s) := by
  induction l with
  | nil => rfl
  | cons a rest ih =>
    obtain ⟨k, va, n⟩ := a
    unfold State.xlateMore
    rw [if_pos (h (k, va, n) (List.mem_cons_self ..))]
    exact ih (fun a ha => h a (List.mem_cons_of_mem _ ha))

/-- A copying pawn that no cancel stops has its turn at the transfer engine. -/
theorem State.stepPawn_transfer {s : State} {k : Fin 64} (go : (s.pawn k).cancelReq = false ∨ s.midStep (s.pawn k) = true)
    (e : (s.pawn k).eng = .transfer) : s.stepPawn k = s.copyTurn k := by
  have h : ((s.pawn k).cancelReq && !s.midStep (s.pawn k)) = false := by rcases go with h | h <;> simp [h]
  unfold State.stepPawn
  dsimp only
  rw [if_neg (by simp [h]), e]

/-- No network has failed an access up to a pawn's step. -/
theorem Pawn.no_netFault {p : Pawn} (h : ∀ f, p.net = some f → p.pos < f.1 / 2 ^ 20) :
    p.net.bind (fun f => if f.1 / 2 ^ 20 ≤ p.pos then some f else none) = none := by
  cases e : p.net with
  | none => rfl
  | some f => rw [Option.bind_some, if_neg (Nat.not_le.2 (h f e))]

/-- A step that a network has failed ends its pawn (R35, R42, R43). -/
theorem State.copyTurn_failed {s : State} {k : Fin 64} {q : Nat} {c : Cause} (h : (s.pawn k).net = some (q, c))
    (hq : q / 2 ^ 20 ≤ (s.pawn k).pos) : s.copyTurn k = s.onPawn k (fun p => p.fail c (p.netAddr q)) := by
  unfold State.copyTurn
  simp only [h, Option.bind_some, hq, if_true]

/-- A step whose accesses are translated goes on. -/
theorem State.copyTurn_translated {s t : State} {k : Fin 64} {tr : List Trans} (ok : ∀ f, (s.pawn k).net = some f → (s.pawn k).pos < f.1 / 2 ^ 20)
    (h : s.xlateMore .t (s.pawn k).stepLines (s.pawn k).tr = ((none, tr), t)) :
    s.copyTurn k = ((t.onPawn k (fun p => { p with tr := tr })).prefetchCopy (s.pawn k)).copyGoes k := by
  unfold State.copyTurn
  simp only [Pawn.no_netFault ok, h]

/-- A step that meets a fault as it is translated. -/
theorem State.copyTurn_fault {s t : State} {k : Fin 64} {tr : List Trans} {c : Cause} {va : Nat}
    (ok : ∀ f, (s.pawn k).net = some f → (s.pawn k).pos < f.1 / 2 ^ 20)
    (h : s.xlateMore .t (s.pawn k).stepLines (s.pawn k).tr = ((some (some (c, va)), tr), t)) :
    s.copyTurn k = t.afterStep k (.fault c va) 0 := by
  unfold State.copyTurn
  simp only [Pawn.no_netFault ok, h]

/-- The first step of a pawn starts: nothing has been moved. -/
theorem State.copyGoes_starts {s : State} {k : Fin 64} (h : (s.pawn k).starts = true) :
    (s.onPawn k (fun p => p.begin s.cycle)).SameWork (s.copyGoes k) := by
  unfold State.copyGoes
  dsimp only
  rw [if_pos h]
  generalize s.onPawn k (fun p => p.begin s.cycle) = t
  generalize (s.pawn k).tr = l
  induction l generalizing t with
  | nil => exact .refl t
  | cons a rest ih => exact (t.same_noteSlow ..).trans (ih _)

/-- The translated and answered step of a copy: it is made, and the entry is left as it says. -/
theorem State.copyGoes_made {s t : State} {k : Fin 64} {m : Nat} {last : Bool} (begun : (s.pawn k).starts = false)
    (back : s.stepAnswered (s.pawn k) = true) (h : s.copyStep (s.pawn k) = (.made m last, t)) :
    ∃ (u : State) (d : Nat), s.copyGoes k = u.afterStep k (.made m last) ((s.pawn k).job.lines + d) ∧ t.SameWork u ∧
      ((s.pawn k).pos = 0 ∨ (s.pawn k).job.remote = true → d = 0) := by
  have hne : (StepEnd.made m last = .wait) = False := by simp
  refine ⟨if (s.pawn k).job.remote || decide (StepEnd.made m last = .wait) then (t.stepContend (s.pawn k)).2
      else (t.stepContend (s.pawn k)).2.onCore (fun c => { c with xferCycle := s.cycle + ((s.pawn k).job.lines + (t.stepContend (s.pawn k)).1) }),
    (t.stepContend (s.pawn k)).1, ?_, ?_, fun h => ?_⟩
  · unfold State.copyGoes
    dsimp only
    rw [if_neg (by simp [begun]), if_neg (by simp [back]), h]
    simp only [hne, if_false, decide_false, Bool.or_false]
  · split
    · exact t.same_stepContend _
    · exact (t.same_stepContend _).trans (.onCore rfl rfl)
  · rw [State.stepContend_zero h]

/-- A line whose words are not in error is read and, unless its home has made it already, written (R31, R127, R191). -/
theorem State.moveLine_ok {s : State} {p : Pawn} {i : Nat} {l : CopyLine} {a b : Place} (ha : placeOf p.tr false l.src = some a)
    (hb : s.linePlace p l = some b) (ra : s.readBad a.key l.n = false) (wb : s.writeBad b.key l.n = false) :
    s.moveLine p i l = (.made l.n false, if s.netMade p.serial (p.pos * 2 ^ 20 + 2 * i + 1) then s.noteRead a l.n
      else (s.noteRead a l.n).writeLine p l a b) := by
  unfold State.moveLine
  rw [ha, hb]
  simp only [ra, wb, Bool.false_eq_true, if_false, (s.same_noteRead a l.n).netMade]

/-- What a write to a frame without copies leaves: its bytes. -/
theorem State.writePlace_home {s : State} {p : Place} (path serial : Nat) (bs : List (BitVec 8)) (h : p.replFrame = none) :
    s.writePlace path serial p bs = s.writeList p.key bs := by
  unfold State.writePlace State.frameWrite
  rw [h]

/-- The bytes of a line written change memory, and nothing that a pawn's step counts on. -/
theorem State.writeLine_home {s : State} {p : Pawn} {l : CopyLine} {a b : Place} (home : b.replFrame = none) :
    s.writeLine p l a b = s.writeList b.key (s.readFor 1 p.serial a l.n) := State.writePlace_home 1 p.serial _ home

/-- A step of one line: the bytes that its read has brought stand at its place, unless its home has made the write before (R31, R329). -/
theorem State.copyStep_line {s : State} {p : Pawn} {l : CopyLine} {a b : Place} (one : p.moves = [l])
    (fmt : p.job.lineFault l ((placeOf p.tr false l.src).bind (fun q => q.leaf)) ((placeOf p.tr true l.dst).bind (fun q => q.leaf)) = none)
    (ha : placeOf p.tr false l.src = some a) (hb : s.linePlace p l = some b) (ra : s.readBad a.key l.n = false)
    (wb : s.writeBad b.key l.n = false) (home : b.replFrame = none) :
    ∃ t, s.copyStep p = (.made (p.nextPos - p.pos) (p.job.overAt p.nextPos), t) ∧ (∀ j, t.pawn j = s.pawn j) ∧ t.net = s.net ∧
      t.cycle = s.cycle ∧
      t.mem = if s.netMade p.serial (p.pos * 2 ^ 20 + 1) = true then s.mem else s.mem.writeBytes b.key (s.readFor 1 p.serial a l.n) := by
  have h := s.same_noteRead a l.n
  have step : s.copyStep p = (.made (p.nextPos - p.pos) (p.job.overAt p.nextPos),
      if s.netMade p.serial (p.pos * 2 ^ 20 + 1) then s.noteRead a l.n else (s.noteRead a l.n).writeLine p l a b) := by
    unfold State.copyStep
    rw [one, List.findSome?_cons_of_isNone (by simp [fmt])]
    dsimp only [List.findSome?]
    unfold State.moveLines
    rw [State.moveLine_ok ha hb ra wb]
    rfl
  rw [State.writeLine_home home] at step
  refine ⟨_, step, fun j => ?_, ?_, ?_, ?_⟩
  · split
    · exact h.pawn j
    · exact h.pawn j
  · split
    · exact h.net
    · exact h.net
  · split
    · exact h.cycle
    · exact h.cycle
  · split
    · exact h.mem
    · show (s.noteRead a l.n).mem.writeBytes _ _ = _
      rw [h.mem, h.readFor]

/-- What a copying pawn's step works with when its next step is one line, translated, answered and free of errors. -/
structure State.LineReady (s : State) (p : Pawn) (l : CopyLine) (a b : Place) : Prop where
  one : p.moves = [l]
  ok : ∀ f, p.net = some f → p.pos < f.1 / 2 ^ 20
  begun : p.starts = false
  translated : ∀ x ∈ p.stepLines, (placeOf p.tr x.1.writes x.2.1).isSome = true
  fmt : p.job.lineFault l ((placeOf p.tr false l.src).bind (fun q => q.leaf)) ((placeOf p.tr true l.dst).bind (fun q => q.leaf)) = none
  source : placeOf p.tr false l.src = some a
  target : s.linePlace p l = some b
  readOk : s.readBad a.key l.n = false
  writeOk : s.writeBad b.key l.n = false
  home : b.replFrame = none
  back : s.stepAnswered p = true

/-- Translation and prefetching leave a step as ready as it was. -/
theorem State.LineReady.walked {s t : State} {p : Pawn} {l : CopyLine} {a b : Place} (h : s.LineReady p l a b) (w : s.Walked t) :
    t.LineReady p l a b := by
  obtain ⟨_, _, _, _, _, _, _, _, _, _, rfl⟩ := w
  obtain ⟨one, ok, begun, translated, fmt, source, target, readOk, writeOk, home, back⟩ := h
  exact ⟨one, ok, begun, translated, fmt, source, target, readOk, writeOk, home, back⟩

/-- A turn of a copying pawn whose next step is one line (R329): the line is moved, and the entry is left as the step says. -/
theorem State.copyTurn_line {s : State} {k : Fin 64} {l : CopyLine} {a b : Place} (h : s.LineReady (s.pawn k) l a b) :
    ∃ (u : State) (d : Nat), s.copyTurn k = u.afterStep k (.made ((s.pawn k).nextPos - (s.pawn k).pos) ((s.pawn k).job.overAt (s.pawn k).nextPos))
        ((s.pawn k).job.lines + d) ∧
      (∀ j, u.pawn j = s.pawn j) ∧ u.net = s.net ∧ u.cycle = s.cycle ∧
      u.mem = (if s.netMade (s.pawn k).serial ((s.pawn k).pos * 2 ^ 20 + 1) = true then s.mem
        else s.mem.writeBytes b.key (s.readFor 1 (s.pawn k).serial a l.n)) ∧
      ((s.pawn k).pos = 0 ∨ (s.pawn k).job.remote = true → d = 0) := by
  have w := s.walked_prefetchCopy (s.pawn k)
  have turn : s.copyTurn k = (s.prefetchCopy (s.pawn k)).copyGoes k := by
    rw [State.copyTurn_translated h.ok (s.xlateMore_done .t h.translated), State.onPawn_self rfl]
  generalize hv : s.prefetchCopy (s.pawn k) = v at w turn
  have pawn := w.same.pawn
  obtain ⟨one, ok, begun, translated, fmt, source, target, readOk, writeOk, home, back⟩ := h.walked w
  rw [← pawn k] at *
  obtain ⟨t, step, tp, tn, tc, tm⟩ := State.copyStep_line one fmt source target readOk writeOk home
  obtain ⟨u, d, goes, same, zero⟩ := State.copyGoes_made begun back step
  refine ⟨u, d, turn.trans goes, fun j => ?_, ?_, ?_, ?_, zero⟩
  · rw [same.pawn j, tp j, pawn j]
  · rw [same.net, tn, w.same.net]
  · rw [same.cycle, tc, w.same.cycle]
  · rw [same.mem, tm, w.same.netMade, w.same.mem, w.same.readFor]

end Sys2Proof.Machine
end

section
/-! SUPPORT. The pieces that copying pawns move, one line each (R325, R328 to R330). -/

namespace Sys2Proof.Machine

open Sys2Proof.Claims

/-- The next row of a list of addresses is not before the row asked from. -/
theorem le_nextRow (idx : List Word) (j : Nat) : j ≤ nextRow idx j := Nat.le_add_right ..

/-- What a pawn's next step is when it moves one line that is read and written by address. -/
structure Pawn.IsPiece (p : Pawn) (src dst n pos : Nat) (last : Bool) (l : CopyLine) : Prop where
  src_eq : l.src = src
  dst_eq : l.dst = dst
  n_eq : l.n = n
  one : p.moves = [l]
  lines : p.stepLines = [(.read, src, n), (.write, dst, n)]
  next : p.nextPos = pos
  onward : p.pos ≤ pos
  ends : p.job.overAt pos = last
  each : p.job.lines = 1
  target : ∀ s : State, s.linePlace p l = placeOf p.tr true dst
  pages : ∀ a b, piecePages p a b → p.job.lineFault l a b = none

/-- The line that the next step of a copy moves. -/
theorem Pawn.isPiece_copy {p : Pawn} {src dst : CopySide} {rows rowLen : Nat} {raw strict : Bool}
    (hj : p.job = .copy src dst rows rowLen raw strict) (h : ¬rows * rowLen ≤ p.pos) :
    p.IsPiece (src.ly.rowByte src.base.toNat (p.pos / rowLen) (p.pos % rowLen)) (dst.ly.rowByte dst.base.toNat (p.pos / rowLen) (p.pos % rowLen))
      (min 64 (rowLen - p.pos % rowLen)) (p.pos + min 64 (rowLen - p.pos % rowLen))
      (decide (rows * rowLen ≤ p.pos + min 64 (rowLen - p.pos % rowLen)))
      { src := src.ly.rowByte src.base.toNat (p.pos / rowLen) (p.pos % rowLen), dst := dst.ly.rowByte dst.base.toNat (p.pos / rowLen) (p.pos % rowLen)
        n := min 64 (rowLen - p.pos % rowLen), row := p.pos / rowLen, off := p.pos % rowLen } where
  src_eq := rfl
  dst_eq := rfl
  n_eq := rfl
  one := by simp [Pawn.moves, hj, h]
  lines := by simp [Pawn.stepLines, Pawn.moves, hj, h]
  next := by simp [Pawn.nextPos, hj, h]
  onward := Nat.le_add_right ..
  ends := by simp [PawnJob.overAt, hj]
  each := by simp [PawnJob.lines, hj]
  target := fun s => by simp [State.linePlace, hj]
  pages := fun a b hp => by
    simp only [piecePages, hj] at hp
    rcases hp with hr | ⟨hs, hd, hc⟩
    · simp [PawnJob.lineFault, hj, hr]
    · simp [PawnJob.lineFault, hj, hs, hd, hc]

/-- The row that the next step of a gather moves, of a line or less. -/
theorem Pawn.isPiece_gath {p : Pawn} {dst : CopySide} {rowLen : Nat} {raw strict : Bool} {idx : List Word}
    (hj : p.job = .gath dst rowLen raw strict idx) (h : ¬(idx.length ≤ nextRow idx p.pos ∨ rowLen = 0 ∨ 64 < rowLen)) :
    p.IsPiece (idx.getD (nextRow idx p.pos) 0).toNat (dst.ly.rowByte dst.base.toNat (nextRow idx p.pos) 0) rowLen (nextRow idx p.pos + 1)
      (decide (idx.length ≤ nextRow idx (nextRow idx p.pos + 1)))
      { src := (idx.getD (nextRow idx p.pos) 0).toNat, dst := dst.ly.rowByte dst.base.toNat (nextRow idx p.pos) 0, n := rowLen
        row := nextRow idx p.pos, off := 0 } := by
  obtain ⟨hi, h0, h64⟩ : ¬idx.length ≤ nextRow idx p.pos ∧ rowLen ≠ 0 ∧ rowLen ≤ 64 := by omega
  have count : (rowLen + 63) / 64 = 1 := by omega
  have moves : p.moves = [{ src := (idx.getD (nextRow idx p.pos) 0).toNat, dst := dst.ly.rowByte dst.base.toNat (nextRow idx p.pos) 0, n := rowLen
                            row := nextRow idx p.pos, off := 0 }] := by
    simp [Pawn.moves, hj, hi, count, List.range_succ, h64]
  exact
    { src_eq := rfl
      dst_eq := rfl
      n_eq := rfl
      one := moves
      lines := by simp [Pawn.stepLines, moves, hj]
      next := by simp [Pawn.nextPos, hj, hi]
      onward := Nat.le_succ_of_le (le_nextRow idx p.pos)
      ends := by simp [PawnJob.overAt, hj]
      each := by simp [PawnJob.lines, hj, count]
      target := fun s => by simp [State.linePlace, hj]
      pages := fun a b hp => by
        simp only [piecePages, hj] at hp
        rcases hp with hr | ⟨hd, hc⟩
        · simp [PawnJob.lineFault, hj, hr]
        · simp [PawnJob.lineFault, hj, hd, hc] }

/-- Where a scatter's step stands in its row: at the row's start when it has skipped rows. -/
def scatOff (idx : List Word) (rowLen pos : Nat) : Nat := if pos / rowLen = nextRow idx (pos / rowLen) then pos % rowLen else 0

/-- A scatter goes on from its position. -/
theorem le_scatPos (idx : List Word) (rowLen pos : Nat) (h : rowLen ≠ 0) :
    pos ≤ nextRow idx (pos / rowLen) * rowLen + scatOff idx rowLen pos := by
  have hd := Nat.div_add_mod' pos rowLen
  have hlt := Nat.mod_lt pos (Nat.pos_of_ne_zero h)
  unfold scatOff
  split
  next e => rw [← e, hd]
  next e =>
    have hs : pos / rowLen + 1 ≤ nextRow idx (pos / rowLen) := Nat.lt_of_le_of_ne (le_nextRow idx _) e
    have hm := Nat.mul_le_mul_right rowLen hs
    rw [Nat.succ_mul] at hm
    omega

/-- The line that the next step of a scatter moves. -/
theorem Pawn.isPiece_scat {p : Pawn} {src : CopySide} {rowLen : Nat} {raw strict : Bool} {idx : List Word}
    (hj : p.job = .scat src rowLen raw strict idx) (h : ¬(rowLen = 0 ∨ idx.length ≤ nextRow idx (p.pos / rowLen))) :
    let j := nextRow idx (p.pos / rowLen)
    let off := scatOff idx rowLen p.pos
    p.IsPiece (src.ly.rowByte src.base.toNat j off) ((idx.getD j 0).toNat + off) (min 64 (rowLen - off)) (j * rowLen + off + min 64 (rowLen - off))
      (decide ((j * rowLen + off + min 64 (rowLen - off)) % rowLen = 0) &&
        decide (idx.length ≤ nextRow idx ((j * rowLen + off + min 64 (rowLen - off)) / rowLen)))
      { src := src.ly.rowByte src.base.toNat j off, dst := (idx.getD j 0).toNat + off, n := min 64 (rowLen - off), row := j, off := off } := by
  intro j off
  obtain ⟨h0, hi⟩ := not_or.1 h
  have moves : p.moves = [{ src := src.ly.rowByte src.base.toNat j off, dst := (idx.getD j 0).toNat + off, n := min 64 (rowLen - off), row := j
                            off := off }] := by
    unfold Pawn.moves
    simp only [hj, if_neg h]
    rfl
  exact
    { src_eq := rfl
      dst_eq := rfl
      n_eq := rfl
      one := moves
      lines := by simp [Pawn.stepLines, moves, hj]
      next := by
        unfold Pawn.nextPos
        simp only [hj, if_neg h0, if_neg hi]
        rfl
      onward := Nat.le_add_right_of_le (le_scatPos idx rowLen p.pos h0)
      ends := by simp [PawnJob.overAt, hj, h0]
      each := by simp [PawnJob.lines, hj]
      target := fun s => by simp [State.linePlace, hj]
      pages := fun a b hp => by
        simp only [piecePages, hj] at hp
        rcases hp with hr | ⟨hs, hc⟩
        · simp [PawnJob.lineFault, hj, hr]
        · have hs' : src.ok a j off (min 64 (rowLen - off)) = true := hs
          simp [PawnJob.lineFault, hj, hc, hs'] }

/-- All that a remote load moves. -/
theorem Pawn.isPiece_rld {p : Pawn} {src dst : Word} {n bufs : Nat} (hj : p.job = .rld src dst n bufs) (h : ¬n ≤ p.pos) :
    p.IsPiece src.toNat dst.toNat n n true { src := src.toNat, dst := dst.toNat, n := n, row := 0, off := 0 } where
  src_eq := rfl
  dst_eq := rfl
  n_eq := rfl
  one := by simp [Pawn.moves, hj, h]
  lines := by simp [Pawn.stepLines, Pawn.moves, hj, h]
  next := by simp [Pawn.nextPos, hj]
  onward := Nat.le_of_not_le h
  ends := by simp [PawnJob.overAt, hj]
  each := by simp [PawnJob.lines, hj]
  target := fun s => by simp [State.linePlace, hj]
  pages := fun a b hp => by simp [PawnJob.lineFault, hj]

/-- All that a remote store moves. -/
theorem Pawn.isPiece_rst {p : Pawn} {src dst : Word} {n : Nat} (hj : p.job = .rst src dst n) (h : ¬n ≤ p.pos) :
    p.IsPiece src.toNat dst.toNat n n true { src := src.toNat, dst := dst.toNat, n := n, row := 0, off := 0 } where
  src_eq := rfl
  dst_eq := rfl
  n_eq := rfl
  one := by simp [Pawn.moves, hj, h]
  lines := by simp [Pawn.stepLines, Pawn.moves, hj, h]
  next := by simp [Pawn.nextPos, hj]
  onward := Nat.le_of_not_le h
  ends := by simp [PawnJob.overAt, hj]
  each := by simp [PawnJob.lines, hj]
  target := fun s => by simp [State.linePlace, hj]
  pages := fun a b hp => by simp [PawnJob.lineFault, hj]

/-- The piece that a copying pawn moves next is the one line of its step. -/
theorem Pawn.isPiece_of_pieceOf {p : Pawn} {src dst n pos : Nat} {last : Bool} (h : pieceOf p = some (src, dst, n, pos, last)) :
    ∃ l, p.IsPiece src dst n pos last l := by
  unfold pieceOf at h
  split at h
  next hj =>
    dsimp only at h
    split at h
    · cases h
    next hr => cases h; exact ⟨_, Pawn.isPiece_copy hj hr⟩
  next hj =>
    dsimp only at h
    split at h
    · cases h
    next hr => cases h; exact ⟨_, Pawn.isPiece_gath hj hr⟩
  next hj =>
    dsimp only at h
    split at h
    · cases h
    next hr => cases h; exact ⟨_, Pawn.isPiece_scat hj hr⟩
  next hj =>
    split at h
    · cases h
    next hr => cases h; exact ⟨_, Pawn.isPiece_rld hj hr⟩
  next hj =>
    split at h
    · cases h
    next hr => cases h; exact ⟨_, Pawn.isPiece_rst hj hr⟩
  · cases h

/-- The line that the next step of a SEND moves: to an offset of its channel's slot (R334). -/
theorem Pawn.moves_send {p : Pawn} {chan slot n : Nat} {launch src : Word} (hj : p.job = .send chan launch src slot n) (h : p.pos < n) :
    p.moves = [{ src := src.toNat + p.pos, dst := p.pos, n := 64, row := 0, off := p.pos }] ∧
    p.stepLines = [(.read, src.toNat + p.pos, 64)] ∧ p.nextPos = p.pos + 64 := by
  have h' : ¬n ≤ p.pos := Nat.not_le.2 h
  refine ⟨?_, ?_, ?_⟩
  · simp [Pawn.moves, hj, h']
  · simp [Pawn.stepLines, Pawn.moves, hj, h']
  · simp [Pawn.nextPos, hj, h']

end Sys2Proof.Machine
end

section
/-! SUPPORT. What the steps of copying pawns leave: a cancel, a start, a line moved, a fault (R140, R168, R170, R329, R334). -/

namespace Sys2Proof.Machine

open Sys2Proof.Claims

/-! ### An engine's step of the pawn that it picks -/

/-- The state in which an engine steps the pawn of an entry: its core in focus, turned to the pawn's context. -/
def State.atPawn (s : State) (site : Nat) (k : Fin 64) : State := (s.focus site s.cx).focusCx ((s.focus site s.cx).pawn k).cx

@[simp] theorem State.focusCx_pawn (s : State) (cx : Bool) (k : Fin 64) : (s.focusCx cx).pawn k = s.pawn k := by
  unfold State.pawn; rw [State.focusCx_core]

@[simp] theorem State.atPawn_pawn (s : State) (site : Nat) (k j : Fin 64) : (s.atPawn site k).pawn j = (s.focus site s.cx).pawn j := by
  simp [State.atPawn]

@[simp] theorem State.atPawn_mem (s : State) (site : Nat) (k : Fin 64) : (s.atPawn site k).mem = s.mem := by simp [State.atPawn]
@[simp] theorem State.atPawn_cycle (s : State) (site : Nat) (k : Fin 64) : (s.atPawn site k).cycle = s.cycle := by simp [State.atPawn]

/-- The pawn that its engine picks makes a step, and gives up what it needs no more. -/
theorem exec_pawnStep {site : Nat} {k : Fin 64} {s : State}
    (pick : (s.focus site s.cx).enginePick ((s.focus site s.cx).pawn k).eng = some k) :
    exec (.pawnStep site k) s = .next (((s.atPawn site k).stepPawn k).clearRanges k) := by
  show execPawnStep site k s = _
  unfold execPawnStep
  dsimp only
  rw [if_pos pick]
  rfl

theorem State.clearRanges_only {v t : State} {k : Fin 64} {q : Pawn} (h : onlyPawn v t k q) : onlyPawn v (t.clearRanges k) k q.cleared := by
  rw [onlyPawn_iff] at *
  intro j
  rw [State.clearRanges_pawn]
  have hk := h k
  have hj := h j
  split <;> simp_all

theorem State.clearRanges_only_open {v t : State} {k : Fin 64} {q : Pawn} (h : onlyPawn v t k q) (live : q.fin = none) :
    onlyPawn v (t.clearRanges k) k q := by
  have := State.clearRanges_only h
  rw [Pawn.cleared_open live] at this
  exact this

@[simp] theorem State.clearRanges_acc (s : State) (k : Fin 64) : (s.clearRanges k).ctx.acc = s.ctx.acc := by
  obtain ⟨_, _, _, _, _, h⟩ := s.clearRanges_frame k; rw [h]
@[simp] theorem State.clearRanges_rowInt (s : State) (k : Fin 64) : (s.clearRanges k).ctx.rowInt = s.ctx.rowInt := by
  obtain ⟨_, _, _, _, _, h⟩ := s.clearRanges_frame k; rw [h]
@[simp] theorem State.clearRanges_pend (s : State) (k : Fin 64) : (s.clearRanges k).ctx.pend = s.ctx.pend := by
  obtain ⟨_, _, _, _, _, h⟩ := s.clearRanges_frame k; rw [h]
@[simp] theorem State.clearRanges_mstep (s : State) (k : Fin 64) : (s.clearRanges k).core.mstep = s.core.mstep := by
  obtain ⟨_, _, _, _, _, h⟩ := s.clearRanges_frame k; rw [h]
@[simp] theorem State.clearRanges_mismatches (s : State) (k : Fin 64) : (s.clearRanges k).mismatches = s.mismatches := by
  obtain ⟨_, _, _, _, _, h⟩ := s.clearRanges_frame k; rw [h]

/-! ### Cancels and starts (R165, R170) -/

/-- A cancel stops a pawn that is short of its next step. -/
theorem State.stepPawn_cancelled {v : State} {k : Fin 64} (c : (v.pawn k).cancelReq = true) (m : v.midStep (v.pawn k) = false) :
    v.stepPawn k = v.onPawn k (fun p => { p.stopCancelled with suspended := false }) := by
  unfold State.stepPawn
  dsimp only
  rw [if_pos (by simp [c, m])]

/-- A copy's first step starts: its accesses are translated, and it runs. -/
theorem State.copyTurn_starts {v x : State} {k : Fin 64} {tr : List Trans} (ok : ∀ f, (v.pawn k).net = some f → (v.pawn k).pos < f.1 / 2 ^ 20)
    (begun : (v.pawn k).starts = true) (h : v.xlateMore .t (v.pawn k).stepLines (v.pawn k).tr = ((none, tr), x)) :
    (v.copyTurn k).mem = v.mem ∧
      onlyPawn v (v.copyTurn k) k { v.pawn k with state := .running, due := v.cycle + (v.pawn k).lead, begun := true, tr := tr } := by
  have wx := v.walked_xlateMore .t (v.pawn k).stepLines (v.pawn k).tr
  rw [h] at wx
  have sx := wx.same
  have wy := ((x.onPawn k (fun p => { p with tr := tr })).walked_prefetchCopy (v.pawn k)).same
  rw [State.copyTurn_translated ok h]
  generalize (x.onPawn k (fun p => { p with tr := tr })).prefetchCopy (v.pawn k) = y at wy
  have py : ∀ j, y.pawn j = if j = k then { v.pawn k with tr := tr } else v.pawn j := by
    intro j
    rw [wy.pawn j, State.onPawn_pawn, sx.pawn k, sx.pawn j]
  have pk : y.pawn k = { v.pawn k with tr := tr } := by rw [py k, if_pos rfl]
  have g := State.copyGoes_starts (s := y) (k := k) (by rw [pk]; exact begun)
  refine ⟨?_, onlyPawn_iff.2 (fun j => ?_)⟩
  · rw [g.mem]
    exact wy.mem.trans sx.mem
  · rw [g.pawn j, State.onPawn_pawn, pk, py j, show y.cycle = v.cycle from wy.cycle.trans sx.cycle]
    split <;> rfl

/-! ### Lines moved (R329, R334) -/

/-- The line of a step has been moved and the pawn goes on, has finished, or stops cancelled. -/
theorem State.copyTurn_moves {v : State} {k : Fin 64} {l : CopyLine} {a b : Place} {pos : Nat} {last : Bool} {tr : List Trans}
    (h : v.LineReady (v.pawn k) l a b) (next : (v.pawn k).nextPos = pos) (onward : (v.pawn k).pos ≤ pos)
    (ends : (v.pawn k).job.overAt pos = last) (each : (v.pawn k).job.lines = 1) (live : (v.pawn k).fin = none)
    (kept : ∀ m due, ((v.pawn k).moved m due).tr = tr) (idle : (v.pawn k).cancelReq = true → ∀ e ∈ v.net, e.serial ≠ (v.pawn k).serial) :
    ∃ (d : Nat) (q : Pawn),
      (v.copyTurn k).mem = (if v.netMade (v.pawn k).serial ((v.pawn k).pos * 2 ^ 20 + 1) = true then v.mem
        else v.mem.writeBytes b.key (v.readFor 1 (v.pawn k).serial a l.n)) ∧
      v.cycle < d ∧ ((v.pawn k).pos = 0 ∨ (v.pawn k).job.remote = true → d = v.cycle + 1) ∧ onlyPawn v (v.copyTurn k) k q ∧
      q.cleared = if (v.pawn k).cancelReq = true ∧ last = false
        then { cancelledAt (Claims.stepped (v.pawn k) tr pos d last) with suspended := (v.pawn k).suspended }
        else Claims.stepped (v.pawn k) tr pos d last := by
  obtain ⟨u, d, turn, up, un, uc, um, zero⟩ := State.copyTurn_line h
  rw [next, ends, each] at turn
  have m_eq : (v.pawn k).pos + (pos - (v.pawn k).pos) = pos := Nat.add_sub_cancel' onward
  have mem : ∀ m last c, (u.afterStep k (.made m last) c).mem = u.mem := fun _ _ _ => rfl
  have lift : ∀ {w : State} {q : Pawn}, onlyPawn u w k q → onlyPawn v w k q := fun hw => by
    rw [onlyPawn_iff] at *
    intro j
    rw [hw j, up j]
  rw [turn]
  by_cases hc : (v.pawn k).cancelReq = true ∧ last = false
  · obtain ⟨hc, rfl⟩ := hc
    have only := u.afterStep_made_cancelled k (pos - (v.pawn k).pos) (1 + d) (by rw [up k]; exact hc) (by rw [un, up k]; exact idle hc)
    rw [up k, uc] at only
    refine ⟨v.cycle + (1 + d), _, (mem ..).trans um, by omega, fun hz => by rw [zero hz], lift only, ?_⟩
    rw [if_pos ⟨hc, rfl⟩, ← kept (pos - (v.pawn k).pos) (v.cycle + (1 + d))]
    unfold Pawn.cleared
    rw [if_neg (by simp [Pawn.stopCancelled])]
    unfold Claims.stepped cancelledAt Pawn.stopCancelled Pawn.moved
    simp only [m_eq]
    rfl
  · have hc' : (v.pawn k).cancelReq = false ∨ last = true := by
      rcases Bool.eq_false_or_eq_true (v.pawn k).cancelReq with h | h
      · rcases Bool.eq_false_or_eq_true last with g | g
        · exact .inr g
        · exact absurd ⟨h, g⟩ hc
      · exact .inl h
    have only := u.afterStep_made k (pos - (v.pawn k).pos) last (1 + d) (by rw [up k]; exact hc')
    rw [up k, uc] at only
    refine ⟨v.cycle + (1 + d), _, (mem ..).trans um, by omega, fun hz => by rw [zero hz], lift only, ?_⟩
    rw [if_neg hc]
    exact Pawn.cleared_moved live m_eq (kept _ _)

/-- Without requests of its own outside the column and writes that homes keep waiting, an access reads what memory holds. -/
theorem State.readFor_home {v : State} {serial : Nat} (idle : ∀ e ∈ v.net, e.serial ≠ serial) (home : v.homeWaits = false) (path : Nat) (p : Place)
    (n : Nat) : v.readFor path serial p n = v.mem.readBytes p.key n := by
  have none_found : v.net.find? (fun a => decide (a.serial = serial) && decide (a.site = v.site) && decide (a.key ≤ p.key) && !a.got.isEmpty &&
      decide (p.key + n ≤ a.key + a.got.length)) = none :=
    List.find?_eq_none.2 (fun e he => by simp [idle e he])
  have no_waits : v.part.replWrites.filter (fun w => w.site == v.site && w.cx == v.cx && w.path == path) = [] := by
    refine List.filter_eq_nil_iff.2 (fun w hw => ?_)
    have := List.any_eq_false.1 home w hw
    simp_all
  unfold State.readFor
  rw [none_found]
  show (v.part.replWrites.filter _).foldl _ _ = _
  rw [no_waits]
  rfl

/-! ### Faults (R140) -/

/-- A copy's access that faults as it is translated. -/
theorem State.copyTurn_xlateFault {v x : State} {k : Fin 64} {c : Cause} {src n : Nat} {rest : List (Acc × Nat × Nat)}
    (ok : ∀ f, (v.pawn k).net = some f → (v.pawn k).pos < f.1 / 2 ^ 20) (lines : (v.pawn k).stepLines = (.read, src, n) :: rest)
    (miss : placeOf (v.pawn k).tr false src = none) (h : v.xlate .t .read src n = (.fault c, x)) :
    v.copyTurn k = x.afterStep k (.fault c src) 0 ∧ v.SameWork x := by
  have w := (v.walked_xlate .t .read src n).same
  rw [h] at w
  refine ⟨State.copyTurn_fault ok (tr := (v.pawn k).tr) ?_, w⟩
  rw [lines]
  unfold State.xlateMore
  rw [if_neg (by simp [Acc.writes, miss]), h]

end Sys2Proof.Machine
end

section
/-! SUPPORT. The steps of copying pawns as events: what each leaves of memory and of the pawn table (R140, R168, R170, R329, R334). -/

namespace Sys2Proof.Machine

open Sys2Proof.Claims

/-- The state v in which the picked pawn p of entry k of a site's core makes its step. -/
structure State.Steps (s : State) (site : Nat) (k : Fin 64) (v : State) (p : Pawn) : Prop where
  at_eq : v = s.atPawn site k
  pawn_eq : v.pawn k = p
  pick : (s.focus site s.cx).enginePick ((s.focus site s.cx).pawn k).eng = some k

variable {s v : State} {site : Nat} {k : Fin 64} {p : Pawn}

theorem State.Steps.mem (h : s.Steps site k v p) : v.mem = s.mem := by rw [h.at_eq]; simp
theorem State.Steps.cycle (h : s.Steps site k v p) : v.cycle = s.cycle := by rw [h.at_eq]; simp

theorem State.Steps.live (h : s.Steps site k v p) : p.fin = none := by
  have := State.enginePick_open h.pick
  rw [← h.pawn_eq, h.at_eq, State.atPawn_pawn]
  exact this

theorem State.Steps.exec_eq (h : s.Steps site k v p) : exec (.pawnStep site k) s = .next ((v.stepPawn k).clearRanges k) := by
  rw [h.at_eq]
  exact exec_pawnStep h.pick

/-- What an engine's step leaves of memory and of the pawn table, from what the step of the pawn does. -/
theorem State.Steps.only (h : s.Steps site k v p) {q : Pawn} {m : Memory} (mem : (v.stepPawn k).mem = m)
    (only : onlyPawn v (v.stepPawn k) k q) : ∃ t, exec (.pawnStep site k) s = .next t ∧ t.mem = m ∧ onlyPawn v t k q.cleared :=
  ⟨_, h.exec_eq, by rw [State.clearRanges_mem, mem], State.clearRanges_only only⟩

/-- As before, of a pawn that has not finished. -/
theorem State.Steps.onlyOpen (h : s.Steps site k v p) {q : Pawn} {m : Memory} (mem : (v.stepPawn k).mem = m)
    (only : onlyPawn v (v.stepPawn k) k q) (live : q.fin = none) : ∃ t, exec (.pawnStep site k) s = .next t ∧ t.mem = m ∧ onlyPawn v t k q :=
  ⟨_, h.exec_eq, by rw [State.clearRanges_mem, mem], State.clearRanges_only_open only live⟩

/-- A cancel stops a pawn at its boundary (R170). -/
theorem State.Steps.cancel (h : s.Steps site k v p) (c : p.cancelReq = true) (m : v.midStep p = false) :
    ∃ t, exec (.pawnStep site k) s = .next t ∧ t.mem = s.mem ∧ onlyPawn v t k (cancelledAt p) := by
  obtain rfl := h.pawn_eq
  have e := State.stepPawn_cancelled c m
  refine h.only (q := { (v.pawn k).stopCancelled with suspended := false }) ?_ ?_
  · rw [e]; exact h.mem
  · rw [e]; exact onlyPawn_onPawn (fun _ => rfl)

/-- The first step of a copy starts (R165, R329). -/
theorem State.Steps.copyStart (h : s.Steps site k v p) (go : p.cancelReq = false ∨ v.midStep p = true)
    (ok : ∀ f, p.net = some f → p.pos < f.1 / 2 ^ 20) (e : p.eng = .transfer) (begun : p.starts = true) {tr : List Trans} {x : State}
    (hx : v.xlateMore .t p.stepLines p.tr = ((none, tr), x)) :
    ∃ t, exec (.pawnStep site k) s = .next t ∧ t.mem = s.mem ∧
      onlyPawn v t k { p with state := .running, due := s.cycle + p.lead, begun := true, tr := tr } := by
  obtain rfl := h.pawn_eq
  obtain ⟨mem, only⟩ := State.copyTurn_starts ok begun hx
  rw [← State.stepPawn_transfer go e] at mem only
  rw [h.cycle] at only
  exact h.onlyOpen (mem.trans h.mem) only h.live

/-- A step that a network has failed ends its pawn (R35, R140). -/
theorem State.Steps.copyFailed (h : s.Steps site k v p) (go : p.cancelReq = false ∨ v.midStep p = true) (e : p.eng = .transfer) {n : Nat} {c : Cause}
    (hn : p.net = some (n, c)) (hp : n / 2 ^ 20 ≤ p.pos) :
    ∃ t, exec (.pawnStep site k) s = .next t ∧ t.mem = s.mem ∧ onlyPawn v t k (faultedAt p c (p.netAddr n)) := by
  obtain rfl := h.pawn_eq
  have step := (State.stepPawn_transfer go e).trans (State.copyTurn_failed hn hp)
  have := h.only (q := (v.pawn k).fail c ((v.pawn k).netAddr n)) (m := s.mem) (by rw [step]; exact h.mem)
    (by rw [step]; exact onlyPawn_onPawn (fun _ => rfl))
  rw [Pawn.cleared_faulted] at this
  exact this

/-- A copy moves a piece of a line (R325, R329, R330). -/
theorem State.Steps.copyPiece (h : s.Steps site k v p) (go : p.cancelReq = false ∨ v.midStep p = true)
    (ok : ∀ f, p.net = some f → p.pos < f.1 / 2 ^ 20) (e : p.eng = .transfer) {src dst n pos : Nat} {last : Bool}
    (piece : pieceOf p = some (src, dst, n, pos, last)) {a b : Place} (begun : p.starts = false) (ha : placeOf p.tr false src = some a)
    (hb : placeOf p.tr true dst = some b) (pages : piecePages p a.leaf b.leaf) (back : v.stepAnswered p = true) (ra : v.readBad a.key n = false)
    (wb : v.writeBad b.key n = false) (home : b.replFrame = none) (idle : p.cancelReq = true → ∀ e ∈ v.net, e.serial ≠ p.serial) :
    ∃ t d, exec (.pawnStep site k) s = .next t ∧
      t.mem = (if v.netMade p.serial (p.pos * 2 ^ 20 + 1) = true then s.mem else s.mem.writeBytes b.key (v.readFor 1 p.serial a n)) ∧
      s.cycle < d ∧ (p.pos = 0 ∨ p.job.remote = true → d = s.cycle + 1) ∧
      let q := Claims.stepped p (trWithout p src (some dst)) pos d last
      onlyPawn v t k (if p.cancelReq = true ∧ last = false then { cancelledAt q with suspended := p.suspended } else q) := by
  obtain rfl := h.pawn_eq
  obtain ⟨l, piece⟩ := Pawn.isPiece_of_pieceOf piece
  obtain ⟨rfl, rfl, rfl, one, lines, next, onward, ends, each, target, pages'⟩ := piece
  have ready : v.LineReady (v.pawn k) l a b :=
    { one := one
      ok := ok
      begun := begun
      translated := by rw [lines]; simp [Acc.writes, ha, hb]
      fmt := by rw [ha, hb]; exact pages' _ _ pages
      source := ha
      target := (target v).trans hb
      readOk := ra
      writeOk := wb
      home := home
      back := back }
  obtain ⟨d, q, mem, late, soon, only, hq⟩ := State.copyTurn_moves ready next onward ends each h.live
    (fun m due => Pawn.moved_tr_pair m due lines) idle
  rw [← State.stepPawn_transfer go e] at mem only
  obtain ⟨t, ht, tm, tp⟩ := h.only mem only
  rw [h.cycle] at late soon
  rw [h.mem] at tm
  rw [hq] at tp
  exact ⟨t, d, ht, tm, late, soon, tp⟩

/-- A piece's access at a page that is not there suspends a pawn that is not adopted (R140). -/
theorem State.Steps.copyPage (h : s.Steps site k v p) (go : p.cancelReq = false ∨ v.midStep p = true)
    (ok : ∀ f, p.net = some f → p.pos < f.1 / 2 ^ 20) (e : p.eng = .transfer) {src dst n pos : Nat} {last : Bool}
    (piece : pieceOf p = some (src, dst, n, pos, last)) {x : State} (miss : placeOf p.tr false src = none)
    (hx : v.xlate .t .read src n = (.fault .page, x)) (own : p.adopted = false) :
    ∃ t, exec (.pawnStep site k) s = .next t ∧ t.mem = s.mem ∧ onlyPawn v t k (p.suspendedAt src) ∧
      t.ctx.pend = v.ctx.pend ++ [p.pageTrap k src] := by
  obtain rfl := h.pawn_eq
  obtain ⟨l, piece⟩ := Pawn.isPiece_of_pieceOf piece
  obtain ⟨turn, same⟩ := State.copyTurn_xlateFault ok piece.lines miss hx
  have step := (State.stepPawn_transfer go e).trans turn
  rw [State.afterStep_page src 0 (by rw [same.pawn k]; exact own), same.pawn k] at step
  have only : onlyPawn v (v.stepPawn k) k ((v.pawn k).suspendedAt src) := by
    rw [step]
    exact onlyPawn_of_pawn (onlyPawn_onPawn (f := fun p => p.suspendedAt src) same.pawn) (fun _ => rfl)
  refine ⟨_, h.exec_eq, ?_, ?_, ?_⟩
  · rw [State.clearRanges_mem, step]
    exact same.mem.trans h.mem
  · exact State.clearRanges_only_open only h.live
  · rw [State.clearRanges_pend, step]
    exact congrArg (· ++ [(v.pawn k).pageTrap k src]) same.pend

/-- Another fault of a piece's access, or one of an adopted pawn, ends the pawn (R140). -/
theorem State.Steps.copyFault (h : s.Steps site k v p) (go : p.cancelReq = false ∨ v.midStep p = true)
    (ok : ∀ f, p.net = some f → p.pos < f.1 / 2 ^ 20) (e : p.eng = .transfer) {src dst n pos : Nat} {last : Bool}
    (piece : pieceOf p = some (src, dst, n, pos, last)) {c : Cause} {x : State} (miss : placeOf p.tr false src = none)
    (hx : v.xlate .t .read src n = (.fault c, x)) (hc : c ≠ .page ∨ p.adopted = true) :
    ∃ t, exec (.pawnStep site k) s = .next t ∧ t.mem = s.mem ∧ onlyPawn v t k (faultedAt p c src) := by
  obtain rfl := h.pawn_eq
  obtain ⟨l, piece⟩ := Pawn.isPiece_of_pieceOf piece
  obtain ⟨turn, same⟩ := State.copyTurn_xlateFault ok piece.lines miss hx
  have step := (State.stepPawn_transfer go e).trans turn
  have ends : ¬(c = .page ∧ (x.pawn k).adopted = false) := by
    rw [same.pawn k]
    rintro ⟨rfl, ha⟩
    rcases hc with hc | hc
    · exact hc rfl
    · rw [ha] at hc; cases hc
  rw [State.afterStep_fault src 0 ends] at step
  have := h.only (q := (v.pawn k).fail c src) (m := s.mem) (by rw [step]; exact same.mem.trans h.mem)
    (by rw [step]; exact onlyPawn_onPawn same.pawn)
  rw [Pawn.cleared_faulted] at this
  exact this

/-- A SEND moves a line into its channel's slot (R114, R334). -/
theorem State.Steps.sendLine (h : s.Steps site k v p) (ok : ∀ f, p.net = some f → p.pos < f.1 / 2 ^ 20) (e : p.eng = .transfer)
    (going : p.cancelReq = false) (begun : p.starts = false) {chan slot n : Nat} {launch src : Word} {ch : Chan} {a : Place} {rs : Nat}
    (job : p.job = .send chan launch src slot n) (more : p.pos < n)
    (found : v.part.chans.find? (fun c => c.launch == launch && c.num == chan) = some ch) (at_ : v.siteOf ch.receiver = some rs)
    (ha : placeOf p.tr false (src.toNat + p.pos) = some a) (back : v.stepAnswered p = true) (ra : v.readBad a.key 64 = false)
    (wb : v.writeBad (spKey rs (ch.base + slot * ch.size + p.pos)) 64 = false) :
    ∃ t d, exec (.pawnStep site k) s = .next t ∧ s.cycle < d ∧
      t.mem = (if v.netMade p.serial (p.pos * 2 ^ 20 + 1) = true then s.mem
        else s.mem.writeBytes (spKey rs (ch.base + slot * ch.size + p.pos)) (v.readFor 1 p.serial a 64)) ∧
      onlyPawn v t k (Claims.stepped p (trWithout p (src.toNat + p.pos) none) (p.pos + 64) d (decide (n ≤ p.pos + 64))) := by
  obtain rfl := h.pawn_eq
  obtain ⟨one, lines, next⟩ := Pawn.moves_send job more
  have place : v.sendPlace (v.pawn k) = some { key := spKey rs (ch.base + slot * ch.size + (v.pawn k).pos), leaf := none } := by
    simp [State.sendPlace, job, found, at_]
  have ready : v.LineReady (v.pawn k) { src := src.toNat + (v.pawn k).pos, dst := (v.pawn k).pos, n := 64, row := 0, off := (v.pawn k).pos } a
      { key := spKey rs (ch.base + slot * ch.size + (v.pawn k).pos), leaf := none } :=
    { one := one
      ok := ok
      begun := begun
      translated := by rw [lines]; simp [Acc.writes, ha]
      fmt := by simp [PawnJob.lineFault, job]
      source := ha
      target := by simp [State.linePlace, job, place]
      readOk := ra
      writeOk := wb
      home := rfl
      back := back }
  obtain ⟨d, q, mem, late, _, only, hq⟩ := State.copyTurn_moves ready next (Nat.le_add_right ..) (last := decide (n ≤ (v.pawn k).pos + 64))
    (by simp [PawnJob.overAt, job]) (by simp [PawnJob.lines, job]) h.live (fun m due => Pawn.moved_tr_read m due lines)
    (fun c => by rw [going] at c; cases c)
  rw [← State.stepPawn_transfer (.inl going) e] at mem only
  obtain ⟨t, ht, tm, tp⟩ := h.only mem only
  rw [h.cycle] at late
  rw [h.mem] at tm
  rw [hq, if_neg (by simp [going])] at tp
  exact ⟨t, d, ht, late, tm, tp⟩

end Sys2Proof.Machine
end

section
/-! SUPPORT. Bytes stored at the places of their addresses (R118, R119, R326, R348). -/

namespace Sys2Proof.Machine

open Sys2Proof.Claims

/-! ### Runs of bytes -/

/-- A byte written at the place of its address; one that has no place is dropped. -/
def storeAt (ls : List (Nat × Place)) (m : Memory) (b : Nat × List (BitVec 8)) : Memory :=
  match placeIn ls b.1 with
  | some p => m.writeBytes p.key b.2
  | none => m

/-- Bytes written one by one. -/
def storeEach (ls : List (Nat × Place)) (bs : List (Nat × Nat)) (m : Memory) : Memory :=
  bs.foldl (fun m b => storeAt ls m (b.1, [BitVec.ofNat 8 b.2])) m

theorem Memory.writeBytes_concat (m : Memory) (a : Nat) (l : List (BitVec 8)) (b : BitVec 8) :
    m.writeBytes a (l ++ [b]) = (m.writeBytes a l).writeBytes (a + l.length) [b] := by
  induction l generalizing m a with
  | nil => rfl
  | cons x r ih =>
    show (m.write a x).writeBytes (a + 1) (r ++ [b]) = ((m.write a x).writeBytes (a + 1) r).writeBytes (a + (r.length + 1)) [b]
    rw [ih]
    congr 1
    omega

/-- Addresses of one line have places side by side. -/
theorem placeIn_add (ls : List (Nat × Place)) {a n : Nat} (h : (a + n) / 64 = a / 64) :
    placeIn ls (a + n) = (placeIn ls a).map (fun p => { p with key := p.key + n }) := by
  have hm : (a + n) % 64 = a % 64 + n := by omega
  unfold placeIn
  rw [h, hm, Option.map_map]
  refine congrFun (congrArg Option.map (funext fun l => ?_)) _
  show ({ l.2 with key := l.2.key + (a % 64 + n) } : Place) = { l.2 with key := l.2.key + a % 64 + n }
  rw [Nat.add_assoc]

/-- A run of a line longer by a byte is written as the run and then the byte. -/
theorem storeAt_concat (ls : List (Nat × Place)) (m : Memory) {a : Nat} {l : List (BitVec 8)} (b : BitVec 8) (h : (a + l.length) / 64 = a / 64) :
    storeAt ls m (a, l ++ [b]) = storeAt ls (storeAt ls m (a, l)) (a + l.length, [b]) := by
  unfold storeAt
  rw [placeIn_add ls h]
  cases placeIn ls a with
  | none => rfl
  | some p => exact Memory.writeBytes_concat m p.key l b

/-- The runs of bytes, the last first, with one more byte. -/
def addRun (acc : List (Nat × List (BitVec 8))) (b : Nat × Nat) : List (Nat × List (BitVec 8)) :=
  match acc with
  | (a, l) :: rest =>
    if b.1 = a + l.length ∧ b.1 % 64 ≠ 0 then (a, l ++ [BitVec.ofNat 8 b.2]) :: rest else (b.1, [BitVec.ofNat 8 b.2]) :: acc
  | [] => [(b.1, [BitVec.ofNat 8 b.2])]

theorem byteRuns_eq (bs : List (Nat × Nat)) : byteRuns bs = (bs.foldl addRun []).reverse := rfl

/-- A run stays within a line. -/
def runInLine (r : Nat × List (BitVec 8)) : Prop := r.2 ≠ [] ∧ (r.1 + (r.2.length - 1)) / 64 = r.1 / 64

/-- A byte that goes on a run stays in its line. -/
theorem runInLine_next {a : Nat} {l : List (BitVec 8)} (h : runInLine (a, l)) (hm : (a + l.length) % 64 ≠ 0) : (a + l.length) / 64 = a / 64 := by
  obtain ⟨hl, hd⟩ := h
  have := List.length_pos_iff.2 hl
  dsimp only at hd
  omega

theorem runInLine_addRun {acc : List (Nat × List (BitVec 8))} (b : Nat × Nat) (h : ∀ r ∈ acc, runInLine r) : ∀ r ∈ addRun acc b, runInLine r := by
  have single : runInLine (b.1, [BitVec.ofNat 8 b.2]) := ⟨by simp, rfl⟩
  unfold addRun
  split
  next a l rest =>
    split
    next e =>
      obtain ⟨ha, hm⟩ := e
      rw [ha] at hm
      have grown : runInLine (a, l ++ [BitVec.ofNat 8 b.2]) := by
        refine ⟨by simp, ?_⟩
        have := runInLine_next (h _ (List.mem_cons_self ..)) hm
        simpa using this
      intro r hr
      rcases List.mem_cons.1 hr with rfl | hr
      · exact grown
      · exact h r (List.mem_cons_of_mem _ hr)
    · intro r hr
      rcases List.mem_cons.1 hr with rfl | hr
      · exact single
      · exact h r hr
  · intro r hr
    rcases List.mem_cons.1 hr with rfl | hr
    · exact single
    · cases hr

/-- A byte more is written after the runs before it. -/
theorem storeAt_addRun (ls : List (Nat × Place)) (m : Memory) {acc : List (Nat × List (BitVec 8))} (b : Nat × Nat) (h : ∀ r ∈ acc, runInLine r) :
    (addRun acc b).reverse.foldl (storeAt ls) m = storeAt ls (acc.reverse.foldl (storeAt ls) m) (b.1, [BitVec.ofNat 8 b.2]) := by
  unfold addRun
  split
  next a l rest =>
    split
    next e =>
      obtain ⟨ha, hm⟩ := e
      rw [ha] at hm
      simp only [List.reverse_cons, List.foldl_append, List.foldl_cons, List.foldl_nil]
      rw [storeAt_concat ls _ _ (runInLine_next (h _ (List.mem_cons_self ..)) hm), ha]
    · simp only [List.reverse_cons, List.foldl_append, List.foldl_cons, List.foldl_nil]
  · rfl

/-- Runs are written as their bytes one by one. -/
theorem storeAt_byteRuns (ls : List (Nat × Place)) (bs : List (Nat × Nat)) (m : Memory) :
    (byteRuns bs).foldl (storeAt ls) m = storeEach ls bs m := by
  have key : ∀ (bs : List (Nat × Nat)) (acc : List (Nat × List (BitVec 8))), (∀ r ∈ acc, runInLine r) →
      (bs.foldl addRun acc).reverse.foldl (storeAt ls) m = storeEach ls bs (acc.reverse.foldl (storeAt ls) m) := by
    intro bs
    induction bs with
    | nil => intro acc _; rfl
    | cons b rest ih =>
      intro acc h
      show (rest.foldl addRun (addRun acc b)).reverse.foldl (storeAt ls) m = _
      rw [ih _ (runInLine_addRun b h), storeAt_addRun ls m b h]
      rfl
  rw [byteRuns_eq]
  exact key bs [] (by simp)

/-! ### What the stored bytes leave -/

theorem storeAt_wf (ls : List (Nat × Place)) {m : Memory} (b : Nat × List (BitVec 8)) (h : m.wf = true) : (storeAt ls m b).wf = true := by
  unfold storeAt
  split
  · exact Memory.wf_writeBytes _ h
  · exact h

/-- A byte stored stands at the key of its place, and no other key is different. -/
theorem read_storeAt (ls : List (Nat × Place)) {m : Memory} (b : Nat × Nat) (k : Nat) (h : m.wf = true) :
    (storeAt ls m (b.1, [BitVec.ofNat 8 b.2])).read k =
      if ∃ p, placeIn ls b.1 = some p ∧ p.key = k then BitVec.ofNat 8 b.2 else m.read k := by
  unfold storeAt
  cases hp : placeIn ls b.1 with
  | none => simp
  | some p =>
    by_cases e : p.key = k
    · subst e
      simp only [Option.some.injEq, exists_eq_left', if_true]
      exact Memory.read_write_same h
    · simp only [Option.some.injEq, exists_eq_left', e, if_false]
      exact Memory.read_write_ne h (Ne.symm e)

theorem storeEach_concat (ls : List (Nat × Place)) (bs : List (Nat × Nat)) (b : Nat × Nat) (m : Memory) :
    storeEach ls (bs ++ [b]) m = storeAt ls (storeEach ls bs m) (b.1, [BitVec.ofNat 8 b.2]) := by
  simp [storeEach]

theorem storeEach_wf (ls : List (Nat × Place)) (bs : List (Nat × Nat)) {m : Memory} (h : m.wf = true) : (storeEach ls bs m).wf = true := by
  induction bs generalizing m with
  | nil => exact h
  | cons b rest ih => exact ih (storeAt_wf ls _ h)

/-- Bytes stored one by one are stored exactly: of two at one key the later stands. -/
theorem storesExactly_storeEach (ls : List (Nat × Place)) (bs : List (Nat × Nat)) {m : Memory} (h : m.wf = true) :
    storesExactly m (storeEach ls bs m) ls bs := by
  induction bs using List.reverseRecOn with
  | nil => exact ⟨fun _ _ => rfl, fun k v ⟨x, hx, _⟩ _ => by cases hx⟩
  | append_singleton bs b ih =>
    obtain ⟨outside, inside⟩ := ih
    have hw := storeEach_wf ls bs h
    refine ⟨fun k none_at => ?_, fun k v at_k only => ?_⟩
    · have hb : ¬∃ p, placeIn ls b.1 = some p ∧ p.key = k := fun ⟨p, hp, hk⟩ => none_at b.2 ⟨b, by simp, p, hp, hk, rfl⟩
      rw [storeEach_concat, read_storeAt ls b k hw, if_neg hb]
      exact outside k (fun v ⟨x, hx, r⟩ => none_at v ⟨x, List.mem_append_left _ hx, r⟩)
    · rw [storeEach_concat, read_storeAt ls b k hw]
      split
      next hb =>
        obtain ⟨p, hp, hk⟩ := hb
        rw [only b.2 ⟨b, by simp, p, hp, hk, rfl⟩]
      next hb =>
        refine inside k v ?_ (fun w ⟨x, hx, r⟩ => only w ⟨x, List.mem_append_left _ hx, r⟩)
        obtain ⟨x, hx, p, hp, hk, hv⟩ := at_k
        rcases List.mem_append.1 hx with hx | hx
        · exact ⟨x, hx, p, hp, hk, hv⟩
        · rw [List.mem_singleton.1 hx] at hp
          exact absurd ⟨p, hp, hk⟩ hb

/-! ### Stores by a path at resolved addresses -/

/-- A frame without copies has none at any of its addresses. -/
theorem Place.replFrame_key {p : Place} (k : Nat) (h : p.replFrame = none) : ({ p with key := k } : Place).replFrame = none := by
  unfold Place.replFrame at *
  cases hl : p.leaf with
  | none => rfl
  | some l =>
    rw [hl] at h
    dsimp only at h ⊢
    split
    · rfl
    next hr =>
      rw [if_neg hr] at h
      split at h
      · cases h
      · split at h
        · cases h
        next h0 h1 => rw [if_neg h0, if_neg h1]

theorem placeIn_home {ls : List (Nat × Place)} (home : ∀ l ∈ ls, l.2.replFrame = none) {a : Nat} {p : Place} (h : placeIn ls a = some p) :
    p.replFrame = none := by
  unfold placeIn at h
  obtain ⟨l, hl, rfl⟩ := Option.map_eq_some_iff.1 h
  exact Place.replFrame_key _ (home l (List.mem_of_find?_eq_some hl))

/-- The state but for memory and the words in error. -/
def State.Stored (s t : State) : Prop := ∃ mem bad flips, t = { s with mem := mem, badWords := bad, flips := flips }

/-- A run of bytes written by a path at the place of its address. -/
def State.storeRun (ls : List (Nat × Place)) (via : Via) (s : State) (b : Nat × List (BitVec 8)) : State :=
  match placeIn ls b.1 with
  | some p => s.writePlace via.path via.serial p b.2
  | none => s

theorem State.storeBytes_eq (s : State) (via : Via) (ls : List (Nat × Place)) (bs : List (Nat × Nat)) :
    s.storeBytes via ls bs = ((byteRuns bs).foldl (State.storeRun ls via) s).clearBad ls bs := rfl

theorem State.storeRun_home {ls : List (Nat × Place)} (home : ∀ l ∈ ls, l.2.replFrame = none) (via : Via) (s : State)
    (b : Nat × List (BitVec 8)) : s.Stored (State.storeRun ls via s b) ∧ (State.storeRun ls via s b).mem = storeAt ls s.mem b := by
  unfold State.storeRun storeAt
  cases hp : placeIn ls b.1 with
  | none => exact ⟨⟨s.mem, s.badWords, s.flips, rfl⟩, rfl⟩
  | some p =>
    dsimp only
    rw [State.writePlace_home _ _ _ (placeIn_home home hp)]
    exact ⟨⟨_, _, _, rfl⟩, rfl⟩

/-- Runs written at places without copies: beside memory and the words in error nothing is different. -/
theorem State.storeRuns_home {ls : List (Nat × Place)} (home : ∀ l ∈ ls, l.2.replFrame = none) (via : Via) (rs : List (Nat × List (BitVec 8)))
    (s : State) :
    s.Stored (rs.foldl (State.storeRun ls via) s) ∧ (rs.foldl (State.storeRun ls via) s).mem = rs.foldl (storeAt ls) s.mem := by
  induction rs generalizing s with
  | nil => exact ⟨⟨s.mem, s.badWords, s.flips, rfl⟩, rfl⟩
  | cons b rest ih =>
    obtain ⟨⟨m, bad, flips, ht⟩, hm⟩ := State.storeRun_home home via s b
    obtain ⟨⟨m', bad', flips', ht'⟩, hm'⟩ := ih (State.storeRun ls via s b)
    rw [hm] at hm'
    refine ⟨⟨m', bad', flips', ?_⟩, hm'⟩
    show rest.foldl (State.storeRun ls via) (State.storeRun ls via s b) = _
    rw [ht', ht]

theorem State.storeBytes_home {ls : List (Nat × Place)} (home : ∀ l ∈ ls, l.2.replFrame = none) (via : Via) (bs : List (Nat × Nat)) (s : State) :
    s.Stored (s.storeBytes via ls bs) ∧ (s.storeBytes via ls bs).mem = storeEach ls bs s.mem := by
  obtain ⟨⟨m, bad, flips, ht⟩, hm⟩ := State.storeRuns_home home via (byteRuns bs) s
  rw [storeAt_byteRuns] at hm
  rw [State.storeBytes_eq]
  unfold State.clearBad
  rw [ht] at hm ⊢
  split
  · exact ⟨⟨m, bad, flips, rfl⟩, hm⟩
  · exact ⟨⟨m, _, flips, rfl⟩, hm⟩

end Sys2Proof.Machine
end

section
/-! SUPPORT. The steps of matrix pawns: starts, rows of the accumulator copies, and the beginning of an MGO's step (R342, R344, R347, R348). -/

namespace Sys2Proof.Machine

open Sys2Proof.Claims

variable {s v : State} {site : Nat} {k : Fin 64} {p : Pawn}

/-! ### Which step a matrix pawn makes -/

/-- The first step of an accumulator copy starts. -/
theorem State.stepPawn_rowStart (go : (v.pawn k).cancelReq = false) (e : (v.pawn k).eng = .matrix) (row : (v.pawn k).job.isMgo = false)
    (begun : (v.pawn k).starts = true) : v.stepPawn k = v.onPawn k (fun p => p.begin v.cycle) := by
  unfold State.stepPawn
  simp only [go, Bool.false_and, Bool.false_eq_true, if_false, e, row, begun, if_true]

/-- A row step of an accumulator copy that is made. -/
theorem State.stepPawn_row {t : State} {m : Nat} {last : Bool} (go : (v.pawn k).cancelReq = false) (e : (v.pawn k).eng = .matrix)
    (row : (v.pawn k).job.isMgo = false) (begun : (v.pawn k).starts = false) (h : v.mcStep k = (.made m last, t)) :
    ∃ u : State, v.stepPawn k = u.afterStep k (.made m last) 1 ∧ t.SameWork u := by
  have hne : (StepEnd.made m last = .wait) = False := by simp
  refine ⟨(t.stepContend (v.pawn k)).2.onCore (fun c => { c with mcCycle := v.cycle + 1 + (t.stepContend (v.pawn k)).1 }),
    ?_, (t.same_stepContend _).trans (.onCore rfl rfl)⟩
  unfold State.stepPawn
  simp only [go, Bool.false_and, Bool.false_eq_true, if_false, e, row, begun, h, hne]

/-- An MGO's step begins. -/
theorem State.stepPawn_mgo (go : (v.pawn k).cancelReq = false) (e : (v.pawn k).eng = .matrix) (mgo : (v.pawn k).job.isMgo = true) :
    v.stepPawn k = v.mgoBegin k := by
  unfold State.stepPawn
  simp only [go, Bool.false_and, Bool.false_eq_true, if_false, e, mgo, if_true]

theorem State.Steps.rowStart (h : s.Steps site k v p) (go : p.cancelReq = false) (e : p.eng = .matrix) (row : p.job.isMgo = false)
    (begun : p.starts = true) :
    ∃ t, exec (.pawnStep site k) s = .next t ∧ t.mem = s.mem ∧
      onlyPawn v t k { p with state := .running, due := s.cycle + p.lead, begun := true } := by
  obtain rfl := h.pawn_eq
  have step := State.stepPawn_rowStart go e row begun
  rw [h.cycle] at step
  exact h.onlyOpen (by rw [step]; exact h.mem) (by rw [step]; exact onlyPawn_onPawn (f := fun p => p.begin s.cycle) (fun _ => rfl)) h.live

/-! ### Rows of the accumulator (R337, R347, R348) -/

/-- A row that has been written is read back, and no other row is different. -/
theorem Context.accRow_setRow {c : Context} (h : c.acc.wf = true) (r q : Nat) (i : Bool) (l : List Half) :
    (c.setRow r i l).accRow q = if q = r then l else c.accRow q := by
  unfold Context.accRow Context.setRow
  split
  next e => rw [e]; exact Tab.getD_setD_same h
  next e => exact Tab.getD_setD_ne h e

theorem Context.rowIsInt_setRow {c : Context} (h : c.rowInt.wf = true) (r q : Nat) (i : Bool) (l : List Half) :
    (c.setRow r i l).rowIsInt q = if q = r then i else c.rowIsInt q := by
  unfold Context.rowIsInt Context.setRow
  split
  next e => rw [e]; exact Tab.getD_setD_same h
  next e => exact Tab.getD_setD_ne h e

theorem onlyRow_setRow {c d : Context} (ha : c.acc.wf = true) (hi : c.rowInt.wf = true) {r : Nat} {i : Bool} {l : List Half}
    (acc : d.acc = (c.setRow r i l).acc) (rowInt : d.rowInt = (c.setRow r i l).rowInt) : onlyRow c d r i l := by
  intro q
  constructor
  · rw [show d.accRow q = (c.setRow r i l).accRow q by unfold Context.accRow; rw [acc], Context.accRow_setRow ha]
  · rw [show d.rowIsInt q = (c.setRow r i l).rowIsInt q by unfold Context.rowIsInt; rw [rowInt], Context.rowIsInt_setRow hi]

/-- What a made row step leaves: the accumulator and memory as its row says, the entry a step further. -/
theorem State.Steps.rowMade (h : s.Steps site k v p) (go : p.cancelReq = false) (e : p.eng = .matrix) (row : p.job.isMgo = false)
    (begun : p.starts = false) (unmoved : p.moves = []) {t : State} {last : Bool} {tr : List Trans} (step : v.mcStep k = (.made 1 last, t))
    (cycle : t.cycle = v.cycle) (entry : ∀ j, t.pawn j = if j = k then { p with tr := tr } else v.pawn j) :
    ∃ u, exec (.pawnStep site k) s = .next u ∧ u.mem = t.mem ∧ u.ctx.acc = t.ctx.acc ∧ u.ctx.rowInt = t.ctx.rowInt ∧
      onlyPawn v u k (Claims.stepped p tr (p.pos + 1) (s.cycle + 1) last) := by
  obtain rfl := h.pawn_eq
  obtain ⟨u, hu, same⟩ := State.stepPawn_row go e row begun step
  have pk : u.pawn k = { v.pawn k with tr := tr } := by rw [same.pawn k, entry k, if_pos rfl]
  have made := u.afterStep_made k 1 last 1 (by rw [pk]; exact .inl go)
  have kept : ({ v.pawn k with tr := tr } : Pawn).stepLines = [] := by
    have hm : ({ v.pawn k with tr := tr } : Pawn).moves = [] := unmoved
    unfold Pawn.stepLines
    rw [hm]
    split <;> rfl
  have only : onlyPawn v (v.stepPawn k) k (if last then ((u.pawn k).moved 1 (u.cycle + 1)).finish else (u.pawn k).moved 1 (u.cycle + 1)) := by
    rw [hu, onlyPawn_iff] at *
    intro j
    rw [made j, same.pawn j, entry j]
    split <;> rfl
  refine ⟨_, h.exec_eq, ?_, ?_, ?_, ?_⟩
  · rw [State.clearRanges_mem, hu]; exact same.mem
  · rw [State.clearRanges_acc, hu]; exact same.acc
  · rw [State.clearRanges_rowInt, hu]; exact same.rowInt
  · have := State.clearRanges_only only
    rw [Pawn.cleared_moved (p := u.pawn k) (m := 1) (tr := tr) (pos := (v.pawn k).pos + 1) (by rw [pk]; exact h.live) (by rw [pk])
      (by
        rw [pk]
        show tr.filter (fun t => !(({ v.pawn k with tr := tr } : Pawn).stepLines.map _).contains (t.va, t.writes)) = tr
        rw [kept]
        exact List.filter_eq_self.2 (fun _ _ => rfl)), pk, same.cycle, cycle, h.cycle] at this
    cases last <;> exact this

/-- Do two states read the same bytes. -/
def State.ReadsAs (t s : State) : Prop := ∀ path serial p n, t.readFor path serial p n = s.readFor path serial p n

theorem State.ReadsAs.num {t s : State} (h : t.ReadsAs s) (via : Via) (ls : List (Nat × Place)) (as : List Nat) :
    t.numIn via ls as = s.numIn via ls as := by
  have byte : ∀ a, t.byteIn via ls a = s.byteIn via ls a := fun a => by
    unfold State.byteIn
    split
    · rw [h]
    · rfl
  induction as with
  | nil => rfl
  | cons a rest ih => unfold State.numIn; rw [byte, ih]

theorem State.ReadsAs.elem {t s : State} (h : t.ReadsAs s) (via : Via) (w : Walking) (ls : List (Nat × Place)) (r c : Nat) :
    t.elemIn via w ls r c = s.elemIn via w ls r c := by
  unfold State.elemIn
  rw [h.num]

theorem State.ReadsAs.value {t s : State} (h : t.ReadsAs s) (via : Via) (w : Walking) (ls : List (Nat × Place)) (r c : Nat) :
    t.valueIn via w ls r c = s.valueIn via w ls r c := by
  have scale : ∀ a, t.byteIn via ls a = s.byteIn via ls a := fun a => by
    have := h.num via ls [a]
    simpa [State.numIn] using this
  unfold State.valueIn State.blockIn
  simp only [h.elem, scale]

/-- The state m in which a row step of the pawn of an entry has its lines: beside what translation changes, the pawn keeps no translations. -/
structure State.RowReady (v : State) (k : Fin 64) (m : State) : Prop where
  entry : ∀ j, m.pawn j = if j = k then { v.pawn k with tr := [] } else v.pawn j
  mem : m.mem = v.mem
  cycle : m.cycle = v.cycle
  acc : m.ctx.acc = v.ctx.acc
  rowInt : m.ctx.rowInt = v.ctx.rowInt
  accRow : ∀ r, m.ctx.accRow r = v.ctx.accRow r
  rowIsInt : ∀ r, m.ctx.rowIsInt r = v.ctx.rowIsInt r
  accBad : ∀ r lo hi, m.accBad r lo hi = v.accBad r lo hi
  badLine : ∀ ls, m.badLine ls = v.badLine ls
  partBad : ∀ ls bs, m.partBad ls bs = v.partBad ls bs
  reads : ∀ key n, (m.rewrite key n).ReadsAs v

/-- The lines of a row step, translated. -/
theorem State.linesM_ok {a : Acc} {as : List Nat} {ls : List (Nat × Place)} {m : State} (h : v.linesM k a as = (.ok ls, m)) : v.RowReady k m := by
  unfold State.linesM at h
  have w := v.walked_xlateMore .m ((linePieces (linesOf as)).map (fun l => (a, l.1, l.2))) (v.pawn k).tr
  dsimp only at h
  split at h
  · cases h
  next tr x e =>
    rw [e] at w
    have hm : x.onPawn k (fun p => { p with tr := [] }) = m := congrArg Prod.snd h
    subst hm
    have entry : ∀ j, (x.onPawn k (fun p => { p with tr := [] })).pawn j = if j = k then { v.pawn k with tr := [] } else v.pawn j := fun j => by
      rw [State.onPawn_pawn, w.same.pawn k, w.same.pawn j]
    obtain ⟨_, _, _, _, _, _, _, _, _, _, hx⟩ := w
    have hx : x = _ := hx
    subst hx
    exact ⟨entry, rfl, rfl, rfl, rfl, fun _ => rfl, fun _ => rfl, fun _ _ _ => rfl, fun _ => rfl, fun _ _ => rfl, fun _ _ _ _ _ _ => rfl⟩

/-- Does a row of a walk remain to a pawn. -/
theorem rowRemains {rows pos : Nat} {n : Nat} {cols : BitVec n} (more : pos < rows) (some_ : cols ≠ 0) : ¬(rows ≤ pos ∨ cols = 0) := by
  rintro (hr | hc)
  · exact Nat.not_le.2 more hr
  · exact some_ hc

/-- A row of ACC2S: the bytes of the row are stored (R348). -/
theorem State.Steps.acc2sRow (h : s.Steps site k v p) (go : p.cancelReq = false) (begun : p.starts = false) (e : p.eng = .matrix) {base : Word}
    {tile : Nat} {ly : LyRec} (job : p.job = .acc2s base tile ly) (more : p.pos < ly.rows.toNat) (cols : ly.cols ≠ 0) {ls : List (Nat × Place)}
    {m1 : State} (fmt : mcFmtBad (mcWalk ly base) = false) (lines : v.linesM k .write ((mcWalk ly base).rowAddrs p.pos) = (.ok ls, m1))
    (good : v.accBad (128 * tile + p.pos) 0 ly.cols.toNat = false)
    (whole : v.partBad ls (acc2sWrites (mcWalk ly base) p.pos (v.ctx.rowIsInt (128 * tile + p.pos)) (v.ctx.accRow (128 * tile + p.pos))) = none)
    (home : ∀ l ∈ ls, l.2.replFrame = none) (wf : s.mem.wf = true) :
    ∃ t, exec (.pawnStep site k) s = .next t ∧
      storesExactly s.mem t.mem ls (acc2sWrites (mcWalk ly base) p.pos (v.ctx.rowIsInt (128 * tile + p.pos)) (v.ctx.accRow (128 * tile + p.pos))) ∧
      t.ctx.acc = v.ctx.acc ∧
      onlyPawn v t k (Claims.stepped p [] (p.pos + 1) (s.cycle + 1) (decide (ly.rows.toNat ≤ p.pos + 1))) := by
  obtain rfl := h.pawn_eq
  have ready := State.linesM_ok lines
  have step : v.mcStep k = (.made 1 (decide (ly.rows.toNat ≤ (v.pawn k).pos + 1)), m1.storeBytes { path := 2, serial := (v.pawn k).serial } ls
      (acc2sWrites (mcWalk ly base) (v.pawn k).pos (v.ctx.rowIsInt (128 * tile + (v.pawn k).pos)) (v.ctx.accRow (128 * tile + (v.pawn k).pos)))) := by
    unfold State.mcStep
    simp only [job, if_neg (rowRemains more cols), fmt, Bool.false_eq_true, if_false]
    unfold State.acc2sStep
    simp only [lines, show (mcWalk ly base).ly = ly from rfl, ready.accBad, good, Bool.false_eq_true, if_false, ready.partBad, ready.accRow,
      ready.rowIsInt, whole]
  obtain ⟨⟨mem', badw, flips, ht⟩, hmem⟩ := State.storeBytes_home home { path := 2, serial := (v.pawn k).serial }
    (acc2sWrites (mcWalk ly base) (v.pawn k).pos (v.ctx.rowIsInt (128 * tile + (v.pawn k).pos)) (v.ctx.accRow (128 * tile + (v.pawn k).pos))) m1
  obtain ⟨u, hu, um, ua, _, up⟩ := h.rowMade (tr := []) go e (by simp [PawnJob.isMgo, job]) begun (by simp [Pawn.moves, job]) step
    (by rw [ht]; exact ready.cycle) (by rw [ht]; exact ready.entry)
  refine ⟨u, hu, ?_, ?_, up⟩
  · rw [um, hmem, ready.mem, h.mem]
    exact storesExactly_storeEach ls _ wf
  · rw [ua, ht]; exact ready.acc

/-- What S2ACC puts into an element looks at the pattern of a RAW element, and at the value of any other. -/
theorem s2accElem_eq (fmt pattern : Nat) (v z : Val) : s2accElem fmt pattern (if fmt = 0 then z else v) =
    if fmt = 0 then BitVec.ofNat 32 pattern
    else if isIntFmt fmt then BitVec.ofInt 32 v.toInt
    else BitVec.ofNat 32 (roundTo fp32 .rne false v).1 := by
  unfold s2accElem
  by_cases h : fmt = 0
  · rw [if_pos h, if_pos h]
  · rw [if_neg h, if_neg h, if_neg h]

/-- A row of S2ACC: the row of the accumulator is what the elements read give it, and no other row is different (R348). -/
theorem State.Steps.s2accRow (h : s.Steps site k v p) (go : p.cancelReq = false) (begun : p.starts = false) (e : p.eng = .matrix) {base : Word}
    {tile : Nat} {ly : LyRec} (job : p.job = .s2acc base tile ly) (more : p.pos < ly.rows.toNat) (cols : ly.cols ≠ 0) {ls : List (Nat × Place)}
    {m1 : State} (fmt : mcFmtBad (mcWalk ly base) = false) (lines : v.linesM k .read ((mcWalk ly base).rowAddrs p.pos) = (.ok ls, m1))
    (good : v.badLine ls = none) (whole : ly.cols.toNat % 2 = 1 → v.accBad (128 * tile + p.pos) (ly.cols.toNat - 1) ly.cols.toNat = false)
    (wa : v.ctx.acc.wf = true) (wi : v.ctx.rowInt.wf = true) :
    let w := mcWalk ly base
    let row := 128 * tile + p.pos
    let via : Via := { path := 2, serial := p.serial }
    ∃ t, exec (.pawnStep site k) s = .next t ∧ t.mem = s.mem ∧
      onlyRow v.ctx t.ctx row (if w.fmt = 0 then v.ctx.rowIsInt row else isIntFmt w.fmt) ((List.range 128).map (fun i =>
        if ly.cols.toNat ≤ i then (v.ctx.accRow row).getD i 0
        else s2accElem w.fmt (if w.geom = 0 then v.elemIn via w ls p.pos i else 0)
          (if w.fmt = 0 then .fin false 0 0 else (v.valueIn via w ls p.pos i).1))) ∧
      onlyPawn v t k (Claims.stepped p [] (p.pos + 1) (s.cycle + 1) (decide (ly.rows.toNat ≤ p.pos + 1))) := by
  obtain rfl := h.pawn_eq
  intro w row via
  have ready := State.linesM_ok lines
  have half : ¬(ly.cols.toNat % 2 = 1 ∧ v.accBad (128 * tile + (v.pawn k).pos) (ly.cols.toNat - 1) ly.cols.toNat = true) := by
    rintro ⟨odd, hb⟩
    rw [whole odd] at hb
    cases hb
  generalize hn : (List.range 128).map (fun i =>
        if ly.cols.toNat ≤ i then (v.ctx.accRow row).getD i 0
        else s2accElem w.fmt (if w.geom = 0 then v.elemIn via w ls (v.pawn k).pos i else 0)
          (if w.fmt = 0 then .fin false 0 0 else (v.valueIn via w ls (v.pawn k).pos i).1)) = new
  generalize hk : (if w.fmt = 0 then v.ctx.rowIsInt row else isIntFmt w.fmt) = kind
  have step : v.mcStep k = (.made 1 (decide (ly.rows.toNat ≤ (v.pawn k).pos + 1)),
      (m1.rewrite (m1.accKey row) (4 * ly.cols.toNat)).onCtx (fun c => c.setRow row kind new)) := by
    unfold State.mcStep
    simp only [job, if_neg (rowRemains more cols), fmt, Bool.false_eq_true, if_false]
    unfold State.s2accStep
    simp only [lines, show (mcWalk ly base).ly = ly from rfl, ready.badLine, good, ready.accBad, if_neg half, (ready.reads _ _).elem, (ready.reads _ _).value]
    rw [show ∀ a n r, (m1.rewrite a n).ctx.accRow r = v.ctx.accRow r from fun _ _ => ready.accRow,
      show ∀ a n r, (m1.rewrite a n).ctx.rowIsInt r = v.ctx.rowIsInt r from fun _ _ => ready.rowIsInt, ← hn, ← hk]
  obtain ⟨u, hu, um, ua, ui, up⟩ := h.rowMade (tr := []) go e (by simp [PawnJob.isMgo, job]) begun (by simp [Pawn.moves, job]) step
    ready.cycle ready.entry
  refine ⟨u, hu, ?_, onlyRow_setRow wa wi ?_ ?_, up⟩
  · rw [um]; exact ready.mem.trans h.mem
  · rw [ua]; exact congrArg (fun a => Tab.setD a row accZeros new) ready.acc
  · rw [ui]; exact congrArg (fun a => Tab.setD a row false kind) ready.rowInt

/-- A row of ACCMUL after the first: each element is multiplied by its element of the scale vector (R347). -/
theorem State.Steps.accmulRow (h : s.Steps site k v p) (go : p.cancelReq = false) (begun : p.starts = false) (e : p.eng = .matrix) {base : Word}
    {tile : Nat} {ly : LyRec} {perCol : Bool} (job : p.job = .accmul base tile ly perCol) (later : 0 < p.pos) (more : p.pos < 128) (cols : ly.cols ≠ 0)
    (fmt : mcFmtBad (mcWalk ly base) = false) (good : v.accBad (128 * tile + p.pos) 0 128 = false)
    (wa : v.ctx.acc.wf = true) (wi : v.ctx.rowInt.wf = true) :
    let row := 128 * tile + p.pos
    ∃ t, exec (.pawnStep site k) s = .next t ∧ t.mem = s.mem ∧
      onlyRow v.ctx t.ctx row false ((v.ctx.accRow row).mapIdx (fun i o => BitVec.ofNat 32
        (roundFp32 ((accVal (v.ctx.rowIsInt row) o).mul (p.vec.getD (if perCol then i else p.pos) (.fin false 0 0)))))) ∧
      onlyPawn v t k (Claims.stepped p p.tr (p.pos + 1) (s.cycle + 1) (decide (128 ≤ p.pos + 1))) := by
  obtain rfl := h.pawn_eq
  intro row
  generalize hn : (v.ctx.accRow row).mapIdx (fun i o => BitVec.ofNat 32
        (roundFp32 ((accVal (v.ctx.rowIsInt row) o).mul ((v.pawn k).vec.getD (if perCol then i else (v.pawn k).pos) (.fin false 0 0))))) = new
  have step : v.mcStep k = (.made 1 (decide (128 ≤ (v.pawn k).pos + 1)), v.onCtx (fun c => c.setRow row false new)) := by
    unfold State.mcStep
    simp only [job, if_neg (rowRemains more cols), fmt, Bool.false_eq_true, if_false]
    unfold State.accmulStep
    simp only [if_neg (Nat.pos_iff_ne_zero.1 later), good, Bool.false_eq_true, if_false, ← hn]
    rfl
  obtain ⟨u, hu, um, ua, ui, up⟩ := h.rowMade (tr := (v.pawn k).tr) go e (by simp [PawnJob.isMgo, job]) begun (by simp [Pawn.moves, job]) step rfl
    (fun j => by
      rw [State.onCtx_pawn]
      split
      next hj => rw [hj]
      next => rfl)
  refine ⟨u, hu, ?_, onlyRow_setRow wa wi ua ui, up⟩
  rw [um]; exact h.mem

/-! ### The beginning of an MGO's step (R342, R344, R345) -/

theorem State.same_slow (s : State) (b : Bool) (serial from_ to_ : Nat) :
    s.SameWork (if b then s.onCtx (fun c => c.slowUntil serial from_ to_) else s) := by
  split
  · exact ⟨rfl, rfl, rfl, rfl, rfl, rfl, rfl, rfl, rfl, rfl, rfl, rfl⟩
  · exact .refl s

/-- The state with the pages prefetched of the panels of an MGO's later steps (R131). -/
def State.mgoAhead (s : State) (nest : List NestLevel) (a0 b0 : Word) (tile pos : Nat) : State :=
  (s.prefetchLoops .m (mgoAt nest a0 b0 tile pos).1 (panelLoops (fun l => l.as_) nest pos) a0.toNat).prefetchLoops .m
    (mgoAt nest a0 b0 tile pos).2.1 (panelLoops (fun l => l.bs) nest pos) b0.toNat

/-- A pawn whose step of an MGO has begun: until a cycle, with the bytes of merged reads, at these panels. -/
def Pawn.mgoBegun (p : Pawn) (d : Nat) (ps : List (List (BitVec 8))) (va vb : Nat) (pa pb : Panel) : Pawn :=
  { p with state := .running, due := d, panels := ps
           tr := [{ writes := false, va := va, place := pa.place }, { writes := false, va := vb, place := pb.place }] }

section
variable {nest : List NestLevel} {a0 b0 : Word} {tile : Nat} {acc : Bool} {af bf : Nat} {mc strict : Bool} {pa pb : Panel} {int : Bool} {v1 : State}

/-- What the beginning of an MGO's step leaves, from the panels that it finds. -/
theorem State.mgoBegin_found (job : (v.pawn k).job = .mgo nest a0 b0 tile acc af bf mc strict)
    (found : (v.mgoAhead nest a0 b0 tile (v.pawn k).pos).panels (mgoAt nest a0 b0 tile (v.pawn k).pos).1 (mgoAt nest a0 b0 tile (v.pawn k).pos).2.1
      af bf strict = (.ok (pa, pb, int), v1)) :
    ∃ (z : State) (d : Nat) (ps : List (List (BitVec 8))),
      v.mgoBegin k = (z.onPawn k (fun p => p.mgoBegun d ps (mgoAt nest a0 b0 tile (v.pawn k).pos).1 (mgoAt nest a0 b0 tile (v.pawn k).pos).2.1
        pa pb)).onCore (fun c => { c with mstep := some k }) ∧
      v.SameWork z ∧ v.cycle + chunkTime pa.fmt pb.fmt ≤ d ∧ (mc = false → ps = [[], []]) := by
  have same : v.SameWork v1 := by
    rw [← show _ = v1 from congrArg Prod.snd found]
    exact (((v.walked_prefetchLoops ..).trans (State.walked_prefetchLoops ..)).trans (State.walked_panels ..)).same
  have read := (same.trans (v1.same_readPanel 2 mc pa)).trans (State.same_readPanel _ 3 mc pb)
  unfold State.mgoBegin
  unfold State.mgoAhead at found
  simp only [job, found]
  refine ⟨_, _, _, rfl, read.trans (State.same_slow ..), ?_, ?_⟩
  · rw [read.cycle]
    omega
  · rintro rfl
    rfl

/-- A step of an MGO begins: its panels stand where they are, and its time runs, the chunk time at least. -/
theorem State.Steps.mgoBegins (h : s.Steps site k v p) (go : p.cancelReq = false) (e : p.eng = .matrix)
    (job : p.job = .mgo nest a0 b0 tile acc af bf mc strict)
    (found : (v.mgoAhead nest a0 b0 tile p.pos).panels (mgoAt nest a0 b0 tile p.pos).1 (mgoAt nest a0 b0 tile p.pos).2.1 af bf strict =
      (.ok (pa, pb, int), v1)) :
    ∃ t d ps, exec (.pawnStep site k) s = .next t ∧ t.mem = s.mem ∧ t.ctx.acc = v.ctx.acc ∧ t.core.mstep = some k ∧
      s.cycle + chunkTime pa.fmt pb.fmt ≤ d ∧ (mc = false → ps = [[], []]) ∧
      onlyPawn v t k (p.mgoBegun d ps (mgoAt nest a0 b0 tile p.pos).1 (mgoAt nest a0 b0 tile p.pos).2.1 pa pb) := by
  obtain rfl := h.pawn_eq
  obtain ⟨z, d, ps, begins, same, late, alone⟩ := State.mgoBegin_found job found
  have step := (State.stepPawn_mgo go e (by simp [PawnJob.isMgo, job])).trans begins
  have only := onlyPawn_of_pawn (u := v.stepPawn k) (onlyPawn_onPawn (f := fun p => p.mgoBegun d ps (mgoAt nest a0 b0 tile (v.pawn k).pos).1
    (mgoAt nest a0 b0 tile (v.pawn k).pos).2.1 pa pb) same.pawn) (fun _ => by rw [step]; rfl)
  refine ⟨_, d, ps, h.exec_eq, ?_, ?_, ?_, ?_, alone, State.clearRanges_only_open only h.live⟩
  · rw [State.clearRanges_mem, step]; exact same.mem.trans h.mem
  · rw [State.clearRanges_acc, step]; exact same.acc
  · rw [State.clearRanges_mstep, step]; rfl
  · rw [← h.cycle]; exact late

end

end Sys2Proof.Machine
end

section
/-! SUPPORT. The end of an MGO's step: panels read, failed, checked and accumulated (R35, R191, R193, R231 to R233, R342). -/

namespace Sys2Proof.Machine

open Sys2Proof.Claims

variable {s v : State} {site : Nat} {k : Fin 64} {p : Pawn}

/-! ### Panels read (R25, R31) -/

theorem Memory.readBytes_add (m : Memory) (a n k : Nat) : m.readBytes a (n + k) = m.readBytes a n ++ m.readBytes (a + n) k := by
  induction n generalizing a with
  | zero => simp [Memory.readBytes]
  | succ n ih =>
    rw [Nat.succ_add]
    show m.read a :: m.readBytes (a + 1) (n + k) = m.read a :: (m.readBytes (a + 1) n ++ m.readBytes (a + (n + 1)) k)
    rw [ih, show a + 1 + n = a + (n + 1) by omega]

/-- Reads of 512 bytes, one after another, bring the bytes of the whole. -/
theorem Memory.readBytes_chunks (m : Memory) (a size : Nat) (c : Nat) :
    (List.range c).flatMap (fun j => m.readBytes (a + 512 * j) (min 512 (size - 512 * j))) = m.readBytes a (min (512 * c) size) := by
  induction c with
  | zero => simp [Memory.readBytes]
  | succ c ih =>
    rw [List.range_succ, List.flatMap_append, ih]
    simp only [List.flatMap_cons, List.flatMap_nil, List.append_nil]
    by_cases h : 512 * c ≤ size
    · rw [Nat.min_eq_left h, ← Memory.readBytes_add]
      congr 1
      omega
    · rw [show min 512 (size - 512 * c) = 0 by omega, show min (512 * (c + 1)) size = min (512 * c) size by omega]
      simp [Memory.readBytes]

/-- Without requests of its own outside the column and writes that homes keep waiting, an MGO reads its panels from memory. -/
theorem State.panelBytes_home {serial : Nat} (idle : ∀ e ∈ v.net, e.serial ≠ serial) (home : v.homeWaits = false) (q : Panel) :
    v.panelBytes serial q = v.mem.readBytes q.place.key (panelSize q.fmt) := by
  unfold State.panelBytes
  simp only [State.readFor_home idle home]
  rw [Memory.readBytes_chunks]
  congr 1
  omega

theorem panelRead_home (idle : ∀ e ∈ v.net, e.serial ≠ p.serial) (home : v.homeWaits = false) {i : Nat} (alone : p.panels.getD i [] = []) (q : Panel) :
    panelRead v p i q = v.mem.readBytes q.place.key (panelSize q.fmt) := by
  unfold panelRead
  rw [if_pos alone, State.panelBytes_home idle home]

/-- The lines of a panel as the step takes them: from a merged read, or from its own. -/
theorem panelRows_eq (v : State) (p : Pawn) (i : Nat) (q : Panel) :
    panelLines q.fmt 128 (if (p.panels.getD i []).isEmpty then v.panelBytes p.serial q else p.panels.getD i []) = panelRows v p i q := by
  unfold panelRows panelRead
  simp only [List.isEmpty_iff]

theorem length_panelLines (fmt n : Nat) (bs : List (BitVec 8)) : (panelLines fmt n bs).length = n := by
  induction n generalizing bs with
  | zero => rfl
  | succ n ih => simp [panelLines, ih]

/-! ### The rows of a window accumulated (R231 to R233, R342) -/

theorem Context.setRow_wf {c : Context} (r : Nat) (i : Bool) (l : List Half) (ha : c.acc.wf = true) (hi : c.rowInt.wf = true) :
    (c.setRow r i l).acc.wf = true ∧ (c.setRow r i l).rowInt.wf = true := ⟨Tab.wf_setD ha, Tab.wf_setD hi⟩

/-- A row outside the window keeps its values. -/
theorem Context.accumulateFrom_outside {c : Context} (isInt : Bool) (keep : BitVec 512) (bs : List (List Val)) {r q : Nat} {as : List (List Val)}
    (ha : c.acc.wf = true) (hi : c.rowInt.wf = true) (h : ∀ i, i < as.length → q ≠ (r + i) % 512) :
    (c.accumulateFrom isInt keep bs r as).accRow q = c.accRow q ∧ (c.accumulateFrom isInt keep bs r as).rowIsInt q = c.rowIsInt q := by
  induction as generalizing c r with
  | nil => exact ⟨rfl, rfl⟩
  | cons a rest ih =>
    have hq : q ≠ r % 512 := by simpa using h 0 (by simp)
    obtain ⟨wa, wi⟩ := Context.setRow_wf (r % 512) isInt (accumulateRow isInt (!keep.getLsbD (r % 512)) (c.accRow (r % 512)) a bs) ha hi
    obtain ⟨ea, ei⟩ := ih (r := r % 512 + 1) wa wi (fun i hlt => by
      have := h (i + 1) (by simpa using hlt)
      omega)
    rw [Context.accRow_setRow ha, if_neg hq] at ea
    rw [Context.rowIsInt_setRow hi, if_neg hq] at ei
    exact ⟨ea, ei⟩

/-- Each row of the window is accumulated once, from its line of A. -/
theorem Context.accumulateFrom_inside {c : Context} (isInt : Bool) (keep : BitVec 512) (bs : List (List Val)) {r : Nat} {as : List (List Val)}
    (ha : c.acc.wf = true) (hi : c.rowInt.wf = true) (short : as.length ≤ 512) {i : Nat} (hlt : i < as.length) :
    (c.accumulateFrom isInt keep bs r as).rowIsInt ((r + i) % 512) = isInt ∧
    (c.accumulateFrom isInt keep bs r as).accRow ((r + i) % 512) =
      accumulateRow isInt (!keep.getLsbD ((r + i) % 512)) (c.accRow ((r + i) % 512)) (as.getD i []) bs := by
  induction as generalizing c r i with
  | nil => cases hlt
  | cons a rest ih =>
    obtain ⟨wa, wi⟩ := Context.setRow_wf (r % 512) isInt (accumulateRow isInt (!keep.getLsbD (r % 512)) (c.accRow (r % 512)) a bs) ha hi
    rw [List.length_cons] at short hlt
    cases i with
    | zero =>
      obtain ⟨ea, ei⟩ := Context.accumulateFrom_outside isInt keep bs (r := r % 512 + 1) (q := r % 512) (as := rest) wa wi
        (fun i hr => by omega)
      rw [Context.accRow_setRow ha, if_pos rfl] at ea
      rw [Context.rowIsInt_setRow hi, if_pos rfl] at ei
      exact ⟨ei, ea⟩
    | succ i =>
      have hr : (r + (i + 1)) % 512 = (r % 512 + 1 + i) % 512 := by omega
      have hne : (r % 512 + 1 + i) % 512 ≠ r % 512 := by omega
      obtain ⟨ei, ea⟩ := ih (r := r % 512 + 1) (i := i) wa wi (by omega) (by omega)
      rw [Context.accRow_setRow ha, if_neg hne] at ea
      rw [hr]
      exact ⟨ei, ea⟩

/-! ### Steps that fail (R35, R191, R193, R344) -/

/-- The engine is free of an MGO's step, whose pawn stops at a fault. -/
theorem State.mgoFail_eq {c : Cause} (va : Nat) (h : c ≠ .page) :
    s.mgoFail k c va = ((s.onPawn k (fun p => { p with panels := [] })).onPawn k (fun p => p.fail c va)).onCore (fun c => { c with mstep := none }) := by
  unfold State.mgoFail
  rw [State.afterStep_fault va 0 (fun e => h e.1)]

@[simp] theorem State.mstep_pawn (s : State) (m : Option (Fin 64)) (j : Fin 64) : (s.onCore (fun c => { c with mstep := m })).pawn j = s.pawn j := rfl

/-- What a failed step leaves, from a state in which only its pawn is different. -/
theorem State.mgoFail_leaves {t : State} {q : Pawn} {c : Cause} (va : Nat) (h : c ≠ .page) (entry : onlyPawn v t k q) :
    onlyPawn v ((t.mgoFail k c va).clearRanges k) k (faultedAt { q with panels := [] } c va) ∧
    ((t.mgoFail k c va).clearRanges k).mem = t.mem ∧ ((t.mgoFail k c va).clearRanges k).core.mstep = none ∧
    ((t.mgoFail k c va).clearRanges k).ctx.acc = t.ctx.acc ∧ ((t.mgoFail k c va).clearRanges k).ctx.rowInt = t.ctx.rowInt ∧
    ((t.mgoFail k c va).clearRanges k).mismatches = t.mismatches := by
  have only : onlyPawn v (t.mgoFail k c va) k (({ q with panels := [] } : Pawn).fail c va) := by
    rw [State.mgoFail_eq va h, onlyPawn_iff] at *
    intro j
    rw [State.mstep_pawn, State.onPawn_pawn, State.onPawn_pawn, State.onPawn_pawn, entry j, entry k]
    split <;> simp
  have kept := State.clearRanges_only only
  rw [Pawn.cleared_faulted] at kept
  refine ⟨kept, ?_, ?_, ?_, ?_, ?_⟩
  · rw [State.clearRanges_mem, State.mgoFail_eq va h]; rfl
  · rw [State.clearRanges_mstep, State.mgoFail_eq va h]; rfl
  · rw [State.clearRanges_acc, State.mgoFail_eq va h]; rfl
  · rw [State.clearRanges_rowInt, State.mgoFail_eq va h]; rfl
  · rw [State.clearRanges_mismatches, State.mgoFail_eq va h]; rfl

/-! ### The event of an MGO's step -/

/-- The state v in which the step of the MGO pawn p of entry k ends, with its panels. -/
structure State.MgoEnds (s : State) (site : Nat) (k : Fin 64) (v : State) (p : Pawn) : Prop where
  at_eq : v = s.atPawn site k
  pawn_eq : v.pawn k = p
  due : (s.focus site s.cx).mgoDue = some k

theorem State.MgoEnds.exec_eq (h : s.MgoEnds site k v p) : exec (.mgoStep site k) s = .next ((v.mgoFinish k).clearRanges k) := by
  show execMgoStep site k s = _
  unfold execMgoStep
  dsimp only
  rw [if_pos h.due, h.at_eq]
  rfl

theorem State.MgoEnds.mem (h : s.MgoEnds site k v p) : v.mem = s.mem := by rw [h.at_eq]; simp
theorem State.MgoEnds.cycle (h : s.MgoEnds site k v p) : v.cycle = s.cycle := by rw [h.at_eq]; simp
theorem State.MgoEnds.mismatches (h : s.MgoEnds site k v p) : v.mismatches = s.mismatches := by
  rw [h.at_eq, State.atPawn, State.focusCx_frame]
  show (s.focus site s.cx).mismatches = s.mismatches
  rw [State.focus_frame]

/-- A failed request of a panel ends the pawn (R35, R342). -/
theorem State.MgoEnds.netFault (h : s.MgoEnds site k v p) {n : Nat} {c : Cause} (hn : p.net = some (n, c)) (hc : c ≠ .page) :
    ∃ t, exec (.mgoStep site k) s = .next t ∧ t.mem = s.mem ∧ t.core.mstep = none ∧ t.ctx.acc = v.ctx.acc ∧
      onlyPawn v t k (faultedAt { p with panels := [] } c (p.panelAddr n)) := by
  obtain rfl := h.pawn_eq
  have step : v.mgoFinish k = v.mgoFail k c ((v.pawn k).panelAddr n) := by
    unfold State.mgoFinish
    simp only [hn]
  obtain ⟨only, mem, mstep, acc, _, _⟩ := State.mgoFail_leaves (v := v) (t := v) (q := v.pawn k) ((v.pawn k).panelAddr n) hc
    (onlyPawn_self (fun _ => rfl))
  rw [← step] at only mem mstep acc
  exact ⟨_, h.exec_eq, mem.trans h.mem, mstep, acc, only⟩

section
variable {nest : List NestLevel} {a0 b0 : Word} {tile : Nat} {acc : Bool} {af bf : Nat} {mc strict : Bool} {va vb : Nat} {pa pb : Panel}

/-- A panel that holds a word in error ends the pawn (R191). -/
theorem State.MgoEnds.badPanel (h : s.MgoEnds site k v p) (job : p.job = .mgo nest a0 b0 tile acc af bf mc strict)
    (panels : p.panelsOf = some ((va, pa), (vb, pb))) (net : p.net = none) (bad : v.readBad pa.place.key (panelSize pa.fmt) = true) :
    ∃ t, exec (.mgoStep site k) s = .next t ∧ t.mem = s.mem ∧ t.core.mstep = none ∧ t.ctx.acc = v.ctx.acc ∧
      onlyPawn v t k (faultedAt { p with panels := [] } .memerr va) := by
  obtain rfl := h.pawn_eq
  have same := v.same_meetBad pa.place.key (panelSize pa.fmt)
  have step : v.mgoFinish k = (v.meetBad pa.place.key (panelSize pa.fmt)).mgoFail k .memerr va := by
    unfold State.mgoFinish
    simp only [net, job, panels, bad, if_true]
  obtain ⟨only, mem, mstep, acc, _, _⟩ := State.mgoFail_leaves (c := .memerr) va (by simp) (onlyPawn_self same.pawn)
  rw [← step] at only mem mstep acc
  exact ⟨_, h.exec_eq, (mem.trans same.mem).trans h.mem, mstep, acc.trans same.acc, only⟩

/-- A step whose residues do not match (R193). -/
theorem State.mgoFinish_mismatch {rest : List Bool} (job : (v.pawn k).job = .mgo nest a0 b0 tile acc af bf mc strict)
    (panels : (v.pawn k).panelsOf = some ((va, pa), (vb, pb))) (net : (v.pawn k).net = none) (ga : v.readBad pa.place.key (panelSize pa.fmt) = false)
    (gb : v.readBad pb.place.key (panelSize pb.fmt) = false) (hm : v.mismatches = true :: rest) :
    v.mgoFinish k = ({ v with mismatches := rest } : State).mgoMismatch k (chunkTime pa.fmt pb.fmt) := by
  have take : v.takeMismatch = (true, { v with mismatches := rest }) := by unfold State.takeMismatch; rw [hm]
  unfold State.mgoFinish
  simp only [net, job, panels, ga, gb, Bool.false_eq_true, if_false, take, if_true]

/-- A first mismatch runs the chunk once more, and a second one ends the pawn (R193). -/
theorem State.MgoEnds.mismatch (h : s.MgoEnds site k v p) (job : p.job = .mgo nest a0 b0 tile acc af bf mc strict)
    (panels : p.panelsOf = some ((va, pa), (vb, pb))) (net : p.net = none) (ga : v.readBad pa.place.key (panelSize pa.fmt) = false)
    (gb : v.readBad pb.place.key (panelSize pb.fmt) = false) {rest : List Bool} (hm : s.mismatches = true :: rest) :
    ∃ t, exec (.mgoStep site k) s = .next t ∧ t.mem = s.mem ∧ t.mismatches = rest ∧
      t.ctx.acc = v.ctx.acc ∧ t.ctx.rowInt = v.ctx.rowInt ∧
      (p.fin = none → p.retry = false → t.core.mstep = v.core.mstep ∧
        onlyPawn v t k { p with retry := true, due := s.cycle + chunkTime pa.fmt pb.fmt }) ∧
      (p.retry = true → t.core.mstep = none ∧ onlyPawn v t k (faultedAt { p with retry := false, panels := [] } .memerr 0)) := by
  obtain rfl := h.pawn_eq
  have step := State.mgoFinish_mismatch job panels net ga gb (h.mismatches.trans hm)
  generalize hw : ({ v with mismatches := rest } : State) = w at step
  have pawn : ∀ j, w.pawn j = v.pawn j := by rw [← hw]; exact fun _ => rfl
  obtain ⟨mem, cycle, mis, acc, rowInt, mstep⟩ : w.mem = v.mem ∧ w.cycle = v.cycle ∧ w.mismatches = rest ∧ w.ctx.acc = v.ctx.acc ∧
      w.ctx.rowInt = v.ctx.rowInt ∧ w.core.mstep = v.core.mstep := by rw [← hw]; exact ⟨rfl, rfl, rfl, rfl, rfl, rfl⟩
  clear hw
  unfold State.mgoMismatch at step
  rw [pawn k] at step
  refine ⟨_, h.exec_eq, ?_⟩
  cases hr : (v.pawn k).retry with
  | true =>
    rw [if_pos hr] at step
    obtain ⟨only, mem', mstep', acc', rowInt', mis'⟩ := State.mgoFail_leaves (c := .memerr) 0 (by simp)
      (onlyPawn_onPawn (k := k) (f := fun p => { p with retry := false }) pawn)
    rw [← step] at only mem' mstep' acc' rowInt' mis'
    exact ⟨(mem'.trans mem).trans h.mem, mis'.trans mis, acc'.trans acc, rowInt'.trans rowInt, fun _ h => Bool.noConfusion h, fun _ => ⟨mstep', only⟩⟩
  | false =>
    rw [if_neg (by simp [hr])] at step
    rw [State.clearRanges_mem, State.clearRanges_mismatches, State.clearRanges_acc, State.clearRanges_rowInt, State.clearRanges_mstep, step]
    refine ⟨mem.trans h.mem, mis, acc, rowInt, fun live _ => ⟨mstep, ?_⟩, fun h => Bool.noConfusion h⟩
    rw [show s.cycle = w.cycle from (cycle.trans h.cycle).symm]
    exact State.clearRanges_only_open (onlyPawn_onPawn (f := fun p => { p with retry := true, due := w.cycle + chunkTime pa.fmt pb.fmt }) pawn) live

/-- A pawn after a step of its MGO that has been made (R342, R343). -/
def Pawn.mgoMade (p : Pawn) (rows : BitVec 512) : Pawn := { p with retry := false, covered := p.covered ||| rows, panels := [] }

/-- The state in which the 128 rows of the window of an MGO's step have been accumulated, before its pawn's entry is left. -/
theorem State.mgoFinish_made (job : (v.pawn k).job = .mgo nest a0 b0 tile acc af bf mc strict)
    (panels : (v.pawn k).panelsOf = some ((va, pa), (vb, pb))) (net : (v.pawn k).net = none) (ga : v.readBad pa.place.key (panelSize pa.fmt) = false)
    (gb : v.readBad pb.place.key (panelSize pb.fmt) = false) (match_ : v.mismatches.head? ≠ some true)
    (good : ∀ i, i < 128 → acc = true ∨ (v.pawn k).covered.getLsbD (((mgoAt nest a0 b0 tile (v.pawn k).pos).2.2 + i) % 512) = true →
      v.accBad (((mgoAt nest a0 b0 tile (v.pawn k).pos).2.2 + i) % 512) 0 128 = false) :
    ∃ z : State, ({ v with mismatches := v.mismatches.tail } : State).SameWork z ∧
      v.mgoFinish k = ((((z.onCtx (fun c => c.accumulateFrom ((pairing pa.fmt pb.fmt).getD false)
          (if acc then BitVec.allOnes 512 else (v.pawn k).covered) (panelRows v (v.pawn k) 1 pb) (mgoAt nest a0 b0 tile (v.pawn k).pos).2.2
          (panelRows v (v.pawn k) 0 pa))).onPawn k (fun p => p.mgoMade (rowWindow (mgoAt nest a0 b0 tile (v.pawn k).pos).2.2))).afterStep k
            (.made 1 (decide (nestSteps nest ≤ (v.pawn k).pos + 1))) 0).onPawn k (fun p => { p with tr := [] })).onCore
        (fun c => { c with mstep := none }) := by
  have first : v.mismatches.headD false = false := by
    cases hm : v.mismatches with
    | nil => rfl
    | cons m rest => cases m <;> simp_all
  have rows : (windowRows (mgoAt nest a0 b0 tile (v.pawn k).pos).2.2).any
      (fun r => (if acc then BitVec.allOnes 512 else (v.pawn k).covered).getLsbD r && v.accBad r 0 128) = false := by
    refine List.any_eq_false.2 (fun r hr => ?_)
    obtain ⟨i, hi, rfl⟩ := List.mem_map.1 hr
    have := good i (List.mem_range.1 hi)
    cases acc
    · simp_all
    · simp_all
  unfold State.mgoFinish
  rw [State.takeMismatch_frame]
  simp only [net, job, panels, ga, gb, Bool.false_eq_true, if_false, first, rows, panelRows_eq]
  refine ⟨_, ?_, rfl⟩
  exact ((State.same_accRewrite _ _).trans (State.same_noteRead _ _ _)).trans (State.same_noteRead _ _ _)

/-- The entry of a pawn whose MGO's step has been made, as the statements say it. -/
theorem Pawn.cleared_mgoMade (job : p.job = .mgo nest a0 b0 tile acc af bf mc strict) (rows : BitVec 512) (now : Nat) (last : Bool) :
    ({ (if last then ((p.mgoMade rows).moved 1 now).finish else (p.mgoMade rows).moved 1 now) with tr := [] } : Pawn).cleared =
      { Claims.stepped p [] (p.pos + 1) now last with covered := p.covered ||| rows, retry := false, panels := [] } := by
  have over_ : stepsOver p.job = p.job := by rw [job]; rfl
  have clear : ∀ q : Pawn, q.job = p.job → q.cleared = q := fun q hq => by
    unfold Pawn.cleared
    split
    · rfl
    · rw [hq, over_, ← hq]
  rw [clear]
  · cases last
    · rfl
    · unfold Claims.stepped
      simp only [if_true, over_]
      rfl
  · cases last <;> rfl

/-- A row is fresh when the step does not accumulate and no step before has covered it. -/
theorem keeps_row (acc : Bool) (covered : BitVec 512) {r : Nat} (h : r < 512) :
    (!(if acc then BitVec.allOnes 512 else covered).getLsbD r) = !(acc || covered.getLsbD r) := by
  cases acc
  · rfl
  · rw [if_pos rfl, BitVec.getLsbD_allOnes, decide_eq_true h]
    rfl

/-- What an MGO's step that has been made leaves in the pawn table. -/
theorem State.mgoMade_only {y : State} (entry : ∀ j, y.pawn j = v.pawn j) (going : (v.pawn k).cancelReq = false) (rows : BitVec 512) (last : Bool) :
    onlyPawn v (((y.onPawn k (fun p => p.mgoMade rows)).afterStep k (.made 1 last) 0).onPawn k (fun p => { p with tr := [] })) k
      { (if last then (((v.pawn k).mgoMade rows).moved 1 y.cycle).finish else ((v.pawn k).mgoMade rows).moved 1 y.cycle) with tr := [] } := by
  have made := (y.onPawn k (fun p => p.mgoMade rows)).afterStep_made k 1 last 0
    (by rw [State.onPawn_pawn, if_pos rfl, entry k]; exact .inl going)
  rw [State.onPawn_pawn, if_pos rfl, entry k, onlyPawn_iff] at made
  rw [onlyPawn_iff]
  intro j
  rw [State.onPawn_pawn, made k, if_pos rfl, made j, State.onPawn_pawn, entry j]
  split <;> rfl

/-- The 128 rows of the window of an MGO's step are accumulated, each once, and the pawn goes on or has finished (R342). -/
theorem State.MgoEnds.made (h : s.MgoEnds site k v p) (job : p.job = .mgo nest a0 b0 tile acc af bf mc strict)
    (panels : p.panelsOf = some ((va, pa), (vb, pb))) (net : p.net = none) (ga : v.readBad pa.place.key (panelSize pa.fmt) = false)
    (gb : v.readBad pb.place.key (panelSize pb.fmt) = false) (wa : v.ctx.acc.wf = true) (wi : v.ctx.rowInt.wf = true)
    (going : p.cancelReq = false) (match_ : s.mismatches.head? ≠ some true)
    (good : ∀ i, i < 128 → acc = true ∨ p.covered.getLsbD (((mgoAt nest a0 b0 tile p.pos).2.2 + i) % 512) = true →
      v.accBad (((mgoAt nest a0 b0 tile p.pos).2.2 + i) % 512) 0 128 = false) :
    let row := fun (i : Nat) => ((mgoAt nest a0 b0 tile p.pos).2.2 + i) % 512
    let int := (pairing pa.fmt pb.fmt).getD false
    ∃ t, exec (.mgoStep site k) s = .next t ∧ t.mem = s.mem ∧ t.core.mstep = none ∧ t.mismatches = s.mismatches.tail ∧
      onlyPawn v t k { Claims.stepped p [] (p.pos + 1) s.cycle (decide (nestSteps nest ≤ p.pos + 1)) with
        covered := p.covered ||| rowWindow (mgoAt nest a0 b0 tile p.pos).2.2, retry := false, panels := [] } ∧
      (∀ i, i < 128 → t.ctx.rowIsInt (row i) = int ∧ t.ctx.accRow (row i) =
        chunkRow int (!(acc || p.covered.getLsbD (row i))) (v.ctx.accRow (row i)) ((panelRows v p 0 pa).getD i []) (panelRows v p 1 pb)) ∧
      (∀ r, (∀ i, i < 128 → r ≠ row i) → t.ctx.accRow r = v.ctx.accRow r ∧ t.ctx.rowIsInt r = v.ctx.rowIsInt r) := by
  obtain rfl := h.pawn_eq
  intro row int
  obtain ⟨z, same, step⟩ := State.mgoFinish_made job panels net ga gb (by rw [h.mismatches]; exact match_) good
  generalize hy : z.onCtx (fun c => c.accumulateFrom ((pairing pa.fmt pb.fmt).getD false) (if acc then BitVec.allOnes 512 else (v.pawn k).covered)
    (panelRows v (v.pawn k) 1 pb) (mgoAt nest a0 b0 tile (v.pawn k).pos).2.2 (panelRows v (v.pawn k) 0 pa)) = y at step
  obtain ⟨mem, cycle, mis, ctx⟩ : y.mem = v.mem ∧ y.cycle = v.cycle ∧ y.mismatches = v.mismatches.tail ∧ y.ctx = z.ctx.accumulateFrom int
      (if acc then BitVec.allOnes 512 else (v.pawn k).covered) (panelRows v (v.pawn k) 1 pb) (mgoAt nest a0 b0 tile (v.pawn k).pos).2.2
      (panelRows v (v.pawn k) 0 pa) := by
    rw [← hy, State.onCtx_mem, State.onCtx_cycle, State.onCtx_mismatches, State.onCtx_ctx]
    exact ⟨same.mem, same.cycle, same.mismatches, rfl⟩
  have entry : ∀ j, y.pawn j = v.pawn j := fun j => by
    rw [← hy, State.onCtx_pawn]
    exact same.pawn j
  clear hy
  have only := State.mgoMade_only entry going (rowWindow (mgoAt nest a0 b0 tile (v.pawn k).pos).2.2) (decide (nestSteps nest ≤ (v.pawn k).pos + 1))
  have kept := State.clearRanges_only (onlyPawn_of_pawn (u := v.mgoFinish k) only (fun _ => by rw [step]; rfl))
  rw [Pawn.cleared_mgoMade job, cycle, h.cycle] at kept
  have wa' : z.ctx.acc.wf = true := by rw [same.acc]; exact wa
  have wi' : z.ctx.rowInt.wf = true := by rw [same.rowInt]; exact wi
  have sameRow : ∀ r, z.ctx.accRow r = v.ctx.accRow r ∧ z.ctx.rowIsInt r = v.ctx.rowIsInt r := fun r => by
    unfold Context.accRow Context.rowIsInt
    rw [same.acc, same.rowInt]
    exact ⟨rfl, rfl⟩
  have lines : (panelRows v (v.pawn k) 0 pa).length = 128 := length_panelLines ..
  have rowOf : ∀ r, ((v.mgoFinish k).clearRanges k).ctx.accRow r = y.ctx.accRow r ∧
      ((v.mgoFinish k).clearRanges k).ctx.rowIsInt r = y.ctx.rowIsInt r := fun r => by
    unfold Context.accRow Context.rowIsInt
    rw [State.clearRanges_acc, State.clearRanges_rowInt, step]
    exact ⟨rfl, rfl⟩
  refine ⟨_, h.exec_eq, ?_, ?_, ?_, kept, fun i hi => ?_, fun r hr => ?_⟩
  · rw [State.clearRanges_mem, step]; exact mem.trans h.mem
  · rw [State.clearRanges_mstep, step]; rfl
  · rw [State.clearRanges_mismatches, step, ← h.mismatches]; exact mis
  · obtain ⟨ei, ea⟩ := Context.accumulateFrom_inside int (if acc then BitVec.allOnes 512 else (v.pawn k).covered) (panelRows v (v.pawn k) 1 pb)
      (r := (mgoAt nest a0 b0 tile (v.pawn k).pos).2.2) (as := panelRows v (v.pawn k) 0 pa) wa' wi' (by omega) (i := i) (by omega)
    rw [(rowOf _).1, (rowOf _).2, ctx]
    refine ⟨ei, ea.trans ?_⟩
    rw [(sameRow _).1, keeps_row acc _ (Nat.mod_lt _ (by omega))]
    rfl
  · obtain ⟨ea, ei⟩ := Context.accumulateFrom_outside int (if acc then BitVec.allOnes 512 else (v.pawn k).covered) (panelRows v (v.pawn k) 1 pb)
      (r := (mgoAt nest a0 b0 tile (v.pawn k).pos).2.2) (q := r) (as := panelRows v (v.pawn k) 0 pa) wa' wi'
      (fun i hi => hr i (by omega))
    rw [(rowOf _).1, (rowOf _).2, ctx]
    exact ⟨ea.trans (sameRow r).1, ei.trans (sameRow r).2⟩

end

end Sys2Proof.Machine
end

section
/-! SUPPORT. What counters and schedulers carry out leaves of the core in focus: all of it (R64, R73, R75, R76). -/

namespace Sys2Proof.Machine

@[simp] theorem State.putCtr_core (s : State) (a : Word) (w : Nat) : (s.putCtr a w).core = s.core := by
  obtain ⟨_, _, _, _, _, _, h⟩ := s.putCtr_frame a w; rw [h]

@[simp] theorem State.putWord_core (s : State) (a : Word) (w : Nat) : (s.putWord a w).core = s.core := by
  unfold State.putWord
  split
  next t e =>
    obtain ⟨p, _, rfl⟩ := State.writeVa_ok e
    have h : s.homeFrame (s.hwWrite p (leBytes 8 w) none) := State.frameWrite_frame ..
    unfold State.homeFrame at h
    rw [h]
  · rfl

@[simp] theorem State.setCtrBit_core (s : State) (a : Word) (b : Nat) : (s.setCtrBit a b).core = s.core := by
  unfold State.setCtrBit
  split <;> simp

@[simp] theorem State.postEvent_core (s : State) (name : Nat) : (s.postEvent name).core = s.core := rfl

@[simp] theorem State.postOf_core (s : State) (w : Nat) : (s.postOf w).core = s.core := by
  unfold State.postOf
  split <;> simp

@[simp] theorem State.logFault_core (s : State) (cause kind core record frec : Nat) : (s.logFault cause kind core record frec).core = s.core := by
  have h := (s.logFault_frame cause kind core record frec).1
  rw [h]

@[simp] theorem State.onSched_core (s : State) (cl : Nat) (f : Sched → Sched) : (s.onSched cl f).core = s.core := rfl

@[simp] theorem State.enterHeap_core (s : State) (cl : Nat) (e : HeapEnt) : (s.enterHeap cl e).core = s.core := by
  obtain ⟨_, _, h⟩ := s.enterHeap_frame cl e; rw [h]

@[simp] theorem State.onLevel_core (s : State) (a : Word) (f : Level → Level) : (s.onLevel a f).core = s.core := rfl
@[simp] theorem State.dropLevel_core (s : State) (a : Word) : (s.dropLevel a).core = s.core := rfl
@[simp] theorem State.onJob_core (s : State) (job : Nat) (f : Job → Job) : (s.onJob job f).core = s.core := rfl
@[simp] theorem State.onAct_core (s : State) (job act : Nat) (f : Activity → Activity) : (s.onAct job act f).core = s.core := rfl

@[simp] theorem State.seeVa_core (s : State) (va n : Nat) : (s.seeVa va n).core = s.core := by
  unfold State.seeVa
  split
  next p _ =>
    obtain ⟨_, _, _, hc⟩ := s.correct_frame p.key n
    obtain ⟨_, hm⟩ := (s.correct p.key n).meetBad_frame p.key n
    rw [hm, hc]
  · rfl

@[simp] theorem State.failCtr_core (s : State) (a : Word) (fresh : Bool) : (s.failCtr a fresh).1.core = s.core := by
  unfold State.failCtr
  split <;> simp

@[simp] theorem State.refuseLaunch_core (s : State) (rec : Word) (c : Cause) : (s.refuseLaunch rec c).1.core = s.core := by
  unfold State.refuseLaunch
  simp

@[simp] theorem State.startLaunch_core (s : State) (rec parent : Word) (node : Option Nat) (job act : Nat) :
    (s.startLaunch rec parent node job act).1.core = s.core := by
  unfold State.startLaunch
  dsimp only
  (repeat' split) <;> simp

@[simp] theorem State.placeTurn_core (s : State) (rec launch : Word) (pin : Option Nat) (job act : Nat) :
    (s.placeTurn rec launch pin job act).1.core = s.core := by
  unfold State.placeTurn
  (repeat' split) <;> simp

@[simp] theorem State.actDone_core (s : State) (job act : Nat) : (s.actDone job act).1.core = s.core := by
  unfold State.actDone
  (repeat' split) <;> simp

@[simp] theorem State.jobDone_core (s : State) (job : Nat) : (s.jobDone job).core = s.core := by
  unfold State.jobDone
  (repeat' split) <;> simp

/-- Successors counted off write memory only. -/
theorem State.succs_core {s : State} {f : State × List Work → Nat → State × List Work} (h : ∀ r j, (f r j).1.core = r.1.core) (l : List Nat)
    (r : State × List Work) (hr : r.1.core = s.core) : (l.foldl f r).1.core = s.core := by
  induction l generalizing r with
  | nil => exact hr
  | cons j rest ih => exact ih (f r j) ((h r j).trans hr)

@[simp] theorem State.levelEnded_core (s : State) (a : Word) (faulted cancelled : Bool) : (s.levelEnded a faulted cancelled).1.core = s.core := by
  unfold State.levelEnded
  split
  · rfl
  · extract_lets dropped launched marked ended
    have hm : marked.core = s.core := by unfold marked; split <;> simp [dropped]
    split
    · split
      · rfl
      · split
        · rfl
        · split
          · rfl
          · split
            · refine State.succs_core (fun r j => ?_) _ _ rfl
              dsimp only
              split
              · exact State.putWord_core ..
              · rfl
            · rfl
    · rfl
    · simp [ended, hm]
    · simp [dropped]

@[simp] theorem State.decrement_core (s : State) (a : Word) (n : Nat) (faulted cancelled : Bool) :
    (s.decrement a n faulted cancelled).1.core = s.core := by
  unfold State.decrement
  dsimp only
  (repeat' split) <;> simp

@[simp] theorem State.doWork_core (s : State) (w : Work) : (s.doWork w).1.core = s.core := by
  unfold State.doWork
  (repeat' split) <;> simp

@[simp] theorem State.doWorks_core (s : State) (n : Nat) (ws : List Work) : (s.doWorks n ws).core = s.core := by
  induction n generalizing s ws with
  | zero => cases ws <;> rfl
  | succ n ih =>
    cases ws with
    | nil => rfl
    | cons w r => exact (ih _ _).trans (State.doWork_core s w)

@[simp] theorem State.run_core (s : State) (ws : List Work) : (s.run ws).core = s.core := State.doWorks_core s _ ws

end Sys2Proof.Machine
end

section
/-! SUPPORT. The ends of pawns, and draw slots that are granted (R12, R155, R165 to R169, R330, R390). -/

namespace Sys2Proof.Machine

open Sys2Proof.Claims

variable {s v : State} {site : Nat} {k : Fin 64} {p : Pawn} {fin : PawnState}

/-! ### Focus stands (R8) -/

/-- The partition of the core in focus is in focus. -/
theorem State.focus_pid {site : Nat} {cx : Bool} {q : Nat} (h : (s.focus site cx).core.part = some q) : (s.focus site cx).pid = q := by
  unfold State.focus at *
  dsimp only at *
  split at h
  next r hr =>
    rw [State.focusPart_core, hr] at h
    cases h
    exact State.focusPart_pid ..
  next hr =>
    rw [hr] at h
    cases h

theorem State.atPawn_focus (s : State) (site : Nat) (k : Fin 64) :
    (s.atPawn site k).focus (s.atPawn site k).site (s.atPawn site k).cx = s.atPawn site k := by
  have pid : ∀ q, (s.atPawn site k).core.part = some q → (s.atPawn site k).pid = q := fun q hq => by
    unfold State.atPawn at *
    rw [State.focusCx_core] at hq
    rw [State.focusCx_frame]
    exact State.focus_pid hq
  generalize s.atPawn site k = v at *
  unfold State.focus
  simp only [if_true]
  rw [show v.focusCx v.cx = v by simp [State.focusCx]]
  split
  next q hq => rw [← pid q hq, State.focusPart_self]
  next => rfl

@[simp] theorem State.atPawn_cx (s : State) (site : Nat) (k : Fin 64) : (s.atPawn site k).cx = ((s.atPawn site k).pawn k).cx := by
  simp [State.atPawn]

/-! ### What an end gives back (R30, R155, R330, R341) -/

/-- A post puts a token into its channel. -/
theorem Context.post_frame (c : Context) (st : Strm) (sync : Fin 8) (now serial : Nat) : ∃ chans, c.post st sync now serial = { c with chans := chans } := by
  unfold Context.post
  split
  · exact ⟨_, rfl⟩
  · exact ⟨c.chans, rfl⟩

/-- The context after an end has given back: ranges, request slots and buffers, and captured nests are different. -/
def Context.backFrame (c d : Context) : Prop :=
  d = { c with ranges := d.ranges, rldSlots := d.rldSlots, rldBufs := d.rldBufs, captured := d.captured }

/-- What an end gives back is in the context and in the partition. -/
theorem State.giveBack_frame (s : State) (p : Pawn) : ∃ d part, s.giveBack p = { s with ctx := d, part := part } ∧ s.ctx.backFrame d ∧
    givenBack s.ctx d p s.cycle := by
  have ranges : s.ctx.ranges.filter (fun r => !(r.serial == p.serial)) = s.ctx.ranges.filter (fun r => !decide (r.serial = p.serial)) := by
    refine List.filter_congr (fun r _ => ?_)
    rw [beq_eq_decide]
  unfold State.giveBack
  extract_lets t u
  have hu : ∃ part, u = { s with ctx := { s.ctx with ranges := s.ctx.ranges.filter (fun r => !(r.serial == p.serial)) }, part := part } := by
    unfold u
    split
    · exact ⟨_, rfl⟩
    · exact ⟨s.part, rfl⟩
  obtain ⟨part, hu⟩ := hu
  clear_value u
  rw [ranges] at hu
  subst hu
  split
  next hj =>
    unfold Context.giveSlot
    simp only [hj]
    split
    next h0 => exact ⟨_, _, rfl, rfl, rfl, by simp [hj, h0]⟩
    next h0 => exact ⟨_, _, rfl, rfl, rfl, by simp [hj, h0, Context.slotBack_eq]⟩
  next hj => exact ⟨_, _, rfl, rfl, rfl, by simp [hj, Context.slotBack_eq]⟩
  next hj => exact ⟨_, _, rfl, rfl, rfl, by simp [hj]⟩
  next hj => exact ⟨_, _, rfl, rfl, rfl, by simp [hj]⟩
  next h1 h2 h3 h4 =>
    refine ⟨_, _, rfl, rfl, rfl, ?_⟩
    split
    next hj => exact absurd hj (h1 _ _ _ _)
    next hj => exact absurd hj (h2 _ _ _)
    next hj => exact absurd hj (h3 _ _ _ _ _ _ _ _ _)
    next => exact ⟨rfl, rfl, rfl⟩

/-- What the end of a pawn has given back, before its entry says so: memory, the cores and the waits of the context stand. -/
structure State.GivesBack (v t : State) (p : Pawn) : Prop where
  mem : t.mem = v.mem
  cycle : t.cycle = v.cycle
  entries : ∀ j, t.pawn j = v.pawn j
  x : t.ctx.x = v.ctx.x
  given : givenBack v.ctx t.ctx p v.cycle
  agg : ∀ st, t.ctx.agg st = v.ctx.agg st
  waited : ∀ h tok st, t.waitedOn h tok st = v.waitedOn h tok st

/-- The posted word of a pawn's end puts a token into its channel, if its turn is there. -/
theorem State.posted_frame (v : State) (p : Pawn) : ∃ chans,
    (if v.postLives p then v.onCtx (fun c => c.post p.st p.sync v.cycle (p.serial + 1)) else v) = { v with ctx := { v.ctx with chans := chans } } := by
  split
  · obtain ⟨chans, h⟩ := v.ctx.post_frame p.st p.sync v.cycle (p.serial + 1)
    exact ⟨chans, by rw [State.onCtx, h]⟩
  · exact ⟨v.ctx.chans, rfl⟩

theorem State.givesBack (v : State) (p : Pawn) : v.GivesBack
    (((if v.postLives p then v.onCtx (fun c => c.post p.st p.sync v.cycle (p.serial + 1)) else v).giveBack p).trace 7 p.st p.frec.toNat) p := by
  obtain ⟨chans, hc⟩ := v.posted_frame p
  rw [hc]
  obtain ⟨d, part, hg, hd, given⟩ := ({ v with ctx := { v.ctx with chans := chans } } : State).giveBack_frame p
  rw [hg]
  obtain ⟨trace, lost, ht⟩ := ({ v with ctx := d, part := part } : State).trace_frame 7 p.st p.frec.toNat
  rw [show State.trace _ 7 p.st p.frec.toNat = _ from ht]
  unfold Context.backFrame at hd
  refine ⟨rfl, rfl, fun _ => rfl, ?_, ?_, ?_, ?_⟩
  · show d.x = v.ctx.x
    rw [hd]
  · exact given
  · intro st
    show d.agg st = v.ctx.agg st
    rw [hd]
    cases st <;> rfl
  · intro h tok st
    rw [hd]
    rfl

/-! ### Ends (R155, R165 to R169) -/

/-- A pawn whose end has been counted. -/
def Pawn.endedAt (p : Pawn) (fin : PawnState) (now : Nat) : Pawn := { p with state := fin, fin := none, endsAt := now, suspended := false }

/-- The end of a pawn gives back what it held, marks its entry, and is reported by its handle, in the aggregate, or as an adopted pawn's. -/
theorem State.endPawn_eq (here : v.focus v.site (v.pawn k).cx = v) (hf : (v.pawn k).fin = some fin) : ∃ t, v.GivesBack t (v.pawn k) ∧ v.endPawn k =
    if (v.pawn k).adopted then (t.onPawn k (fun _ => (v.pawn k).endedAt fin v.cycle)).endAdopted k { (v.pawn k).endedAt fin v.cycle with fin := some fin }
      (fin == .faulted)
    else if (v.pawn k).handle.isNone then (t.onPawn k (fun _ => (v.pawn k).endedAt fin v.cycle)).aggregate k ((v.pawn k).endedAt fin v.cycle)
    else t.onPawn k (fun _ => (v.pawn k).endedAt fin v.cycle) := by
  refine ⟨_, v.givesBack (v.pawn k), ?_⟩
  have cycle := (v.givesBack (v.pawn k)).cycle
  unfold State.endPawn
  simp only [hf, here, cycle]
  rfl

/-- The state v in which the end of the pawn p of entry k is counted. -/
structure State.Ends (s : State) (site : Nat) (k : Fin 64) (v : State) (p : Pawn) (fin : PawnState) : Prop where
  at_eq : v = s.atPawn site k
  pawn_eq : v.pawn k = p
  ready : (s.focus site s.cx).endReady k = true
  fin_eq : p.fin = some fin

theorem State.Ends.mem (h : s.Ends site k v p fin) : v.mem = s.mem := by rw [h.at_eq]; simp
theorem State.Ends.cycle (h : s.Ends site k v p fin) : v.cycle = s.cycle := by rw [h.at_eq]; simp

theorem State.Ends.exec_eq (h : s.Ends site k v p fin) : exec (.pawnEnd site k) s = .next (v.endPawn k) := by
  show execPawnEnd site k s = _
  unfold execPawnEnd
  dsimp only
  rw [if_pos h.ready, h.at_eq]
  rfl

theorem State.Ends.here (h : s.Ends site k v p fin) : v.focus v.site (v.pawn k).cx = v := by
  rw [h.at_eq]
  have := s.atPawn_focus site k
  rwa [State.atPawn_cx] at this

/-- A pawn with a handle reports its end there (R165). -/
theorem State.Ends.handle (h : s.Ends site k v p fin) (own : p.adopted = false) (named : p.handle.isSome = true) :
    ∃ t, exec (.pawnEnd site k) s = .next t ∧ t.mem = s.mem ∧ t.ctx.x = v.ctx.x ∧ givenBack v.ctx t.ctx p s.cycle ∧
      onlyPawn v t k (p.endedAt fin s.cycle) := by
  obtain rfl := h.pawn_eq
  obtain ⟨t, back, ends⟩ := State.endPawn_eq h.here h.fin_eq
  rw [if_neg (by simp [own]), if_neg (by simp [Option.isSome_iff_ne_none.1 named])] at ends
  rw [← h.cycle]
  refine ⟨_, h.exec_eq, ?_, ?_, ?_, ?_⟩ <;> rw [ends]
  · exact back.mem.trans h.mem
  · exact back.x
  · exact back.given
  · exact onlyPawn_onPawn (f := fun _ => (v.pawn k).endedAt fin v.cycle) back.entries

/-- The aggregate with the end of an anonymous pawn (R167). -/
theorem aggregated_add (a : Aggregate) (p : Pawn) (k : Fin 64) (fin : PawnState) (now : Nat) :
    aggregated a (a.add (p.endedAt fin now) k) p k fin := by
  unfold Aggregate.add
  extract_lets b
  have hb : b = { a with ended := true, cancelled := a.cancelled || (fin == .cancelled) } := rfl
  have hcond : ((p.endedAt fin now).state = .faulted ∧ (b.faulted = false ∨ (p.endedAt fin now).serial < b.serial)) ↔
      (fin = .faulted ∧ (a.faulted = false ∨ p.serial < a.serial)) := by rw [hb]; exact Iff.rfl
  split
  next hc =>
    rw [hcond] at hc
    refine ⟨rfl, ?_, ?_, ?_⟩
    · rw [hb, beq_eq_decide]
    · simp [hc.1]
    · rw [if_pos hc]
      exact ⟨rfl, rfl, rfl, rfl⟩
  next hc =>
    rw [hcond] at hc
    refine ⟨rfl, ?_, ?_, ?_⟩
    · rw [hb, beq_eq_decide]
    · rw [hb]
      by_cases hf : fin = .faulted
      · have : a.faulted = true := by
          rcases Bool.eq_false_or_eq_true a.faulted with h | h
          · exact h
          · exact absurd ⟨hf, .inl h⟩ hc
        simp [this]
      · simp [hf]
    · rw [if_neg hc]
      exact ⟨rfl, rfl, rfl, rfl⟩

theorem Context.agg_onAgg {c : Context} {st : Strm} (h : st ≠ .v) (f : Aggregate → Aggregate) : (c.onAgg st f).agg st = f (c.agg st) := by
  cases st
  · rfl
  · rfl
  · rfl
  · exact absurd rfl h

/-- An aggregate changed leaves the rest of the context. -/
theorem Context.onAgg_frame (c : Context) (st : Strm) (f : Aggregate → Aggregate) : ∃ ac at_ am, c.onAgg st f = { c with aggC := ac, aggT := at_, aggM := am } := by
  cases st
  · exact ⟨_, c.aggT, c.aggM, rfl⟩
  · exact ⟨c.aggC, _, c.aggM, rfl⟩
  · exact ⟨c.aggC, c.aggT, _, rfl⟩
  · exact ⟨c.aggC, c.aggT, c.aggM, rfl⟩

theorem State.waitedOn_onAgg (u : State) (st : Strm) (f : Aggregate → Aggregate) (h : BitVec 16) (tok : Option (Fin 8)) (w : Option Strm) :
    (u.onCtx (fun c => c.onAgg st f)).waitedOn h tok w = u.waitedOn h tok w := by
  cases st <;> rfl

/-- What entering the aggregate leaves: the entry is freed unless a wait on its handle is pending (R166, R310). -/
theorem State.aggregate_leaves {u : State} {q : Pawn} (hq : u.pawn k = q) (anon : q.handle = none) :
    (u.aggregate k q).mem = u.mem ∧ (u.aggregate k q).ctx = u.ctx.onAgg q.st (fun a => a.add q k) ∧
    onlyPawn u (u.aggregate k q) k (if u.waitedOn (u.handleOf k) none none = true then q else { Pawn.free with gen := q.gen }) := by
  unfold State.aggregate
  dsimp only
  rw [State.waitedOn_onAgg, show (u.onCtx (fun c => c.onAgg q.st (fun a => a.add q k))).handleOf k = u.handleOf k from rfl]
  split
  · refine ⟨rfl, rfl, ?_⟩
    have kept : ({ u.pawn k with handle := none } : Pawn) = q := by rw [hq, ← anon]
    rw [← kept]
    exact onlyPawn_onPawn (f := fun p => { p with handle := none }) (fun _ => rfl)
  · refine ⟨rfl, rfl, ?_⟩
    rw [← hq]
    exact onlyPawn_onPawn (f := fun p => { Pawn.free with gen := p.gen }) (fun _ => rfl)

/-- An anonymous pawn's end enters the aggregate of its stream (R167). -/
theorem State.Ends.anonymous (h : s.Ends site k v p fin) (own : p.adopted = false) (anon : p.handle = none) (engine : p.st ≠ .v) :
    ∃ t, exec (.pawnEnd site k) s = .next t ∧ t.mem = s.mem ∧ t.ctx.x = v.ctx.x ∧ givenBack v.ctx t.ctx p s.cycle ∧
      aggregated (v.ctx.agg p.st) (t.ctx.agg p.st) p k fin ∧
      onlyPawn v t k (if v.waitedOn (v.handleOf k) none none = true then p.endedAt fin s.cycle else { Pawn.free with gen := p.gen }) := by
  obtain rfl := h.pawn_eq
  obtain ⟨t, back, ends⟩ := State.endPawn_eq h.here h.fin_eq
  rw [if_neg (by simp [own]), if_pos (by simp [anon])] at ends
  rw [← h.cycle]
  generalize hu : t.onPawn k (fun _ => (v.pawn k).endedAt fin v.cycle) = u at ends
  have entry : onlyPawn v u k ((v.pawn k).endedAt fin v.cycle) := by
    rw [← hu]; exact onlyPawn_onPawn (f := fun _ => (v.pawn k).endedAt fin v.cycle) back.entries
  obtain ⟨mem, ctx, waits⟩ : u.mem = t.mem ∧ u.ctx = t.ctx ∧ ∀ h, u.waitedOn h none none = t.waitedOn h none none := by
    rw [← hu]; exact ⟨rfl, rfl, fun _ => rfl⟩
  have handle : u.handleOf k = v.handleOf k := by unfold State.handleOf; rw [entry.1]; rfl
  obtain ⟨mem', ctx', only⟩ := State.aggregate_leaves entry.1 (show ((v.pawn k).endedAt fin v.cycle).handle = none from anon)
  rw [← ends] at mem' ctx' only
  rw [waits, back.waited, handle] at only
  obtain ⟨ac, at_, am, frame⟩ := u.ctx.onAgg_frame (v.pawn k).st (fun a => a.add ((v.pawn k).endedAt fin v.cycle) k)
  refine ⟨_, h.exec_eq, (mem'.trans (mem.trans back.mem)).trans h.mem, ?_, ?_, ?_, onlyPawn_trans entry only⟩
  · rw [ctx', show ((v.pawn k).endedAt fin v.cycle).st = (v.pawn k).st from rfl, frame, ← back.x, ← ctx]
  · rw [ctx', show ((v.pawn k).endedAt fin v.cycle).st = (v.pawn k).st from rfl, frame, ctx]
    exact back.given
  · rw [ctx', show ((v.pawn k).endedAt fin v.cycle).st = (v.pawn k).st from rfl, Context.agg_onAgg engine, ctx, back.agg]
    exact aggregated_add ..

/-- The end of an adopted pawn leaves the core in focus but for its entry, which is free. -/
theorem State.endAdopted_core (u : State) (k : Fin 64) (q : Pawn) (faulted : Bool) : (u.endAdopted k q faulted).core = (u.freeEntry k).core := by
  unfold State.endAdopted
  extract_lets logged posted
  have hl : logged.core = u.core := by
    unfold logged
    split
    · exact State.logFault_core ..
    · rfl
  have hp : posted.core = u.core := by
    rw [← hl]
    unfold posted
    split <;> rfl
  clear_value posted
  rw [State.run_core]
  show ({ posted.core with pawns := posted.core.pawns.set k { Pawn.free with gen := posted.core.pawns[k].gen } } : Core) = _
  rw [hp]
  rfl

/-- The end of an adopted pawn frees its entry (R169). -/
theorem State.Ends.adopted (h : s.Ends site k v p fin) (free : p.adopted = true) :
    ∃ t, exec (.pawnEnd site k) s = .next t ∧ t.pawn k = { Pawn.free with gen := p.gen } := by
  obtain rfl := h.pawn_eq
  obtain ⟨t, back, ends⟩ := State.endPawn_eq h.here h.fin_eq
  rw [if_pos free] at ends
  refine ⟨_, h.exec_eq, ?_⟩
  rw [ends]
  unfold State.pawn
  rw [State.endAdopted_core]
  show (State.freeEntry _ k).pawn k = _
  unfold State.freeEntry
  rw [State.onPawn_pawn, if_pos rfl, State.onPawn_pawn, if_pos rfl]
  rfl

/-! ### Draw slots (R12, R341, R390) -/

/-- Free slots go to waiters, and only when there are some. -/
theorem serveDraw_mem {room : Word → Nat} {free : Nat} {taken : List Word} {ws : List (Nat × Bool × Word)} {w : Nat × Bool × Word}
    (h : w ∈ serveDraw room free taken ws) : 0 < free ∧ w ∈ ws := by
  induction ws generalizing free taken with
  | nil => simp [serveDraw] at h
  | cons x rest ih =>
    unfold serveDraw at h
    split at h
    · cases h
    next hf =>
      split at h
      · rcases List.mem_cons.1 h with rfl | h
        · exact ⟨Nat.pos_of_ne_zero hf, List.mem_cons_self ..⟩
        · exact ⟨Nat.pos_of_ne_zero hf, List.mem_cons_of_mem _ (ih h).2⟩
      · exact ⟨Nat.pos_of_ne_zero hf, List.mem_cons_of_mem _ (ih h).2⟩

/-- A free draw slot sends the first waiter on (R390). -/
theorem drawSlotGrant_leaves {part : Nat} {w : Nat × Bool × Word} (h : (s.focusPart part).grantee = some w) :
    0 < (s.focusPart part).freeSlots ∧ w ∈ (s.focusPart part).drawWaiters ∧
    exec (.drawSlotGrant part) s = .next ((s.focusPart part).focus w.1 w.2.1 |>.onCtx (fun c => { c with ms := { c.ms with wait := none } })) := by
  have served := serveDraw_mem (List.mem_of_find?_eq_some h)
  refine ⟨served.1, served.2, ?_⟩
  show execDrawSlotGrant part s = _
  unfold execDrawSlotGrant
  simp only [h]
  rfl

end Sys2Proof.Machine
end

section
/-! PROOFS. The obligation of spec/07_memory.md on the pawns of the engines (R140, R163 to R170, R328 to R330, R341, R342, R347, R348, R390). -/

namespace Sys2Proof.Proofs

open Sys2Proof.Machine Sys2Proof.Claims

/-- Settles O49: each event of a pawn by its own lemma, a step by the engine and by what the pawn's step meets, an end by what reports it. -/
theorem pawnEventsStepEndAndGrant : Obligations.PawnEventsStepEndAndGrant := by
  unfold Obligations.PawnEventsStepEndAndGrant
  refine ⟨?_, ?_, ?_, ?_⟩
  · intro site k s u p v goes row pick
    have h : s.Steps site k v p := ⟨rfl, by simp [v, p], pick⟩
    refine ⟨h.cancel, ?_, ?_, ?_, ?_, ?_, ?_, ?_, ?_, ?_⟩
    · rintro ⟨go, ok⟩ e begun tr x hx
      exact h.copyStart go ok e begun hx
    · intro go e mgo begun
      exact h.rowStart go e mgo begun
    · intro n c go e hn hp
      exact h.copyFailed go e hn hp
    · rintro ⟨go, ok⟩ e src dst n pos last piece
      refine ⟨?_, ?_⟩
      · intro a b begun ha hb pages back ra wb home idle
        refine ⟨fun quiet stay => ?_, h.copyPiece go ok e piece begun ha hb pages back ra wb home idle⟩
        rw [State.readFor_home quiet stay, h.mem]
      · intro c x miss hx va
        refine ⟨?_, fun hc => h.copyFault go ok e piece miss hx hc⟩
        rintro rfl own
        exact h.copyPage go ok e piece miss hx own
    · rintro ⟨_, ok⟩ e going begun chan launch src slot n ch a rs job more found at_ slotKey ha back ra wb
      exact h.sendLine ok e going begun job more found at_ ha back ra wb
    · intro go e nest a0 b0 tile acc af bf mc strict pa pb int v1 job at_ found
      exact h.mgoBegins go e job found
    · rintro ⟨go, begun, e⟩ base tile ly job more cols w row bs ls m1 fmt lines good whole home wf
      exact h.acc2sRow go begun e job more cols fmt lines good whole home wf
    · rintro ⟨go, begun, e⟩ base tile ly job more cols w row via new ls m1 fmt lines good whole wa wi
      have new_eq : new ls = fun i => if ly.cols.toNat ≤ i then (v.ctx.accRow row).getD i 0
          else s2accElem w.fmt (if w.geom = 0 then v.elemIn via w ls p.pos i else 0)
            (if w.fmt = 0 then .fin false 0 0 else (v.valueIn via w ls p.pos i).1) :=
        funext (fun i => by rw [s2accElem_eq])
      rw [new_eq]
      exact h.s2accRow go begun e job more cols fmt lines good whole wa wi
    · rintro ⟨go, begun, e⟩ base tile ly perCol job later more cols row fmt good wa wi
      exact h.accmulRow go begun e job later more cols fmt good wa wi
  · intro site k s u p v due nest a0 b0 tile acc af bf mc strict va pa vb pb job panels row int
    have h : s.MgoEnds site k v p := ⟨rfl, by simp [v, p], due⟩
    refine ⟨fun n c hn hc => h.netFault hn hc, fun net bad => h.badPanel job panels net bad, fun net ga gb wa wi => ⟨?_, ?_, ?_⟩⟩
    · intro quiet stay
      rw [← h.mem]
      exact ⟨fun alone => panelRead_home quiet stay alone pa, fun alone => panelRead_home quiet stay alone pb⟩
    · intro rest hm
      exact h.mismatch job panels net ga gb hm
    · intro going first good
      exact h.made job panels net ga gb wa wi going first good
  · intro site k s fin u p v ready hf
    have h : s.Ends site k v p fin := ⟨rfl, by simp [v, p], ready, hf⟩
    exact ⟨h.handle, h.anonymous, h.adopted⟩
  · intro part s w u found f
    exact drawSlotGrant_leaves found

end Sys2Proof.Proofs
end

section
/-! SUPPORT. What a queue store that the head of the window makes leaves in memory (R31, R322, R326). -/

namespace Sys2Proof.Machine

variable {s : State} {via : Via} {ls : List (Nat × Place)} {bs : List (Nat × Nat)}

theorem State.storeRun_frame (b : Nat × List (BitVec 8)) : s.homeFrame (State.storeRun ls via s b) := by
  unfold State.storeRun
  split
  · exact s.frameWrite_frame ..
  · exact s.homeFrame_refl

/-- Bytes stored reach their homes, and change nothing else. -/
theorem State.storeBytes_frame : s.homeFrame (s.storeBytes via ls bs) := by
  have runs : s.homeFrame ((byteRuns bs).foldl (State.storeRun ls via) s) :=
    List.foldlRecOn _ _ s.homeFrame_refl (fun t kept b _ => State.homeFrame_trans kept (t.storeRun_frame b))
  rw [State.storeBytes_eq]
  unfold State.clearBad
  split
  · exact runs
  · exact State.homeFrame_trans runs rfl

theorem State.storeBytes_ctx : (s.storeBytes via ls bs).ctx = s.ctx := by
  rw [State.storeBytes_frame (s := s) (via := via) (ls := ls) (bs := bs)]

/-- Bytes of one run are written at the place of its address. -/
theorem State.storeBytes_run {a : Nat} {l : List (BitVec 8)} {p : Place} (run : byteRuns bs = [(a, l)]) (at_ : placeIn ls a = some p) :
    (s.storeBytes via ls bs).mem = (s.writePlace via.path via.serial p l).mem := by
  rw [State.storeBytes_eq, State.clearBad_mem, run, List.foldl_cons, List.foldl_nil]
  simp only [State.storeRun, at_]

/-- The head of a window that stores an entry makes its writes, whether it leaves the window or waits for its homes. -/
theorem State.commitT_stq_mem {e : TEntry} {rest : List TEntry} {en : QEntry} {b : Word} {ly : LyRec} (head : s.ctx.twin = e :: rest)
    (ready : s.commitReady = true) (op : e.op = .stq en b ly ls) (fine : e.fault = none) (fresh : e.done = none)
    (whole : s.partBad ls (stqBytes en b ly ls).1 = none) :
    s.commitT.mem = (s.storeBytes { path := 1, serial := e.serial } ls (stqBytes en b ly ls).1).mem := by
  let stored := s.storeBytes { path := 1, serial := e.serial } ls (stqBytes en b ly ls).1
  have made : s.makeT e = .ok (stored.madeT e.serial 0) := by
    simp only [State.makeT, fresh, op, whole, Option.isSome_none, Bool.false_eq_true, if_false, stored]
  have window : (stored.madeT e.serial 0).ctx.twin =
      { e with done := some 0 } :: rest.map (fun w => if w.serial = e.serial then { w with done := some 0 } else w) := by
    show stored.ctx.twin.map _ = _
    rw [State.storeBytes_ctx, head, List.map_cons, if_pos rfl]
  unfold State.commitT
  simp only [head, ready, fine, made, window, Option.isSome_none, Bool.not_true, Bool.false_eq_true, if_false]
  split
  · rfl
  · simp only [State.performT, op, State.leaveT_mem, State.onCtx_mem, State.madeT_mem, stored]

end Sys2Proof.Machine
end

section
/-! PROOFS. The obligation of spec/08_ordering.md on results that land and T words that commit (R322, R326, R332). -/

namespace Sys2Proof.Proofs

open Sys2Proof.Machine

/-- Refutes O48 at its clause of stores to replicated frames, which asks only that the frames of the lines have holders, and not that a line lies
within its frame. The line at address 0 has the last byte of frame 0 as its key here, and frame 0 has a holder; the store's one byte, at address 1,
is the first byte of frame 1, which nobody holds. Its home performs the write at once, and memory does not stand as the clause says. -/
theorem not_resultsLandAndTWordsCommit : ¬ Obligations.ResultsLandAndTWordsCommit := by
  unfold Obligations.ResultsLandAndTWordsCommit
  intro h
  obtain ⟨-, -, -, -, commits⟩ := h
  let leaf : Leaf :=
    { rd := true, wr := true, code := false, tgt := 0, chip := 0, fmt := 0, geom := 0, repl := true, glob := false, frame := 0, size := 65536 }
  let lines : List (Nat × Place) := [(0, { key := 0xFFFF, leaf := some leaf })]
  let ly : LyRec := { rows := 1, cols := 1, rstride := 0, swz := 0, efmt := 0, lfmt := 8, scale := 0 }
  let e : TEntry := { serial := 0, pc := 0, pos := 0, op := .stq 9 1 ly lines, due := 0, sync := 0
                      undo := { pops := [], regs := [], awaitOf := none, loops := [] }, fault := none, done := none }
  let s : State := { State.reset with ctx := { State.reset.ctx with twin := [e] }, part := { State.reset.part with holders := [(0, [4])] } }
  let place : Place := { key := 0x10000, leaf := some leaf }
  have bytes : (stqBytes 9 1 ly lines).1 = [(1, 9)] := by decide +kernel
  have lineHeld : ∀ l ∈ lines, ∃ f, l.2.replFrame = some f ∧ s.part.holders.getD f [] ≠ [] :=
    List.forall_mem_singleton.2 ⟨0, by decide, by decide⟩
  have placed : placeIn lines 1 = some place := by decide
  obtain ⟨-, -, waits, -⟩ := commits 0 false s e [] rfl (Nat.le_refl 0) rfl rfl
  obtain ⟨t, ht, stands, -⟩ := waits 9 1 ly lines rfl rfl rfl rfl lineHeld ⟨(1, 9), by rw [bytes]; exact List.mem_singleton_self _, by rw [placed]; rfl⟩
  have after : t.mem = s.mem.writeBytes 0x10000 [9] := by
    have arm : exec (.tWordCommit 0 false) s = .next s.commitT := rfl
    have unheld : s.writePlace 1 0 place [9] = s.writeList 0x10000 [9] := by
      have frame : place.replFrame = some 1 := by decide
      rw [State.writePlace, frame]
      exact State.frameWrite_of_unheld rfl (List.forall_mem_nil _) ..
    rw [arm, Host.Outcome.next.injEq] at ht
    rw [← ht, State.commitT_stq_mem (e := e) rfl rfl rfl rfl rfl rfl, bytes, State.storeBytes_run (a := 1) rfl placed]
    exact congrArg State.mem unheld
  have differs : s.mem.writeBytes 0x10000 [9] ≠ s.mem := by decide
  exact differs (after.symm.trans stands)

end Sys2Proof.Proofs
end

section
/-! SUPPORT. C words at issue: what waits, takes its token, or traps (R157, R158, R177, R286, R319). -/

namespace Sys2Proof.Machine

open Sys2Proof.Claims

/-! ### Words that wait at issue (R157, R158) -/

/-- A word that waits for results of a landing buffer has them in flight again (log 15). -/
theorem State.waitLanding_eq (s : State) (why : WaitOn) : s.waitLanding why = waitsOn (landingBack s) why := by
  rw [State.waitLanding, State.resumeC_eq]
  rfl

/-- A result word whose destination a token owns waits for it. -/
theorem State.cResult_of_owned {s : State} {rd : Fin 32} (owned : s.ctx.ownedX rd = true) (lat : Nat) (v : Word) :
    s.cResult rd lat v = waitsOn s (.owned rd) := by
  rw [State.cResult, if_pos owned]
  rfl

/-- A result word that finds eight results in flight waits for one to land. -/
theorem State.cResult_of_full {s : State} {rd : Fin 32} (free : s.ctx.ownedX rd = false) (full : s.ctx.landingFull = true) (lat : Nat) (v : Word) :
    s.cResult rd lat v = waitsOn (landingBack s) .landing := by
  rw [State.cResult, free, State.cLand, if_pos full]
  exact s.waitLanding_eq .landing

/-- A word of one source, of an immediate or of a predicate goes to its destination at latency 1. -/
theorem exec_xWord {i : Instr} {s : State} {g : Fin 8} {rd : Fin 32} {v : Word} (word : xWord s.ctx i = some (g, rd, v))
    (on : s.ctx.getP g = true) : ∃ w, exec i s = .next (s.cResult rd 1 w) := by
  unfold xWord at word
  split at word <;> cases word <;> exact ⟨_, congrArg _ (State.guarded_on on _)⟩

/-- A word that takes a token waits while its token is pending. -/
theorem Context.tokHazard_of_pending {c : Context} {k : Fin 8} (pending : c.tok[k] ≠ none) (owned : List (Fin 32)) :
    c.tokHazard k owned = some (.token k) := if_pos (Option.isSome_iff_ne_none.2 pending)

/-- A word that no hazard holds takes its token. -/
theorem State.cToken_takes {s : State} {k : Fin 8} {owned : List (Fin 32)} (may : mayTake s.ctx k owned) (lat : Nat) (op : TokOp) :
    s.cToken k owned lat op = tokenTaken s k op lat owned := by
  rw [State.cToken, Context.tokHazard_eq_none may]
  exact s.takeTok_issued k op lat owned

/-- A record word with an aligned address that no hazard holds takes its token. -/
theorem State.recordWord_takes {s : State} {k : Fin 8} {a : Word} {align : Nat} (may : mayTake s.ctx k []) (aligned : a.toNat % align = 0)
    (op : TokOp) : s.recordWord k a align op = tokenTaken s k op (s.recordLat a.toNat) [] := by
  rw [State.recordWord, Context.tokHazard_eq_none may]
  exact (if_neg (fun odd => odd aligned)).trans (s.takeTok_issued k op _ [])

/-- A pawn word of an even pair that no hazard holds takes its token. -/
theorem State.pawnPair_takes {s : State} {o : Op.PawnRes} (even : o.rd.val % 2 = 0) (may : mayTake s.ctx o.tok (both o.rd)) (lat : Nat)
    (op : BitVec 16 → Bool → TokOp) :
    s.pawnPair o lat op = tokenTaken s o.tok (op (s.ctx.cHandle o.h) (o.h == 0)) lat (both o.rd) := by
  rw [State.pawnPair, if_neg (by omega)]
  exact State.cToken_takes may lat _

/-- PDETACH names its event by bits [15:0], if bit 16 is set. -/
theorem detachEvent_eq (v : Word) : (if v.toNat / 65536 % 2 = 1 then some (v.toNat % 65536) else none) =
    if v.getLsbD 16 = true then some (v.toNat % 2 ^ 16) else none := by
  have bit : v.getLsbD 16 = decide (v.toNat / 65536 % 2 = 1) := by
    rw [BitVec.getLsbD, Nat.testBit_eq_decide_div_mod_eq]
  simp only [bit, decide_eq_true_eq, Nat.reducePow]

/-- A word whose whole effect is to take its token does so when it may. -/
theorem exec_tokWord {i : Instr} {s : State} {g k : Fin 8} {owned : List (Fin 32)} {lat : Nat} {op : TokOp} {ok : Prop}
    (word : tokWord s i = some (g, k, owned, lat, op, ok)) (on : s.ctx.getP g = true) (holds : ok) (may : mayTake s.ctx k owned) :
    exec i s = .next (tokenTaken s k op lat owned) := by
  unfold tokWord at word
  split at word <;> cases word <;> refine congrArg _ ((State.guarded_on on _).trans ?_)
  case h_1 => exact State.recordWord_takes may holds _ -- JOIN
  case h_3 => -- CANCEL
    obtain ⟨low, high, aligned⟩ := holds
    exact (if_neg (by omega)).trans (State.recordWord_takes may aligned _)
  case h_4 | h_5 => exact State.pawnPair_takes holds may _ _ -- PWAIT, PTEST
  case h_6 => -- PDETACH
    rw [← detachEvent_eq]
    exact State.cToken_takes may _ _
  case h_9 o => -- CRR
    have allowed : (crrSupervisor o.reg.val && !s.ctx.pl) = false := by
      cases super : crrSupervisor o.reg.val
      · rfl
      · simp [holds super]
    rw [allowed]
    exact State.cToken_takes may _ _
  case h_10 => -- TIME
    rw [Context.tokHazard_eq_none may, holds]
    exact s.takeTok_issued _ _ _ _
  case h_2 | h_7 | h_8 => exact State.cToken_takes may _ _ -- BUDGET, PPRIO, PSTAT

/-! ### Memory words (R286 to R288) -/

/-- The address of a load or store: a register plus a signed offset of its size. -/
theorem State.memAddr_eq (s : State) (o : Op.Mem) (size : Nat) : s.memAddr o size = memAt s.ctx o.ra o.off size := by
  simp only [State.memAddr, memAt, BitVec.ofInt_add, BitVec.ofInt_mul, BitVec.ofInt_toInt, BitVec.ofInt_natCast]
  rfl

theorem exec_memWord {i : Instr} {s : State} {g k : Fin 8} {owned : List (Fin 32)} {a : Word} {n : Nat} {op : TokOp}
    (word : memWord s.ctx i = some (g, k, owned, a, n, op)) (on : s.ctx.getP g = true) :
    ∃ acc, exec i s = .next (s.cAccess k owned acc a n op) := by
  unfold memWord at word
  split at word <;> cases word
  case h_12 => exact ⟨_, congrArg _ (State.guarded_on on _)⟩ -- TLRW
  all_goals -- loads and stores
    rw [← State.memAddr_eq]
    exact ⟨_, congrArg _ (State.guarded_on on _)⟩

/-- A memory word at an address that is no multiple of its size traps when it may issue. -/
theorem State.cAccess_misaligned {s : State} {k : Fin 8} {owned : List (Fin 32)} {a : Word} {n : Nat} (may : mayTake s.ctx k owned)
    (odd : a.toNat % n ≠ 0) (acc : Acc) (op : TokOp) : s.cAccess k owned acc a n op = s.trapWord .align a := by
  rw [State.cAccess, Context.tokHazard_eq_none may]
  exact if_pos odd

theorem State.cAccess_pending {s : State} {k : Fin 8} (pending : s.ctx.tok[k] ≠ none) (owned : List (Fin 32)) (acc : Acc) (a : Word) (n : Nat)
    (op : TokOp) : s.cAccess k owned acc a n op = waitsOn s (.token k) := by
  rw [State.cAccess, Context.tokHazard_of_pending pending]
  rfl

/-! ### Traps of C words (R177, R178, R319) -/

theorem State.trapWord_enters {s : State} (tip : s.ctx.tip = false) (handler : handlerOf s.part ≠ 0) (cause : Cause) (a : Word) :
    entersHandler s (s.trapWord cause a)
      (inHandler s.ctx s.cycle s.cycle s.serial (wordTrap cause s.ctx.cs.pc a 0) s.ctx.cs.pc (handlerOf s.part)) :=
  s.enterTrapAt_handler s.cycle _ _ tip handler

theorem nextWord_part (s : State) : (nextWord s).part = s.part := by rw [nextWord, refetched_frame]

theorem nextWord_cycle (s : State) : (nextWord s).cycle = s.cycle := by rw [nextWord, refetched_frame]

theorem nextWord_mem (s : State) : (nextWord s).mem = s.mem := by rw [nextWord, refetched_frame]

/-- A trap after the word: the word has issued, and the handler is entered in the cycle after it. -/
theorem State.trapAfter_enters {s : State} (tip : s.ctx.tip = false) (handler : handlerOf s.part ≠ 0) (cause : Cause) (code : BitVec 15) :
    entersHandler (nextWord s) (s.trapAfter cause code)
      (inHandler (nextWord s).ctx s.cycle (s.cycle + 1) (nextWord s).serial (wordTrap cause s.ctx.cs.pc 0 (code.setWidth 64)) (s.ctx.cs.pc + 4)
        (handlerOf s.part)) := by
  have entered := (nextWord s).enterTrapAt_handler (s.cycle + 1) (wordTrap cause s.ctx.cs.pc 0 (code.setWidth 64)) (s.ctx.cs.pc + 4) tip
    (by rw [nextWord_part]; exact handler)
  rw [nextWord_part, nextWord_cycle] at entered
  have trap : s.trapAfter cause code =
      (nextWord s).enterTrapAt ((nextWord s).cycle + 1) (wordTrap cause s.ctx.cs.pc 0 (code.setWidth 64)) (nextWord s).ctx.cs.pc := by
    rw [State.trapAfter, State.issuedIn_c]
    rfl
  rw [trap, nextWord_cycle]
  exact entered

theorem exec_trap {s : State} {o : Op.Code} (on : s.ctx.getP o.g = true) : exec (.trap o) s = .next (s.trapAfter .swtrap o.code) :=
  congrArg Host.Outcome.next (State.guarded_on on _)

/-- BKPT traps where breakpoints are off. -/
theorem exec_bkpt_off {s : State} {o : Op.Code} (on : s.ctx.getP o.g = true) (off : s.ctx.dbgctl.getLsbD 2 = false) :
    exec (.bkpt o) s = .next (s.trapAfter .bkpt o.code) :=
  congrArg Host.Outcome.next ((State.guarded_on on _).trans (if_neg (by rw [off]; exact Bool.false_ne_true)))

/-- BKPT issues where breakpoints are on, and asks for a halt. -/
theorem exec_bkpt_on {s : State} {o : Op.Code} (on : s.ctx.getP o.g = true) (enabled : s.ctx.dbgctl.getLsbD 2 = true) :
    exec (.bkpt o) s = .next (nextWord s).requestHalt := by
  rw [← State.issuedIn_c]
  exact congrArg Host.Outcome.next ((State.guarded_on on _).trans (if_pos enabled))

/-- A halt requested right after a C word has issued leaves the stream and the registers as they are. -/
theorem State.requestHalt_frame {s : State} (ready : s.ctx.cs.wait = none) :
    let t := s.requestHalt
    t.ctx.haltReq = true ∧ t.ctx.cs = s.ctx.cs ∧ t.mem = s.mem ∧ t.ctx.x = s.ctx.x ∧ t.ctx.tip = s.ctx.tip := by
  have stream : ({ s.ctx.cs with wait := none } : StreamSt) = s.ctx.cs := by rw [← ready]
  dsimp only
  unfold State.requestHalt State.requestHaltAt State.onCtx Context.pauseC
  dsimp only
  rw [stream]
  split
  · split <;> exact ⟨rfl, rfl, rfl, rfl, rfl⟩
  · exact ⟨rfl, rfl, rfl, rfl, rfl⟩

end Sys2Proof.Machine
end

section
/-! SUPPORT. Queue words of the C stream: served as they issue, or waiting in their token (R154, R270, R273, R299). -/

namespace Sys2Proof.Machine

open Sys2Proof.Claims

/-! ### Queue words of the C stream (R154, R270, R273, R299) -/

section
variable (c : Context) (tok : Vector (Option TokPend) 8) (now : Nat) (st : Strm) (q : Fin 16)

/-- A queue does not look at the wait tokens. -/
theorem Context.popQ_withTok (n : Nat) :
    ({ c with tok := tok } : Context).popQ now st q n = (c.popQ now st q n).map (fun r => (r.1, { r.2 with tok := tok })) := by
  have head : ({ c with tok := tok } : Context).headQ now st q n = c.headQ now st q n := rfl
  rw [Context.popQ, Context.popQ, head]
  cases c.headQ now st q n with
  | error e => rfl
  | ok es => cases st <;> rfl

end

/-- A pop by the C stream changes the queue, and what the stream knows. -/
theorem Context.popQ_frame {c d : Context} {now n : Nat} {q : Fin 16} {es : List QEnt} (pops : c.popQ now .c q n = .ok (es, d)) :
    ∃ qs know, d = { c with q := qs, cs := { c.cs with know := know } } := by
  unfold Context.popQ at pops
  split at pops <;> cases pops
  exact ⟨_, _, rfl⟩

/-- A queue that pops is not in error. -/
theorem Context.headQ_of_popQ {c d : Context} {now n : Nat} {st : Strm} {q : Fin 16} {es : List QEnt} (pops : c.popQ now st q n = .ok (es, d)) :
    c.headQ now st q n = .ok es := by
  unfold Context.popQ at pops
  split at pops <;> cases pops
  assumption

/-- A push that lands as it takes its place. -/
theorem Context.landQ_reserveQ (c : Context) (now : Nat) (q : Fin 16) (serial before : Nat) (v : QEntry) :
    ∃ e : QEnt, e.pushed = now ∧ e.data = some v ∧ (c.reserveQ now q serial before).landQ q serial v =
      { c with q := c.q.set q { c.q[q] with ents := c.q[q].ents.map (fun x => if x.serial = serial then { x with data := some (x.data.getD v) } else x) ++ [e] } } := by
  unfold Context.landQ Context.reserveQ
  simp only [Fin.getElem_fin, Vector.getElem_set_self, Vector.set_set, List.map_append, List.map_cons, List.map_nil, if_true, Option.getD_none]
  exact ⟨_, rfl, rfl, rfl⟩

/-- Entries of other numbers stand as they are when a push lands. -/
theorem map_land_of_fresh {es : List QEnt} {serial : Nat} (fresh : ∀ e ∈ es, e.serial ≠ serial) (v : QEntry) :
    es.map (fun x => if x.serial = serial then { x with data := some (x.data.getD v) } else x) = es :=
  (List.map_congr_left (fun x mem => if_neg (fresh x mem))).trans (List.map_id es)

/-- No earlier word holds the operation of a token just taken on a queue that no token waits for. -/
theorem Context.queueBlocked_of_free {c : Context} {q : Fin 16} (free : queueFree c q) (k : Fin 8) (t : TokPend) :
    ({ c with tok := c.tok.set k (some t) } : Context).queueBlocked t q = false := by
  unfold Context.queueBlocked
  rw [List.any_eq_false]
  intro x mem
  obtain ⟨j, bound, rfl⟩ := Vector.getElem_of_mem (Vector.mem_toList_iff.1 mem)
  by_cases own : k.val = j
  · subst own
    simp
  · have other : (c.tok.set k (some t))[j] = c.tok[j] := Vector.getElem_set_ne _ _ own
    show ¬ _
    rw [other]
    cases held : c.tok[j] with
    | none => simp
    | some u =>
      rw [Bool.and_eq_true, Bool.and_eq_true]
      rintro ⟨⟨-, unserved⟩, same⟩
      obtain ⟨noGet, noPut⟩ := free ⟨j, bound⟩ u held (Option.isNone_iff_eq_none.1 unserved)
      split at same
      · rename_i get _
        exact noGet _ _ _ (beq_iff_eq.1 same ▸ get)
      · rename_i put _
        exact noPut _ _ (beq_iff_eq.1 same ▸ put)
      · exact Bool.false_ne_true same


/-- The token of a queue operation that its queue has just served: it settles 2 cycles later (R270). -/
def TokPend.served (t : TokPend) (now : Nat) (v : Word) : TokPend := { t with due := now + 2, done := some (v, 0) }

section
variable {s : State} {k : Fin 8} {t : TokPend} {q : Fin 16}

/-- The operation of a pending token made: the token settles later. -/
theorem State.doneLater_of_held (held : s.ctx.tok[k] = some t) (n : Nat) (v w : Word) :
    s.doneLater k n v w = { s with ctx := { s.ctx with tok := s.ctx.tok.set k (some { t with due := s.cycle + n, done := some (v, w) }) } } := by
  simp only [State.doneLater, State.onCtx, held]

/-- A pending token asked again later. -/
theorem State.later_of_held (held : s.ctx.tok[k] = some t) (n : Nat) :
    s.later k n = { s with ctx := { s.ctx with tok := s.ctx.tok.set k (some { t with due := s.cycle + n }) } } := by
  simp only [State.later, State.onCtx, held]

/-- A QGET or QGETP whose queue has an entry for it is served. -/
theorem State.serveQueue_qget {w : Fin 4} {rd : Fin 32} {pop : Bool} {es : List QEnt} {c : Context} (held : s.ctx.tok[k] = some t)
    (op : t.op = .qget q w rd pop) (first : s.ctx.queueBlocked t q = false) (pops : s.ctx.popQ s.cycle .c q 1 = .ok (es, c)) :
    let d := if pop then c else s.ctx
    s.serveQueue k t = some { s with ctx := { d with
      tok := d.tok.set k (some (t.served s.cycle (BitVec.ofNat 64 (laneOf (oldest es) 64 w.val)))) } } := by
  have kept : (if pop then s.onCtx (fun _ => c) else s).ctx.tok[k] = some t := by
    obtain ⟨qs, know, rfl⟩ := Context.popQ_frame pops
    cases pop <;> exact held
  cases t
  cases op
  simp only [State.serveQueue, first, pops, Bool.false_eq_true, if_false, State.doneLater_of_held kept]
  cases pop <;> rfl

/-- A QGET or QGETP whose queue cannot serve it waits in its token. -/
theorem State.serveQueue_qget_waits {w : Fin 4} {rd : Fin 32} {pop : Bool} {e : QFail} (op : t.op = .qget q w rd pop)
    (waits : s.ctx.popQ s.cycle .c q 1 = .error e) : s.serveQueue k t = none := by
  simp only [State.serveQueue, op, waits, ite_self]

/-- A QPUT whose queue has room is served: its entry is in the queue. -/
theorem State.serveQueue_qput {w : Fin 4} {v : Word} {d : Context} (held : s.ctx.tok[k] = some t) (op : t.op = .qput q w v)
    (first : s.ctx.queueBlocked t q = false) (room : s.ctx.roomQ s.cycle .c q = .ok ())
    (lands : (s.ctx.reserveQ s.cycle q s.serial t.serial).landQ q s.serial (entryWord w.val v) = d) :
    s.serveQueue k t = some { s with serial := s.serial + 1, ctx := { d with tok := d.tok.set k (some (t.served s.cycle 0)) } } := by
  subst lands
  cases t
  cases op
  simp only [State.serveQueue, first, room, Bool.false_eq_true, if_false]
  exact congrArg some (State.doneLater_of_held (s := (s.onCtx _).bump) held 2 0 0)

/-- A QPUT whose queue has no room waits in its token. -/
theorem State.serveQueue_qput_waits {w : Fin 4} {v : Word} {e : QFail} (op : t.op = .qput q w v)
    (waits : s.ctx.roomQ s.cycle .c q = .error e) : s.serveQueue k t = none := by
  simp only [State.serveQueue, op, waits, ite_self]

end

section
variable {s : State} {k : Fin 8} {owned : List (Fin 32)} {op : TokOp}

/-- A queue word that neither traps nor waits takes its token, and its queue serves it if it can. -/
theorem State.queueWord_takes {q : Fin 16} {pop : Bool} (fits : s.ctx.queueTrap q pop = none) (may : mayTake s.ctx k owned) :
    s.queueWord q pop k owned op = ((s.takeTok k owned 1 op).serveTok k).issuedIn .c := by
  rw [State.queueWord, fits, Context.tokHazard_eq_none may]

/-- The token taken is pending. -/
theorem State.takeTok_held (lat : Nat) : (s.takeTok k owned lat op).ctx.tok[k] = some (pendingTok s op (s.cycle + lat) owned) :=
  Vector.getElem_set_self ..

theorem State.serveTok_takeTok : (s.takeTok k owned 1 op).serveTok k =
    ((s.takeTok k owned 1 op).serveQueue k (pendingTok s op (s.cycle + 1) owned)).getD (s.takeTok k owned 1 op) := by
  rw [State.serveTok, State.takeTok_held]

/-- A queue word whose queue cannot serve it leaves its operation pending in the token. -/
theorem State.serveTok_waits (waits : (s.takeTok k owned 1 op).serveQueue k (pendingTok s op (s.cycle + 1) owned) = none) :
    ((s.takeTok k owned 1 op).serveTok k).issuedIn .c = tokenTaken s k op 1 owned := by
  rw [State.serveTok_takeTok, waits]
  exact s.takeTok_issued k op 1 owned

/-- A queue word that its queue has served, from a context that differs in nothing that an issue looks at. -/
theorem State.issuedIn_served {c : Context} (n : Nat) (v : Word) (tok : Vector (Option TokPend) 8)
    (targets : targetsAgain c = targetsAgain s.ctx) (pc : c.cs.pc = s.ctx.cs.pc)
    (toks : tok = s.ctx.tok.set k (some { pendingTok s op (s.cycle + 2) owned with done := some (v, 0) })) :
    ({ s with serial := n, ctx := { c with tok := tok } } : State).issuedIn .c = queueServed s c k op owned n v := by
  have again : refetched { s with serial := n, ctx := { c with tok := tok } } =
      { refetched { s with serial := n } with ctx := { c with tok := tok } } := by
    have same : targetsAgain { c with tok := tok } = targetsAgain s.ctx := targets
    rw [refetched, same]
    exact State.refetch_withCtx { s with serial := n } _ _
  rw [State.issuedIn_c, nextWord, again, toks]
  simp only [queueServed, ← pc]
  rfl

/-- A QGET or QGETP that its queue serves as it issues. -/
theorem State.qget_issues {q : Fin 16} {w : Fin 4} {rd : Fin 32} {pop : Bool} {es : List QEnt} {c : Context} (free : queueFree s.ctx q)
    (pops : s.ctx.popQ s.cycle .c q 1 = .ok (es, c)) :
    ((s.takeTok k owned 1 (.qget q w rd pop)).serveTok k).issuedIn .c =
      queueServed s (if pop then c else s.ctx) k (.qget q w rd pop) owned (s.serial + 1) (BitVec.ofNat 64 (laneOf (oldest es) 64 w.val)) := by
  let op : TokOp := .qget q w rd pop
  let t := pendingTok s op (s.cycle + 1) owned
  have pops' : (s.takeTok k owned 1 op).ctx.popQ s.cycle .c q 1 = .ok (es, { c with tok := s.ctx.tok.set k (some t) }) := by
    show ({ s.ctx with tok := s.ctx.tok.set k (some t) } : Context).popQ s.cycle .c q 1 = _
    rw [Context.popQ_withTok, pops]
    rfl
  have first : (s.takeTok k owned 1 op).ctx.queueBlocked t q = false := Context.queueBlocked_of_free free k t
  rw [State.serveTok_takeTok, State.serveQueue_qget (State.takeTok_held 1) rfl first pops', Option.getD_some]
  obtain ⟨qs, know, rfl⟩ := Context.popQ_frame pops
  cases pop <;> exact State.issuedIn_served (s := s) _ _ _ rfl rfl (Vector.set_set ..)

/-- A QPUT that its queue serves as it issues: its entry, its word at its place, is there. -/
theorem State.qput_issues {q : Fin 16} {w : Fin 4} {v : Word} (free : queueFree s.ctx q) (room : s.ctx.roomQ s.cycle .c q = .ok ())
    (fresh : ∀ e ∈ s.ctx.q[q].ents, e.serial ≠ s.serial + 1) :
    ∃ e : QEnt, e.pushed = s.cycle ∧ e.data = some (entryWord w.val v) ∧
      ((s.takeTok k owned 1 (.qput q w v)).serveTok k).issuedIn .c =
        queueServed s { s.ctx with q := s.ctx.q.set q { s.ctx.q[q] with ents := s.ctx.q[q].ents ++ [e] } } k (.qput q w v) owned (s.serial + 2) 0 := by
  let op : TokOp := .qput q w v
  let t := pendingTok s op (s.cycle + 1) owned
  let taken := s.takeTok k owned 1 op
  have first : taken.ctx.queueBlocked t q = false := Context.queueBlocked_of_free free k t
  obtain ⟨e, pushed, data, lands⟩ := taken.ctx.landQ_reserveQ s.cycle q (s.serial + 1) t.serial (entryWord w.val v)
  have ents : taken.ctx.q = s.ctx.q := rfl
  rw [ents, map_land_of_fresh fresh] at lands
  refine ⟨e, pushed, data, ?_⟩
  rw [State.serveTok_takeTok, State.serveQueue_qput (State.takeTok_held 1) rfl first room lands, Option.getD_some]
  exact State.issuedIn_served (s := s) _ _ _ rfl rfl (Vector.set_set ..)
end

end Sys2Proof.Machine
end

section
/-! SUPPORT. Where an engine stream stands that has issued, and what the exit of a loop leaves (R151, R161, R205, R209). -/

namespace Sys2Proof.Machine

open Sys2Proof.Claims

/-! ### Where a stream stands next (R161) -/

/-- The place of an address in a loop's body, in words. -/
def LoopSt.wordAt (l : LoopSt) (pc : Word) : Nat := (pc - l.body).toNat / 4

section
variable {l : LoopSt} {pc : Word} (n : Nat) (rest : List LoopSt) (fresh : Bool) (out : List LoopSt)

/-- A stream stops at a word of an active stage. -/
theorem walkLoops_active (inside : l.wordAt pc < l.len) (active : l.active (l.wordAt pc / (l.len / l.stages)) = true) :
    walkLoops (n + 1) pc (l :: rest) fresh out = (pc, l :: rest, fresh, out) := by
  unfold LoopSt.wordAt at inside active
  rw [walkLoops, if_neg (Nat.not_le.2 inside), if_pos active]

/-- A stream passes an inactive stage. -/
theorem walkLoops_inactive (inside : l.wordAt pc < l.len) (idle : l.active (l.wordAt pc / (l.len / l.stages)) = false) :
    walkLoops (n + 1) pc (l :: rest) fresh out =
      walkLoops n (l.body + BitVec.ofNat 64 (4 * ((l.wordAt pc / (l.len / l.stages) + 1) * (l.len / l.stages)))) (l :: rest) fresh out := by
  unfold LoopSt.wordAt at inside idle ⊢
  rw [walkLoops, if_neg (Nat.not_le.2 inside), if_neg (by rw [idle]; exact Bool.false_ne_true)]

/-- Past the body a stream starts the next kernel iteration. -/
theorem walkLoops_again (past : l.len ≤ l.wordAt pc) (more : l.iter + 1 < l.count + l.stages - 1) :
    walkLoops (n + 1) pc (l :: rest) fresh out = walkLoops n l.body ({ l with iter := l.iter + 1 } :: rest) true out := by
  unfold LoopSt.wordAt at past
  rw [walkLoops, if_pos past, if_neg (Nat.not_le.2 more)]

/-- Past the body of the last kernel iteration a stream leaves the loop. -/
theorem walkLoops_leaves (past : l.len ≤ l.wordAt pc) (last : l.count + l.stages - 1 ≤ l.iter + 1) :
    walkLoops (n + 1) pc (l :: rest) fresh out = walkLoops n pc rest true (out ++ [l]) := by
  unfold LoopSt.wordAt at past
  rw [walkLoops, if_pos past, if_pos last]

end

/-- The first word of a body is word 0. -/
theorem LoopSt.wordAt_body (l : LoopSt) : l.wordAt l.body = 0 := by simp [LoopSt.wordAt]

/-- A word of a body by its place. -/
theorem LoopSt.wordAt_add (l : LoopSt) {i : Nat} (small : i < 2 ^ 40) : l.wordAt (l.body + BitVec.ofNat 64 (4 * i)) = i := by
  have offset : (l.body + BitVec.ofNat 64 (4 * i) - l.body).toNat = 4 * i := by
    rw [BitVec.add_comm, BitVec.add_sub_cancel, BitVec.toNat_ofNat]
    omega
  rw [LoopSt.wordAt, offset]
  omega

/-! ### An engine stream that issues -/

/-- An engine stream that has issued stands at a word, inside loops; the flag says that it has met a boundary (R161, R162). -/
def State.standsAt (s : State) (st : Strm) (pc : Word) (ls : List LoopSt) (fresh : Bool) : State := s.onCtx (fun c => c.onStrm st (fun r =>
  { r with pc := pc, loops := ls, bound := fresh, bpSkip := false, awaited := none, wait := none, fence := none, issued := r.issued + 1 }))

theorem Context.markStarted_of_started {c : Context} (started : (c.turn.map (fun u => u.started)).getD true = true) : c.markStarted = c := by
  unfold Context.markStarted
  split
  · rename_i turn
    rw [turn] at started
    exact if_pos started
  · rfl

variable {s : State} {st : Strm}

theorem Context.loopsOf_engine (engine : st ≠ .c) (c : Context) : c.loopsOf st = (c.strm st).loops := by
  cases st with
  | c => exact absurd rfl engine
  | t | m | v => rfl

/-- Issuing to the word after is walking from it: the loops that end make their exits, and the stream stands where the walk does. -/
theorem State.issuedIn_walks {pc : Word} {ls ended : List LoopSt} {fresh : Bool} (engine : st ≠ .c)
    (walk : walkLoops 100 ((s.ctx.strm st).pc + 4) (s.ctx.strm st).loops false [] = (pc, ls, fresh, ended)) :
    s.issuedIn st = ((ended.foldl (fun s l => s.loopExit st l) s).standsAt st pc ls fresh).onCtx Context.markStarted := by
  unfold State.issuedIn State.issuedAt
  rw [if_neg engine, Context.loopsOf_engine engine, loopsEnded, walk]
  simp only [StreamSt.goto, walk]
  rfl

/-- An engine stream of a turn that has started, no loop ending: nothing else changes. -/
theorem State.issuedIn_stands {pc : Word} {ls : List LoopSt} {fresh : Bool} (engine : st ≠ .c)
    (started : (s.ctx.turn.map (fun u => u.started)).getD true = true)
    (walk : walkLoops 100 ((s.ctx.strm st).pc + 4) (s.ctx.strm st).loops false [] = (pc, ls, fresh, [])) :
    s.issuedIn st = s.standsAt st pc ls fresh := by
  have turn : (s.standsAt st pc ls fresh).ctx.turn = s.ctx.turn := Context.onStrm_turn ..
  rw [State.issuedIn_walks engine walk]
  exact congrArg (fun c => ({ s.standsAt st pc ls fresh with ctx := c } : State)) (Context.markStarted_of_started (turn ▸ started))

/-- The stream stands where it should, and the turn starts; the general registers are as they were. -/
theorem State.standsAt_leaves (s : State) (st : Strm) (pc : Word) (ls : List LoopSt) (fresh : Bool) :
    let t := (s.standsAt st pc ls fresh).onCtx Context.markStarted
    (t.ctx.strm st).pc = pc ∧ (t.ctx.strm st).loops = ls ∧ t.ctx.x = s.ctx.x := by
  simp only [State.onCtx, Context.markStarted_eq]
  cases st <;> exact ⟨rfl, rfl, rfl⟩

/-! ### The exit of a loop (R205, R209) -/

/-- A trace record changes only what waits in the core's trace buffer. -/
theorem State.traceAt_frame (s : State) (type : Nat) (st : Strm) (lp : Option LoopSt) (payload : Nat) :
    ∃ trace lost, s.traceAt type st lp payload = { s with core := { s.core with trace := trace, lost := lost } } := by
  unfold State.traceAt
  split
  · exact ⟨s.core.trace, s.core.lost, rfl⟩
  · split
    · exact ⟨s.core.trace, s.core.lost + 1, rfl⟩
    · exact ⟨_, s.core.lost, rfl⟩

/-- The fields of the context that the exit of a loop may change: those of its board snapshots. -/
def Context.boardFrame (c d : Context) : Prop :=
  d = { c with boardSeq := d.boardSeq, boardSkip := d.boardSkip, boardBusy := d.boardBusy, bdring := d.bdring }

theorem State.loopExit_frame (s : State) (st : Strm) (l : LoopSt) :
    s.ctx.boardFrame (s.loopExit st l).ctx ∧ (s.loopExit st l).cycle = s.cycle := by
  have traced (t : State) (payload : Nat) (board : s.ctx.boardFrame t.ctx) (cycle : t.cycle = s.cycle) :
      s.ctx.boardFrame (t.traceAt 5 st (some l) payload).ctx ∧ (t.traceAt 5 st (some l) payload).cycle = s.cycle := by
    obtain ⟨trace, lost, record⟩ := t.traceAt_frame 5 st (some l) payload
    rw [record]
    exact ⟨board, cycle⟩
  unfold State.loopExit
  split
  · exact traced s 0 rfl rfl
  · dsimp only
    split
    · exact traced _ 0 rfl rfl
    · split
      · exact traced _ 0 rfl rfl
      · rename_i t written
        have home := State.writeWords_frame written
        unfold State.homeFrame at home
        refine traced _ _ ?_ ?_ <;> rw [home] <;> rfl

end Sys2Proof.Machine
end

section
/-! SUPPORT. The control words of the engine streams: posts, fences, waits for pawns, loops, SYNC (R146, R155, R161, R167, R346, R349, R375). -/

namespace Sys2Proof.Machine

open Sys2Proof.Claims

/-! ### Engine words met at issue (R155, R156, R322) -/

section
variable {s t : State} {sync : Fin 8} (f : State → State)

/-- A T word that issues goes on from the state with its token popped. -/
theorem State.tWord_met {alone : Bool} (met : metT s sync alone t) : s.tWord sync alone f = f t := by
  obtain ⟨drained, room, c, popped, rfl⟩ := met
  have issues : ((alone && (!s.ctx.twin.isEmpty || decide (s.cycle < s.ctx.tcommitAt))) || decide (16 ≤ s.ctx.twin.length)) = false := by
    cases alone
    · simp [room]
    · obtain ⟨empty, late⟩ := drained rfl
      simp [empty, late]
  rw [State.tWord, issues, popped]
  rfl

/-- As a T word, an M word. -/
theorem State.mWord_met (met : metM s sync t) : s.mWord sync f = f t := by
  obtain ⟨free, c, popped, rfl⟩ := met
  rw [State.mWord, free, State.awaited, popped]
  rfl

/-- As a T word, a V word. -/
theorem State.vWord_met (met : metV s sync t) : s.vWord sync f = f t := by
  obtain ⟨free, c, popped, rfl⟩ := met
  rw [State.vWord, free, State.awaited, popped]
  rfl

end

/-- A token popped changes no register. -/
theorem Context.await_regs {c d : Context} {st : Strm} {sync : Fin 8} {now : Nat} (popped : c.await st sync now = some d) :
    d.h = c.h ∧ d.mb = c.mb ∧ d.s = c.s := by
  unfold Context.await at popped
  split at popped
  · cases popped
    exact ⟨rfl, rfl, rfl⟩
  · split at popped
    · cases popped
      exact ⟨rfl, rfl, rfl⟩
    · split at popped <;> cases popped
      simp [Context.learn, Context.popToken]

section
variable {s : State} {st : Strm}

/-! ### Posts, fences, waits for pawns, loops (R146, R155, R161, R167) -/

/-- A word that retires as it issues makes its post. -/
theorem State.issuePost_of_room {sync : Fin 8} (room : s.ctx.postRoom st sync = true) : s.issuePost st sync = (posted s st sync).issuedIn st :=
  if_pos room

/-- Has a FENCE that is at issue nothing to wait for: by the set it has kept, or, met only now, by its own. -/
def State.fenceMet (s : State) (st : Strm) (before : BitVec 6) (scope : Nat) : Prop :=
  match (s.ctx.strm st).fence with
  | none => s.pendingOn st before.toNat s.serial (s.fenceChips scope) = false
  | some f => s.pendingOn st f.before.toNat f.serial f.chips = false

theorem State.fenceWord_met {before after : BitVec 6} {scope : Nat} (met : s.fenceMet st before scope) (sync : Fin 8) (done : State → State) :
    s.fenceWord st before after scope sync done = done s := by
  unfold State.fenceMet at met
  unfold State.fenceWord
  split at met <;> rename_i kept <;> rw [kept] <;> exact if_neg (by rw [met]; exact Bool.false_ne_true)

/-- WAITH of a handle that is GONE proceeds at once. -/
theorem State.waithWord_gone {h : Fin 16} (named : h ≠ 0) (gone : s.byHandle s.ctx.h[h] = none) (done : State → State) :
    s.waithWord st h done = done s := by
  rw [State.waithWord, if_neg named, Context.getH, if_neg named, State.waithOne, gone]

/-- A LOOP that keeps the rules of R161 is not refused. -/
theorem loopBad_of_good {r : StreamSt} {id : Fin 4} {stages len : Nat} (good : goodLoop r id stages len) : loopBad r id stages len = false := by
  obtain ⟨whole, long, unused, inside⟩ := good
  have free : r.loops.any (fun l => l.id == id) = false := by
    rw [List.any_eq_false]
    exact fun l mem same => unused l mem (beq_iff_eq.1 same)
  unfold loopBad
  cases loops : r.loops with
  | nil => simp [whole, long]
  | cons l rest =>
    rw [loops] at free inside
    obtain ⟨fits, stage⟩ := inside l rfl
    rw [free, decide_eq_false (not_not.2 whole), decide_eq_false (Nat.not_lt.2 long)]
    exact Bool.or_eq_false_iff.2 ⟨rfl, Bool.or_eq_false_iff.2 ⟨decide_eq_false (Nat.not_lt.2 fits), decide_eq_false (not_not.2 stage)⟩⟩

theorem State.enterLoop_eq (id : Fin 4) (stages len count : Nat) : s.enterLoop st id stages len count = loopEntered s st id stages len count := by
  have past (pc : Word) : pc + 4 + BitVec.ofNat 64 (4 * len) = BitVec.ofNat 64 (pc.toNat + 4 + 4 * len) := by
    simp [BitVec.ofNat_add]
  simp only [State.enterLoop, loopEntered, past]

/-! ### Zeroing and SYNC (R346, R349, R375) -/

/-- The rows of different tiles are different. -/
theorem tileRows_disjoint {a b : Fin 4} (other : a ≠ b) : tileRows a.val &&& tileRows b.val = 0 := by
  revert a b
  decide +kernel

/-- A tile that no zeroing is under way of may be zeroed. -/
theorem Context.zeroMeets_of_free {c : Context} {tile : Fin 4} (free : ∀ z ∈ c.zeroing, z.tile ≠ some tile) :
    c.zeroMeets (tileRows tile.val) = false := by
  unfold Context.zeroMeets
  rw [List.any_eq_false]
  intro z mem
  split
  · rename_i other zeroed
    have differs : other ≠ tile := fun same => free z mem (same ▸ zeroed)
    simp [tileRows_disjoint differs]
  · exact Bool.false_ne_true

/-- A SYNC of the M stream with nothing under way retires at once: its posts are made, and nothing is zeroed. -/
theorem State.zeroOne_sync {sync : Fin 8} {postC : Bool} (idle : s.ctx.zeroing = []) (room : s.ctx.postRoom .m sync = true)
    (roomC : postC = true → s.ctx.tokenRoom (chanIx 2 0) = true) :
    (s.onCtx (fun c => { c with zeroing := c.zeroing ++ [{ tile := none, due := s.cycle, sync := sync, postC := postC }] })).zeroOne =
      let u := posted s .m sync
      if postC then { u with ctx := u.ctx.pushToken (chanIx 2 0) s.cycle (u.ctx.knowAt .m s.serial) } else u := by
  let z : MRet := { tile := none, due := s.cycle, sync := sync, postC := postC }
  have ready : (s.onCtx (fun c => { c with zeroing := c.zeroing ++ [z] })).retReady = true := by
    have posts : (decide (s.cycle ≤ s.cycle) && s.ctx.postRoom .m sync && (!postC || s.ctx.tokenRoom (chanIx 2 0))) = true := by
      cases postC
      · simp [room]
      · simp [room, roomC rfl]
    rw [State.retReady, State.onCtx_ctx, idle]
    exact posts
  have same : ({ s.ctx with zeroing := [] } : Context) = s.ctx := by rw [← idle]
  rw [State.zeroOne, ready]
  simp only [State.onCtx, idle, List.nil_append, Bool.not_true, Bool.false_eq_true, if_false, Bool.not_false, List.filter_true, same]
  cases postC <;> rfl

/-- The exits of loops change only what board snapshots leave of the context, and no time passes. -/
theorem State.loopExits_frame (s : State) (st : Strm) (ls : List LoopSt) :
    s.ctx.boardFrame (ls.foldl (fun s l => s.loopExit st l) s).ctx ∧ (ls.foldl (fun s l => s.loopExit st l) s).cycle = s.cycle := by
  refine List.foldlRecOn ls _ (motive := fun (t : State) => s.ctx.boardFrame t.ctx ∧ t.cycle = s.cycle) ⟨rfl, rfl⟩ ?_
  rintro t ⟨board, cycle⟩ l -
  obtain ⟨board', cycle'⟩ := t.loopExit_frame st l
  unfold Context.boardFrame at board board' ⊢
  exact ⟨by rw [board'] ; rw [board], cycle'.trans cycle⟩

/-- An engine stream that issues leaves the V words in flight, and no time passes. -/
theorem State.issuedIn_leaves (engine : st ≠ .c) : (s.issuedIn st).ctx.vpend = s.ctx.vpend ∧ (s.issuedIn st).cycle = s.cycle := by
  obtain ⟨board, cycle⟩ := s.loopExits_frame st (walkLoops 100 ((s.ctx.strm st).pc + 4) (s.ctx.strm st).loops false []).2.2.2
  unfold Context.boardFrame at board
  rw [State.issuedIn_walks engine rfl]
  refine ⟨?_, cycle⟩
  simp only [State.standsAt, State.onCtx, Context.markStarted_eq, Context.onStrm_vpend]
  rw [board]

/-- A SYNC of the V stream with no word in flight may retire when its posts have room. -/
theorem State.vRetires_sync {serial due : Nat} {sync : Fin 8} {postC : Bool} (idle : s.ctx.vpend = []) (come : due ≤ s.cycle)
    (room : s.ctx.postRoom .v sync = true) (roomC : postC = true → s.ctx.tokenRoom (chanIx 3 0) = true) :
    s.vRetires { vPlain serial due sync 0 with postC := postC, last := true } = true := by
  cases postC
  · simp [State.vRetires, vPlain, idle, come, room]
  · simp [State.vRetires, vPlain, idle, come, room, roomC rfl]

/-- A SYNC of the V stream with no word in flight retires as it issues. -/
theorem State.vRetire_sync {serial due : Nat} {sync : Fin 8} {postC : Bool} (idle : s.ctx.vpend = []) :
    s.vRetire { vPlain serial due sync 0 with postC := postC, last := true } =
      let u := posted s .v sync
      if postC then { u with ctx := u.ctx.pushToken (chanIx 3 0) s.cycle u.ctx.vs.know } else u := by
  have same : ({ s.ctx with vpend := [], fflags := s.ctx.fflags ||| 0 } : Context) = s.ctx := by
    have flags : s.ctx.fflags ||| 0 = s.ctx.fflags := BitVec.or_zero
    rw [flags, ← idle]
  simp only [State.vRetire, vPlain, idle, List.erase_nil, State.onCtx, same]
  cases postC <;> rfl
end

end Sys2Proof.Machine
end

section
/-! SUPPORT. What a step does, and what a slot's word is (R151, R262, R293, R400). -/

namespace Sys2Proof.Machine

open Sys2Proof.Claims

/-! ### The word at a position (R262, R293, R400) -/

/-- The four bytes at a key decode as the word there does. -/
theorem State.decodeBytes_readBytes (s : State) (st : Strm) (key : Nat) :
    decodeBytes st (s.mem.readBytes key 4) = (decode st (s.readKey key 4)).map (fun i => (i, [])) := by
  have word : wordOfBytes (s.mem.read key) (s.mem.read (key + 1)) (s.mem.read (key + 1 + 1)) (s.mem.read (key + 1 + 1 + 1)) = s.readKey key 4 := by
    simp only [wordOfBytes, State.readKey, Memory.readBytes, leNat]
    omega
  simp only [Memory.readBytes, decodeBytes, word]
  cases decode st (s.readKey key 4) <;> rfl

section
variable {s u : State} {st : Strm} {p : Place}

/-- The state after a fetch: what is corrected as the word is read, and near the end of a page the walk of the next one started ahead. -/
def State.fetched (u : State) (st : Strm) (pc key : Nat) : State :=
  if 65536 - 64 ≤ pc % 65536 then (u.correct key 4).prefetchPage st (pc / 65536 * 65536 + 65536) else u.correct key 4

/-- A fetch whose translation is there gives the word of its place. -/
theorem State.fetch_word (aligned : (s.ctx.strm st).pc.toNat % 4 = 0)
    (placed : s.xlate st .fetch (s.ctx.strm st).pc.toNat 4 = (.ok p, u)) (sound : u.readBad p.key 4 = false) :
    s.fetch st = (.word (u.readKey p.key 4), u.fetched st (s.ctx.strm st).pc.toNat p.key) := by
  have same : (u.correct p.key 4).readKey p.key 4 = u.readKey p.key 4 := by rw [State.readKey, State.correct_mem, State.readKey]
  unfold State.fetch
  simp only [aligned, placed, sound, same, Bool.false_eq_true, if_false, ne_eq, not_true_eq_false]
  rfl

/-- A slot of a stream that is ready comes to what its word decodes to. -/
theorem State.slot_word {w : Nat} {i : Instr} (ready : s.streamReady st = true) (goes : (s.ctx.strm st).stopsHere st = false)
    (word : s.fetch st = (.word w, u)) (instr : decode st w = .ok i) : s.slot st = .word i u := by
  rw [State.slot, ready, goes, word]
  simp only [instr]
  rfl

theorem State.slot_illegal {w : Nat} {e : DecodeError} (ready : s.streamReady st = true) (goes : (s.ctx.strm st).stopsHere st = false)
    (word : s.fetch st = (.word w, u)) (illegal : decode st w = .error e) : s.slot st = .done (u.badWord st .illegal 0) := by
  rw [State.slot, ready, goes, word]
  simp only [illegal]
  rfl

end

/-! ### One step (R151) -/

section
variable {s t : State} {sl : Slot} {rest : List Slot} {i : Instr}

/-- Nothing from outside, and nothing due, keeps a powered machine from its next slot. -/
def State.undisturbed (s : State) : Prop := s.agenda = [] ∧ s.power = .on ∧ s.due = none

theorem step_agenda {e : Instr} {rest : List Instr} (next : s.agenda = e :: rest) : step s = exec e { s with agenda := rest } := by
  rw [step, next]

theorem step_stopped (empty : s.agenda = []) (off : s.power ≠ .on) : step s = .fault .clocksStopped := by
  rw [step, empty]
  exact if_pos off

theorem step_due {d : Due} (empty : s.agenda = []) (on : s.power = .on) (due : s.due = some d) : step s = d.run s := by
  rw [step, empty, on, due]
  rfl

theorem step_tick (free : s.undisturbed) (done : s.todo = []) : step s = .next s.tick := by
  obtain ⟨empty, on, due⟩ := free
  rw [step, empty, on, due, done]
  rfl

/-- A step of a slot whose word is an instruction is that instruction's. -/
theorem step_word (free : s.undisturbed) (next : s.todo = sl :: rest) (word : (({ s with todo := rest } : State).focus sl.site sl.cx).slot sl.st = .word i t) :
    step s = exec i t := by
  obtain ⟨empty, on, due⟩ := free
  have taken : s.takeSlot sl = ({ s with todo := rest } : State).focus sl.site sl.cx := by rw [State.takeSlot, next]; rfl
  rw [step, empty, on, due, next]
  simp only [taken, word]
  rfl

theorem step_done (free : s.undisturbed) (next : s.todo = sl :: rest) (done : (({ s with todo := rest } : State).focus sl.site sl.cx).slot sl.st = .done t) :
    step s = .next t := by
  obtain ⟨empty, on, due⟩ := free
  have taken : s.takeSlot sl = ({ s with todo := rest } : State).focus sl.site sl.cx := by rw [State.takeSlot, next]; rfl
  rw [step, empty, on, due, next]
  simp only [taken, done]
  rfl

end

end Sys2Proof.Machine
end

section
/-! SUPPORT. What a due token's settling comes to, its faults, and the replay log (R158, R177, R181, R210). -/

namespace Sys2Proof.Machine

open Sys2Proof.Claims

@[simp] theorem State.focus_net (s : State) (site : Nat) (cx : Bool) : (s.focus site cx).net = s.net := by rw [State.focus_frame]

theorem State.focus_netOpen (s : State) (site : Nat) (cx : Bool) (serial : Nat) : (s.focus site cx).netOpen serial = s.netOpen serial := by
  rw [State.netOpen, State.focus_net]
  rfl

section
variable {s : State} {k : Fin 8} {t : TokPend}

/-! ### What the settling of a token comes to (R158) -/

/-- The operation of a pending token may go on now: it is due, not faulted, no answer to it is still to come, and no earlier access of its path
touches its bytes. -/
structure State.Settles (s : State) (k : Fin 8) (t : TokPend) : Prop where
  held : s.ctx.tok[k] = some t
  due : t.due ≤ s.cycle
  fine : t.fault = none
  answered : s.netOpen t.serial = false
  first : s.ctx.memBlocked t = false

theorem State.settleTok_faulted {c : Cause} {va : Word} (held : s.ctx.tok[k] = some t) (due : t.due ≤ s.cycle) (fault : t.fault = some (c, va)) :
    s.settleTok k = if t.op.takesInput then (s.settleFault k t c va).flushLog else s.settleFault k t c va := by
  simp only [State.settleTok, held, fault, Nat.not_lt.2 due, decide_false, Option.isNone_some, Bool.false_and, Bool.or_self, Bool.false_eq_true,
    if_false]

theorem State.settleTok_blocked (held : s.ctx.tok[k] = some t) (due : t.due ≤ s.cycle) (fine : t.fault = none)
    (answered : s.netOpen t.serial = false) (blocked : s.ctx.memBlocked t = true) : s.settleTok k = s.later k 1 := by
  simp only [State.settleTok, held, fine, answered, blocked, Nat.not_lt.2 due, decide_false, Bool.and_false, Bool.or_self, Bool.false_eq_true,
    if_false, if_true]

section
variable (h : s.Settles k t)
include h

/-- A token that may go on is asked now, and waits for nothing. -/
theorem State.Settles.asked : ¬ (decide (s.cycle < t.due) || (none : Option (Cause × Word)).isNone && s.netOpen t.serial) = true := by
  rw [decide_eq_false (Nat.not_lt.2 h.due), h.answered]
  exact Bool.false_ne_true

theorem State.Settles.load {n : Nat} {signed : Bool} {rd : Fin 32} {a : Word} (op : t.op = .load n signed rd a) :
    s.settleTok k = s.settleLoad k t n signed rd a := by
  simp only [State.settleTok, h.held, h.fine, h.asked, h.first, op, Bool.false_eq_true, if_false]

theorem State.Settles.store {n : Nat} {a x : Word} (op : t.op = .store n a x) : s.settleTok k = s.settleStore k t n a := by
  simp only [State.settleTok, h.held, h.fine, h.asked, h.first, op, Bool.false_eq_true, if_false]

theorem State.Settles.tlrw {ly a : Word} (op : t.op = .tlrw ly a) : s.settleTok k = s.settleTlrw k t ly a := by
  simp only [State.settleTok, h.held, h.fine, h.asked, h.first, op, Bool.false_eq_true, if_false]

theorem State.Settles.record {ly d0 d1 d2 d3 : Word} (op : t.op = .record ly d0 d1 d2 d3) :
    s.settleTok k = s.settleRecord k t ly d0 d1 d2 d3 := by
  simp only [State.settleTok, h.held, h.fine, h.asked, h.first, op, Bool.false_eq_true, if_false]

theorem State.Settles.qget {q : Fin 16} {w : Fin 4} {rd : Fin 32} {pop : Bool} (op : t.op = .qget q w rd pop) :
    s.settleTok k = s.settleQueue k t (fun v => [(rd, v)]) := by
  simp only [State.settleTok, h.held, h.fine, h.asked, h.first, op, Bool.false_eq_true, if_false]

theorem State.Settles.qput {q : Fin 16} {w : Fin 4} {v : Word} (op : t.op = .qput q w v) : s.settleTok k = s.settleQueue k t (fun _ => []) := by
  simp only [State.settleTok, h.held, h.fine, h.asked, h.first, op, Bool.false_eq_true, if_false]

theorem State.Settles.budget {rd : Fin 32} {n : BitVec 32} (op : t.op = .budget rd n) : s.settleTok k = s.budgetNow k rd n := by
  simp only [State.settleTok, h.held, h.fine, h.asked, h.first, op, Bool.false_eq_true, if_false]

theorem State.Settles.crr {reg : Nat} {rd : Fin 32} (op : t.op = .crr reg rd) : s.settleTok k = s.settle k [(rd, s.crrValue reg)] := by
  simp only [State.settleTok, h.held, h.fine, h.asked, h.first, op, Bool.false_eq_true, if_false]

/-- A TIME that takes no logged value delivers guest time. -/
theorem State.Settles.time {rd : Fin 32} (op : t.op = .time rd) (live : t.done = none) :
    s.settleTok k = ((s.replayLog t.serial 5 .c t.pos s.guest.toNat).settle k [(rd, s.guest)]).flushLog := by
  simp only [State.settleTok, h.held, h.fine, h.asked, h.first, op, live, Bool.false_eq_true, if_false]

theorem State.Settles.sete {fn name : Nat} {x : BitVec 32} {rd : Fin 32} {v w : Word} (op : t.op = .sete fn name x rd) (done : t.done = some (v, w)) :
    s.settleTok k = s.settle k [(rd, v)] := by
  simp only [State.settleTok, h.held, h.fine, h.asked, h.first, op, State.settleAnswer, done, Bool.false_eq_true, if_false]

theorem State.Settles.etest {name : Nat} {rd : Fin 32} {v w : Word} (op : t.op = .etest name rd) (done : t.done = some (v, w)) :
    s.settleTok k = ((s.replayLog t.serial 3 .c t.pos v.toNat).settle k [(rd, v)]).flushLog := by
  simp only [State.settleTok, h.held, h.fine, h.asked, h.first, op, State.settleAnswer, done, Bool.false_eq_true, if_false]

theorem State.Settles.pstat {rd : Fin 32} (op : t.op = .pstat rd) : s.settleTok k = s.settle k [(rd, s.pawnMask)] := by
  simp only [State.settleTok, h.held, h.fine, h.asked, h.first, op, Bool.false_eq_true, if_false]

end

/-! ### Tokens settled, and faulted (R158, R177, R181) -/

theorem State.settle_nil : s.settle k [] = { s with ctx := { s.ctx with tok := s.ctx.tok.set k none } } := rfl

/-- A token that settles writes its destination, unless that is x0. -/
theorem State.settle_one (rd : Fin 32) (v : Word) : s.settle k [(rd, v)] = { s with ctx := { s.ctx with
    tok := s.ctx.tok.set k none, x := if rd = 0 then s.ctx.x else s.ctx.x.set rd v } } := by
  simp only [State.settle, State.onCtx, List.foldl_cons, List.foldl_nil, Context.setX]
  split <;> rfl

/-- Is a token's operation one of the handler that runs: its fault is then a double trap (R181). -/
def Context.ownHandler (c : Context) (t : TokPend) : Prop := c.tip = true ∧ c.tipSerial ≤ t.serial

/-- The trap that a token leaves pending that settles faulted (R177). -/
def TokPend.trap (t : TokPend) (k : Fin 8) (c : Cause) (va : Word) : PendTrap :=
  { rank := 1, order := t.serial, cause := c, st := .c, pawn := none, tok := some k, async_ := true, st2 := .c, faddr := va &&& 0xFFFFFFFFFFFFF#64
    fpc := t.pc, fpc2 := 0, frec := 0 }

/-- A token that faults writes no destination, and its trap is pending. -/
theorem State.settleFault_pends (outside : ¬ s.ctx.ownHandler t) (c : Cause) (va : Word) : s.settleFault k t c va =
    { s with ctx := { s.ctx with tok := s.ctx.tok.set k none, pend := s.ctx.pend ++ [t.trap k c va] } } := by
  rw [State.settleFault]
  exact if_neg outside

/-- What neither the fault log nor the replay log touches of a context, and what a double trap leaves: the token is settled, no register is
written, and the turn is to retire FAULTED (R181). -/
def Context.doubleTrapped (c d : Context) (k : Fin 8) : Prop :=
  d.tok[k] = none ∧ d.x = c.x ∧ d.retire = some { faulted := true, cancelled := false }

theorem State.settleFault_retires (inside : s.ctx.ownHandler t) (c : Cause) (va : Word) : s.ctx.doubleTrapped (s.settleFault k t c va).ctx k := by
  let freed := s.onCtx (fun x => { x with tok := x.tok.set k none })
  obtain ⟨u, record, frec, logged, retires⟩ := freed.enterTrapAt_retires freed.cNow (t.trap k c va) freed.ctx.cs.pc (.inl inside.1)
  have kept : u.ctx = freed.ctx := by
    rw [logged, (freed.logFault_frame _ _ _ _ _).1]
  have double : s.settleFault k t c va = freed.enterTrapAt freed.cNow (t.trap k c va) freed.ctx.cs.pc := by
    rw [State.settleFault]
    exact if_pos inside
  rw [double, retires]
  have settled : u.ctx.tok[k] = none := by
    rw [kept]
    exact Vector.getElem_set_self ..
  have x : u.ctx.x = s.ctx.x := by rw [kept]; rfl
  exact ⟨settled, x, rfl⟩

/-! ### The replay log (R210) -/

/-- The fields of the context that the replay log may change: its own. -/
def Context.logFrame (c d : Context) : Prop :=
  ∃ rplog off full held, d = { c with rplog := rplog, replayOff := off, replayFull := full, logHeld := held }

theorem Context.logFrame_refl (c : Context) : c.logFrame c := ⟨c.rplog, c.replayOff, c.replayFull, c.logHeld, rfl⟩

theorem Context.logFrame_trans {c d e : Context} (h : c.logFrame d) (g : d.logFrame e) : c.logFrame e := by
  obtain ⟨_, _, _, _, rfl⟩ := h
  obtain ⟨_, _, _, _, rfl⟩ := g
  exact ⟨_, _, _, _, rfl⟩

theorem State.appendLog_frame (s : State) (e : LogEnt) : s.ctx.logFrame (s.appendLog e).2.ctx := by
  unfold State.appendLog
  dsimp only
  split
  · exact s.ctx.logFrame_refl
  · split
    · exact s.ctx.logFrame_refl
    · rename_i t written
      have home := State.writeWords_frame written
      unfold State.homeFrame at home
      rw [home]
      exact ⟨_, s.ctx.replayOff, _, s.ctx.logHeld, rfl⟩

theorem State.payLoss_frame (s : State) : s.ctx.logFrame s.payLoss.ctx := by
  unfold State.payLoss
  split
  · dsimp only
    have appended := s.appendLog_frame { serial := 0, kind := 8, st := .c, pos := s.ctx.cs.issued, value := 0 }
    split
    · exact Context.logFrame_trans appended ⟨_, _, _, _, rfl⟩
    · exact appended
  · exact s.ctx.logFrame_refl

theorem State.logOne_frame (s : State) (e : LogEnt) : s.ctx.logFrame (s.logOne e).ctx := by
  unfold State.logOne
  dsimp only
  split
  · exact s.payLoss_frame
  · have appended := Context.logFrame_trans s.payLoss_frame (s.payLoss.appendLog_frame e)
    split
    · exact appended
    · exact Context.logFrame_trans appended ⟨_, _, _, _, rfl⟩

/-- Entries appended change the fields of the log only. -/
theorem State.flushLog_frame (s : State) : s.ctx.logFrame s.flushLog.ctx := by
  unfold State.flushLog
  dsimp only
  split
  · exact s.ctx.logFrame_refl
  · exact List.foldlRecOn _ _ (motive := fun (t : State) => s.ctx.logFrame t.ctx) ⟨_, _, _, _, rfl⟩
      (fun t kept e _ => Context.logFrame_trans kept (t.logOne_frame e))

/-- With no entry waiting there is nothing to append. -/
theorem State.flushLog_of_empty (empty : s.ctx.logHeld = []) : s.flushLog = s := by
  rw [State.flushLog, empty]
  rfl

/-- A context that does not log takes no entry. -/
theorem State.replayLog_off (off : s.ctx.trctl.toNat / 2 ^ 19 % 2 = 0) (serial kind : Nat) (st : Strm) (pos v : Nat) :
    s.replayLog serial kind st pos v = s := if_pos off

end

/-- The replay log takes nothing back of a double trap. -/
theorem Context.doubleTrapped.log {c d e : Context} {k : Fin 8} (double : c.doubleTrapped d k) (logged : d.logFrame e) : c.doubleTrapped e k := by
  obtain ⟨_, _, _, _, rfl⟩ := logged
  exact double

/-- Without a log, what a token that takes an input leaves is that it settles. -/
theorem State.settle_unlogged {s : State} (off : s.ctx.trctl.toNat / 2 ^ 19 % 2 = 0) (empty : s.ctx.logHeld = []) (k : Fin 8) (rd : Fin 32)
    (v : Word) (serial kind : Nat) (st : Strm) (pos n : Nat) :
    ((s.replayLog serial kind st pos n).settle k [(rd, v)]).flushLog = s.settle k [(rd, v)] := by
  rw [State.replayLog_off off, State.settle_one]
  exact State.flushLog_of_empty empty

end Sys2Proof.Machine
end

section
/-! SUPPORT. What the operations of tokens leave as they settle (R154, R286 to R288, R299, R307, R309, R320). -/

namespace Sys2Proof.Machine

open Sys2Proof.Claims

section
variable {s : State} {k : Fin 8} {t : TokPend}

/-! ### Loads, stores and layout records (R286 to R288, R320) -/

/-- A read touches neither the core nor the context: it may correct errors, wake a bank, and gain a frame a holder. -/
theorem State.noteRead_leaves (s : State) (p : Place) (n : Nat) :
    (s.noteRead p n).core = s.core ∧ (s.noteRead p n).ctx = s.ctx ∧ (s.noteRead p n).cycle = s.cycle := by
  obtain ⟨corrections, memctl, flips, corrected⟩ := s.correct_frame p.key n
  unfold State.noteRead
  rw [corrected]
  cases p.replFrame with
  | none =>
    dsimp only
    split <;> exact ⟨rfl, rfl, rfl⟩
  | some f =>
    dsimp only
    rw [State.replRead_frame]
    split <;> exact ⟨rfl, rfl, rfl⟩

theorem signedOf_eq_sgn (n v : Nat) : signedOf n v = sgn n v := by
  unfold signedOf sgn
  dsimp only
  by_cases low : v % 2 ^ n < 2 ^ (n - 1)
  · rw [if_neg (Nat.not_le.2 low), if_pos low]
  · rw [if_pos (Nat.not_lt.1 low), if_neg low, Nat.cast_pow]
    rfl

/-- A loaded value extended, by its two's complement reading. -/
theorem extendLoad_eq (n : Nat) (signed : Bool) (v : Nat) :
    extendLoad n signed v = if signed then BitVec.ofInt 64 (sgn (8 * n) v) else BitVec.ofNat 64 v := by
  rw [extendLoad, signedOf_eq_sgn]

/-- An access that no network has brought bytes for finds those of memory, if no write waits at its home. -/
theorem State.readFor_of_idle (path : Nat) (p : Place) (n : Nat) (inside : ∀ a ∈ s.net, a.serial ≠ t.serial) (idle : s.part.replWrites = []) :
    s.readFor path t.serial p n = s.mem.readBytes p.key n := by
  have unmet : s.net.find? (fun a => decide (a.serial = t.serial) && decide (a.site = s.site) && decide (a.key ≤ p.key) && !a.got.isEmpty &&
      decide (p.key + n ≤ a.key + a.got.length)) = none := by
    rw [List.find?_eq_none]
    intro a mem
    simp [inside a mem]
  rw [State.readFor, unmet, State.readPlace, State.bytesWith, idle]
  rfl

/-- A load whose home has served it writes its bytes, extended, to its register. -/
theorem State.settleLoad_served {n : Nat} {signed : Bool} {rd : Fin 32} {a : Word} {p : Place} (placed : t.tr = some p)
    (sound : s.readBad p.key n = false) :
    s.settleLoad k t n signed rd a = (s.noteRead p n).settle k [(rd, extendLoad n signed (leNat (s.readFor 0 t.serial p n)))] := by
  rw [State.settleLoad, placed]
  exact if_neg (by rw [sound]; exact Bool.false_ne_true)

/-- The token of a TLRW whose image has come: its record is to be written 4 cycles later (R320). -/
def TokPend.imaged (t : TokPend) (ly : Word) (bs : List (BitVec 8)) (now : Nat) : TokPend :=
  let d := fun i => BitVec.ofNat 64 (leNat ((bs.drop (8 * i)).take 8))
  { t with op := .record ly (d 0) (d 1) (d 2) (d 3), due := now + 4, tr := none }

theorem State.settleTlrw_read {ly a : Word} {p : Place} (placed : t.tr = some p) (sound : s.readBad p.key 32 = false) :
    s.settleTlrw k t ly a = (s.noteRead p 32).onCtx (fun c =>
      { c with tok := c.tok.set k (some (t.imaged ly (s.readFor 0 t.serial p 32) s.cycle)) }) := by
  rw [State.settleTlrw, placed]
  exact if_neg (by rw [sound]; exact Bool.false_ne_true)

/-- A record of the layout cache is written whole (R320). -/
theorem State.settleRecord_written {ly d0 d1 d2 d3 : Word} {r : Fin 64} (inside : ly.toNat = r.val)
    (fits : lyImageOk d1.toNat d2.toNat d3.toNat = true) :
    s.settleRecord k t ly d0 d1 d2 d3 = ((s.rewrite (spKey s.site (layoutOff + 32 * ly.toNat)) 32).onCore (fun c =>
      { c with ly := c.ly.set r (LyRec.ofWords d0.toNat d1.toNat d2.toNat d3.toNat) })).settle k [] := by
  obtain rfl : r = Fin.ofNat 64 ly.toNat := by rw [inside]; exact (Fin.ofNat_val_eq_self r).symm
  have small : ly.toNat < 64 := inside ▸ Fin.isLt _
  exact if_neg (by simp [fits, small])

/-- A record outside the cache, or of a wrong format, faults. -/
theorem State.settleRecord_illegal {ly d0 d1 d2 d3 : Word} (bad : 64 ≤ ly.toNat ∨ lyImageOk d1.toNat d2.toNat d3.toNat = false) :
    s.settleRecord k t ly d0 d1 d2 d3 = s.settleFault k t .illegal 0 := if_pos bad

/-- A vector set at one index, entry by entry. -/
theorem getElem_set_fin {α : Type} {n : Nat} (v : Vector α n) (r j : Fin n) (a : α) : (v.set r a)[j] = if j = r then a else v[j] := by
  simp [Vector.getElem_set, Fin.ext_iff, eq_comm]

/-! ### Stores (R31, R137, R287) -/

section
variable {n : Nat} {a x : Word} {p : Place}

/-- A store makes its write at its home, once. -/
theorem State.settleStore_makes (op : t.op = .store n a x) (unmade : t.done = none) (placed : t.tr = some p)
    (sound : s.writeBad p.key n = false) : s.settleStore k t n a =
      ((s.writePlace 0 t.serial p (leBytes n x.toNat)).onCtx (fun c =>
        { c with tok := c.tok.set k (some { t with done := some (0, 0) }) })).settleWritten k t := by
  cases t
  cases op
  cases unmade
  cases placed
  simp only [State.settleStore, State.makeTok, sound, Bool.false_eq_true, if_false]

/-- A write performed at once: the store settles. -/
theorem State.settleStore_performed (op : t.op = .store n a x) (unmade : t.done = none) (placed : t.tr = some p)
    (sound : s.writeBad p.key n = false) (home : p.replFrame = none) (alone : s.writing t.serial = false) :
    s.settleStore k t n a = { s.writeList p.key (leBytes n x.toNat) with ctx := { s.ctx with tok := s.ctx.tok.set k none } } := by
  rw [State.settleStore_makes op unmade placed sound, State.writePlace_home 0 t.serial _ home, State.settleWritten]
  refine (if_neg (fun waits => Bool.false_ne_true (alone.symm.trans waits))).trans ?_
  simp only [State.settle_nil, State.onCtx, Vector.set_set]
  rfl

/-- The write of a store that waits at its home for the holders of its frame. -/
def State.heldWrite (s : State) (f : Nat) (p : Place) (serial : Nat) (bs : List (BitVec 8)) : ReplWrite :=
  { frame := f, key := p.key, data := bs, site := s.site, cx := s.cx, path := 0, waiting := [], sent := false, serial := some serial }

theorem State.settleStore_waits {f : Nat} (op : t.op = .store n a x) (unmade : t.done = none) (placed : t.tr = some p)
    (sound : s.writeBad p.key n = false) (repl : p.replFrame = some f) (held : s.part.holders.getD f [] ≠ []) :
    s.settleStore k t n a = { s with
      part := { s.part with replWrites := s.part.replWrites ++ [s.heldWrite f p t.serial (leBytes n x.toNat)] }
      ctx := { s.ctx with tok := s.ctx.tok.set k (some { t with due := s.cycle + 1, done := some (0, 0) }) } } := by
  have write : s.writePlace 0 t.serial p (leBytes n x.toNat) =
      s.onPart (fun q => { q with replWrites := q.replWrites ++ [s.heldWrite f p t.serial (leBytes n x.toNat)] }) := by
    rw [State.writePlace, repl, State.frameWrite]
    exact if_neg (by simp [held])
  rw [State.settleStore_makes op unmade placed sound, write, State.settleWritten]
  refine (if_pos (by simp [State.writing, State.onPart, State.onCtx, State.heldWrite])).trans ?_
  refine (State.later_of_held (t := { t with done := some (0, 0) }) (Vector.getElem_set_self ..) 1).trans ?_
  simp only [State.onCtx, State.onPart, Vector.set_set]

/-- A store whose write is made settles when its home has performed it. -/
theorem State.settleStore_made (held : s.ctx.tok[k] = some t) (made : t.done.isSome = true) : s.settleStore k t n a =
    { s with ctx := { s.ctx with
      tok := if s.writing t.serial then s.ctx.tok.set k (some { t with due := s.cycle + 1 }) else s.ctx.tok.set k none } } := by
  obtain ⟨v, done⟩ := Option.isSome_iff_exists.1 made
  have written : s.settleStore k t n a = s.settleWritten k t := by rw [State.settleStore, done]
  rw [written, State.settleWritten]
  by_cases waits : s.writing t.serial = true
  · rw [if_pos waits, if_pos waits]
    exact State.later_of_held held 1
  · rw [if_neg waits, if_neg waits]
    exact State.settle_nil

end

/-! ### Queue words (R154, R299) -/

/-- A queue that serves its oldest word has no entry in error there. -/
theorem State.queueBad_of_qget {q : Fin 16} {w : Fin 4} {rd : Fin 32} {pop : Bool} {es : List QEnt} {c : Context} (op : t.op = .qget q w rd pop)
    (pops : s.ctx.popQ s.cycle .c q 1 = .ok (es, c)) : s.queueBad t = false := by
  simp only [State.queueBad, op, Context.headQ_of_popQ pops, Bool.and_false]

/-- A QPUT meets no entry in error. -/
theorem State.queueBad_of_qput {q : Fin 16} {w : Fin 4} {v : Word} (op : t.op = .qput q w v) : s.queueBad t = false := by
  simp only [State.queueBad, op]

/-- A queue word that its queue serves now settles later (R270). -/
theorem State.settleQueue_served {u : State} {ws : Word → List (Fin 32 × Word)} (unserved : t.done = none) (sound : s.queueBad t = false)
    (served : s.serveQueue k t = some u) : s.settleQueue k t ws = u := by
  rw [State.settleQueue, unserved]
  dsimp only
  rw [sound, served]
  rfl

theorem State.settleQueue_done {v x : Word} (done : t.done = some (v, x)) (ws : Word → List (Fin 32 × Word)) :
    s.settleQueue k t ws = s.settle k (ws v) := by
  rw [State.settleQueue, done]

/-! ### BUDGET and PSTAT (R307, R309) -/

/-- The limit after a BUDGET: a limit asked for lowers it, and never raises it. -/
def Context.lowered (c : Context) (n : BitVec 32) : BitVec 32 := if n ≠ 0 ∧ (c.limit = 0 ∨ n.toNat < c.limit.toNat) then n else c.limit

theorem State.budgetNow_eq (rd : Fin 32) (n : BitVec 32) : s.budgetNow k rd n =
    { s with ctx := { s.ctx with
      tok := s.ctx.tok.set k none, limit := s.ctx.lowered n
      x := if rd = 0 then s.ctx.x else s.ctx.x.set rd (BitVec.ofNat 64 (s.ctx.net.toNat * 2 ^ 32 + (s.ctx.lowered n).toNat)) } } := by
  have pair : s.ctx.net ++ s.ctx.lowered n = BitVec.ofNat 64 (s.ctx.net.toNat * 2 ^ 32 + (s.ctx.lowered n).toNat) := by
    apply BitVec.eq_of_toNat_eq
    rw [BitVec.toNat_append, BitVec.toNat_ofNat, ← Nat.shiftLeft_add_eq_or_of_lt (s.ctx.lowered n).isLt, Nat.shiftLeft_eq]
    omega
  rw [← pair]
  exact State.settle_one rd _

/-- A mask made bit by bit holds the bits of the numbers that pass. -/
theorem getLsbD_bitsOf {w : Nat} (l : List (Fin w)) (passes : Fin w → Bool) (m : BitVec w) (j : Fin w) :
    (l.foldl (fun m k => if passes k then m ||| (1#w <<< k.val) else m) m).getLsbD j.val =
      (m.getLsbD j.val || (decide (j ∈ l) && passes j)) := by
  induction l generalizing m with
  | nil => simp
  | cons k rest ih =>
    rw [List.foldl_cons, ih]
    have bit : (1#w <<< k.val).getLsbD j.val = decide (j = k) := by
      rw [← BitVec.twoPow_eq, BitVec.getLsbD_twoPow]
      simp [k.isLt, Fin.ext_iff, eq_comm]
    have step : (if passes k then m ||| (1#w <<< k.val) else m).getLsbD j.val = (m.getLsbD j.val || (decide (j = k) && passes k)) := by
      cases passes k
      · simp
      · rw [if_pos rfl, BitVec.getLsbD_or, bit, Bool.and_true]
    rw [step]
    by_cases same : j = k
    · subst same
      cases passes j <;> simp
    · simp [same]

/-- A PSTAT reads a bit for each pawn that the turn owns (R309). -/
theorem State.getLsbD_pawnMask (j : Fin 64) : s.pawnMask.getLsbD j.val = s.owns (s.pawn j) := by
  rw [State.pawnMask, pawnSlots, getLsbD_bitsOf _ (fun j => s.owns (s.pawn j))]
  simp

end

end Sys2Proof.Machine
end

section
/-! PROOFS. The obligations of spec/09_core.md. -/

namespace Sys2Proof.Proofs

open Sys2Proof.Machine Sys2Proof.Claims

/-- Settles O5: a result word by its destination and the results in flight, whatever its value is. -/
theorem resultWordsWaitForTheirDestination : Obligations.ResultWordsWaitForTheirDestination := by
  unfold Obligations.ResultWordsWaitForTheirDestination
  intro i s g rd v word on
  obtain ⟨w, result⟩ := exec_xWord word on
  exact ⟨fun owned => result.trans (congrArg _ (State.cResult_of_owned owned 1 w)),
    fun free full => result.trans (congrArg _ (State.cResult_of_full free full 1 w))⟩

/-- Settles O7: a word by the token that it takes, a queue word by what its queue makes of it as it issues. -/
theorem tokenWordsTakeTheirToken : Obligations.TokenWordsTakeTheirToken := by
  unfold Obligations.TokenWordsTakeTheirToken
  refine ⟨?words, ?gets, ?puts⟩
  case words =>
    intro i s
    split
    · trivial
    · rename_i word
      exact fun on holds may => exec_tokWord word on holds may
  case gets =>
    intro o pop s on fits may free i op
    have issues : exec i s = .next (((s.takeTok o.tok [o.rd] 1 op).serveTok o.tok).issuedIn .c) := by
      cases pop <;> exact congrArg _ ((State.guarded_on on _).trans (State.queueWord_takes fits may))
    refine ⟨fun es c pops => issues.trans ?_, fun e waits => issues.trans ?_⟩
    · rw [State.qget_issues free pops]
    · have waits' : (s.takeTok o.tok [o.rd] 1 op).ctx.popQ s.cycle .c o.q 1 = .error e := by
        show ({ s.ctx with tok := _ } : Context).popQ s.cycle .c o.q 1 = _
        rw [Context.popQ_withTok, waits]
        rfl
      rw [State.serveTok_waits (State.serveQueue_qget_waits rfl waits')]
  case puts =>
    intro o s on fits may free fresh op
    have issues : exec (.qput o) s = .next (((s.takeTok o.tok [] 1 op).serveTok o.tok).issuedIn .c) :=
      congrArg Host.Outcome.next ((State.guarded_on on _).trans (State.queueWord_takes fits may))
    refine ⟨fun room => ?_, fun e waits => issues.trans ?_⟩
    · obtain ⟨e, pushed, data, served⟩ := State.qput_issues (k := o.tok) (owned := []) (w := o.k) (v := s.ctx.getX o.rb) free room fresh
      exact ⟨e, pushed, data, issues.trans (congrArg _ served)⟩
    · have waits' : (s.takeTok o.tok [] 1 op).ctx.roomQ s.cycle .c o.q = .error e := waits
      rw [State.serveTok_waits (State.serveQueue_qput_waits rfl waits')]

/-- Settles O16: TRAP and BKPT by what a trap after the word enters, memory words by what they meet before their access. -/
theorem trapBkptAndMisalignedWordsTrap : Obligations.TrapBkptAndMisalignedWordsTrap := by
  unfold Obligations.TrapBkptAndMisalignedWordsTrap
  refine ⟨?traps, ?halts, ?memory⟩
  case traps =>
    intro o s on tip handler enters
    exact ⟨⟨_, exec_trap on, State.trapAfter_enters tip handler .swtrap o.code⟩,
      fun off => ⟨_, exec_bkpt_off on off, State.trapAfter_enters tip handler .bkpt o.code⟩⟩
  case halts =>
    intro o s on enabled
    obtain ⟨asked, stream, mem, x, tip⟩ := State.requestHalt_frame (s := nextWord s) rfl
    exact ⟨_, exec_bkpt_on on enabled, asked, stream, mem.trans (nextWord_mem s), x, tip⟩
  case memory =>
    intro i s g k owned a n op word on
    obtain ⟨acc, access⟩ := exec_memWord word on
    refine ⟨fun may odd tip handler => ⟨_, access, ?_⟩, fun pending => ?_⟩
    · rw [State.cAccess_misaligned may odd]
      exact State.trapWord_enters tip handler .align a
    · rw [access, State.cAccess_pending pending]

/-- Settles O20: each word goes on from the state with its token popped, as its meaning says there. -/
theorem engineControlWordsIssue : Obligations.EngineControlWordsIssue := by
  unfold Obligations.EngineControlWordsIssue
  refine ⟨⟨?tEnd, ?mEnd, ?vEnd⟩, ⟨?mzero, ?mLoop, ?mSync, ?mFence, ?mWaith⟩, ⟨?vLoop, ?vSync, ?vFence⟩⟩
  case tEnd => exact fun o s t met room => congrArg Host.Outcome.next ((State.tWord_met _ met).trans (if_pos room))
  case mEnd =>
    intro o s t met idle room
    refine congrArg Host.Outcome.next ((State.mWord_met _ met).trans ?_)
    rw [idle]
    exact if_pos room
  case vEnd =>
    intro o s t met idle room
    refine congrArg Host.Outcome.next ((State.vWord_met _ met).trans ?_)
    rw [idle]
    exact if_pos room
  case mzero =>
    intro o s t met unheld free
    refine congrArg Host.Outcome.next ((State.mWord_met _ met).trans ?_)
    obtain ⟨-, c, -, rfl⟩ := met
    exact if_neg (by rw [unheld, Context.zeroMeets_of_free free]; exact Bool.false_ne_true)
  case mLoop =>
    intro o s t met good room
    refine congrArg Host.Outcome.next ((State.mWord_met _ met).trans ?_)
    obtain ⟨-, c, popped, rfl⟩ := met
    obtain ⟨-, mb, -⟩ := Context.await_regs popped
    rw [loopBad_of_good good, room, ← mb]
    exact State.enterLoop_eq ..
  case mSync =>
    intro o s t met idle room roomC u
    refine congrArg Host.Outcome.next ((State.mWord_met _ met).trans ?_)
    have issues : (t.ctx.zeroing.isEmpty && !(t.ctx.postRoom .m o.sync && (!o.postC || t.ctx.tokenRoom (chanIx 2 0)))) = false := by
      cases postC : o.postC
      · simp [room]
      · simp [room, roomC postC]
    obtain ⟨-, c, -, rfl⟩ := met
    rw [issues]
    exact congrArg (fun v => State.issuedIn v .m) (State.zeroOne_sync idle room roomC)
  case mFence =>
    intro o s t met performed room
    refine congrArg Host.Outcome.next ((State.mWord_met _ met).trans ?_)
    exact (State.fenceWord_met (st := .m) performed o.sync _).trans (State.issuePost_of_room room)
  case mWaith =>
    intro o s t met named gone room
    refine congrArg Host.Outcome.next ((State.mWord_met _ met).trans ?_)
    obtain ⟨-, c, popped, rfl⟩ := met
    obtain ⟨h, -, -⟩ := Context.await_regs popped
    rw [← h] at gone
    exact (State.waithWord_gone named gone _).trans (State.issuePost_of_room room)
  case vLoop =>
    intro o s t met good room
    refine congrArg Host.Outcome.next ((State.vWord_met _ met).trans ?_)
    obtain ⟨-, c, popped, rfl⟩ := met
    obtain ⟨-, -, regs⟩ := Context.await_regs popped
    rw [loopBad_of_good good, room, ← regs]
    exact State.enterLoop_eq ..
  case vSync =>
    intro o s t met p
    have issues : exec (.vSync o) s = .next (if t.ctx.vpend.isEmpty then
        if t.vRetires p then (t.issuedIn .v).vRetire p else t.waitIn .v .channel
      else t.vFly p) := by
      refine congrArg Host.Outcome.next ((State.vWord_met _ met).trans ?_)
      obtain ⟨-, c, -, rfl⟩ := met
      rfl
    have now : t.cycle = s.cycle := by
      obtain ⟨-, c, -, rfl⟩ := met
      rfl
    refine ⟨?flies, ?retires⟩
    case flies =>
      intro busy
      exact issues.trans (congrArg Host.Outcome.next (if_neg (fun idle => busy (List.isEmpty_iff.1 idle))))
    case retires =>
      intro idle room roomC u
      obtain ⟨vpend, cycle⟩ := t.issuedIn_leaves (st := .v) (by decide)
      have retired := State.vRetire_sync (serial := t.serial) (due := s.cycle) (sync := o.sync) (postC := o.postC) (vpend.trans idle)
      rw [cycle, now] at retired
      have ready : t.vRetires p = true := State.vRetires_sync idle now.ge room roomC
      rw [issues, ready, idle]
      exact congrArg Host.Outcome.next retired
  case vFence =>
    intro o s t met performed room
    refine congrArg Host.Outcome.next ((State.vWord_met _ met).trans ?_)
    exact (State.fenceWord_met (st := .v) performed o.sync _).trans (State.issuePost_of_room room)

/-- Settles O33: the walk from the word after says where the stream stands, case by case as the walk goes. -/
theorem engineStreamsAdvance : Obligations.EngineStreamsAdvance := by
  unfold Obligations.EngineStreamsAdvance
  intro st s engine started r at_
  refine ⟨?outside, ?inside⟩
  case outside =>
    intro outside
    refine State.issuedIn_stands engine started ?_
    rw [outside]
    rfl
  case inside =>
    intro l rest loops i size
    have stands {pc : Word} {ls : List LoopSt} {fresh : Bool} (walk : walkLoops 100 (r.pc + 4) (l :: rest) false [] = (pc, ls, fresh, [])) :
        s.issuedIn st = at_ pc ls fresh := State.issuedIn_stands engine started (loops ▸ walk)
    refine ⟨?straight, ?again, ?skip, ?leave⟩
    case straight => exact fun inside active => stands (walkLoops_active 99 rest false [] inside active)
    case again =>
      intro past more words active
      refine stands ((walkLoops_again 99 rest false [] past more).trans (walkLoops_active 98 rest true [] ?_ ?_))
      · exact (LoopSt.wordAt_body _).trans_lt words
      · rw [LoopSt.wordAt_body, Nat.zero_div]
        exact active
    case skip =>
      intro staged inside idle active fits short
      have place : size * (i / size + 1) < 2 ^ 40 := fits.trans short
      have next : l.body + BitVec.ofNat 64 (4 * ((i / size + 1) * size)) = BitVec.ofNat 64 (l.body.toNat + 4 * (size * (i / size + 1))) := by
        rw [Nat.mul_comm (i / size + 1), BitVec.ofNat_add, BitVec.ofNat_toNat, BitVec.setWidth_eq]
      have word : l.wordAt (l.body + BitVec.ofNat 64 (4 * ((i / size + 1) * size))) = size * (i / size + 1) := by
        rw [Nat.mul_comm (i / size + 1)]
        exact l.wordAt_add place
      rw [← next]
      refine stands ((walkLoops_inactive 99 rest false [] inside idle).trans (walkLoops_active 98 rest false [] ?_ ?_))
      · exact word.trans_lt fits
      · refine (congrArg (fun n => l.active (n / size)) word).trans ?_
        rw [Nat.mul_div_cancel_left _ staged]
        exact active
    case leave =>
      intro past last outermost
      subst outermost
      have walk : walkLoops 100 (r.pc + 4) r.loops false [] = (r.pc + 4, [], true, [l]) := by
        rw [loops]
        exact walkLoops_leaves 99 [] false [] past last
      obtain ⟨board, -⟩ := s.loopExit_frame st l
      have left := State.issuedIn_walks engine walk
      obtain ⟨pc, loops', x⟩ := (s.loopExit st l).standsAt_leaves st (r.pc + 4) [] true
      rw [left]
      exact ⟨pc, loops', x.trans (by rw [board])⟩

/-- Settles O46: by what the operation of the token is, once nothing holds it. -/
theorem waitTokensSettleOnce : Obligations.WaitTokensSettleOnce := by
  unfold Obligations.WaitTokensSettleOnce
  intro site cx k t s u i free inner held due answered
  have arm : exec i s = .next (u.settleTok k) := rfl
  have now : u.cycle = s.cycle := s.focus_cycle site cx
  have mem : u.mem = s.mem := s.focus_mem site cx
  have net : u.net = s.net := s.focus_net site cx
  have here : u.site = site ∧ u.cx = cx := ⟨s.focus_site site cx, s.focus_cx site cx⟩
  rw [← State.focus_netOpen s site cx, show s.focus site cx = u from rfl] at answered
  rw [← now] at due
  rw [arm, ← now, ← mem, ← net]
  clear_value u
  refine ⟨?faulted, ?double, ?blocked, fun fine first => ?_⟩
  case faulted =>
    intro c va fault outside w
    rw [State.settleTok_faulted held due fault, State.settleFault_pends outside]
    rfl
  case double =>
    intro c va fault inside
    have double := State.settleFault_retires (k := k) inside c va
    refine ⟨_, rfl, ?_⟩
    show u.ctx.doubleTrapped _ k
    rw [State.settleTok_faulted held due fault]
    split
    · exact double.log (State.flushLog_frame _)
    · exact double
  case blocked =>
    intro fine blocked
    rw [State.settleTok_blocked held due fine (answered fine) blocked, State.later_of_held held]
  have goes : u.Settles k t := ⟨held, due, fine, answered fine, first⟩
  refine ⟨?load, ?store, ?stored, ?tlrw, ?record, ?reads, ?qget, ?qgetDone, ?qput, ?budget, ?crr, ?time, ?answer, ?pstat⟩
  case load =>
    intro n signed rd a p op placed sound raw
    obtain ⟨core, ctx, -⟩ := u.noteRead_leaves p n
    refine ⟨_, congrArg _ ((goes.load op).trans (State.settleLoad_served placed sound)), State.noteRead_mem .., core, ?_⟩
    rw [State.settle_one, extendLoad_eq, ctx]
  case store =>
    intro n a x p op unmade placed sound
    refine ⟨fun home alone => ?_, fun f repl heldBy => ?_⟩
    · exact ⟨_, congrArg _ ((goes.store op).trans (State.settleStore_performed op unmade placed sound home alone)), rfl, rfl, rfl, rfl⟩
    · refine ⟨_, congrArg _ ((goes.store op).trans (State.settleStore_waits op unmade placed sound repl heldBy)), rfl, ?_, rfl⟩
      rw [State.heldWrite, here.1, here.2]
  case stored => exact fun n a x op made => congrArg _ ((goes.store op).trans (State.settleStore_made held made))
  case tlrw =>
    intro ly a p op placed sound d
    obtain ⟨core, ctx, -⟩ := u.noteRead_leaves p 32
    refine ⟨_, congrArg _ ((goes.tlrw op).trans (State.settleTlrw_read placed sound)), State.noteRead_mem .., core, ?_⟩
    rw [State.onCtx_ctx, ctx]
    rfl
  case record =>
    intro ly d0 d1 d2 d3 op
    refine ⟨fun r inside fits => ?_, fun bad outside => ?_⟩
    · refine ⟨_, congrArg _ ((goes.record op).trans (State.settleRecord_written inside fits)), rfl, rfl, fun j => ?_⟩
      exact getElem_set_fin u.core.ly r j _
    · exact ⟨_, _, congrArg _ ((goes.record op).trans ((State.settleRecord_illegal bad).trans (State.settleFault_pends outside .illegal 0))), rfl, rfl, rfl, rfl⟩
  case reads => exact fun p n inside idle => State.readFor_of_idle 0 p n inside idle
  case qget =>
    intro q w rd pop es c op unserved first pops d
    exact congrArg _ ((goes.qget op).trans
      (State.settleQueue_served unserved (State.queueBad_of_qget op pops) (State.serveQueue_qget held op first pops)))
  case qgetDone =>
    intro q w rd pop v x op done
    rw [goes.qget op, State.settleQueue_done done, State.settle_one]
  case qput =>
    intro q w v op unserved first room
    obtain ⟨e, -, data, lands⟩ := u.ctx.landQ_reserveQ u.cycle q u.serial t.serial (entryWord w.val v)
    have served := State.serveQueue_qput held op first room lands
    refine ⟨_, congrArg _ ((goes.qput op).trans (State.settleQueue_served unserved (State.queueBad_of_qput op) served)), fun r other => ?_, fun fresh => ?_⟩
    · exact (getElem_set_fin u.ctx.q q r _).trans (if_neg other)
    · refine ⟨e, ?_, data⟩
      refine (congrArg Queue.ents ((getElem_set_fin u.ctx.q q q _).trans (if_pos rfl))).trans ?_
      rw [map_land_of_fresh fresh]
  case budget =>
    intro rd n op lim
    rw [goes.budget op, State.budgetNow_eq]
    rfl
  case crr => exact fun reg rd op => congrArg _ ((goes.crr op).trans (State.settle_one rd _))
  case time =>
    intro rd op live off empty
    rw [goes.time op live, State.settle_unlogged off empty, State.settle_one]
  case answer =>
    rintro name fn x rd v w (op | ⟨op, off, empty⟩) done
    · rw [goes.sete op done, State.settle_one]
    · rw [goes.etest op done, State.settle_unlogged off empty, State.settle_one]
  case pstat => exact fun rd op => ⟨_, congrArg _ ((goes.pstat op).trans (State.settle_one rd _)), State.getLsbD_pawnMask⟩

/-- Settles O56: what a step does in the order in which it looks, and for a slot what its word decodes to. -/
theorem stepRunsTheDecodedWord : Obligations.StepRunsTheDecodedWord := by
  unfold Obligations.StepRunsTheDecodedWord
  refine ⟨fun _ _ _ next => step_agenda next, fun _ empty off => step_stopped empty off, fun _ _ empty on due => step_due empty on due,
    fun _ empty on due done => step_tick ⟨empty, on, due⟩ done, ?_⟩
  intro s sl rest p u empty on due next v pc ready goes aligned placed sound read ahead
  have word : v.fetch sl.st = (.word (u.readKey p.key 4), ahead) := State.fetch_word aligned placed sound
  rw [State.decodeBytes_readBytes]
  refine ⟨fun i instr => ?_, fun e illegal c tip handler => ?_⟩
  · cases decoded : decode sl.st (u.readKey p.key 4) with
    | error e => rw [decoded] at instr; cases instr
    | ok j =>
      rw [decoded] at instr
      cases instr
      exact step_word ⟨empty, on, due⟩ next (State.slot_word ready goes word decoded)
  · cases decoded : decode sl.st (u.readKey p.key 4) with
    | ok j => rw [decoded] at illegal; cases illegal
    | error e =>
      refine ⟨_, step_done ⟨empty, on, due⟩ next (State.slot_illegal ready goes word decoded), ?_⟩
      rw [c]
      exact State.trapWord_enters tip handler .illegal 0

end Sys2Proof.Proofs
end

section
/-! SUPPORT. What the return from a trap leaves (R180). -/

namespace Sys2Proof.Machine

open Sys2Proof.Claims

/-! ### Frames -/

theorem sameRegs_refl (c : Context) : sameRegs c c := ⟨rfl, rfl, fun _ => rfl, rfl, rfl, rfl, rfl, rfl, rfl, rfl, rfl, rfl, rfl, rfl, rfl⟩

theorem sameTrapRegs_refl (c : Context) : sameTrapRegs c c := ⟨rfl, rfl, rfl, rfl, rfl, rfl, rfl⟩

/-! ### The return (R180) -/

section
variable {s : State} {o : Op.Bare}

/-- The context that has returned from its handler (R180). -/
def State.returned (s : State) : Context :=
  { s.ctx.releaseEngines s.cycle with
    pend := s.ctx.pend.filter (fun t => t.rank != 4)
    pl := s.ctx.ppl, tip := false, held := false, resume := true, fenceKept := none
    cs := { s.ctx.cs with
      pc := s.ctx.epc, wait := none, awaited := none, readyAt := s.cycle + 20, issued := s.ctx.cs.issued + 1
      fence := match s.ctx.fenceKept with
        | some (pc, f) => if pc = s.ctx.epc then some f else none
        | none => none } }

/-- A return changes the context, and of the core what it resumes and what waits for the trace. -/
theorem State.leaveTrap_frame (s : State) : ∃ core, s.leaveTrap = { s with ctx := s.returned, core := core } := by
  obtain ⟨trace, lost, traced⟩ := State.trace_frame ((s.onCore (fun k =>
    { k.resumePawns s.cx s.ctx.pend with wfault := k.wfault.filter (fun f => f.1 != s.cx), evalAt := s.cycle })).onCtx (fun _ => s.returned))
    4 .c s.ctx.epc.toNat
  exact ⟨_, traced⟩

/-- The engine streams after a return: asked to hold no more, at their words, and held by a fault of their own alone. -/
theorem State.returned_engine (s : State) {st : Strm} (engine : st ∈ [Strm.t, .m, .v]) :
    (s.returned.strm st).holdReq = false ∧ (s.returned.strm st).pc = (s.ctx.strm st).pc ∧
    (s.returned.strm st).held = s.ctx.pend.any (fun t => t.rank == 2 && t.st == st) := by
  cases st with
  | c => simp at engine
  | t | m | v => exact ⟨rfl, rfl, rfl⟩

/-- ERET in a handler returns. -/
theorem exec_eret_returns (on : s.ctx.getP o.g = true) (supervisor : s.ctx.pl = true) (tip : s.ctx.tip = true) :
    exec (.eret o) s = .next s.leaveTrap := by
  refine congrArg Host.Outcome.next ((State.guarded_on on _).trans ?_)
  rw [supervisor, tip]
  rfl

/-- ERET at turn level traps. -/
theorem exec_eret_barred (on : s.ctx.getP o.g = true) (turn : s.ctx.pl = false) : exec (.eret o) s = .next (s.trapWord .priv 0) := by
  refine congrArg Host.Outcome.next ((State.guarded_on on _).trans ?_)
  rw [turn]
  rfl

end

end Sys2Proof.Machine
end

section
/-! SUPPORT. Which pending trap is taken, what its entry leaves, and deadlocks (R178, R179, R181, R183). -/

namespace Sys2Proof.Machine

open Sys2Proof.Claims

section
variable {s : State} {x : PendTrap} {site : Nat} {cx : Bool}

/-! ### The first of the pending traps (R179) -/

/-- A trap stands before another by rank, or in one rank by order. -/
def PendTrap.precedes (x y : PendTrap) : Prop := x.rank < y.rank ∨ (x.rank = y.rank ∧ x.order < y.order)

theorem PendTrap.precedes.before {x y : PendTrap} (h : x.precedes y) : x.before y = true := by
  unfold PendTrap.before
  rcases h with h | ⟨rank, order⟩
  · simp [h]
  · simp [rank, order.le]

theorem PendTrap.precedes.not_before {x y : PendTrap} (h : x.precedes y) : y.before x = false := by
  unfold PendTrap.precedes at h
  unfold PendTrap.before
  simp only [Bool.or_eq_false_iff, Bool.and_eq_false_iff, decide_eq_false_iff_not]
  omega

theorem firstTrap_mem {l : List PendTrap} (h : firstTrap l = some x) : x ∈ l := by
  induction l with
  | nil => cases h
  | cons y l ih =>
    rw [firstTrap] at h
    cases rest : firstTrap l with
    | none =>
      rw [rest] at h
      cases h
      exact List.mem_cons_self
    | some z =>
      rw [rest] at h
      dsimp only at h
      split at h
      · cases h
        exact List.mem_cons_self
      · cases h
        exact List.mem_cons_of_mem _ (ih rest)

theorem firstTrap_none {l : List PendTrap} (h : firstTrap l = none) : l = [] := by
  cases l with
  | nil => rfl
  | cons y l =>
    rw [firstTrap] at h
    split at h
    · cases h
    · split at h <;> cases h

/-- The trap that stands before every other one is taken. -/
theorem firstTrap_of_first {l : List PendTrap} (mem : x ∈ l) (least : ∀ y ∈ l, y ≠ x → x.precedes y) : firstTrap l = some x := by
  induction l with
  | nil => cases mem
  | cons y l ih =>
    have leastTail : ∀ z ∈ l, z ≠ x → x.precedes z := fun z later => least z (List.mem_cons_of_mem _ later)
    rw [firstTrap]
    cases rest : firstTrap l with
    | none =>
      rw [firstTrap_none rest] at mem
      rw [List.mem_singleton.1 mem]
    | some z =>
      dsimp only
      by_cases head : y = x
      · subst head
        by_cases same : z = y
        · rw [same, ite_self]
        · rw [if_pos (leastTail z (firstTrap_mem rest) same).before]
      · have found := ih ((List.mem_cons.1 mem).resolve_left (Ne.symm head)) leastTail
        obtain rfl : z = x := Option.some.inj (rest.symm.trans found)
        rw [if_neg (by rw [(least y List.mem_cons_self head).not_before]; exact Bool.false_ne_true)]

/-- No WAIT at issue asks for the token of a trap. -/
def Context.unawaited (c : Context) (y : PendTrap) : Prop := ∀ k, y.tok = some k → y.rank = 1 → c.waitMask.getLsbD k.val = false

theorem Context.waitsFor_eq_false {c : Context} {y : PendTrap} : c.waitsFor y = false ↔ c.unawaited y := by
  unfold Context.waitsFor Context.unawaited
  cases y.tok with
  | none => simp
  | some k => by_cases rank : y.rank = 1 <;> simp [rank]

/-- A context stands where it takes traps: its turn runs, no handler does, and nothing holds its C stream. -/
structure State.Boundary (s : State) : Prop where
  turn : s.ctx.turn.isSome = true
  tip : s.ctx.tip = false
  retire : s.ctx.retire = none
  halted : s.ctx.halted = false
  haltReq : s.ctx.haltReq = false
  stopping : s.core.stopping = false
  urgent : s.core.urgent = none
  active : s.core.active = s.cx

/-- At a boundary the first of the traps that no WAIT asks for is due. -/
theorem State.Boundary.trapDue (h : s.Boundary) (pending : x ∈ s.ctx.pend) (unawaited : s.ctx.unawaited x)
    (least : ∀ y ∈ s.ctx.pend, y ≠ x → s.ctx.unawaited y → x.precedes y) : s.trapDue = some x := by
  have goes : (s.ctx.turn.isNone || s.ctx.tip || s.ctx.retire.isSome || s.ctx.halted || s.ctx.haltReq || s.core.stopping || s.core.urgent.isSome ||
      s.core.active != s.cx) = false := by
    have turn : s.ctx.turn.isNone = false := by rw [← Option.not_isSome, h.turn]; rfl
    simp [turn, h.tip, h.retire, h.halted, h.haltReq, h.stopping, h.urgent, h.active]
  rw [State.trapDue, goes]
  refine firstTrap_of_first (List.mem_filter.2 ⟨pending, by simp [Context.waitsFor_eq_false.2 unawaited]⟩) (fun y listed other => ?_)
  obtain ⟨listed, free⟩ := List.mem_filter.1 listed
  exact least y listed other (Context.waitsFor_eq_false.1 (by simpa using free))

/-! ### A pending trap taken (R178, R181) -/

/-- The state with a trap pending no more. -/
def State.withoutTrap (s : State) (x : PendTrap) : State := { s with ctx := { s.ctx with pend := s.ctx.pend.erase x } }

/-- A trap as it is entered: BUDGET and DEADLOCK name EPC as their word. -/
def PendTrap.entered (x : PendTrap) (epc : Word) : PendTrap := if 4 ≤ x.rank then { x with fpc := epc } else x

theorem PendTrap.entered_cause (x : PendTrap) (epc : Word) : (x.entered epc).cause = x.cause := by
  unfold PendTrap.entered
  split <;> rfl

/-- Where replay logs nothing, a trap taken is an entry. -/
theorem State.takeTrap_eq (unlogged : x.rank = 4 → s.ctx.trctl.getLsbD 19 = false) :
    s.takeTrap x = (s.withoutTrap x).enterTrapAt s.cNow (x.entered s.ctx.cs.pc) s.ctx.cs.pc := by
  have off (budget : x.rank = 4) : (s.withoutTrap x).ctx.trctl.toNat / 2 ^ 19 % 2 = 0 := by
    have clear : s.ctx.trctl.toNat.testBit 19 = false := unlogged budget
    rw [Nat.testBit_eq_decide_div_mod_eq] at clear
    have notOne : s.ctx.trctl.toNat / 2 ^ 19 % 2 ≠ 1 := of_decide_eq_false clear
    show s.ctx.trctl.toNat / 2 ^ 19 % 2 = 0
    omega
  unfold State.takeTrap
  dsimp only
  split
  next budget =>
    have kept := State.replayLog_off (s := s.withoutTrap x) (off budget)
    unfold State.withoutTrap at kept
    simp only [State.onCtx, kept]
    rfl
  · rfl

/-- The cycle as of which an event of a context saves its results in flight (R159). -/
theorem State.focus_cNow (s : State) (site : Nat) (cx : Bool) : (s.focus site cx).cNow =
    if s.todo.any (fun t => t.site == site && t.cx == cx && t.st == .c) then s.cycle else s.cycle + 1 := by
  rw [State.focus_frame]
  rfl

theorem exec_trapEntry (due : (s.focus site cx).trapDue = some x) : exec (.trapEntry site cx) s = .next ((s.focus site cx).takeTrap x) := by
  refine congrArg Host.Outcome.next ?_
  rw [due]

/-! ### Traps that retire the turn (R181, R182) -/

/-- Where the words of a report can be written, memory holds them. -/
theorem State.logFault_mem {s m : State} {cause kind core record frec : Nat}
    (written : (s.onPart (fun p => { p with logSeq := s.part.logSeq + 1 })).writeWords
      (s.part.flog.toNat / 64 % 2 ^ 46 * 64 + 32 * (s.part.floge.toNat / 2 ^ 32 % 2 ^ 16))
      [(s.part.logSeq + 1).toNat + cause * 2 ^ 32 + kind * 2 ^ 40 + core % 65536 * 2 ^ 48, record, frec, s.dt] = .ok m) :
    (s.logFault cause kind core record frec).mem = m.mem := by
  unfold State.logFault
  dsimp only
  rw [written, State.onPart_mem]

theorem State.logFault_reported (s : State) (cause kind core record frec : Nat) :
    reported s (s.logFault cause kind core record frec) cause kind core record frec := by
  refine ⟨?_, fun m written => State.logFault_mem written⟩
  rw [(s.logFault_frame cause kind core record frec).2]

/-- With its report written, the turn is to retire FAULTED. -/
theorem retiresFaulted_of_reported {s u : State} {cause first second : Nat} (context : u.ctx = s.ctx)
    (named : cause = if second = 0 then first else second) (report : reported s u cause 5 ((s.logicalOf s.site).getD 0xFFFF)
      ((s.ctx.turn.map (fun u => u.record.toNat)).getD 0) (first + 256 * second)) :
    (u.retireTurn true false).ctx.pend = s.ctx.pend ∧ retiresFaulted s (u.retireTurn true false) first second := by
  subst named
  have retired : (u.retireTurn true false).ctx = { s.ctx with retire := some { faulted := true, cancelled := false } } := by
    rw [← context]
    rfl
  unfold retiresFaulted
  rw [retired]
  exact ⟨rfl, rfl, rfl, rfl, rfl, sameRegs_refl s.ctx, sameTrapRegs_refl s.ctx, report⟩

theorem State.logFault_ctx (s : State) (cause kind core record frec : Nat) : (s.logFault cause kind core record frec).ctx = s.ctx := by
  rw [(s.logFault_frame cause kind core record frec).1]

/-- Every cause has a code. -/
theorem Cause.code_ne_zero (c : Cause) : c.code ≠ 0 := by
  cases c <;> exact Nat.succ_ne_zero _

/-- Without a handler installed, the turn retires with the trap's cause alone. -/
theorem State.enterTrapAt_unhandled (now : Nat) (epc : Word) (tip : s.ctx.tip = false) (absent : handlerOf s.part = 0) :
    (s.enterTrapAt now x epc).ctx.pend = s.ctx.pend ∧ retiresFaulted s (s.enterTrapAt now x epc) x.cause.code 0 := by
  have entry : s.enterTrapAt now x epc = (s.logFault x.cause.code 5 ((s.logicalOf s.site).getD 0xFFFF)
      ((s.ctx.turn.map (fun u => u.record.toNat)).getD 0) (x.cause.code + 256 * 0)).retireTurn true false := by
    unfold handlerOf at absent
    unfold State.enterTrapAt
    simp only [tip, absent, decide_true, Bool.or_true, if_true, Bool.false_eq_true, if_false]
    cases s.ctx.turn <;> rfl
  rw [entry]
  exact retiresFaulted_of_reported (s.logFault_ctx ..) rfl (s.logFault_reported ..)

/-- In a handler a trap retires the turn, with the cause of the handler's trap and its own (R181). -/
theorem State.enterTrapAt_double (now : Nat) (epc : Word) (tip : s.ctx.tip = true) :
    (s.enterTrapAt now x epc).ctx.pend = s.ctx.pend ∧ retiresFaulted s (s.enterTrapAt now x epc) (s.ctx.cause.toNat % 256) x.cause.code := by
  have entry : s.enterTrapAt now x epc = (s.logFault x.cause.code 5 ((s.logicalOf s.site).getD 0xFFFF)
      ((s.ctx.turn.map (fun u => u.record.toNat)).getD 0) (s.ctx.cause.toNat % 256 + 256 * x.cause.code)).retireTurn true false := by
    unfold State.enterTrapAt
    simp only [tip, Bool.true_or, if_true]
    cases s.ctx.turn <;> rfl
  rw [entry]
  exact retiresFaulted_of_reported (s.logFault_ctx ..) (if_neg x.cause.code_ne_zero).symm (s.logFault_reported ..)

/-! ### Deadlocks (R183) -/

theorem exec_deadlockDetect (turn : (s.focus site cx).ctx.turn.isSome = true) (tip : (s.focus site cx).ctx.tip = false)
    (quiet : 4096 ≤ (s.focus site cx).ctx.dead) :
    exec (.deadlockDetect site cx) s = .next ((s.focus site cx).onCtx (fun c => { c with dead := 0, pend := c.pend ++ [asyncTrap 5 .deadlock] })) :=
  congrArg Host.Outcome.next (if_pos (by simp [turn, tip, deadlockCycles, quiet]))

theorem exec_handlerDeadlock (turn : (s.focus site cx).ctx.turn.isSome = true) (tip : (s.focus site cx).ctx.tip = true)
    (stays : (s.focus site cx).ctx.retire = none) (quiet : 4096 ≤ (s.focus site cx).ctx.dead) :
    exec (.handlerDeadlock site cx) s = .next ((s.focus site cx).enterTrap (asyncTrap 5 .deadlock) (s.focus site cx).ctx.cs.pc) :=
  congrArg Host.Outcome.next (if_pos (by simp [turn, tip, stays, deadlockCycles, quiet]))

end

end Sys2Proof.Machine
end

section
/-! SUPPORT. Bytes of memory moved from one range to another (R187, R188). -/

namespace Sys2Proof.Machine

/-! ### Bytes written one after another -/

section
variable {at_ : Nat → Nat} {l : Tab (BitVec 8)} {m : Memory}

/-- The bytes of a table written at places that differ for different keys: where a key leads, its byte is read. -/
theorem Memory.read_foldl_write {k : Nat} (rising : Tab.wf l = true) (wf : m.wf = true) (apart : ∀ e ∈ l, at_ e.1 = at_ k → e.1 = k) :
    Memory.read (l.foldl (fun m e => m.write (at_ e.1) e.2) m) (at_ k) = (l.find? k).getD (m.read (at_ k)) := by
  induction l generalizing m with
  | nil => rfl
  | cons e l ih =>
    obtain ⟨n, v⟩ := e
    have above := Tab.above_of_wf rising
    rw [List.foldl_cons, ih (Tab.wf_of_above above) (Memory.wf_write wf) (fun e later => apart e (List.mem_cons_of_mem _ later)), Tab.find?]
    by_cases same : k = n
    · subst same
      rw [if_pos rfl, Tab.find?_above above le_rfl, Memory.read_write_same wf]
      rfl
    · have other : at_ k ≠ at_ n := fun h => same (apart (n, v) List.mem_cons_self h.symm).symm
      rw [if_neg same, Memory.read_write_ne wf other]
      split
      next before => rw [Tab.find?_above above before.le]
      next => rfl

/-- Where no key leads, nothing is written. -/
theorem Memory.read_foldl_write_apart {a : Nat} (wf : m.wf = true) (apart : ∀ e ∈ l, at_ e.1 ≠ a) :
    Memory.read (l.foldl (fun m e => m.write (at_ e.1) e.2) m) a = m.read a := by
  induction l generalizing m with
  | nil => rfl
  | cons e l ih =>
    rw [List.foldl_cons, ih (Memory.wf_write wf) (fun e later => apart e (List.mem_cons_of_mem _ later)),
      Memory.read_write_ne wf (apart e List.mem_cons_self).symm]

/-- What is read of the bytes whose keys a test keeps. -/
theorem Memory.read_filter (p : Nat → Bool) (k : Nat) (wf : m.wf = true) :
    Memory.read (m.filter (fun e => p e.1)) k = if p k then m.read k else 0 := by
  unfold Memory.read Tab.getD
  rw [Tab.find?_filter p k (Memory.wf_iff.1 wf).1]
  split <;> rfl

end

/-! ### Bytes moved (R187) -/

section
variable {m : Memory} {a b n : Nat}

/-- The range of n keys from a key on. -/
def inRange (a n k : Nat) : Bool := decide (a ≤ k) && decide (k < a + n)

theorem inRange_iff {k : Nat} : inRange a n k = true ↔ a ≤ k ∧ k < a + n := by
  simp [inRange]

theorem inRange_add {j : Nat} (inside : j < n) : inRange a n (a + j) = true := inRange_iff.2 ⟨Nat.le_add_right .., Nat.add_lt_add_left inside a⟩

theorem inRange_eq_false {k : Nat} (outside : ∀ j < n, k ≠ a + j) : inRange a n k = false := by
  rw [← Bool.not_eq_true, inRange_iff]
  exact fun ⟨low, high⟩ => outside (k - a) (by omega) (by omega)

/-- Memory without the bytes of two ranges. -/
def Memory.outside (m : Memory) (a b n : Nat) : Memory := m.filter (fun e => !inRange a n e.1 && !inRange b n e.1)

/-- Memory after the bytes of a range from a have been moved to a range from b. -/
def Memory.moved (m : Memory) (a b n : Nat) : Memory :=
  (m.filter (fun e => inRange a n e.1)).foldl (fun m e => Memory.write m (e.1 - a + b) e.2) (m.outside a b n)

theorem State.moveBytes_mem (s : State) (a b n : Nat) : (s.moveBytes a b n).mem = s.mem.moved a b n := rfl

theorem Memory.wf_outside (wf : m.wf = true) : (m.outside a b n).wf = true := Memory.wf_filter _ wf

theorem Memory.read_outside (wf : m.wf = true) (k : Nat) :
    (m.outside a b n).read k = if !inRange a n k && !inRange b n k then m.read k else 0 :=
  Memory.read_filter (fun k => !inRange a n k && !inRange b n k) k wf

/-- A byte moved stands where it was moved to. -/
theorem Memory.read_moved_to {j : Nat} (wf : m.wf = true) (inside : j < n) : (m.moved a b n).read (b + j) = m.read (a + j) := by
  have place : b + j = a + j - a + b := by omega
  have rising := (Memory.wf_iff.1 wf).1
  have found : Tab.find? (m.filter (fun e => inRange a n e.1)) (a + j) = m.find? (a + j) := by
    rw [Tab.find?_filter (inRange a n) _ rising, inRange_add inside]
    rfl
  have emptied : (m.outside a b n).read (b + j) = 0 := by
    rw [Memory.read_outside wf, inRange_add inside, Bool.not_true, Bool.and_false]
    rfl
  have apart : ∀ e ∈ m.filter (fun e => inRange a n e.1), e.1 - a + b = a + j - a + b → e.1 = a + j := by
    intro e listed same
    obtain ⟨low, -⟩ := inRange_iff.1 (List.mem_filter.1 listed).2
    omega
  rw [Memory.moved, place, Memory.read_foldl_write (at_ := fun k => k - a + b) (Tab.wf_filter _ rising) (Memory.wf_outside wf) apart, found, ← place,
    emptied]
  rfl

/-- A byte that does not stand where bytes are moved to reads as before if it is not moved, and else as one that nothing has written. -/
theorem Memory.read_moved_of_notin {k : Nat} (wf : m.wf = true) (outside : inRange b n k = false) :
    (m.moved a b n).read k = if inRange a n k then 0 else m.read k := by
  have apart : ∀ e ∈ m.filter (fun e => inRange a n e.1), e.1 - a + b ≠ k := by
    rintro e listed rfl
    obtain ⟨low, high⟩ := inRange_iff.1 (List.mem_filter.1 listed).2
    exact Bool.false_ne_true (outside.symm.trans (inRange_iff.2 ⟨by omega, by omega⟩))
  rw [Memory.moved, Memory.read_foldl_write_apart (at_ := fun k => k - a + b) (Memory.wf_outside wf) apart, Memory.read_outside wf, outside]
  cases inRange a n k <;> rfl

/-- A byte of a range that its bytes have left reads as one that nothing has written. -/
theorem Memory.read_moved_from {j : Nat} (wf : m.wf = true) (inside : j < n) (apart : a + n ≤ b ∨ b + n ≤ a) :
    (m.moved a b n).read (a + j) = 0 := by
  have outside : inRange b n (a + j) = false := inRange_eq_false (fun i _ => by omega)
  rw [Memory.read_moved_of_notin wf outside, inRange_add inside]
  rfl

/-- Every other byte reads as before. -/
theorem Memory.read_moved_outside {k : Nat} (wf : m.wf = true) (outside : ∀ j < n, k ≠ a + j ∧ k ≠ b + j) :
    (m.moved a b n).read k = m.read k := by
  rw [Memory.read_moved_of_notin wf (inRange_eq_false (fun j inside => (outside j inside).2)),
    inRange_eq_false (fun j inside => (outside j inside).1)]
  rfl

end

/-! ### The images of a site's scratchpad (R187) -/

theorem spKey_eq_add (i n : Nat) : spKey i n = spKey i 0 + n := by unfold spKey; rw [Nat.add_zero]

theorem shadowKey_eq_add (p i n : Nat) : shadowKey p i n = shadowKey p i 0 + n := by unfold shadowKey; rw [Nat.add_zero]

/-- The shadow stores lie above the scratchpads. -/
theorem spKey_below_shadowKey (p : Nat) {i : Nat} : i < 288 → spKey i 0 + imageBytes ≤ shadowKey p i 0 := by
  unfold spKey shadowKey imageBytes
  omega

/-- A site's scratchpad moved down to a shadow store stands there, its own bytes are gone, and no other byte differs. -/
theorem Memory.read_moved_down {m : Memory} (wf : m.wf = true) (p : Nat) {i : Nat} (site : i < 288) :
    (∀ n, n < 2 ^ 22 → (m.moved (spKey i 0) (shadowKey p i 0) imageBytes).read (shadowKey p i n) = m.read (spKey i n) ∧
      (m.moved (spKey i 0) (shadowKey p i 0) imageBytes).read (spKey i n) = 0) ∧
    ∀ key, (∀ n, n < 2 ^ 22 → key ≠ spKey i n ∧ key ≠ shadowKey p i n) →
      (m.moved (spKey i 0) (shadowKey p i 0) imageBytes).read key = m.read key := by
  refine ⟨fun n inside => ?_, fun key outside => Memory.read_moved_outside wf (fun n inside => ?_)⟩
  · rw [spKey_eq_add i n, shadowKey_eq_add p i n]
    exact ⟨Memory.read_moved_to wf inside, Memory.read_moved_from wf inside (.inl (spKey_below_shadowKey p site))⟩
  · rw [← spKey_eq_add, ← shadowKey_eq_add]
    exact outside n inside

/-- A shadow store's bytes moved up to their site stand there, and no other byte differs but those of the store. -/
theorem Memory.read_moved_up {m : Memory} (wf : m.wf = true) (p i : Nat) :
    (∀ n, n < 2 ^ 22 → (m.moved (shadowKey p i 0) (spKey i 0) imageBytes).read (spKey i n) = m.read (shadowKey p i n)) ∧
    ∀ key, (∀ n, n < 2 ^ 22 → key ≠ spKey i n ∧ key ≠ shadowKey p i n) →
      (m.moved (shadowKey p i 0) (spKey i 0) imageBytes).read key = m.read key := by
  refine ⟨fun n inside => ?_, fun key outside => Memory.read_moved_outside wf (fun n inside => ?_)⟩
  · rw [spKey_eq_add i n, shadowKey_eq_add p i n]
    exact Memory.read_moved_to wf inside
  · rw [← spKey_eq_add, ← shadowKey_eq_add]
    exact (outside n inside).symm

end Sys2Proof.Machine
end

section
/-! SUPPORT. Cores changed one after another, and cores asked to stop (R186, R214). -/

namespace Sys2Proof.Machine

/-! ### Cores by site, one after another -/

section
variable (f : State → Nat → CoreBox) (l : List Nat) (s : State)

/-- Cores replaced one after another, each by what the state says then. -/
def State.putBoxes : State := l.foldl (fun s i => s.putBox i (f s i)) s

theorem State.putBoxes_frame : ∃ core ctx octx cores, s.putBoxes f l = { s with core := core, ctx := ctx, octx := octx, cores := cores } := by
  refine List.foldlRecOn (motive := fun (t : State) => ∃ core ctx octx cores, t = { s with
    core := core, ctx := ctx, octx := octx, cores := cores }) _ _ ⟨_, _, _, _, rfl⟩ ?_
  rintro _ ⟨core, ctx, octx, cores, rfl⟩ i -
  exact ⟨_, _, _, _, State.putBox_frame _ _ _⟩

variable {f l s}

/-- What each core met has when it is put back holds of every core. -/
theorem State.boxAt_putBoxes {P : Nat → CoreBox → Prop} (start : ∀ i, P i (s.boxAt i)) (kept : ∀ t i, P i (t.boxAt i) → P i (f t i)) (i : Nat) :
    P i ((s.putBoxes f l).boxAt i) := by
  refine List.foldlRecOn (motive := fun (t : State) => ∀ i, P i (t.boxAt i)) _ _ start (fun t holds j _ i => ?_) i
  by_cases same : i = j
  · subst same
    rw [State.boxAt_putBox]
    exact kept t i (holds i)
  · rw [State.boxAt_putBox_ne _ _ same]
    exact holds i

/-- What each core has when it is put back holds of those of the list. -/
theorem State.boxAt_putBoxes_of_mem {P : CoreBox → Prop} (made : ∀ t i, P (f t i)) {i : Nat} (listed : i ∈ l) : P ((s.putBoxes f l).boxAt i) := by
  induction l generalizing s with
  | nil => cases listed
  | cons j l ih =>
    show P (((s.putBox j (f s j)).putBoxes f l).boxAt i)
    by_cases later : i ∈ l
    · exact ih later
    · obtain rfl := (List.mem_cons.1 listed).resolve_right later
      refine State.boxAt_putBoxes (P := fun k b => k = i → P b) (fun k here => ?_) (fun t k _ _ => made t k) i rfl
      rw [here, State.boxAt_putBox]
      exact made s i

end

@[simp] theorem State.focusPart_dtW (s : State) (p : Nat) : (s.focusPart p).dtW = s.dtW := congrArg (BitVec.ofNat 64) (s.focusPart_dt p)

@[simp] theorem State.focusPart_mtrbase (s : State) (p : Nat) : (s.focusPart p).mtrbase = s.mtrbase := by rw [State.focusPart_frame]

/-- A partition in focus stays so when it is turned to again. -/
theorem State.focusPart_of_pid {s : State} {p : Nat} (here : s.pid = p) : s.focusPart p = s := here ▸ s.focusPart_self

@[simp] theorem State.boxAt_focusPart (s : State) (p i : Nat) : (s.focusPart p).boxAt i = s.boxAt i := by
  rw [State.focusPart_frame]
  rfl

/-! ### Cores asked to stop (R186) -/

/-- A core told to stop keeps the registers of its contexts. -/
theorem CoreBox.stop_x (b : CoreBox) (now : Nat) : (b.stop now).a.x = b.a.x ∧ (b.stop now).b.x = b.b.x := by
  have kept (live : Bool) (c : Context) : (if c.turn.isSome && live then (c.pauseC now).holdEngines else c).x = c.x := by
    split
    · unfold Context.pauseC
      dsimp only
      split <;> rfl
    · rfl
  exact ⟨kept _ b.a, kept _ b.b⟩

/-- How a core is told to stop. -/
def State.stopped (s : State) (i : Nat) : CoreBox := (s.boxAt i).stop (s.cNowAt i (s.boxAt i).core.active)

section
variable {s : State} {p : Nat} (here : s.pid = p) (why : Pause)
include here

theorem State.askPause_eq : s.askPause p why =
    { s.putBoxes State.stopped s.liveSites with pauses := (s.putBoxes State.stopped s.liveSites).pauses ++ [(p, why)] } := by
  rw [State.askPause, State.focusPart_of_pid here]
  rfl

/-- A stop asked for of the partition in focus changes the cores, and is noted. -/
theorem State.askPause_frame : ∃ core ctx octx cores, s.askPause p why =
    { s with core := core, ctx := ctx, octx := octx, cores := cores, pauses := s.pauses ++ [(p, why)] } := by
  obtain ⟨core, ctx, octx, cores, put⟩ := s.putBoxes_frame State.stopped s.liveSites
  refine ⟨core, ctx, octx, cores, ?_⟩
  rw [State.askPause_eq here, put]

/-- Every core that runs the partition is to stop. -/
theorem State.askPause_stops {i : Nat} (live : i ∈ s.liveSites) : ((s.askPause p why).boxAt i).core.stopping = true := by
  rw [State.askPause_eq here]
  exact State.boxAt_putBoxes_of_mem (P := fun b => b.core.stopping = true) (fun _ _ => rfl) live

/-- The registers of every core stand. -/
theorem State.askPause_x (i : Nat) :
    ((s.askPause p why).boxAt i).a.x = (s.boxAt i).a.x ∧ ((s.askPause p why).boxAt i).b.x = (s.boxAt i).b.x := by
  rw [State.askPause_eq here]
  refine State.boxAt_putBoxes (P := fun i b => b.a.x = (s.boxAt i).a.x ∧ b.b.x = (s.boxAt i).b.x) (s := s) (fun i => ⟨rfl, rfl⟩) ?_ i
  intro t i ⟨a, b⟩
  obtain ⟨a', b'⟩ := (t.boxAt i).stop_x (t.cNowAt i (t.boxAt i).core.active)
  exact ⟨a'.trans a, b'.trans b⟩

end

theorem State.isPausing_eq_false {s : State} {p : Nat} (idle : ∀ e ∈ s.pauses, e.1 ≠ p) : s.isPausing p = false :=
  List.any_eq_false.2 (fun e listed => by simpa using idle e listed)

theorem State.contains_pause_eq_false {s : State} {p : Nat} (idle : ∀ e ∈ s.pauses, e.1 ≠ p) (why : Pause) : s.pauses.contains (p, why) = false := by
  rw [← Bool.not_eq_true, List.contains_iff_mem]
  exact fun listed => idle _ listed rfl

end Sys2Proof.Machine
end

section
/-! SUPPORT. What time registers, epochs and swaps leave (R186, R187, R205, R212, R214). -/

namespace Sys2Proof.Machine

open Sys2Proof.Claims

/-! ### Time registers (R212, R214) -/

/-- The last value of a list staged for a time register. -/
def lastStaged (l : List (TimeReg × Word)) (r : TimeReg) : Option Word := (l.reverse.find? (fun e => decide (e.1 = r))).map (fun e => e.2)

theorem lastStaged_cons (e : TimeReg × Word) (l : List (TimeReg × Word)) (r : TimeReg) :
    lastStaged (e :: l) r = (lastStaged l r).or (if e.1 = r then some e.2 else none) := by
  unfold lastStaged
  rw [List.reverse_cons, List.find?_append, Option.map_or, List.find?_singleton]
  by_cases h : e.1 = r <;> simp [h]

/-- Each time register takes the last value staged for it. -/
theorem Part.foldl_setTime (l : List (TimeReg × Word)) (p : Part) : l.foldl (fun (p : Part) e => p.setTime e) p = { p with
    tofs := (lastStaged l .tofs).getD p.tofs, tscale := (lastStaged l .tscale).getD p.tscale
    tmode := ((lastStaged l .tmode).map (fun w => w.getLsbD 0)).getD p.tmode } := by
  induction l generalizing p with
  | nil => rfl
  | cons e l ih =>
    obtain ⟨r, w⟩ := e
    rw [List.foldl_cons, ih]
    simp only [lastStaged_cons]
    cases r
    case tofs => cases lastStaged l .tofs <;> simp [Part.setTime]
    case tscale => cases lastStaged l .tscale <;> simp [Part.setTime]
    case tmode => cases lastStaged l .tmode <;> simp [Part.setTime]

theorem Part.epoch_eq (p : Part) : p.epoch = { p with
    staged := [], tofs := (lastStaged p.staged .tofs).getD p.tofs, tscale := (lastStaged p.staged .tscale).getD p.tscale
    tmode := ((lastStaged p.staged .tmode).map (fun w => w.getLsbD 0)).getD p.tmode } := by
  rw [Part.epoch, Part.foldl_setTime]

section
variable {s : State} {p : Nat}

theorem exec_timeRegisterStage (live : (s.focusPart p).part.live = true) (r : TimeReg) (w : BitVec 64) :
    exec (.timeRegisterStage p r w) s = .next ((s.focusPart p).onPart (fun q => { q with staged := q.staged ++ [(r, w)] })) :=
  congrArg Host.Outcome.next (if_pos live)

/-- An epoch of a resident partition first asks its cores to stop. -/
theorem exec_timeEpoch_asks (live : (s.focusPart p).part.live = true) (resident : (s.focusPart p).part.swapped = false)
    (idle : ∀ e ∈ s.pauses, e.1 ≠ p) : exec (.timeEpoch p) s = .next ((s.focusPart p).askPause p .epoch) := by
  have idle' : ∀ e ∈ (s.focusPart p).pauses, e.1 ≠ p := by rwa [State.focusPart_pauses]
  refine congrArg Host.Outcome.next ?_
  simp only [live, resident, State.contains_pause_eq_false idle', State.isPausing_eq_false idle', Bool.not_true, Bool.or_self, Bool.false_eq_true,
    if_false]

/-- Once its cores have stopped, the epoch is served. -/
theorem exec_timeEpoch_serves (live : (s.focusPart p).part.live = true) (resident : (s.focusPart p).part.swapped = false)
    (asked : (p, Pause.epoch) ∈ s.pauses) (stopped : (s.focusPart p).allStopped = true) :
    exec (.timeEpoch p) s = .next ((s.focusPart p).serveEpoch p) := by
  have asked' : (s.focusPart p).pauses.contains (p, Pause.epoch) = true := by rwa [State.focusPart_pauses, List.contains_iff_mem]
  refine congrArg Host.Outcome.next ?_
  simp only [live, resident, asked', stopped, Bool.not_true, Bool.or_self, Bool.false_eq_true, if_false, if_true]

theorem State.serveEpoch_eq (here : s.pid = p) : s.serveEpoch p = ((s.endPause p .epoch).onPart Part.epoch).putBoxes
    (fun t i => (t.boxAt i).goOn) s.liveSites := by
  rw [State.serveEpoch, State.focusPart_of_pid here]
  rfl

/-- An epoch served changes the cores, the time registers, and the list of pauses. -/
theorem State.serveEpoch_frame (here : s.pid = p) : ∃ core ctx octx cores, s.serveEpoch p =
    { s with core := core, ctx := ctx, octx := octx, cores := cores, part := s.part.epoch, pauses := s.pauses.erase (p, .epoch) } := by
  rw [State.serveEpoch_eq here]
  exact State.putBoxes_frame ..

theorem State.serveEpoch_goesOn (here : s.pid = p) {i : Nat} (live : i ∈ s.liveSites) : ((s.serveEpoch p).boxAt i).core.stopping = false := by
  rw [State.serveEpoch_eq here]
  exact State.boxAt_putBoxes_of_mem (P := fun b => b.core.stopping = false) (fun _ _ => rfl) live

end

/-! ### Swaps asked for (R186) -/

section
variable {s : State} {p : Nat}

theorem State.setSwapped_of_pid (here : s.pid = p) : s.setSwapped p =
    s.onPart (fun q => { q with swapped := true, swapSince := some s.dtW }) := by
  rw [State.setSwapped, State.focusPart_of_pid here]

/-- A swap-out asked for notes the time, and asks the cores to stop. -/
theorem State.askPause_setSwapped_frame (here : s.pid = p) (why : Pause) : ∃ core ctx octx cores, (s.setSwapped p).askPause p why = { s with
    core := core, ctx := ctx, octx := octx, cores := cores, pauses := s.pauses ++ [(p, why)]
    part := { s.part with swapped := true, swapSince := some s.dtW } } := by
  rw [State.setSwapped_of_pid here]
  exact State.askPause_frame (s := s.onPart _) here why

/-- A swap that takes out a live partition: it waits for the partition's cores, once it has asked them to stop. -/
theorem exec_partitionSwap_out {k : SwapKind} (out : swapsOut k = some p) (live : (s.focusPart p).part.live = true)
    (fits : ∀ q, swapsIn k = some q → s.canSwapIn q (some p) = true) :
    let u := s.focusPart p
    exec (.partitionSwap k) s = .next (if u.pauses.contains (p, .swap k) then (if u.allStopped && u.remapsFit then u.swapNow k else u)
      else if u.isPausing p || u.part.swapped then u else (u.setSwapped p).askPause p (.swap k)) := by
  have fit : (match swapsIn k with | some q => s.canSwapIn q (some p) | none => true) = true := by
    cases swap : swapsIn k with
    | none => rfl
    | some q => exact fits q swap
  have goes : (!(s.focusPart p).part.live || !(match swapsIn k with | some q => s.canSwapIn q (some p) | none => true)) = false := by
    rw [live, fit]
    rfl
  refine congrArg Host.Outcome.next ?_
  simp only [out]
  exact if_neg (fun stays => Bool.false_ne_true (goes.symm.trans stays))

/-- A swap-out first sets SWAPPED, and asks the cores to stop. -/
theorem exec_partitionSwap_asks {k : SwapKind} (out : swapsOut k = some p) (live : (s.focusPart p).part.live = true)
    (resident : (s.focusPart p).part.swapped = false) (idle : ∀ e ∈ s.pauses, e.1 ≠ p)
    (fits : ∀ q, swapsIn k = some q → s.canSwapIn q (some p) = true) :
    exec (.partitionSwap k) s = .next (((s.focusPart p).setSwapped p).askPause p (.swap k)) := by
  have idle' : ∀ e ∈ (s.focusPart p).pauses, e.1 ≠ p := by rwa [State.focusPart_pauses]
  rw [exec_partitionSwap_out out live fits, State.contains_pause_eq_false idle', State.isPausing_eq_false idle', resident]
  rfl

end

/-! ### The records of a swap (R205) -/

section
variable {s t u : State} {site : Nat}

/-- The site turned, and records waiting for the trace of its core: nothing else of the core, the partition or the package differs. -/
def State.tracedAt (s : State) (site : Nat) (t : State) : Prop :=
  (∃ cx core ctx octx cores, t = { s with site := site, cx := cx, core := core, ctx := ctx, octx := octx, cores := cores }) ∧
  ∃ trace lost, t.boxAt site = { s.boxAt site with core := { (s.boxAt site).core with trace := trace, lost := lost } }

theorem State.tracedAt.pid (h : s.tracedAt site t) : t.pid = s.pid := by
  obtain ⟨⟨_, _, _, _, _, rfl⟩, -⟩ := h
  rfl

theorem State.tracedAt.runs (h : s.tracedAt site t) : (t.boxAt site).core.part = (s.boxAt site).core.part := by
  obtain ⟨-, _, _, box⟩ := h
  rw [box]

theorem State.tracedAt.trans (h : s.tracedAt site t) (g : t.tracedAt site u) : s.tracedAt site u := by
  obtain ⟨⟨_, _, _, _, _, rfl⟩, trace, lost, box⟩ := h
  obtain ⟨⟨_, _, _, _, _, rfl⟩, trace', lost', box'⟩ := g
  refine ⟨⟨_, _, _, _, _, rfl⟩, trace', lost', ?_⟩
  rw [box', box]

/-- The core of a site unpacked, as it stands among the others. -/
def State.unpacked (s : State) (site : Nat) (cx : Bool) : State :=
  ({ s with
    site := site, core := (s.boxAt site).core, ctx := if s.cx then (s.boxAt site).b else (s.boxAt site).a
    octx := if s.cx then (s.boxAt site).a else (s.boxAt site).b
    cores := if s.site = site then s.cores else (s.cores.drop site).put s.site s.hereBox } : State).focusCx cx

theorem State.hereBox_core (s : State) : s.hereBox.core = s.core := by
  unfold State.hereBox
  split <;> rfl

theorem State.hereBox_ctx (s : State) : (if s.cx then s.hereBox.b else s.hereBox.a) = s.ctx := by
  unfold State.hereBox
  split <;> rfl

theorem State.hereBox_octx (s : State) : (if s.cx then s.hereBox.a else s.hereBox.b) = s.octx := by
  unfold State.hereBox
  split <;> rfl

theorem State.unpacked_here (s : State) (cx : Bool) : s.unpacked s.site cx = s.focusCx cx := by
  unfold State.unpacked
  rw [State.boxAt, if_pos rfl, if_pos rfl, State.hereBox_core, State.hereBox_ctx, State.hereBox_octx]

/-- Turning to a site whose core runs the partition in focus unpacks the core. -/
theorem State.focus_of_live {s : State} {site : Nat} {cx : Bool} (runs : (s.unpacked site cx).core.part = some (s.unpacked site cx).pid) :
    s.focus site cx = s.unpacked site cx := by
  by_cases here : s.site = site
  · subst here
    rw [State.unpacked_here] at runs ⊢
    rw [State.focus, if_pos rfl, runs]
    exact State.focusPart_self _
  · have packed : s.boxAt site = (s.cores.find? site).getD (s.freshBox site) := if_neg (Ne.symm here)
    rw [State.unpacked, if_neg here, packed] at runs ⊢
    rw [State.focus, if_neg here, runs]
    exact State.focusPart_self _

theorem State.boxAt_unpacked (s : State) (site : Nat) (cx : Bool) : (s.unpacked site cx).boxAt site = s.boxAt site := by
  unfold State.unpacked
  rw [State.focusCx_frame]
  rw [State.boxAt, if_pos rfl]
  cases cx <;> cases cx' : s.cx <;> simp [State.hereBox]

/-- A site of the partition in focus turned to keeps the partition in focus. -/
theorem State.focus_tracedAt (live : (s.boxAt site).core.part = some s.pid) (cx : Bool) : s.tracedAt site (s.focus site cx) := by
  have runs : (s.unpacked site cx).core.part = some (s.unpacked site cx).pid := by
    unfold State.unpacked
    rw [State.focusCx_frame]
    exact live
  rw [State.focus_of_live runs]
  refine ⟨?_, _, _, s.boxAt_unpacked site cx⟩
  rw [State.unpacked, State.focusCx_frame]
  exact ⟨_, _, _, _, _, rfl⟩

/-- A record of the site in focus waits for its core's trace. -/
theorem State.trace_tracedAt (here : s.site = site) (type : Nat) (st : Strm) (payload : Nat) : s.tracedAt site (s.trace type st payload) := by
  subst here
  obtain ⟨trace, lost, traced⟩ := s.trace_frame type st payload
  rw [traced]
  refine ⟨⟨_, _, _, _, _, rfl⟩, trace, lost, ?_⟩
  simp only [State.boxAt, if_true, State.hereBox]
  split <;> rfl

/-- Without a ring of its own the manager records nothing. -/
theorem State.managerTrace_off (off : s.mtrbase.toNat / 64 % 2 ^ 46 = 0) (type core payload : Nat) : s.managerTrace type core payload = s :=
  if_pos (.inl (by rw [off]))

/-- The record of one context of a site. -/
def State.traceSwapOf (s : State) (site payload : Nat) (cx : Bool) : State :=
  if (s.focus site cx).ctx.turn.isSome then (s.focus site cx).trace 0xE .c payload else s.focus site cx

theorem State.traceSwapOf_tracedAt (live : (s.boxAt site).core.part = some s.pid) (payload : Nat) (cx : Bool) :
    s.tracedAt site (s.traceSwapOf site payload cx) := by
  have turned := State.focus_tracedAt live cx
  unfold State.traceSwapOf
  split
  · exact turned.trans (State.trace_tracedAt (s.focus_site site cx) 0xE .c payload)
  · exact turned

theorem State.traceSwap_eq (s : State) (site payload : Nat) : s.traceSwap site payload =
    ((s.traceSwapOf site payload false).traceSwapOf site payload true).managerTrace 0xE ((s.part.cores.find? site).getD 0xFFFF) payload := rfl

/-- The records of a swap of a site of the partition in focus. -/
theorem State.traceSwap_tracedAt (live : (s.boxAt site).core.part = some s.pid) (off : s.mtrbase.toNat / 64 % 2 ^ 46 = 0) (payload : Nat) :
    s.tracedAt site (s.traceSwap site payload) := by
  have first := State.traceSwapOf_tracedAt live payload false
  have second := first.trans (State.traceSwapOf_tracedAt (by rw [first.runs, first.pid, live]) payload true)
  have off' : ((s.traceSwapOf site payload false).traceSwapOf site payload true).mtrbase = s.mtrbase := by
    obtain ⟨⟨_, _, _, _, _, frame⟩, -⟩ := second
    rw [frame]
  rw [State.traceSwap_eq, State.managerTrace_off (by rw [off']; exact off)]
  exact second

end

/-! ### Images saved (R187, R188) -/

section
variable {s : State} {site p : Nat}

/-- A core that names its late reads' regions. -/
def CoreBox.remapped (b : CoreBox) (remap : List (Nat × Nat)) : CoreBox := { b with core := { b.core with remap := remap } }

theorem State.remapAll_eq (s : State) : s.remapAll = s.putBoxes (fun t i => (t.boxAt i).remapped (remapOf i s.allLate)) s.sites := rfl

theorem State.remapAll_frame (s : State) : ∃ core ctx octx cores, s.remapAll =
    { s with core := core, ctx := ctx, octx := octx, cores := cores } := by
  rw [State.remapAll_eq]
  exact State.putBoxes_frame ..

/-- Of a core only its remap table differs. -/
theorem State.boxAt_remapAll (s : State) (i : Nat) : ∃ remap, s.remapAll.boxAt i = (s.boxAt i).remapped remap := by
  rw [State.remapAll_eq]
  refine State.boxAt_putBoxes (P := fun i b => ∃ remap, b = (s.boxAt i).remapped remap) (fun i => ⟨_, rfl⟩) ?_ i
  rintro t i ⟨remap, box⟩
  exact ⟨remapOf i s.allLate, by rw [box]; rfl⟩

/-- A site after its image has gone. -/
def CoreBox.vacated (b : CoreBox) (late : List LateRead) : CoreBox := { core := b.core.vacated late, a := Context.reset, b := Context.reset }

/-- The state in which the image of a site has gone to its shadow store. -/
def State.imageSaved (s : State) (site : Nat) : State :=
  ({ s.onPart (fun q => { q with images := q.images.put site ((s.boxAt site).image (s.inFlightReads site)) }) with
    shadows := s.shadows.put site s.pid } : State).moveBytes (spKey site 0) (shadowKey s.pid site 0) imageBytes

theorem State.saveSite_eq (s : State) (site : Nat) : s.saveSite site =
    let t := s.traceSwap site 1
    (t.imageSaved site).putBox site ((t.boxAt site).vacated (t.inFlightReads site)) := rfl

/-- An image keeps the registers of its contexts. -/
theorem CoreBox.image_sameRegs (b : CoreBox) (late : List LateRead) : sameRegs b.a (b.image late).a ∧ sameRegs b.b (b.image late).b := by
  have held (c : Context) : sameRegs c c.holdAll.unplaced := by
    unfold sameRegs
    exact sameRegs_refl c
  exact ⟨held b.a, held b.b⟩

/-- What a site of the partition in focus leaves as its image is saved. -/
structure State.SiteSaved (s t : State) (site : Nat) : Prop where
  pid : t.pid = s.pid
  pauses : t.pauses = s.pauses
  mem : t.mem = s.mem.moved (spKey site 0) (shadowKey s.pid site 0) imageBytes
  empty : (t.boxAt site).core.part = none ∧ (t.boxAt site).a.turn = none ∧ (t.boxAt site).b.turn = none
  image : ∃ b, t.part.images.find? site = some b ∧ sameRegs (s.boxAt site).a b.a ∧ sameRegs (s.boxAt site).b b.b

theorem State.saveSite_saves (live : (s.boxAt site).core.part = some s.pid) (off : s.mtrbase.toNat / 64 % 2 ^ 46 = 0) :
    s.SiteSaved (s.saveSite site) site := by
  obtain ⟨⟨cx, core, ctx, octx, cores, frame⟩, trace, lost, box⟩ := State.traceSwap_tracedAt live off 1
  rw [State.saveSite_eq]
  generalize s.traceSwap site 1 = t at frame box ⊢
  have pid : t.pid = s.pid := by rw [frame]
  have pauses : t.pauses = s.pauses := by rw [frame]
  have mem : t.mem = s.mem := by rw [frame]
  refine ⟨?pid, ?pauses, ?mem, ?empty, ?image⟩
  case pid =>
    rw [State.putBox_pid]
    exact pid
  case pauses =>
    rw [State.putBox_pauses]
    exact pauses
  case mem =>
    rw [State.putBox_mem, State.imageSaved, State.moveBytes_mem, pid, ← mem]
    rfl
  case empty =>
    rw [State.boxAt_putBox]
    exact ⟨rfl, rfl, rfl⟩
  case image =>
    refine ⟨(t.boxAt site).image (t.inFlightReads site), ?_, ?_⟩
    · rw [State.putBox_part]
      exact Tab.find?_put_same ..
    · obtain ⟨a, b⟩ := (t.boxAt site).image_sameRegs (t.inFlightReads site)
      rw [box] at a b ⊢
      exact ⟨a, b⟩

theorem State.SiteSaved.remapAll {t : State} (saved : s.SiteSaved t site) : s.SiteSaved t.remapAll site := by
  obtain ⟨pid, pauses, mem, empty, image⟩ := saved
  obtain ⟨remap, box⟩ := t.boxAt_remapAll site
  obtain ⟨core, ctx, octx, cores, frame⟩ := t.remapAll_frame
  refine ⟨?_, ?_, ?_, ?_, ?_⟩
  · rw [frame]; exact pid
  · rw [frame]; exact pauses
  · rw [frame]; exact mem
  · rw [box]; exact empty
  · rw [frame]; exact image

theorem State.mem_liveSites {i : Nat} (live : i ∈ s.liveSites) : (s.boxAt i).core.part = some s.pid := by
  simpa using (List.mem_filter.1 live).2

/-- Once the cores have stopped, the images move down. -/
theorem exec_partitionSwap_out_moves (live : (s.focusPart p).part.live = true) (asked : (p, Pause.swap (.swapOut p)) ∈ s.pauses)
    (stopped : (s.focusPart p).allStopped = true) (fit : (s.focusPart p).remapsFit = true) :
    exec (.partitionSwap (.swapOut p)) s = .next (((s.focusPart p).endPause p (.swap (.swapOut p))).swapOut p) := by
  have asked' : (s.focusPart p).pauses.contains (p, Pause.swap (.swapOut p)) = true := by rwa [State.focusPart_pauses, List.contains_iff_mem]
  rw [exec_partitionSwap_out rfl live (fun q swap => by cases swap), asked', stopped, fit]
  rfl

/-- A partition of one site moved down. -/
theorem State.swapOut_one (here : s.pid = p) (one : s.liveSites = [site]) : s.swapOut p = (s.saveSite site).remapAll := by
  rw [State.swapOut, State.focusPart_of_pid here, one]
  rfl

end

/-! ### Images restored (R186, R187, R214) -/

section
variable {s : State} {site p : Nat} {b : CoreBox}

/-- A core that a partition's image makes of what stands at its site. -/
def State.restoredBox (s : State) (site : Nat) (b : CoreBox) : CoreBox :=
  ({ b with core := { b.core with
    part := some s.pid, enabled := (s.boxAt site).core.enabled, board := (s.boxAt site).core.board
    lateReads := (s.boxAt site).core.lateReads, remap := (s.boxAt site).core.remap } } : CoreBox).goOn

/-- The state in which an image has been moved up to its site. -/
def State.imageRestored (s : State) (site : Nat) (b : CoreBox) : State :=
  ((({ s with shadows := if s.shadows.find? site = some s.pid then s.shadows.drop site else s.shadows } : State).moveBytes
    (shadowKey s.pid site 0) (spKey site 0) imageBytes).dropImageErrors site).putBox site (s.restoredBox site b)

theorem State.imageError_of_sound (sound : s.badWords = []) (site : Nat) (b : CoreBox) (cx : Bool) : s.imageError site b cx = none := by
  rw [State.imageError, sound]
  rfl

/-- An image without an error is moved up, and its records wait for the trace. -/
theorem State.restoreSite_sound (sound : s.badWords = []) : s.restoreSite site b = (s.imageRestored site b).traceSwap site 3 := by
  unfold State.restoreSite
  rw [State.imageError_of_sound sound, State.imageError_of_sound sound]
  rfl

/-- A core that goes on keeps the registers of its contexts. -/
theorem CoreBox.goOn_sameRegs (b : CoreBox) : sameRegs b.a b.goOn.a ∧ sameRegs b.b b.goOn.b := by
  have resumed (keep : Bool) (c : Context) : sameRegs c (if keep then c else c.resumeEngines) := by
    split <;> exact sameRegs_refl c
  exact ⟨resumed _ b.a, resumed _ b.b⟩

/-- What a site of the partition in focus has after its image has been restored. -/
structure State.SiteRestored (s t : State) (site : Nat) (b : CoreBox) : Prop where
  pid : t.pid = s.pid
  part : t.part = s.part
  mem : t.mem = s.mem.moved (shadowKey s.pid site 0) (spKey site 0) imageBytes
  runs : (t.boxAt site).core.part = some s.pid
  regs : sameRegs b.a (t.boxAt site).a ∧ sameRegs b.b (t.boxAt site).b

theorem State.restoreSite_restores (sound : s.badWords = []) (off : s.mtrbase.toNat / 64 % 2 ^ 46 = 0) :
    s.SiteRestored (s.restoreSite site b) site b := by
  have box : (s.imageRestored site b).boxAt site = s.restoredBox site b := State.boxAt_putBox ..
  have pid : (s.imageRestored site b).pid = s.pid := State.putBox_pid ..
  have off' : (s.imageRestored site b).mtrbase = s.mtrbase := by rw [State.imageRestored, State.putBox_frame]; rfl
  obtain ⟨⟨cx, core, ctx, octx, cores, frame⟩, trace, lost, box'⟩ :=
    State.traceSwap_tracedAt (s := s.imageRestored site b) (site := site) (by rw [box, pid]; rfl) (by rw [off']; exact off) 3
  rw [State.restoreSite_sound sound]
  refine ⟨?_, ?_, ?_, ?_, ?_⟩
  · rw [frame]; exact pid
  · rw [frame]; exact State.putBox_part ..
  · rw [frame]; exact State.putBox_mem ..
  · rw [box', box]; rfl
  · rw [box', box]; exact CoreBox.goOn_sameRegs _

/-- The partition whose SWAPPED clears, its images moved up. -/
def State.broughtIn (s : State) : State := s.clearSwapped.onPart (fun q => { q with images := [] })

theorem State.broughtIn_part (s : State) : s.broughtIn.part = { s.part.epoch with
    swapped := false, swapSince := none, images := []
    swappedTotal := s.part.swappedTotal + (match s.part.swapSince with | some t => s.dtW - t | none => 0) } := rfl

theorem exec_partitionSwap_in (fits : s.canSwapIn p none = true) : exec (.partitionSwap (.swapIn p)) s = .next (s.swapIn p) :=
  congrArg Host.Outcome.next (if_pos fits)

/-- A partition of one image moved up. -/
theorem State.swapIn_one (one : (s.focusPart p).part.images = [(site, b)]) : s.swapIn p = (s.focusPart p).broughtIn.restoreSite site b := by
  have images : (s.focusPart p).clearSwapped.part.images = [(site, b)] := by
    show (s.focusPart p).part.epoch.images = _
    rw [Part.epoch_eq]
    exact one
  have here : (s.focusPart p).broughtIn.pid = p := State.focusPart_pid ..
  unfold State.swapIn
  dsimp only
  rw [images]
  show ((s.focusPart p).broughtIn.focusPart p).restoreSite site b = _
  rw [State.focusPart_of_pid here]

end

end Sys2Proof.Machine
end

section
/-! SUPPORT. Where a late response lands, and the pawn that it ends (R188, R330). -/

namespace Sys2Proof.Machine

open Sys2Proof.Claims

section
variable {s : State} {site : Nat} {r : LateRead} {b : CoreBox}

/-- The first of the late reads that are due is found, and taken from the list. -/
theorem lateReads_split {pre post : List LateRead} {now : Nat} (early : ∀ q ∈ pre, now < q.due) (due : r.due ≤ now) :
    (pre ++ r :: post).find? (fun q => decide (q.due ≤ now)) = some r ∧ (pre ++ r :: post).erase r = pre ++ post := by
  have waiting : pre.find? (fun q => decide (q.due ≤ now)) = none :=
    List.find?_eq_none.2 (fun q listed => by simpa using early q listed)
  have other : r ∉ pre := fun listed => Nat.not_lt.2 due (early r listed)
  constructor
  · rw [List.find?_append, waiting, List.find?_cons_of_pos (by simpa using due)]
    rfl
  · rw [List.erase_append_right _ other, List.erase_cons_head]

/-- A core that has a late response to wait for no more. -/
def CoreBox.withoutLate (b : CoreBox) (r : LateRead) : CoreBox := { b with core := { b.core with lateReads := b.core.lateReads.erase r } }

/-- The state in which a late response has left its core's list, with its partition in focus. -/
def State.lateTaken (s : State) (site : Nat) (r : LateRead) : State :=
  (s.putBox site ((s.boxAt site).withoutLate r)).remapAll.focusPart r.part

/-- Where the bytes of a late response belong: at its site while its partition is there, else in its image. -/
def State.latePlace (s : State) (r : LateRead) : Nat :=
  if (s.boxAt r.site).core.part = some r.part then spKey r.site r.off else shadowKey r.part r.site r.off

/-- The state in which a late response has stored its bytes, or met its error. -/
def State.lateStored (s : State) (r : LateRead) : State :=
  if s.readBad r.key r.bytes then s.meetBad r.key r.bytes
  else (s.correct r.key r.bytes).writeList (s.latePlace r) (s.mem.readBytes r.key r.bytes)

theorem State.lateTaken_frame (s : State) (site : Nat) (r : LateRead) :
    (s.lateTaken site r).mem = s.mem ∧ (s.lateTaken site r).badWords = s.badWords ∧ (s.lateTaken site r).pid = r.part := by
  unfold State.lateTaken
  refine ⟨?_, ?_, State.focusPart_pid ..⟩
  · rw [State.focusPart_mem, State.remapAll_mem, State.putBox_mem]
  · obtain ⟨_, _, _, _, frame⟩ := (s.putBox site ((s.boxAt site).withoutLate r)).remapAll_frame
    rw [State.focusPart_badWords, frame, State.putBox_frame]

/-- Of the core whose response it is, the list differs, and the remap table. -/
theorem State.boxAt_lateTaken (s : State) (site : Nat) (r : LateRead) : ∃ remap, (s.lateTaken site r).boxAt site =
    ((s.boxAt site).withoutLate r).remapped remap := by
  obtain ⟨remap, box⟩ := (s.putBox site ((s.boxAt site).withoutLate r)).boxAt_remapAll site
  rw [State.boxAt_putBox] at box
  exact ⟨remap, (State.boxAt_focusPart ..).trans box⟩

/-- Every core runs the partition that it ran. -/
theorem State.part_lateTaken (s : State) (site : Nat) (r : LateRead) (i : Nat) :
    ((s.lateTaken site r).boxAt i).core.part = (s.boxAt i).core.part := by
  obtain ⟨remap, box⟩ := (s.putBox site ((s.boxAt site).withoutLate r)).boxAt_remapAll i
  rw [State.lateTaken, State.boxAt_focusPart, box]
  by_cases here : i = site
  · rw [here, State.boxAt_putBox]
    rfl
  · rw [State.boxAt_putBox_ne _ _ here]
    rfl

theorem State.latePlace_lateTaken (s : State) (site : Nat) (r : LateRead) : (s.lateTaken site r).latePlace r = s.latePlace r := by
  rw [State.latePlace, State.part_lateTaken, State.latePlace]

theorem State.readBad_lateTaken (s : State) (site : Nat) (r : LateRead) (k n : Nat) : (s.lateTaken site r).readBad k n = s.readBad k n := by
  rw [State.readBad, (s.lateTaken_frame site r).2.1, State.readBad]

/-- Bytes stored, or an error met, leave the cores and the partition in focus. -/
theorem State.lateStored_frame (s : State) (r : LateRead) : ∃ mem badWords flips corrections memctl, s.lateStored r =
    { s with mem := mem, badWords := badWords, flips := flips, corrections := corrections, memctl := memctl } := by
  unfold State.lateStored
  split
  · obtain ⟨memctl, met⟩ := s.meetBad_frame r.key r.bytes
    exact ⟨_, _, _, _, memctl, met⟩
  · obtain ⟨corrections, memctl, flips, corrected⟩ := s.correct_frame r.key r.bytes
    rw [corrected]
    exact ⟨_, _, _, _, _, rfl⟩

theorem State.boxAt_lateStored (s : State) (r : LateRead) (i : Nat) : (s.lateStored r).boxAt i = s.boxAt i := by
  obtain ⟨_, _, _, _, _, stored⟩ := s.lateStored_frame r
  rw [stored]
  rfl

theorem State.lateStored_mem (sound : s.readBad r.key r.bytes = false) :
    (s.lateStored r).mem = s.mem.writeBytes (s.latePlace r) (s.mem.readBytes r.key r.bytes) := by
  rw [State.lateStored, sound, if_neg Bool.false_ne_true, State.writeList, State.correct_mem]

theorem State.lateStored_mem_bad (bad : s.readBad r.key r.bytes = true) : (s.lateStored r).mem = s.mem := by
  rw [State.lateStored, bad, if_pos rfl, State.meetBad_mem]

theorem State.lateStored_pid (s : State) (r : LateRead) : (s.lateStored r).pid = s.pid := by
  obtain ⟨_, _, _, _, _, stored⟩ := s.lateStored_frame r
  rw [stored]

/-- A live core replaced in its partition is there. -/
theorem State.boxAt_putCoreOf (live : (s.boxAt site).core.part = some s.pid) : (s.putCoreOf site b).boxAt site = b := by
  rw [State.putCoreOf, if_pos live, State.boxAt_putBox]

/-- An image replaced leaves the cores. -/
theorem State.boxAt_putCoreOf_image (away : (s.boxAt site).core.part ≠ some s.pid) (i : Nat) : (s.putCoreOf site b).boxAt i = s.boxAt i := by
  rw [State.putCoreOf, if_neg away]
  rfl

/-- A pawn whose late response has come, as the statements say it. -/
theorem lateDone_pawn (r : LateRead) (bad : Bool) (now : Nat) (b : CoreBox) :
    let p := { b.core.pawns[r.slot] with suspended := false }
    (lateDone r bad now b).core.pawns[r.slot] = if bad then faultedAt p .memerr (p.netAddr 0) else Claims.stepped p [] r.bytes p.due true := by
  intro p
  refine (Vector.getElem_set_self ..).trans ?_
  rw [Pawn.slotGiven_eq]
  cases bad <;> rfl

/-- The state in which a late response has landed. -/
def State.lateLanded (s : State) (site : Nat) (r : LateRead) : State :=
  let u := (s.lateTaken site r).lateStored r
  u.putCoreOf site (lateDone r (s.readBad r.key r.bytes) u.cycle (u.coreOf site))

theorem exec_remapResponseLand (found : (s.boxAt site).core.lateReads.find? (fun q => decide (q.due ≤ s.cycle)) = some r) :
    exec (.remapResponseLand site) s = .next (s.lateLanded site r) := by
  have place (t : State) : (if ((t.boxAt r.site).core.part == some r.part) = true then spKey r.site r.off else shadowKey r.part r.site r.off) =
      t.latePlace r := if_congr beq_iff_eq rfl rfl
  refine congrArg Host.Outcome.next ?_
  rw [found, State.lateLanded, ← s.readBad_lateTaken site r]
  dsimp only
  rw [place]
  rfl

/-- The core whose response it is, as its pawn is done. -/
theorem State.boxAt_lateStored_lateTaken (s : State) (site : Nat) (r : LateRead) : ∃ remap,
    ((s.lateTaken site r).lateStored r).boxAt site = ((s.boxAt site).withoutLate r).remapped remap := by
  rw [State.boxAt_lateStored]
  exact s.boxAt_lateTaken site r

/-- Whether its partition is at the site or not, the response is in the core's list no more. -/
theorem State.lateReads_lateLanded (s : State) (site : Nat) (r : LateRead) :
    ((s.lateLanded site r).boxAt site).core.lateReads = (s.boxAt site).core.lateReads.erase r := by
  obtain ⟨remap, box⟩ := s.boxAt_lateStored_lateTaken site r
  rw [State.lateLanded]
  generalize (s.lateTaken site r).lateStored r = u at box
  by_cases live : (u.boxAt site).core.part = some u.pid
  · have here : u.coreOf site = u.boxAt site := if_pos live
    rw [State.boxAt_putCoreOf live, here, box]
    rfl
  · rw [State.boxAt_putCoreOf_image live, box]
    rfl

theorem State.mem_lateLanded (site : Nat) (sound : s.readBad r.key r.bytes = false) :
    (s.lateLanded site r).mem = s.mem.writeBytes (s.latePlace r) (s.mem.readBytes r.key r.bytes) := by
  rw [State.lateLanded, State.putCoreOf_mem, State.lateStored_mem (by rw [State.readBad_lateTaken]; exact sound), (s.lateTaken_frame site r).1,
    State.latePlace_lateTaken]

/-- A response in error leaves the bytes. -/
theorem State.mem_lateLanded_bad (site : Nat) (bad : s.readBad r.key r.bytes = true) : (s.lateLanded site r).mem = s.mem := by
  rw [State.lateLanded, State.putCoreOf_mem, State.lateStored_mem_bad (by rw [State.readBad_lateTaken]; exact bad), (s.lateTaken_frame site r).1]

/-- While its partition is at the site, the pawn of the response is done there. -/
theorem State.pawn_lateLanded (live : (s.boxAt site).core.part = some r.part) :
    let p := { (s.boxAt site).core.pawns[r.slot] with suspended := false }
    ((s.lateLanded site r).boxAt site).core.pawns[r.slot] =
      if s.readBad r.key r.bytes then faultedAt p .memerr (p.netAddr 0) else Claims.stepped p [] r.bytes p.due true := by
  obtain ⟨remap, box⟩ := s.boxAt_lateStored_lateTaken site r
  have pid : ((s.lateTaken site r).lateStored r).pid = r.part := by rw [State.lateStored_pid, (s.lateTaken_frame site r).2.2]
  rw [State.lateLanded]
  generalize (s.lateTaken site r).lateStored r = u at box pid
  have stays : (u.boxAt site).core.part = some u.pid := by
    rw [box, pid]
    exact live
  have here : u.coreOf site = ((s.boxAt site).withoutLate r).remapped remap := (if_pos stays).trans box
  dsimp only
  rw [State.boxAt_putCoreOf stays, here]
  exact lateDone_pawn r _ _ _

end

end Sys2Proof.Machine
end

section
/-! PROOFS. The obligations of spec/10_faults.md. -/

namespace Sys2Proof.Proofs

open Sys2Proof.Machine Sys2Proof.Claims

/-- Settles O17: the return by the context that it leaves, stream by stream, and ERET at turn level by the trap of its word. -/
theorem eretReturns : Obligations.EretReturns := by
  unfold Obligations.EretReturns
  intro o s on
  refine ⟨fun supervisor tip => ?_, fun turn tip handler => ?_⟩
  · obtain ⟨core, left⟩ := s.leaveTrap_frame
    refine ⟨_, (exec_eret_returns on supervisor tip).trans (congrArg _ left), rfl, rfl, rfl, rfl, rfl, rfl, fun st engine => ?_,
      sameRegs_refl s.ctx, sameTrapRegs_refl s.ctx, rfl, rfl⟩
    obtain ⟨asked, pc, held⟩ := s.returned_engine engine
    exact ⟨asked, pc, fun fine => held.trans (List.any_eq_false.2 (fun f pending => by simpa using fine f pending))⟩
  · exact ⟨_, exec_eret_barred on turn, State.trapWord_enters tip handler .priv 0⟩

/-- Settles O50: the trap due is the first of those pending, its entry goes by whether there is a handler, and a deadlock by whether one runs. -/
theorem pendingTrapsEnterTheirHandler : Obligations.PendingTrapsEnterTheirHandler := by
  unfold Obligations.PendingTrapsEnterTheirHandler
  refine ⟨?entry, ?detect, ?double⟩
  case entry =>
    intro site cx s x u free turn tip retire halted haltReq stopping urgent active pending unawaited least unlogged v at_
    have stands : u.Boundary := ⟨turn, tip, retire, halted, haltReq, stopping, urgent, active.trans (s.focus_cx site cx).symm⟩
    have due : u.trapDue = some x := stands.trapDue pending unawaited least
    have taken : exec (.trapEntry site cx) s = .next (v.enterTrapAt at_ (x.entered u.ctx.cs.pc) u.ctx.cs.pc) := by
      rw [exec_trapEntry due, State.takeTrap_eq unlogged, State.focus_cNow]
      rfl
    refine ⟨fun handler => ⟨_, taken, v.enterTrapAt_handler at_ _ _ tip handler⟩, fun absent => ?_⟩
    have retires := State.enterTrapAt_unhandled (s := v) (x := x.entered u.ctx.cs.pc) at_ u.ctx.cs.pc tip absent
    rw [PendTrap.entered_cause] at retires
    exact ⟨_, taken, retires⟩
  case detect =>
    intro site cx s u turn tip quiet
    exact ⟨asyncTrap 5 .deadlock, rfl, rfl, rfl, rfl, rfl, rfl, exec_deadlockDetect turn tip quiet⟩
  case double =>
    intro site cx s u turn tip stays quiet
    exact ⟨_, exec_handlerDeadlock turn tip stays quiet, u.enterTrapAt_double u.cycle u.ctx.cs.pc tip⟩

/-- Settles O51: each step of a swap by what it leaves of a site, a late response by where its bytes belong, time registers by the last value staged. -/
theorem swapsMoveImagesAndEpochsSetTime : Obligations.SwapsMoveImagesAndEpochsSetTime := by
  unfold Obligations.SwapsMoveImagesAndEpochsSetTime
  refine ⟨?asks, ?down, ?up, ?late, fun part r w s live => exec_timeRegisterStage live r w, ?epoch⟩
  case asks =>
    intro k p s u out live resident idle fits
    have here : u.pid = p := State.focusPart_pid ..
    obtain ⟨core, ctx, octx, cores, frame⟩ := State.askPause_setSwapped_frame here (.swap k)
    rw [s.focusPart_pauses p, s.focusPart_dtW p] at frame
    refine ⟨_, exec_partitionSwap_asks out live resident idle fits, ?_, ?_, ?_, ?_, fun i listed => ?_⟩
    · rw [frame]
      exact s.focusPart_mem p
    · rw [frame]
      exact here
    · rw [frame]
    · rw [frame]
    · rw [State.setSwapped_of_pid here]
      exact ⟨State.askPause_stops (s := u.onPart _) here _ listed, State.askPause_x (s := u.onPart _) here _ i⟩
  case down =>
    intro p i s u live asked stopped fit one site off wf
    have here : u.pid = p := State.focusPart_pid ..
    have runs : (u.boxAt i).core.part = some u.pid := State.mem_liveSites (by rw [one]; exact List.mem_singleton_self i)
    let w := u.endPause p (.swap (.swapOut p))
    have moves := (exec_partitionSwap_out_moves live asked stopped fit).trans (congrArg _ (State.swapOut_one (s := w) here one))
    have saved : w.SiteSaved (w.saveSite i).remapAll i :=
      (State.saveSite_saves (s := w) runs ((congrArg (fun b => b.toNat / 64 % 2 ^ 46) (s.focusPart_mtrbase p)).trans off)).remapAll
    obtain ⟨pid, pauses, mem, ⟨part, a, b⟩, ⟨image, found, regsA, regsB⟩⟩ := saved
    have mem' : (w.saveSite i).remapAll.mem = s.mem.moved (spKey i 0) (shadowKey p i 0) imageBytes := by
      rw [mem, ← here, ← s.focusPart_mem p]
      rfl
    refine ⟨_, image, moves, pauses.trans (congrArg (List.erase · _) (s.focusPart_pauses p)), pid.trans here, found, part, a, b, regsA, regsB, ?_⟩
    rw [mem']
    exact Memory.read_moved_down wf p site
  case up =>
    intro p i b s u fits one site sound off wf
    have here : u.pid = p := State.focusPart_pid ..
    have moves := (exec_partitionSwap_in fits).trans (congrArg _ (State.swapIn_one one))
    have restored : u.broughtIn.SiteRestored (u.broughtIn.restoreSite i b) i b := State.restoreSite_restores (s := u.broughtIn)
      ((s.focusPart_badWords p).trans sound) ((congrArg (fun b => b.toNat / 64 % 2 ^ 46) (s.focusPart_mtrbase p)).trans off)
    obtain ⟨pid, part, mem, runs, regsA, regsB⟩ := restored
    have mem' : (u.broughtIn.restoreSite i b).mem = s.mem.moved (shadowKey p i 0) (spKey i 0) imageBytes := by
      rw [mem, ← here, ← s.focusPart_mem p]
      rfl
    rw [State.broughtIn_part] at part
    refine ⟨_, moves, pid.trans here, ?_, ?_, ?_, fun since swapped => ?_, runs.trans (congrArg some here), regsA, regsB, ?_⟩
    · rw [part]
    · rw [part]
    · rw [part]
      rfl
    · rw [part, swapped, s.focusPart_dtW p]
    · rw [mem']
      exact Memory.read_moved_up wf p i
  case late =>
    intro site s r pre post b split early due p
    obtain ⟨found, rest⟩ := lateReads_split (post := post) early due
    rw [← split] at found rest
    refine ⟨_, exec_remapResponseLand found, (s.lateReads_lateLanded site r).trans rest, fun sound => ⟨State.mem_lateLanded site sound, fun runs => ?_⟩,
      fun bad => ⟨State.mem_lateLanded_bad site bad, fun runs => ?_⟩⟩
    · rw [State.pawn_lateLanded runs, sound]
      rfl
    · rw [State.pawn_lateLanded runs, bad]
      rfl
  case epoch =>
    intro p s u lastOf live resident
    have here : u.pid = p := State.focusPart_pid ..
    refine ⟨fun idle => ?asks, fun asked stopped => ?serves⟩
    case asks =>
      obtain ⟨core, ctx, octx, cores, frame⟩ := State.askPause_frame here .epoch
      rw [s.focusPart_pauses p] at frame
      refine ⟨_, exec_timeEpoch_asks live resident idle, ?_, ?_, ?_, fun i listed => State.askPause_stops here _ listed⟩
      · rw [frame]
        exact s.focusPart_mem p
      · rw [frame]
      · rw [frame]
    case serves =>
      obtain ⟨core, ctx, octx, cores, frame⟩ := State.serveEpoch_frame here
      rw [s.focusPart_pauses p] at frame
      refine ⟨_, exec_timeEpoch_serves live resident asked stopped, ?_, ?_, ?_, fun i listed => State.serveEpoch_goesOn here listed⟩
      · rw [frame]
        exact s.focusPart_mem p
      · rw [frame]
      · rw [frame]
        exact u.part.epoch_eq

end Sys2Proof.Proofs
end

section
/-! SUPPORT. Fields of words: what a format's operands read from a word, and the word that a format's operands make (R256 to R261). -/

namespace Sys2Proof

/-! ### Fields and pieces of a word -/

theorem fin_read {n v : Nat} [NeZero n] {x : Fin n} (h : v % n = x.val) : Fin.ofNat n v = x := Fin.ext h

theorem bitVec_read {n v : Nat} {x : BitVec n} (h : v % 2 ^ n = x.toNat) : BitVec.ofNat n v = x :=
  BitVec.eq_of_toNat_eq ((BitVec.toNat_ofNat ..).trans h)

theorem bool_read {v : Nat} {x : Bool} (h : v % 2 = x.toNat) : (v % 2 == 1) = x := by
  rw [h]
  cases x <;> rfl

theorem toNat_bit (v : Nat) : (v % 2 == 1).toNat = v % 2 := by
  rcases Nat.mod_two_eq_zero_or_one v with h | h <;> rw [h] <;> rfl

/-- A word below bit top, cut at the places of a falling list: each piece in its place, the last of them down to the last cut. -/
def pieces (w : Nat) : Nat → List Nat → Nat
  | _, [] => 0
  | top, lo :: rest => bits w (top - 1) lo * 2 ^ lo + pieces w lo rest

/-- The pieces of a word cut down to bit 0 make up the word. -/
theorem pieces_eq {w : Nat} : ∀ (top : Nat) (cuts : List Nat),
    (top :: cuts).Pairwise (· > ·) → (top :: cuts).getLast? = some 0 → pieces w top cuts = w % 2 ^ top
  | top, [], _, last => by
    obtain rfl : top = 0 := by simpa using last
    simp [pieces, Nat.mod_one]
  | top, lo :: rest, falls, last => by
    obtain ⟨first, falls⟩ := List.pairwise_cons.1 falls
    have below : lo < top := first lo List.mem_cons_self
    have step : 2 ^ top = 2 ^ lo * 2 ^ (top - 1 + 1 - lo) := by rw [← Nat.pow_add]; congr 1; omega
    rw [pieces, pieces_eq lo rest falls last, bits, step, Nat.mod_mul, Nat.mul_comm, Nat.add_comm]

/-! ### Each format: its fields read from a word of the format, and a word of the format from its fields -/

theorem Op.Alu.word_reads (m f : Nat) (o : Op.Alu) (hm : m < 64 := by decide) (hf : f < 128 := by decide) :
    let w := m * 2 ^ 26 + f + o.toBits
    w < 2 ^ 32 ∧ bits w 31 26 = m ∧ bits w 6 0 = f ∧ Op.Alu.ofWord w = o := by
  obtain ⟨g, rd, ra, rb, low⟩ := o
  have := g.isLt
  have := rd.isLt
  have := ra.isLt
  have := rb.isLt
  have := low.toNat_le
  simp only [bits, Op.Alu.ofWord, Op.Alu.toBits, Op.Alu.mk.injEq]
  exact ⟨by omega, by omega, by omega, fin_read (by omega), fin_read (by omega), fin_read (by omega), fin_read (by omega), bool_read (by omega)⟩

theorem Op.Alu.word_writes {m f w : Nat} (hw : w < 2 ^ 32) (major : bits w 31 26 = m) (fn : bits w 6 0 = f) :
    m * 2 ^ 26 + f + (Op.Alu.ofWord w).toBits = w := by
  have fields : (Op.Alu.ofWord w).toBits = bits w 25 23 * 2 ^ 23 + bits w 22 18 * 2 ^ 18 + bits w 17 13 * 2 ^ 13 + bits w 12 8 * 2 ^ 8 +
      bits w 7 7 * 2 ^ 7 := by
    simp only [Op.Alu.ofWord, Op.Alu.toBits, toNat_bit]
    rfl
  have whole := (pieces_eq 32 [26, 23, 18, 13, 8, 7, 0] (by decide) rfl).trans (Nat.mod_eq_of_lt hw)
  simp only [pieces, Nat.reduceSub, major, fn] at whole
  linarith only [fields, whole]

theorem Op.AluUn.word_reads (m f : Nat) (o : Op.AluUn) (hm : m < 64 := by decide) (hf : f < 128 := by decide) :
    let w := m * 2 ^ 26 + f + o.toBits
    w < 2 ^ 32 ∧ bits w 31 26 = m ∧ bits w 6 0 = f ∧ bits w 12 8 = 0 ∧ Op.AluUn.ofWord w = o := by
  obtain ⟨g, rd, ra, low⟩ := o
  have := g.isLt
  have := rd.isLt
  have := ra.isLt
  have := low.toNat_le
  simp only [bits, Op.AluUn.ofWord, Op.AluUn.toBits, Op.AluUn.mk.injEq]
  exact ⟨by omega, by omega, by omega, by omega, fin_read (by omega), fin_read (by omega), fin_read (by omega), bool_read (by omega)⟩

theorem Op.AluUn.word_writes {m f w : Nat} (hw : w < 2 ^ 32) (major : bits w 31 26 = m) (fn : bits w 6 0 = f) (zero : bits w 12 8 = 0) :
    m * 2 ^ 26 + f + (Op.AluUn.ofWord w).toBits = w := by
  have fields : (Op.AluUn.ofWord w).toBits = bits w 25 23 * 2 ^ 23 + bits w 22 18 * 2 ^ 18 + bits w 17 13 * 2 ^ 13 + bits w 7 7 * 2 ^ 7 := by
    simp only [Op.AluUn.ofWord, Op.AluUn.toBits, toNat_bit]
    rfl
  have whole := (pieces_eq 32 [26, 23, 18, 13, 8, 7, 0] (by decide) rfl).trans (Nat.mod_eq_of_lt hw)
  simp only [pieces, Nat.reduceSub, major, fn, zero] at whole
  linarith only [fields, whole]

theorem Op.Imm.word_reads (m : Nat) (o : Op.Imm) (hm : m < 64 := by decide) :
    let w := m * 2 ^ 26 + o.toBits
    w < 2 ^ 32 ∧ bits w 31 26 = m ∧ Op.Imm.ofWord w = o := by
  obtain ⟨g, rd, ra, imm⟩ := o
  have := g.isLt
  have := rd.isLt
  have := ra.isLt
  have := imm.isLt
  simp only [bits, Op.Imm.ofWord, Op.Imm.toBits, Op.Imm.mk.injEq]
  exact ⟨by omega, by omega, fin_read (by omega), fin_read (by omega), fin_read (by omega), bitVec_read (by omega)⟩

theorem Op.Imm.word_writes {m w : Nat} (hw : w < 2 ^ 32) (major : bits w 31 26 = m) :
    m * 2 ^ 26 + (Op.Imm.ofWord w).toBits = w := by
  have fields : (Op.Imm.ofWord w).toBits = bits w 25 23 * 2 ^ 23 + bits w 22 18 * 2 ^ 18 + bits w 17 13 * 2 ^ 13 + bits w 12 0 * 2 ^ 0 := by
    simp only [Op.Imm.ofWord, Op.Imm.toBits]
    rfl
  have whole := (pieces_eq 32 [26, 23, 18, 13, 0] (by decide) rfl).trans (Nat.mod_eq_of_lt hw)
  simp only [pieces, Nat.reduceSub, major] at whole
  linarith only [fields, whole]

theorem Op.ShiftImm.word_reads (m f : Nat) (o : Op.ShiftImm) (hm : m < 64 := by decide) (hf : f < 4 := by decide) :
    let w := m * 2 ^ 26 + f * 2 ^ 11 + o.toBits
    w < 2 ^ 32 ∧ bits w 31 26 = m ∧ bits w 12 11 = f ∧ bits w 10 6 = 0 ∧ Op.ShiftImm.ofWord w = o := by
  obtain ⟨g, rd, ra, amount⟩ := o
  have := g.isLt
  have := rd.isLt
  have := ra.isLt
  have := amount.isLt
  simp only [bits, Op.ShiftImm.ofWord, Op.ShiftImm.toBits, Op.ShiftImm.mk.injEq]
  exact ⟨by omega, by omega, by omega, by omega, fin_read (by omega), fin_read (by omega), fin_read (by omega), fin_read (by omega)⟩

theorem Op.ShiftImm.word_writes {m f w : Nat} (hw : w < 2 ^ 32) (major : bits w 31 26 = m) (fn : bits w 12 11 = f) (zero : bits w 10 6 = 0) :
    m * 2 ^ 26 + f * 2 ^ 11 + (Op.ShiftImm.ofWord w).toBits = w := by
  have fields : (Op.ShiftImm.ofWord w).toBits = bits w 25 23 * 2 ^ 23 + bits w 22 18 * 2 ^ 18 + bits w 17 13 * 2 ^ 13 + bits w 5 0 * 2 ^ 0 := by
    simp only [Op.ShiftImm.ofWord, Op.ShiftImm.toBits]
    rfl
  have whole := (pieces_eq 32 [26, 23, 18, 13, 11, 6, 0] (by decide) rfl).trans (Nat.mod_eq_of_lt hw)
  simp only [pieces, Nat.reduceSub, major, fn, zero] at whole
  linarith only [fields, whole]

theorem Op.Upper.word_reads (m : Nat) (o : Op.Upper) (hm : m < 64 := by decide) :
    let w := m * 2 ^ 26 + o.toBits
    w < 2 ^ 32 ∧ bits w 31 26 = m ∧ Op.Upper.ofWord w = o := by
  obtain ⟨g, rd, imm⟩ := o
  have := g.isLt
  have := rd.isLt
  have := imm.isLt
  simp only [bits, Op.Upper.ofWord, Op.Upper.toBits, Op.Upper.mk.injEq]
  exact ⟨by omega, by omega, fin_read (by omega), fin_read (by omega), bitVec_read (by omega)⟩

theorem Op.Upper.word_writes {m w : Nat} (hw : w < 2 ^ 32) (major : bits w 31 26 = m) :
    m * 2 ^ 26 + (Op.Upper.ofWord w).toBits = w := by
  have fields : (Op.Upper.ofWord w).toBits = bits w 25 23 * 2 ^ 23 + bits w 22 18 * 2 ^ 18 + bits w 17 0 * 2 ^ 0 := by
    simp only [Op.Upper.ofWord, Op.Upper.toBits]
    rfl
  have whole := (pieces_eq 32 [26, 23, 18, 0] (by decide) rfl).trans (Nat.mod_eq_of_lt hw)
  simp only [pieces, Nat.reduceSub, major] at whole
  linarith only [fields, whole]

theorem Op.Cmp.word_reads (m f : Nat) (o : Op.Cmp) (hm : m < 64 := by decide) (hf : f < 256 := by decide) :
    let w := m * 2 ^ 26 + f + o.toBits
    w < 2 ^ 32 ∧ bits w 31 26 = m ∧ bits w 7 0 = f ∧ bits w 22 21 = 0 ∧ Op.Cmp.ofWord w = o := by
  obtain ⟨g, pd, ra, rb⟩ := o
  have := g.isLt
  have := pd.isLt
  have := ra.isLt
  have := rb.isLt
  simp only [bits, Op.Cmp.ofWord, Op.Cmp.toBits, Op.Cmp.mk.injEq]
  exact ⟨by omega, by omega, by omega, by omega, fin_read (by omega), fin_read (by omega), fin_read (by omega), fin_read (by omega)⟩

theorem Op.Cmp.word_writes {m f w : Nat} (hw : w < 2 ^ 32) (major : bits w 31 26 = m) (fn : bits w 7 0 = f) (zero : bits w 22 21 = 0) :
    m * 2 ^ 26 + f + (Op.Cmp.ofWord w).toBits = w := by
  have fields : (Op.Cmp.ofWord w).toBits = bits w 25 23 * 2 ^ 23 + bits w 20 18 * 2 ^ 18 + bits w 17 13 * 2 ^ 13 + bits w 12 8 * 2 ^ 8 := by
    simp only [Op.Cmp.ofWord, Op.Cmp.toBits]
    rfl
  have whole := (pieces_eq 32 [26, 23, 21, 18, 13, 8, 0] (by decide) rfl).trans (Nat.mod_eq_of_lt hw)
  simp only [pieces, Nat.reduceSub, major, fn, zero] at whole
  linarith only [fields, whole]

theorem Op.CmpImm.word_reads (m f : Nat) (o : Op.CmpImm) (hm : m < 64 := by decide) (hf : f < 4 := by decide) :
    let w := m * 2 ^ 26 + f * 2 ^ 21 + o.toBits
    w < 2 ^ 32 ∧ bits w 31 26 = m ∧ bits w 22 21 = f ∧ Op.CmpImm.ofWord w = o := by
  obtain ⟨g, pd, ra, imm⟩ := o
  have := g.isLt
  have := pd.isLt
  have := ra.isLt
  have := imm.isLt
  simp only [bits, Op.CmpImm.ofWord, Op.CmpImm.toBits, Op.CmpImm.mk.injEq]
  exact ⟨by omega, by omega, by omega, fin_read (by omega), fin_read (by omega), fin_read (by omega), bitVec_read (by omega)⟩

theorem Op.CmpImm.word_writes {m f w : Nat} (hw : w < 2 ^ 32) (major : bits w 31 26 = m) (fn : bits w 22 21 = f) :
    m * 2 ^ 26 + f * 2 ^ 21 + (Op.CmpImm.ofWord w).toBits = w := by
  have fields : (Op.CmpImm.ofWord w).toBits = bits w 25 23 * 2 ^ 23 + bits w 20 18 * 2 ^ 18 + bits w 17 13 * 2 ^ 13 + bits w 12 0 * 2 ^ 0 := by
    simp only [Op.CmpImm.ofWord, Op.CmpImm.toBits]
    rfl
  have whole := (pieces_eq 32 [26, 23, 21, 18, 13, 0] (by decide) rfl).trans (Nat.mod_eq_of_lt hw)
  simp only [pieces, Nat.reduceSub, major, fn] at whole
  linarith only [fields, whole]

theorem Op.Pred.word_reads (m f : Nat) (o : Op.Pred) (hm : m < 64 := by decide) (hf : f < 256 := by decide) :
    let w := m * 2 ^ 26 + f + o.toBits
    w < 2 ^ 32 ∧ bits w 31 26 = m ∧ bits w 7 0 = f ∧ bits w 22 21 = 0 ∧ bits w 17 16 = 0 ∧ bits w 12 11 = 0 ∧ Op.Pred.ofWord w = o := by
  obtain ⟨g, pd, pa, pb⟩ := o
  have := g.isLt
  have := pd.isLt
  have := pa.isLt
  have := pb.isLt
  simp only [bits, Op.Pred.ofWord, Op.Pred.toBits, Op.Pred.mk.injEq]
  exact ⟨by omega, by omega, by omega, by omega, by omega, by omega, fin_read (by omega), fin_read (by omega), fin_read (by omega),
      fin_read (by omega)⟩

theorem Op.Pred.word_writes {m f w : Nat} (hw : w < 2 ^ 32) (major : bits w 31 26 = m) (fn : bits w 7 0 = f)
    (zero0 : bits w 22 21 = 0) (zero1 : bits w 17 16 = 0) (zero2 : bits w 12 11 = 0) :
    m * 2 ^ 26 + f + (Op.Pred.ofWord w).toBits = w := by
  have fields : (Op.Pred.ofWord w).toBits = bits w 25 23 * 2 ^ 23 + bits w 20 18 * 2 ^ 18 + bits w 15 13 * 2 ^ 13 + bits w 10 8 * 2 ^ 8 := by
    simp only [Op.Pred.ofWord, Op.Pred.toBits]
    rfl
  have whole := (pieces_eq 32 [26, 23, 21, 18, 16, 13, 11, 8, 0] (by decide) rfl).trans (Nat.mod_eq_of_lt hw)
  simp only [pieces, Nat.reduceSub, major, fn, zero0, zero1, zero2] at whole
  linarith only [fields, whole]

theorem Op.OneSrc.word_reads (m f : Nat) (o : Op.OneSrc) (hm : m < 64 := by decide) (hf : f < 256 := by decide) :
    let w := m * 2 ^ 26 + f + o.toBits
    w < 2 ^ 32 ∧ bits w 31 26 = m ∧ bits w 7 0 = f ∧ bits w 22 18 = 0 ∧ bits w 12 8 = 0 ∧ Op.OneSrc.ofWord w = o := by
  obtain ⟨g, ra⟩ := o
  have := g.isLt
  have := ra.isLt
  simp only [bits, Op.OneSrc.ofWord, Op.OneSrc.toBits, Op.OneSrc.mk.injEq]
  exact ⟨by omega, by omega, by omega, by omega, by omega, fin_read (by omega), fin_read (by omega)⟩

theorem Op.OneSrc.word_writes {m f w : Nat} (hw : w < 2 ^ 32) (major : bits w 31 26 = m) (fn : bits w 7 0 = f)
    (zero0 : bits w 22 18 = 0) (zero1 : bits w 12 8 = 0) :
    m * 2 ^ 26 + f + (Op.OneSrc.ofWord w).toBits = w := by
  have fields : (Op.OneSrc.ofWord w).toBits = bits w 25 23 * 2 ^ 23 + bits w 17 13 * 2 ^ 13 := by
    simp only [Op.OneSrc.ofWord, Op.OneSrc.toBits]
    rfl
  have whole := (pieces_eq 32 [26, 23, 18, 13, 8, 0] (by decide) rfl).trans (Nat.mod_eq_of_lt hw)
  simp only [pieces, Nat.reduceSub, major, fn, zero0, zero1] at whole
  linarith only [fields, whole]

theorem Op.OneDst.word_reads (m f : Nat) (o : Op.OneDst) (hm : m < 64 := by decide) (hf : f < 256 := by decide) :
    let w := m * 2 ^ 26 + f + o.toBits
    w < 2 ^ 32 ∧ bits w 31 26 = m ∧ bits w 7 0 = f ∧ bits w 17 8 = 0 ∧ Op.OneDst.ofWord w = o := by
  obtain ⟨g, rd⟩ := o
  have := g.isLt
  have := rd.isLt
  simp only [bits, Op.OneDst.ofWord, Op.OneDst.toBits, Op.OneDst.mk.injEq]
  exact ⟨by omega, by omega, by omega, by omega, fin_read (by omega), fin_read (by omega)⟩

theorem Op.OneDst.word_writes {m f w : Nat} (hw : w < 2 ^ 32) (major : bits w 31 26 = m) (fn : bits w 7 0 = f) (zero : bits w 17 8 = 0) :
    m * 2 ^ 26 + f + (Op.OneDst.ofWord w).toBits = w := by
  have fields : (Op.OneDst.ofWord w).toBits = bits w 25 23 * 2 ^ 23 + bits w 22 18 * 2 ^ 18 := by
    simp only [Op.OneDst.ofWord, Op.OneDst.toBits]
    rfl
  have whole := (pieces_eq 32 [26, 23, 18, 8, 0] (by decide) rfl).trans (Nat.mod_eq_of_lt hw)
  simp only [pieces, Nat.reduceSub, major, fn, zero] at whole
  linarith only [fields, whole]

theorem Op.Sel.word_reads (m : Nat) (o : Op.Sel) (hm : m < 64 := by decide) :
    let w := m * 2 ^ 26 + o.toBits
    w < 2 ^ 32 ∧ bits w 31 26 = m ∧ bits w 7 3 = 0 ∧ Op.Sel.ofWord w = o := by
  obtain ⟨g, rd, ra, rb, ps⟩ := o
  have := g.isLt
  have := rd.isLt
  have := ra.isLt
  have := rb.isLt
  have := ps.isLt
  simp only [bits, Op.Sel.ofWord, Op.Sel.toBits, Op.Sel.mk.injEq]
  exact ⟨by omega, by omega, by omega, fin_read (by omega), fin_read (by omega), fin_read (by omega), fin_read (by omega), fin_read (by omega)⟩

theorem Op.Sel.word_writes {m w : Nat} (hw : w < 2 ^ 32) (major : bits w 31 26 = m) (zero : bits w 7 3 = 0) :
    m * 2 ^ 26 + (Op.Sel.ofWord w).toBits = w := by
  have fields : (Op.Sel.ofWord w).toBits = bits w 25 23 * 2 ^ 23 + bits w 22 18 * 2 ^ 18 + bits w 17 13 * 2 ^ 13 + bits w 12 8 * 2 ^ 8 +
      bits w 2 0 * 2 ^ 0 := by
    simp only [Op.Sel.ofWord, Op.Sel.toBits]
    rfl
  have whole := (pieces_eq 32 [26, 23, 18, 13, 8, 3, 0] (by decide) rfl).trans (Nat.mod_eq_of_lt hw)
  simp only [pieces, Nat.reduceSub, major, zero] at whole
  linarith only [fields, whole]

theorem Op.Mem.word_reads (m : Nat) (o : Op.Mem) (hm : m < 64 := by decide) :
    let w := m * 2 ^ 26 + o.toBits
    w < 2 ^ 32 ∧ bits w 31 26 = m ∧ Op.Mem.ofWord w = o := by
  obtain ⟨g, rd, ra, tok, off⟩ := o
  have := g.isLt
  have := rd.isLt
  have := ra.isLt
  have := tok.isLt
  have := off.isLt
  simp only [bits, Op.Mem.ofWord, Op.Mem.toBits, Op.Mem.mk.injEq]
  exact ⟨by omega, by omega, fin_read (by omega), fin_read (by omega), fin_read (by omega), fin_read (by omega), bitVec_read (by omega)⟩

theorem Op.Mem.word_writes {m w : Nat} (hw : w < 2 ^ 32) (major : bits w 31 26 = m) :
    m * 2 ^ 26 + (Op.Mem.ofWord w).toBits = w := by
  have fields : (Op.Mem.ofWord w).toBits = bits w 25 23 * 2 ^ 23 + bits w 22 18 * 2 ^ 18 + bits w 17 13 * 2 ^ 13 + bits w 12 10 * 2 ^ 10 +
      bits w 9 0 * 2 ^ 0 := by
    simp only [Op.Mem.ofWord, Op.Mem.toBits]
    rfl
  have whole := (pieces_eq 32 [26, 23, 18, 13, 10, 0] (by decide) rfl).trans (Nat.mod_eq_of_lt hw)
  simp only [pieces, Nat.reduceSub, major] at whole
  linarith only [fields, whole]

theorem Op.Wait.word_reads (m : Nat) (o : Op.Wait) (hm : m < 64 := by decide) :
    let w := m * 2 ^ 26 + o.toBits
    w < 2 ^ 32 ∧ bits w 31 26 = m ∧ bits w 22 8 = 0 ∧ Op.Wait.ofWord w = o := by
  obtain ⟨g, mask⟩ := o
  have := g.isLt
  have := mask.isLt
  simp only [bits, Op.Wait.ofWord, Op.Wait.toBits, Op.Wait.mk.injEq]
  exact ⟨by omega, by omega, by omega, fin_read (by omega), bitVec_read (by omega)⟩

theorem Op.Wait.word_writes {m w : Nat} (hw : w < 2 ^ 32) (major : bits w 31 26 = m) (zero : bits w 22 8 = 0) :
    m * 2 ^ 26 + (Op.Wait.ofWord w).toBits = w := by
  have fields : (Op.Wait.ofWord w).toBits = bits w 25 23 * 2 ^ 23 + bits w 7 0 * 2 ^ 0 := by
    simp only [Op.Wait.ofWord, Op.Wait.toBits]
    rfl
  have whole := (pieces_eq 32 [26, 23, 8, 0] (by decide) rfl).trans (Nat.mod_eq_of_lt hw)
  simp only [pieces, Nat.reduceSub, major, zero] at whole
  linarith only [fields, whole]

theorem Op.Pbr.word_reads (m : Nat) (o : Op.Pbr) (hm : m < 64 := by decide) :
    let w := m * 2 ^ 26 + o.toBits
    w < 2 ^ 32 ∧ bits w 31 26 = m ∧ Op.Pbr.ofWord w = o := by
  obtain ⟨g, bt, disp⟩ := o
  have := g.isLt
  have := bt.isLt
  have := disp.isLt
  simp only [bits, Op.Pbr.ofWord, Op.Pbr.toBits, Op.Pbr.mk.injEq]
  exact ⟨by omega, by omega, fin_read (by omega), fin_read (by omega), bitVec_read (by omega)⟩

theorem Op.Pbr.word_writes {m w : Nat} (hw : w < 2 ^ 32) (major : bits w 31 26 = m) :
    m * 2 ^ 26 + (Op.Pbr.ofWord w).toBits = w := by
  have fields : (Op.Pbr.ofWord w).toBits = bits w 25 23 * 2 ^ 23 + bits w 22 20 * 2 ^ 20 + bits w 19 0 * 2 ^ 0 := by
    simp only [Op.Pbr.ofWord, Op.Pbr.toBits]
    rfl
  have whole := (pieces_eq 32 [26, 23, 20, 0] (by decide) rfl).trans (Nat.mod_eq_of_lt hw)
  simp only [pieces, Nat.reduceSub, major] at whole
  linarith only [fields, whole]

theorem Op.Pbrx.word_reads (m : Nat) (o : Op.Pbrx) (hm : m < 64 := by decide) :
    let w := m * 2 ^ 26 + o.toBits
    w < 2 ^ 32 ∧ bits w 31 26 = m ∧ bits w 22 21 = 0 ∧ bits w 12 0 = 0 ∧ Op.Pbrx.ofWord w = o := by
  obtain ⟨g, bt, ra⟩ := o
  have := g.isLt
  have := bt.isLt
  have := ra.isLt
  simp only [bits, Op.Pbrx.ofWord, Op.Pbrx.toBits, Op.Pbrx.mk.injEq]
  exact ⟨by omega, by omega, by omega, by omega, fin_read (by omega), fin_read (by omega), fin_read (by omega)⟩

theorem Op.Pbrx.word_writes {m w : Nat} (hw : w < 2 ^ 32) (major : bits w 31 26 = m) (zero0 : bits w 22 21 = 0) (zero1 : bits w 12 0 = 0) :
    m * 2 ^ 26 + (Op.Pbrx.ofWord w).toBits = w := by
  have fields : (Op.Pbrx.ofWord w).toBits = bits w 25 23 * 2 ^ 23 + bits w 20 18 * 2 ^ 18 + bits w 17 13 * 2 ^ 13 := by
    simp only [Op.Pbrx.ofWord, Op.Pbrx.toBits]
    rfl
  have whole := (pieces_eq 32 [26, 23, 21, 18, 13, 0] (by decide) rfl).trans (Nat.mod_eq_of_lt hw)
  simp only [pieces, Nat.reduceSub, major, zero0, zero1] at whole
  linarith only [fields, whole]

theorem Op.Branch.word_reads (m : Nat) (o : Op.Branch) (hm : m < 64 := by decide) :
    let w := m * 2 ^ 26 + o.toBits
    w < 2 ^ 32 ∧ bits w 31 26 = m ∧ bits w 17 0 = 0 ∧ Op.Branch.ofWord w = o := by
  obtain ⟨g, bt, hint⟩ := o
  have := g.isLt
  have := bt.isLt
  have := hint.isLt
  simp only [bits, Op.Branch.ofWord, Op.Branch.toBits, Op.Branch.mk.injEq]
  exact ⟨by omega, by omega, by omega, fin_read (by omega), fin_read (by omega), fin_read (by omega)⟩

theorem Op.Branch.word_writes {m w : Nat} (hw : w < 2 ^ 32) (major : bits w 31 26 = m) (zero : bits w 17 0 = 0) :
    m * 2 ^ 26 + (Op.Branch.ofWord w).toBits = w := by
  have fields : (Op.Branch.ofWord w).toBits = bits w 25 23 * 2 ^ 23 + bits w 22 20 * 2 ^ 20 + bits w 19 18 * 2 ^ 18 := by
    simp only [Op.Branch.ofWord, Op.Branch.toBits]
    rfl
  have whole := (pieces_eq 32 [26, 23, 20, 18, 0] (by decide) rfl).trans (Nat.mod_eq_of_lt hw)
  simp only [pieces, Nat.reduceSub, major, zero] at whole
  linarith only [fields, whole]

theorem Op.Loopc.word_reads (m : Nat) (o : Op.Loopc) (hm : m < 64 := by decide) :
    let w := m * 2 ^ 26 + o.toBits
    w < 2 ^ 32 ∧ bits w 31 26 = m ∧ bits w 12 0 = 0 ∧ Op.Loopc.ofWord w = o := by
  obtain ⟨g, bt, hint, rc⟩ := o
  have := g.isLt
  have := bt.isLt
  have := hint.isLt
  have := rc.isLt
  simp only [bits, Op.Loopc.ofWord, Op.Loopc.toBits, Op.Loopc.mk.injEq]
  exact ⟨by omega, by omega, by omega, fin_read (by omega), fin_read (by omega), fin_read (by omega), fin_read (by omega)⟩

theorem Op.Loopc.word_writes {m w : Nat} (hw : w < 2 ^ 32) (major : bits w 31 26 = m) (zero : bits w 12 0 = 0) :
    m * 2 ^ 26 + (Op.Loopc.ofWord w).toBits = w := by
  have fields : (Op.Loopc.ofWord w).toBits = bits w 25 23 * 2 ^ 23 + bits w 22 20 * 2 ^ 20 + bits w 19 18 * 2 ^ 18 + bits w 17 13 * 2 ^ 13 := by
    simp only [Op.Loopc.ofWord, Op.Loopc.toBits]
    rfl
  have whole := (pieces_eq 32 [26, 23, 20, 18, 13, 0] (by decide) rfl).trans (Nat.mod_eq_of_lt hw)
  simp only [pieces, Nat.reduceSub, major, zero] at whole
  linarith only [fields, whole]

theorem Op.Drain.word_reads (m f : Nat) (o : Op.Drain) (hm : m < 64 := by decide) (hf : f < 256 := by decide) :
    let w := m * 2 ^ 26 + f + o.toBits
    w < 2 ^ 32 ∧ bits w 31 26 = m ∧ bits w 7 0 = f ∧ bits w 22 21 = 0 ∧ bits w 17 8 = 0 ∧ Op.Drain.ofWord w = o := by
  obtain ⟨g, mask⟩ := o
  have := g.isLt
  have := mask.isLt
  simp only [bits, Op.Drain.ofWord, Op.Drain.toBits, Op.Drain.mk.injEq]
  exact ⟨by omega, by omega, by omega, by omega, by omega, fin_read (by omega), bitVec_read (by omega)⟩

theorem Op.Drain.word_writes {m f w : Nat} (hw : w < 2 ^ 32) (major : bits w 31 26 = m) (fn : bits w 7 0 = f)
    (zero0 : bits w 22 21 = 0) (zero1 : bits w 17 8 = 0) :
    m * 2 ^ 26 + f + (Op.Drain.ofWord w).toBits = w := by
  have fields : (Op.Drain.ofWord w).toBits = bits w 25 23 * 2 ^ 23 + bits w 20 18 * 2 ^ 18 := by
    simp only [Op.Drain.ofWord, Op.Drain.toBits]
    rfl
  have whole := (pieces_eq 32 [26, 23, 21, 18, 8, 0] (by decide) rfl).trans (Nat.mod_eq_of_lt hw)
  simp only [pieces, Nat.reduceSub, major, fn, zero0, zero1] at whole
  linarith only [fields, whole]

theorem Op.Bind.word_reads (m f : Nat) (o : Op.Bind) (hm : m < 64 := by decide) (hf : f < 256 := by decide) :
    let w := m * 2 ^ 26 + f + o.toBits
    w < 2 ^ 32 ∧ bits w 31 26 = m ∧ bits w 7 0 = f ∧ bits w 22 20 = 0 ∧ bits w 17 17 = 0 ∧ bits w 12 10 = 0 ∧ Op.Bind.ofWord w = o := by
  obtain ⟨g, prod, q, cons⟩ := o
  have := g.isLt
  have := prod.isLt
  have := q.isLt
  have := cons.isLt
  simp only [bits, Op.Bind.ofWord, Op.Bind.toBits, Op.Bind.mk.injEq]
  exact ⟨by omega, by omega, by omega, by omega, by omega, by omega, fin_read (by omega), fin_read (by omega), fin_read (by omega),
      fin_read (by omega)⟩

theorem Op.Bind.word_writes {m f w : Nat} (hw : w < 2 ^ 32) (major : bits w 31 26 = m) (fn : bits w 7 0 = f)
    (zero0 : bits w 22 20 = 0) (zero1 : bits w 17 17 = 0) (zero2 : bits w 12 10 = 0) :
    m * 2 ^ 26 + f + (Op.Bind.ofWord w).toBits = w := by
  have fields : (Op.Bind.ofWord w).toBits = bits w 25 23 * 2 ^ 23 + bits w 19 18 * 2 ^ 18 + bits w 16 13 * 2 ^ 13 + bits w 9 8 * 2 ^ 8 := by
    simp only [Op.Bind.ofWord, Op.Bind.toBits]
    rfl
  have whole := (pieces_eq 32 [26, 23, 20, 18, 17, 13, 10, 8, 0] (by decide) rfl).trans (Nat.mod_eq_of_lt hw)
  simp only [pieces, Nat.reduceSub, major, fn, zero0, zero1, zero2] at whole
  linarith only [fields, whole]

theorem Op.QGet.word_reads (m f : Nat) (o : Op.QGet) (hm : m < 64 := by decide) (hf : f < 256 := by decide) :
    let w := m * 2 ^ 26 + f + o.toBits
    w < 2 ^ 32 ∧ bits w 31 26 = m ∧ bits w 7 0 = f ∧ bits w 17 17 = 0 ∧ Op.QGet.ofWord w = o := by
  obtain ⟨g, rd, q, k, tok⟩ := o
  have := g.isLt
  have := rd.isLt
  have := q.isLt
  have := k.isLt
  have := tok.isLt
  simp only [bits, Op.QGet.ofWord, Op.QGet.toBits, Op.QGet.mk.injEq]
  exact ⟨by omega, by omega, by omega, by omega, fin_read (by omega), fin_read (by omega), fin_read (by omega), fin_read (by omega),
      fin_read (by omega)⟩

theorem Op.QGet.word_writes {m f w : Nat} (hw : w < 2 ^ 32) (major : bits w 31 26 = m) (fn : bits w 7 0 = f) (zero : bits w 17 17 = 0) :
    m * 2 ^ 26 + f + (Op.QGet.ofWord w).toBits = w := by
  have fields : (Op.QGet.ofWord w).toBits = bits w 25 23 * 2 ^ 23 + bits w 22 18 * 2 ^ 18 + bits w 16 13 * 2 ^ 13 + bits w 12 11 * 2 ^ 11 +
      bits w 10 8 * 2 ^ 8 := by
    simp only [Op.QGet.ofWord, Op.QGet.toBits]
    rfl
  have whole := (pieces_eq 32 [26, 23, 18, 17, 13, 11, 8, 0] (by decide) rfl).trans (Nat.mod_eq_of_lt hw)
  simp only [pieces, Nat.reduceSub, major, fn, zero] at whole
  linarith only [fields, whole]

theorem Op.QPut.word_reads (m f : Nat) (o : Op.QPut) (hm : m < 64 := by decide) (hf : f < 256 := by decide) :
    let w := m * 2 ^ 26 + f + o.toBits
    w < 2 ^ 32 ∧ bits w 31 26 = m ∧ bits w 7 0 = f ∧ bits w 17 17 = 0 ∧ Op.QPut.ofWord w = o := by
  obtain ⟨g, k, tok, q, rb⟩ := o
  have := g.isLt
  have := k.isLt
  have := tok.isLt
  have := q.isLt
  have := rb.isLt
  simp only [bits, Op.QPut.ofWord, Op.QPut.toBits, Op.QPut.mk.injEq]
  exact ⟨by omega, by omega, by omega, by omega, fin_read (by omega), fin_read (by omega), fin_read (by omega), fin_read (by omega),
      fin_read (by omega)⟩

theorem Op.QPut.word_writes {m f w : Nat} (hw : w < 2 ^ 32) (major : bits w 31 26 = m) (fn : bits w 7 0 = f) (zero : bits w 17 17 = 0) :
    m * 2 ^ 26 + f + (Op.QPut.ofWord w).toBits = w := by
  have fields : (Op.QPut.ofWord w).toBits = bits w 25 23 * 2 ^ 23 + bits w 22 21 * 2 ^ 21 + bits w 20 18 * 2 ^ 18 + bits w 16 13 * 2 ^ 13 +
      bits w 12 8 * 2 ^ 8 := by
    simp only [Op.QPut.ofWord, Op.QPut.toBits]
    rfl
  have whole := (pieces_eq 32 [26, 23, 21, 18, 17, 13, 8, 0] (by decide) rfl).trans (Nat.mod_eq_of_lt hw)
  simp only [pieces, Nat.reduceSub, major, fn, zero] at whole
  linarith only [fields, whole]

theorem Op.Token.word_reads (m f : Nat) (o : Op.Token) (hm : m < 64 := by decide) (hf : f < 256 := by decide) :
    let w := m * 2 ^ 26 + f + o.toBits
    w < 2 ^ 32 ∧ bits w 31 26 = m ∧ bits w 7 0 = f ∧ bits w 22 20 = 0 ∧ bits w 17 8 = 0 ∧ Op.Token.ofWord w = o := by
  obtain ⟨g, eng⟩ := o
  have := g.isLt
  have := eng.isLt
  simp only [bits, Op.Token.ofWord, Op.Token.toBits, Op.Token.mk.injEq]
  exact ⟨by omega, by omega, by omega, by omega, by omega, fin_read (by omega), fin_read (by omega)⟩

theorem Op.Token.word_writes {m f w : Nat} (hw : w < 2 ^ 32) (major : bits w 31 26 = m) (fn : bits w 7 0 = f)
    (zero0 : bits w 22 20 = 0) (zero1 : bits w 17 8 = 0) :
    m * 2 ^ 26 + f + (Op.Token.ofWord w).toBits = w := by
  have fields : (Op.Token.ofWord w).toBits = bits w 25 23 * 2 ^ 23 + bits w 19 18 * 2 ^ 18 := by
    simp only [Op.Token.ofWord, Op.Token.toBits]
    rfl
  have whole := (pieces_eq 32 [26, 23, 20, 18, 8, 0] (by decide) rfl).trans (Nat.mod_eq_of_lt hw)
  simp only [pieces, Nat.reduceSub, major, fn, zero0, zero1] at whole
  linarith only [fields, whole]

theorem Op.TokSrc.word_reads (m f : Nat) (o : Op.TokSrc) (hm : m < 64 := by decide) (hf : f < 256 := by decide) :
    let w := m * 2 ^ 26 + f + o.toBits
    w < 2 ^ 32 ∧ bits w 31 26 = m ∧ bits w 7 0 = f ∧ bits w 22 21 = 0 ∧ bits w 12 8 = 0 ∧ Op.TokSrc.ofWord w = o := by
  obtain ⟨g, tok, ra⟩ := o
  have := g.isLt
  have := tok.isLt
  have := ra.isLt
  simp only [bits, Op.TokSrc.ofWord, Op.TokSrc.toBits, Op.TokSrc.mk.injEq]
  exact ⟨by omega, by omega, by omega, by omega, by omega, fin_read (by omega), fin_read (by omega), fin_read (by omega)⟩

theorem Op.TokSrc.word_writes {m f w : Nat} (hw : w < 2 ^ 32) (major : bits w 31 26 = m) (fn : bits w 7 0 = f)
    (zero0 : bits w 22 21 = 0) (zero1 : bits w 12 8 = 0) :
    m * 2 ^ 26 + f + (Op.TokSrc.ofWord w).toBits = w := by
  have fields : (Op.TokSrc.ofWord w).toBits = bits w 25 23 * 2 ^ 23 + bits w 20 18 * 2 ^ 18 + bits w 17 13 * 2 ^ 13 := by
    simp only [Op.TokSrc.ofWord, Op.TokSrc.toBits]
    rfl
  have whole := (pieces_eq 32 [26, 23, 21, 18, 13, 8, 0] (by decide) rfl).trans (Nat.mod_eq_of_lt hw)
  simp only [pieces, Nat.reduceSub, major, fn, zero0, zero1] at whole
  linarith only [fields, whole]

theorem Op.TokSrc2.word_reads (m f : Nat) (o : Op.TokSrc2) (hm : m < 64 := by decide) (hf : f < 256 := by decide) :
    let w := m * 2 ^ 26 + f + o.toBits
    w < 2 ^ 32 ∧ bits w 31 26 = m ∧ bits w 7 0 = f ∧ bits w 22 21 = 0 ∧ Op.TokSrc2.ofWord w = o := by
  obtain ⟨g, tok, ra, rb⟩ := o
  have := g.isLt
  have := tok.isLt
  have := ra.isLt
  have := rb.isLt
  simp only [bits, Op.TokSrc2.ofWord, Op.TokSrc2.toBits, Op.TokSrc2.mk.injEq]
  exact ⟨by omega, by omega, by omega, by omega, fin_read (by omega), fin_read (by omega), fin_read (by omega), fin_read (by omega)⟩

theorem Op.TokSrc2.word_writes {m f w : Nat} (hw : w < 2 ^ 32) (major : bits w 31 26 = m) (fn : bits w 7 0 = f) (zero : bits w 22 21 = 0) :
    m * 2 ^ 26 + f + (Op.TokSrc2.ofWord w).toBits = w := by
  have fields : (Op.TokSrc2.ofWord w).toBits = bits w 25 23 * 2 ^ 23 + bits w 20 18 * 2 ^ 18 + bits w 17 13 * 2 ^ 13 + bits w 12 8 * 2 ^ 8 := by
    simp only [Op.TokSrc2.ofWord, Op.TokSrc2.toBits]
    rfl
  have whole := (pieces_eq 32 [26, 23, 21, 18, 13, 8, 0] (by decide) rfl).trans (Nat.mod_eq_of_lt hw)
  simp only [pieces, Nat.reduceSub, major, fn, zero] at whole
  linarith only [fields, whole]

theorem Op.Bare.word_reads (m f : Nat) (o : Op.Bare) (hm : m < 64 := by decide) (hf : f < 256 := by decide) :
    let w := m * 2 ^ 26 + f + o.toBits
    w < 2 ^ 32 ∧ bits w 31 26 = m ∧ bits w 7 0 = f ∧ bits w 22 8 = 0 ∧ Op.Bare.ofWord w = o := by
  obtain ⟨g⟩ := o
  have := g.isLt
  simp only [bits, Op.Bare.ofWord, Op.Bare.toBits, Op.Bare.mk.injEq]
  exact ⟨by omega, by omega, by omega, by omega, fin_read (by omega)⟩

theorem Op.Bare.word_writes {m f w : Nat} (hw : w < 2 ^ 32) (major : bits w 31 26 = m) (fn : bits w 7 0 = f) (zero : bits w 22 8 = 0) :
    m * 2 ^ 26 + f + (Op.Bare.ofWord w).toBits = w := by
  have fields : (Op.Bare.ofWord w).toBits = bits w 25 23 * 2 ^ 23 := by
    simp only [Op.Bare.ofWord, Op.Bare.toBits]
    rfl
  have whole := (pieces_eq 32 [26, 23, 8, 0] (by decide) rfl).trans (Nat.mod_eq_of_lt hw)
  simp only [pieces, Nat.reduceSub, major, fn, zero] at whole
  linarith only [fields, whole]

theorem Op.TwoSrc.word_reads (m f : Nat) (o : Op.TwoSrc) (hm : m < 64 := by decide) (hf : f < 256 := by decide) :
    let w := m * 2 ^ 26 + f + o.toBits
    w < 2 ^ 32 ∧ bits w 31 26 = m ∧ bits w 7 0 = f ∧ bits w 22 18 = 0 ∧ Op.TwoSrc.ofWord w = o := by
  obtain ⟨g, ra, rb⟩ := o
  have := g.isLt
  have := ra.isLt
  have := rb.isLt
  simp only [bits, Op.TwoSrc.ofWord, Op.TwoSrc.toBits, Op.TwoSrc.mk.injEq]
  exact ⟨by omega, by omega, by omega, by omega, fin_read (by omega), fin_read (by omega), fin_read (by omega)⟩

theorem Op.TwoSrc.word_writes {m f w : Nat} (hw : w < 2 ^ 32) (major : bits w 31 26 = m) (fn : bits w 7 0 = f) (zero : bits w 22 18 = 0) :
    m * 2 ^ 26 + f + (Op.TwoSrc.ofWord w).toBits = w := by
  have fields : (Op.TwoSrc.ofWord w).toBits = bits w 25 23 * 2 ^ 23 + bits w 17 13 * 2 ^ 13 + bits w 12 8 * 2 ^ 8 := by
    simp only [Op.TwoSrc.ofWord, Op.TwoSrc.toBits]
    rfl
  have whole := (pieces_eq 32 [26, 23, 18, 13, 8, 0] (by decide) rfl).trans (Nat.mod_eq_of_lt hw)
  simp only [pieces, Nat.reduceSub, major, fn, zero] at whole
  linarith only [fields, whole]

theorem Op.TokRes.word_reads (m f : Nat) (o : Op.TokRes) (hm : m < 64 := by decide) (hf : f < 256 := by decide) :
    let w := m * 2 ^ 26 + f + o.toBits
    w < 2 ^ 32 ∧ bits w 31 26 = m ∧ bits w 7 0 = f ∧ bits w 12 11 = 0 ∧ Op.TokRes.ofWord w = o := by
  obtain ⟨g, rd, ra, tok⟩ := o
  have := g.isLt
  have := rd.isLt
  have := ra.isLt
  have := tok.isLt
  simp only [bits, Op.TokRes.ofWord, Op.TokRes.toBits, Op.TokRes.mk.injEq]
  exact ⟨by omega, by omega, by omega, by omega, fin_read (by omega), fin_read (by omega), fin_read (by omega), fin_read (by omega)⟩

theorem Op.TokRes.word_writes {m f w : Nat} (hw : w < 2 ^ 32) (major : bits w 31 26 = m) (fn : bits w 7 0 = f) (zero : bits w 12 11 = 0) :
    m * 2 ^ 26 + f + (Op.TokRes.ofWord w).toBits = w := by
  have fields : (Op.TokRes.ofWord w).toBits = bits w 25 23 * 2 ^ 23 + bits w 22 18 * 2 ^ 18 + bits w 17 13 * 2 ^ 13 + bits w 10 8 * 2 ^ 8 := by
    simp only [Op.TokRes.ofWord, Op.TokRes.toBits]
    rfl
  have whole := (pieces_eq 32 [26, 23, 18, 13, 11, 8, 0] (by decide) rfl).trans (Nat.mod_eq_of_lt hw)
  simp only [pieces, Nat.reduceSub, major, fn, zero] at whole
  linarith only [fields, whole]

theorem Op.Cancel.word_reads (m f : Nat) (o : Op.Cancel) (hm : m < 64 := by decide) (hf : f < 256 := by decide) :
    let w := m * 2 ^ 26 + f + o.toBits
    w < 2 ^ 32 ∧ bits w 31 26 = m ∧ bits w 7 0 = f ∧ bits w 22 21 = 0 ∧ bits w 12 11 = 0 ∧ Op.Cancel.ofWord w = o := by
  obtain ⟨g, tok, ra, level⟩ := o
  have := g.isLt
  have := tok.isLt
  have := ra.isLt
  have := level.isLt
  simp only [bits, Op.Cancel.ofWord, Op.Cancel.toBits, Op.Cancel.mk.injEq]
  exact ⟨by omega, by omega, by omega, by omega, by omega, fin_read (by omega), fin_read (by omega), fin_read (by omega), fin_read (by omega)⟩

theorem Op.Cancel.word_writes {m f w : Nat} (hw : w < 2 ^ 32) (major : bits w 31 26 = m) (fn : bits w 7 0 = f)
    (zero0 : bits w 22 21 = 0) (zero1 : bits w 12 11 = 0) :
    m * 2 ^ 26 + f + (Op.Cancel.ofWord w).toBits = w := by
  have fields : (Op.Cancel.ofWord w).toBits = bits w 25 23 * 2 ^ 23 + bits w 20 18 * 2 ^ 18 + bits w 17 13 * 2 ^ 13 + bits w 10 8 * 2 ^ 8 := by
    simp only [Op.Cancel.ofWord, Op.Cancel.toBits]
    rfl
  have whole := (pieces_eq 32 [26, 23, 21, 18, 13, 11, 8, 0] (by decide) rfl).trans (Nat.mod_eq_of_lt hw)
  simp only [pieces, Nat.reduceSub, major, fn, zero0, zero1] at whole
  linarith only [fields, whole]

theorem Op.PawnRes.word_reads (m f : Nat) (o : Op.PawnRes) (hm : m < 64 := by decide) (hf : f < 256 := by decide) :
    let w := m * 2 ^ 26 + f + o.toBits
    w < 2 ^ 32 ∧ bits w 31 26 = m ∧ bits w 7 0 = f ∧ bits w 17 17 = 0 ∧ bits w 12 11 = 0 ∧ Op.PawnRes.ofWord w = o := by
  obtain ⟨g, rd, h, tok⟩ := o
  have := g.isLt
  have := rd.isLt
  have := h.isLt
  have := tok.isLt
  simp only [bits, Op.PawnRes.ofWord, Op.PawnRes.toBits, Op.PawnRes.mk.injEq]
  exact ⟨by omega, by omega, by omega, by omega, by omega, fin_read (by omega), fin_read (by omega), fin_read (by omega), fin_read (by omega)⟩

theorem Op.PawnRes.word_writes {m f w : Nat} (hw : w < 2 ^ 32) (major : bits w 31 26 = m) (fn : bits w 7 0 = f)
    (zero0 : bits w 17 17 = 0) (zero1 : bits w 12 11 = 0) :
    m * 2 ^ 26 + f + (Op.PawnRes.ofWord w).toBits = w := by
  have fields : (Op.PawnRes.ofWord w).toBits = bits w 25 23 * 2 ^ 23 + bits w 22 18 * 2 ^ 18 + bits w 16 13 * 2 ^ 13 + bits w 10 8 * 2 ^ 8 := by
    simp only [Op.PawnRes.ofWord, Op.PawnRes.toBits]
    rfl
  have whole := (pieces_eq 32 [26, 23, 18, 17, 13, 11, 8, 0] (by decide) rfl).trans (Nat.mod_eq_of_lt hw)
  simp only [pieces, Nat.reduceSub, major, fn, zero0, zero1] at whole
  linarith only [fields, whole]

theorem Op.PawnArg.word_reads (m f : Nat) (o : Op.PawnArg) (hm : m < 64 := by decide) (hf : f < 256 := by decide) :
    let w := m * 2 ^ 26 + f + o.toBits
    w < 2 ^ 32 ∧ bits w 31 26 = m ∧ bits w 7 0 = f ∧ bits w 22 21 = 0 ∧ bits w 17 17 = 0 ∧ Op.PawnArg.ofWord w = o := by
  obtain ⟨g, tok, h, rb⟩ := o
  have := g.isLt
  have := tok.isLt
  have := h.isLt
  have := rb.isLt
  simp only [bits, Op.PawnArg.ofWord, Op.PawnArg.toBits, Op.PawnArg.mk.injEq]
  exact ⟨by omega, by omega, by omega, by omega, by omega, fin_read (by omega), fin_read (by omega), fin_read (by omega), fin_read (by omega)⟩

theorem Op.PawnArg.word_writes {m f w : Nat} (hw : w < 2 ^ 32) (major : bits w 31 26 = m) (fn : bits w 7 0 = f)
    (zero0 : bits w 22 21 = 0) (zero1 : bits w 17 17 = 0) :
    m * 2 ^ 26 + f + (Op.PawnArg.ofWord w).toBits = w := by
  have fields : (Op.PawnArg.ofWord w).toBits = bits w 25 23 * 2 ^ 23 + bits w 20 18 * 2 ^ 18 + bits w 16 13 * 2 ^ 13 + bits w 12 8 * 2 ^ 8 := by
    simp only [Op.PawnArg.ofWord, Op.PawnArg.toBits]
    rfl
  have whole := (pieces_eq 32 [26, 23, 21, 18, 17, 13, 8, 0] (by decide) rfl).trans (Nat.mod_eq_of_lt hw)
  simp only [pieces, Nat.reduceSub, major, fn, zero0, zero1] at whole
  linarith only [fields, whole]

theorem Op.ResTok.word_reads (m f : Nat) (o : Op.ResTok) (hm : m < 64 := by decide) (hf : f < 256 := by decide) :
    let w := m * 2 ^ 26 + f + o.toBits
    w < 2 ^ 32 ∧ bits w 31 26 = m ∧ bits w 7 0 = f ∧ bits w 17 11 = 0 ∧ Op.ResTok.ofWord w = o := by
  obtain ⟨g, rd, tok⟩ := o
  have := g.isLt
  have := rd.isLt
  have := tok.isLt
  simp only [bits, Op.ResTok.ofWord, Op.ResTok.toBits, Op.ResTok.mk.injEq]
  exact ⟨by omega, by omega, by omega, by omega, fin_read (by omega), fin_read (by omega), fin_read (by omega)⟩

theorem Op.ResTok.word_writes {m f w : Nat} (hw : w < 2 ^ 32) (major : bits w 31 26 = m) (fn : bits w 7 0 = f) (zero : bits w 17 11 = 0) :
    m * 2 ^ 26 + f + (Op.ResTok.ofWord w).toBits = w := by
  have fields : (Op.ResTok.ofWord w).toBits = bits w 25 23 * 2 ^ 23 + bits w 22 18 * 2 ^ 18 + bits w 10 8 * 2 ^ 8 := by
    simp only [Op.ResTok.ofWord, Op.ResTok.toBits]
    rfl
  have whole := (pieces_eq 32 [26, 23, 18, 11, 8, 0] (by decide) rfl).trans (Nat.mod_eq_of_lt hw)
  simp only [pieces, Nat.reduceSub, major, fn, zero] at whole
  linarith only [fields, whole]

theorem Op.Coll.word_reads (m f : Nat) (o : Op.Coll) (hm : m < 64 := by decide) (hf : f < 256 := by decide) :
    let w := m * 2 ^ 26 + f + o.toBits
    w < 2 ^ 32 ∧ bits w 31 26 = m ∧ bits w 7 0 = f ∧ Op.Coll.ofWord w = o := by
  obtain ⟨g, detach, h, ra, rb⟩ := o
  have := g.isLt
  have := detach.toNat_le
  have := h.isLt
  have := ra.isLt
  have := rb.isLt
  simp only [bits, Op.Coll.ofWord, Op.Coll.toBits, Op.Coll.mk.injEq]
  exact ⟨by omega, by omega, by omega, fin_read (by omega), bool_read (by omega), fin_read (by omega), fin_read (by omega), fin_read (by omega)⟩

theorem Op.Coll.word_writes {m f w : Nat} (hw : w < 2 ^ 32) (major : bits w 31 26 = m) (fn : bits w 7 0 = f) :
    m * 2 ^ 26 + f + (Op.Coll.ofWord w).toBits = w := by
  have fields : (Op.Coll.ofWord w).toBits = bits w 25 23 * 2 ^ 23 + bits w 22 22 * 2 ^ 22 + bits w 21 18 * 2 ^ 18 + bits w 17 13 * 2 ^ 13 +
      bits w 12 8 * 2 ^ 8 := by
    simp only [Op.Coll.ofWord, Op.Coll.toBits, toNat_bit]
    rfl
  have whole := (pieces_eq 32 [26, 23, 22, 18, 13, 8, 0] (by decide) rfl).trans (Nat.mod_eq_of_lt hw)
  simp only [pieces, Nat.reduceSub, major, fn] at whole
  linarith only [fields, whole]

theorem Op.Barrier.word_reads (m f : Nat) (o : Op.Barrier) (hm : m < 64 := by decide) (hf : f < 256 := by decide) :
    let w := m * 2 ^ 26 + f + o.toBits
    w < 2 ^ 32 ∧ bits w 31 26 = m ∧ bits w 7 0 = f ∧ bits w 12 8 = 0 ∧ Op.Barrier.ofWord w = o := by
  obtain ⟨g, detach, h, ra⟩ := o
  have := g.isLt
  have := detach.toNat_le
  have := h.isLt
  have := ra.isLt
  simp only [bits, Op.Barrier.ofWord, Op.Barrier.toBits, Op.Barrier.mk.injEq]
  exact ⟨by omega, by omega, by omega, by omega, fin_read (by omega), bool_read (by omega), fin_read (by omega), fin_read (by omega)⟩

theorem Op.Barrier.word_writes {m f w : Nat} (hw : w < 2 ^ 32) (major : bits w 31 26 = m) (fn : bits w 7 0 = f) (zero : bits w 12 8 = 0) :
    m * 2 ^ 26 + f + (Op.Barrier.ofWord w).toBits = w := by
  have fields : (Op.Barrier.ofWord w).toBits = bits w 25 23 * 2 ^ 23 + bits w 22 22 * 2 ^ 22 + bits w 21 18 * 2 ^ 18 + bits w 17 13 * 2 ^ 13 := by
    simp only [Op.Barrier.ofWord, Op.Barrier.toBits, toNat_bit]
    rfl
  have whole := (pieces_eq 32 [26, 23, 22, 18, 13, 8, 0] (by decide) rfl).trans (Nat.mod_eq_of_lt hw)
  simp only [pieces, Nat.reduceSub, major, fn, zero] at whole
  linarith only [fields, whole]

theorem Op.CFence.word_reads (m : Nat) (o : Op.CFence) (hm : m < 64 := by decide) :
    let w := m * 2 ^ 26 + o.toBits
    w < 2 ^ 32 ∧ bits w 31 26 = m ∧ bits w 7 0 = 0 ∧ Op.CFence.ofWord w = o := by
  obtain ⟨g, before, after, scope⟩ := o
  have := g.isLt
  have := before.isLt
  have := after.isLt
  have := scope.isLt
  simp only [bits, Op.CFence.ofWord, Op.CFence.toBits, Op.CFence.mk.injEq]
  exact ⟨by omega, by omega, by omega, fin_read (by omega), bitVec_read (by omega), bitVec_read (by omega), fin_read (by omega)⟩

theorem Op.CFence.word_writes {m w : Nat} (hw : w < 2 ^ 32) (major : bits w 31 26 = m) (zero : bits w 7 0 = 0) :
    m * 2 ^ 26 + (Op.CFence.ofWord w).toBits = w := by
  have fields : (Op.CFence.ofWord w).toBits = bits w 25 23 * 2 ^ 23 + bits w 22 17 * 2 ^ 17 + bits w 16 11 * 2 ^ 11 + bits w 10 8 * 2 ^ 8 := by
    simp only [Op.CFence.ofWord, Op.CFence.toBits]
    rfl
  have whole := (pieces_eq 32 [26, 23, 17, 11, 8, 0] (by decide) rfl).trans (Nat.mod_eq_of_lt hw)
  simp only [pieces, Nat.reduceSub, major, zero] at whole
  linarith only [fields, whole]

theorem Op.Crr.word_reads (m f : Nat) (o : Op.Crr) (hm : m < 64 := by decide) (hf : f < 2 := by decide) :
    let w := m * 2 ^ 26 + f * 2 ^ 12 + o.toBits
    w < 2 ^ 32 ∧ bits w 31 26 = m ∧ bits w 12 12 = f ∧ bits w 17 16 = 0 ∧ Op.Crr.ofWord w = o := by
  obtain ⟨g, rd, tok, reg⟩ := o
  have := g.isLt
  have := rd.isLt
  have := tok.isLt
  have := reg.isLt
  simp only [bits, Op.Crr.ofWord, Op.Crr.toBits, Op.Crr.mk.injEq]
  exact ⟨by omega, by omega, by omega, by omega, fin_read (by omega), fin_read (by omega), fin_read (by omega), fin_read (by omega)⟩

theorem Op.Crr.word_writes {m f w : Nat} (hw : w < 2 ^ 32) (major : bits w 31 26 = m) (fn : bits w 12 12 = f) (zero : bits w 17 16 = 0) :
    m * 2 ^ 26 + f * 2 ^ 12 + (Op.Crr.ofWord w).toBits = w := by
  have fields : (Op.Crr.ofWord w).toBits = bits w 25 23 * 2 ^ 23 + bits w 22 18 * 2 ^ 18 + bits w 15 13 * 2 ^ 13 + bits w 11 0 * 2 ^ 0 := by
    simp only [Op.Crr.ofWord, Op.Crr.toBits]
    rfl
  have whole := (pieces_eq 32 [26, 23, 18, 16, 13, 12, 0] (by decide) rfl).trans (Nat.mod_eq_of_lt hw)
  simp only [pieces, Nat.reduceSub, major, fn, zero] at whole
  linarith only [fields, whole]

theorem Op.Crw.word_reads (m f : Nat) (o : Op.Crw) (hm : m < 64 := by decide) (hf : f < 2 := by decide) :
    let w := m * 2 ^ 26 + f * 2 ^ 12 + o.toBits
    w < 2 ^ 32 ∧ bits w 31 26 = m ∧ bits w 12 12 = f ∧ bits w 22 18 = 0 ∧ Op.Crw.ofWord w = o := by
  obtain ⟨g, ra, reg⟩ := o
  have := g.isLt
  have := ra.isLt
  have := reg.isLt
  simp only [bits, Op.Crw.ofWord, Op.Crw.toBits, Op.Crw.mk.injEq]
  exact ⟨by omega, by omega, by omega, by omega, fin_read (by omega), fin_read (by omega), fin_read (by omega)⟩

theorem Op.Crw.word_writes {m f w : Nat} (hw : w < 2 ^ 32) (major : bits w 31 26 = m) (fn : bits w 12 12 = f) (zero : bits w 22 18 = 0) :
    m * 2 ^ 26 + f * 2 ^ 12 + (Op.Crw.ofWord w).toBits = w := by
  have fields : (Op.Crw.ofWord w).toBits = bits w 25 23 * 2 ^ 23 + bits w 17 13 * 2 ^ 13 + bits w 11 0 * 2 ^ 0 := by
    simp only [Op.Crw.ofWord, Op.Crw.toBits]
    rfl
  have whole := (pieces_eq 32 [26, 23, 18, 13, 12, 0] (by decide) rfl).trans (Nat.mod_eq_of_lt hw)
  simp only [pieces, Nat.reduceSub, major, fn, zero] at whole
  linarith only [fields, whole]

theorem Op.Code.word_reads (m f : Nat) (o : Op.Code) (hm : m < 64 := by decide) (hf : f < 256 := by decide) :
    let w := m * 2 ^ 26 + f + o.toBits
    w < 2 ^ 32 ∧ bits w 31 26 = m ∧ bits w 7 0 = f ∧ Op.Code.ofWord w = o := by
  obtain ⟨g, code⟩ := o
  have := g.isLt
  have := code.isLt
  simp only [bits, Op.Code.ofWord, Op.Code.toBits, Op.Code.mk.injEq]
  exact ⟨by omega, by omega, by omega, fin_read (by omega), bitVec_read (by omega)⟩

theorem Op.Code.word_writes {m f w : Nat} (hw : w < 2 ^ 32) (major : bits w 31 26 = m) (fn : bits w 7 0 = f) :
    m * 2 ^ 26 + f + (Op.Code.ofWord w).toBits = w := by
  have fields : (Op.Code.ofWord w).toBits = bits w 25 23 * 2 ^ 23 + bits w 22 8 * 2 ^ 8 := by
    simp only [Op.Code.ofWord, Op.Code.toBits]
    rfl
  have whole := (pieces_eq 32 [26, 23, 8, 0] (by decide) rfl).trans (Nat.mod_eq_of_lt hw)
  simp only [pieces, Nat.reduceSub, major, fn] at whole
  linarith only [fields, whole]

theorem Op.Tq.word_reads (m : Nat) (o : Op.Tq) (hm : m < 64 := by decide) :
    let w := m * 2 ^ 26 + o.toBits
    w < 2 ^ 32 ∧ bits w 31 26 = m ∧ Op.Tq.ofWord w = o := by
  obtain ⟨sync, q, ra, ly, step⟩ := o
  have := sync.isLt
  have := q.isLt
  have := ra.isLt
  have := ly.isLt
  have := step.isLt
  simp only [bits, Op.Tq.ofWord, Op.Tq.toBits, Op.Tq.mk.injEq]
  exact ⟨by omega, by omega, fin_read (by omega), fin_read (by omega), fin_read (by omega), fin_read (by omega), bitVec_read (by omega)⟩

theorem Op.Tq.word_writes {m w : Nat} (hw : w < 2 ^ 32) (major : bits w 31 26 = m) :
    m * 2 ^ 26 + (Op.Tq.ofWord w).toBits = w := by
  have fields : (Op.Tq.ofWord w).toBits = bits w 25 23 * 2 ^ 23 + bits w 22 19 * 2 ^ 19 + bits w 18 15 * 2 ^ 15 + bits w 14 9 * 2 ^ 9 +
      bits w 8 0 * 2 ^ 0 := by
    simp only [Op.Tq.ofWord, Op.Tq.toBits]
    rfl
  have whole := (pieces_eq 32 [26, 23, 19, 15, 9, 0] (by decide) rfl).trans (Nat.mod_eq_of_lt hw)
  simp only [pieces, Nat.reduceSub, major] at whole
  linarith only [fields, whole]

theorem Op.Pref.word_reads (m : Nat) (o : Op.Pref) (hm : m < 64 := by decide) :
    let w := m * 2 ^ 26 + o.toBits
    w < 2 ^ 32 ∧ bits w 31 26 = m ∧ bits w 22 19 = 0 ∧ Op.Pref.ofWord w = o := by
  obtain ⟨sync, ra, ly, step⟩ := o
  have := sync.isLt
  have := ra.isLt
  have := ly.isLt
  have := step.isLt
  simp only [bits, Op.Pref.ofWord, Op.Pref.toBits, Op.Pref.mk.injEq]
  exact ⟨by omega, by omega, by omega, fin_read (by omega), fin_read (by omega), fin_read (by omega), bitVec_read (by omega)⟩

theorem Op.Pref.word_writes {m w : Nat} (hw : w < 2 ^ 32) (major : bits w 31 26 = m) (zero : bits w 22 19 = 0) :
    m * 2 ^ 26 + (Op.Pref.ofWord w).toBits = w := by
  have fields : (Op.Pref.ofWord w).toBits = bits w 25 23 * 2 ^ 23 + bits w 18 15 * 2 ^ 15 + bits w 14 9 * 2 ^ 9 + bits w 8 0 * 2 ^ 0 := by
    simp only [Op.Pref.ofWord, Op.Pref.toBits]
    rfl
  have whole := (pieces_eq 32 [26, 23, 19, 15, 9, 0] (by decide) rfl).trans (Nat.mod_eq_of_lt hw)
  simp only [pieces, Nat.reduceSub, major, zero] at whole
  linarith only [fields, whole]

theorem Op.Tc.word_reads (m : Nat) (o : Op.Tc) (hm : m < 64 := by decide) :
    let w := m * 2 ^ 26 + o.toBits
    w < 2 ^ 32 ∧ bits w 31 26 = m ∧ Op.Tc.ofWord w = o := by
  obtain ⟨sync, h, dst, src, ly, pri, detach, raw⟩ := o
  have := sync.isLt
  have := h.isLt
  have := dst.isLt
  have := src.isLt
  have := ly.isLt
  have := pri.isLt
  have := detach.toNat_le
  have := raw.toNat_le
  simp only [bits, Op.Tc.ofWord, Op.Tc.toBits, Op.Tc.mk.injEq]
  exact ⟨by omega, by omega, fin_read (by omega), fin_read (by omega), fin_read (by omega), fin_read (by omega), fin_read (by omega),
      fin_read (by omega), bool_read (by omega), bool_read (by omega)⟩

theorem Op.Tc.word_writes {m w : Nat} (hw : w < 2 ^ 32) (major : bits w 31 26 = m) :
    m * 2 ^ 26 + (Op.Tc.ofWord w).toBits = w := by
  have fields : (Op.Tc.ofWord w).toBits = bits w 25 23 * 2 ^ 23 + bits w 22 19 * 2 ^ 19 + bits w 18 15 * 2 ^ 15 + bits w 14 11 * 2 ^ 11 +
      bits w 10 5 * 2 ^ 5 + bits w 4 2 * 2 ^ 2 + bits w 1 1 * 2 ^ 1 + bits w 0 0 * 2 ^ 0 := by
    simp only [Op.Tc.ofWord, Op.Tc.toBits, toNat_bit]
    rfl
  have whole := (pieces_eq 32 [26, 23, 19, 15, 11, 5, 2, 1, 0] (by decide) rfl).trans (Nat.mod_eq_of_lt hw)
  simp only [pieces, Nat.reduceSub, major] at whole
  linarith only [fields, whole]

theorem Op.Tr.word_reads (m : Nat) (o : Op.Tr) (hm : m < 64 := by decide) :
    let w := m * 2 ^ 26 + o.toBits
    w < 2 ^ 32 ∧ bits w 31 26 = m ∧ bits w 8 0 = 0 ∧ Op.Tr.ofWord w = o := by
  obtain ⟨sync, h, dst, src, size⟩ := o
  have := sync.isLt
  have := h.isLt
  have := dst.isLt
  have := src.isLt
  have := size.isLt
  simp only [bits, Op.Tr.ofWord, Op.Tr.toBits, Op.Tr.mk.injEq]
  exact ⟨by omega, by omega, by omega, fin_read (by omega), fin_read (by omega), fin_read (by omega), fin_read (by omega), fin_read (by omega)⟩

theorem Op.Tr.word_writes {m w : Nat} (hw : w < 2 ^ 32) (major : bits w 31 26 = m) (zero : bits w 8 0 = 0) :
    m * 2 ^ 26 + (Op.Tr.ofWord w).toBits = w := by
  have fields : (Op.Tr.ofWord w).toBits = bits w 25 23 * 2 ^ 23 + bits w 22 19 * 2 ^ 19 + bits w 18 15 * 2 ^ 15 + bits w 14 11 * 2 ^ 11 +
      bits w 10 9 * 2 ^ 9 := by
    simp only [Op.Tr.ofWord, Op.Tr.toBits]
    rfl
  have whole := (pieces_eq 32 [26, 23, 19, 15, 11, 9, 0] (by decide) rfl).trans (Nat.mod_eq_of_lt hw)
  simp only [pieces, Nat.reduceSub, major, zero] at whole
  linarith only [fields, whole]

theorem Op.Sacc.word_reads (m f : Nat) (o : Op.Sacc) (hm : m < 64 := by decide) (hf : f < 4 := by decide) :
    let w := m * 2 ^ 26 + f * 2 ^ 21 + o.toBits
    w < 2 ^ 32 ∧ bits w 31 26 = m ∧ bits w 22 21 = f ∧ bits w 8 0 = 0 ∧ Op.Sacc.ofWord w = o := by
  obtain ⟨sync, qi, qv, ra⟩ := o
  have := sync.isLt
  have := qi.isLt
  have := qv.isLt
  have := ra.isLt
  simp only [bits, Op.Sacc.ofWord, Op.Sacc.toBits, Op.Sacc.mk.injEq]
  exact ⟨by omega, by omega, by omega, by omega, fin_read (by omega), fin_read (by omega), fin_read (by omega), fin_read (by omega)⟩

theorem Op.Sacc.word_writes {m f w : Nat} (hw : w < 2 ^ 32) (major : bits w 31 26 = m) (fn : bits w 22 21 = f) (zero : bits w 8 0 = 0) :
    m * 2 ^ 26 + f * 2 ^ 21 + (Op.Sacc.ofWord w).toBits = w := by
  have fields : (Op.Sacc.ofWord w).toBits = bits w 25 23 * 2 ^ 23 + bits w 20 17 * 2 ^ 17 + bits w 16 13 * 2 ^ 13 + bits w 12 9 * 2 ^ 9 := by
    simp only [Op.Sacc.ofWord, Op.Sacc.toBits]
    rfl
  have whole := (pieces_eq 32 [26, 23, 21, 17, 13, 9, 0] (by decide) rfl).trans (Nat.mod_eq_of_lt hw)
  simp only [pieces, Nat.reduceSub, major, fn, zero] at whole
  linarith only [fields, whole]

theorem Op.Scas.word_reads (m : Nat) (o : Op.Scas) (hm : m < 64 := by decide) :
    let w := m * 2 ^ 26 + o.toBits
    w < 2 ^ 32 ∧ bits w 31 26 = m ∧ bits w 9 0 = 0 ∧ Op.Scas.ofWord w = o := by
  obtain ⟨sync, qv, qd, ra, wide⟩ := o
  have := sync.isLt
  have := qv.isLt
  have := qd.isLt
  have := ra.isLt
  have := wide.toNat_le
  simp only [bits, Op.Scas.ofWord, Op.Scas.toBits, Op.Scas.mk.injEq]
  exact ⟨by omega, by omega, by omega, fin_read (by omega), fin_read (by omega), fin_read (by omega), fin_read (by omega), bool_read (by omega)⟩

theorem Op.Scas.word_writes {m w : Nat} (hw : w < 2 ^ 32) (major : bits w 31 26 = m) (zero : bits w 9 0 = 0) :
    m * 2 ^ 26 + (Op.Scas.ofWord w).toBits = w := by
  have fields : (Op.Scas.ofWord w).toBits = bits w 25 23 * 2 ^ 23 + bits w 22 19 * 2 ^ 19 + bits w 18 15 * 2 ^ 15 + bits w 14 11 * 2 ^ 11 +
      bits w 10 10 * 2 ^ 10 := by
    simp only [Op.Scas.ofWord, Op.Scas.toBits, toNat_bit]
    rfl
  have whole := (pieces_eq 32 [26, 23, 19, 15, 11, 10, 0] (by decide) rfl).trans (Nat.mod_eq_of_lt hw)
  simp only [pieces, Nat.reduceSub, major, zero] at whole
  linarith only [fields, whole]

theorem Op.Adda.word_reads (m : Nat) (o : Op.Adda) (hm : m < 64 := by decide) :
    let w := m * 2 ^ 26 + o.toBits
    w < 2 ^ 32 ∧ bits w 31 26 = m ∧ Op.Adda.ofWord w = o := by
  obtain ⟨sync, dst, src, imm⟩ := o
  have := sync.isLt
  have := dst.isLt
  have := src.isLt
  have := imm.isLt
  simp only [bits, Op.Adda.ofWord, Op.Adda.toBits, Op.Adda.mk.injEq]
  exact ⟨by omega, by omega, fin_read (by omega), fin_read (by omega), fin_read (by omega), bitVec_read (by omega)⟩

theorem Op.Adda.word_writes {m w : Nat} (hw : w < 2 ^ 32) (major : bits w 31 26 = m) :
    m * 2 ^ 26 + (Op.Adda.ofWord w).toBits = w := by
  have fields : (Op.Adda.ofWord w).toBits = bits w 25 23 * 2 ^ 23 + bits w 22 19 * 2 ^ 19 + bits w 18 15 * 2 ^ 15 + bits w 14 0 * 2 ^ 0 := by
    simp only [Op.Adda.ofWord, Op.Adda.toBits]
    rfl
  have whole := (pieces_eq 32 [26, 23, 19, 15, 0] (by decide) rfl).trans (Nat.mod_eq_of_lt hw)
  simp only [pieces, Nat.reduceSub, major] at whole
  linarith only [fields, whole]

theorem Op.Addar.word_reads (m : Nat) (o : Op.Addar) (hm : m < 64 := by decide) :
    let w := m * 2 ^ 26 + o.toBits
    w < 2 ^ 32 ∧ bits w 31 26 = m ∧ bits w 14 0 = 0 ∧ Op.Addar.ofWord w = o := by
  obtain ⟨sync, dst, src⟩ := o
  have := sync.isLt
  have := dst.isLt
  have := src.isLt
  simp only [bits, Op.Addar.ofWord, Op.Addar.toBits, Op.Addar.mk.injEq]
  exact ⟨by omega, by omega, by omega, fin_read (by omega), fin_read (by omega), fin_read (by omega)⟩

theorem Op.Addar.word_writes {m w : Nat} (hw : w < 2 ^ 32) (major : bits w 31 26 = m) (zero : bits w 14 0 = 0) :
    m * 2 ^ 26 + (Op.Addar.ofWord w).toBits = w := by
  have fields : (Op.Addar.ofWord w).toBits = bits w 25 23 * 2 ^ 23 + bits w 22 19 * 2 ^ 19 + bits w 18 15 * 2 ^ 15 := by
    simp only [Op.Addar.ofWord, Op.Addar.toBits]
    rfl
  have whole := (pieces_eq 32 [26, 23, 19, 15, 0] (by decide) rfl).trans (Nat.mod_eq_of_lt hw)
  simp only [pieces, Nat.reduceSub, major, zero] at whole
  linarith only [fields, whole]

theorem Op.Loop.word_reads (m : Nat) (o : Op.Loop) (hm : m < 64 := by decide) :
    let w := m * 2 ^ 26 + o.toBits
    w < 2 ^ 32 ∧ bits w 31 26 = m ∧ bits w 3 0 = 0 ∧ Op.Loop.ofWord w = o := by
  obtain ⟨sync, id, stm1, cnt, len⟩ := o
  have := sync.isLt
  have := id.isLt
  have := stm1.isLt
  have := cnt.isLt
  have := len.isLt
  simp only [bits, Op.Loop.ofWord, Op.Loop.toBits, Op.Loop.mk.injEq]
  exact ⟨by omega, by omega, by omega, fin_read (by omega), fin_read (by omega), fin_read (by omega), fin_read (by omega), fin_read (by omega)⟩

theorem Op.Loop.word_writes {m w : Nat} (hw : w < 2 ^ 32) (major : bits w 31 26 = m) (zero : bits w 3 0 = 0) :
    m * 2 ^ 26 + (Op.Loop.ofWord w).toBits = w := by
  have fields : (Op.Loop.ofWord w).toBits = bits w 25 23 * 2 ^ 23 + bits w 22 21 * 2 ^ 21 + bits w 20 18 * 2 ^ 18 + bits w 17 14 * 2 ^ 14 +
      bits w 13 4 * 2 ^ 4 := by
    simp only [Op.Loop.ofWord, Op.Loop.toBits]
    rfl
  have whole := (pieces_eq 32 [26, 23, 21, 18, 14, 4, 0] (by decide) rfl).trans (Nat.mod_eq_of_lt hw)
  simp only [pieces, Nat.reduceSub, major, zero] at whole
  linarith only [fields, whole]

theorem Op.Chan.word_reads (m : Nat) (o : Op.Chan) (hm : m < 64 := by decide) :
    let w := m * 2 ^ 26 + o.toBits
    w < 2 ^ 32 ∧ bits w 31 26 = m ∧ bits w 12 0 = 0 ∧ Op.Chan.ofWord w = o := by
  obtain ⟨sync, ch, ra⟩ := o
  have := sync.isLt
  have := ch.isLt
  have := ra.isLt
  simp only [bits, Op.Chan.ofWord, Op.Chan.toBits, Op.Chan.mk.injEq]
  exact ⟨by omega, by omega, by omega, fin_read (by omega), fin_read (by omega), fin_read (by omega)⟩

theorem Op.Chan.word_writes {m w : Nat} (hw : w < 2 ^ 32) (major : bits w 31 26 = m) (zero : bits w 12 0 = 0) :
    m * 2 ^ 26 + (Op.Chan.ofWord w).toBits = w := by
  have fields : (Op.Chan.ofWord w).toBits = bits w 25 23 * 2 ^ 23 + bits w 22 17 * 2 ^ 17 + bits w 16 13 * 2 ^ 13 := by
    simp only [Op.Chan.ofWord, Op.Chan.toBits]
    rfl
  have whole := (pieces_eq 32 [26, 23, 17, 13, 0] (by decide) rfl).trans (Nat.mod_eq_of_lt hw)
  simp only [pieces, Nat.reduceSub, major, zero] at whole
  linarith only [fields, whole]

theorem Op.Sync.word_reads (m : Nat) (o : Op.Sync) (hm : m < 64 := by decide) :
    let w := m * 2 ^ 26 + o.toBits
    w < 2 ^ 32 ∧ bits w 31 26 = m ∧ bits w 21 0 = 0 ∧ Op.Sync.ofWord w = o := by
  obtain ⟨sync, postC⟩ := o
  have := sync.isLt
  have := postC.toNat_le
  simp only [bits, Op.Sync.ofWord, Op.Sync.toBits, Op.Sync.mk.injEq]
  exact ⟨by omega, by omega, by omega, fin_read (by omega), bool_read (by omega)⟩

theorem Op.Sync.word_writes {m w : Nat} (hw : w < 2 ^ 32) (major : bits w 31 26 = m) (zero : bits w 21 0 = 0) :
    m * 2 ^ 26 + (Op.Sync.ofWord w).toBits = w := by
  have fields : (Op.Sync.ofWord w).toBits = bits w 25 23 * 2 ^ 23 + bits w 22 22 * 2 ^ 22 := by
    simp only [Op.Sync.ofWord, Op.Sync.toBits, toNat_bit]
    rfl
  have whole := (pieces_eq 32 [26, 23, 22, 0] (by decide) rfl).trans (Nat.mod_eq_of_lt hw)
  simp only [pieces, Nat.reduceSub, major, zero] at whole
  linarith only [fields, whole]

theorem Op.EFence.word_reads (m : Nat) (o : Op.EFence) (hm : m < 64 := by decide) :
    let w := m * 2 ^ 26 + o.toBits
    w < 2 ^ 32 ∧ bits w 31 26 = m ∧ bits w 7 0 = 0 ∧ Op.EFence.ofWord w = o := by
  obtain ⟨sync, before, after, scope⟩ := o
  have := sync.isLt
  have := before.isLt
  have := after.isLt
  have := scope.isLt
  simp only [bits, Op.EFence.ofWord, Op.EFence.toBits, Op.EFence.mk.injEq]
  exact ⟨by omega, by omega, by omega, fin_read (by omega), bitVec_read (by omega), bitVec_read (by omega), fin_read (by omega)⟩

theorem Op.EFence.word_writes {m w : Nat} (hw : w < 2 ^ 32) (major : bits w 31 26 = m) (zero : bits w 7 0 = 0) :
    m * 2 ^ 26 + (Op.EFence.ofWord w).toBits = w := by
  have fields : (Op.EFence.ofWord w).toBits = bits w 25 23 * 2 ^ 23 + bits w 22 17 * 2 ^ 17 + bits w 16 11 * 2 ^ 11 + bits w 10 8 * 2 ^ 8 := by
    simp only [Op.EFence.ofWord, Op.EFence.toBits]
    rfl
  have whole := (pieces_eq 32 [26, 23, 17, 11, 8, 0] (by decide) rfl).trans (Nat.mod_eq_of_lt hw)
  simp only [pieces, Nat.reduceSub, major, zero] at whole
  linarith only [fields, whole]

theorem Op.EBare.word_reads (m : Nat) (o : Op.EBare) (hm : m < 64 := by decide) :
    let w := m * 2 ^ 26 + o.toBits
    w < 2 ^ 32 ∧ bits w 31 26 = m ∧ bits w 22 0 = 0 ∧ Op.EBare.ofWord w = o := by
  obtain ⟨sync⟩ := o
  have := sync.isLt
  simp only [bits, Op.EBare.ofWord, Op.EBare.toBits, Op.EBare.mk.injEq]
  exact ⟨by omega, by omega, by omega, fin_read (by omega)⟩

theorem Op.EBare.word_writes {m w : Nat} (hw : w < 2 ^ 32) (major : bits w 31 26 = m) (zero : bits w 22 0 = 0) :
    m * 2 ^ 26 + (Op.EBare.ofWord w).toBits = w := by
  have fields : (Op.EBare.ofWord w).toBits = bits w 25 23 * 2 ^ 23 := by
    simp only [Op.EBare.ofWord, Op.EBare.toBits]
    rfl
  have whole := (pieces_eq 32 [26, 23, 0] (by decide) rfl).trans (Nat.mod_eq_of_lt hw)
  simp only [pieces, Nat.reduceSub, major, zero] at whole
  linarith only [fields, whole]

theorem Op.Waith.word_reads (m : Nat) (o : Op.Waith) (hm : m < 64 := by decide) :
    let w := m * 2 ^ 26 + o.toBits
    w < 2 ^ 32 ∧ bits w 31 26 = m ∧ bits w 18 0 = 0 ∧ Op.Waith.ofWord w = o := by
  obtain ⟨sync, h⟩ := o
  have := sync.isLt
  have := h.isLt
  simp only [bits, Op.Waith.ofWord, Op.Waith.toBits, Op.Waith.mk.injEq]
  exact ⟨by omega, by omega, by omega, fin_read (by omega), fin_read (by omega)⟩

theorem Op.Waith.word_writes {m w : Nat} (hw : w < 2 ^ 32) (major : bits w 31 26 = m) (zero : bits w 18 0 = 0) :
    m * 2 ^ 26 + (Op.Waith.ofWord w).toBits = w := by
  have fields : (Op.Waith.ofWord w).toBits = bits w 25 23 * 2 ^ 23 + bits w 22 19 * 2 ^ 19 := by
    simp only [Op.Waith.ofWord, Op.Waith.toBits]
    rfl
  have whole := (pieces_eq 32 [26, 23, 19, 0] (by decide) rfl).trans (Nat.mod_eq_of_lt hw)
  simp only [pieces, Nat.reduceSub, major, zero] at whole
  linarith only [fields, whole]

theorem Op.NsetLevel.word_reads (m : Nat) (o : Op.NsetLevel) (hm : m < 64 := by decide) :
    let w := m * 2 ^ 26 + o.toBits
    w < 2 ^ 32 ∧ bits w 31 26 = m ∧ bits w 22 20 = o.level.val ∧ bits w 17 17 = 0 ∧ Op.NsetLevel.ofWord w = o := by
  obtain ⟨sync, level, field, v⟩ := o
  have := sync.isLt
  have := level.isLt
  have := field.isLt
  have := v.isLt
  simp only [bits, Op.NsetLevel.ofWord, Op.NsetLevel.toBits, Op.NsetLevel.mk.injEq]
  exact ⟨by omega, by omega, by omega, by omega, fin_read (by omega), fin_read (by omega), fin_read (by omega), bitVec_read (by omega)⟩

theorem Op.NsetLevel.word_writes {m w : Nat} (hw : w < 2 ^ 32) (major : bits w 31 26 = m) (zero : bits w 17 17 = 0) :
    m * 2 ^ 26 + (Op.NsetLevel.ofWord w).toBits = w := by
  have fields : (Op.NsetLevel.ofWord w).toBits = bits w 25 23 * 2 ^ 23 + bits w 22 20 * 2 ^ 20 + bits w 19 18 * 2 ^ 18 + bits w 16 0 * 2 ^ 0 := by
    simp only [Op.NsetLevel.ofWord, Op.NsetLevel.toBits]
    rfl
  have whole := (pieces_eq 32 [26, 23, 20, 18, 17, 0] (by decide) rfl).trans (Nat.mod_eq_of_lt hw)
  simp only [pieces, Nat.reduceSub, major, zero] at whole
  linarith only [fields, whole]

theorem Op.NsetIns.word_reads (m f : Nat) (o : Op.NsetIns) (hm : m < 64 := by decide) (hf : f < 8 := by decide) :
    let w := m * 2 ^ 26 + f * 2 ^ 20 + o.toBits
    w < 2 ^ 32 ∧ bits w 31 26 = m ∧ bits w 22 20 = f ∧ bits w 17 17 = 0 ∧ Op.NsetIns.ofWord w = o := by
  obtain ⟨sync, mb, v⟩ := o
  have := sync.isLt
  have := mb.isLt
  have := v.isLt
  simp only [bits, Op.NsetIns.ofWord, Op.NsetIns.toBits, Op.NsetIns.mk.injEq]
  exact ⟨by omega, by omega, by omega, by omega, fin_read (by omega), fin_read (by omega), bitVec_read (by omega)⟩

theorem Op.NsetIns.word_writes {m f w : Nat} (hw : w < 2 ^ 32) (major : bits w 31 26 = m) (fn : bits w 22 20 = f) (zero : bits w 17 17 = 0) :
    m * 2 ^ 26 + f * 2 ^ 20 + (Op.NsetIns.ofWord w).toBits = w := by
  have fields : (Op.NsetIns.ofWord w).toBits = bits w 25 23 * 2 ^ 23 + bits w 19 18 * 2 ^ 18 + bits w 16 0 * 2 ^ 0 := by
    simp only [Op.NsetIns.ofWord, Op.NsetIns.toBits]
    rfl
  have whole := (pieces_eq 32 [26, 23, 20, 18, 17, 0] (by decide) rfl).trans (Nat.mod_eq_of_lt hw)
  simp only [pieces, Nat.reduceSub, major, fn, zero] at whole
  linarith only [fields, whole]

theorem Op.NsetFmt.word_reads (m f : Nat) (o : Op.NsetFmt) (hm : m < 64 := by decide) (hf : f < 8 := by decide) :
    let w := m * 2 ^ 26 + f * 2 ^ 20 + o.toBits
    w < 2 ^ 32 ∧ bits w 31 26 = m ∧ bits w 22 20 = f ∧ bits w 19 19 = 0 ∧ bits w 17 4 = 0 ∧ Op.NsetFmt.ofWord w = o := by
  obtain ⟨sync, isB, v⟩ := o
  have := sync.isLt
  have := isB.toNat_le
  have := v.isLt
  simp only [bits, Op.NsetFmt.ofWord, Op.NsetFmt.toBits, Op.NsetFmt.mk.injEq]
  exact ⟨by omega, by omega, by omega, by omega, by omega, fin_read (by omega), bool_read (by omega), fin_read (by omega)⟩

theorem Op.NsetFmt.word_writes {m f w : Nat} (hw : w < 2 ^ 32) (major : bits w 31 26 = m) (fn : bits w 22 20 = f)
    (zero0 : bits w 19 19 = 0) (zero1 : bits w 17 4 = 0) :
    m * 2 ^ 26 + f * 2 ^ 20 + (Op.NsetFmt.ofWord w).toBits = w := by
  have fields : (Op.NsetFmt.ofWord w).toBits = bits w 25 23 * 2 ^ 23 + bits w 18 18 * 2 ^ 18 + bits w 3 0 * 2 ^ 0 := by
    simp only [Op.NsetFmt.ofWord, Op.NsetFmt.toBits, toNat_bit]
    rfl
  have whole := (pieces_eq 32 [26, 23, 20, 19, 18, 4, 0] (by decide) rfl).trans (Nat.mod_eq_of_lt hw)
  simp only [pieces, Nat.reduceSub, major, fn, zero0, zero1] at whole
  linarith only [fields, whole]

theorem Op.Mgo.word_reads (m : Nat) (o : Op.Mgo) (hm : m < 64 := by decide) :
    let w := m * 2 ^ 26 + o.toBits
    w < 2 ^ 32 ∧ bits w 31 26 = m ∧ bits w 3 0 = 0 ∧ Op.Mgo.ofWord w = o := by
  obtain ⟨sync, h, mba, mbb, t, acc, pri, detach, depm1, mc⟩ := o
  have := sync.isLt
  have := h.isLt
  have := mba.isLt
  have := mbb.isLt
  have := t.isLt
  have := acc.toNat_le
  have := pri.isLt
  have := detach.toNat_le
  have := depm1.isLt
  have := mc.toNat_le
  simp only [bits, Op.Mgo.ofWord, Op.Mgo.toBits, Op.Mgo.mk.injEq]
  exact ⟨by omega, by omega, by omega, fin_read (by omega), fin_read (by omega), fin_read (by omega), fin_read (by omega), fin_read (by omega),
      bool_read (by omega), fin_read (by omega), bool_read (by omega), fin_read (by omega), bool_read (by omega)⟩

theorem Op.Mgo.word_writes {m w : Nat} (hw : w < 2 ^ 32) (major : bits w 31 26 = m) (zero : bits w 3 0 = 0) :
    m * 2 ^ 26 + (Op.Mgo.ofWord w).toBits = w := by
  have fields : (Op.Mgo.ofWord w).toBits = bits w 25 23 * 2 ^ 23 + bits w 22 19 * 2 ^ 19 + bits w 18 17 * 2 ^ 17 + bits w 16 15 * 2 ^ 15 +
      bits w 14 13 * 2 ^ 13 + bits w 12 12 * 2 ^ 12 + bits w 11 9 * 2 ^ 9 + bits w 8 8 * 2 ^ 8 + bits w 7 5 * 2 ^ 5 + bits w 4 4 * 2 ^ 4 := by
    simp only [Op.Mgo.ofWord, Op.Mgo.toBits, toNat_bit]
    rfl
  have whole := (pieces_eq 32 [26, 23, 19, 17, 15, 13, 12, 9, 8, 5, 4, 0] (by decide) rfl).trans (Nat.mod_eq_of_lt hw)
  simp only [pieces, Nat.reduceSub, major, zero] at whole
  linarith only [fields, whole]

theorem Op.Mzero.word_reads (m : Nat) (o : Op.Mzero) (hm : m < 64 := by decide) :
    let w := m * 2 ^ 26 + o.toBits
    w < 2 ^ 32 ∧ bits w 31 26 = m ∧ bits w 20 0 = 0 ∧ Op.Mzero.ofWord w = o := by
  obtain ⟨sync, t⟩ := o
  have := sync.isLt
  have := t.isLt
  simp only [bits, Op.Mzero.ofWord, Op.Mzero.toBits, Op.Mzero.mk.injEq]
  exact ⟨by omega, by omega, by omega, fin_read (by omega), fin_read (by omega)⟩

theorem Op.Mzero.word_writes {m w : Nat} (hw : w < 2 ^ 32) (major : bits w 31 26 = m) (zero : bits w 20 0 = 0) :
    m * 2 ^ 26 + (Op.Mzero.ofWord w).toBits = w := by
  have fields : (Op.Mzero.ofWord w).toBits = bits w 25 23 * 2 ^ 23 + bits w 22 21 * 2 ^ 21 := by
    simp only [Op.Mzero.ofWord, Op.Mzero.toBits]
    rfl
  have whole := (pieces_eq 32 [26, 23, 21, 0] (by decide) rfl).trans (Nat.mod_eq_of_lt hw)
  simp only [pieces, Nat.reduceSub, major, zero] at whole
  linarith only [fields, whole]

theorem Op.Mc.word_reads (m : Nat) (o : Op.Mc) (hm : m < 64 := by decide) :
    let w := m * 2 ^ 26 + o.toBits
    w < 2 ^ 32 ∧ bits w 31 26 = m ∧ bits w 4 0 = 0 ∧ Op.Mc.ofWord w = o := by
  obtain ⟨sync, h, mb, t, ly, pri, detach⟩ := o
  have := sync.isLt
  have := h.isLt
  have := mb.isLt
  have := t.isLt
  have := ly.isLt
  have := pri.isLt
  have := detach.toNat_le
  simp only [bits, Op.Mc.ofWord, Op.Mc.toBits, Op.Mc.mk.injEq]
  exact ⟨by omega, by omega, by omega, fin_read (by omega), fin_read (by omega), fin_read (by omega), fin_read (by omega), fin_read (by omega),
      fin_read (by omega), bool_read (by omega)⟩

theorem Op.Mc.word_writes {m w : Nat} (hw : w < 2 ^ 32) (major : bits w 31 26 = m) (zero : bits w 4 0 = 0) :
    m * 2 ^ 26 + (Op.Mc.ofWord w).toBits = w := by
  have fields : (Op.Mc.ofWord w).toBits = bits w 25 23 * 2 ^ 23 + bits w 22 19 * 2 ^ 19 + bits w 18 17 * 2 ^ 17 + bits w 16 15 * 2 ^ 15 +
      bits w 14 9 * 2 ^ 9 + bits w 8 6 * 2 ^ 6 + bits w 5 5 * 2 ^ 5 := by
    simp only [Op.Mc.ofWord, Op.Mc.toBits, toNat_bit]
    rfl
  have whole := (pieces_eq 32 [26, 23, 19, 17, 15, 9, 6, 5, 0] (by decide) rfl).trans (Nat.mod_eq_of_lt hw)
  simp only [pieces, Nat.reduceSub, major, zero] at whole
  linarith only [fields, whole]

theorem Op.Accmul.word_reads (m : Nat) (o : Op.Accmul) (hm : m < 64 := by decide) :
    let w := m * 2 ^ 26 + o.toBits
    w < 2 ^ 32 ∧ bits w 31 26 = m ∧ bits w 3 0 = 0 ∧ Op.Accmul.ofWord w = o := by
  obtain ⟨sync, h, mb, t, ly, pri, detach, axis⟩ := o
  have := sync.isLt
  have := h.isLt
  have := mb.isLt
  have := t.isLt
  have := ly.isLt
  have := pri.isLt
  have := detach.toNat_le
  have := axis.toNat_le
  simp only [bits, Op.Accmul.ofWord, Op.Accmul.toBits, Op.Accmul.mk.injEq]
  exact ⟨by omega, by omega, by omega, fin_read (by omega), fin_read (by omega), fin_read (by omega), fin_read (by omega), fin_read (by omega),
      fin_read (by omega), bool_read (by omega), bool_read (by omega)⟩

theorem Op.Accmul.word_writes {m w : Nat} (hw : w < 2 ^ 32) (major : bits w 31 26 = m) (zero : bits w 3 0 = 0) :
    m * 2 ^ 26 + (Op.Accmul.ofWord w).toBits = w := by
  have fields : (Op.Accmul.ofWord w).toBits = bits w 25 23 * 2 ^ 23 + bits w 22 19 * 2 ^ 19 + bits w 18 17 * 2 ^ 17 + bits w 16 15 * 2 ^ 15 +
      bits w 14 9 * 2 ^ 9 + bits w 8 6 * 2 ^ 6 + bits w 5 5 * 2 ^ 5 + bits w 4 4 * 2 ^ 4 := by
    simp only [Op.Accmul.ofWord, Op.Accmul.toBits, toNat_bit]
    rfl
  have whole := (pieces_eq 32 [26, 23, 19, 17, 15, 9, 6, 5, 4, 0] (by decide) rfl).trans (Nat.mod_eq_of_lt hw)
  simp only [pieces, Nat.reduceSub, major, zero] at whole
  linarith only [fields, whole]

theorem Op.MLoop.word_reads (m : Nat) (o : Op.MLoop) (hm : m < 64 := by decide) :
    let w := m * 2 ^ 26 + o.toBits
    w < 2 ^ 32 ∧ bits w 31 26 = m ∧ bits w 17 16 = 0 ∧ bits w 3 0 = 0 ∧ Op.MLoop.ofWord w = o := by
  obtain ⟨sync, id, stm1, mb, len⟩ := o
  have := sync.isLt
  have := id.isLt
  have := stm1.isLt
  have := mb.isLt
  have := len.isLt
  simp only [bits, Op.MLoop.ofWord, Op.MLoop.toBits, Op.MLoop.mk.injEq]
  exact ⟨by omega, by omega, by omega, by omega, fin_read (by omega), fin_read (by omega), fin_read (by omega), fin_read (by omega),
      fin_read (by omega)⟩

theorem Op.MLoop.word_writes {m w : Nat} (hw : w < 2 ^ 32) (major : bits w 31 26 = m) (zero0 : bits w 17 16 = 0) (zero1 : bits w 3 0 = 0) :
    m * 2 ^ 26 + (Op.MLoop.ofWord w).toBits = w := by
  have fields : (Op.MLoop.ofWord w).toBits = bits w 25 23 * 2 ^ 23 + bits w 22 21 * 2 ^ 21 + bits w 20 18 * 2 ^ 18 + bits w 15 14 * 2 ^ 14 +
      bits w 13 4 * 2 ^ 4 := by
    simp only [Op.MLoop.ofWord, Op.MLoop.toBits]
    rfl
  have whole := (pieces_eq 32 [26, 23, 21, 18, 16, 14, 4, 0] (by decide) rfl).trans (Nat.mod_eq_of_lt hw)
  simp only [pieces, Nat.reduceSub, major, zero0, zero1] at whole
  linarith only [fields, whole]

theorem Op.Vv.word_reads (m f : Nat) (o : Op.Vv) (hm : m < 64 := by decide) (hf : f < 64 := by decide) :
    let w := m * 2 ^ 26 + f + o.toBits
    w < 2 ^ 32 ∧ bits w 31 26 = m ∧ bits w 5 0 = f ∧ Op.Vv.ofWord w = o := by
  obtain ⟨sync, qd, qa, qb, mask, pka, pkb⟩ := o
  have := sync.isLt
  have := qd.isLt
  have := qa.isLt
  have := qb.isLt
  have := mask.isLt
  have := pka.toNat_le
  have := pkb.toNat_le
  simp only [bits, Op.Vv.ofWord, Op.Vv.toBits, Op.Vv.mk.injEq]
  exact ⟨by omega, by omega, by omega, fin_read (by omega), fin_read (by omega), fin_read (by omega), fin_read (by omega), fin_read (by omega),
      bool_read (by omega), bool_read (by omega)⟩

theorem Op.Vv.word_writes {m f w : Nat} (hw : w < 2 ^ 32) (major : bits w 31 26 = m) (fn : bits w 5 0 = f) :
    m * 2 ^ 26 + f + (Op.Vv.ofWord w).toBits = w := by
  have fields : (Op.Vv.ofWord w).toBits = bits w 25 23 * 2 ^ 23 + bits w 22 19 * 2 ^ 19 + bits w 18 15 * 2 ^ 15 + bits w 14 11 * 2 ^ 11 +
      bits w 10 8 * 2 ^ 8 + bits w 7 7 * 2 ^ 7 + bits w 6 6 * 2 ^ 6 := by
    simp only [Op.Vv.ofWord, Op.Vv.toBits, toNat_bit]
    rfl
  have whole := (pieces_eq 32 [26, 23, 19, 15, 11, 8, 7, 6, 0] (by decide) rfl).trans (Nat.mod_eq_of_lt hw)
  simp only [pieces, Nat.reduceSub, major, fn] at whole
  linarith only [fields, whole]

theorem Op.Vu.word_reads (m f : Nat) (o : Op.Vu) (hm : m < 64 := by decide) (hf : f < 64 := by decide) :
    let w := m * 2 ^ 26 + f + o.toBits
    w < 2 ^ 32 ∧ bits w 31 26 = m ∧ bits w 5 0 = f ∧ bits w 14 11 = 0 ∧ bits w 6 6 = 0 ∧ Op.Vu.ofWord w = o := by
  obtain ⟨sync, qd, qa, mask, pka⟩ := o
  have := sync.isLt
  have := qd.isLt
  have := qa.isLt
  have := mask.isLt
  have := pka.toNat_le
  simp only [bits, Op.Vu.ofWord, Op.Vu.toBits, Op.Vu.mk.injEq]
  exact ⟨by omega, by omega, by omega, by omega, by omega, fin_read (by omega), fin_read (by omega), fin_read (by omega), fin_read (by omega),
      bool_read (by omega)⟩

theorem Op.Vu.word_writes {m f w : Nat} (hw : w < 2 ^ 32) (major : bits w 31 26 = m) (fn : bits w 5 0 = f)
    (zero0 : bits w 14 11 = 0) (zero1 : bits w 6 6 = 0) :
    m * 2 ^ 26 + f + (Op.Vu.ofWord w).toBits = w := by
  have fields : (Op.Vu.ofWord w).toBits = bits w 25 23 * 2 ^ 23 + bits w 22 19 * 2 ^ 19 + bits w 18 15 * 2 ^ 15 + bits w 10 8 * 2 ^ 8 +
      bits w 7 7 * 2 ^ 7 := by
    simp only [Op.Vu.ofWord, Op.Vu.toBits, toNat_bit]
    rfl
  have whole := (pieces_eq 32 [26, 23, 19, 15, 11, 8, 7, 6, 0] (by decide) rfl).trans (Nat.mod_eq_of_lt hw)
  simp only [pieces, Nat.reduceSub, major, fn, zero0, zero1] at whole
  linarith only [fields, whole]

theorem Op.Vc.word_reads (m f : Nat) (o : Op.Vc) (hm : m < 64 := by decide) (hf : f < 8 := by decide) :
    let w := m * 2 ^ 26 + f + o.toBits
    w < 2 ^ 32 ∧ bits w 31 26 = m ∧ bits w 2 0 = f ∧ bits w 19 19 = 0 ∧ bits w 5 5 = 0 ∧ Op.Vc.ofWord w = o := by
  obtain ⟨sync, md, qa, qb, mask, pka, pkb, uns, int⟩ := o
  have := sync.isLt
  have := md.isLt
  have := qa.isLt
  have := qb.isLt
  have := mask.isLt
  have := pka.toNat_le
  have := pkb.toNat_le
  have := uns.toNat_le
  have := int.toNat_le
  simp only [bits, Op.Vc.ofWord, Op.Vc.toBits, Op.Vc.mk.injEq]
  exact ⟨by omega, by omega, by omega, by omega, by omega, fin_read (by omega), fin_read (by omega), fin_read (by omega), fin_read (by omega),
      fin_read (by omega), bool_read (by omega), bool_read (by omega), bool_read (by omega), bool_read (by omega)⟩

theorem Op.Vc.word_writes {m f w : Nat} (hw : w < 2 ^ 32) (major : bits w 31 26 = m) (fn : bits w 2 0 = f)
    (zero0 : bits w 19 19 = 0) (zero1 : bits w 5 5 = 0) :
    m * 2 ^ 26 + f + (Op.Vc.ofWord w).toBits = w := by
  have fields : (Op.Vc.ofWord w).toBits = bits w 25 23 * 2 ^ 23 + bits w 22 20 * 2 ^ 20 + bits w 18 15 * 2 ^ 15 + bits w 14 11 * 2 ^ 11 +
      bits w 10 8 * 2 ^ 8 + bits w 7 7 * 2 ^ 7 + bits w 6 6 * 2 ^ 6 + bits w 4 4 * 2 ^ 4 + bits w 3 3 * 2 ^ 3 := by
    simp only [Op.Vc.ofWord, Op.Vc.toBits, toNat_bit]
    rfl
  have whole := (pieces_eq 32 [26, 23, 20, 19, 15, 11, 8, 7, 6, 5, 4, 3, 0] (by decide) rfl).trans (Nat.mod_eq_of_lt hw)
  simp only [pieces, Nat.reduceSub, major, fn, zero0, zero1] at whole
  linarith only [fields, whole]

theorem Op.Vs.word_reads (m f : Nat) (o : Op.Vs) (hm : m < 64 := by decide) (hf : f < 128 := by decide) :
    let w := m * 2 ^ 26 + f + o.toBits
    w < 2 ^ 32 ∧ bits w 31 26 = m ∧ bits w 6 0 = f ∧ Op.Vs.ofWord w = o := by
  obtain ⟨sync, qd, qa, sr, mask, pka⟩ := o
  have := sync.isLt
  have := qd.isLt
  have := qa.isLt
  have := sr.isLt
  have := mask.isLt
  have := pka.toNat_le
  simp only [bits, Op.Vs.ofWord, Op.Vs.toBits, Op.Vs.mk.injEq]
  exact ⟨by omega, by omega, by omega, fin_read (by omega), fin_read (by omega), fin_read (by omega), fin_read (by omega), fin_read (by omega),
      bool_read (by omega)⟩

theorem Op.Vs.word_writes {m f w : Nat} (hw : w < 2 ^ 32) (major : bits w 31 26 = m) (fn : bits w 6 0 = f) :
    m * 2 ^ 26 + f + (Op.Vs.ofWord w).toBits = w := by
  have fields : (Op.Vs.ofWord w).toBits = bits w 25 23 * 2 ^ 23 + bits w 22 19 * 2 ^ 19 + bits w 18 15 * 2 ^ 15 + bits w 14 11 * 2 ^ 11 +
      bits w 10 8 * 2 ^ 8 + bits w 7 7 * 2 ^ 7 := by
    simp only [Op.Vs.ofWord, Op.Vs.toBits, toNat_bit]
    rfl
  have whole := (pieces_eq 32 [26, 23, 19, 15, 11, 8, 7, 0] (by decide) rfl).trans (Nat.mod_eq_of_lt hw)
  simp only [pieces, Nat.reduceSub, major, fn] at whole
  linarith only [fields, whole]

theorem Op.Vi.word_reads (m : Nat) (o : Op.Vi) (hm : m < 64 := by decide) :
    let w := m * 2 ^ 26 + o.toBits
    w < 2 ^ 32 ∧ bits w 31 26 = m ∧ Op.Vi.ofWord w = o := by
  obtain ⟨sync, qd, qa, mask, pka, imm⟩ := o
  have := sync.isLt
  have := qd.isLt
  have := qa.isLt
  have := mask.isLt
  have := pka.toNat_le
  have := imm.isLt
  simp only [bits, Op.Vi.ofWord, Op.Vi.toBits, Op.Vi.mk.injEq]
  exact ⟨by omega, by omega, fin_read (by omega), fin_read (by omega), fin_read (by omega), fin_read (by omega), bool_read (by omega),
      bitVec_read (by omega)⟩

theorem Op.Vi.word_writes {m w : Nat} (hw : w < 2 ^ 32) (major : bits w 31 26 = m) :
    m * 2 ^ 26 + (Op.Vi.ofWord w).toBits = w := by
  have fields : (Op.Vi.ofWord w).toBits = bits w 25 23 * 2 ^ 23 + bits w 22 19 * 2 ^ 19 + bits w 18 15 * 2 ^ 15 + bits w 14 12 * 2 ^ 12 +
      bits w 11 11 * 2 ^ 11 + bits w 10 0 * 2 ^ 0 := by
    simp only [Op.Vi.ofWord, Op.Vi.toBits, toNat_bit]
    rfl
  have whole := (pieces_eq 32 [26, 23, 19, 15, 12, 11, 0] (by decide) rfl).trans (Nat.mod_eq_of_lt hw)
  simp only [pieces, Nat.reduceSub, major] at whole
  linarith only [fields, whole]

theorem Op.Vbi.word_reads (m : Nat) (o : Op.Vbi) (hm : m < 64 := by decide) :
    let w := m * 2 ^ 26 + o.toBits
    w < 2 ^ 32 ∧ bits w 31 26 = m ∧ bits w 18 15 = 0 ∧ bits w 11 11 = 0 ∧ Op.Vbi.ofWord w = o := by
  obtain ⟨sync, qd, mask, imm⟩ := o
  have := sync.isLt
  have := qd.isLt
  have := mask.isLt
  have := imm.isLt
  simp only [bits, Op.Vbi.ofWord, Op.Vbi.toBits, Op.Vbi.mk.injEq]
  exact ⟨by omega, by omega, by omega, by omega, fin_read (by omega), fin_read (by omega), fin_read (by omega), bitVec_read (by omega)⟩

theorem Op.Vbi.word_writes {m w : Nat} (hw : w < 2 ^ 32) (major : bits w 31 26 = m) (zero0 : bits w 18 15 = 0) (zero1 : bits w 11 11 = 0) :
    m * 2 ^ 26 + (Op.Vbi.ofWord w).toBits = w := by
  have fields : (Op.Vbi.ofWord w).toBits = bits w 25 23 * 2 ^ 23 + bits w 22 19 * 2 ^ 19 + bits w 14 12 * 2 ^ 12 + bits w 10 0 * 2 ^ 0 := by
    simp only [Op.Vbi.ofWord, Op.Vbi.toBits]
    rfl
  have whole := (pieces_eq 32 [26, 23, 19, 15, 12, 11, 0] (by decide) rfl).trans (Nat.mod_eq_of_lt hw)
  simp only [pieces, Nat.reduceSub, major, zero0, zero1] at whole
  linarith only [fields, whole]

theorem Op.Vcvt.word_reads (m : Nat) (o : Op.Vcvt) (hm : m < 64 := by decide) :
    let w := m * 2 ^ 26 + o.toBits
    w < 2 ^ 32 ∧ bits w 31 26 = m ∧ bits w 2 0 = 0 ∧ Op.Vcvt.ofWord w = o := by
  obtain ⟨sync, qd, qa, mask, pka, fmt, rm, sat⟩ := o
  have := sync.isLt
  have := qd.isLt
  have := qa.isLt
  have := mask.isLt
  have := pka.toNat_le
  have := fmt.isLt
  have := rm.isLt
  have := sat.toNat_le
  simp only [bits, Op.Vcvt.ofWord, Op.Vcvt.toBits, Op.Vcvt.mk.injEq]
  exact ⟨by omega, by omega, by omega, fin_read (by omega), fin_read (by omega), fin_read (by omega), fin_read (by omega), bool_read (by omega),
      fin_read (by omega), fin_read (by omega), bool_read (by omega)⟩

theorem Op.Vcvt.word_writes {m w : Nat} (hw : w < 2 ^ 32) (major : bits w 31 26 = m) (zero : bits w 2 0 = 0) :
    m * 2 ^ 26 + (Op.Vcvt.ofWord w).toBits = w := by
  have fields : (Op.Vcvt.ofWord w).toBits = bits w 25 23 * 2 ^ 23 + bits w 22 19 * 2 ^ 19 + bits w 18 15 * 2 ^ 15 + bits w 14 12 * 2 ^ 12 +
      bits w 11 11 * 2 ^ 11 + bits w 10 7 * 2 ^ 7 + bits w 6 4 * 2 ^ 4 + bits w 3 3 * 2 ^ 3 := by
    simp only [Op.Vcvt.ofWord, Op.Vcvt.toBits, toNat_bit]
    rfl
  have whole := (pieces_eq 32 [26, 23, 19, 15, 12, 11, 7, 4, 3, 0] (by decide) rfl).trans (Nat.mod_eq_of_lt hw)
  simp only [pieces, Nat.reduceSub, major, zero] at whole
  linarith only [fields, whole]

theorem Op.Vb.word_reads (m : Nat) (o : Op.Vb) (hm : m < 64 := by decide) :
    let w := m * 2 ^ 26 + o.toBits
    w < 2 ^ 32 ∧ bits w 31 26 = m ∧ bits w 18 15 = 0 ∧ bits w 7 0 = 0 ∧ Op.Vb.ofWord w = o := by
  obtain ⟨sync, qd, sr, mask⟩ := o
  have := sync.isLt
  have := qd.isLt
  have := sr.isLt
  have := mask.isLt
  simp only [bits, Op.Vb.ofWord, Op.Vb.toBits, Op.Vb.mk.injEq]
  exact ⟨by omega, by omega, by omega, by omega, fin_read (by omega), fin_read (by omega), fin_read (by omega), fin_read (by omega)⟩

theorem Op.Vb.word_writes {m w : Nat} (hw : w < 2 ^ 32) (major : bits w 31 26 = m) (zero0 : bits w 18 15 = 0) (zero1 : bits w 7 0 = 0) :
    m * 2 ^ 26 + (Op.Vb.ofWord w).toBits = w := by
  have fields : (Op.Vb.ofWord w).toBits = bits w 25 23 * 2 ^ 23 + bits w 22 19 * 2 ^ 19 + bits w 14 11 * 2 ^ 11 + bits w 10 8 * 2 ^ 8 := by
    simp only [Op.Vb.ofWord, Op.Vb.toBits]
    rfl
  have whole := (pieces_eq 32 [26, 23, 19, 15, 11, 8, 0] (by decide) rfl).trans (Nat.mod_eq_of_lt hw)
  simp only [pieces, Nat.reduceSub, major, zero0, zero1] at whole
  linarith only [fields, whole]

theorem Op.Vp.word_reads (m f : Nat) (o : Op.Vp) (hm : m < 64 := by decide) (hf : f < 64 := by decide) :
    let w := m * 2 ^ 26 + f + o.toBits
    w < 2 ^ 32 ∧ bits w 31 26 = m ∧ bits w 5 0 = f ∧ bits w 22 19 = 0 ∧ bits w 14 6 = 0 ∧ Op.Vp.ofWord w = o := by
  obtain ⟨sync, qa⟩ := o
  have := sync.isLt
  have := qa.isLt
  simp only [bits, Op.Vp.ofWord, Op.Vp.toBits, Op.Vp.mk.injEq]
  exact ⟨by omega, by omega, by omega, by omega, by omega, fin_read (by omega), fin_read (by omega)⟩

theorem Op.Vp.word_writes {m f w : Nat} (hw : w < 2 ^ 32) (major : bits w 31 26 = m) (fn : bits w 5 0 = f)
    (zero0 : bits w 22 19 = 0) (zero1 : bits w 14 6 = 0) :
    m * 2 ^ 26 + f + (Op.Vp.ofWord w).toBits = w := by
  have fields : (Op.Vp.ofWord w).toBits = bits w 25 23 * 2 ^ 23 + bits w 18 15 * 2 ^ 15 := by
    simp only [Op.Vp.ofWord, Op.Vp.toBits]
    rfl
  have whole := (pieces_eq 32 [26, 23, 19, 15, 6, 0] (by decide) rfl).trans (Nat.mod_eq_of_lt hw)
  simp only [pieces, Nat.reduceSub, major, fn, zero0, zero1] at whole
  linarith only [fields, whole]

theorem Op.Vset.word_reads (m f : Nat) (o : Op.Vset) (hm : m < 64 := by decide) (hf : f < 2 := by decide) :
    let w := m * 2 ^ 26 + f * 2 ^ 22 + o.toBits
    w < 2 ^ 32 ∧ bits w 31 26 = m ∧ bits w 22 22 = f ∧ bits w 17 0 = 0 ∧ Op.Vset.ofWord w = o := by
  obtain ⟨sync, sr⟩ := o
  have := sync.isLt
  have := sr.isLt
  simp only [bits, Op.Vset.ofWord, Op.Vset.toBits, Op.Vset.mk.injEq]
  exact ⟨by omega, by omega, by omega, by omega, fin_read (by omega), fin_read (by omega)⟩

theorem Op.Vset.word_writes {m f w : Nat} (hw : w < 2 ^ 32) (major : bits w 31 26 = m) (fn : bits w 22 22 = f) (zero : bits w 17 0 = 0) :
    m * 2 ^ 26 + f * 2 ^ 22 + (Op.Vset.ofWord w).toBits = w := by
  have fields : (Op.Vset.ofWord w).toBits = bits w 25 23 * 2 ^ 23 + bits w 21 18 * 2 ^ 18 := by
    simp only [Op.Vset.ofWord, Op.Vset.toBits]
    rfl
  have whole := (pieces_eq 32 [26, 23, 22, 18, 0] (by decide) rfl).trans (Nat.mod_eq_of_lt hw)
  simp only [pieces, Nat.reduceSub, major, fn, zero] at whole
  linarith only [fields, whole]

theorem Op.Vm.word_reads (m f : Nat) (o : Op.Vm) (hm : m < 64 := by decide) (hf : f < 4 := by decide) :
    let w := m * 2 ^ 26 + f + o.toBits
    w < 2 ^ 32 ∧ bits w 31 26 = m ∧ bits w 1 0 = f ∧ bits w 13 2 = 0 ∧ Op.Vm.ofWord w = o := by
  obtain ⟨sync, md, ma, mb⟩ := o
  have := sync.isLt
  have := md.isLt
  have := ma.isLt
  have := mb.isLt
  simp only [bits, Op.Vm.ofWord, Op.Vm.toBits, Op.Vm.mk.injEq]
  exact ⟨by omega, by omega, by omega, by omega, fin_read (by omega), fin_read (by omega), fin_read (by omega), fin_read (by omega)⟩

theorem Op.Vm.word_writes {m f w : Nat} (hw : w < 2 ^ 32) (major : bits w 31 26 = m) (fn : bits w 1 0 = f) (zero : bits w 13 2 = 0) :
    m * 2 ^ 26 + f + (Op.Vm.ofWord w).toBits = w := by
  have fields : (Op.Vm.ofWord w).toBits = bits w 25 23 * 2 ^ 23 + bits w 22 20 * 2 ^ 20 + bits w 19 17 * 2 ^ 17 + bits w 16 14 * 2 ^ 14 := by
    simp only [Op.Vm.ofWord, Op.Vm.toBits]
    rfl
  have whole := (pieces_eq 32 [26, 23, 20, 17, 14, 2, 0] (by decide) rfl).trans (Nat.mod_eq_of_lt hw)
  simp only [pieces, Nat.reduceSub, major, fn, zero] at whole
  linarith only [fields, whole]

theorem Op.Vn.word_reads (m f : Nat) (o : Op.Vn) (hm : m < 64 := by decide) (hf : f < 4 := by decide) :
    let w := m * 2 ^ 26 + f + o.toBits
    w < 2 ^ 32 ∧ bits w 31 26 = m ∧ bits w 1 0 = f ∧ bits w 16 2 = 0 ∧ Op.Vn.ofWord w = o := by
  obtain ⟨sync, md, ma⟩ := o
  have := sync.isLt
  have := md.isLt
  have := ma.isLt
  simp only [bits, Op.Vn.ofWord, Op.Vn.toBits, Op.Vn.mk.injEq]
  exact ⟨by omega, by omega, by omega, by omega, fin_read (by omega), fin_read (by omega), fin_read (by omega)⟩

theorem Op.Vn.word_writes {m f w : Nat} (hw : w < 2 ^ 32) (major : bits w 31 26 = m) (fn : bits w 1 0 = f) (zero : bits w 16 2 = 0) :
    m * 2 ^ 26 + f + (Op.Vn.ofWord w).toBits = w := by
  have fields : (Op.Vn.ofWord w).toBits = bits w 25 23 * 2 ^ 23 + bits w 22 20 * 2 ^ 20 + bits w 19 17 * 2 ^ 17 := by
    simp only [Op.Vn.ofWord, Op.Vn.toBits]
    rfl
  have whole := (pieces_eq 32 [26, 23, 20, 17, 2, 0] (by decide) rfl).trans (Nat.mod_eq_of_lt hw)
  simp only [pieces, Nat.reduceSub, major, fn, zero] at whole
  linarith only [fields, whole]

theorem Op.Vl2s.word_reads (m f : Nat) (o : Op.Vl2s) (hm : m < 64 := by decide) (hf : f < 2 := by decide) :
    let w := m * 2 ^ 26 + f * 2 ^ 22 + o.toBits
    w < 2 ^ 32 ∧ bits w 31 26 = m ∧ bits w 22 22 = f ∧ bits w 4 0 = 0 ∧ Op.Vl2s.ofWord w = o := by
  obtain ⟨sync, sr, q, lane, pk⟩ := o
  have := sync.isLt
  have := sr.isLt
  have := q.isLt
  have := lane.isLt
  have := pk.toNat_le
  simp only [bits, Op.Vl2s.ofWord, Op.Vl2s.toBits, Op.Vl2s.mk.injEq]
  exact ⟨by omega, by omega, by omega, by omega, fin_read (by omega), fin_read (by omega), fin_read (by omega), fin_read (by omega),
      bool_read (by omega)⟩

theorem Op.Vl2s.word_writes {m f w : Nat} (hw : w < 2 ^ 32) (major : bits w 31 26 = m) (fn : bits w 22 22 = f) (zero : bits w 4 0 = 0) :
    m * 2 ^ 26 + f * 2 ^ 22 + (Op.Vl2s.ofWord w).toBits = w := by
  have fields : (Op.Vl2s.ofWord w).toBits = bits w 25 23 * 2 ^ 23 + bits w 21 18 * 2 ^ 18 + bits w 17 14 * 2 ^ 14 + bits w 13 6 * 2 ^ 6 +
      bits w 5 5 * 2 ^ 5 := by
    simp only [Op.Vl2s.ofWord, Op.Vl2s.toBits, toNat_bit]
    rfl
  have whole := (pieces_eq 32 [26, 23, 22, 18, 14, 6, 5, 0] (by decide) rfl).trans (Nat.mod_eq_of_lt hw)
  simp only [pieces, Nat.reduceSub, major, fn, zero] at whole
  linarith only [fields, whole]

theorem Op.Vs2l.word_reads (m f : Nat) (o : Op.Vs2l) (hm : m < 64 := by decide) (hf : f < 2 := by decide) :
    let w := m * 2 ^ 26 + f * 2 ^ 22 + o.toBits
    w < 2 ^ 32 ∧ bits w 31 26 = m ∧ bits w 22 22 = f ∧ bits w 5 0 = 0 ∧ Op.Vs2l.ofWord w = o := by
  obtain ⟨sync, sr, q, lane⟩ := o
  have := sync.isLt
  have := sr.isLt
  have := q.isLt
  have := lane.isLt
  simp only [bits, Op.Vs2l.ofWord, Op.Vs2l.toBits, Op.Vs2l.mk.injEq]
  exact ⟨by omega, by omega, by omega, by omega, fin_read (by omega), fin_read (by omega), fin_read (by omega), fin_read (by omega)⟩

theorem Op.Vs2l.word_writes {m f w : Nat} (hw : w < 2 ^ 32) (major : bits w 31 26 = m) (fn : bits w 22 22 = f) (zero : bits w 5 0 = 0) :
    m * 2 ^ 26 + f * 2 ^ 22 + (Op.Vs2l.ofWord w).toBits = w := by
  have fields : (Op.Vs2l.ofWord w).toBits = bits w 25 23 * 2 ^ 23 + bits w 21 18 * 2 ^ 18 + bits w 17 14 * 2 ^ 14 + bits w 13 6 * 2 ^ 6 := by
    simp only [Op.Vs2l.ofWord, Op.Vs2l.toBits]
    rfl
  have whole := (pieces_eq 32 [26, 23, 22, 18, 14, 6, 0] (by decide) rfl).trans (Nat.mod_eq_of_lt hw)
  simp only [pieces, Nat.reduceSub, major, fn, zero] at whole
  linarith only [fields, whole]

theorem Op.Spls.word_reads (m f : Nat) (o : Op.Spls) (hm : m < 64 := by decide) (hf : f < 8 := by decide) :
    let w := m * 2 ^ 26 + f * 2 ^ 20 + o.toBits
    w < 2 ^ 32 ∧ bits w 31 26 = m ∧ bits w 22 20 = f ∧ bits w 9 0 = 0 ∧ Op.Spls.ofWord w = o := by
  obtain ⟨sync, q, part, sr⟩ := o
  have := sync.isLt
  have := q.isLt
  have := part.isLt
  have := sr.isLt
  simp only [bits, Op.Spls.ofWord, Op.Spls.toBits, Op.Spls.mk.injEq]
  exact ⟨by omega, by omega, by omega, by omega, fin_read (by omega), fin_read (by omega), fin_read (by omega), fin_read (by omega)⟩

theorem Op.Spls.word_writes {m f w : Nat} (hw : w < 2 ^ 32) (major : bits w 31 26 = m) (fn : bits w 22 20 = f) (zero : bits w 9 0 = 0) :
    m * 2 ^ 26 + f * 2 ^ 20 + (Op.Spls.ofWord w).toBits = w := by
  have fields : (Op.Spls.ofWord w).toBits = bits w 25 23 * 2 ^ 23 + bits w 19 16 * 2 ^ 16 + bits w 15 14 * 2 ^ 14 + bits w 13 10 * 2 ^ 10 := by
    simp only [Op.Spls.ofWord, Op.Spls.toBits]
    rfl
  have whole := (pieces_eq 32 [26, 23, 20, 16, 14, 10, 0] (by decide) rfl).trans (Nat.mod_eq_of_lt hw)
  simp only [pieces, Nat.reduceSub, major, fn, zero] at whole
  linarith only [fields, whole]

theorem Op.Spup.word_reads (m f : Nat) (o : Op.Spup) (hm : m < 64 := by decide) (hf : f < 8 := by decide) :
    let w := m * 2 ^ 26 + f * 2 ^ 20 + o.toBits
    w < 2 ^ 32 ∧ bits w 31 26 = m ∧ bits w 22 20 = f ∧ bits w 15 1 = 0 ∧ Op.Spup.ofWord w = o := by
  obtain ⟨sync, qr, addInto⟩ := o
  have := sync.isLt
  have := qr.isLt
  have := addInto.toNat_le
  simp only [bits, Op.Spup.ofWord, Op.Spup.toBits, Op.Spup.mk.injEq]
  exact ⟨by omega, by omega, by omega, by omega, fin_read (by omega), fin_read (by omega), bool_read (by omega)⟩

theorem Op.Spup.word_writes {m f w : Nat} (hw : w < 2 ^ 32) (major : bits w 31 26 = m) (fn : bits w 22 20 = f) (zero : bits w 15 1 = 0) :
    m * 2 ^ 26 + f * 2 ^ 20 + (Op.Spup.ofWord w).toBits = w := by
  have fields : (Op.Spup.ofWord w).toBits = bits w 25 23 * 2 ^ 23 + bits w 19 16 * 2 ^ 16 + bits w 0 0 * 2 ^ 0 := by
    simp only [Op.Spup.ofWord, Op.Spup.toBits, toNat_bit]
    rfl
  have whole := (pieces_eq 32 [26, 23, 20, 16, 1, 0] (by decide) rfl).trans (Nat.mod_eq_of_lt hw)
  simp only [pieces, Nat.reduceSub, major, fn, zero] at whole
  linarith only [fields, whole]

theorem Op.Spdn.word_reads (m f : Nat) (o : Op.Spdn) (hm : m < 64 := by decide) (hf : f < 8 := by decide) :
    let w := m * 2 ^ 26 + f * 2 ^ 20 + o.toBits
    w < 2 ^ 32 ∧ bits w 31 26 = m ∧ bits w 22 20 = f ∧ bits w 15 0 = 0 ∧ Op.Spdn.ofWord w = o := by
  obtain ⟨sync, qr⟩ := o
  have := sync.isLt
  have := qr.isLt
  simp only [bits, Op.Spdn.ofWord, Op.Spdn.toBits, Op.Spdn.mk.injEq]
  exact ⟨by omega, by omega, by omega, by omega, fin_read (by omega), fin_read (by omega)⟩

theorem Op.Spdn.word_writes {m f w : Nat} (hw : w < 2 ^ 32) (major : bits w 31 26 = m) (fn : bits w 22 20 = f) (zero : bits w 15 0 = 0) :
    m * 2 ^ 26 + f * 2 ^ 20 + (Op.Spdn.ofWord w).toBits = w := by
  have fields : (Op.Spdn.ofWord w).toBits = bits w 25 23 * 2 ^ 23 + bits w 19 16 * 2 ^ 16 := by
    simp only [Op.Spdn.ofWord, Op.Spdn.toBits]
    rfl
  have whole := (pieces_eq 32 [26, 23, 20, 16, 0] (by decide) rfl).trans (Nat.mod_eq_of_lt hw)
  simp only [pieces, Nat.reduceSub, major, fn, zero] at whole
  linarith only [fields, whole]

theorem Op.Spcvt.word_reads (m f : Nat) (o : Op.Spcvt) (hm : m < 64 := by decide) (hf : f < 8 := by decide) :
    let w := m * 2 ^ 26 + f * 2 ^ 20 + o.toBits
    w < 2 ^ 32 ∧ bits w 31 26 = m ∧ bits w 22 20 = f ∧ bits w 10 0 = 0 ∧ Op.Spcvt.ofWord w = o := by
  obtain ⟨sync, qd, qa, toF⟩ := o
  have := sync.isLt
  have := qd.isLt
  have := qa.isLt
  have := toF.toNat_le
  simp only [bits, Op.Spcvt.ofWord, Op.Spcvt.toBits, Op.Spcvt.mk.injEq]
  exact ⟨by omega, by omega, by omega, by omega, fin_read (by omega), fin_read (by omega), fin_read (by omega), bool_read (by omega)⟩

theorem Op.Spcvt.word_writes {m f w : Nat} (hw : w < 2 ^ 32) (major : bits w 31 26 = m) (fn : bits w 22 20 = f) (zero : bits w 10 0 = 0) :
    m * 2 ^ 26 + f * 2 ^ 20 + (Op.Spcvt.ofWord w).toBits = w := by
  have fields : (Op.Spcvt.ofWord w).toBits = bits w 25 23 * 2 ^ 23 + bits w 19 16 * 2 ^ 16 + bits w 15 12 * 2 ^ 12 + bits w 11 11 * 2 ^ 11 := by
    simp only [Op.Spcvt.ofWord, Op.Spcvt.toBits, toNat_bit]
    rfl
  have whole := (pieces_eq 32 [26, 23, 20, 16, 12, 11, 0] (by decide) rfl).trans (Nat.mod_eq_of_lt hw)
  simp only [pieces, Nat.reduceSub, major, fn, zero] at whole
  linarith only [fields, whole]

end Sys2Proof
end

section
/-! SUPPORT. Words and instructions, stream by stream: each row of the opcode maps in both directions (R255, R262 to R269). -/

namespace Sys2Proof

/-! ### A row's word and its reading -/

/-- The instruction has a word of 32 bits that the stream decodes to it. -/
def Instr.Encodes (i : Instr) (st : Strm) : Prop := ∃ w, encode i = some w ∧ w < 2 ^ 32 ∧ decode st w = .ok i

/-- The instruction is a well-formed one of the stream, and the word is its encoding. -/
def Instr.ReadFrom (i : Instr) (st : Strm) (w : Nat) : Prop := i.stream = some st ∧ i.wellFormed = true ∧ encode i = some w

theorem encodes {i : Instr} {st : Strm} {w : Nat} (lt : w < 2 ^ 32) (word : encode i = some w) (read : decode st w = checked i)
    (wf : i.wellFormed = true) : i.Encodes st := ⟨w, word, lt, read.trans (if_pos wf)⟩

theorem readsBack {i j : Instr} {st : Strm} {w : Nat} (h : checked j = .ok i) (stream : j.stream = some st) (word : encode j = some w) :
    i.ReadFrom st w := by
  unfold checked at h
  split at h
  · cases h
    exact ⟨stream, ‹_›, word⟩
  · cases h

theorem reads_of_zero {p : Prop} [Decidable p] {r : Except DecodeError Instr} {i : Instr}
    (h : (if p then r else .error .reservedField) = .ok i) : p ∧ r = .ok i := by
  split at h
  · exact ⟨‹p›, h⟩
  · cases h

/-! ### From an instruction to its word (R264 to R269) -/

theorem nsetLevel_encodes (o : Op.NsetLevel) (wf : (Instr.nsetLevel o).wellFormed = true) : (Instr.nsetLevel o).Encodes .m := by
  have below : o.level.val < 6 := of_decide_eq_true wf
  obtain ⟨lt, major, level, zero, fields⟩ := o.word_reads 1
  refine encodes lt rfl ?_ wf
  simp only [decode, decodeM, decMNset, major, level, zero, fields, if_true]
  split
  · omega
  · omega
  · rfl

theorem decodeC_encode {i : Instr} (stream : i.stream = some .c) (wf : i.wellFormed = true) : i.Encodes .c := by
  cases i with
  | add o =>
    obtain ⟨lt, major, fn, fields⟩ := o.word_reads 1 0
    exact encodes lt rfl (by simp only [decode, decodeC, decCAlu, major, fn, fields]) wf
  | sub o =>
    obtain ⟨lt, major, fn, fields⟩ := o.word_reads 1 1
    exact encodes lt rfl (by simp only [decode, decodeC, decCAlu, major, fn, fields]) wf
  | and o =>
    obtain ⟨lt, major, fn, fields⟩ := o.word_reads 1 2
    exact encodes lt rfl (by simp only [decode, decodeC, decCAlu, major, fn, fields]) wf
  | or o =>
    obtain ⟨lt, major, fn, fields⟩ := o.word_reads 1 3
    exact encodes lt rfl (by simp only [decode, decodeC, decCAlu, major, fn, fields]) wf
  | xor o =>
    obtain ⟨lt, major, fn, fields⟩ := o.word_reads 1 4
    exact encodes lt rfl (by simp only [decode, decodeC, decCAlu, major, fn, fields]) wf
  | shl o =>
    obtain ⟨lt, major, fn, fields⟩ := o.word_reads 1 5
    exact encodes lt rfl (by simp only [decode, decodeC, decCAlu, major, fn, fields]) wf
  | shr o =>
    obtain ⟨lt, major, fn, fields⟩ := o.word_reads 1 6
    exact encodes lt rfl (by simp only [decode, decodeC, decCAlu, major, fn, fields]) wf
  | sra o =>
    obtain ⟨lt, major, fn, fields⟩ := o.word_reads 1 7
    exact encodes lt rfl (by simp only [decode, decodeC, decCAlu, major, fn, fields]) wf
  | mul o =>
    obtain ⟨lt, major, fn, fields⟩ := o.word_reads 1 8
    exact encodes lt rfl (by simp only [decode, decodeC, decCAlu, major, fn, fields]) wf
  | mulh o =>
    obtain ⟨lt, major, fn, fields⟩ := o.word_reads 1 9
    exact encodes lt rfl (by simp only [decode, decodeC, decCAlu, major, fn, fields]) wf
  | mulhu o =>
    obtain ⟨lt, major, fn, fields⟩ := o.word_reads 1 10
    exact encodes lt rfl (by simp only [decode, decodeC, decCAlu, major, fn, fields]) wf
  | div o =>
    obtain ⟨lt, major, fn, fields⟩ := o.word_reads 1 11
    exact encodes lt rfl (by simp only [decode, decodeC, decCAlu, major, fn, fields]) wf
  | divu o =>
    obtain ⟨lt, major, fn, fields⟩ := o.word_reads 1 12
    exact encodes lt rfl (by simp only [decode, decodeC, decCAlu, major, fn, fields]) wf
  | rem o =>
    obtain ⟨lt, major, fn, fields⟩ := o.word_reads 1 13
    exact encodes lt rfl (by simp only [decode, decodeC, decCAlu, major, fn, fields]) wf
  | remu o =>
    obtain ⟨lt, major, fn, fields⟩ := o.word_reads 1 14
    exact encodes lt rfl (by simp only [decode, decodeC, decCAlu, major, fn, fields]) wf
  | min o =>
    obtain ⟨lt, major, fn, fields⟩ := o.word_reads 1 15
    exact encodes lt rfl (by simp only [decode, decodeC, decCAlu, major, fn, fields]) wf
  | max o =>
    obtain ⟨lt, major, fn, fields⟩ := o.word_reads 1 16
    exact encodes lt rfl (by simp only [decode, decodeC, decCAlu, major, fn, fields]) wf
  | clz o =>
    obtain ⟨lt, major, fn, zero, fields⟩ := o.word_reads 1 17
    exact encodes lt rfl (by simp only [decode, decodeC, decCAlu, major, fn, zero, fields, if_true]) wf
  | popc o =>
    obtain ⟨lt, major, fn, zero, fields⟩ := o.word_reads 1 18
    exact encodes lt rfl (by simp only [decode, decodeC, decCAlu, major, fn, zero, fields, if_true]) wf
  | addi o =>
    obtain ⟨lt, major, fields⟩ := o.word_reads 2
    exact encodes lt rfl (by simp only [decode, decodeC, major, fields]) wf
  | andi o =>
    obtain ⟨lt, major, fields⟩ := o.word_reads 3
    exact encodes lt rfl (by simp only [decode, decodeC, major, fields]) wf
  | ori o =>
    obtain ⟨lt, major, fields⟩ := o.word_reads 4
    exact encodes lt rfl (by simp only [decode, decodeC, major, fields]) wf
  | xori o =>
    obtain ⟨lt, major, fields⟩ := o.word_reads 5
    exact encodes lt rfl (by simp only [decode, decodeC, major, fields]) wf
  | shli o =>
    obtain ⟨lt, major, fn, zero, fields⟩ := o.word_reads 6 0
    exact encodes lt rfl (by simp only [decode, decodeC, decCShifti, major, fn, zero, fields, if_true]) wf
  | shri o =>
    obtain ⟨lt, major, fn, zero, fields⟩ := o.word_reads 6 1
    exact encodes lt rfl (by simp only [decode, decodeC, decCShifti, major, fn, zero, fields, if_true]) wf
  | srai o =>
    obtain ⟨lt, major, fn, zero, fields⟩ := o.word_reads 6 2
    exact encodes lt rfl (by simp only [decode, decodeC, decCShifti, major, fn, zero, fields, if_true]) wf
  | lui o =>
    obtain ⟨lt, major, fields⟩ := o.word_reads 7
    exact encodes lt rfl (by simp only [decode, decodeC, major, fields]) wf
  | addpc o =>
    obtain ⟨lt, major, fields⟩ := o.word_reads 8
    exact encodes lt rfl (by simp only [decode, decodeC, major, fields]) wf
  | cmpEq o =>
    obtain ⟨lt, major, fn, zero, fields⟩ := o.word_reads 9 0
    exact encodes lt rfl (by simp only [decode, decodeC, decCCmp, major, fn, zero, fields, if_true]) wf
  | cmpNe o =>
    obtain ⟨lt, major, fn, zero, fields⟩ := o.word_reads 9 1
    exact encodes lt rfl (by simp only [decode, decodeC, decCCmp, major, fn, zero, fields, if_true]) wf
  | cmpLt o =>
    obtain ⟨lt, major, fn, zero, fields⟩ := o.word_reads 9 2
    exact encodes lt rfl (by simp only [decode, decodeC, decCCmp, major, fn, zero, fields, if_true]) wf
  | cmpLtu o =>
    obtain ⟨lt, major, fn, zero, fields⟩ := o.word_reads 9 3
    exact encodes lt rfl (by simp only [decode, decodeC, decCCmp, major, fn, zero, fields, if_true]) wf
  | cmpGe o =>
    obtain ⟨lt, major, fn, zero, fields⟩ := o.word_reads 9 4
    exact encodes lt rfl (by simp only [decode, decodeC, decCCmp, major, fn, zero, fields, if_true]) wf
  | cmpGeu o =>
    obtain ⟨lt, major, fn, zero, fields⟩ := o.word_reads 9 5
    exact encodes lt rfl (by simp only [decode, decodeC, decCCmp, major, fn, zero, fields, if_true]) wf
  | cmpiEq o =>
    obtain ⟨lt, major, fn, fields⟩ := o.word_reads 10 0
    exact encodes lt rfl (by simp only [decode, decodeC, decCCmpi, major, fn, fields]) wf
  | cmpiNe o =>
    obtain ⟨lt, major, fn, fields⟩ := o.word_reads 10 1
    exact encodes lt rfl (by simp only [decode, decodeC, decCCmpi, major, fn, fields]) wf
  | cmpiLt o =>
    obtain ⟨lt, major, fn, fields⟩ := o.word_reads 10 2
    exact encodes lt rfl (by simp only [decode, decodeC, decCCmpi, major, fn, fields]) wf
  | cmpiLtu o =>
    obtain ⟨lt, major, fn, fields⟩ := o.word_reads 10 3
    exact encodes lt rfl (by simp only [decode, decodeC, decCCmpi, major, fn, fields]) wf
  | pand o =>
    obtain ⟨lt, major, fn, zero0, zero1, zero2, fields⟩ := o.word_reads 11 0
    exact encodes lt rfl (by simp only [decode, decodeC, decCPred, major, fn, zero0, zero1, zero2, fields, and_self, if_true]) wf
  | por o =>
    obtain ⟨lt, major, fn, zero0, zero1, zero2, fields⟩ := o.word_reads 11 1
    exact encodes lt rfl (by simp only [decode, decodeC, decCPred, major, fn, zero0, zero1, zero2, fields, and_self, if_true]) wf
  | pxor o =>
    obtain ⟨lt, major, fn, zero0, zero1, zero2, fields⟩ := o.word_reads 11 2
    exact encodes lt rfl (by simp only [decode, decodeC, decCPred, major, fn, zero0, zero1, zero2, fields, and_self, if_true]) wf
  | pandn o =>
    obtain ⟨lt, major, fn, zero0, zero1, zero2, fields⟩ := o.word_reads 11 3
    exact encodes lt rfl (by simp only [decode, decodeC, decCPred, major, fn, zero0, zero1, zero2, fields, and_self, if_true]) wf
  | pfrom o =>
    obtain ⟨lt, major, fn, zero0, zero1, fields⟩ := o.word_reads 11 4
    exact encodes lt rfl (by simp only [decode, decodeC, decCPred, major, fn, zero0, zero1, fields, and_self, if_true]) wf
  | pto o =>
    obtain ⟨lt, major, fn, zero, fields⟩ := o.word_reads 11 5
    exact encodes lt rfl (by simp only [decode, decodeC, decCPred, major, fn, zero, fields, if_true]) wf
  | sel o =>
    obtain ⟨lt, major, zero, fields⟩ := o.word_reads 12
    exact encodes lt rfl (by simp only [decode, decodeC, major, zero, fields, if_true]) wf
  | ldb o =>
    obtain ⟨lt, major, fields⟩ := o.word_reads 16
    exact encodes lt rfl (by simp only [decode, decodeC, major, fields]) wf
  | ldh o =>
    obtain ⟨lt, major, fields⟩ := o.word_reads 17
    exact encodes lt rfl (by simp only [decode, decodeC, major, fields]) wf
  | ldw o =>
    obtain ⟨lt, major, fields⟩ := o.word_reads 18
    exact encodes lt rfl (by simp only [decode, decodeC, major, fields]) wf
  | ldd o =>
    obtain ⟨lt, major, fields⟩ := o.word_reads 19
    exact encodes lt rfl (by simp only [decode, decodeC, major, fields]) wf
  | ldbu o =>
    obtain ⟨lt, major, fields⟩ := o.word_reads 20
    exact encodes lt rfl (by simp only [decode, decodeC, major, fields]) wf
  | ldhu o =>
    obtain ⟨lt, major, fields⟩ := o.word_reads 21
    exact encodes lt rfl (by simp only [decode, decodeC, major, fields]) wf
  | ldwu o =>
    obtain ⟨lt, major, fields⟩ := o.word_reads 22
    exact encodes lt rfl (by simp only [decode, decodeC, major, fields]) wf
  | stb o =>
    obtain ⟨lt, major, fields⟩ := o.word_reads 24
    exact encodes lt rfl (by simp only [decode, decodeC, major, fields]) wf
  | sth o =>
    obtain ⟨lt, major, fields⟩ := o.word_reads 25
    exact encodes lt rfl (by simp only [decode, decodeC, major, fields]) wf
  | stw o =>
    obtain ⟨lt, major, fields⟩ := o.word_reads 26
    exact encodes lt rfl (by simp only [decode, decodeC, major, fields]) wf
  | std o =>
    obtain ⟨lt, major, fields⟩ := o.word_reads 27
    exact encodes lt rfl (by simp only [decode, decodeC, major, fields]) wf
  | wait o =>
    obtain ⟨lt, major, zero, fields⟩ := o.word_reads 28
    exact encodes lt rfl (by simp only [decode, decodeC, major, zero, fields, if_true]) wf
  | pbr o =>
    obtain ⟨lt, major, fields⟩ := o.word_reads 32
    exact encodes lt rfl (by simp only [decode, decodeC, major, fields]) wf
  | pbrx o =>
    obtain ⟨lt, major, zero0, zero1, fields⟩ := o.word_reads 33
    exact encodes lt rfl (by simp only [decode, decodeC, major, zero0, zero1, fields, and_self, if_true]) wf
  | br o =>
    obtain ⟨lt, major, zero, fields⟩ := o.word_reads 34
    exact encodes lt rfl (by simp only [decode, decodeC, major, zero, fields, if_true]) wf
  | call o =>
    obtain ⟨lt, major, zero, fields⟩ := o.word_reads 35
    exact encodes lt rfl (by simp only [decode, decodeC, major, zero, fields, if_true]) wf
  | loopc o =>
    obtain ⟨lt, major, zero, fields⟩ := o.word_reads 36
    exact encodes lt rfl (by simp only [decode, decodeC, major, zero, fields, if_true]) wf
  | tstart o =>
    obtain ⟨lt, major, fn, zero0, zero1, fields⟩ := o.word_reads 40 0
    exact encodes lt rfl (by simp only [decode, decodeC, decCStrm, major, fn, zero0, zero1, fields, and_self, if_true]) wf
  | mstart o =>
    obtain ⟨lt, major, fn, zero0, zero1, fields⟩ := o.word_reads 40 1
    exact encodes lt rfl (by simp only [decode, decodeC, decCStrm, major, fn, zero0, zero1, fields, and_self, if_true]) wf
  | vstart o =>
    obtain ⟨lt, major, fn, zero0, zero1, fields⟩ := o.word_reads 40 2
    exact encodes lt rfl (by simp only [decode, decodeC, decCStrm, major, fn, zero0, zero1, fields, and_self, if_true]) wf
  | sdrain o =>
    obtain ⟨lt, major, fn, zero0, zero1, fields⟩ := o.word_reads 40 3
    exact encodes lt rfl (by simp only [decode, decodeC, decCStrm, major, fn, zero0, zero1, fields, and_self, if_true]) wf
  | qbind o =>
    obtain ⟨lt, major, fn, zero0, zero1, zero2, fields⟩ := o.word_reads 40 4
    exact encodes lt rfl (by simp only [decode, decodeC, decCStrm, major, fn, zero0, zero1, zero2, fields, and_self, if_true]) wf
  | qget o =>
    obtain ⟨lt, major, fn, zero, fields⟩ := o.word_reads 40 5
    exact encodes lt rfl (by simp only [decode, decodeC, decCStrm, major, fn, zero, fields, if_true]) wf
  | qgetp o =>
    obtain ⟨lt, major, fn, zero, fields⟩ := o.word_reads 40 6
    exact encodes lt rfl (by simp only [decode, decodeC, decCStrm, major, fn, zero, fields, if_true]) wf
  | qput o =>
    obtain ⟨lt, major, fn, zero, fields⟩ := o.word_reads 40 7
    exact encodes lt rfl (by simp only [decode, decodeC, decCStrm, major, fn, zero, fields, if_true]) wf
  | tpost o =>
    obtain ⟨lt, major, fn, zero0, zero1, fields⟩ := o.word_reads 41 0
    exact encodes lt rfl (by simp only [decode, decodeC, decCToken, major, fn, zero0, zero1, fields, and_self, if_true]) wf
  | tawait o =>
    obtain ⟨lt, major, fn, zero0, zero1, fields⟩ := o.word_reads 41 1
    exact encodes lt rfl (by simp only [decode, decodeC, decCToken, major, fn, zero0, zero1, fields, and_self, if_true]) wf
  | spawn o =>
    obtain ⟨lt, major, fn, zero0, zero1, fields⟩ := o.word_reads 42 0
    exact encodes lt rfl (by simp only [decode, decodeC, decCTurn, major, fn, zero0, zero1, fields, and_self, if_true]) wf
  | join o =>
    obtain ⟨lt, major, fn, zero, fields⟩ := o.word_reads 42 1
    exact encodes lt rfl (by simp only [decode, decodeC, decCTurn, major, fn, zero, fields, if_true]) wf
  | cEnd o =>
    obtain ⟨lt, major, fn, zero, fields⟩ := o.word_reads 42 2
    exact encodes lt rfl (by simp only [decode, decodeC, decCTurn, major, fn, zero, fields, if_true]) wf
  | ewait o =>
    obtain ⟨lt, major, fn, zero, fields⟩ := o.word_reads 42 3
    exact encodes lt rfl (by simp only [decode, decodeC, decCTurn, major, fn, zero, fields, if_true]) wf
  | epost o =>
    obtain ⟨lt, major, fn, zero0, zero1, fields⟩ := o.word_reads 42 4
    exact encodes lt rfl (by simp only [decode, decodeC, decCTurn, major, fn, zero0, zero1, fields, and_self, if_true]) wf
  | etest o =>
    obtain ⟨lt, major, fn, zero, fields⟩ := o.word_reads 42 5
    exact encodes lt rfl (by simp only [decode, decodeC, decCTurn, major, fn, zero, fields, if_true]) wf
  | launch o =>
    obtain ⟨lt, major, fn, zero0, zero1, fields⟩ := o.word_reads 42 6
    exact encodes lt rfl (by simp only [decode, decodeC, decCTurn, major, fn, zero0, zero1, fields, and_self, if_true]) wf
  | budget o =>
    obtain ⟨lt, major, fn, zero, fields⟩ := o.word_reads 42 7
    exact encodes lt rfl (by simp only [decode, decodeC, decCTurn, major, fn, zero, fields, if_true]) wf
  | cancel o =>
    obtain ⟨lt, major, fn, zero0, zero1, fields⟩ := o.word_reads 43 0
    exact encodes lt rfl (by simp only [decode, decodeC, decCCancel, major, fn, zero0, zero1, fields, and_self, if_true]) wf
  | cpoint o =>
    obtain ⟨lt, major, fn, zero, fields⟩ := o.word_reads 43 1
    exact encodes lt rfl (by simp only [decode, decodeC, decCCancel, major, fn, zero, fields, if_true]) wf
  | pwait o =>
    obtain ⟨lt, major, fn, zero0, zero1, fields⟩ := o.word_reads 44 0
    exact encodes lt rfl (by simp only [decode, decodeC, decCPawn, major, fn, zero0, zero1, fields, and_self, if_true]) wf
  | ptest o =>
    obtain ⟨lt, major, fn, zero0, zero1, fields⟩ := o.word_reads 44 1
    exact encodes lt rfl (by simp only [decode, decodeC, decCPawn, major, fn, zero0, zero1, fields, and_self, if_true]) wf
  | pcancel o =>
    obtain ⟨lt, major, fn, zero0, zero1, fields⟩ := o.word_reads 44 2
    exact encodes lt rfl (by simp only [decode, decodeC, decCPawn, major, fn, zero0, zero1, fields, and_self, if_true]) wf
  | pdetach o =>
    obtain ⟨lt, major, fn, zero0, zero1, fields⟩ := o.word_reads 44 3
    exact encodes lt rfl (by simp only [decode, decodeC, decCPawn, major, fn, zero0, zero1, fields, and_self, if_true]) wf
  | pprio o =>
    obtain ⟨lt, major, fn, zero0, zero1, fields⟩ := o.word_reads 44 4
    exact encodes lt rfl (by simp only [decode, decodeC, decCPawn, major, fn, zero0, zero1, fields, and_self, if_true]) wf
  | pstat o =>
    obtain ⟨lt, major, fn, zero, fields⟩ := o.word_reads 44 5
    exact encodes lt rfl (by simp only [decode, decodeC, decCPawn, major, fn, zero, fields, if_true]) wf
  | allred o =>
    obtain ⟨lt, major, fn, fields⟩ := o.word_reads 45 0
    exact encodes lt rfl (by simp only [decode, decodeC, decCColl, major, fn, fields]) wf
  | bcast o =>
    obtain ⟨lt, major, fn, fields⟩ := o.word_reads 45 1
    exact encodes lt rfl (by simp only [decode, decodeC, decCColl, major, fn, fields]) wf
  | allgath o =>
    obtain ⟨lt, major, fn, fields⟩ := o.word_reads 45 2
    exact encodes lt rfl (by simp only [decode, decodeC, decCColl, major, fn, fields]) wf
  | redscat o =>
    obtain ⟨lt, major, fn, fields⟩ := o.word_reads 45 3
    exact encodes lt rfl (by simp only [decode, decodeC, decCColl, major, fn, fields]) wf
  | barrier o =>
    obtain ⟨lt, major, fn, zero, fields⟩ := o.word_reads 45 4
    exact encodes lt rfl (by simp only [decode, decodeC, decCColl, major, fn, zero, fields, if_true]) wf
  | rkopenw o =>
    obtain ⟨lt, major, fn, zero, fields⟩ := o.word_reads 46 0
    exact encodes lt rfl (by simp only [decode, decodeC, decCRack, major, fn, zero, fields, if_true]) wf
  | rkcommit o =>
    obtain ⟨lt, major, fn, zero0, zero1, fields⟩ := o.word_reads 46 1
    exact encodes lt rfl (by simp only [decode, decodeC, decCRack, major, fn, zero0, zero1, fields, and_self, if_true]) wf
  | rkopenr o =>
    obtain ⟨lt, major, fn, zero, fields⟩ := o.word_reads 46 2
    exact encodes lt rfl (by simp only [decode, decodeC, decCRack, major, fn, zero, fields, if_true]) wf
  | rkclose o =>
    obtain ⟨lt, major, fn, zero0, zero1, fields⟩ := o.word_reads 46 3
    exact encodes lt rfl (by simp only [decode, decodeC, decCRack, major, fn, zero0, zero1, fields, and_self, if_true]) wf
  | fence o =>
    obtain ⟨lt, major, zero, fields⟩ := o.word_reads 48
    exact encodes lt rfl (by simp only [decode, decodeC, major, zero, fields, if_true]) wf
  | crr o =>
    obtain ⟨lt, major, fn, zero, fields⟩ := o.word_reads 49 0
    exact encodes lt rfl (by simp only [decode, decodeC, decCControl, major, fn, zero, fields, if_true]) wf
  | crw o =>
    obtain ⟨lt, major, fn, zero, fields⟩ := o.word_reads 49 1
    exact encodes lt rfl (by simp only [decode, decodeC, decCControl, major, fn, zero, fields, if_true]) wf
  | trap o =>
    obtain ⟨lt, major, fn, fields⟩ := o.word_reads 50 0
    exact encodes lt rfl (by simp only [decode, decodeC, decCSys, major, fn, fields]) wf
  | eret o =>
    obtain ⟨lt, major, fn, zero, fields⟩ := o.word_reads 50 1
    exact encodes lt rfl (by simp only [decode, decodeC, decCSys, major, fn, zero, fields, if_true]) wf
  | bkpt o =>
    obtain ⟨lt, major, fn, fields⟩ := o.word_reads 50 2
    exact encodes lt rfl (by simp only [decode, decodeC, decCSys, major, fn, fields]) wf
  | tlrw o =>
    obtain ⟨lt, major, fn, zero, fields⟩ := o.word_reads 50 3
    exact encodes lt rfl (by simp only [decode, decodeC, decCSys, major, fn, zero, fields, if_true]) wf
  | time o =>
    obtain ⟨lt, major, fn, zero, fields⟩ := o.word_reads 50 4
    exact encodes lt rfl (by simp only [decode, decodeC, decCSys, major, fn, zero, fields, if_true]) wf
  | seta o =>
    obtain ⟨lt, major, fn, zero, fields⟩ := o.word_reads 51 0
    exact encodes lt rfl (by simp only [decode, decodeC, decCSete, major, fn, zero, fields, if_true]) wf
  | setn o =>
    obtain ⟨lt, major, fn, zero, fields⟩ := o.word_reads 51 1
    exact encodes lt rfl (by simp only [decode, decodeC, decCSete, major, fn, zero, fields, if_true]) wf
  | sets o =>
    obtain ⟨lt, major, fn, zero, fields⟩ := o.word_reads 51 2
    exact encodes lt rfl (by simp only [decode, decodeC, decCSete, major, fn, zero, fields, if_true]) wf
  | setnt o =>
    obtain ⟨lt, major, fn, zero, fields⟩ := o.word_reads 51 3
    exact encodes lt rfl (by simp only [decode, decodeC, decCSete, major, fn, zero, fields, if_true]) wf
  | geta o =>
    obtain ⟨lt, major, fn, zero, fields⟩ := o.word_reads 51 4
    exact encodes lt rfl (by simp only [decode, decodeC, decCSete, major, fn, zero, fields, if_true]) wf
  | _ => cases stream

theorem decodeT_encode {i : Instr} (stream : i.stream = some .t) (wf : i.wellFormed = true) : i.Encodes .t := by
  cases i with
  | ldq o =>
    obtain ⟨lt, major, fields⟩ := o.word_reads 1
    exact encodes lt rfl (by simp only [decode, decodeT, major, fields]) wf
  | stq o =>
    obtain ⟨lt, major, fields⟩ := o.word_reads 2
    exact encodes lt rfl (by simp only [decode, decodeT, major, fields]) wf
  | pref o =>
    obtain ⟨lt, major, zero, fields⟩ := o.word_reads 3
    exact encodes lt rfl (by simp only [decode, decodeT, major, zero, fields, if_true]) wf
  | copy o =>
    obtain ⟨lt, major, fields⟩ := o.word_reads 4
    exact encodes lt rfl (by simp only [decode, decodeT, major, fields]) wf
  | gath o =>
    obtain ⟨lt, major, fields⟩ := o.word_reads 5
    exact encodes lt rfl (by simp only [decode, decodeT, major, fields]) wf
  | scat o =>
    obtain ⟨lt, major, fields⟩ := o.word_reads 6
    exact encodes lt rfl (by simp only [decode, decodeT, major, fields]) wf
  | rld o =>
    obtain ⟨lt, major, zero, fields⟩ := o.word_reads 7
    exact encodes lt rfl (by simp only [decode, decodeT, major, zero, fields, if_true]) wf
  | rst o =>
    obtain ⟨lt, major, zero, fields⟩ := o.word_reads 8
    exact encodes lt rfl (by simp only [decode, decodeT, major, zero, fields, if_true]) wf
  | saccAdd o =>
    obtain ⟨lt, major, fn, zero, fields⟩ := o.word_reads 9 0
    exact encodes lt rfl (by simp only [decode, decodeT, decTSacc, major, fn, zero, fields, if_true]) wf
  | saccMin o =>
    obtain ⟨lt, major, fn, zero, fields⟩ := o.word_reads 9 1
    exact encodes lt rfl (by simp only [decode, decodeT, decTSacc, major, fn, zero, fields, if_true]) wf
  | saccMax o =>
    obtain ⟨lt, major, fn, zero, fields⟩ := o.word_reads 9 2
    exact encodes lt rfl (by simp only [decode, decodeT, decTSacc, major, fn, zero, fields, if_true]) wf
  | saccSwap o =>
    obtain ⟨lt, major, fn, zero, fields⟩ := o.word_reads 9 3
    exact encodes lt rfl (by simp only [decode, decodeT, decTSacc, major, fn, zero, fields, if_true]) wf
  | scas o =>
    obtain ⟨lt, major, zero, fields⟩ := o.word_reads 10
    exact encodes lt rfl (by simp only [decode, decodeT, major, zero, fields, if_true]) wf
  | adda o =>
    obtain ⟨lt, major, fields⟩ := o.word_reads 11
    exact encodes lt rfl (by simp only [decode, decodeT, major, fields]) wf
  | addar o =>
    obtain ⟨lt, major, zero, fields⟩ := o.word_reads 12
    exact encodes lt rfl (by simp only [decode, decodeT, major, zero, fields, if_true]) wf
  | tLoop o =>
    obtain ⟨lt, major, zero, fields⟩ := o.word_reads 13
    exact encodes lt rfl (by simp only [decode, decodeT, major, zero, fields, if_true]) wf
  | send o =>
    obtain ⟨lt, major, zero, fields⟩ := o.word_reads 14
    exact encodes lt rfl (by simp only [decode, decodeT, major, zero, fields, if_true]) wf
  | recv o =>
    obtain ⟨lt, major, zero, fields⟩ := o.word_reads 15
    exact encodes lt rfl (by simp only [decode, decodeT, major, zero, fields, if_true]) wf
  | tSync o =>
    obtain ⟨lt, major, zero, fields⟩ := o.word_reads 16
    exact encodes lt rfl (by simp only [decode, decodeT, major, zero, fields, if_true]) wf
  | tFence o =>
    obtain ⟨lt, major, zero, fields⟩ := o.word_reads 17
    exact encodes lt rfl (by simp only [decode, decodeT, major, zero, fields, if_true]) wf
  | tEnd o =>
    obtain ⟨lt, major, zero, fields⟩ := o.word_reads 18
    exact encodes lt rfl (by simp only [decode, decodeT, major, zero, fields, if_true]) wf
  | tWaith o =>
    obtain ⟨lt, major, zero, fields⟩ := o.word_reads 19
    exact encodes lt rfl (by simp only [decode, decodeT, major, zero, fields, if_true]) wf
  | _ => cases stream

theorem decodeM_encode {i : Instr} (stream : i.stream = some .m) (wf : i.wellFormed = true) : i.Encodes .m := by
  cases i with
  | nsetIns o =>
    obtain ⟨lt, major, fn, zero, fields⟩ := o.word_reads 1 6
    exact encodes lt rfl (by simp only [decode, decodeM, decMNset, major, fn, zero, fields, if_true]) wf
  | nsetFmt o =>
    obtain ⟨lt, major, fn, zero0, zero1, fields⟩ := o.word_reads 1 7
    exact encodes lt rfl (by simp only [decode, decodeM, decMNset, major, fn, zero0, zero1, fields, and_self, if_true]) wf
  | mgo o =>
    obtain ⟨lt, major, zero, fields⟩ := o.word_reads 2
    exact encodes lt rfl (by simp only [decode, decodeM, major, zero, fields, if_true]) wf
  | mzero o =>
    obtain ⟨lt, major, zero, fields⟩ := o.word_reads 3
    exact encodes lt rfl (by simp only [decode, decodeM, major, zero, fields, if_true]) wf
  | acc2s o =>
    obtain ⟨lt, major, zero, fields⟩ := o.word_reads 4
    exact encodes lt rfl (by simp only [decode, decodeM, major, zero, fields, if_true]) wf
  | s2acc o =>
    obtain ⟨lt, major, zero, fields⟩ := o.word_reads 5
    exact encodes lt rfl (by simp only [decode, decodeM, major, zero, fields, if_true]) wf
  | accmul o =>
    obtain ⟨lt, major, zero, fields⟩ := o.word_reads 6
    exact encodes lt rfl (by simp only [decode, decodeM, major, zero, fields, if_true]) wf
  | mLoop o =>
    obtain ⟨lt, major, zero0, zero1, fields⟩ := o.word_reads 7
    exact encodes lt rfl (by simp only [decode, decodeM, major, zero0, zero1, fields, and_self, if_true]) wf
  | mSync o =>
    obtain ⟨lt, major, zero, fields⟩ := o.word_reads 8
    exact encodes lt rfl (by simp only [decode, decodeM, major, zero, fields, if_true]) wf
  | mEnd o =>
    obtain ⟨lt, major, zero, fields⟩ := o.word_reads 9
    exact encodes lt rfl (by simp only [decode, decodeM, major, zero, fields, if_true]) wf
  | mFence o =>
    obtain ⟨lt, major, zero, fields⟩ := o.word_reads 10
    exact encodes lt rfl (by simp only [decode, decodeM, major, zero, fields, if_true]) wf
  | mWaith o =>
    obtain ⟨lt, major, zero, fields⟩ := o.word_reads 11
    exact encodes lt rfl (by simp only [decode, decodeM, major, zero, fields, if_true]) wf
  | nsetLevel o => exact nsetLevel_encodes o wf
  | _ => cases stream

theorem decodeV_encode {i : Instr} (stream : i.stream = some .v) (wf : i.wellFormed = true) : i.Encodes .v := by
  cases i with
  | vadd o =>
    obtain ⟨lt, major, fn, fields⟩ := o.word_reads 1 0
    exact encodes lt rfl (by simp only [decode, decodeV, decVVfp, major, fn, fields]) wf
  | vsub o =>
    obtain ⟨lt, major, fn, fields⟩ := o.word_reads 1 1
    exact encodes lt rfl (by simp only [decode, decodeV, decVVfp, major, fn, fields]) wf
  | vmul o =>
    obtain ⟨lt, major, fn, fields⟩ := o.word_reads 1 2
    exact encodes lt rfl (by simp only [decode, decodeV, decVVfp, major, fn, fields]) wf
  | vfma o =>
    obtain ⟨lt, major, fn, fields⟩ := o.word_reads 1 3
    exact encodes lt rfl (by simp only [decode, decodeV, decVVfp, major, fn, fields]) wf
  | vmin o =>
    obtain ⟨lt, major, fn, fields⟩ := o.word_reads 1 4
    exact encodes lt rfl (by simp only [decode, decodeV, decVVfp, major, fn, fields]) wf
  | vmax o =>
    obtain ⟨lt, major, fn, fields⟩ := o.word_reads 1 5
    exact encodes lt rfl (by simp only [decode, decodeV, decVVfp, major, fn, fields]) wf
  | vabs o =>
    obtain ⟨lt, major, fn, zero0, zero1, fields⟩ := o.word_reads 1 6
    exact encodes lt rfl (by simp only [decode, decodeV, decVVfp, major, fn, zero0, zero1, fields, and_self, if_true]) wf
  | vneg o =>
    obtain ⟨lt, major, fn, zero0, zero1, fields⟩ := o.word_reads 1 7
    exact encodes lt rfl (by simp only [decode, decodeV, decVVfp, major, fn, zero0, zero1, fields, and_self, if_true]) wf
  | vrcp o =>
    obtain ⟨lt, major, fn, zero0, zero1, fields⟩ := o.word_reads 2 0
    exact encodes lt rfl (by simp only [decode, decodeV, decVVfx, major, fn, zero0, zero1, fields, and_self, if_true]) wf
  | vrsq o =>
    obtain ⟨lt, major, fn, zero0, zero1, fields⟩ := o.word_reads 2 1
    exact encodes lt rfl (by simp only [decode, decodeV, decVVfx, major, fn, zero0, zero1, fields, and_self, if_true]) wf
  | vexp2 o =>
    obtain ⟨lt, major, fn, zero0, zero1, fields⟩ := o.word_reads 2 2
    exact encodes lt rfl (by simp only [decode, decodeV, decVVfx, major, fn, zero0, zero1, fields, and_self, if_true]) wf
  | vlog2 o =>
    obtain ⟨lt, major, fn, zero0, zero1, fields⟩ := o.word_reads 2 3
    exact encodes lt rfl (by simp only [decode, decodeV, decVVfx, major, fn, zero0, zero1, fields, and_self, if_true]) wf
  | viadd o =>
    obtain ⟨lt, major, fn, fields⟩ := o.word_reads 3 0
    exact encodes lt rfl (by simp only [decode, decodeV, decVVint, major, fn, fields]) wf
  | visub o =>
    obtain ⟨lt, major, fn, fields⟩ := o.word_reads 3 1
    exact encodes lt rfl (by simp only [decode, decodeV, decVVint, major, fn, fields]) wf
  | vimul o =>
    obtain ⟨lt, major, fn, fields⟩ := o.word_reads 3 2
    exact encodes lt rfl (by simp only [decode, decodeV, decVVint, major, fn, fields]) wf
  | vand o =>
    obtain ⟨lt, major, fn, fields⟩ := o.word_reads 3 3
    exact encodes lt rfl (by simp only [decode, decodeV, decVVint, major, fn, fields]) wf
  | vor o =>
    obtain ⟨lt, major, fn, fields⟩ := o.word_reads 3 4
    exact encodes lt rfl (by simp only [decode, decodeV, decVVint, major, fn, fields]) wf
  | vxor o =>
    obtain ⟨lt, major, fn, fields⟩ := o.word_reads 3 5
    exact encodes lt rfl (by simp only [decode, decodeV, decVVint, major, fn, fields]) wf
  | vshl o =>
    obtain ⟨lt, major, fn, fields⟩ := o.word_reads 3 6
    exact encodes lt rfl (by simp only [decode, decodeV, decVVint, major, fn, fields]) wf
  | vshr o =>
    obtain ⟨lt, major, fn, fields⟩ := o.word_reads 3 7
    exact encodes lt rfl (by simp only [decode, decodeV, decVVint, major, fn, fields]) wf
  | vsra o =>
    obtain ⟨lt, major, fn, fields⟩ := o.word_reads 3 8
    exact encodes lt rfl (by simp only [decode, decodeV, decVVint, major, fn, fields]) wf
  | vimin o =>
    obtain ⟨lt, major, fn, fields⟩ := o.word_reads 3 9
    exact encodes lt rfl (by simp only [decode, decodeV, decVVint, major, fn, fields]) wf
  | vimax o =>
    obtain ⟨lt, major, fn, fields⟩ := o.word_reads 3 10
    exact encodes lt rfl (by simp only [decode, decodeV, decVVint, major, fn, fields]) wf
  | vcmpEq o =>
    obtain ⟨lt, major, fn, zero0, zero1, fields⟩ := o.word_reads 4 0
    exact encodes lt rfl (by simp only [decode, decodeV, decVVcmp, major, fn, zero0, zero1, fields, and_self, if_true]) wf
  | vcmpNe o =>
    obtain ⟨lt, major, fn, zero0, zero1, fields⟩ := o.word_reads 4 1
    exact encodes lt rfl (by simp only [decode, decodeV, decVVcmp, major, fn, zero0, zero1, fields, and_self, if_true]) wf
  | vcmpLt o =>
    obtain ⟨lt, major, fn, zero0, zero1, fields⟩ := o.word_reads 4 2
    exact encodes lt rfl (by simp only [decode, decodeV, decVVcmp, major, fn, zero0, zero1, fields, and_self, if_true]) wf
  | vcmpLe o =>
    obtain ⟨lt, major, fn, zero0, zero1, fields⟩ := o.word_reads 4 3
    exact encodes lt rfl (by simp only [decode, decodeV, decVVcmp, major, fn, zero0, zero1, fields, and_self, if_true]) wf
  | vcmpGt o =>
    obtain ⟨lt, major, fn, zero0, zero1, fields⟩ := o.word_reads 4 4
    exact encodes lt rfl (by simp only [decode, decodeV, decVVcmp, major, fn, zero0, zero1, fields, and_self, if_true]) wf
  | vcmpGe o =>
    obtain ⟨lt, major, fn, zero0, zero1, fields⟩ := o.word_reads 4 5
    exact encodes lt rfl (by simp only [decode, decodeV, decVVcmp, major, fn, zero0, zero1, fields, and_self, if_true]) wf
  | vsel o =>
    obtain ⟨lt, major, fn, fields⟩ := o.word_reads 5 0
    exact encodes lt rfl (by simp only [decode, decodeV, major, fn, fields, if_true]) wf
  | vadds o =>
    obtain ⟨lt, major, fn, fields⟩ := o.word_reads 6 0
    exact encodes lt rfl (by simp only [decode, decodeV, decVVfs, major, fn, fields]) wf
  | vsubs o =>
    obtain ⟨lt, major, fn, fields⟩ := o.word_reads 6 1
    exact encodes lt rfl (by simp only [decode, decodeV, decVVfs, major, fn, fields]) wf
  | vmuls o =>
    obtain ⟨lt, major, fn, fields⟩ := o.word_reads 6 2
    exact encodes lt rfl (by simp only [decode, decodeV, decVVfs, major, fn, fields]) wf
  | vfmas o =>
    obtain ⟨lt, major, fn, fields⟩ := o.word_reads 6 3
    exact encodes lt rfl (by simp only [decode, decodeV, decVVfs, major, fn, fields]) wf
  | vmins o =>
    obtain ⟨lt, major, fn, fields⟩ := o.word_reads 6 4
    exact encodes lt rfl (by simp only [decode, decodeV, decVVfs, major, fn, fields]) wf
  | vmaxs o =>
    obtain ⟨lt, major, fn, fields⟩ := o.word_reads 6 5
    exact encodes lt rfl (by simp only [decode, decodeV, decVVfs, major, fn, fields]) wf
  | viaddi o =>
    obtain ⟨lt, major, fields⟩ := o.word_reads 7
    exact encodes lt rfl (by simp only [decode, decodeV, major, fields]) wf
  | vbcasti o =>
    obtain ⟨lt, major, zero0, zero1, fields⟩ := o.word_reads 8
    exact encodes lt rfl (by simp only [decode, decodeV, major, zero0, zero1, fields, and_self, if_true]) wf
  | vcvt o =>
    obtain ⟨lt, major, zero, fields⟩ := o.word_reads 9
    exact encodes lt rfl (by simp only [decode, decodeV, major, zero, fields, if_true]) wf
  | vpack o =>
    obtain ⟨lt, major, fn, fields⟩ := o.word_reads 10 0
    exact encodes lt rfl (by simp only [decode, decodeV, decVVpack, major, fn, fields]) wf
  | vunpk o =>
    obtain ⟨lt, major, fn, fields⟩ := o.word_reads 10 1
    exact encodes lt rfl (by simp only [decode, decodeV, decVVpack, major, fn, fields]) wf
  | vrsum o =>
    obtain ⟨lt, major, fn, zero0, zero1, fields⟩ := o.word_reads 11 0
    exact encodes lt rfl (by simp only [decode, decodeV, decVVred, major, fn, zero0, zero1, fields, and_self, if_true]) wf
  | vrmax o =>
    obtain ⟨lt, major, fn, zero0, zero1, fields⟩ := o.word_reads 11 1
    exact encodes lt rfl (by simp only [decode, decodeV, decVVred, major, fn, zero0, zero1, fields, and_self, if_true]) wf
  | vrmin o =>
    obtain ⟨lt, major, fn, zero0, zero1, fields⟩ := o.word_reads 11 2
    exact encodes lt rfl (by simp only [decode, decodeV, decVVred, major, fn, zero0, zero1, fields, and_self, if_true]) wf
  | vperm o =>
    obtain ⟨lt, major, fn, fields⟩ := o.word_reads 12 0
    exact encodes lt rfl (by simp only [decode, decodeV, major, fn, fields, if_true]) wf
  | vbcast o =>
    obtain ⟨lt, major, zero0, zero1, fields⟩ := o.word_reads 13
    exact encodes lt rfl (by simp only [decode, decodeV, major, zero0, zero1, fields, and_self, if_true]) wf
  | vrot o =>
    obtain ⟨lt, major, fields⟩ := o.word_reads 14
    exact encodes lt rfl (by simp only [decode, decodeV, major, fields]) wf
  | vmov o =>
    obtain ⟨lt, major, fn, zero0, zero1, fields⟩ := o.word_reads 15 0
    exact encodes lt rfl (by simp only [decode, decodeV, decVVq, major, fn, zero0, zero1, fields, and_self, if_true]) wf
  | vpop o =>
    obtain ⟨lt, major, fn, zero0, zero1, fields⟩ := o.word_reads 15 1
    exact encodes lt rfl (by simp only [decode, decodeV, decVVq, major, fn, zero0, zero1, fields, and_self, if_true]) wf
  | vdup o =>
    obtain ⟨lt, major, fn, zero0, zero1, fields⟩ := o.word_reads 15 2
    exact encodes lt rfl (by simp only [decode, decodeV, decVVq, major, fn, zero0, zero1, fields, and_self, if_true]) wf
  | vsetsh o =>
    obtain ⟨lt, major, fn, zero, fields⟩ := o.word_reads 16 0
    exact encodes lt rfl (by simp only [decode, decodeV, decVVshape, major, fn, zero, fields, if_true]) wf
  | vsetl o =>
    obtain ⟨lt, major, fn, zero, fields⟩ := o.word_reads 16 1
    exact encodes lt rfl (by simp only [decode, decodeV, decVVshape, major, fn, zero, fields, if_true]) wf
  | mand o =>
    obtain ⟨lt, major, fn, zero, fields⟩ := o.word_reads 17 0
    exact encodes lt rfl (by simp only [decode, decodeV, decVVmask, major, fn, zero, fields, if_true]) wf
  | mor o =>
    obtain ⟨lt, major, fn, zero, fields⟩ := o.word_reads 17 1
    exact encodes lt rfl (by simp only [decode, decodeV, decVVmask, major, fn, zero, fields, if_true]) wf
  | mxor o =>
    obtain ⟨lt, major, fn, zero, fields⟩ := o.word_reads 17 2
    exact encodes lt rfl (by simp only [decode, decodeV, decVVmask, major, fn, zero, fields, if_true]) wf
  | mnot o =>
    obtain ⟨lt, major, fn, zero, fields⟩ := o.word_reads 17 3
    exact encodes lt rfl (by simp only [decode, decodeV, decVVmask, major, fn, zero, fields, if_true]) wf
  | vsmovToS o =>
    obtain ⟨lt, major, fn, zero, fields⟩ := o.word_reads 18 0
    exact encodes lt rfl (by simp only [decode, decodeV, decVVsmov, major, fn, zero, fields, if_true]) wf
  | vsmovToLane o =>
    obtain ⟨lt, major, fn, zero, fields⟩ := o.word_reads 18 1
    exact encodes lt rfl (by simp only [decode, decodeV, decVVsmov, major, fn, zero, fields, if_true]) wf
  | spld o =>
    obtain ⟨lt, major, fn, zero, fields⟩ := o.word_reads 24 0
    exact encodes lt rfl (by simp only [decode, decodeV, decVSp, major, fn, zero, fields, if_true]) wf
  | spst o =>
    obtain ⟨lt, major, fn, zero, fields⟩ := o.word_reads 24 1
    exact encodes lt rfl (by simp only [decode, decodeV, decVSp, major, fn, zero, fields, if_true]) wf
  | spup o =>
    obtain ⟨lt, major, fn, zero, fields⟩ := o.word_reads 24 2
    exact encodes lt rfl (by simp only [decode, decodeV, decVSp, major, fn, zero, fields, if_true]) wf
  | spdn o =>
    obtain ⟨lt, major, fn, zero, fields⟩ := o.word_reads 24 3
    exact encodes lt rfl (by simp only [decode, decodeV, decVSp, major, fn, zero, fields, if_true]) wf
  | spcvt o =>
    obtain ⟨lt, major, fn, zero, fields⟩ := o.word_reads 24 4
    exact encodes lt rfl (by simp only [decode, decodeV, decVSp, major, fn, zero, fields, if_true]) wf
  | vLoop o =>
    obtain ⟨lt, major, zero, fields⟩ := o.word_reads 28
    exact encodes lt rfl (by simp only [decode, decodeV, major, zero, fields, if_true]) wf
  | vSync o =>
    obtain ⟨lt, major, zero, fields⟩ := o.word_reads 29
    exact encodes lt rfl (by simp only [decode, decodeV, major, zero, fields, if_true]) wf
  | vEnd o =>
    obtain ⟨lt, major, zero, fields⟩ := o.word_reads 30
    exact encodes lt rfl (by simp only [decode, decodeV, major, zero, fields, if_true]) wf
  | vFence o =>
    obtain ⟨lt, major, zero, fields⟩ := o.word_reads 31
    exact encodes lt rfl (by simp only [decode, decodeV, major, zero, fields, if_true]) wf
  | _ => cases stream

/-! ### From a word to its instruction (R262 to R269) -/

theorem decCAlu_reads {w : Nat} {i : Instr} (hw : w < 2 ^ 32) (major : bits w 31 26 = 1) (h : decCAlu w = .ok i) : i.ReadFrom .c w := by
  unfold decCAlu at h
  split at h
  next fn => exact readsBack h rfl (congrArg some (Op.Alu.word_writes hw major fn))
  next fn => exact readsBack h rfl (congrArg some (Op.Alu.word_writes hw major fn))
  next fn => exact readsBack h rfl (congrArg some (Op.Alu.word_writes hw major fn))
  next fn => exact readsBack h rfl (congrArg some (Op.Alu.word_writes hw major fn))
  next fn => exact readsBack h rfl (congrArg some (Op.Alu.word_writes hw major fn))
  next fn => exact readsBack h rfl (congrArg some (Op.Alu.word_writes hw major fn))
  next fn => exact readsBack h rfl (congrArg some (Op.Alu.word_writes hw major fn))
  next fn => exact readsBack h rfl (congrArg some (Op.Alu.word_writes hw major fn))
  next fn => exact readsBack h rfl (congrArg some (Op.Alu.word_writes hw major fn))
  next fn => exact readsBack h rfl (congrArg some (Op.Alu.word_writes hw major fn))
  next fn => exact readsBack h rfl (congrArg some (Op.Alu.word_writes hw major fn))
  next fn => exact readsBack h rfl (congrArg some (Op.Alu.word_writes hw major fn))
  next fn => exact readsBack h rfl (congrArg some (Op.Alu.word_writes hw major fn))
  next fn => exact readsBack h rfl (congrArg some (Op.Alu.word_writes hw major fn))
  next fn => exact readsBack h rfl (congrArg some (Op.Alu.word_writes hw major fn))
  next fn => exact readsBack h rfl (congrArg some (Op.Alu.word_writes hw major fn))
  next fn => exact readsBack h rfl (congrArg some (Op.Alu.word_writes hw major fn))
  next fn =>
    obtain ⟨zero, h⟩ := reads_of_zero h
    exact readsBack h rfl (congrArg some (Op.AluUn.word_writes hw major fn zero))
  next fn =>
    obtain ⟨zero, h⟩ := reads_of_zero h
    exact readsBack h rfl (congrArg some (Op.AluUn.word_writes hw major fn zero))
  next => cases h

theorem decCShifti_reads {w : Nat} {i : Instr} (hw : w < 2 ^ 32) (major : bits w 31 26 = 6) (h : decCShifti w = .ok i) : i.ReadFrom .c w := by
  unfold decCShifti at h
  split at h
  next fn =>
    obtain ⟨zero, h⟩ := reads_of_zero h
    exact readsBack h rfl (congrArg some (Op.ShiftImm.word_writes hw major fn zero))
  next fn =>
    obtain ⟨zero, h⟩ := reads_of_zero h
    exact readsBack h rfl (congrArg some (Op.ShiftImm.word_writes hw major fn zero))
  next fn =>
    obtain ⟨zero, h⟩ := reads_of_zero h
    exact readsBack h rfl (congrArg some (Op.ShiftImm.word_writes hw major fn zero))
  next => cases h

theorem decCCmp_reads {w : Nat} {i : Instr} (hw : w < 2 ^ 32) (major : bits w 31 26 = 9) (h : decCCmp w = .ok i) : i.ReadFrom .c w := by
  unfold decCCmp at h
  split at h
  next fn =>
    obtain ⟨zero, h⟩ := reads_of_zero h
    exact readsBack h rfl (congrArg some (Op.Cmp.word_writes hw major fn zero))
  next fn =>
    obtain ⟨zero, h⟩ := reads_of_zero h
    exact readsBack h rfl (congrArg some (Op.Cmp.word_writes hw major fn zero))
  next fn =>
    obtain ⟨zero, h⟩ := reads_of_zero h
    exact readsBack h rfl (congrArg some (Op.Cmp.word_writes hw major fn zero))
  next fn =>
    obtain ⟨zero, h⟩ := reads_of_zero h
    exact readsBack h rfl (congrArg some (Op.Cmp.word_writes hw major fn zero))
  next fn =>
    obtain ⟨zero, h⟩ := reads_of_zero h
    exact readsBack h rfl (congrArg some (Op.Cmp.word_writes hw major fn zero))
  next fn =>
    obtain ⟨zero, h⟩ := reads_of_zero h
    exact readsBack h rfl (congrArg some (Op.Cmp.word_writes hw major fn zero))
  next => cases h

theorem decCCmpi_reads {w : Nat} {i : Instr} (hw : w < 2 ^ 32) (major : bits w 31 26 = 10) (h : decCCmpi w = .ok i) : i.ReadFrom .c w := by
  unfold decCCmpi at h
  split at h
  next fn => exact readsBack h rfl (congrArg some (Op.CmpImm.word_writes hw major fn))
  next fn => exact readsBack h rfl (congrArg some (Op.CmpImm.word_writes hw major fn))
  next fn => exact readsBack h rfl (congrArg some (Op.CmpImm.word_writes hw major fn))
  next fn => exact readsBack h rfl (congrArg some (Op.CmpImm.word_writes hw major fn))
  next => cases h

theorem decCPred_reads {w : Nat} {i : Instr} (hw : w < 2 ^ 32) (major : bits w 31 26 = 11) (h : decCPred w = .ok i) : i.ReadFrom .c w := by
  unfold decCPred at h
  split at h
  next fn =>
    obtain ⟨⟨zero0, zero1, zero2⟩, h⟩ := reads_of_zero h
    exact readsBack h rfl (congrArg some (Op.Pred.word_writes hw major fn zero0 zero1 zero2))
  next fn =>
    obtain ⟨⟨zero0, zero1, zero2⟩, h⟩ := reads_of_zero h
    exact readsBack h rfl (congrArg some (Op.Pred.word_writes hw major fn zero0 zero1 zero2))
  next fn =>
    obtain ⟨⟨zero0, zero1, zero2⟩, h⟩ := reads_of_zero h
    exact readsBack h rfl (congrArg some (Op.Pred.word_writes hw major fn zero0 zero1 zero2))
  next fn =>
    obtain ⟨⟨zero0, zero1, zero2⟩, h⟩ := reads_of_zero h
    exact readsBack h rfl (congrArg some (Op.Pred.word_writes hw major fn zero0 zero1 zero2))
  next fn =>
    obtain ⟨⟨zero0, zero1⟩, h⟩ := reads_of_zero h
    exact readsBack h rfl (congrArg some (Op.OneSrc.word_writes hw major fn zero0 zero1))
  next fn =>
    obtain ⟨zero, h⟩ := reads_of_zero h
    exact readsBack h rfl (congrArg some (Op.OneDst.word_writes hw major fn zero))
  next => cases h

theorem decCStrm_reads {w : Nat} {i : Instr} (hw : w < 2 ^ 32) (major : bits w 31 26 = 40) (h : decCStrm w = .ok i) : i.ReadFrom .c w := by
  unfold decCStrm at h
  split at h
  next fn =>
    obtain ⟨⟨zero0, zero1⟩, h⟩ := reads_of_zero h
    exact readsBack h rfl (congrArg some (Op.OneSrc.word_writes hw major fn zero0 zero1))
  next fn =>
    obtain ⟨⟨zero0, zero1⟩, h⟩ := reads_of_zero h
    exact readsBack h rfl (congrArg some (Op.OneSrc.word_writes hw major fn zero0 zero1))
  next fn =>
    obtain ⟨⟨zero0, zero1⟩, h⟩ := reads_of_zero h
    exact readsBack h rfl (congrArg some (Op.OneSrc.word_writes hw major fn zero0 zero1))
  next fn =>
    obtain ⟨⟨zero0, zero1⟩, h⟩ := reads_of_zero h
    exact readsBack h rfl (congrArg some (Op.Drain.word_writes hw major fn zero0 zero1))
  next fn =>
    obtain ⟨⟨zero0, zero1, zero2⟩, h⟩ := reads_of_zero h
    exact readsBack h rfl (congrArg some (Op.Bind.word_writes hw major fn zero0 zero1 zero2))
  next fn =>
    obtain ⟨zero, h⟩ := reads_of_zero h
    exact readsBack h rfl (congrArg some (Op.QGet.word_writes hw major fn zero))
  next fn =>
    obtain ⟨zero, h⟩ := reads_of_zero h
    exact readsBack h rfl (congrArg some (Op.QGet.word_writes hw major fn zero))
  next fn =>
    obtain ⟨zero, h⟩ := reads_of_zero h
    exact readsBack h rfl (congrArg some (Op.QPut.word_writes hw major fn zero))
  next => cases h

theorem decCToken_reads {w : Nat} {i : Instr} (hw : w < 2 ^ 32) (major : bits w 31 26 = 41) (h : decCToken w = .ok i) : i.ReadFrom .c w := by
  unfold decCToken at h
  split at h
  next fn =>
    obtain ⟨⟨zero0, zero1⟩, h⟩ := reads_of_zero h
    exact readsBack h rfl (congrArg some (Op.Token.word_writes hw major fn zero0 zero1))
  next fn =>
    obtain ⟨⟨zero0, zero1⟩, h⟩ := reads_of_zero h
    exact readsBack h rfl (congrArg some (Op.Token.word_writes hw major fn zero0 zero1))
  next => cases h

theorem decCTurn_reads {w : Nat} {i : Instr} (hw : w < 2 ^ 32) (major : bits w 31 26 = 42) (h : decCTurn w = .ok i) : i.ReadFrom .c w := by
  unfold decCTurn at h
  split at h
  next fn =>
    obtain ⟨⟨zero0, zero1⟩, h⟩ := reads_of_zero h
    exact readsBack h rfl (congrArg some (Op.TokSrc.word_writes hw major fn zero0 zero1))
  next fn =>
    obtain ⟨zero, h⟩ := reads_of_zero h
    exact readsBack h rfl (congrArg some (Op.TokSrc2.word_writes hw major fn zero))
  next fn =>
    obtain ⟨zero, h⟩ := reads_of_zero h
    exact readsBack h rfl (congrArg some (Op.Bare.word_writes hw major fn zero))
  next fn =>
    obtain ⟨zero, h⟩ := reads_of_zero h
    exact readsBack h rfl (congrArg some (Op.TwoSrc.word_writes hw major fn zero))
  next fn =>
    obtain ⟨⟨zero0, zero1⟩, h⟩ := reads_of_zero h
    exact readsBack h rfl (congrArg some (Op.TokSrc.word_writes hw major fn zero0 zero1))
  next fn =>
    obtain ⟨zero, h⟩ := reads_of_zero h
    exact readsBack h rfl (congrArg some (Op.TokRes.word_writes hw major fn zero))
  next fn =>
    obtain ⟨⟨zero0, zero1⟩, h⟩ := reads_of_zero h
    exact readsBack h rfl (congrArg some (Op.TokSrc.word_writes hw major fn zero0 zero1))
  next fn =>
    obtain ⟨zero, h⟩ := reads_of_zero h
    exact readsBack h rfl (congrArg some (Op.TokRes.word_writes hw major fn zero))
  next => cases h

theorem decCCancel_reads {w : Nat} {i : Instr} (hw : w < 2 ^ 32) (major : bits w 31 26 = 43) (h : decCCancel w = .ok i) : i.ReadFrom .c w := by
  unfold decCCancel at h
  split at h
  next fn =>
    obtain ⟨⟨zero0, zero1⟩, h⟩ := reads_of_zero h
    exact readsBack h rfl (congrArg some (Op.Cancel.word_writes hw major fn zero0 zero1))
  next fn =>
    obtain ⟨zero, h⟩ := reads_of_zero h
    exact readsBack h rfl (congrArg some (Op.Bare.word_writes hw major fn zero))
  next => cases h

theorem decCPawn_reads {w : Nat} {i : Instr} (hw : w < 2 ^ 32) (major : bits w 31 26 = 44) (h : decCPawn w = .ok i) : i.ReadFrom .c w := by
  unfold decCPawn at h
  split at h
  next fn =>
    obtain ⟨⟨zero0, zero1⟩, h⟩ := reads_of_zero h
    exact readsBack h rfl (congrArg some (Op.PawnRes.word_writes hw major fn zero0 zero1))
  next fn =>
    obtain ⟨⟨zero0, zero1⟩, h⟩ := reads_of_zero h
    exact readsBack h rfl (congrArg some (Op.PawnRes.word_writes hw major fn zero0 zero1))
  next fn =>
    obtain ⟨⟨zero0, zero1⟩, h⟩ := reads_of_zero h
    exact readsBack h rfl (congrArg some (Op.PawnRes.word_writes hw major fn zero0 zero1))
  next fn =>
    obtain ⟨⟨zero0, zero1⟩, h⟩ := reads_of_zero h
    exact readsBack h rfl (congrArg some (Op.PawnArg.word_writes hw major fn zero0 zero1))
  next fn =>
    obtain ⟨⟨zero0, zero1⟩, h⟩ := reads_of_zero h
    exact readsBack h rfl (congrArg some (Op.PawnArg.word_writes hw major fn zero0 zero1))
  next fn =>
    obtain ⟨zero, h⟩ := reads_of_zero h
    exact readsBack h rfl (congrArg some (Op.ResTok.word_writes hw major fn zero))
  next => cases h

theorem decCColl_reads {w : Nat} {i : Instr} (hw : w < 2 ^ 32) (major : bits w 31 26 = 45) (h : decCColl w = .ok i) : i.ReadFrom .c w := by
  unfold decCColl at h
  split at h
  next fn => exact readsBack h rfl (congrArg some (Op.Coll.word_writes hw major fn))
  next fn => exact readsBack h rfl (congrArg some (Op.Coll.word_writes hw major fn))
  next fn => exact readsBack h rfl (congrArg some (Op.Coll.word_writes hw major fn))
  next fn => exact readsBack h rfl (congrArg some (Op.Coll.word_writes hw major fn))
  next fn =>
    obtain ⟨zero, h⟩ := reads_of_zero h
    exact readsBack h rfl (congrArg some (Op.Barrier.word_writes hw major fn zero))
  next => cases h

theorem decCRack_reads {w : Nat} {i : Instr} (hw : w < 2 ^ 32) (major : bits w 31 26 = 46) (h : decCRack w = .ok i) : i.ReadFrom .c w := by
  unfold decCRack at h
  split at h
  next fn =>
    obtain ⟨zero, h⟩ := reads_of_zero h
    exact readsBack h rfl (congrArg some (Op.TokRes.word_writes hw major fn zero))
  next fn =>
    obtain ⟨⟨zero0, zero1⟩, h⟩ := reads_of_zero h
    exact readsBack h rfl (congrArg some (Op.TokSrc.word_writes hw major fn zero0 zero1))
  next fn =>
    obtain ⟨zero, h⟩ := reads_of_zero h
    exact readsBack h rfl (congrArg some (Op.TokRes.word_writes hw major fn zero))
  next fn =>
    obtain ⟨⟨zero0, zero1⟩, h⟩ := reads_of_zero h
    exact readsBack h rfl (congrArg some (Op.TokSrc.word_writes hw major fn zero0 zero1))
  next => cases h

theorem decCControl_reads {w : Nat} {i : Instr} (hw : w < 2 ^ 32) (major : bits w 31 26 = 49) (h : decCControl w = .ok i) : i.ReadFrom .c w := by
  unfold decCControl at h
  split at h
  next fn =>
    obtain ⟨zero, h⟩ := reads_of_zero h
    exact readsBack h rfl (congrArg some (Op.Crr.word_writes hw major fn zero))
  next fn =>
    obtain ⟨zero, h⟩ := reads_of_zero h
    exact readsBack h rfl (congrArg some (Op.Crw.word_writes hw major fn zero))
  next => cases h

theorem decCSys_reads {w : Nat} {i : Instr} (hw : w < 2 ^ 32) (major : bits w 31 26 = 50) (h : decCSys w = .ok i) : i.ReadFrom .c w := by
  unfold decCSys at h
  split at h
  next fn => exact readsBack h rfl (congrArg some (Op.Code.word_writes hw major fn))
  next fn =>
    obtain ⟨zero, h⟩ := reads_of_zero h
    exact readsBack h rfl (congrArg some (Op.Bare.word_writes hw major fn zero))
  next fn => exact readsBack h rfl (congrArg some (Op.Code.word_writes hw major fn))
  next fn =>
    obtain ⟨zero, h⟩ := reads_of_zero h
    exact readsBack h rfl (congrArg some (Op.TokSrc2.word_writes hw major fn zero))
  next fn =>
    obtain ⟨zero, h⟩ := reads_of_zero h
    exact readsBack h rfl (congrArg some (Op.ResTok.word_writes hw major fn zero))
  next => cases h

theorem decCSete_reads {w : Nat} {i : Instr} (hw : w < 2 ^ 32) (major : bits w 31 26 = 51) (h : decCSete w = .ok i) : i.ReadFrom .c w := by
  unfold decCSete at h
  split at h
  next fn =>
    obtain ⟨zero, h⟩ := reads_of_zero h
    exact readsBack h rfl (congrArg some (Op.TokRes.word_writes hw major fn zero))
  next fn =>
    obtain ⟨zero, h⟩ := reads_of_zero h
    exact readsBack h rfl (congrArg some (Op.TokRes.word_writes hw major fn zero))
  next fn =>
    obtain ⟨zero, h⟩ := reads_of_zero h
    exact readsBack h rfl (congrArg some (Op.TokRes.word_writes hw major fn zero))
  next fn =>
    obtain ⟨zero, h⟩ := reads_of_zero h
    exact readsBack h rfl (congrArg some (Op.TokRes.word_writes hw major fn zero))
  next fn =>
    obtain ⟨zero, h⟩ := reads_of_zero h
    exact readsBack h rfl (congrArg some (Op.TokRes.word_writes hw major fn zero))
  next => cases h

theorem decodeC_reads {w : Nat} {i : Instr} (hw : w < 2 ^ 32) (h : decodeC w = .ok i) : i.ReadFrom .c w := by
  unfold decodeC at h
  split at h
  next major => exact decCAlu_reads hw major h
  next major => exact readsBack h rfl (congrArg some (Op.Imm.word_writes hw major))
  next major => exact readsBack h rfl (congrArg some (Op.Imm.word_writes hw major))
  next major => exact readsBack h rfl (congrArg some (Op.Imm.word_writes hw major))
  next major => exact readsBack h rfl (congrArg some (Op.Imm.word_writes hw major))
  next major => exact decCShifti_reads hw major h
  next major => exact readsBack h rfl (congrArg some (Op.Upper.word_writes hw major))
  next major => exact readsBack h rfl (congrArg some (Op.Upper.word_writes hw major))
  next major => exact decCCmp_reads hw major h
  next major => exact decCCmpi_reads hw major h
  next major => exact decCPred_reads hw major h
  next major =>
    obtain ⟨zero, h⟩ := reads_of_zero h
    exact readsBack h rfl (congrArg some (Op.Sel.word_writes hw major zero))
  next major => exact readsBack h rfl (congrArg some (Op.Mem.word_writes hw major))
  next major => exact readsBack h rfl (congrArg some (Op.Mem.word_writes hw major))
  next major => exact readsBack h rfl (congrArg some (Op.Mem.word_writes hw major))
  next major => exact readsBack h rfl (congrArg some (Op.Mem.word_writes hw major))
  next major => exact readsBack h rfl (congrArg some (Op.Mem.word_writes hw major))
  next major => exact readsBack h rfl (congrArg some (Op.Mem.word_writes hw major))
  next major => exact readsBack h rfl (congrArg some (Op.Mem.word_writes hw major))
  next major => exact readsBack h rfl (congrArg some (Op.Mem.word_writes hw major))
  next major => exact readsBack h rfl (congrArg some (Op.Mem.word_writes hw major))
  next major => exact readsBack h rfl (congrArg some (Op.Mem.word_writes hw major))
  next major => exact readsBack h rfl (congrArg some (Op.Mem.word_writes hw major))
  next major =>
    obtain ⟨zero, h⟩ := reads_of_zero h
    exact readsBack h rfl (congrArg some (Op.Wait.word_writes hw major zero))
  next major => exact readsBack h rfl (congrArg some (Op.Pbr.word_writes hw major))
  next major =>
    obtain ⟨⟨zero0, zero1⟩, h⟩ := reads_of_zero h
    exact readsBack h rfl (congrArg some (Op.Pbrx.word_writes hw major zero0 zero1))
  next major =>
    obtain ⟨zero, h⟩ := reads_of_zero h
    exact readsBack h rfl (congrArg some (Op.Branch.word_writes hw major zero))
  next major =>
    obtain ⟨zero, h⟩ := reads_of_zero h
    exact readsBack h rfl (congrArg some (Op.Branch.word_writes hw major zero))
  next major =>
    obtain ⟨zero, h⟩ := reads_of_zero h
    exact readsBack h rfl (congrArg some (Op.Loopc.word_writes hw major zero))
  next major => exact decCStrm_reads hw major h
  next major => exact decCToken_reads hw major h
  next major => exact decCTurn_reads hw major h
  next major => exact decCCancel_reads hw major h
  next major => exact decCPawn_reads hw major h
  next major => exact decCColl_reads hw major h
  next major => exact decCRack_reads hw major h
  next major =>
    obtain ⟨zero, h⟩ := reads_of_zero h
    exact readsBack h rfl (congrArg some (Op.CFence.word_writes hw major zero))
  next major => exact decCControl_reads hw major h
  next major => exact decCSys_reads hw major h
  next major => exact decCSete_reads hw major h
  next => cases h

theorem decTSacc_reads {w : Nat} {i : Instr} (hw : w < 2 ^ 32) (major : bits w 31 26 = 9) (h : decTSacc w = .ok i) : i.ReadFrom .t w := by
  unfold decTSacc at h
  split at h
  next fn =>
    obtain ⟨zero, h⟩ := reads_of_zero h
    exact readsBack h rfl (congrArg some (Op.Sacc.word_writes hw major fn zero))
  next fn =>
    obtain ⟨zero, h⟩ := reads_of_zero h
    exact readsBack h rfl (congrArg some (Op.Sacc.word_writes hw major fn zero))
  next fn =>
    obtain ⟨zero, h⟩ := reads_of_zero h
    exact readsBack h rfl (congrArg some (Op.Sacc.word_writes hw major fn zero))
  next fn =>
    obtain ⟨zero, h⟩ := reads_of_zero h
    exact readsBack h rfl (congrArg some (Op.Sacc.word_writes hw major fn zero))
  next => cases h

theorem decodeT_reads {w : Nat} {i : Instr} (hw : w < 2 ^ 32) (h : decodeT w = .ok i) : i.ReadFrom .t w := by
  unfold decodeT at h
  split at h
  next major => exact readsBack h rfl (congrArg some (Op.Tq.word_writes hw major))
  next major => exact readsBack h rfl (congrArg some (Op.Tq.word_writes hw major))
  next major =>
    obtain ⟨zero, h⟩ := reads_of_zero h
    exact readsBack h rfl (congrArg some (Op.Pref.word_writes hw major zero))
  next major => exact readsBack h rfl (congrArg some (Op.Tc.word_writes hw major))
  next major => exact readsBack h rfl (congrArg some (Op.Tc.word_writes hw major))
  next major => exact readsBack h rfl (congrArg some (Op.Tc.word_writes hw major))
  next major =>
    obtain ⟨zero, h⟩ := reads_of_zero h
    exact readsBack h rfl (congrArg some (Op.Tr.word_writes hw major zero))
  next major =>
    obtain ⟨zero, h⟩ := reads_of_zero h
    exact readsBack h rfl (congrArg some (Op.Tr.word_writes hw major zero))
  next major => exact decTSacc_reads hw major h
  next major =>
    obtain ⟨zero, h⟩ := reads_of_zero h
    exact readsBack h rfl (congrArg some (Op.Scas.word_writes hw major zero))
  next major => exact readsBack h rfl (congrArg some (Op.Adda.word_writes hw major))
  next major =>
    obtain ⟨zero, h⟩ := reads_of_zero h
    exact readsBack h rfl (congrArg some (Op.Addar.word_writes hw major zero))
  next major =>
    obtain ⟨zero, h⟩ := reads_of_zero h
    exact readsBack h rfl (congrArg some (Op.Loop.word_writes hw major zero))
  next major =>
    obtain ⟨zero, h⟩ := reads_of_zero h
    exact readsBack h rfl (congrArg some (Op.Chan.word_writes hw major zero))
  next major =>
    obtain ⟨zero, h⟩ := reads_of_zero h
    exact readsBack h rfl (congrArg some (Op.Chan.word_writes hw major zero))
  next major =>
    obtain ⟨zero, h⟩ := reads_of_zero h
    exact readsBack h rfl (congrArg some (Op.Sync.word_writes hw major zero))
  next major =>
    obtain ⟨zero, h⟩ := reads_of_zero h
    exact readsBack h rfl (congrArg some (Op.EFence.word_writes hw major zero))
  next major =>
    obtain ⟨zero, h⟩ := reads_of_zero h
    exact readsBack h rfl (congrArg some (Op.EBare.word_writes hw major zero))
  next major =>
    obtain ⟨zero, h⟩ := reads_of_zero h
    exact readsBack h rfl (congrArg some (Op.Waith.word_writes hw major zero))
  next => cases h

theorem decMNset_reads {w : Nat} {i : Instr} (hw : w < 2 ^ 32) (major : bits w 31 26 = 1) (h : decMNset w = .ok i) : i.ReadFrom .m w := by
  unfold decMNset at h
  split at h
  next fn =>
    obtain ⟨zero, h⟩ := reads_of_zero h
    exact readsBack h rfl (congrArg some (Op.NsetIns.word_writes hw major fn zero))
  next fn =>
    obtain ⟨⟨zero0, zero1⟩, h⟩ := reads_of_zero h
    exact readsBack h rfl (congrArg some (Op.NsetFmt.word_writes hw major fn zero0 zero1))
  next => 
    obtain ⟨zero, h⟩ := reads_of_zero h
    exact readsBack h rfl (congrArg some (Op.NsetLevel.word_writes hw major zero))

theorem decodeM_reads {w : Nat} {i : Instr} (hw : w < 2 ^ 32) (h : decodeM w = .ok i) : i.ReadFrom .m w := by
  unfold decodeM at h
  split at h
  next major => exact decMNset_reads hw major h
  next major =>
    obtain ⟨zero, h⟩ := reads_of_zero h
    exact readsBack h rfl (congrArg some (Op.Mgo.word_writes hw major zero))
  next major =>
    obtain ⟨zero, h⟩ := reads_of_zero h
    exact readsBack h rfl (congrArg some (Op.Mzero.word_writes hw major zero))
  next major =>
    obtain ⟨zero, h⟩ := reads_of_zero h
    exact readsBack h rfl (congrArg some (Op.Mc.word_writes hw major zero))
  next major =>
    obtain ⟨zero, h⟩ := reads_of_zero h
    exact readsBack h rfl (congrArg some (Op.Mc.word_writes hw major zero))
  next major =>
    obtain ⟨zero, h⟩ := reads_of_zero h
    exact readsBack h rfl (congrArg some (Op.Accmul.word_writes hw major zero))
  next major =>
    obtain ⟨⟨zero0, zero1⟩, h⟩ := reads_of_zero h
    exact readsBack h rfl (congrArg some (Op.MLoop.word_writes hw major zero0 zero1))
  next major =>
    obtain ⟨zero, h⟩ := reads_of_zero h
    exact readsBack h rfl (congrArg some (Op.Sync.word_writes hw major zero))
  next major =>
    obtain ⟨zero, h⟩ := reads_of_zero h
    exact readsBack h rfl (congrArg some (Op.EBare.word_writes hw major zero))
  next major =>
    obtain ⟨zero, h⟩ := reads_of_zero h
    exact readsBack h rfl (congrArg some (Op.EFence.word_writes hw major zero))
  next major =>
    obtain ⟨zero, h⟩ := reads_of_zero h
    exact readsBack h rfl (congrArg some (Op.Waith.word_writes hw major zero))
  next => cases h

theorem decVVfp_reads {w : Nat} {i : Instr} (hw : w < 2 ^ 32) (major : bits w 31 26 = 1) (h : decVVfp w = .ok i) : i.ReadFrom .v w := by
  unfold decVVfp at h
  split at h
  next fn => exact readsBack h rfl (congrArg some (Op.Vv.word_writes hw major fn))
  next fn => exact readsBack h rfl (congrArg some (Op.Vv.word_writes hw major fn))
  next fn => exact readsBack h rfl (congrArg some (Op.Vv.word_writes hw major fn))
  next fn => exact readsBack h rfl (congrArg some (Op.Vv.word_writes hw major fn))
  next fn => exact readsBack h rfl (congrArg some (Op.Vv.word_writes hw major fn))
  next fn => exact readsBack h rfl (congrArg some (Op.Vv.word_writes hw major fn))
  next fn =>
    obtain ⟨⟨zero0, zero1⟩, h⟩ := reads_of_zero h
    exact readsBack h rfl (congrArg some (Op.Vu.word_writes hw major fn zero0 zero1))
  next fn =>
    obtain ⟨⟨zero0, zero1⟩, h⟩ := reads_of_zero h
    exact readsBack h rfl (congrArg some (Op.Vu.word_writes hw major fn zero0 zero1))
  next => cases h

theorem decVVfx_reads {w : Nat} {i : Instr} (hw : w < 2 ^ 32) (major : bits w 31 26 = 2) (h : decVVfx w = .ok i) : i.ReadFrom .v w := by
  unfold decVVfx at h
  split at h
  next fn =>
    obtain ⟨⟨zero0, zero1⟩, h⟩ := reads_of_zero h
    exact readsBack h rfl (congrArg some (Op.Vu.word_writes hw major fn zero0 zero1))
  next fn =>
    obtain ⟨⟨zero0, zero1⟩, h⟩ := reads_of_zero h
    exact readsBack h rfl (congrArg some (Op.Vu.word_writes hw major fn zero0 zero1))
  next fn =>
    obtain ⟨⟨zero0, zero1⟩, h⟩ := reads_of_zero h
    exact readsBack h rfl (congrArg some (Op.Vu.word_writes hw major fn zero0 zero1))
  next fn =>
    obtain ⟨⟨zero0, zero1⟩, h⟩ := reads_of_zero h
    exact readsBack h rfl (congrArg some (Op.Vu.word_writes hw major fn zero0 zero1))
  next => cases h

theorem decVVint_reads {w : Nat} {i : Instr} (hw : w < 2 ^ 32) (major : bits w 31 26 = 3) (h : decVVint w = .ok i) : i.ReadFrom .v w := by
  unfold decVVint at h
  split at h
  next fn => exact readsBack h rfl (congrArg some (Op.Vv.word_writes hw major fn))
  next fn => exact readsBack h rfl (congrArg some (Op.Vv.word_writes hw major fn))
  next fn => exact readsBack h rfl (congrArg some (Op.Vv.word_writes hw major fn))
  next fn => exact readsBack h rfl (congrArg some (Op.Vv.word_writes hw major fn))
  next fn => exact readsBack h rfl (congrArg some (Op.Vv.word_writes hw major fn))
  next fn => exact readsBack h rfl (congrArg some (Op.Vv.word_writes hw major fn))
  next fn => exact readsBack h rfl (congrArg some (Op.Vv.word_writes hw major fn))
  next fn => exact readsBack h rfl (congrArg some (Op.Vv.word_writes hw major fn))
  next fn => exact readsBack h rfl (congrArg some (Op.Vv.word_writes hw major fn))
  next fn => exact readsBack h rfl (congrArg some (Op.Vv.word_writes hw major fn))
  next fn => exact readsBack h rfl (congrArg some (Op.Vv.word_writes hw major fn))
  next => cases h

theorem decVVcmp_reads {w : Nat} {i : Instr} (hw : w < 2 ^ 32) (major : bits w 31 26 = 4) (h : decVVcmp w = .ok i) : i.ReadFrom .v w := by
  unfold decVVcmp at h
  split at h
  next fn =>
    obtain ⟨⟨zero0, zero1⟩, h⟩ := reads_of_zero h
    exact readsBack h rfl (congrArg some (Op.Vc.word_writes hw major fn zero0 zero1))
  next fn =>
    obtain ⟨⟨zero0, zero1⟩, h⟩ := reads_of_zero h
    exact readsBack h rfl (congrArg some (Op.Vc.word_writes hw major fn zero0 zero1))
  next fn =>
    obtain ⟨⟨zero0, zero1⟩, h⟩ := reads_of_zero h
    exact readsBack h rfl (congrArg some (Op.Vc.word_writes hw major fn zero0 zero1))
  next fn =>
    obtain ⟨⟨zero0, zero1⟩, h⟩ := reads_of_zero h
    exact readsBack h rfl (congrArg some (Op.Vc.word_writes hw major fn zero0 zero1))
  next fn =>
    obtain ⟨⟨zero0, zero1⟩, h⟩ := reads_of_zero h
    exact readsBack h rfl (congrArg some (Op.Vc.word_writes hw major fn zero0 zero1))
  next fn =>
    obtain ⟨⟨zero0, zero1⟩, h⟩ := reads_of_zero h
    exact readsBack h rfl (congrArg some (Op.Vc.word_writes hw major fn zero0 zero1))
  next => cases h

theorem decVVfs_reads {w : Nat} {i : Instr} (hw : w < 2 ^ 32) (major : bits w 31 26 = 6) (h : decVVfs w = .ok i) : i.ReadFrom .v w := by
  unfold decVVfs at h
  split at h
  next fn => exact readsBack h rfl (congrArg some (Op.Vs.word_writes hw major fn))
  next fn => exact readsBack h rfl (congrArg some (Op.Vs.word_writes hw major fn))
  next fn => exact readsBack h rfl (congrArg some (Op.Vs.word_writes hw major fn))
  next fn => exact readsBack h rfl (congrArg some (Op.Vs.word_writes hw major fn))
  next fn => exact readsBack h rfl (congrArg some (Op.Vs.word_writes hw major fn))
  next fn => exact readsBack h rfl (congrArg some (Op.Vs.word_writes hw major fn))
  next => cases h

theorem decVVpack_reads {w : Nat} {i : Instr} (hw : w < 2 ^ 32) (major : bits w 31 26 = 10) (h : decVVpack w = .ok i) : i.ReadFrom .v w := by
  unfold decVVpack at h
  split at h
  next fn => exact readsBack h rfl (congrArg some (Op.Vv.word_writes hw major fn))
  next fn => exact readsBack h rfl (congrArg some (Op.Vv.word_writes hw major fn))
  next => cases h

theorem decVVred_reads {w : Nat} {i : Instr} (hw : w < 2 ^ 32) (major : bits w 31 26 = 11) (h : decVVred w = .ok i) : i.ReadFrom .v w := by
  unfold decVVred at h
  split at h
  next fn =>
    obtain ⟨⟨zero0, zero1⟩, h⟩ := reads_of_zero h
    exact readsBack h rfl (congrArg some (Op.Vu.word_writes hw major fn zero0 zero1))
  next fn =>
    obtain ⟨⟨zero0, zero1⟩, h⟩ := reads_of_zero h
    exact readsBack h rfl (congrArg some (Op.Vu.word_writes hw major fn zero0 zero1))
  next fn =>
    obtain ⟨⟨zero0, zero1⟩, h⟩ := reads_of_zero h
    exact readsBack h rfl (congrArg some (Op.Vu.word_writes hw major fn zero0 zero1))
  next => cases h

theorem decVVq_reads {w : Nat} {i : Instr} (hw : w < 2 ^ 32) (major : bits w 31 26 = 15) (h : decVVq w = .ok i) : i.ReadFrom .v w := by
  unfold decVVq at h
  split at h
  next fn =>
    obtain ⟨⟨zero0, zero1⟩, h⟩ := reads_of_zero h
    exact readsBack h rfl (congrArg some (Op.Vu.word_writes hw major fn zero0 zero1))
  next fn =>
    obtain ⟨⟨zero0, zero1⟩, h⟩ := reads_of_zero h
    exact readsBack h rfl (congrArg some (Op.Vp.word_writes hw major fn zero0 zero1))
  next fn =>
    obtain ⟨⟨zero0, zero1⟩, h⟩ := reads_of_zero h
    exact readsBack h rfl (congrArg some (Op.Vu.word_writes hw major fn zero0 zero1))
  next => cases h

theorem decVVshape_reads {w : Nat} {i : Instr} (hw : w < 2 ^ 32) (major : bits w 31 26 = 16) (h : decVVshape w = .ok i) : i.ReadFrom .v w := by
  unfold decVVshape at h
  split at h
  next fn =>
    obtain ⟨zero, h⟩ := reads_of_zero h
    exact readsBack h rfl (congrArg some (Op.Vset.word_writes hw major fn zero))
  next fn =>
    obtain ⟨zero, h⟩ := reads_of_zero h
    exact readsBack h rfl (congrArg some (Op.Vset.word_writes hw major fn zero))
  next => cases h

theorem decVVmask_reads {w : Nat} {i : Instr} (hw : w < 2 ^ 32) (major : bits w 31 26 = 17) (h : decVVmask w = .ok i) : i.ReadFrom .v w := by
  unfold decVVmask at h
  split at h
  next fn =>
    obtain ⟨zero, h⟩ := reads_of_zero h
    exact readsBack h rfl (congrArg some (Op.Vm.word_writes hw major fn zero))
  next fn =>
    obtain ⟨zero, h⟩ := reads_of_zero h
    exact readsBack h rfl (congrArg some (Op.Vm.word_writes hw major fn zero))
  next fn =>
    obtain ⟨zero, h⟩ := reads_of_zero h
    exact readsBack h rfl (congrArg some (Op.Vm.word_writes hw major fn zero))
  next fn =>
    obtain ⟨zero, h⟩ := reads_of_zero h
    exact readsBack h rfl (congrArg some (Op.Vn.word_writes hw major fn zero))
  next => cases h

theorem decVVsmov_reads {w : Nat} {i : Instr} (hw : w < 2 ^ 32) (major : bits w 31 26 = 18) (h : decVVsmov w = .ok i) : i.ReadFrom .v w := by
  unfold decVVsmov at h
  split at h
  next fn =>
    obtain ⟨zero, h⟩ := reads_of_zero h
    exact readsBack h rfl (congrArg some (Op.Vl2s.word_writes hw major fn zero))
  next fn =>
    obtain ⟨zero, h⟩ := reads_of_zero h
    exact readsBack h rfl (congrArg some (Op.Vs2l.word_writes hw major fn zero))
  next => cases h

theorem decVSp_reads {w : Nat} {i : Instr} (hw : w < 2 ^ 32) (major : bits w 31 26 = 24) (h : decVSp w = .ok i) : i.ReadFrom .v w := by
  unfold decVSp at h
  split at h
  next fn =>
    obtain ⟨zero, h⟩ := reads_of_zero h
    exact readsBack h rfl (congrArg some (Op.Spls.word_writes hw major fn zero))
  next fn =>
    obtain ⟨zero, h⟩ := reads_of_zero h
    exact readsBack h rfl (congrArg some (Op.Spls.word_writes hw major fn zero))
  next fn =>
    obtain ⟨zero, h⟩ := reads_of_zero h
    exact readsBack h rfl (congrArg some (Op.Spup.word_writes hw major fn zero))
  next fn =>
    obtain ⟨zero, h⟩ := reads_of_zero h
    exact readsBack h rfl (congrArg some (Op.Spdn.word_writes hw major fn zero))
  next fn =>
    obtain ⟨zero, h⟩ := reads_of_zero h
    exact readsBack h rfl (congrArg some (Op.Spcvt.word_writes hw major fn zero))
  next => cases h

theorem decodeV_reads {w : Nat} {i : Instr} (hw : w < 2 ^ 32) (h : decodeV w = .ok i) : i.ReadFrom .v w := by
  unfold decodeV at h
  split at h
  next major => exact decVVfp_reads hw major h
  next major => exact decVVfx_reads hw major h
  next major => exact decVVint_reads hw major h
  next major => exact decVVcmp_reads hw major h
  next major =>
    obtain ⟨zero, h⟩ := reads_of_zero h
    exact readsBack h rfl (congrArg some (Op.Vv.word_writes hw major zero))
  next major => exact decVVfs_reads hw major h
  next major => exact readsBack h rfl (congrArg some (Op.Vi.word_writes hw major))
  next major =>
    obtain ⟨⟨zero0, zero1⟩, h⟩ := reads_of_zero h
    exact readsBack h rfl (congrArg some (Op.Vbi.word_writes hw major zero0 zero1))
  next major =>
    obtain ⟨zero, h⟩ := reads_of_zero h
    exact readsBack h rfl (congrArg some (Op.Vcvt.word_writes hw major zero))
  next major => exact decVVpack_reads hw major h
  next major => exact decVVred_reads hw major h
  next major =>
    obtain ⟨zero, h⟩ := reads_of_zero h
    exact readsBack h rfl (congrArg some (Op.Vv.word_writes hw major zero))
  next major =>
    obtain ⟨⟨zero0, zero1⟩, h⟩ := reads_of_zero h
    exact readsBack h rfl (congrArg some (Op.Vb.word_writes hw major zero0 zero1))
  next major => exact readsBack h rfl (congrArg some (Op.Vi.word_writes hw major))
  next major => exact decVVq_reads hw major h
  next major => exact decVVshape_reads hw major h
  next major => exact decVVmask_reads hw major h
  next major => exact decVVsmov_reads hw major h
  next major => exact decVSp_reads hw major h
  next major =>
    obtain ⟨zero, h⟩ := reads_of_zero h
    exact readsBack h rfl (congrArg some (Op.Loop.word_writes hw major zero))
  next major =>
    obtain ⟨zero, h⟩ := reads_of_zero h
    exact readsBack h rfl (congrArg some (Op.Sync.word_writes hw major zero))
  next major =>
    obtain ⟨zero, h⟩ := reads_of_zero h
    exact readsBack h rfl (congrArg some (Op.EBare.word_writes hw major zero))
  next major =>
    obtain ⟨zero, h⟩ := reads_of_zero h
    exact readsBack h rfl (congrArg some (Op.EFence.word_writes hw major zero))
  next => cases h

end Sys2Proof
end

section
/-! PROOFS. The obligations of spec/13_assembly.md and spec/14_opcode_map.md. -/

namespace Sys2Proof.Proofs

/-- Settles O53: each stream's map row by row, from the instruction to its word and from the word to its instruction. -/
theorem wordsDecodeToThemselves : Obligations.WordsDecodeToThemselves := by
  unfold Obligations.WordsDecodeToThemselves
  refine ⟨fun i st stream wf => ?encodes, fun i st w lt read => ?reads⟩
  case encodes =>
    cases st with
    | c => exact decodeC_encode stream wf
    | t => exact decodeT_encode stream wf
    | m => exact decodeM_encode stream wf
    | v => exact decodeV_encode stream wf
  case reads =>
    cases st with
    | c => exact decodeC_reads lt read
    | t => exact decodeT_reads lt read
    | m => exact decodeM_reads lt read
    | v => exact decodeV_reads lt read

end Sys2Proof.Proofs
end

section
/-! SUPPORT. What the words of the C stream that compute a value compute, and where it lands (R275 to R285). -/

namespace Sys2Proof.Machine

open Sys2Proof.Claims

/-! ### Signed and unsigned readings (R276, R277) -/

/-- The two's complement reading of a word of n bits. -/
theorem sgn_toNat {n : Nat} [NeZero n] (a : BitVec n) : sgn n a.toNat = a.toInt := by
  have half : 2 ^ n = 2 * 2 ^ (n - 1) := (mul_pow_sub_one (NeZero.ne n) 2).symm
  have lt := a.isLt
  rw [sgn, Nat.mod_eq_of_lt lt, BitVec.toInt_eq_toNat_cond]
  generalize 2 ^ n = m at *
  split <;> split <;> omega

section
variable {n : Nat} (a b : BitVec n)

theorem add_eq_ofInt : a + b = BitVec.ofInt n ((a.toNat : Int) + b.toNat) := by
  rw [BitVec.ofInt_add, BitVec.ofInt_natCast, BitVec.ofInt_natCast, BitVec.ofNat_toNat, BitVec.ofNat_toNat, BitVec.setWidth_eq, BitVec.setWidth_eq]

theorem sub_eq_ofInt : a - b = BitVec.ofInt n ((a.toNat : Int) - b.toNat) := by
  rw [Int.sub_eq_add_neg, BitVec.ofInt_add, BitVec.ofInt_neg, BitVec.ofInt_natCast, BitVec.ofInt_natCast, BitVec.ofNat_toNat,
    BitVec.ofNat_toNat, BitVec.setWidth_eq, BitVec.setWidth_eq, BitVec.sub_eq_add_neg]

theorem eq_ofInt_of_toNat {v : BitVec n} {m : Nat} (h : v.toNat = m % 2 ^ n) : v = BitVec.ofInt n (m : Int) := by
  rw [BitVec.ofInt_natCast]
  exact BitVec.eq_of_toNat_eq (h.trans (BitVec.toNat_ofNat ..).symm)

theorem and_eq_ofInt : a &&& b = BitVec.ofInt n (a.toNat &&& b.toNat : Nat) := by
  rw [BitVec.ofInt_natCast, ← BitVec.toNat_and, BitVec.ofNat_toNat, BitVec.setWidth_eq]

theorem or_eq_ofInt : a ||| b = BitVec.ofInt n (a.toNat ||| b.toNat : Nat) := by
  rw [BitVec.ofInt_natCast, ← BitVec.toNat_or, BitVec.ofNat_toNat, BitVec.setWidth_eq]

theorem xor_eq_ofInt : a ^^^ b = BitVec.ofInt n (a.toNat ^^^ b.toNat : Nat) := by
  rw [BitVec.ofInt_natCast, ← BitVec.toNat_xor, BitVec.ofNat_toNat, BitVec.setWidth_eq]

theorem shl_eq_ofInt (k : Nat) : a <<< k = BitVec.ofInt n (a.toNat * 2 ^ k : Nat) :=
  eq_ofInt_of_toNat (by rw [BitVec.toNat_shiftLeft, Nat.shiftLeft_eq])

theorem shr_eq_ofInt (k : Nat) : a >>> k = BitVec.ofInt n (a.toNat / 2 ^ k : Nat) :=
  eq_ofInt_of_toNat (by
    rw [BitVec.toNat_ushiftRight, Nat.shiftRight_eq_div_pow]
    exact (Nat.mod_eq_of_lt (Nat.lt_of_le_of_lt (Nat.div_le_self ..) a.isLt)).symm)

theorem mulhuOf_eq_ofInt : mulhuOf a b = BitVec.ofInt n (a.toNat * b.toNat / 2 ^ n : Nat) := (BitVec.ofInt_natCast ..).symm

theorem mul_eq_ofInt : a * b = BitVec.ofInt n (a.toNat * b.toNat : Nat) := eq_ofInt_of_toNat (BitVec.toNat_mul ..)

theorem allOnes_eq_ofInt : BitVec.allOnes n = BitVec.ofInt n (-1) := by
  rw [← BitVec.neg_one_eq_allOnes, BitVec.ofInt_neg]
  rfl

theorem toNat_eq_zero_iff : b.toNat = 0 ↔ b = 0 := by
  rw [← BitVec.toNat_inj]
  rfl

theorem divuOf_eq_ofInt : divuOf a b = BitVec.ofInt n (if b.toNat = 0 then -1 else (a.toNat / b.toNat : Nat)) := by
  simp only [divuOf, toNat_eq_zero_iff, allOnes_eq_ofInt, ← BitVec.ofInt_natCast]
  split <;> rfl

theorem remuOf_eq_ofInt : remuOf a b = BitVec.ofInt n (if b.toNat = 0 then a.toNat else (a.toNat % b.toNat : Nat)) := by
  simp only [remuOf, toNat_eq_zero_iff]
  split
  · exact eq_ofInt_of_toNat (Nat.mod_eq_of_lt a.isLt).symm
  · exact (BitVec.ofInt_natCast ..).symm

end

section
variable {n : Nat} [NeZero n] (a b : BitVec n)

theorem sra_eq_ofInt (k : Nat) : a.sshiftRight k = BitVec.ofInt n (sgn n a.toNat / (2 ^ k : Nat)) := by
  rw [sgn_toNat, BitVec.sshiftRight, Int.shiftRight_eq_div_pow]

theorem mulhOf_eq_ofInt : mulhOf a b = BitVec.ofInt n (sgn n a.toNat * sgn n b.toNat / (2 ^ n : Nat)) := by
  rw [sgn_toNat, sgn_toNat, mulhOf, Nat.cast_pow, Nat.cast_ofNat]

theorem minOf_eq_ofInt : minOf a b = BitVec.ofInt n (min (sgn n a.toNat) (sgn n b.toNat)) := by
  rw [sgn_toNat, sgn_toNat]
  unfold minOf
  split
  · rw [min_eq_left ‹_›, BitVec.ofInt_toInt]
  · rw [min_eq_right (by omega), BitVec.ofInt_toInt]

theorem maxOf_eq_ofInt : maxOf a b = BitVec.ofInt n (max (sgn n a.toNat) (sgn n b.toNat)) := by
  rw [sgn_toNat, sgn_toNat]
  unfold maxOf
  split
  · rw [max_eq_right ‹_›, BitVec.ofInt_toInt]
  · rw [max_eq_left (by omega), BitVec.ofInt_toInt]

theorem divOf_eq_ofInt : divOf a b = BitVec.ofInt n (if b.toNat = 0 then -1 else (sgn n a.toNat).tdiv (sgn n b.toNat)) := by
  simp only [sgn_toNat, divOf, toNat_eq_zero_iff, allOnes_eq_ofInt]
  split <;> rfl

theorem remOf_eq_ofInt : remOf a b = BitVec.ofInt n (if b.toNat = 0 then sgn n a.toNat else (sgn n a.toNat).tmod (sgn n b.toNat)) := by
  simp only [sgn_toNat, remOf, toNat_eq_zero_iff]
  split
  · exact BitVec.ofInt_toInt.symm
  · rfl

end

/-! ### Members in their width (R277) -/

/-- A member whose two forms are one computation on numbers gives its result in the width that its word selects. -/
theorem aluForm_eq_inWidth {f : Nat → Nat → Nat → Int} {g64 : Word → Word → Word} {g32 : Half → Half → Half}
    (h64 : ∀ a b, g64 a b = BitVec.ofInt 64 (f 64 a.toNat b.toNat)) (h32 : ∀ a b, g32 a b = BitVec.ofInt 32 (f 32 a.toNat b.toNat))
    (w : Bool) (a b : Word) : aluForm w g64 g32 a b = inWidth w f a b := by
  cases w
  · exact h64 a b
  · exact congrArg (BitVec.signExtend 64)
      ((h32 _ _).trans (by rw [BitVec.truncate_eq_setWidth, BitVec.toNat_setWidth, BitVec.truncate_eq_setWidth, BitVec.toNat_setWidth]))

/-- The two forms of a member are its computation on numbers, in both widths. -/
def Computes (f : Nat → Nat → Nat → Int) (g64 : Word → Word → Word) (g32 : Half → Half → Half) : Prop :=
  (∀ a b, g64 a b = BitVec.ofInt 64 (f 64 a.toNat b.toNat)) ∧ ∀ a b, g32 a b = BitVec.ofInt 32 (f 32 a.toNat b.toNat)

/-- A member of the ALU family computes what the rules write of it; the divide members take the divider besides. -/
theorem exec_aluMember {i : Instr} {o : Op.Alu} {lat : Nat} {f : Nat → Nat → Nat → Int} (member : aluMember i = some (o, lat, f)) (s : State) :
    ∃ g64 g32, Computes f g64 g32 ∧ exec i s = .next (if lat = 20 then s.divide o g64 g32 else s.alu o lat g64 g32) := by
  unfold aluMember at member
  split at member <;> cases member
  case h_1 => exact ⟨_, _, ⟨add_eq_ofInt, add_eq_ofInt⟩, rfl⟩ -- ADD
  case h_2 => exact ⟨_, _, ⟨sub_eq_ofInt, sub_eq_ofInt⟩, rfl⟩ -- SUB
  case h_3 => exact ⟨_, _, ⟨and_eq_ofInt, and_eq_ofInt⟩, rfl⟩ -- AND
  case h_4 => exact ⟨_, _, ⟨or_eq_ofInt, or_eq_ofInt⟩, rfl⟩ -- OR
  case h_5 => exact ⟨_, _, ⟨xor_eq_ofInt, xor_eq_ofInt⟩, rfl⟩ -- XOR
  case h_6 => exact ⟨_, _, ⟨fun a _ => shl_eq_ofInt a _, fun a _ => shl_eq_ofInt a _⟩, rfl⟩ -- SHL
  case h_7 => exact ⟨_, _, ⟨fun a _ => shr_eq_ofInt a _, fun a _ => shr_eq_ofInt a _⟩, rfl⟩ -- SHR
  case h_8 => exact ⟨_, _, ⟨fun a _ => sra_eq_ofInt a _, fun a _ => sra_eq_ofInt a _⟩, rfl⟩ -- SRA
  case h_9 => exact ⟨_, _, ⟨minOf_eq_ofInt, minOf_eq_ofInt⟩, rfl⟩ -- MIN
  case h_10 => exact ⟨_, _, ⟨maxOf_eq_ofInt, maxOf_eq_ofInt⟩, rfl⟩ -- MAX
  case h_11 => exact ⟨_, _, ⟨mul_eq_ofInt, mul_eq_ofInt⟩, rfl⟩ -- MUL
  case h_12 => exact ⟨_, _, ⟨mulhOf_eq_ofInt, mulhOf_eq_ofInt⟩, rfl⟩ -- MULH
  case h_13 => exact ⟨_, _, ⟨mulhuOf_eq_ofInt, mulhuOf_eq_ofInt⟩, rfl⟩ -- MULHU
  case h_14 => exact ⟨_, _, ⟨divOf_eq_ofInt, divOf_eq_ofInt⟩, rfl⟩ -- DIV
  case h_15 => exact ⟨_, _, ⟨divuOf_eq_ofInt, divuOf_eq_ofInt⟩, rfl⟩ -- DIVU
  case h_16 => exact ⟨_, _, ⟨remOf_eq_ofInt, remOf_eq_ofInt⟩, rfl⟩ -- REM
  case h_17 => exact ⟨_, _, ⟨remuOf_eq_ofInt, remuOf_eq_ofInt⟩, rfl⟩ -- REMU

/-! ### Results that land (R157, R158) -/

theorem State.cLand_lands {s : State} (room : s.ctx.landingFull = false) (lat : Nat) (d : Dest) (v : BitVec 256) :
    s.cLand lat d v = landsIn s lat d v := by
  rw [State.cLand, room]
  exact s.land_issued lat d v

theorem State.cResult_lands {s : State} {rd : Fin 32} (may : mayLand s.ctx rd) (lat : Nat) (v : Word) :
    s.cResult rd lat v = landsIn s lat (.x rd) (v.setWidth 256) := by
  obtain ⟨free, room⟩ := may
  rw [State.cResult, free]
  exact State.cLand_lands room lat _ _

/-- A divide member that finds the divider free takes it (R159, R270). -/
theorem State.divide_lands {s : State} {o : Op.Alu} (on : s.ctx.getP o.g = true) (may : mayLand s.ctx o.rd) (free : s.ctx.divBusy ≤ s.cycle)
    (unsaved : s.ctx.divideSaved = false) (g64 : Word → Word → Word) (g32 : Half → Half → Half) :
    let t := landsIn s 20 (.x o.rd) ((aluForm o.w g64 g32 (s.ctx.getX o.ra) (s.ctx.getX o.rb)).setWidth 256)
    s.divide o g64 g32 = { t with ctx := { t.ctx with divBusy := s.cycle + 20 } } := by
  have idle : ¬ (s.cycle < s.ctx.divBusy ∨ s.ctx.divideSaved = true) := by
    simpa [unsaved] using free
  rw [State.divide, State.guarded_on on, if_neg idle, State.cResult_lands may, may.1, may.2]
  rfl

/-- A word whose guard is off only issues (R275). -/
theorem exec_guardOff {i : Instr} {s : State} {g : Fin 8} (guard : guardOf i = some g) (off : s.ctx.getP g = false) :
    exec i s = .next (nextWord s) := by
  have skips (f : State → State) : s.guarded g f = nextWord s := by
    rw [State.guarded, if_neg (by rw [off]; exact Bool.false_ne_true)]
    exact s.issuedIn_c
  unfold guardOf at guard
  split at guard <;> cases guard
  case h_107 o => -- SETN looks at what it releases under its guard only
    have arm : exec (.setn o) s = execSetn o s := rfl
    rw [arm, execSetn, off]
    exact congrArg Host.Outcome.next ((if_neg (by simp)).trans (skips _))
  all_goals exact congrArg _ (skips _)


/-! ### Immediates and constants (R279 to R281) -/

theorem addi_eq_ofInt (a : Word) (v : BitVec 13) : a + v.signExtend 64 = BitVec.ofInt 64 (a.toInt + v.toInt) := by
  rw [BitVec.ofInt_add, BitVec.ofInt_toInt]
  rfl

theorem lui_eq_ofInt (v : BitVec 18) : v.signExtend 64 <<< 14 = BitVec.ofInt 64 (v.toInt * 2 ^ 14) := by
  rw [BitVec.ofInt_mul, BitVec.shiftLeft_eq_mul_twoPow]
  rfl

theorem addpc_eq_ofInt {n : Nat} (pc : Word) (v : BitVec n) : pc + (v.signExtend 64 <<< 2) = BitVec.ofInt 64 (pc.toInt + v.toInt * 4) := by
  rw [BitVec.ofInt_add, BitVec.ofInt_mul, BitVec.shiftLeft_eq_mul_twoPow, BitVec.ofInt_toInt]
  rfl

theorem clzOf_eq_leadingZeros : ∀ (n a : Nat), a < 2 ^ n → clzOf n a = leadingZeros n a
  | 0, a, lt => by
    obtain rfl : a = 0 := by omega
    rfl
  | n + 1, a, lt => by
    have top : a / 2 ^ n < 2 := Nat.div_lt_of_lt_mul (by rwa [← Nat.pow_succ])
    by_cases one : a / 2 ^ n % 2 = 1
    · have high : 2 ^ n ≤ a := by
        by_contra low
        simp [Nat.div_eq_of_lt (Nat.lt_of_not_le low)] at one
      have some : a ≠ 0 := Nat.ne_of_gt (Nat.lt_of_lt_of_le (Nat.two_pow_pos n) high)
      rw [clzOf, if_pos one, leadingZeros, if_neg some, (Nat.log2_eq_iff some).2 ⟨high, lt⟩]
      omega
    · have low : a < 2 ^ n := by
        have none : a / 2 ^ n = 0 := by
          generalize a / 2 ^ n = q at top one
          omega
        exact (Nat.div_eq_zero_iff.1 none).resolve_left (Nat.two_pow_pos n).ne'
      rw [clzOf, if_neg one, clzOf_eq_leadingZeros n a low, leadingZeros, leadingZeros]
      split
      · omega
      · have := (Nat.log2_lt ‹_›).2 low
        omega

theorem popcOf_eq_oneBits : ∀ (n a : Nat), popcOf n a = oneBits n a
  | 0, _ => rfl
  | n + 1, a => by
    have rest : (List.range n).countP ((fun i => a.testBit i) ∘ Nat.succ) = oneBits n (a / 2) := by
      simp only [oneBits, Function.comp_def, Nat.succ_eq_add_one, Nat.testBit_succ]
    rw [popcOf, popcOf_eq_oneBits n (a / 2), oneBits.eq_def (n + 1), List.range_succ_eq_map, List.countP_cons, List.countP_map, rest,
      Nat.testBit_zero, Nat.add_comm]
    rcases Nat.mod_two_eq_zero_or_one a with h | h <;> simp [h]

/-- A member of one source gives its count in the width that its word selects. -/
theorem aluForm_eq_inWidth_one {f : Nat → Nat → Nat} {g : Nat → Nat → Nat} (h : ∀ n a, a < 2 ^ n → f n a = g n a) (w : Bool) (a : Word) :
    aluForm w (fun a _ => BitVec.ofNat 64 (f 64 a.toNat)) (fun a _ => BitVec.ofNat 32 (f 32 a.toNat)) a 0 = inWidth w (fun n a _ => g n a) a 0 :=
  aluForm_eq_inWidth (fun a _ => by rw [h _ _ a.isLt, BitVec.ofInt_natCast]) (fun a _ => by rw [h _ _ a.isLt, BitVec.ofInt_natCast]) w a 0

/-- The predicates as a number: bit 0 reads 1 (R284). -/
theorem Context.predBits_eq (c : Context) : c.predBits = BitVec.ofNat 64
    (1 + 2 * (c.getP 1).toNat + 4 * (c.getP 2).toNat + 8 * (c.getP 3).toNat + 16 * (c.getP 4).toNat + 32 * (c.getP 5).toNat +
      64 * (c.getP 6).toNat + 128 * (c.getP 7).toNat) := by
  have sum : ∀ p1 p2 p3 p4 p5 p6 p7 : Bool,
      ([true, p1, p2, p3, p4, p5, p6, p7].zipIdx.foldl (fun (v : Word) e => if e.1 then v ||| (1#64 <<< e.2) else v) 0) =
        BitVec.ofNat 64 (1 + 2 * p1.toNat + 4 * p2.toNat + 8 * p3.toNat + 16 * p4.toNat + 32 * p5.toNat + 64 * p6.toNat + 128 * p7.toNat) := by
    decide
  exact (sum (c.getP 1) (c.getP 2) (c.getP 3) (c.getP 4) (c.getP 5) (c.getP 6) (c.getP 7)) 

/-- A word that under its guard puts a value in flight to x[rd]. -/
theorem exec_resultWord {i : Instr} {s : State} {g : Fin 8} {rd : Fin 32} {v : Word} (value : State → Word) (on : s.ctx.getP g = true)
    (meaning : exec i s = .next (s.guarded g (fun s => s.cResult rd 1 (value s)))) (eq : value s = v) : exec i s = .next (s.cResult rd 1 v) := by
  rw [meaning, State.guarded_on on, eq]

/-- A word of one source, of an immediate or of a predicate gives its value to x[rd] at latency 1 (R276, R279 to R281, R284, R285). -/
theorem exec_xWord_value {i : Instr} {s : State} {g : Fin 8} {rd : Fin 32} {v : Word} (word : xWord s.ctx i = some (g, rd, v))
    (on : s.ctx.getP g = true) : exec i s = .next (s.cResult rd 1 v) := by
  unfold xWord at word
  split at word <;> cases word
  case h_1 => exact exec_resultWord _ on rfl (aluForm_eq_inWidth_one clzOf_eq_leadingZeros _ _) -- CLZ
  case h_2 => exact exec_resultWord _ on rfl (aluForm_eq_inWidth_one (fun n a _ => popcOf_eq_oneBits n a) _ _) -- POPC
  case h_3 => exact exec_resultWord _ on rfl (addi_eq_ofInt _ _) -- ADDI
  case h_4 | h_5 | h_6 => exact exec_resultWord _ on rfl rfl -- ANDI, ORI, XORI
  case h_7 => exact exec_resultWord _ on rfl ((shl_eq_ofInt _ _).trans (BitVec.ofInt_natCast ..)) -- SHLI
  case h_8 => exact exec_resultWord _ on rfl ((shr_eq_ofInt _ _).trans (BitVec.ofInt_natCast ..)) -- SHRI
  case h_9 => exact exec_resultWord _ on rfl ((sra_eq_ofInt _ _).trans (by rw [sgn_toNat, Nat.cast_pow, Nat.cast_ofNat])) -- SRAI
  case h_10 => exact exec_resultWord _ on rfl (lui_eq_ofInt _) -- LUI
  case h_11 => exact exec_resultWord _ on rfl (addpc_eq_ofInt _ _) -- ADDPC
  case h_12 => exact exec_resultWord _ on rfl rfl -- SEL
  case h_13 => exact exec_resultWord _ on rfl (s.ctx.predBits_eq) -- PTO

/-! ### Compares and predicates (R282 to R284) -/

theorem toInt_signExtend13 (v : BitVec 13) : (v.signExtend 64).toInt = v.toInt := BitVec.toInt_signExtend_of_le (by decide)

/-- A compare or predicate word puts its value in flight to p[pd] at latency 1 (R270). -/
theorem State.cPred_eq (s : State) (pd : Fin 8) (v : Bool) : s.cPred pd v = s.cLand 1 (.p pd) (BitVec.ofNat 256 v.toNat) := by
  cases v <;> rfl

/-- A word that under its guard puts a value in flight to p[pd]. -/
theorem exec_predicateWord {i : Instr} {s : State} {g pd : Fin 8} {v : Bool} (value : State → Bool) (on : s.ctx.getP g = true)
    (meaning : exec i s = .next (s.guarded g (fun s => s.cPred pd (value s)))) (eq : value s = v) :
    exec i s = .next (s.cLand 1 (.p pd) (BitVec.ofNat 256 v.toNat)) := by
  rw [meaning, State.guarded_on on, eq, State.cPred_eq]

theorem exec_pWord {i : Instr} {s : State} {g pd : Fin 8} {v : Bool} (word : pWord s.ctx i = some (g, pd, v)) (on : s.ctx.getP g = true) :
    exec i s = .next (s.cLand 1 (.p pd) (BitVec.ofNat 256 v.toNat)) := by
  unfold pWord at word
  split at word <;> cases word
  case h_1 => exact exec_predicateWord _ on rfl (decide_eq_decide.2 BitVec.toNat_inj.symm) -- CMP.EQ
  case h_2 => exact exec_predicateWord _ on rfl ((congrArg (!·) (decide_eq_decide.2 BitVec.toNat_inj.symm)).trans (decide_not ..).symm) -- CMP.NE
  case h_7 => exact exec_predicateWord _ on rfl (decide_eq_decide.2 (by rw [← toInt_signExtend13, BitVec.toInt_inj])) -- CMPI.EQ
  case h_8 => -- CMPI.NE
    exact exec_predicateWord _ on rfl
      ((congrArg (!·) (decide_eq_decide.2 (by rw [← toInt_signExtend13, BitVec.toInt_inj]))).trans (decide_not ..).symm)
  case h_9 => exact exec_predicateWord _ on rfl (congrArg (fun i => decide (_ < i)) (toInt_signExtend13 _)) -- CMPI.LT
  case h_3 | h_4 | h_5 | h_6 | h_10 | h_11 | h_12 | h_13 | h_14 => -- CMP.LT, LTU, GE, GEU, CMPI.LTU, PAND, POR, PXOR, PANDN
    exact exec_predicateWord _ on rfl rfl

end Sys2Proof.Machine
end

section
/-! PROOFS. The words of spec/15_control_arith.md that compute a value. -/

namespace Sys2Proof.Proofs
open Sys2Proof.Machine Sys2Proof.Claims

/-- Settles O1: a member's two forms compute what the rules write, and its result lands, a divide member's with the divider taken. -/
theorem aluMembersLandTheirResults : Obligations.AluMembersLandTheirResults := by
  unfold Obligations.AluMembersLandTheirResults
  intro i s
  split
  next => trivial
  next o lat f member =>
    intro on may divider
    obtain ⟨g64, g32, ⟨h64, h32⟩, meaning⟩ := exec_aluMember member s
    rw [meaning, ← aluForm_eq_inWidth h64 h32]
    by_cases divides : lat = 20
    · obtain ⟨free, unsaved⟩ := divider divides
      subst divides
      exact congrArg Host.Outcome.next (State.divide_lands on may free unsaved g64 g32)
    · simp only [if_neg divides]
      exact congrArg Host.Outcome.next ((State.guarded_on on _).trans (State.cResult_lands may lat _))

/-- Settles O2: each value by its equation, and every one lands in x[rd]. -/
theorem immediateAndSelectWordsLandTheirValue : Obligations.ImmediateAndSelectWordsLandTheirValue := by
  unfold Obligations.ImmediateAndSelectWordsLandTheirValue
  intro i s g rd v word on may
  rw [exec_xWord_value word on, State.cResult_lands may]

/-- Settles O3: each value by its equation, and every one lands in p[pd]. -/
theorem compareAndPredicateWordsLandTheirValue : Obligations.CompareAndPredicateWordsLandTheirValue := by
  unfold Obligations.CompareAndPredicateWordsLandTheirValue
  refine ⟨fun i s g pd v word on room => ?_, fun o s on room => ?_⟩
  · rw [exec_pWord word on, State.cLand_lands room]
  · exact congrArg Host.Outcome.next ((State.guarded_on on _).trans (State.cLand_lands room 1 .preds _))

/-- Settles O4: a guard that is off leaves the issue alone. -/
theorem guardedOffWordOnlyIssues : Obligations.GuardedOffWordOnlyIssues := by
  unfold Obligations.GuardedOffWordOnlyIssues
  exact fun i s g guard off => exec_guardOff guard off

end Sys2Proof.Proofs
end

section
/-! SUPPORT. Memory words and branches of the C stream (R274, R286 to R292, R320). -/

namespace Sys2Proof.Machine
open Sys2Proof.Claims

/-! ### Issue after a change of the context -/

/-- What a first issue starts again stands apart from what else the context is. -/
theorem refetched_withCtx (s : State) {c : Context} (same : targetsAgain c = targetsAgain s.ctx) :
    refetched { s with ctx := c } = { refetched s with ctx := c } := by
  rw [refetched, same]
  exact s.refetch_withCtx c _

/-- A C word that has changed the context goes to a word. -/
theorem State.issuedAt_withCtx (s : State) {c : Context} (same : targetsAgain c = targetsAgain s.ctx) (pc : Word) (fresh : Bool) :
    ({ s with ctx := c } : State).issuedAt .c pc [] fresh = { refetched s with ctx := issuedC c s.cycle pc [] } := by
  rw [State.issuedAt_c, refetched_withCtx s same]

/-- A result put in flight by a word goes with its issue. -/
theorem issuedC_landing (c : Context) (now : Nat) (pc : Word) (new : List Landing) :
    issuedC { c with landing := c.landing ++ new } now pc [] = issuedC c now pc new := by
  have fields : issuedC { c with landing := c.landing ++ new } now pc [] =
      { issuedC c now pc new with landing := c.landing ++ new ++ [] ++ reloaded c now } := rfl
  rw [fields, List.append_nil]
  rfl

/-- The target that a branch register starts again, if a stop discarded its prefetch (R274). -/
def BReg.again (r : BReg) : Option Word := if r.byPbr && r.ready.isNone then some r.val else none

/-- A fetch spent by a branch is not one that a first issue starts again. -/
theorem targetsAgain_spent (c : Context) (bt : Fin 8) : targetsAgain (spent c bt) = targetsAgain c := by
  unfold spent
  split
  · rfl
  next other =>
    have stays : ∀ r : Fin 8, BReg.again (c.b.set bt { c.b[bt] with ready := none })[r] = BReg.again c.b[r] := by
      intro r
      by_cases here : r = bt
      · subst here
        have off : c.b[r.val].byPbr = false := by simpa using other
        simp [BReg.again, off]
      · have ne : bt.val ≠ r.val := fun h => here (Fin.ext h.symm)
        simp [Vector.getElem_set_ne, ne]
    exact congrArg (fun f => if reloads c then (List.finRange 8).filterMap f ++ _ else []) (funext stays)

/-! ### Memory words (R286, R287, R320) -/

theorem State.takeDelay_eq (s : State) : s.takeDelay = (s.delays.headD 0, { s with delays := s.delays.tail }) := by
  unfold State.takeDelay
  split
  next none => exact Prod.ext (by rw [none]; rfl) (by rw [none]; exact congrArg (fun l => { s with delays := l }) none)
  next some => rw [some]; rfl

/-- An aligned access that no hazard holds takes its token for the cycles of its access. -/
theorem State.cAccess_takes {s : State} {k : Fin 8} {owned : List (Fin 32)} {a : Word} {n : Nat} (may : mayTake s.ctx k owned)
    (aligned : a.toNat % n = 0) (acc : Acc) (op : TokOp) : s.cAccess k owned acc a n op = accessed s k op (s.memLat acc a.toNat n) owned := by
  rw [State.cAccess, Context.tokHazard_eq_none may, State.takeDelay_eq]
  exact (if_neg (fun odd => odd aligned)).trans (State.takeTok_issued _ k op _ owned)

theorem State.loadWord_takes {s : State} {o : Op.Mem} {n : Nat} (on : s.ctx.getP o.g = true) (may : mayTake s.ctx o.tok [o.rd])
    (aligned : (memAt s.ctx o.ra o.off n).toNat % n = 0) (signed : Bool) : s.loadWord o n signed =
      let a := memAt s.ctx o.ra o.off n
      accessed s o.tok (.load n signed o.rd a) (s.memLat .read a.toNat n) [o.rd] := by
  rw [← State.memAddr_eq] at aligned ⊢
  exact (State.guarded_on on _).trans (State.cAccess_takes may aligned .read _)

theorem State.storeWord_takes {s : State} {o : Op.Mem} {n : Nat} (on : s.ctx.getP o.g = true) (may : mayTake s.ctx o.tok [])
    (aligned : (memAt s.ctx o.ra o.off n).toNat % n = 0) : s.storeWord o n =
      let a := memAt s.ctx o.ra o.off n
      accessed s o.tok (.store n a (s.ctx.getX o.rd)) (s.memLat .write a.toNat n) [] := by
  rw [← State.memAddr_eq] at aligned ⊢
  exact (State.guarded_on on _).trans (State.cAccess_takes may aligned .write _)

/-- An access of the C path takes at least 8 cycles (R270, R287). -/
theorem State.eight_le_memLat (s : State) (k : Acc) (a n : Nat) : 8 ≤ s.memLat k a n := by
  unfold State.memLat
  split
  · exact le_max_left ..
  · split
    · exact le_max_left ..
    · exact le_rfl

/-! ### Branches (R274, R290 to R292) -/

/-- A branch through a register that is ready goes to its target, having spent a fetch of its own (R291). -/
theorem State.branchTo_ready {s : State} {bt : Fin 8} (ready : targetReady s bt) (f : State → State) :
    s.branchTo bt f = (f { s with ctx := spent s.ctx bt }).issuedTo s.ctx.b[bt].val := by
  obtain ⟨aligned, low, here, t, fetched, past⟩ := ready
  have goes : s.branchWaits bt = false := by
    rw [State.branchWaits, fetched, here]
    simpa using past
  have known : ¬ s.ctx.b[bt].ready.isNone = true := by rw [fetched]; exact Bool.false_ne_true
  have stays : ¬ s.branchWaits bt = true := by simp [goes]
  unfold State.branchTo spent
  rw [if_neg (fun odd => odd aligned), if_neg (Nat.not_le.2 low), if_neg known, if_neg stays]
  split <;> rfl

theorem fetchStarted_ctx (s : State) (t : Word) : (fetchStarted s t).ctx = s.ctx := by
  rw [fetchStarted, State.prefetchPage_frame]

theorem fetchStarted_cycle (s : State) (t : Word) : (fetchStarted s t).cycle = s.cycle := by
  rw [fetchStarted, State.prefetchPage_frame]

/-- A branch register is written, its fetch starts, and the C stream goes to a word. -/
theorem State.landB_issuedAt (s : State) {c : Context} (same : targetsAgain c = targetsAgain s.ctx) (bt : Fin 8) (t pc : Word) (fresh : Bool) :
    (({ s with ctx := c } : State).landB bt t).issuedAt .c pc [] fresh =
      { refetched (fetchStarted { s with serial := s.serial + 1 } t) with
        ctx := issuedC c s.cycle pc [{ due := s.cycle + 1, serial := s.serial, st := .c, dst := .b bt true s.cycle, val := t.setWidth 256 }] } := by
  have landed : ({ s with ctx := c } : State).landB bt t = { fetchStarted { s with serial := s.serial + 1 } t with
      ctx := { c with landing := c.landing ++
        [{ due := s.cycle + 1, serial := s.serial, st := .c, dst := .b bt true s.cycle, val := t.setWidth 256 }] } } :=
    State.prefetchPage_withCtx { s with serial := s.serial + 1 } _ .c t.toNat
  have cycle := fetchStarted_cycle { s with serial := s.serial + 1 } t
  have ctx := fetchStarted_ctx { s with serial := s.serial + 1 } t
  refine (congrArg (State.issuedAt · .c pc [] fresh) landed).trans
    ((State.issuedAt_withCtx (fetchStarted { s with serial := s.serial + 1 } t) ?_ pc fresh).trans ?_)
  · exact same.trans (congrArg targetsAgain ctx.symm)
  · rw [cycle, issuedC_landing]

/-- A result goes in flight, and the C stream goes to a word. -/
theorem State.land_issuedAt (s : State) {c : Context} (same : targetsAgain c = targetsAgain s.ctx) (lat : Nat) (d : Dest) (v : BitVec 256)
    (pc : Word) (fresh : Bool) : (({ s with ctx := c } : State).land .c lat d v).issuedAt .c pc [] fresh =
      { refetched { s with serial := s.serial + 1 } with
          ctx := issuedC c s.cycle pc [{ due := s.cycle + lat, serial := s.serial, st := .c, dst := d, val := v }] } := by
  rw [← issuedC_landing]
  exact State.issuedAt_withCtx { s with serial := s.serial + 1 }
    (c := { c with landing := c.landing ++ [{ due := s.cycle + lat, serial := s.serial, st := .c, dst := d, val := v }] }) same pc fresh

theorem exec_pbr {s : State} {o : Op.Pbr} (on : s.ctx.getP o.g = true) (room : s.ctx.landingFull = false) :
    exec (.pbr o) s = .next ((s.landB o.bt (s.ctx.cs.pc + (o.disp.signExtend 64 <<< 2))).issuedAt .c (s.ctx.cs.pc + 4) [] false) := by
  refine congrArg Host.Outcome.next ((State.guarded_on on _).trans ((if_neg (by simp [room])).trans ?_))
  have stands : (s.landB o.bt (s.ctx.cs.pc + (o.disp.signExtend 64 <<< 2))).ctx.cs = s.ctx.cs := by
    rw [State.landB, State.startFetch, State.prefetchPage_frame]
    rfl
  exact congrArg (fun r : StreamSt => State.issuedAt _ .c (r.pc + 4) [] false) stands

theorem exec_call {s : State} {o : Op.Branch} (on : s.ctx.getP o.g = true) (room : s.ctx.landingFull = false) (ready : targetReady s o.bt) :
    exec (.call o) s = .next ((({ s with ctx := spent s.ctx o.bt } : State).landB 7 ((spent s.ctx o.bt).cs.pc + 4)).issuedTo s.ctx.b[o.bt].val) :=
  congrArg Host.Outcome.next ((State.guarded_on on _).trans ((if_neg (by simp [room])).trans (State.branchTo_ready ready _)))

theorem spent_cs (c : Context) (bt : Fin 8) : (spent c bt).cs = c.cs := by
  unfold spent
  split <;> rfl

/-- LOOPC counts down and goes to its target, or past itself once it has reached 0. -/
theorem exec_loopc {s : State} {o : Op.Loopc} (on : s.ctx.getP o.g = true) (may : mayLand s.ctx o.rc) :
    let v := s.ctx.getX o.rc - 1
    let f := fun (s : State) => s.land .c 1 (.x o.rc) (v.setWidth 256)
    exec (.loopc o) s = .next (if v = 0 then (f s).issuedIn .c else s.branchTo o.bt f) := by
  obtain ⟨free, room⟩ := may
  exact congrArg Host.Outcome.next ((State.guarded_on on _).trans ((if_neg (by simp [free])).trans (if_neg (by simp [room]))))

theorem sub_one_eq_ofInt (a : Word) : a - 1 = BitVec.ofInt 64 (a.toInt - 1) := by
  rw [Int.sub_eq_add_neg, BitVec.ofInt_add, BitVec.ofInt_toInt, BitVec.ofInt_neg, BitVec.sub_eq_add_neg]
  rfl

end Sys2Proof.Machine
end

section
/-! PROOFS. The memory words and branches of spec/15_control_arith.md. -/

namespace Sys2Proof.Proofs
open Sys2Proof.Machine Sys2Proof.Claims

/-- Settles O6: each word takes its token at its aligned address. -/
theorem memoryWordsTakeTheirToken : Obligations.MemoryWordsTakeTheirToken := by
  unfold Obligations.MemoryWordsTakeTheirToken
  refine ⟨fun o s on may => ?_, fun o s on may => ?_, fun o s on may aligned => ?_, fun s k a n => ⟨s.eight_le_memLat k a n, fun key found => ?_⟩⟩
  · have loads {n : Nat} (aligned : (memAt s.ctx o.ra o.off n).toNat % n = 0) (signed : Bool) :=
      congrArg (Host.Outcome.next (φ := Fault) (ρ := Refusal)) (State.loadWord_takes on may aligned signed)
    exact ⟨loads (Nat.mod_one _) true, loads (Nat.mod_one _) false, fun h => ⟨loads h true, loads h false⟩, fun w => ⟨loads w true, loads w false⟩,
      fun d => loads d false⟩
  · have stores {n : Nat} (aligned : (memAt s.ctx o.ra o.off n).toNat % n = 0) :=
      congrArg (Host.Outcome.next (φ := Fault) (ρ := Refusal)) (State.storeWord_takes on may aligned)
    exact ⟨stores (Nat.mod_one _), stores, stores, stores⟩
  · exact congrArg Host.Outcome.next ((State.guarded_on on _).trans (State.cAccess_takes may aligned .read _))
  · rw [State.memLat, found]

/-- Settles O10: a word puts its result in flight as it goes to its target, from the state in which the fetch has started. -/
theorem branchWordsLandAndFollowTargets : Obligations.BranchWordsLandAndFollowTargets := by
  unfold Obligations.BranchWordsLandAndFollowTargets
  refine ⟨⟨fun o s on room => ?_, fun o s on room => ?_⟩, ⟨fun o s on ready => ?_, fun o s on room ready => ?_⟩, fun o s on may => ?_⟩
  case refine_1 => -- PBR
    intro target
    have place : target = s.ctx.cs.pc + (o.disp.signExtend 64 <<< 2) := (addpc_eq_ofInt ..).symm
    rw [exec_pbr on room, place]
    exact congrArg Host.Outcome.next (s.landB_issuedAt rfl o.bt _ _ false)
  case refine_2 => -- PBRX
    exact congrArg Host.Outcome.next ((State.guarded_on on _).trans (State.cLand_lands room 1 _ _))
  case refine_3 => -- BR
    exact congrArg Host.Outcome.next ((State.guarded_on on _).trans
      ((State.branchTo_ready ready id).trans (s.issuedAt_withCtx (targetsAgain_spent ..) _ true)))
  case refine_4 => -- CALL
    rw [exec_call on room ready, spent_cs]
    exact congrArg Host.Outcome.next (s.landB_issuedAt (targetsAgain_spent ..) 7 _ _ true)
  case refine_5 => -- LOOPC
    rw [exec_loopc on may, ← sub_one_eq_ofInt]
    refine ⟨fun done => congrArg Host.Outcome.next ((if_pos done).trans (s.land_issued 1 _ _)), fun goes ready => ?_⟩
    exact congrArg Host.Outcome.next
      ((if_neg goes).trans ((State.branchTo_ready ready _).trans (s.land_issuedAt (targetsAgain_spent ..) 1 _ _ _ true)))

end Sys2Proof.Proofs
end

section
/-! SUPPORT. Words of the C stream that couple the streams, create turns or end their own, and pass accesses (R289, R296 to R308, R315, R316). -/

namespace Sys2Proof.Machine
open Sys2Proof.Claims

/-! ### Synchronising words (R289, R297, R298, R300) -/

/-- A C word that has changed the context stands at the next word. -/
theorem State.issuedIn_withCtx (s : State) {c : Context} (same : targetsAgain c = targetsAgain s.ctx) :
    ({ s with ctx := c } : State).issuedIn .c = { refetched s with ctx := issuedC c s.cycle (c.cs.pc + 4) [] } :=
  s.issuedAt_withCtx same _ false

theorem State.observe_eq (s : State) : s.observe = afterCancel s := by
  unfold State.observe afterCancel
  cases s.ctx.turn <;> rfl

theorem Context.anyPending_eq_false {c : Context} {mask : BitVec 8} (settled : ∀ k : Fin 8, mask.getLsbD k.val = true → c.tok[k] = none) :
    c.anyPending mask = false := by
  unfold Context.anyPending
  rw [List.any_eq_false]
  intro k _ pending
  obtain ⟨named, some⟩ := Bool.and_eq_true_iff.1 pending
  rw [settled k named] at some
  exact Bool.false_ne_true some

theorem Context.anyPending_eq_true {c : Context} {mask : BitVec 8} {k : Fin 8} (named : mask.getLsbD k.val = true) (pending : c.tok[k] ≠ none) :
    c.anyPending mask = true :=
  List.any_eq_true.2 ⟨k, List.mem_finRange k, Bool.and_eq_true_iff.2 ⟨named, Option.isSome_iff_ne_none.2 pending⟩⟩

theorem chanIx_fromC (eng : Fin 4) : chanIx 0 eng.val = fromC eng := by
  revert eng
  decide

theorem chanIx_toC (eng : Fin 4) : chanIx eng.val 0 = toC eng := by
  revert eng
  decide

theorem exec_wait {s : State} {o : Op.Wait} (on : s.ctx.getP o.g = true) : exec (.wait o) s = .next (if s.ctx.anyPending o.mask then
    { waitsOn s .tokens with ctx := { (waitsOn s .tokens).ctx with waitMask := o.mask } }
    else { nextWord s with ctx := { (nextWord s).ctx with waitMask := 0 } }) := by
  rw [← State.issuedIn_c]
  exact congrArg Host.Outcome.next (State.guarded_on on _)

theorem exec_sdrain {s : State} {o : Op.Drain} (on : s.ctx.getP o.g = true) (some : o.mask ≠ 0) :
    exec (.sdrain o) s = .next (if draining o.mask s.ctx = true then waitsOn s .drain else nextWord s) := by
  rw [← State.issuedIn_c]
  exact congrArg Host.Outcome.next ((State.guarded_on on _).trans (if_neg some))

/-- TPOST pushes its token into a channel with room. -/
theorem exec_tpost {s : State} {o : Op.Token} (on : s.ctx.getP o.g = true) (some : o.eng ≠ 0) :
    exec (.tpost o) s = .next (if s.ctx.tokenRoom (fromC o.eng) then
      (s.onCtx (fun c => c.pushToken (fromC o.eng) s.cycle (c.knowAt .c s.serial))).issuedIn .c else waitsOn s .channel) := by
  rw [← chanIx_fromC]
  refine congrArg Host.Outcome.next ((State.guarded_on on _).trans ((if_neg some).trans ?_))
  cases s.ctx.tokenRoom (chanIx 0 o.eng.val) <;> rfl

/-- TAWAIT pops a token that is ready, and learns what it knows. -/
theorem exec_tawait {s : State} {o : Op.Token} {i : Fin 12} (ix : chanIx o.eng.val 0 = i) (on : s.ctx.getP o.g = true) (some : o.eng ≠ 0) :
    exec (.tawait o) s = .next (if s.ctx.tokenReady i s.cycle then
      (s.onCtx (fun c => (c.popToken i).learn .c (c.chans[i].headD { made := 0, know := Know.none }).know)).issuedIn .c
      else waitsOn s .channel) := by
  subst ix
  refine congrArg Host.Outcome.next ((State.guarded_on on _).trans ((if_neg some).trans ?_))
  cases s.ctx.tokenReady (chanIx o.eng.val 0) s.cycle <;> rfl

/-- A token popped leaves its channel, and the stream knows what it knows. -/
theorem Context.popToken_learn {c : Context} {i : Fin 12} {t : Tok} {rest : List Tok} (head : c.chans[i] = t :: rest) (d : Tok) :
    (c.popToken i).learn .c (c.chans[i].headD d).know =
      { c with chans := c.chans.set i rest, cs := { c.cs with know := c.cs.know.join t.know } } := by
  rw [Context.popToken, head]
  rfl

theorem exec_cpoint {s : State} {o : Op.Bare} (on : s.ctx.getP o.g = true) : exec (.cpoint o) s = .next (afterCancel (nextWord s)) := by
  rw [← State.observe_eq, ← State.issuedIn_c]
  exact congrArg Host.Outcome.next (State.guarded_on on _)

/-! ### Starts, creation and the end of a turn (R296, R302, R304) -/

/-- A start of an idle stream at a word address makes it run from there. -/
theorem State.startStrm_runs {s : State} {st : Strm} {o : Op.OneSrc} (on : s.ctx.getP o.g = true) (idle : (s.ctx.strm st).run = false)
    (aligned : (s.ctx.getX o.ra).toNat % 4 = 0) (low : (s.ctx.getX o.ra).toNat < 2 ^ 52) :
    s.startStrm st o = (s.onCtx (fun c => c.onStrm st (fun r =>
      startedAt r (s.ctx.getX o.ra) s.cycle c.held { s.ctx.cs.know with c := s.serial }))).issuedIn .c :=
  (State.guarded_on on _).trans ((if_neg (by rw [idle]; exact Bool.false_ne_true)).trans
    ((if_neg (fun odd => odd aligned)).trans (if_neg (Nat.not_le.2 low))))

/-- SPAWN with an aligned record and room takes its token, and observes a cancel. -/
theorem exec_spawn {s : State} {o : Op.TokSrc} (on : s.ctx.getP o.g = true) (aligned : (s.ctx.getX o.ra).toNat % 64 = 0)
    (may : mayTake s.ctx o.tok [])
    (room : s.needsSpill (clusterOf s.site) (s.recordTurn (s.ctx.getX o.ra)) = true → s.spillRoom (clusterOf s.site) = true) :
    exec (.spawn o) s = .next (afterCancel (tokenTaken s o.tok (.spawn (s.ctx.getX o.ra)) (s.recordLat (s.ctx.getX o.ra).toNat) [])) := by
  have goes : ¬ (s.needsSpill (clusterOf s.site) (s.recordTurn (s.ctx.getX o.ra)) && !s.spillRoom (clusterOf s.site)) = true := by
    cases spills : s.needsSpill (clusterOf s.site) (s.recordTurn (s.ctx.getX o.ra))
    · simp
    · simp [room spills]
  have arm : exec (.spawn o) s = execSpawn o s := rfl
  rw [arm, execSpawn, State.guarded_on on, Context.tokHazard_eq_none may, ← State.observe_eq, ← State.takeTok_issued]
  exact congrArg Host.Outcome.next ((if_neg (fun odd => odd aligned)).trans (if_neg goes))

/-- LAUNCH with an aligned record and room takes its token, and observes a cancel. -/
theorem exec_launch {s : State} {o : Op.TokSrc} (on : s.ctx.getP o.g = true) (aligned : (s.ctx.getX o.ra).toNat % 64 = 0)
    (may : mayTake s.ctx o.tok [])
    (room : s.placementFull = false) :
    exec (.launch o) s = .next (afterCancel (tokenTaken s o.tok (.launch (s.ctx.getX o.ra)) (s.recordLat (s.ctx.getX o.ra).toNat) [])) := by
  have arm : exec (.launch o) s = execLaunch o s := rfl
  rw [arm, execLaunch, State.guarded_on on, Context.tokHazard_eq_none may, ← State.observe_eq, ← State.takeTok_issued]
  exact congrArg Host.Outcome.next ((if_neg (fun odd => odd aligned)).trans (if_neg (by rw [room]; exact Bool.false_ne_true)))

theorem exec_cEnd {s : State} {o : Op.Bare} (on : s.ctx.getP o.g = true) : exec (.cEnd o) s = .next
    (if s.ctx.tip = true then (nextWord s).retireTurn true s.ctx.isCancelled
      else if s.ctx.unfinished = true then waitsOn s .cend else (nextWord s).retireTurn false s.ctx.isCancelled) := by
  rw [← State.issuedIn_c]
  exact congrArg Host.Outcome.next (State.guarded_on on _)

/-- EWAIT of a live event that has not fired registers its continuation. -/
theorem exec_ewait {s : State} {o : Op.TwoSrc} {e : EvEnt} (on : s.ctx.getP o.g = true) (tip : s.ctx.tip = false)
    (finished : s.ctx.unfinished = false) (live : s.ctx.isCancelled = false) (aligned : (s.ctx.getX o.rb).toNat % 64 = 0)
    (found : s.part.events.find? ((s.ctx.getX o.ra).toNat % 2 ^ 16) = some e) (room : s.overflowFull e = false) :
    exec (.ewait o) s = .next (s.registerEwait ((s.ctx.getX o.ra).toNat % 2 ^ 16) e (s.ctx.getX o.rb)) := by
  have arm : exec (.ewait o) s = execEwait o s := rfl
  rw [arm, execEwait, State.guarded_on on]
  have searched : s.part.events.find? ((s.ctx.getX o.ra).toNat % 65536) = some e := found
  have inline : ¬ (e.state = 0 ∧ s.overflowFull e = true) := fun full => Bool.false_ne_true (room.symm.trans full.2)
  dsimp only
  rw [if_neg (fun odd => odd aligned), tip, finished, live, searched]
  exact congrArg Host.Outcome.next (if_neg inline)

/-- A waiter of an event that has not fired enters its inline list. -/
theorem State.applyEwait_enters {s : State} {e : EvEnt} (unfired : e.state = 0) (room : e.waiters.length < 4) (name : Nat) (h : HeapEnt) (cl : Nat) :
    s.applyEwait name e h cl = s.putEvent name { e with waiters := e.waiters ++ [(h, cl)] } :=
  (if_neg (fun fired => fired unfired)).trans (if_pos room)

/-- The registration of a well-formed continuation of a live launch. -/
theorem State.registerEwait_enters {s a b : State} {e : EvEnt} {name : Nat} {rec_ : Word} {u : Turn} (unfired : e.state = 0)
    (room : e.waiters.length < 4)
    (read : (s.seeVa rec_.toNat 64).readTurn rec_ (s.seeVa rec_.toNat 64).launchOf s.jobOf.1 s.jobOf.2 none = .ok (u, false))
    (created : (s.seeVa rec_.toNat 64).createUnder (s.seeVa rec_.toNat 64).launchOf 1 = .ok (true, a))
    (written : a.writeVa (rec_.toNat + 40) 8 a.launchOf.toNat = .ok b) : s.registerEwait name e rec_ =
      (((({ b with part := { b.part with turnSeq := b.part.turnSeq + 1 } } : State).putEvent name
        { e with waiters := e.waiters ++ [({ turn := u, saved := none }, clusterOf b.site)] }).trace 9 .c name).issuedIn .c).retireTurn
          false false := by
  rw [State.registerEwait]
  dsimp only
  rw [read]
  dsimp only
  rw [created]
  dsimp only
  rw [written]
  dsimp only
  rw [if_neg Bool.false_ne_true, State.applyEwait_enters unfired room]
  rfl

/-- A FENCE of the C stream with nothing pending issues. -/
theorem exec_fence {s : State} {o : Op.CFence} (on : s.ctx.getP o.g = true) (met : s.fenceMet .c o.before o.scope.val) :
    exec (.fence o) s = .next (nextWord s) := by
  rw [← State.issuedIn_c]
  exact congrArg Host.Outcome.next ((State.guarded_on on _).trans (State.fenceWord_met met 0 _))

end Sys2Proof.Machine
end

section
/-! PROOFS. The words of spec/16_control_system.md that couple the streams, create turns or end their own. -/

namespace Sys2Proof.Proofs
open Sys2Proof.Machine Sys2Proof.Claims

/-- Settles O11: each word by the condition that it waits on. -/
theorem synchronisingWordsIssueOrWaitAndQbindBinds : Obligations.SynchronisingWordsIssueOrWaitAndQbindBinds := by
  unfold Obligations.SynchronisingWordsIssueOrWaitAndQbindBinds
  refine ⟨⟨fun o s on settled => ?_, fun o s k on named pending => ?_, fun o s on some idle => ?_, fun o s on some busy => ?_, fun o s on some => ?_,
    fun o s on some => ?_, fun o s on => exec_cpoint on⟩, fun o s on pair empty unawaited => ?_⟩
  case refine_1 => -- WAIT of settled tokens
    rw [exec_wait on, Context.anyPending_eq_false settled]
    rfl
  case refine_2 => -- WAIT of a pending token
    rw [exec_wait on, Context.anyPending_eq_true named pending]
    rfl
  case refine_3 => -- SDRAIN of idle streams
    rw [exec_sdrain on some, idle]
    rfl
  case refine_4 => -- SDRAIN of a running stream
    rw [exec_sdrain on some, busy]
    rfl
  case refine_5 => -- TPOST
    rw [exec_tpost on some]
    simp only [Context.tokenRoom, decide_eq_true_eq]
    split
    · exact congrArg Host.Outcome.next (s.issuedIn_withCtx rfl)
    · rfl
  case refine_6 => -- TAWAIT
    rw [exec_tawait (chanIx_toC o.eng) on some]
    cases head : s.ctx.chans[toC o.eng] with
    | nil =>
      have none : s.ctx.tokenReady (toC o.eng) s.cycle = false := by rw [Context.tokenReady, head]
      rw [none]
      rfl
    | cons t rest =>
      have ready : s.ctx.tokenReady (toC o.eng) s.cycle = decide (t.made < s.cycle) := by rw [Context.tokenReady, head]
      dsimp only
      rw [ready]
      by_cases past : t.made < s.cycle
      · rw [if_pos past, if_pos (decide_eq_true past), State.onCtx, Context.popToken_learn head]
        exact congrArg Host.Outcome.next (s.issuedIn_withCtx rfl)
      · rw [if_neg past, if_neg (by simpa using past)]
  case refine_7 => -- QBIND
    have bound : ¬ ((o.prod = 3) ≠ (o.cons = 3)) := fun differ => differ (propext pair)
    have free : ¬ (!(s.ctx.q[o.q].ents.isEmpty) || s.ctx.queueAwaited o.q) = true := by
      rw [empty, unawaited]
      exact Bool.false_ne_true
    exact congrArg Host.Outcome.next ((State.guarded_on on _).trans ((if_neg bound).trans ((if_neg free).trans (s.issuedIn_withCtx rfl))))

/-- Settles O9: both words take their token and observe a cancel. -/
theorem creationWordsTakeTheirToken : Obligations.CreationWordsTakeTheirToken := by
  unfold Obligations.CreationWordsTakeTheirToken
  exact ⟨fun o s on aligned may room => exec_spawn on aligned may room, fun o s on aligned may room => exec_launch on aligned may room⟩

/-- Settles O12: a start writes its stream's record, and the C stream issues. -/
theorem startsRunTheirStream : Obligations.StartsRunTheirStream := by
  unfold Obligations.StartsRunTheirStream
  intro o s on e c aligned low
  have starts {st : Strm} (idle : (s.ctx.strm st).run = false) := State.startStrm_runs (o := o) on idle aligned low
  exact ⟨fun idle => congrArg Host.Outcome.next ((starts (st := .t) idle).trans (s.issuedIn_withCtx rfl)),
    fun idle => congrArg Host.Outcome.next ((starts (st := .m) idle).trans (s.issuedIn_withCtx rfl)),
    fun idle => congrArg Host.Outcome.next ((starts (st := .v) idle).trans (s.issuedIn_withCtx rfl))⟩

/-- Settles O13: END by its three conditions, EWAIT by the registration of its continuation. -/
theorem endAndEwaitRetireTheTurn : Obligations.EndAndEwaitRetireTheTurn := by
  unfold Obligations.EndAndEwaitRetireTheTurn
  refine ⟨fun o s on => ⟨fun tip finished => ?_, fun tip => ?_, fun tip busy => ?_⟩, ?_⟩
  · rw [exec_cEnd on, tip, finished]
    rfl
  · rw [exec_cEnd on, tip]
    rfl
  · rw [exec_cEnd on, tip, busy]
    rfl
  · intro o s a b e u on tip finished live rec_ name act v aligned found unfired inline room read created written
    refine ⟨_, (exec_ewait on tip finished live aligned found room).trans
      (congrArg Host.Outcome.next (State.registerEwait_enters unfired inline read created written)), ?_⟩
    obtain ⟨trace, lost, traced⟩ := State.trace_frame _ 9 .c name
    rw [traced, State.issuedIn_c]
    exact ⟨nextWord_mem _, rfl, rfl, congrArg Part.turnSeq (nextWord_part _), congrArg Part.events (nextWord_part _)⟩

/-- Settles O14: a fence that is met issues. -/
theorem fenceIssuesWhenPerformed : Obligations.FenceIssuesWhenPerformed := by
  unfold Obligations.FenceIssuesWhenPerformed
  exact fun o s on met => exec_fence on met

end Sys2Proof.Proofs
end

section
/-! SUPPORT. A word that is spelled out is the encoding of its instruction (R262). -/

namespace Sys2Proof.Machine
open Sys2Proof.Claims

/-- A stream decodes an instruction's encoding to it (R262). -/
theorem decode_of_encode {i : Instr} {st : Strm} {w : Nat} (stream : i.stream = some st) (wf : i.wellFormed = true) (word : encode i = some w) :
    decode st w = .ok i := by
  obtain ⟨encodes, -⟩ : Obligations.WordsDecodeToThemselves := Proofs.wordsDecodeToThemselves
  obtain ⟨w', word', -, decodes⟩ := encodes i st stream wf
  obtain rfl : w = w' := Option.some.inj (word.symm.trans word')
  exact decodes

/-- A predicate's value as it lands. -/
theorem ofNat_toNat_eq_ite (b : Bool) : BitVec.ofNat 256 b.toNat = if b then 1 else 0 := by
  cases b <;> rfl

/-- A compare or predicate word lands 1 or 0 in p[pd] (R282, R283). -/
theorem exec_pWord_lands {i : Instr} {s : State} {g pd : Fin 8} {v : Bool} (word : pWord s.ctx i = some (g, pd, v)) (on : s.ctx.getP g = true)
    (room : s.ctx.landingFull = false) : exec i s = .next (landsIn s 1 (.p pd) (if v then 1 else 0)) := by
  rw [exec_pWord word on, State.cLand_lands room, ofNat_toNat_eq_ite]

/-- A word of an immediate lands its value in x[rd] (R280, R281, R285). -/
theorem exec_xWord_lands {i : Instr} {s : State} {g : Fin 8} {rd : Fin 32} {v : Word} (word : xWord s.ctx i = some (g, rd, v))
    (on : s.ctx.getP g = true) (may : mayLand s.ctx rd) : exec i s = .next (landsIn s 1 (.x rd) (v.setWidth 256)) := by
  rw [exec_xWord_value word on, State.cResult_lands may]

/-- The guard p0 is always on. -/
theorem getP_zero (c : Context) : c.getP 0 = true := rfl

end Sys2Proof.Machine
end

section
/-! PROOFS. The obligations that spell words out, and guest time (R213, R262, R280 to R285). -/

namespace Sys2Proof.Proofs
open Sys2Proof.Machine Sys2Proof.Claims

/-- Settles O57: each word is the encoding of what it stands for; the others have no meaning. -/
theorem spelledWordsDecode : Obligations.SpelledWordsDecode := by
  unfold Obligations.SpelledWordsDecode
  exact ⟨decode_of_encode rfl rfl rfl, decode_of_encode rfl rfl rfl, decode_of_encode rfl rfl rfl, decode_of_encode rfl rfl rfl,
    decode_of_encode rfl rfl rfl, decode_of_encode rfl rfl rfl, decode_of_encode rfl rfl rfl, decode_of_encode rfl rfl rfl,
    fun st => ⟨_, by cases st <;> rfl⟩, ⟨_, rfl⟩, ⟨_, rfl⟩, ⟨_, rfl⟩, ⟨_, rfl⟩⟩

/-- Settles O58: the words are the encodings of CMP and SEL, whose values land. -/
theorem compareAndSelectWordsAreAsWritten : Obligations.CompareAndSelectWordsAreAsWritten := by
  unfold Obligations.CompareAndSelectWordsAreAsWritten
  refine ⟨fun fn mk holds member g pd ra rb s => ?_, decode_of_encode rfl rfl rfl, fun g ps rd ra rb s => ?_, decode_of_encode rfl rfl rfl⟩
  · simp only [List.mem_cons, List.not_mem_nil, or_false, Prod.mk.injEq] at member
    rcases member with ⟨rfl, rfl, rfl⟩ | ⟨rfl, rfl, rfl⟩ | ⟨rfl, rfl, rfl⟩ | ⟨rfl, rfl, rfl⟩ | ⟨rfl, rfl, rfl⟩ | ⟨rfl, rfl, rfl⟩ <;>
      exact ⟨decode_of_encode rfl rfl (congrArg some (by simp only [Op.Cmp.toBits]; omega)), exec_pWord_lands rfl⟩
  · exact ⟨decode_of_encode rfl rfl (congrArg some (by simp only [Op.Sel.toBits]; omega)), exec_xWord_lands rfl, exec_guardOff rfl⟩

/-- Settles O59: the words are the encodings of their instructions, whose values land. -/
theorem shiftConstantAndImmediateCompareWordsAreAsWritten : Obligations.ShiftConstantAndImmediateCompareWordsAreAsWritten := by
  unfold Obligations.ShiftConstantAndImmediateCompareWordsAreAsWritten
  refine ⟨fun fn mk v member g rd ra n s => ?_, fun g rd imm s => ?_, decode_of_encode rfl rfl rfl, decode_of_encode rfl rfl rfl,
    decode_of_encode rfl rfl rfl, fun s may => ?_, fun cc mk holds member g pd ra imm s => ?_, decode_of_encode rfl rfl rfl, fun s room => ?_⟩
  case refine_1 => -- SHIFTI
    simp only [List.mem_cons, List.not_mem_nil, or_false, Prod.mk.injEq] at member
    rcases member with ⟨rfl, rfl, rfl⟩ | ⟨rfl, rfl, rfl⟩ | ⟨rfl, rfl, rfl⟩ <;>
      exact ⟨decode_of_encode rfl rfl (congrArg some (by simp only [Op.ShiftImm.toBits]; omega)), exec_xWord_lands rfl⟩
  case refine_2 => -- LUI, ADDPC
    refine ⟨decode_of_encode rfl rfl (congrArg some (by simp only [Op.Upper.toBits]; omega)),
      decode_of_encode rfl rfl (congrArg some (by simp only [Op.Upper.toBits]; omega)), fun on may => ⟨exec_xWord_lands rfl on may, ?_⟩⟩
    rw [exec_xWord_lands rfl on may, BitVec.ofInt_add, BitVec.ofInt_toInt]
  case refine_3 => -- the worked constant
    refine ⟨?_, fun high => ?_, fun middle => ?_⟩
    · rw [exec_xWord_lands rfl rfl may]
      rfl
    · rw [exec_xWord_lands rfl rfl may, high]
      rfl
    · rw [exec_xWord_lands rfl rfl may, middle]
      rfl
  case refine_4 => -- CMPI
    simp only [List.mem_cons, List.not_mem_nil, or_false, Prod.mk.injEq] at member
    rcases member with ⟨rfl, rfl, rfl⟩ | ⟨rfl, rfl, rfl⟩ | ⟨rfl, rfl, rfl⟩ | ⟨rfl, rfl, rfl⟩ <;>
      exact ⟨decode_of_encode rfl rfl (congrArg some (by simp only [Op.CmpImm.toBits]; omega)), exec_pWord_lands rfl⟩
  case refine_5 => -- CMPI.LTU against -1: only the largest word is not below
    have largest : (BitVec.ofInt 64 (-1 : BitVec 13).toInt).toNat = 2 ^ 64 - 1 := by decide
    rw [exec_pWord_lands rfl rfl room, largest]
    by_cases all : s.ctx.getX 2 = BitVec.allOnes 64
    · rw [if_pos all, all]
      rfl
    · have below : (s.ctx.getX 2).toNat < 2 ^ 64 - 1 := by
        have top : (BitVec.allOnes 64).toNat = 2 ^ 64 - 1 := BitVec.toNat_allOnes
        have differs := mt BitVec.eq_of_toNat_eq all
        omega
      rw [if_neg all, if_pos (decide_eq_true below)]

/-- Settles O60: the sum of R213, read as a number. -/
theorem guestTimeFollowsItsFormula : Obligations.GuestTimeFollowsItsFormula := by
  unfold Obligations.GuestTimeFollowsItsFormula
  intro s source
  have chosen : source = (if s.part.tmode then s.resident else s.dtW).toNat := (apply_ite BitVec.toNat ..).symm
  rw [chosen, State.guest, BitVec.toNat_add, BitVec.toNat_ofNat, Nat.add_mod_mod]

end Sys2Proof.Proofs
end

section
/-! SUPPORT. What a word that creates a pawn leaves: the pawn's entry, its handle, and all that the word does not touch (R95, R164, R165). -/

namespace Sys2Proof.Machine

open Sys2Proof.Claims

/-! ### What the creation of a pawn reads and leaves -/

/-- The registers that a pawn-creating word leaves as they are, beside the handles. -/
def Context.regs (c : Context) : Context :=
  { Context.reset with
    x := c.x, p := c.p, a := c.a, mb := c.mb, s := c.s, m := c.m, vshape := c.vshape, mfmt := c.mfmt, fflags := c.fflags, strict := c.strict
    nest := c.nest, acc := c.acc }

/-- Where a stream stands. -/
def StreamSt.place (r : StreamSt) : Word × List LoopSt := (r.pc, r.loops)

/-- What the creation of a pawn reads of a state, and what it must leave. -/
structure Maker where
  cycle : Nat
  site : Nat
  cx : Bool
  serial : Nat
  pawns : Vector Pawn 64
  turn : Option Turn
  cs : Word × List LoopSt
  ts : Word × List LoopSt
  ms : Word × List LoopSt
  vs : Word × List LoopSt
  regs : Context
  handles : Vector (BitVec 16) 16
  mem : Memory

def State.maker (s : State) : Maker :=
  { cycle := s.cycle, site := s.site, cx := s.cx, serial := s.serial, pawns := s.core.pawns, turn := s.ctx.turn
    cs := s.ctx.cs.place, ts := s.ctx.ts.place, ms := s.ctx.ms.place, vs := s.ctx.vs.place, regs := s.ctx.regs, handles := s.ctx.h, mem := s.mem }

theorem keepsRegs_of_regs {c d : Context} {h : Fin 16} {handle : BitVec 16} (regs : d.regs = c.regs)
    (handles : ∀ r : Fin 16, d.h[r] = if r = h ∧ h ≠ 0 then handle else c.h[r]) : keepsRegs c d h handle :=
  ⟨(congrArg Context.x regs :), (congrArg Context.p regs :), (congrArg Context.a regs :), (congrArg Context.mb regs :), (congrArg Context.s regs :),
    (congrArg Context.m regs :), (congrArg Context.vshape regs :), (congrArg Context.mfmt regs :), (congrArg Context.fflags regs :),
    (congrArg Context.strict regs :), (congrArg Context.nest regs :), (congrArg Context.acc regs :), handles⟩

section
variable {s t : State}

theorem State.pawn_of_pawns (same : t.core.pawns = s.core.pawns) (k : Fin 64) : t.pawn k = s.pawn k :=
  congrArg (fun v : Vector Pawn 64 => v[k]) same

theorem State.turnId_of_turn (turn : t.ctx.turn = s.ctx.turn) : t.turnId = s.turnId := by
  rw [State.turnId, turn, State.turnId]

theorem State.launchOf_of_turn (turn : t.ctx.turn = s.ctx.turn) : t.launchOf = s.launchOf := by
  rw [State.launchOf, turn, State.launchOf]

/-- The pawn that a handle names is found in the table, among those of the turn. -/
theorem State.byHandle_of_pawns (turn : t.ctx.turn = s.ctx.turn) (pawns : t.core.pawns = s.core.pawns) (h : BitVec 16) :
    t.byHandle h = s.byHandle h := by
  simp only [State.byHandle, State.owns, State.pawn_of_pawns pawns, State.turnId_of_turn turn, turn]
  rfl

theorem place_of_maker (same : t.maker = s.maker) (st : Strm) : (t.ctx.strm st).place = (s.ctx.strm st).place := by
  cases st with
  | c => exact congrArg Maker.cs same
  | t => exact congrArg Maker.ts same
  | m => exact congrArg Maker.ms same
  | v => exact congrArg Maker.vs same

/-- A new pawn is made of what a creation reads. -/
theorem bornPawn_of_maker (same : t.maker = s.maker) (k : Fin 64) (n : NewPawn) : bornPawn t k n = bornPawn s k n := by
  have turn : t.ctx.turn = s.ctx.turn := congrArg Maker.turn same
  have cx : t.cx = s.cx := congrArg Maker.cx same
  have serial : t.serial = s.serial := congrArg Maker.serial same
  have pc : (t.ctx.strm n.st).pc = (s.ctx.strm n.st).pc := congrArg Prod.fst (place_of_maker same n.st)
  simp only [bornPawn, State.pawn_of_pawns (congrArg Maker.pawns same :), State.turnId_of_turn turn, State.launchOf_of_turn turn, cx, serial, pc]

end

/-! ### The creation (R164) -/

/-- A kept pawn that loses its handle: only its entry and the aggregates change. -/
theorem State.anonymise_frame (s : State) (j : Fin 64) : ∃ p aggC aggT aggM, s.anonymise j = { s with
    core := { s.core with pawns := s.core.pawns.set j p }, ctx := { s.ctx with aggC := aggC, aggT := aggT, aggM := aggM } } := by
  unfold State.anonymise State.aggregate
  dsimp only
  split
  · have agg : ∃ aggC aggT aggM, s.ctx.onAgg (s.pawn j).st (fun a => a.add (s.pawn j) j) =
        { s.ctx with aggC := aggC, aggT := aggT, aggM := aggM } := by
      unfold Context.onAgg
      split <;> exact ⟨_, _, _, rfl⟩
    obtain ⟨aggC, aggT, aggM, agg⟩ := agg
    rw [State.onCtx, agg]
    split <;> exact ⟨_, _, _, _, rfl⟩
  · exact ⟨_, _, _, _, rfl⟩

/-- An adoption changes what an atomic does. -/
theorem State.adoptUnder_frame (s : State) (a : Word) (n : Nat) : ∃ mem badWords flips corrections memctl replWrites, s.adoptUnder a n = { s with
    mem := mem, badWords := badWords, flips := flips, corrections := corrections, memctl := memctl
    part := { s.part with replWrites := replWrites } } := by
  unfold State.adoptUnder
  split
  · exact s.putCtr_frame ..
  · exact ⟨_, _, _, _, _, _, rfl⟩

/-- The state that a new pawn enters: the pawn that the handle register named has lost its handle, and a detached pawn is adopted. -/
def State.cleared (s : State) (n : NewPawn) : State :=
  let old := if n.h = 0 then none else s.byHandle (s.ctx.getH n.h)
  let s := match old with
    | some j => s.anonymise j
    | none => s
  if n.detach then s.adoptUnder s.launchOf 1 else s

/-- A kept pawn that loses its handle leaves the other entries, and what else a creation reads. -/
theorem State.anonymise_leaves (s : State) (j : Fin 64) : { (s.anonymise j).maker with pawns := s.core.pawns } = s.maker ∧
    ∀ i, i ≠ j → (s.anonymise j).pawn i = s.pawn i := by
  obtain ⟨p, _, _, _, frame⟩ := s.anonymise_frame j
  rw [frame]
  exact ⟨rfl, fun i other => Vector.getElem_set_ne j.isLt i.isLt (fun same => other (Fin.ext same.symm))⟩

/-- An adoption leaves all but memory of what a creation reads. -/
theorem State.adoptUnder_leaves (s : State) (a : Word) (n : Nat) : { (s.adoptUnder a n).maker with mem := s.mem } = s.maker := by
  obtain ⟨_, _, _, _, _, _, frame⟩ := s.adoptUnder_frame a n
  rw [frame]
  rfl

/-- What a creation reads stands after the former pawn of the handle has lost it and a detached one is adopted, but for that pawn and memory. -/
theorem State.cleared_maker (s : State) (n : NewPawn) : { (s.cleared n).maker with pawns := s.core.pawns, mem := s.mem } = s.maker := by
  have adopted (u : State) : { (if n.detach then u.adoptUnder u.launchOf 1 else u).maker with pawns := s.core.pawns, mem := s.mem } =
      { u.maker with pawns := s.core.pawns, mem := s.mem } := by
    split
    · exact congrArg (fun m : Maker => { m with pawns := s.core.pawns, mem := s.mem }) (u.adoptUnder_leaves u.launchOf 1)
    · rfl
  refine (adopted _).trans ?_
  split
  next j _ => exact congrArg (fun m : Maker => { m with mem := s.mem }) (s.anonymise_leaves j).1
  · rfl

theorem State.adoptUnder_core (s : State) (a : Word) (n : Nat) : (s.adoptUnder a n).core = s.core := by
  obtain ⟨_, _, _, _, _, _, frame⟩ := s.adoptUnder_frame a n
  rw [frame]

/-- Only the former pawn of the handle register is different. -/
theorem State.cleared_pawn {s : State} {n : NewPawn} {j : Fin 64} (other : n.h = 0 ∨ s.byHandle s.ctx.h[n.h] ≠ some j) :
    (s.cleared n).pawn j = s.pawn j := by
  have adopted (u : State) : (if n.detach then u.adoptUnder u.launchOf 1 else u).pawn j = u.pawn j := by
    split
    · exact State.pawn_of_pawns (congrArg Core.pawns (u.adoptUnder_core u.launchOf 1)) j
    · rfl
  refine (adopted _).trans ?_
  split
  next i found =>
    refine (s.anonymise_leaves i).2 j ?_
    rintro rfl
    split at found
    · cases found
    next named =>
      rw [Context.getH, if_neg named] at found
      exact other.elim named (fun differs => differs found)
  · rfl

/-- Memory stands unless the pawn is detached. -/
theorem State.cleared_mem (s : State) {n : NewPawn} (kept : n.detach = false) : (s.cleared n).mem = s.mem := by
  unfold State.cleared
  rw [kept, if_neg Bool.false_ne_true]
  split
  · exact State.anonymise_mem ..
  · rfl

/-- The handle register as a creation leaves it. -/
theorem Context.writeH_h (c : Context) (st : Strm) (serial : Nat) (h : Fin 16) (v : BitVec 16) (r : Fin 16) :
    (c.writeH st serial h v).h[r] = if r = h ∧ h ≠ 0 then v else c.h[r] := by
  unfold Context.writeH Context.setH
  by_cases zero : h = 0
  · simp [zero]
  · rw [if_neg zero]
    by_cases here : r = h
    · subst here
      simp [zero]
    · have ne : h.val ≠ r.val := fun same => here (Fin.ext same.symm)
      simp [here, Vector.getElem_set_ne, ne]

/-- A handle written changes the handles, and what they were. -/
theorem Context.writeH_frame (c : Context) (st : Strm) (serial : Nat) (h : Fin 16) (v : BitVec 16) :
    ∃ hs hwas, c.writeH st serial h v = { c with h := hs, hwas := hwas } := by
  have set : ∃ hs, c.setH h v = { c with h := hs } := by
    unfold Context.setH
    split <;> exact ⟨_, rfl⟩
  obtain ⟨hs, set⟩ := set
  rw [Context.writeH, set]
  exact ⟨_, _, rfl⟩

/-- A trace record, as a change of the core. -/
theorem State.trace_onCore (s : State) (type : Nat) (st : Strm) (payload : Nat) :
    ∃ trace lost, s.trace type st payload = s.onCore (fun c => { c with trace := trace, lost := lost }) := s.trace_frame type st payload

/-- A creation, from the state that the new pawn enters. -/
theorem State.createPawn_eq (s : State) (k : Fin 64) (n : NewPawn) : ∃ trace lost, s.createPawn k n =
    ((((s.cleared n).onPawn k (fun _ => bornPawn s k n)).onCtx (fun c =>
      c.writeH n.st s.serial n.h (BitVec.ofNat 16 (k.val + 64 * (bornPawn s k n).gen.toNat)))).bump).onCore
        (fun c => { c with trace := trace, lost := lost }) := by
  have maker := s.cleared_maker n
  have turn : (s.cleared n).ctx.turn = s.ctx.turn := congrArg Maker.turn maker
  have cx : (s.cleared n).cx = s.cx := congrArg Maker.cx maker
  have serial : (s.cleared n).serial = s.serial := congrArg Maker.serial maker
  have pc : ((s.cleared n).ctx.strm n.st).pc = (s.ctx.strm n.st).pc := by
    cases n.st with
    | c => exact congrArg (fun m : Maker => m.cs.1) maker
    | t => exact congrArg (fun m : Maker => m.ts.1) maker
    | m => exact congrArg (fun m : Maker => m.ms.1) maker
    | v => exact congrArg (fun m : Maker => m.vs.1) maker
  have born : bornPawn s k n = { bornPawn (s.cleared n) k n with gen := (bornPawn s k n).gen } := by
    simp only [bornPawn, State.turnId_of_turn turn, State.launchOf_of_turn turn, cx, serial, pc]
  have shape : s.createPawn k n =
      ((((s.cleared n).onPawn k (fun _ => { bornPawn (s.cleared n) k n with gen := (bornPawn s k n).gen })).onCtx (fun c =>
        c.writeH n.st (s.cleared n).serial n.h (BitVec.ofNat 16 (k.val + (bornPawn s k n).gen.toNat * 64)))).bump).trace 6 n.st
        (k.val + (bornPawn s k n).gen.toNat * 64 + n.eng.code * 2 ^ 16) := rfl
  rw [← born, serial, Nat.mul_comm _ 64] at shape
  rw [shape]
  exact State.trace_onCore ..

/-- A pawn enters its entry, and its handle the register (R164). -/
theorem State.createPawn_enters (s : State) (k : Fin 64) (n : NewPawn) :
    let t := s.createPawn k n
    let handle := BitVec.ofNat 16 (k.val + 64 * (bornPawn s k n).gen.toNat)
    t.pawn k = bornPawn s k n ∧ (∀ j, j ≠ k → (n.h = 0 ∨ s.byHandle s.ctx.h[n.h] ≠ some j) → t.pawn j = s.pawn j) ∧
    (∀ r : Fin 16, t.ctx.h[r] = if r = n.h ∧ n.h ≠ 0 then handle else s.ctx.h[r]) ∧
    (n.detach = false → t.mem = s.mem) ∧ t.ctx.regs = s.ctx.regs ∧ t.ctx.turn = s.ctx.turn ∧
    (∀ st, (t.ctx.strm st).place = (s.ctx.strm st).place) := by
  obtain ⟨trace, lost, created⟩ := s.createPawn_eq k n
  have maker := s.cleared_maker n
  have former (j : Fin 64) := State.cleared_pawn (s := s) (n := n) (j := j)
  have mem := State.cleared_mem s (n := n)
  generalize s.cleared n = u at *
  generalize bornPawn s k n = p at *
  generalize BitVec.ofNat 16 (k.val + 64 * p.gen.toNat) = handle at *
  dsimp only
  rw [created]
  refine ⟨(u.onPawn_pawn k k (fun _ => p)).trans (if_pos rfl),
    fun j other free => ((u.onPawn_pawn k j (fun _ => p)).trans (if_neg other)).trans (former j free),
    fun r => ?_, mem, ?_⟩
  · have handles : u.ctx.h = s.ctx.h := (congrArg Maker.handles maker :)
    exact (u.ctx.writeH_h n.st s.serial n.h handle r).trans (by rw [handles])
  · obtain ⟨hs, hwas, frame⟩ := u.ctx.writeH_frame n.st s.serial n.h handle
    refine ⟨(congrArg Context.regs frame).trans (congrArg Maker.regs maker :), (congrArg Context.turn frame).trans (congrArg Maker.turn maker :),
      fun st => (congrArg (fun c : Context => (c.strm st).place) frame).trans ?_⟩
    cases st with
    | c => exact (congrArg Maker.cs maker :)
    | t => exact (congrArg Maker.ts maker :)
    | m => exact (congrArg Maker.ms maker :)
    | v => exact (congrArg Maker.vs maker :)

/-! ### The issue of the word (R161, R274) -/

/-- The exit of a loop leaves the pawn table. -/
theorem State.loopExit_pawns (s : State) (st : Strm) (l : LoopSt) : (s.loopExit st l).core.pawns = s.core.pawns := by
  have traced (t : State) (payload : Nat) : (t.traceAt 5 st (some l) payload).core.pawns = t.core.pawns := by
    obtain ⟨trace, lost, record⟩ := t.traceAt_frame 5 st (some l) payload
    rw [record]
  unfold State.loopExit
  split
  · exact traced s 0
  · dsimp only
    split
    · exact traced _ 0
    · split
      · exact traced _ 0
      next t written =>
        have home := State.writeWords_frame written
        unfold State.homeFrame at home
        refine (traced _ _).trans ?_
        rw [home]
        rfl

theorem State.loopExits_pawns (s : State) (st : Strm) (ls : List LoopSt) :
    (ls.foldl (fun s l => s.loopExit st l) s).core.pawns = s.core.pawns :=
  List.foldlRecOn ls _ (motive := fun (t : State) => t.core.pawns = s.core.pawns) rfl (fun t same l _ => (t.loopExit_pawns st l).trans same)

/-- An issue leaves the pawn table, the registers and the handles; outside loops the stream stands at the next word, and memory stands. -/
theorem State.issuedIn_keeps (s : State) (st : Strm) :
    let t := s.issuedIn st
    t.core.pawns = s.core.pawns ∧ t.ctx.regs = s.ctx.regs ∧ t.ctx.h = s.ctx.h ∧
    t.ctx.turn = s.ctx.turn.map (fun u => { u with started := true }) ∧
    ((s.ctx.strm st).loops = [] → (t.ctx.strm st).pc = (s.ctx.strm st).pc + 4 ∧ t.mem = s.mem) := by
  dsimp only
  by_cases engine : st = .c
  · subst engine
    rw [State.issuedIn_c, nextWord, refetched_frame]
    exact ⟨rfl, rfl, rfl, rfl, fun _ => ⟨rfl, rfl⟩⟩
  · have walks := State.issuedIn_walks (s := s) engine rfl
    have pawns := s.loopExits_pawns st (walkLoops 100 ((s.ctx.strm st).pc + 4) (s.ctx.strm st).loops false []).2.2.2
    obtain ⟨board, -⟩ := s.loopExits_frame st (walkLoops 100 ((s.ctx.strm st).pc + 4) (s.ctx.strm st).loops false []).2.2.2
    have exits : (s.ctx.strm st).loops = [] → (walkLoops 100 ((s.ctx.strm st).pc + 4) (s.ctx.strm st).loops false []) =
        ((s.ctx.strm st).pc + 4, [], true, []) := fun outside => by rw [outside]; rfl
    generalize walkLoops 100 ((s.ctx.strm st).pc + 4) (s.ctx.strm st).loops false [] = place at *
    unfold Context.boardFrame at board
    rw [walks]
    have memory : (s.ctx.strm st).loops = [] → (place.2.2.2.foldl (fun s l => s.loopExit st l) s).mem = s.mem := fun outside => by
      rw [exits outside]
      rfl
    generalize place.2.2.2.foldl (fun s l => s.loopExit st l) s = u at *
    obtain ⟨pc, -, -⟩ := u.standsAt_leaves st place.1 place.2.1 place.2.2.1
    refine ⟨pawns, ?_, ?_, ?_, fun outside => ⟨pc.trans (congrArg Prod.fst (exits outside)), memory outside⟩⟩ <;>
      simp only [State.standsAt, State.onCtx, Context.markStarted_eq] <;> rw [board] <;> cases st <;> rfl

/-- A cancel that the turn observes sets how the turn retires, and nothing else. -/
theorem State.observe_leaves (s : State) : let t := s.observe
    t.core.pawns = s.core.pawns ∧ t.ctx.regs = s.ctx.regs ∧ t.ctx.h = s.ctx.h ∧ (∀ st, t.ctx.strm st = s.ctx.strm st) ∧
    t.mem = s.mem ∧ t.part = s.part := by
  rw [State.observe_eq]
  unfold afterCancel
  split
  · exact ⟨rfl, rfl, rfl, fun st => by cases st <;> rfl, rfl, rfl⟩
  · exact ⟨rfl, rfl, rfl, fun _ => rfl, rfl, rfl⟩

theorem State.observe_retires {s : State} (cancelled : (s.ctx.turn.map (fun u => u.cancelled)).getD false = true) :
    s.observe.ctx.retire = some { faulted := false, cancelled := true } := by
  rw [State.observe_eq, afterCancel, if_pos cancelled]

/-- A pawn is created as its word issues (R95, R164, R165). -/
theorem createsPawn_of_maker {s u v : State} {k : Fin 64} {n : NewPawn} (same : u.maker = s.maker) (made : v.maker = (u.createPawn k n).maker) :
    createsPawn s (v.issuedIn n.st).observe k n := by
  obtain ⟨entry, others, handles, mem, regs, turn, places⟩ := u.createPawn_enters k n
  obtain ⟨pawns₁, regs₁, handles₁, turn₁, next⟩ := v.issuedIn_keeps n.st
  obtain ⟨pawns₂, regs₂, handles₂, streams, mem₂, -⟩ := (v.issuedIn n.st).observe_leaves
  have sameTurn : u.ctx.turn = s.ctx.turn := congrArg Maker.turn same
  have samePawns : u.core.pawns = s.core.pawns := congrArg Maker.pawns same
  have sameHandles : u.ctx.h = s.ctx.h := congrArg Maker.handles same
  have born := bornPawn_of_maker same k n
  have names := State.byHandle_of_pawns sameTurn samePawns (s.ctx.h[n.h])
  have place : (v.ctx.strm n.st).place = (s.ctx.strm n.st).place :=
    (place_of_maker made n.st).trans ((places n.st).trans (place_of_maker same n.st))
  have table (j : Fin 64) : (v.issuedIn n.st).observe.pawn j = (u.createPawn k n).pawn j :=
    State.pawn_of_pawns (pawns₂.trans (pawns₁.trans (congrArg Maker.pawns made :))) j
  rw [born] at entry handles
  rw [sameHandles] at others handles
  have outside (free : (s.ctx.strm n.st).loops = []) : (v.ctx.strm n.st).loops = [] := (congrArg Prod.snd place :).trans free
  refine ⟨(table k).trans entry, fun j other free => ?_, keepsRegs_of_regs ?_ (fun r => ?_), fun free => ?_, fun free kept => ?_, fun cancelled => ?_⟩
  · rw [← names] at free
    exact (table j).trans ((others j other free).trans (State.pawn_of_pawns samePawns j))
  · exact regs₂.trans (regs₁.trans ((congrArg Maker.regs made :).trans (regs.trans (congrArg Maker.regs same :))))
  · have stand : (v.issuedIn n.st).observe.ctx.h = (u.createPawn k n).ctx.h := handles₂.trans (handles₁.trans (congrArg Maker.handles made :))
    rw [stand]
    exact handles r
  · rw [streams]
    exact (next (outside free)).1.trans (congrArg (· + 4) (congrArg Prod.fst place :))
  · exact mem₂.trans ((next (outside free)).2.trans ((congrArg Maker.mem made :).trans ((mem kept).trans (congrArg Maker.mem same :))))
  · refine State.observe_retires ?_
    have madeTurn : v.ctx.turn = (u.createPawn k n).ctx.turn := congrArg Maker.turn made
    rw [turn₁, madeTurn, turn, sameTurn, Option.map_map]
    exact cancelled

/-! ### What a creation leaves beside -/

/-- What the creation of a pawn and the issue of its word leave, of what some such words take: queues, request slots and their buffers, captured
nests, and the partition but for the writes that homes keep waiting. -/
structure Holdings where
  q : Vector Queue 16
  slots : Vector (Option Nat) 8
  bufs : Nat
  reserved : Option (Fin 8 × Nat)
  captured : Nat
  part : Part

def State.holdings (s : State) : Holdings :=
  { q := s.ctx.q, slots := s.ctx.rldSlots, bufs := s.ctx.rldBufs, reserved := s.ctx.rldHeld, captured := s.ctx.captured
    part := { s.part with replWrites := [] } }

theorem State.cleared_holdings (s : State) (n : NewPawn) : (s.cleared n).holdings = s.holdings := by
  have adopted (u : State) : (if n.detach then u.adoptUnder u.launchOf 1 else u).holdings = u.holdings := by
    split
    · obtain ⟨_, _, _, _, _, _, frame⟩ := u.adoptUnder_frame u.launchOf 1
      rw [frame]
      rfl
    · rfl
  refine (adopted _).trans ?_
  split
  next j _ =>
    obtain ⟨_, _, _, _, frame⟩ := s.anonymise_frame j
    rw [frame]
    rfl
  · rfl

theorem State.createPawn_holdings (s : State) (k : Fin 64) (n : NewPawn) : (s.createPawn k n).holdings = s.holdings := by
  obtain ⟨trace, lost, created⟩ := s.createPawn_eq k n
  have cleared := s.cleared_holdings n
  rw [created, ← cleared]
  generalize s.cleared n = u
  obtain ⟨hs, hwas, frame⟩ := u.ctx.writeH_frame n.st s.serial n.h (BitVec.ofNat 16 (k.val + 64 * (bornPawn s k n).gen.toNat))
  simp only [State.holdings, State.onCore, State.bump, State.onCtx, State.onPawn, frame]

/-- The counts of board snapshots are none of them. -/
theorem State.holdings_withBoard (s : State) (seq : BitVec 32) (skip busy : Nat) (ring : Word) :
    ({ s with ctx := { s.ctx with boardSeq := seq, boardSkip := skip, boardBusy := busy, bdring := ring } } : State).holdings = s.holdings := rfl

theorem State.holdings_of_homeFrame {s t : State} (home : s.homeFrame t) : t.holdings = s.holdings := by
  unfold State.homeFrame at home
  rw [home]
  rfl

theorem State.loopExit_holdings (s : State) (st : Strm) (l : LoopSt) : (s.loopExit st l).holdings = s.holdings := by
  have traced (t : State) (payload : Nat) : (t.traceAt 5 st (some l) payload).holdings = t.holdings := by
    obtain ⟨trace, lost, record⟩ := t.traceAt_frame 5 st (some l) payload
    rw [record]
    rfl
  have skipped : ((s.onCtx (fun c => { c with boardSkip := c.boardSkip + 1 })).traceAt 5 st (some l) 0).holdings = s.holdings :=
    (traced _ 0).trans (s.holdings_withBoard s.ctx.boardSeq (s.ctx.boardSkip + 1) s.ctx.boardBusy s.ctx.bdring)
  unfold State.loopExit
  split
  · exact traced s 0
  · dsimp only
    split
    · exact skipped
    · split
      · exact skipped
      next t written => exact (traced _ _).trans ((t.holdings_withBoard ..).trans (State.holdings_of_homeFrame (State.writeWords_frame written)))

theorem State.issuedIn_holdings (s : State) (st : Strm) : (s.issuedIn st).holdings = s.holdings := by
  by_cases engine : st = .c
  · subst engine
    rw [State.issuedIn_c, nextWord, refetched_frame]
    rfl
  · rw [State.issuedIn_walks (s := s) engine rfl]
    have exits (ls : List LoopSt) : (ls.foldl (fun s l => s.loopExit st l) s).holdings = s.holdings :=
      List.foldlRecOn ls _ (motive := fun (t : State) => t.holdings = s.holdings) rfl (fun t same l _ => (t.loopExit_holdings st l).trans same)
    rw [← exits (walkLoops 100 ((s.ctx.strm st).pc + 4) (s.ctx.strm st).loops false []).2.2.2]
    simp only [State.standsAt, State.onCtx, Context.markStarted_eq]
    cases st <;> rfl

theorem State.observe_holdings (s : State) : s.observe.holdings = s.holdings := by
  rw [State.observe_eq]
  unfold afterCancel
  split <;> rfl

/-- What a word holds stands as its pawn is created and it issues. -/
theorem holdings_of_created {u v : State} {k : Fin 64} {n : NewPawn} (made : v.holdings = (u.createPawn k n).holdings) (st : Strm) :
    (v.issuedIn st).observe.holdings = u.holdings :=
  (State.observe_holdings _).trans ((v.issuedIn_holdings st).trans (made.trans (u.createPawn_holdings k n)))

/-! ### CRW (R133, R316, R317) -/

/-- A CRW under its guard, by the checks of R263: kind 3 of INVCTL, the level, BUSY. -/
theorem exec_crw {s : State} {o : Op.Crw} (on : s.ctx.getP o.g = true) : exec (.crw o) s = .next
    (if o.reg.val = 0x017 ∧ (s.ctx.getX o.ra).toNat % 4 = 3 then s.trapWord .illegal 0
      else if (crwNever o.reg.val || (!crwAny o.reg.val && !s.ctx.pl)) = true then s.trapWord .priv 0
      else if (o.reg.val = 0x015 ∨ o.reg.val = 0x017) ∧ (s.part.busy || s.ctx.shootPending) = true then s.waitIn .c .shootdown
      else s.cLand 2 (.ctl o.reg.val) ((s.ctx.getX o.ra).setWidth 256)) :=
  congrArg Host.Outcome.next (State.guarded_on on _)

theorem crwBarred_iff (reg : Nat) (c : Context) :
    (crwNever reg || (!crwAny reg && !c.pl)) = true ↔ crwNever reg = true ∨ (crwAny reg = false ∧ c.pl = false) := by
  simp only [Bool.or_eq_true, Bool.and_eq_true, Bool.not_eq_true']

/-! ### Pawn words (R170, R309 to R313) -/

/-- A pawn as a cancel leaves it (R170). -/
def Pawn.cancelled (p : Pawn) : Pawn :=
  if p.open = true then
    if p.state = .pending then { p with fin := some .cancelled, frec := BitVec.ofNat 64 15, job := stepsOver p.job } else { p with cancelReq := true }
  else if p.fin = none then p
  else { p with job := stepsOver p.job }

/-- The job of a pawn that a cancel does not end, or that holds no request slot, is as it was. -/
theorem Pawn.cleared_told (p : Pawn) :
    Pawn.cleared (if !p.open then p
      else if p.state = .pending then { p with fin := some .cancelled, frec := faultRecord .cancelled 0 0 } else { p with cancelReq := true }) =
      p.cancelled := by
  unfold Pawn.cancelled Pawn.cleared
  cases open_ : p.open
  · cases fin : p.fin with
    | none => simp [fin]
    | some f => simp [fin]
  · have running : p.fin = none := by
      simp only [Pawn.open, Bool.and_eq_true, Option.isNone_iff_eq_none] at open_
      exact open_.2
    by_cases pending : p.state = .pending
    · simp [pending]
      rfl
    · simp [pending, running]

/-- A pawn told of a cancel changes its entry, and what its context holds for it. -/
theorem State.cancelPawn_pawn (s : State) (k j : Fin 64) : (s.cancelPawn k).pawn j = if j = k then (s.pawn k).cancelled else s.pawn j := by
  rw [State.cancelPawn, State.clearRanges_pawn, State.onPawn_pawn, State.onPawn_pawn, if_pos rfl, Pawn.cleared_told]
  split <;> rfl

/-- What a cancel of pawns leaves of the state: the tokens, the registers, the streams, and memory. -/
theorem State.cancelPawn_frame (s : State) (k : Fin 64) : ∃ pawns ranges slots bufs octx, s.cancelPawn k = { s with
    core := { s.core with pawns := pawns }, ctx := { s.ctx with ranges := ranges, rldSlots := slots, rldBufs := bufs }, octx := octx } := by
  obtain ⟨pawns, ranges, slots, bufs, octx, frame⟩ := (s.onPawn k (fun p =>
    if !p.open then p
    else if p.state = .pending then { p with fin := some .cancelled, frec := faultRecord .cancelled 0 0 }
    else { p with cancelReq := true })).clearRanges_frame k
  exact ⟨pawns, ranges, slots, bufs, octx, frame⟩

/-- Each pawn told of a cancel is as a cancel leaves it, and every other as it was. -/
theorem State.foldl_cancelPawn_pawn (s : State) {ks : List (Fin 64)} (once : ks.Nodup) (j : Fin 64) :
    (ks.foldl (fun s k => s.cancelPawn k) s).pawn j = if j ∈ ks then (s.pawn j).cancelled else s.pawn j := by
  induction ks generalizing s with
  | nil => rfl
  | cons k ks ih =>
    obtain ⟨fresh, rest⟩ := List.nodup_cons.1 once
    rw [List.foldl_cons, ih (s.cancelPawn k) rest, State.cancelPawn_pawn]
    by_cases here : j = k
    · subst here
      simp [fresh]
    · simp [here]

/-- The pawns of a handle, or of all that have none, are each there once. -/
theorem State.targets_nodup (s : State) (h : BitVec 16) (anon : Bool) : (s.targets h anon).Nodup := by
  unfold State.targets
  split
  · exact (List.nodup_finRange 64).filter _
  · cases s.byHandle h with
    | none => exact List.nodup_nil
    | some k => exact List.nodup_singleton k

theorem State.foldl_cancelPawn_frame (s : State) (ks : List (Fin 64)) : ∃ pawns ranges slots bufs octx,
    ks.foldl (fun s k => s.cancelPawn k) s = { s with
      core := { s.core with pawns := pawns }, ctx := { s.ctx with ranges := ranges, rldSlots := slots, rldBufs := bufs }, octx := octx } :=
  List.foldlRecOn ks _ (motive := fun (t : State) => ∃ pawns ranges slots bufs octx, t = { s with
      core := { s.core with pawns := pawns }, ctx := { s.ctx with ranges := ranges, rldSlots := slots, rldBufs := bufs }, octx := octx })
    ⟨_, _, _, _, _, rfl⟩ (fun t same k _ => by
      obtain ⟨_, _, _, _, _, rfl⟩ := same
      obtain ⟨_, _, _, _, _, frame⟩ := State.cancelPawn_frame _ k
      exact ⟨_, _, _, _, _, frame⟩)

theorem State.cancelTargets_may {s : State} {h : BitVec 16} {anon : Bool} {k : Fin 8} {owned : List (Fin 32)} (may : mayTake s.ctx k owned) :
    mayTake (s.cancelTargets h anon).ctx k owned := by
  obtain ⟨_, _, _, _, _, frame⟩ := s.foldl_cancelPawn_frame (s.targets h anon)
  rw [State.cancelTargets, frame]
  exact may

theorem State.cancelTargets_handles (s : State) (h : BitVec 16) (anon : Bool) (r : Fin 16) :
    (s.cancelTargets h anon).ctx.cHandle r = s.ctx.cHandle r := by
  obtain ⟨_, _, _, _, _, frame⟩ := s.foldl_cancelPawn_frame (s.targets h anon)
  rw [State.cancelTargets, frame]
  rfl

/-- PCANCEL of an even register tells its pawns, and then takes its token. -/
theorem exec_pcancel {s : State} {o : Op.PawnRes} (on : s.ctx.getP o.g = true) (even : o.rd.val % 2 = 0) (may : mayTake s.ctx o.tok (both o.rd)) :
    exec (.pcancel o) s = .next (tokenTaken (s.cancelTargets (s.ctx.cHandle o.h) (o.h == 0)) o.tok
      (.pcancel (s.ctx.cHandle o.h) (o.h == 0) o.rd) 12 (both o.rd)) := by
  have go : (decide (o.rd.val % 2 = 0) && (s.ctx.tokHazard o.tok (pairRegs o.rd)).isNone) = true := by
    rw [Context.tokHazard_eq_none (owned := pairRegs o.rd) may, decide_eq_true even]
    rfl
  refine congrArg Host.Outcome.next ((State.guarded_on on _).trans ?_)
  dsimp only
  rw [go, if_pos rfl, State.pawnPair_takes even (State.cancelTargets_may may), State.cancelTargets_handles]

/-- The state with other tracked ranges. -/
def State.withRanges (s : State) (ranges : List RangeOp) : State := { s with ctx := { s.ctx with ranges := ranges } }

theorem State.addRanges_withRanges (s : State) (st : Strm) (serial : Nat) (pawn : Option Nat) (rs : List (Nat × Nat × Bool)) :
    ∃ ranges, s.addRanges st serial pawn rs = s.withRanges ranges := ⟨_, rfl⟩

theorem State.walkFrom_withRanges (s : State) (ranges : List RangeOp) (fuel level table va : Nat) :
    (s.withRanges ranges).walkFrom fuel level table va = s.walkFrom fuel level table va := by
  induction fuel generalizing level table with
  | zero => rfl
  | succ n ih =>
    have allows (a : Acc) (pa n : Nat) : (s.withRanges ranges).mapAllows a pa n = s.mapAllows a pa n := rfl
    have names (pa : Nat) : (s.withRanges ranges).names pa = s.names pa := rfl
    have bad (pa n : Nat) : (s.withRanges ranges).readBad pa n = s.readBad pa n := rfl
    have entry (level pa n : Nat) : (s.withRanges ranges).readPte level ((s.withRanges ranges).readPa pa n) = s.readPte level (s.readPa pa n) := rfl
    simp only [State.walkFrom, ih, allows, names, bad, entry]

theorem State.readVa_withRanges (s : State) (ranges : List RangeOp) (a n : Nat) : (s.withRanges ranges).readVa a n = s.readVa a n := by
  have walk : (s.withRanges ranges).walk a = s.walk a := s.walkFrom_withRanges ranges 4 1 _ a
  have cores (i : Nat) : ((s.withRanges ranges).boxAt i).core = (s.boxAt i).core := by
    rw [State.boxAt, State.boxAt]
    by_cases here : i = s.site
    · rw [if_pos here, if_pos (show i = (s.withRanges ranges).site from here)]
      unfold State.hereBox State.withRanges
      cases s.cx <;> rfl
    · rw [if_neg here, if_neg (show ¬i = (s.withRanges ranges).site from here)]
      rfl
  have window : (s.withRanges ranges).windowKey a n = s.windowKey a n := by
    rw [State.windowKey, State.windowKey, cores]
    rfl
  have stops (l : Leaf) : (s.withRanges ranges).agentStops l a = s.agentStops l a := rfl
  have place (l : Leaf) : (s.withRanges ranges).placeBy l .read a n = s.placeBy l .read a n := rfl
  have placed : (s.withRanges ranges).placeNow .read a n = s.placeNow .read a n := by
    simp only [State.placeNow, walk, window, stops, place]
  rw [State.readVa, placed]
  rfl

theorem State.readDwords_withRanges (s : State) (ranges : List RangeOp) (a n : Nat) :
    (s.withRanges ranges).readDwords a n = s.readDwords a n := by
  induction n generalizing a with
  | zero => rfl
  | succ n ih => simp only [State.readDwords, State.readVa_withRanges, ih]

/-- The count of a collective's pawns does not turn on the tracked ranges. -/
theorem State.collKey_withRanges (s : State) (ranges : List RangeOp) (desc : Word) : (s.withRanges ranges).collKey desc = s.collKey desc := by
  rw [State.collKey, State.readDwords_withRanges, State.collKey]
  congr 1

/-- A collective with a free entry and room creates its pawn (R311). -/
theorem State.collWord_creates {s : State} {g : Fin 8} {ra : Fin 32} {buf : Word} {k : Fin 64} (detach : Bool) (h : Fin 16) (fn : Nat)
    (on : s.ctx.getP g = true) (even : ra.val % 2 = 0) (aligned : (s.ctx.getX ra).toNat % 64 = 0) (buffer : buf.toNat % 64 = 0)
    (free : s.freePawn = some k) (room : s.checkRanges .c true (s.collRanges fn (s.ctx.getX ra) (s.ctx.getX (ra + 1)) buf) = .ok ()) :
    let key := s.collKey (s.ctx.getX ra)
    let n := s.part.collSeq.getD key 0
    let p : NewPawn := {
      st := .c, eng := .collective, pri := (s.ctx.getX (ra + 1)).toNat / 2 ^ 56 % 8, h := h, detach := detach
      job := .coll fn (s.ctx.getX ra) (s.ctx.getX (ra + 1)) buf n, sync := 0, due := s.cycle + 1, lead := 0, rows := 0, draw := false
      idx := [], tr := [] }
    ∃ u : State, u.maker = s.maker ∧ u.part.collSeq = s.part.collSeq.put key (n + 1) ∧
      s.collWord g detach h ra buf fn = ((u.createPawn k p).issuedIn p.st).observe := by
  obtain ⟨ranges, entered⟩ := s.addRanges_withRanges .c s.serial (some k.val) (s.collRanges fn (s.ctx.getX ra) (s.ctx.getX (ra + 1)) buf)
  refine ⟨(s.withRanges ranges).onPart (fun p => { p with
    collSeq := p.collSeq.put (s.collKey (s.ctx.getX ra)) (s.part.collSeq.getD (s.collKey (s.ctx.getX ra)) 0 + 1) }), rfl, rfl, ?_⟩
  refine (State.guarded_on on _).trans ?_
  dsimp only
  rw [if_neg (by omega), if_neg (by omega), if_neg (by omega), free]
  dsimp only
  rw [room]
  dsimp only
  rw [entered, State.collKey_withRanges]
  rfl

/-- The handle that a PAWN word of the C stream reads is the register's, where no engine word has written it. -/
theorem Context.cHandle_of_unwritten {c : Context} {r : Fin 16} (none : ∀ e ∈ c.hwas, e.1 ≠ r) : c.cHandle r = c.getH r := by
  have empty : c.hwas.filter (fun e => e.1 == r) = [] := List.filter_eq_nil_iff.2 (fun e here => by simpa using none e here)
  rw [Context.cHandle, empty]
  rfl

/-- A handle register that one T word has written reads as it wrote it to a word that knows of it, and else as it was. -/
theorem Context.cHandle_of_written {c : Context} {r : Fin 16} {n : Nat} {old : BitVec 16} {rest : List (Fin 16 × Strm × Nat × BitVec 16)}
    (written : c.hwas = (r, .t, n, old) :: rest) (none : ∀ e ∈ rest, e.1 ≠ r) : c.cHandle r = if n < c.cs.know.t then c.getH r else old := by
  have one : c.hwas.filter (fun e => e.1 == r) = [(r, .t, n, old)] := by
    have empty : rest.filter (fun e => e.1 == r) = [] := List.filter_eq_nil_iff.2 (fun e here => by simpa using none e here)
    rw [written, List.filter_cons_of_pos (p := fun e : Fin 16 × Strm × Nat × BitVec 16 => e.1 == r) (beq_self_eq_true r), empty]
  rw [Context.cHandle, one]
  by_cases known : n < c.cs.know.t <;> simp [Context.knows, known]

end Sys2Proof.Machine
end

section
/-! PROOFS. CRW, and the pawn words of spec/16_control_system.md. -/

namespace Sys2Proof.Proofs

open Sys2Proof.Machine Sys2Proof.Claims

/-- Settles O15: the order of the checks of a CRW. -/
theorem crwLandsOrTraps : Obligations.CrwLandsOrTraps := by
  unfold Obligations.CrwLandsOrTraps
  intro o s on
  dsimp only
  rw [exec_crw on]
  simp only [crwBarred_iff]
  refine ⟨fun allowed room kind idle => congrArg Host.Outcome.next ?_,
    fun tip handler => ⟨fun noKind => ⟨_, rfl, ?_⟩, fun barred kind => ⟨_, rfl, ?_⟩⟩⟩
  · have quiet : ¬((o.reg.val = 0x015 ∨ o.reg.val = 0x017) ∧ (s.part.busy || s.ctx.shootPending) = true) := by
      rintro ⟨shoots, busy⟩
      obtain ⟨idle, pending⟩ := idle shoots
      simp [idle, pending] at busy
    rw [if_neg (fun bad => kind bad.1 bad.2), if_neg allowed, if_neg quiet]
    exact State.cLand_lands room 2 _ _
  · rw [if_pos noKind]
    exact State.trapWord_enters tip handler .illegal 0
  · rw [if_neg kind, if_pos barred]
    exact State.trapWord_enters tip handler .priv 0

/-- Settles O18: a collective by the creation of its pawn, PCANCEL by its pawns told one by one, and handles by who has written them. -/
theorem pawnWordsCreateAndCancel : Obligations.PawnWordsCreateAndCancel := by
  unfold Obligations.PawnWordsCreateAndCancel
  refine ⟨?_, fun o s on even may => ⟨exec_pcancel on even may, fun k => ?_⟩, fun c r => Context.cHandle_of_unwritten,
    fun c r n old rest => Context.cHandle_of_written⟩
  · intro i g detach h ra buf fn rb s k o word on even aligned buffer free loops room n
    have coll : exec i s = .next (s.collWord g detach h ra buf fn) := by
      simp only [List.mem_cons, List.not_mem_nil, or_false, Prod.mk.injEq] at word
      obtain ⟨rfl, rfl, rfl⟩ | ⟨rfl, rfl, rfl⟩ | ⟨rfl, rfl, rfl⟩ | ⟨rfl, rfl, rfl⟩ | ⟨rfl, rfl, rfl⟩ := word <;> rfl
    obtain ⟨u, same, part, creates⟩ := State.collWord_creates detach h fn on even aligned buffer free room
    refine ⟨_, coll.trans (congrArg Host.Outcome.next creates), ?_, createsPawn_of_maker same rfl⟩
    rw [← part]
    exact (congrArg (fun held : Holdings => held.part.collSeq) (holdings_of_created rfl .c) :)
  · exact s.foldl_cancelPawn_pawn (s.targets_nodup _ _) k

end Sys2Proof.Proofs
end

section
/-! SUPPORT. T words at issue: the window that they enter, and what the pop of a token leaves (R156, R322, R323). -/

namespace Sys2Proof.Machine

open Sys2Proof.Claims

/-! ### The pop of a token (R156) -/

/-- A token popped changes its channel, and of its stream what it has popped and what it knows. -/
theorem Context.await_frame {c d : Context} {st : Strm} {sync : Fin 8} {now : Nat} (pops : c.await st sync now = some d) :
    ∃ chans awaited know, d = ({ c with chans := chans } : Context).onStrm st (fun r => { r with awaited := awaited, know := know }) := by
  have kept : c = ({ c with chans := c.chans } : Context).onStrm st (fun r => { r with awaited := (c.strm st).awaited, know :=
      (c.strm st).know }) := by
    cases st <;> rfl
  unfold Context.await at pops
  split at pops
  · cases pops
    exact ⟨_, _, _, kept⟩
  · split at pops
    · cases pops
      exact ⟨_, _, _, kept⟩
    · split at pops <;> cases pops
      cases st <;> exact ⟨_, _, _, rfl⟩

/-- A T word met at issue: its token is popped, and nothing else is different. -/
theorem metT_frame {s t : State} {sync : Fin 8} {alone : Bool} (met : metT s sync alone t) : ∃ chans awaited know,
    t = { s with ctx := { s.ctx with chans := chans, ts := { s.ctx.ts with awaited := awaited, know := know } } } := by
  obtain ⟨-, -, c, pops, rfl⟩ := met
  obtain ⟨chans, awaited, know, rfl⟩ := Context.await_frame pops
  exact ⟨chans, awaited, know, rfl⟩

/-! ### The window (R322, R323) -/

/-- An excused wait changes no key's. -/
theorem State.noteSlow_eq (s : State) (serial key lat : Nat) : s.noteSlow serial key lat =
    if s.slowKey key then { s with ctx := { s.ctx with slow := (serial, s.cycle, s.cycle + lat) :: s.ctx.slow } } else s := rfl

theorem replicate_append_cons {α : Type} (a : α) (n : Nat) (l : List α) : List.replicate n a ++ a :: l = List.replicate (n + 1) a ++ l := by
  rw [List.replicate_succ', List.append_assoc]
  rfl

/-- The waits for a word's lines are excused line by line. -/
theorem State.foldl_noteSlow (s : State) (serial lat : Nat) (ls : List (Nat × Place)) :
    ls.foldl (fun s l => s.noteSlow serial l.2.key lat) s = slowed s serial ls lat := by
  induction ls generalizing s with
  | nil => rfl
  | cons l ls ih =>
    rw [List.foldl_cons, ih, State.noteSlow_eq]
    by_cases slow : s.slowKey l.2.key = true
    · have keys : (fun x : Nat × Place => State.slowKey { s with ctx := { s.ctx with slow := (serial, s.cycle,
        s.cycle + lat) :: s.ctx.slow } } x.2.key) =
          fun x => s.slowKey x.2.key := rfl
      rw [if_pos slow, slowed, slowed, keys, List.countP_cons_of_pos (p := fun l : Nat × Place => s.slowKey l.2.key) slow]
      exact congrArg (fun slow => ({ s with ctx := { s.ctx with slow := slow } } : State)) (replicate_append_cons _ _ _)
    · rw [if_neg slow, slowed, slowed, List.countP_cons_of_neg (p := fun l : Nat × Place => s.slowKey l.2.key) slow]

/-- A T word enters the window as the rules write it. -/
theorem State.enterT_eq (s : State) (op : TOp) (lat : Nat) (sync : Fin 8) (pops : List (Fin 16 × QEnt)) (set : Option (Fin 16 × Word)) :
    s.enterT op lat sync pops set = windowed s op lat sync pops set := by
  unfold State.enterT windowed
  dsimp only
  rw [State.foldl_noteSlow]
  cases set <;> rfl

theorem State.issueT_eq (s : State) (op : TOp) (lat : Nat) (sync : Fin 8) (pops : List (Fin 16 × QEnt)) (set : Option (Fin 16 × Word)) :
    s.issueT op lat sync pops set = (windowed s op lat sync pops set).issuedIn .t := by
  rw [State.issueT, State.enterT_eq]

/-! ### Address registers (R326, R333) -/

/-- A base after its step is a signed sum. -/
theorem stepped_eq (b : Word) (step : BitVec 9) : stepped b step = stepBase b step := by
  have sum : BitVec.ofInt 64 (64 * step.toInt) = step.signExtend 64 * 64 := by
    rw [BitVec.ofInt_mul, BitVec.mul_comm]
    rfl
  rw [stepBase, BitVec.ofInt_add, BitVec.ofInt_toInt, sum, stepped]

theorem signedSum_eq {n : Nat} (b : Word) (imm : BitVec n) : b + imm.signExtend 64 = BitVec.ofInt 64 (b.toInt + imm.toInt) := by
  rw [BitVec.ofInt_add, BitVec.ofInt_toInt]
  rfl

theorem wordSum_eq (b : Word) (e : QEntry) (k : Nat) : b + wordOf e k = BitVec.ofNat 64 (b.toNat + laneOf e 64 k) := by
  rw [BitVec.ofNat_add, BitVec.ofNat_toNat, BitVec.setWidth_eq, wordOf]

/-! ### What translations and contention leave (R131, R138, R208) -/

/-- The state after translations that found what they looked for: TLBs, noted faults and waits for chips, and what a T word has translated. -/
def State.Looked (s t : State) : Prop := ∃ ups ttr ctl tt mt vt faults, t = { s with
  ctx := { s.ctx with upWait := ups, ttr := ttr }, core := { s.core with ctlTlb := ctl, tTlb := tt, mTlb := mt, vTlb := vt, wfault := faults } }

theorem State.Looked.refl (s : State) : s.Looked s :=
  ⟨s.ctx.upWait, s.ctx.ttr, s.core.ctlTlb, s.core.tTlb, s.core.mTlb, s.core.vTlb, s.core.wfault, rfl⟩

theorem State.Looked.trans {s t u : State} (first : s.Looked t) (next : t.Looked u) : s.Looked u := by
  obtain ⟨_, _, _, _, _, _, _, rfl⟩ := first
  obtain ⟨_, _, _, _, _, _, _, rfl⟩ := next
  exact ⟨_, _, _, _, _, _, _, rfl⟩

theorem State.looked_upWait (s : State) (ups : List UpWait) : s.Looked (s.onCtx (fun c => { c with upWait := ups })) :=
  ⟨ups, s.ctx.ttr, s.core.ctlTlb, s.core.tTlb, s.core.mTlb, s.core.vTlb, s.core.wfault, rfl⟩

theorem State.looked_ttr (s : State) (tr : List Trans) : s.Looked (s.onCtx (fun c => { c with ttr := tr })) :=
  ⟨s.ctx.upWait, tr, s.core.ctlTlb, s.core.tTlb, s.core.mTlb, s.core.vTlb, s.core.wfault, rfl⟩

theorem State.looked_setTlb (s : State) (st : Strm) (f : Core → List TlbEnt) : s.Looked (s.onCore (fun c => c.setTlb st (f c))) := by
  cases st
  · exact ⟨s.ctx.upWait, s.ctx.ttr, _, s.core.tTlb, s.core.mTlb, s.core.vTlb, s.core.wfault, rfl⟩
  · exact ⟨s.ctx.upWait, s.ctx.ttr, s.core.ctlTlb, _, s.core.mTlb, s.core.vTlb, s.core.wfault, rfl⟩
  · exact ⟨s.ctx.upWait, s.ctx.ttr, s.core.ctlTlb, s.core.tTlb, _, s.core.vTlb, s.core.wfault, rfl⟩
  · exact ⟨s.ctx.upWait, s.ctx.ttr, s.core.ctlTlb, s.core.tTlb, s.core.mTlb, _, s.core.wfault, rfl⟩

theorem State.looked_peerGate (s : State) (st : Strm) (va : Nat) (l : Leaf) : s.Looked (s.peerGate st va l).2 := by
  unfold State.peerGate State.chipGate
  split
  · exact .refl s
  · dsimp only
    split
    · exact .refl s
    · split
      · split
        · exact s.looked_upWait _
        · split
          · exact s.looked_upWait _
          · exact .refl s
      · exact s.looked_upWait _

/-- A translation that has a place, or faults, starts no walk. -/
theorem State.looked_xlate {s : State} {st : Strm} {k : Acc} {va n : Nat} (ends : (s.xlate st k va n).1 ≠ .wait) :
    s.Looked (s.xlate st k va n).2 := by
  revert ends
  unfold State.xlate
  split
  · exact fun _ => .refl s
  · split
    · split
      · exact fun _ => .refl s
      · split <;> exact fun _ => .refl s
    · split
      next e _ =>
        have touched := s.looked_setTlb st (fun c => touchTlb (c.tlb st) s.cx va)
        dsimp only
        split
        · exact fun _ => touched
        · have gated := touched.trans (State.looked_peerGate (s.onCore (fun c => c.setTlb st (touchTlb (c.tlb st) s.cx va))) st va e.leaf)
          split
          next gate => exact fun _ => (congrArg (fun r => s.Looked r.2) gate).mp gated
          next gate => exact fun _ => (congrArg (fun r => s.Looked r.2) gate).mp gated
      · split
        · exact fun _ => ⟨s.ctx.upWait, s.ctx.ttr, s.core.ctlTlb, s.core.tTlb, s.core.mTlb, s.core.vTlb, _, rfl⟩
        · exact fun ends => absurd rfl ends

/-- Translations that all have their places. -/
theorem State.looked_xlateMore {s t : State} {st : Strm} {l : List (Acc × Nat × Nat)} {tr tr' : List Trans}
    (all : s.xlateMore st l tr = ((none, tr'), t)) : s.Looked t := by
  induction l generalizing s tr with
  | nil =>
    cases all
    exact .refl _
  | cons a rest ih =>
    obtain ⟨k, va, n⟩ := a
    unfold State.xlateMore at all
    split at all
    · exact ih all
    · have looked := State.looked_xlate (s := s) (st := st) (k := k) (va := va) (n := n)
      split at all
      · cases all
      · cases all
      next p u found =>
        rw [found] at looked
        exact (looked XRes.noConfusion).trans (ih all)

theorem State.looked_linesT {s t : State} {k : Acc} {as : List Nat} {ls : List (Nat × Place)} (all : s.linesT k as = (.ok ls, t)) : s.Looked t := by
  unfold State.linesT at all
  dsimp only at all
  split at all
  next found =>
    cases all
    exact (State.looked_xlateMore found).trans (State.looked_ttr ..)
  · cases all

/-- The lines of a PREF translated, up to one that would fault. -/
theorem State.looked_prefLines {s t : State} {bad : List (Nat × Place) → Nat → Bool} {l : List Nat} {tr tr' : List Trans}
    (all : s.prefLines bad l tr = ((false, tr'), t)) : s.Looked t := by
  induction l generalizing s tr with
  | nil =>
    cases all
    exact .refl _
  | cons va rest ih =>
    unfold State.prefLines at all
    split at all
    · exact ih all
    · have looked := State.looked_xlate (s := s) (st := .t) (k := .read) (va := va) (n := 64)
      split at all
      · cases all
      next found =>
        cases all
        rw [found] at looked
        exact looked XRes.noConfusion
      next found =>
        rw [found] at looked
        have here := looked XRes.noConfusion
        split at all
        · cases all
          exact here
        · exact here.trans (ih all)

/-- The state after an access that met others: delays taken, and boards counted. -/
def State.Contended (s t : State) : Prop := ∃ delays board cores, t = { s with
  delays := delays, core := { s.core with board := board }, cores := cores }

theorem State.Contended.trans {s t u : State} (first : s.Contended t) (next : t.Contended u) : s.Contended u := by
  obtain ⟨_, _, _, rfl⟩ := first
  obtain ⟨_, _, _, rfl⟩ := next
  exact ⟨_, _, _, rfl⟩

theorem State.Contended.serial {s t : State} (met : s.Contended t) : t.serial = s.serial := by
  obtain ⟨_, _, _, rfl⟩ := met
  rfl

theorem State.contended_takeDelay (s : State) : s.Contended s.takeDelay.2 := by
  rw [State.takeDelay_frame]
  exact ⟨_, s.core.board, s.cores, rfl⟩

theorem State.contended_contend (s : State) (requester key : Nat) : s.Contended (s.contend requester key).2 := by
  have delayed := s.contended_takeDelay
  have site := (s.same_takeDelay).site
  unfold State.contend
  dsimp only
  split
  · exact delayed
  · split
    · exact delayed.trans ⟨s.takeDelay.2.delays, _, s.takeDelay.2.cores, rfl⟩
    next away =>
      refine delayed.trans ?_
      rw [State.putBox, if_neg (fun here => away (here.trans site))]
      exact ⟨s.takeDelay.2.delays, s.takeDelay.2.core.board, _, rfl⟩

theorem State.contended_contendAll (s : State) (requester : Nat) (keys : List Nat) : s.Contended (s.contendAll requester keys).2 := by
  induction keys generalizing s with
  | nil => exact s.contended_takeDelay
  | cons k rest ih =>
    cases rest with
    | nil => exact s.contended_contend requester k
    | cons j rest => exact (s.contended_contend requester k).trans (ih _)

theorem State.contended_contendCopy (s : State) (src dst : Nat) : s.Contended (s.contendCopy src dst).2 :=
  (s.contended_contend 0 src).trans (State.contended_contend ..)

/-! ### Queue words (R325 to R327) -/

theorem goodBase_unfaulted {b : Word} (good : goodBase b) : baseFault b = none := by
  obtain ⟨aligned, low⟩ := good
  rw [baseFault, if_neg (not_not.2 aligned), if_neg (Nat.not_le.2 low)]

/-- The leaf of a place that a line has, or of none. -/
theorem leafIn_getD (ls : List (Nat × Place)) (a : Nat) : ((placeIn ls a).getD { key := 0, leaf := none }).leaf = leafIn ls a := by
  unfold leafIn
  cases placeIn ls a <;> rfl

/-- A queue word goes on with its walk. -/
theorem State.walkT_walks {s t : State} {k : Acc} {b : Word} {ly : LyRec} {strict : Bool} {w : Walking} {ls : List (Nat × Place)}
    (walks : queueWalks s k b ly strict w ls t) (f : Walking → List (Nat × Place) → State → State) : s.walkT k b ly strict f = f w ls t := by
  have covers : min (2048 / fmtBits ly.lfmt.toNat) (ly.rows.toNat * ly.cols.toNat) = ly.covers := rfl
  unfold queueWalks at walks
  dsimp only at walks
  rw [covers] at walks
  unfold State.walkT
  dsimp only
  split at walks
  next empty =>
    obtain ⟨rfl, rfl, rfl⟩ := walks
    rw [if_pos empty]
    rfl
  next some_ =>
    obtain ⟨base, s1, first, rfl, blocks, scale, lines, elems⟩ := walks
    have fits : (List.range ly.covers).find? (fun i =>
        !(ly.walkAt b.toNat (leafIn base b.toNat) (fmtBits ly.lfmt.toNat)).elemOk ls strict (fmtBits ly.lfmt.toNat)
          ((ly.walkAt b.toNat (leafIn base b.toNat) (fmtBits ly.lfmt.toNat)).rc i).1
          ((ly.walkAt b.toNat (leafIn base b.toNat) (fmtBits ly.lfmt.toNat)).rc i).2) = none := by
      rw [List.find?_eq_none]
      intro i mem bad
      rw [Bool.not_eq_true'] at bad
      exact Bool.noConfusion (bad.symm.trans (elems i (List.mem_range.1 mem)))
    rw [if_neg some_, first]
    dsimp only
    rw [leafIn_getD, if_neg (fun bad => bad.elim (fun odd => odd.2 (blocks odd.1)) (fun none_ => scale none_.1 none_.2)), lines]
    dsimp only
    rw [fits]

/-- The lines of a queue word take no time. -/
theorem queueWalks_cycle {s t : State} {k : Acc} {b : Word} {ly : LyRec} {strict : Bool} {w : Walking} {ls : List (Nat × Place)}
    (walks : queueWalks s k b ly strict w ls t) : w.ly = ly ∧ t.cycle = s.cycle := by
  unfold queueWalks at walks
  dsimp only at walks
  split at walks
  · obtain ⟨rfl, rfl, rfl⟩ := walks
    exact ⟨rfl, rfl⟩
  · obtain ⟨base, s1, first, rfl, -, -, lines, -⟩ := walks
    obtain ⟨_, _, _, _, _, _, _, rfl⟩ := State.looked_linesT first
    obtain ⟨_, _, _, _, _, _, _, rfl⟩ := State.looked_linesT lines
    exact ⟨rfl, rfl⟩

theorem State.rangedT_ok {s : State} {pawn : Bool} {rs : List (Nat × Nat × Bool)} (room : s.checkRanges .t pawn rs = .ok ()) (va : Word)
    (f : State → State) : s.rangedT va pawn rs f = f s := by
  rw [State.rangedT, room]

section
variable {s t u : State} {o : Op.Tq} {w : Walking} {ls : List (Nat × Place)}

/-- LDQ, from the state in which its token is popped. -/
theorem exec_ldq (met : metT s o.sync false t) (sound : t.lyBad o.ly = false) (lanes : laneFmtOk t.core.ly[o.ly].lfmt.toNat = true)
    (bound : t.ctx.roomQ t.cycle .t o.q = .ok ()) (good : goodBase (t.ctx.getA o.ra))
    (walks : queueWalks t .read (t.ctx.getA o.ra) t.core.ly[o.ly]
      (t.ctx.strict || (decide ((t.ctx.q[o.q].binding t.cycle).2 = queueCode .v) && t.ctx.vshape.getLsbD 17)) w ls u)
    (room : u.checkRanges .t false (queueRanges u w false) = .ok ()) :
    let d := u.contendAll 0 (ls.map (fun l => l.2.key))
    let v := tracked d.2 .t none (queueRanges u w false)
    exec (.ldq o) s = .next ((windowed { v with ctx := v.ctx.reserveQ t.cycle o.q d.2.serial d.2.serial }
      (.ldq o.q (t.ctx.getA o.ra) t.core.ly[o.ly] ls) (d.2.linesLat ls + d.1) o.sync [] (some (o.ra,
          stepBase (t.ctx.getA o.ra) o.step))).issuedIn .t) := by
  obtain ⟨record, late⟩ := queueWalks_cycle walks
  have now : (u.contendAll 0 (ls.map (fun l => l.2.key))).2.cycle = t.cycle := (u.same_contendAll 0 _).cycle.trans late
  intro d v
  have ranges : u.walkRanges w (t.lyRec o.ly).covers false = queueRanges u w false := by
    rw [queueRanges, record]
    rfl
  refine congrArg Host.Outcome.next ((State.tWord_met _ met).trans ?_)
  dsimp only
  rw [if_neg (Bool.eq_false_iff.1 sound), State.lyRec, lanes, Bool.not_true, if_neg Bool.false_ne_true, bound]
  dsimp only
  rw [goodBase_unfaulted good]
  refine (State.walkT_walks walks _).trans ?_
  rw [State.lyRec] at ranges
  rw [ranges, State.rangedT_ok room, now, State.issueT_eq, stepped_eq]
  rfl

/-- STQ, as LDQ. -/
theorem exec_stq {es : List QEnt} {c : Context} (met : metT s o.sync false t) (sound : t.lyBad o.ly = false)
    (lanes : laneFmtOk t.core.ly[o.ly].lfmt.toNat = true) (pops : t.ctx.popQ t.cycle .t o.q 1 = .ok (es, c)) (good : goodBase (t.ctx.getA o.ra))
    (walks : queueWalks t .write (t.ctx.getA o.ra) t.core.ly[o.ly] t.ctx.strict w ls u)
    (room : u.checkRanges .t false (queueRanges u w true) = .ok ()) :
    let d := u.contendAll 1 (ls.map (fun l => l.2.key))
    exec (.stq o) s = .next ((windowed (popped (tracked d.2 .t none (queueRanges u w true)) c) (.stq (entry1 es)
        (t.ctx.getA o.ra) t.core.ly[o.ly] ls)
      (d.2.linesLat ls + d.1) o.sync (es.map (fun e => (o.q, e))) (some (o.ra, stepBase (t.ctx.getA o.ra) o.step))).issuedIn .t) := by
  obtain ⟨record, late⟩ := queueWalks_cycle walks
  intro d
  have ranges : u.walkRanges w (t.lyRec o.ly).covers true = queueRanges u w true := by
    rw [queueRanges, record]
    rfl
  refine congrArg Host.Outcome.next ((State.tWord_met _ met).trans ?_)
  dsimp only
  rw [if_neg (Bool.eq_false_iff.1 sound), State.lyRec, lanes, Bool.not_true, if_neg Bool.false_ne_true, pops]
  dsimp only
  rw [goodBase_unfaulted good]
  refine (State.walkT_walks walks _).trans ?_
  rw [State.lyRec] at ranges
  rw [ranges, State.rangedT_ok room, State.issueT_eq, stepped_eq]
  rfl

end

/-- What a PREF does for a line. -/
theorem State.prefLine_eq (s : State) (p : Place) : s.prefLine p = reached s p := by
  have keys : (fun d : Nat × Nat => !([p.key] : List Nat).any (fun k => decide (deepSite k = some d.1) && decide (k % 2 ^ 24 / 2 ^ 18 = d.2))) =
      fun d => !(decide (deepSite p.key = some d.1) && decide (p.key % 2 ^ 24 / 2 ^ 18 = d.2)) := by
    funext d
    rw [List.any_cons, List.any_nil, Bool.or_false]
  unfold State.prefLine reached State.wakeBanks
  rw [keys]

/-- A line that a PREF reaches leaves memory and the context. -/
theorem reached_frame (s : State) (p : Place) : (reached s p).mem = s.mem ∧ (reached s p).ctx = s.ctx := by
  unfold reached
  split
  · unfold State.replRead
    dsimp only
    split <;> exact ⟨rfl, rfl⟩
  · exact ⟨rfl, rfl⟩

theorem foldl_reached_frame (s : State) (tr : List Trans) :
    let r := tr.foldl (fun x y => reached x y.place) s
    r.mem = s.mem ∧ r.ctx = s.ctx :=
  List.foldlRecOn tr _ (motive := fun (t : State) => t.mem = s.mem ∧ t.ctx = s.ctx) ⟨rfl, rfl⟩ (fun t same p _ => by
    obtain ⟨mem, ctx⟩ := reached_frame t p.place
    exact ⟨mem.trans same.1, ctx.trans same.2⟩)

section
variable {s t : State} {o : Op.Pref}

/-- What a PREF is met with has no fault of its own. -/
def State.prefGood (t : State) (o : Op.Pref) : Prop :=
  t.lyBad o.ly = false ∧ laneFmtOk t.core.ly[o.ly].lfmt.toNat = true ∧ (t.ctx.getA o.ra).toNat % 64 = 0

/-- The state in which a PREF has stepped its base and is in the window. -/
def State.prefIssued (t : State) (o : Op.Pref) (b : Word) : State :=
  (windowed t .plain 0 o.sync [] (some (o.ra, stepBase b o.step))).issuedIn .t

/-- PREF, from the state in which its token is popped: with no element, with a fault at its base, and with its lines. -/
theorem exec_pref (met : metT s o.sync false t) (good : t.prefGood o) :
    let ly := t.core.ly[o.ly]
    let b := t.ctx.getA o.ra
    let raw := fmtBits ly.lfmt.toNat
    (ly.covers = 0 → exec (.pref o) s = .next (t.prefIssued o b)) ∧
    (∀ (f : Cause × Nat) (u : State), ly.covers ≠ 0 → t.linesT .read [b.toNat] = (.error (some f), u) →
        exec (.pref o) s = .next (u.prefIssued o b)) ∧
    (∀ (base : List (Nat × Place)) (tr : List Trans) (u v : State), ly.covers ≠ 0 → t.linesT .read [b.toNat] = (.ok base, u) →
      let w := ly.walkAt b.toNat (leafIn base b.toNat) raw
      (w.geom ≠ 0 → ly.cols.toNat % 32 = 0) → (w.geom = 2 → ly.scale ≠ 0) →
      u.prefLines (fun lines va => w.lineBad lines u.ctx.strict raw ly.covers va) (linesOf (w.addrs ly.covers)) u.ctx.ttr = ((false, tr), v) →
      exec (.pref o) s = .next ((tr.foldl (fun x y => reached x y.place) v).prefIssued o b)) := by
  obtain ⟨sound, lanes, aligned⟩ := good
  have goes (v : State) : v.issueT .plain 0 o.sync [] (some (o.ra, stepped (t.ctx.getA o.ra) o.step)) = v.prefIssued o (t.ctx.getA o.ra) := by
    rw [State.issueT_eq, stepped_eq]
    rfl
  have lines : (fun (x : State) (y : Trans) => x.prefLine y.place) = fun x y => reached x y.place := by
    funext x y
    exact State.prefLine_eq x y.place
  dsimp only
  rw [show exec (.pref o) s = .next (s.tWord o.sync false _) from rfl, State.tWord_met _ met]
  dsimp only
  rw [if_neg (Bool.eq_false_iff.1 sound), State.lyRec, lanes, Bool.not_true, if_neg Bool.false_ne_true, if_neg (not_not.2 aligned), goes]
  refine ⟨fun empty => ?_, fun f u some_ fault => ?_, fun base tr u v some_ first blocks scale walked => ?_⟩
  · rw [if_pos empty]
  · rw [if_neg some_, fault]
    exact congrArg Host.Outcome.next (goes u)
  · rw [if_neg some_, first]
    dsimp only
    rw [if_neg (fun bad => bad.elim (fun odd => odd.2 (blocks odd.1)) (fun none_ => scale none_.1 none_.2)), walked, lines]
    exact congrArg Host.Outcome.next (goes _)

/-- What a PREF reaches leaves memory and registers. -/
theorem prefLines_frame {u v : State} {bad : List (Nat × Place) → Nat → Bool} {l : List Nat} {tr' tr : List Trans}
    (walked : u.prefLines bad l tr' = ((false, tr), v)) :
    let r := tr.foldl (fun x y => reached x y.place) v
    r.mem = u.mem ∧ r.ctx.q = u.ctx.q ∧ r.ctx.x = u.ctx.x ∧ r.ctx.a = u.ctx.a := by
  obtain ⟨mem, ctx⟩ := foldl_reached_frame v tr
  dsimp only
  rw [mem, ctx]
  obtain ⟨_, _, _, _, _, _, _, rfl⟩ := State.looked_prefLines walked
  exact ⟨rfl, rfl, rfl, rfl⟩

end

/-! ### Atomic words (R331, R332) -/

/-- How long lines take does not turn on the context. -/
theorem State.linesLat_onCtx (s : State) (f : Context → Context) (ls : List (Nat × Place)) : (s.onCtx f).linesLat ls = s.linesLat ls := rfl

theorem linesLat_addRanges (s : State) (c : Context) (serial : Nat) (rs : List (Nat × Nat × Bool)) (ls : List (Nat × Place)) :
    ((s.takePops c).addRanges .t serial none rs).linesLat ls = s.linesLat ls := rfl

section
variable {s t u : State} {c : Context} {vs : List QEnt} {ls : List (Nat × Place)}

/-- A member of SACC, from the state in which its token is popped. -/
theorem State.saccWord_enters {o : Op.Sacc} {is : List QEnt} {c1 : Context} (fn : Nat) (met : metT s o.sync false t)
    (index : t.ctx.popQ t.cycle .t o.qi 1 = .ok (is, c1)) (value : c1.popQ t.cycle .t o.qv 1 = .ok (vs, c))
    (aligned : (t.ctx.getA o.ra).toNat % 4 = 0) (low : (t.ctx.getA o.ra).toNat < 2 ^ 52) :
    let b := t.ctx.getA o.ra
    let as := (saccLanes b.toNat (entry1 is) (entry1 vs) 0 ++ saccLanes b.toNat (entry1 is) (entry1 vs) 32).map (fun e => e.1)
    t.linesT .atomic as = (.ok ls, u) → (∀ a ∈ as, (saccInt (leafIn ls a)).isSome = true) →
    u.checkRanges .t false (u.elemRanges as 4) = .ok () →
    let d := u.contendAll 7 (ls.map (fun l => l.2.key))
    s.saccWord o fn = (windowed (tracked (popped d.2 c) .t none (u.elemRanges as 4))
      (.sacc fn (entry1 is) (entry1 vs) b ls) (d.2.linesLat ls + d.1) o.sync
      (is.map (fun e => (o.qi, e)) ++ vs.map (fun e => (o.qv, e))) none).issuedIn .t := by
  have first (es : List QEnt) : (es.headD QEnt.absent).bits = entry1 es := rfl
  have numbered : (u.contendAll 7 (ls.map (fun l => l.2.key))).2.serial = u.serial := (u.contended_contendAll 7 _).serial
  dsimp only
  generalize touched : saccLanes (t.ctx.getA o.ra).toNat (entry1 is) (entry1 vs) 0 ++
    saccLanes (t.ctx.getA o.ra).toNat (entry1 is) (entry1 vs) 32 = lanes
  intro lines wide room
  have words : (lanes.map (fun e => e.1)).find? (fun a => (saccInt (leafIn ls a)).isNone) = none := by
    rw [List.find?_eq_none]
    intro a mem none_
    rw [Option.isNone_iff_eq_none] at none_
    have some_ := wide a mem
    rw [none_] at some_
    exact Bool.noConfusion some_
  rw [State.saccWord, State.tWord_met _ met]
  dsimp only
  rw [index]
  dsimp only
  rw [value]
  dsimp only
  rw [if_neg (not_not.2 aligned), if_neg (Nat.not_le.2 low), first, first, touched, lines]
  dsimp only
  rw [words]
  dsimp only
  rw [State.rangedT_ok room, State.issueT_eq, ← numbered, linesLat_addRanges]
  rfl

/-- SCAS, from the state in which its token is popped. -/
theorem exec_scas {o : Op.Scas} (met : metT s o.sync false t) (pops : t.ctx.popQ t.cycle .t o.qv 1 = .ok (vs, c))
    (place : c.roomQ t.cycle .t o.qd = .ok ()) (aligned : (t.ctx.getA o.ra).toNat % (if o.wide then 8 else 4) = 0)
    (low : (t.ctx.getA o.ra).toNat < 2 ^ 52) (lines : t.linesT .atomic [(t.ctx.getA o.ra).toNat] = (.ok ls, u)) (live : u.ctx.replaying = false)
    (room : u.checkRanges .t false (u.elemRanges [(t.ctx.getA o.ra).toNat] (if o.wide then 8 else 4)) = .ok ()) :
    let a := t.ctx.getA o.ra
    let d := u.contendAll 7 (ls.map (fun l => l.2.key))
    let v := tracked (popped d.2 c) .t none (u.elemRanges [a.toNat] (if o.wide then 8 else 4))
    exec (.scas o) s = .next ((windowed { v with ctx := v.ctx.reserveQ t.cycle o.qd v.serial v.serial }
      (.scas (entry1 vs) a o.wide o.qd ls) (d.2.linesLat ls + d.1) o.sync (vs.map (fun e => (o.qv, e))) none).issuedIn .t) := by
  have late : u.cycle = t.cycle := by
    obtain ⟨_, _, _, _, _, _, _, rfl⟩ := State.looked_linesT lines
    rfl
  have numbered : (u.contendAll 7 (ls.map (fun l => l.2.key))).2.serial = u.serial := (u.contended_contendAll 7 _).serial
  intro a d v
  refine congrArg Host.Outcome.next ((State.tWord_met _ met).trans ?_)
  dsimp only
  rw [pops]
  dsimp only
  rw [place]
  dsimp only
  rw [if_neg (not_not.2 aligned), if_neg (Nat.not_le.2 low), lines]
  dsimp only
  rw [live, if_neg Bool.false_ne_true]
  rw [State.rangedT_ok room, State.issueT_eq, late, ← numbered]
  rw [State.linesLat_onCtx, linesLat_addRanges]
  rfl

end

end Sys2Proof.Machine
end

section
/-! PROOFS. The control words of spec/17_transfer.md. -/

namespace Sys2Proof.Proofs

open Sys2Proof.Machine Sys2Proof.Claims

/-- Settles O19: each word by the entry that it makes in the window. -/
theorem transferRegisterAndControlWordsEnterTheWindow : Obligations.TransferRegisterAndControlWordsEnterTheWindow := by
  unfold Obligations.TransferRegisterAndControlWordsEnterTheWindow
  refine ⟨fun o s t met => ?_, fun o s t es c met pops => ?_, fun o s t met => ?_, fun o s t met good => ?_, fun o s t met idle => ?_,
    fun o s t met named gone => ?_⟩
  all_goals refine congrArg Host.Outcome.next ((State.tWord_met _ met).trans ?_)
  · -- ADDA
    obtain ⟨chans, awaited, know, rfl⟩ := metT_frame met
    rw [State.issueT_eq, signedSum_eq]
    rfl
  · -- ADDAR
    obtain ⟨chans, awaited, know, rfl⟩ := metT_frame met
    dsimp only
    rw [pops]
    dsimp only
    rw [State.issueT_eq, wordSum_eq]
    rfl
  · exact State.issueT_eq .. -- SYNC
  · -- LOOP
    rw [loopBad_of_good good, if_neg Bool.false_ne_true]
    obtain ⟨chans, awaited, know, rfl⟩ := metT_frame met
    rw [State.enterT_eq, State.enterLoop_eq]
    rfl
  · -- FENCE
    have ready : t.fenceMet .t o.before o.scope.val := idle
    exact (State.fenceWord_met ready o.sync _).trans (State.issueT_eq ..)
  · -- WAITH
    obtain ⟨chans, awaited, know, rfl⟩ := metT_frame met
    exact (State.waithWord_gone named gone _).trans (State.issueT_eq ..)

/-- Settles O21: the walk of each, then its ranges, then the entry in the window. -/
theorem queueLoadsAndStoresEnterTheWindow : Obligations.QueueLoadsAndStoresEnterTheWindow := by
  unfold Obligations.QueueLoadsAndStoresEnterTheWindow
  constructor
  · intro o s t u w ls met ly b sound lanes bound good walks rs room d v
    have enters := exec_ldq (t := t) (u := u) (w := w) (ls := ls) met
    obtain ⟨chans, awaited, know, rfl⟩ := metT_frame met
    exact enters sound lanes bound good walks room
  · intro o s t u w ls es c met ly b sound lanes pops good walks rs room d
    have enters := exec_stq (t := t) (u := u) (w := w) (ls := ls) (es := es) (c := c) met
    obtain ⟨chans, awaited, know, rfl⟩ := metT_frame met
    exact enters sound lanes pops good walks room

/-- Settles O22: the three ways of a PREF, and what the lines that it reaches leave. -/
theorem prefMovesNoData : Obligations.PrefMovesNoData := by
  unfold Obligations.PrefMovesNoData
  intro o s t met ly b raw n goesOn sound lanes aligned
  have goes := exec_pref met
  obtain ⟨chans, awaited, know, rfl⟩ := metT_frame met
  obtain ⟨empty, faulted, walks⟩ := goes ⟨sound, lanes, aligned⟩
  refine ⟨empty, faulted, ?_⟩
  intro base tr u v some_ first w blocks scale walked r
  obtain ⟨mem, q, x, a⟩ := prefLines_frame walked
  have entered := walks base tr u v some_ first blocks scale walked
  obtain ⟨_, _, _, _, _, _, _, rfl⟩ := State.looked_linesT first
  exact ⟨entered, mem, q, x, a⟩

/-- Settles O23: SACC by one argument for its members, SCAS by its own. -/
theorem atomicWordsEnterTheWindow : Obligations.AtomicWordsEnterTheWindow := by
  unfold Obligations.AtomicWordsEnterTheWindow
  constructor
  · intro i o fn s t u is vs c1 c2 ls word met b index value aligned low as lines wide room d
    have member : exec i s = .next (s.saccWord o fn) := by
      simp only [List.mem_cons, List.not_mem_nil, or_false, Prod.mk.injEq] at word
      obtain ⟨rfl, rfl⟩ | ⟨rfl, rfl⟩ | ⟨rfl, rfl⟩ | ⟨rfl, rfl⟩ := word <;> rfl
    have enters := State.saccWord_enters (t := t) (u := u) (c := c2) (vs := vs) (ls := ls) (is := is) (c1 := c1) fn met
    obtain ⟨chans, awaited, know, rfl⟩ := metT_frame met
    exact member.trans (congrArg Host.Outcome.next (enters index value aligned low lines wide room))
  · intro o s t u vs c ls met a n pops place aligned low lines live room d v
    have enters := exec_scas (t := t) (u := u) (c := c) (vs := vs) (ls := ls) met
    obtain ⟨chans, awaited, know, rfl⟩ := metT_frame met
    exact enters pops place aligned low lines live room

end Sys2Proof.Proofs
end

section
/-! SUPPORT. A line that a T word has translated before (R122, R322). -/

namespace Sys2Proof.Machine

open Sys2Proof.Claims

/-- A line whose place is kept is not translated again. -/
theorem State.linesT_kept {s : State} {k : Acc} {a : Nat} {p : Place} (line : a / 64 * 64 = a) (kept : placeOf s.ctx.ttr k.writes a = some p) :
    s.linesT k [a] = (.ok [(a, p)], s) := by
  have lines : linesOf [a] = [a] := by
    rw [linesOf, List.map_cons, List.map_nil, line]
    rfl
  have known : (placeOf s.ctx.ttr k.writes a).isSome = true := by
    rw [kept]
    rfl
  have found : s.xlateMore .t ((linePieces [a]).map (fun l => (k, l.1, l.2))) s.ctx.ttr = ((none, s.ctx.ttr), s) := by
    rw [linePieces, List.map_cons, List.map_cons, List.map_nil, List.map_nil, State.xlateMore, if_pos known, State.xlateMore]
  rw [State.linesT, lines, found]
  dsimp only
  rw [List.filterMap_cons, kept]
  rfl

/-! ### What a creation reads, after translations and contention (R164) -/

theorem State.Looked.maker {s t : State} (looked : s.Looked t) : t.maker = s.maker := by
  obtain ⟨_, _, _, _, _, _, _, rfl⟩ := looked
  rfl

theorem State.Looked.holdings {s t : State} (looked : s.Looked t) : t.holdings = s.holdings := by
  obtain ⟨_, _, _, _, _, _, _, rfl⟩ := looked
  rfl

theorem State.Contended.maker {s t : State} (met : s.Contended t) : t.maker = s.maker := by
  obtain ⟨_, _, _, rfl⟩ := met
  rfl

theorem State.Contended.holdings {s t : State} (met : s.Contended t) : t.holdings = s.holdings := by
  obtain ⟨_, _, _, rfl⟩ := met
  rfl

/-- Contention makes no access slower than it says. -/
theorem State.Contended.latencyTo {s t : State} (met : s.Contended t) (site key : Nat) : t.latencyTo site key = s.latencyTo site key := by
  obtain ⟨_, _, _, rfl⟩ := met
  rfl

/-- The extra cycles of an access are the next that the agenda gives. -/
theorem State.contend_fst (s : State) (requester key : Nat) : (s.contend requester key).1 = s.delays.headD 0 := by
  have delay : s.takeDelay.1 = s.delays.headD 0 := congrArg Prod.fst s.takeDelay_eq
  unfold State.contend
  dsimp only
  split
  · exact delay
  · split <;> exact delay

theorem State.checkRanges_of {s t : State} (same : t.ctx.ranges = s.ctx.ranges) (st : Strm) (pawn : Bool) (rs : List (Nat × Nat × Bool)) :
    t.checkRanges st pawn rs = s.checkRanges st pawn rs := by
  induction rs with
  | nil => rfl
  | cons r rs ih =>
    rw [State.checkRanges, State.checkRanges, ih, Context.rangesFull, Context.conflict, same]
    rfl

theorem State.freePawn_of {s t : State} (same : t.core.pawns = s.core.pawns) : t.freePawn = s.freePawn := by
  simp only [State.freePawn, State.pawn_of_pawns same]

/-! ### Remote words (R30, R330) -/

/-- The state with these request slots and buffers, and this reservation. -/
def State.withSlots (s : State) (slots : Vector (Option Nat) 8) (bufs : Nat) (held : Option (Fin 8 × Nat)) : State :=
  s.onCtx (fun c => { c with rldSlots := slots, rldBufs := bufs, rldHeld := held })

/-- A request slot taken, and its buffers, or the ones reserved for the word kept. -/
theorem State.reserveSlot_takes {s : State} {j : Fin 8} {bufs : Nat} (free : s.ctx.rldHeld = some (j, bufs) ∨
      (s.ctx.rldHeld = none ∧ s.ctx.freeSlot s.cycle = some j ∧ bufs ≤ s.ctx.rldBufs)) : ∃ slots left held,
    s.reserveSlot bufs = some (j, s.withSlots slots left held) ∧
    (s.ctx.rldHeld = some (j, bufs) → slots = s.ctx.rldSlots ∧ left = s.ctx.rldBufs) ∧
    (s.ctx.rldHeld ≠ some (j, bufs) → slots = s.ctx.rldSlots.set j none ∧ left = s.ctx.rldBufs - bufs) := by
  obtain kept | ⟨none_, slot, room⟩ := free
  · refine ⟨s.ctx.rldSlots, s.ctx.rldBufs, s.ctx.rldHeld, ?_, fun _ => ⟨rfl, rfl⟩, fun other => absurd kept other⟩
    simp only [State.reserveSlot, kept, if_true]
    exact congrArg (fun held => some (j, s.withSlots s.ctx.rldSlots s.ctx.rldBufs held)) kept
  · refine ⟨s.ctx.rldSlots.set j none, s.ctx.rldBufs - bufs, some (j, bufs), ?_, fun held => absurd held (by rw [none_]; nofun),
      fun _ => ⟨rfl, rfl⟩⟩
    simp only [State.reserveSlot, none_, slot, if_neg (Nat.not_lt.2 room)]
    rfl

/-- The response buffers of a load, one to 128 bytes. -/
theorem loadBuffers (size : Nat) : (if 64 * 2 ^ size ≤ 128 then 1 else 64 * 2 ^ size / 128) = max 1 (64 * 2 ^ size / 128) := by
  split <;> omega

/-- The pawn of a remote word from its registers, its size, its places and its slot. -/
def remotePawn (o : Op.Tr) (load : Bool) (src dst : Word) (n bufs : Nat) (p q : Place) (j : Fin 8) (due lead : Nat) : NewPawn := {
  st := .t, eng := .transfer, pri := 0, h := o.h, detach := false
  job := if load then .rld src dst n bufs else .rst src dst n, sync := o.sync
  due := due, lead := lead, rows := 0, draw := false, idx := [j.val]
  tr := [{ writes := false, va := src.toNat, place := p }, { writes := true, va := dst.toNat, place := q }] }

section
variable {s t v : State} {o : Op.Tr} {load : Bool} {src dst : Word} {n bufs : Nat} {tr : List Trans} {p q : Place} {j : Fin 8} {k : Fin 64}

/-- The ranges of the own share that a remote word reads or writes. -/
def State.remoteRanges (s : State) (load : Bool) (src dst : Word) (n : Nat) : List (Nat × Nat × Bool) :=
  (s.ownRange (if load then dst else src).toNat ((if load then dst else src).toNat + n)).toList.map (fun x => (x.1, x.2, load))

/-- RLD and RST that may issue: the state that the new pawn enters. -/
theorem State.remoteWord_creates (met : metT s o.sync true t) (srcReg : t.ctx.getA o.src = src) (dstReg : t.ctx.getA o.dst = dst)
    (size : 64 * 2 ^ o.size.val = n) (buffers : (if load then max 1 (n / 128) else 1) = bufs)
    (srcAligned : src.toNat % n = 0) (dstAligned : dst.toNat % n = 0) (srcLow : src.toNat < 2 ^ 52) (dstLow : dst.toNat < 2 ^ 52)
    (srcWindow : inWindow src.toNat = !load) (dstWindow : inWindow dst.toNat = load)
    (all : t.xlateMore .t [(.read, src.toNat, n), (.write, dst.toNat, n)] t.ctx.ttr = ((none, tr), v))
    (srcPlace : placeOf tr false src.toNat = some p) (dstPlace : placeOf tr true dst.toNat = some q)
    (free : v.ctx.rldHeld = some (j, bufs) ∨ (v.ctx.rldHeld = none ∧ v.ctx.freeSlot v.cycle = some j ∧ bufs ≤ v.ctx.rldBufs))
    (entry : v.freePawn = some k) (room : v.checkRanges .t true (v.remoteRanges load src dst n) = .ok ()) :
    let d := v.contend 8 (if load then q.key else p.key)
    let lead := (if load then d.2.latencyTo v.site p.key else d.2.latencyTo v.site p.key + d.2.latencyTo v.site q.key) + d.1
    ∃ u : State, u.maker = t.maker ∧ u.ctx.rldHeld = none ∧
      (v.ctx.rldHeld = some (j, bufs) → u.ctx.rldSlots = v.ctx.rldSlots ∧ u.ctx.rldBufs = v.ctx.rldBufs) ∧
      (v.ctx.rldHeld ≠ some (j, bufs) → u.ctx.rldSlots = v.ctx.rldSlots.set j none ∧ u.ctx.rldBufs = v.ctx.rldBufs - bufs) ∧
      s.remoteWord o load = ((u.createPawn k (remotePawn o load src dst n bufs p q j v.cycle lead)).issuedIn .t).observe := by
  have quiet : (!t.ctx.twin.isEmpty || decide (t.cycle < t.ctx.tcommitAt)) = false := by
    obtain ⟨empty, late⟩ := met.1 rfl
    obtain ⟨_, _, _, rfl⟩ := metT_frame met
    simp [empty, late]
  have buffers : (if load = true then (if n ≤ 128 then 1 else n / 128) else 1) = bufs := by
    rw [← buffers, ← size, loadBuffers]
  have maker : v.maker = t.maker := (State.looked_xlateMore all).maker
  obtain ⟨slots, left, held, reserved, kept, fresh⟩ := State.reserveSlot_takes (s := v.onCtx (fun c => { c with ttr := tr })) free
  obtain ⟨-, -, c, pops, met⟩ := met
  have here : s.onCtx (fun _ => c) = t := met.symm
  have tests : ¬(2 ^ 52 ≤ src.toNat ∨ inWindow src.toNat = load) ∧ ¬(2 ^ 52 ≤ dst.toNat ∨ inWindow dst.toNat = !load) := by
    rw [srcWindow, dstWindow]
    constructor
    · cases load <;> simpa using srcLow
    · cases load <;> simpa using dstLow
  let w : State := (v.onCtx (fun c => { c with ttr := tr })).withSlots slots left held
  have entry' : w.freePawn = some k := (State.freePawn_of (s := v) (t := w) rfl).trans entry
  have room' : w.checkRanges .t true (v.remoteRanges load src dst n) = .ok () := (State.checkRanges_of (s := v) (t := w) rfl .t true _).trans room
  obtain ⟨e, extra⟩ : ∃ e, w.contend 8 (if load then q.key else p.key) = e := ⟨_, rfl⟩
  have same : w.Contended e.2 := extra ▸ w.contended_contend 8 _
  have delay : e.1 = v.delays.headD 0 := extra ▸ w.contend_fst 8 _
  have issued : s.remoteWord o load = (((((e.2.addRanges .t v.serial (some k.val) (v.remoteRanges load src dst n)).onCtx
      (fun c => { c with rldHeld := none, ttr := [] })).createPawn k (remotePawn o load src dst n bufs p q j e.2.cycle
        (e.2.remoteLat load p.key q.key + e.1))).issuedIn .t).observe) := by
    rw [State.remoteWord, pops]
    dsimp only
    rw [here, srcReg, dstReg, size, buffers, if_neg (not_not.2 srcAligned), if_neg (not_not.2 dstAligned), if_neg tests.1, if_neg tests.2, quiet,
      if_neg Bool.false_ne_true, all]
    dsimp only
    rw [srcPlace, dstPlace, reserved]
    dsimp only
    rw [entry']
    dsimp only
    have ranges : (w.ownRange (if load then dst else src).toNat ((if load then dst else src).toNat + n)).toList.map (fun x => (x.1, x.2, load)) =
      v.remoteRanges load src dst n := rfl
    have lat (x : State) (serial : Nat) (pawn : Option Nat) (rs : List (Nat × Nat × Bool)) (f : Context → Context) (a b : Nat) :
        ((x.addRanges .t serial pawn rs).onCtx f).remoteLat load a b = x.remoteLat load a b := rfl
    change w.rangedT _ true ((w.ownRange (if load then dst else src).toNat ((if load then dst else src).toNat + n)).toList.map
      (fun x => (x.1, x.2, load))) _ = _
    rw [ranges, State.rangedT_ok room', Option.getD_some, Option.getD_some, extra, lat]
    rfl
  have ctx : e.2.ctx = w.ctx := by
    obtain ⟨_, _, _, frame⟩ := same
    exact (congrArg State.ctx frame :)
  have now : e.2.cycle = v.cycle := (congrArg Maker.cycle same.maker :)
  have site : e.2.site = v.site := (congrArg Maker.site same.maker :)
  have slow (key : Nat) : e.2.latencyTo v.site key = (v.contend 8 (if load then q.key else p.key)).2.latencyTo v.site key :=
    (same.latencyTo v.site key).trans ((v.contended_contend 8 _).latencyTo v.site key).symm
  refine ⟨(e.2.addRanges .t v.serial (some k.val) (v.remoteRanges load src dst n)).onCtx (fun c => { c with rldHeld := none, ttr := [] }),
    ?_, rfl, fun already => ?_, fun new => ?_, ?_⟩
  · have entered (x : State) (rs : List (Nat × Nat × Bool)) :
        ((x.addRanges .t v.serial (some k.val) rs).onCtx (fun c => { c with rldHeld := none, ttr := [] })).maker = x.maker := rfl
    exact (entered _ _).trans (same.maker.trans maker)
  · obtain ⟨rfl, rfl⟩ := kept already
    exact ⟨(congrArg Context.rldSlots ctx :), (congrArg Context.rldBufs ctx :)⟩
  · obtain ⟨rfl, rfl⟩ := fresh new
    exact ⟨(congrArg Context.rldSlots ctx :), (congrArg Context.rldBufs ctx :)⟩
  · rw [issued, now, State.remoteLat, State.copyLat, site, slow, slow, delay, State.contend_fst]

end

/-! ### Channel words (R113, R114, R334) -/

/-- What a window address answers to is the same where the cores at the sites are (R118). -/
theorem State.windowKey_of {s t : State} (site : t.site = s.site) (cx : t.cx = s.cx) (core : t.core.part = s.core.part)
    (single : t.part.single = s.part.single)
    (cores : ∀ i, (t.boxAt i).core.enabled = (s.boxAt i).core.enabled ∧ (t.boxAt i).core.part = (s.boxAt i).core.part) (va n : Nat) :
    t.windowKey va n = s.windowKey va n := by
  simp only [State.windowKey, State.shareSize, site, cx, core, single, cores]
  rfl

/-- Where a core stands does not turn on the context in focus. -/
theorem State.boxAt_core_of {s t : State} (site : t.site = s.site) (core : t.core = s.core) (cores : t.cores = s.cores)
    (columns : t.columns = s.columns)
    (i : Nat) : (t.boxAt i).core = (s.boxAt i).core := by
  rw [State.boxAt, State.boxAt, site]
  split
  · rw [State.hereBox_core, State.hereBox_core, core]
  · rw [cores, State.freshBox, State.freshBox, columns]

theorem State.boxAt_onCore_core (s : State) (f : Core → Core) (i : Nat) :
    ((s.onCore f).boxAt i).core = if i = s.site then f s.core else (s.boxAt i).core := by
  have site : (s.onCore f).site = s.site := rfl
  rw [State.boxAt, State.boxAt, site]
  split
  · exact State.hereBox_core _
  · rfl

/-- Contention counts on boards alone. -/
theorem State.contend_cores (s : State) (requester key i : Nat) :
    (((s.contend requester key).2.boxAt i).core.enabled = (s.boxAt i).core.enabled) ∧
    (((s.contend requester key).2.boxAt i).core.part = (s.boxAt i).core.part) := by
  have delayed : (s.takeDelay.2.boxAt i).core = (s.boxAt i).core := by
    refine State.boxAt_core_of ?_ ?_ ?_ ?_ i <;> rw [State.takeDelay_frame]
  unfold State.contend
  dsimp only
  generalize (key - 2 ^ 56) / 2 ^ 22 = site
  split
  · rw [delayed]
    exact ⟨rfl, rfl⟩
  · split
    · rw [State.boxAt_onCore_core]
      split
      next here =>
        rw [← delayed, State.boxAt, if_pos here, State.hereBox_core]
        exact ⟨rfl, rfl⟩
      · rw [delayed]
        exact ⟨rfl, rfl⟩
    · by_cases here : i = site
      · subst here
        rw [State.boxAt_putBox]
        exact ⟨(congrArg Core.enabled delayed :), (congrArg Core.part delayed :)⟩
      · rw [State.boxAt_putBox_ne _ _ here, delayed]
        exact ⟨rfl, rfl⟩

/-- Where an access would land does not turn on contention, on ranges or on channels. -/
theorem State.peek_of {s t : State} (site : t.site = s.site) (cx : t.cx = s.cx) (core : t.core.part = s.core.part) (tlb : t.core.tTlb = s.core.tTlb)
    (single : t.part.single = s.part.single) (places : ∀ l k va n, t.placeBy l k va n = s.placeBy l k va n)
    (cores : ∀ i, (t.boxAt i).core.enabled = (s.boxAt i).core.enabled ∧ (t.boxAt i).core.part = (s.boxAt i).core.part) (k : Acc) (va n : Nat) :
    t.peek .t k va n = s.peek .t k va n := by
  have tlbs : t.core.tlb .t = s.core.tlb .t := tlb
  simp only [State.peek, State.windowKey_of site cx core single cores, tlbs, cx, places]

/-- A channel's change, and then a second one, of a channel that keeps its name. -/
theorem Chan.map_map (chans : List Machine.Chan) (launch : Word) (num : Nat) (f g : Machine.Chan → Machine.Chan)
    (keeps : ∀ c, (f c).launch = c.launch ∧ (f c).num = c.num) :
    (chans.map (fun c => if c.launch = launch ∧ c.num = num then f c else c)).map (fun c => if c.launch = launch ∧ c.num = num then g c else c) =
    chans.map (fun c => if c.launch = launch ∧ c.num = num then g (f c) else c) := by
  rw [List.map_map]
  refine List.map_congr_left (fun c _ => ?_)
  obtain ⟨sameLaunch, sameNum⟩ := keeps c
  by_cases here : c.launch = launch ∧ c.num = num
  · simp [here, sameLaunch, sameNum]
  · simp [here]

section
variable {s t : State} {o : Op.Chan} {ch : Machine.Chan} {j : Nat}

/-- RECV that may issue. -/
theorem exec_recv {rest : List Nat} (met : metT s o.sync true t) (named : t.chan? o.ch.val = some ch) (mine : t.logicalOf t.site = some ch.receiver)
    (peer : (t.siteOf ch.sender).isSome = true) (room : t.ctx.postRoom .t o.sync = true) (filled : ch.filled = j :: rest) :
    exec (.recv o) s = .next ((windowed { t with part := { t.part with chans := t.part.chans.map (fun c =>
      if c.launch = ch.launch ∧ c.num = ch.num then { c with filled := c.filled.drop 1, held := c.held.filter (fun h => h.2 != t.turnId) ++ [(j,
          t.turnId)] }
      else c) } }
      .plain 0 o.sync [] (some (o.ra, t.ownAddr (ch.base + j * ch.size)))).issuedIn .t) := by
  have live : ¬(t.logicalOf t.site ≠ some ch.receiver ∨ t.siteOf ch.sender = none) := by
    rintro (other | gone)
    · exact other mine
    · rw [gone] at peer
      exact Bool.noConfusion peer
  refine congrArg Host.Outcome.next ((State.tWord_met _ met).trans ?_)
  dsimp only
  rw [named]
  dsimp only
  rw [if_neg live, filled]
  dsimp only
  have free (f : Machine.Chan → Machine.Chan) : (!(t.onChan ch.launch ch.num f).ctx.postRoom .t o.sync) = false := by
    rw [show (t.onChan ch.launch ch.num f).ctx = t.ctx from rfl, room]
    rfl
  rw [free, if_neg Bool.false_ne_true, State.issueT_eq]
  have both : (t.onChan ch.launch ch.num (fun c => { c with held := c.held.filter (fun h => h.2 != t.turnId) })).onChan ch.launch ch.num (fun c =>
      { c with filled := c.filled.drop 1, held := c.held ++ [(j, t.turnId)] }) =
      { t with part := { t.part with chans := t.part.chans.map (fun c => if c.launch = ch.launch ∧ c.num = ch.num then
        { c with filled := c.filled.drop 1, held := c.held.filter (fun h => h.2 != t.turnId) ++ [(j, t.turnId)] } else c) } } :=
    congrArg (fun chans => ({ t with part := { t.part with chans := chans } } : State))
      (Chan.map_map t.part.chans ch.launch ch.num _ _ (fun _ => ⟨rfl, rfl⟩))
  have turn (f : Machine.Chan → Machine.Chan) : (t.onChan ch.launch ch.num f).turnId = t.turnId := rfl
  rw [turn, both]
  rfl

/-- The pawn of a SEND. -/
def sendPawn (o : Op.Chan) (ch : Machine.Chan) (a : Word) (j due lead : Nat) : NewPawn := {
  st := .t, eng := .transfer, pri := 0, h := 0, detach := false, job := .send ch.num ch.launch a j ch.size
  sync := o.sync, due := due, lead := lead, rows := 0, draw := false, idx := [], tr := [] }

/-- The state in which a SEND's ranges are tracked, and its slot of the channel is reserved. -/
def State.slotReserved (s : State) (serial : Nat) (k : Fin 64) (rs : List (Nat × Nat × Bool)) (ch : Machine.Chan) (j : Nat) : State :=
  (s.addRanges .t serial (some k.val) rs).onChan ch.launch ch.num (fun c => { c with next := (j + 1) % c.slots, filling := c.filling ++ [j] })

/-- What the contention of a SEND, its range and its slot leave of where an access would land. -/
theorem State.peek_slotReserved (t : State) (src dst : Nat) (serial : Nat) (pawn : Fin 64) (rs : List (Nat × Nat × Bool)) (ch : Machine.Chan)
    (j : Nat)
    (k : Acc) (va n : Nat) : ((t.contendCopy src dst).2.slotReserved serial pawn rs ch j).peek .t k va n = t.peek .t k va n := by
  have boxes (i : Nat) := State.contend_cores (t.contend 0 src).2 1 dst i
  have boxes' (i : Nat) := State.contend_cores t 0 src i
  have met : t.Contended (t.contendCopy src dst).2 := t.contended_contendCopy src dst
  have cores (i : Nat) : (((t.contendCopy src dst).2.boxAt i).core.enabled = (t.boxAt i).core.enabled) ∧
      ((t.contendCopy src dst).2.boxAt i).core.part = (t.boxAt i).core.part :=
    ⟨(boxes i).1.trans (boxes' i).1, (boxes i).2.trans (boxes' i).2⟩
  generalize (t.contendCopy src dst).2 = u at met cores
  have moved (i : Nat) : ((u.slotReserved serial pawn rs ch j).boxAt i).core = (u.boxAt i).core :=
    State.boxAt_core_of (s := u) (t := u.slotReserved serial pawn rs ch j) rfl rfl rfl rfl i
  have reads : let v := u.slotReserved serial pawn rs ch j
      v.site = t.site ∧ v.cx = t.cx ∧ v.core.part = t.core.part ∧ v.core.tTlb = t.core.tTlb ∧ v.part.single = t.part.single ∧
        ∀ l k va n, v.placeBy l k va n = t.placeBy l k va n := by
    obtain ⟨_, _, _, rfl⟩ := met
    exact ⟨rfl, rfl, rfl, rfl, rfl, fun _ _ _ _ => rfl⟩
  obtain ⟨site, cx, core, tlb, single, places⟩ := reads
  refine State.peek_of site cx core tlb single places (fun i => ?_) k va n
  rw [moved]
  exact cores i

/-- SEND that may issue: the state that the new pawn enters. -/
theorem exec_send {k : Fin 64} {a : Word} (met : metT s o.sync true t) (base : t.ctx.getA o.ra = a) (named : t.chan? o.ch.val = some ch)
    (mine : t.logicalOf t.site = some ch.sender) (peer : (t.siteOf ch.receiver).isSome = true) (good : goodBase a) (slot : ch.freeSlot = some j)
    (entry : t.freePawn = some k)
    (room : t.checkRanges .t true ((t.ownRange a.toNat (a.toNat + ch.size)).toList.map (fun x => (x.1, x.2, false))) = .ok ()) :
    let line := t.peek .t .read a.toNat 64
    let d := t.contendCopy (line.getD 0) (spKey ((t.siteOf ch.receiver).getD 0) (ch.base + j * ch.size))
    ∃ u : State, u.maker = t.maker ∧ u.part.chans = t.part.chans.map (fun c => if c.launch = ch.launch ∧ c.num = ch.num
        then { c with next := (j + 1) % c.slots, filling := c.filling ++ [j] } else c) ∧
      exec (.send o) s = .next (((u.createPawn k
        (sendPawn o ch a j t.cycle ((line.map (t.latencyTo t.site)).getD 0 + 14 + d.1))).issuedIn .t).observe) := by
  have live : ¬(t.logicalOf t.site ≠ some ch.sender ∨ t.siteOf ch.receiver = none) := by
    rintro (other | gone)
    · exact other mine
    · rw [gone] at peer
      exact Bool.noConfusion peer
  obtain ⟨aligned, low⟩ := good
  dsimp only
  obtain ⟨d, contends⟩ : ∃ d, t.contendCopy ((t.peek .t .read a.toNat 64).getD 0) (spKey ((t.siteOf ch.receiver).getD 0)
      (ch.base + j * ch.size)) = d :=
    ⟨_, rfl⟩
  have contended : t.Contended d.2 := contends ▸ t.contended_contendCopy _ _
  obtain ⟨rs, ranges⟩ : ∃ rs, (t.ownRange a.toNat (a.toNat + ch.size)).toList.map (fun x => (x.1, x.2, false)) = rs := ⟨_, rfl⟩
  have looks := t.peek_slotReserved ((t.peek .t .read a.toNat 64).getD 0) (spKey ((t.siteOf ch.receiver).getD 0)
      (ch.base + j * ch.size)) t.serial k rs
    ch j .read a.toNat 64
  have reserved (x : State) : (x.slotReserved t.serial k rs ch j).maker = x.maker ∧ (x.slotReserved t.serial k rs ch j).part.chans =
      x.part.chans.map (fun c => if c.launch = ch.launch ∧ c.num = ch.num then { c with next := (j + 1) % c.slots, filling := c.filling ++
          [j] } else c) ∧
      (x.slotReserved t.serial k rs ch j).latencyTo = x.latencyTo ∧ (x.slotReserved t.serial k rs ch j).site = x.site ∧
      (x.slotReserved t.serial k rs ch j).cycle = x.cycle := ⟨rfl, rfl, rfl, rfl, rfl⟩
  obtain ⟨maker, chans, latency, site, cycle⟩ := reserved d.2
  have now : d.2.cycle = t.cycle := (congrArg Maker.cycle contended.maker :)
  have here : d.2.site = t.site := (congrArg Maker.site contended.maker :)
  have slow (key : Nat) : d.2.latencyTo t.site key = t.latencyTo t.site key := contended.latencyTo t.site key
  have channels : d.2.part.chans = t.part.chans := (congrArg (fun h : Holdings => h.part.chans) contended.holdings :)
  rw [contends] at looks ⊢
  rw [ranges] at room
  refine ⟨d.2.slotReserved t.serial k rs ch j, maker.trans contended.maker, chans.trans (by rw [channels]), ?_⟩
  refine congrArg Host.Outcome.next ((State.tWord_met _ met).trans ?_)
  dsimp only
  rw [named, base]
  dsimp only
  rw [if_neg live, if_neg (not_not.2 aligned), if_neg (Nat.not_le.2 low), slot]
  dsimp only
  rw [entry]
  dsimp only
  rw [ranges, State.rangedT_ok room, contends]
  have folds : (d.2.addRanges .t t.serial (some k.val) rs).onChan ch.launch ch.num (fun c =>
    { c with next := (j + 1) % c.slots, filling := c.filling ++ [j] }) = d.2.slotReserved t.serial k rs ch j := rfl
  rw [folds, looks, latency, site, cycle, now, here]
  cases t.peek .t .read a.toNat 64 with
  | none =>
    dsimp only
    rw [Option.map_none, Option.getD_none, Nat.zero_add]
    rfl
  | some key =>
    dsimp only
    rw [slow, Option.map_some, Option.getD_some]
    rfl

end

end Sys2Proof.Machine
end

section
/-! PROOFS. The copy words of spec/17_transfer.md. -/

namespace Sys2Proof.Proofs

open Sys2Proof.Machine Sys2Proof.Claims

/-- Refutes O24 at its clause of COPY, which takes the places of the two bases from what the word has translated, and not from the window that they
lie in. The translations kept give the destination, an address of the scratchpad window, a page of FP32 elements here: its row of one column is then
as long as the source's of four RAW ones. The window itself gives no format, the rows that COPY compares are 4 bytes and 1, and it faults. -/
theorem not_copyWordsCreateTheirPawn : ¬ Obligations.CopyWordsCreateTheirPawn := by
  unfold Obligations.CopyWordsCreateTheirPawn
  intro h
  obtain ⟨copies, -⟩ := h
  let leaf : Leaf :=
    { rd := true, wr := true, code := false, tgt := 0, chip := 0, fmt := fmtFp32, geom := 0, repl := false, glob := false, frame := 0, size :=
        65536 }
  let window : Nat := 0x000FFFFFFF000000
  let p : Place := { key := 0, leaf := none }
  let q : Place := { key := 0, leaf := some leaf }
  let kept : List Machine.Trans := [{ writes := false, va := window, place := p }, { writes := true, va := window + 64, place := q }]
  let ly : LyRec := { rows := 0, cols := 4, rstride := 0, swz := 0, efmt := 0, lfmt := 8, scale := 0 }
  let s : State := { State.reset with
    ctx := { State.reset.ctx with ttr := kept, a := (State.reset.ctx.a.set 1 (BitVec.ofNat 64 window)).set 2 (BitVec.ofNat 64 (window + 64)) }
    core := { State.reset.core with ly := (State.reset.core.ly.set 0 ly).set 1 { ly with cols := 1 } } }
  let o : Op.Tc := { sync := 0, h := 0, dst := 2, src := 1, ly := 0, pri := 0, detach := false, raw := false }
  have met : metT s 0 true s := ⟨fun _ => ⟨rfl, Nat.le_refl 0⟩, by decide, s.ctx, rfl, rfl⟩
  have based : goodBase (BitVec.ofNat 64 window) ∧ goodBase (BitVec.ofNat 64 (window + 64)) := by
    unfold goodBase
    decide +kernel
  obtain ⟨r, left, born, -⟩ := copies o s s s s p q [(window, p)] [(window + 64, q)] 0 1 met rfl (fun _ => rfl) (by decide +kernel)
      (by decide +kernel)
    based.1 based.2 (State.linesT_kept (by decide +kernel) (by decide +kernel)) (by decide +kernel)
    (State.linesT_kept (by decide +kernel) (by decide +kernel)) (by decide +kernel) rfl (by decide +kernel) (.inr (.inl (by decide +kernel)))
        (.inr (.inl (by decide +kernel)))
    (.inl (by decide +kernel)) (by decide +kernel) (by rfl)
  have dead : (match exec (.copy o) s with | .next t => (t.pawn 0).live | _ => true) = false := by decide +kernel
  rw [left] at dead
  exact Bool.noConfusion ((congrArg Pawn.live born).symm.trans dead)

/-- Settles O25: RLD and RST by one argument, SEND and RECV each by its own. -/
theorem remoteAndChannelWordsTakeTheirSlot : Obligations.RemoteAndChannelWordsTakeTheirSlot := by
  unfold Obligations.RemoteAndChannelWordsTakeTheirSlot
  refine ⟨?_, ?_, ?_⟩
  · intro o load s t v tr p q j k met src dst n bufs srcAligned dstAligned srcLow dstLow srcWindow dstWindow
      all srcPlace dstPlace kept free entry room d
    have remote : exec (if load then .rld o else .rst o) s = .next (s.remoteWord o load) := by
      cases load <;> rfl
    have looked := State.looked_xlateMore all
    have reads : v.ctx.rldHeld = s.ctx.rldHeld ∧ v.ctx.rldSlots = s.ctx.rldSlots ∧ v.ctx.rldBufs = s.ctx.rldBufs ∧ v.cycle = s.cycle ∧
        v.site = s.site ∧
        t.ctx.getA = s.ctx.getA := by
      obtain ⟨_, _, _, rfl⟩ := metT_frame met
      obtain ⟨_, _, _, _, _, _, _, rfl⟩ := looked
      exact ⟨rfl, rfl, rfl, rfl, rfl, rfl⟩
    obtain ⟨held, slots, left, now, site, regs⟩ := reads
    have slot : v.ctx.freeSlot v.cycle = s.ctx.freeSlot s.cycle := by
      rw [Context.freeSlot, slots, now]
      rfl
    obtain ⟨u, maker, reservation, already, fresh, issued⟩ := State.remoteWord_creates (src := src) (dst := dst) (n := n) (bufs := bufs) met
      (congrFun regs o.src) (congrFun regs o.dst) rfl rfl srcAligned dstAligned srcLow dstLow srcWindow dstWindow
      all srcPlace dstPlace
      (by rw [held, slot, left]; exact free) entry room
    rw [held] at already fresh
    rw [slots, left] at already fresh
    have stands (new : NewPawn) := holdings_of_created (u := u) (k := k) (n := new) rfl .t
    have creates (new : NewPawn) (st : new.st = .t) : createsPawn t (((u.createPawn k new).issuedIn .t).observe) k new := by
      rw [← st]
      exact createsPawn_of_maker maker rfl
    rw [site, now] at issued
    refine ⟨_, remote.trans (congrArg Host.Outcome.next issued), fun kept => ?_, fun new => ?_, ?_, creates _ rfl⟩
    · exact ⟨(congrArg Holdings.slots (stands _) :).trans (already kept).1, (congrArg Holdings.bufs (stands _) :).trans (already kept).2⟩
    · exact ⟨(congrArg Holdings.slots (stands _) :).trans (fresh new).1, (congrArg Holdings.bufs (stands _) :).trans (fresh new).2⟩
    · exact (congrArg Holdings.reserved (stands _) :).trans reservation
  · intro o s t ch j k met a named mine peer good slot entry room line d
    have issues := exec_send (t := t) (ch := ch) (j := j) (k := k) (a := a) met
    obtain ⟨chans, awaited, know, rfl⟩ := metT_frame met
    obtain ⟨u, maker, channels, issued⟩ := issues rfl named mine peer good slot entry room
    refine ⟨_, issued, ?_, createsPawn_of_maker (n := sendPawn ..) maker rfl⟩
    exact (congrArg (fun h : Holdings => h.part.chans) (holdings_of_created rfl .t) :).trans channels
  · intro o s t ch j rest met named mine peer room filled
    have issues := exec_recv (t := t) (ch := ch) (j := j) (rest := rest) met
    obtain ⟨chans, awaited, know, rfl⟩ := metT_frame met
    exact issues named mine peer room filled

end Sys2Proof.Proofs
end

section
/-! SUPPORT. M words at issue (R340, R341, R347). -/

namespace Sys2Proof.Machine

open Sys2Proof.Claims

/-- An M word met at issue: its token is popped, and nothing else is different. -/
theorem metM_frame {s t : State} {sync : Fin 8} (met : metM s sync t) : ∃ chans awaited know,
    t = { s with ctx := { s.ctx with chans := chans, ms := { s.ctx.ms with awaited := awaited, know := know } } } := by
  obtain ⟨-, c, pops, rfl⟩ := met
  obtain ⟨chans, awaited, know, rfl⟩ := Context.await_frame pops
  exact ⟨chans, awaited, know, rfl⟩

/-! ### NSET (R340) -/

/-- A register result of the M stream with room for its post. -/
theorem State.mResult_flies {t : State} {sync : Fin 8} (room : t.ctx.postRoom .m sync = true) (dst : Dest) (v : BitVec 256) :
    t.mResult sync dst v = (posted (flies t .m 1 dst v) .m sync).issuedIn .m := by
  rw [State.mResult, if_pos room]
  exact State.issuePost_of_room (s := flies t .m 1 dst v) room

/-- A base register with 17 bits inserted below. -/
theorem inserted_eq (b : Word) (v : BitVec 17) :
    (b <<< 17 ||| v.setWidth 64).setWidth 256 = BitVec.ofNat 256 ((b.toNat * 2 ^ 17 + v.toNat) % 2 ^ 64) := by
  have apart : b <<< 17 &&& v.setWidth 64 = 0#64 := by
    ext i bound
    simp only [BitVec.getElem_and, BitVec.getElem_shiftLeft, BitVec.getElem_setWidth, BitVec.getElem_zero]
    by_cases low : i < 17
    · simp [low]
    · simp [BitVec.getLsbD_of_ge v i (by omega)]
  refine BitVec.eq_of_toNat_eq ?_
  rw [← BitVec.add_eq_or_of_and_eq_zero _ _ apart, BitVec.toNat_setWidth, BitVec.toNat_ofNat, BitVec.toNat_add, BitVec.toNat_shiftLeft,
    BitVec.toNat_setWidth, Nat.shiftLeft_eq]
  omega

/-! ### Pawns of the M stream (R164, R341, R347) -/

theorem State.makePawnM_creates {s : State} {rs : List (Nat × Nat × Bool)} (room : s.checkRanges .m true rs = .ok ()) (va : Word) (k : Fin 64)
    (take : State → State) (n : NewPawn) :
    s.makePawnM va rs k take n = (((((take s).addRanges .m s.serial (some k.val) rs).createPawn k n).issuedIn .m).observe) := by
  rw [State.makePawnM, room]

/-- The state that the pawn of an MGO enters: its word has reached issue, its draw slot is taken, and its nest is counted. -/
def State.nestTaken (s : State) : State := s.reachIssue.takeDraw.onCtx (fun c => { c with captured := c.captured + 1 })

theorem State.reachIssue_frame (s : State) : ∃ waits, s.reachIssue = { s with part := { s.part with mgoWait := waits } } := ⟨_, rfl⟩

theorem State.takeDraw_frame (s : State) : ∃ levels waits, s.takeDraw =
    { s with part := { s.part with levels := levels, held := s.part.held + 1, mgoWait := waits } } := ⟨_, _, rfl⟩

theorem State.nestTaken_leaves (s : State) : s.nestTaken.maker = s.maker ∧ s.nestTaken.ctx.captured = s.ctx.captured + 1 ∧
    s.nestTaken.part.held = s.part.held + 1 := by
  obtain ⟨_, reached⟩ := s.reachIssue_frame
  obtain ⟨_, _, taken⟩ := s.reachIssue.takeDraw_frame
  rw [State.nestTaken, taken, reached]
  exact ⟨rfl, rfl, rfl⟩

/-- The pawn of an MGO. -/
def mgoPawn (o : Op.Mgo) (nest : List NestLevel) (a b : Word) (afmt bfmt : Nat) (strict : Bool) (due : Nat) : NewPawn := {
  st := .m, eng := .matrix, pri := o.pri.val, h := o.h, detach := o.detach
  job := .mgo nest a b o.t.val o.acc afmt bfmt o.mc strict, sync := o.sync, due := due, lead := 0
  rows := nestRows nest o.t.val, draw := true, idx := [], tr := [] }

/-- MGO that may issue: the state that the new pawn enters. -/
theorem exec_mgo {s t : State} {o : Op.Mgo} {k : Fin 64} {a b : Word} {nest : List NestLevel} {afmt bfmt : Nat} (met : metM s o.sync t)
    (baseA : t.ctx.mb[o.mba] = a) (baseB : t.ctx.mb[o.mbb] = b) (levels : t.ctx.nest.toList.take (o.depm1.val + 1) = nest)
    (fmtA : t.ctx.mfmt.toNat % 16 = afmt) (fmtB : t.ctx.mfmt.toNat / 16 = bfmt)
    (shallow : o.depm1.val < 6) (named : o.detach = true → o.h = 0) (goodA : goodBase a) (goodB : goodBase b) (granted : t.part.grant ≠ 0)
    (still : t.ctx.zeroMeets (nestRows nest o.t.val) = false) (draw : t.reachIssue.drawMine = true) (few : t.ctx.captured < 8)
    (entry : t.freePawn = some k)
    (room : t.checkRanges .m true (t.operandRange a (fun l => l.as_) nest afmt ++ t.operandRange b (fun l => l.bs) nest bfmt) = .ok ()) :
    ∃ u : State, u.maker = t.maker ∧ u.ctx.captured = t.ctx.captured + 1 ∧ u.part.held = t.part.held + 1 ∧
      exec (.mgo o) s = .next (((u.createPawn k (mgoPawn o nest a b afmt bfmt t.ctx.strict t.cycle)).issuedIn .m).observe) := by
  obtain ⟨alignedA, lowA⟩ := goodA
  obtain ⟨alignedB, lowB⟩ := goodB
  have sound : t.mgoFault o a b = none := by
    have legal : ¬(6 ≤ o.depm1.val ∨ (o.detach = true ∧ o.h ≠ 0)) := by
      rintro (deep | ⟨detached, handle⟩)
      · omega
      · exact handle (named detached)
    rw [State.mgoFault, if_neg legal, if_neg (not_not.2 alignedA), if_neg (not_not.2 alignedB), if_neg (Nat.not_le.2 lowA),
        if_neg (Nat.not_le.2 lowB),
      if_neg granted]
  obtain ⟨rs, ranges⟩ : ∃ rs, t.operandRange a (fun l => l.as_) nest afmt ++ t.operandRange b (fun l => l.bs) nest bfmt = rs := ⟨_, rfl⟩
  have ranges' : t.reachIssue.operandRange a (fun l => l.as_) nest afmt ++ t.reachIssue.operandRange b (fun l => l.bs) nest bfmt = rs := ranges
  have still' : t.reachIssue.ctx.zeroMeets (nestRows nest o.t.val) = false := still
  have few' : ¬8 ≤ t.reachIssue.ctx.captured := Nat.not_le.2 few
  have entry' : t.reachIssue.freePawn = some k := (State.freePawn_of (s := t) (t := t.reachIssue) rfl).trans entry
  have room' : t.reachIssue.checkRanges .m true rs = .ok () := by
    rw [← ranges]
    exact (State.checkRanges_of (s := t) (t := t.reachIssue) rfl .m true _).trans room
  obtain ⟨maker, captured, held⟩ := t.nestTaken_leaves
  refine ⟨t.nestTaken.addRanges .m t.serial (some k.val) rs, (show _ = t.nestTaken.maker from rfl).trans maker, captured, held, ?_⟩
  refine congrArg Host.Outcome.next ((State.mWord_met _ met).trans ?_)
  dsimp only
  rw [baseA, baseB, sound]
  dsimp only
  rw [levels, fmtA, fmtB, still', if_neg Bool.false_ne_true, if_neg few', entry']
  dsimp only
  rw [draw, Bool.not_true, if_neg Bool.false_ne_true, ranges', State.makePawnM_creates room']
  rfl

/-- The extra cycles of a row step change delays and boards alone. -/
theorem State.contended_mcContend (s : State) (j : PawnJob) (pos : Nat) : s.Contended (s.mcContend j pos).2 := by
  unfold State.mcContend
  split
  · exact ⟨s.delays, s.core.board, s.cores, rfl⟩
  · exact s.contended_contendAll 4 _

/-- The pawn of an accumulator copy. -/
def mcPawn (sync : Fin 8) (h : Fin 16) (pri : Fin 8) (detach : Bool) (tile : Fin 4) (job : PawnJob) (due lead : Nat) : NewPawn := {
  st := .m, eng := .matrix, pri := pri.val, h := h, detach := detach, job := job, sync := sync
  due := due, lead := lead, rows := tileRows tile.val, draw := false, idx := [], tr := [] }

/-- ACC2S, S2ACC and ACCMUL that may issue: the state that the new pawn enters. -/
theorem State.mcWord_creates {t : State} {h : Fin 16} {mb tile : Fin 4} {ly : LyRec} {detach shapeBad writes : Bool} {used : Nat} {job : Word →
    PawnJob}
    {b : Word} {k : Fin 64} (sync pri : Fin 8) (base : t.ctx.mb[mb] = b) (named : detach = true → h = 0) (shape : shapeBad = false)
    (aligned : b.toNat % 64 = 0) (window : inWindow b.toNat = true) (still : ∀ z ∈ t.ctx.zeroing, z.tile ≠ some tile) (entry : t.freePawn = some k)
    (room : (t.mcContend (job b) 0).2.checkRanges .m true (t.walkRanges (mcWalk ly b) used writes) = .ok ()) :
    ∃ u : State, u.maker = t.maker ∧ t.mcWord sync h mb tile ly pri detach shapeBad writes used job =
      (((u.createPawn k (mcPawn sync h pri detach tile (job b) t.cycle (if (job b).noRows 0 then 0
        else t.latencyTo t.site ((t.peek .m .read b.toNat 64).getD 0) + (t.mcContend (job b) 0).1))).issuedIn .m).observe) := by
  have legal : ¬((detach = true ∧ h ≠ 0) ∨ shapeBad = true) := by
    rintro (⟨detached, handle⟩ | bad)
    · exact handle (named detached)
    · exact Bool.noConfusion (shape.symm.trans bad)
  obtain ⟨rs, ranges⟩ : ∃ rs, t.walkRanges (mcWalk ly b) used writes = rs := ⟨_, rfl⟩
  obtain ⟨d, contends⟩ : ∃ d, t.mcContend (job b) 0 = d := ⟨_, rfl⟩
  have met : t.Contended d.2 := contends ▸ t.contended_mcContend _ _
  rw [ranges, contends] at room
  have entered (x : State) : (x.addRanges .m x.serial (some k.val) rs).maker = x.maker := rfl
  refine ⟨d.2.addRanges .m d.2.serial (some k.val) rs, (entered _).trans met.maker, ?_⟩
  rw [State.mcWord]
  dsimp only
  rw [base, if_neg legal, if_neg (not_not.2 aligned), window, Bool.not_true, if_neg Bool.false_ne_true, Context.zeroMeets_of_free still,
    if_neg Bool.false_ne_true, entry]
  dsimp only
  rw [contends, ranges, State.makePawnM_creates room]
  rfl

/-- The job of ACC2S, or of S2ACC. -/
def mcJob (store : Bool) (tile : Nat) (ly : LyRec) (b : Word) : PawnJob := if store then .acc2s b tile ly else .s2acc b tile ly

theorem mcJob_noRows (store : Bool) (tile : Nat) (ly : LyRec) (b : Word) :
    (mcJob store tile ly b).noRows 0 = true ↔ ly.rows.toNat = 0 ∨ ly.cols = 0 := by
  cases store <;> simp [mcJob, PawnJob.noRows]

section
variable {s t : State}

/-- ACC2S and S2ACC, from the state in which the token is popped. -/
theorem exec_mc {o : Op.Mc} (store : Bool) (met : metM s o.sync t) (sound : t.lyBad o.ly = false) :
    exec (if store then .acc2s o else .s2acc o) s = .next (t.mcWord o.sync o.h o.mb o.t t.core.ly[o.ly] o.pri o.detach t.core.ly[o.ly].overTile store
      (t.core.ly[o.ly].rows.toNat * t.core.ly[o.ly].cols.toNat) (mcJob store o.t.val t.core.ly[o.ly])) := by
  cases store <;> exact congrArg Host.Outcome.next ((State.mWord_met _ met).trans (if_neg (Bool.eq_false_iff.1 sound)))

/-- ACCMUL, from the state in which its token is popped. -/
theorem exec_accmul {o : Op.Accmul} (met : metM s o.sync t) (sound : t.lyBad o.ly = false) :
    exec (.accmul o) s = .next (t.mcWord o.sync o.h o.mb o.t t.core.ly[o.ly] o.pri o.detach
      (decide (t.core.ly[o.ly].rows.toNat * t.core.ly[o.ly].cols.toNat < 128)) false 128 (fun b => .accmul b o.t.val t.core.ly[o.ly] o.axis)) :=
  congrArg Host.Outcome.next ((State.mWord_met _ met).trans (if_neg (Bool.eq_false_iff.1 sound)))

end

end Sys2Proof.Machine
end

section
/-! PROOFS. The words of spec/18_matrix.md. -/

namespace Sys2Proof.Proofs

open Sys2Proof.Machine Sys2Proof.Claims

/-- Settles O26: each form by its result in flight and its post. -/
theorem nsetWordsLandTheirField : Obligations.NsetWordsLandTheirField := by
  unfold Obligations.NsetWordsLandTheirField
  refine ⟨fun o lv s t level met room => ?_, fun o s t met room => ?_, fun o s t met room held => ?_, fun o s t met blocked => ?_⟩
  all_goals refine congrArg Host.Outcome.next ((State.mWord_met _ met).trans ?_)
  · have same : Fin.ofNat 6 o.level.val = lv := by
      rw [level]
      exact Fin.ofNat_val_eq_self lv
    rw [same]
    exact State.mResult_flies room _ _
  · rw [inserted_eq]
    obtain ⟨chans, awaited, know, rfl⟩ := metM_frame met
    exact State.mResult_flies room _ _
  · rw [if_neg (Nat.not_le.2 held)]
    exact State.mResult_flies room _ _
  · exact if_pos blocked

/-- Settles O27, by the state that the pawn of the nest enters. -/
theorem mgoCapturesItsNest : Obligations.MgoCapturesItsNest := by
  unfold Obligations.MgoCapturesItsNest
  intro o s t k met a b nest afmt bfmt shallow named goodA goodB granted still draw few entry room
  have issues := exec_mgo (t := t) (k := k) (a := a) (b := b) (nest := nest) (afmt := afmt) (bfmt := bfmt) met
  obtain ⟨chans, awaited, know, rfl⟩ := metM_frame met
  obtain ⟨u, maker, captured, held, issued⟩ := issues rfl rfl rfl rfl rfl shallow named goodA goodB granted still draw few entry room
  have stands := holdings_of_created (u := u) (k := k) (n := mgoPawn o nest a b afmt bfmt s.ctx.strict s.cycle) rfl .m
  refine ⟨_, issued, ?_, ?_, createsPawn_of_maker (n := mgoPawn ..) maker rfl⟩
  · exact (congrArg Holdings.captured stands :).trans captured
  · exact (congrArg (fun h : Holdings => h.part.held) stands :).trans held

/-- Settles O28: the three copies by one argument. -/
theorem accumulatorCopiesCreateTheirPawn : Obligations.AccumulatorCopiesCreateTheirPawn := by
  unfold Obligations.AccumulatorCopiesCreateTheirPawn
  constructor
  · intro o store s t k met b ly sound named rows cols aligned window still entry line empty d room
    have goes := exec_mc store met
    have creates := State.mcWord_creates (t := t) (h := o.h) (mb := o.mb) (tile := o.t) (ly := ly) (detach := o.detach) (shapeBad := ly.overTile)
      (writes := store) (used := ly.rows.toNat * ly.cols.toNat) (job := mcJob store o.t.val ly) (b := b) (k := k) o.sync o.pri
    obtain ⟨chans, awaited, know, rfl⟩ := metM_frame met
    have shape : ly.overTile = false := by
      rw [LyRec.overTile, decide_eq_false (Nat.not_lt.2 rows), decide_eq_false (Nat.not_lt.2 cols)]
      rfl
    obtain ⟨u, maker, issued⟩ := creates rfl named shape aligned window still entry room
    have due (n : Nat) : (if (mcJob store o.t.val ly b).noRows 0 then 0 else n) = if ly.rows.toNat = 0 ∨ ly.cols = 0 then 0 else n :=
      if_congr (mcJob_noRows store o.t.val ly b) rfl rfl
    rw [due] at issued
    exact ⟨_, (goes sound).trans (congrArg Host.Outcome.next issued), createsPawn_of_maker (n := mcPawn ..) maker rfl⟩
  · intro o s t k met b ly sound named wide aligned window still entry line d room
    have goes := exec_accmul met
    have creates := State.mcWord_creates (t := t) (h := o.h) (mb := o.mb) (tile := o.t) (ly := ly) (detach := o.detach)
      (shapeBad := decide (ly.rows.toNat * ly.cols.toNat < 128)) (writes := false) (used := 128) (job := fun b => .accmul b o.t.val ly o.axis)
      (b := b) (k := k) o.sync o.pri
    obtain ⟨chans, awaited, know, rfl⟩ := metM_frame met
    obtain ⟨u, maker, issued⟩ := creates rfl named (decide_eq_false (Nat.not_lt.2 wide)) aligned window still entry room
    exact ⟨_, (goes sound).trans (congrArg Host.Outcome.next issued), createsPawn_of_maker (n := mcPawn ..) maker rfl⟩

end Sys2Proof.Proofs
end

section
/-! SUPPORT. V words at issue (R351 to R355): the queues served, the entry of lane results. -/

namespace Sys2Proof.Machine

open Sys2Proof.Claims

/-- A V word met at issue: its token is popped, and nothing else is different. -/
theorem metV_frame {s t : State} {sync : Fin 8} (met : metV s sync t) : ∃ chans awaited know,
    t = { s with ctx := { s.ctx with chans := chans, vs := { s.ctx.vs with awaited := awaited, know := know } } } := by
  obtain ⟨-, c, pops, rfl⟩ := met
  obtain ⟨chans, awaited, know, rfl⟩ := Context.await_frame pops
  exact ⟨chans, awaited, know, rfl⟩

/-! ### Queue operands (R153, R354) -/

/-- Two contexts that differ at most in their queues and in what is before the V stream's words. -/
def SameButQueues (c d : Context) : Prop := ∃ q know, d = { c with q := q, vs := { c.vs with know := know } }

theorem SameButQueues.refl (c : Context) : SameButQueues c c := ⟨c.q, c.vs.know, rfl⟩

theorem SameButQueues.trans {c d e : Context} (first : SameButQueues c d) (second : SameButQueues d e) : SameButQueues c e := by
  obtain ⟨q, know, rfl⟩ := first
  obtain ⟨q', know', rfl⟩ := second
  exact ⟨q', know', rfl⟩

/-- Popping is such a change. -/
theorem Context.popQ_sameButQueues {c d : Context} {now n : Nat} {q : Fin 16} {es : List QEnt} (pops : c.popQ now .v q n = .ok (es, d)) :
    SameButQueues c d := by
  unfold Context.popQ at pops
  split at pops
  · cases pops
  · cases pops
    exact ⟨_, _, rfl⟩

theorem popSrcs_sameButQueues (now : Nat) (srcs : List VSrc) (c : Context) : SameButQueues c (popSrcs c now srcs) := by
  induction srcs generalizing c with
  | nil => exact .refl c
  | cons v rest ih =>
    unfold popSrcs
    split
    · exact ih c
    · split
      · next pops => exact ((Context.popQ_sameButQueues pops).trans ⟨_, _, rfl⟩).trans (ih _)
      · exact ih c

theorem takeRoom_sameButQueues {now : Nat} {qs : List (Fin 16)} {d : Context} (c : Context) (serial : Nat)
    (takes : takeRoom c now qs serial = .ok d) :
    SameButQueues c d := by
  induction qs generalizing c serial with
  | nil =>
    cases takes
    exact .refl _
  | cons q rest ih =>
    unfold takeRoom at takes
    split at takes
    · cases takes
    · exact SameButQueues.trans (d := c.reserveQ now q serial serial) ⟨_, _, rfl⟩ (ih _ _ takes)

/-- The queues of a V word served: nothing but they and what is before the stream's words is different. -/
theorem served_frame {t u : State} {w : VForm} {es : List QEntry} (serves : served t w es u) : ∃ q know,
    u = { t with ctx := { t.ctx with q := q, vs := { t.ctx.vs with know := know } }, serial := t.serial + w.dsts.length } := by
  obtain ⟨-, -, -, -, c, takes, rfl⟩ := serves
  obtain ⟨q, know, same⟩ := (popSrcs_sameButQueues t.cycle w.srcs t.ctx).trans (takeRoom_sameButQueues _ _ takes)
  exact ⟨q, know, congrArg (fun x => ({ t with ctx := x, serial := t.serial + w.dsts.length } : State)) same⟩

/-- A V word whose queues serve it goes on with the entries read; it may be one that a format of its own accepts. -/
theorem State.vServe_served {t u : State} {w : VForm} {es : List QEntry} (serves : Claims.served t w es u) {accept : Nat → Bool}
    (accepts : accept t.ctx.shape.fmt = true) (f : List QEntry → State → State) : t.vServe { w with accept := accept } f = f es u := by
  obtain ⟨-, bound, sources, rfl, c, takes, rfl⟩ := serves
  simp only [State.vServe, accepts, bound, sources, takes]
  rfl

/-- The shape and the cycle of a V word met and served are the machine's. -/
theorem metV_served_same {s t u : State} {w : VForm} {es : List QEntry} {sync : Fin 8} (met : metV s sync t) (serves : served t w es u) :
    t.ctx.shape = s.ctx.shape ∧ u.ctx.shape = s.ctx.shape ∧ u.cycle = s.cycle := by
  obtain ⟨q, know, rfl⟩ := served_frame serves
  obtain ⟨chans, awaited, know, rfl⟩ := metV_frame met
  exact ⟨rfl, rfl, rfl⟩

section
variable {s t u : State} {w : VForm} {es : List QEntry} {accept : Nat → Bool} (met : metV s w.sync t) (serves : Claims.served t w es u)
  (accepts : accept s.ctx.shape.fmt = true)
include met serves accepts

/-- A V word that pushes one result into each of its destinations (R354). -/
theorem State.vPush_served (m : BitVec 256) (f : VShape → BitVec 256 → List QEntry → QEntry × BitVec 8) :
    s.vPush { w with accept := accept } m f = pushesAll t u w (f s.ctx.shape m es).1 (f s.ctx.shape m es).2 := by
  obtain ⟨same, shape, -⟩ := metV_served_same met serves
  rw [← same] at accepts
  refine (State.vWord_met _ met).trans ((State.vServe_served serves accepts _).trans ?_)
  rw [← shape]
  rfl

/-- A V word whose result goes to a register. -/
theorem State.vReg_served (f : VShape → List QEntry → Dest × BitVec 256 × BitVec 8) :
    s.vReg { w with accept := accept } f =
      pushesNone (flies u .v w.lat (f s.ctx.shape es).1 (f s.ctx.shape es).2.1) (s.cycle + w.lat) w.sync (f s.ctx.shape es).2.2 [] := by
  obtain ⟨same, shape, now⟩ := metV_served_same met serves
  rw [← same] at accepts
  refine (State.vWord_met _ met).trans ((State.vServe_served serves accepts _).trans ?_)
  rw [← shape, ← now]
  rfl

end

/-! ### Entries of lanes (R153, R353) -/

/-- The lanes of w bits of a list packed, lane 0 first. -/
def packed (w : Nat) (ls : List Nat) : Nat := ls.foldr (fun v acc => v % 2 ^ w + 2 ^ w * acc) 0

theorem packed_lt (w : Nat) (ls : List Nat) : packed w ls < 2 ^ (w * ls.length) := by
  induction ls with
  | nil => exact Nat.one_pos
  | cons v rest ih =>
    have low := Nat.mod_lt v (Nat.two_pow_pos w)
    have split : 2 ^ (w * (v :: rest).length) = 2 ^ w * 2 ^ (w * rest.length) := by rw [← Nat.pow_add, List.length_cons, Nat.mul_succ, Nat.add_comm]
    calc packed w (v :: rest) = v % 2 ^ w + 2 ^ w * packed w rest := rfl
      _ < 2 ^ w * (packed w rest + 1) := by rw [Nat.mul_succ]; omega
      _ ≤ 2 ^ (w * (v :: rest).length) := split ▸ Nat.mul_le_mul_left _ ih

/-- Lane i of a packed list is element i in w bits. -/
theorem packed_lane (w : Nat) (ls : List Nat) (i : Nat) : packed w ls / 2 ^ (w * i) % 2 ^ w = ls.getD i 0 % 2 ^ w := by
  induction ls generalizing i with
  | nil => simp [packed]
  | cons v rest ih =>
    have low := Nat.mod_lt v (Nat.two_pow_pos w)
    have step : packed w (v :: rest) = v % 2 ^ w + 2 ^ w * packed w rest := rfl
    cases i with
    | zero => simp [step]
    | succ i =>
      rw [step, Nat.mul_succ, Nat.add_comm (w * i), Nat.pow_add, ← Nat.div_div_eq_div_mul, Nat.add_mul_div_left _ _ (Nat.two_pow_pos w),
        Nat.div_eq_of_lt low, Nat.zero_add, ih]
      rfl

/-- Lane i of an entry of lanes that fit it. -/
theorem laneOf_entryOf {w : Nat} {ls : List Nat} (fits : w * ls.length ≤ 2048) (i : Nat) : laneOf (entryOf w ls) w i = ls.getD i 0 % 2 ^ w := by
  have whole : (entryOf w ls).toNat = packed w ls :=
    (BitVec.toNat_ofNat ..).trans (Nat.mod_eq_of_lt ((packed_lt w ls).trans_le (Nat.pow_le_pow_right Nat.two_pos fits)))
  rw [laneOf, whole, packed_lane]

/-- An entry holds as many lanes as its width allows. -/
theorem lanes_fit (w : Nat) : w * (2048 / w) ≤ 2048 := Nat.mul_div_le 2048 w

/-- Lane i of an entry that is built lane by lane. -/
theorem laneOf_entryOf_range {w n : Nat} (fits : w * n ≤ 2048) (f : Nat → Nat × BitVec 8) {i : Nat} (bound : i < n) :
    laneOf (entryOf w (((List.range n).map f).map (fun r => r.1))) w i = (f i).1 % 2 ^ w := by
  rw [laneOf_entryOf (by simpa using fits)]
  simp [List.getD, bound]

/-- Flags are collected in the order of the lanes. -/
theorem foldl_flags {α : Type} (f : α → Nat × BitVec 8) (g : α → BitVec 8) (same : ∀ a, (f a).2 = g a) (ls : List α) :
    (ls.map f).foldl (fun fl r => fl ||| r.2) 0 = (ls.map g).foldl (fun a b => a ||| b) 0 := by
  simp only [List.foldl_map, same]

/-- Two lane results alike in the lane's width, with the same flags. -/
def alikeIn (w : Nat) (a b : Nat × BitVec 8) : Prop := a.1 % 2 ^ w = b.1 % 2 ^ w ∧ a.2 = b.2

theorem alikeIn.refl (w : Nat) (a : Nat × BitVec 8) : alikeIn w a a := ⟨rfl, rfl⟩

/-- Lane i is enabled: within the entry, below the shape's lanes, and in the mask (R353). -/
theorem VShape.on_eq (sh : VShape) (m : BitVec 256) (i : Nat) :
    sh.on m i = decide (i < sh.lanes ∧ i < 2048 / sh.w ∧ m.getLsbD i = true) := by
  simp only [VShape.on, VShape.count, Nat.lt_min, Bool.decide_and, Bool.and_assoc, Bool.decide_eq_true]

/-- The entry of lane results is as R353 says, whichever of two like results each lane has. -/
theorem VShape.build_lanesAre (sh : VShape) (m : BitVec 256) {f g : Nat → Nat × BitVec 8} (alike : ∀ i, alikeIn sh.w (g i) (f i)) :
    lanesAre sh m f (sh.build m g).1 (sh.build m g).2 := by
  refine ⟨fun i bound => ?_, ?_⟩
  · refine (laneOf_entryOf_range (lanes_fit sh.w) _ bound).trans ?_
    by_cases on : i < sh.lanes ∧ m.getLsbD i = true
    · simp [VShape.on_eq, on, bound, (alike i).1]
    · rw [if_neg on, if_neg (by simpa [VShape.on_eq, bound] using on), Nat.zero_mod]
  · rw [VShape.build, List.foldl_map, List.foldl_map, VShape.count]
    refine List.foldl_ext _ _ _ fun fl i mem => ?_
    have bound := List.mem_range.1 mem
    simp only [VShape.on_eq, bound, true_and, decide_eq_true_eq]
    split
    · exact congrArg (fl ||| ·) (alike i).2
    · rfl

/-! ### Lanes by themselves (R357 to R362, R366, R371, R373) -/

/-- A V word in form w whose enabled lanes under m are computed by themselves: lane i is what f makes of the lanes read. -/
def Lanewise (i : Instr) (s : State) (w : VForm) (m : BitVec 256) (f : VShape → (Nat → Nat → Nat) → Nat → Nat × BitVec 8) : Prop :=
  ∃ g : VShape → List QEntry → Nat → Nat × BitVec 8, exec i s = .next (s.vPush w m (fun sh _ es => sh.build m (g sh es))) ∧
    ∀ sh es l, alikeIn sh.w (g sh es l) (f sh (fun j l => laneOf (es.getD j 0) sh.w l) l)

theorem laneOf_lt (e : QEntry) (w i : Nat) : laneOf e w i < 2 ^ w := Nat.mod_lt _ (Nat.two_pow_pos w)

theorem zeroNeg_eq (sh : VShape) : zeroNeg sh = sh.rm.zneg := by
  rw [zeroNeg]
  cases sh.rm <;> rfl

/-- As pick orders two floating lanes: below, or equal with the signs -0 and +0 (R357). -/
theorem less_iff (x y : Val) : (x.lt y || (x.eqv y && x.sign && !y.sign)) = true ↔
    x.lt y = true ∨ (x.eqv y = true ∧ x.sign = true ∧ y.sign = false) := by
  simp [and_assoc]

/-- The lesser of two floating lanes (R357). -/
theorem VShape.pick_false (sh : VShape) (a b : Nat) : sh.pick false a b = lesser sh a b := by
  refine if_congr (Bool.and_eq_true ..).to_iff rfl (if_congr .rfl rfl (if_congr .rfl rfl (congrArg (·, 0) ?_)))
  have ordered := less_iff (fval sh a) (fval sh b)
  split_ifs with above below below
  · exact absurd (ordered.2 below) (Bool.eq_false_iff.1 above)
  · rfl
  · rfl
  · exact absurd (Bool.ne_false_iff.1 above) (below ∘ ordered.1)

/-- The greater of two floating lanes (R357). -/
theorem VShape.pick_true (sh : VShape) (a b : Nat) : sh.pick true a b = greater sh a b :=
  if_congr (Bool.and_eq_true ..).to_iff rfl (if_congr .rfl rfl (if_congr .rfl rfl (congrArg (·, 0) (if_congr (less_iff ..) rfl rfl))))

/-- A lane's sign bit inverted (R357). -/
theorem flipTop {w a : Nat} (wide : 0 < w) (bound : a < 2 ^ w) :
    (if a < 2 ^ (w - 1) then a + 2 ^ (w - 1) else a - 2 ^ (w - 1)) = a ^^^ 2 ^ (w - 1) := by
  obtain ⟨k, rfl⟩ : ∃ k, w = k + 1 := ⟨w - 1, by omega⟩
  rw [Nat.add_sub_cancel]
  rw [Nat.pow_succ] at bound
  have half (b : Nat) (low : b < 2 ^ k) : b ^^^ 2 ^ k = b + 2 ^ k := by
    rw [Nat.add_comm, ← Nat.mul_one (2 ^ k), Nat.two_pow_add_eq_or_of_lt low, Nat.mul_one]
    refine Nat.eq_of_testBit_eq fun j => ?_
    rw [Nat.testBit_xor, Nat.testBit_or, Nat.testBit_two_pow]
    by_cases top : k = j
    · rw [Nat.testBit_lt_two_pow (top ▸ low), Bool.false_xor, Bool.or_false]
    · simp [top]
  split
  · next low => exact (half a low).symm
  · next high =>
    have back := half (a - 2 ^ k) (by omega)
    rw [Nat.sub_add_cancel (by omega)] at back
    calc a - 2 ^ k = a - 2 ^ k ^^^ 2 ^ k ^^^ 2 ^ k := by rw [Nat.xor_assoc, Nat.xor_self, Nat.xor_zero]
      _ = a ^^^ 2 ^ k := by rw [back]

/-- What VABS and VNEG make of a lane's sign (R357). -/
theorem VShape.signOp_false (sh : VShape) (a : Nat) :
    sh.signOp false a = if (fval sh a).isNan = true then (sh.fp.nanBits, flNV) else (a % 2 ^ (sh.w - 1), 0) := rfl

theorem VShape.w_pos (sh : VShape) : 0 < sh.w := by
  unfold VShape.w fmtBits
  split <;> decide

theorem VShape.signOp_true (sh : VShape) {a : Nat} (bound : a < 2 ^ sh.w) :
    sh.signOp true a = if (fval sh a).isNan = true then (sh.fp.nanBits, flNV) else (a ^^^ 2 ^ (sh.w - 1), 0) := by
  rw [← flipTop sh.w_pos bound]
  rfl

theorem VShape.wrap_eq (sh : VShape) (i : Int) : sh.wrap i = wraps sh i := by
  rw [VShape.wrap, patternOf, wraps, Nat.cast_pow]
  rfl

theorem VShape.int_eq (sh : VShape) (a : Nat) : sh.int a = ilane sh a := by
  rw [VShape.int, ilane, signedOf_eq_sgn]

section
variable {i : Instr} {s : State} {m : BitVec 256}

/-- A word of two queues. -/
theorem Lanewise.two {o : Op.Vv} {accept : Nat → Bool} {lat : Nat} {f : VShape → (Nat → Nat → Nat) → Nat → Nat × BitVec 8}
    (g : VShape → Nat → Nat → Nat × BitVec 8)
    (runs : exec i s = .next (s.vPush (formVv o accept lat) (s.ctx.getM o.m) (fun sh m es =>
      sh.build m (fun l => g sh (sh.lane (src es 0) l) (sh.lane (src es 1) l)))))
    (alike : ∀ sh l k, (∀ j, l j k < 2 ^ sh.w) → alikeIn sh.w (g sh (l 0 k) (l 1 k)) (f sh l k)) :
    Lanewise i s (Claims.two o accept lat) (s.ctx.getM o.m) f :=
  ⟨fun sh es l => g sh (sh.lane (src es 0) l) (sh.lane (src es 1) l), runs, fun sh _ _ => alike sh _ _ fun _ => laneOf_lt ..⟩

/-- A word of one queue. -/
theorem Lanewise.one {o : Op.Vu} {accept : Nat → Bool} {lat : Nat} {f : VShape → (Nat → Nat → Nat) → Nat → Nat × BitVec 8}
    (g : VShape → Nat → Nat × BitVec 8) (runs : exec i s = .next (s.vun o accept lat g))
    (alike : ∀ sh l k, (∀ j, l j k < 2 ^ sh.w) → alikeIn sh.w (g sh (l 0 k)) (f sh l k)) :
    Lanewise i s (Claims.one o.sync o.qa o.pka o.qd accept lat) (s.ctx.getM o.m) f :=
  ⟨fun sh es l => g sh (sh.lane (src es 0) l), runs, fun sh _ _ => alike sh _ _ fun _ => laneOf_lt ..⟩

/-- A word of a queue and a scalar. -/
theorem Lanewise.scalar {o : Op.Vs} {lat : Nat} {f : VShape → (Nat → Nat → Nat) → Nat → Nat × BitVec 8}
    (g : VShape → Nat → Nat → Nat × BitVec 8) (runs : exec i s = .next (s.vfs o lat g))
    (alike : ∀ sh l k, alikeIn sh.w (g sh (l 0 k) ((s.ctx.s[o.sr]).toNat % 2 ^ sh.w)) (f sh l k)) :
    Lanewise i s (Claims.one o.sync o.qa o.pka o.qd floatFmt lat) (s.ctx.getM o.m) f :=
  ⟨fun sh es l => g sh (sh.lane (src es 0) l) ((s.ctx.s[o.sr]).toNat % 2 ^ sh.w), runs, fun sh es k =>
    alike sh (fun j l => laneOf (es.getD j 0) sh.w l) k⟩

end

/-! The lane functions, one by one: what the model computes beside what R357 to R361 say. -/

section
variable (sh : VShape) (a b d : Nat)

theorem VShape.add_eq : sh.add a b = rounded sh ((fval sh a).add (zeroNeg sh) (fval sh b)) := by
  rw [zeroNeg_eq]
  rfl

theorem VShape.sub_eq : sh.sub a b = rounded sh ((fval sh a).add (zeroNeg sh) (fval sh b).negate) := by
  rw [zeroNeg_eq]
  rfl

theorem VShape.fma_eq : sh.fma a b d = rounded sh (((fval sh a).mul (fval sh b)).add (zeroNeg sh) (fval sh d)) := by
  rw [zeroNeg_eq]
  rfl

theorem VShape.shr_alike (n : Nat) : alikeIn sh.w (a / n, 0) (wraps sh ((a / n : Nat))) := by
  refine ⟨?_, rfl⟩
  rw [wraps, ← Int.natCast_mod, Int.toNat_natCast, Nat.mod_mod]

theorem VShape.sra_eq (n : Nat) : sh.wrap (signedOf sh.w a / (2 ^ n : Int)) = wraps sh (slane sh a / (2 ^ n : Nat)) := by
  rw [VShape.wrap_eq, signedOf_eq_sgn, slane, Nat.cast_pow]
  rfl

theorem VShape.min_eq : (if sh.int b < sh.int a then b else a) = if ilane sh a ≤ ilane sh b then a else b := by
  rw [VShape.int_eq, VShape.int_eq, ← ite_not]
  exact if_congr not_lt rfl rfl

theorem VShape.max_eq : (if sh.int a < sh.int b then b else a) = if ilane sh b ≤ ilane sh a then a else b := by
  rw [VShape.int_eq, VShape.int_eq, ← ite_not]
  exact if_congr not_lt rfl rfl

/-- A lane of the entry that a mask bit chooses is the lane that it chooses. -/
theorem VShape.chosen_eq (bit : Bool) (e r : QEntry) (l : Nat) :
    sh.lane (if bit then e else r) l = if bit = true then laneOf e sh.w l else laneOf r sh.w l := by
  cases bit <;> rfl

/-- The high halves joined (R371). -/
theorem VShape.high_eq (e r : QEntry) (k : Nat) :
    (if k < sh.count / 2 then sh.lane e (k + sh.count / 2) else sh.lane r (k - sh.count / 2 + sh.count / 2)) =
      if k < 2048 / sh.w / 2 then laneOf e sh.w (2048 / sh.w / 2 + k) else laneOf r sh.w k := by
  change (if k < 2048 / sh.w / 2 then _ else _) = _
  split
  · exact congrArg (laneOf e sh.w) (Nat.add_comm ..)
  · next high => exact congrArg (laneOf r sh.w) (Nat.sub_add_cancel (Nat.not_lt.1 high))

end

theorem alikeIn.of_eq {w : Nat} {a b : Nat × BitVec 8} (same : a = b) : alikeIn w a b := same ▸ .refl w a

/-- Every word of R357 to R362, R366, R371 and R373 computes its lanes by themselves. -/
theorem laneWord_lanewise {i : Instr} {s : State} {w : VForm} {m : BitVec 256} {f : VShape → (Nat → Nat → Nat) → Nat → Nat × BitVec 8}
    (word : laneWord s.ctx i = some (w, m, f)) : Lanewise i s w m f := by
  unfold laneWord at word
  split at word <;> cases word
  case h_1 => exact .two VShape.add rfl fun sh l k _ => .of_eq (sh.add_eq ..) -- VADD
  case h_2 => exact .two VShape.sub rfl fun sh l k _ => .of_eq (sh.sub_eq ..) -- VSUB
  case h_3 => exact .two VShape.mul rfl fun sh l k _ => .refl .. -- VMUL
  case h_4 => -- VFMA
    exact ⟨fun sh es k => sh.fma (sh.lane (src es 0) k) (sh.lane (src es 1) k) (sh.lane (src es 2) k), rfl,
      fun sh es l => .of_eq (sh.fma_eq ..)⟩
  case h_5 => exact .two (fun sh => sh.pick false) rfl fun sh l k _ => .of_eq (sh.pick_false ..) -- VMIN
  case h_6 => exact .two (fun sh => sh.pick true) rfl fun sh l k _ => .of_eq (sh.pick_true ..) -- VMAX
  case h_7 => exact .one (fun sh => sh.signOp false) rfl fun sh l k _ => .refl .. -- VABS
  case h_8 => exact .one (fun sh => sh.signOp true) rfl fun sh l k bound => .of_eq (sh.signOp_true (bound 0)) -- VNEG
  case h_9 => exact .one (fun _ => rcp32) rfl fun sh l k _ => .refl .. -- VRCP
  case h_10 => exact .one (fun _ => rsq32) rfl fun sh l k _ => .refl .. -- VRSQ
  case h_11 => exact .one (fun _ => exp232) rfl fun sh l k _ => .refl .. -- VEXP2
  case h_12 => exact .one (fun _ => log232) rfl fun sh l k _ => .refl .. -- VLOG2
  case h_13 => exact .scalar VShape.add rfl fun sh l k => .of_eq (sh.add_eq ..) -- VADDS
  case h_14 => exact .scalar VShape.sub rfl fun sh l k => .of_eq (sh.sub_eq ..) -- VSUBS
  case h_15 => exact .scalar VShape.mul rfl fun sh l k => .refl .. -- VMULS
  case h_16 o => -- VFMAS
    exact ⟨fun sh es k => sh.fma (sh.lane (src es 0) k) ((s.ctx.s[o.sr]).toNat % 2 ^ sh.w) (sh.lane (src es 1) k), rfl,
      fun sh es l => .of_eq (sh.fma_eq ..)⟩
  case h_17 => exact .scalar (fun sh => sh.pick false) rfl fun sh l k => .of_eq (sh.pick_false ..) -- VMINS
  case h_18 => exact .scalar (fun sh => sh.pick true) rfl fun sh l k => .of_eq (sh.pick_true ..) -- VMAXS
  case h_19 => exact .two (fun sh a b => sh.wrap ((a : Int) + b)) rfl fun sh l k _ => .of_eq (sh.wrap_eq _) -- VIADD
  case h_20 => exact .two (fun sh a b => sh.wrap ((a : Int) - b)) rfl fun sh l k _ => .of_eq (sh.wrap_eq _) -- VISUB
  case h_21 => exact .two (fun sh a b => sh.wrap ((a : Int) * b)) rfl fun sh l k _ => .of_eq (sh.wrap_eq _) -- VIMUL
  case h_22 => exact .two (fun _ a b => (a &&& b, 0)) rfl fun sh l k _ => .refl .. -- VAND
  case h_23 => exact .two (fun _ a b => (a ||| b, 0)) rfl fun sh l k _ => .refl .. -- VOR
  case h_24 => exact .two (fun _ a b => (a ^^^ b, 0)) rfl fun sh l k _ => .refl .. -- VXOR
  case h_25 => exact .two (fun sh a b => sh.wrap ((a * 2 ^ (b % sh.w) : Nat) : Int)) rfl fun sh l k _ => .of_eq (sh.wrap_eq _) -- VSHL
  case h_26 => exact .two (fun sh a b => (a / 2 ^ (b % sh.w), 0)) rfl fun sh l k _ => sh.shr_alike .. -- VSHR
  case h_27 => exact .two (fun sh a b => sh.wrap (signedOf sh.w a / (2 ^ (b % sh.w) : Int))) rfl fun sh l k _ => .of_eq (sh.sra_eq ..) -- VSRA
  case h_28 => -- VIMIN
    exact .two (fun sh a b => (if sh.int b < sh.int a then b else a, 0)) rfl fun sh l k _ => .of_eq (congrArg (·, 0) (sh.min_eq ..))
  case h_29 => -- VIMAX
    exact .two (fun sh a b => (if sh.int a < sh.int b then b else a, 0)) rfl fun sh l k _ => .of_eq (congrArg (·, 0) (sh.max_eq ..))
  case h_30 o => exact ⟨fun sh es k => sh.wrap ((sh.lane (src es 0) k : Int) + o.imm.toInt), rfl, fun sh es l => .of_eq (sh.wrap_eq _)⟩ -- VIADDI
  case h_31 o => exact ⟨fun sh _ _ => encodeElem sh.fmt sh.rm sh.sat (.ofInt (o.imm.toInt)), rfl, fun sh es l => .refl ..⟩ -- VBCASTI
  case h_32 => exact .one (fun _ a => (a, 0)) rfl fun sh l k _ => .refl .. -- VMOV
  case h_33 => exact ⟨fun sh es k => (sh.lane (src es 0) k, 0), rfl, fun sh es l => .refl ..⟩ -- VDUP
  case h_34 o => -- VSEL
    exact ⟨fun sh es k => (sh.lane (if (s.ctx.getM o.m).getLsbD k then src es 0 else src es 1) k, 0), rfl,
      fun sh es l => .of_eq (congrArg (·, 0) (sh.chosen_eq ..))⟩
  case h_35 => -- VPACK
    exact ⟨fun sh es k => (if k < sh.count / 2 then sh.lane (src es 0) (k + 0) else sh.lane (src es 1) (k - sh.count / 2 + 0), 0), rfl,
      fun sh es l => .refl ..⟩
  case h_36 => -- VUNPK
    exact ⟨fun sh es k => (if k < sh.count / 2 then sh.lane (src es 0) (k + sh.count / 2) else sh.lane (src es 1)
        (k - sh.count / 2 + sh.count / 2), 0), rfl,
      fun sh es l => .of_eq (congrArg (·, 0) (sh.high_eq ..))⟩
  case h_37 => exact ⟨fun sh es k => (sh.lane (src es 0) (sh.lane (src es 1) k % sh.count), 0), rfl, fun sh es l => .refl ..⟩ -- VPERM
  case h_38 o => exact ⟨fun sh _ _ => ((s.ctx.s[o.sr]).toNat % 2 ^ sh.w, 0), rfl, fun sh es l => .refl ..⟩ -- VBCAST
  case h_39 o => -- VROT
    exact ⟨fun sh es k => (sh.lane (src es 0) (((k : Int) + o.imm.toInt) % (sh.count : Int)).toNat, 0), rfl,
      fun sh es l => .refl ..⟩

/-! ### Entries that are not built lane by lane (R369 to R374) -/

/-- The lanes of a conversion between formats without blocks (R369). -/
theorem VShape.convert_convertsTo (sh : VShape) (m : BitVec 256) (fmt : Nat) (rm : RMode) (sat : Bool) (e : QEntry) :
    convertsTo sh m fmt rm sat e (sh.convert m fmt rm sat e).1 (sh.convert m fmt rm sat e).2 := by
  have on (i : Nat) (bound : i < 2048 / fmtBits fmt) :
      ((decide (i < min sh.lanes (min sh.count (2048 / fmtBits fmt))) && m.getLsbD i) = true) ↔
        i < sh.lanes ∧ i < 2048 / sh.w ∧ m.getLsbD i = true := by
    simp [VShape.count, bound, and_assoc]
  refine ⟨fun i bound => ?_, ?_⟩
  · refine (laneOf_entryOf_range (lanes_fit (fmtBits fmt)) _ bound).trans ?_
    rw [if_congr (on i bound) rfl rfl, apply_ite Prod.fst, apply_ite (· % 2 ^ fmtBits fmt), Nat.zero_mod]
    rfl
  · refine (List.foldl_map ..).trans (Eq.trans ?_ (List.foldl_map ..).symm)
    refine List.foldl_ext _ _ _ fun fl i mem => congrArg (fl ||| ·) ?_
    rw [if_congr (on i (List.mem_range.1 mem)) rfl rfl, apply_ite Prod.snd]
    rfl

/-- Every lane of a reduction's entry is its result (R372). -/
theorem laneOf_replicate {w n : Nat} (fits : w * n ≤ 2048) (v : Nat) {l : Nat} (bound : l < n) :
    laneOf (entryOf w (List.replicate n v)) w l = v % 2 ^ w := by
  rw [laneOf_entryOf (by simpa using fits)]
  simp [List.getD, bound]

theorem testBit_laneOf (e : QEntry) (w i j : Nat) : (laneOf e w i).testBit j = (decide (j < w) && e.getLsbD (w * i + j)) := by
  rw [laneOf, Nat.testBit_mod_two_pow, Nat.testBit_div_two_pow, Nat.add_comm j]
  rfl

/-- The bits of an entry with a lane replaced (R374). -/
theorem getLsbD_putLane (e : QEntry) (w l v : Nat) {b : Nat} (bound : b < 2048) : (putLane e w l v).getLsbD b =
    if w * l ≤ b ∧ b - w * l < w then v.testBit (b - w * l) else e.getLsbD b := by
  simp only [putLane, BitVec.getLsbD_or, BitVec.getLsbD_and, BitVec.getLsbD_not, BitVec.getLsbD_ofNat, Nat.testBit_mul_two_pow,
    Nat.testBit_two_pow_sub_one, Nat.testBit_mod_two_pow, bound, decide_true, Bool.true_and]
  by_cases above : w * l ≤ b <;> by_cases below : b - w * l < w <;> simp [above, below]

/-- Lane l replaced, and every other lane as it was (R374). -/
theorem laneOf_putLane (e : QEntry) {w l : Nat} (v : Nat) {k : Nat} (bound : k < 2048 / w) :
    laneOf (putLane e w l v) w k = if k = l then v % 2 ^ w else laneOf e w k := by
  refine Nat.eq_of_testBit_eq fun j => ?_
  rw [testBit_laneOf]
  by_cases low : j < w
  · have inside : w * k + j < 2048 := by
      have fits := (Nat.mul_le_mul_left w bound).trans (lanes_fit w)
      rw [Nat.mul_succ] at fits
      omega
    rw [getLsbD_putLane _ _ _ _ inside]
    by_cases same : k = l
    · subst same
      simp [low, Nat.testBit_mod_two_pow]
    · have outside : ¬(w * l ≤ w * k + j ∧ w * k + j - w * l < w) := by
        rcases Nat.lt_or_gt_of_ne same with before | after
        · have := Nat.mul_le_mul_left w before
          rw [Nat.mul_succ] at this
          omega
        · have := Nat.mul_le_mul_left w after
          rw [Nat.mul_succ] at this
          omega
      rw [if_neg outside, if_neg same, testBit_laneOf]
  · rw [if_congr Iff.rfl (Nat.mod_eq_of_lt (Nat.mod_lt v (Nat.two_pow_pos w))).symm rfl]
    split <;> simp [low, testBit_laneOf, Nat.testBit_mod_two_pow]

/-- The formats from which VCVT converts: those that a shape holds, where the word's own fields keep R369 and R370. -/
def vcvtAccepts (o : Op.Vcvt) (sh : VShape) (x : Nat) : Bool :=
  heldFmt x && !decide (o.fmt.val = 0 ∨ 14 ≤ o.fmt.val ∨ 4 ≤ o.rm.val ∨ (isBlockFmt o.fmt.val = true ∧ sh.blocksOk o.m o.fmt.val = false))

theorem vcvtAccepts_of {o : Op.Vcvt} {sh : VShape} (held : heldFmt sh.fmt = true) (named : o.fmt.val ≠ 0) (below : o.fmt.val < 14)
    (mode : o.rm.val < 4) (blocks : isBlockFmt o.fmt.val = true →
      o.m = 0 ∧ sh.blockLanes % 32 = 0 ∧ sh.blockLanes / 32 ≤ (if o.fmt.val = fmtMxfp8 then 7 else 8)) : vcvtAccepts o sh sh.fmt = true := by
  have ok (block : isBlockFmt o.fmt.val = true) : sh.blocksOk o.m o.fmt.val = true := by
    obtain ⟨unmasked, whole, few⟩ := blocks block
    simp [VShape.blocksOk, unmasked, whole, few]
  have fields : ¬(o.fmt.val = 0 ∨ 14 ≤ o.fmt.val ∨ 4 ≤ o.rm.val ∨ (isBlockFmt o.fmt.val = true ∧ sh.blocksOk o.m o.fmt.val = false)) := by
    rintro (none | high | wide | ⟨block, bad⟩)
    · exact named none
    · omega
    · omega
    · exact absurd (ok block) (Bool.eq_false_iff.1 bad)
  rw [vcvtAccepts, held, decide_eq_false fields]
  rfl

section
variable {s t u : State} {es : List QEntry}

/-- VCVT into lanes or into blocks (R369, R370). -/
theorem exec_vcvt {o : Op.Vcvt} (met : metV s o.sync t) (serves : served t (one o.sync o.qa o.pka o.qd heldFmt 4) es u)
    (accepts : vcvtAccepts o s.ctx.shape s.ctx.shape.fmt = true) :
    let r := if isBlockFmt o.fmt.val then s.ctx.shape.toBlocks o.fmt.val (RMode.ofCode o.rm.val) o.sat (es.getD 0 0)
      else s.ctx.shape.convert (s.ctx.getM o.m) o.fmt.val (RMode.ofCode o.rm.val) o.sat (es.getD 0 0)
    exec (.vcvt o) s = .next (pushesAll t u (one o.sync o.qa o.pka o.qd heldFmt 4) r.1 r.2) :=
  congrArg Host.Outcome.next (State.vPush_served met serves accepts (s.ctx.getM o.m) (fun sh m es =>
    if isBlockFmt o.fmt.val then sh.toBlocks o.fmt.val (RMode.ofCode o.rm.val) o.sat (src es 0)
    else sh.convert m o.fmt.val (RMode.ofCode o.rm.val) o.sat (src es 0)))

/-- The enabled lanes of an entry, rising. -/
def enabledLanes (sh : VShape) (m : BitVec 256) (e : QEntry) : List Nat :=
  ((List.range sh.count).filter (fun i => sh.on m i)).map (fun i => sh.lane e i)

theorem enabledLanes_eq (sh : VShape) (m : BitVec 256) (e : QEntry) : enabledLanes sh m e = reduced sh m e := by
  refine congrArg (List.map _) (List.filter_congr fun i mem => ?_)
  have inside : i < 2048 / sh.w := List.mem_range.1 mem
  simp [VShape.on_eq, inside]

/-- The entry of a reduction's result, in every lane. -/
def reductionOf (sh : VShape) (v : Nat × BitVec 8) : QEntry × BitVec 8 := (entryOf sh.w (List.replicate sh.count v.1), v.2)

/-- A reduction (R372). -/
theorem State.vreduce_served {o : Op.Vu} (met : metV s o.sync t) (serves : Claims.served t (one o.sync o.qa o.pka o.qd reduceFmt 8) es u)
    (f : VShape → List Nat → Nat × BitVec 8) :
    let v := f s.ctx.shape (reduced s.ctx.shape (s.ctx.getM o.m) (es.getD 0 0))
    s.vreduce o f = pushesAll t u (one o.sync o.qa o.pka o.qd reduceFmt 8)
        (entryOf s.ctx.shape.w (List.replicate (2048 / s.ctx.shape.w) v.1)) v.2 := by
  have accepts : reduceFmt s.ctx.shape.fmt = true := (metV_served_same met serves).1 ▸ serves.1
  have pushes := State.vPush_served met serves accepts (s.ctx.getM o.m) (fun sh m es =>
    reductionOf sh (f sh (enabledLanes sh m (src es 0))))
  rw [enabledLanes_eq] at pushes
  exact pushes

/-- VSMOV into a lane (R374). -/
theorem exec_vsmovToLane {o : Op.Vs2l} (met : metV s o.sync t) (inside : o.lane.val < 2048 / s.ctx.shape.w)
    (serves : served t { sync := o.sync, srcs := [⟨o.q, false⟩], dsts := [o.q], accept := heldFmt, lat := 2 } es u) :
    exec (.vsmovToLane o) s = .next (pushesAll t u { sync := o.sync, srcs := [⟨o.q, false⟩], dsts := [o.q], accept := heldFmt, lat := 2 }
      (putLane (es.getD 0 0) s.ctx.shape.w o.lane.val (s.ctx.s[o.sr]).toNat) 0) := by
  have held : heldFmt s.ctx.shape.fmt = true := (metV_served_same met serves).1 ▸ serves.1
  have accepts : (fun f => heldFmt f && decide (o.lane.val < 2048 / fmtBits f)) s.ctx.shape.fmt = true := by
    simp only [held, Bool.true_and, decide_eq_true_eq]
    exact inside
  exact congrArg Host.Outcome.next (State.vPush_served (w := { sync := o.sync, srcs := [⟨o.q, false⟩], dsts := [o.q], accept := heldFmt, lat := 2 })
    met serves accepts 0 (fun sh _ es => (putLane (src es 0) sh.w o.lane.val (s.ctx.s[o.sr]).toNat, 0)))

/-- The conversion of a lane by SPCVT (R378). -/
def spcvtLane (toF : Bool) (v : Nat) : Nat × BitVec 8 :=
  if toF then convertElem fmtPs32 fmtFp32 .rne false v else convertElem fmtFp32 fmtPs32 .rne false v

/-- What SPCVT pushes. -/
def spcvtLanes (toF : Bool) (sh : VShape) (e : QEntry) : List (Nat × BitVec 8) :=
  (List.range sh.spLanes).map (fun k => spcvtLane toF (laneOf e 32 k))

theorem laneOf_spcvt (toF : Bool) (sh : VShape) (e : QEntry) {l : Nat} (bound : l < 64) :
    laneOf (entryOf 32 ((spcvtLanes toF sh e).map (fun r => r.1))) 32 l =
      if l < sh.lanes then (spcvtLane toF (laneOf e 32 l)).1 % 2 ^ 32 else 0 := by
  rw [laneOf_entryOf (by simp [spcvtLanes, VShape.spLanes]; omega)]
  by_cases on : l < sh.lanes
  · simp [spcvtLanes, VShape.spLanes, bound, on]
  · simp [spcvtLanes, VShape.spLanes, List.getD, on]

/-- The entry and the flags of lane results. -/
def entryResult (w : Nat) (rs : List (Nat × BitVec 8)) : QEntry × BitVec 8 := (entryOf w (rs.map (fun r => r.1)),
    rs.foldl (fun fl r => fl ||| r.2) 0)

theorem exec_spcvt_eq (o : Op.Spcvt) : exec (.spcvt o) s = .next (s.vPush
    { sync := o.sync, srcs := [⟨o.qa, false⟩], dsts := [o.qd], accept := fun _ => true, lat := 4 } 0
    (fun sh _ es => entryResult 32 (spcvtLanes o.toF sh (src es 0)))) := rfl

/-- SPCVT (R378). -/
theorem exec_spcvt {o : Op.Spcvt} (met : metV s o.sync t)
    (serves : served t { sync := o.sync, srcs := [⟨o.qa, false⟩], dsts := [o.qd], accept := fun _ => true, lat := 4 } es u) :
    let r := entryResult 32 (spcvtLanes o.toF s.ctx.shape (es.getD 0 0))
    exec (.spcvt o) s = .next (pushesAll t u { sync := o.sync, srcs := [⟨o.qa, false⟩], dsts := [o.qd], accept := fun _ => true, lat := 4 }
      r.1 r.2) :=
  (exec_spcvt_eq o).trans (congrArg Host.Outcome.next (State.vPush_served (accept := fun _ => true) met serves rfl 0 (fun sh _ es =>
    entryResult 32 (spcvtLanes o.toF sh (src es 0)))))

end

/-! ### VCMP (R363) -/

/-- A list of truths as bits, the first lowest. -/
theorem testBit_foldr_bits (rs : List (Bool × BitVec 8)) (l : Nat) :
    (rs.foldr (fun (r : Bool × BitVec 8) acc => r.1.toNat + 2 * acc) 0).testBit l = (rs.getD l (false, 0)).1 := by
  induction rs generalizing l with
  | nil => simp
  | cons r rest ih =>
    cases l with
    | zero =>
      obtain ⟨bit, flags⟩ := r
      rw [List.foldr_cons, Nat.testBit_zero, Nat.add_mul_mod_self_left]
      cases bit <;> rfl
    | succ l =>
      have half (n : Nat) : (r.1.toNat + 2 * n) / 2 = n := by
        have := Bool.toNat_lt r.1
        omega
      rw [List.foldr_cons, Nat.testBit_succ, half, ih]
      rfl

/-- A condition of VCMP as the word that names it applies it, a NaN among the lanes or not (R363). -/
def CondOf (i : Instr) (nv : Bool) (c : VCond) : Prop :=
  c.ordered = nv ∧ ∀ less same nan, comparesAs i less same nan = if nan then c == .ne else c.holds less same

theorem CondOf.compare {i : Instr} {nv : Bool} {c : VCond} (cond : CondOf i nv c) (o : Op.Vc) (sh : VShape) (a b : Nat) :
    sh.compare c o.int o.uns a b = compares i o nv sh a b := by
  obtain ⟨ordered, agrees⟩ := cond
  unfold VShape.compare compares
  dsimp only
  split
  · rw [agrees, signedOf_eq_sgn, signedOf_eq_sgn]
    rfl
  · rw [agrees, ← ordered]
    change _ = (if (sh.val a).isNan || (sh.val b).isNan then c == .ne else c.holds ((sh.val a).lt (sh.val b)) ((sh.val a).eqv (sh.val b)),
      if c.ordered && ((sh.val a).isNan || (sh.val b).isNan) then flNV else 0)
    cases (sh.val a).isNan || (sh.val b).isNan
    · rw [Bool.and_false]
      rfl
    · rw [Bool.and_true]
      rfl

/-- Each VCMP word compares under a condition (R363). -/
theorem exec_vcmp {i : Instr} {o : Op.Vc} {nv : Bool} (word : vcmpOf i = some (o, nv)) (s : State) : ∃ c : VCond,
    exec i s = .next (s.vcmp o c) ∧ CondOf i nv c := by
  unfold vcmpOf at word
  split at word <;> cases word
  case h_1 => exact ⟨.eq, rfl, rfl, fun less same nan => by cases same <;> cases nan <;> rfl⟩
  case h_2 => exact ⟨.ne, rfl, rfl, fun less same nan => by cases same <;> cases nan <;> rfl⟩
  case h_3 => exact ⟨.lt, rfl, rfl, fun less same nan => by cases less <;> cases nan <;> rfl⟩
  case h_4 => exact ⟨.le, rfl, rfl, fun less same nan => by cases less <;> cases same <;> cases nan <;> rfl⟩
  case h_5 => exact ⟨.gt, rfl, rfl, fun less same nan => by cases less <;> cases same <;> cases nan <;> rfl⟩
  case h_6 => exact ⟨.ge, rfl, rfl, fun less same nan => by cases less <;> cases nan <;> rfl⟩

/-- The comparisons of the enabled lanes (R363). -/
def VShape.compared (sh : VShape) (m : BitVec 256) (f : Nat → Bool × BitVec 8) : List (Bool × BitVec 8) :=
  (List.range sh.count).map (fun l => if sh.on m l then f l else (false, 0))

/-- The mask that they make. -/
def maskOf (rs : List (Bool × BitVec 8)) : BitVec 256 := BitVec.ofNat 256 (rs.foldr (fun r acc => r.1.toNat + 2 * acc) 0)

/-- Bit l of a VCMP's mask (R363). -/
theorem vcmp_mask (sh : VShape) (m : BitVec 256) (f : Nat → Bool × BitVec 8) {l : Nat} (bound : l < 256) :
    (maskOf (sh.compared m f)).getLsbD l = (sh.on m l && (f l).1) := by
  rw [maskOf, BitVec.getLsbD_ofNat, testBit_foldr_bits, VShape.compared]
  by_cases inside : l < sh.count
  · by_cases on : sh.on m l = true <;> simp [bound, inside, on]
  · have off : sh.on m l = false := by simp [VShape.on, inside]
    simp [List.getD, off, inside]

/-- Its flags (R363). -/
theorem vcmp_flags (sh : VShape) (m : BitVec 256) (f : Nat → Bool × BitVec 8) :
    (sh.compared m f).foldl (fun fl r => fl ||| r.2) 0 =
      ((List.range (2048 / sh.w)).map (fun l => if l < sh.lanes ∧ l < 2048 / sh.w ∧ m.getLsbD l = true then (f l).2 else 0)).foldl
        (fun a b => a ||| b) 0 := by
  rw [VShape.compared, List.foldl_map, List.foldl_map, VShape.count]
  refine List.foldl_ext _ _ _ fun fl l mem => congrArg (fl ||| ·) ?_
  simp only [VShape.on_eq, decide_eq_true_eq]
  rw [apply_ite Prod.snd]

/-- The form of a VCMP word. -/
def formVc (o : Op.Vc) : VForm :=
  { sync := o.sync, srcs := [⟨o.qa, o.pka⟩, ⟨o.qb, o.pkb⟩], dsts := [], accept := if o.int then heldFmt else floatFmt, lat := 2 }

/-- The comparisons of the lanes of two entries. -/
def comparisons (m : BitVec 256) (o : Op.Vc) (c : VCond) (sh : VShape) (es : List QEntry) : List (Bool × BitVec 8) :=
  sh.compared m (fun l => sh.compare c o.int o.uns (laneOf (es.getD 0 0) sh.w l) (laneOf (es.getD 1 0) sh.w l))

/-- The register result of a VCMP word, from its comparisons. -/
def vcmpResult (o : Op.Vc) (rs : List (Bool × BitVec 8)) : Dest × BitVec 256 × BitVec 8 :=
  (.m o.md, maskOf rs, rs.foldl (fun fl r => fl ||| r.2) 0)

theorem State.vcmp_eq (s : State) (o : Op.Vc) (c : VCond) :
    s.vcmp o c = s.vReg (formVc o) (fun sh es => vcmpResult o (comparisons (s.ctx.getM o.m) o c sh es)) := rfl

/-- A VCMP word whose queues serve it (R363). -/
theorem State.vcmp_served {s t u : State} {es : List QEntry} {o : Op.Vc} (met : metV s o.sync t) (serves : Claims.served t (formVc o) es u)
    (c : VCond) {rs : List (Bool × BitVec 8)} (lanes : comparisons (s.ctx.getM o.m) o c s.ctx.shape es = rs) :
    s.vcmp o c = pushesNone (flies u .v 2 (.m o.md) (maskOf rs)) (s.cycle + 2) o.sync (rs.foldl (fun fl r => fl ||| r.2) 0) [] := by
  have accepts : (formVc o).accept s.ctx.shape.fmt = true := (metV_served_same met serves).1 ▸ serves.1
  have lands := State.vReg_served (w := formVc o) met serves accepts (fun sh es => vcmpResult o (comparisons (s.ctx.getM o.m) o c sh es))
  rw [lanes] at lands
  exact (State.vcmp_eq ..).trans lands

/-! ### VSETSH, VSETL and the mask words (R352, R367) -/

/-- A word without queues whose register result flies. -/
theorem State.vWord_vSet {s t : State} {sync : Fin 8} (met : metV s sync t) (dst : State → Dest) (v : State → BitVec 256) :
    s.vWord sync (fun u => u.vSet sync (dst u) (v u)) = pushesNone (flies t .v 1 (dst t) (v t)) (s.cycle + 1) sync 0 [] := by
  refine (State.vWord_met _ met).trans ?_
  have now : t.cycle = s.cycle := by
    obtain ⟨chans, awaited, know, rfl⟩ := metV_frame met
    rfl
  rw [← now]
  rfl

/-- The scalar and mask registers of a V word met are the machine's. -/
theorem metV_regs {s t : State} {sync : Fin 8} (met : metV s sync t) : t.ctx.s = s.ctx.s ∧ t.ctx.getM = s.ctx.getM ∧ t.cycle = s.cycle := by
  obtain ⟨chans, awaited, know, rfl⟩ := metV_frame met
  exact ⟨rfl, rfl, rfl⟩

/-- VSETSH: of a value that names a held format, lanes and a mode, else ILLEGAL (R352). -/
theorem exec_vsetsh {s t : State} {o : Op.Vset} (met : metV s o.sync t) : exec (.vsetsh o) s = .next (
    if shapeOk (s.ctx.s[o.sr]).toNat then pushesNone (flies t .v 1 (.vshape false) ((s.ctx.s[o.sr]).setWidth 256)) (s.cycle + 1) o.sync 0 []
    else t.faultAt .v .illegal 0) := by
  obtain ⟨scalars, -, now⟩ := metV_regs met
  refine congrArg Host.Outcome.next ((State.vWord_met _ met).trans ?_)
  rw [← now, ← scalars]
  dsimp only
  cases shapeOk (t.ctx.s[o.sr]).toNat <;> rfl

/-- VSETL: of 1 to 256, else ILLEGAL (R352). -/
theorem exec_vsetl {s t : State} {o : Op.Vset} (met : metV s o.sync t) : exec (.vsetl o) s = .next (
    if s.ctx.s[o.sr] = 0 ∨ 256 < (s.ctx.s[o.sr]).toNat then t.faultAt .v .illegal 0
    else pushesNone (flies t .v 1 (.vshape true) ((s.ctx.s[o.sr]).setWidth 256)) (s.cycle + 1) o.sync 0 []) := by
  obtain ⟨scalars, -, now⟩ := metV_regs met
  refine congrArg Host.Outcome.next ((State.vWord_met _ met).trans ?_)
  rw [← now, ← scalars]
  rfl

/-- What VSETSH takes, said arithmetically (R352). -/
theorem shapeOk_iff (v : Nat) : shapeOk v = true ↔
    heldFmt (v % 16) = true ∧ 1 ≤ v / 16 % 512 ∧ v / 16 % 512 ≤ 256 ∧ v / 2 ^ 13 % 8 < 4 ∧ v < 2 ^ 18 := by
  simp only [shapeOk, Bool.and_eq_true, decide_eq_true_eq, and_assoc]

/-- A word on mask registers (R367). -/
theorem State.vmask_lands {s t : State} {o : Op.Vm} (met : metV s o.sync t) (f : BitVec 256 → BitVec 256 → BitVec 256) :
    s.vmask o f = pushesNone (flies t .v 1 (.m o.md) (f (s.ctx.getM o.ma) (s.ctx.getM o.mb))) (s.cycle + 1) o.sync 0 [] := by
  rw [← (metV_regs met).2.1]
  exact State.vWord_vSet met _ _

/-- VSMOV from a lane (R374). -/
theorem exec_vsmovToS {s t u : State} {es : List QEntry} {o : Op.Vl2s} (met : metV s o.sync t) (inside : o.lane.val < 2048 / s.ctx.shape.w)
    (serves : served t { sync := o.sync, srcs := [⟨o.q, o.pk⟩], dsts := [], accept := heldFmt, lat := 2 } es u) (v : Nat)
    (read : laneOf (es.getD 0 0) s.ctx.shape.w o.lane.val = v) :
    exec (.vsmovToS o) s = .next (pushesNone (flies u .v 2 (.s o.sr) (BitVec.ofNat 256
      (if s.ctx.shape.fmt = fmtInt8 ∨ s.ctx.shape.fmt = fmtInt16 then patternOf 32 (signedOf s.ctx.shape.w v) else v)))
      (s.cycle + 2) o.sync 0 []) := by
  have held : heldFmt s.ctx.shape.fmt = true := (metV_served_same met serves).1 ▸ serves.1
  have accepts : (fun f => heldFmt f && decide (o.lane.val < 2048 / fmtBits f)) s.ctx.shape.fmt = true := by
    simp only [held, Bool.true_and, decide_eq_true_eq]
    exact inside
  subst read
  exact congrArg Host.Outcome.next (State.vReg_served (w := { sync := o.sync, srcs := [⟨o.q, o.pk⟩], dsts := [], accept := heldFmt, lat := 2 })
    met serves accepts (fun sh es =>
      let v := sh.lane (src es 0) o.lane.val
      let r := if sh.fmt = fmtInt8 ∨ sh.fmt = fmtInt16 then patternOf 32 (signedOf sh.w v) else v
      (.s o.sr, BitVec.ofNat 256 r, 0)))

end Sys2Proof.Machine
end

section
/-! PROOFS. The V words (R351 to R374). -/

namespace Sys2Proof.Proofs

open Sys2Proof.Machine Sys2Proof.Claims

/-- Settles O29: every such word is computed lane by lane. -/
theorem vectorLaneWordsPushTheirLanes : Obligations.VectorLaneWordsPushTheirLanes := by
  unfold Obligations.VectorLaneWordsPushTheirLanes
  intro i s
  split
  · trivial
  · next w m f word =>
    intro t u es met serves
    obtain ⟨g, runs, alike⟩ := laneWord_lanewise word
    have accepts : w.accept s.ctx.shape.fmt = true := by
      rw [← (metV_served_same met serves).1]
      exact serves.1
    exact ⟨_, _, VShape.build_lanesAre _ m fun l => alike s.ctx.shape es l,
      runs.trans (congrArg Host.Outcome.next (State.vPush_served met serves accepts m _))⟩

/-- Settles O30, word by word: what each pushes is the lemma about its entry. -/
theorem vectorEntryWordsPushTheirEntry : Obligations.VectorEntryWordsPushTheirEntry := by
  unfold Obligations.VectorEntryWordsPushTheirEntry
  refine ⟨?_, ?_, ?_, ?_, ?_⟩
  · intro o s t u es met w serves
    obtain ⟨shape, -, now⟩ := metV_served_same met serves
    have pops := State.vPush_served (w := w) met serves (shape ▸ serves.1) 0 (fun _ _ _ => (0, 0))
    rw [← now]
    exact congrArg Host.Outcome.next pops
  · intro o s t u es met named below mode blocks w serves
    have held : heldFmt s.ctx.shape.fmt = true := (metV_served_same met serves).1 ▸ serves.1
    have pushes := exec_vcvt met serves (vcvtAccepts_of held named below mode blocks)
    refine ⟨_, _, pushes, fun plain => ?_, fun block => ?_⟩
    · rw [plain]
      exact VShape.convert_convertsTo ..
    · rw [block]
      rfl
  · intro i o f s t u es word met w serves v
    have runs : exec i s = .next (s.vreduce o f) := by
      rcases word with ⟨rfl, rfl⟩ | ⟨rfl, rfl⟩ | ⟨rfl, rfl⟩ <;> rfl
    exact ⟨_, fun l bound => laneOf_replicate (lanes_fit _) _ bound, runs.trans (congrArg Host.Outcome.next (State.vreduce_served met serves f))⟩
  · intro o s t u es met n w inside serves
    exact ⟨_, fun l bound => laneOf_putLane (es.getD 0 0) _ bound, exec_vsmovToLane met inside serves⟩
  · intro o s t u es met w serves
    exact ⟨_, _, fun l bound => laneOf_spcvt _ _ _ bound, exec_spcvt met serves⟩

/-- Settles O31, word by word. -/
theorem vectorRegisterWordsLandTheirValue : Obligations.VectorRegisterWordsLandTheirValue := by
  unfold Obligations.VectorRegisterWordsLandTheirValue
  refine ⟨⟨?_, ?_⟩, ?_, ?_, ?_⟩
  · intro i o nv s t u es word met sh w serves c on
    obtain ⟨cond, runs, agrees⟩ := exec_vcmp word s
    have lanes : (fun l => sh.compare cond o.int o.uns (laneOf (es.getD 0 0) sh.w l) (laneOf (es.getD 1 0) sh.w l)) = c :=
      funext fun l => agrees.compare ..
    refine ⟨maskOf (sh.compared (s.ctx.getM o.m) c), fun l bound => ?_, ?_⟩
    · rw [vcmp_mask _ _ _ bound, VShape.on_eq]
    · rw [runs, State.vcmp_served met serves cond (congrArg (sh.compared (s.ctx.getM o.m)) lanes), vcmp_flags]
  · intro o s t u es met sh w inside serves v
    rw [exec_vsmovToS met inside serves v rfl, apply_ite (BitVec.ofNat 256), signedOf_eq_sgn, patternOf]
    rfl
  · intro o s t met v good
    have taken : shapeOk v.toNat = true ↔ good := shapeOk_iff _
    refine ⟨fun holds => ?_, fun fails => ?_, fun some few => ?_, fun outside => ?_⟩
    · rw [exec_vsetsh met, if_pos (taken.2 holds)]
    · rw [exec_vsetsh met, if_neg (fails ∘ taken.1)]
    · rw [exec_vsetl met, if_neg]
      rintro (none | many)
      · exact absurd (congrArg BitVec.toNat none) (Nat.ne_of_gt some)
      · exact absurd few (Nat.not_le.2 many)
    · rw [exec_vsetl met, if_pos (outside.imp_left BitVec.eq_of_toNat_eq)]
  · intro o s t met lands a b
    exact ⟨congrArg Host.Outcome.next (State.vmask_lands met _), congrArg Host.Outcome.next (State.vmask_lands met _),
      congrArg Host.Outcome.next (State.vmask_lands met _)⟩
  · intro o s t met
    rw [← (metV_regs met).2.1]
    exact congrArg Host.Outcome.next (State.vWord_vSet met (fun _ => .m o.md) (fun u => ~~~(u.ctx.getM o.ma)))

end Sys2Proof.Proofs
end

section
/-! SUPPORT. Sum-product words at issue (R377 to R383). -/

namespace Sys2Proof.Machine

open Sys2Proof.Claims

/-- No word in flight writes one of some cells (R381). -/
theorem State.cellsBusy_false {s : State} {keys : List Nat} (free : ∀ p ∈ s.ctx.vpend, ∀ c ∈ p.cells, c.1 ∉ keys) : s.cellsBusy keys = false := by
  simpa [State.cellsBusy] using free

section
variable {s t u : State} {w : VForm} {es : List QEntry} {accept : Nat → Bool} (met : metV s w.sync t) (serves : Claims.served t w es u)
  (accepts : accept s.ctx.shape.fmt = true) {bad : List QEntry → Bool} {keys : List QEntry → List Nat} (f : List QEntry → State → State)
include met serves accepts

/-- A sum-product word whose queues serve it: banks that are not the context's are checked before its cells (R263, R378). -/
theorem State.spWord_served : s.spWord { w with accept := accept } bad keys f =
    if bad es then t.faultAt .v .spbank 0 else if t.cellsBusy (keys es) then t.waitIn .v .cell else f es u := by
  have same := (metV_served_same met serves).1
  rw [← same] at accepts
  exact (State.vWord_met _ met).trans (State.vServe_served serves accepts _)

theorem State.spWord_faults (outside : bad es = true) : s.spWord { w with accept := accept } bad keys f = t.faultAt .v .spbank 0 := by
  rw [State.spWord_served met serves accepts, if_pos outside]

theorem State.spWord_issues (inside : bad es = false) (free : ∀ p ∈ t.ctx.vpend, ∀ c ∈ p.cells, c.1 ∉ keys es) :
    s.spWord { w with accept := accept } bad keys f = f es u := by
  rw [State.spWord_served met serves accepts, inside, State.cellsBusy_false free]
  rfl

end

/-- The cells of a context met and served are the machine's. -/
theorem metV_served_cells {s t u : State} {w : VForm} {es : List QEntry} {sync : Fin 8} (met : metV s sync t) (serves : served t w es u) :
    u.core = s.core ∧ u.spBanks = s.spBanks ∧ u.serial = t.serial + w.dsts.length := by
  obtain ⟨q, know, rfl⟩ := served_frame serves
  obtain ⟨chans, awaited, know, rfl⟩ := metV_frame met
  exact ⟨rfl, rfl, rfl⟩

theorem State.refKey_congr {s u : State} (banks : u.spBanks = s.spBanks) : u.refKey = s.refKey := by
  funext part ref
  rw [State.refKey, State.refKey, banks]

section
variable {s u : State} (core : u.core = s.core) (banks : u.spBanks = s.spBanks)
include core

theorem State.cell_congr : u.cell = s.cell := by
  funext key
  rw [State.cell, State.cell, core]

include banks

theorem State.evalRec_congr (r : SubRec) : u.evalRec r = s.evalRec r := by
  rw [State.evalRec, State.evalRec, State.edges, State.edges, State.cell_congr core, State.refKey_congr banks]

/-- What SPUP writes comes from the cells and the banks alone. -/
theorem State.upCells_congr (r : SubRec) (addInto : Bool) : u.upCells r addInto = s.upCells r addInto := by
  rw [State.upCells, State.upCells, State.evalRec_congr core banks, State.cell_congr core, State.refKey_congr banks]

/-- What SPDN writes, too. -/
theorem State.downCells_congr (r : SubRec) : u.downCells r = s.downCells r := by
  rw [State.downCells, State.downCells, State.evalRec_congr core banks, State.cell_congr core, State.refKey_congr banks]

end

/-- SPUP and SPDN, by the record at the cursor (R379 to R383). -/
theorem State.recWord_served {s t u : State} {es : List QEntry} {sync : Fin 8} {qr : Fin 16} {lat : Nat} {down : Bool} (met : metV s sync t)
    (serves : Claims.served t { sync := sync, srcs := [⟨qr, true⟩], dsts := [], accept := fun _ => true, lat := lat } es u)
    {r : SubRec} (read : SubRec.ofEntry (es.getD 0 0) s.ctx.q[qr].cursor.val = r) {cells : State → SubRec → List (Nat × Half) × BitVec 8} :
    (r.bad s.spBanks.2 = true → s.recWord sync qr lat down cells = t.faultAt .v .spbank 0) ∧
    (r.bad s.spBanks.2 = false → (∀ p ∈ t.ctx.vpend, ∀ c ∈ p.cells, c.1 ∉ s.recKeys r down) → ∀ out, cells u r = out →
      s.recWord sync qr lat down cells =
        let v := pushesNone { u with ctx := u.ctx.takeRec s.cycle qr } (s.cycle + (r.cycles - 1) + lat) sync out.2 out.1
        { v with ctx := { v.ctx with vs := { v.ctx.vs with readyAt := s.cycle + r.cycles } } }) := by
  subst read
  obtain ⟨-, -, now⟩ := metV_served_same met serves
  refine ⟨fun bad => State.spWord_faults met serves (accept := fun _ => true) rfl _ bad, fun good free out what => ?_⟩
  subst what
  refine (State.spWord_issues met serves (accept := fun _ => true) rfl _ good free).trans ?_
  rw [← now]
  rfl

end Sys2Proof.Machine
end

section
/-! PROOFS. The sum-product words (R377 to R383). -/

namespace Sys2Proof.Proofs

open Sys2Proof.Machine Sys2Proof.Claims

/-- Settles O32: the moving words by what serves them, SPUP and SPDN by the record. -/
theorem sumProductWordsWriteTheirCells : Obligations.SumProductWordsWriteTheirCells := by
  unfold Obligations.SumProductWordsWriteTheirCells
  refine ⟨?_, ?_, ?_⟩
  · intro o s t u es met part ref n keys w serves
    obtain ⟨-, -, now⟩ := metV_served_same met serves
    refine ⟨fun inside free => congrArg Host.Outcome.next ?_, fun outside => congrArg Host.Outcome.next ?_⟩
    · refine (State.spWord_issues (w := w) met serves (accept := fun _ => decide (o.part.val ≠ 3)) (decide_eq_true part) _ inside free).trans ?_
      rw [← now]
      rfl
    · exact State.spWord_faults (w := w) met serves (accept := fun _ => decide (o.part.val ≠ 3)) (decide_eq_true part) _ outside
  · intro o s t u es met part ref n keys w serves inside free
    obtain ⟨core, -, serial⟩ := metV_served_cells met serves
    refine congrArg Host.Outcome.next ?_
    refine (State.spWord_issues (w := w) met serves (accept := fun _ => decide (o.part.val ≠ 3)) (decide_eq_true part) _ inside free).trans ?_
    have place : u.serial - 1 = t.serial := Nat.sub_eq_of_eq_add serial
    have read : (fun key => u.cell key) = fun key => (s.core.sp.getD key 0).toNat := State.cell_congr core
    dsimp only
    rw [place, read]
    rfl
  · intro qr sync down addInto s t u es met i lat w serves r
    obtain ⟨core, banks, -⟩ := metV_served_cells met serves
    cases down with
    | true =>
      obtain ⟨faults, lands⟩ := State.recWord_served (down := true) met serves (r := r) rfl (cells := fun s r => s.downCells r)
      exact ⟨fun bad => congrArg Host.Outcome.next (faults bad),
        fun good free => congrArg Host.Outcome.next (lands good free _ (State.downCells_congr core banks r))⟩
    | false =>
      obtain ⟨faults, lands⟩ := State.recWord_served (down := false) met serves (r := r) rfl (cells := fun s r => s.upCells r addInto)
      exact ⟨fun bad => congrArg Host.Outcome.next (faults bad),
        fun good free => congrArg Host.Outcome.next (lands good free _ (State.upCells_congr core banks r addInto))⟩

end Sys2Proof.Proofs
end

section
/-! SUPPORT. The debug window: what its commands come to, and what a stop leaves (R159, R195 to R202). -/

namespace Sys2Proof.Machine

open Sys2Proof.Claims

/-! ### The window of a site (R195, R196) -/

section
variable (s : State) (n : Fin 288)

theorem State.onDbg_fin (f : DbgWin → DbgWin) : s.onDbg n.val f = { s with dbg := s.dbg.set n.val (f s.dbg[n]) n.isLt } := dif_pos n.isLt

@[simp] theorem State.onDbg_ctx (site : Nat) (f : DbgWin → DbgWin) : (s.onDbg site f).ctx = s.ctx := by
  unfold State.onDbg
  split <;> rfl

@[simp] theorem State.onDbg_at (f : DbgWin → DbgWin) : (s.onDbg n.val f).dbg[n] = f s.dbg[n] := by
  rw [State.onDbg_fin]
  simp

@[simp] theorem State.dbgCode_ctx (site : Nat) (code : Fin 8) : (s.dbgCode site code).ctx = s.ctx := s.onDbg_ctx site _

@[simp] theorem State.dbgCode_code (code : Fin 8) : ((s.dbgCode n.val code).dbg[n]).code = code := by
  rw [State.dbgCode, State.onDbg_at]

@[simp] theorem State.dbgAt_fin : s.dbgAt n.val = s.dbg[n] := by
  simp [State.dbgAt]

/-- A site's status code set. -/
theorem codeIs_dbgCode (code : Fin 8) : codeIs s (s.dbgCode n.val code) n.val code := by
  rw [State.dbgCode, State.onDbg_fin]
  refine ⟨rfl, fun i => ?_⟩
  by_cases same : n = i
  · subst same
    simp
  · have other : i.val ≠ n.val := fun h => same (Fin.ext h.symm)
    rw [if_neg other]
    exact Vector.getElem_set_ne n.isLt i.isLt (Ne.symm other)

theorem State.dbgBusy_iff : s.dbgBusy n.val = true ↔ (s.dbg[n]).code = 5 := by
  rw [State.dbgBusy, State.dbgAt_fin, beq_iff_eq]

/-- The seal of a site is closed (R62, R195). -/
def sealClosed (s : State) (site : Nat) : Prop := ∃ p, (s.boxAt site).core.part = some p ∧ (s.focusPart p).part.sealOpen = false

theorem State.sealedAt_iff (site : Nat) : s.sealedAt site = true ↔ sealClosed s site := by
  unfold State.sealedAt sealClosed
  cases (s.boxAt site).core.part <;> simp

end

/-! ### Commands (R195, R196) -/

section
variable {s : State} {n : Fin 288} {cx : Bool} (f : State → State)

theorem State.command_busy (busy : (s.dbg[n]).code = 5) : s.command n.val cx f = s := if_pos ((s.dbgBusy_iff n).2 busy)

theorem State.command_sealed (idle : (s.dbg[n]).code ≠ 5) (closed : sealClosed s n.val) : s.command n.val cx f = s.dbgCode n.val 2 :=
  (if_neg (idle ∘ (s.dbgBusy_iff n).1)).trans (if_pos ((s.sealedAt_iff n.val).2 closed))

theorem State.command_open (idle : (s.dbg[n]).code ≠ 5) (opened : ¬ sealClosed s n.val) : s.command n.val cx f = f (s.focus n.val cx) :=
  (if_neg (idle ∘ (s.dbgBusy_iff n).1)).trans (if_neg (opened ∘ (s.sealedAt_iff n.val).1))

theorem State.haltedCommand_running (idle : (s.dbg[n]).code ≠ 5) (opened : ¬ sealClosed s n.val) (runs : (s.focus n.val cx).ctx.halted = false) :
    s.haltedCommand n.val cx f = (s.focus n.val cx).dbgCode n.val 3 :=
  (State.command_open _ idle opened).trans (if_neg (by rw [runs]; exact Bool.false_ne_true))

theorem State.haltedCommand_halted (idle : (s.dbg[n]).code ≠ 5) (opened : ¬ sealClosed s n.val) (halted : (s.focus n.val cx).ctx.halted = true) :
    s.haltedCommand n.val cx f = f (s.focus n.val cx) :=
  (State.command_open _ idle opened).trans (if_pos halted)

end

/-- A command that needs a halt is one of a halted context. -/
theorem exec_needsHalt {site : Nat} {cx : Bool} {i : Instr} (needs : needsHalt site cx i) :
    ∃ f, ∀ s, exec i s = .next (s.haltedCommand site cx f) := by
  unfold needsHalt at needs
  split at needs
  case h_3 =>
    obtain ⟨rfl, rfl, memory, events⟩ := needs
    exact ⟨_, fun s => congrArg Host.Outcome.next (if_neg (not_or.2 ⟨memory, events⟩))⟩
  case h_6 => exact needs.elim
  all_goals
    obtain ⟨rfl, rfl⟩ := needs
    exact ⟨_, fun s => rfl⟩

/-- Every command but HALT and an unknown one is carried out, if at all, with its context in focus. -/
theorem commands_cases {site : Nat} {cx : Bool} {i : Instr} (cmd : commands site cx i) :
    i = .dbgHalt site cx ∨ i = .dbgBadcmd site ∨ ∃ f, ∀ s, exec i s = .next (s.command site cx f) := by
  unfold commands at cmd
  split at cmd
  · obtain ⟨rfl, rfl⟩ := cmd
    exact .inl rfl
  · next space =>
    obtain ⟨rfl, rfl⟩ := cmd
    by_cases always : space = 12 ∨ space = 13
    · exact .inr (.inr ⟨_, fun s => congrArg Host.Outcome.next (if_pos always)⟩)
    · exact .inr (.inr ⟨_, fun s => congrArg Host.Outcome.next (if_neg always)⟩)
  · subst cmd
    exact .inr (.inl rfl)
  · obtain ⟨f, runs⟩ := exec_needsHalt cmd
    exact .inr (.inr ⟨_, runs⟩)

section
variable {s : State} {n : Fin 288} {cx : Bool}

theorem exec_dbgHalt_sealed (closed : sealClosed s n.val) :
    exec (.dbgHalt n.val cx) s = .next (if s.dbgBusy n.val then s else s.dbgCode n.val 2) :=
  congrArg Host.Outcome.next (if_pos ((s.sealedAt_iff n.val).2 closed))

/-- HALT ends a step whose word waits at issue (R202). -/
theorem exec_dbgHalt_ends (opened : ¬ sealClosed s n.val) (waits : (s.focus n.val cx).ctx.stepWaits = true) :
    exec (.dbgHalt n.val cx) s = .next ((s.focus n.val cx).endStep (s.focus n.val cx).cycle) :=
  congrArg Host.Outcome.next ((if_neg (opened ∘ (s.sealedAt_iff n.val).1)).trans (if_pos waits))

/-- Else it asks for a halt (R199). -/
theorem exec_dbgHalt_asks (opened : ¬ sealClosed s n.val) (goes : (s.focus n.val cx).ctx.stepWaits = false) :
    exec (.dbgHalt n.val cx) s =
      .next (s.command n.val cx (fun v => (if v.ctx.halted then v else v.requestHalt).dbgCode n.val 0)) :=
  congrArg Host.Outcome.next ((if_neg (opened ∘ (s.sealedAt_iff n.val).1)).trans (if_neg (by rw [goes]; exact Bool.false_ne_true)))

/-- A command that finds one in progress has no effect. -/
theorem exec_command_busy (busy : (s.dbg[n]).code = 5) {i : Instr} (cmd : commands n.val cx i)
    (other : i ≠ .dbgHalt n.val cx ∨ (s.focus n.val cx).ctx.stepWaits = false ∨ sealClosed s n.val) : exec i s = .next s := by
  have inProgress := (s.dbgBusy_iff n).2 busy
  rcases commands_cases cmd with rfl | rfl | ⟨f, runs⟩
  · by_cases closed : sealClosed s n.val
    · rw [exec_dbgHalt_sealed closed, if_pos inProgress]
    · rcases other with other | goes | closed'
      · exact absurd rfl other
      · rw [exec_dbgHalt_asks closed goes, State.command_busy _ busy]
      · exact absurd closed' closed
  · exact congrArg Host.Outcome.next (if_pos inProgress)
  · rw [runs, State.command_busy f busy]

/-- One that finds the seal closed reads SEALED. -/
theorem exec_command_sealed (idle : (s.dbg[n]).code ≠ 5) (closed : sealClosed s n.val) {i : Instr} (cmd : commands n.val cx i) :
    exec i s = .next (s.dbgCode n.val 2) := by
  have free := idle ∘ (s.dbgBusy_iff n).1
  rcases commands_cases cmd with rfl | rfl | ⟨f, runs⟩
  · rw [exec_dbgHalt_sealed closed, if_neg free]
  · exact congrArg Host.Outcome.next ((if_neg free).trans (if_pos ((s.sealedAt_iff n.val).2 closed)))
  · rw [runs, State.command_sealed f idle closed]

/-- One that needs a halt reads NOTHALTED where the context runs. -/
theorem exec_needsHalt_running (idle : (s.dbg[n]).code ≠ 5) (opened : ¬ sealClosed s n.val) (runs : (s.focus n.val cx).ctx.halted = false)
    {i : Instr} (needs : needsHalt n.val cx i) : exec i s = .next ((s.focus n.val cx).dbgCode n.val 3) := by
  obtain ⟨f, meaning⟩ := exec_needsHalt needs
  rw [meaning, State.haltedCommand_running f idle opened runs]

theorem exec_dbgBadcmd (idle : (s.dbg[n]).code ≠ 5) (opened : ¬ sealClosed s n.val) :
    exec (.dbgBadcmd n.val) s = .next (s.dbgCode n.val 4) :=
  congrArg Host.Outcome.next ((if_neg (idle ∘ (s.dbgBusy_iff n).1)).trans (if_neg (opened ∘ (s.sealedAt_iff n.val).1)))

end

/-! ### Stops (R159, R199) -/

section
variable (c : Context) (now : Nat)

/-- A C stream paused outside a handler. -/
theorem Context.pauseC_outside (outside : c.tip = false) : c.pauseC now = { c with
    cs := { c.cs with wait := none }, lbuf := c.lbuf ++ saved c now, divBusy := 0, landing := c.landing.filter (fun l => !decide (l.st = .c))
    b := c.b.map (fun r => { r with ready := none }), resume := true } :=
  if_neg (by rw [outside]; exact Bool.false_ne_true)

/-- A C stream paused within a handler. -/
theorem Context.pauseC_inside (inside : c.tip = true) : c.pauseC now = { c with
    cs := { c.cs with wait := none }, hbuf := c.hbuf ++ saved c now, divBusy := 0, landing := c.landing.filter (fun l => !decide (l.st = .c))
    b := c.b.map (fun r => { r with ready := none }), hresume := true } :=
  if_pos inside

/-- A paused C stream keeps its registers, its place and the context's state; none of its results flies any more. -/
theorem Context.pauseC_keeps : sameRegs c (c.pauseC now) ∧ sameTrapRegs c (c.pauseC now) ∧ (c.pauseC now).halted = c.halted ∧
    (c.pauseC now).cs = { c.cs with wait := none } ∧ (c.pauseC now).landing = c.landing.filter (fun l => !decide (l.st = .c)) := by
  have targets (r : Fin 8) : (c.b.map (fun b : BReg => { b with ready := none }))[r].val = c.b[r].val := by simp
  cases tip : c.tip with
  | false =>
    rw [Context.pauseC_outside _ _ tip]
    exact ⟨⟨rfl, rfl, targets, rfl, rfl, rfl, rfl, rfl, rfl, rfl, rfl, rfl, rfl, rfl, rfl⟩, sameTrapRegs_refl c, rfl, rfl, rfl⟩
  | true =>
    rw [Context.pauseC_inside _ _ tip]
    exact ⟨⟨rfl, rfl, targets, rfl, rfl, rfl, rfl, rfl, rfl, rfl, rfl, rfl, rfl, rfl, rfl⟩, sameTrapRegs_refl c, rfl, rfl, rfl⟩

theorem not_flying {ls ms : List Landing} (filtered : ms = ls.filter (fun l => !decide (l.st = .c))) : ∀ l ∈ ms, l.st ≠ .c := by
  intro l mem
  rw [filtered] at mem
  simpa using (List.mem_filter.1 mem).2

end

/-- A halt requested of a running turn pauses its C stream as of a cycle. -/
theorem State.requestHalt_ctx (s : State) : s.requestHalt.ctx =
    { (if s.core.active == s.cx && s.ctx.turn.isSome then s.ctx.pauseC s.cNow else s.ctx).holdEngines with haltReq := true } := rfl

/-- It leaves the registers, the place of the C stream and whether the context is halted. -/
theorem State.requestHalt_keeps (s : State) : sameRegs s.ctx s.requestHalt.ctx ∧ s.requestHalt.ctx.halted = s.ctx.halted ∧
    s.requestHalt.ctx.cs.pc = s.ctx.cs.pc ∧ s.requestHalt.ctx.cs.issued = s.ctx.cs.issued := by
  obtain ⟨regs, -, halted, stream, -⟩ := s.ctx.pauseC_keeps s.cNow
  rw [State.requestHalt_ctx]
  split
  · generalize s.ctx.pauseC s.cNow = c at regs halted stream
    have pc : c.cs.pc = s.ctx.cs.pc := by rw [stream]
    have issued : c.cs.issued = s.ctx.cs.issued := by rw [stream]
    exact ⟨regs, halted, pc, issued⟩
  · exact ⟨sameRegs_refl s.ctx, rfl, rfl, rfl⟩

/-- Of a running turn outside a handler, it saves the C stream's results in flight (R159). -/
theorem State.requestHalt_saves {s : State} (active : s.core.active = s.cx) (runs : s.ctx.turn.isSome = true) (outside : s.ctx.tip = false) :
    s.requestHalt.ctx.lbuf = s.ctx.lbuf ++ saved s.ctx s.cNow ∧ ∀ l ∈ s.requestHalt.ctx.landing, l.st ≠ .c := by
  rw [State.requestHalt_ctx, if_pos (by rw [active, runs, beq_self_eq_true]; rfl), Context.pauseC_outside _ _ outside]
  exact ⟨rfl, not_flying rfl⟩

/-- A step that ends pauses the C stream and holds the engine streams again (R202). -/
theorem State.endStep_ctx (s : State) (now : Nat) : (s.endStep now).ctx = { (s.ctx.pauseC now).holdAll with stepOf := none } := by
  unfold State.endStep
  dsimp only
  rw [State.trace_ctx, State.dbgCode_ctx]
  rfl

theorem State.endStep_regs (s : State) (now : Nat) : sameRegs s.ctx (s.endStep now).ctx := by
  rw [State.endStep_ctx]
  exact (s.ctx.pauseC_keeps now).1

theorem State.endStep_code {s : State} {n : Fin 288} (here : s.site = n.val) (now : Nat) : ((s.endStep now).dbg[n]).code = 0 := by
  have site : (s.onCtx (fun c => { (c.pauseC now).holdAll with stepOf := none })).site = n.val := here
  unfold State.endStep
  dsimp only
  rw [site]
  generalize s.onCtx _ = v
  obtain ⟨trace, lost, traced⟩ := (v.dbgCode n.val 0).trace_frame 0xB .c ((v.dbgCode n.val 0).dbgStat n.val)
  rw [traced]
  exact v.dbgCode_code n 0

/-- The focused context at its stop points (R199). -/
def haltedCtxOf (c : Context) (now : Nat) : Context := { (c.pauseC now).holdAll with halted := true, haltReq := false }

theorem exec_debugHaltLand {s : State} {site : Nat} {cx : Bool} (running : (s.focus site cx).ctx.stepOf = none)
    (asked : (s.focus site cx).ctx.haltReq = true) (stays : (s.focus site cx).ctx.retire = none) (moves : (s.focus site cx).core.stopping = false)
    (active : (s.focus site cx).core.active = cx) (turn : (s.focus site cx).ctx.turn.isSome = true)
    (stopped : (s.focus site cx).ctx.enginesStopped s.cycle = true) : ∃ t, exec (.debugHaltLand site cx) s = .next t ∧
      t.mem = s.mem ∧ t.ctx = haltedCtxOf (s.focus site cx).ctx (s.focus site cx).cycle := by
  have lands : (s.focus site cx).haltLands = true := by
    rw [← s.focus_cycle site cx] at stopped
    rw [State.haltLands, asked, stays, moves, stopped, Bool.or_true]
    rfl
  have live : ((s.focus site cx).core.active == (s.focus site cx).cx && (s.focus site cx).ctx.turn.isSome) = true := by
    simp [active, turn]
  have whole : exec (.debugHaltLand site cx) s = .next (
      let v := (s.focus site cx).onCtx (fun c => haltedCtxOf c (s.focus site cx).cycle)
      v.trace 0xB .c (v.dbgStat site)) := by
    refine congrArg Host.Outcome.next ((if_neg (by rw [running]; exact Bool.false_ne_true)).trans ((if_neg (by rw [lands]; decide)).trans ?_))
    dsimp only
    rw [live]
    rfl
  refine ⟨_, whole, ?_, ?_⟩
  · dsimp only
    rw [State.trace_mem]
    exact s.focus_mem site cx
  · dsimp only
    rw [State.trace_ctx]
    rfl

/-- RESUME lets every stream go on from where it stands, past its breakpoints (R199). -/
theorem Context.resumed_keeps (c : Context) : sameRegs c c.resumed ∧ sameTrapRegs c c.resumed ∧ c.resumed.halted = false ∧
    c.resumed.haltReq = false ∧ ∀ st, (c.resumed.strm st).bpSkip = true ∧ (c.resumed.strm st).pc = (c.strm st).pc := by
  refine ⟨sameRegs_refl c, sameTrapRegs_refl c, rfl, rfl, fun st => ?_⟩
  cases st with
  | c => exact ⟨rfl, rfl⟩
  | t | m | v =>
    unfold Context.resumed Context.resumeEngines Context.strm
    dsimp only
    split <;> exact ⟨rfl, rfl⟩

/-- A context whose debugger has asked for a step of a stream (R202). -/
def stepping (c : Context) (serial : Nat) (st : Strm) : Context :=
  { c.onStrm st (fun r => { r with held := false, holdReq := false, wait := none, bpSkip := true }) with
    stepOf := some { st := st, issued := (c.strm st).issued, tip := c.tip, serial := serial } }

theorem stepping_keeps (c : Context) (serial : Nat) (st : Strm) : sameRegs c (stepping c serial st) ∧
    ((stepping c serial st).strm st).held = false ∧ ((stepping c serial st).strm st).pc = (c.strm st).pc ∧
    (stepping c serial st).halted = c.halted ∧ (stepping c serial st).stepOf.map (fun x => x.st) = some st := by
  cases st <;> exact ⟨sameRegs_refl c, rfl, rfl, rfl, rfl⟩

/-! ### Items (R197, R200) -/

/-- A byte offset lies in the share of the context in focus (R118). -/
theorem State.inShare_iff (s : State) (off : Nat) : s.inShare off = true ↔ off < s.shareSize ∧ ¬(s.part.single = true ∧ s.cx = true) := by
  simp only [State.inShare, Bool.and_eq_true, decide_eq_true_eq, Bool.not_eq_true']
  cases s.part.single <;> cases s.cx <;> simp

/-- What READ answers of an item of the register spaces, of a tile that is free and of the share. -/
theorem State.dbgRead_item {s : State} {space : Fin 16} {i v : Nat} (item : debugItem s space i = some v) : s.dbgRead space i = .item v := by
  have within {n : Nat} (f : Fin n → Nat) (found : (if h : i < n then some (f ⟨i, h⟩) else none) = some v) : itemOf i f = .item v := by
    split at found
    · next inside =>
      cases found
      exact dif_pos inside
    · cases found
  have named (k : Fin 16) (number : space.val = k.val) (goal : s.dbgRead k i = .item v) : s.dbgRead space i = .item v := Fin.ext number ▸ goal
  unfold debugItem at item
  split at item
  · next number => exact named 0 number (within (fun r : Fin 32 => (s.ctx.getX r).toNat) item)
  · next number => exact named 1 number (within (fun r : Fin 8 => (s.ctx.getP r).toNat) item)
  · next number => exact named 2 number (within (fun r : Fin 8 => s.ctx.b[r].val.toNat) item)
  · next number => exact named 3 number (within (fun r : Fin 16 => (s.ctx.getA r).toNat) item)
  · next number => exact named 4 number (within (fun r : Fin 4 => s.ctx.mb[r].toNat) item)
  · next number => exact named 5 number (within (fun r : Fin 16 => s.ctx.s[r].toNat) item)
  · next number =>
    refine named 6 number ?_
    split at item
    · next inside =>
      cases item
      exact dif_pos inside
    · cases item
  · next number => exact named 7 number (within (fun r : Fin 16 => (s.ctx.getH r).toNat) item)
  · next number =>
    refine named 10 number ?_
    split at item
    · next free =>
      cases item
      refine (if_neg (Nat.not_le.2 free.1)).trans ((if_neg (by rw [free.2]; exact Bool.false_ne_true)).trans ?_)
      rw [Nat.mul_comm (2 ^ 32)]
    · cases item
  · next number =>
    refine named 15 number ?_
    split at item
    · next inside =>
      cases item
      exact if_neg (by rw [(s.inShare_iff _).2 inside]; decide)
    · cases item
  · cases item

/-- An access through the window counts on the board at most. -/
theorem State.dbgTouch_contended (s : State) (space : Fin 16) (i : Nat) : s.Contended (s.dbgTouch space i) := by
  unfold State.dbgTouch
  split
  · exact s.contended_contend 9 _
  · exact ⟨s.delays, s.core.board, s.cores, rfl⟩

theorem State.dbgTouch_other (s : State) {space : Fin 16} (other : space ≠ 15) (i : Nat) : s.dbgTouch space i = s := if_neg fun h => other h.1

section
variable {s : State} {n : Fin 288} {cx : Bool} (idle : (s.dbg[n]).code ≠ 5) (opened : ¬ sealClosed s n.val)
  (halted : (s.focus n.val cx).ctx.halted = true)
include idle opened halted

theorem exec_dbgResume : exec (.dbgResume n.val cx) s = .next (((s.focus n.val cx).onCtx Context.resumed).dbgCode n.val 0) :=
  congrArg Host.Outcome.next (State.haltedCommand_halted _ idle opened halted)

theorem exec_dbgStep (st : Strm) : exec (.dbgStep n.val cx st) s =
    .next (((s.focus n.val cx).onCtx (fun c => stepping c (s.focus n.val cx).serial st)).dbgCode n.val 5) :=
  congrArg Host.Outcome.next (State.haltedCommand_halted _ idle opened halted)

theorem exec_dbgRead {space : Fin 16} {v : Nat} (item : debugItem (s.focus n.val cx) space (s.dbg[n]).idx.toNat = some v) :
    exec (.dbgRead n.val cx space) s = .next (((s.focus n.val cx).dbgTouch space (s.dbg[n]).idx.toNat).dbgAnswer n.val (.item v)) := by
  have window : (s.focus n.val cx).dbgAt n.val = s.dbg[n] := by rw [State.dbgAt_fin, State.focus_dbg]
  have answers : ∀ f : State → State, (f = fun v => (v.dbgTouch space (v.dbgAt n.val).idx.toNat).dbgAnswer n.val
      (v.dbgRead space (v.dbgAt n.val).idx.toNat)) → f (s.focus n.val cx) =
      ((s.focus n.val cx).dbgTouch space (s.dbg[n]).idx.toNat).dbgAnswer n.val (.item v) := by
    rintro f rfl
    dsimp only
    rw [window, State.dbgRead_item item]
  refine congrArg Host.Outcome.next ?_
  dsimp only
  split
  · rw [State.command_open _ idle opened]
    exact answers _ rfl
  · rw [State.haltedCommand_halted _ idle opened halted]
    exact answers _ rfl

theorem exec_dbgWrite {space : Fin 16} {t : State} (writes : ((s.focus n.val cx).dbgTouch space (s.dbg[n]).idx.toNat).dbgWrite space
      (s.dbg[n]).idx.toNat ((s.dbg[n]).hi ++ (s.dbg[n]).lo) = (some t, 0)) :
    exec (.dbgWrite n.val cx space) s = .next (t.dbgCode n.val 0) := by
  have window : (s.focus n.val cx).dbgAt n.val = s.dbg[n] := by rw [State.dbgAt_fin, State.focus_dbg]
  refine congrArg Host.Outcome.next ((State.haltedCommand_halted _ idle opened halted).trans ?_)
  dsimp only
  rw [window, writes]
  rfl

/-- A WRITE of an item of the context. -/
theorem exec_dbgWrite_ctx {space : Fin 16} (other : space ≠ 15) {g : Context → Context}
    (writes : (s.focus n.val cx).dbgWrite space (s.dbg[n]).idx.toNat ((s.dbg[n]).hi ++ (s.dbg[n]).lo) = (some ((s.focus n.val cx).onCtx g), 0)) :
    ∃ t, exec (.dbgWrite n.val cx space) s = .next t ∧ t.mem = s.mem ∧ (t.dbg[n]).code = 0 ∧ t.ctx = g (s.focus n.val cx).ctx := by
  rw [← (s.focus n.val cx).dbgTouch_other other (s.dbg[n]).idx.toNat] at writes
  refine ⟨_, exec_dbgWrite idle opened halted writes, (State.dbgCode_mem ..).trans ?_, State.dbgCode_code .., (State.dbgCode_ctx ..).trans ?_⟩
  · rw [State.dbgTouch_other _ other]
    exact s.focus_mem n.val cx
  · rw [State.dbgTouch_other _ other]
    rfl

theorem exec_dbgDrop (inside : (s.dbg[n]).idx.toNat < 8) : exec (.dbgDrop n.val cx) s = .next (
    ((s.focus n.val cx).onCtx (fun c => c.onStopBuf (fun l => dropLand l (s.dbg[n]).idx.toNat))).dbgCode n.val 0) := by
  have window : (s.focus n.val cx).dbgAt n.val = s.dbg[n] := by rw [State.dbgAt_fin, State.focus_dbg]
  refine congrArg Host.Outcome.next ((State.haltedCommand_halted _ idle opened halted).trans ?_)
  dsimp only
  rw [window, if_neg (Nat.not_le.2 inside)]

end

/-! What WRITE makes of an x or an a register, of a landing-buffer entry and of the share (R197, R200). -/

section
variable {s : State} (v : Word)

theorem State.dbgWrite_x {r : Fin 32} (free : s.ctx.ownedX r = false) : s.dbgWrite 0 r.val v = (some (s.onCtx (fun c => c.setX r v)), 0) := by
  have register : Fin.ofNat 32 r.val = r := Fin.ofNat_val_eq_self r
  refine (if_pos (by decide)).trans ((if_neg (Nat.not_le.2 r.isLt)).trans ((if_neg ?_).trans ?_))
  · rw [register, free]
    exact fun h => Bool.false_ne_true h.2
  · change (some (s.onCtx (fun c => c.setX (Fin.ofNat 32 r.val) v)), (0 : Fin 8)) = _
    rw [register]

theorem State.dbgWrite_a (r : Fin 16) : s.dbgWrite 3 r.val v = (some (s.onCtx (fun c => c.setA r v)), 0) := by
  refine (if_pos (by decide)).trans ((if_neg (Nat.not_le.2 r.isLt)).trans ((if_neg fun h => absurd h.1 (by decide)).trans ?_))
  change (some (s.onCtx (fun c => c.setA (Fin.ofNat 16 r.val) v)), (0 : Fin 8)) = _
  rw [Fin.ofNat_val_eq_self]

theorem Context.setX_eq (c : Context) (r : Fin 32) : c.setX r v = { c with x := (c.setX r v).x } ∧
    ∀ j : Fin 32, (c.setX r v).x[j] = if j = r ∧ r ≠ 0 then v else c.x[j] := by
  unfold Context.setX
  split
  · next zero => exact ⟨rfl, fun j => (if_neg fun h => h.2 zero).symm⟩
  · next other => exact ⟨rfl, fun j => (getElem_set_fin ..).trans (if_congr (and_iff_left other).symm rfl rfl)⟩

theorem Context.setA_eq (c : Context) (r : Fin 16) : c.setA r v = { c with a := (c.setA r v).a } ∧
    ∀ j : Fin 16, (c.setA r v).a[j] = if j = r ∧ r ≠ 0 then v else c.a[j] := by
  unfold Context.setA
  split
  · next zero => exact ⟨rfl, fun j => (if_neg fun h => h.2 zero).symm⟩
  · next other => exact ⟨rfl, fun j => (getElem_set_fin ..).trans (if_congr (and_iff_left other).symm rfl rfl)⟩

/-- The value of an entry that stands written. -/
theorem writeLand_value {l : List LandSave} {i : Nat} {e : LandSave} (entry : l[i]? = some e) :
    writeLand l i 0 v = l.set i { e with val := v.setWidth 256 } := by
  obtain ⟨bound, -⟩ := List.getElem?_eq_some_iff.1 entry
  have whole : l ++ List.replicate (i + 1 - l.length) LandSave.empty = l := by
    rw [Nat.sub_eq_zero_of_le bound, List.replicate_zero, List.append_nil]
  unfold writeLand
  dsimp only
  rw [whole, entry]
  rfl

/-- The landing buffer of the stop at which a context stands: the program's or the handler's (R159). -/
theorem Context.onStopBuf_outside {c : Context} (outside : c.tip = false) (f : List LandSave → List LandSave) :
    c.onStopBuf f = { c with lbuf := f c.lbuf } :=
  if_neg (by rw [outside]; exact Bool.false_ne_true)

/-- An entry dropped, of the buffer of the stop at which the context stands (R200). -/
theorem Context.dropped_eq (c : Context) (i : Nat) : c.onStopBuf (fun l => dropLand l i) =
    (if c.tip then { c with hbuf := c.hbuf.modify i (fun e => { e with valid := false }) }
      else { c with lbuf := c.lbuf.modify i (fun e => { e with valid := false }) }) := rfl

theorem State.dbgWrite_lbuf {i : Nat} {e : LandSave} (outside : s.ctx.tip = false) (few : i < 8) (entry : s.ctx.lbuf[i]? = some e) :
    s.dbgWrite 9 (2 * i) v = (some (s.onCtx (fun c => { c with lbuf := c.lbuf.set i { e with val := v.setWidth 256 } })), 0) := by
  have writes : s.ctx.onStopBuf (fun l => writeLand l (2 * i / 2) (2 * i % 2) v) =
      { s.ctx with lbuf := s.ctx.lbuf.set i { e with val := v.setWidth 256 } } := by
    rw [Context.onStopBuf_outside outside, Nat.mul_div_cancel_left i (by decide), Nat.mul_mod_right, writeLand_value v entry]
  refine (if_neg (by decide)).trans ((if_neg (by omega)).trans ?_)
  exact congrArg (fun c => (some { s with ctx := c }, (0 : Fin 8))) writes

theorem State.dbgWrite_share {i : Nat} (inside : s.inShare (8 * i) = true) :
    s.dbgWrite 15 i v = (some (s.writeKey (spKey s.site (shareBase s.cx + 8 * i)) 8 v.toNat), 0) :=
  (if_neg (by decide)).trans (if_neg (by rw [inside]; decide))

end

/-! ### Breakpoints (R203) -/

section
variable {s : State} {site : Nat} {cx : Bool} {st : Strm} (ready : (s.focus site cx).streamReady st = true)
  (unasked : (s.focus site cx).ctx.haltReq = false) (fires : (s.focus site cx).bpFires st = true)
include ready unasked fires

theorem exec_breakpointFire : exec (.breakpointFire site cx st) s = .next (
    if (s.focus site cx).ctx.dbgctl.getLsbD 2 then (s.focus site cx).requestHalt
    else if st = .c then (s.focus site cx).trapWord .bkpt 0 else (s.focus site cx).faultAt st .bkpt 0) := by
  have due : (s.focus site cx).bpDue st = true := by
    rw [State.bpDue, ready, unasked, fires]
    rfl
  exact congrArg Host.Outcome.next (if_neg (by rw [due]; decide))

end

/-- A fault of an engine word halts its stream at the word, and a trap is pending (R178). -/
theorem State.faultAt_pends (s : State) {st : Strm} (engine : st ≠ .c) (cause : Cause) (a : Word) :
    let t := s.faultAt st cause a
    t.mem = s.mem ∧ sameRegs s.ctx t.ctx ∧ (t.ctx.strm st).held = true ∧ (t.ctx.strm st).pc = (s.ctx.strm st).pc ∧
      ∃ x, t.ctx.pend = s.ctx.pend ++ [x] ∧ x.cause = cause ∧ x.st = st ∧ x.fpc = (s.ctx.strm st).pc ∧ x.async_ = true := by
  cases st with
  | c => exact absurd rfl engine
  | t | m | v => exact ⟨rfl, sameRegs_refl s.ctx, rfl, rfl, _, rfl, rfl, rfl, rfl, rfl⟩

/-- What a halt that lands leaves of a context (R159, R199). -/
theorem haltedCtxOf_keeps (c : Context) (now : Nat) : sameRegs c (haltedCtxOf c now) ∧ sameTrapRegs c (haltedCtxOf c now) ∧
    (haltedCtxOf c now).halted = true ∧ (haltedCtxOf c now).haltReq = false ∧ (haltedCtxOf c now).cs.pc = c.cs.pc ∧
    (∀ l ∈ (haltedCtxOf c now).landing, l.st ≠ .c) ∧
    (c.tip = false → (haltedCtxOf c now).lbuf = c.lbuf ++ saved c now ∧ (haltedCtxOf c now).hbuf = c.hbuf) ∧
    (c.tip = true → (haltedCtxOf c now).hbuf = c.hbuf ++ saved c now ∧ (haltedCtxOf c now).lbuf = c.lbuf) := by
  obtain ⟨regs, traps, -, stream, landing⟩ := c.pauseC_keeps now
  have place : (c.pauseC now).cs.pc = c.cs.pc := by rw [stream]
  refine ⟨regs, traps, rfl, rfl, place, not_flying landing, fun outside => ?_, fun inside => ?_⟩
  · rw [haltedCtxOf, Context.pauseC_outside _ _ outside]
    exact ⟨rfl, rfl⟩
  · rw [haltedCtxOf, Context.pauseC_inside _ _ inside]
    exact ⟨rfl, rfl⟩

/-- A byte of the share of the context in focus written (R118, R197). -/
theorem exec_dbgWrite_share {s : State} {n : Fin 288} {cx : Bool} (idle : (s.dbg[n]).code ≠ 5) (opened : ¬ sealClosed s n.val)
    (halted : (s.focus n.val cx).ctx.halted = true) (inside : (s.focus n.val cx).inShare (8 * (s.dbg[n]).idx.toNat) = true) :
    ∃ t, exec (.dbgWrite n.val cx 15) s = .next t ∧ t.ctx = (s.focus n.val cx).ctx ∧ (t.dbg[n]).code = 0 ∧
      t.mem = s.mem.writeBytes (spKey (s.focus n.val cx).site (shareBase cx + 8 * (s.dbg[n]).idx.toNat))
        (leBytes 8 ((s.dbg[n]).hi ++ (s.dbg[n]).lo).toNat) := by
  have touches := (s.focus n.val cx).dbgTouch_contended 15 (s.dbg[n]).idx.toNat
  have writes := exec_dbgWrite idle opened halted (space := 15) (t := ((s.focus n.val cx).dbgTouch 15 (s.dbg[n]).idx.toNat).writeKey
    (spKey (s.focus n.val cx).site (shareBase cx + 8 * (s.dbg[n]).idx.toNat)) 8 ((s.dbg[n]).hi ++ (s.dbg[n]).lo).toNat)
  have letter : (s.focus n.val cx).cx = cx := s.focus_cx n.val cx
  have memory : (s.focus n.val cx).mem = s.mem := s.focus_mem n.val cx
  generalize (s.focus n.val cx).dbgTouch 15 (s.dbg[n]).idx.toNat = w at touches writes
  have same : w.site = (s.focus n.val cx).site ∧ w.cx = cx ∧ w.ctx = (s.focus n.val cx).ctx ∧ w.mem = s.mem ∧
      w.inShare (8 * (s.dbg[n]).idx.toNat) = true := by
    obtain ⟨delays, board, cores, rfl⟩ := touches
    exact ⟨rfl, letter, rfl, memory, inside⟩
  obtain ⟨site, letter', ctx, memory', within⟩ := same
  refine ⟨_, writes ?_, (State.dbgCode_ctx ..).trans ctx, State.dbgCode_code .., (State.dbgCode_mem ..).trans ?_⟩
  · rw [State.dbgWrite_share _ within, site, letter']
  · rw [← memory']
    rfl

end Sys2Proof.Machine
end

section
/-! PROOFS. Debug commands and breakpoints (R195 to R203). -/

namespace Sys2Proof.Proofs

open Sys2Proof.Machine Sys2Proof.Claims

/-- Settles O52: command by command, then the halt that lands, then breakpoints. -/
theorem debugCommandsAndBreakpoints : Obligations.DebugCommandsAndBreakpoints := by
  unfold Obligations.DebugCommandsAndBreakpoints
  refine ⟨?_, ?_, ?_⟩
  · intro n cx s closed f
    have memory : f.mem = s.mem := s.focus_mem n.val cx
    have window : f.dbg = s.dbg := s.focus_dbg n.val cx
    have site : f.site = n.val := s.focus_site n.val cx
    have letter : f.cx = cx := s.focus_cx n.val cx
    refine ⟨fun busy i cmd other => exec_command_busy busy cmd other, fun opened waits => ?_,
      fun idle shut i cmd => ⟨_, exec_command_sealed idle shut cmd, codeIs_dbgCode s n 2⟩, fun idle opened => ⟨?_, ?_, ?_, fun halted => ?_⟩⟩
    · have ended := State.endStep_ctx f f.cycle
      exact ⟨_, exec_dbgHalt_ends opened waits, (f.endStep_mem _).trans memory, f.endStep_regs _, State.endStep_code site _, by rw [ended]⟩
    · exact ⟨_, exec_dbgBadcmd idle opened, codeIs_dbgCode s n 4⟩
    · exact fun runs i needs => ⟨_, exec_needsHalt_running idle opened runs needs, codeIs_dbgCode f n 3⟩
    · intro still
      have goes : f.ctx.stepWaits = false := by rw [Context.stepWaits, still]
      have asks := (exec_dbgHalt_asks (cx := cx) opened goes).trans (congrArg Host.Outcome.next (State.command_open _ idle opened))
      obtain ⟨regs, stays, -⟩ := f.requestHalt_keeps
      cases halted : f.ctx.halted with
      | true =>
        rw [if_pos halted] at asks
        refine ⟨_, asks, (State.dbgCode_mem ..).trans memory, ?_⟩
        rw [State.dbgCode_ctx]
        exact ⟨sameRegs_refl f.ctx, State.dbgCode_code .., (Bool.or_false _).symm, halted, fun runs => absurd runs (by decide)⟩
      | false =>
        rw [if_neg (by rw [halted]; decide)] at asks
        refine ⟨_, asks, (State.dbgCode_mem ..).trans memory, ?_⟩
        rw [State.dbgCode_ctx]
        refine ⟨regs, State.dbgCode_code .., (Bool.or_true _).symm, stays.trans halted, fun _ active turn outside => ?_⟩
        have saves := State.requestHalt_saves (s := f) (active.trans letter.symm) turn outside
        rw [State.focus_cNow] at saves
        exact saves
    · refine ⟨?_, ?_, ?_, ?_, ?_, ?_, ?_, ?_⟩
      · obtain ⟨regs, traps, runs, unasked, streams⟩ := f.ctx.resumed_keeps
        refine ⟨_, exec_dbgResume idle opened halted, (State.dbgCode_mem ..).trans memory, ?_⟩
        rw [State.dbgCode_ctx]
        exact ⟨regs, traps, runs, unasked, streams, State.dbgCode_code ..⟩
      · intro st
        obtain ⟨regs, released, place, stands, steps⟩ := stepping_keeps f.ctx f.serial st
        refine ⟨_, exec_dbgStep idle opened halted st, (State.dbgCode_mem ..).trans memory, ?_⟩
        rw [State.dbgCode_ctx]
        exact ⟨regs, State.dbgCode_code .., released, place, stands.trans halted, steps⟩
      · intro space v item
        obtain ⟨delays, board, cores, touched⟩ := f.dbgTouch_contended space (s.dbg[n]).idx.toNat
        have reads := exec_dbgRead idle opened halted item
        rw [touched] at reads
        refine ⟨_, reads, (State.onDbg_mem ..).trans memory, State.onDbg_ctx .., ?_⟩
        rw [← window]
        exact State.onDbg_at ..
      · intro r named free
        obtain ⟨t, writes, kept, code, ctx⟩ := exec_dbgWrite_ctx idle opened halted (space := 0) (by decide)
          (named ▸ State.dbgWrite_x ((s.dbg[n]).hi ++ (s.dbg[n]).lo) free)
        refine ⟨t, writes, kept, code, ?_⟩
        rw [ctx]
        exact Context.setX_eq ..
      · intro r named
        obtain ⟨t, writes, kept, code, ctx⟩ := exec_dbgWrite_ctx idle opened halted (space := 3) (by decide)
          (named ▸ State.dbgWrite_a ((s.dbg[n]).hi ++ (s.dbg[n]).lo) r)
        refine ⟨t, writes, kept, code, ?_⟩
        rw [ctx]
        exact Context.setA_eq ..
      · intro inside share
        exact exec_dbgWrite_share idle opened halted ((f.inShare_iff _).2 ⟨inside, fun h => share ⟨h.1, letter.symm.trans h.2⟩⟩)
      · intro inside
        exact ⟨_, exec_dbgDrop idle opened halted inside, (State.dbgCode_mem ..).trans memory, State.dbgCode_code .., State.dbgCode_ctx ..⟩
      · intro i e outside few entry named
        exact exec_dbgWrite_ctx idle opened halted (space := 9) (by decide)
          (named ▸ State.dbgWrite_lbuf ((s.dbg[n]).hi ++ (s.dbg[n]).lo) outside few entry)
  · intro site cx s u running asked stays moves active turn stopped
    obtain ⟨t, lands, memory, ctx⟩ := exec_debugHaltLand running asked stays moves active turn stopped
    refine ⟨t, lands, memory, ?_⟩
    rw [ctx]
    exact haltedCtxOf_keeps u.ctx u.cycle
  · intro site cx st s u ready unasked fires
    have meaning := exec_breakpointFire ready unasked fires
    refine ⟨fun enabled => ?_, fun off c inside => ?_, fun off c outside handler => ?_, fun off engine => ?_⟩
    · obtain ⟨regs, -, place, issued⟩ := u.requestHalt_keeps
      exact ⟨_, meaning.trans (congrArg Host.Outcome.next (if_pos enabled)), rfl, s.focus_mem site cx, regs, place, issued⟩
    · subst c
      rw [off] at meaning
      have double := (State.enterTrapAt_double (s := u) (x := wordTrap .bkpt u.ctx.cs.pc 0 0) u.cycle u.ctx.cs.pc inside).2
      exact ⟨_, meaning, double⟩
    · subst c
      rw [off] at meaning
      exact ⟨_, meaning, State.trapWord_enters outside handler .bkpt 0⟩
    · rw [off, if_neg (by decide), if_neg engine] at meaning
      obtain ⟨kept, pends⟩ := u.faultAt_pends engine .bkpt 0
      exact ⟨_, meaning, kept.trans (s.focus_mem site cx), pends⟩

end Sys2Proof.Proofs
end
